-- ==== Sys2Proof/Word.lean ====
section
/-! DEFINITION. The word types of the CL8 and their plainest arithmetic. -/

namespace Sys2Proof

/-- A 64-bit scalar register value or virtual address (13 R188, 08 R119). -/
abbrev Word := BitVec 64
/-- A byte of memory, the smallest addressable unit. -/
abbrev Byte := BitVec 8
/-- A raw element of at most 64 bits, in the low bits (03 R33). -/
abbrev Elem := BitVec 64

end Sys2Proof
end

