-- ==== Sys2Proof/Config.lean ====
section
/-! DEFINITION. What the part fixes, and the values the spec leaves open: constants without a body, of which nothing can
be proved. -/

namespace Sys2Proof.Config

/-- Clusters of a die and of the package (00 R2). -/
def clustersPerDie : Nat := 8
/-- Bytes of a scratchpad segment (06 R90). -/
def segmentBytes : Nat := 0x10000
/-- The memory-model revision, MMREV (05 R78). -/
def mmrev : BitVec 32 := 1
/-- Bytes of bonded DRAM of a die (06 R93). -/
def dramBytes : Nat := 2 ^ 36
/-- Cycles of a period (09 R127). -/
def periodCycles : Nat := 65536

/-- A block cipher under fixed keys: encryption and decryption undo each other. -/
structure Cipher where
  enc     : BitVec 128 → BitVec 128 := fun x => x
  dec     : BitVec 128 → BitVec 128 := fun x => x
  dec_enc : ∀ x, dec (enc x) = x := by intro x; rfl
  enc_dec : ∀ x, enc (dec x) = x := by intro x; rfl
  deriving Inhabited

/-- AES-256-XTS under a data key and a tweak key at a 16-byte block of physical memory (06 R97): what it computes is the AES and
XTS standards' to say. Free value (log entry 8, DESIGN CHOICE; log entry 23, DESIGN CHOICE). -/
opaque xts (keys : BitVec 512) (block : Nat) : Cipher
/-- ACLK cycles that pass before a step reads TIME (09 R127). Free value (log entry 8, DESIGN CHOICE). -/
opaque cyclesPassed (n : Nat) : BitVec 32
/-- Which of two in-flight values a byte keeps, or whether a byte of a stopped piece was written (15 R255, R256, R260). Free value
(log entry 8, DESIGN CHOICE; log entry 33, DESIGN CHOICE; log entry 40, DESIGN CHOICE; log entry 53, DESIGN CHOICE). -/
opaque choice (n : Nat) : Bool
/-- How many bytes, less one, the next piece of a copy or collective holds, where no rule gives fewer (15 R255). Free value
(log entry 8, DESIGN CHOICE; log entry 33, DESIGN CHOICE). -/
opaque pieceBytes (n : Nat) : BitVec 12
/-- The row or element that the next piece of a copy belongs to, counted on from there past finished ones; the rank of a lost member
among those on other devices, counted so (15 R255, R260; 10 R141). Free value
(log entry 8, DESIGN CHOICE; log entry 33, DESIGN CHOICE; log entry 31, DESIGN CHOICE). -/
opaque pieceRow (n : Nat) : Nat
/-- How many cycles a released die's TIME lies behind D0's (09 R127). Free value (log entry 8, DESIGN CHOICE). -/
opaque releaseSkew (n : Nat) : BitVec 6
/-- A die's measurement digest under a firmware version (19 R310, R311). Free value
(log entry 8, DESIGN CHOICE; log entry 48, DESIGN CHOICE). -/
opaque digest (die version : Nat) : BitVec 256
/-- A die's identity public key (19 R311). Free value (log entry 8, DESIGN CHOICE; log entry 48, DESIGN CHOICE). -/
opaque identityKey (die : Nat) : List Byte
/-- D0's signature over a report (19 R311). Free value (log entry 8, DESIGN CHOICE; log entry 48, DESIGN CHOICE). -/
opaque signature (n : Nat) : List Byte
/-- A byte that a member on another device brings to a collective (15 R259). Free value
(log entry 8, DESIGN CHOICE; log entry 31, DESIGN CHOICE). -/
opaque remoteByte (n : Nat) : Byte
/-- What the error log and TVAL hold for a poisoned register, which has no address (06 R96, 18 R294). Free value
(log entry 8, DESIGN CHOICE; log entry 24, DESIGN CHOICE). -/
opaque registerAddress (n : Nat) : BitVec 64
/-- The sign of a PAIR value whose nonzero s and c cancel exactly, under a rounding mode (03 R53, 04 R64). Free value
(log entry 8, DESIGN CHOICE; log entry 22, DESIGN CHOICE). -/
opaque pairZeroNeg (mode : BitVec 3) (pair : Nat) : Bool
/-- A firmware update has defined a word of the range 0x78 to 0x7F, by the version it reports (12 R187). Free value
(log entry 8, DESIGN CHOICE; log entry 46, DESIGN CHOICE). -/
opaque wordDefined (isaver word : Nat) : Bool
/-- The TEXT that the Esnik translator makes of an ESNIK section for a part: a fixed function of its input (20 R324, R325). Free value
(log entry 8, DESIGN CHOICE; log entry 57, DESIGN CHOICE). -/
opaque esnikText (isaver : Nat) (input : List Byte) : List Byte
/-- The NEEDS section that the translator writes beside that TEXT (20 R324). Free value
(log entry 8, DESIGN CHOICE; log entry 57, DESIGN CHOICE). -/
opaque esnikNeeds (isaver : Nat) (input : List Byte) : List Byte

end Sys2Proof.Config
end

