-- ==== Sys2Proof/Syntax.lean ====
section
/-! DEFINITION. The instruction set as data: one constructor of `Instr` for each row of the opcode table, with its
operands already separated into register numbers, codes and immediates. The rows without an encoding are the steps of
the other agents of the package (matrix engine, homes, front end, firmware, host, host tools). -/

namespace Sys2Proof

/-- A scalar register x0 to x31 (05 R71). -/
abbrev XReg := Fin 32
/-- A vector register v0 to v31 (05 R71). -/
abbrev VReg := Fin 32
/-- A mask register m0 to m7 (05 R71). -/
abbrev MReg := Fin 8
/-- A stall count S (01 R5). -/
abbrev Stall := Fin 8
/-- An ordering class (10 R141). -/
abbrev Cls := Fin 16

/-- The operand format of a scalar floating-point major, in the order of majors 0x0C to 0x0F (12 R177). -/
inductive FpFmt | f64 | f32 | f16 | bf16
  deriving DecidableEq, Repr
/-- The rounding modes in the order of their codes 0 to 4 (03 R34). -/
inductive RMode | rne | rmm | rup | rdn | rtz
  deriving DecidableEq, Repr
/-- The scalar floating-point compares, selectors 2 to 5 (12 R177). -/
inductive FCmpOp | eq | lt | le | un
  deriving DecidableEq, Repr
/-- The scalar conversion codes (12 R177). -/
inductive CvtCode | toF64 | toF32 | toF16 | toBf16 | toI32 | toN32 | toI64 | toN64 | ofI32 | ofN32 | ofI64 | ofN64
  deriving DecidableEq, Repr
/-- The widths of LD, in the order of their codes 0 to 6 (12 R176). -/
inductive LdWidth | i8 | i16 | i32 | d | n8 | n16 | n32
  deriving DecidableEq, Repr
/-- The widths of ST and ST.G, in the order of their codes 0 to 3 (12 R176). -/
inductive StWidth | w8 | w16 | w32 | w64
  deriving DecidableEq, Repr
/-- The scopes in the order of their codes 0 to 4 (10 R146). -/
inductive Scope | t | c | d | p | s
  deriving DecidableEq, Repr
/-- The integer vector compares, funct3 0 to 5 (12 R179). -/
inductive VCmpOp | eq | ne | lt | le | gt | ge
  deriving DecidableEq, Repr
/-- The floating-point vector compares, funct3 0 to 6 (12 R179). -/
inductive VFCmpOp | eq | ne | lt | le | gt | ge | un
  deriving DecidableEq, Repr
/-- The integer reductions, funct3 0 to 5 (12 R180). -/
inductive RedOp | sum | min | max | and | or | xor
  deriving DecidableEq, Repr
/-- The paths of memory accesses (10 R138). -/
inductive Path | p0 | p1 | p2 | p3 | p4
  deriving DecidableEq, Repr
/-- The shared resources of a cluster (07 R101). -/
inductive SharedRes | loadStore | crossbar | special | drain | graver
  deriving DecidableEq, Repr
/-- The engine classes of a die (09 R128). -/
inductive EngineClass | thread | matrix | copy | collective
  deriving DecidableEq, Repr
/-- The events that each die weights (09 R130): a cycle of the MAC array by format, a row gathered, drained or filled, a vector lane
operation of an active element by kind, a digit step, a cache line, 64 bytes of DRAM or CXL memory, a flit
(log entry 9, DEDUCED). -/
inductive EnergyEvent
  | mac (fmt : BitVec 5)
  | row
  | lane (kind : BitVec 7)
  | digit
  | line
  | dram
  | flit
  deriving DecidableEq, Repr
/-- An event and how often it happened (09 R130). -/
structure EnergyCount where
  event : EnergyEvent
  count : Nat
  deriving DecidableEq, Repr
/-- What a key slot is loaded with: its number, the data key and the tweak key (08 R124). -/
structure KeyImage where
  slot  : BitVec 11
  data  : BitVec 256
  tweak : BitVec 256
  deriving DecidableEq, Repr
/-- What the loader loads and where: the object, the address space, the page of it and the frame of D0's memory to start from
(20 R318, 25 R339). -/
structure LoadOrder where
  object : Nat
  fn     : Fin 256
  sp     : Fin 256
  page   : Nat
  frame  : Nat
  deriving DecidableEq, Repr
/-- The four link ports of a die (19 R305). -/
inductive Port | n | e | s | w
  deriving DecidableEq, Repr
/-- The kinds of store with a corrected-error count on each die (06 R87, 09 R126). -/
inductive StoreKind | scratchpad | latch | chest | cache | dram | cxl | regfile | link
  deriving DecidableEq, Repr
/-- Where an uncorrectable error strikes (06 R96): a 64-byte granule of memory by its key, 64 bits of a register of the
context with the given number, or 64 bits of a latch. -/
inductive ErrSite
  | mem (key : Nat)
  | xreg (ctx : Nat) (r : XReg)
  | vreg (ctx : Nat) (r : VReg) (k : Nat)
  | latch (cl : Fin 64) (l : Fin 2) (k : Nat)
  | shadow (ctx : Nat) (r : VReg) (k : Nat)
  | mreg (ctx : Nat) (r : MReg) (k : Nat)
  | chest (cl : Fin 64) (i : Nat)
  deriving DecidableEq, Repr

/-- The steps of the part: one constructor for each row of the opcode table. -/
inductive Instr
  /-- VADD_VV (R216). Adds two integer vectors elementwise. -/
  | vaddVv (d : VReg) (a : VReg) (b : VReg) (m : MReg) (st : Stall)
  /-- VADD_VX (R216). Adds a scalar to an integer vector. -/
  | vaddVx (d : VReg) (a : VReg) (b : XReg) (m : MReg) (st : Stall)
  /-- VADD_VI (R216). Adds an immediate to an integer vector. -/
  | vaddVi (d : VReg) (a : VReg) (imm : BitVec 5) (m : MReg) (st : Stall)
  /-- VSUB_VV (R216). Subtracts two integer vectors elementwise. -/
  | vsubVv (d : VReg) (a : VReg) (b : VReg) (m : MReg) (st : Stall)
  /-- VSUB_VX (R216). Subtracts a scalar from an integer vector. -/
  | vsubVx (d : VReg) (a : VReg) (b : XReg) (m : MReg) (st : Stall)
  /-- VSUB_VI (R216). Subtracts an immediate from an integer vector. -/
  | vsubVi (d : VReg) (a : VReg) (imm : BitVec 5) (m : MReg) (st : Stall)
  /-- VMUL_VV (R216). Multiplies two integer vectors, keeping the low SEW bits or clamping. -/
  | vmulVv (d : VReg) (a : VReg) (b : VReg) (m : MReg) (st : Stall)
  /-- VMUL_VX (R216). Multiplies an integer vector by a scalar. -/
  | vmulVx (d : VReg) (a : VReg) (b : XReg) (m : MReg) (st : Stall)
  /-- VMUL_VI (R216). Multiplies an integer vector by an immediate. -/
  | vmulVi (d : VReg) (a : VReg) (imm : BitVec 5) (m : MReg) (st : Stall)
  /-- VMULH_VV (R216). Writes the high SEW bits of elementwise products. -/
  | vmulhVv (d : VReg) (a : VReg) (b : VReg) (m : MReg) (st : Stall)
  /-- VMULH_VX (R216). Writes the high SEW bits of products with a scalar. -/
  | vmulhVx (d : VReg) (a : VReg) (b : XReg) (m : MReg) (st : Stall)
  /-- VMULH_VI (R216). Writes the high SEW bits of products with an immediate. -/
  | vmulhVi (d : VReg) (a : VReg) (imm : BitVec 5) (m : MReg) (st : Stall)
  /-- VMACC_VV (R216). Adds elementwise products into vd. -/
  | vmaccVv (d : VReg) (a : VReg) (b : VReg) (m : MReg) (st : Stall)
  /-- VMACC_VX (R216). Adds products with a scalar into vd. -/
  | vmaccVx (d : VReg) (a : VReg) (b : XReg) (m : MReg) (st : Stall)
  /-- VMACC_VI (R216). Adds products with an immediate into vd. -/
  | vmaccVi (d : VReg) (a : VReg) (imm : BitVec 5) (m : MReg) (st : Stall)
  /-- VDIV_VV (R216). Divides integer vectors elementwise by R36. -/
  | vdivVv (d : VReg) (a : VReg) (b : VReg) (m : MReg) (st : Stall)
  /-- VDIV_VX (R216). Divides an integer vector by a scalar by R36. -/
  | vdivVx (d : VReg) (a : VReg) (b : XReg) (m : MReg) (st : Stall)
  /-- VDIV_VI (R216). Divides an integer vector by an immediate by R36. -/
  | vdivVi (d : VReg) (a : VReg) (imm : BitVec 5) (m : MReg) (st : Stall)
  /-- VREM_VV (R216). Writes elementwise remainders by R36. -/
  | vremVv (d : VReg) (a : VReg) (b : VReg) (m : MReg) (st : Stall)
  /-- VREM_VX (R216). Writes remainders by a scalar. -/
  | vremVx (d : VReg) (a : VReg) (b : XReg) (m : MReg) (st : Stall)
  /-- VREM_VI (R216). Writes remainders by an immediate. -/
  | vremVi (d : VReg) (a : VReg) (imm : BitVec 5) (m : MReg) (st : Stall)
  /-- VMIN_VV (R216). Writes elementwise integer minima. -/
  | vminVv (d : VReg) (a : VReg) (b : VReg) (m : MReg) (st : Stall)
  /-- VMIN_VX (R216). Writes minima against a scalar. -/
  | vminVx (d : VReg) (a : VReg) (b : XReg) (m : MReg) (st : Stall)
  /-- VMIN_VI (R216). Writes minima against an immediate. -/
  | vminVi (d : VReg) (a : VReg) (imm : BitVec 5) (m : MReg) (st : Stall)
  /-- VAND_VV (R216). Writes elementwise bitwise AND. -/
  | vandVv (d : VReg) (a : VReg) (b : VReg) (m : MReg) (st : Stall)
  /-- VAND_VX (R216). Writes bitwise AND with a scalar. -/
  | vandVx (d : VReg) (a : VReg) (b : XReg) (m : MReg) (st : Stall)
  /-- VAND_VI (R216). Writes bitwise AND with an immediate. -/
  | vandVi (d : VReg) (a : VReg) (imm : BitVec 5) (m : MReg) (st : Stall)
  /-- VOR_VV (R216). Writes elementwise bitwise OR. -/
  | vorVv (d : VReg) (a : VReg) (b : VReg) (m : MReg) (st : Stall)
  /-- VOR_VX (R216). Writes bitwise OR with a scalar. -/
  | vorVx (d : VReg) (a : VReg) (b : XReg) (m : MReg) (st : Stall)
  /-- VOR_VI (R216). Writes bitwise OR with an immediate. -/
  | vorVi (d : VReg) (a : VReg) (imm : BitVec 5) (m : MReg) (st : Stall)
  /-- VXOR_VV (R216). Writes elementwise bitwise XOR. -/
  | vxorVv (d : VReg) (a : VReg) (b : VReg) (m : MReg) (st : Stall)
  /-- VXOR_VX (R216). Writes bitwise XOR with a scalar. -/
  | vxorVx (d : VReg) (a : VReg) (b : XReg) (m : MReg) (st : Stall)
  /-- VXOR_VI (R216). Writes bitwise XOR with an immediate. -/
  | vxorVi (d : VReg) (a : VReg) (imm : BitVec 5) (m : MReg) (st : Stall)
  /-- VSHL_VV (R216). Shifts elements left by b mod SEW. -/
  | vshlVv (d : VReg) (a : VReg) (b : VReg) (m : MReg) (st : Stall)
  /-- VSHL_VX (R216). Shifts elements left by a scalar. -/
  | vshlVx (d : VReg) (a : VReg) (b : XReg) (m : MReg) (st : Stall)
  /-- VSHL_VI (R216). Shifts elements left by an unsigned immediate. -/
  | vshlVi (d : VReg) (a : VReg) (imm : BitVec 5) (m : MReg) (st : Stall)
  /-- VSHR_VV (R216). Shifts elements right logically. -/
  | vshrVv (d : VReg) (a : VReg) (b : VReg) (m : MReg) (st : Stall)
  /-- VSHR_VX (R216). Shifts elements right logically by a scalar. -/
  | vshrVx (d : VReg) (a : VReg) (b : XReg) (m : MReg) (st : Stall)
  /-- VSHR_VI (R216). Shifts elements right logically by an immediate. -/
  | vshrVi (d : VReg) (a : VReg) (imm : BitVec 5) (m : MReg) (st : Stall)
  /-- VSRA_VV (R216). Shifts elements right arithmetically. -/
  | vsraVv (d : VReg) (a : VReg) (b : VReg) (m : MReg) (st : Stall)
  /-- VSRA_VX (R216). Shifts elements right arithmetically by a scalar. -/
  | vsraVx (d : VReg) (a : VReg) (b : XReg) (m : MReg) (st : Stall)
  /-- VSRA_VI (R216). Shifts elements right arithmetically by an immediate. -/
  | vsraVi (d : VReg) (a : VReg) (imm : BitVec 5) (m : MReg) (st : Stall)
  /-- VSADD_VV (R216). Adds elementwise with clamping. -/
  | vsaddVv (d : VReg) (a : VReg) (b : VReg) (m : MReg) (st : Stall)
  /-- VSADD_VX (R216). Adds a scalar with clamping. -/
  | vsaddVx (d : VReg) (a : VReg) (b : XReg) (m : MReg) (st : Stall)
  /-- VSADD_VI (R216). Adds an immediate with clamping. -/
  | vsaddVi (d : VReg) (a : VReg) (imm : BitVec 5) (m : MReg) (st : Stall)
  /-- VSSUB_VV (R216). Subtracts elementwise with clamping. -/
  | vssubVv (d : VReg) (a : VReg) (b : VReg) (m : MReg) (st : Stall)
  /-- VSSUB_VX (R216). Subtracts a scalar with clamping. -/
  | vssubVx (d : VReg) (a : VReg) (b : XReg) (m : MReg) (st : Stall)
  /-- VSSUB_VI (R216). Subtracts an immediate with clamping. -/
  | vssubVi (d : VReg) (a : VReg) (imm : BitVec 5) (m : MReg) (st : Stall)
  /-- VMAX_VV (R216). Writes elementwise integer maxima. -/
  | vmaxVv (d : VReg) (a : VReg) (b : VReg) (m : MReg) (st : Stall)
  /-- VMAX_VX (R216). Writes maxima against a scalar. -/
  | vmaxVx (d : VReg) (a : VReg) (b : XReg) (m : MReg) (st : Stall)
  /-- VMAX_VI (R216). Writes maxima against an immediate. -/
  | vmaxVi (d : VReg) (a : VReg) (imm : BitVec 5) (m : MReg) (st : Stall)
  /-- VCMP_VV (R217). Writes a mask of elements where va cc vb holds. -/
  | vcmpVv (cc : VCmpOp) (d : MReg) (a : VReg) (b : VReg) (m : MReg) (st : Stall)
  /-- VCMP_VX (R217). Writes a mask of elements where va cc xb holds. -/
  | vcmpVx (cc : VCmpOp) (d : MReg) (a : VReg) (b : XReg) (m : MReg) (st : Stall)
  /-- VCMP_VI (R217). Writes a mask of elements where va cc imm holds. -/
  | vcmpVi (cc : VCmpOp) (d : MReg) (a : VReg) (imm : BitVec 5) (m : MReg) (st : Stall)
  /-- VFADD_VV (R218). Adds floating-point vectors with one rounding per element. -/
  | vfaddVv (d : VReg) (a : VReg) (b : VReg) (m : MReg) (st : Stall)
  /-- VFADD_VX (R218). Adds a scalar to a floating-point vector. -/
  | vfaddVx (d : VReg) (a : VReg) (b : XReg) (m : MReg) (st : Stall)
  /-- VFSUB_VV (R218). Subtracts floating-point vectors. -/
  | vfsubVv (d : VReg) (a : VReg) (b : VReg) (m : MReg) (st : Stall)
  /-- VFSUB_VX (R218). Subtracts a scalar from a floating-point vector. -/
  | vfsubVx (d : VReg) (a : VReg) (b : XReg) (m : MReg) (st : Stall)
  /-- VFMUL_VV (R218). Multiplies floating-point vectors. -/
  | vfmulVv (d : VReg) (a : VReg) (b : VReg) (m : MReg) (st : Stall)
  /-- VFMUL_VX (R218). Multiplies a floating-point vector by a scalar. -/
  | vfmulVx (d : VReg) (a : VReg) (b : XReg) (m : MReg) (st : Stall)
  /-- VFMACC_VV (R218). Writes a × b + vd with one rounding. -/
  | vfmaccVv (d : VReg) (a : VReg) (b : VReg) (m : MReg) (st : Stall)
  /-- VFMACC_VX (R218). Writes a × xb + vd with one rounding. -/
  | vfmaccVx (d : VReg) (a : VReg) (b : XReg) (m : MReg) (st : Stall)
  /-- VFNMSAC_VV (R218). Writes vd - a × b with one rounding. -/
  | vfnmsacVv (d : VReg) (a : VReg) (b : VReg) (m : MReg) (st : Stall)
  /-- VFNMSAC_VX (R218). Writes vd - a × xb with one rounding. -/
  | vfnmsacVx (d : VReg) (a : VReg) (b : XReg) (m : MReg) (st : Stall)
  /-- VFDIV_VV (R218). Divides floating-point vectors. -/
  | vfdivVv (d : VReg) (a : VReg) (b : VReg) (m : MReg) (st : Stall)
  /-- VFDIV_VX (R218). Divides a floating-point vector by a scalar. -/
  | vfdivVx (d : VReg) (a : VReg) (b : XReg) (m : MReg) (st : Stall)
  /-- VFMIN_VV (R218). Writes floating-point minima by R193. -/
  | vfminVv (d : VReg) (a : VReg) (b : VReg) (m : MReg) (st : Stall)
  /-- VFMIN_VX (R218). Writes floating-point minima against a scalar. -/
  | vfminVx (d : VReg) (a : VReg) (b : XReg) (m : MReg) (st : Stall)
  /-- VFMAX_VV (R218). Writes floating-point maxima by R193. -/
  | vfmaxVv (d : VReg) (a : VReg) (b : VReg) (m : MReg) (st : Stall)
  /-- VFMAX_VX (R218). Writes floating-point maxima against a scalar. -/
  | vfmaxVx (d : VReg) (a : VReg) (b : XReg) (m : MReg) (st : Stall)
  /-- VFCMP_VV (R219). Writes a mask of elements where the floating-point relation holds. -/
  | vfcmpVv (cc : VFCmpOp) (d : MReg) (a : VReg) (b : VReg) (m : MReg) (st : Stall)
  /-- VFCMP_VX (R219). Writes a mask of elements where the relation with a scalar holds. -/
  | vfcmpVx (cc : VFCmpOp) (d : MReg) (a : VReg) (b : XReg) (m : MReg) (st : Stall)
  /-- VFSQRT (R218). Writes rounded square roots. -/
  | vfsqrt (d : VReg) (a : VReg) (m : MReg) (st : Stall)
  /-- VFCLASS (R219). Writes the class code of each element. -/
  | vfclass (d : VReg) (a : VReg) (m : MReg) (st : Stall)
  /-- VEXP2 (R220). Writes correctly rounded 2^a. -/
  | vexp2 (d : VReg) (a : VReg) (m : MReg)
  /-- VLOG2 (R220). Writes correctly rounded log2 a. -/
  | vlog2 (d : VReg) (a : VReg) (m : MReg)
  /-- VRCP (R220). Writes correctly rounded 1/a. -/
  | vrcp (d : VReg) (a : VReg) (m : MReg)
  /-- VRSQ (R220). Writes correctly rounded 1/sqrt(a). -/
  | vrsq (d : VReg) (a : VReg) (m : MReg)
  /-- VSIN (R220). Writes correctly rounded sin a. -/
  | vsin (d : VReg) (a : VReg) (m : MReg)
  /-- VCOS (R220). Writes correctly rounded cos a. -/
  | vcos (d : VReg) (a : VReg) (m : MReg)
  /-- VFCVT_TO (R221). Converts elements from FMT to the format named by the code. -/
  | vfcvtTo (cs : Bool) (code : BitVec 5) (d : VReg) (a : VReg) (m : MReg) (st : Stall)
  /-- VFCVT_FROM (R221). Converts elements from the format named by the code to FMT. -/
  | vfcvtFrom (cs : Bool) (code : BitVec 5) (d : VReg) (a : VReg) (m : MReg) (st : Stall)
  /-- VMV_VV (R222). Copies active elements, with descriptors under a nonzero BL. -/
  | vmvVv (d : VReg) (a : VReg) (m : MReg) (st : Stall)
  /-- VMERGE_VV (R222). Selects vb where the selector mask is set, else va. -/
  | vmergeVv (d : VReg) (a : VReg) (b : VReg) (m : MReg) (st : Stall)
  /-- VSLIDEUP_VX (R223). Slides elements up by a scalar offset. -/
  | vslideupVx (d : VReg) (a : VReg) (b : XReg) (m : MReg)
  /-- VSLIDEDN_VX (R223). Slides elements down by a scalar offset. -/
  | vslidednVx (d : VReg) (a : VReg) (b : XReg) (m : MReg)
  /-- VPERM_VV (R223). Gathers elements of va by the indices in vi. -/
  | vpermVv (d : VReg) (a : VReg) (b : VReg) (m : MReg)
  /-- VIOTA (R223). Writes the count of earlier active set bits of a mask. -/
  | viota (d : VReg) (ms : MReg) (m : MReg)
  /-- VEXTX (R224). Moves one element, chosen by an x index, into an x register. -/
  | vextx (d : XReg) (a : VReg) (b : XReg)
  /-- VINSX (R224). Writes an x value into one element chosen by an x index. -/
  | vinsx (d : VReg) (a : XReg) (b : XReg)
  /-- VBCAST_VX (R222). Broadcasts the low SEW bits of a scalar. -/
  | vbcastVx (d : VReg) (b : XReg) (m : MReg) (st : Stall)
  /-- VBCAST_VI (R222). Broadcasts a sign-extended immediate. -/
  | vbcastVi (d : VReg) (imm : BitVec 5) (m : MReg) (st : Stall)
  /-- VSLIDEUP_VI (R223). Slides elements up by an immediate offset. -/
  | vslideupVi (d : VReg) (a : VReg) (imm : BitVec 5) (m : MReg)
  /-- VSLIDEDN_VI (R223). Slides elements down by an immediate offset. -/
  | vslidednVi (d : VReg) (a : VReg) (imm : BitVec 5) (m : MReg)
  /-- VMERGE_VX (R222). Selects a scalar where the selector mask is set, else va. -/
  | vmergeVx (d : VReg) (a : VReg) (b : XReg) (m : MReg) (st : Stall)
  /-- VMERGE_VI (R222). Selects an immediate where the selector mask is set, else va. -/
  | vmergeVi (d : VReg) (a : VReg) (imm : BitVec 5) (m : MReg) (st : Stall)
  /-- VRED (R225). Writes the integer SUM, MIN, MAX, AND, OR or XOR reduction of active elements, seeded by vs[0]. -/
  | vred (o : RedOp) (d : VReg) (a : VReg) (b : VReg) (m : MReg)
  /-- VFRED_O (R225). Writes the ordered floating-point sum of active elements. -/
  | vfredO (d : VReg) (a : VReg) (b : VReg) (m : MReg)
  /-- VFRED_T (R225). Writes the tree floating-point sum of active elements. -/
  | vfredT (d : VReg) (a : VReg) (b : VReg) (m : MReg)
  /-- VFRED_MIN (R225). Writes the floating-point minimum of the seed and active elements. -/
  | vfredMin (d : VReg) (a : VReg) (b : VReg) (m : MReg)
  /-- VFRED_MAX (R225). Writes the floating-point maximum of the seed and active elements. -/
  | vfredMax (d : VReg) (a : VReg) (b : VReg) (m : MReg)
  /-- MAND (R226). Writes the AND of two masks. -/
  | mand (d : MReg) (a : MReg) (b : MReg) (st : Stall)
  /-- MOR (R226). Writes the OR of two masks. -/
  | mor (d : MReg) (a : MReg) (b : MReg) (st : Stall)
  /-- MXOR (R226). Writes the XOR of two masks. -/
  | mxor (d : MReg) (a : MReg) (b : MReg) (st : Stall)
  /-- MNOT (R226). Writes the complement of a mask. -/
  | mnot (d : MReg) (a : MReg) (st : Stall)
  /-- MPOPC (R226). Writes the count of set mask bits below VL to an x register. -/
  | mpopc (d : XReg) (a : MReg) (m : MReg) (st : Stall)
  /-- MFIRST (R226). Writes the index of the first set mask bit, or all ones. -/
  | mfirst (d : XReg) (a : MReg) (m : MReg) (st : Stall)
  /-- MMV (R226). Copies a mask. -/
  | mmv (d : MReg) (a : MReg) (st : Stall)
  /-- VCOMPRESS (R227). Packs the selected elements of va into the low elements of vd. -/
  | vcompress (d : VReg) (a : VReg) (m : MReg)
  /-- VCOMPRESS_VL (R227). Packs selected elements and sets VL to their count. -/
  | vcompressVl (d : VReg) (a : VReg) (m : MReg)
  /-- VEXPAND (R227). Spreads consecutive elements of va into the active positions of vd. -/
  | vexpand (d : VReg) (a : VReg) (m : MReg)
  /-- VPPOPC (R229). Writes the running popcount over active elements. -/
  | vppopc (d : VReg) (a : VReg) (m : MReg)
  /-- VCONFL (R229). Writes the greatest earlier active index with an equal key. -/
  | vconfl (d : VReg) (a : VReg) (m : MReg)
  /-- VRANK (R229). Writes the count of earlier active elements with an equal key. -/
  | vrank (d : VReg) (a : VReg) (m : MReg)
  /-- VKCOUNT (R229). Writes a histogram of keys in the window [xb, xb + VL). -/
  | vkcount (d : VReg) (a : VReg) (b : XReg) (m : MReg)
  /-- VNFBLK (R228). Writes a mask of positions holding non-finite values or blocks. -/
  | vnfblk (d : MReg) (a : VReg) (m : MReg)
  /-- VSCAN_ADD (R230). Writes an inclusive, optionally segmented, integer sum scan. -/
  | vscanAdd (d : VReg) (a : VReg) (ms : MReg) (m : MReg)
  /-- VSCAN_MIN (R230). Writes an inclusive integer minimum scan. -/
  | vscanMin (d : VReg) (a : VReg) (ms : MReg) (m : MReg)
  /-- VSCAN_MAX (R230). Writes an inclusive integer maximum scan. -/
  | vscanMax (d : VReg) (a : VReg) (ms : MReg) (m : MReg)
  /-- VSCAN_FADD (R230). Writes an inclusive floating-point sum scan rounded at each step. -/
  | vscanFadd (d : VReg) (a : VReg) (ms : MReg) (m : MReg)
  /-- VCOMPRESS_KEEPNF (R227). Packs elements selected by the mask or by the kept mask. -/
  | vcompressKeepnf (d : VReg) (a : VReg) (mk : MReg) (m : MReg)
  /-- VCOMPRESS_KEEPNF_VL (R227). Packs elements selected by either mask and sets VL to their count. -/
  | vcompressKeepnfVl (d : VReg) (a : VReg) (mk : MReg) (m : MReg)
  /-- VSTOP (R232). Stops the VPs of its issue group inside a VFETCH block. -/
  | vstop
  /-- VPID (R234). Writes each active element's index modulo 2^SEW. -/
  | vpid (d : VReg) (m : MReg)
  /-- VRAND (R231). Writes pseudo-random values from RNG by active rank and advances RNG. -/
  | vrand (d : VReg) (m : MReg) (st : Stall)
  /-- VFETCH (R18). Runs a block on every active VP, each following its own path, until all stop. -/
  | vfetch (off : BitVec 19) (m : MReg)
  /-- VPJ (R232). Sends the VPs of the issue group with mask bit set to the target. -/
  | vpj (off : BitVec 19) (m : MReg)
  /-- VLD (R237). Loads unit-stride elements, tile rows or row records on P1. -/
  | vld (d : VReg) (a : XReg) (cls : Cls) (e : Bool) (y : Bool) (m : MReg)
  /-- VLDS (R237). Loads elements or rows at a signed byte stride. -/
  | vlds (d : VReg) (a : XReg) (b : XReg) (cls : Cls) (e : Bool) (y : Bool) (m : MReg)
  /-- VLDX (R237). Loads elements or rows at indexed addresses. -/
  | vldx (d : VReg) (a : XReg) (ix : VReg) (cls : Cls) (e : Bool) (y : Bool) (m : MReg)
  /-- VLDF (R241). Loads like VLD but shortens VL at the first later faulting element instead of trapping. -/
  | vldf (d : VReg) (a : XReg) (cls : Cls) (e : Bool) (y : Bool) (m : MReg)
  /-- VST (R238). Stores active body elements, tile rows or row records on P1. -/
  | vst (d : VReg) (a : XReg) (cls : Cls) (e : Bool) (y : Bool) (m : MReg)
  /-- VSTS (R238). Stores elements or rows at a signed byte stride. -/
  | vsts (d : VReg) (a : XReg) (b : XReg) (cls : Cls) (e : Bool) (y : Bool) (m : MReg)
  /-- VSTX (R238). Stores elements or rows at indexed addresses. -/
  | vstx (d : VReg) (a : XReg) (ix : VReg) (cls : Cls) (e : Bool) (y : Bool) (m : MReg)
  /-- VST_G (R244). Stores unit-stride elements as globally acknowledged stores. -/
  | vstG (d : VReg) (a : XReg) (cls : Cls) (e : Bool) (y : Bool) (m : MReg)
  /-- VSTX_G (R244). Stores indexed elements as globally acknowledged stores. -/
  | vstxG (d : VReg) (a : XReg) (ix : VReg) (cls : Cls) (e : Bool) (y : Bool) (m : MReg)
  /-- VLD_SC (R245). Probes, then loads elements one at a time in ticket order at scope P. -/
  | vldSc (d : VReg) (a : XReg) (cls : Cls) (m : MReg)
  /-- VST_SC (R245). Probes, then stores elements one at a time in ticket order at scope P. -/
  | vstSc (d : VReg) (a : XReg) (cls : Cls) (m : MReg)
  /-- VAMO_ADD (R247). Near vector atomic add at indexed addresses, returning old values. -/
  | vamoAdd (d : VReg) (a : XReg) (ix : VReg) (cls : Cls) (m : MReg)
  /-- VAMO_AND (R247). Near vector atomic AND. -/
  | vamoAnd (d : VReg) (a : XReg) (ix : VReg) (cls : Cls) (m : MReg)
  /-- VAMO_OR (R247). Near vector atomic OR. -/
  | vamoOr (d : VReg) (a : XReg) (ix : VReg) (cls : Cls) (m : MReg)
  /-- VAMO_XOR (R247). Near vector atomic XOR. -/
  | vamoXor (d : VReg) (a : XReg) (ix : VReg) (cls : Cls) (m : MReg)
  /-- VAMO_MIN (R247). Near vector atomic signed minimum. -/
  | vamoMin (d : VReg) (a : XReg) (ix : VReg) (cls : Cls) (m : MReg)
  /-- VAMO_MAX (R247). Near vector atomic signed maximum. -/
  | vamoMax (d : VReg) (a : XReg) (ix : VReg) (cls : Cls) (m : MReg)
  /-- VAMO_MINN (R247). Near vector atomic unsigned minimum. -/
  | vamoMinn (d : VReg) (a : XReg) (ix : VReg) (cls : Cls) (m : MReg)
  /-- VAMO_MAXN (R247). Near vector atomic unsigned maximum. -/
  | vamoMaxn (d : VReg) (a : XReg) (ix : VReg) (cls : Cls) (m : MReg)
  /-- VAMO_SWAP (R247). Near vector atomic swap. -/
  | vamoSwap (d : VReg) (a : XReg) (ix : VReg) (cls : Cls) (m : MReg)
  /-- VAMO_CAS (R247). Near vector atomic compare-and-swap with new values from vd + LMUL. -/
  | vamoCas (d : VReg) (a : XReg) (ix : VReg) (cls : Cls) (m : MReg)
  /-- VAMO_FADD (R247). Near vector atomic floating-point add, RNE, no flags. -/
  | vamoFadd (d : VReg) (a : XReg) (ix : VReg) (cls : Cls) (m : MReg)
  /-- VAMO_F_ADD (R247). Far vector atomic add at the home or owning lane. -/
  | vamoFAdd (d : VReg) (a : XReg) (ix : VReg) (cls : Cls) (m : MReg)
  /-- VAMO_F_AND (R247). Far vector atomic AND. -/
  | vamoFAnd (d : VReg) (a : XReg) (ix : VReg) (cls : Cls) (m : MReg)
  /-- VAMO_F_OR (R247). Far vector atomic OR. -/
  | vamoFOr (d : VReg) (a : XReg) (ix : VReg) (cls : Cls) (m : MReg)
  /-- VAMO_F_XOR (R247). Far vector atomic XOR. -/
  | vamoFXor (d : VReg) (a : XReg) (ix : VReg) (cls : Cls) (m : MReg)
  /-- VAMO_F_MIN (R247). Far vector atomic signed minimum. -/
  | vamoFMin (d : VReg) (a : XReg) (ix : VReg) (cls : Cls) (m : MReg)
  /-- VAMO_F_MAX (R247). Far vector atomic signed maximum. -/
  | vamoFMax (d : VReg) (a : XReg) (ix : VReg) (cls : Cls) (m : MReg)
  /-- VAMO_F_MINN (R247). Far vector atomic unsigned minimum. -/
  | vamoFMinn (d : VReg) (a : XReg) (ix : VReg) (cls : Cls) (m : MReg)
  /-- VAMO_F_MAXN (R247). Far vector atomic unsigned maximum. -/
  | vamoFMaxn (d : VReg) (a : XReg) (ix : VReg) (cls : Cls) (m : MReg)
  /-- VAMO_F_SWAP (R247). Far vector atomic swap. -/
  | vamoFSwap (d : VReg) (a : XReg) (ix : VReg) (cls : Cls) (m : MReg)
  /-- VAMO_F_CAS (R247). Far vector atomic compare-and-swap. -/
  | vamoFCas (d : VReg) (a : XReg) (ix : VReg) (cls : Cls) (m : MReg)
  /-- VAMO_F_FADD (R247). Far vector atomic floating-point add. -/
  | vamoFFadd (d : VReg) (a : XReg) (ix : VReg) (cls : Cls) (m : MReg)
  /-- ADD (R189). Writes xa + xb modulo 2^64 to xd. -/
  | add (d : XReg) (a : XReg) (b : XReg) (st : Stall)
  /-- SUB (R189). Writes xa - xb modulo 2^64 to xd. -/
  | sub (d : XReg) (a : XReg) (b : XReg) (st : Stall)
  /-- MUL (R189). Writes the low 64 bits of xa × xb to xd. -/
  | mul (d : XReg) (a : XReg) (b : XReg) (st : Stall)
  /-- MULH (R189). Writes the high 64 bits of the signed 128-bit product to xd. -/
  | mulh (d : XReg) (a : XReg) (b : XReg) (st : Stall)
  /-- MULHN (R189). Writes the high 64 bits of the unsigned 128-bit product to xd. -/
  | mulhn (d : XReg) (a : XReg) (b : XReg) (st : Stall)
  /-- DIV (R189). Writes the signed quotient to xd, saturating in the cases of R36. -/
  | div (d : XReg) (a : XReg) (b : XReg) (st : Stall)
  /-- DIVN (R189). Writes the unsigned quotient to xd, all ones for a zero divisor. -/
  | divn (d : XReg) (a : XReg) (b : XReg) (st : Stall)
  /-- REM (R189). Writes the signed remainder to xd by R36. -/
  | rem (d : XReg) (a : XReg) (b : XReg) (st : Stall)
  /-- REMN (R189). Writes the unsigned remainder to xd by R36. -/
  | remn (d : XReg) (a : XReg) (b : XReg) (st : Stall)
  /-- AND (R189). Writes the bitwise AND of xa and xb to xd. -/
  | and (d : XReg) (a : XReg) (b : XReg) (st : Stall)
  /-- OR (R189). Writes the bitwise OR of xa and xb to xd. -/
  | or (d : XReg) (a : XReg) (b : XReg) (st : Stall)
  /-- XOR (R189). Writes the bitwise XOR of xa and xb to xd. -/
  | xor (d : XReg) (a : XReg) (b : XReg) (st : Stall)
  /-- SHL (R189). Shifts xa left by xb[5:0]. -/
  | shl (d : XReg) (a : XReg) (b : XReg) (st : Stall)
  /-- SHR (R189). Shifts xa right logically by xb[5:0]. -/
  | shr (d : XReg) (a : XReg) (b : XReg) (st : Stall)
  /-- SRA (R189). Shifts xa right arithmetically by xb[5:0]. -/
  | sra (d : XReg) (a : XReg) (b : XReg) (st : Stall)
  /-- MIN (R189). Writes the signed minimum of xa and xb. -/
  | min (d : XReg) (a : XReg) (b : XReg) (st : Stall)
  /-- MAX (R189). Writes the signed maximum of xa and xb. -/
  | max (d : XReg) (a : XReg) (b : XReg) (st : Stall)
  /-- MINN (R189). Writes the unsigned minimum of xa and xb. -/
  | minn (d : XReg) (a : XReg) (b : XReg) (st : Stall)
  /-- MAXN (R189). Writes the unsigned maximum of xa and xb. -/
  | maxn (d : XReg) (a : XReg) (b : XReg) (st : Stall)
  /-- SLT (R189). Writes 1 if xa < xb signed, else 0. -/
  | slt (d : XReg) (a : XReg) (b : XReg) (st : Stall)
  /-- SLTN (R189). Writes 1 if xa < xb unsigned, else 0. -/
  | sltn (d : XReg) (a : XReg) (b : XReg) (st : Stall)
  /-- SEL (R189). Writes xa if the old xd is nonzero, else xb. -/
  | sel (d : XReg) (a : XReg) (b : XReg) (st : Stall)
  /-- CLZ (R189). Writes the count of leading zero bits of xa. -/
  | clz (d : XReg) (a : XReg) (st : Stall)
  /-- CTZ (R189). Writes the count of trailing zero bits of xa. -/
  | ctz (d : XReg) (a : XReg) (st : Stall)
  /-- POPC (R189). Writes the number of set bits of xa. -/
  | popc (d : XReg) (a : XReg) (st : Stall)
  /-- BREV (R189). Writes xa with its bit order reversed. -/
  | brev (d : XReg) (a : XReg) (st : Stall)
  /-- ADDI (R190). Writes xa + sext(imm11). -/
  | addi (d : XReg) (a : XReg) (imm : BitVec 11) (st : Stall)
  /-- ANDI (R190). Writes xa AND sext(imm11). -/
  | andi (d : XReg) (a : XReg) (imm : BitVec 11) (st : Stall)
  /-- ORI (R190). Writes xa OR sext(imm11). -/
  | ori (d : XReg) (a : XReg) (imm : BitVec 11) (st : Stall)
  /-- XORI (R190). Writes xa XOR sext(imm11). -/
  | xori (d : XReg) (a : XReg) (imm : BitVec 11) (st : Stall)
  /-- SHLI (R190). Shifts xa left by an immediate 0-63. -/
  | shli (d : XReg) (a : XReg) (sh : BitVec 6) (st : Stall)
  /-- SHRI (R190). Shifts xa right logically by an immediate 0-63. -/
  | shri (d : XReg) (a : XReg) (sh : BitVec 6) (st : Stall)
  /-- SRAI (R190). Shifts xa right arithmetically by an immediate 0-63. -/
  | srai (d : XReg) (a : XReg) (sh : BitVec 6) (st : Stall)
  /-- SLTI (R190). Writes 1 if xa < sext(imm11) signed, else 0. -/
  | slti (d : XReg) (a : XReg) (imm : BitVec 11) (st : Stall)
  /-- LIH (R190). Writes (old xd << 16) OR imm16. -/
  | lih (d : XReg) (imm : BitVec 16) (st : Stall)
  /-- ADPC (R190). Writes PC + sext(imm16) × 2048. -/
  | adpc (d : XReg) (imm : BitVec 16) (st : Stall)
  /-- FADD (R192). Adds two scalar floating-point values of the major's format with one rounding. -/
  | fadd (f : FpFmt) (rm : RMode) (d : XReg) (a : XReg) (b : XReg) (st : Stall)
  /-- FSUB (R192). Subtracts two scalar floating-point values with one rounding. -/
  | fsub (f : FpFmt) (rm : RMode) (d : XReg) (a : XReg) (b : XReg) (st : Stall)
  /-- FMUL (R192). Multiplies two scalar floating-point values with one rounding. -/
  | fmul (f : FpFmt) (rm : RMode) (d : XReg) (a : XReg) (b : XReg) (st : Stall)
  /-- FFMA (R192). Writes xa × xb + old xd with one rounding. -/
  | ffma (f : FpFmt) (rm : RMode) (d : XReg) (a : XReg) (b : XReg) (st : Stall)
  /-- FDIV (R192). Divides xa by xb with one rounding. -/
  | fdiv (f : FpFmt) (rm : RMode) (d : XReg) (a : XReg) (b : XReg) (st : Stall)
  /-- FMIN (R193). Writes the floating-point minimum, ordering -0 below +0. -/
  | fmin (f : FpFmt) (d : XReg) (a : XReg) (b : XReg) (st : Stall)
  /-- FMAX (R193). Writes the floating-point maximum, ordering -0 below +0. -/
  | fmax (f : FpFmt) (d : XReg) (a : XReg) (b : XReg) (st : Stall)
  /-- FCMP (R193). Writes 1 if the selected relation EQ, LT, LE or UN holds, else 0. -/
  | fcmp (f : FpFmt) (cc : FCmpOp) (d : XReg) (a : XReg) (b : XReg) (st : Stall)
  /-- FSQRT (R192). Writes the rounded square root of xa. -/
  | fsqrt (f : FpFmt) (rm : RMode) (d : XReg) (a : XReg) (st : Stall)
  /-- FCVT (R192). Converts xa by the conversion code of R177. -/
  | fcvt (f : FpFmt) (code : CvtCode) (rm : RMode) (d : XReg) (a : XReg) (st : Stall)
  /-- FCLASS (R193). Writes the 4-bit class code of xa. -/
  | fclass (f : FpFmt) (d : XReg) (a : XReg) (st : Stall)
  /-- LD (R194). Loads a 1-8 byte value on P0, sign- or zero-extended into xd. -/
  | ld (w : LdWidth) (d : XReg) (a : XReg) (imm : BitVec 7) (cls : Cls)
  /-- ST (R194). Stores 1-8 bytes of xs on P0 as an early-forwarding store. -/
  | st (w : StWidth) (b : XReg) (a : XReg) (imm : BitVec 7) (cls : Cls)
  /-- ST_G (R194). Stores 1-8 bytes of xs on P0 as a globally acknowledged store. -/
  | stG (w : StWidth) (b : XReg) (a : XReg) (imm : BitVec 7) (cls : Cls)
  /-- AMO_ADD (R195). Atomically adds xb to a 64-bit word and returns the old value. -/
  | amoAdd (d : XReg) (a : XReg) (b : XReg) (cls : Cls) (sc : Scope)
  /-- AMO_AND (R195). Atomically ANDs xb into a 64-bit word and returns the old value. -/
  | amoAnd (d : XReg) (a : XReg) (b : XReg) (cls : Cls) (sc : Scope)
  /-- AMO_OR (R195). Atomically ORs xb into a 64-bit word and returns the old value. -/
  | amoOr (d : XReg) (a : XReg) (b : XReg) (cls : Cls) (sc : Scope)
  /-- AMO_XOR (R195). Atomically XORs xb into a 64-bit word and returns the old value. -/
  | amoXor (d : XReg) (a : XReg) (b : XReg) (cls : Cls) (sc : Scope)
  /-- AMO_MIN (R195). Atomically stores the signed minimum and returns the old value. -/
  | amoMin (d : XReg) (a : XReg) (b : XReg) (cls : Cls) (sc : Scope)
  /-- AMO_MAX (R195). Atomically stores the signed maximum and returns the old value. -/
  | amoMax (d : XReg) (a : XReg) (b : XReg) (cls : Cls) (sc : Scope)
  /-- AMO_MINN (R195). Atomically stores the unsigned minimum and returns the old value. -/
  | amoMinn (d : XReg) (a : XReg) (b : XReg) (cls : Cls) (sc : Scope)
  /-- AMO_MAXN (R195). Atomically stores the unsigned maximum and returns the old value. -/
  | amoMaxn (d : XReg) (a : XReg) (b : XReg) (cls : Cls) (sc : Scope)
  /-- AMO_SWAP (R195). Atomically swaps xb into a 64-bit word and returns the old value. -/
  | amoSwap (d : XReg) (a : XReg) (b : XReg) (cls : Cls) (sc : Scope)
  /-- AMO_CAS (R195). Atomically stores xb if the word equals xd, and returns the old value. -/
  | amoCas (d : XReg) (a : XReg) (b : XReg) (cls : Cls) (sc : Scope)
  /-- AMOQPOP (R112). Indivisibly pops the tail item index of a deque header, or returns empty. -/
  | amoqpop (d : XReg) (a : XReg) (cls : Cls) (sc : Scope)
  /-- AMOQSTEAL (R112). Indivisibly steals the head item index of a deque header, or returns empty. -/
  | amoqsteal (d : XReg) (a : XReg) (cls : Cls) (sc : Scope)
  /-- BEQ (R197). Branches by offset14 when xa equals xb. -/
  | beq (a : XReg) (b : XReg) (off : BitVec 14)
  /-- BNE (R197). Branches by offset14 when xa differs from xb. -/
  | bne (a : XReg) (b : XReg) (off : BitVec 14)
  /-- BLT (R197). Branches when xa < xb signed. -/
  | blt (a : XReg) (b : XReg) (off : BitVec 14)
  /-- BGE (R197). Branches when xa >= xb signed. -/
  | bge (a : XReg) (b : XReg) (off : BitVec 14)
  /-- BLTN (R197). Branches when xa < xb unsigned. -/
  | bltn (a : XReg) (b : XReg) (off : BitVec 14)
  /-- BGEN (R197). Branches when xa >= xb unsigned. -/
  | bgen (a : XReg) (b : XReg) (off : BitVec 14)
  /-- JAL (R198). Jumps PC-relative and writes the link PC + 4 to xd. -/
  | jal (d : XReg) (off : BitVec 19)
  /-- JALR (R198). Jumps to xa + imm11 × 2, trapping ALIGN on an odd target, and writes the link. -/
  | jalr (d : XReg) (a : XReg) (imm : BitVec 11)
  /-- CALLI (R199). Calls xa only if the target word is a CMARK of the named class, else traps CFI. -/
  | calli (d : XReg) (a : XReg) (k : BitVec 11)
  /-- CMARK (R199). Marks a call target of a signature class and otherwise has no effect. -/
  | cmark (k : BitVec 11)
  /-- TRAP (R200). Traps SOFT with TVAL set to the unsigned imm11. -/
  | trap (imm : BitVec 11)
  /-- SRD (R202). Reads a system register into xd after earlier writers of it complete. -/
  | srd (d : XReg) (n : BitVec 11)
  /-- SWR (R202). Writes xa to a system register, trapping PROT without write access. -/
  | swr (n : BitVec 11) (a : XReg)
  /-- ERD (R208). Writes the energy or time value of an ERD selector to xd. -/
  | erd (d : XReg) (sel : BitVec 11)
  /-- TRET (R201). Returns from a trap: PC := EPC, restores LDX and LDV, clears the handling mark. -/
  | tret
  /-- FENCEI (R203). Waits for earlier stores and observed copies at scope D, then discards fetched instructions. -/
  | fencei
  /-- YIELD (R204). Marks a preferred pre-emption point and caps arbitration credits at 0. -/
  | yield
  /-- EXIT (R205). Waits for stores at scope S, then retires the thread by R31 or ends the Bureau stream by R25. -/
  | exit
  /-- JOIN (R206). Joins or creates a group and writes its id or a negative status. -/
  | join (d : XReg) (a : XReg)
  /-- LEAVE (R206). Leaves a group, possibly completing a phase or dissolving the group. -/
  | leave (d : XReg) (a : XReg)
  /-- CTAIL (R207). Releases at scope S and advances a host work queue's tail as an MMIO write would. -/
  | ctail (a : XReg) (b : XReg)
  /-- LREQ (R26). Requests a total of lane groups, taking unowned groups or marking donor groups MOVE. -/
  | lreq (d : XReg) (a : XReg)
  /-- VSETVL (R214). Applies a pending lane change, installs VTYPE from xt and grants VL. -/
  | vsetvl (d : XReg) (a : XReg) (b : XReg)
  /-- VSETVLI (R214). Applies a pending lane change, installs VTYPE from the word and grants VL. -/
  | vsetvli (d : XReg) (a : XReg) (req : BitVec 13) (rm : BitVec 3)
  /-- VFETCH_ISSUE_GROUP (R18). Issues the instruction at the lowest VP program counter once for all VPs that share it. -/
  | vfetchIssueGroup
  /-- FENCE_C (R142). Orders earlier and later accesses in the named classes path by path. -/
  | fenceC (mask : BitVec 16)
  /-- FENCE_P (R144). Makes earlier accesses on the from-paths perform and visible before later accesses on the to-paths. -/
  | fenceP (pf : BitVec 5) (pt : BitVec 5)
  /-- FENCE_S (R147). Waits until every earlier access has performed at the named scope. -/
  | fenceS (sc : Scope)
  /-- FENCE_A (R148). Orders as FENCE.S and then arrives at the named group's barrier. -/
  | fenceA (sc : Scope) (a : XReg)
  /-- BWAIT (R16). Waits until the phase of the last arrival completes, then acquires. -/
  | bwait (sc : Scope) (a : XReg)
  /-- HPOST (R250). Posts an iteration to a Hatch ring loop slot as a release at scope D. -/
  | hpost (l : Fin 16) (a : XReg)
  /-- HWAIT (R250). Waits until the loop slot's frontier passes the iteration, then acquires at scope D. -/
  | hwait (l : Fin 16) (a : XReg)
  /-- HFSET (R251). Publishes a register group through an empty handoff flag as a release at scope C. -/
  | hfset (f : Fin 32) (b : VReg)
  /-- HFSET_BARE (R251). Sets an empty handoff flag full without a group, as a release. -/
  | hfsetBare (f : Fin 32)
  /-- HFSET_CLR (R251). Empties a full handoff flag that carries no group. -/
  | hfsetClr (f : Fin 32)
  /-- HFWAIT (R252). Waits until a handoff flag is empty or full, then acquires at scope C. -/
  | hfwait (f : Fin 32) (full : Bool)
  /-- CPY (R254). Starts an asynchronous byte copy under a copy tag. -/
  | cpy (d : XReg) (a : XReg) (b : XReg) (tag : Fin 64)
  /-- CPY2 (R254). Starts an asynchronous two-dimensional copy described by a descriptor. -/
  | cpy2 (d : XReg) (a : XReg) (b : XReg) (tag : Fin 64)
  /-- CPYX (R254). Starts an asynchronous gather/scatter copy of elements. -/
  | cpyx (d : XReg) (a : XReg) (b : XReg) (tag : Fin 64)
  /-- TWAITALL (R257). Waits until every tag of the mask is set and observes them. -/
  | twaitall (d : XReg) (a : XReg)
  /-- TWAITANY (R257). Waits until any tag of the mask is set and observes the set ones. -/
  | twaitany (d : XReg) (a : XReg)
  /-- TFIRST (R257). Writes the lowest set tag of the mask, or 64, without waiting. -/
  | tfirst (d : XReg) (a : XReg)
  /-- COLL (R258). Reads a collective descriptor and starts a collective, writing an issue status. -/
  | coll (d : XReg) (a : XReg)
  /-- GATH (R265). Queues a gather of scratchpad rows by an index array into a latch. -/
  | gath (l : Fin 2) (a : XReg) (b : XReg)
  /-- MMA_GR (R268). Queues a tuple product of gathered rows by register rows into a Chest tile. -/
  | mmaGr (l : Fin 2) (q : Fin 8) (h : Fin 32) (slot : Fin 4) (cb : Fin 8) (z : Bool) (sat : Bool) (cg : Bool) (cr : Bool) (iv : Bool)
  /-- MMA_RG (R269). Queues a tuple product of register rows by gathered rows into a Chest tile. -/
  | mmaRg (l : Fin 2) (q : Fin 8) (h : Fin 32) (slot : Fin 4) (cb : Fin 8) (z : Bool) (sat : Bool) (cg : Bool) (cr : Bool) (iv : Bool)
  /-- MMAG (R273). Queues a grouped multiply driven by a scratchpad group table. -/
  | mmag (a : XReg) (q : Fin 8) (h : Fin 32) (slot : Fin 4) (cb : Fin 8) (z : Bool) (sat : Bool) (cg : Bool) (cr : Bool) (iv : Bool)
  /-- MZERO (R274). Queues the zeroing of all pairs of a Chest tile. -/
  | mzero (q : Fin 8)
  /-- MWAIT (R275). Stops the Bureau's scalar stream until the matrix queue holds at most n entries. -/
  | mwait (n : Fin 8)
  /-- PLOAD (R277). Reads and checks a Plate image into a slot's shadow. -/
  | pload (slot : Fin 4) (a : XReg)
  /-- MATRIX_START (R261). A queued matrix entry starts in the engine once its flag is full, acquiring, reading operands and checking them. -/
  | matrixStart (cl : Fin 64)
  /-- HANDOFF_FLAG_EMPTIED (R263). After the last register row is read the engine empties the flag and returns the group to its thread. -/
  | handoffFlagEmptied (cl : Fin 64)
  /-- MMAG_GROUP_COMPLETE (R135). An MMAG group's Chest writes are made and MGDONE increments. -/
  | mmagGroupComplete (cl : Fin 64)
  /-- MATRIX_COMPLETE (R102). A matrix entry leaves the queue once all its Chest or latch writes are made, ORing its flags into FFLAGS. -/
  | matrixComplete (cl : Fin 64)
  /-- TDRAIN (R279). Converts Chest pairs into tile rows of vT, optionally transposed and conjugated. -/
  | tdrain (d : VReg) (q : Fin 8) (code : BitVec 5) (a : XReg) (slot : Fin 4) (t : Bool) (c : Bool) (iv : Bool)
  /-- TFILL (R281). Writes raw 64-bit register elements into Chest pairs. -/
  | tfill (q : Fin 8) (b : VReg) (a : XReg)
  /-- GLOAD (R285). Reads and checks a Graver table image into a slot. -/
  | gload (slot : Fin 4) (a : XReg)
  /-- GSET (R286). Writes one entry or final map of a Graver slot. -/
  | gset (slot : Fin 4) (a : XReg) (b : XReg)
  /-- GSTATE_R (R292). Copies GSV bytes into vector elements. -/
  | gstateR (d : VReg)
  /-- GSTATE_W (R292). Writes GSV bytes from vector elements. -/
  | gstateW (b : VReg)
  /-- GRUN (R287). Runs a binary Graver table over two digit strings per element. -/
  | grun (d : VReg) (a : VReg) (b : VReg) (slot : Fin 4) (m : MReg)
  /-- GRUN1 (R287). Runs a unary Graver table over one digit string per element. -/
  | grun1 (d : VReg) (a : VReg) (slot : Fin 4) (m : MReg)
  /-- GCMP (R290). Writes a mask of elements whose final state has the given verdict. -/
  | gcmp (d : MReg) (slot : Fin 4) (v : BitVec 3) (m : MReg)
  /-- GFIN (R291). Appends the flush digits of each element's final state. -/
  | gfin (d : VReg) (slot : Fin 4) (m : MReg)
  /-- UNIMPL (R187). A word of majors 0x78-0x7F traps UNIMPL unless firmware has defined it. -/
  | unimpl (w : BitVec 32)
  /-- C_ADD (R209). Adds xs into the last x destination. -/
  | cAdd (b : XReg)
  /-- C_SUB (R209). Subtracts xs from the last x destination. -/
  | cSub (b : XReg)
  /-- C_AND (R209). ANDs xs into the last x destination. -/
  | cAnd (b : XReg)
  /-- C_OR (R209). ORs xs into the last x destination. -/
  | cOr (b : XReg)
  /-- C_XOR (R209). XORs xs into the last x destination. -/
  | cXor (b : XReg)
  /-- C_ADDI (R209). Adds a 10-bit immediate to the last x destination. -/
  | cAddi (imm : BitVec 10)
  /-- C_SHLI (R209). Shifts the last x destination left. -/
  | cShli (sh : BitVec 6)
  /-- C_SHRI (R209). Shifts the last x destination right logically. -/
  | cShri (sh : BitVec 6)
  /-- C_MOV (R209). Copies xs into the last x destination. -/
  | cMov (b : XReg)
  /-- C_LI (R209). Loads a 10-bit immediate into the last x destination. -/
  | cLi (imm : BitVec 10)
  /-- C_BNEZ (R209). Branches when the last x destination is nonzero. -/
  | cBnez (imm : BitVec 10)
  /-- C_BEQZ (R209). Branches when the last x destination is zero. -/
  | cBeqz (imm : BitVec 10)
  /-- C_NOP (R174). Does nothing. -/
  | cNop
  /-- CV_ADD (R209). Adds vs into the last v destination, unmasked. -/
  | cvAdd (b : VReg)
  /-- CV_FADD (R209). Floating-point adds vs into the last v destination. -/
  | cvFadd (b : VReg)
  /-- CV_FMUL (R209). Floating-point multiplies the last v destination by vs. -/
  | cvFmul (b : VReg)
  /-- CV_FMACC (R209). Adds va × vb into the last v destination. -/
  | cvFmacc (a : VReg) (b : VReg)
  /-- CV_MV (R209). Copies vs into the last v destination. -/
  | cvMv (b : VReg)
  /-- PAGE_PRESENT (R297). The host answers present: the thread is queued to resume, or the waiting copy resumes. -/
  | pagePresent (n : Nat)
  /-- PAGE_FAIL (R297). The host answers fail: PAGE is delivered to TVEC, or the copy stops. -/
  | pageFail (n : Nat)
  /-- VECTOR_QUEUE_ISSUE (R99). The vector issue queue head issues to the thread's lane groups once it holds its shared resources. -/
  | vectorQueueIssue (cl : Fin 64) (res : SharedRes) (req : BitVec 4)
  /-- MMIO_REGISTER_WRITE (R308). A host write to a BAR0 register with no behaviour of its own stores its value. -/
  | mmioRegisterWrite (fn : Fin 256) (off : BitVec 20) (v : Word) (wide : Bool)
  /-- QTAIL_WRITE (R105). A host write of QTAIL advances the tail when within the forward window. -/
  | qtailWrite (fn : Fin 256) (q : Fin 8192) (v : BitVec 32)
  /-- QCTL_WRITE (R104). A host write of QCTL sets EN, PRIO and WEIGHT of a queue. -/
  | qctlWrite (fn : Fin 256) (q : Fin 8192) (v : BitVec 32)
  /-- QSTAT_CLEAR (R110). A host write of 0 clears QSTAT and restarts a stopped queue. -/
  | qstatClear (fn : Fin 256) (q : Fin 8192)
  /-- ASSHOOT_WRITE (R123). Advances ASGEN and drops matching TLB entries package-wide. -/
  | asshootWrite (fn : Fin 256) (sp : Fin 256) (v : Word)
  /-- SHOOT_DOWN_DONE (R123). ASSTAT.DONE sets once every access using a dropped entry has performed. -/
  | shootDownDone (fn : Fin 256) (sp : Fin 256)
  /-- PAGE_WALK_FILL (R123). A walk's fill reaches the TLB slice, or is discarded and restarts on a generation change. -/
  | pageWalkFill (cl : Fin 64) (fn : Fin 256) (sp : Fin 256) (va : Word) (gen : BitVec 32)
  /-- QUEUE_ENTRY_READ (R105). The front end reads and checks the next queue entry when the tail allows and starts it. -/
  | queueEntryRead (q : Fin 8192)
  /-- LAUNCH_ADMISSION (R131). The planner admits a waiting launch when its energy estimate fits the tenant's forecast. -/
  | launchAdmission (n : Nat)
  /-- LAUNCH_ACCEPT (R15). An admitted launch is accepted and allocated a launch group id. -/
  | launchAccept (n : Nat)
  /-- WAIT_ON_VALUE_CHECK (R108). The front end re-reads a wait-on-value word and completes the entry when the condition holds. -/
  | waitOnValueCheck (n : Nat)
  /-- SIGNAL_ENTRY (R108). After all earlier entries complete, performs a globally acknowledged store or add. -/
  | signalEntry (n : Nat)
  /-- QUEUE_ENTRY_COMPLETE (R109). An entry completes and the completion word advances with release at system scope. -/
  | queueEntryComplete (n : Nat)
  /-- THREAD_PLACEMENT (R12). The front end places the next waiting thread on a cluster with a free slot and lane groups. -/
  | threadPlacement (n : Nat)
  /-- COSCHEDULED_PLACEMENT (R13). The front end places all threads and Bureau contexts of a co-scheduled launch in one period. -/
  | coscheduledPlacement (n : Nat)
  /-- LAUNCH_COMPLETION (R109). A launch completes when all threads and Bureau contexts have exited and its stores are visible at scope S. -/
  | launchCompletion (n : Nat)
  /-- SEGMENT_RELEASE (R304). A launch's segments on a cluster are released once no context remains and copies into them have ended. -/
  | segmentRelease (n : Nat) (cl : Fin 64)
  /-- PERIOD_TURN (R129). At TIME[63:16] change, budget used counts drop by their limits and holds are re-evaluated. -/
  | periodTurn (die : Fin 8)
  /-- ENERGY_CHARGE (R128). The energy accumulator passes a multiple of 10^6 pJ and one µJ is charged to the activity's budgets. -/
  | energyCharge (n : Nat) (die : Fin 8) (cls : EngineClass) (amount : EnergyCount)
  /-- CONTEXT_SWAP_OUT (R303). A pending pre-emption or page swap takes effect: the context is saved and its slot and groups are freed. -/
  | contextSwapOut (n : Nat) (area : BitVec 52)
  /-- CONTEXT_RESUME (R32). A swapped-out thread resumes on its cluster with the same number of lane groups and restored state. -/
  | contextResume (n : Nat) (slot : Fin 4)
  /-- BUREAU_CONTEXT_SWITCH (R302). The Bureau stream stops, started entries complete, and queue, Plates, latches and Chest are saved. -/
  | bureauContextSwitch (n : Nat) (out : Bool) (area : BitVec 52)
  /-- COPY_PIECE (R255). The copy engine translates, checks and writes one piece of at most 4 KiB. -/
  | copyPiece (n : Nat)
  /-- COPY_COMPLETE (R81). The copy's tag sets once every copied byte is visible to every path of the thread. -/
  | copyComplete (n : Nat)
  /-- COLL_COMPLETE (R260). The collective ends at a member and its completion word is written after DST is visible. -/
  | collComplete (n : Nat)
  /-- STORE_APPLY (R158). An early-forwarding cross-die store is applied at its home and fixed in coherence order. -/
  | storeApply (n : Nat)
  /-- STORE_VISIBLE_ON_DIE (R158). An applied store becomes visible to every context of another die at that die's instant. -/
  | storeVisibleOnDie (n : Nat) (die : Fin 8)
  /-- STORE_ACKNOWLEDGE (R158). The home acknowledges a store visible on every die; it has performed at scope P. -/
  | storeAcknowledge (n : Nat)
  /-- GLOBAL_STORE_APPLY (R159). A .G store is applied after all copies are invalidated and becomes visible package-wide at once. -/
  | globalStoreApply (n : Nat)
  /-- ACK_LOSS_DETECTION (R164). The storing die learns a store's acknowledgement is lost, counts it in AKREC and drops its own value. -/
  | ackLossDetection (n : Nat) (applied : Bool)
  /-- LINK_FAILURE (R306). A die-to-die link goes down and transit blocks reroute requests over alternative routes. -/
  | linkFailure (die : Fin 8) (port : Port)
  /-- UNCORRECTABLE_ERROR (R96). An uncorrectable ECC error marks its granule or register bits poisoned. -/
  | uncorrectableError (site : ErrSite)
  /-- PATROL_SCRUB (R96). The scrubber reads and corrects bonded-DRAM lines, once each per 12 hours. -/
  | patrolScrub (die : Fin 8) (line : BitVec 29)
  /-- MONITOR_SAMPLE (R136). A monitor slot takes a sample, updating MMIN, MMAX and a saturating bin. -/
  | monitorSample (cl : Fin 64) (k : Fin 4) (slot : Fin 4) (v : Word)
  /-- MCTL_WRITE (R137). An SWR of MCTL claims a free or own monitor slot and configures it, CLEAR resetting its bins. -/
  | mctlWrite (k : Fin 4) (v : Word)
  /-- PACKAGE_REPORT_REQUEST (R311). D0 returns the signed package report through the mailbox or SPDM. -/
  | packageReportRequest (fn : Fin 256) (nonce : Word)
  /-- KEY_LOAD (R124). Firmware fills an empty key slot for one function. -/
  | keyLoad (fn : Fin 256) (k : KeyImage)
  /-- KEY_CLEAR (R124). Firmware writes back and invalidates lines with the slot's index, then empties the slot. -/
  | keyClear (k : BitVec 11)
  /-- KEY_RELEASE (R124). Firmware clears every key slot of a destroyed function. -/
  | keyRelease (fn : Fin 256)
  /-- PACKAGE_BOOT (R310). D0 verifies its firmware, sends and attests firmware on the other dies and releases matching dies. -/
  | packageBoot (sigOk : Bool) (good : BitVec 8)
  /-- DIE_RELEASE (R310). A die whose measurements match is released with TIME set from D0; others stay absent. -/
  | dieRelease (die : Fin 8) (good : Bool)
  /-- FIRMWARE_UPDATE (R310). A signed firmware update is applied unless its security version is below the fused counter. -/
  | firmwareUpdate (sigOk : Bool) (sec : BitVec 32) (minor : BitVec 8) (patch : BitVec 8)
  /-- DIE_RESET (R312). Resets a die, ends launches with contexts on it, disables its queues and affects pending traffic. -/
  | dieReset (die : Fin 8)
  /-- FUNCTION_LEVEL_RESET (R313). Ends every context of a virtual function, stops its queues, purges its flits and frees its resources. -/
  | functionLevelReset (fn : Fin 256)
  /-- THERMAL_THROTTLE (R314). Over-limit power or a 100 °C junction lowers ACLK in 100 MHz steps until the condition clears. -/
  | thermalThrottle (hot : Bool)
  /-- OVERTEMP_RESET (R314). A die junction reaching 110 °C resets the die. -/
  | overtempReset (die : Fin 8)
  /-- OBJECT_LOAD (R320). The host loader checks an Ocsor object, maps its sections and applies relocations. -/
  | objectLoad (n : LoadOrder)
  /-- OBJECT_LINK (R322). The linker joins objects, computes register-needs closures and numbers signature classes. -/
  | objectLink (n : Nat)
  /-- ILLEGAL_ENCODING (R175). A fetched word with an unassigned major, an unlisted function value or a reserved compact op5 traps ILL. -/
  | illegalEncoding (w : BitVec 32)
  /-- STORE_VISIBLE_TO_PATH (R139). A store made within the die becomes visible to another path of every context of the die at one instant between its perform and the first covering event. -/
  | storeVisibleToPath (n : Nat) (p : Path)
  /-- LINE_WRITE_BACK (R95). The die cache writes a modified line back to its home, encrypting it under its key index and carrying its poison mark. -/
  | lineWriteBack (line : BitVec 45)
  /-- CORRECTED_ERROR (R96). A correctable soft error found on an access is corrected and counted in the die's corrected-error counts. -/
  | correctedError (die : Fin 8) (kind : StoreKind)
  /-- LINK_RECOVERY (R306). A die-to-die link that was down comes back up, so transit blocks again route over it. -/
  | linkRecovery (die : Fin 8) (port : Port)
  /-- LINK_RETRANSMISSION (R164). A flit that fails its CRC is retransmitted by sequence number and duplicates are discarded. -/
  | linkRetransmission (die : Fin 8) (port : Port)
  /-- FABRIC_BRING_UP (R309). Firmware assigns the device's fabric number, which DIEID[31:12] then reports. -/
  | fabricBringUp (dev : BitVec 20)
  /-- HOST_WRITE (R87). A host agent writes host memory reached through a host window. -/
  | hostWrite (pa : BitVec 48) (data : List Byte)
  /-- FJAS_ASSEMBLY (R326). fjas reads one source file and writes one Ocsor object, applying its syntax, fill, expansion and compact-selection rules. -/
  | fjasAssembly (n : Nat)
  deriving DecidableEq, Repr

end Sys2Proof
end

