-- ==== Sys2Proof/Decode.lean ====
section
/-! DEFINITION. The decoder of chapter 12: words of 16 and 32 bits to `Instr`, refusing by name, and the encoder written
from the same tables. The definitions marked noncomputable evaluate in the kernel as any other; the mark is there because
the compiler's runtime numbers at most 244 constructors with fields, and the opcode table has more rows. -/

namespace Sys2Proof

/-- Why a word is rejected; each rejected word traps ILL (12 R171, R174 to R184). -/
inductive DecodeError
  /-- The major opcode is not assigned (R175). -/
  | unassignedMajor (maj : BitVec 7)
  /-- A function value the tables do not list (R176 to R184). -/
  | unlistedFunction
  /-- A field shown as zero is not zero (R176 to R184). -/
  | nonzeroField
  /-- A field holds a value out of its range: a width, scope, format, conversion or rounding-mode code, a mask, slot
  or verdict number, or a combination the tables exclude. -/
  | fieldOutOfRange
  /-- Bits [3:1] of a variable-latency form are not zero (R171). -/
  | nonzeroStall
  /-- A compact word with op5 0 or 19 to 31 (R174). -/
  | reservedCompact
  /-- Fewer bytes than the word's size. -/
  | truncated
  deriving DecidableEq, Repr

/-- What a decoding answers. -/
abbrev Decoded := Except DecodeError Instr

/-! ### Codes of the named fields -/

/-- The first scalar floating-point major is 0x0C (R177). -/
def FpFmt.major : FpFmt → BitVec 7
  | .f64 => 0x0C | .f32 => 0x0D | .f16 => 0x0E | .bf16 => 0x0F
/-- Rounding-mode codes (03 R34). -/
def RMode.code : RMode → BitVec 3
  | .rne => 0 | .rmm => 1 | .rup => 2 | .rdn => 3 | .rtz => 4
/-- The rounding mode of a code; codes 5 to 7 name none (03 R34). -/
def RMode.ofCode (c : BitVec 3) : Option RMode :=
  match c.toNat with
  | 0 => some .rne | 1 => some .rmm | 2 => some .rup | 3 => some .rdn | 4 => some .rtz | _ => none
/-- Selectors of FCMP (R177). -/
def FCmpOp.code : FCmpOp → BitVec 3
  | .eq => 2 | .lt => 3 | .le => 4 | .un => 5
/-- Scalar conversion codes (R177). -/
def CvtCode.code : CvtCode → BitVec 5
  | .toF64 => 0 | .toF32 => 1 | .toF16 => 2 | .toBf16 => 3 | .toI32 => 4 | .toN32 => 5 | .toI64 => 6 | .toN64 => 7
  | .ofI32 => 8 | .ofN32 => 9 | .ofI64 => 10 | .ofN64 => 11
/-- The conversion of a code, for codes 0 to 11 (R177). -/
def CvtCode.ofCode (c : BitVec 5) : Option CvtCode :=
  match c.toNat with
  | 0 => some .toF64 | 1 => some .toF32 | 2 => some .toF16 | 3 => some .toBf16 | 4 => some .toI32 | 5 => some .toN32
  | 6 => some .toI64 | 7 => some .toN64 | 8 => some .ofI32 | 9 => some .ofN32 | 10 => some .ofI64 | 11 => some .ofN64
  | _ => none
/-- Width codes of LD (R176). -/
def LdWidth.code : LdWidth → BitVec 3
  | .i8 => 0 | .i16 => 1 | .i32 => 2 | .d => 3 | .n8 => 4 | .n16 => 5 | .n32 => 6
/-- The load width of a code (R176). -/
def LdWidth.ofCode (c : BitVec 3) : Option LdWidth :=
  match c.toNat with
  | 0 => some .i8 | 1 => some .i16 | 2 => some .i32 | 3 => some .d | 4 => some .n8 | 5 => some .n16 | 6 => some .n32
  | _ => none
/-- Width codes of ST and ST.G (R176). -/
def StWidth.code : StWidth → BitVec 3
  | .w8 => 0 | .w16 => 1 | .w32 => 2 | .w64 => 3
/-- The store width of a code (R176). -/
def StWidth.ofCode (c : BitVec 3) : Option StWidth :=
  match c.toNat with
  | 0 => some .w8 | 1 => some .w16 | 2 => some .w32 | 3 => some .w64 | _ => none
/-- Scope codes (10 R146). -/
def Scope.code : Scope → BitVec 3
  | .t => 0 | .c => 1 | .d => 2 | .p => 3 | .s => 4
/-- The scope of a code; codes 5 to 7 name none (R182). -/
def Scope.ofCode (c : BitVec 3) : Option Scope :=
  match c.toNat with
  | 0 => some .t | 1 => some .c | 2 => some .d | 3 => some .p | 4 => some .s | _ => none
/-- funct3 of VCMP (R179). -/
def VCmpOp.code : VCmpOp → BitVec 3
  | .eq => 0 | .ne => 1 | .lt => 2 | .le => 3 | .gt => 4 | .ge => 5
/-- The compare of a funct3 (R179). -/
def VCmpOp.ofCode (c : BitVec 3) : Option VCmpOp :=
  match c.toNat with
  | 0 => some .eq | 1 => some .ne | 2 => some .lt | 3 => some .le | 4 => some .gt | 5 => some .ge | _ => none
/-- funct3 of VFCMP (R179). -/
def VFCmpOp.code : VFCmpOp → BitVec 3
  | .eq => 0 | .ne => 1 | .lt => 2 | .le => 3 | .gt => 4 | .ge => 5 | .un => 6
/-- The compare of a funct3 (R179). -/
def VFCmpOp.ofCode (c : BitVec 3) : Option VFCmpOp :=
  match c.toNat with
  | 0 => some .eq | 1 => some .ne | 2 => some .lt | 3 => some .le | 4 => some .gt | 5 => some .ge | 6 => some .un
  | _ => none
/-- funct3 of VRED (R180). -/
def RedOp.code : RedOp → BitVec 3
  | .sum => 0 | .min => 1 | .max => 2 | .and => 3 | .or => 4 | .xor => 5
/-- The reduction of a funct3 (R180). -/
def RedOp.ofCode (c : BitVec 3) : Option RedOp :=
  match c.toNat with
  | 0 => some .sum | 1 => some .min | 2 => some .max | 3 => some .and | 4 => some .or | 5 => some .xor | _ => none

/-! ### Fields of a 32-bit word (R169) -/

/-- A 32-bit word cut at the places all its formats share: bits [31:16], [15:11], [10:4] and [3:1]. -/
structure Fields where
  hi  : BitVec 16
  rd  : BitVec 5
  maj : BitVec 7
  lo  : BitVec 3
  deriving DecidableEq, Repr

/-- The fields of a word (R169). -/
def splitWord (w : BitVec 32) : Fields :=
  ⟨w.extractLsb' 16 16, w.extractLsb' 11 5, w.extractLsb' 4 7, w.extractLsb' 1 3⟩

/-- A 5-bit field as a register number. -/
def x5 (b : BitVec 5) : Fin 32 := ⟨b.toNat, b.isLt⟩
/-- A 3-bit field as a number. -/
def x3 (b : BitVec 3) : Fin 8 := ⟨b.toNat, b.isLt⟩
/-- A 4-bit field as a number. -/
def x4 (b : BitVec 4) : Fin 16 := ⟨b.toNat, b.isLt⟩
/-- A 2-bit field as a number. -/
def x2 (b : BitVec 2) : Fin 4 := ⟨b.toNat, b.isLt⟩
/-- A 1-bit field as a number. -/
def x1 (b : BitVec 1) : Fin 2 := ⟨b.toNat, b.isLt⟩
/-- A 6-bit field as a number. -/
def x6 (b : BitVec 6) : Fin 64 := ⟨b.toNat, b.isLt⟩
/-- A 1-bit field as a Boolean. -/
def xb (b : BitVec 1) : Bool := b.getLsbD 0

/-- Bits [15:11] as a register. -/
def Fields.d (f : Fields) : Fin 32 := x5 f.rd
/-- Bits [20:16], the first source. -/
def Fields.r1 (f : Fields) : BitVec 5 := f.hi.extractLsb' 0 5
/-- Bits [25:21], the second source. -/
def Fields.r2 (f : Fields) : BitVec 5 := f.hi.extractLsb' 5 5
/-- funct6, bits [31:26]. -/
def Fields.funct6 (f : Fields) : BitVec 6 := f.hi.extractLsb' 10 6
/-- funct3, bits [31:29]. -/
def Fields.funct3 (f : Fields) : BitVec 3 := f.hi.extractLsb' 13 3
/-- Bits [28:26]: the mask of the V format, the op of scalar floating point. -/
def Fields.mid3 (f : Fields) : BitVec 3 := f.hi.extractLsb' 10 3
/-- imm11, bits [31:21]. -/
def Fields.imm11 (f : Fields) : BitVec 11 := f.hi.extractLsb' 5 11
/-- op of the A format, bits [31:30]. -/
def Fields.op2 (f : Fields) : BitVec 2 := f.hi.extractLsb' 14 2
/-- The class of the VM and A formats, bits [29:26]. -/
def Fields.cls (f : Fields) : Fin 16 := x4 (f.hi.extractLsb' 10 4)
/-- imm7 of the SM format, bits [31:25]. -/
def Fields.imm7 (f : Fields) : BitVec 7 := f.hi.extractLsb' 9 7
/-- The class of the SM format, bits [24:21]. -/
def Fields.smCls (f : Fields) : Fin 16 := x4 (f.hi.extractLsb' 5 4)
/-- Bits [31:27]. -/
def Fields.top5 (f : Fields) : BitVec 5 := f.hi.extractLsb' 11 5
/-- One bit of the upper half, numbered from bit 16 of the word. -/
def Fields.bit (f : Fields) (k : Nat) : Bool := f.hi.getLsbD k
/-- The stall count, bits [3:1] (R171). -/
def Fields.stall (f : Fields) : Fin 8 := x3 f.lo
/-- The mask m of the V format. -/
def Fields.m (f : Fields) : Fin 8 := x3 f.mid3
/-- The mask m of the VM and A formats, bits [3:1]. -/
def Fields.mlo (f : Fields) : Fin 8 := x3 f.lo
/-- offset14 of the B format. -/
def Fields.off14 (f : Fields) : BitVec 14 := f.imm11 ++ f.lo
/-- offset19 of the J format. -/
def Fields.off19 (f : Fields) : BitVec 19 := f.hi ++ f.lo
/-- The low three bits of a 5-bit field that names a mask register. -/
def mreg (b : BitVec 5) : Fin 8 := x3 (b.extractLsb' 0 3)

/-! ### The decoder -/

/-- Accept when a condition on the fields holds, else reject with the error given. -/
def accept (c : Bool) (e : DecodeError) (i : Instr) : Decoded := if c then .ok i else .error e
/-- Accept when the fields shown as zero are zero (R176 to R184). -/
def zeroed (c : Bool) (i : Instr) : Decoded := accept c .nonzeroField i
/-- Accept a variable-latency form when bits [3:1] are zero (R171). -/
def varLat (f : Fields) (r : Decoded) : Decoded := if f.lo = 0 then r else .error .nonzeroStall
/-- Accept when a 5-bit field names a mask register (R180). -/
def inMask (b : BitVec 5) (r : Decoded) : Decoded := if b.toNat < 8 then r else .error .fieldOutOfRange
/-- Use a code that names something, else reject. -/
def coded {α : Type} (c : Option α) (k : α → Decoded) : Decoded :=
  match c with
  | some v => k v
  | none => .error .fieldOutOfRange

/-- Major 0x01 (R176). -/
def decInt (f : Fields) : Decoded :=
  let d := f.d; let a := x5 f.r1; let b := x5 f.r2; let s := f.stall
  match f.funct6.toNat with
  | 0 => .ok (.add d a b s) | 1 => .ok (.sub d a b s) | 2 => .ok (.mul d a b s) | 3 => .ok (.mulh d a b s)
  | 4 => .ok (.mulhn d a b s) | 5 => .ok (.div d a b s) | 6 => .ok (.divn d a b s) | 7 => .ok (.rem d a b s)
  | 8 => .ok (.remn d a b s) | 9 => .ok (.and d a b s) | 10 => .ok (.or d a b s) | 11 => .ok (.xor d a b s)
  | 12 => .ok (.shl d a b s) | 13 => .ok (.shr d a b s) | 14 => .ok (.sra d a b s) | 15 => .ok (.min d a b s)
  | 16 => .ok (.max d a b s) | 17 => .ok (.minn d a b s) | 18 => .ok (.maxn d a b s) | 19 => .ok (.slt d a b s)
  | 20 => .ok (.sltn d a b s) | 21 => .ok (.sel d a b s)
  | 22 => zeroed (f.r2 == 0) (.clz d a s) | 23 => zeroed (f.r2 == 0) (.ctz d a s)
  | 24 => zeroed (f.r2 == 0) (.popc d a s) | 25 => zeroed (f.r2 == 0) (.brev d a s)
  | _ => .error .unlistedFunction

/-- An immediate shift: imm11[10:6] is zero and [5:0] is the shift (R176). -/
def decShift (f : Fields) (k : BitVec 6 → Instr) : Decoded :=
  zeroed (f.imm11.extractLsb' 6 5 == 0) (k (f.imm11.extractLsb' 0 6))

/-- Majors 0x0C to 0x0F, for the format the major names (R177). -/
def decFp (fmt : FpFmt) (f : Fields) : Decoded :=
  let d := f.d; let a := x5 f.r1; let b := x5 f.r2; let s := f.stall
  match f.mid3.toNat with
  | 0 => coded (RMode.ofCode f.funct3) fun rm => .ok (.fadd fmt rm d a b s)
  | 1 => coded (RMode.ofCode f.funct3) fun rm => .ok (.fsub fmt rm d a b s)
  | 2 => coded (RMode.ofCode f.funct3) fun rm => .ok (.fmul fmt rm d a b s)
  | 3 => coded (RMode.ofCode f.funct3) fun rm => .ok (.ffma fmt rm d a b s)
  | 4 => coded (RMode.ofCode f.funct3) fun rm => .ok (.fdiv fmt rm d a b s)
  | 5 =>
    match f.funct3.toNat with
    | 0 => .ok (.fmin fmt d a b s) | 1 => .ok (.fmax fmt d a b s) | 2 => .ok (.fcmp fmt .eq d a b s)
    | 3 => .ok (.fcmp fmt .lt d a b s) | 4 => .ok (.fcmp fmt .le d a b s) | 5 => .ok (.fcmp fmt .un d a b s)
    | _ => .error .unlistedFunction
  | 6 => coded (RMode.ofCode f.funct3) fun rm => zeroed (f.r2 == 0) (.fsqrt fmt rm d a s)
  | _ =>
    if f.r2 = 0x1F then zeroed (f.funct3 == 0) (.fclass fmt d a s)
    else coded (CvtCode.ofCode f.r2) fun c => coded (RMode.ofCode f.funct3) fun rm => .ok (.fcvt fmt c rm d a s)

/-- AMO group 0, major 0x13 (R176). -/
def decAmo0 (f : Fields) : Decoded :=
  coded (Scope.ofCode f.lo) fun sc =>
    match f.op2.toNat with
    | 0 => .ok (.amoAdd f.d (x5 f.r1) (x5 f.r2) f.cls sc) | 1 => .ok (.amoAnd f.d (x5 f.r1) (x5 f.r2) f.cls sc)
    | 2 => .ok (.amoOr f.d (x5 f.r1) (x5 f.r2) f.cls sc) | _ => .ok (.amoXor f.d (x5 f.r1) (x5 f.r2) f.cls sc)
/-- AMO group 1, major 0x14 (R176). -/
def decAmo1 (f : Fields) : Decoded :=
  coded (Scope.ofCode f.lo) fun sc =>
    match f.op2.toNat with
    | 0 => .ok (.amoMin f.d (x5 f.r1) (x5 f.r2) f.cls sc) | 1 => .ok (.amoMax f.d (x5 f.r1) (x5 f.r2) f.cls sc)
    | 2 => .ok (.amoMinn f.d (x5 f.r1) (x5 f.r2) f.cls sc) | _ => .ok (.amoMaxn f.d (x5 f.r1) (x5 f.r2) f.cls sc)
/-- AMO group 2, major 0x15 (R176). -/
def decAmo2 (f : Fields) : Decoded :=
  coded (Scope.ofCode f.lo) fun sc =>
    match f.op2.toNat with
    | 0 => .ok (.amoSwap f.d (x5 f.r1) (x5 f.r2) f.cls sc) | 1 => .ok (.amoCas f.d (x5 f.r1) (x5 f.r2) f.cls sc)
    | _ => .error .unlistedFunction
/-- AMOQ, major 0x16 (R176). -/
def decAmoq (f : Fields) : Decoded :=
  coded (Scope.ofCode f.lo) fun sc =>
    match f.op2.toNat with
    | 0 => zeroed (f.r2 == 0) (.amoqpop f.d (x5 f.r1) f.cls sc)
    | 1 => zeroed (f.r2 == 0) (.amoqsteal f.d (x5 f.r1) f.cls sc)
    | _ => .error .unlistedFunction

/-- Major 0x26 (R176). -/
def decSystem (f : Fields) : Decoded :=
  let none3 := f.rd == 0 && f.r1 == 0 && f.r2 == 0
  varLat f (match f.funct6.toNat with
    | 0 => zeroed none3 .tret | 1 => zeroed none3 .fencei | 2 => zeroed none3 .yield | 3 => zeroed none3 .exit
    | 4 => zeroed (f.r2 == 0) (.join f.d (x5 f.r1)) | 5 => zeroed (f.r2 == 0) (.leave f.d (x5 f.r1))
    | 6 => zeroed (f.rd == 0) (.ctail (x5 f.r1) (x5 f.r2)) | 7 => zeroed (f.r2 == 0) (.lreq f.d (x5 f.r1))
    | _ => .error .unlistedFunction)

/-- The vint A .VV major 0x30 (R179). -/
def decVintAVv (f : Fields) : Decoded :=
  let d := f.d; let a := x5 f.r2; let b := x5 f.r1; let m := f.m; let s := f.stall
  match f.funct3.toNat with
  | 0 => .ok (.vaddVv d a b m s) | 1 => .ok (.vsubVv d a b m s) | 2 => .ok (.vmulVv d a b m s)
  | 3 => .ok (.vmulhVv d a b m s) | 4 => .ok (.vmaccVv d a b m s) | 5 => .ok (.vdivVv d a b m s)
  | 6 => .ok (.vremVv d a b m s) | _ => .ok (.vminVv d a b m s)
/-- The vint A .VX major 0x31 (R179). -/
def decVintAVx (f : Fields) : Decoded :=
  let d := f.d; let a := x5 f.r2; let b := x5 f.r1; let m := f.m; let s := f.stall
  match f.funct3.toNat with
  | 0 => .ok (.vaddVx d a b m s) | 1 => .ok (.vsubVx d a b m s) | 2 => .ok (.vmulVx d a b m s)
  | 3 => .ok (.vmulhVx d a b m s) | 4 => .ok (.vmaccVx d a b m s) | 5 => .ok (.vdivVx d a b m s)
  | 6 => .ok (.vremVx d a b m s) | _ => .ok (.vminVx d a b m s)
/-- The vint A .VI major 0x32 (R179). -/
def decVintAVi (f : Fields) : Decoded :=
  let d := f.d; let a := x5 f.r2; let b := f.r1; let m := f.m; let s := f.stall
  match f.funct3.toNat with
  | 0 => .ok (.vaddVi d a b m s) | 1 => .ok (.vsubVi d a b m s) | 2 => .ok (.vmulVi d a b m s)
  | 3 => .ok (.vmulhVi d a b m s) | 4 => .ok (.vmaccVi d a b m s) | 5 => .ok (.vdivVi d a b m s)
  | 6 => .ok (.vremVi d a b m s) | _ => .ok (.vminVi d a b m s)
/-- The vint B .VV major 0x33 (R179). -/
def decVintBVv (f : Fields) : Decoded :=
  let d := f.d; let a := x5 f.r2; let b := x5 f.r1; let m := f.m; let s := f.stall
  match f.funct3.toNat with
  | 0 => .ok (.vandVv d a b m s) | 1 => .ok (.vorVv d a b m s) | 2 => .ok (.vxorVv d a b m s)
  | 3 => .ok (.vshlVv d a b m s) | 4 => .ok (.vshrVv d a b m s) | 5 => .ok (.vsraVv d a b m s)
  | 6 => .ok (.vsaddVv d a b m s) | _ => .ok (.vssubVv d a b m s)
/-- The vint B .VX major 0x34 (R179). -/
def decVintBVx (f : Fields) : Decoded :=
  let d := f.d; let a := x5 f.r2; let b := x5 f.r1; let m := f.m; let s := f.stall
  match f.funct3.toNat with
  | 0 => .ok (.vandVx d a b m s) | 1 => .ok (.vorVx d a b m s) | 2 => .ok (.vxorVx d a b m s)
  | 3 => .ok (.vshlVx d a b m s) | 4 => .ok (.vshrVx d a b m s) | 5 => .ok (.vsraVx d a b m s)
  | 6 => .ok (.vsaddVx d a b m s) | _ => .ok (.vssubVx d a b m s)
/-- The vint B .VI major 0x35 (R179). -/
def decVintBVi (f : Fields) : Decoded :=
  let d := f.d; let a := x5 f.r2; let b := f.r1; let m := f.m; let s := f.stall
  match f.funct3.toNat with
  | 0 => .ok (.vandVi d a b m s) | 1 => .ok (.vorVi d a b m s) | 2 => .ok (.vxorVi d a b m s)
  | 3 => .ok (.vshlVi d a b m s) | 4 => .ok (.vshrVi d a b m s) | 5 => .ok (.vsraVi d a b m s)
  | 6 => .ok (.vsaddVi d a b m s) | _ => .ok (.vssubVi d a b m s)
/-- The VMAX majors 0x36 to 0x38: funct3 1 to 7 trap ILL (R179). -/
def decVmax (f : Fields) (i : Instr) : Decoded := accept (f.funct3 == 0) .unlistedFunction i
/-- A compare major, whose destination is a mask register (R179). -/
def decVcmp (f : Fields) (k : VCmpOp → Instr) : Decoded :=
  coded (VCmpOp.ofCode f.funct3) fun c => inMask f.rd (.ok (k c))
/-- A floating-point compare major (R179). -/
def decVfcmp (f : Fields) (k : VFCmpOp → Instr) : Decoded :=
  coded (VFCmpOp.ofCode f.funct3) fun c => inMask f.rd (.ok (k c))
/-- The vfp .VV major 0x3C (R179). -/
def decVfpVv (f : Fields) : Decoded :=
  let d := f.d; let a := x5 f.r2; let b := x5 f.r1; let m := f.m; let s := f.stall
  match f.funct3.toNat with
  | 0 => .ok (.vfaddVv d a b m s) | 1 => .ok (.vfsubVv d a b m s) | 2 => .ok (.vfmulVv d a b m s)
  | 3 => .ok (.vfmaccVv d a b m s) | 4 => .ok (.vfnmsacVv d a b m s) | 5 => .ok (.vfdivVv d a b m s)
  | 6 => .ok (.vfminVv d a b m s) | _ => .ok (.vfmaxVv d a b m s)
/-- The vfp .VX major 0x3D (R179). -/
def decVfpVx (f : Fields) : Decoded :=
  let d := f.d; let a := x5 f.r2; let b := x5 f.r1; let m := f.m; let s := f.stall
  match f.funct3.toNat with
  | 0 => .ok (.vfaddVx d a b m s) | 1 => .ok (.vfsubVx d a b m s) | 2 => .ok (.vfmulVx d a b m s)
  | 3 => .ok (.vfmaccVx d a b m s) | 4 => .ok (.vfnmsacVx d a b m s) | 5 => .ok (.vfdivVx d a b m s)
  | 6 => .ok (.vfminVx d a b m s) | _ => .ok (.vfmaxVx d a b m s)
/-- The vfp unary major 0x40: VFSQRT and VFCLASS carry S, the others do not (R179). -/
def decVfpUnary (f : Fields) : Decoded :=
  let d := f.d; let a := x5 f.r2; let m := f.m; let z := f.r1 == 0
  match f.funct3.toNat with
  | 0 => zeroed z (.vfsqrt d a m f.stall) | 1 => zeroed z (.vfclass d a m f.stall)
  | 2 => varLat f (zeroed z (.vexp2 d a m)) | 3 => varLat f (zeroed z (.vlog2 d a m))
  | 4 => varLat f (zeroed z (.vrcp d a m)) | 5 => varLat f (zeroed z (.vrsq d a m))
  | 6 => varLat f (zeroed z (.vsin d a m)) | _ => varLat f (zeroed z (.vcos d a m))
/-- The VFCVT major 0x41: [31] zero, [30] the scale source, [29] the direction, vs1 a format code 0 to 16 (R179). -/
def decVfcvt (f : Fields) : Decoded :=
  if f.bit 15 then .error .nonzeroField
  else if 16 < f.r1.toNat then .error .fieldOutOfRange
  else if f.bit 13 then .ok (.vfcvtFrom (f.bit 14) f.r1 f.d (x5 f.r2) f.m f.stall)
  else .ok (.vfcvtTo (f.bit 14) f.r1 f.d (x5 f.r2) f.m f.stall)
/-- The permute A major 0x42 (R180). -/
def decPermA (f : Fields) : Decoded :=
  let d := f.d; let a := x5 f.r2; let b := x5 f.r1; let m := f.m
  match f.funct3.toNat with
  | 0 => zeroed (f.r1 == 0) (.vmvVv d a m f.stall) | 1 => .ok (.vmergeVv d a b m f.stall)
  | 2 => varLat f (.ok (.vslideupVx d a b m)) | 3 => varLat f (.ok (.vslidednVx d a b m))
  | 4 => varLat f (.ok (.vpermVv d a b m))
  | 5 => varLat f (if f.r2 = 0 then inMask f.r1 (.ok (.viota d (mreg f.r1) m)) else .error .nonzeroField)
  | 6 => varLat f (zeroed (f.mid3 == 0) (.vextx d a b)) | _ => varLat f (zeroed (f.mid3 == 0) (.vinsx d b a))
/-- The permute B major 0x43 (R180). -/
def decPermB (f : Fields) : Decoded :=
  let d := f.d; let a := x5 f.r2; let b := x5 f.r1; let m := f.m
  match f.funct3.toNat with
  | 0 => zeroed (f.r2 == 0) (.vbcastVx d b m f.stall) | 1 => zeroed (f.r2 == 0) (.vbcastVi d f.r1 m f.stall)
  | 2 => varLat f (.ok (.vslideupVi d a f.r1 m)) | 3 => varLat f (.ok (.vslidednVi d a f.r1 m))
  | 4 => .ok (.vmergeVx d a b m f.stall) | 5 => .ok (.vmergeVi d a f.r1 m f.stall)
  | _ => .error .unlistedFunction
/-- The VRED major 0x44 (R180). -/
def decVred (f : Fields) : Decoded :=
  varLat f (coded (RedOp.ofCode f.funct3) fun o => .ok (.vred o f.d (x5 f.r2) (x5 f.r1) f.m))
/-- The VFRED major 0x45 (R180). -/
def decVfred (f : Fields) : Decoded :=
  let d := f.d; let a := x5 f.r2; let b := x5 f.r1; let m := f.m
  varLat f (match f.funct3.toNat with
    | 0 => .ok (.vfredO d a b m) | 1 => .ok (.vfredT d a b m) | 2 => .ok (.vfredMin d a b m)
    | 3 => .ok (.vfredMax d a b m) | _ => .error .unlistedFunction)
/-- The mask major 0x46 (R180). -/
def decMask (f : Fields) : Decoded :=
  let d := mreg f.rd; let a := mreg f.r1; let b := mreg f.r2; let z := f.mid3 == 0
  match f.funct3.toNat with
  | 0 => inMask f.rd (inMask f.r1 (inMask f.r2 (zeroed z (.mand d a b f.stall))))
  | 1 => inMask f.rd (inMask f.r1 (inMask f.r2 (zeroed z (.mor d a b f.stall))))
  | 2 => inMask f.rd (inMask f.r1 (inMask f.r2 (zeroed z (.mxor d a b f.stall))))
  | 3 => inMask f.rd (inMask f.r1 (zeroed (z && f.r2 == 0) (.mnot d a f.stall)))
  | 4 => inMask f.r1 (zeroed (f.r2 == 0) (.mpopc f.d a f.m f.stall))
  | 5 => inMask f.r1 (zeroed (f.r2 == 0) (.mfirst f.d a f.m f.stall))
  | 6 => inMask f.rd (inMask f.r1 (zeroed (z && f.r2 == 0) (.mmv d a f.stall)))
  | _ => .error .unlistedFunction
/-- The sparse A major 0x47 (R180). -/
def decSparseA (f : Fields) : Decoded :=
  let d := f.d; let a := x5 f.r2; let m := f.m; let z := f.r1 == 0
  varLat f (match f.funct3.toNat with
    | 0 => zeroed z (.vcompress d a m) | 1 => zeroed z (.vcompressVl d a m) | 2 => zeroed z (.vexpand d a m)
    | 3 => zeroed z (.vppopc d a m) | 4 => zeroed z (.vconfl d a m) | 5 => zeroed z (.vrank d a m)
    | 6 => .ok (.vkcount d a (x5 f.r1) m) | _ => inMask f.rd (zeroed z (.vnfblk (mreg f.rd) a m)))
/-- The sparse B major 0x48 (R180). -/
def decSparseB (f : Fields) : Decoded :=
  let d := f.d; let a := x5 f.r2; let m := f.m; let k := mreg f.r1
  varLat f (match f.funct3.toNat with
    | 0 => inMask f.r1 (.ok (.vscanAdd d a k m)) | 1 => inMask f.r1 (.ok (.vscanMin d a k m))
    | 2 => inMask f.r1 (.ok (.vscanMax d a k m)) | 3 => inMask f.r1 (.ok (.vscanFadd d a k m))
    | 4 => inMask f.r1 (accept (f.r1 != 0) .fieldOutOfRange (.vcompressKeepnf d a k m))
    | 5 => inMask f.r1 (accept (f.r1 != 0) .fieldOutOfRange (.vcompressKeepnfVl d a k m))
    | _ => .error .unlistedFunction)
/-- The vector misc major 0x49 (R180). -/
def decVmisc (f : Fields) : Decoded :=
  let z := f.r1 == 0 && f.r2 == 0
  match f.funct3.toNat with
  | 0 => varLat f (zeroed (z && f.mid3 == 0 && f.rd == 0) .vstop)
  | 1 => varLat f (zeroed z (.vpid f.d f.m)) | 2 => zeroed z (.vrand f.d f.m f.stall)
  | _ => .error .unlistedFunction
/-- The vector load majors 0x50 to 0x53 without an operand in [25:21] (R181). -/
def decVm0 (f : Fields) (k : VReg → XReg → Cls → Bool → Bool → MReg → Instr) : Decoded :=
  zeroed (f.r2 == 0) (k f.d (x5 f.r1) f.cls (f.bit 14) (f.bit 15) f.mlo)
/-- A vector memory major whose [25:21] names a register (R181). -/
def decVm1 (f : Fields) (k : VReg → XReg → Fin 32 → Cls → Bool → Bool → MReg → Instr) : Decoded :=
  .ok (k f.d (x5 f.r1) (x5 f.r2) f.cls (f.bit 14) (f.bit 15) f.mlo)
/-- A .SC major: E and Y are zero too (R181). -/
def decVmSc (f : Fields) (k : VReg → XReg → Cls → MReg → Instr) : Decoded :=
  zeroed (f.r2 == 0 && !f.bit 14 && !f.bit 15) (k f.d (x5 f.r1) f.cls f.mlo)
/-- Near vector atomics group 0, major 0x5B (R181). -/
def decVamo0 (f : Fields) : Decoded :=
  let d := f.d; let a := x5 f.r1; let x := x5 f.r2; let c := f.cls; let m := f.mlo
  match f.op2.toNat with
  | 0 => .ok (.vamoAdd d a x c m) | 1 => .ok (.vamoAnd d a x c m) | 2 => .ok (.vamoOr d a x c m)
  | _ => .ok (.vamoXor d a x c m)
/-- Near vector atomics group 1, major 0x5C (R181). -/
def decVamo1 (f : Fields) : Decoded :=
  let d := f.d; let a := x5 f.r1; let x := x5 f.r2; let c := f.cls; let m := f.mlo
  match f.op2.toNat with
  | 0 => .ok (.vamoMin d a x c m) | 1 => .ok (.vamoMax d a x c m) | 2 => .ok (.vamoMinn d a x c m)
  | _ => .ok (.vamoMaxn d a x c m)
/-- Near vector atomics group 2, major 0x5D (R181). -/
def decVamo2 (f : Fields) : Decoded :=
  let d := f.d; let a := x5 f.r1; let x := x5 f.r2; let c := f.cls; let m := f.mlo
  match f.op2.toNat with
  | 0 => .ok (.vamoSwap d a x c m) | 1 => .ok (.vamoCas d a x c m) | 2 => .ok (.vamoFadd d a x c m)
  | _ => .error .unlistedFunction
/-- Far vector atomics group 0, major 0x5E (R181). -/
def decVamoF0 (f : Fields) : Decoded :=
  let d := f.d; let a := x5 f.r1; let x := x5 f.r2; let c := f.cls; let m := f.mlo
  match f.op2.toNat with
  | 0 => .ok (.vamoFAdd d a x c m) | 1 => .ok (.vamoFAnd d a x c m) | 2 => .ok (.vamoFOr d a x c m)
  | _ => .ok (.vamoFXor d a x c m)
/-- Far vector atomics group 1, major 0x5F (R181). -/
def decVamoF1 (f : Fields) : Decoded :=
  let d := f.d; let a := x5 f.r1; let x := x5 f.r2; let c := f.cls; let m := f.mlo
  match f.op2.toNat with
  | 0 => .ok (.vamoFMin d a x c m) | 1 => .ok (.vamoFMax d a x c m) | 2 => .ok (.vamoFMinn d a x c m)
  | _ => .ok (.vamoFMaxn d a x c m)
/-- Far vector atomics group 2, major 0x60 (R181). -/
def decVamoF2 (f : Fields) : Decoded :=
  let d := f.d; let a := x5 f.r1; let x := x5 f.r2; let c := f.cls; let m := f.mlo
  match f.op2.toNat with
  | 0 => .ok (.vamoFSwap d a x c m) | 1 => .ok (.vamoFCas d a x c m) | 2 => .ok (.vamoFFadd d a x c m)
  | _ => .error .unlistedFunction
/-- The synchronisation major 0x63 (R182); `p` is imm11[6:0]. -/
noncomputable def decSync (f : Fields) : Decoded :=
  let p := f.hi.extractLsb' 5 7
  let scope := Scope.ofCode (p.extractLsb' 0 3)
  let noScopeRest := p.extractLsb' 3 4 == 0
  varLat f (match (f.hi.extractLsb' 12 4).toNat with
    | 0 => coded scope fun sc => zeroed (noScopeRest && f.r1 == 0 && f.rd == 0) (.fenceS sc)
    | 1 => coded scope fun sc => zeroed (noScopeRest && f.rd == 0) (.fenceA sc (x5 f.r1))
    | 2 => coded scope fun sc => zeroed (noScopeRest && f.rd == 0) (.bwait sc (x5 f.r1))
    | 3 => zeroed (p.extractLsb' 4 3 == 0 && f.rd == 0) (.hpost (x4 (p.extractLsb' 0 4)) (x5 f.r1))
    | 4 => zeroed (p.extractLsb' 4 3 == 0 && f.rd == 0) (.hwait (x4 (p.extractLsb' 0 4)) (x5 f.r1))
    | 5 =>
      match (p.extractLsb' 5 2).toNat with
      | 0 => zeroed (f.r1 == 0 && f.rd == 0) (.hfsetBare (x5 (p.extractLsb' 0 5)))
      | 1 => zeroed (f.r1 == 0) (.hfset (x5 (p.extractLsb' 0 5)) f.d)
      | 2 => zeroed (f.r1 == 0 && f.rd == 0) (.hfsetClr (x5 (p.extractLsb' 0 5)))
      | _ => .error .fieldOutOfRange
    | 6 => zeroed (p.extractLsb' 6 1 == 0 && f.r1 == 0 && f.rd == 0)
        (.hfwait (x5 (p.extractLsb' 0 5)) (p.getLsbD 5))
    | _ => .error .unlistedFunction)
/-- The tag wait major 0x67 (R182). -/
noncomputable def decTag (f : Fields) : Decoded :=
  varLat f (match f.funct6.toNat with
    | 0 => zeroed (f.r2 == 0) (.twaitall f.d (x5 f.r1)) | 1 => zeroed (f.r2 == 0) (.twaitany f.d (x5 f.r1))
    | 2 => zeroed (f.r2 == 0) (.tfirst f.d (x5 f.r1)) | _ => .error .unlistedFunction)
/-- The GATH major 0x69 (R183). -/
noncomputable def decGath (f : Fields) : Decoded :=
  varLat f (zeroed (f.top5 == 0 && f.rd == 0) (.gath (x1 (f.hi.extractLsb' 10 1)) (x5 f.r1) (x5 f.r2)))
/-- IV is ILL unless CG or CR is set (16 R268). -/
def mmaOk (cg cr iv : Bool) : Bool := !iv || cg || cr
/-- The MMA.GR and MMA.RG majors 0x6A and 0x6B (R183). -/
def decMma (f : Fields)
    (k : Fin 2 → Fin 8 → Fin 32 → Fin 4 → Fin 8 → Bool → Bool → Bool → Bool → Bool → Instr) : Decoded :=
  if f.top5 = 0 then
    accept (mmaOk (f.bit 3) (f.bit 4) (f.bit 5)) .fieldOutOfRange
      (k (x1 (f.hi.extractLsb' 0 1)) (x3 f.lo) f.d (x2 (f.hi.extractLsb' 1 2)) (x3 (f.hi.extractLsb' 8 3)) (f.bit 6) (f.bit 7)
        (f.bit 3) (f.bit 4) (f.bit 5))
  else .error .nonzeroField
/-- The MMAG major 0x6C: [31:27] names the x register of the group table and the latch bit is zero (R183, 16 R272). -/
noncomputable def decMmag (f : Fields) : Decoded :=
  if f.bit 0 then .error .nonzeroField
  else accept (mmaOk (f.bit 3) (f.bit 4) (f.bit 5)) .fieldOutOfRange
    (.mmag (x5 f.top5) (x3 f.lo) f.d (x2 (f.hi.extractLsb' 1 2)) (x3 (f.hi.extractLsb' 8 3)) (f.bit 6) (f.bit 7)
      (f.bit 3) (f.bit 4) (f.bit 5))
/-- The matrix control major 0x6D (R183). -/
noncomputable def decMatCtl (f : Fields) : Decoded :=
  match f.funct6.toNat with
  | 0 => zeroed (f.r1 == 0 && f.r2 == 0 && f.rd == 0) (.mzero (x3 f.lo))
  | 1 => varLat f (if f.r2.toNat < 8 then zeroed (f.r1 == 0 && f.rd == 0) (.mwait (x3 (f.r2.extractLsb' 0 3)))
      else .error .fieldOutOfRange)
  | 2 => varLat f (if f.rd.toNat < 4 then zeroed (f.r2 == 0) (.pload (x2 (f.rd.extractLsb' 0 2)) (x5 f.r1))
      else .error .fieldOutOfRange)
  | _ => .error .unlistedFunction
/-- The TDRAIN major 0x6E: bit 26 zero, a format code to 16, slot and IV zero while C = 0 (R183, 16 R279). -/
noncomputable def decTdrain (f : Fields) : Decoded :=
  if f.bit 10 then .error .nonzeroField
  else if 16 < f.r1.toNat then .error .fieldOutOfRange
  else accept (f.bit 6 || (f.hi.extractLsb' 8 2 == 0 && !f.bit 7)) .fieldOutOfRange
    (.tdrain f.d (x3 f.lo) f.r1 (x5 f.top5) (x2 (f.hi.extractLsb' 8 2)) (f.bit 5) (f.bit 6) (f.bit 7))
/-- The TFILL major 0x6F: format code 16, the other controls zero (R183). -/
noncomputable def decTfill (f : Fields) : Decoded :=
  accept (f.hi.extractLsb' 0 11 == 16) .fieldOutOfRange (.tfill (x3 f.lo) f.d (x5 f.top5))
/-- The Graver table major 0x70 (R184). -/
noncomputable def decGtable (f : Fields) : Decoded :=
  varLat f (match f.funct6.toNat with
    | 0 => if f.rd.toNat < 4 then zeroed (f.r2 == 0) (.gload (x2 (f.rd.extractLsb' 0 2)) (x5 f.r1))
        else .error .fieldOutOfRange
    | 1 => accept (f.rd.toNat < 4) .fieldOutOfRange (.gset (x2 (f.rd.extractLsb' 0 2)) (x5 f.r1) (x5 f.r2))
    | 2 => zeroed (f.r1 == 0 && f.r2 == 0) (.gstateR f.d)
    | 3 => zeroed (f.rd == 0 && f.r2 == 0) (.gstateW (x5 f.r1))
    | _ => .error .unlistedFunction)
/-- The GRUN major 0x71 (R184). -/
noncomputable def decGrun (f : Fields) : Decoded :=
  varLat f (if f.bit 15 then zeroed (f.r2 == 0) (.grun1 f.d (x5 f.r1) (x2 (f.hi.extractLsb' 13 2)) f.m)
    else .ok (.grun f.d (x5 f.r1) (x5 f.r2) (x2 (f.hi.extractLsb' 13 2)) f.m))
/-- The Graver misc major 0x72 (R184). -/
noncomputable def decGmisc (f : Fields) : Decoded :=
  varLat f (
    if f.bit 15 then zeroed (f.r1 == 0 && f.r2 == 0) (.gfin f.d (x2 (f.hi.extractLsb' 13 2)) f.m)
    else if f.r2 = 0 then
      inMask f.rd (inMask f.r1
        (.ok (.gcmp (mreg f.rd) (x2 (f.hi.extractLsb' 13 2)) (f.r1.extractLsb' 0 3) f.m)))
    else .error .nonzeroField)

/-- The vector majors 0x30 to 0x60 (R175). -/
def decodeVec (f : Fields) : Decoded :=
  let d := f.d; let s := f.stall
  let va := x5 f.r2; let vb := x5 f.r1
  let bad : Decoded := .error (.unassignedMajor f.maj)
  match (f.maj.extractLsb' 3 4).toNat with
  | 6 => match (f.maj.extractLsb' 0 3).toNat with
    | 0 => decVintAVv f | 1 => decVintAVx f | 2 => decVintAVi f | 3 => decVintBVv f | 4 => decVintBVx f
    | 5 => decVintBVi f | 6 => decVmax f (.vmaxVv d va vb f.m s) | _ => decVmax f (.vmaxVx d va vb f.m s)
  | 7 => match (f.maj.extractLsb' 0 3).toNat with
    | 0 => decVmax f (.vmaxVi d va f.r1 f.m s) | 1 => decVcmp f (fun c => .vcmpVv c (mreg f.rd) va vb f.m s)
    | 2 => decVcmp f (fun c => .vcmpVx c (mreg f.rd) va vb f.m s)
    | 3 => decVcmp f (fun c => .vcmpVi c (mreg f.rd) va f.r1 f.m s) | 4 => decVfpVv f | 5 => decVfpVx f
    | 6 => decVfcmp f (fun c => .vfcmpVv c (mreg f.rd) va vb f.m s)
    | _ => decVfcmp f (fun c => .vfcmpVx c (mreg f.rd) va vb f.m s)
  | 8 => match (f.maj.extractLsb' 0 3).toNat with
    | 0 => decVfpUnary f | 1 => decVfcvt f | 2 => decPermA f | 3 => decPermB f | 4 => decVred f | 5 => decVfred f
    | 6 => decMask f | _ => decSparseA f
  | 9 => match (f.maj.extractLsb' 0 3).toNat with
    | 0 => decSparseB f | 1 => decVmisc f | 2 => inMask f.rd (.ok (.vfetch f.off19 (mreg f.rd)))
    | 3 => inMask f.rd (.ok (.vpj f.off19 (mreg f.rd))) | _ => bad
  | 10 => match (f.maj.extractLsb' 0 3).toNat with
    | 0 => decVm0 f .vld | 1 => decVm1 f .vlds | 2 => decVm1 f .vldx | 3 => decVm0 f .vldf | 4 => decVm0 f .vst
    | 5 => decVm1 f .vsts | 6 => decVm1 f .vstx | _ => decVm0 f .vstG
  | 11 => match (f.maj.extractLsb' 0 3).toNat with
    | 0 => decVm1 f .vstxG | 1 => decVmSc f .vldSc | 2 => decVmSc f .vstSc | 3 => decVamo0 f | 4 => decVamo1 f
    | 5 => decVamo2 f | 6 => decVamoF0 f | _ => decVamoF1 f
  | 12 => if f.maj.extractLsb' 0 3 = 0 then decVamoF2 f else bad
  | _ => bad

/-- The map of the majors, a row of eight at a time as R175 lays it out; `w` is the whole word. -/
noncomputable def decodeFields (w : BitVec 32) (f : Fields) : Decoded :=
  let d := f.d; let a := x5 f.r1; let b := x5 f.r2; let s := f.stall
  let bad : Decoded := .error (.unassignedMajor f.maj)
  match (f.maj.extractLsb' 3 4).toNat with
  | 0 => match (f.maj.extractLsb' 0 3).toNat with
    | 0 => bad | 1 => decInt f | 2 => .ok (.addi d a f.imm11 s) | 3 => .ok (.andi d a f.imm11 s)
    | 4 => .ok (.ori d a f.imm11 s) | 5 => .ok (.xori d a f.imm11 s) | 6 => decShift f (fun k => .shli d a k s)
    | _ => decShift f (fun k => .shri d a k s)
  | 1 => match (f.maj.extractLsb' 0 3).toNat with
    | 0 => decShift f (fun k => .srai d a k s) | 1 => .ok (.slti d a f.imm11 s) | 2 => .ok (.lih d f.hi s)
    | 3 => .ok (.adpc d f.hi s) | 4 => decFp .f64 f | 5 => decFp .f32 f | 6 => decFp .f16 f | _ => decFp .bf16 f
  | 2 => match (f.maj.extractLsb' 0 3).toNat with
    | 0 => coded (LdWidth.ofCode f.lo) fun k => .ok (.ld k d a f.imm7 f.smCls)
    | 1 => coded (StWidth.ofCode f.lo) fun k => .ok (.st k d a f.imm7 f.smCls)
    | 2 => coded (StWidth.ofCode f.lo) fun k => .ok (.stG k d a f.imm7 f.smCls)
    | 3 => decAmo0 f | 4 => decAmo1 f | 5 => decAmo2 f | 6 => decAmoq f | _ => bad
  | 3 => match (f.maj.extractLsb' 0 3).toNat with
    | 0 => .ok (.beq d a f.off14) | 1 => .ok (.bne d a f.off14) | 2 => .ok (.blt d a f.off14)
    | 3 => .ok (.bge d a f.off14) | 4 => .ok (.bltn d a f.off14) | 5 => .ok (.bgen d a f.off14)
    | 6 => .ok (.jal d f.off19) | _ => varLat f (.ok (.jalr d a f.imm11))
  | 4 => match (f.maj.extractLsb' 0 3).toNat with
    | 0 => varLat f (.ok (.calli d a f.imm11))
    | 1 => varLat f (zeroed (f.rd == 0 && f.top5 == 0) (.cmark (f.hi.extractLsb' 0 11)))
    | 2 => varLat f (zeroed (f.rd == 0 && f.r1 == 0) (.trap f.imm11)) | 3 => varLat f (zeroed (f.r1 == 0) (.srd d f.imm11))
    | 4 => varLat f (zeroed (f.rd == 0) (.swr f.imm11 a)) | 5 => varLat f (zeroed (f.r1 == 0) (.erd d f.imm11))
    | 6 => decSystem f | _ => bad
  | 5 => match (f.maj.extractLsb' 0 3).toNat with
    | 0 => varLat f (zeroed (f.funct6 == 0) (.vsetvl d a b)) | 1 => bad | 2 => bad | 3 => bad
    | _ => .ok (.vsetvli d a (f.maj.extractLsb' 0 2 ++ f.imm11) f.lo)
  | 6 => decodeVec f | 7 => decodeVec f | 8 => decodeVec f | 9 => decodeVec f | 10 => decodeVec f | 11 => decodeVec f
  | 12 => match (f.maj.extractLsb' 0 3).toNat with
    | 0 => decodeVec f | 1 => varLat f (zeroed (f.rd == 0) (.fenceC f.hi))
    | 2 => varLat f (zeroed (f.rd == 0 && f.r1 == 0 && !f.bit 15) (.fenceP (f.hi.extractLsb' 5 5) (f.hi.extractLsb' 10 5)))
    | 3 => decSync f | 4 => varLat f (.ok (.cpy d a b (x6 f.funct6))) | 5 => varLat f (.ok (.cpy2 d a b (x6 f.funct6)))
    | 6 => varLat f (.ok (.cpyx d a b (x6 f.funct6))) | _ => decTag f
  | 13 => match (f.maj.extractLsb' 0 3).toNat with
    | 0 => varLat f (zeroed (f.funct6 == 0 && f.r2 == 0) (.coll d a)) | 1 => decGath f | 2 => decMma f .mmaGr
    | 3 => decMma f .mmaRg | 4 => decMmag f | 5 => decMatCtl f | 6 => decTdrain f | _ => decTfill f
  | 14 => match (f.maj.extractLsb' 0 3).toNat with
    | 0 => decGtable f | 1 => decGrun f | 2 => decGmisc f | _ => bad
  | _ => .ok (.unimpl w)

/-- Decode a 32-bit word (R175 to R184). -/
noncomputable def decodeWord (w : BitVec 32) : Decoded := decodeFields w (splitWord w)

/-- Decode a compact word (R174). -/
noncomputable def decodeHalf (h : BitVec 16) : Decoded :=
  let a := h.extractLsb' 11 5; let b := h.extractLsb' 6 5
  let imm : BitVec 10 := a ++ b
  match (h.extractLsb' 1 5).toNat with
  | 1 => zeroed (a == 0) (.cAdd (x5 b)) | 2 => zeroed (a == 0) (.cSub (x5 b)) | 3 => zeroed (a == 0) (.cAnd (x5 b))
  | 4 => zeroed (a == 0) (.cOr (x5 b)) | 5 => zeroed (a == 0) (.cXor (x5 b)) | 6 => .ok (.cAddi imm)
  | 7 => zeroed (a.extractLsb' 1 4 == 0) (.cShli (imm.extractLsb' 0 6))
  | 8 => zeroed (a.extractLsb' 1 4 == 0) (.cShri (imm.extractLsb' 0 6)) | 9 => zeroed (a == 0) (.cMov (x5 b))
  | 10 => .ok (.cLi imm) | 11 => .ok (.cBnez imm) | 12 => .ok (.cBeqz imm) | 13 => zeroed (a == 0 && b == 0) .cNop
  | 14 => zeroed (a == 0) (.cvAdd (x5 b)) | 15 => zeroed (a == 0) (.cvFadd (x5 b))
  | 16 => zeroed (a == 0) (.cvFmul (x5 b)) | 17 => .ok (.cvFmacc (x5 b) (x5 a)) | 18 => zeroed (a == 0) (.cvMv (x5 b))
  | _ => .error .reservedCompact

/-- An instruction as it stands in memory: one halfword or one word (R168). -/
inductive Code
  | w16 (h : BitVec 16)
  | w32 (w : BitVec 32)
  deriving DecidableEq, Repr

/-- Decode an instruction's code. -/
noncomputable def decodeCode : Code → Decoded
  | .w16 h => decodeHalf h
  | .w32 w => decodeWord w

/-- The code as 32 bits, zero above a compact word. -/
def Code.bits : Code → BitVec 32
  | .w16 h => h.setWidth 32
  | .w32 w => w

/-- The length of an instruction in bytes (R168). -/
def Code.length : Code → Nat
  | .w16 _ => 2
  | .w32 _ => 4

/-- The bytes of the code in memory order: little-endian halfwords, the first at the lower address (R168). -/
def Code.bytes : Code → List Byte
  | .w16 h => [h.extractLsb' 0 8, h.extractLsb' 8 8]
  | .w32 w => [w.extractLsb' 0 8, w.extractLsb' 8 8, w.extractLsb' 16 8, w.extractLsb' 24 8]

/-- Take one instruction off a list of bytes in memory order: bit 0 of the first halfword gives its size (R168). -/
noncomputable def decodeBytes : List Byte → Except DecodeError (Instr × List Byte)
  | b0 :: b1 :: rest =>
    if b0.getLsbD 0 then
      match rest with
      | b2 :: b3 :: rest' => (decodeWord (b3 ++ b2 ++ b1 ++ b0)).map (fun i => (i, rest'))
      | _ => .error .truncated
    else (decodeHalf (b1 ++ b0)).map (fun i => (i, rest))
  | _ => .error .truncated

/-- The instruction the machine runs for a code: a rejected code runs as ILLEGAL_ENCODING (R175). -/
noncomputable def decodeOrIllegal (c : Code) : Instr :=
  match decodeCode c with
  | .ok i => i
  | .error _ => .illegalEncoding c.bits

/-- The bytes of an instruction of `nbits` bits `w`, in memory order, zero above `nbits` up to four bytes. -/
def tableBytes (nbits w : Nat) : List Byte :=
  let v := w % 2 ^ nbits
  [BitVec.ofNat 8 v, BitVec.ofNat 8 (v >>> 8), BitVec.ofNat 8 (v >>> 16), BitVec.ofNat 8 (v >>> 24)]

/-- The instruction the decoder reads from the bits of an opcode-table row. -/
noncomputable def decodeTableWord (nbits w : Nat) : Option Instr :=
  match decodeBytes (tableBytes nbits w) with
  | .ok (i, _) => some i
  | .error _ => none

/-! ### The encoder -/

/-- A register number as a 5-bit field. -/
def r5 (x : Fin 32) : BitVec 5 := BitVec.ofNat 5 x.val
/-- A number below 8 as a 3-bit field. -/
def r3 (x : Fin 8) : BitVec 3 := BitVec.ofNat 3 x.val
/-- A mask register number in a 5-bit field. -/
def m5 (x : Fin 8) : BitVec 5 := 0#2 ++ r3 x
/-- A number below 16 as a 4-bit field. -/
def r4 (x : Fin 16) : BitVec 4 := BitVec.ofNat 4 x.val
/-- A number below 4 as a 2-bit field. -/
def r2 (x : Fin 4) : BitVec 2 := BitVec.ofNat 2 x.val
/-- A number below 2 as a 1-bit field. -/
def r1 (x : Fin 2) : BitVec 1 := BitVec.ofNat 1 x.val
/-- A number below 64 as a 6-bit field. -/
def r6 (x : Fin 64) : BitVec 6 := BitVec.ofNat 6 x.val

/-- A 32-bit word from its upper half, [15:11], major and [3:1] (R169). -/
def joinWord (hi : BitVec 16) (rd : BitVec 5) (maj : BitVec 7) (lo : BitVec 3) : BitVec 32 :=
  hi ++ rd ++ maj ++ lo ++ 1#1
/-- A compact word from [15:11], [10:6] and op5 (R169). -/
def joinHalf (a b op : BitVec 5) : BitVec 16 := a ++ b ++ op ++ 0#1
/-- The upper half of an R word. -/
def hR (f : BitVec 6) (rs2 rs1 : BitVec 5) : BitVec 16 := f ++ rs2 ++ rs1
/-- The upper half of a scalar floating-point word: selector, op, second source or code, first source (R177). -/
def hF (sel op : BitVec 3) (rs2 rs1 : BitVec 5) : BitVec 16 := sel ++ op ++ rs2 ++ rs1
/-- The upper half of an I word. -/
def hI (imm : BitVec 11) (rs1 : BitVec 5) : BitVec 16 := imm ++ rs1
/-- The upper half of a B word. -/
def hB (off : BitVec 14) (rs2 : BitVec 5) : BitVec 16 := off.extractLsb' 3 11 ++ rs2
/-- The upper half of a V word. -/
def hV (f m : BitVec 3) (vs2 vs1 : BitVec 5) : BitVec 16 := f ++ m ++ vs2 ++ vs1
/-- The upper half of a VM word. -/
def hVM (y e : Bool) (cls : BitVec 4) (ix base : BitVec 5) : BitVec 16 :=
  BitVec.ofBool y ++ BitVec.ofBool e ++ cls ++ ix ++ base
/-- The upper half of an SM word. -/
def hSM (imm : BitVec 7) (cls : BitVec 4) (rs1 : BitVec 5) : BitVec 16 := imm ++ cls ++ rs1
/-- The upper half of an A word. -/
def hA (op : BitVec 2) (cls : BitVec 4) (rs2 base : BitVec 5) : BitVec 16 := op ++ cls ++ rs2 ++ base
/-- The upper half of an MX word. -/
def hMX (x : BitVec 5) (cb : BitVec 3) (sat z iv cr cg : Bool) (slot : BitVec 2) (latch : BitVec 1) : BitVec 16 :=
  x ++ cb ++ BitVec.ofBool sat ++ BitVec.ofBool z ++ BitVec.ofBool iv ++ BitVec.ofBool cr ++ BitVec.ofBool cg ++
    slot ++ latch
/-- The upper half of a TDRAIN or TFILL word. -/
def hTD (x : BitVec 5) (slot : BitVec 2) (iv c t : Bool) (code : BitVec 5) : BitVec 16 :=
  x ++ 0#1 ++ slot ++ BitVec.ofBool iv ++ BitVec.ofBool c ++ BitVec.ofBool t ++ code

/-- The code of an instruction, from the encoding tables of chapter 12; the rows without an encoding have none. -/
def encode : Instr → Option Code
  | .vaddVv d a b m st => some (.w32 (joinWord (hV 0 (r3 m) (r5 a) (r5 b)) (r5 d) 0x30 (r3 st)))
  | .vaddVx d a b m st => some (.w32 (joinWord (hV 0 (r3 m) (r5 a) (r5 b)) (r5 d) 0x31 (r3 st)))
  | .vaddVi d a imm m st => some (.w32 (joinWord (hV 0 (r3 m) (r5 a) imm) (r5 d) 0x32 (r3 st)))
  | .vsubVv d a b m st => some (.w32 (joinWord (hV 1 (r3 m) (r5 a) (r5 b)) (r5 d) 0x30 (r3 st)))
  | .vsubVx d a b m st => some (.w32 (joinWord (hV 1 (r3 m) (r5 a) (r5 b)) (r5 d) 0x31 (r3 st)))
  | .vsubVi d a imm m st => some (.w32 (joinWord (hV 1 (r3 m) (r5 a) imm) (r5 d) 0x32 (r3 st)))
  | .vmulVv d a b m st => some (.w32 (joinWord (hV 2 (r3 m) (r5 a) (r5 b)) (r5 d) 0x30 (r3 st)))
  | .vmulVx d a b m st => some (.w32 (joinWord (hV 2 (r3 m) (r5 a) (r5 b)) (r5 d) 0x31 (r3 st)))
  | .vmulVi d a imm m st => some (.w32 (joinWord (hV 2 (r3 m) (r5 a) imm) (r5 d) 0x32 (r3 st)))
  | .vmulhVv d a b m st => some (.w32 (joinWord (hV 3 (r3 m) (r5 a) (r5 b)) (r5 d) 0x30 (r3 st)))
  | .vmulhVx d a b m st => some (.w32 (joinWord (hV 3 (r3 m) (r5 a) (r5 b)) (r5 d) 0x31 (r3 st)))
  | .vmulhVi d a imm m st => some (.w32 (joinWord (hV 3 (r3 m) (r5 a) imm) (r5 d) 0x32 (r3 st)))
  | .vmaccVv d a b m st => some (.w32 (joinWord (hV 4 (r3 m) (r5 a) (r5 b)) (r5 d) 0x30 (r3 st)))
  | .vmaccVx d a b m st => some (.w32 (joinWord (hV 4 (r3 m) (r5 a) (r5 b)) (r5 d) 0x31 (r3 st)))
  | .vmaccVi d a imm m st => some (.w32 (joinWord (hV 4 (r3 m) (r5 a) imm) (r5 d) 0x32 (r3 st)))
  | .vdivVv d a b m st => some (.w32 (joinWord (hV 5 (r3 m) (r5 a) (r5 b)) (r5 d) 0x30 (r3 st)))
  | .vdivVx d a b m st => some (.w32 (joinWord (hV 5 (r3 m) (r5 a) (r5 b)) (r5 d) 0x31 (r3 st)))
  | .vdivVi d a imm m st => some (.w32 (joinWord (hV 5 (r3 m) (r5 a) imm) (r5 d) 0x32 (r3 st)))
  | .vremVv d a b m st => some (.w32 (joinWord (hV 6 (r3 m) (r5 a) (r5 b)) (r5 d) 0x30 (r3 st)))
  | .vremVx d a b m st => some (.w32 (joinWord (hV 6 (r3 m) (r5 a) (r5 b)) (r5 d) 0x31 (r3 st)))
  | .vremVi d a imm m st => some (.w32 (joinWord (hV 6 (r3 m) (r5 a) imm) (r5 d) 0x32 (r3 st)))
  | .vminVv d a b m st => some (.w32 (joinWord (hV 7 (r3 m) (r5 a) (r5 b)) (r5 d) 0x30 (r3 st)))
  | .vminVx d a b m st => some (.w32 (joinWord (hV 7 (r3 m) (r5 a) (r5 b)) (r5 d) 0x31 (r3 st)))
  | .vminVi d a imm m st => some (.w32 (joinWord (hV 7 (r3 m) (r5 a) imm) (r5 d) 0x32 (r3 st)))
  | .vandVv d a b m st => some (.w32 (joinWord (hV 0 (r3 m) (r5 a) (r5 b)) (r5 d) 0x33 (r3 st)))
  | .vandVx d a b m st => some (.w32 (joinWord (hV 0 (r3 m) (r5 a) (r5 b)) (r5 d) 0x34 (r3 st)))
  | .vandVi d a imm m st => some (.w32 (joinWord (hV 0 (r3 m) (r5 a) imm) (r5 d) 0x35 (r3 st)))
  | .vorVv d a b m st => some (.w32 (joinWord (hV 1 (r3 m) (r5 a) (r5 b)) (r5 d) 0x33 (r3 st)))
  | .vorVx d a b m st => some (.w32 (joinWord (hV 1 (r3 m) (r5 a) (r5 b)) (r5 d) 0x34 (r3 st)))
  | .vorVi d a imm m st => some (.w32 (joinWord (hV 1 (r3 m) (r5 a) imm) (r5 d) 0x35 (r3 st)))
  | .vxorVv d a b m st => some (.w32 (joinWord (hV 2 (r3 m) (r5 a) (r5 b)) (r5 d) 0x33 (r3 st)))
  | .vxorVx d a b m st => some (.w32 (joinWord (hV 2 (r3 m) (r5 a) (r5 b)) (r5 d) 0x34 (r3 st)))
  | .vxorVi d a imm m st => some (.w32 (joinWord (hV 2 (r3 m) (r5 a) imm) (r5 d) 0x35 (r3 st)))
  | .vshlVv d a b m st => some (.w32 (joinWord (hV 3 (r3 m) (r5 a) (r5 b)) (r5 d) 0x33 (r3 st)))
  | .vshlVx d a b m st => some (.w32 (joinWord (hV 3 (r3 m) (r5 a) (r5 b)) (r5 d) 0x34 (r3 st)))
  | .vshlVi d a imm m st => some (.w32 (joinWord (hV 3 (r3 m) (r5 a) imm) (r5 d) 0x35 (r3 st)))
  | .vshrVv d a b m st => some (.w32 (joinWord (hV 4 (r3 m) (r5 a) (r5 b)) (r5 d) 0x33 (r3 st)))
  | .vshrVx d a b m st => some (.w32 (joinWord (hV 4 (r3 m) (r5 a) (r5 b)) (r5 d) 0x34 (r3 st)))
  | .vshrVi d a imm m st => some (.w32 (joinWord (hV 4 (r3 m) (r5 a) imm) (r5 d) 0x35 (r3 st)))
  | .vsraVv d a b m st => some (.w32 (joinWord (hV 5 (r3 m) (r5 a) (r5 b)) (r5 d) 0x33 (r3 st)))
  | .vsraVx d a b m st => some (.w32 (joinWord (hV 5 (r3 m) (r5 a) (r5 b)) (r5 d) 0x34 (r3 st)))
  | .vsraVi d a imm m st => some (.w32 (joinWord (hV 5 (r3 m) (r5 a) imm) (r5 d) 0x35 (r3 st)))
  | .vsaddVv d a b m st => some (.w32 (joinWord (hV 6 (r3 m) (r5 a) (r5 b)) (r5 d) 0x33 (r3 st)))
  | .vsaddVx d a b m st => some (.w32 (joinWord (hV 6 (r3 m) (r5 a) (r5 b)) (r5 d) 0x34 (r3 st)))
  | .vsaddVi d a imm m st => some (.w32 (joinWord (hV 6 (r3 m) (r5 a) imm) (r5 d) 0x35 (r3 st)))
  | .vssubVv d a b m st => some (.w32 (joinWord (hV 7 (r3 m) (r5 a) (r5 b)) (r5 d) 0x33 (r3 st)))
  | .vssubVx d a b m st => some (.w32 (joinWord (hV 7 (r3 m) (r5 a) (r5 b)) (r5 d) 0x34 (r3 st)))
  | .vssubVi d a imm m st => some (.w32 (joinWord (hV 7 (r3 m) (r5 a) imm) (r5 d) 0x35 (r3 st)))
  | .vmaxVv d a b m st => some (.w32 (joinWord (hV 0 (r3 m) (r5 a) (r5 b)) (r5 d) 0x36 (r3 st)))
  | .vmaxVx d a b m st => some (.w32 (joinWord (hV 0 (r3 m) (r5 a) (r5 b)) (r5 d) 0x37 (r3 st)))
  | .vmaxVi d a imm m st => some (.w32 (joinWord (hV 0 (r3 m) (r5 a) imm) (r5 d) 0x38 (r3 st)))
  | .vcmpVv cc d a b m st => some (.w32 (joinWord (hV cc.code (r3 m) (r5 a) (r5 b)) (m5 d) 0x39 (r3 st)))
  | .vcmpVx cc d a b m st => some (.w32 (joinWord (hV cc.code (r3 m) (r5 a) (r5 b)) (m5 d) 0x3a (r3 st)))
  | .vcmpVi cc d a imm m st => some (.w32 (joinWord (hV cc.code (r3 m) (r5 a) imm) (m5 d) 0x3b (r3 st)))
  | .vfaddVv d a b m st => some (.w32 (joinWord (hV 0 (r3 m) (r5 a) (r5 b)) (r5 d) 0x3c (r3 st)))
  | .vfaddVx d a b m st => some (.w32 (joinWord (hV 0 (r3 m) (r5 a) (r5 b)) (r5 d) 0x3d (r3 st)))
  | .vfsubVv d a b m st => some (.w32 (joinWord (hV 1 (r3 m) (r5 a) (r5 b)) (r5 d) 0x3c (r3 st)))
  | .vfsubVx d a b m st => some (.w32 (joinWord (hV 1 (r3 m) (r5 a) (r5 b)) (r5 d) 0x3d (r3 st)))
  | .vfmulVv d a b m st => some (.w32 (joinWord (hV 2 (r3 m) (r5 a) (r5 b)) (r5 d) 0x3c (r3 st)))
  | .vfmulVx d a b m st => some (.w32 (joinWord (hV 2 (r3 m) (r5 a) (r5 b)) (r5 d) 0x3d (r3 st)))
  | .vfmaccVv d a b m st => some (.w32 (joinWord (hV 3 (r3 m) (r5 a) (r5 b)) (r5 d) 0x3c (r3 st)))
  | .vfmaccVx d a b m st => some (.w32 (joinWord (hV 3 (r3 m) (r5 a) (r5 b)) (r5 d) 0x3d (r3 st)))
  | .vfnmsacVv d a b m st => some (.w32 (joinWord (hV 4 (r3 m) (r5 a) (r5 b)) (r5 d) 0x3c (r3 st)))
  | .vfnmsacVx d a b m st => some (.w32 (joinWord (hV 4 (r3 m) (r5 a) (r5 b)) (r5 d) 0x3d (r3 st)))
  | .vfdivVv d a b m st => some (.w32 (joinWord (hV 5 (r3 m) (r5 a) (r5 b)) (r5 d) 0x3c (r3 st)))
  | .vfdivVx d a b m st => some (.w32 (joinWord (hV 5 (r3 m) (r5 a) (r5 b)) (r5 d) 0x3d (r3 st)))
  | .vfminVv d a b m st => some (.w32 (joinWord (hV 6 (r3 m) (r5 a) (r5 b)) (r5 d) 0x3c (r3 st)))
  | .vfminVx d a b m st => some (.w32 (joinWord (hV 6 (r3 m) (r5 a) (r5 b)) (r5 d) 0x3d (r3 st)))
  | .vfmaxVv d a b m st => some (.w32 (joinWord (hV 7 (r3 m) (r5 a) (r5 b)) (r5 d) 0x3c (r3 st)))
  | .vfmaxVx d a b m st => some (.w32 (joinWord (hV 7 (r3 m) (r5 a) (r5 b)) (r5 d) 0x3d (r3 st)))
  | .vfcmpVv cc d a b m st => some (.w32 (joinWord (hV cc.code (r3 m) (r5 a) (r5 b)) (m5 d) 0x3e (r3 st)))
  | .vfcmpVx cc d a b m st => some (.w32 (joinWord (hV cc.code (r3 m) (r5 a) (r5 b)) (m5 d) 0x3f (r3 st)))
  | .vfsqrt d a m st => some (.w32 (joinWord (hV 0 (r3 m) (r5 a) 0) (r5 d) 0x40 (r3 st)))
  | .vfclass d a m st => some (.w32 (joinWord (hV 1 (r3 m) (r5 a) 0) (r5 d) 0x40 (r3 st)))
  | .vexp2 d a m => some (.w32 (joinWord (hV 2 (r3 m) (r5 a) 0) (r5 d) 0x40 0))
  | .vlog2 d a m => some (.w32 (joinWord (hV 3 (r3 m) (r5 a) 0) (r5 d) 0x40 0))
  | .vrcp d a m => some (.w32 (joinWord (hV 4 (r3 m) (r5 a) 0) (r5 d) 0x40 0))
  | .vrsq d a m => some (.w32 (joinWord (hV 5 (r3 m) (r5 a) 0) (r5 d) 0x40 0))
  | .vsin d a m => some (.w32 (joinWord (hV 6 (r3 m) (r5 a) 0) (r5 d) 0x40 0))
  | .vcos d a m => some (.w32 (joinWord (hV 7 (r3 m) (r5 a) 0) (r5 d) 0x40 0))
  | .vfcvtTo cs code d a m st => some (.w32 (joinWord (hV (0#1 ++ BitVec.ofBool cs ++ 0#1) (r3 m) (r5 a) code) (r5 d) 0x41 (r3 st)))
  | .vfcvtFrom cs code d a m st => some (.w32 (joinWord (hV (0#1 ++ BitVec.ofBool cs ++ 1#1) (r3 m) (r5 a) code) (r5 d) 0x41 (r3 st)))
  | .vmvVv d a m st => some (.w32 (joinWord (hV 0 (r3 m) (r5 a) 0) (r5 d) 0x42 (r3 st)))
  | .vmergeVv d a b m st => some (.w32 (joinWord (hV 1 (r3 m) (r5 a) (r5 b)) (r5 d) 0x42 (r3 st)))
  | .vslideupVx d a b m => some (.w32 (joinWord (hV 2 (r3 m) (r5 a) (r5 b)) (r5 d) 0x42 0))
  | .vslidednVx d a b m => some (.w32 (joinWord (hV 3 (r3 m) (r5 a) (r5 b)) (r5 d) 0x42 0))
  | .vpermVv d a b m => some (.w32 (joinWord (hV 4 (r3 m) (r5 a) (r5 b)) (r5 d) 0x42 0))
  | .viota d ms m => some (.w32 (joinWord (hV 5 (r3 m) 0 (m5 ms)) (r5 d) 0x42 0))
  | .vextx d a b => some (.w32 (joinWord (hV 6 0 (r5 a) (r5 b)) (r5 d) 0x42 0))
  | .vinsx d a b => some (.w32 (joinWord (hV 7 0 (r5 b) (r5 a)) (r5 d) 0x42 0))
  | .vbcastVx d b m st => some (.w32 (joinWord (hV 0 (r3 m) 0 (r5 b)) (r5 d) 0x43 (r3 st)))
  | .vbcastVi d imm m st => some (.w32 (joinWord (hV 1 (r3 m) 0 imm) (r5 d) 0x43 (r3 st)))
  | .vslideupVi d a imm m => some (.w32 (joinWord (hV 2 (r3 m) (r5 a) imm) (r5 d) 0x43 0))
  | .vslidednVi d a imm m => some (.w32 (joinWord (hV 3 (r3 m) (r5 a) imm) (r5 d) 0x43 0))
  | .vmergeVx d a b m st => some (.w32 (joinWord (hV 4 (r3 m) (r5 a) (r5 b)) (r5 d) 0x43 (r3 st)))
  | .vmergeVi d a imm m st => some (.w32 (joinWord (hV 5 (r3 m) (r5 a) imm) (r5 d) 0x43 (r3 st)))
  | .vred o d a b m => some (.w32 (joinWord (hV o.code (r3 m) (r5 a) (r5 b)) (r5 d) 0x44 0))
  | .vfredO d a b m => some (.w32 (joinWord (hV 0 (r3 m) (r5 a) (r5 b)) (r5 d) 0x45 0))
  | .vfredT d a b m => some (.w32 (joinWord (hV 1 (r3 m) (r5 a) (r5 b)) (r5 d) 0x45 0))
  | .vfredMin d a b m => some (.w32 (joinWord (hV 2 (r3 m) (r5 a) (r5 b)) (r5 d) 0x45 0))
  | .vfredMax d a b m => some (.w32 (joinWord (hV 3 (r3 m) (r5 a) (r5 b)) (r5 d) 0x45 0))
  | .mand d a b st => some (.w32 (joinWord (hV 0 0 (m5 b) (m5 a)) (m5 d) 0x46 (r3 st)))
  | .mor d a b st => some (.w32 (joinWord (hV 1 0 (m5 b) (m5 a)) (m5 d) 0x46 (r3 st)))
  | .mxor d a b st => some (.w32 (joinWord (hV 2 0 (m5 b) (m5 a)) (m5 d) 0x46 (r3 st)))
  | .mnot d a st => some (.w32 (joinWord (hV 3 0 0 (m5 a)) (m5 d) 0x46 (r3 st)))
  | .mpopc d a m st => some (.w32 (joinWord (hV 4 (r3 m) 0 (m5 a)) (r5 d) 0x46 (r3 st)))
  | .mfirst d a m st => some (.w32 (joinWord (hV 5 (r3 m) 0 (m5 a)) (r5 d) 0x46 (r3 st)))
  | .mmv d a st => some (.w32 (joinWord (hV 6 0 0 (m5 a)) (m5 d) 0x46 (r3 st)))
  | .vcompress d a m => some (.w32 (joinWord (hV 0 (r3 m) (r5 a) 0) (r5 d) 0x47 0))
  | .vcompressVl d a m => some (.w32 (joinWord (hV 1 (r3 m) (r5 a) 0) (r5 d) 0x47 0))
  | .vexpand d a m => some (.w32 (joinWord (hV 2 (r3 m) (r5 a) 0) (r5 d) 0x47 0))
  | .vppopc d a m => some (.w32 (joinWord (hV 3 (r3 m) (r5 a) 0) (r5 d) 0x47 0))
  | .vconfl d a m => some (.w32 (joinWord (hV 4 (r3 m) (r5 a) 0) (r5 d) 0x47 0))
  | .vrank d a m => some (.w32 (joinWord (hV 5 (r3 m) (r5 a) 0) (r5 d) 0x47 0))
  | .vkcount d a b m => some (.w32 (joinWord (hV 6 (r3 m) (r5 a) (r5 b)) (r5 d) 0x47 0))
  | .vnfblk d a m => some (.w32 (joinWord (hV 7 (r3 m) (r5 a) 0) (m5 d) 0x47 0))
  | .vscanAdd d a ms m => some (.w32 (joinWord (hV 0 (r3 m) (r5 a) (m5 ms)) (r5 d) 0x48 0))
  | .vscanMin d a ms m => some (.w32 (joinWord (hV 1 (r3 m) (r5 a) (m5 ms)) (r5 d) 0x48 0))
  | .vscanMax d a ms m => some (.w32 (joinWord (hV 2 (r3 m) (r5 a) (m5 ms)) (r5 d) 0x48 0))
  | .vscanFadd d a ms m => some (.w32 (joinWord (hV 3 (r3 m) (r5 a) (m5 ms)) (r5 d) 0x48 0))
  | .vcompressKeepnf d a mk m => some (.w32 (joinWord (hV 4 (r3 m) (r5 a) (m5 mk)) (r5 d) 0x48 0))
  | .vcompressKeepnfVl d a mk m => some (.w32 (joinWord (hV 5 (r3 m) (r5 a) (m5 mk)) (r5 d) 0x48 0))
  | .vstop => some (.w32 (joinWord (hV 0 0 0 0) 0 0x49 0))
  | .vpid d m => some (.w32 (joinWord (hV 1 (r3 m) 0 0) (r5 d) 0x49 0))
  | .vrand d m st => some (.w32 (joinWord (hV 2 (r3 m) 0 0) (r5 d) 0x49 (r3 st)))
  | .vfetch off m => some (.w32 (joinWord (off.extractLsb' 3 16) (m5 m) 0x4a (off.extractLsb' 0 3)))
  | .vpj off m => some (.w32 (joinWord (off.extractLsb' 3 16) (m5 m) 0x4b (off.extractLsb' 0 3)))
  | .vld d a cls e y m => some (.w32 (joinWord (hVM y e (r4 cls) 0 (r5 a)) (r5 d) 0x50 (r3 m)))
  | .vlds d a b cls e y m => some (.w32 (joinWord (hVM y e (r4 cls) (r5 b) (r5 a)) (r5 d) 0x51 (r3 m)))
  | .vldx d a ix cls e y m => some (.w32 (joinWord (hVM y e (r4 cls) (r5 ix) (r5 a)) (r5 d) 0x52 (r3 m)))
  | .vldf d a cls e y m => some (.w32 (joinWord (hVM y e (r4 cls) 0 (r5 a)) (r5 d) 0x53 (r3 m)))
  | .vst d a cls e y m => some (.w32 (joinWord (hVM y e (r4 cls) 0 (r5 a)) (r5 d) 0x54 (r3 m)))
  | .vsts d a b cls e y m => some (.w32 (joinWord (hVM y e (r4 cls) (r5 b) (r5 a)) (r5 d) 0x55 (r3 m)))
  | .vstx d a ix cls e y m => some (.w32 (joinWord (hVM y e (r4 cls) (r5 ix) (r5 a)) (r5 d) 0x56 (r3 m)))
  | .vstG d a cls e y m => some (.w32 (joinWord (hVM y e (r4 cls) 0 (r5 a)) (r5 d) 0x57 (r3 m)))
  | .vstxG d a ix cls e y m => some (.w32 (joinWord (hVM y e (r4 cls) (r5 ix) (r5 a)) (r5 d) 0x58 (r3 m)))
  | .vldSc d a cls m => some (.w32 (joinWord (hVM false false (r4 cls) 0 (r5 a)) (r5 d) 0x59 (r3 m)))
  | .vstSc d a cls m => some (.w32 (joinWord (hVM false false (r4 cls) 0 (r5 a)) (r5 d) 0x5a (r3 m)))
  | .vamoAdd d a ix cls m => some (.w32 (joinWord (hA 0 (r4 cls) (r5 ix) (r5 a)) (r5 d) 0x5b (r3 m)))
  | .vamoAnd d a ix cls m => some (.w32 (joinWord (hA 1 (r4 cls) (r5 ix) (r5 a)) (r5 d) 0x5b (r3 m)))
  | .vamoOr d a ix cls m => some (.w32 (joinWord (hA 2 (r4 cls) (r5 ix) (r5 a)) (r5 d) 0x5b (r3 m)))
  | .vamoXor d a ix cls m => some (.w32 (joinWord (hA 3 (r4 cls) (r5 ix) (r5 a)) (r5 d) 0x5b (r3 m)))
  | .vamoMin d a ix cls m => some (.w32 (joinWord (hA 0 (r4 cls) (r5 ix) (r5 a)) (r5 d) 0x5c (r3 m)))
  | .vamoMax d a ix cls m => some (.w32 (joinWord (hA 1 (r4 cls) (r5 ix) (r5 a)) (r5 d) 0x5c (r3 m)))
  | .vamoMinn d a ix cls m => some (.w32 (joinWord (hA 2 (r4 cls) (r5 ix) (r5 a)) (r5 d) 0x5c (r3 m)))
  | .vamoMaxn d a ix cls m => some (.w32 (joinWord (hA 3 (r4 cls) (r5 ix) (r5 a)) (r5 d) 0x5c (r3 m)))
  | .vamoSwap d a ix cls m => some (.w32 (joinWord (hA 0 (r4 cls) (r5 ix) (r5 a)) (r5 d) 0x5d (r3 m)))
  | .vamoCas d a ix cls m => some (.w32 (joinWord (hA 1 (r4 cls) (r5 ix) (r5 a)) (r5 d) 0x5d (r3 m)))
  | .vamoFadd d a ix cls m => some (.w32 (joinWord (hA 2 (r4 cls) (r5 ix) (r5 a)) (r5 d) 0x5d (r3 m)))
  | .vamoFAdd d a ix cls m => some (.w32 (joinWord (hA 0 (r4 cls) (r5 ix) (r5 a)) (r5 d) 0x5e (r3 m)))
  | .vamoFAnd d a ix cls m => some (.w32 (joinWord (hA 1 (r4 cls) (r5 ix) (r5 a)) (r5 d) 0x5e (r3 m)))
  | .vamoFOr d a ix cls m => some (.w32 (joinWord (hA 2 (r4 cls) (r5 ix) (r5 a)) (r5 d) 0x5e (r3 m)))
  | .vamoFXor d a ix cls m => some (.w32 (joinWord (hA 3 (r4 cls) (r5 ix) (r5 a)) (r5 d) 0x5e (r3 m)))
  | .vamoFMin d a ix cls m => some (.w32 (joinWord (hA 0 (r4 cls) (r5 ix) (r5 a)) (r5 d) 0x5f (r3 m)))
  | .vamoFMax d a ix cls m => some (.w32 (joinWord (hA 1 (r4 cls) (r5 ix) (r5 a)) (r5 d) 0x5f (r3 m)))
  | .vamoFMinn d a ix cls m => some (.w32 (joinWord (hA 2 (r4 cls) (r5 ix) (r5 a)) (r5 d) 0x5f (r3 m)))
  | .vamoFMaxn d a ix cls m => some (.w32 (joinWord (hA 3 (r4 cls) (r5 ix) (r5 a)) (r5 d) 0x5f (r3 m)))
  | .vamoFSwap d a ix cls m => some (.w32 (joinWord (hA 0 (r4 cls) (r5 ix) (r5 a)) (r5 d) 0x60 (r3 m)))
  | .vamoFCas d a ix cls m => some (.w32 (joinWord (hA 1 (r4 cls) (r5 ix) (r5 a)) (r5 d) 0x60 (r3 m)))
  | .vamoFFadd d a ix cls m => some (.w32 (joinWord (hA 2 (r4 cls) (r5 ix) (r5 a)) (r5 d) 0x60 (r3 m)))
  | .add d a b st => some (.w32 (joinWord (hR 0 (r5 b) (r5 a)) (r5 d) 0x01 (r3 st)))
  | .sub d a b st => some (.w32 (joinWord (hR 1 (r5 b) (r5 a)) (r5 d) 0x01 (r3 st)))
  | .mul d a b st => some (.w32 (joinWord (hR 2 (r5 b) (r5 a)) (r5 d) 0x01 (r3 st)))
  | .mulh d a b st => some (.w32 (joinWord (hR 3 (r5 b) (r5 a)) (r5 d) 0x01 (r3 st)))
  | .mulhn d a b st => some (.w32 (joinWord (hR 4 (r5 b) (r5 a)) (r5 d) 0x01 (r3 st)))
  | .div d a b st => some (.w32 (joinWord (hR 5 (r5 b) (r5 a)) (r5 d) 0x01 (r3 st)))
  | .divn d a b st => some (.w32 (joinWord (hR 6 (r5 b) (r5 a)) (r5 d) 0x01 (r3 st)))
  | .rem d a b st => some (.w32 (joinWord (hR 7 (r5 b) (r5 a)) (r5 d) 0x01 (r3 st)))
  | .remn d a b st => some (.w32 (joinWord (hR 8 (r5 b) (r5 a)) (r5 d) 0x01 (r3 st)))
  | .and d a b st => some (.w32 (joinWord (hR 9 (r5 b) (r5 a)) (r5 d) 0x01 (r3 st)))
  | .or d a b st => some (.w32 (joinWord (hR 10 (r5 b) (r5 a)) (r5 d) 0x01 (r3 st)))
  | .xor d a b st => some (.w32 (joinWord (hR 11 (r5 b) (r5 a)) (r5 d) 0x01 (r3 st)))
  | .shl d a b st => some (.w32 (joinWord (hR 12 (r5 b) (r5 a)) (r5 d) 0x01 (r3 st)))
  | .shr d a b st => some (.w32 (joinWord (hR 13 (r5 b) (r5 a)) (r5 d) 0x01 (r3 st)))
  | .sra d a b st => some (.w32 (joinWord (hR 14 (r5 b) (r5 a)) (r5 d) 0x01 (r3 st)))
  | .min d a b st => some (.w32 (joinWord (hR 15 (r5 b) (r5 a)) (r5 d) 0x01 (r3 st)))
  | .max d a b st => some (.w32 (joinWord (hR 16 (r5 b) (r5 a)) (r5 d) 0x01 (r3 st)))
  | .minn d a b st => some (.w32 (joinWord (hR 17 (r5 b) (r5 a)) (r5 d) 0x01 (r3 st)))
  | .maxn d a b st => some (.w32 (joinWord (hR 18 (r5 b) (r5 a)) (r5 d) 0x01 (r3 st)))
  | .slt d a b st => some (.w32 (joinWord (hR 19 (r5 b) (r5 a)) (r5 d) 0x01 (r3 st)))
  | .sltn d a b st => some (.w32 (joinWord (hR 20 (r5 b) (r5 a)) (r5 d) 0x01 (r3 st)))
  | .sel d a b st => some (.w32 (joinWord (hR 21 (r5 b) (r5 a)) (r5 d) 0x01 (r3 st)))
  | .clz d a st => some (.w32 (joinWord (hR 22 0 (r5 a)) (r5 d) 0x01 (r3 st)))
  | .ctz d a st => some (.w32 (joinWord (hR 23 0 (r5 a)) (r5 d) 0x01 (r3 st)))
  | .popc d a st => some (.w32 (joinWord (hR 24 0 (r5 a)) (r5 d) 0x01 (r3 st)))
  | .brev d a st => some (.w32 (joinWord (hR 25 0 (r5 a)) (r5 d) 0x01 (r3 st)))
  | .addi d a imm st => some (.w32 (joinWord (hI imm (r5 a)) (r5 d) 0x2 (r3 st)))
  | .andi d a imm st => some (.w32 (joinWord (hI imm (r5 a)) (r5 d) 0x3 (r3 st)))
  | .ori d a imm st => some (.w32 (joinWord (hI imm (r5 a)) (r5 d) 0x4 (r3 st)))
  | .xori d a imm st => some (.w32 (joinWord (hI imm (r5 a)) (r5 d) 0x5 (r3 st)))
  | .shli d a sh st => some (.w32 (joinWord (hI (sh.setWidth 11) (r5 a)) (r5 d) 0x6 (r3 st)))
  | .shri d a sh st => some (.w32 (joinWord (hI (sh.setWidth 11) (r5 a)) (r5 d) 0x7 (r3 st)))
  | .srai d a sh st => some (.w32 (joinWord (hI (sh.setWidth 11) (r5 a)) (r5 d) 0x8 (r3 st)))
  | .slti d a imm st => some (.w32 (joinWord (hI imm (r5 a)) (r5 d) 0x9 (r3 st)))
  | .lih d imm st => some (.w32 (joinWord imm (r5 d) 0x0A (r3 st)))
  | .adpc d imm st => some (.w32 (joinWord imm (r5 d) 0x0B (r3 st)))
  | .fadd f rm d a b st => some (.w32 (joinWord (hF rm.code 0 (r5 b) (r5 a)) (r5 d) f.major (r3 st)))
  | .fsub f rm d a b st => some (.w32 (joinWord (hF rm.code 1 (r5 b) (r5 a)) (r5 d) f.major (r3 st)))
  | .fmul f rm d a b st => some (.w32 (joinWord (hF rm.code 2 (r5 b) (r5 a)) (r5 d) f.major (r3 st)))
  | .ffma f rm d a b st => some (.w32 (joinWord (hF rm.code 3 (r5 b) (r5 a)) (r5 d) f.major (r3 st)))
  | .fdiv f rm d a b st => some (.w32 (joinWord (hF rm.code 4 (r5 b) (r5 a)) (r5 d) f.major (r3 st)))
  | .fmin f d a b st => some (.w32 (joinWord (hF 0 5 (r5 b) (r5 a)) (r5 d) f.major (r3 st)))
  | .fmax f d a b st => some (.w32 (joinWord (hF 1 5 (r5 b) (r5 a)) (r5 d) f.major (r3 st)))
  | .fcmp f cc d a b st => some (.w32 (joinWord (hF cc.code 5 (r5 b) (r5 a)) (r5 d) f.major (r3 st)))
  | .fsqrt f rm d a st => some (.w32 (joinWord (hF rm.code 6 0 (r5 a)) (r5 d) f.major (r3 st)))
  | .fcvt f code rm d a st => some (.w32 (joinWord (hF rm.code 7 code.code (r5 a)) (r5 d) f.major (r3 st)))
  | .fclass f d a st => some (.w32 (joinWord (hF 0 7 0x1F (r5 a)) (r5 d) f.major (r3 st)))
  | .ld w d a imm cls => some (.w32 (joinWord (hSM imm (r4 cls) (r5 a)) (r5 d) 0x10 w.code))
  | .st w b a imm cls => some (.w32 (joinWord (hSM imm (r4 cls) (r5 a)) (r5 b) 0x11 w.code))
  | .stG w b a imm cls => some (.w32 (joinWord (hSM imm (r4 cls) (r5 a)) (r5 b) 0x12 w.code))
  | .amoAdd d a b cls sc => some (.w32 (joinWord (hA 0 (r4 cls) (r5 b) (r5 a)) (r5 d) 0x13 sc.code))
  | .amoAnd d a b cls sc => some (.w32 (joinWord (hA 1 (r4 cls) (r5 b) (r5 a)) (r5 d) 0x13 sc.code))
  | .amoOr d a b cls sc => some (.w32 (joinWord (hA 2 (r4 cls) (r5 b) (r5 a)) (r5 d) 0x13 sc.code))
  | .amoXor d a b cls sc => some (.w32 (joinWord (hA 3 (r4 cls) (r5 b) (r5 a)) (r5 d) 0x13 sc.code))
  | .amoMin d a b cls sc => some (.w32 (joinWord (hA 0 (r4 cls) (r5 b) (r5 a)) (r5 d) 0x14 sc.code))
  | .amoMax d a b cls sc => some (.w32 (joinWord (hA 1 (r4 cls) (r5 b) (r5 a)) (r5 d) 0x14 sc.code))
  | .amoMinn d a b cls sc => some (.w32 (joinWord (hA 2 (r4 cls) (r5 b) (r5 a)) (r5 d) 0x14 sc.code))
  | .amoMaxn d a b cls sc => some (.w32 (joinWord (hA 3 (r4 cls) (r5 b) (r5 a)) (r5 d) 0x14 sc.code))
  | .amoSwap d a b cls sc => some (.w32 (joinWord (hA 0 (r4 cls) (r5 b) (r5 a)) (r5 d) 0x15 sc.code))
  | .amoCas d a b cls sc => some (.w32 (joinWord (hA 1 (r4 cls) (r5 b) (r5 a)) (r5 d) 0x15 sc.code))
  | .amoqpop d a cls sc => some (.w32 (joinWord (hA 0 (r4 cls) 0 (r5 a)) (r5 d) 0x16 sc.code))
  | .amoqsteal d a cls sc => some (.w32 (joinWord (hA 1 (r4 cls) 0 (r5 a)) (r5 d) 0x16 sc.code))
  | .beq a b off => some (.w32 (joinWord (hB off (r5 b)) (r5 a) 0x18 (off.extractLsb' 0 3)))
  | .bne a b off => some (.w32 (joinWord (hB off (r5 b)) (r5 a) 0x19 (off.extractLsb' 0 3)))
  | .blt a b off => some (.w32 (joinWord (hB off (r5 b)) (r5 a) 0x1a (off.extractLsb' 0 3)))
  | .bge a b off => some (.w32 (joinWord (hB off (r5 b)) (r5 a) 0x1b (off.extractLsb' 0 3)))
  | .bltn a b off => some (.w32 (joinWord (hB off (r5 b)) (r5 a) 0x1c (off.extractLsb' 0 3)))
  | .bgen a b off => some (.w32 (joinWord (hB off (r5 b)) (r5 a) 0x1d (off.extractLsb' 0 3)))
  | .jal d off => some (.w32 (joinWord (off.extractLsb' 3 16) (r5 d) 0x1E (off.extractLsb' 0 3)))
  | .jalr d a imm => some (.w32 (joinWord (hI imm (r5 a)) (r5 d) 0x1F 0))
  | .calli d a k => some (.w32 (joinWord (hI k (r5 a)) (r5 d) 0x20 0))
  | .cmark k => some (.w32 (joinWord (k.setWidth 16) 0 0x21 0))
  | .trap imm => some (.w32 (joinWord (hI imm 0) 0 0x22 0))
  | .srd d n => some (.w32 (joinWord (hI n 0) (r5 d) 0x23 0))
  | .swr n a => some (.w32 (joinWord (hI n (r5 a)) 0 0x24 0))
  | .erd d sel => some (.w32 (joinWord (hI sel 0) (r5 d) 0x25 0))
  | .tret => some (.w32 (joinWord (hR 0 0 0) 0 0x26 0))
  | .fencei => some (.w32 (joinWord (hR 1 0 0) 0 0x26 0))
  | .yield => some (.w32 (joinWord (hR 2 0 0) 0 0x26 0))
  | .exit => some (.w32 (joinWord (hR 3 0 0) 0 0x26 0))
  | .join d a => some (.w32 (joinWord (hR 4 0 (r5 a)) (r5 d) 0x26 0))
  | .leave d a => some (.w32 (joinWord (hR 5 0 (r5 a)) (r5 d) 0x26 0))
  | .ctail a b => some (.w32 (joinWord (hR 6 (r5 b) (r5 a)) 0 0x26 0))
  | .lreq d a => some (.w32 (joinWord (hR 7 0 (r5 a)) (r5 d) 0x26 0))
  | .vsetvl d a b => some (.w32 (joinWord (hR 0 (r5 b) (r5 a)) (r5 d) 0x28 0))
  | .vsetvli d a req rm => some (.w32 (joinWord (hI (req.extractLsb' 0 11) (r5 a)) (r5 d) (11#5 ++ req.extractLsb' 11 2) rm))
  | .vfetchIssueGroup => none
  | .fenceC mask => some (.w32 (joinWord mask 0 0x61 0))
  | .fenceP pf pt => some (.w32 (joinWord (hI (0#1 ++ pt ++ pf) 0) 0 0x62 0))
  | .fenceS sc => some (.w32 (joinWord (hI (0#4 ++ 0#4 ++ sc.code) 0) 0 0x63 0))
  | .fenceA sc a => some (.w32 (joinWord (hI (1#4 ++ 0#4 ++ sc.code) (r5 a)) 0 0x63 0))
  | .bwait sc a => some (.w32 (joinWord (hI (2#4 ++ 0#4 ++ sc.code) (r5 a)) 0 0x63 0))
  | .hpost l a => some (.w32 (joinWord (hI (3#4 ++ 0#3 ++ r4 l) (r5 a)) 0 0x63 0))
  | .hwait l a => some (.w32 (joinWord (hI (4#4 ++ 0#3 ++ r4 l) (r5 a)) 0 0x63 0))
  | .hfset f b => some (.w32 (joinWord (hI (5#4 ++ 1#2 ++ r5 f) 0) (r5 b) 0x63 0))
  | .hfsetBare f => some (.w32 (joinWord (hI (5#4 ++ 0#2 ++ r5 f) 0) 0 0x63 0))
  | .hfsetClr f => some (.w32 (joinWord (hI (5#4 ++ 2#2 ++ r5 f) 0) 0 0x63 0))
  | .hfwait f full => some (.w32 (joinWord (hI (6#4 ++ 0#1 ++ BitVec.ofBool full ++ r5 f) 0) 0 0x63 0))
  | .cpy d a b tag => some (.w32 (joinWord (hR (r6 tag) (r5 b) (r5 a)) (r5 d) 0x64 0))
  | .cpy2 d a b tag => some (.w32 (joinWord (hR (r6 tag) (r5 b) (r5 a)) (r5 d) 0x65 0))
  | .cpyx d a b tag => some (.w32 (joinWord (hR (r6 tag) (r5 b) (r5 a)) (r5 d) 0x66 0))
  | .twaitall d a => some (.w32 (joinWord (hR 0 0 (r5 a)) (r5 d) 0x67 0))
  | .twaitany d a => some (.w32 (joinWord (hR 1 0 (r5 a)) (r5 d) 0x67 0))
  | .tfirst d a => some (.w32 (joinWord (hR 2 0 (r5 a)) (r5 d) 0x67 0))
  | .coll d a => some (.w32 (joinWord (hR 0 0 (r5 a)) (r5 d) 0x68 0))
  | .gath l a b => some (.w32 (joinWord (hR (0#5 ++ r1 l) (r5 b) (r5 a)) 0 0x69 0))
  | .mmaGr l q h slot cb z sat cg cr iv => some (.w32 (joinWord (hMX 0 (r3 cb) sat z iv cr cg (r2 slot) (r1 l)) (r5 h) 0x6A (r3 q)))
  | .mmaRg l q h slot cb z sat cg cr iv => some (.w32 (joinWord (hMX 0 (r3 cb) sat z iv cr cg (r2 slot) (r1 l)) (r5 h) 0x6B (r3 q)))
  | .mmag a q h slot cb z sat cg cr iv => some (.w32 (joinWord (hMX (r5 a) (r3 cb) sat z iv cr cg (r2 slot) 0) (r5 h) 0x6C (r3 q)))
  | .mzero q => some (.w32 (joinWord (hR 0 0 0) 0 0x6D (r3 q)))
  | .mwait n => some (.w32 (joinWord (hR 1 (0#2 ++ r3 n) 0) 0 0x6D 0))
  | .pload slot a => some (.w32 (joinWord (hR 2 0 (r5 a)) (0#3 ++ r2 slot) 0x6D 0))
  | .matrixStart _ => none
  | .handoffFlagEmptied _ => none
  | .mmagGroupComplete _ => none
  | .matrixComplete _ => none
  | .tdrain d q code a slot t c iv => some (.w32 (joinWord (hTD (r5 a) (r2 slot) iv c t code) (r5 d) 0x6E (r3 q)))
  | .tfill q b a => some (.w32 (joinWord (hTD (r5 a) 0 false false false 16) (r5 b) 0x6F (r3 q)))
  | .gload slot a => some (.w32 (joinWord (hR 0 0 (r5 a)) (0#3 ++ r2 slot) 0x70 0))
  | .gset slot a b => some (.w32 (joinWord (hR 1 (r5 b) (r5 a)) (0#3 ++ r2 slot) 0x70 0))
  | .gstateR d => some (.w32 (joinWord (hR 2 0 0) (r5 d) 0x70 0))
  | .gstateW b => some (.w32 (joinWord (hR 3 0 (r5 b)) 0 0x70 0))
  | .grun d a b slot m => some (.w32 (joinWord (hV (0#1 ++ r2 slot) (r3 m) (r5 b) (r5 a)) (r5 d) 0x71 0))
  | .grun1 d a slot m => some (.w32 (joinWord (hV (1#1 ++ r2 slot) (r3 m) 0 (r5 a)) (r5 d) 0x71 0))
  | .gcmp d slot v m => some (.w32 (joinWord (hV (0#1 ++ r2 slot) (r3 m) 0 (0#2 ++ v)) (m5 d) 0x72 0))
  | .gfin d slot m => some (.w32 (joinWord (hV (1#1 ++ r2 slot) (r3 m) 0 0) (r5 d) 0x72 0))
  | .unimpl w => some (.w32 w)
  | .cAdd b => some (.w16 (joinHalf 0 (r5 b) 1))
  | .cSub b => some (.w16 (joinHalf 0 (r5 b) 2))
  | .cAnd b => some (.w16 (joinHalf 0 (r5 b) 3))
  | .cOr b => some (.w16 (joinHalf 0 (r5 b) 4))
  | .cXor b => some (.w16 (joinHalf 0 (r5 b) 5))
  | .cAddi imm => some (.w16 (joinHalf (imm.extractLsb' 5 5) (imm.extractLsb' 0 5) 6))
  | .cShli sh => some (.w16 (joinHalf (0#4 ++ sh.extractLsb' 5 1) (sh.extractLsb' 0 5) 7))
  | .cShri sh => some (.w16 (joinHalf (0#4 ++ sh.extractLsb' 5 1) (sh.extractLsb' 0 5) 8))
  | .cMov b => some (.w16 (joinHalf 0 (r5 b) 9))
  | .cLi imm => some (.w16 (joinHalf (imm.extractLsb' 5 5) (imm.extractLsb' 0 5) 10))
  | .cBnez imm => some (.w16 (joinHalf (imm.extractLsb' 5 5) (imm.extractLsb' 0 5) 11))
  | .cBeqz imm => some (.w16 (joinHalf (imm.extractLsb' 5 5) (imm.extractLsb' 0 5) 12))
  | .cNop => some (.w16 (joinHalf 0 0 13))
  | .cvAdd b => some (.w16 (joinHalf 0 (r5 b) 14))
  | .cvFadd b => some (.w16 (joinHalf 0 (r5 b) 15))
  | .cvFmul b => some (.w16 (joinHalf 0 (r5 b) 16))
  | .cvFmacc a b => some (.w16 (joinHalf (r5 b) (r5 a) 17))
  | .cvMv b => some (.w16 (joinHalf 0 (r5 b) 18))
  | .pagePresent _ => none
  | .pageFail _ => none
  | .vectorQueueIssue _ _ _ => none
  | .mmioRegisterWrite _ _ _ _ => none
  | .qtailWrite _ _ _ => none
  | .qctlWrite _ _ _ => none
  | .qstatClear _ _ => none
  | .asshootWrite _ _ _ => none
  | .shootDownDone _ _ => none
  | .pageWalkFill _ _ _ _ _ => none
  | .queueEntryRead _ => none
  | .launchAdmission _ => none
  | .launchAccept _ => none
  | .waitOnValueCheck _ => none
  | .signalEntry _ => none
  | .queueEntryComplete _ => none
  | .threadPlacement _ => none
  | .coscheduledPlacement _ => none
  | .launchCompletion _ => none
  | .segmentRelease _ _ => none
  | .periodTurn _ => none
  | .energyCharge _ _ _ _ => none
  | .contextSwapOut _ _ => none
  | .contextResume _ _ => none
  | .bureauContextSwitch _ _ _ => none
  | .copyPiece _ => none
  | .copyComplete _ => none
  | .collComplete _ => none
  | .storeApply _ => none
  | .storeVisibleOnDie _ _ => none
  | .storeAcknowledge _ => none
  | .globalStoreApply _ => none
  | .ackLossDetection _ _ => none
  | .linkFailure _ _ => none
  | .uncorrectableError _ => none
  | .patrolScrub _ _ => none
  | .monitorSample _ _ _ _ => none
  | .mctlWrite _ _ => none
  | .packageReportRequest _ _ => none
  | .keyLoad _ _ => none
  | .keyClear _ => none
  | .keyRelease _ => none
  | .packageBoot _ _ => none
  | .dieRelease _ _ => none
  | .firmwareUpdate _ _ _ _ => none
  | .dieReset _ => none
  | .functionLevelReset _ => none
  | .thermalThrottle _ => none
  | .overtempReset _ => none
  | .objectLoad _ => none
  | .objectLink _ => none
  | .illegalEncoding w => some (if w.getLsbD 0 then .w32 w else .w16 (w.extractLsb' 0 16))
  | .storeVisibleToPath _ _ => none
  | .lineWriteBack _ => none
  | .correctedError _ _ => none
  | .linkRecovery _ _ => none
  | .linkRetransmission _ _ => none
  | .fabricBringUp _ => none
  | .hostWrite _ _ => none
  | .fjasAssembly _ => none

end Sys2Proof
end

