-- ==== Sys2Proof/Machine/State.lean ====
section
/-! DEFINITION. The state of the package as plain data, the reasons a step can stop, and the state after reset. -/

namespace Sys2Proof.Machine

/-! ### Contexts -/

/-- A context is a control thread or a Bureau (02 R9, R22). -/
inductive CtxKind | thread | bureau
  deriving DecidableEq, Repr

/-- Where a context is in its life. -/
inductive CtxStatus
  /-- It holds its slot and issues (02 R9). -/
  | running
  /-- It holds its slot and waits for a page (18 R297). -/
  | waitingPage
  /-- It is swapped out and waits for a page (18 R297). -/
  | outForPage
  /-- It is swapped out and may resume (02 R32). -/
  | out
  /-- A Bureau whose stream has ended at EXIT (02 R25). -/
  | ended
  /-- It has retired, or its launch was ended. -/
  | exited
  deriving DecidableEq, Repr

/-- The codes of CAUSE (05 R80). -/
inductive Cause
  | ill | unimpl | stall | page | prot | align | vtype | grave | plate | shape | handoff | ackloss | cfi | poison | soft
  | queue
  deriving DecidableEq, Repr

/-- What an access does, for permission checks and page requests (08 R120, 18 R297). -/
inductive Access | fetch | load | store
  deriving DecidableEq, Repr

/-- A result of a fixed-latency scalar instruction that is not yet readable: the value before it and the slot from which
the new one is read (01 R6). -/
structure XPend where
  reg   : XReg
  old   : Word
  ready : Nat
  deriving DecidableEq, Repr

/-- As XPend for a vector register with its descriptor shadow; `bits` and `shBits` are the bits the producer wrote, and
`blk` marks a producer inside a VFETCH block. -/
structure VPend where
  reg    : VReg
  old    : BitVec 16384
  bits   : BitVec 16384
  oldSh  : BitVec 8192
  shBits : BitVec 8192
  ready  : Nat
  blk    : Bool
  deriving DecidableEq, Repr

/-- As XPend for a mask register. -/
structure MPend where
  reg   : MReg
  old   : BitVec 32768
  bits  : BitVec 32768
  ready : Nat
  blk   : Bool
  deriving DecidableEq, Repr

/-- Issue slots: the next slot of the scalar stream and of the head of the vector issue queue, and the results not yet
readable, newest first (01 R6, 12 R173) (log entry 6, DESIGN CHOICE; log entry 7, DEDUCED). -/
structure Clock where
  scalar : Nat
  vector : Nat
  xp : List XPend
  vp : List VPend
  mp : List MPend
  deriving DecidableEq, Repr

/-- A Graver table held in a slot (08 R117). -/
structure GTable where
  w      : Nat
  binary : Bool
  msd    : Bool
  chain  : Bool
  start  : Nat
  ns     : Nat
  ndig   : Nat
  final  : List (BitVec 16)
  entry  : List (BitVec 16)
  deriving DecidableEq, Repr

/-- A VFETCH in progress: its address, the program counter of each VP (none when stopped or taking no part), the first
slot in which each VP may issue again, the issue group and its address while its instruction runs, and whether a trap
has set the block aside (02 R18, R20, R21; log entry 13, DEDUCED). -/
structure Block where
  addr   : Word
  pcs    : List (Option Word)
  nextAt : List Nat
  grp    : Option (BitVec 32768)
  cur    : Word
  held   : Bool
  deriving DecidableEq, Repr

/-- The vector state of a control thread (05 R71). -/
structure VecRegs where
  v     : Vector (BitVec 16384) 32
  sh    : Vector (BitVec 8192) 32
  m     : Vector (BitVec 32768) 8
  vtype : BitVec 32
  vl    : BitVec 32
  vbeg  : BitVec 32
  ldv   : VReg
  gsv   : BitVec 16384
  gt    : Vector (Option GTable) 4
  rng   : Word
  blk   : Option Block
  deriving DecidableEq, Repr

/-- Flags (03 R56): FFLAGS, and the five FXIDX entries NV, DZ, OF, UF, NX. -/
structure Flags where
  ff : BitVec 5
  fx : Vector (BitVec 32) 5
  deriving DecidableEq, Repr

/-- The trap registers and the handling mark with the LDX and LDV saved at the trap (05 R78 to R80, 13 R201). -/
structure TrapRegs where
  tvec     : Word
  epc      : Word
  blk      : Bool
  code     : BitVec 5
  tval     : Word
  gfault   : BitVec 20
  scratch  : Word
  handling : Bool
  ldx      : XReg
  ldv      : VReg
  deriving DecidableEq, Repr

/-- The remaining system registers of a context (05 R79, 11 R164). -/
structure SysRegs where
  mmrs  : BitVec 4
  sbchk : Bool
  share : BitVec 8
  akrec : BitVec 17
  deriving DecidableEq, Repr

/-- A group membership: the first phase in which the thread is expected and the phase of its last arrival that no BWAIT
has completed since (08 R125, 02 R16) (log entry 10, DEDUCED). -/
structure Membership where
  gid   : Nat
  since : Nat
  last  : Option Nat
  deriving DecidableEq, Repr

/-- A copy or collective fault not yet reported (15 R256, R260). -/
structure PendingFault where
  /-- The copy tag, or 64 for a collective. -/
  tag   : Nat
  cause : Cause
  va    : Word
  deriving DecidableEq, Repr

/-- Tags: CTAGS, the tags held, and the faults pending (05 R81, 15 R256). -/
structure Tags where
  ctags  : BitVec 64
  held   : BitVec 64
  faults : List PendingFault
  /-- The tag and number of each completed copy whose completion has not been observed. -/
  ended  : List (Nat × Nat)
  /-- Copies and collectives whose completion the context has observed, by number (10 R153). -/
  observed : List Nat
  deriving DecidableEq, Repr

/-- A Plate image (08 R114). -/
structure Plate where
  d    : Nat
  kind : Byte
  inv0 : List Byte
  inv1 : List Byte
  pool : List (BitVec 32)
  cube : List Byte
  deriving DecidableEq, Repr

/-- A Plate slot: committed image and shadow (08 R115). -/
structure PlateSlot where
  committed : Option Plate
  shadow    : Option Plate
  deriving DecidableEq, Repr

/-- An operand latch (06 R87, 16 R265): 128 rows of 64 bytes, 8 descriptors a row, M, GF and NB. -/
structure Latch where
  rows : BitVec 65536
  desc : BitVec 32768
  m    : BitVec 8
  gf   : BitVec 3
  nb   : BitVec 2
  deriving DecidableEq, Repr

/-- One group of an MMAG table (16 R272). -/
structure MmagGroup where
  first : Nat
  count : Nat
  gbase : Word
  deriving DecidableEq, Repr

/-- A row of 64 bytes as the engine holds it, with the descriptors of its blocks. -/
structure MatRow where
  data : BitVec 512
  desc : List (BitVec 32)
  deriving DecidableEq, Repr

/-- What the engine holds of an entry that has started (16 R263, R265, R268, R273). -/
structure MatRun where
  /-- The latch a GATH writes when it completes. -/
  latch  : Option Latch
  /-- The window results of an MMA.GR or MMA.RG by pair, rising, and their flags. -/
  steps  : List (Nat × Word)
  /-- Both operands are I8. -/
  int    : Bool
  /-- The register rows and the VTYPE of an MMAG's flag, its header and groups, and how many groups have run. -/
  regs   : List MatRow
  vtype  : BitVec 32
  gm     : Nat
  gf     : Nat
  nb     : Nat
  groups : List MmagGroup
  done   : Nat
  zeroed : Bool
  /-- The flag is empty again. -/
  freed  : Bool
  ff     : BitVec 5
  deriving DecidableEq, Repr

/-- The fields of an MX word beside its latch (16 R267). -/
structure MxCtl where
  q    : Fin 8
  h    : Fin 32
  slot : Fin 4
  cb   : Fin 8
  z    : Bool
  sat  : Bool
  cg   : Bool
  cr   : Bool
  iv   : Bool
  deriving DecidableEq, Repr

/-- What an entry of the matrix queue does (07 R102). -/
inductive MatOp
  | gath (l : Fin 2)
  | gr (l : Fin 2) (c : MxCtl)
  | rg (l : Fin 2) (c : MxCtl)
  | mmag (c : MxCtl)
  | mzero (q : Fin 8)
  deriving DecidableEq, Repr

/-- An entry of the matrix queue (07 R102): its operation, its word and its address, the scalar operands read at entry, and the
Plate image it committed. -/
structure MatEntry where
  op    : MatOp
  word  : BitVec 32
  addr  : Word
  a     : Word
  b     : Word
  plate : Option Plate
  run   : Option MatRun
  deriving DecidableEq, Repr

/-- What a Bureau context that is switched out leaves the cluster with: its Chest, latches, Plates, MGDONE and the entries
that had not started, its save area, and whether its stream had ended (18 R301, R302). -/
structure BureauSave where
  area    : Nat
  ended   : Bool
  chest   : List (Nat × BitVec 64)
  latches : Vector Latch 2
  poison  : List (Nat × Nat)
  chestPoison : List Nat
  plates  : Vector PlateSlot 4
  mq      : List MatEntry
  mgdone  : BitVec 32
  deriving DecidableEq, Repr

/-- An entry of a vector issue queue: the shared resource that its instruction requests and how many grants it still needs
(07 R98, R101). -/
structure VqEntry where
  res  : Option SharedRes
  left : Nat
  deriving DecidableEq, Repr

/-- A translated address: its key, memory type, key index and the NS bit (08 R120). -/
structure Mapped where
  key : Nat
  mt  : Nat
  ki  : Nat
  ns  : Bool
  deriving DecidableEq, Repr

/-- A byte that a load of a path and class has bound ahead of its instruction (10 R142, R144). -/
structure Ahead where
  path : Path
  cls  : Cls
  key  : Nat
  byte : Byte
  deriving DecidableEq, Repr

/-- One context. -/
structure Context where
  uid     : Nat
  kind    : CtxKind
  launch  : Nat
  fn      : Fin 256
  sp      : Fin 256
  ordinal : Nat
  cl      : Fin 64
  slot    : Fin 4
  status  : CtxStatus
  pc      : Word
  x       : Vector Word 32
  ldx     : XReg
  vec     : VecRegs
  flags   : Flags
  trap    : TrapRegs
  sys     : SysRegs
  tags    : Tags
  clock   : Clock
  /-- The lane groups in effect since the last VSETVL, by number (02 R27). -/
  groups  : BitVec 8
  /-- A pending LREQ: the groups it asks for (02 R26, 13 R208). -/
  lreq    : Option Nat
  credits : Vector (BitVec 16) 5
  /-- The vector issue queue of a thread, its head first (07 R98). -/
  vq      : List VqEntry
  members : List Membership
  /-- Halfwords fetched ahead, by address (13 R203). -/
  fetched : List (Nat × BitVec 16)
  /-- Stores that loads of the context have read and that were not visible everywhere, by number, with the path of the
  load (11 R162). -/
  seen    : List (Nat × Path)
  /-- Loads performed before their place in program order (10 R141, R142, R144; log entry 26, DEDUCED). -/
  ahead   : List Ahead
  /-- How many elements the next vector memory or Graver instruction makes before a boundary (15 R240, 17 R289)
  (log entry 5, DESIGN CHOICE). -/
  quota   : Option Nat
  /-- The elements whose pages an `.SC` instruction has probed and firmware keeps resident, by address (15 R245). -/
  probed  : List (Word × Mapped)
  /-- Poisoned scalar registers, and the poisoned 64-bit pieces of vector registers, descriptor shadows and mask
  registers (06 R96). -/
  xpoison : BitVec 32
  vpoison : List (VReg × Nat)
  shpoison : List (VReg × Nat)
  mpoison : List (MReg × Nat)
  /-- What a Bureau that is switched out has saved. -/
  saved   : Option BureauSave
  deriving DecidableEq, Repr

/-! ### Cluster -/

/-- One lane group of LPART (05 R83). -/
structure LaneGroup where
  owned : Bool
  owner : Fin 4
  heir  : Fin 4
  next  : Fin 4
  move  : Bool
  deriving DecidableEq, Repr

/-- A handoff flag (05 R84) with its last setter (15 R253). -/
structure HFlag where
  full   : Bool
  grp    : Bool
  pub    : Fin 5
  base   : VReg
  vl     : BitVec 16
  vtype  : BitVec 32
  setter : Option Nat
  deriving DecidableEq, Repr

/-- A monitor slot (09 R136, R137). -/
structure Monitor where
  ctl   : Word
  mmin  : Word
  mmax  : Word
  bins  : Vector (BitVec 32) 16
  owner : Option Nat
  deriving DecidableEq, Repr

/-- An entry of a TLB slice (08 R123), with the generation of its address space, or of each space of the function for a global
page, by number (08 R121). -/
structure TlbEntry where
  slice : Fin 8
  fn    : Fin 256
  sp    : Fin 256
  gens  : List (Nat × BitVec 32)
  page  : Nat
  big   : Bool
  ent   : Word
  deriving DecidableEq, Repr

/-- A walk in flight (08 R123): the generations it recorded when it started, and the leaf it found, with its level. -/
structure Walk where
  fn    : Fin 256
  sp    : Fin 256
  va    : Word
  gens  : List (Nat × BitVec 32)
  found : Option (Bool × Word)
  deriving DecidableEq, Repr

/-- A cluster. The Chest is a sorted list of the pairs that are not (+0, +0), by 32768·tile + 256·row + column. -/
structure Cluster where
  lpart   : Vector LaneGroup 8
  hf      : Vector HFlag 32
  slots   : Vector (Option Nat) 4
  bureau  : Option Nat
  segs    : Vector (Option Nat) 256
  latches : Vector Latch 2
  chest   : List (Nat × BitVec 64)
  plates  : Vector PlateSlot 4
  mq      : List MatEntry
  mgdone  : BitVec 32
  mons    : Vector Monitor 4
  tlb     : List TlbEntry
  walks   : List Walk
  /-- Poisoned 64-bit pieces of the latches, by latch and piece, and poisoned Chest pairs, by number (06 R96). -/
  latchPoison : List (Nat × Nat)
  chestPoison : List Nat
  deriving DecidableEq, Repr

/-! ### Die -/

/-- A Hatch ring loop slot (09 R134). -/
structure HatchSlot where
  owner : Option Nat
  f     : Word
  win   : Word
  deriving DecidableEq, Repr

/-- The frontier and window of a loop slot. -/
def HatchSlot.state (h : HatchSlot) : Word × Word := (h.f, h.win)

/-- The four budgets of an activity, in the order slots, bytes, flits, energy, and its energy accumulator (09 R126, R128). -/
structure Budget where
  lim  : Vector (BitVec 32) 4
  used : Vector (BitVec 32) 4
  acc  : Word
  deriving DecidableEq, Repr

/-- A die is present and released, in reset and not yet released again, or left absent by attestation (19 R310, R312). -/
inductive DieStatus | present | resetting | absent
  deriving DecidableEq, Repr

/-- A die. -/
structure Die where
  status  : DieStatus
  time    : Word
  hatch   : Vector HatchSlot 16
  corr    : Vector (BitVec 32) 8
  errlog  : List Nat
  /-- Ports N, E, S, W up. -/
  up      : Vector Bool 4
  engines : Vector Budget 4
  deriving DecidableEq, Repr

/-! ### Memory system -/

/-- How a store becomes visible. -/
inductive StoreMode
  /-- Early-forwarding (11 R158). -/
  | early
  /-- Early-forwarding, to an uncached page with its home on another die: it performs at the home (08 R120; log entry 26, DEDUCED). -/
  | home
  /-- Globally acknowledged (11 R159). -/
  | glob
  deriving DecidableEq, Repr

/-- A store that is not yet visible everywhere (10 R139, 11 R158, R159). One that is issued and has not performed is visible
to nobody. -/
structure StoreRec where
  id      : Nat
  /-- The storing context, or none for an engine, the front end and the host. -/
  ctx     : Option Nat
  /-- The copy or collective that made it. -/
  work    : Option Nat
  fn      : Fin 256
  die     : Fin 8
  path    : Path
  cls     : Cls
  /-- Y of a vector store (10 R145). -/
  y       : Bool
  va      : Word
  /-- Bytes still to be told from memory, by key; of an E2M1 element only one nibble, the high one if set (15 R238). -/
  bytes   : List Host.Cell
  nib     : Option Bool
  /-- The instruction whose elements have no order among themselves: one with E = 0 (10 R143). -/
  ins     : Option Nat
  mode    : StoreMode
  home    : Fin 8
  /-- Visible to path k of the storing die, for stores homed there or early-forwarding. -/
  paths   : BitVec 5
  applied : Bool
  /-- Visible to every path of die k. -/
  dies    : BitVec 8
  acked   : Bool
  /-- A link failed with the store or its acknowledgement outstanding (11 R164). -/
  cut     : Bool
  lost    : Bool
  reported : Bool
  deriving DecidableEq, Repr

/-- A page request posted to the host (18 R297). -/
structure PageReq where
  id   : Nat
  fn   : Fin 256
  va   : Word
  acc  : Access
  /-- TVAL when the answer is "fail". -/
  tval : Word
  /-- The context that waits, or none for a copy or collective. -/
  ctx  : Option Nat
  /-- The copy or collective that waits. -/
  work : Option Nat
  deriving DecidableEq, Repr

/-- How far a copy or collective is. -/
inductive WorkState
  | running
  | waitingPage (req : Nat)
  | stopped (c : Cause) (va : Word)
  deriving DecidableEq, Repr

/-- How far a copy is within a row or element: how many of its bytes are written, and the bytes read after them, each with its poison
mark. -/
structure CopyRow where
  row   : Nat
  done  : Nat
  ahead : List (Byte × Bool)
  deriving DecidableEq, Repr

/-- A copy in flight (15 R254, R255): `rows` rows or elements of `rbytes` bytes. -/
structure Copy where
  id     : Nat
  /-- The issuing context and the tag, or none for a copy entry of a queue. -/
  owner  : Option Nat
  tag    : Fin 64
  launch : Option Nat
  /-- The queue and SEQ of a copy entry. -/
  entry  : Option (Nat × BitVec 32)
  fn     : Fin 256
  sp     : Fin 256
  cl     : Fin 64
  rows   : Nat
  rbytes : Nat
  src    : Word
  dst    : Word
  spitch : Word
  dpitch : Word
  sidx   : Word
  didx   : Word
  indexed : Bool
  /-- How many bytes are written; the rows that have begun, which go on in any order (10 R141); the ranges of keys written. -/
  done   : Nat
  parts  : List CopyRow
  wrote  : List (Nat × Nat)
  st     : WorkState
  deriving DecidableEq, Repr

/-- How a collective ends at a member (15 R260): CODE and RANK of the completion word, the bytes of DST, and whether a free
choice leaves single bytes of DST as they were. -/
structure CollEnd where
  code  : Nat
  rank  : BitVec 32
  bytes : List Byte
  loose : Bool
  deriving DecidableEq, Repr

/-- A collective in flight at one member (15 R258, R259). -/
structure Coll where
  id     : Nat
  owner  : Nat
  launch : Nat
  fn     : Fin 256
  sp     : Fin 256
  cl     : Fin 64
  op     : Byte
  red    : Byte
  fmt    : Byte
  rsvd   : Bool
  comm   : Nat
  /-- This is the k-th collective of its communicator at this die. -/
  k      : Nat
  src    : Word
  dst    : Word
  count  : Nat
  root   : Nat
  status : Word
  /-- The rank of a member whose function or die was reset. -/
  lost   : Option Nat
  /-- How it ends, once that is decided, and whether DST is written. -/
  ending : Option CollEnd
  wrote  : Bool
  st     : WorkState
  deriving DecidableEq, Repr

/-! ### Front end, functions and firmware -/

/-- A launch packet (02 R10, 07 R107). -/
structure Packet where
  entry   : Word
  bureau  : Word
  n       : Word
  mask    : BitVec 64
  t       : Nat
  energy  : Nat
  g0      : Nat
  gmax    : Nat
  gmin    : Nat
  cosched : Bool
  hatch   : Nat
  segs    : Nat
  args    : Vector Word 8
  deriving DecidableEq, Repr

/-- How far a launch is. -/
inductive LaunchStage | waiting | admitted | accepted | ended
  deriving DecidableEq, Repr

/-- The segments of a cluster that firmware has copied out of it for a launch, with their bytes and poisoned granules
(18 R303). -/
structure Spill where
  cl     : Fin 64
  segs   : List Nat
  cells  : List Host.Cell
  poison : List Nat
  deriving DecidableEq, Repr

/-- A launch that has reached the head of its queue and has not completed (02 R10 to R13, R22). -/
structure Launch where
  id       : Nat
  queue    : Nat
  seq      : BitVec 32
  fn       : Fin 256
  sp       : Fin 256
  pk       : Packet
  stage    : LaunchStage
  /-- Its place in the order of acceptance. -/
  order    : Nat
  gid      : Nat
  /-- The next ordinal to place, and the cluster that received the previous thread. -/
  next     : Nat
  lastCl   : Option Nat
  exited   : Nat
  /-- The physical loop slots it claimed on each die, and the frontier and window of each while it is wholly out. -/
  hatch    : List (Nat × List Nat)
  loops    : List (Nat × List (Word × Word))
  /-- Energy charged since acceptance, in µJ, and the budgets of its launch context. -/
  charged  : Nat
  budget   : Budget
  /-- A pre-emption is pending or in effect (07 R111). -/
  preempted : Bool
  spilled  : List Spill
  deriving DecidableEq, Repr

/-- What a started queue entry does (07 R108). -/
inductive EntryKind
  | launch (id : Nat)
  | copy (id : Nat)
  | wait (addr value mask : Word) (cond : BitVec 2)
  | signal (addr value : Word) (add : Bool)
  deriving DecidableEq, Repr

/-- A started entry of a host work queue that the completion word does not cover yet. -/
structure QEntry where
  id   : Nat
  seq  : BitVec 32
  kind : EntryKind
  intr : Bool
  done : Bool
  /-- Its interrupt has been raised. -/
  told : Bool
  deriving DecidableEq, Repr

/-- A launch entry that has been read and has not started: its launch, NEXT, WAITPREV and INTR (07 R106). -/
structure HeadEntry where
  launch : Nat
  next   : Word
  wait   : Bool
  intr   : Bool
  deriving DecidableEq, Repr

/-- A host work queue (07 R104). -/
structure Queue where
  owner  : Fin 256
  qbase  : Word
  qtail  : BitVec 32
  qhead  : BitVec 32
  qcompl : Word
  en     : Bool
  prio   : BitVec 2
  weight : BitVec 8
  stop   : Bool
  reason : BitVec 4
  sseq   : BitVec 32
  /-- The next entry lies at QBASE, since none was started after enabling. -/
  fresh  : Bool
  /-- NEXT of the entry last started. -/
  nextAt : Word
  /-- The launch at the head that has not been accepted yet. -/
  head   : Option HeadEntry
  ents   : List QEntry
  /-- The SEQ the completion word reports. -/
  compl  : BitVec 32
  /-- Its credit when queues are chosen (07 R111). -/
  credit : BitVec 16
  deriving DecidableEq, Repr

/-- An address-space record (08 R122). -/
structure AsRec where
  root  : Word
  gen   : BitVec 32
  shoot : Word
  done  : Bool
  /-- Stores that used a dropped entry and have still to perform before DONE is set, by number (08 R123). -/
  pending : List Nat
  deriving DecidableEq, Repr

/-- A communicator (19 R308). -/
structure Comm where
  members : Word
  n       : BitVec 32
  defined : Bool
  /-- How many collectives each die of this device has issued on it (15 R259). -/
  issued  : Vector Nat 8
  deriving DecidableEq, Repr

/-- A function (19 R307, R308): its records by number, the launch limits, the tenant's budget, the mailbox words, the FLR-done bit that
the PF has not read yet (19 R313), and the clusters assigned to it. -/
structure FnRec where
  sps     : List (Nat × AsRec)
  llim    : Vector (BitVec 32) 4
  tenant  : Budget
  comms   : List (Nat × Comm)
  mailbox : List (Nat × Word)
  flrDone : Bool
  clusters : BitVec 64
  deriving DecidableEq, Repr

/-- A live group record (08 R125) (log entry 10, DEDUCED). -/
structure GroupRec where
  count    : Nat
  phase    : Nat
  expected : Nat
  arrived  : Nat
  deriving DecidableEq, Repr

/-- What the package report says of a die (19 R311). -/
structure DieReport where
  present : Bool
  orient  : Word
  dram    : Nat
  digest  : BitVec 256
  key     : List Byte
  deriving DecidableEq, Repr

/-- The package report (19 R311): its dies, CXL memory of each port, weights, horizon, device number, ISAVER, the nonce of a virtual
function, and D0's signature (log entry 48, DESIGN CHOICE). -/
structure Report where
  dies    : List DieReport
  cxl     : Vector Nat 4
  weights : List (EnergyEvent × BitVec 24)
  horizon : Nat
  dev     : BitVec 20
  isaver  : BitVec 32
  nonce   : Word
  signature : List Byte
  deriving DecidableEq, Repr

/-- A loaded key slot: its number, the function it belongs to, and its data key and tweak key (08 R124). -/
structure KeySlot where
  slot  : Nat
  owner : Nat
  data  : BitVec 256
  tweak : BitVec 256
  deriving DecidableEq, Repr

/-- Something the device tells the host (07 R106, 18 R295, R297, 19 R311). -/
inductive HostNote
  | entryDone (queue : Nat) (seq : BitVec 32)
  | poisoned (fn : Fin 256) (key : Nat)
  | report (fn : Fin 256) (r : Report)
  | refusedUpdate
  /-- What the host reads at an offset of BAR0 (19 R308). -/
  | mmio (fn : Fin 256) (off : Nat) (v : Word)
  /-- The FLR-done bit of a function as the PF reads it (19 R313). -/
  | flrDone (fn : Fin 256) (done : Bool)
  deriving DecidableEq, Repr

/-- The firmware and part-wide registers (05 R78, 19 R309, R310, R314, 09 R131). -/
structure Firmware where
  isaver  : BitVec 32
  fused   : BitVec 32
  version : BitVec 32
  dev     : BitVec 20
  /-- Installed CXL memory of each port, in bytes. -/
  cxl     : Vector Nat 4
  horizon : Nat
  weights : List (EnergyEvent × BitVec 24)
  aclkMHz : Nat
  deriving DecidableEq, Repr

/-- Why a host tool rejects its input (20 R316, R318 to R320, R323, 21 R326 to R333). -/
inductive ToolError
  | malformed | versionMajor | versionMinor | mmrevHigh | sectionUnknown | noteMandatory | link | badLine (line : Nat)
  deriving DecidableEq, Repr

/-- A section mapped by the loader: its address in the function's space, its bytes and the W and X bits (20 R318). -/
structure LoadedSection where
  base  : Nat
  bytes : List Byte
  write : Bool
  exec  : Bool
  deriving DecidableEq, Repr

/-- What the host tools hold: source files, objects, the sets of objects to link, and their results. -/
structure Tools where
  sources : List String
  objects : List (List Byte)
  links   : List (List Nat)
  loaded  : List (List LoadedSection)
  errors  : List ToolError
  deriving DecidableEq, Repr

/-- Something that the PF assigns to a function, or a limit of an engine class on a die (19 R307, 09 R128)
(log entry 18, PRESUMED). -/
inductive Assignment
  | queue (q : Fin 8192) (fn : Fin 256)
  | clusters (fn : Fin 256) (set : BitVec 64)
  | engine (die : Fin 8) (cls : EngineClass) (budget : Fin 4) (limit : BitVec 32)
  deriving DecidableEq, Repr

/-- What acts next (log entry 5, DESIGN CHOICE). -/
inductive Turn
  /-- The context with this number comes into focus. -/
  | ctx (uid : Nat)
  /-- A step of another agent, one of the rows without an encoding. -/
  | event (i : Instr)
  /-- The context in focus fetches ahead the halfword at this address (13 R203). -/
  | prefetch (va : Word)
  /-- The context in focus issues nothing for this many slots (12 R173). -/
  | idle (slots : Nat)
  /-- A memory controller or a link of a die has moved data for a launch or a copy: units of 64 bytes, or flits (09 R128). -/
  | traffic (payer : Nat) (die : Fin 8) (cls : EngineClass) (flits : Bool) (units : Nat)
  /-- The context in focus performs a load of these bytes ahead of its instruction (10 R142, R144). -/
  | ahead (p : Path) (cls : Cls) (va : Word) (n : Nat)
  /-- The next vector memory or Graver instruction of the context in focus makes this many elements and then stands at a
  boundary (15 R240, 17 R289). -/
  | part (n : Nat)
  /-- The engine of a cluster makes one TwoSum step of the multiply at the head of its queue, the i-th of those left
  (06 R92). -/
  | engine (cl : Fin 64) (i : Nat)
  /-- A walker of a cluster starts a walk (08 R123). -/
  | walk (cl : Fin 64) (fn sp : Fin 256) (va : Word)
  /-- The host reads a register of a function's BAR0, 32 bits or 64 (19 R308). -/
  | mmioRead (fn : Fin 256) (off : Nat) (wide : Bool)
  /-- The PF reads the FLR-done bit of a function in the mailbox (19 R313). -/
  | flrRead (fn : Fin 256)
  /-- The PF assigns something to a function. -/
  | assign (a : Assignment)
  deriving DecidableEq, Repr

/-- The whole package. `me` is the context in focus, `others` are the rest. -/
structure State where
  sched    : List Turn
  me       : Context
  others   : List Context
  clusters : Vector Cluster 64
  dies     : Vector Die 8
  /-- Bytes of memory by key: a 52-bit physical address, or 2^52 plus a scratchpad's place. -/
  mem      : List Host.Cell
  stores   : List StoreRec
  /-- Poisoned 64-byte granules by key div 64 (06 R96). -/
  poison   : List Nat
  /-- The keys under which the bytes of each 16-byte block that an access has keyed lie, none for plaintext, by key div 16
  (06 R97). -/
  lineKeys : List (Nat × Option (BitVec 512))
  /-- The die that holds each modified line, by key div 128 (06 R95). -/
  modified : List (Nat × Nat)
  seqctr   : Word
  queues   : List (Nat × Queue)
  launches : List Launch
  groups   : List (Nat × GroupRec)
  copies   : List Copy
  colls    : List Coll
  pageReqs : List PageReq
  fns      : List (Nat × FnRec)
  /-- The loaded key slots (08 R124). -/
  keys     : List KeySlot
  notes    : List HostNote
  fw       : Firmware
  tools    : Tools
  /-- The next number for a context, store, copy, collective, launch, entry or page request. -/
  nextId   : Nat
  /-- The model's own: the counter the free values of Config are applied to. -/
  freeCtr  : Nat
  deriving DecidableEq, Repr

/-- Why the machine stops. -/
inductive Fault
  /-- Raised by PACKAGE_BOOT when D0's firmware does not verify: D0 does not leave reset (19 R310). Safe: the spec gives
  the part no further behaviour (log entry 45, DESIGN CHOICE). -/
  | heldInReset
  deriving DecidableEq, Repr

/-- Why an instruction has no meaning here. -/
inductive Refusal
  /-- Raised by an arm of the dispatcher whose instruction is not modelled yet. Safe: nothing can be proved of it. -/
  | notModelled (mnemonic : String)
  /-- Raised by UNIMPL for a word that a firmware update may have defined (12 R187): what it then does is the firmware's
  to say. Safe: nothing can be proved of it (log entry 46, DESIGN CHOICE). -/
  | firmwareDefined
  deriving DecidableEq, Repr

/-- What an instruction answers. -/
abbrev Out := Host.Outcome State Fault Refusal

/-! ### Reset -/

/-- All results readable, at slot 0. -/
def Clock.start : Clock := ⟨0, 0, [], [], []⟩

/-- The descriptor SCALE 0x7F, X 0x80, nf 0 in a 32-bit shadow entry (05 R71, 03 R49). -/
def descReset : BitVec 32 := 0x0000807F

/-- One register's shadow at placement: 256 reset descriptors. -/
def shadowReset : BitVec 8192 := BitVec.ofNat 8192 (0x0000807F * ((2 ^ 8192 - 1) / (2 ^ 32 - 1)))

/-- VTYPE with ILL = 1 and every other field 0 (02 R14). -/
def vtypeIll : BitVec 32 := 0x80000000

/-- The vector state at placement (02 R14). -/
def VecRegs.start : VecRegs where
  v     := Vector.replicate 32 0
  sh    := Vector.replicate 32 shadowReset
  m     := Vector.replicate 8 0
  vtype := vtypeIll
  vl    := 0
  vbeg  := 0
  ldv   := 0
  gsv   := 0
  gt    := Vector.replicate 4 none
  rng   := 0
  blk   := none

/-- FFLAGS and FXIDX at placement (02 R14). -/
def Flags.start : Flags := ⟨0, Vector.replicate 5 0xFFFFFFFF⟩

/-- The trap registers at placement (05 R78). -/
def TrapRegs.start : TrapRegs := ⟨0, 0, false, 0, 0, 0, 0, false, 0, 0⟩

/-- A context at placement but for the launch's own values (02 R14, 05 R78). -/
def Context.start (uid : Nat) (kind : CtxKind) (cl : Fin 64) (slot : Fin 4) : Context where
  uid     := uid
  kind    := kind
  launch  := 0
  fn      := 0
  sp      := 0
  ordinal := 0
  cl      := cl
  slot    := slot
  status  := .running
  pc      := 0
  x       := Vector.replicate 32 0
  ldx     := 0
  vec     := VecRegs.start
  flags   := Flags.start
  trap    := TrapRegs.start
  sys     := ⟨0, false, 0, 0⟩
  tags    := ⟨BitVec.allOnes 64, 0, [], [], []⟩
  clock   := Clock.start
  groups  := 0
  lreq    := none
  credits := Vector.replicate 5 0
  vq      := []
  members := []
  fetched := []
  seen    := []
  ahead   := []
  quota   := none
  probed  := []
  xpoison := 0
  vpoison := []
  shpoison := []
  mpoison := []
  saved   := none

/-- An unowned lane group (05 R83). -/
def LaneGroup.free : LaneGroup := ⟨false, 0, 0, 0, false⟩
/-- An empty handoff flag (05 R84). -/
def HFlag.empty : HFlag := ⟨false, false, 0, 0, 0, 0, none⟩
/-- A latch at reset: rows zero, every descriptor at its reset value, M = 0 (06 R87). -/
def Latch.reset : Latch where
  rows := 0
  desc := BitVec.ofNat 32768 (0x0000807F * ((2 ^ 32768 - 1) / (2 ^ 32 - 1)))
  m    := 0
  gf   := 0
  nb   := 0
/-- A monitor slot at reset (09 R136). -/
def Monitor.reset : Monitor := ⟨0, 0xFFFFFFFFFFFFFFFF, 0, Vector.replicate 16 0, none⟩
/-- A cluster at reset. -/
def Cluster.reset : Cluster where
  lpart   := Vector.replicate 8 LaneGroup.free
  hf      := Vector.replicate 32 HFlag.empty
  slots   := Vector.replicate 4 none
  bureau  := none
  segs    := Vector.replicate 256 none
  latches := Vector.replicate 2 Latch.reset
  chest   := []
  plates  := Vector.replicate 4 ⟨none, none⟩
  mq      := []
  mgdone  := 0
  mons    := Vector.replicate 4 Monitor.reset
  tlb     := []
  walks   := []
  latchPoison := []
  chestPoison := []
/-- Used counts 0 and limits unlimited (09 R126, R128; log entry 3, DESIGN CHOICE). -/
def Budget.reset : Budget := ⟨Vector.replicate 4 0xFFFFFFFF, Vector.replicate 4 0, 0⟩
/-- A die after package boot (09 R126, 19 R310) (log entry 2, DESIGN CHOICE). -/
def Die.reset : Die where
  status := .present
  time    := 0
  hatch   := Vector.replicate 16 ⟨none, 0, 0⟩
  corr    := Vector.replicate 8 0
  errlog  := []
  up      := Vector.replicate 4 true
  engines := Vector.replicate 4 Budget.reset
/-- A queue at reset: registers 0, disabled (07 R104) (log entry 18, PRESUMED). -/
def Queue.reset : Queue where
  owner := 0
  qbase := 0
  qtail := 0
  qhead := 0
  qcompl := 0
  en := false
  prio := 0
  weight := 0
  stop := false
  reason := 0
  sseq := 0
  fresh := true
  nextAt := 0
  head := none
  ents := []
  compl := 0
  credit := 0
/-- An address-space record at reset: ASROOT 0, ASGEN 0, ASSTAT 1 (08 R122). -/
def AsRec.reset : AsRec := ⟨0, 0, 0, true, []⟩
/-- A communicator that is not defined (19 R308). -/
def Comm.reset : Comm := ⟨0, 0, false, Vector.replicate 8 0⟩
/-- A function at reset (log entry 3, DESIGN CHOICE). -/
def FnRec.reset : FnRec := ⟨[], Vector.replicate 4 0xFFFFFFFF, Budget.reset, [], [], false, 0⟩
/-- The part after boot: version 3.0.0 (05 R78), and the values of log entries 2 and 3. -/
def Firmware.reset : Firmware := ⟨0x00030000, 0, 0, 0, Vector.replicate 4 0, 1, [], 2500⟩

/-- The package just after boot: every die present and released, no launch placed; the context in focus has exited, so
nothing issues until the front end places one (19 R310; log entries 2 and 4). -/
def State.reset : State where
  sched    := []
  me       := { Context.start 0 .thread 0 0 with status := .exited }
  others   := []
  clusters := Vector.replicate 64 Cluster.reset
  dies     := Vector.replicate 8 Die.reset
  mem      := []
  stores   := []
  poison   := []
  lineKeys := []
  modified := []
  seqctr   := 0
  queues   := []
  launches := []
  groups   := []
  copies   := []
  colls    := []
  pageReqs := []
  fns      := []
  keys     := []
  notes    := []
  fw       := Firmware.reset
  tools    := ⟨[], [], [], [], []⟩
  nextId   := 1
  freeCtr  := 0

end Sys2Proof.Machine
end

