-- ==== Sys2Proof/Machine/Mem.lean ====
section
/-! DEFINITION. Memory by key: the sorted lists it is held in, the stores that are not visible everywhere yet and how
they become visible, what a load reads, poison and key indices. -/

namespace Sys2Proof.Machine

/-! ### Sorted sparse lists -/

/-- The value at a key; an unlisted key has the default. -/
def Sparse.get {β : Type} (d : β) : List (Nat × β) → Nat → β
  | [], _ => d
  | (a, b) :: r, k => if a = k then b else Sparse.get d r k

/-- Set the value at a key, keeping the list sorted and free of defaults. -/
def Sparse.set {β : Type} [DecidableEq β] (d : β) : List (Nat × β) → Nat → β → List (Nat × β)
  | [], k, v => if v = d then [] else [(k, v)]
  | (a, b) :: r, k, v =>
    if a < k then (a, b) :: Sparse.set d r k v
    else if a = k then (if v = d then r else (k, v) :: r)
    else (if v = d then (a, b) :: r else (k, v) :: (a, b) :: r)

/-- Keys strictly rising from above `lo`, and no default listed. -/
def Sparse.wfFrom {β : Type} [DecidableEq β] (d : β) : Option Nat → List (Nat × β) → Bool
  | _, [] => true
  | lo, (a, b) :: r =>
    (match lo with | none => true | some l => decide (l < a)) && decide (b ≠ d) && Sparse.wfFrom d (some a) r

/-- The canonical form of a sparse list. -/
def Sparse.wf {β : Type} [DecidableEq β] (d : β) (l : List (Nat × β)) : Bool := Sparse.wfFrom d none l

/-- What an unlisted byte of memory reads as (06 R87, R90; log entry 1, DESIGN CHOICE). -/
def Memory.unlisted : Byte := 0

/-- The canonical form of memory: keys strictly rising, no entry equal to what an unlisted key reads as. -/
def Memory.wf (m : List Host.Cell) : Bool := Sparse.wf Memory.unlisted m

/-- A byte of memory by key (log entry 1, DESIGN CHOICE). -/
def Memory.get (m : List Host.Cell) (k : Nat) : Byte := Sparse.get Memory.unlisted m k

/-- Write a byte of memory by key. -/
def Memory.set (m : List Host.Cell) (k : Nat) (v : Byte) : List Host.Cell := Sparse.set Memory.unlisted m k v

/-- Write several bytes, in order. -/
def Memory.setAll (m : List Host.Cell) (cs : List Host.Cell) : List Host.Cell :=
  cs.foldl (fun m c => Memory.set m c.1 c.2) m

/-- A record by number, with a default for one never changed. -/
def Assoc.get {β : Type} (d : β) (l : List (Nat × β)) (k : Nat) : β := Sparse.get d l k

/-- Set a record by number. -/
def Assoc.set {β : Type} (l : List (Nat × β)) (k : Nat) (v : β) : List (Nat × β) :=
  match l with
  | [] => [(k, v)]
  | (a, b) :: r => if a = k then (k, v) :: r else (a, b) :: Assoc.set r k v

/-- Remove a record by number. -/
def Assoc.erase {β : Type} (l : List (Nat × β)) (k : Nat) : List (Nat × β) := l.filter (fun p => p.1 != k)

/-- Whether a record is listed. -/
def Assoc.has {β : Type} (l : List (Nat × β)) (k : Nat) : Bool := l.any (fun p => p.1 == k)

/-! ### Keys (06 R89, R93; 11 R157) -/

/-- The key of a byte of a scratchpad: cluster `cl` of the package, offset `off`. -/
def padKey (cl : Fin 64) (off : Nat) : Nat := 2 ^ 52 + cl.val * 2 ^ 24 + off
/-- The key lies in a scratchpad. -/
def isPad (k : Nat) : Bool := decide (2 ^ 52 ≤ k)
/-- The cluster whose scratchpad holds the key. -/
def padCluster (k : Nat) : Nat := (k - 2 ^ 52) / 2 ^ 24
/-- The offset of a scratchpad key. -/
def padOffset (k : Nat) : Nat := k % 2 ^ 24
/-- The region of a physical address, bits [51:48]. -/
def region (k : Nat) : Nat := k / 2 ^ 48 % 16
/-- A die number from a Nat. -/
def dieOf (n : Nat) : Fin 8 := ⟨n % 8, Nat.mod_lt n (by decide)⟩
/-- A cluster number from a Nat. -/
def clusterOf (n : Nat) : Fin 64 := ⟨n % 64, Nat.mod_lt n (by decide)⟩
/-- The die a cluster lies on. -/
def dieOfCl (c : Fin 64) : Fin 8 := dieOf (c.val / 8)
/-- The home of a key (11 R157). -/
def homeOf (k : Nat) : Fin 8 :=
  if isPad k then dieOf (padCluster k / 8)
  else if region k = 0 then dieOf (k / 2 ^ 36)
  else if region k = 1 then dieOf (2 * (k / 2 ^ 40 % 4))
  else 0
/-- The key lies in a host window. -/
def isHostKey (k : Nat) : Bool := !isPad k && region k == 2
/-- The data unit of the key is encrypted (06 R97) (log entry 23, DESIGN CHOICE). -/
def isEncrypted (k : Nat) : Bool := !isPad k && decide (region k < 2)

/-! ### Little-endian values -/

/-- The bytes of a value in memory order. -/
def toBytes (n v : Nat) : List Byte := (List.range n).map (fun i => BitVec.ofNat 8 (v / 2 ^ (8 * i)))

/-- The value of bytes in memory order. -/
def ofBytes : List Byte → Nat
  | [] => 0
  | b :: r => b.toNat + 256 * ofBytes r

/-! ### Observers and visibility (10 R138, R139) -/

/-- One path of one context, or of the die when no context acts. -/
structure Observer where
  ctx  : Option Nat
  die  : Fin 8
  path : Path
  deriving DecidableEq, Repr

/-- The number of a path. -/
def pathIdx : Path → Nat
  | .p0 => 0 | .p1 => 1 | .p2 => 2 | .p3 => 3 | .p4 => 4

/-- The store has performed (10 R139; 11 R160): an early-forwarding one is visible to its own path on its die, any other is
applied. -/
def StoreRec.performed (r : StoreRec) : Bool := r.applied || r.paths.getLsbD (pathIdx r.path)

/-- The store is visible to the observer: by R139 within the storing die, where the storing context's own path sees it before it
performs, and by R158 and R159 elsewhere. -/
def StoreRec.visible (r : StoreRec) (o : Observer) : Bool :=
  match r.mode with
  | .glob | .home => r.applied
  | .early =>
    if r.die = o.die then r.paths.getLsbD (pathIdx o.path) || (r.ctx.isSome && r.ctx == o.ctx && r.path == o.path)
    else r.dies.getLsbD o.die.val

/-- The store is visible to every path of the die: what instruction fetch, page walks and the front end read. -/
def StoreRec.visibleAll (r : StoreRec) (die : Fin 8) : Bool :=
  match r.mode with
  | .glob | .home => r.applied
  | .early => if r.die = die then r.paths == BitVec.allOnes 5 else r.dies.getLsbD die.val

/-- A byte with one nibble replaced by that of another (03 R45). -/
def mergeNibble (hi : Bool) (old new : Byte) : Byte := if hi then (old &&& 0x0F) ||| (new &&& 0xF0) else (old &&& 0xF0) ||| (new &&& 0x0F)

/-- A byte after the store has written it: an E2M1 element merges its nibble (15 R238). -/
def StoreRec.put (r : StoreRec) (old new : Byte) : Byte :=
  match r.nib with
  | none => new
  | some hi => mergeNibble hi old new

/-- The byte at a key that the stores with a property leave, in their order, over an older one. -/
def overBytes (show_ : StoreRec → Bool) (k : Nat) (old : Byte) (l : List StoreRec) : Byte :=
  l.foldl (fun b r => if show_ r then (match r.bytes.find? (fun c => c.1 == k) with | some c => r.put b c.2 | none => b) else b) old

/-- The byte an observer reads at a key: the latest visible store in coherence order, else memory (10 R139). -/
def State.viewByte (s : State) (o : Observer) (k : Nat) : Byte := overBytes (fun r => r.visible o) k (Memory.get s.mem k) s.stores

/-- The byte every path of a die reads at a key. -/
def State.dieByte (s : State) (die : Fin 8) (k : Nat) : Byte := overBytes (fun r => r.visibleAll die) k (Memory.get s.mem k) s.stores

/-- The byte in its final place in coherence order: the newest applied store's, else memory's. -/
def State.homeByte (s : State) (k : Nat) : Byte := overBytes (fun r => r.applied) k (Memory.get s.mem k) s.stores

/-! ### Stores becoming visible (10 R139, 11 R158, R159) -/

/-- The store is visible to every observer. -/
def StoreRec.everywhere (r : StoreRec) : Bool :=
  r.applied && (r.mode != .early || (r.paths == BitVec.allOnes 5 && r.dies == BitVec.allOnes 8))

/-- The record still has something to tell: bytes not yet in memory, or an acknowledgement or a report outstanding. -/
def StoreRec.live (r : StoreRec) : Bool :=
  !r.bytes.isEmpty || ((r.ctx.isSome || r.work.isSome) && !r.acked && !(r.lost && r.reported))

/-- Take the keys of `cs` out of a record. -/
def StoreRec.strip (cs : List Host.Cell) (r : StoreRec) : StoreRec :=
  { r with bytes := r.bytes.filter (fun c => !cs.any (fun d => d.1 == c.1)) }

/-- Two stores write a common byte. -/
def StoreRec.meets (r q : StoreRec) : Bool := r.bytes.any (fun c => q.bytes.any (fun d => d.1 == c.1))

/-- The store can move into memory after those kept before it: a nibble only when none of these writes its byte. -/
def StoreRec.settles (r : StoreRec) (kept : List StoreRec) : Bool := r.everywhere && (r.nib.isNone || !kept.any (fun q => q.meets r))

/-- The cells that a store leaves in memory. -/
def StoreRec.cells (r : StoreRec) (m : List Host.Cell) : List Host.Cell := r.bytes.map (fun c => (c.1, r.put (Memory.get m c.1) c.2))

/-- Move the bytes of every store that is visible everywhere into memory, oldest first; older records lose those bytes,
since every observer now sees the newer ones. -/
def settleFrom (kept : List StoreRec) (m : List Host.Cell) : List StoreRec → List StoreRec × List Host.Cell
  | [] => (kept, m)
  | r :: rest =>
    if r.settles kept then
      let r' := { r with bytes := [], acked := r.acked || (!r.lost && (r.mode != .early || r.home == r.die)) }
      settleFrom (kept.map (StoreRec.strip r.bytes) ++ [r']) (Memory.setAll m (r.cells m)) rest
    else settleFrom (kept ++ [r]) m rest

/-- Settle memory and drop the records that have nothing to tell. -/
def State.settle (s : State) : State :=
  let p := settleFrom [] s.mem s.stores
  { s with stores := p.1.filter StoreRec.live, mem := p.2 }

/-- The record after its store is applied at its home (11 R158 step 2, R159). -/
def StoreRec.applyNow (r : StoreRec) : StoreRec :=
  match r.mode with
  | .glob | .home => { r with applied := true, paths := BitVec.allOnes 5, dies := BitVec.allOnes 8, acked := true }
  | .early => { r with applied := true, paths := r.paths ||| (1#5 <<< pathIdx r.path), dies := r.dies ||| (1#8 <<< r.home.val) }

/-- The record after its store has performed (10 R139; 11 R160): an early-forwarding one homed on its own die is applied with
that. -/
def StoreRec.performNow (r : StoreRec) : StoreRec :=
  match r.mode with
  | .glob | .home => r.applyNow
  | .early => if r.home = r.die then r.applyNow else { r with paths := r.paths ||| (1#5 <<< pathIdx r.path) }

/-- The record after it is visible on every path of every die and acknowledged (11 R158 step 4). -/
def StoreRec.ackNow (r : StoreRec) : StoreRec :=
  { r.applyNow with paths := BitVec.allOnes 5, dies := BitVec.allOnes 8, acked := true }

/-- The place of a record in the list: the applied ones in coherence order, then those that have performed on their die, then
those issued, in program order. -/
def StoreRec.rank (r : StoreRec) : Nat := if r.applied then 0 else if r.performed then 1 else 2

/-- Records in the order of their rank before and after a change: those whose rank falls come after those that had it, in
their old order, which fixes their place in coherence order (11 R161). -/
def byRank (l : List (StoreRec × StoreRec)) : List StoreRec :=
  let sel := fun (a b : Nat) => (l.filter (fun p => p.2.rank == a && p.1.rank == b)).map (fun p => p.2)
  sel 0 0 ++ sel 0 1 ++ sel 0 2 ++ sel 1 1 ++ sel 1 2 ++ (l.filter (fun p => p.2.rank == 2)).map (fun p => p.2)

/-- Change the records a test picks. -/
def updateStores (pick : StoreRec → Bool) (f : StoreRec → StoreRec) (l : List StoreRec) : List StoreRec :=
  byRank (l.map (fun r => (r, if pick r then f r else r)))

/-- Change the picked stores and settle. -/
def State.advance (s : State) (pick : StoreRec → Bool) (f : StoreRec → StoreRec) : State :=
  State.settle { s with stores := updateStores pick f s.stores }

/-- The store is not lost. -/
def StoreRec.alive (r : StoreRec) : Bool := !r.lost

/-! ### The order of stores (10 R140, R141, R143, R145; 11 R160, R161) -/

/-- A store performs before a later one of its context: on one path, of its class or to a common byte, elements of one
instruction with E = 0 only to a common byte (R141, R143); from P0 or P1 to the other, to a common byte, unless it is a vector
store with Y set (R145). -/
def StoreRec.before (r q : StoreRec) : Bool :=
  r.ctx.isSome && r.ctx == q.ctx &&
    (if r.path = q.path then (if r.ins.isSome && r.ins == q.ins then r.meets q else r.cls == q.cls || r.meets q)
     else decide (pathIdx r.path ≤ 1) && decide (pathIdx q.path ≤ 1) && !r.y && r.meets q)

/-- An unapplied store is applied at its home before a later one to a common byte: both of one context, or both early-forwarding
stores that have performed on one die (R140, R161). -/
def StoreRec.precedes (r q : StoreRec) : Bool :=
  !r.applied && r.alive && !q.applied && r.meets q &&
    (r.before q || r.mode == .early && q.mode == .early && r.die == q.die && r.performed)

/-- The numbers of the stores that are applied, and of those that perform, with those of which `app` says that they are applied
and `per` that they perform, since they come before them. -/
def forcedStores (app per : StoreRec → Bool) : List StoreRec → List Nat × List Nat
  | [] => ([], [])
  | r :: rest =>
    let f := forcedStores app per rest
    let goesHome := fun q : StoreRec => app q || f.1.contains q.id
    let performs := fun q : StoreRec => !q.performed && (goesHome q || per q || f.2.contains q.id)
    let a := !app r && rest.any (fun q => goesHome q && r.precedes q)
    let p := !per r && r.alive && !r.performed && rest.any (fun q => performs q && r.before q)
    if a || (p && r.mode != .early) then (r.id :: f.1, f.2) else if p then (f.1, r.id :: f.2) else f

/-- Change the picked stores, which are applied with that or only perform, after those that come before them, and settle. -/
def State.advanceAfter (s : State) (apply : Bool) (pick : StoreRec → Bool) (f : StoreRec → StoreRec) : State :=
  let ids := forcedStores (fun r => pick r && !r.applied && (apply || r.mode != .early)) (fun r => pick r && !r.performed) s.stores
  s.advance (fun r => pick r || ids.1.contains r.id || ids.2.contains r.id)
    (fun r => if pick r then f r else if ids.1.contains r.id then r.applyNow else r.performNow)

/-- A store of a further die that has performed there and is not applied writes a byte of the store: until then that die shows
no other store of the byte (R161). -/
def State.rivals (s : State) (r : StoreRec) : List StoreRec :=
  s.stores.filter (fun q => q.mode == .early && q.alive && !q.applied && q.performed && q.die != r.die && q.meets r)

/-- The rivals of the picked stores are applied and visible to their own die first. -/
def State.afterRivals (s : State) (pick : StoreRec → Bool) : State :=
  let ids := ((s.stores.filter pick).flatMap s.rivals).map (fun q => q.id)
  if ids.isEmpty then s
  else s.advanceAfter true (fun q => ids.contains q.id) (fun q => { q.applyNow with paths := BitVec.allOnes 5 })

/-- The store after an event that covers it shows it to paths of its die (10 R139): one that performs at its home is
applied; one homed on its own die is then visible to every other die too (11 R158). -/
def StoreRec.cover (pt : BitVec 5) (r : StoreRec) : StoreRec :=
  match r.mode with
  | .glob | .home => r.applyNow
  | .early =>
    let q := r.performNow
    { q with paths := q.paths ||| pt, dies := if r.home = r.die then BitVec.allOnes 8 else r.dies }

/-- The picked stores perform (10 R149 at T, C, D; R142). -/
def State.perform (s : State) (pick : StoreRec → Bool) : State :=
  let mine := fun r : StoreRec => pick r && r.alive
  (s.afterRivals (fun r => mine r && r.mode != .early)).advanceAfter false mine StoreRec.performNow

/-- Make the picked stores visible to a set of paths of their own die (10 R139, R144). -/
def State.coverPaths (s : State) (pt : BitVec 5) (pick : StoreRec → Bool) : State :=
  let mine := fun r : StoreRec => pick r && r.alive
  (s.afterRivals (fun r => mine r && (r.mode != .early || r.home == r.die))).advanceAfter false mine (StoreRec.cover pt)

/-- Make the picked stores visible to every path of their own die, applying those that must be (10 R147 at T, C, D). -/
def State.drainDie (s : State) (pick : StoreRec → Bool) : State := s.coverPaths (BitVec.allOnes 5) pick

/-- Make the picked stores visible in the whole package and acknowledged (11 R162). -/
def State.drainAll (s : State) (pick : StoreRec → Bool) : State :=
  let mine := fun r : StoreRec => pick r && r.alive
  (s.afterRivals mine).advanceAfter true mine StoreRec.ackNow

/-- Make the picked stores perform on their own path in the whole package, for a release at scope P or S (10 R149). -/
def State.drainPath (s : State) (pick : StoreRec → Bool) : State :=
  let mine := fun r : StoreRec => pick r && r.alive
  (s.afterRivals mine).advanceAfter true mine fun r =>
    match r.mode with
    | .glob | .home => r.applyNow
    | .early => { r.applyNow with dies := BitVec.allOnes 8, acked := r.acked || r.home != r.die }

/-- Apply the picked stores that perform at their home (11 R160; 08 R120). -/
def State.drainGlob (s : State) (pick : StoreRec → Bool) : State :=
  let mine := fun r : StoreRec => pick r && r.alive && r.mode != .early
  (s.afterRivals mine).advanceAfter true mine StoreRec.applyNow

/-! ### Poison, keys and modified lines (06 R95 to R97; 08 R124) -/

/-- A byte of a poisoned granule. -/
def State.poisoned (s : State) (k : Nat) : Bool := s.poison.contains (k / 64)

/-- The keys that a key index selects: none for plaintext, index 0 (06 R97). -/
def State.slotKey (s : State) (ki : Nat) : Option (BitVec 512) :=
  if ki = 0 then none else (s.keys.find? (fun k => k.slot == ki)).map (fun k => k.data ++ k.tweak)

/-- The keys under which the block of a key lies; none for one that no access has keyed (log entry 1, DESIGN CHOICE). -/
def State.blockKey (s : State) (k : Nat) : Option (Option (BitVec 512)) :=
  (s.lineKeys.find? (fun p => p.1 == k / 16)).map (fun p => p.2)

/-- A block written under some keys and read under others: the decryption of its encryption (06 R97)
(log entry 23, DESIGN CHOICE). -/
def recode (stored read : Option (BitVec 512)) (block : Nat) (x : BitVec 128) : BitVec 128 :=
  let e := match stored with | some k => (Config.xts k block).enc x | none => x
  match read with | some k => (Config.xts k block).dec e | none => e

/-- The 16 bytes of a block, as a view of memory shows them. -/
def blockBits (raw : Nat → Byte) (block : Nat) : BitVec 128 :=
  BitVec.ofNat 128 (ofBytes ((List.range 16).map (fun i => raw (16 * block + i))))

/-- A byte as read through a mapping with key index `ki`, in a view of memory: the byte itself when its block lies under the same
keys, else what its block decrypts to (log entry 1, DESIGN CHOICE; log entry 23, DESIGN CHOICE). -/
def State.plain (s : State) (ki : Nat) (raw : Nat → Byte) (k : Nat) : Byte :=
  if isEncrypted k then
    match s.blockKey k with
    | none => raw k
    | some j =>
      if j = s.slotKey ki then raw k
      else (recode j (s.slotKey ki) (k / 16) (blockBits raw (k / 16))).extractLsb' (8 * (k % 16)) 8
  else raw k

/-- Give a block the keys of a store into it; under a change of keys its other bytes become what the fill under the new keys
decrypts (log entry 23, DESIGN CHOICE). -/
def State.rekey (s : State) (ki k : Nat) : State :=
  if isEncrypted k then
    match s.blockKey k with
    | none => { s with lineKeys := Assoc.set s.lineKeys (k / 16) (s.slotKey ki) }
    | some j =>
      if j = s.slotKey ki then s
      else
        let x := recode j (s.slotKey ki) (k / 16) (blockBits s.homeByte (k / 16))
        let cells := (List.range 16).map (fun i => (k / 16 * 16 + i, x.extractLsb' (8 * i) 8))
        { s with lineKeys := Assoc.set s.lineKeys (k / 16) (s.slotKey ki), mem := Memory.setAll s.mem cells,
                 stores := s.stores.map (fun r => if r.applied then r.strip cells else r) }
  else s

/-- Give every block that a store of `n` bytes touches its keys (log entry 23, DESIGN CHOICE). -/
def State.rekeyAll (s : State) (ki k n : Nat) : State :=
  (List.range ((k + (n - 1)) / 16 - k / 16)).foldl (fun s i => s.rekey ki (16 * (k / 16 + 1 + i))) (s.rekey ki k)

/-- The die that holds the lines of `n` bytes at a key modified. -/
def State.setModified (s : State) (die : Fin 8) (k n : Nat) : State :=
  if isEncrypted k then
    { s with modified := (List.range ((k + (n - 1)) / 128 - k / 128 + 1)).foldl (fun l i => Assoc.set l (k / 128 + i) die.val) s.modified }
  else s

/-- A store of `n` bytes at `k` clears the poison of every granule it writes whole (06 R96), as it is issued
(log entry 24, DESIGN CHOICE). -/
def State.unpoison (s : State) (k n : Nat) : State :=
  { s with poison := s.poison.filter (fun g => !(decide (k ≤ 64 * g) && decide (64 * g + 64 ≤ k + n))) }

/-! ### Accesses by key -/

/-- `n` bytes at a key as the observer reads them under key index `ki`. -/
def State.readKey (s : State) (o : Observer) (ki k n : Nat) : List Byte :=
  (List.range n).map (fun i => s.plain ki (s.viewByte o) (k + i))

/-- `n` bytes at a key as every path of the die reads them, in plain. -/
def State.readDie (s : State) (die : Fin 8) (k n : Nat) : List Byte :=
  (List.range n).map (fun i => s.dieByte die (k + i))

/-- Some byte at a key is poisoned. -/
def State.anyPoison (s : State) (k n : Nat) : Bool := (List.range n).any (fun i => s.poisoned (k + i))

/-- A store as it is issued: that of a context performs later, that of an engine, the front end or the host at once. -/
def StoreRec.fresh (id : Nat) (ctx : Option Nat) (fn : Fin 256) (die : Fin 8) (path : Path) (cls : Cls) (y : Bool)
    (va : Word) (k : Nat) (bs : List Byte) (mode : StoreMode) (nib : Option Bool := none) (ins : Option Nat := none) : StoreRec :=
  let r : StoreRec :=
    { id := id, ctx := ctx, work := none, fn := fn, die := die, path := path, cls := cls, y := y, va := va
      bytes := (List.range bs.length).zipWith (fun i b => (k + i, b)) bs
      nib := nib, ins := ins, mode := mode, home := homeOf k, paths := 0, applied := false, dies := 0
      acked := false, cut := false, lost := false, reported := false }
  if ctx.isNone && mode == .early then r.performNow else r

/-- Put a store into its place among the others. -/
def insertStore (r : StoreRec) (l : List StoreRec) : List StoreRec :=
  l.filter (fun q => decide (q.rank ≤ r.rank)) ++ [r] ++ l.filter (fun q => decide (r.rank < q.rank))

/-- A store is issued (10 R139, 11 R158). -/
def State.putStore (s : State) (ctx : Option Nat) (fn : Fin 256) (die : Fin 8) (path : Path) (cls : Cls) (y : Bool)
    (va : Word) (ki k : Nat) (bs : List Byte) (mode : StoreMode) (nib : Option Bool := none) (ins : Option Nat := none) : State :=
  let s1 := s.rekeyAll ki k bs.length
  let s2 := (if nib.isNone then s1.unpoison k bs.length else s1).setModified (homeOf k) k bs.length
  let r := StoreRec.fresh s.nextId ctx fn die path cls y va k bs mode nib ins
  State.settle { s2 with nextId := s.nextId + 1, stores := insertStore r s2.stores }

/-- The write of an atomic (10 R151, R152): applied at once, so that it follows the latest applied store in coherence
order; visible to its own path, and to the other dies. The die that performs it holds the line modified: the issuing die, which
takes it exclusive, or the home, which recalls it (log entry 26, DEDUCED). -/
def State.putAtomic (s : State) (ctx : Option Nat) (fn : Fin 256) (die : Fin 8) (path : Path) (cls : Cls)
    (va : Word) (ki k : Nat) (bs : List Byte) (far : Bool) : State :=
  let s1 := s.rekeyAll ki k bs.length
  let s2 := s1.setModified (if far then homeOf k else die) k bs.length
  let r := { (StoreRec.fresh s.nextId ctx fn die path cls false va k bs .early).applyNow with dies := BitVec.allOnes 8, acked := true }
  State.settle { s2 with nextId := s.nextId + 1, stores := insertStore r s2.stores }

/-- Apply every unapplied store that a die has performed to any of these keys, before an atomic of the die reads them
(log entry 26, DEDUCED). -/
def State.applyFor (s : State) (die : Fin 8) (k n : Nat) : State :=
  s.advanceAfter true (fun r => !r.applied && r.performed && r.alive && r.die == die &&
    r.bytes.any (fun c => decide (k ≤ c.1) && decide (c.1 < k + n))) StoreRec.applyNow

/-- `n` bytes at a key in their final place in coherence order, under key index `ki` (log entry 26, DEDUCED). -/
def State.readHome (s : State) (ki k n : Nat) : List Byte :=
  (List.range n).map (fun i => s.plain ki s.homeByte (k + i))

/-- Bytes written by firmware or the host, visible everywhere at once. -/
def State.pokeKey (s : State) (ki k : Nat) (bs : List Byte) : State :=
  let s1 := s.rekeyAll ki k bs.length
  let cells := (List.range bs.length).zipWith (fun i b => (k + i, b)) bs
  { s1.unpoison k bs.length with
    mem := Memory.setAll s1.mem cells
    stores := s1.stores.map (fun r => if r.applied then r.strip cells else r) }

end Sys2Proof.Machine
end

