-- ==== Sys2Proof/Machine/Xlate.lean ====
section
/-! DEFINITION. Addresses: the scratchpad space, the page walk and its checks, routes between dies, and loads, stores and
instruction fetch by virtual address. -/

namespace Sys2Proof.Machine

/-! ### Routes (19 R305, R306) -/

/-- The number of a port. -/
def portIdx : Port → Fin 4
  | .n => 0 | .e => 1 | .s => 2 | .w => 3

/-- The mask of a port: the peer's id is the own id XOR the mask (19 R305). -/
def portMask : Port → Nat
  | .n => 1 | .e => 2 | .s => 4 | .w => 7

/-- The link of a die's port is up. -/
def State.linkUp (s : State) (die : Nat) (p : Port) : Bool := (s.dies[dieOf die]).up[portIdx p]

/-- Every link of a route is up, starting at a die. -/
def State.routeUp (s : State) : Nat → List Port → Bool
  | _, [] => true
  | d, p :: r => s.linkUp d p && s.routeUp (d ^^^ portMask p) r

/-- The port of a one-bit mask. -/
def bitPort : Nat → Port
  | 1 => .n | 2 => .e | _ => .s

/-- The routes for a difference of die ids, in the order they are tried (19 R306). -/
def routes (δ : Nat) : List (List Port) :=
  match δ with
  | 0 => [[]]
  | 1 => [[.n], [.e, .s, .w], [.s, .e, .w], [.w, .e, .s]]
  | 2 => [[.e], [.n, .s, .w], [.s, .n, .w], [.w, .n, .s]]
  | 4 => [[.s], [.n, .e, .w], [.e, .n, .w], [.w, .n, .e]]
  | 7 => [[.w], [.n, .e, .s], [.e, .n, .s], [.s, .n, .e]]
  | 3 => [[.n, .e], [.e, .n], [.w, .s]]
  | 5 => [[.n, .s], [.s, .n], [.w, .e]]
  | _ => [[.e, .s], [.s, .e], [.w, .n]]

/-- The route a request takes, if one remains. -/
def State.route (s : State) (src dst : Fin 8) : Option (List Port) :=
  (routes (src.val ^^^ dst.val)).find? (fun r => s.routeUp src.val r)

/-- The home answers: a route remains and the die is not in reset (11 R164, R166). -/
def State.reachable (s : State) (src dst : Fin 8) : Bool :=
  (s.route src dst).isSome && decide ((s.dies[dst]).status = .present)

/-! ### Who accesses -/

/-- The party whose rights an access carries. -/
structure Party where
  fn     : Fin 256
  sp     : Fin 256
  launch : Option Nat
  cl     : Fin 64
  /-- Launch code needs U = 1 (08 R120). -/
  user   : Bool
  deriving DecidableEq, Repr

/-- A context as a party. -/
def Context.party (c : Context) : Party := ⟨c.fn, c.sp, some c.launch, c.cl, true⟩

/-- The die of a context. -/
def Context.die (c : Context) : Fin 8 := dieOfCl c.cl

/-- A path of a context as an observer. -/
def Context.obs (c : Context) (p : Path) : Observer := ⟨some c.uid, c.die, p⟩

/-- The record of a function. -/
def State.fnRec (s : State) (f : Fin 256) : FnRec := Assoc.get FnRec.reset s.fns f.val

/-- The record of an address space. -/
def State.asRec (s : State) (f sp : Fin 256) : AsRec := Assoc.get AsRec.reset (s.fnRec f).sps sp.val

/-! ### Page entries (08 R119, R120) -/

/-- A field of a page entry. -/
def field (w : Nat) (lo n : Nat) : Nat := w / 2 ^ lo % 2 ^ n

/-- The frame lies in installed memory of a region that exists (06 R93); of a 512 MiB page its first byte is tested
(log entry 62, DESIGN CHOICE). -/
def State.frameOk (s : State) (pa : Nat) : Bool :=
  match region pa with
  | 0 => field pa 39 9 == 0 && decide ((s.dies[dieOf (pa / 2 ^ 36)]).status ≠ .absent)
  | 1 => field pa 42 6 == 0 && decide (pa % 2 ^ 40 < (s.fw.cxl[field pa 40 2]?).getD 0)
  | 2 => true
  | _ => false

/-- The frame of an entry, as a physical address. -/
def entFrame (e : Nat) : Nat := field e 16 36 * 2 ^ 16

/-- The checks of one entry that do not concern permissions, in the order of R120: PAGE when V = 0, PROT when malformed. -/
def State.entryFault (s : State) (level e : Nat) : Option Cause :=
  let leaf := field e 1 1 == 1
  if field e 0 1 = 0 then some .page
  else if field e 63 1 ≠ 0 ∨ field e 9 7 ≠ 0 then some .prot
  else if !leaf && (field e 52 11 != 0 || field e 2 7 != 0) then some .prot
  else if leaf && level == 1 then some .prot
  else if !leaf && level == 3 then some .prot
  else if leaf && level == 2 && field e 16 13 != 0 then some .prot
  else if leaf && field e 7 2 == 3 then some .prot
  else if !s.frameOk (entFrame e) then some .prot
  else none

/-- The permission and key checks at the leaf (08 R120). -/
def State.leafFault (s : State) (p : Party) (acc : Access) (e : Nat) : Option Cause :=
  if p.user && field e 4 1 == 0 then some .prot
  else if decide (acc = .store) && field e 2 1 == 0 then some .prot
  else if decide (acc = .fetch) && field e 3 1 == 0 then some .prot
  else if !s.keys.any (fun k => k.slot == field e 52 11 && k.owner == p.fn.val) then some .prot
  else none

/-- What a good leaf maps an address to. -/
def leafMap (big : Bool) (e va : Nat) : Mapped where
  key := if big then entFrame e + va % 2 ^ 29 else entFrame e + va % 2 ^ 16
  mt  := if region (entFrame e) = 2 ∧ field e 7 2 = 0 then 1 else field e 7 2
  ki  := field e 52 11
  ns  := field e 5 1 == 1

/-- A page entry in memory, read in plain whatever keys its block lies under (log entry 62, DESIGN CHOICE). -/
def State.readEntry (s : State) (die : Fin 8) (table idx : Nat) : Nat := ofBytes (s.readDie die (table + 8 * idx) 8)

/-- The walk of an address: the leaf with its level, or the fault that ends it; it starts at ASROOT modulo 2^52, whatever else ASROOT
holds (log entry 62, DESIGN CHOICE). -/
def State.walk (s : State) (p : Party) (va : Nat) : Except Cause (Bool × Nat) :=
  let die := dieOfCl p.cl
  let e1 := s.readEntry die ((s.asRec p.fn p.sp).root.toNat % 2 ^ 52) (field va 42 13)
  match s.entryFault 1 e1 with
  | some c => .error c
  | none =>
    let e2 := s.readEntry die (entFrame e1) (field va 29 13)
    match s.entryFault 2 e2 with
    | some c => .error c
    | none =>
      if field e2 1 1 = 1 then .ok (true, e2)
      else
        let e3 := s.readEntry die (entFrame e2) (field va 16 13)
        match s.entryFault 3 e3 with
        | some c => .error c
        | none => .ok (false, e3)

/-- The entry of the slice of lane group VA[18:16] that translates an address, if one does (08 R121, R123)
(log entry 14, DEDUCED). -/
def State.tlbFind (s : State) (p : Party) (va : Nat) : Option TlbEntry :=
  (s.clusters[p.cl]).tlb.find? fun t =>
    t.slice.val == field va 16 3 && t.fn == p.fn && (t.sp == p.sp || field t.ent.toNat 6 1 == 1) &&
      t.page == (if t.big then va / 2 ^ 29 else va / 2 ^ 16)

/-- The leaf for an address: from the slice, whose frame must still be installed (06 R93; 19 R310), else from a walk
(log entry 14, DEDUCED). -/
def State.leafOf (s : State) (p : Party) (va : Nat) : Except Cause (Bool × Nat) :=
  match s.tlbFind p va with
  | some t => if s.frameOk (entFrame t.ent.toNat) then .ok (t.big, t.ent.toNat) else .error .prot
  | none => s.walk p va

/-- A scratchpad address (06 R89, R90): its key, or PROT. -/
def State.padMap (s : State) (p : Party) (va : Nat) : Except Cause Mapped :=
  let remote := field va 27 1 == 1
  let cl : Fin 64 := if remote then clusterOf (p.cl.val / 8 * 8 + field va 24 3) else p.cl
  let off := field va 0 24
  if field va 28 20 ≠ 0 then .error .prot
  else if !remote && field va 24 3 != 0 then .error .prot
  else if p.launch.isSome && (s.clusters[cl]).segs[off / Config.segmentBytes]?.join == p.launch then
    .ok ⟨padKey cl off, 0, 0, false⟩
  else .error .prot

/-- The address lies in the scratchpad space (06 R89). -/
def isPadVa (va : Word) : Bool := field va.toNat 48 7 == 0x7E

/-- Translate one address (08 R119, R120; 06 R89): PROT with any of bits [63:55] set, before any other check. -/
def State.xlate (s : State) (p : Party) (acc : Access) (va : Word) : Except Cause Mapped :=
  if field va.toNat 55 9 ≠ 0 then .error .prot
  else if isPadVa va then
    if acc = .fetch then .error .prot else s.padMap p va.toNat
  else
    match s.leafOf p va.toNat with
    | .error c => .error c
    | .ok (big, e) =>
      match s.leafFault p acc e with
      | some c => .error c
      | none => .ok (leafMap big e va.toNat)

/-! ### Ranges of bytes -/

/-- Cut a range at the 64 KiB page boundaries: at most `fuel` parts. -/
def pageParts : Nat → Word → Nat → List (Word × Nat)
  | 0, _, _ => []
  | fuel + 1, va, n =>
    if n = 0 then []
    else
      let room := 0x10000 - va.toNat % 0x10000
      if n ≤ room then [(va, n)] else (va, room) :: pageParts fuel (va + BitVec.ofNat 64 room) (n - room)

/-- Translate every part of a range; the first failing part gives its cause and address. -/
def State.xlateParts (s : State) (p : Party) (acc : Access) : List (Word × Nat) → Except (Cause × Word) (List (Mapped × Nat))
  | [] => .ok []
  | (va, n) :: r =>
    match s.xlate p acc va with
    | .error c => .error (c, va)
    | .ok m =>
      match s.xlateParts p acc r with
      | .error e => .error e
      | .ok ms => .ok ((m, n) :: ms)

/-- Translate a range of at most 128 KiB. -/
def State.xlateRange (s : State) (p : Party) (acc : Access) (va : Word) (n : Nat) :
    Except (Cause × Word) (List (Mapped × Nat)) := s.xlateParts p acc (pageParts 3 va n)

/-- The first byte of a translated range that is poisoned or has no reachable home, by its distance from the start. -/
def State.badByte (s : State) (die : Fin 8) (ms : List (Mapped × Nat)) (d : Nat := 0) : Option Nat :=
  match ms with
  | [] => none
  | (m, n) :: r =>
    match (List.range n).find? (fun i => s.poisoned (m.key + i) || !(isPad m.key || s.reachable die (homeOf (m.key + i)))) with
    | some i => some (d + i)
    | none => s.badByte die r (d + n)

/-- What an access by an observer finds in memory: an uncached one reads at the home (08 R120) (log entry 26, DEDUCED). -/
def State.look (s : State) (o : Observer) (m : Mapped) : Nat → Byte := if m.mt ≠ 0 then s.homeByte else s.viewByte o

/-- `n` bytes of a mapping as an observer reads them. -/
def State.readMapped (s : State) (o : Observer) (m : Mapped) (n : Nat) : List Byte :=
  (List.range n).map (fun i => s.plain m.ki (s.look o m) (m.key + i))

/-- The bytes of a translated range as an observer reads them. -/
def State.readParts (s : State) (o : Observer) (ms : List (Mapped × Nat)) : List Byte := ms.flatMap (fun p => s.readMapped o p.1 p.2)

/-- Load `n` bytes at an address: the bytes, or the cause and the failing address. -/
def State.loadVa (s : State) (o : Observer) (p : Party) (va : Word) (n : Nat) : Except (Cause × Word) (List Byte) :=
  match s.xlateRange p .load va n with
  | .error e => .error e
  | .ok ms =>
    match s.badByte o.die ms with
    | some i => .error (.poison, va + BitVec.ofNat 64 i)
    | none => .ok (s.readParts o ms)

/-- Probe a store of `n` bytes at an address. -/
def State.probeStore (s : State) (p : Party) (va : Word) (n : Nat) : Except (Cause × Word) (List (Mapped × Nat)) :=
  s.xlateRange p .store va n

/-- The mode in which a store performs: to an uncached page it performs at the home (08 R120) (log entry 26, DEDUCED). -/
def storeModeAt (m : Mapped) (mode : StoreMode) : StoreMode := if mode = .early ∧ m.mt ≠ 0 then .home else mode

/-- Make the stores of a translated range: one store record for each part. -/
def State.storeParts (s : State) (ctx : Option Nat) (fn : Fin 256) (die : Fin 8) (path : Path) (cls : Cls) (y : Bool)
    (va : Word) (mode : StoreMode) (nib : Option Bool := none) (ins : Option Nat := none) : List (Mapped × Nat) → List Byte → State
  | [], _ => s
  | (m, n) :: r, bs =>
    (s.putStore ctx fn die path cls y va m.ki m.key (bs.take n) (storeModeAt m mode) nib ins).storeParts ctx fn die path cls y va mode nib
      ins r (bs.drop n)

/-! ### Instruction fetch (12 R168) -/

/-- A store that instruction fetch on a die shows: one that has performed there (13 R203) (log entry 59, DEDUCED). -/
def StoreRec.fetchable (r : StoreRec) (die : Fin 8) : Bool :=
  match r.mode with
  | .glob | .home => r.applied
  | .early => if r.die = die then r.performed else r.dies.getLsbD die.val

/-- The byte that instruction fetch on a die reads at a key. -/
def State.fetchByte (s : State) (die : Fin 8) (k : Nat) : Byte :=
  overBytes (fun r => r.fetchable die) k (Memory.get s.mem k) s.stores

/-- The halfword at an address, or its fault: from what the context has fetched ahead, else from memory with the stores that have
performed on the die (log entry 59, DEDUCED). -/
def State.fetchHalf (s : State) (c : Context) (va : Word) : Except (Cause × Word) (BitVec 16) :=
  match c.fetched.find? (fun p => p.1 == va.toNat) with
  | some p => .ok p.2
  | none =>
    match s.xlate c.party .fetch va with
    | .error f => .error (f, va)
    | .ok m =>
      if s.anyPoison m.key 2 || !s.reachable c.die (homeOf m.key) then .error (.poison, va)
      else .ok (BitVec.ofNat 16 (ofBytes ((List.range 2).map (fun i => s.plain m.ki (s.fetchByte c.die) (m.key + i)))))

/-- The instruction code at an address, or the fault with the address of the failing halfword. -/
def State.fetchCode (s : State) (c : Context) (va : Word) : Except (Cause × Word) Code :=
  match s.fetchHalf c va with
  | .error e => .error e
  | .ok h =>
    if h.getLsbD 0 then
      match s.fetchHalf c (va + 2) with
      | .error e => .error e
      | .ok h2 => .ok (.w32 (h2 ++ h))
    else .ok (.w16 h)

end Sys2Proof.Machine
end

