-- ==== Sys2Proof/Machine/Ops.lean ====
section
/-! DEFINITION. The named operations over registers and the state: scalar registers with their issue slots, lane groups,
groups, ending a launch, taking a trap and returning from one, page faults. -/

namespace Sys2Proof.Machine

/-! ### Parts of the state -/

/-- Change the context in focus. -/
def State.modMe (s : State) (f : Context → Context) : State := { s with me := f s.me }

/-- Change a cluster. -/
def State.modCluster (s : State) (c : Fin 64) (f : Cluster → Cluster) : State :=
  { s with clusters := s.clusters.set c.val (f s.clusters[c]) c.isLt }

/-- The cluster of the context in focus. -/
def State.myCluster (s : State) : Cluster := s.clusters[s.me.cl]

/-- Change a die. -/
def State.modDie (s : State) (d : Fin 8) (f : Die → Die) : State :=
  { s with dies := s.dies.set d.val (f s.dies[d]) d.isLt }

/-- Every context, the one in focus first. -/
def State.contexts (s : State) : List Context := s.me :: s.others

/-- A context by number. -/
def State.context (s : State) (uid : Nat) : Option Context := s.contexts.find? (fun c => c.uid == uid)

/-- Change every context. -/
def State.mapContexts (s : State) (f : Context → Context) : State := { s with me := f s.me, others := s.others.map f }

/-- Change the context with a number. -/
def State.modContext (s : State) (uid : Nat) (f : Context → Context) : State :=
  s.mapContexts (fun c => if c.uid = uid then f c else c)

/-- Bring a context into focus (log entry 5, DESIGN CHOICE). -/
def State.focus (s : State) (uid : Nat) : State :=
  match s.others.find? (fun c => c.uid == uid) with
  | none => s
  | some c => { s with me := c, others := s.me :: s.others.filter (fun d => d.uid != uid) }

/-- A queue by number. -/
def State.queue (s : State) (q : Nat) : Queue := Assoc.get Queue.reset s.queues q

/-- Change a queue. -/
def State.modQueue (s : State) (q : Nat) (f : Queue → Queue) : State :=
  { s with queues := Assoc.set s.queues q (f (s.queue q)) }

/-- A launch by number. -/
def State.launch (s : State) (n : Nat) : Option Launch := s.launches.find? (fun l => l.id == n)

/-- Change a launch. -/
def State.modLaunch (s : State) (n : Nat) (f : Launch → Launch) : State :=
  { s with launches := s.launches.map (fun l => if l.id = n then f l else l) }

/-- Change the record of a function. -/
def State.modFn (s : State) (f : Fin 256) (g : FnRec → FnRec) : State :=
  { s with fns := Assoc.set s.fns f.val (g (s.fnRec f)) }

/-- Take the next argument of a free value (log entry 8, DESIGN CHOICE). -/
def State.tick (s : State) : State := { s with freeCtr := s.freeCtr + 1 }

/-! ### Lost acknowledgements (11 R164) -/

/-- AKREC after one more loss: the count holds at 0xFFFF and then sets the overflow bit (R164). -/
def akrecNext (a : BitVec 17) : BitVec 17 := if a.setWidth 16 = BitVec.allOnes 16 then a ||| 0x10000 else a + 1

/-- A store of the context, or of a copy or collective whose completion it has observed (10 R147, R153). -/
def Context.owns (c : Context) (r : StoreRec) : Bool :=
  r.ctx == some c.uid || (match r.work with | some n => c.tags.observed.contains n | none => false)

/-- The context that a loss counts for: the storing one, or the thread that issued the copy or collective
(log entry 25, DEDUCED). -/
def State.counts (s : State) (c : Context) (r : StoreRec) : Bool :=
  c.owns r || (match r.work with
    | some n => s.copies.any (fun k => k.id == n && k.owner == some c.uid) || s.colls.any (fun k => k.id == n && k.owner == c.uid) ||
        c.tags.ended.any (fun e => e.2 == n)
    | none => false)

/-- A store whose acknowledgement is lost, applied or not: the storing die drops its own value, so that only an applied
one is visible, everywhere on that die (R164). -/
def StoreRec.loseNow (applied : Bool) (r : StoreRec) : StoreRec :=
  if applied then { r.applyNow with paths := BitVec.allOnes 5, lost := true, acked := false }
  else { r with bytes := [], paths := BitVec.allOnes 5, lost := true, acked := false }

/-- The storing die learns of the loss of the picked stores. -/
def State.lose (s : State) (pick : StoreRec → Bool) (applied : StoreRec → Bool) : State :=
  let hit := s.stores.filter (fun r => pick r && r.alive && !r.acked)
  let s1 := hit.foldl (fun s r => s.mapContexts (fun k =>
    if s.counts k r then { k with sys := { k.sys with akrec := akrecNext k.sys.akrec } } else k)) s
  s1.advance (fun r => pick r && r.alive && !r.acked) (fun r => r.loseNow (applied r))

/-- A picked cross-die store whose home cannot be reached is lost: its acknowledgement cannot arrive
(log entry 25, DEDUCED). -/
def State.loseUnreachable (s : State) (pick : StoreRec → Bool) : State :=
  if s.stores.any (fun r => pick r && r.home != r.die && r.alive && !r.acked && !s.reachable r.die r.home) then
    s.lose (fun r => pick r && r.home != r.die && !s.reachable r.die r.home) (fun r => r.applied)
  else s

/-! ### Scalar registers and issue slots (05 R71, R72; 01 R6; 12 R173) -/

/-- The newest result of a register is not yet readable in a slot. -/
def xEarly (l : List XPend) (r : XReg) (t : Nat) : Bool :=
  match l.find? (fun p => p.reg == r) with
  | some p => decide (t < p.ready)
  | none => false

/-- What a read of the register gives in a slot: from the newest result back, the value before each result that is not
readable yet. -/
def xBack : List XPend → XReg → Nat → Word → Word
  | [], _, _, v => v
  | p :: l, r, t, v => if p.reg = r then (if t < p.ready then xBack l r t p.old else v) else xBack l r t v

/-- Read a scalar register in the next scalar slot; x0 reads zero (log entry 7, DEDUCED). -/
def Context.rx (c : Context) (r : XReg) : Word :=
  if r = 0 then 0 else xBack c.clock.xp r c.clock.scalar c.x[r]

/-- The results pending after a register is written with latency `lat` in slot `t`; `old` is its value before. -/
def xPendWrite (l : List XPend) (r : XReg) (t lat : Nat) (old : Word) : List XPend :=
  if lat ≤ 1 then l.filter (fun p => p.reg != r)
  else ⟨r, old, t + lat⟩ :: (if xEarly l r t then l else l.filter (fun p => p.reg != r))

/-- Write a scalar register with a latency and set LDX; a write to x0 is discarded and still sets LDX. An interlocked
result has latency 0 (log entry 7, DEDUCED). -/
def Context.wx (c : Context) (r : XReg) (v : Word) (lat : Nat) : Context :=
  if r = 0 then { c with ldx := r }
  else { c with
    ldx := r
    x := c.x.set r.val v r.isLt
    xpoison := c.xpoison &&& ~~~(1#32 <<< r.val)
    clock := { c.clock with xp := xPendWrite c.clock.xp r c.clock.scalar lat c.x[r] } }

/-- The scalar stream issues one instruction with stall count `st` and goes on `len` bytes further
(log entry 7, DEDUCED). -/
def Context.done (c : Context) (st len : Nat) : Context :=
  { c with pc := c.pc + BitVec.ofNat 64 len, clock := { c.clock with scalar := c.clock.scalar + 1 + st } }

/-- As `done`, but the stream goes on at another address. -/
def Context.jump (c : Context) (target : Word) : Context :=
  { c with pc := target, clock := { c.clock with scalar := c.clock.scalar + 1 } }

/-- The instruction completes: the next state with the context advanced by `len` bytes. -/
def State.finish (s : State) (len : Nat := 4) : Out := .next (s.modMe (fun c => c.done 0 len))

/-! ### Lane groups (05 R83; 02 R26, R27, R31; 26 R341, R342) -/

/-- The lane groups a slot owns, as a set. -/
def ownedGroups (lp : Vector LaneGroup 8) (slot : Fin 4) : BitVec 8 :=
  (List.range 8).foldl (fun acc k => match lp[k]? with
    | some g => if g.owned && g.owner == slot then acc ||| (1#8 <<< k) else acc
    | none => acc) 0

/-- A slot of a cluster is held by a thread. -/
def Cluster.resident (c : Cluster) (slot : Fin 4) : Bool := (c.slots[slot]).isSome

/-- A group of a thread that exits (R342), or is swapped out when `swap` (R83). -/
def laneLeave (c : Cluster) (slot : Fin 4) (swap : Bool) (g : LaneGroup) : LaneGroup :=
  if g.owned && g.owner == slot then
    if g.move then ⟨true, g.next, g.next, 0, false⟩
    else if !swap && g.heir != slot && c.resident g.heir then { g with owner := g.heir }
    else LaneGroup.free
  else if g.owned then
    let g1 := if g.heir = slot then { g with heir := g.owner } else g
    if g1.move && g1.next == slot then { g1 with move := false, next := 0 } else g1
  else g

/-- LPART after a thread leaves its slot. -/
def Cluster.lanesLeave (c : Cluster) (slot : Fin 4) (swap : Bool) : Cluster :=
  { c with lpart := c.lpart.map (laneLeave c slot swap) }

/-! ### Group records (02 R16, 08 R125) -/

/-- A phase that every expected member has reached or left completes, and the next opens with the current members
(log entry 10, DEDUCED). -/
def GroupRec.settle (g : GroupRec) : GroupRec :=
  if g.arrived = g.expected then { g with phase := g.phase + 1, expected := g.count, arrived := 0 } else g

/-- The member has arrived in the open phase. -/
def Membership.arrivedIn (m : Membership) (g : GroupRec) : Bool := m.last == some g.phase

/-- The member is expected in the open phase. -/
def Membership.expectedIn (m : Membership) (g : GroupRec) : Bool := decide (m.since ≤ g.phase)

/-- A member leaves a group; the last one dissolves it (log entry 10, DEDUCED). -/
def State.leaveGroup (s : State) (m : Membership) : State :=
  if Assoc.has s.groups m.gid then
    let g := Assoc.get ⟨0, 0, 0, 0⟩ s.groups m.gid
    let g1 := { g with count := g.count - 1
                       expected := if m.expectedIn g && !m.arrivedIn g then g.expected - 1 else g.expected }
    if g1.count = 0 then { s with groups := Assoc.erase s.groups m.gid }
    else { s with groups := Assoc.set s.groups m.gid g1.settle }
  else s

/-! ### Leaving a slot (02 R31, 18 R303) -/

/-- The slot and lane groups of a thread, or the Bureau's place, are freed; `swap` for a context that will resume. -/
def State.freeSlot (s : State) (c : Context) (swap : Bool) : State :=
  match c.kind with
  | .thread =>
    s.modCluster c.cl (fun k =>
      let k1 := k.lanesLeave c.slot swap
      { k1 with slots := k1.slots.set c.slot.val none c.slot.isLt })
  | .bureau => s

/-- The context holds its slot. -/
def Context.resident (c : Context) : Bool := c.status == .running || c.status == .waitingPage

/-- The flags a context holds published with a register group (02 R24). -/
def State.published (s : State) (c : Context) : List (Fin 32) :=
  (List.finRange 32).filter (fun k =>
    let f := ((s.clusters[c.cl]).hf)[k]
    f.full && f.grp && f.setter == some c.uid && c.kind == .thread)

/-- A context retires: it leaves its groups and frees its slot (R31). -/
def State.retire (s : State) (c : Context) : State :=
  let s1 := c.members.foldl State.leaveGroup s
  if c.kind = .thread ∧ c.resident then s1.freeSlot c false else s1

/-! ### Ending a launch (05 R79, 13 R201, 07 R110) -/

/-- A queue stops with a reason and a SEQ (log entry 16, DEDUCED). -/
def State.stopQueue (s : State) (q : Nat) (reason : BitVec 4) (seq : BitVec 32) : State :=
  s.modQueue q (fun k => { k with stop := true, reason := reason, sseq := seq })

/-- Members of a launch that were never placed leave its group. -/
def State.dropUnplaced (s : State) (l : Launch) : State :=
  if Assoc.has s.groups l.gid then
    let g := Assoc.get ⟨0, 0, 0, 0⟩ s.groups l.gid
    let n := l.pk.t - l.next
    let g1 := { g with count := g.count - n, expected := g.expected - n }
    if g1.count = 0 then { s with groups := Assoc.erase s.groups l.gid }
    else { s with groups := Assoc.set s.groups l.gid g1.settle }
  else s

/-- The context retires because its launch ends (log entry 12, DEDUCED). -/
def Context.endNow (c : Context) : Context := { c with status := .exited, members := [], lreq := none, vq := [] }

/-- The matrix queues of a launch's Bureaus are emptied. -/
def State.emptyMq (s : State) (n : Nat) : State :=
  { s with clusters := s.clusters.map (fun c =>
      if s.contexts.any (fun b => c.bureau == some b.uid && b.launch == n) then { c with mq := [] } else c) }

/-- A launch ends, unless it has: each of its contexts retires, no further thread is placed, and its queue stops with the reason
(log entry 12, DEDUCED). -/
def State.endLaunch (s : State) (n : Nat) (reason : BitVec 4) : State :=
  match s.launch n with
  | none => s.modMe (fun c => if c.launch = n then c.endNow else c)
  | some l =>
    if l.stage = .ended then s
    else
      let s1 := ((s.contexts.filter (fun c => c.launch == n && c.status != .exited)).foldl State.retire s).emptyMq n
      let s2 := s1.mapContexts (fun c => if c.launch = n then c.endNow else c)
      let s3 := if l.stage = .accepted then s2.dropUnplaced l else s2
      (s3.modLaunch n (fun k => { k with stage := .ended })).stopQueue l.queue reason l.seq

/-! ### Traps (05 R79, R80; 13 R201; 18 R294 to R297) -/

/-- The code of a cause (05 R80). -/
def Cause.code : Cause → BitVec 5
  | .ill => 1 | .unimpl => 2 | .stall => 3 | .page => 4 | .prot => 5 | .align => 6 | .vtype => 7 | .grave => 8
  | .plate => 9 | .shape => 10 | .handoff => 11 | .ackloss => 12 | .cfi => 13 | .poison => 14 | .soft => 15 | .queue => 16

/-- The context takes a trap: EPC, CAUSE and TVAL are written, LDX and LDV saved, the handling mark set, and the stream
goes on at TVEC; a VFETCH in progress is set aside with its VP program counters (log entry 13, DEDUCED). -/
def Context.enterTrap (c : Context) (k : Cause) (epc tval : Word) : Context :=
  { c with
    pc := c.trap.tvec
    trap := { c.trap with epc := epc, blk := c.vec.blk.any (fun b => b.grp.isSome), code := k.code, tval := tval,
                          handling := true, ldx := c.ldx, ldv := c.vec.ldv }
    vec := { c.vec with blk := c.vec.blk.map (fun b => { b with grp := none, held := true }) }
    ahead := []
    quota := none
    probed := []
    clock := { c.clock with scalar := c.clock.scalar + 1 } }

/-- Deliver a trap of the context in focus with its EPC: to TVEC, or, with TVEC = 0 or while a trap is being handled,
firmware ends the launch (13 R201). -/
def State.deliverAt (s : State) (k : Cause) (epc tval : Word) : State :=
  if s.me.trap.tvec = 0 ∨ s.me.trap.handling then s.endLaunch s.me.launch 2
  else s.modMe (fun c => c.enterTrap k epc tval)

/-- Take a trap at the instruction in focus. -/
def trap (k : Cause) (tval : Word) (s : State) : Out := .next (s.deliverAt k s.me.pc tval)

/-- The instruction word at the pc, for TVAL of ILL and UNIMPL: zero-extended, a compact word in bits [15:0]. -/
def State.insWord (s : State) : Word :=
  let pc := match s.me.vec.blk with
    | some b => if b.grp.isSome then b.cur else s.me.pc
    | none => s.me.pc
  match s.fetchCode s.me pc with
  | .ok c => c.bits.setWidth 64
  | .error _ => 0

/-- Trap ILL with the instruction word. -/
def trapIll (s : State) : Out := trap .ill s.insWord s

/-- Trap VTYPE with VTYPE. -/
def trapVtype (s : State) : Out := trap .vtype (s.me.vec.vtype.setWidth 64) s

/-- A poisoned datum is recorded in the die's error log and raised to the host before the trap (18 R295)
(log entry 24, DESIGN CHOICE). -/
def State.logPoison (s : State) (va : Word) : State :=
  match s.xlate s.me.party .load va with
  | .ok m => { s.modDie s.me.die (fun d => { d with errlog := d.errlog ++ [m.key] }) with
               notes := s.notes ++ [.poisoned s.me.fn m.key] }
  | .error _ => { s with notes := s.notes ++ [.poisoned s.me.fn va.toNat] }

/-- A thread leaves its slot to resume later: its stores are acknowledged first, a pending LREQ is cancelled, credits
restart, its vector issue queue is discarded, and nothing it had fetched or pending survives (18 R303, 05 R83) (log entry 60, DEDUCED). -/
def State.swapOut (s : State) (c : Context) (st : CtxStatus) : State :=
  let mine := fun r : StoreRec => r.ctx == some c.uid
  let s1 := (s.loseUnreachable mine).drainAll mine
  (s1.freeSlot c true).modContext c.uid (fun d =>
    { d with status := st, lreq := none, credits := Vector.replicate 5 0, vq := [], fetched := [],
             ahead := [], quota := none, probed := [], clock := Clock.start,
             vec := { d.vec with blk := d.vec.blk.map (fun b => { b with grp := none }) } })

/-- PAGE goes to firmware (18 R297): a page request is posted, with the TVAL of a "fail"; a thread is swapped out unless it holds a
published group, and a Bureau or such a thread waits in its place (log entry 60, DEDUCED). -/
def State.pageFault (s : State) (va : Word) (acc : Access) (tval : Word) : State :=
  let s1 : State := { s with
    pageReqs := s.pageReqs ++ [⟨s.nextId, s.me.fn, va, acc, tval, some s.me.uid, none⟩]
    nextId := s.nextId + 1 }
  if s.me.kind = .bureau ∨ s.published s.me ≠ [] then
    s1.modMe (fun c => { c with status := .waitingPage, probed := [], vec := { c.vec with blk := c.vec.blk.map (fun b => { b with grp := none }) } })
  else s1.swapOut s1.me .outForPage

/-- A fault of an access of the context in focus at an address, where TVAL names another: that of the element or the descriptor it
is part of (15 R240, R254). -/
def faultOf (k : Cause) (va tval : Word) (acc : Access) (s : State) : Out :=
  match k with
  | .page => .next (s.pageFault va acc tval)
  | .poison => .next ((s.logPoison va).deliverAt .poison s.me.pc tval)
  | _ => trap k tval s

/-- A fault of an access of the context in focus at an address. -/
def faultAt (k : Cause) (va : Word) (acc : Access) (s : State) : Out := faultOf k va va acc s

/-- Return from a trap (13 R201): PC := EPC, LDX and LDV are restored, the handling mark is cleared. A VFETCH set aside at
this EPC resumes from its VP program counters (02 R21) (log entry 13, DEDUCED). -/
def Context.leaveTrap (c : Context) : Context :=
  { c with
    pc := c.trap.epc
    ldx := c.trap.ldx
    vec := { c.vec with
      ldv := c.trap.ldv
      blk := match c.vec.blk with
        | some b => if b.held && b.addr == c.trap.epc then some { b with held := false } else none
        | none => none }
    trap := { c.trap with handling := false }
    clock := { c.clock with scalar := c.clock.scalar + 1 } }

/-! ### Checks before an instruction's own conditions (12 R185, R186) -/

/-- ILL on the Bureau (R185). -/
def threadOnly (s : State) (k : Out) : Out := if s.me.kind = .bureau then trapIll s else k

/-- ILL on a control thread (R185). -/
def bureauOnly (s : State) (k : Out) : Out := if s.me.kind = .thread then trapIll s else k

/-- The first of the scalar sources that SBCHK = 1 finds read early (log entry 7, DEDUCED). -/
def State.stalledX (s : State) (rs : List XReg) : Option XReg :=
  if s.me.sys.sbchk then rs.find? (fun r => r != 0 && xEarly s.me.clock.xp r s.me.clock.scalar) else none

/-- A poisoned datum of a register, a latch or the Chest is recorded and raised; it has no address, so the log entry holds a
free value (06 R96) (log entry 24, DESIGN CHOICE). -/
def State.logDatum (s : State) : State :=
  let a := Config.registerAddress s.freeCtr
  ({ s.tick with notes := s.notes ++ [HostNote.poisoned s.me.fn a.toNat] } : State).modDie s.me.die (fun d =>
    { d with errlog := d.errlog ++ [a.toNat] })

/-- POISON for a poisoned register or Chest pair; TVAL holds the free value of the log entry (06 R96)
(log entry 24, DESIGN CHOICE). -/
def poisonReg (s : State) : Out :=
  .next (s.logDatum.deliverAt .poison s.me.pc (Config.registerAddress s.freeCtr))

/-- STALL when a scalar source is read early under SBCHK = 1 (12 R173): TVAL holds kind 0 and the register. POISON when a
source is poisoned. -/
def readsX (rs : List XReg) (s : State) (k : Out) : Out :=
  match s.stalledX rs with
  | some r => trap .stall (BitVec.ofNat 64 r.val) s
  | none => if rs.any (fun r => s.me.xpoison.getLsbD r.val) then poisonReg s else k

/-- The value a scalar source register gives the instruction in focus. -/
def State.rx (s : State) (r : XReg) : Word := s.me.rx r

/-- A scalar instruction that reads `rs` and writes `v` to xd with latency `lat` and stall count `st`. -/
def alu (rs : List XReg) (d : XReg) (v : Word) (lat st len : Nat) (s : State) : Out :=
  readsX rs s (.next (s.modMe (fun c => (c.wx d v lat).done st len)))

end Sys2Proof.Machine
end

