-- ==== Sys2Proof/Machine/Fetch.lean ====
section
/-! DEFINITION. What surrounds an instruction: budget holds, the code at the pc, fetching ahead, idle slots, and the
loading of one instruction from outside. -/

namespace Sys2Proof.Machine

/-- An activity whose used count has reached the limit of any budget is held (09 R129) (log entry 9, DEDUCED). -/
def Budget.holds (b : Budget) : Bool :=
  (List.finRange 4).any (fun i => b.lim[i] != 0xFFFFFFFF && decide (b.lim[i].toNat ≤ b.used[i].toNat))

/-- The number of an engine class on its die. -/
def engineIdx : EngineClass → Fin 4
  | .thread => 0 | .matrix => 1 | .copy => 2 | .collective => 3

/-- The launch context of a context is held, or its tenant, or its engine class (09 R128, R129)
(log entry 9, DEDUCED). -/
def State.held (s : State) (c : Context) : Bool :=
  (match s.launch c.launch with | some l => l.budget.holds | none => false) || (s.fnRec c.fn).tenant.holds ||
    ((s.dies[c.die]).engines[engineIdx (if c.kind = .thread then .thread else .matrix)]).holds

/-- The context in focus issues an instruction at the next step. -/
def State.runnable (s : State) : Bool := s.me.status == .running && !s.held s.me

/-- A VFETCH block of the context in focus is in progress (log entry 13, DEDUCED). -/
def State.inBlock (s : State) : Bool := s.me.vec.blk.any (fun b => !b.held)

/-- The code at the pc of the context in focus (12 R168). -/
def State.code (s : State) : Except (Cause × Word) Code := s.fetchCode s.me s.me.pc

/-- A fetch fault: the trap of its cause, with TVAL the address of the halfword that failed (12 R168). -/
def fetchFault (k : Cause) (va : Word) (s : State) : Out := faultAt k va .fetch s

/-- The context in focus fetches a halfword ahead (13 R203); a page marked NS, a fault or a second copy fetches nothing
(08 R121) (log entry 59, DEDUCED). -/
def State.prefetch (s : State) (va : Word) : State :=
  if s.me.fetched.any (fun p => p.1 == va.toNat) then s
  else
    match s.xlate s.me.party .fetch va with
    | .error _ => s
    | .ok m =>
      if m.ns then s
      else
        match s.fetchHalf s.me va with
        | .error _ => s
        | .ok h => s.modMe (fun c => { c with fetched := c.fetched ++ [(va.toNat, h)] })

/-- Slots pass in which the streams of the context in focus issue nothing (12 R173). -/
def State.idleSlots (s : State) (n : Nat) : State :=
  s.modMe (fun c => { c with clock := { c.clock with scalar := c.clock.scalar + n, vector := c.clock.vector + n } })

/-- The pc from which the next halfword is fetched: the pc, or that of the issue group about to run
(log entry 4, DESIGN CHOICE). -/
def State.canFetch (s : State) : Bool :=
  match s.xlate s.me.party .fetch s.me.pc with
  | .ok m => s.runnable && s.me.pc.getLsbD 0 == false && !s.anyPoison m.key 4 && s.reachable s.me.die (homeOf m.key) &&
      decide (s.me.pc.toNat % 0x10000 ≤ 0xFFFC)
  | .error _ => false

/-- The launch that a load from outside stands for: one thread, all eight lane groups, one segment (log entry 4, DESIGN CHOICE). -/
def probePacket : Packet where
  entry := 0x10000
  bureau := 0
  n := 0
  mask := 1
  t := 1
  energy := 0
  g0 := 8
  gmax := 8
  gmin := 1
  cosched := false
  hatch := 0
  segs := 1
  args := Vector.replicate 8 0

/-- The cells of one page entry. -/
def entryCells (at_ e : Nat) : List Host.Cell := (List.range 8).zipWith (fun i b => (at_ + i, b)) (toBytes 8 e)

/-- The page tables of the load from outside, in D0's memory: code page 0x1_0000 at physical 0x5_0000, key slot 1
(log entry 4, DESIGN CHOICE). -/
def probeTables : List Host.Cell :=
  entryCells 0x20000 0x30001 ++ entryCells 0x30000 0x40001 ++ entryCells 0x40008 (2 ^ 52 + 0x5001F)

/-- One thread of a new launch of function 1 is placed on slot 0 of cluster 0, as a load of one program from outside
would leave it (02 R14; log entry 4, DESIGN CHOICE). -/
def State.placeProbe (s : State) : State :=
  let n := s.nextId
  let l : Launch := ⟨n, 0, 1, 1, 0, probePacket, .accepted, n, 0, 1, some 0, 0, [], [], 0, Budget.reset, false, []⟩
  let c : Context := { Context.start (n + 1) .thread 0 0 with
    launch := n
    fn := 1
    pc := 0x10000
    x := (Vector.replicate 32 0).set 12 1
    sys := ⟨0, false, 1, 0⟩
    groups := 0xFF
    members := [⟨0, 0, none⟩] }
  let s1 : State := { s with
    sched := []
    me := c
    others := s.me :: s.others
    launches := s.launches ++ [l]
    groups := Assoc.set s.groups 0 ⟨1, 0, 1, 0⟩
    keys := s.keys ++ [⟨1, 1, 0, 0⟩]
    mem := Memory.setAll s.mem probeTables
    nextId := n + 2 }
  (s1.modFn 1 (fun f => { f with clusters := 1, sps := Assoc.set f.sps 0 ⟨0x20000, 0, 0, true, []⟩ })).modCluster 0 (fun k =>
    { k with lpart := Vector.replicate 8 ⟨true, 0, 0, 0, false⟩, slots := k.slots.set 0 (some (n + 1)),
             segs := k.segs.set 0 (some n) })

/-- The bytes of an instruction stored where the next instruction is fetched (log entry 4, DESIGN CHOICE). -/
def State.loadCode (s : State) (bs : List Byte) : State :=
  match s.xlate s.me.party .fetch s.me.pc with
  | .ok m =>
    { s.pokeKey m.ki m.key bs with
      sched := []
      me := { s.me with fetched := [], vec := { s.me.vec with blk := none } } }
  | .error _ => s

end Sys2Proof.Machine
end

