-- ==== Sys2Proof/Machine/Access.lean ====
section
/-! DEFINITION. What an access or a fence does to the stores before it: lost acknowledgements (11 R164, R165), fences,
releases (10 R147, R149), the order of accesses (10 R141 to R145; 11 R160), and single loads, stores and atomics of a context. -/

namespace Sys2Proof.Machine

/-! ### Lost acknowledgements -/

/-- The ack-lost stores that stop an instruction: those of either mode, or only the globally acknowledged ones. -/
def lostFor (c : Context) (all : Bool) (r : StoreRec) : Bool :=
  c.owns r && r.lost && !r.reported && (all || r.mode == .glob)

/-- Every ack-lost store of the context is marked reported (R165) (log entry 25, DEDUCED). -/
def State.reportLost (s : State) : State :=
  let mark := fun r : StoreRec => if s.me.owns r && r.lost then { r with reported := true } else r
  { s with stores := (s.stores.map mark).filter StoreRec.live }

/-- TVAL of ACKLOSS: the address of the earliest unreported ack-lost store in program order (R165). -/
def State.firstLost (s : State) : Word :=
  let l := s.stores.filter (lostFor s.me true)
  match l.foldl (fun (b : Option StoreRec) r => match b with
    | some q => if r.id < q.id then some r else some q
    | none => some r) none with
  | some r => r.va
  | none => 0

/-- ACKLOSS when an ack-lost store of the kind holds the instruction (R165) (log entry 25, DEDUCED). -/
def ackloss (all : Bool) (s : State) (k : State → Out) : Out :=
  if s.stores.any (lostFor s.me all) then .next (s.reportLost.deliverAt .ackloss s.me.pc s.firstLost) else k s

/-! ### Fences and releases -/

/-- Scope P or S. -/
def wideScope : Scope → Bool
  | .p | .s => true
  | _ => false

/-- The context has not yet made a read on P2: a GATH or MMAG of its matrix queue has not started (10 R138, R141). -/
def State.p2Waits (s : State) : Bool :=
  s.me.kind == .bureau && (s.clusters[s.me.cl]).mq.any (fun e => e.run.isNone && (match e.op with
    | .gath _ | .mmag _ => true
    | .gr _ _ | .rg _ _ | .mzero _ => false))

/-- No load of the context that was performed ahead stands for one after this point. -/
def Context.acquire (on : Path → Bool) (c : Context) : Context := { c with ahead := c.ahead.filter (fun a => !on a.path) }

/-- An acquire on a set of paths (10 R149, R150): no load performed ahead on them stands for one after it. -/
def State.acquire (s : State) (on : Path → Bool) : State := s.modMe (Context.acquire on)

/-- An acquire on every path, as one that completes a wait. -/
def State.acquireAll (s : State) : State := s.acquire (fun _ => true)

/-- Every earlier store of the context performs at the scope, and at P and S every store its loads have read (10 R147,
11 R162). -/
def State.fenceAt (s : State) (sc : Scope) : State :=
  if wideScope sc then
    let s1 := s.drainAll (fun r => s.me.owns r || s.me.seen.any (fun e => e.1 == r.id))
    s1.modMe (fun c => { c with seen := [], ahead := [] })
  else (s.drainDie s.me.owns).acquireAll

/-- Run what follows a full fence at a scope once every earlier access has performed, or trap ACKLOSS
(log entry 25, DEDUCED). -/
def fenced (sc : Scope) (s : State) (k : State → Out) : Out :=
  if s.p2Waits then .next s
  else
    let s1 := s.loseUnreachable (fun r => s.me.owns r && (wideScope sc || r.mode != .early))
    ackloss (wideScope sc) s1 (fun s => k (s.fenceAt sc))

/-- The stores that a release on a set of paths covers: the context's own on these paths, and those of copies and collectives whose
completion it has observed, which count on each of its paths (10 R149, R153). -/
def Context.releases (c : Context) (on : Path → Bool) (r : StoreRec) : Bool := c.owns r && (r.ctx != some c.uid || on r.path)

/-- A release at a scope on a set of paths: earlier stores of the context on these paths have performed on their path in
the scope; at P and S every store that its loads on these paths have read has performed there (10 R149; 11 R162). -/
def State.release (s : State) (sc : Scope) (on : Path → Bool) : State :=
  let mine := s.me.releases on
  if wideScope sc then
    ((s.loseUnreachable mine).drainPath mine).drainAll (fun r => s.me.seen.any (fun e => e.1 == r.id && on e.2))
  else s.perform mine

/-- An instruction whose release makes it wait for globally acknowledged stores of the context traps ACKLOSS when one is
lost (R165); then it releases, once a Bureau's reads on P2 have performed. -/
def releasing (sc : Scope) (on : Path → Bool) (s : State) (k : State → Out) : Out :=
  if on .p2 && s.p2Waits then .next s
  else
    let s1 := s.loseUnreachable (fun r => s.me.owns r && r.mode != .early)
    ackloss false s1 (fun s => k (s.release sc on))

/-! ### The order of accesses (10 R141 to R145; 11 R160) -/

/-- The store touches one of the keys. -/
def StoreRec.touches (r : StoreRec) (ks : List (Nat × Nat)) : Bool :=
  r.bytes.any (fun c => ks.any (fun k => decide (k.1 ≤ c.1) && decide (c.1 < k.1 + k.2)))

/-- A later access of the context on path `p`, in class `cls`, to the keys is ordered after the store. -/
def Context.orders (c : Context) (p : Path) (cls : Cls) (ks : List (Nat × Nat)) (r : StoreRec) : Bool :=
  r.ctx == some c.uid &&
    (if r.path = p then r.cls == cls || r.touches ks
     else (p == .p1 && r.path == .p0 || p == .p0 && r.path == .p1 && !r.y) && r.touches ks)

/-- The stores of the context that perform at their home and that R141 orders before an access. -/
def State.homeBefore (s : State) (p : Path) (cls : Cls) (ks : List (Nat × Nat)) (r : StoreRec) : Bool :=
  r.mode != .early && s.me.orders p cls ks r

/-- They are applied (R160). -/
def State.orderHome (s : State) (p : Path) (cls : Cls) (ks : List (Nat × Nat)) : State :=
  (s.loseUnreachable (s.homeBefore p cls ks)).drainGlob (s.homeBefore p cls ks)

/-- Before an access, each globally acknowledged store of the context that R141 orders before it is applied; a lost one
traps ACKLOSS (R160, R165). -/
def ordered (p : Path) (cls : Cls) (ks : List (Nat × Nat)) (s : State) (k : State → Out) : Out :=
  let s1 := s.loseUnreachable (s.homeBefore p cls ks)
  if s1.stores.any (fun r => s.homeBefore p cls ks r && r.mode == .glob && r.lost && !r.reported) then
    .next (s1.reportLost.deliverAt .ackloss s1.me.pc s1.firstLost)
  else k (s1.drainGlob (s.homeBefore p cls ks))

/-- Before a load, each early-forwarding store of the context that R141 or R145 orders before it performs; one on the thread's other
path is then visible to the load's path, to every context of the die at once (R139, R145) (log entry 26, DEDUCED). -/
def State.orderLoad (s : State) (p : Path) (cls : Cls) (ks : List (Nat × Nat)) : State :=
  let mine := fun r : StoreRec => r.mode == .early && s.me.orders p cls ks r
  (s.perform mine).coverPaths (1#5 <<< pathIdx p) (fun r => mine r && r.path != p)

/-- The keys hold the key. -/
def inKeys (ks : List (Nat × Nat)) (k : Nat) : Bool := ks.any (fun e => decide (e.1 ≤ k) && decide (k < e.1 + e.2))

/-- A load performed ahead stands for one after an access: the access does not come before it by R141 or R145. -/
def Ahead.stays (p : Path) (cls : Cls) (y : Bool) (ks : List (Nat × Nat)) (a : Ahead) : Bool :=
  !(if a.path = p then a.cls == cls || inKeys ks a.key
    else decide (pathIdx p ≤ 1) && decide (pathIdx a.path ≤ 1) && !y && inKeys ks a.key)

/-- The context has made an access, Y set or not (10 R141, R145). -/
def State.passed (s : State) (p : Path) (cls : Cls) (y : Bool) (ks : List (Nat × Nat)) : State :=
  s.modMe (fun c => { c with ahead := c.ahead.filter (Ahead.stays p cls y ks) })

/-- The keys of a translated range. -/
def keysOf (ms : List (Mapped × Nat)) : List (Nat × Nat) := ms.map (fun p => (p.1.key, p.2))

/-! ### Loads -/

/-- The stores that a load of these keys reads and that have not performed at scope P, for R162. -/
def State.readStores (s : State) (o : Observer) (ks : List (Nat × Nat)) : List Nat :=
  (s.stores.filter (fun r => r.visible o && !r.everywhere && r.touches ks)).map (fun r => r.id)

/-- The context notes the stores it has read, with the path of the load. -/
def State.noteRead (s : State) (o : Observer) (ks : List (Nat × Nat)) : State :=
  match s.readStores o ks with
  | [] => s
  | l => s.modMe (fun c => { c with seen := c.seen ++ (l.map (fun n => (n, o.path))).filter (fun e => !c.seen.contains e) })

/-- The byte that a load of the context on a path, in a class, has bound ahead of its instruction. -/
def Context.bound (c : Context) (p : Path) (cls : Cls) (k : Nat) : Option Byte :=
  (c.ahead.find? (fun a => a.path == p && a.cls == cls && a.key == k)).map (fun a => a.byte)

/-- What a load of the context in focus finds in memory. -/
def State.loadLook (s : State) (p : Path) (cls : Cls) (m : Mapped) (k : Nat) : Byte :=
  (s.me.bound p cls k).getD (s.look (s.me.obs p) m k)

/-- The bytes that a load of the context in focus reads. -/
def State.loadParts (s : State) (p : Path) (cls : Cls) (ms : List (Mapped × Nat)) : List Byte :=
  ms.flatMap (fun q => (List.range q.2).map (fun i => s.plain q.1.ki (s.loadLook p cls q.1) (q.1.key + i)))

/-- Order a load's accesses after the context's earlier ones, and go on with its bytes. -/
def loadFrom (p : Path) (cls : Cls) (ms : List (Mapped × Nat)) (s : State) (k : List Byte → State → Out) : Out :=
  ordered p cls (keysOf ms) s fun s =>
    let s1 := s.orderLoad p cls (keysOf ms)
    k (s1.loadParts p cls ms) ((s1.noteRead (s1.me.obs p) (keysOf ms)).passed p cls false (keysOf ms))

/-- The context in focus performs a load of `n` bytes ahead of its instruction, on P0 or P1 (10 R142, R144): what comes before it is
ordered before it; a fault, a page marked NS (08 R121) or poison makes no access (log entry 26, DEDUCED). -/
def State.loadAhead (s : State) (p : Path) (cls : Cls) (va : Word) (n : Nat) : State :=
  if pathIdx p > 1 ∨ s.me.status ≠ .running then s
  else
    match s.xlateRange s.me.party .load va (min n 64) with
    | .error _ => s
    | .ok ms =>
      if (s.badByte s.me.die ms).isSome || ms.any (fun q => q.1.ns) ||
          s.stores.any (fun r => s.homeBefore p cls (keysOf ms) r && !r.applied) then s
      else
        let s1 := s.orderLoad p cls (keysOf ms)
        let got := ms.flatMap (fun q => (List.range q.2).map (fun i =>
          (⟨p, cls, q.1.key + i, s1.loadLook p cls q.1 (q.1.key + i)⟩ : Ahead)))
        (s1.noteRead (s1.me.obs p) (keysOf ms)).modMe (fun c =>
          { c with ahead := c.ahead ++ got.filter (fun a => (c.bound p cls a.key).isNone) })

/-- The high bits of an address are checked before any other property of it (08 R119): PROT, then ALIGN. -/
def badAddress (va : Word) (align : Nat) : Option Cause :=
  if field va.toNat 55 9 ≠ 0 then some .prot else if va.toNat % align ≠ 0 then some .align else none

/-- Load `n` bytes on a path in a class, whatever their alignment, and go on with the bytes. -/
def rangeOn (p : Path) (cls : Cls) (va : Word) (n : Nat) (s : State) (k : List Byte → State → Out) : Out :=
  match s.xlateRange s.me.party .load va n with
  | .error (c, a) => faultAt c a .load s
  | .ok ms =>
    match s.badByte s.me.die ms with
    | some i => faultAt .poison (va + BitVec.ofNat 64 i) .load s
    | none =>
      loadFrom p cls ms s k

/-- Load `n` bytes at an aligned address on a path in a class, and go on with the bytes. -/
def loadOn (p : Path) (cls : Cls) (va : Word) (n : Nat) (s : State) (k : List Byte → State → Out) : Out :=
  match badAddress va n with
  | some c => trap c va s
  | none => rangeOn p cls va n s k

/-- Store bytes at an aligned address on a path in a class and mode. -/
def storeOn (p : Path) (cls : Cls) (mode : StoreMode) (va : Word) (bs : List Byte) (s : State) (k : State → Out) : Out :=
  match badAddress va bs.length with
  | some c => trap c va s
  | none =>
    match s.probeStore s.me.party va bs.length with
    | .error (c, a) => faultAt c a .store s
    | .ok ms =>
      ordered p cls (keysOf ms) s fun s =>
        k ((s.storeParts (some s.me.uid) s.me.fn s.me.die p cls false va mode none none ms bs).passed p cls false (keysOf ms))

/-! ### Atomics (10 R151, R152; 13 R195, R196) -/

/-- Probe an atomic of `n` bytes: alignment, a page that allows stores and is no host window, and a datum that is there.
`none` when it may be performed. -/
def State.atomicFault (s : State) (va : Word) (n : Nat) : Except (Cause × Access) Mapped :=
  match badAddress va n with
  | some c => .error (c, .store)
  | none =>
    match s.xlate s.me.party .store va with
    | .error c => .error (c, .store)
    | .ok m =>
      if isHostKey m.key then .error (.prot, .store)
      else if s.anyPoison m.key n || !(isPad m.key || s.reachable s.me.die (homeOf m.key)) then .error (.poison, .load)
      else .ok m

/-- Perform an atomic of `n` bytes on a path, near or far: read the latest applied bytes, write what `f` gives for them; the old value
is answered. -/
def State.atomicAt (s : State) (p : Path) (cls : Cls) (far : Bool) (va : Word) (m : Mapped) (n : Nat) (f : Nat → Nat) : Nat × State :=
  let s1 := s.applyFor s.me.die m.key n
  let old := ofBytes (s1.readHome m.ki m.key n)
  (old, s1.putAtomic (some s1.me.uid) s1.me.fn s1.me.die p cls va m.ki m.key (toBytes n (f old)) far)

/-- Before an atomic: it releases on its own path and the accesses before it perform (10 R150, R152); after it, it acquires. -/
def State.beforeAtomic (s : State) (p : Path) (sc : Scope) (cls : Cls) (ks : List (Nat × Nat)) : State :=
  let s1 := (s.release sc (fun q => q == p)).orderLoad p cls ks
  ((s1.noteRead (s1.me.obs p) ks).passed p cls false ks).acquire (fun q => q == p)

/-- An atomic of a context on P0 with scope: release, read and write, acquire (10 R150). -/
def atomicOn (sc : Scope) (cls : Cls) (far : Bool) (va : Word) (n : Nat) (f : Nat → Nat) (s : State) (k : Nat → State → Out) : Out :=
  match s.atomicFault va n with
  | .error (c, acc) => faultAt c va acc s
  | .ok m =>
    ordered .p0 cls [(m.key, n)] s fun s =>
      let r := (s.beforeAtomic .p0 sc cls [(m.key, n)]).atomicAt .p0 cls far va m n f
      k r.1 r.2

end Sys2Proof.Machine
end

