-- ==== Sys2Proof/Machine/SysRegs.lean ====
section
/-! DEFINITION. System registers (05 R78 to R86, 09 R136, R137): their words, reads and writes. -/

namespace Sys2Proof.Machine

/-! ### Words of composed registers -/

/-- Put a value at a bit position. -/
def putField (lo : Nat) (v : Nat) : Word := BitVec.ofNat 64 (v * 2 ^ lo)

/-- One byte of LPART (R83). -/
def LaneGroup.byte (g : LaneGroup) : Nat :=
  g.owner.val * 64 + g.heir.val * 16 + g.next.val * 4 + g.owned.toNat * 2 + g.move.toNat

/-- LPART (R83). -/
def lpartWord (l : Vector LaneGroup 8) : Word := BitVec.ofNat 64 (ofBytes (l.toList.map (fun g => BitVec.ofNat 8 g.byte)))

/-- A handoff flag as 64 bits (R84). -/
def HFlag.word (h : HFlag) : Word :=
  h.vtype ++ (h.vl ++ BitVec.ofNat 16 (h.base.val * 32 + h.pub.val * 4 + h.grp.toNat * 2 + h.full.toNat))

/-- SWAP, NX and NY, and PORTS, of a rotation (R86). -/
def orientOf : Nat → Nat × Nat
  | 0 => (0b000, 0xE4) | 1 => (0b101, 0x39) | 2 => (0b110, 0x4E) | _ => (0b011, 0x93)

/-- ORIENT of a die: CHROT [36:32]; NY, NX, SWAP [18:16]; PORTS [15:8]; DIE, QUAD, OUT, ROT below (R86). -/
def orientWord (die : Fin 8) : Word :=
  let q := die.val / 2
  let r := orientOf q
  BitVec.ofNat 64 (8 * q * 2 ^ 32 + r.1 * 2 ^ 16 + r.2 * 2 ^ 8 + die.val * 32 + q * 8 + die.val % 2 * 4 + q)

/-- CLID (R79). -/
def clidWord (c : Context) : Word :=
  match c.kind with
  | .thread => BitVec.ofNat 64 (c.cl.val % 8 + c.slot.val * 8)
  | .bureau => BitVec.ofNat 64 (c.cl.val % 8 + 32)

/-- CAUSE (R80). -/
def TrapRegs.causeWord (t : TrapRegs) : Word := BitVec.ofNat 64 (t.blk.toNat * 512 + t.code.toNat)

/-- The last destinations as LDREG (R79). -/
def ldregWord (c : Context) : Word :=
  BitVec.ofNat 64 (c.ldx.val + (match c.kind with | .thread => c.vec.ldv.val * 256 | .bureau => 0))

/-! ### Monitor slots -/

/-- The slot and offset of a monitor register number. -/
def monitorReg (n : Nat) : Option (Fin 4 × Nat) :=
  if n / 64 = 4 then some (⟨n / 16 % 4, Nat.mod_lt _ (by decide)⟩, n % 16) else none

/-- A monitor offset is assigned (R136). -/
def monitorHas (o : Nat) : Bool := decide (o ≤ 2) || (decide (4 ≤ o) && decide (o ≤ 11))

/-- The word of a monitor register; another launch reads zero (R137). -/
def Monitor.read (m : Monitor) (launch : Nat) (o : Nat) : Word :=
  if m.owner.any (fun l => l != launch) then 0
  else if o = 0 then m.ctl
  else if o = 1 then m.mmin
  else if o = 2 then m.mmax
  else
    let j := 2 * (o - 4)
    (m.bins[j + 1]?.getD 0) ++ (m.bins[j]?.getD 0)

/-- A write of MCTL that claims the slot: CLEAR reads 0 and resets the results; bits with no meaning stay zero
(log entry 27, DEDUCED). -/
def Monitor.claim (m : Monitor) (launch : Nat) (v : Word) : Monitor :=
  let m1 := if v.getLsbD 1 then { m with mmin := BitVec.allOnes 64, mmax := 0, bins := Vector.replicate 16 0 } else m
  { m1 with ctl := v &&& 0x71FF1, owner := some launch }

/-- The slot may be claimed by a launch (R137). -/
def Monitor.free (m : Monitor) (launch : Nat) : Bool := !m.ctl.getLsbD 0 || m.owner == some launch

/-- Write MCTL of slot k by the context in focus: claimed, or PROT with the register number (log entry 27, DEDUCED). -/
def writeMctl (k : Fin 4) (v : Word) (s : State) (next : State → State) : Out :=
  if (s.myCluster.mons[k]).free s.me.launch then
    .next (next (s.modCluster s.me.cl (fun c => { c with mons := c.mons.set k.val ((c.mons[k]).claim s.me.launch v) k.isLt })))
  else trap .prot (BitVec.ofNat 64 (0x100 + 16 * k.val)) s

/-! ### Reads and writes -/

/-- The register exists for the kind of context (R78). -/
def sysExists (kind : CtxKind) (n : Nat) : Bool :=
  decide (n ≤ 6) || (decide (0x10 ≤ n) && decide (n ≤ 0x16) && (kind == .thread || n != 0x14)) ||
    n == 0x25 || n == 0x26 || n == 0x40 || n == 0x41 ||
    (kind == .thread && ((decide (0x20 ≤ n) && decide (n ≤ 0x24)) || (decide (0x28 ≤ n) && decide (n ≤ 0x2C)))) ||
    (decide (0x80 ≤ n) && decide (n ≤ 0x9F)) || (match monitorReg n with | some (_, o) => monitorHas o | none => false)

/-- The value SRD gives of a register that exists. -/
def State.sysRead (s : State) (n : Nat) : Word :=
  let c := s.me
  match n with
  | 0x000 => s.fw.isaver.setWidth 64
  | 0x001 => Config.mmrev.setWidth 64
  | 0x002 => c.sys.mmrs.setWidth 64
  | 0x003 => BitVec.ofNat 64 c.sys.sbchk.toNat
  | 0x004 => match c.kind with | .thread => c.sys.share.setWidth 64 | .bureau => 0
  | 0x005 => clidWord c
  | 0x006 => BitVec.ofNat 64 (s.fw.dev.toNat * 4096 + c.die.val)
  | 0x010 => c.trap.tvec
  | 0x011 => c.trap.epc
  | 0x012 => c.trap.causeWord
  | 0x013 => c.trap.tval
  | 0x014 => c.trap.gfault.setWidth 64
  | 0x015 => c.trap.scratch
  | 0x016 => c.sys.akrec.setWidth 64
  | 0x020 => c.vec.rng
  | 0x021 => c.tags.ctags
  | 0x022 => c.vec.vtype.setWidth 64
  | 0x023 => c.vec.vl.setWidth 64
  | 0x024 => c.vec.vbeg.setWidth 64
  | 0x025 => c.flags.ff.setWidth 64
  | 0x026 => ldregWord c
  | 0x028 => (c.flags.fx[0]).setWidth 64
  | 0x029 => (c.flags.fx[1]).setWidth 64
  | 0x02A => (c.flags.fx[2]).setWidth 64
  | 0x02B => (c.flags.fx[3]).setWidth 64
  | 0x02C => (c.flags.fx[4]).setWidth 64
  | 0x040 => lpartWord s.myCluster.lpart
  | 0x041 => orientWord c.die
  | n => match monitorReg n with
    | some (k, o) => (s.myCluster.mons[k]).read c.launch o
    | none => (s.myCluster.hf[n - 0x80]?.getD HFlag.empty).word

/-- The register can be written by the context (R78); a monitor slot only at MCTL (R137). -/
def sysWritable (n : Nat) : Bool :=
  n == 2 || n == 3 || (decide (0x10 ≤ n) && decide (n ≤ 0x16)) || n == 0x20 || n == 0x24 || n == 0x25 || n == 0x26 ||
    (decide (0x28 ≤ n) && decide (n ≤ 0x2C)) || (match monitorReg n with | some (_, o) => o == 0 | none => false)

/-- Write FXIDX entry i. -/
def Context.setFx (c : Context) (i : Fin 5) (v : Word) : Context :=
  { c with flags := { c.flags with fx := c.flags.fx.set i.val (v.setWidth 32) i.isLt } }

/-- A context after SWR of a writable register that lies in it; reserved bits ignore the write (R79). -/
def Context.sysWrite (c : Context) (n : Nat) (v : Word) : Context :=
  match n with
  | 0x002 => { c with sys := { c.sys with mmrs := if (v.setWidth 4 : BitVec 4).ult 2 then v.setWidth 4 else 1 } }
  | 0x003 => { c with sys := { c.sys with sbchk := v.getLsbD 0 } }
  | 0x010 => { c with trap := { c.trap with tvec := v &&& ~~~1 } }
  | 0x011 => { c with trap := { c.trap with epc := v &&& ~~~1 } }
  | 0x012 => { c with trap := { c.trap with blk := v.getLsbD 9, code := v.setWidth 5 } }
  | 0x013 => { c with trap := { c.trap with tval := v } }
  | 0x014 => { c with trap := { c.trap with gfault := v.setWidth 20 } }
  | 0x015 => { c with trap := { c.trap with scratch := v } }
  | 0x016 => { c with sys := { c.sys with akrec := v.setWidth 17 } }
  | 0x020 => { c with vec := { c.vec with rng := v } }
  | 0x024 => { c with vec := { c.vec with vbeg := v.setWidth 32 } }
  | 0x025 => { c with flags := { c.flags with ff := v.setWidth 5 } }
  | 0x026 =>
    let c1 := { c with ldx := x5 (v.setWidth 5) }
    match c.kind with
    | .thread => { c1 with vec := { c.vec with ldv := x5 ((v >>> 8).setWidth 5) } }
    | .bureau => c1
  | 0x028 => c.setFx 0 v
  | 0x029 => c.setFx 1 v
  | 0x02A => c.setFx 2 v
  | 0x02B => c.setFx 3 v
  | 0x02C => c.setFx 4 v
  | _ => c

/-- An entry of the matrix queue names a handoff flag. -/
def MatEntry.flag (e : MatEntry) : Option (Fin 32) :=
  match e.op with
  | .gr _ c | .rg _ c | .mmag c => some c.h
  | .gath _ | .mzero _ => none

/-- An earlier instruction of the context that changes the register has not completed: a queued matrix instruction changes
FFLAGS and its flag (R78) (log entry 27, DEDUCED). -/
def State.sysBusy (s : State) (n : Nat) : Bool :=
  s.me.kind == .bureau &&
    ((n == 0x25 && !s.myCluster.mq.isEmpty) || s.myCluster.mq.any (fun e => e.flag.any (fun h => 0x80 + h.val == n)))

/-! ### Time -/

/-- How many cycles of its period a die has still to go. -/
def Die.toGo (d : Die) : Nat := Config.periodCycles - d.time.toNat % Config.periodCycles

/-- ACLK cycles pass on every present die (09 R127), which keeps the boundaries of their periods as far apart as they are. -/
def State.advanceTime (s : State) (n : Nat) : State :=
  { s with dies := s.dies.map (fun d => if d.status = .present then { d with time := d.time + BitVec.ofNat 64 n } else d) }

/-- How many cycles go by before the first present die turns its period. -/
def State.cyclesToTurn (s : State) : Nat :=
  s.dies.toList.foldl (fun m d => if d.status = .present then min m d.toGo else m) Config.periodCycles

/-- TIME moves on, and no die turns its period: how far is a free value (09 R127; log entry 8, DESIGN CHOICE). -/
def State.passTime (s : State) : State := s.tick.advanceTime ((Config.cyclesPassed s.freeCtr).toNat % s.cyclesToTurn)

end Sys2Proof.Machine
end

