-- ==== Sys2Proof/Machine/Control.lean ====
section
/-! DEFINITION. Control flow (13 R197 to R199), traps and system instructions (R200 to R208). -/

namespace Sys2Proof.Machine

/-! ### Control flow -/

/-- A conditional branch of a halfword offset (R197); it writes no register. -/
def branch (rs : List XReg) (taken : Bool) (off : Word) (len : Nat) (s : State) : Out :=
  readsX rs s (.next (s.modMe (fun c => if taken then c.jump (c.pc + off * 2) else c.done 0 len)))

/-- BEQ (R197). -/
def execBeq (a b : XReg) (off : BitVec 14) (s : State) : Out :=
  branch [a, b] (s.rx a == s.rx b) (off.signExtend 64) 4 s

/-- BNE (R197). -/
def execBne (a b : XReg) (off : BitVec 14) (s : State) : Out :=
  branch [a, b] (s.rx a != s.rx b) (off.signExtend 64) 4 s

/-- BLT (R197): signed. -/
def execBlt (a b : XReg) (off : BitVec 14) (s : State) : Out :=
  branch [a, b] ((s.rx a).slt (s.rx b)) (off.signExtend 64) 4 s

/-- BGE (R197): signed. -/
def execBge (a b : XReg) (off : BitVec 14) (s : State) : Out :=
  branch [a, b] (!(s.rx a).slt (s.rx b)) (off.signExtend 64) 4 s

/-- BLTN (R197): unsigned. -/
def execBltn (a b : XReg) (off : BitVec 14) (s : State) : Out :=
  branch [a, b] ((s.rx a).ult (s.rx b)) (off.signExtend 64) 4 s

/-- BGEN (R197): unsigned. -/
def execBgen (a b : XReg) (off : BitVec 14) (s : State) : Out :=
  branch [a, b] (!(s.rx a).ult (s.rx b)) (off.signExtend 64) 4 s

/-- C.BNEZ (R209): on the last x destination; it never branches when that is x0. -/
def execCBnez (imm : BitVec 10) (s : State) : Out :=
  branch [s.me.ldx] (s.rx s.me.ldx != 0) (imm.signExtend 64) 2 s

/-- C.BEQZ (R209). -/
def execCBeqz (imm : BitVec 10) (s : State) : Out :=
  branch [s.me.ldx] (s.rx s.me.ldx == 0) (imm.signExtend 64) 2 s

/-- The context jumps and leaves the link PC + 4 in a register (R198). -/
def Context.call (c : Context) (d : XReg) (target : Word) : Context := (c.wx d (c.pc + 4) 0).jump target

/-- JAL (R198). -/
def execJal (d : XReg) (off : BitVec 19) (s : State) : Out :=
  .next (s.modMe (fun c => c.call d (c.pc + off.signExtend 64 * 2)))

/-- JALR (R198): an odd target traps ALIGN. -/
def execJalr (d a : XReg) (imm : BitVec 11) (s : State) : Out :=
  let target := s.rx a + imm.signExtend 64 * 2
  readsX [a] s (if target.getLsbD 0 then trap .align target s else .next (s.modMe (fun c => c.call d target)))

/-- A word is the CMARK of a class (R199). -/
def isMark (c : Code) (k : BitVec 11) : Bool :=
  match c with
  | .w16 _ => false
  | .w32 w => w &&& 0xF800FFFF == 0x211 && w.extractLsb' 16 11 == k

/-- CALLI (R199): the word at the target must be a CMARK of the class. -/
def execCalli (d a : XReg) (k : BitVec 11) (s : State) : Out :=
  let target := s.rx a
  readsX [a] s <|
    if target.getLsbD 0 then trap .align target s
    else
      match s.fetchCode s.me target with
      | .error (c, va) => faultAt c va .fetch s
      | .ok w => if isMark w k then .next (s.modMe (fun c => c.call d target)) else trap .cfi target s

/-- CMARK (R199): no effect. -/
def execCmark (_k : BitVec 11) (s : State) : Out := s.finish

/-! ### Traps and system registers -/

/-- TRAP (R200). -/
def execTrap (imm : BitVec 11) (s : State) : Out := trap .soft (imm.setWidth 64) s

/-- ILL for a rejected word (12 R175, R186), TVAL the word. -/
def execIllegalEncoding (w : BitVec 32) (s : State) : Out := trap .ill (w.setWidth 64) s

/-- A firmware update that has raised the minor version may have defined the word (12 R187): which words it defined is a free
value (log entry 46, DESIGN CHOICE). -/
def State.wordDefined (s : State) (w : BitVec 32) : Bool :=
  s.fw.isaver.extractLsb' 8 8 != 0 && Config.wordDefined s.fw.isaver.toNat w.toNat

/-- UNIMPL (12 R187): a word of the range that no firmware update has defined traps; what a defined word does is in no file of
the spec (log entry 46, DESIGN CHOICE). -/
def execUnimpl (w : BitVec 32) (s : State) : Out :=
  if s.wordDefined w then .refused .firmwareDefined else trap .unimpl (w.setWidth 64) s

/-- SRD (R202, 05 R78): an unassigned or absent number traps ILL; it waits for an earlier instruction that changes the
register. -/
def execSrd (d : XReg) (n : BitVec 11) (s : State) : Out :=
  if !sysExists s.me.kind n.toNat then trapIll s
  else if s.sysBusy n.toNat then .next s
  else .next (s.modMe (fun c => (c.wx d (s.sysRead n.toNat) 0).done 0 4))

/-- SWR (R202, 05 R78): without write access it traps PROT with the register number. -/
def execSwr (n : BitVec 11) (a : XReg) (s : State) : Out :=
  if !sysExists s.me.kind n.toNat then trapIll s
  else
    readsX [a] s <|
      if !sysWritable n.toNat then trap .prot (n.setWidth 64) s
      else if s.sysBusy n.toNat then .next s
      else
        match monitorReg n.toNat with
        | some (k, _) => writeMctl k (s.rx a) s (fun s => s.modMe (fun c => c.done 0 4))
        | none => .next (s.modMe (fun c => (c.sysWrite n.toNat (s.rx a)).done 0 4))

/-- What is left of an energy budget, signed; 2^63 − 1 when unlimited (09 R132). -/
def Budget.energyLeft (b : Budget) : Word :=
  if b.lim[3] = 0xFFFFFFFF then 0x7FFFFFFFFFFFFFFF else (b.lim[3]).setWidth 64 - (b.used[3]).setWidth 64

/-- The value of an ERD selector (09 R132). -/
def State.erdValue (s : State) (sel : Nat) : Option Word :=
  let t := (s.dies[s.me.die]).time
  match sel with
  | 0 => some (match s.launch s.me.launch with | some l => l.budget.energyLeft | none => 0x7FFFFFFFFFFFFFFF)
  | 1 => some (s.fnRec s.me.fn).tenant.energyLeft
  | 2 => some t
  | 3 => some (t >>> 16)
  | 4 => some (0x10000 - (t &&& 0xFFFF))
  | 5 => some (match s.launch s.me.launch with | some l => BitVec.ofNat 64 l.charged | none => 0)
  | 6 => some (match s.me.kind with | .thread => 0 | .bureau => s.myCluster.mgdone.setWidth 64)
  | _ => none

/-- ERD (R208): an undefined selector traps ILL; TIME is read after it has moved on. -/
def execErd (d : XReg) (sel : BitVec 11) (s : State) : Out :=
  let s1 := if 2 ≤ sel.toNat ∧ sel.toNat ≤ 4 then s.passTime else s
  match s1.erdValue sel.toNat with
  | some v => .next (s1.modMe (fun c => (c.wx d v 0).done 0 4))
  | none => trapIll s

/-- TRET (R201): ILL when no trap is being handled. -/
def execTret (s : State) : Out := if s.me.trap.handling then .next (s.modMe Context.leaveTrap) else trapIll s

/-- FENCEI (R203): a full fence at scope D, then the instructions fetched ahead are discarded. -/
def execFencei (s : State) : Out :=
  fenced .d s (fun s => .next (s.modMe (fun c => { c.done 0 4 with fetched := [] })))

/-- YIELD (R204): the arbitration credits are capped at 0. -/
def execYield (s : State) : Out :=
  .next (s.modMe (fun c => { c.done 0 4 with credits := c.credits.map (fun k => if k.slt 0 then k else 0) }))

/-! ### Faults of copies and collectives (15 R256) -/

/-- The pending fault with the lowest tag that a test picks. -/
def Tags.first (t : Tags) (pick : PendingFault → Bool) : Option PendingFault :=
  (t.faults.filter pick).foldl (fun (b : Option PendingFault) f => match b with
    | some g => if f.tag < g.tag then some f else some g
    | none => some f) none

/-- A fault is reported: it is no longer pending and its tag is released, still clear. -/
def Tags.release (t : Tags) (f : PendingFault) : Tags :=
  { t with faults := t.faults.erase f, held := if f.tag < 64 then t.held &&& ~~~(1#64 <<< f.tag) else t.held }

/-- Report the picked pending fault with the lowest tag as a trap, if there is one; its copy is then over
(log entry 11, DEDUCED; log entry 32, DEDUCED). -/
def reporting (pick : PendingFault → Bool) (s : State) (k : State → Out) : Out :=
  match s.me.tags.first pick with
  | none => k s
  | some f =>
    let reported := fun c : Copy => c.owner == some s.me.uid && c.tag.val == f.tag && (match c.st with | .stopped _ _ => true | _ => false)
    let s1 := ({ s with copies := s.copies.filter (fun c => !reported c) } : State).modMe (fun c => { c with tags := c.tags.release f })
    .next ((if f.cause = .poison then s1.logPoison f.va else s1).deliverAt f.cause s1.me.pc f.va)

/-! ### Leaving -/

/-- The context retires (02 R31), counted with its launch (log entry 11, DEDUCED). -/
def State.exitMe (s : State) : State :=
  ((s.retire s.me).modMe Context.endNow).modLaunch s.me.launch (fun l => { l with exited := l.exited + 1 })

/-- Pending faults are reported first, at an EXIT of a control thread (R205, 15 R256); then an ack-lost store traps (18 R296)
(log entry 11, DEDUCED). -/
def exiting (s : State) (k : State → Out) : Out :=
  match s.me.kind with
  | .thread => reporting (fun _ => true) s fun s => ackloss true (s.loseUnreachable s.me.owns) k
  | .bureau => ackloss true (s.loseUnreachable s.me.owns) k

/-- EXIT (R205): faults and ACKLOSS first; a thread waits for the flags it published with a group, a Bureau for its matrix queue; then
every store performs at scope S (log entry 11, DEDUCED). -/
def execExit (s : State) : Out :=
  exiting s fun s =>
    match s.me.kind with
    | .thread => if s.published s.me ≠ [] then .next s else .next (s.fenceAt .s).exitMe
    | .bureau =>
      if !s.myCluster.mq.isEmpty then .next s
      else .next ((s.fenceAt .s).modMe (fun c => { c with status := .ended }))

/-! ### Groups (R206; 02 R15, R16; 08 R125) -/

/-- The lowest free id, trying the record ranges of the dies from one on, in ascending order and wrapping (08 R125). -/
def State.freeGroup (s : State) (die : Fin 8) : Option Nat :=
  ((List.range 8).flatMap (fun i => (List.range 512).map (fun j => (die.val + i) % 8 * 512 + j))).find?
    (fun g => g != 0xFFF && !Assoc.has s.groups g)

/-- A status as JOIN and LEAVE write it. -/
def statusWord (i : Int) : Word := BitVec.ofInt 64 i

/-- The context becomes a member of a group, which it creates when the id is free (log entry 10, DEDUCED). -/
def State.joinGroup (s : State) (g : Nat) : State :=
  if Assoc.has s.groups g then
    let r := Assoc.get ⟨0, 0, 0, 0⟩ s.groups g
    let s1 : State := { s with groups := Assoc.set s.groups g { r with count := r.count + 1 } }
    s1.modMe (fun c => { c with members := c.members ++ [⟨g, r.phase + 1, none⟩] })
  else
    let s1 : State := { s with groups := Assoc.set s.groups g ⟨1, 0, 1, 0⟩ }
    s1.modMe (fun c => { c with members := c.members ++ [⟨g, 0, none⟩] })

/-- What JOIN does and answers; the first status that holds, in the order of R206. -/
def State.join (s : State) (n : Nat) : Word × State :=
  if n > 0xFFF then (statusWord (-4), s)
  else if s.me.members.any (fun m => m.gid == n) then (statusWord (-1), s)
  else if s.me.members.length ≥ 8 then (statusWord (-3), s)
  else if n = 0xFFF then
    match s.freeGroup s.me.die with
    | none => (statusWord (-2), s)
    | some g => (BitVec.ofNat 64 g, s.joinGroup g)
  else (BitVec.ofNat 64 n, s.joinGroup n)

/-- JOIN (R206). -/
def execJoin (d a : XReg) (s : State) : Out :=
  threadOnly s <| readsX [a] s <|
    let r := s.join (s.rx a).toNat
    .next (r.2.modMe (fun c => (c.wx d r.1 0).done 0 4))

/-- What LEAVE does and answers. -/
def State.leave (s : State) (n : Nat) : Word × State :=
  if n ≥ 0xFFF then (statusWord (-4), s)
  else
    match s.me.members.find? (fun m => m.gid == n) with
    | none => (statusWord (-5), s)
    | some m => (0, (s.leaveGroup m).modMe (fun c => { c with members := c.members.filter (fun k => k.gid != n) }))

/-- LEAVE (R206). -/
def execLeave (d a : XReg) (s : State) : Out :=
  threadOnly s <| readsX [a] s <|
    let r := s.leave (s.rx a).toNat
    .next (r.2.modMe (fun c => (c.wx d r.1 0).done 0 4))

/-! ### Queue tails (R207; 07 R105) -/

/-- A write of QTAIL takes effect only within the forward window; the tail never moves back. -/
def State.writeTail (s : State) (q : Nat) (v : BitVec 32) : State :=
  let ahead := (v - (s.queue q).qtail).toNat
  if 1 ≤ ahead ∧ ahead < 2 ^ 31 then s.modQueue q (fun k => { k with qtail := v }) else s

/-- CTAIL (R207): PROT for a queue that is not the function's; then a release at scope S. -/
def execCtail (a b : XReg) (s : State) : Out :=
  readsX [a, b] s <|
    let q := s.rx a
    let v := (s.rx b).setWidth 32
    if q.toNat ≥ 8192 ∨ (s.queue q.toNat).owner ≠ s.me.fn then trap .prot q s
    else fenced .s s (fun s => .next ((s.writeTail q.toNat v).modMe (fun c => c.done 0 4)))

/-! ### Lane requests (R208; 02 R26; 26 R341) -/

/-- A slot owns the group and has not given it away. -/
def LaneGroup.keptBy (g : LaneGroup) (slot : Fin 4) : Bool := g.owned && g.owner == slot && !g.move
/-- The group is on its way to a slot. -/
def LaneGroup.comingTo (g : LaneGroup) (slot : Fin 4) : Bool := g.owned && g.move && g.next == slot
/-- The groups a slot counts as held when donors are chosen (R26). -/
def heldGroups (lp : Vector LaneGroup 8) (slot : Fin 4) : Nat :=
  (lp.toList.filter (fun g => g.keptBy slot || g.comingTo slot)).length

/-- Take up to `n` unowned groups, lowest first (R341). -/
def takeUnowned (slot : Fin 4) : Nat → List LaneGroup → List LaneGroup × Nat
  | n, [] => ([], n)
  | 0, l => (l, 0)
  | n + 1, g :: r =>
    if g.owned then
      let p := takeUnowned slot (n + 1) r
      (g :: p.1, p.2)
    else
      let p := takeUnowned slot n r
      (⟨true, slot, slot, 0, false⟩ :: p.1, p.2)

/-- LPART from eight groups. -/
def lpartOf (l : List LaneGroup) : Vector LaneGroup 8 := Vector.ofFn (fun i => l.getD i.val LaneGroup.free)

/-- The number of the highest group a slot keeps. -/
def highestKept (lp : Vector LaneGroup 8) (slot : Fin 4) : Option (Fin 8) :=
  ((List.finRange 8).reverse).find? (fun k => (lp[k]).keptBy slot)

/-- The donor and the group it gives: the resident thread other than the requester whose held groups exceed its gmin by
the most, the lowest slot on a tie (R26) (log entry 28, DEDUCED). -/
def State.donor (s : State) (lp : Vector LaneGroup 8) : Option (Fin 8) :=
  let cands := (List.finRange 4).filterMap (fun k =>
    if k = s.me.slot then none
    else match s.myCluster.slots[k] with
      | none => none
      | some u => match highestKept lp k with
        | none => none
        | some g =>
          let gmin := match s.context u with
            | some c => (match s.launch c.launch with | some l => l.pk.gmin | none => 1)
            | none => 1
          if heldGroups lp k > gmin then some (heldGroups lp k - gmin, g) else none)
  (cands.foldl (fun (b : Option (Nat × Fin 8)) c => match b with
    | some x => if c.1 > x.1 then some c else some x
    | none => some c) none).map (fun p => p.2)

/-- Mark up to `n` donated groups; answers LPART and how many are still missing (log entry 28, DEDUCED). -/
def State.takeDonated (s : State) : Nat → Vector LaneGroup 8 → Vector LaneGroup 8 × Nat
  | 0, lp => (lp, 0)
  | n + 1, lp =>
    match s.donor lp with
    | none => (lp, n + 1)
    | some k => s.takeDonated n (lp.set k.val { lp[k] with move := true, next := s.me.slot } k.isLt)

/-- What LREQ for `n` groups does and answers: at or below the groups held, those on their way stay granted and the thread
keeps at least one group of its own (13 R208) (log entry 28, DEDUCED). -/
def State.lreq (s : State) (n : Nat) : Nat × State :=
  let lp := s.myCluster.lpart
  let coming := (lp.toList.filter (fun g => g.comingTo s.me.slot)).length
  let have_ := heldGroups lp s.me.slot
  if n ≤ have_ then
    let total := coming + min (have_ - coming) (max (n - coming) 1)
    (total, s.modMe (fun c => { c with lreq := if n < have_ then some total else none }))
  else
    let p := takeUnowned s.me.slot (n - have_) lp.toList
    let q := s.takeDonated p.2 (lpartOf p.1)
    (n - q.2, (s.modCluster s.me.cl (fun c => { c with lpart := q.1 })).modMe (fun c => { c with lreq := none }))

/-- The bounds of a launch on lane requests. -/
def State.laneBounds (s : State) : Nat × Nat :=
  match s.launch s.me.launch with
  | some l => (l.pk.gmin, l.pk.gmax)
  | none => (1, 8)

/-- LREQ (R208): a request outside the bounds of the launch is clipped to them. -/
def execLreq (d a : XReg) (s : State) : Out :=
  threadOnly s <| readsX [a] s <|
    let b := s.laneBounds
    let r := s.lreq (min (max (s.rx a).toNat b.1) b.2)
    .next (r.2.modMe (fun c => (c.wx d (BitVec.ofNat 64 r.1) 0).done 0 4))

end Sys2Proof.Machine
end

