-- ==== Sys2Proof/Machine/Arith.lean ====
section
/-! DEFINITION. Integer arithmetic of a width: two's complement, division and remainder (03 R36), clamping (03 R35). -/

namespace Sys2Proof.Machine

/-- The signed value of the low `w` bits of a pattern. -/
def signedOf (w n : Nat) : Int := if n % 2 ^ w < 2 ^ (w - 1) then ((n % 2 ^ w : Nat) : Int) else (n % 2 ^ w : Nat) - (2 ^ w : Nat)

/-- The pattern of `w` bits of an integer modulo 2^w. -/
def patternOf (w : Nat) (i : Int) : Nat := (i % (2 ^ w : Nat)).toNat

/-- The greatest and least values of a signed or unsigned format of `w` bits. -/
def intMax (signed : Bool) (w : Nat) : Int := if signed then (2 ^ (w - 1) : Nat) - 1 else (2 ^ w : Nat) - 1
/-- The least value of a signed or unsigned format of `w` bits. -/
def intMin (signed : Bool) (w : Nat) : Int := if signed then -(2 ^ (w - 1) : Nat) else 0

/-- Clamp to the range of a format. -/
def clampInt (signed : Bool) (w : Nat) (i : Int) : Int := max (intMin signed w) (min (intMax signed w) i)

/-- The quotient by R36: truncated toward zero; a zero divisor and an unrepresentable quotient saturate. -/
def divInt (signed : Bool) (w : Nat) (a b : Int) : Int :=
  if b = 0 then (if a < 0 then intMin signed w else intMax signed w) else min (a.tdiv b) (intMax signed w)

/-- The remainder by R36: of the dividend's sign; the dividend for a zero divisor, and −1 where the quotient is not
representable. -/
def remInt (signed : Bool) (w : Nat) (a b : Int) : Int :=
  if b = 0 then a else if a.tdiv b > intMax signed w then -1 else a.tmod b

/-- The number of leading zero bits of 64. -/
def leadingZeros (v : Word) : Nat := if v = 0 then 64 else 63 - v.toNat.log2

/-- The number of trailing zero bits of 64. -/
def trailingZeros (v : Word) : Nat := ((List.range 64).find? (fun i => v.getLsbD i)).getD 64

/-- The number of set bits. -/
def popCount (v : Word) : Nat := ((List.range 64).filter (fun i => v.getLsbD i)).length

/-- The 64-bit word of an integer. -/
def wordOfInt (i : Int) : Word := BitVec.ofInt 64 i

/-- A truth value as 0 or 1. -/
def wordOfBool (b : Bool) : Word := if b then 1 else 0

end Sys2Proof.Machine
end

