-- ==== Sys2Proof/Machine/Flags.lean ====
section
/-! DEFINITION. The floating-point flags: their places in FFLAGS and how an instruction raises them (03 R56 to R58). -/

namespace Sys2Proof.Machine

/-- The five flags as FFLAGS orders them (R56). -/
abbrev FlagSet := BitVec 5
/-- Invalid operation. -/
def flagNV : FlagSet := 1
/-- Division by zero. -/
def flagDZ : FlagSet := 2
/-- Overflow. -/
def flagOF : FlagSet := 4
/-- Underflow. -/
def flagUF : FlagSet := 8
/-- Inexact. -/
def flagNX : FlagSet := 16

/-- NV of a signalling operand (R38). -/
def nvIf (b : Bool) : FlagSet := if b then flagNV else 0

/-- Flags join FFLAGS (R58); FXIDX is unchanged. -/
def Context.raise (c : Context) (fl : FlagSet) : Context := { c with flags := { c.flags with ff := c.flags.ff ||| fl } }

/-! ### Flags of vector instructions (03 R57; 02 R18) -/

/-- An element raises flags: FXIDX keeps the first index, inside a block the lowest. -/
def Flags.hit (inBlock : Bool) (f : Flags) (h : Nat × FlagSet) : Flags where
  ff := f.ff ||| h.2
  fx := Vector.ofFn (fun k => if h.2.getLsbD k.val && (f.fx[k] == 0xFFFFFFFF || (inBlock && decide (h.1 < (f.fx[k]).toNat)))
    then BitVec.ofNat 32 h.1 else f.fx[k])

/-- A flag-raising instruction starts: FXIDX is cleared when it starts at element 0, once for a whole VFETCH. -/
def Flags.start? (f : Flags) (clear : Bool) : Flags := if clear then { f with fx := Vector.replicate 5 0xFFFFFFFF } else f

/-- The issue group of the VFETCH block whose instruction runs, or none outside a block. -/
def Context.group (c : Context) : Option (BitVec 32768) := c.vec.blk.bind (fun b => b.grp)

/-- The flags after a flag-raising vector instruction with these hits in index order. -/
def Context.raiseV (c : Context) (from0 : Bool) (hits : List (Nat × FlagSet)) : Context :=
  let inBlock := c.group.isSome
  let f := c.flags.start? (!inBlock && (from0 || c.vec.vbeg == 0))
  { c with flags := (hits.filter (fun h => h.2 != 0)).foldl (Flags.hit inBlock) f }

end Sys2Proof.Machine
end

