-- ==== Sys2Proof/Machine/Formats.lean ====
section
/-! DEFINITION. Number formats (03 R33 to R55): the codes of formats, what a pattern denotes, and rounding an exact value
to a format with its flags. -/

namespace Sys2Proof.Machine

/-! ### Format codes (R33) -/

/-- The element formats. -/
inductive Fmt
  | i8 | n8 | i16 | n16 | i32 | n32 | i64 | n64 | f16 | bf16 | f32 | f64 | e4m3 | e5m2 | e2m1 | e8m0 | pair | d1 | d2 | d3
  deriving DecidableEq, Repr

/-- The format of a code of R33, if it names one. -/
def Fmt.ofCode : Nat → Option Fmt
  | 0 => some .i8 | 1 => some .n8 | 2 => some .i16 | 3 => some .n16 | 4 => some .i32 | 5 => some .n32
  | 6 => some .i64 | 7 => some .n64 | 8 => some .f16 | 9 => some .bf16 | 10 => some .f32 | 11 => some .f64
  | 12 => some .e4m3 | 13 => some .e5m2 | 14 => some .e2m1 | 15 => some .e8m0 | 16 => some .pair
  | 17 => some .d1 | 18 => some .d2 | 19 => some .d3 | _ => none

/-- The element width in bits, SEW (R33). -/
def Fmt.sew : Fmt → Nat
  | .i8 | .n8 | .e4m3 | .e5m2 | .e8m0 => 8
  | .i16 | .n16 | .f16 | .bf16 => 16
  | .i32 | .n32 | .f32 => 32
  | .i64 | .n64 | .f64 | .pair | .d1 | .d2 | .d3 => 64
  | .e2m1 => 4

/-- An I or N format: whether it is signed. -/
def Fmt.int? : Fmt → Option Bool
  | .i8 | .i16 | .i32 | .i64 => some true
  | .n8 | .n16 | .n32 | .n64 => some false
  | _ => none

/-- The widths of a binary floating-point format: exponent and fraction bits; E4M3 has no infinity. -/
structure FloatFmt where
  ebits : Nat
  mbits : Nat
  noInf : Bool
  deriving DecidableEq, Repr

/-- The binary floating-point formats (R37, R40, R41). -/
def Fmt.float? : Fmt → Option FloatFmt
  | .f64 => some ⟨11, 52, false⟩
  | .f32 => some ⟨8, 23, false⟩
  | .f16 => some ⟨5, 10, false⟩
  | .bf16 => some ⟨8, 7, false⟩
  | .e4m3 => some ⟨4, 3, true⟩
  | .e5m2 => some ⟨5, 2, false⟩
  | _ => none

/-- F16, BF16, F32 or F64. -/
def Fmt.ieee : Fmt → Bool
  | .f16 | .bf16 | .f32 | .f64 => true
  | _ => false

/-- D1, D2 or D3. -/
def Fmt.digits : Fmt → Bool
  | .d1 | .d2 | .d3 => true
  | _ => false

/-- A nonzero BL is allowed (R33, R49). -/
def Fmt.blocks : Fmt → Bool
  | .i8 | .e4m3 | .e5m2 | .e2m1 => true
  | _ => false

/-! ### Values and flags -/

/-- What a pattern denotes: a NaN (signalling or quiet), an infinity, or (−1)^neg × m × 2^e, where m = 0 is a signed zero. -/
inductive Val
  | nan (signalling : Bool)
  | inf (neg : Bool)
  | fin (neg : Bool) (m : Nat) (e : Int)
  deriving DecidableEq, Repr

/-- +0. -/
def Val.zero : Val := .fin false 0 0
/-- The value of an integer. -/
def Val.ofInt (i : Int) : Val := .fin (decide (i < 0)) i.natAbs 0
/-- The value is a NaN. -/
def Val.isNan : Val → Bool
  | .nan _ => true
  | _ => false
/-- The value is a signalling NaN. -/
def Val.isSnan : Val → Bool
  | .nan s => s
  | _ => false
/-- The sign is negative. -/
def Val.neg : Val → Bool
  | .nan _ => false
  | .inf n => n
  | .fin n _ _ => n
/-- The value with the other sign. -/
def Val.flip : Val → Val
  | .nan s => .nan s
  | .inf n => .inf !n
  | .fin n m e => .fin (!n) m e
/-- The value times a power of two. -/
def Val.scale (v : Val) (k : Int) : Val :=
  match v with
  | .fin n m e => .fin n m (e + k)
  | w => w
/-- The value is a zero. -/
def Val.isZero : Val → Bool
  | .fin _ m _ => m == 0
  | _ => false
/-! ### Patterns of binary floating-point formats -/

/-- The exponent bias. -/
def FloatFmt.bias (f : FloatFmt) : Nat := 2 ^ (f.ebits - 1) - 1
/-- The exponent of the last place of subnormals. -/
def FloatFmt.emin (f : FloatFmt) : Int := 1 - (f.bias : Int) - f.mbits
/-- The greatest significand, as an integer with the last place as unit. -/
def FloatFmt.maxSig (f : FloatFmt) : Nat := 2 ^ (f.mbits + 1) - (if f.noInf then 2 else 1)
/-- The exponent of the last place of the greatest finite values. -/
def FloatFmt.emax (f : FloatFmt) : Int := (if f.noInf then 2 ^ f.ebits - 1 else 2 ^ f.ebits - 2 : Nat) - (f.bias : Int) - f.mbits
/-- The pattern of the sign bit. -/
def FloatFmt.signBit (f : FloatFmt) (neg : Bool) : Nat := if neg then 2 ^ (f.ebits + f.mbits) else 0
/-- The pattern of an infinity. -/
def FloatFmt.infCode (f : FloatFmt) (neg : Bool) : Nat := f.signBit neg + (2 ^ f.ebits - 1) * 2 ^ f.mbits
/-- The default NaN (R37, R40, R41). -/
def FloatFmt.nanCode (f : FloatFmt) : Nat :=
  if f.noInf then 2 ^ (f.ebits + f.mbits) - 1 else (2 ^ f.ebits - 1) * 2 ^ f.mbits + 2 ^ (f.mbits - 1)
/-- The greatest finite value's pattern. -/
def FloatFmt.maxCode (f : FloatFmt) (neg : Bool) : Nat :=
  f.signBit neg + (if f.noInf then 2 ^ (f.ebits + f.mbits) - 2 else (2 ^ f.ebits - 1) * 2 ^ f.mbits - 1)

/-- What a pattern of a binary floating-point format denotes (R37, R40, R41). -/
def FloatFmt.decode (f : FloatFmt) (c : Nat) : Val :=
  let frac := c % 2 ^ f.mbits
  let ex := c / 2 ^ f.mbits % 2 ^ f.ebits
  let neg := c / 2 ^ (f.ebits + f.mbits) % 2 == 1
  if f.noInf then
    if ex = 2 ^ f.ebits - 1 ∧ frac = 2 ^ f.mbits - 1 then .nan false
    else if ex = 0 then .fin neg frac f.emin else .fin neg (2 ^ f.mbits + frac) (f.emin + (ex - 1))
  else if ex = 2 ^ f.ebits - 1 then
    if frac = 0 then .inf neg else .nan (frac / 2 ^ (f.mbits - 1) == 0)
  else if ex = 0 then .fin neg frac f.emin
  else .fin neg (2 ^ f.mbits + frac) (f.emin + (ex - 1))

/-! ### Rounding (R34, R39) -/

/-- A magnitude `q` with remainder `r` of `d` units goes up in a mode. -/
def roundsUp (rm : RMode) (neg : Bool) (q r d : Nat) : Bool :=
  match rm with
  | .rne => decide (2 * r > d) || (2 * r == d && r != 0 && q % 2 == 1)
  | .rmm => decide (2 * r ≥ d) && r != 0
  | .rup => r != 0 && !neg
  | .rdn => r != 0 && neg
  | .rtz => false

/-- m × 2^e as a multiple of 2^t, rounded, and whether that is inexact. -/
def roundAt (rm : RMode) (neg : Bool) (m : Nat) (e t : Int) : Nat × Bool :=
  if t ≤ e then (m * 2 ^ (e - t).toNat, false)
  else
    let d := 2 ^ (t - e).toNat
    let q := m / d
    let r := m % d
    (if roundsUp rm neg q r d then q + 1 else q, r != 0)

/-- An overflow goes to infinity in a mode (R39). -/
def overflowsToInf (rm : RMode) (neg : Bool) : Bool :=
  match rm with
  | .rne | .rmm => true
  | .rup => !neg
  | .rdn => neg
  | .rtz => false

/-- A nonzero result is tiny (R39): rounded with an unbounded exponent, it lies below the smallest normal. -/
def FloatFmt.tiny (f : FloatFmt) (rm : RMode) (neg : Bool) (m : Nat) (e : Int) : Bool :=
  let tu : Int := (m.log2 : Int) + e - f.mbits
  let u := roundAt rm neg m e tu
  decide (tu < f.emin) && decide ((u.1.log2 : Int) + tu < f.emin + f.mbits)

/-- Round (−1)^neg × m × 2^e once to a format (R39, R42): its pattern and flags. An E4M3 overflow that R39 keeps finite in a
directed mode is ±448 (log entry 21, DEDUCED). -/
def FloatFmt.roundFin (f : FloatFmt) (rm : RMode) (sat neg : Bool) (m : Nat) (e : Int) : Nat × FlagSet :=
  if m = 0 then (f.signBit neg, 0)
  else
    let tu : Int := (m.log2 : Int) + e - f.mbits
    let t := max tu f.emin
    let r := roundAt rm neg m e t
    let big := if t > f.emax then true else decide (r.1 > f.maxSig * 2 ^ (f.emax - t).toNat)
    if big then
      (if sat || !overflowsToInf rm neg then f.maxCode neg else if f.noInf then f.nanCode else f.infCode neg,
        flagOF ||| flagNX)
    else
      (f.signBit neg + (t - f.emin).toNat * 2 ^ f.mbits + r.1,
        (if r.2 then flagNX else 0) ||| (if f.tiny rm neg m e && r.2 then flagUF else 0))

/-- Round a value to a format: NaNs become the default NaN (R38), E4M3 has no infinity (R42). -/
def FloatFmt.round (f : FloatFmt) (rm : RMode) (sat : Bool) (v : Val) : Nat × FlagSet :=
  match v with
  | .nan s => (f.nanCode, nvIf s)
  | .inf n => if f.noInf then (if sat then f.maxCode n else f.nanCode, flagNV) else (f.infCode n, 0)
  | .fin n m e => f.roundFin rm sat n m e

/-- Round to an integer: the integer and whether that is inexact. -/
def roundInt (rm : RMode) (neg : Bool) (m : Nat) (e : Int) : Int × Bool :=
  let r := roundAt rm neg m e 0
  (if neg then -(r.1 : Int) else r.1, r.2)

/-- Convert a value to an integer format (R55): clamped, with NV for a NaN or a result out of range, NX when inexact. -/
def toIntFmt (signed : Bool) (w : Nat) (rm : RMode) (v : Val) : Nat × FlagSet :=
  match v with
  | .nan _ => (0, flagNV)
  | .inf n => (patternOf w (if n then intMin signed w else intMax signed w), flagNV)
  | .fin n m e =>
    let r := roundInt rm n m e
    let c := clampInt signed w r.1
    (patternOf w c, if c ≠ r.1 then flagNV else if r.2 then flagNX else 0)

/-! ### E8M0 (R43) -/

/-- What an E8M0 code denotes. -/
def e8m0Decode (c : Nat) : Val := if c % 256 = 255 then .nan false else .fin false 1 ((c % 256 : Nat) - 127 : Int)

/-- The exponent of the power of two taken for m × 2^e, m ≠ 0. -/
def e8m0Exp (rm : RMode) (m : Nat) (e : Int) : Int :=
  let l := m.log2
  let f := (l : Int) + e
  let exact := m == 2 ^ l
  match rm with
  | .rtz | .rdn => f
  | .rup => if exact then f else f + 1
  | .rne | .rmm => if 2 * m < 3 * 2 ^ l then f else f + 1

/-- Convert a value to E8M0. -/
def toE8m0 (rm : RMode) (v : Val) : Nat × FlagSet :=
  match v with
  | .nan _ | .inf _ => (255, flagNV)
  | .fin _ m e =>
    if m = 0 then (255, flagNV)
    else
      let k := e8m0Exp rm m e
      if k < -127 then (0, flagUF ||| flagNX)
      else if k > 127 then (254, flagOF ||| flagNX)
      else ((k + 127).toNat, if m = 2 ^ m.log2 ∧ k = (m.log2 : Int) + e then 0 else flagNX)

/-! ### E2M1 (R44) and scaled values (R50) -/

/-- The magnitudes of E2M1 codes 0 to 7, in halves. -/
def e2m1Halves : Nat → Nat
  | 0 => 0 | 1 => 1 | 2 => 2 | 3 => 3 | 4 => 4 | 5 => 6 | 6 => 8 | _ => 12

/-- E4M3 as a binary format. -/
def fmtE4m3 : FloatFmt := ⟨4, 3, true⟩

/-- What an E2M1 code denotes before scaling, with the block's X byte. -/
def e2m1Decode (x c : Nat) : Val :=
  if c % 16 = 8 then fmtE4m3.decode x else .fin (decide (8 ≤ c % 16)) (e2m1Halves (c % 8)) (-1)

/-- What an element's code denotes, with the SCALE and X of its block (R50); an integer is exact. PAIR and digit strings
have no value of this kind. -/
def Fmt.decode (f : Fmt) (scale x c : Nat) : Val :=
  if f.blocks && scale == 255 then .nan false
  else
    let k : Int := if f.blocks then (scale : Int) - 127 else 0
    match f with
    | .i8 | .i16 | .i32 | .i64 => (Val.ofInt (signedOf f.sew c)).scale k
    | .n8 | .n16 | .n32 | .n64 => Val.ofInt ((c % 2 ^ f.sew : Nat) : Int)
    | .e2m1 => (e2m1Decode x c).scale k
    | .e8m0 => e8m0Decode c
    | .f64 | .f32 | .f16 | .bf16 | .e4m3 | .e5m2 => match f.float? with
      | some g => (g.decode c).scale k
      | none => .zero
    | .pair | .d1 | .d2 | .d3 => .zero

/-- An element holds a NaN or an infinity (R51, 14 R228). -/
def Val.nonFinite : Val → Bool
  | .fin _ _ _ => false
  | _ => true

end Sys2Proof.Machine
end

