-- ==== Sys2Proof/Machine/Operands.lean ====
section
/-! DEFINITION. Vector operands (05 R73 to R77; 14 R210 to R214, R233): what VTYPE fixes, where elements, rows and block
descriptors lie, early reads, the roles of destination elements, and the writes of vector and mask registers. -/

namespace Sys2Proof.Machine

/-! ### What VTYPE fixes (05 R77) -/

/-- VTYPE, VL and VBEG as an instruction uses them, with the granted lane groups; `lmul` is the number of registers of an
FMT group, 8 in tile mode. -/
structure VView where
  fmt  : Fmt
  lmul : Nat
  tile : Bool
  bl   : Nat
  tdim : Nat
  rm   : RMode
  sat  : Bool
  mp   : Bool
  tp   : Bool
  g    : Nat
  vl   : Nat
  vbeg : Nat
  deriving DecidableEq, Repr

/-- The BL field as a number of elements (03 R49). -/
def blOf : Nat → Nat
  | 1 => 16 | 2 => 32 | _ => 0

/-- The view of a VTYPE word; `none` when ILL is set or a code names nothing. -/
def viewOf (w : BitVec 32) (g vl vbeg : Nat) : Option VView :=
  let n := w.toNat
  match Fmt.ofCode (n % 32), RMode.ofCode (w.extractLsb' 15 3) with
  | some f, some rm =>
    if w.getLsbD 31 then none
    else some ⟨f, if w.getLsbD 7 then 8 else 2 ^ (n / 32 % 4), w.getLsbD 7, blOf (n / 256 % 4), 2 ^ (n / 1024 % 8), rm,
      w.getLsbD 18, w.getLsbD 14, w.getLsbD 13, g, vl, vbeg⟩
  | _, _ => none

/-- A VTYPE request that R33, R34, R49 and R77 accept; a request is 19 bits wide. -/
def requestOk (w : Word) : Bool :=
  let n := w.toNat
  let tile := w.getLsbD 7
  let bl := n / 256 % 4
  let tdim := n / 1024 % 8
  decide (n < 2 ^ 19) && decide (n / 32768 % 8 ≤ 4) && decide (tdim ≤ 4) && decide (bl ≠ 3) && !(tile && n / 32 % 4 != 0) &&
    (match Fmt.ofCode (n % 32) with
      | some f => bl == 0 || (f.blocks && blOf bl % 2 ^ tdim == 0)
      | none => false)

/-- The number of granted lane groups in a set. -/
def groupCount (b : BitVec 8) : Nat := ((List.range 8).filter (fun k => b.getLsbD k)).length

/-- The view of a context. -/
def Context.view (c : Context) : Option VView :=
  viewOf c.vec.vtype (groupCount c.groups) c.vec.vl.toNat c.vec.vbeg.toNat

/-- The element width (R33). -/
def VView.sew (v : VView) : Nat := v.fmt.sew
/-- Elements of a unit: of a row in tile mode, else one (R211). -/
def VView.per (v : VView) : Nat := if v.tile then 512 / v.sew else 1
/-- VLMAX in units (R214). -/
def VView.vlmax (v : VView) : Nat := if v.tile then 32 * v.g else v.lmul * 8 * v.g * 256 / v.sew
/-- VLB: VL rounded up to whole blocks in element mode (R214). -/
def VView.vlb (v : VView) : Nat :=
  if v.bl = 0 ∨ v.tile then v.vl else min ((v.vl + v.bl - 1) / v.bl * v.bl) v.vlmax
/-- An instruction under VL = 0 or VBEG ≥ VL performs no element (R212) (log entry 30, DEDUCED). -/
def VView.live (v : VView) : Bool := decide (v.vbeg < v.vl)
/-- Registers of a group of width `w`: EMUL (R212), 8 in tile mode; above 8 it is not allowed. -/
def VView.emul (v : VView) (w : Nat) : Nat := if v.tile then 8 else max 1 (v.lmul * w / v.sew)
/-- A group starts at a multiple of its size and the size is at most 8 (R74, R212). -/
def aligned (r : VReg) (n : Nat) : Bool := decide (n ≤ 8) && r.val % n == 0
/-- Two groups share no register. -/
def apart (a : VReg) (na : Nat) (b : VReg) (nb : Nat) : Bool := decide (a.val + na ≤ b.val) || decide (b.val + nb ≤ a.val)
/-- A destination coincides with a source of its size or does not touch it (R212) (log entry 30, DEDUCED). -/
def overlapOk (a : VReg) (na : Nat) (b : VReg) (nb : Nat) : Bool := (a == b && na == nb) || apart a na b nb

/-! ### Places (R73, R75, R76) -/

/-- Where an element of width `w` lies in its group: the register of the group and the first bit. -/
def placeOf (tile : Bool) (g w e : Nat) : Nat × Nat :=
  let n := 8 * g
  if tile then
    let j := e / (512 / w)
    let bit := w * (e % (512 / w))
    (2 * (j / n) + bit / 256, 256 * (j % n) + bit % 256)
  else
    let sl := e / n
    (sl / (256 / w), 256 * (e % n) + w * (sl % (256 / w)))

/-- Where the descriptor of a block lies in the shadow of its group: the register and the entry (R76)
(log entry 29, DEDUCED). -/
def descPlace (tile : Bool) (g sew bl b : Nat) : Nat × Nat :=
  let p := 32 * g
  if bl = 0 then (b / p, b % p)
  else if tile then
    let n := 8 * g * (512 / sew / bl)
    (2 * (b / n) + b % n / p, b % n % p)
  else
    let n := 8 * g * 256 / sew / bl
    (b / n, b % n)

/-- A register number some way up a group. -/
def regAt (r : VReg) (k : Nat) : VReg := ⟨(r.val + k) % 32, Nat.mod_lt _ (by decide)⟩

/-- Bits [lo, lo+w) of a value. -/
def bitsAt {n : Nat} (x : BitVec n) (lo w : Nat) : Nat := (x >>> lo).toNat % 2 ^ w

/-- An element of width `w` of a group. -/
def VecRegs.elem (r : VecRegs) (v : VView) (a : VReg) (w e : Nat) : Nat :=
  let p := placeOf v.tile v.g w e
  bitsAt (r.v[regAt a p.1]) p.2 w

/-- The descriptor word of a block of a group (log entry 29, DEDUCED). -/
def VecRegs.desc (r : VecRegs) (v : VView) (a : VReg) (b : Nat) : BitVec 32 :=
  let p := descPlace v.tile v.g v.sew v.bl b
  BitVec.ofNat 32 (bitsAt (r.sh[regAt a p.1]) (32 * p.2) 32)

/-- SCALE and X of the block of an element under the current BL (03 R50); 2^0 and 0x80 under BL none. -/
def VecRegs.scaleX (r : VecRegs) (v : VView) (a : VReg) (e : Nat) : Nat × Nat :=
  if v.bl = 0 then (127, 0x80)
  else
    let d := (r.desc v a (e / v.bl)).toNat
    (d % 256, d / 256 % 256)

/-- The raw code of an FMT element; a pad element reads as code zero (R214). -/
def VecRegs.code (r : VecRegs) (v : VView) (a : VReg) (e : Nat) : Nat :=
  if !v.tile && v.bl != 0 && decide (v.vl ≤ e) then 0 else r.elem v a v.sew e

/-- The value of an FMT element (03 R50). -/
def VecRegs.val (r : VecRegs) (v : VView) (a : VReg) (e : Nat) : Val :=
  let d := r.scaleX v a e
  v.fmt.decode d.1 d.2 (r.code v a e)

/-- Bit e of a mask register; m0 reads all ones (05 R71). -/
def VecRegs.mbit (r : VecRegs) (m : MReg) (e : Nat) : Bool := m == 0 || (r.m[m]).getLsbD e

/-! ### Early reads (12 R173, 01 R6) -/

/-- The slot in which a vector instruction that enters the queue now issues (log entry 7, DEDUCED). -/
def Context.vslot (c : Context) : Nat := max c.clock.vector c.clock.scalar

/-- A register's value without results that are not readable in a slot: from the newest result back, bits of an unreadable
result return to what they were unless a newer readable one wrote them. -/
def vBack (l : List VPend) (r : VReg) (t : Nat) (cur : BitVec 16384) : BitVec 16384 :=
  (l.foldl (fun (p : BitVec 16384 × BitVec 16384) e =>
    if e.reg = r then
      if t < e.ready then
        let roll := e.bits &&& ~~~p.2
        ((p.1 &&& ~~~roll) ||| (e.old &&& roll), p.2)
      else (p.1, p.2 ||| e.bits)
    else p) (cur, 0)).1

/-- As `vBack`, for a descriptor shadow. -/
def shBack (l : List VPend) (r : VReg) (t : Nat) (cur : BitVec 8192) : BitVec 8192 :=
  (l.foldl (fun (p : BitVec 8192 × BitVec 8192) e =>
    if e.reg = r then
      if t < e.ready then
        let roll := e.shBits &&& ~~~p.2
        ((p.1 &&& ~~~roll) ||| (e.oldSh &&& roll), p.2)
      else (p.1, p.2 ||| e.shBits)
    else p) (cur, 0)).1

/-- As `vBack`, for a mask register. -/
def mBack (l : List MPend) (r : MReg) (t : Nat) (cur : BitVec 32768) : BitVec 32768 :=
  (l.foldl (fun (p : BitVec 32768 × BitVec 32768) e =>
    if e.reg = r then
      if t < e.ready then
        let roll := e.bits &&& ~~~p.2
        ((p.1 &&& ~~~roll) ||| (e.old &&& roll), p.2)
      else (p.1, p.2 ||| e.bits)
    else p) (cur, 0)).1

/-- The vector registers as an instruction that enters the queue now reads them. -/
def Context.vregs (c : Context) : VecRegs :=
  if c.clock.vp.isEmpty && c.clock.mp.isEmpty then c.vec
  else
    let t := c.vslot
    { c.vec with
      v := Vector.ofFn (fun r => vBack c.clock.vp r t c.vec.v[r])
      sh := Vector.ofFn (fun r => shBack c.clock.vp r t c.vec.sh[r])
      m := Vector.ofFn (fun r => mBack c.clock.mp r t c.vec.m[r]) }

/-- The bits of a group's register that the elements of the issue group occupy; all of them outside a block. -/
def readBits (v : VView) (grp : Option (BitVec 32768)) (w k : Nat) : BitVec 16384 :=
  match grp with
  | none => BitVec.allOnes 16384
  | some m => ((List.range v.vl).filter (fun e => m.getLsbD e)).foldl (fun acc e =>
      let p := placeOf v.tile v.g w e
      if p.1 = k then acc ||| (BitVec.ofNat 16384 (2 ^ w - 1) <<< p.2) else acc) 0

/-- A source group: its first register, its number of registers and its element width. -/
structure VSrc where
  r : VReg
  n : Nat
  w : Nat
  deriving DecidableEq, Repr

/-- The first register of the source groups that is read early (log entry 7, DEDUCED). -/
def Context.earlyV (c : Context) (v : VView) (l : List VSrc) : Option VReg :=
  if c.clock.vp.isEmpty then none
  else
    (l.flatMap (fun a => (List.range a.n).map (fun k => (regAt a.r k, readBits v c.group a.w k)))).findSome? (fun p =>
      if c.clock.vp.any (fun e => e.reg == p.1 && decide (c.vslot < e.ready) && e.bits &&& p.2 != 0) then some p.1 else none)

/-- The first mask register that is read early. -/
def Context.earlyM (c : Context) (l : List MReg) : Option MReg :=
  l.find? (fun r => r != 0 && c.clock.mp.any (fun e => e.reg == r && decide (c.vslot < e.ready) &&
    e.bits &&& c.group.getD (BitVec.allOnes 32768) != 0))

/-- What TVAL holds for the first scalar, vector or mask source that SBCHK = 1 finds read early: kind 0, 1 or 2 and the
register (12 R173, 18 R294). -/
def State.stalledV (s : State) (v : VView) (xs : List XReg) (vs : List VSrc) (ms : List MReg) : Option Word :=
  match s.stalledX xs with
  | some r => some (BitVec.ofNat 64 r.val)
  | none =>
    if s.me.sys.sbchk then
      match s.me.earlyV v vs with
      | some r => some (BitVec.ofNat 64 (32 + r.val))
      | none => (s.me.earlyM ms).map (fun m => BitVec.ofNat 64 (64 + m.val))
    else none

/-- STALL for an early read under SBCHK = 1 (12 R173). -/
def stalls (v : VView) (xs : List XReg) (vs : List VSrc) (ms : List MReg) (s : State) (k : Out) : Out :=
  match s.stalledV v xs vs ms with
  | some w => trap .stall w s
  | none => k

/-- A register of the source groups. -/
def VSrc.has (a : VSrc) (r : VReg) : Bool := decide (a.r.val ≤ r.val) && decide (r.val < a.r.val + a.n)

/-- A source register is poisoned: a scalar one, a vector group, under a nonzero BL its descriptors, or a mask (06 R96). -/
def State.poisonedV (s : State) (v : VView) (xs : List XReg) (vs : List VSrc) (ms : List MReg) : Bool :=
  xs.any (fun r => s.me.xpoison.getLsbD r.val) || s.me.vpoison.any (fun p => vs.any (fun a => a.has p.1)) ||
    (v.bl != 0 && s.me.shpoison.any (fun p => vs.any (fun a => a.has p.1))) || s.me.mpoison.any (fun p => ms.contains p.1)

/-- POISON for a poisoned source register (log entry 24, DESIGN CHOICE). -/
def cleanV (v : VView) (xs : List XReg) (vs : List VSrc) (ms : List MReg) (s : State) (k : Out) : Out :=
  if s.poisonedV v xs vs ms then poisonReg s else k

/-! ### Roles (R210, R211, R233) -/

/-- The body units from a start on that take part: those of the issue group inside a block. -/
def VView.body (v : VView) (grp : Option (BitVec 32768)) (from0 : Bool) : List Nat :=
  if !v.live then []
  else
    let start := if from0 then 0 else v.vbeg
    ((List.range (v.vl - start)).map (fun i => start + i)).filter (fun u => match grp with
      | none => true
      | some b => b.getLsbD u)

/-- The active body units under a mask register. -/
def VView.active (v : VView) (grp : Option (BitVec 32768)) (r : VecRegs) (m : MReg) (from0 : Bool) : List Nat :=
  (v.body grp from0).filter (fun u => r.mbit m u)

/-- The elements of units. -/
def VView.elems (v : VView) (us : List Nat) : List Nat :=
  if v.tile then us.flatMap (fun u => (List.range v.per).map (fun k => u * v.per + k)) else us

/-- The elements that a write zeroes beside the results: inactive body elements under MP = 1 where `mp`, pad elements of a
destination with descriptors, and the tail under TP = 1. Inside a block neither pads nor the tail are treated. -/
def VView.zeroed (v : VView) (grp : Option (BitVec 32768)) (r : VecRegs) (m : MReg) (from0 mp desc : Bool) : List Nat :=
  if !v.live then []
  else
    let inactive := if mp && v.mp then v.elems ((v.body grp from0).filter (fun u => !r.mbit m u)) else []
    match grp with
    | some _ => inactive
    | none =>
      let vlb := if desc then v.vlb else v.vl
      let pads := (List.range (vlb - v.vl)).map (fun i => v.vl + i)
      let tail := if v.tp then v.elems ((List.range (v.vlmax - vlb)).map (fun i => vlb + i)) else []
      inactive ++ pads ++ tail

/-! ### Writes -/

/-- The mask and the value that the cells of one register of a group make up; no element is listed twice. -/
def cellsIn (tile : Bool) (g w k : Nat) (cells : List (Nat × Nat)) : Nat × Nat :=
  cells.foldl (fun acc c =>
    let p := placeOf tile g w c.1
    if p.1 = k then
      (acc.1 ||| ((2 ^ w - 1) <<< p.2), acc.2 ||| ((c.2 % 2 ^ w) <<< p.2))
    else acc) (0, 0)

/-- The pieces of 64 bits that a mask covers whole lose their poison. -/
def clearPieces {k n : Nat} (l : List (Fin k × Nat)) (r : Fin k) (mask : BitVec n) : List (Fin k × Nat) :=
  if l.isEmpty then [] else l.filter (fun p => !(p.1 == r && bitsAt mask (64 * p.2) 64 == 2 ^ 64 - 1))

/-- Results that are all readable in a slot need not be kept. -/
def Clock.prune (k : Clock) (t : Nat) : Clock :=
  { k with vp := if k.vp.all (fun e => decide (e.ready ≤ t)) then [] else k.vp
           mp := if k.mp.all (fun e => decide (e.ready ≤ t)) then [] else k.mp }

/-- Write bits of one vector register and of its shadow, readable from slot `ready` on. -/
def Context.putReg (c : Context) (r : VReg) (mask val : BitVec 16384) (shMask shVal : BitVec 8192) (ready : Nat) : Context :=
  let old := c.vec.v[r]
  let oldSh := c.vec.sh[r]
  let pend := if c.clock.vp.isEmpty && ready = 0 then [] else ⟨r, old, mask, oldSh, shMask, ready, c.group.isSome⟩ :: c.clock.vp
  { c with
    vec := { c.vec with v := c.vec.v.set r.val ((old &&& ~~~mask) ||| (val &&& mask)) r.isLt
                        sh := c.vec.sh.set r.val ((oldSh &&& ~~~shMask) ||| (shVal &&& shMask)) r.isLt }
    clock := { c.clock with vp := pend }
    vpoison := clearPieces c.vpoison r mask
    shpoison := clearPieces c.shpoison r shMask }

/-- Write bits of one mask register; a write to m0 is discarded (05 R71). -/
def Context.putMask (c : Context) (r : MReg) (mask val : BitVec 32768) (ready : Nat) : Context :=
  if r = 0 then c
  else
    let old := c.vec.m[r]
    let pend := if c.clock.mp.isEmpty && ready = 0 then [] else ⟨r, old, mask, ready, c.group.isSome⟩ :: c.clock.mp
    { c with
      vec := { c.vec with m := c.vec.m.set r.val ((old &&& ~~~mask) ||| (val &&& mask)) r.isLt }
      clock := { c.clock with mp := pend }
      mpoison := clearPieces c.mpoison r mask }

/-- Write elements of width `w` of a group of `n` registers. -/
def Context.putCells (c : Context) (tile : Bool) (g : Nat) (d : VReg) (n w : Nat) (cells : List (Nat × Nat)) (ready : Nat) :
    Context :=
  (List.range n).foldl (fun c k =>
    let p := cellsIn tile g w k cells
    if p.1 = 0 then c else c.putReg (regAt d k) (BitVec.ofNat 16384 p.1) (BitVec.ofNat 16384 p.2) 0 0 ready) c

/-- A block holds a non-finite value: SCALE is 0xFF or an element decodes to a NaN or an infinity, pad elements as code
zero (03 R51, 14 R214). -/
def VecRegs.blockNf (r : VecRegs) (v : VView) (d : VReg) (b : Nat) (w : BitVec 32) : Bool :=
  let n := w.toNat
  n % 256 == 255 || (List.range v.bl).any (fun i => (v.fmt.decode 127 (n / 256 % 256) (r.code v d (b * v.bl + i))).nonFinite)

/-- Write the descriptor of a block with its nf bit recomputed (log entry 29, DEDUCED). -/
def Context.putDesc (c : Context) (v : VView) (d : VReg) (b : Nat) (w : BitVec 32) (ready : Nat) : Context :=
  let p := descPlace v.tile v.g v.sew v.bl b
  let nf := c.vec.blockNf v d b w
  let word := w.toNat % 2 ^ 16 + (if nf then 2 ^ 16 else 0)
  c.putReg (regAt d p.1) 0 0 (BitVec.ofNat 8192 (2 ^ 32 - 1) <<< (32 * p.2)) (BitVec.ofNat 8192 word <<< (32 * p.2)) ready

/-- The blocks of written elements, each once, in order of first appearance. -/
def blocksOf (bl : Nat) (cells : List (Nat × Nat)) : List Nat :=
  (cells.foldl (fun (acc : List Nat) c => match acc with
    | b :: _ => if b = c.1 / bl then acc else if acc.contains (c.1 / bl) then acc else c.1 / bl :: acc
    | [] => [c.1 / bl]) []).reverse

/-- Write elements of an FMT group with descriptors: each written block takes the SCALE and X that `dsc` names, or keeps
its own, and its nf bit is recomputed. -/
def Context.putGroup (c : Context) (v : VView) (d : VReg) (cells : List (Nat × Nat)) (dsc : Nat → Option (BitVec 32))
    (ready : Nat) : Context :=
  let c1 := c.putCells v.tile v.g d v.lmul v.sew cells ready
  if v.bl = 0 then c1
  else (blocksOf v.bl cells).foldl (fun c b => c.putDesc v d b ((dsc b).getD (c.vec.desc v d b)) ready) c1

/-! ### Handoff (02 R24) -/

/-- The registers of the group a flag publishes. -/
def HFlag.regs (h : HFlag) : Nat := if h.vtype.getLsbD 7 then 8 else 2 ^ (h.vtype.toNat / 32 % 4)

/-- The lowest flag whose published group overlaps `n` registers from `d`. -/
def State.guarding (s : State) (d : VReg) (n : Nat) : Option (Fin 32) :=
  (s.published s.me).find? (fun k =>
    let h := s.myCluster.hf[k]
    !apart d n h.base h.regs)

/-- HANDOFF when the instruction writes a register of a group the thread has published: before it writes
(log entry 30, DEDUCED). -/
def notHanded (d : VReg) (n : Nat) (s : State) (k : Out) : Out :=
  match s.guarding d n with
  | some f => trap .handoff (BitVec.ofNat 64 f.val) s
  | none => k

/-- HANDOFF for the group an instruction writes, if it writes one (R24, R213) (log entry 30, DEDUCED). -/
def handing (dst : Option (VReg × Nat)) (s : State) (k : Out) : Out :=
  match dst with
  | some p => notHanded p.1 p.2 s k
  | none => k

/-! ### Issue -/

/-- The slots a vector instruction occupies (12 R173). -/
def VView.slots (v : VView) : Nat := v.lmul

/-- The slot from which a result of latency `lat` is readable; 0 when it is interlocked. -/
def Context.readyAt (c : Context) (v : VView) (lat : Nat) : Nat := if lat = 0 then 0 else c.vslot + v.slots - 1 + lat

/-- The vector queue's head issues one instruction of `occ` slots with stall count `st`; the scalar stream goes on
(log entry 7, DEDUCED). -/
def Context.issueV (c : Context) (occ st : Nat) : Context :=
  let t := c.vslot
  { c with clock := { c.clock.prune (t + occ + st) with scalar := c.clock.scalar + 1, vector := t + occ + st } }

/-- A vector instruction completes: outside a block the pc moves on and VBEG becomes 0 (R213). Inside a block the block
itself moves the program counters. -/
def Context.vdone (c : Context) (v : VView) (st len : Nat) : Context :=
  match c.group with
  | some _ => c
  | none =>
    let c1 := c.issueV v.slots st
    { c1 with pc := c.pc + BitVec.ofNat 64 len, vec := { c1.vec with vbeg := 0 } }

/-- LDV becomes the first register written, but not inside a block (05 R72). -/
def Context.setLdv (c : Context) (d : VReg) : Context :=
  match c.group with
  | some _ => c
  | none => { c with vec := { c.vec with ldv := d } }

/-! ### The frame of a vector instruction -/

/-- The checks of a vector instruction (12 R186): a thread's; inside a block only where allowed; VTYPE; then, when it has
an active unit or takes no mask, STALL, HANDOFF for the group `dst` that it writes, and POISON of its source registers, before
what needs their values. Whether it has an active unit is decided by what the mask reads in this slot, its old value where it is
read early (log entry 7, DEDUCED; log entry 24, DESIGN CHOICE). -/
def vector (inBlock : Bool) (ok : VView → Bool) (xs : List XReg) (vs : VView → List VSrc) (ms : List MReg)
    (act : VView → VecRegs → Bool) (dst : VView → Option (VReg × Nat)) (s : State) (k : VView → VecRegs → State → Out) : Out :=
  threadOnly s <|
    if s.me.group.isSome && !inBlock then trapIll s
    else
      match s.me.view with
      | none => trapVtype s
      | some v =>
        if !ok v then trapVtype s
        else
          let r := s.me.vregs
          if act v r then stalls v xs (vs v) ms s (handing (dst v) s (cleanV v xs (vs v) ms s (k v r s))) else k v r s

end Sys2Proof.Machine
end

