-- ==== Sys2Proof/Machine/Sync.lean ====
section
/-! DEFINITION. Fences, group barriers, the Hatch ring and handoff flags (15 R248 to R253). -/

namespace Sys2Proof.Machine

/-! ### Fences (R248, R249; 10 R142, R144, R147) -/

/-- FENCE.C (10 R142): the earlier accesses of the context in the masked classes perform on their paths before the later ones in
them; it waits for no scope, and a mask of zero has no effect. -/
def execFenceC (mask : BitVec 16) (s : State) : Out :=
  let pick := fun r : StoreRec => r.ctx == some s.me.uid && mask.getLsbD r.cls.val
  let s1 := (s.loseUnreachable (fun r => pick r && r.mode != .early)).perform pick
  (s1.modMe (fun c => { c with ahead := c.ahead.filter (fun a => !mask.getLsbD a.cls.val) })).finish

/-- The paths of a context as a set (10 R138) (log entry 35, DEDUCED). -/
def Context.pathSet (c : Context) : BitVec 5 := match c.kind with | .thread => 0b00011 | .bureau => 0b00101

/-- FENCE.P (10 R144): the earlier accesses of the context on the from-paths it has perform, its stores become visible to the
to-paths of every context of the die, and no later load on these stands for one before; an empty set has no effect
(log entry 35, DEDUCED). -/
def execFenceP (pf pt : BitVec 5) (s : State) : Out :=
  let from_ := pf &&& s.me.pathSet
  if from_ = 0 ∨ pt = 0 then s.finish
  else if from_.getLsbD (pathIdx .p2) && s.p2Waits then .next s
  else
    let pick := fun r : StoreRec => r.ctx == some s.me.uid && from_.getLsbD (pathIdx r.path)
    let s1 := s.loseUnreachable (fun r => pick r && r.mode != .early)
    ((s1.coverPaths pt pick).acquire (fun p => pt.getLsbD (pathIdx p))).finish

/-- FENCE.S (10 R147, 11 R162). -/
def execFenceS (sc : Scope) (s : State) : Out := fenced sc s fun s => s.finish

/-- The membership of the context in focus in the group that a register names. -/
def State.memberOf (s : State) (g : Word) : Option Membership :=
  if g.toNat > 0xFFF then none
  else if Assoc.has s.groups g.toNat then s.me.members.find? (fun m => m.gid == g.toNat) else none

/-- The context records the phase it last arrived in. -/
def Context.setLast (c : Context) (gid : Nat) (p : Option Nat) : Context :=
  { c with members := c.members.map (fun m => if m.gid = gid then { m with last := p } else m) }

/-- The member arrives in the open phase, which completes with the last expected arrival (02 R16)
(log entry 10, DEDUCED). -/
def State.arrive (s : State) (m : Membership) : State :=
  let g := Assoc.get ⟨0, 0, 0, 0⟩ s.groups m.gid
  let s1 : State := { s with groups := Assoc.set s.groups m.gid ({ g with arrived := g.arrived + 1 } : GroupRec).settle }
  s1.modMe (fun c => c.setLast m.gid (some g.phase))

/-- FENCE.A (R249; 10 R148; 02 R16): orders as FENCE.S and arrives; a repeated arrival, or that of a thread not expected
yet, stalls until the open phase completes (log entry 35, DEDUCED). -/
def execFenceA (sc : Scope) (a : XReg) (s : State) : Out :=
  threadOnly s <| readsX [a] s <|
    match s.memberOf (s.rx a) with
    | none => trap .prot (s.rx a) s
    | some m => fenced sc s fun s =>
        let g := Assoc.get ⟨0, 0, 0, 0⟩ s.groups m.gid
        if m.arrivedIn g || !m.expectedIn g then .next s else (s.arrive m).finish

/-- BWAIT (R249, 02 R16): waits until the phase of the thread's last arrival has completed, and acquires (10 R148). -/
def execBwait (_sc : Scope) (a : XReg) (s : State) : Out :=
  threadOnly s <| readsX [a] s <|
    match s.memberOf (s.rx a) with
    | none => trap .prot (s.rx a) s
    | some m =>
      if m.arrivedIn (Assoc.get ⟨0, 0, 0, 0⟩ s.groups m.gid) then .next s
      else (s.acquireAll.modMe (fun c => c.setLast m.gid none)).finish

/-! ### The Hatch ring (R250, 09 R134) -/

/-- The loop slot of the die that the launch of the context names `l`. -/
def State.loopSlot (s : State) (l : Fin 16) : Option (Fin 16) :=
  match s.launch s.me.launch with
  | none => none
  | some k => ((Assoc.get [] k.hatch s.me.die.val)[l.val]?).map (fun i => ⟨i % 16, Nat.mod_lt _ (by decide)⟩)

/-- A loop slot of the die of the context in focus. -/
def State.hatchAt (s : State) (i : Fin 16) : HatchSlot := ((s.dies[s.me.die]).hatch)[i]

/-- While window bit 0 is set the window shifts down and F increments: at most `n` times. -/
def HatchSlot.shift : Nat → HatchSlot → HatchSlot
  | 0, h => h
  | n + 1, h => if h.win.getLsbD 0 then HatchSlot.shift n { h with win := h.win >>> 1, f := h.f + 1 } else h

/-- Iteration `i` is posted: at or above F it sets its window bit (log entry 35, DEDUCED). -/
def HatchSlot.post (h : HatchSlot) (i : Nat) : HatchSlot :=
  if i < h.f.toNat then h else HatchSlot.shift 64 { h with win := h.win ||| (1#64 <<< (i - h.f.toNat)) }

/-- HPOST (R250): PROT for a slot the launch does not hold; it waits while xa ≥ F + 64, and releases at scope D
(log entry 35, DEDUCED). -/
def execHpost (l : Fin 16) (a : XReg) (s : State) : Out :=
  readsX [a] s <|
    match s.loopSlot l with
    | none => trap .prot (BitVec.ofNat 64 l.val) s
    | some i => releasing .d (fun _ => true) s fun s =>
        if (s.hatchAt i).f.toNat + 64 ≤ (s.rx a).toNat then .next s
        else (s.modDie s.me.die (fun d =>
          { d with hatch := d.hatch.set i.val ((d.hatch[i]).post (s.rx a).toNat) i.isLt })).finish

/-- HWAIT (R250): completes once F > xa, and acquires (10 R150). -/
def execHwait (l : Fin 16) (a : XReg) (s : State) : Out :=
  readsX [a] s <|
    match s.loopSlot l with
    | none => trap .prot (BitVec.ofNat 64 l.val) s
    | some i => if (s.rx a).toNat < (s.hatchAt i).f.toNat then s.acquireAll.finish else .next s

/-! ### Handoff flags (R251, R252; 05 R84) -/

/-- A flag of the cluster of the context in focus. -/
def State.flag (s : State) (f : Fin 32) : HFlag := (s.myCluster.hf)[f]

/-- Change a flag of a cluster. -/
def State.setFlag (s : State) (cl : Fin 64) (f : Fin 32) (h : HFlag) : State :=
  s.modCluster cl (fun c => { c with hf := c.hf.set f.val h f.isLt })

/-- PUB of a context (05 R84): its slot, or 4 for the Bureau. -/
def Context.pubSlot (c : Context) : Fin 5 := match c.kind with | .thread => ⟨c.slot.val, by omega⟩ | .bureau => 4

/-- The paths of a release by HFSET (10 R150). -/
def Context.hfPaths (c : Context) (p : Path) : Bool := c.pathSet.getLsbD (pathIdx p)

/-- HANDOFF with the flag the instruction names. -/
def trapFlag (f : Fin 32) (s : State) : Out := trap .handoff (BitVec.ofNat 64 f.val) s

/-- HFSET with a register group (R251): VTYPE, then HANDOFF for a full flag or an overlap with another published group;
a release at scope C on P0 and P1; then the flag takes the group with VL and VTYPE. -/
def execHfset (f : Fin 32) (b : VReg) (s : State) : Out :=
  threadOnly s <|
    match s.me.view with
    | none => trapVtype s
    | some v =>
      if !aligned b v.lmul then trapVtype s
      else if (s.flag f).full || (s.guarding b v.lmul).isSome then trapFlag f s
      else releasing .c s.me.hfPaths s fun s =>
        (s.setFlag s.me.cl f ⟨true, true, s.me.pubSlot, b, s.me.vec.vl.setWidth 16, s.me.vec.vtype, some s.me.uid⟩).finish

/-- HFSET without a group (R251). -/
def execHfsetBare (f : Fin 32) (s : State) : Out :=
  if (s.flag f).full then trapFlag f s
  else releasing .c s.me.hfPaths s fun s =>
    (s.setFlag s.me.cl f ⟨true, false, s.me.pubSlot, 0, 0, 0, some s.me.uid⟩).finish

/-- HFSET.CLR (R251): HANDOFF for a flag that carries a group, nothing for an empty one; else a release, and the flag
becomes empty with its other fields unchanged. -/
def execHfsetClr (f : Fin 32) (s : State) : Out :=
  if (s.flag f).full && (s.flag f).grp then trapFlag f s
  else if !(s.flag f).full then s.finish
  else releasing .c s.me.hfPaths s fun s => (s.setFlag s.me.cl f { s.flag f with full := false }).finish

/-- HFWAIT (R252): waits until FULL equals the state; then it acquires (10 R150). -/
def execHfwait (f : Fin 32) (full : Bool) (s : State) : Out := if (s.flag f).full = full then s.acquireAll.finish else .next s

end Sys2Proof.Machine
end

