-- ==== Sys2Proof/Machine/Copies.lean ====
section
/-! DEFINITION. Copies and their tags (15 R254 to R257, 10 R153, 05 R81): the copy instructions, the copy engine's pieces,
faults and completion, and the tag waits. -/

namespace Sys2Proof.Machine

/-! ### Copies in flight -/

/-- A copy by number. -/
def State.copy (s : State) (n : Nat) : Option Copy := s.copies.find? (fun c => c.id == n)

/-- Change a copy. -/
def State.modCopy (s : State) (n : Nat) (f : Copy → Copy) : State :=
  { s with copies := s.copies.map (fun c => if c.id = n then f c else c) }

/-- A copy is no longer in flight. -/
def State.dropCopy (s : State) (n : Nat) : State := { s with copies := s.copies.filter (fun c => c.id != n) }

/-- The bytes of a copy. -/
def Copy.total (c : Copy) : Nat := c.rows * c.rbytes

/-- The party whose rights a copy carries: the issuing thread's, or the queue's function for a copy entry (R255, 07 R104). -/
def Copy.party (c : Copy) : Party := ⟨c.fn, c.sp, c.launch, c.cl, c.owner.isSome⟩

/-- The copy engine as an observer on P3 (10 R153). -/
def Copy.obs (c : Copy) : Observer := ⟨c.owner, dieOfCl c.cl, .p3⟩

/-- The copy has begun. -/
def Copy.started (c : Copy) : Bool := c.done != 0 || !c.parts.isEmpty || c.st != .running

/-- How far the copy is within a row. -/
def Copy.row (c : Copy) (r : Nat) : CopyRow := (c.parts.find? (fun q => q.row == r)).getD ⟨r, 0, []⟩

/-- A row goes on, with some more bytes written. -/
def Copy.setRow (c : Copy) (q : CopyRow) (more : Nat) : Copy :=
  { c with done := c.done + more, parts := q :: c.parts.filter (fun p => p.row != q.row) }

/-- The first unfinished row from `n` on, wrapping. -/
def Copy.nextRow (c : Copy) (n : Nat) : Nat :=
  (((List.range c.rows).map (fun i => (n + i) % c.rows)).find? (fun r => decide ((c.row r).done < c.rbytes))).getD 0

/-- Copies of one cluster start in issue order (R255). -/
def State.mayStart (s : State) (c : Copy) : Bool :=
  c.started || (s.copies.takeWhile (fun d => d.id != c.id)).all (fun d => d.cl != c.cl || d.started)

/-- An engine starts no piece while its launch, its tenant or its class on the die is held (09 R129)
(log entry 9, DEDUCED). -/
def State.engineHeld (s : State) (fn : Fin 256) (launch : Option Nat) (die : Fin 8) (k : EngineClass) : Bool :=
  (match launch.bind s.launch with | some l => l.budget.holds | none => false) || (s.fnRec fn).tenant.holds ||
    ((s.dies[die]).engines[engineIdx k]).holds

/-! ### Reading and writing by an engine -/

/-- The first byte of a translated range with no reachable home (11 R166), by its distance from the start. -/
def State.unreachByte (s : State) (die : Fin 8) (ms : List (Mapped × Nat)) (d : Nat := 0) : Option Nat :=
  match ms with
  | [] => none
  | (m, n) :: r =>
    match (List.range n).find? (fun i => !(isPad m.key || s.reachable die (homeOf (m.key + i)))) with
    | some i => some (d + i)
    | none => s.unreachByte die r (d + n)

/-- The keys of a translated range, byte by byte. -/
def byteKeys (ms : List (Mapped × Nat)) : List Nat := ms.flatMap (fun p => (List.range p.2).map (fun i => p.1.key + i))

/-- Read bytes with their poison marks, which a copy carries along (06 R96). -/
def State.readMarked (s : State) (o : Observer) (p : Party) (va : Word) (n : Nat) :
    Except (Cause × Word) (List (Byte × Bool)) :=
  match s.xlateRange p .load va n with
  | .error e => .error e
  | .ok ms =>
    match s.unreachByte o.die ms with
    | some i => .error (.poison, va + BitVec.ofNat 64 i)
    | none => .ok ((s.readParts o ms).zip ((byteKeys ms).map s.poisoned))

/-- Stores made since a number was next belong to a copy or collective. -/
def State.tagStores (s : State) (from_ work : Nat) : State :=
  { s with stores := s.stores.map (fun r => if from_ ≤ r.id then { r with work := some work } else r) }

/-- An engine stores bytes on a path; a byte not kept is left out. The stores are cut at the bytes left out. -/
def State.engineRuns (s : State) (fn : Fin 256) (die : Fin 8) (p : Path) (va : Word) (ms : List (Mapped × Nat)) :
    Nat → List (Byte × Bool) → State
  | _, [] => s
  | d, (b, keep) :: r =>
    let s1 :=
      if keep then
        match (byteKeysM ms)[d]? with
        | some (m, k) => s.putStore none fn die p 0 false (va + BitVec.ofNat 64 d) m.ki k [b] (storeModeAt m .early)
        | none => s
      else s
    s1.engineRuns fn die p va ms (d + 1) r
where
  /-- Each byte's mapping and key. -/
  byteKeysM (ms : List (Mapped × Nat)) : List (Mapped × Nat) :=
    ms.flatMap (fun q => (List.range q.2).map (fun i => (q.1, q.1.key + i)))

/-- An engine stores all or part of a range on a path: whole parts as one store each, else byte by byte. -/
def State.engineStore (s : State) (fn : Fin 256) (die : Fin 8) (p : Path) (work : Nat) (va : Word)
    (ms : List (Mapped × Nat)) (bs : List Byte) (keep : List Bool) : State :=
  let s1 := if keep.all (fun b => b) then s.storeParts none fn die p 0 false va .early none none ms bs
    else s.engineRuns fn die p va ms 0 (bs.zip keep)
  s1.tagStores s.nextId work

/-- The granules of the marked keys become poisoned. -/
def State.poisonKeys (s : State) (ks : List Nat) : State :=
  { s with poison := ks.foldl (fun l k => if l.contains (k / 64) then l else k / 64 :: l) s.poison }

/-! ### Pieces (R255, R256) -/

/-- The source or destination offset of a row or element (R254): on P3 from the offset array where there is one. -/
def State.copyOffset (s : State) (c : Copy) (arr pitch : Word) (r : Nat) : Except (Cause × Word) Word :=
  if c.indexed && arr != 0 then
    match s.loadVa c.obs c.party (arr + BitVec.ofNat 64 (8 * r)) 8 with
    | .error e => .error e
    | .ok bs => .ok (BitVec.ofNat 64 (ofBytes bs))
  else .ok (BitVec.ofNat 64 r * pitch)

/-- Read the next bytes of a row's source: at most `want`. -/
def State.copyRead (s : State) (c : Copy) (q : CopyRow) (want : Nat) : Except (Cause × Word) (List (Byte × Bool)) :=
  let p := q.done + q.ahead.length
  match s.copyOffset c c.sidx c.spitch q.row with
  | .error e => .error e
  | .ok o => s.readMarked c.obs c.party (c.src + o + BitVec.ofNat 64 p) (min want (c.rbytes - p))

/-- Whether the copy has written a key already. -/
def Copy.wroteKey (c : Copy) (k : Nat) : Bool := c.wrote.any (fun p => decide (p.1 ≤ k) && decide (k < p.1 + p.2))

/-- Which of the bytes at the keys are written: all but, by a free choice, those that the copy has already written (R255)
and any byte of a copy that has stopped (R256) (log entry 33, DESIGN CHOICE). -/
def Copy.keeps (c : Copy) (ctr : Nat) (ks : List Nat) : List Bool :=
  ks.zipIdx.map (fun q =>
    match c.st with
    | .stopped _ _ => Config.choice (ctr + q.2)
    | _ => !c.wroteKey q.1 || Config.choice (ctr + q.2))

/-- Write the next piece of a row from the bytes read: at most `want`, within 4 KiB (log entry 33, DESIGN CHOICE). -/
def State.copyWrite (s : State) (c : Copy) (q : CopyRow) (want : Nat) : Except (Cause × Word) State :=
  match s.copyOffset c c.didx c.dpitch q.row with
  | .error e => .error e
  | .ok o =>
    let bs := q.ahead.take want
    let va := c.dst + o + BitVec.ofNat 64 q.done
    match s.probeStore c.party va bs.length with
    | .error e => .error e
    | .ok ms =>
      let ks := byteKeys ms
      let keep := c.keeps s.freeCtr ks
      let s1 := s.engineStore c.fn (dieOfCl c.cl) .p3 c.id va ms (bs.map (fun b => b.1)) keep
      let s2 := s1.poisonKeys ((ks.zip (bs.zip keep)).filterMap (fun q => if q.2.1.2 && q.2.2 then some q.1 else none))
      .ok ({ s2 with freeCtr := s2.freeCtr + ks.length }.modCopy c.id (fun k =>
        { k.setRow { q with done := q.done + bs.length, ahead := q.ahead.drop bs.length } bs.length with wrote := k.wrote ++ keysOf ms }))

/-- The thread that issued a copy or collective has not exited. -/
def State.alive (s : State) (uid : Nat) : Bool := s.contexts.any (fun c => c.uid == uid && c.status != .exited)

/-- A fault is pending for a context (R256). -/
def State.pend (s : State) (uid : Nat) (f : PendingFault) : State :=
  s.modContext uid (fun c => { c with tags := { c.tags with faults := c.tags.faults ++ [f] } })

/-- An entry of a queue has completed what it started. -/
def State.markEntry (s : State) (q : Nat) (seq : BitVec 32) : State :=
  s.modQueue q (fun k => { k with ents := k.ents.map (fun e => if e.seq = seq then { e with done := true } else e) })

/-- A copy stops with a fault: it is pending for the thread; after the thread's exit it ends the launch (18 R304); a copy
entry stops its queue with REASON 3 (07 R110) (log entry 16, DEDUCED; log entry 58, DEDUCED). -/
def State.stopCopy (s : State) (c : Copy) (k : Cause) (va : Word) : State :=
  match c.owner with
  | some u =>
    if s.alive u then (s.pend u ⟨c.tag.val, k, va⟩).modCopy c.id (fun d => { d with st := .stopped k va })
    else
      let s1 := s.dropCopy c.id
      match c.launch with
      | some l => s1.endLaunch l 2
      | none => s1
  | none =>
    let s1 := s.modCopy c.id (fun d => { d with st := .stopped k va })
    match c.entry with
    | some (q, seq) => (s1.markEntry q seq).stopQueue q 3 seq
    | none => s1

/-- A fault of a piece (R256): PAGE of a thread's copy asks the host for the page, every other fault stops the copy. -/
def State.copyFault (s : State) (c : Copy) (acc : Access) (k : Cause) (va : Word) : State :=
  if k = .page ∧ c.owner.isSome then
    let s1 : State := { s with pageReqs := s.pageReqs ++ [⟨s.nextId, c.fn, va, acc, va, none, some c.id⟩], nextId := s.nextId + 1 }
    s1.modCopy c.id (fun d => { d with st := .waitingPage s.nextId })
  else s.stopCopy c k va

/-- A stopped copy passes over a range of a row that it cannot access (log entry 33, DESIGN CHOICE). -/
def State.copySkip (s : State) (c : Copy) (q : CopyRow) (want : Nat) : State :=
  let n := min want (c.rbytes - q.done)
  s.modCopy c.id (fun d => d.setRow ⟨q.row, q.done + n, []⟩ n)

/-- The engine writes a piece of a row, or meets a fault. -/
def State.copyPut (s : State) (c : Copy) (q : CopyRow) (want : Nat) (stopped : Bool) : State :=
  match s.copyWrite c q want with
  | .ok t => t
  | .error (k, va) => if stopped then s.copySkip c q want else s.copyFault c .store k va

/-- The engine reads ahead or writes a piece of a row (R255): which row goes on, how far it reads ahead and how large a piece is are
free, so that every byte may take the value its source holds at any instant up to its write, and rows have no order
(10 R141) (log entry 33, DESIGN CHOICE). -/
def State.copyMove (s : State) (c : Copy) (stopped : Bool) : State :=
  let want := (Config.pieceBytes s.freeCtr).toNat + 1
  let q := c.row (c.nextRow (Config.pieceRow s.freeCtr))
  if c.total ≤ c.done then s
  else if q.ahead.isEmpty || (decide (q.done + q.ahead.length < c.rbytes) && Config.choice s.freeCtr) then
    match s.tick.copyRead c q want with
    | .ok bs => s.tick.modCopy c.id (fun d => d.setRow { q with ahead := q.ahead ++ bs } 0)
    | .error (k, va) =>
      if !q.ahead.isEmpty then s.tick.copyPut c q want stopped
      else if stopped then s.tick.copySkip c q want
      else s.tick.copyFault c .load k va
  else s.tick.copyPut c q want stopped

/-- COPY_PIECE (R255): nothing happens while the copy waits for a page or its engine is held. Pieces of a stopped copy
are those that may or may not be written (R256). -/
def execCopyPiece (n : Nat) (s : State) : Out :=
  match s.copy n with
  | none => .next s
  | some c =>
    match c.st with
    | .waitingPage _ => .next s
    | .stopped _ _ => .next (s.copyMove c true)
    | .running =>
      if s.engineHeld c.fn c.launch (dieOfCl c.cl) .copy || !s.mayStart c then .next s
      else .next (s.copyMove c false)

/-! ### Completion (05 R81, 07 R108) -/

/-- A tag sets and is released. -/
def Tags.set_ (t : Tags) (tag : Fin 64) (id : Nat) : Tags :=
  { t with ctags := t.ctags ||| (1#64 <<< tag.val), held := t.held &&& ~~~(1#64 <<< tag.val),
           ended := t.ended ++ [(tag.val, id)] }

/-- COPY_COMPLETE (05 R81; 07 R108): every byte is visible to every path of the die, or for a copy entry at system scope;
the tag sets, or the entry is done. -/
def execCopyComplete (n : Nat) (s : State) : Out :=
  match s.copy n with
  | none => .next s
  | some c =>
    if c.st = .running ∧ c.total ≤ c.done then
      let mine := fun r : StoreRec => r.work == some n
      match c.owner with
      | some u =>
        .next ((((s.loseUnreachable (fun r => mine r && r.mode != .early)).drainDie mine).modContext u (fun x =>
          { x with tags := x.tags.set_ c.tag n })).dropCopy n)
      | none =>
        let s1 := ((s.loseUnreachable mine).drainAll mine).dropCopy n
        .next (match c.entry with | some (q, seq) => s1.markEntry q seq | none => s1)
    else .next s

/-! ### The copy instructions (R254) -/

/-- A copy that the context in focus issues takes its tag; one without work completes at once (R255). -/
def State.startCopy (s : State) (c : Copy) : State :=
  let t := 1#64 <<< c.tag.val
  if c.total = 0 then
    s.modMe (fun k => { k with tags := { k.tags with ctags := k.tags.ctags ||| t, ended := k.tags.ended.filter (fun p => p.1 != c.tag.val) } })
  else
    { s with copies := s.copies ++ [c], nextId := s.nextId + 1 }.modMe (fun k =>
      { k with tags := { k.tags with ctags := k.tags.ctags &&& ~~~t, held := k.tags.held ||| t,
                                     ended := k.tags.ended.filter (fun p => p.1 != c.tag.val) } })

/-- A copy of the context in focus, not begun. -/
def State.newCopy (s : State) (tag : Fin 64) (dst src : Word) : Copy where
  id := s.nextId
  owner := some s.me.uid
  tag := tag
  launch := some s.me.launch
  entry := none
  fn := s.me.fn
  sp := s.me.sp
  cl := s.me.cl
  rows := 1
  rbytes := 0
  src := src
  dst := dst
  spitch := 0
  dpitch := 0
  sidx := 0
  didx := 0
  indexed := false
  done := 0
  parts := []
  wrote := []
  st := .running

/-- The frame of a copy instruction (R255): it waits while its tag is held (log entry 34, DEDUCED). -/
def copyIssue (d a b : XReg) (tag : Fin 64) (s : State) (k : Copy → Out) : Out :=
  threadOnly s <| readsX [d, a, b] s <|
    if s.me.tags.held.getLsbD tag.val then .next s else k (s.newCopy tag (s.rx d) (s.rx a))

/-- CPY (R254): xn bytes. -/
def execCpy (d a b : XReg) (tag : Fin 64) (s : State) : Out :=
  copyIssue d a b tag s fun c => (s.startCopy { c with rbytes := (s.rx b).toNat }).finish

/-- A descriptor read on P0 in class 0 (R254, R258): every fault has the descriptor address in TVAL
(log entry 34, DEDUCED). -/
def descOn (va : Word) (n : Nat) (s : State) (k : List Byte → State → Out) : Out :=
  match badAddress va 8 with
  | some c => trap c va s
  | none =>
    match s.xlateRange s.me.party .load va n with
    | .error (c, a) => faultOf c a va .load s
    | .ok ms =>
      match s.badByte s.me.die ms with
      | some i => faultOf .poison (va + BitVec.ofNat 64 i) va .load s
      | none => loadFrom .p0 0 ms s k

/-- A field of a descriptor. -/
def fieldOf (bs : List Byte) (off n : Nat) : Nat := ofBytes ((bs.drop off).take n)

/-- CPY2 (R254): rows of bytes at pitches. -/
def execCpy2 (d a b : XReg) (tag : Fin 64) (s : State) : Out :=
  copyIssue d a b tag s fun c =>
    descOn (s.rx b) 32 s fun bs t =>
      if fieldOf bs 24 8 ≠ 0 then trap .prot (s.rx b) s
      else (t.startCopy { c with rows := fieldOf bs 0 4, rbytes := fieldOf bs 4 4,
                                 spitch := BitVec.ofNat 64 (fieldOf bs 8 8), dpitch := BitVec.ofNat 64 (fieldOf bs 16 8) }).finish

/-- CPYX (R254): elements at offsets from arrays. -/
def execCpyx (d a b : XReg) (tag : Fin 64) (s : State) : Out :=
  copyIssue d a b tag s fun c =>
    descOn (s.rx b) 32 s fun bs t =>
      let size := fieldOf bs 4 4
      if fieldOf bs 24 8 ≠ 0 ∨ size = 0 ∨ size > 4096 ∨ fieldOf bs 8 8 % 8 ≠ 0 ∨ fieldOf bs 16 8 % 8 ≠ 0 then trap .prot (s.rx b) s
      else (t.startCopy { c with rows := fieldOf bs 0 4, rbytes := size, indexed := true,
                                 spitch := BitVec.ofNat 64 size, dpitch := BitVec.ofNat 64 size,
                                 sidx := BitVec.ofNat 64 (fieldOf bs 8 8), didx := BitVec.ofNat 64 (fieldOf bs 16 8) }).finish

/-! ### Tag waits (R257) -/

/-- The tags in a set are observed: their copies' stores count as the context's own from now on (10 R153). -/
def Tags.observe (t : Tags) (set : Word) : Tags :=
  { t with observed := t.observed ++ (t.ended.filter (fun p => set.getLsbD p.1)).map (fun p => p.2)
           ended := t.ended.filter (fun p => !set.getLsbD p.1) }

/-- A tag wait: a pending fault in the mask is reported first (R256); else it waits, or completes and observes the tags
that are set, and no later load performs before it (10 R153). A reported copy is no longer in flight. -/
def tagWait (d a : XReg) (ready : Word → Word → Bool) (result : Word → Word) (s : State) : Out :=
  threadOnly s <| readsX [a] s <|
    let mask := s.rx a
    reporting (fun f => decide (f.tag < 64) && mask.getLsbD f.tag) s fun s =>
      let got := s.me.tags.ctags &&& mask
      if ready mask got then (s.acquireAll.modMe (fun c => { c with tags := c.tags.observe got }.wx d (result got) 0)).finish
      else .next s

/-- TWAITALL (R257). -/
def execTwaitall (d a : XReg) (s : State) : Out := tagWait d a (fun m g => g == m) id s

/-- TWAITANY (R257): at once for an empty mask. -/
def execTwaitany (d a : XReg) (s : State) : Out := tagWait d a (fun m g => g != 0 || m == 0) id s

/-- The lowest set bit of a word, or 64. -/
def lowestBit (w : Word) : Nat := ((List.range 64).find? (fun i => w.getLsbD i)).getD 64

/-- TFIRST (R257): without waiting. -/
def execTfirst (d a : XReg) (s : State) : Out :=
  tagWait d a (fun _ _ => true) (fun g => BitVec.ofNat 64 (lowestBit g)) s

end Sys2Proof.Machine
end

