-- ==== Sys2Proof/Machine/Float.lean ====
section
/-! DEFINITION. Floating-point operations on exact values (03 R38, R39; 13 R192, R193; 14 R218, R219): each answers the exact
result, or enough of it to round once, with the flags of its operands. -/

namespace Sys2Proof.Machine

/-! ### Sums and products -/

/-- The signed integer of a finite value at an exponent no greater than its own. -/
def signedAt (neg : Bool) (m : Nat) (e t : Int) : Int :=
  let v : Int := (m * 2 ^ (e - t).toNat : Nat)
  if neg then -v else v

/-- The sign of an exact zero sum of values that are not both zeros of one sign: −0 under RDN (IEEE 754). -/
def zeroSumNeg (rm : RMode) : Bool := rm == .rdn

/-- The exact sum of two finite values. -/
def addFin (rm : RMode) (n1 : Bool) (m1 : Nat) (e1 : Int) (n2 : Bool) (m2 : Nat) (e2 : Int) : Val :=
  let t := min e1 e2
  let i := signedAt n1 m1 e1 t + signedAt n2 m2 e2 t
  if i = 0 then .fin (if n1 = n2 ∧ m1 = 0 then n1 else zeroSumNeg rm) 0 0
  else .fin (decide (i < 0)) i.natAbs t

/-- The exact sum of two values, with NV for a signalling operand or opposite infinities. -/
def addVal (rm : RMode) (a b : Val) : Val × FlagSet :=
  match a, b with
  | .nan s, w => (.nan false, nvIf (s || w.isSnan))
  | v, .nan s => (.nan false, nvIf (s || v.isSnan))
  | .inf p, .inf q => if p = q then (.inf p, 0) else (.nan false, flagNV)
  | .inf p, .fin _ _ _ => (.inf p, 0)
  | .fin _ _ _, .inf q => (.inf q, 0)
  | .fin n1 m1 e1, .fin n2 m2 e2 => (addFin rm n1 m1 e1 n2 m2 e2, 0)

/-- The exact product, with NV for a signalling operand or 0 × ∞. -/
def mulVal (a b : Val) : Val × FlagSet :=
  match a, b with
  | .nan s, w => (.nan false, nvIf (s || w.isSnan))
  | v, .nan s => (.nan false, nvIf (s || v.isSnan))
  | .inf p, .inf q => (.inf (p != q), 0)
  | .inf p, .fin n m _ => if m = 0 then (.nan false, flagNV) else (.inf (p != n), 0)
  | .fin n m _, .inf q => if m = 0 then (.nan false, flagNV) else (.inf (n != q), 0)
  | .fin n1 m1 e1, .fin n2 m2 e2 => (.fin (n1 != n2) (m1 * m2) (e1 + e2), 0)

/-- a × b + c exactly; 0 × ∞ raises NV even when c is a quiet NaN (13 R192). -/
def fmaVal (rm : RMode) (a b c : Val) : Val × FlagSet :=
  let p := mulVal a b
  let r := addVal rm p.1 c
  (r.1, p.2 ||| r.2)

/-! ### Quotients and square roots -/

/-- The quotient of nonzero finite values, with `p` significant bits and a sticky last bit. -/
def divFin (p : Nat) (n1 : Bool) (m1 : Nat) (e1 : Int) (n2 : Bool) (m2 : Nat) (e2 : Int) : Val :=
  let sh := p + m2.log2 + 2 - m1.log2
  let num := m1 * 2 ^ sh
  .fin (n1 != n2) (2 * (num / m2) + (if num % m2 = 0 then 0 else 1)) (e1 - e2 - sh - 1)

/-- The quotient (13 R192): a finite nonzero value over zero raises DZ; 0/0 and ∞/∞ raise NV. -/
def divVal (p : Nat) (a b : Val) : Val × FlagSet :=
  match a, b with
  | .nan s, w => (.nan false, nvIf (s || w.isSnan))
  | v, .nan s => (.nan false, nvIf (s || v.isSnan))
  | .inf _, .inf _ => (.nan false, flagNV)
  | .inf p, .fin n _ _ => (.inf (p != n), 0)
  | .fin n _ _, .inf q => (.fin (n != q) 0 0, 0)
  | .fin n1 m1 e1, .fin n2 m2 e2 =>
    if m2 = 0 then (if m1 = 0 then (.nan false, flagNV) else (.inf (n1 != n2), flagDZ))
    else if m1 = 0 then (.fin (n1 != n2) 0 0, 0)
    else (divFin p n1 m1 e1 n2 m2 e2, 0)

/-- The integer square root, bit by bit from bit `k - 1` down, on top of `r`. -/
def isqrtFrom (n : Nat) : Nat → Nat → Nat
  | 0, r => r
  | k + 1, r => if (r + 2 ^ k) * (r + 2 ^ k) ≤ n then isqrtFrom n k (r + 2 ^ k) else isqrtFrom n k r

/-- The integer square root. -/
def isqrt (n : Nat) : Nat := isqrtFrom n (n.log2 / 2 + 1) 0

/-- The square root of a positive finite value, with at least `p` significant bits and a sticky last bit. -/
def sqrtFin (p : Nat) (m : Nat) (e : Int) : Val :=
  let sh := 2 * p + 2
  let odd := (e - sh) % 2 == 1
  let m1 := if odd then m * 2 ^ (sh + 1) else m * 2 ^ sh
  let e1 := if odd then e - sh - 1 else e - sh
  let r := isqrt m1
  .fin false (2 * r + (if r * r = m1 then 0 else 1)) (e1 / 2 - 1)

/-- The square root (13 R192): below −0 raises NV; of −0 it is −0. -/
def sqrtVal (p : Nat) (a : Val) : Val × FlagSet :=
  match a with
  | .nan s => (.nan false, nvIf s)
  | .inf n => if n then (.nan false, flagNV) else (.inf false, 0)
  | .fin n m e => if m = 0 then (.fin n 0 0, 0) else if n then (.nan false, flagNV) else (sqrtFin p m e, 0)

/-! ### Order -/

/-- The order of two values that are not NaNs; zeros are equal. -/
def cmpVal (a b : Val) : Ordering :=
  match a, b with
  | .inf p, .inf q => if p = q then .eq else if p then .lt else .gt
  | .inf p, _ => if p then .lt else .gt
  | _, .inf q => if q then .gt else .lt
  | .fin n1 m1 e1, .fin n2 m2 e2 =>
    let t := min e1 e2
    compare (signedAt n1 m1 e1 t) (signedAt n2 m2 e2 t)
  | _, _ => .eq

/-- As `cmpVal`, with −0 below +0 (13 R193). -/
def cmpTotal (a b : Val) : Ordering :=
  if a.isZero && b.isZero then compare b.neg a.neg else cmpVal a b

/-- The relations of FCMP and VFCMP. -/
inductive FRel | eq | ne | lt | le | gt | ge | un
  deriving DecidableEq, Repr

/-- A relation of two values, with its flags (13 R193, 14 R219): EQ, NE and UN raise NV only for a signalling NaN, the
others for any NaN; with a NaN only NE and UN hold. -/
def relVal (r : FRel) (a b : Val) : Bool × FlagSet :=
  let nan := a.isNan || b.isNan
  let snan := a.isSnan || b.isSnan
  match r with
  | .un => (nan, nvIf snan)
  | .eq => (!nan && cmpVal a b == .eq, nvIf snan)
  | .ne => (nan || cmpVal a b != .eq, nvIf snan)
  | .lt => (!nan && cmpVal a b == .lt, nvIf nan)
  | .le => (!nan && cmpVal a b != .gt, nvIf nan)
  | .gt => (!nan && cmpVal a b == .gt, nvIf nan)
  | .ge => (!nan && cmpVal a b != .lt, nvIf nan)

/-- FMIN and FMAX (13 R193): the other operand of one NaN, the default NaN of two. -/
def minMaxVal (max : Bool) (a b : Val) : Val × FlagSet :=
  let fl := nvIf (a.isSnan || b.isSnan)
  if a.isNan && b.isNan then (.nan false, fl)
  else if a.isNan then (b, fl)
  else if b.isNan then (a, fl)
  else if (cmpTotal a b == .gt) == max then (a, fl) else (b, fl)

/-! ### Patterns -/

/-- The class code (13 R193): the sign in bit 3, the kind below. -/
def FloatFmt.classOf (f : FloatFmt) (c : Nat) : Nat :=
  let sign := c / 2 ^ (f.ebits + f.mbits) % 2
  8 * sign + (match f.decode c with
    | .nan true => 5
    | .nan false => 4
    | .inf _ => 3
    | .fin _ m _ => if m = 0 then 0 else if m < 2 ^ f.mbits then 1 else 2)

/-- A value that is a pattern of the format, written back; a NaN becomes the default NaN. -/
def FloatFmt.encode (f : FloatFmt) (v : Val) : Nat := (f.round .rtz false v).1

/-- Bits of precision that quotients and square roots carry for a format. -/
def FloatFmt.prec (f : FloatFmt) : Nat := f.mbits + 4

/-- Round an operation's result and join its flags. -/
def FloatFmt.finish (f : FloatFmt) (rm : RMode) (sat : Bool) (r : Val × FlagSet) : Nat × FlagSet :=
  let q := f.round rm sat r.1
  (q.1, r.2 ||| q.2)

/-- Addition of patterns. -/
def FloatFmt.add (f : FloatFmt) (rm : RMode) (sat : Bool) (a b : Nat) : Nat × FlagSet :=
  f.finish rm sat (addVal rm (f.decode a) (f.decode b))
/-- Subtraction of patterns. -/
def FloatFmt.sub (f : FloatFmt) (rm : RMode) (sat : Bool) (a b : Nat) : Nat × FlagSet :=
  f.finish rm sat (addVal rm (f.decode a) (f.decode b).flip)
/-- Multiplication of patterns. -/
def FloatFmt.mul (f : FloatFmt) (rm : RMode) (sat : Bool) (a b : Nat) : Nat × FlagSet :=
  f.finish rm sat (mulVal (f.decode a) (f.decode b))
/-- a × b + c of patterns. -/
def FloatFmt.fma (f : FloatFmt) (rm : RMode) (sat : Bool) (a b c : Nat) : Nat × FlagSet :=
  f.finish rm sat (fmaVal rm (f.decode a) (f.decode b) (f.decode c))
/-- c − a × b of patterns (14 R218). -/
def FloatFmt.fnms (f : FloatFmt) (rm : RMode) (sat : Bool) (a b c : Nat) : Nat × FlagSet :=
  f.finish rm sat (fmaVal rm (f.decode a).flip (f.decode b) (f.decode c))
/-- Division of patterns. -/
def FloatFmt.div (f : FloatFmt) (rm : RMode) (sat : Bool) (a b : Nat) : Nat × FlagSet :=
  f.finish rm sat (divVal f.prec (f.decode a) (f.decode b))
/-- Square root of a pattern. -/
def FloatFmt.sqrt (f : FloatFmt) (rm : RMode) (sat : Bool) (a : Nat) : Nat × FlagSet :=
  f.finish rm sat (sqrtVal f.prec (f.decode a))
/-- Minimum or maximum of patterns. -/
def FloatFmt.minMax (f : FloatFmt) (max : Bool) (a b : Nat) : Nat × FlagSet :=
  let r := minMaxVal max (f.decode a) (f.decode b)
  (f.encode r.1, r.2)
/-- A relation of patterns. -/
def FloatFmt.rel (f : FloatFmt) (r : FRel) (a b : Nat) : Bool × FlagSet := relVal r (f.decode a) (f.decode b)

end Sys2Proof.Machine
end

