-- ==== Sys2Proof/Machine/VecInt.lean ====
section
/-! DEFINITION. Integer vector instructions (14 R216, R217). -/

namespace Sys2Proof.Machine

/-! ### Operands and shared frames -/

/-- The second operand of an element-wise instruction: a vector, the low bits of a scalar, or an immediate. -/
inductive VOpnd
  | vv (b : VReg)
  | vx (b : XReg)
  | vi (imm : Word)
  deriving DecidableEq, Repr

/-- The scalar register it reads. -/
def VOpnd.xs : VOpnd → List XReg
  | .vx b => [b]
  | _ => []

/-- The vector groups it reads. -/
def VOpnd.vs (v : VView) : VOpnd → List VSrc
  | .vv b => [⟨b, v.lmul, v.sew⟩]
  | _ => []

/-- Its group starts where it may. -/
def VOpnd.ok (v : VView) : VOpnd → Bool
  | .vv b => aligned b v.lmul
  | _ => true

/-- Its value for an element. -/
def VOpnd.at (s : State) (v : VView) (r : VecRegs) (e : Nat) : VOpnd → Nat
  | .vv b => r.elem v b v.sew e
  | .vx b => (s.rx b).toNat % 2 ^ v.sew
  | .vi i => i.toNat % 2 ^ v.sew

/-- The results of an element-wise instruction over its active elements: index, code and flags. -/
def eltResults (s : State) (v : VView) (r : VecRegs) (o : VOpnd) (a d : VReg) (acc : Bool) (m : MReg)
    (f : Nat → Nat → Nat → Nat × FlagSet) : List (Nat × Nat × FlagSet) :=
  (v.elems (v.active s.me.group r m false)).map (fun e =>
    (e, f (r.elem v a v.sew e) (o.at s v r e) (if acc then r.elem v d v.sew e else 0)))

/-- Write the results of an element-wise instruction and its zeroed elements, raise its flags where `fl`, and complete. -/
def Context.finishElt (c : Context) (v : VView) (r : VecRegs) (d : VReg) (m : MReg) (res : List (Nat × Nat × FlagSet))
    (fl : Bool) (lat st len : Nat) : Context :=
  let cells := res.map (fun p => (p.1, p.2.1)) ++ (v.zeroed c.group r m false true true).map (fun e => (e, 0))
  let c1 := c.putGroup v d cells (fun _ => none) (c.readyAt v lat)
  let c2 := if fl then c1.raiseV false (res.map (fun p => (p.1, p.2.2))) else c1
  (c2.setLdv d).vdone v st len

/-- An element-wise instruction on FMT operands without descriptors (R210, R211): `acc` reads the old destination. -/
def eltwise (ok : VView → Bool) (o : VOpnd) (acc fl : Bool) (lat st len : Nat)
    (f : VView → Nat → Nat → Nat → Nat × FlagSet) (d a : VReg) (m : MReg) (s : State) : Out :=
  vector true (fun v => ok v && v.bl == 0 && aligned d v.lmul && aligned a v.lmul && o.ok v) o.xs
    (fun v => ⟨a, v.lmul, v.sew⟩ :: (if acc then [⟨d, v.lmul, v.sew⟩] else []) ++ o.vs v) [m]
    (fun v r => !(v.active s.me.group r m false).isEmpty) (fun v => some (d, v.lmul)) s fun v r s =>
      .next (s.modMe (fun c => c.finishElt v r d m (eltResults s v r o a d acc m (f v)) fl lat st len))

/-- The bits of a mask destination and their values: results of active elements, zeros of inactive ones under MP = 1, and
of the tail under TP = 1 up to the register's last bit (R210). -/
def VView.maskWrite (v : VView) (grp : Option (BitVec 32768)) (r : VecRegs) (m : MReg) (from0 : Bool)
    (res : List (Nat × Bool)) : BitVec 32768 × BitVec 32768 :=
  if !v.live then (0, 0)
  else
    let one := BitVec.ofNat 32768 1
    let on := res.foldl (fun acc p => acc ||| (one <<< p.1)) (0#32768)
    let val := res.foldl (fun acc p => if p.2 then acc ||| (one <<< p.1) else acc) (0#32768)
    let off := if v.mp then ((v.body grp from0).filter (fun u => !r.mbit m u)).foldl (fun acc u => acc ||| (one <<< u)) (0#32768)
      else 0
    let tail := if v.tp && grp.isNone then BitVec.allOnes 32768 <<< v.vl else 0
    (on ||| off ||| tail, val)

/-- Write a mask destination and complete. -/
def Context.finishMask (c : Context) (v : VView) (r : VecRegs) (d m : MReg) (from0 : Bool) (res : List (Nat × Bool))
    (lat st len : Nat) : Context :=
  let w := v.maskWrite c.group r m from0 res
  (c.putMask d w.1 w.2 (c.readyAt v lat)).vdone v st len

/-- An element-wise compare into a mask (R217, R219), not in tile mode. -/
def eltcmp (ok : VView → Bool) (o : VOpnd) (fl : Bool) (lat st : Nat) (f : VView → Nat → Nat → Bool × FlagSet) (d : MReg)
    (a : VReg) (m : MReg) (s : State) : Out :=
  vector true (fun v => ok v && v.bl == 0 && !v.tile && aligned a v.lmul && o.ok v) o.xs
    (fun v => ⟨a, v.lmul, v.sew⟩ :: o.vs v) [m] (fun v r => !(v.active s.me.group r m false).isEmpty) (fun _ => none) s fun v r s =>
      let res := (v.active s.me.group r m false).map (fun e => (e, f v (r.elem v a v.sew e) (o.at s v r e)))
      .next (s.modMe (fun c =>
        let c1 := if fl then c.raiseV false (res.map (fun p => (p.1, p.2.2))) else c
        c1.finishMask v r d m false (res.map (fun p => (p.1, p.2.1))) lat st 4))

/-! ### Integer operations -/

/-- An integer FMT. -/
def VView.isInt (v : VView) : Bool := v.fmt.int?.isSome

/-- FMT is signed. -/
def VView.signed (v : VView) : Bool := v.fmt.int? == some true

/-- The integer a code of FMT denotes. -/
def VView.intOf (v : VView) (c : Nat) : Int := if v.signed then signedOf v.sew c else (c % 2 ^ v.sew : Nat)

/-- An exact result wrapped, or clamped where `sat` (03 R35). -/
def VView.fit (v : VView) (sat : Bool) (i : Int) : Nat :=
  patternOf v.sew (if sat then clampInt v.signed v.sew i else i)

/-- An integer element-wise instruction (R216). -/
def vint (o : VOpnd) (acc : Bool) (lat : Nat) (f : VView → Nat → Nat → Nat → Nat) (d a : VReg) (m : MReg) (st : Stall)
    (s : State) : Out :=
  eltwise VView.isInt o acc false lat st.val 4 (fun v x y z => (f v x y z, 0)) d a m s

/-- VADD: wrapped, or clamped when SAT = 1 (R216). -/
def vaddElt (v : VView) (x y _z : Nat) : Nat := v.fit v.sat (v.intOf x + v.intOf y)

/-- VADD.VV (R216). -/
def execVaddVv (d a b : VReg) (m : MReg) (st : Stall) (s : State) : Out :=
  vint (.vv b) false 4 vaddElt d a m st s

/-- VADD.VX (R216). -/
def execVaddVx (d a : VReg) (b : XReg) (m : MReg) (st : Stall) (s : State) : Out :=
  vint (.vx b) false 4 vaddElt d a m st s

/-- VADD.VI (R216): a signed immediate. -/
def execVaddVi (d a : VReg) (imm : BitVec 5) (m : MReg) (st : Stall) (s : State) : Out :=
  vint (.vi (imm.signExtend 64)) false 4 vaddElt d a m st s

/-- VSUB: wrapped, or clamped when SAT = 1 (R216). -/
def vsubElt (v : VView) (x y _z : Nat) : Nat := v.fit v.sat (v.intOf x - v.intOf y)

/-- VSUB.VV (R216). -/
def execVsubVv (d a b : VReg) (m : MReg) (st : Stall) (s : State) : Out :=
  vint (.vv b) false 4 vsubElt d a m st s

/-- VSUB.VX (R216). -/
def execVsubVx (d a : VReg) (b : XReg) (m : MReg) (st : Stall) (s : State) : Out :=
  vint (.vx b) false 4 vsubElt d a m st s

/-- VSUB.VI (R216): a signed immediate. -/
def execVsubVi (d a : VReg) (imm : BitVec 5) (m : MReg) (st : Stall) (s : State) : Out :=
  vint (.vi (imm.signExtend 64)) false 4 vsubElt d a m st s

/-- VMUL: the low bits, or the exact product clamped when SAT = 1 (R216). -/
def vmulElt (v : VView) (x y _z : Nat) : Nat := v.fit v.sat (v.intOf x * v.intOf y)

/-- VMUL.VV (R216). -/
def execVmulVv (d a b : VReg) (m : MReg) (st : Stall) (s : State) : Out :=
  vint (.vv b) false 6 vmulElt d a m st s

/-- VMUL.VX (R216). -/
def execVmulVx (d a : VReg) (b : XReg) (m : MReg) (st : Stall) (s : State) : Out :=
  vint (.vx b) false 6 vmulElt d a m st s

/-- VMUL.VI (R216): a signed immediate. -/
def execVmulVi (d a : VReg) (imm : BitVec 5) (m : MReg) (st : Stall) (s : State) : Out :=
  vint (.vi (imm.signExtend 64)) false 6 vmulElt d a m st s

/-- VMULH: the high SEW bits of the product (R216). -/
def vmulhElt (v : VView) (x y _z : Nat) : Nat := v.fit false (v.intOf x * v.intOf y / 2 ^ v.sew)

/-- VMULH.VV (R216). -/
def execVmulhVv (d a b : VReg) (m : MReg) (st : Stall) (s : State) : Out :=
  vint (.vv b) false 6 vmulhElt d a m st s

/-- VMULH.VX (R216). -/
def execVmulhVx (d a : VReg) (b : XReg) (m : MReg) (st : Stall) (s : State) : Out :=
  vint (.vx b) false 6 vmulhElt d a m st s

/-- VMULH.VI (R216): a signed immediate. -/
def execVmulhVi (d a : VReg) (imm : BitVec 5) (m : MReg) (st : Stall) (s : State) : Out :=
  vint (.vi (imm.signExtend 64)) false 6 vmulhElt d a m st s

/-- VMACC: vd + a × b, exact, then wrapped or clamped (R216). -/
def vmaccElt (v : VView) (x y z : Nat) : Nat := v.fit v.sat (v.intOf z + v.intOf x * v.intOf y)

/-- VMACC.VV (R216). -/
def execVmaccVv (d a b : VReg) (m : MReg) (st : Stall) (s : State) : Out :=
  vint (.vv b) true 6 vmaccElt d a m st s

/-- VMACC.VX (R216). -/
def execVmaccVx (d a : VReg) (b : XReg) (m : MReg) (st : Stall) (s : State) : Out :=
  vint (.vx b) true 6 vmaccElt d a m st s

/-- VMACC.VI (R216): a signed immediate. -/
def execVmaccVi (d a : VReg) (imm : BitVec 5) (m : MReg) (st : Stall) (s : State) : Out :=
  vint (.vi (imm.signExtend 64)) true 6 vmaccElt d a m st s

/-- VDIV: the quotient of R36 (R216). -/
def vdivElt (v : VView) (x y _z : Nat) : Nat := v.fit false (divInt v.signed v.sew (v.intOf x) (v.intOf y))

/-- VDIV.VV (R216). -/
def execVdivVv (d a b : VReg) (m : MReg) (st : Stall) (s : State) : Out :=
  vint (.vv b) false 24 vdivElt d a m st s

/-- VDIV.VX (R216). -/
def execVdivVx (d a : VReg) (b : XReg) (m : MReg) (st : Stall) (s : State) : Out :=
  vint (.vx b) false 24 vdivElt d a m st s

/-- VDIV.VI (R216): a signed immediate. -/
def execVdivVi (d a : VReg) (imm : BitVec 5) (m : MReg) (st : Stall) (s : State) : Out :=
  vint (.vi (imm.signExtend 64)) false 24 vdivElt d a m st s

/-- VREM: the remainder of R36 (R216). -/
def vremElt (v : VView) (x y _z : Nat) : Nat := v.fit false (remInt v.signed v.sew (v.intOf x) (v.intOf y))

/-- VREM.VV (R216). -/
def execVremVv (d a b : VReg) (m : MReg) (st : Stall) (s : State) : Out :=
  vint (.vv b) false 24 vremElt d a m st s

/-- VREM.VX (R216). -/
def execVremVx (d a : VReg) (b : XReg) (m : MReg) (st : Stall) (s : State) : Out :=
  vint (.vx b) false 24 vremElt d a m st s

/-- VREM.VI (R216): a signed immediate. -/
def execVremVi (d a : VReg) (imm : BitVec 5) (m : MReg) (st : Stall) (s : State) : Out :=
  vint (.vi (imm.signExtend 64)) false 24 vremElt d a m st s

/-- VMIN: by the signedness of FMT (R216). -/
def vminElt (v : VView) (x y _z : Nat) : Nat := v.fit false (min (v.intOf x) (v.intOf y))

/-- VMIN.VV (R216). -/
def execVminVv (d a b : VReg) (m : MReg) (st : Stall) (s : State) : Out :=
  vint (.vv b) false 4 vminElt d a m st s

/-- VMIN.VX (R216). -/
def execVminVx (d a : VReg) (b : XReg) (m : MReg) (st : Stall) (s : State) : Out :=
  vint (.vx b) false 4 vminElt d a m st s

/-- VMIN.VI (R216): a signed immediate. -/
def execVminVi (d a : VReg) (imm : BitVec 5) (m : MReg) (st : Stall) (s : State) : Out :=
  vint (.vi (imm.signExtend 64)) false 4 vminElt d a m st s

/-- VMAX: by the signedness of FMT (R216). -/
def vmaxElt (v : VView) (x y _z : Nat) : Nat := v.fit false (max (v.intOf x) (v.intOf y))

/-- VMAX.VV (R216). -/
def execVmaxVv (d a b : VReg) (m : MReg) (st : Stall) (s : State) : Out :=
  vint (.vv b) false 4 vmaxElt d a m st s

/-- VMAX.VX (R216). -/
def execVmaxVx (d a : VReg) (b : XReg) (m : MReg) (st : Stall) (s : State) : Out :=
  vint (.vx b) false 4 vmaxElt d a m st s

/-- VMAX.VI (R216): a signed immediate. -/
def execVmaxVi (d a : VReg) (imm : BitVec 5) (m : MReg) (st : Stall) (s : State) : Out :=
  vint (.vi (imm.signExtend 64)) false 4 vmaxElt d a m st s

/-- VAND (R216). -/
def vandElt (_v : VView) (x y _z : Nat) : Nat := x &&& y

/-- VAND.VV (R216). -/
def execVandVv (d a b : VReg) (m : MReg) (st : Stall) (s : State) : Out :=
  vint (.vv b) false 4 vandElt d a m st s

/-- VAND.VX (R216). -/
def execVandVx (d a : VReg) (b : XReg) (m : MReg) (st : Stall) (s : State) : Out :=
  vint (.vx b) false 4 vandElt d a m st s

/-- VAND.VI (R216): a signed immediate. -/
def execVandVi (d a : VReg) (imm : BitVec 5) (m : MReg) (st : Stall) (s : State) : Out :=
  vint (.vi (imm.signExtend 64)) false 4 vandElt d a m st s

/-- VOR (R216). -/
def vorElt (_v : VView) (x y _z : Nat) : Nat := x ||| y

/-- VOR.VV (R216). -/
def execVorVv (d a b : VReg) (m : MReg) (st : Stall) (s : State) : Out :=
  vint (.vv b) false 4 vorElt d a m st s

/-- VOR.VX (R216). -/
def execVorVx (d a : VReg) (b : XReg) (m : MReg) (st : Stall) (s : State) : Out :=
  vint (.vx b) false 4 vorElt d a m st s

/-- VOR.VI (R216): a signed immediate. -/
def execVorVi (d a : VReg) (imm : BitVec 5) (m : MReg) (st : Stall) (s : State) : Out :=
  vint (.vi (imm.signExtend 64)) false 4 vorElt d a m st s

/-- VXOR (R216). -/
def vxorElt (_v : VView) (x y _z : Nat) : Nat := x ^^^ y

/-- VXOR.VV (R216). -/
def execVxorVv (d a b : VReg) (m : MReg) (st : Stall) (s : State) : Out :=
  vint (.vv b) false 4 vxorElt d a m st s

/-- VXOR.VX (R216). -/
def execVxorVx (d a : VReg) (b : XReg) (m : MReg) (st : Stall) (s : State) : Out :=
  vint (.vx b) false 4 vxorElt d a m st s

/-- VXOR.VI (R216): a signed immediate. -/
def execVxorVi (d a : VReg) (imm : BitVec 5) (m : MReg) (st : Stall) (s : State) : Out :=
  vint (.vi (imm.signExtend 64)) false 4 vxorElt d a m st s

/-- VSHL: by b mod SEW (R216). -/
def vshlElt (v : VView) (x y _z : Nat) : Nat := x <<< (y % v.sew) % 2 ^ v.sew

/-- VSHL.VV (R216). -/
def execVshlVv (d a b : VReg) (m : MReg) (st : Stall) (s : State) : Out :=
  vint (.vv b) false 4 vshlElt d a m st s

/-- VSHL.VX (R216). -/
def execVshlVx (d a : VReg) (b : XReg) (m : MReg) (st : Stall) (s : State) : Out :=
  vint (.vx b) false 4 vshlElt d a m st s

/-- VSHL.VI (R216): a unsigned immediate. -/
def execVshlVi (d a : VReg) (imm : BitVec 5) (m : MReg) (st : Stall) (s : State) : Out :=
  vint (.vi (imm.setWidth 64)) false 4 vshlElt d a m st s

/-- VSHR: logical, by b mod SEW (R216). -/
def vshrElt (v : VView) (x y _z : Nat) : Nat := x >>> (y % v.sew)

/-- VSHR.VV (R216). -/
def execVshrVv (d a b : VReg) (m : MReg) (st : Stall) (s : State) : Out :=
  vint (.vv b) false 4 vshrElt d a m st s

/-- VSHR.VX (R216). -/
def execVshrVx (d a : VReg) (b : XReg) (m : MReg) (st : Stall) (s : State) : Out :=
  vint (.vx b) false 4 vshrElt d a m st s

/-- VSHR.VI (R216): a unsigned immediate. -/
def execVshrVi (d a : VReg) (imm : BitVec 5) (m : MReg) (st : Stall) (s : State) : Out :=
  vint (.vi (imm.setWidth 64)) false 4 vshrElt d a m st s

/-- VSRA: arithmetic, by b mod SEW (R216). -/
def vsraElt (v : VView) (x y _z : Nat) : Nat := v.fit false (signedOf v.sew x / 2 ^ (y % v.sew))

/-- VSRA.VV (R216). -/
def execVsraVv (d a b : VReg) (m : MReg) (st : Stall) (s : State) : Out :=
  vint (.vv b) false 4 vsraElt d a m st s

/-- VSRA.VX (R216). -/
def execVsraVx (d a : VReg) (b : XReg) (m : MReg) (st : Stall) (s : State) : Out :=
  vint (.vx b) false 4 vsraElt d a m st s

/-- VSRA.VI (R216): a unsigned immediate. -/
def execVsraVi (d a : VReg) (imm : BitVec 5) (m : MReg) (st : Stall) (s : State) : Out :=
  vint (.vi (imm.setWidth 64)) false 4 vsraElt d a m st s

/-- VSADD: clamped whatever SAT holds (R216). -/
def vsaddElt (v : VView) (x y _z : Nat) : Nat := v.fit true (v.intOf x + v.intOf y)

/-- VSADD.VV (R216). -/
def execVsaddVv (d a b : VReg) (m : MReg) (st : Stall) (s : State) : Out :=
  vint (.vv b) false 4 vsaddElt d a m st s

/-- VSADD.VX (R216). -/
def execVsaddVx (d a : VReg) (b : XReg) (m : MReg) (st : Stall) (s : State) : Out :=
  vint (.vx b) false 4 vsaddElt d a m st s

/-- VSADD.VI (R216): a signed immediate. -/
def execVsaddVi (d a : VReg) (imm : BitVec 5) (m : MReg) (st : Stall) (s : State) : Out :=
  vint (.vi (imm.signExtend 64)) false 4 vsaddElt d a m st s

/-- VSSUB: clamped whatever SAT holds (R216). -/
def vssubElt (v : VView) (x y _z : Nat) : Nat := v.fit true (v.intOf x - v.intOf y)

/-- VSSUB.VV (R216). -/
def execVssubVv (d a b : VReg) (m : MReg) (st : Stall) (s : State) : Out :=
  vint (.vv b) false 4 vssubElt d a m st s

/-- VSSUB.VX (R216). -/
def execVssubVx (d a : VReg) (b : XReg) (m : MReg) (st : Stall) (s : State) : Out :=
  vint (.vx b) false 4 vssubElt d a m st s

/-- VSSUB.VI (R216): a signed immediate. -/
def execVssubVi (d a : VReg) (imm : BitVec 5) (m : MReg) (st : Stall) (s : State) : Out :=
  vint (.vi (imm.signExtend 64)) false 4 vssubElt d a m st s

/-- A relation of VCMP. -/
def vcmpHolds (cc : VCmpOp) (a b : Int) : Bool :=
  match cc with
  | .eq => a == b
  | .ne => a != b
  | .lt => decide (a < b)
  | .le => decide (a ≤ b)
  | .gt => decide (a > b)
  | .ge => decide (a ≥ b)

/-- VCMP with any second operand (R217): no flag. -/
def vcmp (o : VOpnd) (cc : VCmpOp) (d : MReg) (a : VReg) (m : MReg) (st : Stall) (s : State) : Out :=
  eltcmp VView.isInt o false 4 st.val (fun v x y => (vcmpHolds cc (v.intOf x) (v.intOf y), 0)) d a m s

/-- VCMP.VV (R217). -/
def execVcmpVv (cc : VCmpOp) (d : MReg) (a b : VReg) (m : MReg) (st : Stall) (s : State) : Out := vcmp (.vv b) cc d a m st s

/-- VCMP.VX (R217). -/
def execVcmpVx (cc : VCmpOp) (d : MReg) (a : VReg) (b : XReg) (m : MReg) (st : Stall) (s : State) : Out :=
  vcmp (.vx b) cc d a m st s

/-- VCMP.VI (R217). -/
def execVcmpVi (cc : VCmpOp) (d : MReg) (a : VReg) (imm : BitVec 5) (m : MReg) (st : Stall) (s : State) : Out :=
  vcmp (.vi (imm.signExtend 64)) cc d a m st s

end Sys2Proof.Machine
end

