-- ==== Sys2Proof/Machine/VecFp.lean ====
section
/-! DEFINITION. Floating-point vector instructions (14 R218, R219). -/

namespace Sys2Proof.Machine

/-- FMT is F16, BF16, F32 or F64. -/
def VView.isFloat (v : VView) : Bool := v.fmt.ieee

/-- FMT as a binary floating-point format. -/
def VView.ff (v : VView) : FloatFmt := v.fmt.float?.getD ⟨8, 23, false⟩

/-- A floating-point element-wise instruction (R218), with flags by R57. -/
def vfp (o : VOpnd) (acc : Bool) (lat : Nat) (f : VView → Nat → Nat → Nat → Nat × FlagSet) (d a : VReg) (m : MReg)
    (st : Stall) (s : State) : Out :=
  eltwise VView.isFloat o acc true lat st.val 4 f d a m s

/-- VFADD: a + b (R218). -/
def vfaddElt (v : VView) (x y _z : Nat) : Nat × FlagSet := v.ff.add v.rm v.sat x y

/-- VFADD.VV (R218). -/
def execVfaddVv (d a b : VReg) (m : MReg) (st : Stall) (s : State) : Out :=
  vfp (.vv b) false 6 vfaddElt d a m st s

/-- VFADD.VX (R218). -/
def execVfaddVx (d a : VReg) (b : XReg) (m : MReg) (st : Stall) (s : State) : Out :=
  vfp (.vx b) false 6 vfaddElt d a m st s

/-- VFSUB: a − b (R218). -/
def vfsubElt (v : VView) (x y _z : Nat) : Nat × FlagSet := v.ff.sub v.rm v.sat x y

/-- VFSUB.VV (R218). -/
def execVfsubVv (d a b : VReg) (m : MReg) (st : Stall) (s : State) : Out :=
  vfp (.vv b) false 6 vfsubElt d a m st s

/-- VFSUB.VX (R218). -/
def execVfsubVx (d a : VReg) (b : XReg) (m : MReg) (st : Stall) (s : State) : Out :=
  vfp (.vx b) false 6 vfsubElt d a m st s

/-- VFMUL: a × b (R218). -/
def vfmulElt (v : VView) (x y _z : Nat) : Nat × FlagSet := v.ff.mul v.rm v.sat x y

/-- VFMUL.VV (R218). -/
def execVfmulVv (d a b : VReg) (m : MReg) (st : Stall) (s : State) : Out :=
  vfp (.vv b) false 6 vfmulElt d a m st s

/-- VFMUL.VX (R218). -/
def execVfmulVx (d a : VReg) (b : XReg) (m : MReg) (st : Stall) (s : State) : Out :=
  vfp (.vx b) false 6 vfmulElt d a m st s

/-- VFMACC: a × b + vd, rounded once (R218). -/
def vfmaccElt (v : VView) (x y z : Nat) : Nat × FlagSet := v.ff.fma v.rm v.sat x y z

/-- VFMACC.VV (R218). -/
def execVfmaccVv (d a b : VReg) (m : MReg) (st : Stall) (s : State) : Out :=
  vfp (.vv b) true 6 vfmaccElt d a m st s

/-- VFMACC.VX (R218). -/
def execVfmaccVx (d a : VReg) (b : XReg) (m : MReg) (st : Stall) (s : State) : Out :=
  vfp (.vx b) true 6 vfmaccElt d a m st s

/-- VFNMSAC: vd − a × b, rounded once (R218). -/
def vfnmsacElt (v : VView) (x y z : Nat) : Nat × FlagSet := v.ff.fnms v.rm v.sat x y z

/-- VFNMSAC.VV (R218). -/
def execVfnmsacVv (d a b : VReg) (m : MReg) (st : Stall) (s : State) : Out :=
  vfp (.vv b) true 6 vfnmsacElt d a m st s

/-- VFNMSAC.VX (R218). -/
def execVfnmsacVx (d a : VReg) (b : XReg) (m : MReg) (st : Stall) (s : State) : Out :=
  vfp (.vx b) true 6 vfnmsacElt d a m st s

/-- VFDIV: a / b (R218). -/
def vfdivElt (v : VView) (x y _z : Nat) : Nat × FlagSet := v.ff.div v.rm v.sat x y

/-- VFDIV.VV (R218). -/
def execVfdivVv (d a b : VReg) (m : MReg) (st : Stall) (s : State) : Out :=
  vfp (.vv b) false 24 vfdivElt d a m st s

/-- VFDIV.VX (R218). -/
def execVfdivVx (d a : VReg) (b : XReg) (m : MReg) (st : Stall) (s : State) : Out :=
  vfp (.vx b) false 24 vfdivElt d a m st s

/-- VFMIN: the minimum of R193 (R218). -/
def vfminElt (v : VView) (x y _z : Nat) : Nat × FlagSet := v.ff.minMax false x y

/-- VFMIN.VV (R218). -/
def execVfminVv (d a b : VReg) (m : MReg) (st : Stall) (s : State) : Out :=
  vfp (.vv b) false 4 vfminElt d a m st s

/-- VFMIN.VX (R218). -/
def execVfminVx (d a : VReg) (b : XReg) (m : MReg) (st : Stall) (s : State) : Out :=
  vfp (.vx b) false 4 vfminElt d a m st s

/-- VFMAX: the maximum of R193 (R218). -/
def vfmaxElt (v : VView) (x y _z : Nat) : Nat × FlagSet := v.ff.minMax true x y

/-- VFMAX.VV (R218). -/
def execVfmaxVv (d a b : VReg) (m : MReg) (st : Stall) (s : State) : Out :=
  vfp (.vv b) false 4 vfmaxElt d a m st s

/-- VFMAX.VX (R218). -/
def execVfmaxVx (d a : VReg) (b : XReg) (m : MReg) (st : Stall) (s : State) : Out :=
  vfp (.vx b) false 4 vfmaxElt d a m st s

/-- The relation of a vector compare. -/
def vfcmpRel : VFCmpOp → FRel
  | .eq => .eq | .ne => .ne | .lt => .lt | .le => .le | .gt => .gt | .ge => .ge | .un => .un

/-- VFCMP with any second operand (R219). -/
def vfcmp (o : VOpnd) (cc : VFCmpOp) (d : MReg) (a : VReg) (m : MReg) (st : Stall) (s : State) : Out :=
  eltcmp VView.isFloat o true 4 st.val (fun v x y => v.ff.rel (vfcmpRel cc) x y) d a m s

/-- VFCMP.VV (R219). -/
def execVfcmpVv (cc : VFCmpOp) (d : MReg) (a b : VReg) (m : MReg) (st : Stall) (s : State) : Out := vfcmp (.vv b) cc d a m st s

/-- VFCMP.VX (R219). -/
def execVfcmpVx (cc : VFCmpOp) (d : MReg) (a : VReg) (b : XReg) (m : MReg) (st : Stall) (s : State) : Out :=
  vfcmp (.vx b) cc d a m st s

/-- VFSQRT (R218). -/
def execVfsqrt (d a : VReg) (m : MReg) (st : Stall) (s : State) : Out :=
  vfp (.vi 0) false 24 (fun v x _ _ => v.ff.sqrt v.rm v.sat x) d a m st s

/-- VFCLASS (R219): the class code, no flag; it leaves FXIDX unchanged (R57). -/
def execVfclass (d a : VReg) (m : MReg) (st : Stall) (s : State) : Out :=
  eltwise VView.isFloat (.vi 0) false false 4 st.val 4 (fun v x _ _ => (v.ff.classOf x, 0)) d a m s

end Sys2Proof.Machine
end

