-- ==== Sys2Proof/Machine/VecConvert.lean ====
section
/-! DEFINITION. Vector conversions (03 R42 to R48, R53, R55; 14 R221). -/

namespace Sys2Proof.Machine

/-! ### E2M1 (03 R46, R47) -/

/-- A candidate of R47: its code, whether it is the X value, its sign, and its value in units of a common exponent. -/
structure E2Cand where
  code : Nat
  x    : Bool
  neg  : Bool
  i    : Int
  deriving DecidableEq, Repr

/-- The candidates at an exponent no greater than theirs, the X value last. -/
def e2m1Cands (x : Nat) (t : Int) : List E2Cand :=
  ((List.range 16).filter (fun c => c != 8)).map (fun c =>
    ⟨c, false, decide (8 ≤ c), signedAt (decide (8 ≤ c)) (e2m1Halves (c % 8)) (-1) t⟩) ++
    match fmtE4m3.decode x with
    | .fin n m e => [⟨8, true, n, signedAt n m e t⟩]
    | _ => []

/-- The first candidate that no later one beats (log entry 21, DEDUCED). -/
def bestOf (better : E2Cand → E2Cand → Bool) (l : List E2Cand) : Option E2Cand :=
  l.foldl (fun b c => match b with
    | none => some c
    | some a => if better c a then some c else some a) none

/-- The nearest candidate: on a tie a non-X one, then mantissa bit 0, or the larger magnitude under RMM
(log entry 21, DEDUCED). -/
def nearestCand (rm : RMode) (q : Int) (l : List E2Cand) : Option E2Cand :=
  bestOf (fun c a =>
    let dc := (c.i - q).natAbs
    let da := (a.i - q).natAbs
    decide (dc < da) || (dc == da && !c.x && !a.x &&
      (if rm = .rmm then decide (a.i.natAbs < c.i.natAbs) else c.code % 2 == 0))) l

/-- The candidate a mode takes for an inexact q; none when the required direction holds none (log entry 21, DEDUCED). -/
def directedCand (rm : RMode) (neg : Bool) (q : Int) (l : List E2Cand) : Option E2Cand :=
  match rm with
  | .rne | .rmm => none
  | .rtz => bestOf (fun c a => decide (a.i.natAbs < c.i.natAbs))
      (l.filter (fun c => c.neg == neg && decide (c.i.natAbs ≤ q.natAbs)))
  | .rdn => bestOf (fun c a => decide (a.i < c.i)) (l.filter (fun c => decide (c.i ≤ q)))
  | .rup => bestOf (fun c a => decide (c.i < a.i)) (l.filter (fun c => decide (q ≤ c.i)))

/-- The candidate taken for q: an exact one of q's sign where q is a zero, else one the mode names, else the nearest. -/
def e2m1Pick (rm : RMode) (neg : Bool) (q : Int) (l : List E2Cand) : Option E2Cand :=
  match l.find? (fun c => c.i == q && (q != 0 || c.neg == neg)) with
  | some c => some c
  | none =>
    if q = 0 then l.head?
    else match directedCand rm neg q l with
      | some c => some c
      | none => if rm = RMode.rtz then l.head? else nearestCand rm q l

/-- The code and flags of a finite q = (−1)^neg × m × 2^e (R47) (log entry 21, DEDUCED). -/
def e2m1Round (rm : RMode) (x : Nat) (neg : Bool) (m : Nat) (e : Int) : Nat × FlagSet :=
  let t := min e (-12)
  let q := signedAt neg m e t
  let l := e2m1Cands x t
  match e2m1Pick rm neg q l with
  | none => (0, 0)
  | some c =>
    let lim : Int := (l.filter (fun c => c.x && c.neg == neg)).foldl (fun a c => max a (c.i.natAbs : Int)) (signedAt false 12 (-1) t)
    (c.code, (if c.i ≠ q then flagNX else 0) ||| (if (q.natAbs : Int) > lim then flagOF else 0))

/-- Convert a value to an E2M1 code under a block's SCALE and X; a NaN or an infinity gives 0000 and NV (R46). -/
def toE2m1 (rm : RMode) (scale x : Nat) (v : Val) : Nat × FlagSet :=
  match v with
  | .fin n m e => e2m1Round rm x n m (e + 127 - scale)
  | _ => (0, flagNV)

/-! ### Values of pairs (03 R53, 04 R64, 23 R336) -/

/-- F32 as a binary format. -/
def fmtF32 : FloatFmt := ⟨8, 23, false⟩

/-- s + c of two finite values: zeros add as R336 says; an exact cancellation of nonzero values gives a zero whose sign is a free
value (log entry 22, DESIGN CHOICE). -/
def pairSum (rm : RMode) (c : Nat) (n1 : Bool) (m1 : Nat) (e1 : Int) (n2 : Bool) (m2 : Nat) (e2 : Int) : Val :=
  match addFin rm n1 m1 e1 n2 m2 e2 with
  | .fin n m e => if m = 0 ∧ m1 ≠ 0 then .fin (Config.pairZeroNeg rm.code c) 0 0 else .fin n m e
  | v => v

/-- The value of a PAIR element: s + c, or s when s is not finite (log entry 22, DESIGN CHOICE). -/
def pairVal (rm : RMode) (c : Nat) : Val :=
  match fmtF32.decode (c % 2 ^ 32), fmtF32.decode (c / 2 ^ 32 % 2 ^ 32) with
  | .fin n1 m1 e1, .fin n2 m2 e2 => pairSum rm c n1 m1 e1 n2 m2 e2
  | .fin _ _ _, v => v
  | v, _ => v

/-! ### One element -/

/-- Convert a value to an unscaled element of a format. -/
def cvtVal (tof : Fmt) (rm : RMode) (sat : Bool) (v : Val) : Nat × FlagSet :=
  match tof with
  | .e2m1 => toE2m1 rm 127 0x80 v
  | .e8m0 => toE8m0 rm v
  | .pair => fmtF32.round rm sat v
  | .i8 | .i16 | .i32 | .i64 => toIntFmt true tof.sew rm v
  | .n8 | .n16 | .n32 | .n64 => toIntFmt false tof.sew rm v
  | .f64 | .f32 | .f16 | .bf16 | .e4m3 | .e5m2 => match tof.float? with
    | some g => g.round rm sat v
    | none => (0, 0)
  | .d1 | .d2 | .d3 => (0, 0)

/-- What a source element denotes. -/
def cvtSource (frm : Fmt) (rm : RMode) (scale x c : Nat) : Val :=
  if frm = .pair then pairVal rm c else frm.decode scale x c

/-- An exact value that an integer element denotes, as an element of an integer format (R55): rounded under RM where a block
scale has made it a fraction, wrapped, or clamped under SAT, without a flag; the NaN of SCALE 0xFF gives 0
(log entry 21, DEDUCED). -/
def intToInt (tof : Fmt) (tg : Bool) (rm : RMode) (sat : Bool) (v : Val) : Nat :=
  match v with
  | .fin n m e =>
    let i := (roundInt rm n m e).1
    patternOf tof.sew (if sat then clampInt tg tof.sew i else i)
  | _ => 0

/-- Convert the value of an element of a format to an unscaled format (R55): between integers without a flag. -/
def cvtFrom (frm tof : Fmt) (rm : RMode) (sat : Bool) (v : Val) : Nat × FlagSet :=
  match frm.int?, tof.int? with
  | some _, some tg => (intToInt tof tg rm sat v, 0)
  | _, _ => cvtVal tof rm sat v

/-- Convert an element to an unscaled format (R55). -/
def cvtElt (frm tof : Fmt) (rm : RMode) (sat : Bool) (scale x c : Nat) : Nat × FlagSet :=
  cvtFrom frm tof rm sat (cvtSource frm rm scale x c)

/-- A code copied between equal formats: a float NaN becomes the default NaN (R221) (log entry 21, DEDUCED). -/
def sameElt (f : Fmt) (c : Nat) : Nat × FlagSet :=
  match f.float? with
  | some g => (match g.decode c with
    | .nan s => (g.nanCode, nvIf s)
    | _ => (c, 0))
  | none => (c, 0)

/-- Convert the value of an element of a format to a scaled element of a block (R46, R47, R221) (log entry 21, DEDUCED). -/
def cvtScaled (frm tof : Fmt) (rm : RMode) (sat : Bool) (scale x : Nat) (v : Val) : Nat × FlagSet :=
  if tof = .e2m1 then toE2m1 rm scale x v else cvtFrom frm tof rm sat (v.scale (127 - scale))

/-! ### Block scales (R46, R221) -/

/-- k of the computed scale. -/
def scaleBias : Fmt → Nat
  | .e2m1 => 2 | .e4m3 => 7 | .e5m2 => 14 | _ => 6

/-- floor(log2 amax) of finite values, if one is not zero. -/
def topExp (l : List Val) : Option Int :=
  l.foldl (fun b v => match v with
    | .fin _ m e => if m = 0 then b else
        let k := (m.log2 : Int) + e
        match b with
        | none => some k
        | some j => some (max j k)
    | _ => b) none

/-- The computed scale of a block with these active values. -/
def computedScale (tof : Fmt) (l : List Val) : Nat :=
  match topExp l with
  | none => 0x7F
  | some k => (max 0 (min 254 (127 + k - scaleBias tof))).toNat

/-! ### VFCVT -/

/-- How a conversion runs: its formats, whether the destination is the FMT side, whether codes are copied, and whether the
destination's blocks are scaled. -/
structure Cvt where
  frm    : Fmt
  tof    : Fmt
  back   : Bool
  same   : Bool
  copy   : Bool
  scaled : Bool
  cs     : Bool
  deriving DecidableEq, Repr

/-- The conversion of a VFCVT with a code under a view. -/
def cvtOf (v : VView) (f : Fmt) (back cs : Bool) : Cvt :=
  let same := f == v.fmt
  { frm := if back then f else v.fmt, tof := if back then v.fmt else f, back := back, same := same
    copy := same && !(v.bl != 0 && cs), scaled := v.bl != 0 && (back || same) && !(same && !cs), cs := cs }

/-- Registers of the source and of the destination group. -/
def Cvt.srcRegs (k : Cvt) (v : VView) : Nat := if k.back then v.emul k.frm.sew else v.lmul
/-- Registers of the destination group. -/
def Cvt.dstRegs (k : Cvt) (v : VView) : Nat := if k.back then v.lmul else v.emul k.tof.sew

/-- The conditions under VTYPE (R53, R54, R211, R212, R221) (log entry 21, DEDUCED). -/
def Cvt.ok (k : Cvt) (v : VView) (d a : VReg) : Bool :=
  !v.fmt.digits && !(k.tof == .pair && k.frm != .f32) && !(v.tile && k.frm.sew != k.tof.sew) &&
    aligned d (k.dstRegs v) && aligned a (k.srcRegs v) &&
    (k.frm.sew == k.tof.sew || apart d (k.dstRegs v) a (k.srcRegs v))

/-- SCALE and X with which a source element is read. -/
def Cvt.srcScale (k : Cvt) (v : VView) (r : VecRegs) (a : VReg) (e : Nat) : Nat × Nat :=
  if k.back && !k.same then (127, 0x80) else r.scaleX v a e

/-- The results of a block of a scaled destination, and the descriptor it takes when the conversion sets it. -/
def Cvt.block (k : Cvt) (v : VView) (r : VecRegs) (d a : VReg) (b : Nat) (es : List Nat) :
    List (Nat × Nat × FlagSet) × Option (BitVec 32) :=
  let own := r.desc v d b
  let vals := es.map (fun e =>
    let q := k.srcScale v r a e
    (e, cvtSource k.frm v.rm q.1 q.2 (r.elem v a k.frm.sew e)))
  if vals.any (fun p => p.2.nonFinite) then (es.map (fun e => (e, 0, flagNV)), some (own ||| 0xFF))
  else
    let sc := if k.cs then computedScale k.tof (vals.map (fun p => p.2)) else own.toNat % 256
    (vals.map (fun p => (p.1, cvtScaled k.frm k.tof v.rm v.sat sc (own.toNat / 256 % 256) p.2)),
      if k.cs then some ((own &&& 0xFFFFFF00) ||| BitVec.ofNat 32 sc) else none)

/-- The results of the active elements and the descriptors of their blocks; a copy gives every written block the source's
(log entry 29, DEDUCED). -/
def Cvt.run (k : Cvt) (v : VView) (r : VecRegs) (d a : VReg) (es : List Nat) :
    List (Nat × Nat × FlagSet) × (Nat → Option (BitVec 32)) :=
  if k.copy then
    (es.map (fun e => (e, sameElt k.tof (r.elem v a k.frm.sew e))), fun b => if v.bl = 0 then none else some (r.desc v a b))
  else if k.scaled then
    let l := (blocksOf v.bl (es.map (fun e => (e, 0)))).map (fun b =>
      (b, k.block v r d a b (es.filter (fun e => e / v.bl == b))))
    (l.flatMap (fun p => p.2.1), fun b => (l.find? (fun p => p.1 == b)).bind (fun p => p.2.2))
  else
    (es.map (fun e =>
      let q := k.srcScale v r a e
      (e, cvtElt k.frm k.tof v.rm v.sat q.1 q.2 (r.elem v a k.frm.sew e))), fun _ => none)

/-- Write the results of a conversion, raise its flags and complete (log entry 29, DEDUCED). -/
def Cvt.finish (k : Cvt) (v : VView) (r : VecRegs) (d a : VReg) (m : MReg) (lat st : Nat) (c : Context) : Context :=
  let q := k.run v r d a (v.elems (v.active c.group r m false))
  let desc := k.back || k.same
  let cells := q.1.map (fun p => (p.1, p.2.1)) ++ (v.zeroed c.group r m false true true).map (fun e => (e, 0))
  let c1 := if desc then c.putGroup v d cells q.2 (c.readyAt v lat)
    else c.putCells v.tile v.g d (k.dstRegs v) k.tof.sew cells (c.readyAt v lat)
  ((c1.raiseV false (q.1.map (fun p => (p.1, p.2.2)))).setLdv d).vdone v st 4

/-- VFCVT in either direction. -/
def vfcvt (back cs : Bool) (code : BitVec 5) (d a : VReg) (m : MReg) (st : Stall) (s : State) : Out :=
  match Fmt.ofCode code.toNat with
  | none => trapIll s
  | some f =>
    vector true (fun v => (cvtOf v f back cs).ok v d a) []
      (fun v =>
        let k := cvtOf v f back cs
        ⟨a, k.srcRegs v, k.frm.sew⟩ :: (if k.scaled then [⟨d, k.dstRegs v, k.tof.sew⟩] else [])) [m]
      (fun v r => !(v.active s.me.group r m false).isEmpty) (fun v => some (d, (cvtOf v f back cs).dstRegs v)) s fun v r s =>
        .next (s.modMe ((cvtOf v f back cs).finish v r d a m 6 st.val))

/-- VFCVT.TO (R221): from FMT to the code's format. -/
def execVfcvtTo (cs : Bool) (code : BitVec 5) (d a : VReg) (m : MReg) (st : Stall) (s : State) : Out :=
  vfcvt false cs code d a m st s

/-- VFCVT.FROM (R221): from the code's format to FMT. -/
def execVfcvtFrom (cs : Bool) (code : BitVec 5) (d a : VReg) (m : MReg) (st : Stall) (s : State) : Out :=
  vfcvt true cs code d a m st s

end Sys2Proof.Machine
end

