-- ==== Sys2Proof/Machine/VecPerm.lean ====
section
/-! DEFINITION. Moves and permutes (14 R222 to R224) and the compress and expand forms (14 R227). -/

namespace Sys2Proof.Machine

/-! ### Moving units -/

/-- A unit of a destination and where it comes from: a unit of a source group, or zeros. -/
abbrev UnitMove := Nat × Option (VReg × Nat)

/-- The elements that moves write. -/
def moveCells (v : VView) (r : VecRegs) (l : List UnitMove) : List (Nat × Nat) :=
  l.flatMap (fun p => (List.range v.per).map (fun k => (p.1 * v.per + k, match p.2 with
    | some q => r.elem v q.1 v.sew (q.2 * v.per + k)
    | none => 0)))

/-- The descriptor a destination block takes with its units: in tile mode that of the moved row, in element mode that of
the source's block (R52, R222); `whole` names the group whose block of the same number gives a written block its
descriptor although no unit of it has moved (log entry 29, DEDUCED). -/
def moveDesc (v : VView) (r : VecRegs) (whole : Option VReg) (l : List UnitMove) (b : Nat) : Option (BitVec 32) :=
  let nb := v.per / v.bl
  match l.find? (fun p => if v.tile then p.1 == b / nb else p.1 / v.bl == b) with
  | some (_, some q) => some (r.desc v q.1 (if v.tile then q.2 * nb + b % nb else q.2 / v.bl))
  | _ => whole.map (fun a => r.desc v a b)

/-- Write moved units with their descriptors and other zeroed elements, and complete. -/
def Context.finishMove (c : Context) (v : VView) (r : VecRegs) (d : VReg) (whole : Option VReg) (l : List UnitMove)
    (zeros : List Nat) (lat st len : Nat) : Context :=
  ((c.putGroup v d (moveCells v r l ++ zeros.map (fun e => (e, 0))) (moveDesc v r whole l) (c.readyAt v lat)).setLdv d).vdone v st len

/-- A move: `src` names the source of each active unit, or leaves the unit unchanged. -/
def moving (whole : Option VReg) (ok : VView → Bool) (inBlock : Bool) (xs : List XReg) (vs : VView → List VSrc) (ms : List MReg) (role : MReg)
    (from0 : Bool) (lat st len : Nat) (src : VView → VecRegs → State → Nat → Option (Option (VReg × Nat))) (d : VReg) (s : State) :
    Out :=
  vector inBlock (fun v => ok v && aligned d v.lmul) xs vs ms
    (fun v r => !(v.active s.me.group r role from0).isEmpty) (fun v => some (d, v.lmul)) s fun v r s =>
      let l := (v.active s.me.group r role from0).filterMap (fun u => (src v r s u).map (fun q => (u, q)))
      .next (s.modMe (fun c => c.finishMove v r d whole l (v.zeroed c.group r role from0 true true) lat st len))

/-- VMV.VV (R222). -/
def execVmvVv (d a : VReg) (m : MReg) (st : Stall) (s : State) : Out :=
  moving (some a) (fun v => aligned a v.lmul) true [] (fun v => [⟨a, v.lmul, v.sew⟩]) [m] m false 4 st.val 4
    (fun _ _ _ u => some (some (a, u))) d s

/-- Fill active elements with one value (R222). -/
def broadcast (xs : List XReg) (val : State → Word) (d : VReg) (m : MReg) (st : Nat) (s : State) : Out :=
  vector true (fun v => aligned d v.lmul) xs (fun _ => []) [m] (fun v r => !(v.active s.me.group r m false).isEmpty)
    (fun v => some (d, v.lmul)) s fun v r s =>
        let x := (val s).toNat % 2 ^ v.sew
        let cells := (v.elems (v.active s.me.group r m false)).map (fun e => (e, x)) ++ (v.zeroed s.me.group r m false true true).map (fun e => (e, 0))
        .next (s.modMe (fun c => ((c.putGroup v d cells (fun _ => none) (c.readyAt v 4)).setLdv d).vdone v st 4))

/-- VBCAST.VX (R222). -/
def execVbcastVx (d : VReg) (b : XReg) (m : MReg) (st : Stall) (s : State) : Out :=
  broadcast [b] (fun s => s.rx b) d m st.val s

/-- VBCAST.VI (R222): imm5 sign-extended, whatever FMT. -/
def execVbcastVi (d : VReg) (imm : BitVec 5) (m : MReg) (st : Stall) (s : State) : Out :=
  broadcast [] (fun _ => imm.signExtend 64) d m st.val s

/-- VMERGE (R222): the mask selects the second operand; every body unit is written and MP is unused. -/
def vmerge (o : VOpnd) (d a : VReg) (m : MReg) (st : Nat) (s : State) : Out :=
  vector true (fun v => (v.bl == 0 || v.tile) && aligned d v.lmul && aligned a v.lmul && o.ok v) o.xs
    (fun v => ⟨a, v.lmul, v.sew⟩ :: o.vs v) [m] (fun v _ => !(v.body s.me.group false).isEmpty)
    (fun v => some (d, v.lmul)) s fun v r s =>
        let us := v.body s.me.group false
        let l := us.filterMap (fun u =>
          if r.mbit m u then (match o with
            | .vv b => some (u, some (b, u))
            | _ => none)
          else some (u, some (a, u)))
        let cells := moveCells v r l ++ (match o with
          | .vv _ => []
          | _ => (v.elems (us.filter (fun u => r.mbit m u))).map (fun e => (e, o.at s v r e)))
        let all := cells ++ (v.zeroed s.me.group r 0 false true true).map (fun e => (e, 0))
        .next (s.modMe (fun c => ((c.putGroup v d all (moveDesc v r none l) (c.readyAt v 4)).setLdv d).vdone v st 4))

/-- VMERGE.VV (R222). -/
def execVmergeVv (d a b : VReg) (m : MReg) (st : Stall) (s : State) : Out := vmerge (.vv b) d a m st.val s

/-- VMERGE.VX (R222). -/
def execVmergeVx (d a : VReg) (b : XReg) (m : MReg) (st : Stall) (s : State) : Out := vmerge (.vx b) d a m st.val s

/-- VMERGE.VI (R222). -/
def execVmergeVi (d a : VReg) (imm : BitVec 5) (m : MReg) (st : Stall) (s : State) : Out :=
  vmerge (.vi (imm.signExtend 64)) d a m st.val s

/-! ### Cross-element moves (R223) -/

/-- A slide by an offset: up, or down with zeros beyond VL. VBEG counts as 0. -/
def slide (up : Bool) (xs : List XReg) (off : State → Nat) (d a : VReg) (m : MReg) (s : State) : Out :=
  moving none (fun v => !v.tile && v.bl == 0 && aligned a v.lmul && apart d v.lmul a v.lmul) false xs
    (fun v => [⟨a, v.lmul, v.sew⟩]) [m] m true 0 0 4
    (fun v _ s u =>
      let n := off s
      if up then (if n ≤ u then some (some (a, u - n)) else none)
      else if u + n < v.vl then some (some (a, u + n)) else some none) d s

/-- VSLIDEUP.VX (R223): an unsigned offset. -/
def execVslideupVx (d a : VReg) (b : XReg) (m : MReg) (s : State) : Out := slide true [b] (fun s => (s.rx b).toNat) d a m s

/-- VSLIDEDN.VX (R223). -/
def execVslidednVx (d a : VReg) (b : XReg) (m : MReg) (s : State) : Out := slide false [b] (fun s => (s.rx b).toNat) d a m s

/-- VSLIDEUP.VI (R223): 0 to 31. -/
def execVslideupVi (d a : VReg) (imm : BitVec 5) (m : MReg) (s : State) : Out := slide true [] (fun _ => imm.toNat) d a m s

/-- VSLIDEDN.VI (R223). -/
def execVslidednVi (d a : VReg) (imm : BitVec 5) (m : MReg) (s : State) : Out := slide false [] (fun _ => imm.toNat) d a m s

/-- Registers of VPERM's index group: N32 elements (R223). -/
def VView.indexRegs (v : VView) : Nat := if v.tile then 1 else v.emul 32

/-- VPERM's index for a unit; in tile mode element j of one register indexes row j. -/
def permIndex (v : VView) (r : VecRegs) (b : VReg) (u : Nat) : Nat := r.elem { v with tile := false } b 32 u

/-- VPERM.VV (R223): the unit its index names, or zero at or beyond VL. -/
def execVpermVv (d a b : VReg) (m : MReg) (s : State) : Out :=
  moving none (fun v => (v.bl == 0 || v.tile) && aligned a v.lmul && aligned b v.indexRegs && apart d v.lmul a v.lmul &&
      apart d v.lmul b v.indexRegs) false []
    (fun v => [⟨a, v.lmul, v.sew⟩, ⟨b, v.indexRegs, 32⟩]) [m] m true 0 0 4
    (fun v r _ u =>
      let i := permIndex v r b u
      if i < v.vl then some (some (a, i)) else some none) d s

/-- Write given elements of an FMT group and zeroed ones, and complete. -/
def Context.finishCells (c : Context) (v : VView) (d : VReg) (cells : List (Nat × Nat)) (zeros : List Nat) (lat st : Nat) :
    Context :=
  ((c.putGroup v d (cells ++ zeros.map (fun e => (e, 0))) (fun _ => none) (c.readyAt v lat)).setLdv d).vdone v st 4

/-- VIOTA (R223): the number of active elements below with their bit of ms set. -/
def execViota (d : VReg) (ms m : MReg) (s : State) : Out :=
  vector false (fun v => v.isInt && !v.tile && aligned d v.lmul) [] (fun _ => []) [ms, m]
    (fun v r => !(v.active none r m true).isEmpty) (fun v => some (d, v.lmul)) s fun v r s =>
        let us := v.active none r m true
        let l := (us.foldl (fun (acc : List (Nat × Nat) × Nat) i =>
          ((i, acc.2 % 2 ^ v.sew) :: acc.1, if r.mbit ms i then acc.2 + 1 else acc.2)) ([], 0)).1.reverse
        .next (s.modMe (fun c => c.finishCells v d l (v.zeroed none r m true true true) 0 0))

/-! ### Single elements (R224) -/

/-- An element as an x register value: sign-extended for I formats, zero-extended for others. -/
def VView.extend (v : VView) (n : Nat) : Word := if v.signed then wordOfInt (signedOf v.sew n) else BitVec.ofNat 64 n

/-- The source that holds one element of an FMT group. -/
def VView.oneSrc (v : VView) (a : VReg) (e : Nat) : VSrc := ⟨regAt a (placeOf v.tile v.g v.sew e).1, 1, v.sew⟩

/-- VEXTX (R224). -/
def execVextx (d : XReg) (a : VReg) (b : XReg) (s : State) : Out :=
  let i := (s.rx b).toNat
  vector false (fun v => !v.tile && aligned a v.lmul) [b] (fun v => if i < v.vl then [v.oneSrc a i] else []) []
    (fun _ _ => true) (fun _ => none) s fun v r s =>
      .next (s.modMe (fun c => (c.wx d (if i < v.vl then v.extend (r.elem v a v.sew i) else 0) 0).vdone v 0 4))

/-- VINSX (R224): `a` holds the index and `b` the value. -/
def execVinsx (d : VReg) (a b : XReg) (s : State) : Out :=
  let i := (s.rx a).toNat
  vector false (fun v => !v.tile && aligned d v.lmul) [a, b] (fun _ => []) [] (fun v _ => v.live)
    (fun v => if i < v.vl then some (d, v.lmul) else none) s fun v _ s =>
      .next (s.modMe (fun c =>
        c.finishCells v d (if v.live && decide (i < v.vl) then [(i, (s.rx b).toNat % 2 ^ v.sew)] else []) [] 0 0))

/-! ### Compress and expand (R227) -/

/-- Formats and layouts that compress and expand take (log entry 30, DEDUCED). -/
def packable (v : VView) (d a : VReg) : Bool :=
  v.fmt != .pair && !v.fmt.digits && (v.bl == 0 || v.tile) && aligned d v.lmul && aligned a v.lmul && apart d v.lmul a v.lmul

/-- The units VCOMPRESS keeps, from unit 0 (log entry 30, DEDUCED). -/
def keptUnits (v : VView) (r : VecRegs) (m : MReg) (mk : Option MReg) : List Nat :=
  (v.body none true).filter (fun u => r.mbit m u || (match mk with
    | some k => r.mbit k u
    | none => false))

/-- VCOMPRESS: kept units from unit 0 on; the others up to VLB take the tail treatment; `.VL` sets VL to their number. -/
def vcompress (mk : Option MReg) (setVl : Bool) (d a : VReg) (m : MReg) (s : State) : Out :=
  vector false (fun v => packable v d a) [] (fun v => [⟨a, v.lmul, v.sew⟩]) (m :: mk.toList)
    (fun v r => !(keptUnits v r m mk).isEmpty) (fun v => some (d, v.lmul)) s fun v r s =>
        let us := keptUnits v r m mk
        let l := us.zipIdx.map (fun p => (p.2, some (a, p.1)))
        let zeros := if v.tp && v.live then
          v.elems ((List.range (v.vlmax - us.length)).map (fun i => us.length + i)) else []
        .next (s.modMe (fun c =>
          let c1 := c.finishMove v r d none l zeros 0 0 4
          if setVl && v.live then { c1 with vec := { c1.vec with vl := BitVec.ofNat 32 us.length } } else c1))

/-- VCOMPRESS (R227). -/
def execVcompress (d a : VReg) (m : MReg) (s : State) : Out := vcompress none false d a m s

/-- VCOMPRESS.VL (R227). -/
def execVcompressVl (d a : VReg) (m : MReg) (s : State) : Out := vcompress none true d a m s

/-- VCOMPRESS.KEEPNF (R227). -/
def execVcompressKeepnf (d a : VReg) (mk m : MReg) (s : State) : Out := vcompress (some mk) false d a m s

/-- VCOMPRESS.KEEPNF.VL (R227). -/
def execVcompressKeepnfVl (d a : VReg) (mk m : MReg) (s : State) : Out := vcompress (some mk) true d a m s

/-- VEXPAND (R227): active units take the source's units in order. -/
def execVexpand (d a : VReg) (m : MReg) (s : State) : Out :=
  vector false (fun v => packable v d a) [] (fun v => [⟨a, v.lmul, v.sew⟩]) [m]
    (fun v r => !(v.active none r m false).isEmpty) (fun v => some (d, v.lmul)) s fun v r s =>
        let us := v.active none r m false
        let l := us.zipIdx.map (fun p => (p.1, some (a, p.2)))
        .next (s.modMe (fun c => c.finishMove v r d none l (v.zeroed none r m false true true) 0 0 4))

end Sys2Proof.Machine
end

