-- ==== Sys2Proof/Machine/VecRed.lean ====
section
/-! DEFINITION. Reductions (14 R225), mask instructions (R226), non-finite and counting instructions (R228, R229), scans
(R230), random numbers and VP indices (R231, R234). -/

namespace Sys2Proof.Machine

/-! ### Reductions (R225) -/

/-- The zeroed elements of a reduction: element 1 and up are tail. -/
def VView.redTail (v : VView) : List Nat := if v.live && v.tp then (List.range (v.vlmax - 1)).map (fun i => i + 1) else []

/-- A reduction: `f` gives vd[0] and flags by element from the seed and the active elements; VBEG counts as 0
(log entry 30, DEDUCED). -/
def reduction (ok : VView → Bool) (fl : Bool) (f : VView → Nat → List (Nat × Nat) → Nat × List (Nat × FlagSet))
    (d a b : VReg) (m : MReg) (s : State) : Out :=
  vector false (fun v => ok v && v.bl == 0 && !v.tile && aligned d v.lmul && aligned a v.lmul && aligned b v.lmul) []
    (fun v => [⟨a, v.lmul, v.sew⟩, v.oneSrc b 0]) [m] (fun v r => !(v.active none r m true).isEmpty)
    (fun v => some (d, v.lmul)) s fun v r s =>
        let us := v.active none r m true
        let q := f v (r.elem v b v.sew 0) (us.map (fun i => (i, r.elem v a v.sew i)))
        .next (s.modMe (fun c =>
          let c1 := if fl then c.raiseV true (if v.live then q.2 else []) else c
          c1.finishCells v d (if v.live then [(0, q.1)] else []) v.redTail 0 0))

/-- The integer operation of a reduction over exact values. -/
def redInt (o : RedOp) (v : VView) (seed : Nat) (l : List (Nat × Nat)) : Nat :=
  match o with
  | .sum => v.fit v.sat (l.foldl (fun acc p => acc + v.intOf p.2) (v.intOf seed))
  | .min => v.fit false (l.foldl (fun acc p => min acc (v.intOf p.2)) (v.intOf seed))
  | .max => v.fit false (l.foldl (fun acc p => max acc (v.intOf p.2)) (v.intOf seed))
  | .and => l.foldl (fun acc p => acc &&& p.2) seed
  | .or => l.foldl (fun acc p => acc ||| p.2) seed
  | .xor => l.foldl (fun acc p => acc ^^^ p.2) seed

/-- VRED (R225). -/
def execVred (o : RedOp) (d a b : VReg) (m : MReg) (s : State) : Out :=
  reduction VView.isInt false (fun v seed l => (redInt o v seed l, [])) d a b m s

/-- A fold in index order with the flags of each step. -/
def foldFlags (op : Nat → Nat → Nat × FlagSet) (seed : Nat) (l : List (Nat × Nat)) : Nat × List (Nat × FlagSet) :=
  let q := l.foldl (fun (acc : Nat × List (Nat × FlagSet)) p =>
    let r := op acc.1 p.2
    (r.1, if r.2 = 0 then acc.2 else (p.1, r.2) :: acc.2)) (seed, [])
  (q.1, q.2.reverse)

/-- VFRED.O (R225): the ordered sum. -/
def execVfredO (d a b : VReg) (m : MReg) (s : State) : Out :=
  reduction VView.isFloat true (fun v seed l => foldFlags (v.ff.add v.rm v.sat) seed l) d a b m s

/-- VFRED.MIN (R225). -/
def execVfredMin (d a b : VReg) (m : MReg) (s : State) : Out :=
  reduction VView.isFloat true (fun v seed l => foldFlags (v.ff.minMax false) seed l) d a b m s

/-- VFRED.MAX (R225). -/
def execVfredMax (d a b : VReg) (m : MReg) (s : State) : Out :=
  reduction VView.isFloat true (fun v seed l => foldFlags (v.ff.minMax true) seed l) d a b m s

/-- Comb of R225. -/
def comb (op : Nat → Nat → Nat × FlagSet) (x y : Option Nat) : Option Nat × FlagSet :=
  match x, y with
  | some a, some b => (some (op a b).1, (op a b).2)
  | some a, none => (some a, 0)
  | none, y => (y, 0)

/-- One level of the tree: neighbours at distance s, whose left index is a multiple of 2s, are combined; the list holds the
elements that are multiples of s, from index `i` on. -/
def treeLevel (op : Nat → Nat → Nat × FlagSet) (s : Nat) : Nat → List (Option Nat) → List (Option Nat) × List (Nat × FlagSet)
  | i, x :: y :: l =>
    let c := comb op x y
    let q := treeLevel op s (i + 2 * s) l
    (c.1 :: q.1, if c.2 = 0 then q.2 else (i, c.2) :: q.2)
  | _, l => (l, [])

/-- The tree of a list whose length is a power of two, with `n` levels. -/
def treeFold (op : Nat → Nat → Nat × FlagSet) : Nat → Nat → List (Option Nat) → Option Nat × List (Nat × FlagSet)
  | 0, _, l => (l.headD none, [])
  | n + 1, s, l =>
    let c := treeLevel op s 0 l
    let q := treeFold op n (2 * s) c.1
    (q.1, c.2 ++ q.2)

/-- The least n with 2^n at or above a positive number. -/
def clog2 (n : Nat) : Nat := if n ≤ 1 then 0 else (n - 1).log2 + 1

/-- The tree sum of R225 with its flags, in index order. -/
def treeSum (op : Nat → Nat → Nat × FlagSet) (vl seed : Nat) (l : List (Nat × Nat)) : Nat × List (Nat × FlagSet) :=
  let n := clog2 vl
  let leaves := (List.range (2 ^ n)).map (fun i => (l.find? (fun p => p.1 == i)).map (fun p => p.2))
  let q := treeFold op n 1 leaves
  let c := comb op (some seed) q.1
  let hits := if c.2 = 0 then q.2 else ((l.head?.map (fun p => p.1)).getD 0, c.2) :: q.2
  (c.1.getD seed, hits.insertionSort (fun x y => x.1 ≤ y.1))

/-- VFRED.T (R225): the tree sum. -/
def execVfredT (d a b : VReg) (m : MReg) (s : State) : Out :=
  reduction VView.isFloat true (fun v seed l => treeSum (v.ff.add v.rm v.sat) v.vl seed l) d a b m s

/-! ### Mask instructions (R226) -/

/-- A mask operation on bits 0 to VL − 1. -/
def maskOp (f : Bool → Bool → Bool) (d a b : MReg) (st : Nat) (s : State) : Out :=
  vector true (fun v => v.fmt != .pair) [] (fun _ => []) [a, b] (fun v _ => v.live) (fun _ => none) s fun v r s =>
    let res := (v.body s.me.group true).map (fun i => (i, f (r.mbit a i) (r.mbit b i)))
    .next (s.modMe (fun c => c.finishMask v r d 0 true res 1 st 4))

/-- MAND (R226). -/
def execMand (d a b : MReg) (st : Stall) (s : State) : Out := maskOp (fun x y => x && y) d a b st.val s
/-- MOR (R226). -/
def execMor (d a b : MReg) (st : Stall) (s : State) : Out := maskOp (fun x y => x || y) d a b st.val s
/-- MXOR (R226). -/
def execMxor (d a b : MReg) (st : Stall) (s : State) : Out := maskOp (fun x y => x != y) d a b st.val s
/-- MNOT (R226). -/
def execMnot (d a : MReg) (st : Stall) (s : State) : Out := maskOp (fun x _ => !x) d a a st.val s
/-- MMV (R226). -/
def execMmv (d a : MReg) (st : Stall) (s : State) : Out := maskOp (fun x _ => x) d a a st.val s

/-- A mask instruction that writes an x register from the set bits below VL; its result is interlocked (R173). -/
def maskCount (f : List Nat → Word) (d : XReg) (a m : MReg) (st : Nat) (s : State) : Out :=
  vector false (fun v => v.fmt != .pair) [] (fun _ => []) [a, m]
    (fun v r => (List.range v.vl).any (fun i => r.mbit m i)) (fun _ => none) s fun v r s =>
    .next (s.modMe (fun c => (c.wx d (f ((List.range v.vl).filter (fun i => r.mbit a i && r.mbit m i))) 0).vdone v st 4))

/-- MPOPC (R226). -/
def execMpopc (d : XReg) (a m : MReg) (st : Stall) (s : State) : Out :=
  maskCount (fun l => BitVec.ofNat 64 l.length) d a m st.val s

/-- MFIRST (R226). -/
def execMfirst (d : XReg) (a m : MReg) (st : Stall) (s : State) : Out :=
  maskCount (fun l => match l.head? with
    | some i => BitVec.ofNat 64 i
    | none => BitVec.allOnes 64) d a m st.val s

/-! ### Non-finite positions (R228) -/

/-- An element is not finite, or its block's nf is set. -/
def unitNf (v : VView) (r : VecRegs) (a : VReg) (u : Nat) : Bool :=
  (v.elems [u]).any (fun e => (r.val v a e).nonFinite || (v.bl != 0 && (r.desc v a (e / v.bl)).getLsbD 16))

/-- VNFBLK (R228). -/
def execVnfblk (d : MReg) (a : VReg) (m : MReg) (s : State) : Out :=
  vector false (fun v => v.fmt != .pair && !v.fmt.digits && aligned a v.lmul) [] (fun v => [⟨a, v.lmul, v.sew⟩]) [m]
    (fun v r => !(v.active none r m false).isEmpty) (fun _ => none) s fun v r s =>
      let res := (v.active none r m false).map (fun u => (u, unitNf v r a u))
      .next (s.modMe (fun c => c.finishMask v r d m false res 0 0 4))

/-! ### Counting (R229) -/

/-- An instruction over all active elements, from element 0: `f` gives the results from the indexed elements; `role` is
the mask whose inactive elements follow MP. -/
def overActive (ok : VView → Bool) (xs : List XReg) (role : MReg)
    (f : VView → State → List (Nat × Nat) → List (Nat × Nat)) (d a : VReg) (m : MReg) (s : State) : Out :=
  vector false (fun v => ok v && v.bl == 0 && !v.tile && aligned d v.lmul && aligned a v.lmul) xs
    (fun v => [⟨a, v.lmul, v.sew⟩]) [m] (fun v r => !(v.active none r m true).isEmpty)
    (fun v => some (d, v.lmul)) s fun v r s =>
        let us := v.active none r m true
        let l := us.map (fun i => (i, r.elem v a v.sew i))
        .next (s.modMe (fun c =>
          c.finishCells v d (if v.live then f v s l else []) (v.zeroed none r role true true true) 0 0))

/-- VPPOPC (R229): running population counts. -/
def execVppopc (d a : VReg) (m : MReg) (s : State) : Out :=
  overActive VView.isInt [] m (fun v _ l =>
    (l.foldl (fun (acc : List (Nat × Nat) × Nat) p =>
      let n := acc.2 + popCount (BitVec.ofNat 64 p.2)
      ((p.1, n % 2 ^ v.sew) :: acc.1, n)) ([], 0)).1.reverse) d a m s

/-- FMT is an integer format of 16 bits or more. -/
def VView.isKey (v : VView) : Bool := v.isInt && decide (16 ≤ v.sew)

/-- VCONFL (R229): the nearest earlier active element with the same key. -/
def execVconfl (d a : VReg) (m : MReg) (s : State) : Out :=
  overActive VView.isKey [] m (fun v _ l =>
    l.map (fun p => (p.1, match (l.filter (fun q => decide (q.1 < p.1) && q.2 == p.2)).getLast? with
      | some q => q.1 % 2 ^ v.sew
      | none => 2 ^ v.sew - 1))) d a m s

/-- VRANK (R229): how many earlier active elements have the same key. -/
def execVrank (d a : VReg) (m : MReg) (s : State) : Out :=
  overActive VView.isKey [] m (fun v _ l =>
    l.map (fun p => (p.1, (l.filter (fun q => decide (q.1 < p.1) && q.2 == p.2)).length % 2 ^ v.sew))) d a m s

/-- VKCOUNT (R229): bin k counts the active keys at xb + k; every body element is a bin. -/
def execVkcount (d a : VReg) (b : XReg) (m : MReg) (s : State) : Out :=
  overActive VView.isKey [b] 0 (fun v s l =>
    let base := (s.rx b).toNat % 2 ^ v.sew
    let keys := l.map (fun p => (p.2 + 2 ^ v.sew - base) % 2 ^ v.sew)
    (List.range v.vl).map (fun k => (k, (keys.filter (fun q => q == k)).length % 2 ^ v.sew))) d a m s

/-! ### Scans (R230) -/

/-- An inclusive scan; a set bit of `start` begins a segment (log entry 30, DEDUCED). -/
def scanList (op : Nat → Nat → Nat × FlagSet) (start : Nat → Bool) (l : List (Nat × Nat)) : List (Nat × Nat × FlagSet) :=
  (l.foldl (fun (acc : List (Nat × Nat × FlagSet) × Option Nat) p =>
    match acc.2 with
    | some x => if start p.1 then ((p.1, p.2, 0) :: acc.1, some p.2) else
        let q := op x p.2
        ((p.1, q.1, q.2) :: acc.1, some q.1)
    | none => ((p.1, p.2, 0) :: acc.1, some p.2)) ([], none)).1.reverse

/-- VSCAN with an operation; `fl` for FADD, whose flags go by R57. -/
def vscan (ok : VView → Bool) (fl : Bool) (op : VView → Nat → Nat → Nat × FlagSet) (d a : VReg) (ms m : MReg) (s : State) :
    Out :=
  vector false (fun v => ok v && v.bl == 0 && !v.tile && aligned d v.lmul && aligned a v.lmul) []
    (fun v => [⟨a, v.lmul, v.sew⟩]) [ms, m] (fun v r => !(v.active none r m true).isEmpty)
    (fun v => some (d, v.lmul)) s fun v r s =>
        let us := v.active none r m true
        let l := scanList (op v) (fun i => ms != 0 && r.mbit ms i) (us.map (fun i => (i, r.elem v a v.sew i)))
        .next (s.modMe (fun c =>
          let c1 := if fl then c.raiseV true (l.map (fun p => (p.1, p.2.2))) else c
          c1.finishCells v d (l.map (fun p => (p.1, p.2.1))) (v.zeroed none r m true true true) 0 0))

/-- VSCAN.ADD (R230). -/
def execVscanAdd (d a : VReg) (ms m : MReg) (s : State) : Out :=
  vscan VView.isInt false (fun v x y => (v.fit v.sat (v.intOf x + v.intOf y), 0)) d a ms m s

/-- VSCAN.MIN (R230). -/
def execVscanMin (d a : VReg) (ms m : MReg) (s : State) : Out :=
  vscan VView.isInt false (fun v x y => (v.fit false (min (v.intOf x) (v.intOf y)), 0)) d a ms m s

/-- VSCAN.MAX (R230). -/
def execVscanMax (d a : VReg) (ms m : MReg) (s : State) : Out :=
  vscan VView.isInt false (fun v x y => (v.fit false (max (v.intOf x) (v.intOf y)), 0)) d a ms m s

/-- VSCAN.FADD (R230). -/
def execVscanFadd (d a : VReg) (ms m : MReg) (s : State) : Out :=
  vscan VView.isFloat true (fun v x y => v.ff.add v.rm v.sat x y) d a ms m s

/-! ### VP indices and random numbers (R231, R234) -/

/-- Fill active elements by index; `after` changes the context with their number. -/
def byIndex (f : VView → State → Nat → Nat → Nat) (after : Nat → Context → Context) (lat st : Nat) (d : VReg) (m : MReg)
    (s : State) : Out :=
  vector true (fun v => v.isInt && v.bl == 0 && !v.tile && aligned d v.lmul) [] (fun _ => []) [m]
    (fun v r => !(v.active s.me.group r m false).isEmpty) (fun v => some (d, v.lmul)) s fun v r s =>
        let us := v.active s.me.group r m false
        let l := us.zipIdx.map (fun p => (p.1, f v s p.1 p.2 % 2 ^ v.sew))
        .next (s.modMe (fun c =>
          (after us.length c).finishCells v d l (v.zeroed c.group r m false true true) lat st))

/-- VPID (R234). -/
def execVpid (d : VReg) (m : MReg) (s : State) : Out := byIndex (fun _ _ i _ => i) (fun _ c => c) 0 0 d m s

/-- G of R231. -/
def rngStep : Word := 0x9E3779B97F4A7C15

/-- The output of R231 for RNG advanced by a rank. -/
def rngOut (rng : Word) (rank : Nat) : Word :=
  let z0 := rng + BitVec.ofNat 64 rank * rngStep
  let z1 := (z0 ^^^ (z0 >>> 30)) * 0xBF58476D1CE4E5B9
  let z2 := (z1 ^^^ (z1 >>> 27)) * 0x94D049BB133111EB
  z2 ^^^ (z2 >>> 31)

/-- VRAND (R231). -/
def execVrand (d : VReg) (m : MReg) (st : Stall) (s : State) : Out :=
  byIndex (fun _ s _ k => (rngOut s.me.vec.rng (k + 1)).toNat)
    (fun n c => { c with vec := { c.vec with rng := c.vec.rng + BitVec.ofNat 64 n * rngStep } }) 6 st.val d m s

end Sys2Proof.Machine
end

