-- ==== Sys2Proof/Machine/Colls.lean ====
section
/-! DEFINITION. Collectives (15 R258 to R260): COLL, the data each operation moves, and how a collective ends. -/

namespace Sys2Proof.Machine

/-! ### Collectives in flight -/

/-- A collective by number. -/
def State.coll (s : State) (n : Nat) : Option Coll := s.colls.find? (fun c => c.id == n)

/-- Change a collective. -/
def State.modColl (s : State) (n : Nat) (f : Coll → Coll) : State :=
  { s with colls := s.colls.map (fun c => if c.id = n then f c else c) }

/-- The die of the member. -/
def Coll.die (c : Coll) : Fin 8 := dieOfCl c.cl

/-- The party whose rights a collective carries. -/
def Coll.party (c : Coll) : Party := ⟨c.fn, c.sp, some c.launch, c.cl, true⟩

/-- The collective engine as an observer on P4. -/
def Coll.obs (c : Coll) : Observer := ⟨some c.owner, c.die, .p4⟩

/-- The communicator of a function, if it is defined (19 R308). -/
def State.comm (s : State) (fn : Fin 256) (n : Nat) : Option Comm :=
  if n < 4096 then
    let c := Assoc.get Comm.reset (s.fnRec fn).comms n
    if c.defined then some c else none
  else none

/-- A range of any length, translated page by page. -/
def State.xlateLong (s : State) (p : Party) (acc : Access) (va : Word) (n : Nat) :
    Except (Cause × Word) (List (Mapped × Nat)) := s.xlateParts p acc (pageParts (n / 0x10000 + 2) va n)

/-- Load a range of any length. -/
def State.loadLong (s : State) (o : Observer) (p : Party) (va : Word) (n : Nat) : Except (Cause × Word) (List Byte) :=
  match s.xlateLong p .load va n with
  | .error e => .error e
  | .ok ms =>
    match s.badByte o.die ms with
    | some i => .error (.poison, va + BitVec.ofNat 64 i)
    | none => .ok (s.readParts o ms)

/-- The members of a communicator by rank (19 R308): device number and die (log entry 32, DEDUCED). -/
def State.commMembers (s : State) (fn : Fin 256) (c : Comm) : Except (Cause × Word) (List (Nat × Nat)) :=
  match s.loadLong ⟨none, 0, .p4⟩ ⟨fn, 0, none, 0, false⟩ c.members (8 * c.n.toNat) with
  | .error e => .error e
  | .ok bs => .ok ((List.range c.n.toNat).map (fun i => (fieldOf bs (8 * i) 4, fieldOf bs (8 * i + 4) 1 % 8)))

/-! ### Operations (R258, R259) -/

/-- OP, RED, FMT, the reserved bytes and ROOT name something; RED is zero unless a reduction (R258, R260). -/
def Coll.wellFormed (c : Coll) (n : Nat) : Bool :=
  decide (c.op.toNat ≤ 4) && (if c.op.toNat ≤ 1 then decide (c.red.toNat ≤ 2) else c.red == 0) &&
    [4, 5, 6, 7, 9, 10, 11].contains c.fmt.toNat && !c.rsvd && decide (c.root < n)

/-- Two members' descriptors agree (R260). -/
def Coll.agrees (a b : Coll) : Bool :=
  a.op == b.op && a.red == b.red && a.fmt == b.fmt && a.count == b.count && a.root == b.root

/-- The bytes of an element. -/
def Coll.size (c : Coll) : Nat := match Fmt.ofCode c.fmt.toNat with | some f => f.sew / 8 | none => 1

/-- The elements that the member of a rank brings (R259). -/
def Coll.srcElems (c : Coll) (n rank : Nat) : Nat :=
  match c.op.toNat with
  | 0 => c.count
  | 1 => n * c.count
  | 2 => c.count
  | 3 => if rank = c.root then c.count else 0
  | _ => 0

/-- One step of a reduction (R259): RNE without saturation; integer sums wrap. -/
def reduceStep (f : Fmt) (red : Nat) (a b : Nat) : Nat :=
  match f.float?, f.int? with
  | some x, _ =>
    match red with
    | 0 => (x.add .rne false a b).1
    | 1 => (x.minMax false a b).1
    | _ => (x.minMax true a b).1
  | none, some signed =>
    let v := fun n => if signed then signedOf f.sew n else (n : Int)
    match red with
    | 0 => patternOf f.sew (v a + v b)
    | 1 => if v b < v a then b else a
    | _ => if v a < v b then b else a
  | none, none => a

/-- The tree of R225 over the ranks. -/
def reduceRanks (f : Fmt) (red : Nat) (l : List Nat) : Nat :=
  let k := clog2 l.length
  let leaves := (List.range (2 ^ k)).map (fun i => l[i]?)
  ((treeFold (fun a b => (reduceStep f red a b, 0)) k 1 leaves).1).getD 0

/-- The value at each of `m` element positions from `at_` on, reduced over the ranks' sources. -/
def reduceAll (f : Fmt) (red : Nat) (srcs : List (List Byte)) (at_ m : Nat) : List Byte :=
  let w := f.sew / 8
  (List.range m).flatMap (fun i =>
    toBytes w (reduceRanks f red (srcs.map (fun bs => ofBytes ((bs.drop (w * (at_ + i))).take w)))))

/-- The bytes of DST at a rank (R259). -/
def Coll.result (c : Coll) (srcs : List (List Byte)) (rank : Nat) : List Byte :=
  match Fmt.ofCode c.fmt.toNat with
  | none => []
  | some f =>
    match c.op.toNat with
    | 0 => reduceAll f c.red.toNat srcs 0 c.count
    | 1 => reduceAll f c.red.toNat srcs (rank * c.count) c.count
    | 2 => srcs.flatten
    | 3 => (srcs[c.root]?).getD []
    | _ => []

/-! ### How a collective ends (R260) -/

/-- RANK of a completion word that names no member. -/
def noRank : BitVec 32 := 0xFFFFFFFF

/-- The collectives that make up one, by rank: `none` for a member that has not issued it, or on another device. -/
def State.peers (s : State) (c : Coll) (ms : List (Nat × Nat)) : List (Option Coll) :=
  ms.map (fun m =>
    if m.1 = s.fw.dev.toNat then
      s.colls.find? (fun d => d.fn == c.fn && d.comm == c.comm && d.k == c.k && d.die.val == m.2)
    else none)

/-- The collectives of one end, each in its own way. -/
def State.endAll (s : State) (ids : List Nat) (e : CollEnd) : State :=
  { s with colls := s.colls.map (fun c => if ids.contains c.id then { c with ending := some e } else c) }

/-- What a member brings: its source; a member on another device free bytes (log entry 31, DESIGN CHOICE); a member whose source faults
free bytes, and its fault. -/
def State.source (s : State) (c : Coll) (n : Nat) (rank : Nat) (p : Option Coll) :
    List Byte × Option (Cause × Word) :=
  let len := c.size * c.srcElems n rank
  let free := (List.range len).map (fun i => Config.remoteByte (s.freeCtr + i))
  match p with
  | none => (free, none)
  | some d =>
    match s.loadLong d.obs d.party d.src len with
    | .ok bs => (bs, none)
    | .error e => (free, some e)

/-- The sources in rank order; the counter of free values moves on with each (log entry 32, DEDUCED). -/
def State.sources (s : State) (c : Coll) (n : Nat) : Nat → List (Option Coll) → List (List Byte × Option (Cause × Word)) × State
  | _, [] => ([], s)
  | rank, p :: r =>
    let a := s.source c n rank p
    let q := ({ s with freeCtr := s.freeCtr + a.1.length } : State).sources c n (rank + 1) r
    (a :: q.1, q.2)

/-- A member waits for a page (R260). -/
def State.collPage (s : State) (c : Coll) (acc : Access) (va : Word) : State :=
  ({ s with pageReqs := s.pageReqs ++ [⟨s.nextId, c.fn, va, acc, va, none, some c.id⟩], nextId := s.nextId + 1 } : State).modColl
    c.id (fun d => { d with st := .waitingPage s.nextId })

/-- Give each present member its ending. -/
def State.endEach (s : State) (c : Coll) (data : List (List Byte)) :
    Nat → List (Option Coll × (List Byte × Option (Cause × Word))) → State
  | _, [] => s
  | rank, (p, src) :: r =>
    let s1 := match p with
      | none => s
      | some d => s.endAll [d.id] (match src.2 with
        | some _ => ⟨4, noRank, [], true⟩
        | none => ⟨1, noRank, c.result data rank, false⟩)
    s1.endEach c data (rank + 1) r

/-- Decide how a collective ends at every member on this device, once each of them has issued it. Of members on other
devices, whether they disagree or take part is a free choice (log entry 31, DESIGN CHOICE)
(log entry 32, DEDUCED). -/
def State.decideColl (s : State) (c : Coll) : State :=
  match s.comm c.fn c.comm with
  | none => s.endAll [c.id] ⟨3, noRank, [], false⟩
  | some cm =>
    match s.commMembers c.fn cm with
    | .error (k, va) => if k = .page then s.collPage c .load va else s.endAll [c.id] ⟨4, noRank, [], false⟩
    | .ok ms =>
      let n := ms.length
      let here := fun m : Nat × Nat => m.1 == s.fw.dev.toNat
      let ps := s.peers c ms
      let ids := ps.filterMap (fun p => p.map (fun d => d.id))
      let missing := (ms.zip ps).any (fun q => here q.1 && q.2.isNone)
      let s1 := s.tick
      if !ids.contains c.id then s.endAll [c.id] ⟨3, noRank, [], false⟩
      else if missing then s1
      else if ps.any (fun p => p.any (fun d => !d.wellFormed n || !d.agrees c)) || (ms.any (fun m => !here m) && Config.choice s.freeCtr) then
        s1.endAll ids ⟨3, noRank, [], false⟩
      else
        let q := s1.sources c n 0 ps
        match (ps.zip q.1).find? (fun p => p.1.isSome && p.2.2.any (fun e => e.1 == .page)) with
        | some (some d, (_, some (_, va))) => if d.st = .running then s1.collPage d .load va else s1
        | _ => q.2.endEach c (q.1.map (fun p => p.1)) 0 (ps.zip q.1)

/-- A member on another device is lost, at any instant until this member ends and for any of them: a free choice; answers its rank
(log entry 31, DESIGN CHOICE). -/
def State.remoteLoss (s : State) (c : Coll) : Option Nat :=
  match s.comm c.fn c.comm with
  | none => none
  | some cm =>
    match s.commMembers c.fn cm with
    | .error _ => none
    | .ok ms =>
      let rs := (List.range ms.length).filter (fun i => (ms[i]?).any (fun m => m.1 != s.fw.dev.toNat))
      if Config.choice s.freeCtr then rs[Config.pieceRow s.freeCtr % rs.length]? else none

/-- Write DST, all of it or, when the ending is loose, each byte by a free choice (log entry 32, DEDUCED). -/
def State.writeColl (s : State) (c : Coll) (e : CollEnd) : State :=
  match s.xlateLong c.party .store c.dst e.bytes.length with
  | .error (.page, va) => s.collPage c .store va
  | .error _ => s.modColl c.id (fun d => { d with ending := some ⟨4, noRank, e.bytes, true⟩, wrote := true })
  | .ok ms =>
    let keep := (List.range e.bytes.length).map (fun i => !e.loose || Config.choice (s.freeCtr + i))
    let s1 := s.engineStore c.fn c.die .p4 c.id c.dst ms e.bytes keep
    let mine := fun r : StoreRec => r.work == some c.id
    let s2 := (s1.loseUnreachable mine).drainAll mine
    ({ s2 with freeCtr := s2.freeCtr + e.bytes.length } : State).modColl c.id (fun d => { d with wrote := true })

/-- The completion word (R260). -/
def CollEnd.word (e : CollEnd) : Word := e.rank ++ BitVec.ofNat 32 e.code

/-- A collective is over at a member. -/
def State.dropColl (s : State) (n : Nat) : State := { s with colls := s.colls.filter (fun c => c.id != n) }

/-- A STATUS word that cannot be written is reported like a copy fault (R260) (log entry 32, DEDUCED). -/
def State.statusFault (s : State) (c : Coll) (k : Cause) (va : Word) : State :=
  let s1 := s.dropColl c.id
  if s.alive c.owner then s1.pend c.owner ⟨64, k, va⟩ else s1.endLaunch c.launch 2

/-- Write the completion word and end the collective at its member. -/
def State.writeStatus (s : State) (c : Coll) (e : CollEnd) : State :=
  match badAddress c.status 8 with
  | some k => s.statusFault c k c.status
  | none =>
    match s.xlateLong c.party .store c.status 8 with
    | .error (.page, va) => s.collPage c .store va
    | .error (k, va) => s.statusFault c k va
    | .ok ms => (s.engineStore c.fn c.die .p4 c.id c.status ms (toBytes 8 e.word.toNat) (List.replicate 8 true)).dropColl c.id

/-- COLL_COMPLETE (R260): the collective is decided, then DST is written, then the completion word; a page that is
missing is asked for and the collective waits. -/
def execCollComplete (n : Nat) (s : State) : Out :=
  match s.coll n with
  | none => .next s
  | some c =>
    if c.st ≠ .running ∨ s.engineHeld c.fn (some c.launch) c.die .collective then .next s
    else
      match c.lost, c.ending with
      | some r, none => .next (s.modColl n (fun d => { d with ending := some ⟨2, BitVec.ofNat 32 r, [], true⟩ }))
      | some r, some e =>
        if c.wrote then .next (s.writeStatus c ⟨2, BitVec.ofNat 32 r, e.bytes, true⟩)
        else .next (s.writeColl c ⟨2, BitVec.ofNat 32 r, e.bytes, true⟩)
      | none, e =>
        match s.remoteLoss c, e with
        | some r, _ => .next (s.tick.modColl n (fun d => { d with lost := some r }))
        | none, none => .next (s.tick.decideColl c)
        | none, some e => if c.wrote then .next (s.tick.writeStatus c e) else .next (s.tick.writeColl c e)

/-! ### COLL (R258) -/

/-- The collective that a descriptor describes, as the context in focus issues it. -/
def State.newColl (s : State) (bs : List Byte) (k : Nat) : Coll where
  id := s.nextId
  owner := s.me.uid
  launch := s.me.launch
  fn := s.me.fn
  sp := s.me.sp
  cl := s.me.cl
  op := BitVec.ofNat 8 (fieldOf bs 0 1)
  red := BitVec.ofNat 8 (fieldOf bs 1 1)
  fmt := BitVec.ofNat 8 (fieldOf bs 2 1)
  rsvd := fieldOf bs 3 1 != 0 || fieldOf bs 36 4 != 0 || fieldOf bs 48 16 != 0
  comm := fieldOf bs 4 4
  k := k
  src := BitVec.ofNat 64 (fieldOf bs 8 8)
  dst := BitVec.ofNat 64 (fieldOf bs 16 8)
  count := fieldOf bs 24 8
  root := fieldOf bs 32 4
  status := BitVec.ofNat 64 (fieldOf bs 40 8)
  lost := none
  ending := none
  wrote := false
  st := .running

/-- The issue status of COLL, and the state with the collective accepted. -/
def State.issueColl (s : State) (bs : List Byte) : Word × State :=
  match s.comm s.me.fn (fieldOf bs 4 4) with
  | none => (statusWord (-2), s)
  | some cm =>
    if (s.colls.filter (fun c => c.owner == s.me.uid)).length ≥ 16 then (statusWord (-3), s)
    else
      let d := s.me.die
      let k := cm.issued[d]
      let s1 : State := { s with colls := s.colls ++ [s.newColl bs k], nextId := s.nextId + 1 }
      (0, s1.modFn s.me.fn (fun f =>
        { f with comms := Assoc.set f.comms (fieldOf bs 4 4) { cm with issued := cm.issued.set d.val (k + 1) d.isLt } }))

/-- COLL (R258): the descriptor is read on P0 and a status written at once. -/
def execColl (d a : XReg) (s : State) : Out :=
  threadOnly s <| readsX [a] s <|
    descOn (s.rx a) 64 s fun bs s =>
      let r := s.issueColl bs
      (r.2.modMe (fun c => c.wx d r.1 0)).finish

end Sys2Proof.Machine
end

