-- ==== Sys2Proof/Machine/MemEvents.lean ====
section
/-! DEFINITION. The steps of the memory system, the links, the error machinery and the monitors (10 R139; 11 R158, R159, R164;
06 R95, R96; 19 R305, R306; 09 R126, R136, R137). A step whose condition does not hold changes nothing. -/

namespace Sys2Proof.Machine

/-! ### Stores (10 R139; 11 R158, R159) -/

/-- A store by number. -/
def State.store (s : State) (n : Nat) : Option StoreRec := s.stores.find? (fun r => r.id == n)

/-- The stores in front of a store in the list. -/
def State.older (s : State) (r : StoreRec) : List StoreRec := s.stores.takeWhile (fun q => q.id != r.id)

/-- Every store of the context that performs before this one has performed (10 R140, R141). -/
def State.mayPerform (s : State) (r : StoreRec) : Bool := (s.older r).all (fun q => q.performed || !q.alive || !q.before r)

/-- No store that must perform or reach the home first has still to (10 R140; 11 R161); one that performs at its home waits until no
die holds a store of its own to these bytes. -/
def State.mayApply (s : State) (r : StoreRec) : Bool :=
  s.mayPerform r && (s.older r).all (fun q => !q.precedes r) && (r.mode == .early || (s.rivals r).isEmpty)

/-- An applied store may become visible on a further die: that die holds no store of its own to these bytes (11 R161). -/
def State.mayShow (s : State) (r : StoreRec) (die : Fin 8) : Bool := (s.rivals r).all (fun q => r.home != r.die && q.die != die)

/-- The home of a store answers. -/
def State.homeUp (s : State) (r : StoreRec) : Bool := r.home == r.die || s.reachable r.die r.home

/-- Change one store and settle. -/
def State.advanceOne (s : State) (n : Nat) (f : StoreRec → StoreRec) : State := s.advance (fun r => r.id == n) f

/-- A store is applied at its home if it may be. -/
def State.applyStore (s : State) (r : StoreRec) : State :=
  if r.alive && !r.applied && s.homeUp r && s.mayApply r then s.advanceOne r.id StoreRec.applyNow else s

/-- STORE_APPLY (11 R158): an early-forwarding store, or one that performs at its home, is applied there. -/
def execStoreApply (n : Nat) (s : State) : Out :=
  match s.store n with
  | some r => .next (if r.mode = .glob then s else s.applyStore r)
  | none => .next s

/-- GLOBAL_STORE_APPLY (11 R159). -/
def execGlobalStoreApply (n : Nat) (s : State) : Out :=
  match s.store n with
  | some r => .next (if r.mode = .glob then s.applyStore r else s)
  | none => .next s

/-- A store visible on a further die (11 R158); one homed on its own die becomes so on all others at once. -/
def StoreRec.showDie (die : Fin 8) (r : StoreRec) : StoreRec :=
  if r.home = r.die then { r with dies := BitVec.allOnes 8 } else { r with dies := r.dies ||| (1#8 <<< die.val) }

/-- STORE_VISIBLE_ON_DIE (11 R158, R161): no earlier than the apply; a store whose acknowledgement was lost becomes visible as well. -/
def execStoreVisibleOnDie (n : Nat) (die : Fin 8) (s : State) : Out :=
  match s.store n with
  | some r =>
    .next (if r.mode = .early ∧ r.applied ∧ die ≠ r.die ∧ s.mayShow r die then s.advanceOne n (StoreRec.showDie die) else s)
  | none => .next s

/-- The store is visible on every other die. -/
def StoreRec.onEveryDie (r : StoreRec) : Bool := r.dies ||| (1#8 <<< r.die.val) == BitVec.allOnes 8

/-- STORE_ACKNOWLEDGE (11 R158): the home acknowledges a cross-die store that is visible on every die. -/
def execStoreAcknowledge (n : Nat) (s : State) : Out :=
  match s.store n with
  | some r =>
    .next (if r.alive ∧ r.applied ∧ r.home ≠ r.die ∧ r.onEveryDie ∧ s.homeUp r then s.advanceOne n StoreRec.ackNow else s)
  | none => .next s

/-- STORE_VISIBLE_TO_PATH (10 R139): to its own path, which is its perform; to another once it has performed. -/
def execStoreVisibleToPath (n : Nat) (p : Path) (s : State) : Out :=
  match s.store n with
  | some r =>
    if r.mode ≠ .early ∨ !r.alive then .next s
    else if r.performed then .next (s.advanceOne n (fun r => { r with paths := r.paths ||| (1#5 <<< pathIdx p) }))
    else if p = r.path ∧ s.mayPerform r then .next (s.advanceOne n StoreRec.performNow)
    else .next s
  | none => .next s

/-! ### Links (19 R305, R306; 11 R164) -/

/-- Both ends of a link go up or down; the ports of its ends have one name. -/
def State.setLink (s : State) (die : Fin 8) (p : Port) (on : Bool) : State :=
  let set := fun d : Die => { d with up := d.up.set (portIdx p).val on (portIdx p).isLt }
  (s.modDie die set).modDie (dieOf (die.val ^^^ portMask p)) set

/-- A route from a die crosses the link at a die's port. -/
def crosses (die : Nat) (p : Port) : Nat → List Port → Bool
  | _, [] => false
  | d, q :: r => (q == p && (d == die || d ^^^ portMask p == die)) || crosses die p (d ^^^ portMask q) r

/-- The link carries the store or its acknowledgement (11 R164). -/
def State.carries (s : State) (die : Fin 8) (p : Port) (r : StoreRec) : Bool :=
  r.home != r.die && r.alive && !r.acked && (r.performed || r.mode != .early) &&
    ((s.route r.die r.home).any (crosses die.val p r.die.val) || (s.route r.home r.die).any (crosses die.val p r.home.val))

/-- LINK_FAILURE (19 R306): the acknowledgement of a store that the link carries may be lost (11 R164). -/
def execLinkFailure (die : Fin 8) (p : Port) (s : State) : Out :=
  .next (({ s with stores := s.stores.map (fun r => if s.carries die p r then { r with cut := true } else r) } : State).setLink die p false)

/-- LINK_RECOVERY (19 R306). -/
def execLinkRecovery (die : Fin 8) (p : Port) (s : State) : Out := .next (s.setLink die p true)

/-- LINK_RETRANSMISSION (11 R164): duplicates are discarded, so nothing a program sees changes. -/
def execLinkRetransmission (_die : Fin 8) (_p : Port) (s : State) : Out := .next s

/-- The acknowledgement of a store can be lost: a link that carried it has failed, or its home is not there (11 R164). -/
def State.lossy (s : State) (r : StoreRec) : Bool := (r.performed || r.mode != .early) && (r.cut || !s.reachable r.die r.home)

/-- ACK_LOSS_DETECTION (11 R164): a cross-die store without acknowledgement is lost, applied once or not at all. -/
def execAckLossDetection (n : Nat) (applied : Bool) (s : State) : Out :=
  match s.store n with
  | some r =>
    .next (if s.lossy r && r.alive && !r.acked && r.home != r.die then
        s.lose (fun q => q.id == n) (fun q => q.applied || (applied && s.mayApply q))
      else s)
  | none => .next s

/-! ### Errors (06 R96; 09 R126) -/

/-- A list with a member, listed once. -/
def addOnce {α : Type} [BEq α] (l : List α) (a : α) : List α := if l.contains a then l else l ++ [a]

/-- UNCORRECTABLE_ERROR (06 R96): a granule, or 64 bits of a register, a shadow, a latch or the Chest, is poisoned; x0 and m0
hold no datum. -/
def execUncorrectableError (site : ErrSite) (s : State) : Out :=
  .next (match site with
    | .mem k => { s with poison := addOnce s.poison (k / 64) }
    | .xreg u r => if r = 0 then s else s.modContext u (fun c => { c with xpoison := c.xpoison ||| (1#32 <<< r.val) })
    | .vreg u r k => if k < 256 then s.modContext u (fun c => { c with vpoison := addOnce c.vpoison (r, k) }) else s
    | .latch cl l k =>
      if k < 1536 then s.modCluster cl (fun c => { c with latchPoison := addOnce c.latchPoison (l.val, k) }) else s
    | .shadow u r k => if k < 128 then s.modContext u (fun c => { c with shpoison := addOnce c.shpoison (r, k) }) else s
    | .mreg u r k =>
      if r ≠ 0 ∧ k < 512 then s.modContext u (fun c => { c with mpoison := addOnce c.mpoison (r, k) }) else s
    | .chest cl i => if i < 262144 then s.modCluster cl (fun c => { c with chestPoison := addOnce c.chestPoison i }) else s)

/-- The number of a store kind. -/
def storeKindIdx : StoreKind → Fin 8
  | .scratchpad => 0 | .latch => 1 | .chest => 2 | .cache => 3 | .dram => 4 | .cxl => 5 | .regfile => 6 | .link => 7

/-- A corrected-error count goes up and saturates (09 R126) (log entry 40, DESIGN CHOICE). -/
def State.countError (s : State) (die : Fin 8) (k : StoreKind) : State :=
  s.modDie die (fun d =>
    let i := storeKindIdx k
    let v := d.corr[i]
    { d with corr := d.corr.set i.val (if v = BitVec.allOnes 32 then v else v + 1) i.isLt })

/-- CORRECTED_ERROR (06 R96): corrected and counted; nothing else that programs see changes. -/
def execCorrectedError (die : Fin 8) (k : StoreKind) (s : State) : Out := .next (s.countError die k)

/-- PATROL_SCRUB (06 R96): the line is read and corrected; whether it held a soft error to count is a free choice
(log entry 40, DESIGN CHOICE). -/
def execPatrolScrub (die : Fin 8) (_line : BitVec 29) (s : State) : Out :=
  .next (if Config.choice s.freeCtr then s.tick.countError die .dram else s.tick)

/-- LINE_WRITE_BACK (06 R95): a modified line reaches its home; its bytes, key index and poison mark stay as they are. -/
def execLineWriteBack (line : BitVec 45) (s : State) : Out :=
  match s.modified.find? (fun p => p.1 == line.toNat) with
  | some (_, d) => .next (if s.reachable (dieOf d) (homeOf (line.toNat * 128)) then { s with modified := Assoc.erase s.modified line.toNat } else s)
  | none => .next s

/-! ### Monitors (09 R136, R137) -/

/-- The bin of a sample under SHIFT. -/
def sampleBin (shift : Nat) (v : Nat) : Nat := if v < 2 ^ shift then 0 else min 15 (v.log2 + 1 - shift)

/-- A monitor takes a sample. -/
def Monitor.sample (m : Monitor) (v : Word) : Monitor :=
  let k := sampleBin (m.ctl.toNat / 256 % 32) v.toNat
  let b := (m.bins[k]?).getD 0
  { m with mmin := if v.ult m.mmin then v else m.mmin
           mmax := if m.mmax.ult v then v else m.mmax
           bins := m.bins.setIfInBounds k (if b = BitVec.allOnes 32 then b else b + 1) }

/-- The launch whose event a sample is: that of the thread in the slot, or the Bureau's for the matrix sources
(log entry 39, DEDUCED). -/
def State.sampleLaunch (s : State) (cl : Fin 64) (source : Nat) (slot : Fin 4) : Option Nat :=
  let c := s.clusters[cl]
  let u := if source = 2 ∨ source = 4 then c.bureau else c.slots[slot]
  (u.bind s.context).map (fun x => x.launch)

/-- An enabled, claimed monitor counts a sample of its own launch and of the slots it selects (09 R137)
(log entry 39, DEDUCED). -/
def State.monitorCounts (s : State) (cl : Fin 64) (k : Fin 4) (slot : Fin 4) : Bool :=
  let m := (s.clusters[cl]).mons[k]
  let source := m.ctl.toNat / 16 % 16
  m.ctl.getLsbD 0 && decide (source ≤ 5) && m.owner.isSome && s.sampleLaunch cl source slot == m.owner &&
    (m.ctl.getLsbD 18 || m.ctl.toNat / 2 ^ 16 % 4 == slot.val)

/-- The value of a sample: the occupancy of a queue for sources 3 and 4; a time or an energy, which the model does not follow, is the
turn's own (09 R136) (log entry 39, DEDUCED). -/
def State.sampleValue (s : State) (cl : Fin 64) (source : Nat) (slot : Fin 4) (v : Word) : Word :=
  match source with
  | 3 => BitVec.ofNat 64 (((((s.clusters[cl]).slots[slot]).bind s.context).map (fun x => x.vq.length)).getD 0)
  | 4 => BitVec.ofNat 64 (s.clusters[cl]).mq.length
  | _ => v

/-- MONITOR_SAMPLE (09 R136, R137). -/
def execMonitorSample (cl : Fin 64) (k slot : Fin 4) (v : Word) (s : State) : Out :=
  .next (if s.monitorCounts cl k slot then
      let x := s.sampleValue cl (((s.clusters[cl]).mons[k]).ctl.toNat / 16 % 16) slot v
      s.modCluster cl (fun c => { c with mons := c.mons.set k.val ((c.mons[k]).sample x) k.isLt })
    else s)

/-- The number of the register MCTL of a monitor slot (R136). -/
def mctlReg (k : Fin 4) : BitVec 11 := BitVec.ofNat 11 (0x100 + 16 * k.val)

/-- The register that an SWR to MCTL of a slot writes from, if the code is one (13 R202). -/
def swrOfMctl (k : Fin 4) (c : Code) : Option XReg :=
  (List.finRange 32).find? (fun a => c == .w32 (joinWord (hI (mctlReg k) (r5 a)) 0 0x24 0))

/-- MCTL_WRITE (09 R137): the context in focus issues the SWR at its pc that writes the value to MCTL of the slot; with another
instruction there nothing happens. -/
def execMctlWrite (k : Fin 4) (v : Word) (s : State) : Out :=
  if !s.runnable || s.inBlock then .next s
  else
    match s.code with
    | .error _ => .next s
    | .ok c =>
      match swrOfMctl k c with
      | some a => if s.rx a = v then execSwr (mctlReg k) a s else .next s
      | none => .next s

end Sys2Proof.Machine
end

