-- ==== Sys2Proof/Machine/FrontEnd.lean ====
section
/-! DEFINITION. The front end: host work queues (07 R104 to R111), launches, their admission, acceptance and placement (02 R10 to
R14, R22; 09 R131; 08 R125; 26 R340), and their completion (02 R25; 07 R109; 15 R253; 18 R304). A step whose condition does
not hold changes nothing. -/

namespace Sys2Proof.Machine

/-! ### What the front end reads and writes (07 R104) -/

/-- The die of a queue. -/
def queueDie (q : Nat) : Fin 8 := dieOf (q / 1024)

/-- The front end as a party of a queue's function (log entry 15, DEDUCED). -/
def frontParty (fn : Fin 256) (die : Fin 8) : Party := ⟨fn, 0, none, clusterOf (8 * die.val), false⟩

/-- Translate for the front end, which uses no TLB slice (log entry 15, DEDUCED). -/
def State.frontXlate (s : State) (p : Party) (acc : Access) (va : Word) : Except Cause Mapped :=
  if field va.toNat 55 9 ≠ 0 ∨ isPadVa va then .error .prot
  else
    match s.walk p va.toNat with
    | .error c => .error c
    | .ok (big, e) =>
      match s.leafFault p acc e with
      | some c => .error c
      | none => .ok (leafMap big e va.toNat)

/-- Bytes that the front end of a die reads, within one page (log entry 15, DEDUCED). -/
def State.frontLoad (s : State) (fn : Fin 256) (die : Fin 8) (va : Word) (n : Nat) : Except Cause (List Byte) :=
  match s.frontXlate (frontParty fn die) .load va with
  | .error c => .error c
  | .ok m =>
    match s.badByte die [(m, n)] with
    | some _ => .error .poison
    | none => .ok ((List.range n).map (fun i => s.plain m.ki (s.dieByte die) (m.key + i)))

/-- Where the front end may store `n` bytes, within one page; a poisoned granule takes a store of part of it (06 R96)
(log entry 15, DEDUCED). -/
def State.frontStore (s : State) (fn : Fin 256) (die : Fin 8) (va : Word) (n : Nat) : Except Cause Mapped :=
  match s.frontXlate (frontParty fn die) .store va with
  | .error c => .error c
  | .ok m => if (s.unreachByte die [(m, n)]).isSome then .error .poison else .ok m

/-! ### Entries (07 R106 to R108) -/

/-- The bytes from one offset to the last are zero. -/
def zeroFrom (bs : List Byte) (off n : Nat) : Bool := ((bs.drop off).take n).all (fun b => b == 0)

/-- SEQ of an entry. -/
def entrySeq (bs : List Byte) : BitVec 32 := BitVec.ofNat 32 (fieldOf bs 8 4)
/-- TYPE of an entry. -/
def entryType (bs : List Byte) : Nat := fieldOf bs 12 1
/-- WAITPREV. -/
def entryWaits (bs : List Byte) : Bool := fieldOf bs 13 1 % 2 == 1
/-- INTR. -/
def entryIntr (bs : List Byte) : Bool := fieldOf bs 13 1 / 2 % 2 == 1

/-- The launch packet of an entry (R107). -/
def packetOf (bs : List Byte) : Packet where
  entry := BitVec.ofNat 64 (fieldOf bs 16 8)
  bureau := BitVec.ofNat 64 (fieldOf bs 24 8)
  n := BitVec.ofNat 64 (fieldOf bs 32 8)
  mask := BitVec.ofNat 64 (fieldOf bs 40 8)
  t := fieldOf bs 48 4
  energy := fieldOf bs 52 4
  g0 := fieldOf bs 56 1
  gmax := fieldOf bs 57 1
  gmin := fieldOf bs 58 1
  cosched := fieldOf bs 59 1 % 2 == 1
  hatch := fieldOf bs 59 1 / 2 % 32
  segs := fieldOf bs 60 1
  args := Vector.ofFn (fun i => BitVec.ofNat 64 (fieldOf bs (64 + 8 * i.val) 8))

/-- The clusters assigned to a function (19 R307); the PF holds every one (log entry 18, PRESUMED). -/
def State.clustersOf (s : State) (fn : Fin 256) : BitVec 64 := if fn = 0 then BitVec.allOnes 64 else (s.fnRec fn).clusters

/-- The clusters of a mask that are assigned to the function, on dies that are not absent, ascending (02 R11, R13; 19 R307). -/
def State.maskClusters (s : State) (fn : Fin 256) (mask : BitVec 64) : List (Fin 64) :=
  (List.finRange 64).filter (fun c =>
    mask.getLsbD c.val && (s.clustersOf fn).getLsbD c.val && decide ((s.dies[dieOfCl c]).status ≠ .absent))

/-- T over k, rounded up. -/
def perCluster (t k : Nat) : Nat := (t + k - 1) / k

/-- The checks of a launch packet (02 R10, R11). -/
def State.packetOk (s : State) (fn : Fin 256) (p : Packet) : Bool :=
  let k := (s.maskClusters fn p.mask).length
  decide (p.entry.toNat % 2 = 0) && decide (p.bureau.toNat % 2 = 0) && decide (k ≠ 0) &&
    decide (1 ≤ p.g0) && decide (p.g0 ≤ 8) && decide (p.g0 ≤ p.gmax) && decide (p.gmax ≤ 8) &&
    decide (1 ≤ p.gmin) && decide (p.gmin ≤ p.g0) && decide (p.hatch ≤ 16) && (p.hatch == 0 || p.cosched) &&
    (!p.cosched || decide (perCluster p.t k * p.g0 ≤ 8) && decide (perCluster p.t k ≤ 4))

/-- An entry is well formed beside its SEQ (R106 to R108, R110). -/
def State.entryOk (s : State) (fn : Fin 256) (bs : List Byte) : Bool :=
  decide (fieldOf bs 13 1 < 4) && zeroFrom bs 14 2 &&
    match entryType bs with
    | 1 => decide (fieldOf bs 59 1 < 64) && zeroFrom bs 61 3 && s.packetOk fn (packetOf bs)
    | 2 => zeroFrom bs 40 88
    | 3 => decide (fieldOf bs 16 8 % 8 = 0) && decide (fieldOf bs 40 1 ≤ 3) && zeroFrom bs 41 87
    | 4 => decide (fieldOf bs 16 8 % 8 = 0) && decide (fieldOf bs 32 1 ≤ 1) && zeroFrom bs 33 95
    | _ => false

/-- The address of the next entry (R105). -/
def Queue.nextEntry (k : Queue) : Word := if k.fresh then k.qbase else k.nextAt

/-- An entry may be read: the queue is enabled and runs, and the tail is ahead (R105, R110). -/
def Queue.available (k : Queue) : Bool :=
  let ahead := (k.qtail - k.qhead).toNat
  k.en && !k.stop && decide (1 ≤ ahead) && decide (ahead < 2 ^ 31)

/-- What the front end finds as the next entry: the entry, or the REASON it stops for (R110) (log entry 16, DEDUCED). -/
def State.nextRead (s : State) (q : Nat) : Except (BitVec 4) (List Byte) :=
  let k := s.queue q
  if k.nextEntry.toNat % 128 ≠ 0 then .error 1
  else
    match s.frontLoad k.owner (queueDie q) k.nextEntry 128 with
    | .error _ => .error 3
    | .ok bs => if entrySeq bs = k.qhead + 1 ∧ s.entryOk k.owner bs then .ok bs else .error 1

/-- Every entry started before has completed (R106, R108). -/
def Queue.allDone (k : Queue) : Bool := k.ents.all (fun e => e.done)

/-! ### Which queue starts an entry (R111, R101) -/

/-- The function of a queue, or its launch, is held (09 R129) (log entry 9, DEDUCED; log entry 17, DEDUCED). -/
def State.fnHeld (s : State) (fn : Fin 256) : Bool := (s.fnRec fn).tenant.holds

/-- The head entry of a queue could start now (log entry 17, DEDUCED). -/
def State.startable (s : State) (q : Nat) : Bool :=
  let k := s.queue q
  k.available && !s.fnHeld k.owner &&
    match k.head with
    | some h =>
      (!h.wait || k.allDone) && (match s.launch h.launch with
        | some l => l.stage == .admitted && (l.pk.t == 0 || (s.freeGroup (queueDie q)).isSome)
        | none => false)
    | none =>
      match s.nextRead q with
      | .ok bs => entryType bs != 1 && (!(entryWaits bs || entryType bs == 4) || k.allDone)
      | .error _ => false

/-- The queues among which one is chosen: the startable ones of the highest priority (log entry 17, DEDUCED). -/
def State.contenders (s : State) : List (Nat × Queue) :=
  let l := s.queues.filter (fun p => s.startable p.1)
  let top := l.foldl (fun m p => max m p.2.prio.toNat) 0
  l.filter (fun p => p.2.prio.toNat == top)

/-- The winner of a round of smooth weighted round-robin: the highest credit after growth, the lowest number on a tie
(log entry 17, DEDUCED). -/
def roundWinner (l : List (Nat × Int)) : Option Nat :=
  (l.foldl (fun (b : Option (Nat × Int)) p => match b with
    | some x => if x.2 < p.2 ∨ (x.2 = p.2 ∧ p.1 < x.1) then some p else some x
    | none => some p) none).map (fun p => p.1)

/-- The queue whose head starts next. -/
def State.chosenQueue (s : State) : Option Nat :=
  roundWinner (s.contenders.map (fun p => (p.1, (p.2.credit + p.2.weight.setWidth 16).toInt)))

/-- The credits after a queue was chosen (log entry 17, DEDUCED). -/
def State.payQueue (s : State) (w : Nat) : State :=
  let l := s.contenders
  let total := l.foldl (fun t p => t + p.2.weight.setWidth 16) (0 : BitVec 16)
  l.foldl (fun s p => s.modQueue p.1 (fun k =>
    { k with credit := k.credit + k.weight.setWidth 16 - (if p.1 = w then total else 0) })) s

/-! ### Starting an entry (R105, R108, R109) -/

/-- QHEAD and NEXT move on to an entry that starts, which joins the started ones. -/
def Queue.start (k : Queue) (seq : BitVec 32) (next : Word) (e : QEntry) : Queue :=
  { k with qhead := seq, nextAt := next, fresh := false, head := none, ents := k.ents ++ [e] }

/-- A copy entry's copy on a copy engine of the queue's die (log entry 34, DEDUCED). -/
def State.entryCopy (s : State) (q : Nat) (bs : List Byte) (id : Nat) : Copy where
  id := id
  owner := none
  tag := 0
  launch := none
  entry := some (q, entrySeq bs)
  fn := (s.queue q).owner
  sp := 0
  cl := clusterOf (8 * (queueDie q).val)
  rows := 1
  rbytes := fieldOf bs 32 8
  src := BitVec.ofNat 64 (fieldOf bs 16 8)
  dst := BitVec.ofNat 64 (fieldOf bs 24 8)
  spitch := 0
  dpitch := 0
  sidx := 0
  didx := 0
  indexed := false
  done := 0
  parts := []
  wrote := []
  st := .running

/-- A copy, wait or signal entry starts. -/
def State.startEntryOf (s : State) (q : Nat) (bs : List Byte) : State :=
  let n := s.nextId
  let go := fun (s : State) (k : EntryKind) (done : Bool) => ({ s with nextId := n + 2 } : State).modQueue q (fun r =>
    r.start (entrySeq bs) (BitVec.ofNat 64 (fieldOf bs 0 8)) ⟨n, entrySeq bs, k, entryIntr bs, done, false⟩)
  match entryType bs with
  | 2 =>
    if fieldOf bs 32 8 = 0 then go s (.copy (n + 1)) true
    else go { s with copies := s.copies ++ [s.entryCopy q bs (n + 1)] } (.copy (n + 1)) false
  | 3 => go s (.wait (BitVec.ofNat 64 (fieldOf bs 16 8)) (BitVec.ofNat 64 (fieldOf bs 24 8))
      (BitVec.ofNat 64 (fieldOf bs 32 8)) (BitVec.ofNat 2 (fieldOf bs 40 1))) false
  | _ => go s (.signal (BitVec.ofNat 64 (fieldOf bs 16 8)) (BitVec.ofNat 64 (fieldOf bs 24 8)) (fieldOf bs 32 1 == 1)) false

/-- A launch entry has reached the head of its queue (log entry 15, DEDUCED). -/
def State.headLaunch (s : State) (q : Nat) (bs : List Byte) : State :=
  let k := s.queue q
  let l : Launch :=
    { id := s.nextId, queue := q, seq := entrySeq bs, fn := k.owner, sp := 0, pk := packetOf bs, stage := .waiting, order := 0,
      gid := 0, next := 0, lastCl := none, exited := 0, hatch := [], loops := [], charged := 0, budget := Budget.reset, preempted := false,
      spilled := [] }
  ({ s with launches := s.launches ++ [l], nextId := s.nextId + 1 } : State).modQueue q (fun r =>
    { r with head := some ⟨l.id, BitVec.ofNat 64 (fieldOf bs 0 8), entryWaits bs, entryIntr bs⟩ })

/-- QUEUE_ENTRY_READ (R105, R110, R111): the next entry is read and checked. A bad one stops the queue; a launch waits at the
head; any other starts when its queue is the chosen one. -/
def execQueueEntryRead (q : Fin 8192) (s : State) : Out :=
  let k := s.queue q.val
  if !k.available || k.head.isSome || s.fnHeld k.owner then .next s
  else
    match s.nextRead q.val with
    | .error r => .next (s.stopQueue q.val r (k.qhead + 1))
    | .ok bs =>
      if entryType bs = 1 then .next (s.headLaunch q.val bs)
      else if s.chosenQueue = some q.val then .next ((s.payQueue q.val).startEntryOf q.val bs)
      else .next s

/-- WAIT_ON_VALUE_CHECK's condition (R108). -/
def waitHolds (cond : BitVec 2) (x v : Word) : Bool :=
  match cond.toNat with
  | 0 => x == v
  | 1 => x != v
  | 2 => v.ule x
  | _ => x.ult v

/-- The queue and the started entry with a number. -/
def State.entry (s : State) (n : Nat) : Option (Nat × QEntry) :=
  s.queues.findSome? (fun p => (p.2.ents.find? (fun e => e.id == n)).map (fun e => (p.1, e)))

/-- A started entry is over because it faults: its queue stops with REASON 3 (R110) (log entry 16, DEDUCED). -/
def State.entryFails (s : State) (q : Nat) (e : QEntry) : State := (s.markEntry q e.seq).stopQueue q 3 e.seq

/-- WAIT_ON_VALUE_CHECK (R108). -/
def execWaitOnValueCheck (n : Nat) (s : State) : Out :=
  match s.entry n with
  | some (q, e) =>
    match e.kind with
    | .wait addr v mask cond =>
      let k := s.queue q
      if e.done || s.fnHeld k.owner then .next s
      else
        match s.frontLoad k.owner (queueDie q) addr 8 with
        | .error _ => .next (s.entryFails q e)
        | .ok bs => .next (if waitHolds cond (BitVec.ofNat 64 (ofBytes bs) &&& mask) v then s.markEntry q e.seq else s)
    | .launch _ | .copy _ | .signal _ _ _ => .next s
  | none => .next s

/-- The globally acknowledged store or add of a signal (R108). -/
def State.signal (s : State) (m : Mapped) (die : Fin 8) (v : Word) (add : Bool) : State :=
  let s1 := s.applyFor die m.key 8
  let old := BitVec.ofNat 64 (ofBytes (s1.readHome m.ki m.key 8))
  s1.pokeKey m.ki m.key (toBytes 8 (if add then old + v else v).toNat)

/-- SIGNAL_ENTRY (R108): after every earlier entry. An add needs the word that it reads. -/
def execSignalEntry (n : Nat) (s : State) : Out :=
  match s.entry n with
  | some (q, e) =>
    match e.kind with
    | .signal addr v add =>
      let k := s.queue q
      if e.done || s.fnHeld k.owner then .next s
      else
        match s.frontStore k.owner (queueDie q) addr 8 with
        | .error _ => .next (s.entryFails q e)
        | .ok m =>
          if add && s.anyPoison m.key 8 then .next (s.entryFails q e)
          else .next ((s.signal m (queueDie q) v add).markEntry q e.seq)
    | .launch _ | .copy _ | .wait _ _ _ _ => .next s
  | none => .next s

/-- The interrupt of a completed entry, once (log entry 17, DEDUCED). -/
def State.tellDone (s : State) (q : Nat) (e : QEntry) : State :=
  if e.intr && !e.told then
    ({ s with notes := s.notes ++ [.entryDone q e.seq] } : State).modQueue q (fun k =>
      { k with ents := k.ents.map (fun d => if d.id = e.id then { d with told := true } else d) })
  else s

/-- The completion word of a queue moves over the completed entries at the front, each of which interrupts the host if it asks to
(R106, R109); one that cannot be written stops the queue and keeps its value (R110) (log entry 16, DEDUCED). -/
def State.advanceWord (s : State) (q : Nat) : State :=
  let k := s.queue q
  let front := k.ents.takeWhile (fun e => e.done)
  match front.getLast? with
  | none => s
  | some e =>
    let bad := fun s : State => s.stopQueue q 3 e.seq
    if k.qcompl.toNat % 8 ≠ 0 then bad s
    else
      match s.frontStore k.owner (queueDie q) k.qcompl 8 with
      | .error _ => bad s
      | .ok m =>
        if s.anyPoison m.key 8 then bad s
        else ((front.foldl (fun s e => s.tellDone q e) s).pokeKey m.ki m.key (toBytes 8 e.seq.toNat)).modQueue q (fun k =>
          { k with compl := e.seq, ents := k.ents.dropWhile (fun e => e.done) })

/-- QUEUE_ENTRY_COMPLETE (R109, R106): a completed entry interrupts the host if it asks to, and the completion word moves on. -/
def execQueueEntryComplete (n : Nat) (s : State) : Out :=
  match s.entry n with
  | some (q, e) => if e.done then .next ((s.tellDone q e).advanceWord q) else .next s
  | none => .next s

/-! ### Admission and acceptance (09 R131, 02 R15) -/

/-- What a launch has outstanding of its estimate. -/
def Launch.outstanding (l : Launch) : Nat := l.pk.energy - l.charged

/-- The launches of a tenant that are admitted and unfinished. -/
def State.admitted (s : State) (fn : Fin 256) : List Launch := s.launches.filter (fun l => l.fn == fn && l.stage != .waiting)

/-- The forecast of a tenant in µJ. -/
def State.forecast (s : State) (fn : Fin 256) : Int :=
  let b := (s.fnRec fn).tenant
  let limit : Int := b.lim[3].toNat
  (limit - b.used[3].toNat) + ((s.fw.horizon : Int) - 1) * limit -
    ((s.admitted fn).foldl (fun t l => t + l.outstanding) 0 : Nat)

/-- The planner admits a launch. -/
def State.admits (s : State) (l : Launch) : Bool :=
  let limit := (s.fnRec l.fn).tenant.lim[3]
  l.pk.energy == 0 || limit == 0xFFFFFFFF || decide ((l.pk.energy : Int) ≤ s.forecast l.fn) ||
    (decide (s.fw.horizon * limit.toNat < l.pk.energy) && (s.admitted l.fn).isEmpty)

/-- LAUNCH_ADMISSION (09 R131). -/
def execLaunchAdmission (n : Nat) (s : State) : Out :=
  match s.launch n with
  | some l =>
    .next (if l.stage = .waiting ∧ s.admits l then s.modLaunch n (fun k => { k with stage := .admitted }) else s)
  | none => .next s

/-- A launch is accepted: its group has all T threads as members, and its entry has started; T = 0 completes at once
(log entry 17, DEDUCED). -/
def State.accept (s : State) (l : Launch) (h : HeadEntry) : State :=
  let s1 := (s.payQueue l.queue).modQueue l.queue (fun k => k.start l.seq h.next ⟨s.nextId, l.seq, .launch l.id, h.intr, l.pk.t == 0, false⟩)
  let s2 : State := { s1 with nextId := s1.nextId + 1 }
  if l.pk.t = 0 then { s2 with launches := s2.launches.filter (fun k => k.id != l.id) }
  else
    match s2.freeGroup (queueDie l.queue) with
    | none => s
    | some g =>
      ({ s2 with groups := Assoc.set s2.groups g ⟨l.pk.t, 0, l.pk.t, 0⟩ } : State).modLaunch l.id (fun k =>
        { k with stage := .accepted, order := s.nextId, gid := g
                 budget := { k.budget with lim := (s.fnRec l.fn).llim } })

/-- LAUNCH_ACCEPT (02 R15): the chosen queue's admitted launch starts with the lowest free group id; with none free it waits. -/
def execLaunchAccept (n : Nat) (s : State) : Out :=
  match s.launch n with
  | some l =>
    match (s.queue l.queue).head with
    | some h => .next (if h.launch = n ∧ s.chosenQueue = some l.queue then s.accept l h else s)
    | none => .next s
  | none => .next s

/-! ### Placement (02 R12 to R14, R22; 06 R90; 26 R340) -/

/-- The lowest free slots of a cluster. -/
def Cluster.freeSlots (c : Cluster) : List (Fin 4) := (List.finRange 4).filter (fun k => (c.slots[k]).isNone)
/-- The unowned groups of a cluster, lowest first. -/
def Cluster.unowned (c : Cluster) : List (Fin 8) := (List.finRange 8).filter (fun k => !(c.lpart[k]).owned)
/-- The free segments of a cluster, lowest first. -/
def Cluster.freeSegs (c : Cluster) : List (Fin 256) := (List.finRange 256).filter (fun k => (c.segs[k]).isNone)
/-- A launch holds segments of a cluster. -/
def Cluster.holdsSegs (c : Cluster) (n : Nat) : Bool := c.segs.toList.contains (some n)

/-- The Bureau context of a launch on a cluster, resident or out. -/
def State.launchBureau (s : State) (n : Nat) (cl : Fin 64) : Option Context :=
  s.contexts.find? (fun c => c.launch == n && c.kind == .bureau && c.cl == cl && c.status != .exited)

/-- The Bureau place of a cluster serves a launch (02 R22). -/
def State.bureauFits (s : State) (l : Launch) (cl : Fin 64) : Bool :=
  l.pk.bureau == 0 || (match (s.clusters[cl]).bureau with
    | none => (s.launchBureau l.id cl).isNone
    | some u => (s.context u).any (fun c => c.launch == l.id))

/-- A cluster takes `k` threads of a launch (R12, R13; 07 R107). -/
def State.fits (s : State) (l : Launch) (cl : Fin 64) (k : Nat) : Bool :=
  let c := s.clusters[cl]
  decide ((s.dies[dieOfCl cl]).status = .present) && decide (k ≤ c.freeSlots.length) &&
    decide (k * l.pk.g0 ≤ c.unowned.length) && !l.spilled.any (fun p => p.cl == cl) &&
    (c.holdsSegs l.id || decide (l.pk.segs ≤ c.freeSegs.length)) && s.bureauFits l cl

/-- Groups become a slot's, which is their heir too. -/
def Cluster.giveGroups (c : Cluster) (slot : Fin 4) (ks : List (Fin 8)) : Cluster :=
  { c with lpart := c.lpart.mapIdx (fun i g => if ks.any (fun k => k.val == i) then ⟨true, slot, slot, 0, false⟩ else g) }

/-- The key lies in one of the segments of a cluster. -/
def inSegs (cl : Fin 64) (ks : List Nat) (k : Nat) : Bool :=
  isPad k && padCluster k == cl.val && ks.contains (padOffset k / Config.segmentBytes)

/-- Segments of a cluster read zero (06 R90) (log entry 19, DEDUCED). -/
def State.zeroSegs (s : State) (cl : Fin 64) (ks : List Nat) : State :=
  { s with mem := s.mem.filter (fun c => !inSegs cl ks c.1)
           poison := s.poison.filter (fun g => !inSegs cl ks (64 * g))
           stores := s.stores.map (fun r => { r with bytes := r.bytes.filter (fun c => !inSegs cl ks c.1) }) }

/-- Segments become a launch's. -/
def Cluster.giveSegs (c : Cluster) (n : Nat) (ks : List Nat) : Cluster :=
  { c with segs := c.segs.mapIdx (fun i g => if ks.contains i then some n else g) }

/-- A launch gets zeroed segments on a cluster where it holds none: the lowest free ones (06 R90; 07 R107; 22 R334)
(log entry 19, DEDUCED). -/
def State.grantSegs (s : State) (l : Launch) (cl : Fin 64) : State :=
  let c := s.clusters[cl]
  if c.holdsSegs l.id then s
  else
    let ks := (c.freeSegs.take l.pk.segs).map (fun k => k.val)
    (s.zeroSegs cl ks).modCluster cl (fun c => c.giveSegs l.id ks)

/-- x10 to x21 at placement (02 R14, R8). -/
def launchRegs (l : Launch) (ordinal : Nat) : Vector Word 32 :=
  Vector.ofFn fun i =>
    if i.val = 10 then l.pk.n
    else if i.val = 11 then BitVec.ofNat 64 ordinal
    else if i.val = 12 then BitVec.ofNat 64 l.pk.t
    else if i.val = 13 then BitVec.ofNat 64 l.gid
    else if 14 ≤ i.val ∧ i.val ≤ 21 then l.pk.args.toList.getD (i.val - 14) 0
    else 0

/-- The cluster's Bureau state when a context starts on it (06 R87, 08 R113, 09 R126); the latches take their reset values with the
rest (log entry 61, DESIGN CHOICE). -/
def Cluster.startBureau (c : Cluster) (u : Nat) : Cluster :=
  { c with bureau := some u, latches := Vector.replicate 2 Latch.reset, chest := [], plates := Vector.replicate 4 ⟨none, none⟩,
           mq := [], mgdone := 0, latchPoison := [], chestPoison := [] }

/-- The Bureau context of a launch starts on a cluster where it has none (02 R22, 01 R8). -/
def State.startBureau (s : State) (l : Launch) (cl : Fin 64) : State :=
  if l.pk.bureau = 0 ∨ (s.launchBureau l.id cl).isSome then s
  else
    let c : Context := { Context.start s.nextId .bureau cl 0 with
      launch := l.id, fn := l.fn, sp := l.sp, pc := l.pk.bureau, x := launchRegs l 0 }
    ({ s with others := s.others ++ [c], nextId := s.nextId + 1 } : State).modCluster cl (fun k => k.startBureau c.uid)

/-- A set of lane groups. -/
def groupSet (ks : List (Fin 8)) : BitVec 8 := ks.foldl (fun m k => m ||| (1#8 <<< k.val)) 0

/-- The next thread of a launch is placed on a cluster that takes it (R12 to R14). -/
def State.placeThread (s : State) (l : Launch) (ordinal : Nat) (cl : Fin 64) : State :=
  let c := s.clusters[cl]
  match c.freeSlots with
  | [] => s
  | slot :: _ =>
    let ks := c.unowned.take l.pk.g0
    let t : Context := { Context.start s.nextId .thread cl slot with
      launch := l.id
      fn := l.fn
      sp := l.sp
      ordinal := ordinal
      pc := l.pk.entry
      x := launchRegs l ordinal
      sys := ⟨0, false, (s.queue l.queue).weight, 0⟩
      groups := groupSet ks
      members := [⟨l.gid, 0, none⟩] }
    let s1 : State := { s with others := s.others ++ [t], nextId := s.nextId + 1 }
    let s2 := s1.modCluster cl (fun k =>
      { k.giveGroups slot ks with slots := k.slots.set slot.val (some t.uid) slot.isLt })
    ((s2.grantSegs l cl).startBureau l cl).modLaunch l.id (fun k => { k with next := ordinal + 1, lastCl := some cl.val })

/-- The clusters a thread tries, in order (R12). -/
def State.tryOrder (s : State) (l : Launch) : List (Fin 64) :=
  let cs := s.maskClusters l.fn l.pk.mask
  match l.lastCl with
  | none => cs
  | some k => cs.filter (fun c => decide (k < c.val)) ++ cs.filter (fun c => decide (c.val ≤ k))

/-- PRIO of a launch. -/
def State.prioOf (s : State) (l : Launch) : Nat := (s.queue l.queue).prio.toNat

/-- An accepted launch waits for placement. -/
def Launch.unplaced (l : Launch) : Bool := l.stage == .accepted && decide (l.next < l.pk.t)

/-- No launch of equal or higher priority accepted earlier still waits (R12). -/
def State.firstInLine (s : State) (l : Launch) : Bool :=
  !s.launches.any (fun k => k.unplaced && k.id != l.id && decide (k.order < l.order) && decide (s.prioOf l ≤ s.prioOf k))

/-- A launch may place now. -/
def State.mayPlace (s : State) (l : Launch) : Bool :=
  l.unplaced && !l.preempted && s.firstInLine l && !s.fnHeld l.fn && !l.budget.holds

/-- THREAD_PLACEMENT (R12): the next thread of a launch that is not co-scheduled. -/
def execThreadPlacement (n : Nat) (s : State) : Out :=
  match s.launch n with
  | some l =>
    if l.pk.cosched || !s.mayPlace l then .next s
    else
      match (s.tryOrder l).find? (fun c => s.fits l c 1) with
      | some cl => .next (s.placeThread l l.next cl)
      | none => .next s
  | none => .next s

/-- The clusters of the threads of a co-scheduled launch, by ordinal (R13). -/
def State.assigned (s : State) (l : Launch) : List (Fin 64) :=
  let cs := s.maskClusters l.fn l.pk.mask
  (List.range l.pk.t).filterMap (fun i => cs[i % cs.length]?)

/-- The dies that hold an assigned cluster, ascending. -/
def diesOf (cs : List (Fin 64)) : List (Fin 8) := (List.finRange 8).filter (fun d => cs.any (fun c => dieOfCl c == d))

/-- The free loop slots of a die. -/
def Die.freeLoops (d : Die) : List (Fin 16) := (List.finRange 16).filter (fun i => (d.hatch[i]).owner.isNone)

/-- A co-scheduled launch fits as a whole (R13). -/
def State.fitsAll (s : State) (l : Launch) : Bool :=
  let cs := s.assigned l
  (List.finRange 64).all (fun c => cs.count c == 0 || s.fits l c (cs.count c)) &&
    (diesOf cs).all (fun d => decide (l.pk.hatch ≤ (s.dies[d]).freeLoops.length))

/-- A launch claims loop slots of a die, each with an empty window (R13, 09 R134). -/
def State.claimLoops (s : State) (l : Launch) (d : Fin 8) : State :=
  let ks := (s.dies[d]).freeLoops.take l.pk.hatch
  if l.pk.hatch = 0 then s
  else
    (s.modDie d (fun k => { k with hatch := k.hatch.mapIdx (fun i h => if ks.any (fun j => j.val == i) then ⟨some l.id, 0, 0⟩ else h) })).modLaunch
      l.id (fun k => { k with hatch := k.hatch ++ [(d.val, ks.map (fun j => j.val))] })

/-- COSCHEDULED_PLACEMENT (R13, 26 R340): all threads in ordinal order, with Bureau contexts and loop slots. -/
def execCoscheduledPlacement (n : Nat) (s : State) : Out :=
  match s.launch n with
  | some l =>
    if !l.pk.cosched || !s.mayPlace l || !s.fitsAll l then .next s
    else
      let cs := s.assigned l
      let s1 := (diesOf cs).foldl (fun s d => s.claimLoops l d) s
      .next (cs.zipIdx.foldl (fun s p => s.placeThread l p.2 p.1) s1)
  | none => .next s

/-! ### Completion (02 R25; 07 R109; 09 R134, R137; 15 R253; 18 R304) -/

/-- A copy or collective of a launch is still in flight (log entry 58, DEDUCED). -/
def State.workInFlight (s : State) (n : Nat) : Bool :=
  s.copies.any (fun c => c.launch == some n && (match c.st with | .stopped _ _ => false | _ => true)) ||
    s.colls.any (fun c => c.launch == n)

/-- All threads and Bureau contexts have exited, or the launch was ended (02 R25) (log entry 12, DEDUCED). -/
def State.launchOver (s : State) (l : Launch) : Bool :=
  match l.stage with
  | .accepted => decide (l.exited = l.pk.t) && decide (l.next = l.pk.t) &&
      s.contexts.all (fun c => c.launch != l.id || c.kind == .thread || c.status == .ended || c.status == .exited)
  | .ended => true
  | .waiting | .admitted => false

/-- A context of a launch, by number. -/
def State.ofLaunch (s : State) (n u : Nat) : Bool := s.contexts.any (fun c => c.uid == u && c.launch == n)

/-- A cluster after a launch completes: its Bureau place, its monitors and the flags its contexts set last are free. -/
def State.freeCluster (s : State) (n : Nat) (c : Cluster) : Cluster :=
  let b := c.bureau.any (s.ofLaunch n)
  { c with
    bureau := if b then none else c.bureau
    mq := if b then [] else c.mq
    mons := c.mons.map (fun m => if m.owner = some n then Monitor.reset else m)
    hf := c.hf.map (fun h => if h.setter.any (s.ofLaunch n) then HFlag.empty else h) }

/-- The loop slots of a launch are free again. -/
def Die.freeHatch (n : Nat) (d : Die) : Die :=
  { d with hatch := d.hatch.map (fun h => if h.owner = some n then ⟨none, 0, 0⟩ else h) }

/-- What a launch holds beside its segments is released. -/
def State.releaseLaunch (s : State) (n : Nat) : State :=
  let s1 : State := { s with
    clusters := s.clusters.map (s.freeCluster n)
    dies := s.dies.map (Die.freeHatch n)
    copies := s.copies.filter (fun c => c.launch != some n)
    launches := s.launches.filter (fun l => l.id != n) }
  s1.mapContexts (fun c => if c.launch = n ∧ c.status = .ended then { c with status := .exited, saved := none } else c)

/-- The entry of a launch is done. -/
def State.markLaunch (s : State) (l : Launch) : State :=
  s.modQueue l.queue (fun k => { k with ents := k.ents.map (fun e => if e.kind = .launch l.id then { e with done := true } else e) })

/-- LAUNCH_COMPLETION (02 R25; 07 R109): every store of the launch is made visible at system scope first. -/
def execLaunchCompletion (n : Nat) (s : State) : Out :=
  match s.launch n with
  | some l =>
    if s.launchOver l && !s.workInFlight n then
      let mine := fun r : StoreRec => r.ctx.any (s.ofLaunch n)
      .next ((((s.loseUnreachable mine).drainAll mine).markLaunch l).releaseLaunch n)
    else .next s
  | none => .next s

/-- No context of a launch remains on a cluster, and no copy or collective of it is in flight on the die (18 R304)
(log entry 19, DEDUCED). -/
def State.mayRelease (s : State) (n : Nat) (cl : Fin 64) : Bool :=
  !s.contexts.any (fun c => c.launch == n && c.cl == cl && c.status != .exited) &&
    !s.copies.any (fun c => c.launch == some n && dieOfCl c.cl == dieOfCl cl && (match c.st with | .stopped _ _ => false | _ => true)) &&
    !s.colls.any (fun c => c.launch == n && c.die == dieOfCl cl)

/-- SEGMENT_RELEASE (18 R304): the segments are free; they are zeroed when they are granted again (06 R90). -/
def execSegmentRelease (n : Nat) (cl : Fin 64) (s : State) : Out :=
  .next (if s.mayRelease n cl then
      s.modCluster cl (fun c => { c with segs := c.segs.map (fun g => if g = some n then none else g) })
    else s)

end Sys2Proof.Machine
end

