-- ==== Sys2Proof/Machine/Images.lean ====
section
/-! DEFINITION. The save areas of a control thread and of a Bureau, as bytes at offsets (18 R300, R301; 08 R114, R117). -/

namespace Sys2Proof.Machine

/-- Bytes at an offset of an area. -/
abbrev Part := Nat × List Byte

/-- A value of `n` bytes at an offset. -/
def part (off n v : Nat) : Part := (off, toBytes n v)

/-- Values of `n` bytes one after another. -/
def parts (off n : Nat) (l : List Nat) : List Part := l.zipIdx.map (fun p => part (off + n * p.2) n p.1)

/-- A Graver table as its image (08 R117). -/
def GTable.image (t : GTable) : List Byte :=
  let mode := t.w + 4 * t.binary.toNat + 8 * t.msd.toNat + 16 * t.chain.toNat
  toBytes 8 (mode + 2 ^ 8 * t.start + 2 ^ 16 * t.ns + 2 ^ 24 * t.ndig) ++
    (List.range 64).flatMap (fun i => toBytes 2 (t.final.getD i 0).toNat) ++ t.entry.flatMap (fun e => toBytes 2 e.toNat)

/-- Bytes padded with zeros to a length. -/
def padTo (n : Nat) (l : List Byte) : List Byte := l ++ List.replicate (n - l.length) 0

/-- A Plate as its image (08 R114), 4,416 bytes. -/
def Plate.image (p : Plate) : List Byte :=
  padTo 4416 (padTo 16 [BitVec.ofNat 8 p.d, p.kind] ++ padTo 16 p.inv0 ++ padTo 32 p.inv1 ++
    padTo 256 (p.pool.flatMap (fun w => toBytes 4 w.toNat)) ++ p.cube)

/-- The image of a Plate that may be absent. -/
def plateImage (p : Option Plate) : List Byte := match p with | some q => q.image | none => List.replicate 4416 0

/-- LDREG as saved at the trap. -/
def Context.ldregTrap (c : Context) : Nat :=
  c.trap.ldx.val + (match c.kind with | .thread => c.trap.ldv.val * 256 | .bureau => 0)

/-- x1 to x31 as an area holds them. -/
def Context.xParts (c : Context) : List Part := parts 0x10 8 ((c.x.toList.drop 1).map (fun w => w.toNat))

/-- The VP program counters: all ones for a stopped VP or one that takes no part. -/
def Context.vpParts (c : Context) (off : Nat) : List Part :=
  match c.vec.blk with
  | none => []
  | some b => parts off 8 ((List.range c.vec.vl.toNat).map (fun i =>
      match b.pcs.getD i none with | some w => w.toNat | none => 2 ^ 64 - 1))

/-- The save area of a control thread with g lane groups in effect (R300) (log entry 42, DEDUCED). -/
def Context.threadArea (c : Context) (g : Nat) : List Part :=
  let v := 0x8600
  let busy := c.vec.blk.isSome
  [part 0 8 (1 + 2 ^ 8 * g + 2 ^ 16 * c.trap.handling.toNat + 2 ^ 17 * busy.toNat), part 8 8 c.pc.toNat] ++ c.xParts ++
    parts 0x108 4 [c.vec.vtype.toNat, c.vec.vl.toNat, c.vec.vbeg.toNat, (ldregWord c).toNat, c.ldregTrap, c.flags.ff.toNat] ++
    parts 0x120 4 (c.flags.fx.toList.map (fun w => w.toNat)) ++
    parts 0x138 8 [c.tags.ctags.toNat, c.vec.rng.toNat, c.trap.tvec.toNat, c.trap.epc.toNat] ++
    parts 0x158 4 [c.trap.causeWord.toNat, c.trap.gfault.toNat] ++ parts 0x160 8 [c.trap.tval.toNat, c.trap.scratch.toNat] ++
    parts 0x170 4 [c.sys.akrec.toNat, c.sys.mmrs.toNat, c.sys.sbchk.toNat, 0] ++
    parts 0x180 1 (c.vec.gt.toList.map (fun t => t.isSome.toNat)) ++
    c.vec.gt.toList.zipIdx.map (fun p => (0x200 + 0x2100 * p.2,
      padTo 8328 (match p.1 with | some t => t.image | none => []))) ++
    parts v (256 * g) (c.vec.v.toList.map (fun r => r.toNat)) ++
    parts (v + 8192 * g) (128 * g) (c.vec.sh.toList.map (fun r => r.toNat)) ++
    parts (v + 12288 * g) (512 * g) ((c.vec.m.toList.drop 1).map (fun r => r.toNat)) ++
    [part (v + 15872 * g) (256 * g) c.vec.gsv.toNat] ++ c.vpParts (v + 16128 * g)

/-- A Plate slot carries valid bits 2s and 2s + 1 (R301). -/
def platesValid (p : Vector PlateSlot 4) : Nat :=
  (p.toList.zipIdx.map (fun q => 4 ^ q.2 * (q.1.committed.isSome.toNat + 2 * q.1.shadow.isSome.toNat))).foldl (· + ·) 0

/-- A saved entry carries its own Plate image when its slot's committed image is another (R302). -/
def MatEntry.ownPlate (e : MatEntry) (plates : Vector PlateSlot 4) : Option Plate :=
  let slot := match e.op with
    | .gr _ c | .rg _ c | .mmag c => some c.slot
    | .gath _ | .mzero _ => none
  match slot with
  | none => none
  | some k => if e.plate = (plates[k]).committed then none else e.plate

/-- A latch as an area holds it. -/
def Latch.parts (l : Latch) (off : Nat) : List Part :=
  [part off 8192 l.rows.toNat, part (off + 0x2000) 4096 l.desc.toNat, part (off + 0x3000) 1 l.m.toNat,
    part (off + 0x3001) 1 l.gf.toNat, part (off + 0x3002) 1 l.nb.toNat]

/-- The Chest as an area holds it: pair (j, 8b + c) of tile t. -/
def chestParts (ch : List (Nat × BitVec 64)) : List Part :=
  (List.range 8).flatMap fun t => (List.range 32).flatMap fun b => (List.range 128).map fun j =>
    (0x10000 + 0x40000 * t + 0x2000 * b + 64 * j,
      (List.range 8).flatMap (fun c => toBytes 8 (Sparse.get 0 ch (32768 * t + 256 * j + 8 * b + c)).toNat))

/-- The save area of a Bureau context (R301) (log entry 42, DEDUCED). -/
def Context.bureauArea (c : Context) (v : BureauSave) : List Part :=
  [part 0 8 (2 + 2 ^ 8 * c.trap.handling.toNat + 2 ^ 9 * v.ended.toNat + 2 ^ 16 * v.mq.length), part 8 8 c.pc.toNat] ++ c.xParts ++
    parts 0x108 4 [(ldregWord c).toNat, c.ldregTrap, c.flags.ff.toNat, c.sys.mmrs.toNat, c.sys.sbchk.toNat, c.sys.akrec.toNat] ++
    parts 0x120 8 [c.trap.tvec.toNat, c.trap.epc.toNat] ++ parts 0x130 4 [c.trap.causeWord.toNat, 0] ++
    parts 0x138 8 [c.trap.tval.toNat, c.trap.scratch.toNat] ++ parts 0x148 4 [v.mgdone.toNat, platesValid v.plates] ++
    v.mq.zipIdx.flatMap (fun p =>
      parts (0x180 + 32 * p.2) 4 [p.1.word.toNat, (p.1.ownPlate v.plates).isSome.toNat] ++
        parts (0x188 + 32 * p.2) 8 [p.1.a.toNat, p.1.b.toNat, 0]) ++
    v.plates.toList.zipIdx.flatMap (fun p =>
      [(0x400 + 0x2400 * p.2, plateImage p.1.committed), (0x1600 + 0x2400 * p.2, plateImage p.1.shadow)]) ++
    v.latches.toList.zipIdx.flatMap (fun p => p.1.parts (0x9400 + 0x3100 * p.2)) ++ chestParts v.chest ++
    v.mq.zipIdx.filterMap (fun p => (p.1.ownPlate v.plates).map (fun q => (0x210000 + 0x1200 * p.2, q.image)))

/-- The key index of firmware's area for a function: that of its first loaded slot (log entry 42, DEDUCED). -/
def State.areaKey (s : State) (fn : Fin 256) : Nat :=
  match s.keys.find? (fun k => k.2 == fn.val) with | some k => k.1 | none => 0

/-- Firmware writes an area (log entry 42, DEDUCED). -/
def State.writeArea (s : State) (fn : Fin 256) (area : Nat) (l : List Part) : State :=
  l.foldl (fun s p => s.pokeKey (s.areaKey fn) (area + p.1) p.2) s

end Sys2Proof.Machine
end

