-- ==== Sys2Proof/Machine/Switch.lean ====
section
/-! DEFINITION. Page answers (18 R297), pre-emption, context switches and resumption (07 R111; 02 R24, R30, R32; 18 R302, R303),
and the turn of a period (09 R129). A step whose condition does not hold changes nothing. -/

namespace Sys2Proof.Machine

/-! ### Page answers (18 R297; 15 R256, R260) -/

/-- A page request by number. -/
def State.pageReq (s : State) (n : Nat) : Option PageReq := s.pageReqs.find? (fun r => r.id == n)

/-- A page request is answered (log entry 58, DEDUCED; log entry 60, DEDUCED). -/
def State.answered (s : State) (n : Nat) : State := { s with pageReqs := s.pageReqs.filter (fun r => r.id != n) }

/-- A context that waited for a page goes on: in its slot, or queued for resumption. -/
def Context.pageHere (c : Context) : Context :=
  { c with status := match c.status with
    | .waitingPage => .running
    | .outForPage => .out
    | k => k }

/-- A copy or collective that waited for this request goes on. -/
def WorkState.pageHere (n : Nat) (w : WorkState) : WorkState :=
  match w with
  | .waitingPage r => if r = n then .running else w
  | .running | .stopped _ _ => w

/-- PAGE_PRESENT (18 R297): the thread is queued to resume at the faulting instruction, or the copy or collective goes on. -/
def execPagePresent (n : Nat) (s : State) : Out :=
  match s.pageReq n with
  | none => .next s
  | some r =>
    let s1 := s.answered n
    match r.ctx, r.work with
    | some u, _ => .next (s1.modContext u Context.pageHere)
    | none, some w => .next ((s1.modCopy w (fun c => { c with st := c.st.pageHere n })).modColl w (fun c =>
        { c with st := c.st.pageHere n }))
    | none, none => .next s1

/-- PAGE is delivered to a context that waited for the page, resident or out: CAUSE.BLK is set inside a VFETCH block
(log entry 60, DEDUCED). -/
def State.pageTrap (s : State) (u : Nat) (tval : Word) : State :=
  let old := s.me.uid
  let s1 := (s.focus u).modMe (fun c => { c.pageHere with
    vec := { c.vec with blk := c.vec.blk.map (fun b => if b.held then b else { b with grp := some 0 }) } })
  (s1.deliverAt .page s1.me.pc tval).focus old

/-- PAGE_FAIL (18 R297; 15 R256, R260): PAGE goes to TVEC, the copy stops, or the collective ends with FAULT. -/
def execPageFail (n : Nat) (s : State) : Out :=
  match s.pageReq n with
  | none => .next s
  | some r =>
    let s1 := s.answered n
    match r.ctx, r.work with
    | some u, _ =>
      match s1.context u with
      | some c => .next (if c.status = .waitingPage ∨ c.status = .outForPage then s1.pageTrap u r.tval else s1)
      | none => .next s1
    | none, some w =>
      match s1.copy w, s1.coll w with
      | some c, _ => .next (s1.stopCopy c .page r.va)
      | none, some c => .next (if c.wrote then s1.statusFault c .page r.va
          else s1.modColl w (fun d => { d with
            st := .running
            ending := some ⟨4, noRank, (d.ending.map (fun e => e.bytes)).getD [], true⟩
            wrote := d.ending.isSome }))
      | none, none => .next s1
    | none, none => .next s1

/-! ### Switching out (18 R302, R303) -/

/-- A context can leave now: a thread that holds no published group, a Bureau whose started entries are complete; neither
waits for a page in its place (02 R24; 18 R297, R302) (log entry 41, DEDUCED). -/
def State.maySwap (s : State) (c : Context) : Bool :=
  match c.kind with
  | .thread => c.status == .running && (s.published c).isEmpty
  | .bureau => (c.status == .running || c.status == .ended) && (s.clusters[c.cl]).bureau == some c.uid &&
      (s.clusters[c.cl]).mq.all (fun e => e.run.isNone)

/-- What a Bureau's cluster holds for it. -/
def Cluster.saveBureau (k : Cluster) (area : Nat) (ended : Bool) : BureauSave :=
  ⟨area, ended, k.chest, k.latches, k.latchPoison, k.chestPoison, k.plates, k.mq, k.mgdone⟩

/-- A cluster after its Bureau has left. -/
def Cluster.noBureau (k : Cluster) : Cluster :=
  { k with bureau := none, chest := [], latches := Vector.replicate 2 Latch.reset, latchPoison := [], chestPoison := [],
           plates := Vector.replicate 4 ⟨none, none⟩, mq := [], mgdone := 0 }

/-- A Bureau context is saved, with the losses that it waited for, and leaves its cluster (R302). -/
def State.saveBureau (s : State) (c : Context) (area : Nat) : State :=
  let mine := fun r : StoreRec => r.ctx == some c.uid
  let s1 := (s.loseUnreachable mine).drainAll mine
  let v := (s.clusters[c.cl]).saveBureau area (c.status == .ended)
  ((s1.writeArea c.fn area (((s1.context c.uid).getD c).bureauArea v)).modCluster c.cl Cluster.noBureau).modContext c.uid (fun d =>
    { d with status := .out, fetched := [], clock := Clock.start, saved := some v })

/-- The area of a thread that has left its slot is written (R300). -/
def State.writeThread (s : State) (c : Context) (area : Nat) : State :=
  s.writeArea c.fn area (((s.context c.uid).getD c).threadArea (groupCount c.groups))

/-- A thread leaves its slot and is saved, with the losses that it waited for (R303). -/
def State.saveThread (s : State) (c : Context) (area : Nat) : State := (s.swapOut c .out).writeThread c area

/-- A firmware control thread can run on the cluster: a free slot and at least 4 unowned lane groups (R302)
(log entry 42, DEDUCED). -/
def Cluster.firmwareFits (k : Cluster) : Bool := !k.freeSlots.isEmpty && decide (4 ≤ k.unowned.length)

/-- How far apart the areas of contexts that leave together lie: 4 MiB (R301) (log entry 42, DEDUCED). -/
def areaStride : Nat := 0x400000

/-- A context is switched out into an area; the Chest of a Bureau is saved by a firmware control thread of its cluster
(log entry 42, DEDUCED). -/
def State.saveContext (s : State) (c : Context) (area : Nat) : Option State :=
  match c.kind with
  | .thread => some (s.saveThread c area)
  | .bureau => if (s.clusters[c.cl]).firmwareFits then some (s.saveBureau c area) else none

/-- Contexts leave one after another into areas side by side, or none does. -/
def State.saveContexts (s : State) : List Context → Nat → Option State
  | [], _ => some s
  | c :: r, area => (s.saveContext c area).bind (fun s1 => s1.saveContexts r (area + areaStride))

/-- A context holds its place on a cluster. -/
def Context.inPlace (c : Context) : Bool := c.status == .running || c.status == .waitingPage || c.status == .ended

/-- A launch that waits for placement lacks segments that another, of lower priority, holds on a cluster. -/
def State.wantsSegs (s : State) (l : Launch) (cl : Fin 64) : Bool :=
  s.launches.any (fun k => k.unplaced && decide (s.prioOf l < s.prioOf k) && (s.maskClusters k.fn k.pk.mask).contains cl &&
    !(s.clusters[cl]).holdsSegs k.id && decide ((s.clusters[cl]).freeSegs.length < k.pk.segs))

/-- The segments of a launch on a cluster are copied to its segment area and freed (R303). -/
def State.spill (s : State) (l : Launch) (cl : Fin 64) : State :=
  let ks := ((List.finRange 256).filter (fun k => ((s.clusters[cl]).segs[k]) == some l.id)).map (fun k => k.val)
  let s1 := s.drainAll (fun r => r.bytes.any (fun c => inSegs cl ks c.1))
  let v : Spill := ⟨cl, ks, s1.mem.filter (fun c => inSegs cl ks c.1), s1.poison.filter (fun g => inSegs cl ks (64 * g))⟩
  ((s1.zeroSegs cl ks).modCluster cl (fun c => { c with segs := c.segs.map (fun g => if g = some l.id then none else g) })).modLaunch
    l.id (fun k => { k with spilled := k.spilled ++ [v] })

/-- Once a pre-empted launch has wholly left and no copy of it is in flight, segments that R111 needs are copied out. -/
def State.spillAll (s : State) (n : Nat) : State :=
  match s.launch n with
  | none => s
  | some l =>
    if s.contexts.any (fun c => c.launch == n && c.inPlace) || s.workInFlight n then s
    else ((List.finRange 64).filter (fun c => (s.clusters[c]).holdsSegs n && s.wantsSegs l c)).foldl (fun s c => s.spill l c) s

/-- The loop slots of a launch that has wholly left are free for others; it keeps their frontiers and windows (07 R111)
(log entry 41, DEDUCED). -/
def State.saveLoops (s : State) (n : Nat) : State :=
  match s.launch n with
  | none => s
  | some l =>
    let v := l.hatch.map (fun p => (p.1, p.2.map (fun i => (((s.dies[dieOf p.1]).hatch)[i % 16]'(Nat.mod_lt _ (by decide))).state)))
    ({ s with dies := s.dies.map (Die.freeHatch n) } : State).modLaunch n (fun k => { k with hatch := [], loops := v })

/-- Every context of a co-scheduled launch leaves together, the threads first (02 R30). -/
def State.saveTogether (s : State) (n area : Nat) : State :=
  let l := s.contexts.filter (fun c => c.launch == n && c.inPlace)
  let ts := l.filter (fun c => c.kind == .thread) ++ l.filter (fun c => c.kind == .bureau)
  if l.all s.maySwap then
    match s.saveContexts ts area with
    | some s1 => (s1.saveLoops n).spillAll n
    | none => s
  else s

/-- CONTEXT_SWAP_OUT (18 R297, R303; 02 R24, R30): a context of a pre-empted launch leaves, a co-scheduled launch as a whole; a
thread that is out already is saved; the segments of a launch wholly out are copied out once they are needed. -/
def execContextSwapOut (n : Nat) (area : BitVec 52) (s : State) : Out :=
  match s.context n with
  | none => .next s
  | some c =>
    match c.status with
    | .out | .outForPage =>
      .next ((if c.kind = .thread then s.writeThread c area.toNat else s).spillAll c.launch)
    | .running | .waitingPage | .ended =>
      match s.launch c.launch with
      | none => .next s
      | some l =>
        if !l.preempted then .next s
        else if l.pk.cosched then .next (s.saveTogether l.id area.toNat)
        else if c.kind = .thread ∧ s.maySwap c then .next ((s.saveThread c area.toNat).spillAll l.id)
        else .next s
    | .exited => .next s

/-! ### Resuming (02 R32; 05 R83; 18 R303) -/

/-- The segments that were copied out of a cluster return, when the same numbers are free. -/
def State.refill (s : State) (l : Launch) (cl : Fin 64) : Option State :=
  match l.spilled.find? (fun v => v.cl == cl) with
  | none => some s
  | some v =>
    if v.segs.all (fun k => ((s.clusters[cl]).segs[k]?).any (fun g => g.isNone)) then
      some (({ s.zeroSegs cl v.segs with
        mem := Memory.setAll (s.zeroSegs cl v.segs).mem v.cells
        poison := (s.zeroSegs cl v.segs).poison ++ v.poison }.modCluster cl (fun c => c.giveSegs l.id v.segs)).modLaunch l.id
          (fun k => { k with spilled := k.spilled.filter (fun w => w.cl != cl) }))
    else none

/-- A thread resumes in a free slot with as many groups as it had, the lowest unowned ones. -/
def State.resumeThread (s : State) (c : Context) (slot : Fin 4) : Option State :=
  let k := s.clusters[c.cl]
  let g := groupCount c.groups
  if (k.slots[slot]).isNone && decide (g ≤ k.unowned.length) then
    let ks := k.unowned.take g
    some ((s.modCluster c.cl (fun k =>
      { k.giveGroups slot ks with slots := k.slots.set slot.val (some c.uid) slot.isLt })).modContext c.uid (fun d =>
        { d with slot := slot, groups := groupSet ks, status := .running }))
  else none

/-- A Bureau resumes with its Chest, which a firmware control thread of the cluster restores, its latches, Plates and queue,
and commits nothing anew (R302) (log entry 42, DEDUCED). -/
def State.resumeBureau (s : State) (c : Context) : Option State :=
  match c.saved with
  | none => none
  | some v =>
    if (s.clusters[c.cl]).bureau.isNone && (s.clusters[c.cl]).firmwareFits then
      some ((s.modCluster c.cl (fun k =>
        { k with bureau := some c.uid, chest := v.chest, latches := v.latches, latchPoison := v.poison, chestPoison := v.chestPoison, plates := v.plates,
                 mq := v.mq, mgdone := v.mgdone })).modContext c.uid (fun d =>
          { d with status := if v.ended then .ended else .running, saved := none }))
    else none

/-- A context resumes, a thread in the slot given or else the lowest free one. -/
def State.resumeOne (s : State) (l : Launch) (c : Context) (slot : Option (Fin 4)) : Option State :=
  match s.refill ((s.launch l.id).getD l) c.cl with
  | none => none
  | some s1 =>
    match c.kind with
    | .bureau => s1.resumeBureau c
    | .thread =>
      match slot.or (s1.clusters[c.cl]).freeSlots.head? with
      | some k => s1.resumeThread c k
      | none => none

/-- The contexts of a launch that are out resume together, or none does (02 R30). -/
def State.resumeAll (s : State) (l : Launch) (n : Nat) (slot : Fin 4) : List Context → Option State
  | [] => some s
  | c :: r => (s.resumeOne l c (if c.uid = n then some slot else none)).bind (fun s1 => s1.resumeAll l n slot r)

/-- Loop slots of a die are claimed again with the frontiers and windows they had (log entry 41, DEDUCED). -/
def State.takeLoops (s : State) (n : Nat) (v : Nat × List (Word × Word)) : Option State :=
  let free := (s.dies[dieOf v.1]).freeLoops
  if v.2.length ≤ free.length then
    let ks := (free.take v.2.length).zip v.2
    some ((s.modDie (dieOf v.1) (fun d => { d with hatch := ks.foldl (fun h p => h.set p.1.val ⟨some n, p.2.1, p.2.2⟩ p.1.isLt) d.hatch })).modLaunch
      n (fun k => { k with hatch := k.hatch ++ [(v.1, ks.map (fun p => p.1.val))], loops := k.loops.filter (fun w => w.1 != v.1) }))
  else none

/-- Every loop slot of a launch is claimed again, or none. -/
def State.takeAllLoops (s : State) (n : Nat) : List (Nat × List (Word × Word)) → Option State
  | [] => some s
  | v :: r => (s.takeLoops n v).bind (fun s1 => s1.takeAllLoops n r)

/-- The contexts of a launch that are out, Bureaus first, then threads. -/
def State.outOf (s : State) (n : Nat) : List Context :=
  let l := s.contexts.filter (fun c => c.launch == n && c.status == .out)
  l.filter (fun c => c.kind == .bureau) ++ l.filter (fun c => c.kind == .thread)

/-- A launch may resume contexts on a die. -/
def State.mayResume (s : State) (l : Launch) (c : Context) : Bool :=
  l.stage == .accepted && !l.preempted && decide ((s.dies[c.die]).status = .present)

/-- CONTEXT_RESUME (02 R30, R32): a thread that is out takes a free slot of its cluster; the contexts of a co-scheduled launch
that has wholly left, whose threads may all have exited, resume together. -/
def execContextResume (n : Nat) (slot : Fin 4) (s : State) : Out :=
  match s.context n with
  | none => .next s
  | some c =>
    match s.launch c.launch with
    | none => .next s
    | some l =>
      if c.status ≠ .out ∨ !s.mayResume l c then .next s
      else if l.pk.cosched && !s.contexts.any (fun d => d.launch == l.id && d.inPlace) then
        .next (((s.takeAllLoops l.id l.loops).bind (fun s1 => s1.resumeAll l n slot (s.outOf l.id))).getD s)
      else .next (if c.kind = .thread then (s.resumeOne l c (some slot)).getD s else s)

/-- BUREAU_CONTEXT_SWITCH (R302): the Bureau of a pre-empted launch leaves, or one that is out returns from its area. -/
def execBureauContextSwitch (n : Nat) (out : Bool) (area : BitVec 52) (s : State) : Out :=
  match s.context n with
  | none => .next s
  | some c =>
    match s.launch c.launch with
    | none => .next s
    | some l =>
      if c.kind = .thread ∨ l.pk.cosched then .next s
      else if out then
        .next (if l.preempted && s.maySwap c then ((s.saveContext c area.toNat).map (fun s1 => s1.spillAll l.id)).getD s else s)
      else if s.mayResume l c && c.status == .out && c.saved.any (fun v => v.area == area.toNat) then
        .next ((s.resumeOne l c none).getD s)
      else .next s

/-! ### Which launches are pre-empted (07 R111) -/

/-- A launch could place its next thread, or all of its threads (log entry 41, DEDUCED). -/
def State.couldPlace (s : State) (l : Launch) : Bool :=
  if l.pk.cosched then s.fitsAll l else (s.tryOrder l).any (fun c => s.fits l c 1)

/-- The clusters and loop slots as if a launch had left them. -/
def State.without (s : State) (n : Nat) : State :=
  { s with
    clusters := s.clusters.map (fun c =>
      let gone := (List.finRange 4).filter (fun k => (c.slots[k]).any (s.ofLaunch n))
      { c with
        slots := c.slots.map (fun u => if u.any (s.ofLaunch n) then none else u)
        lpart := c.lpart.map (fun g => if g.owned && gone.contains g.owner then LaneGroup.free else g)
        bureau := if c.bureau.any (s.ofLaunch n) then none else c.bureau
        segs := c.segs.map (fun g => if g = some n then none else g) })
    dies := s.dies.map (Die.freeHatch n) }

/-- The launches that a waiting one may pre-empt: resident, of strictly lower priority, the lowest first
(log entry 41, DEDUCED). -/
def State.victims (s : State) (l : Launch) : List Launch :=
  let v := s.launches.filter (fun k => !k.preempted && decide (s.prioOf k < s.prioOf l) && s.contexts.any (fun c => c.launch == k.id && c.inPlace))
  (List.range 4).flatMap (fun p => v.filter (fun k => s.prioOf k == p))

/-- Take victims one by one until the launch fits (log entry 41, DEDUCED). -/
def State.takeVictims (s : State) (l : Launch) : List Launch → List Nat
  | [] => []
  | v :: r => if s.couldPlace l then [] else v.id :: (s.without v.id).takeVictims l r

/-- The pre-emptions that one waiting launch asks for. -/
def State.preemptFor (s : State) (l : Launch) : State :=
  let ids := s.takeVictims l (s.victims l)
  { s with launches := s.launches.map (fun k => if ids.contains k.id then { k with preempted := true } else k) }

/-- At a period boundary every launch that waits and does not fit pre-empts (R111), the highest priority first, and segments
of launches wholly out that are needed are copied out (18 R303) (log entry 41, DEDUCED). -/
def State.preemptions (s : State) : State :=
  let s1 : State := { s with launches := s.launches.map (fun k => { k with preempted := false }) }
  let w := s1.launches.filter (fun l => l.unplaced && s1.firstInLine l)
  let s2 := ([3, 2, 1, 0].flatMap (fun p => w.filter (fun l => s1.prioOf l == p))).foldl (fun s l => s.preemptFor l) s1
  s2.launches.foldl (fun s l => s.spillAll l.id) s2

/-! ### The turn of a period (09 R127, R129) -/

/-- A budget at the turn: each used count keeps what is above its limit. -/
def Budget.turn (b : Budget) : Budget :=
  { b with used := Vector.ofFn (fun i => if b.used[i].ult b.lim[i] then 0 else b.used[i] - b.lim[i]) }

/-- The die's period ends when the first of the package does. -/
def State.turns (s : State) (d : Die) : Bool := decide (d.status = .present) && d.toGo == s.cyclesToTurn

/-- PERIOD_TURN (09 R127, R129; 07 R111): time passes until a die, of those present the first, reaches its next period; its engine
classes turn, and those of every die that does so in that cycle. With D0's turn those of launches and tenants turn too, and launches
that wait pre-empt (log entry 41, DEDUCED). -/
def execPeriodTurn (die : Fin 8) (s : State) : Out :=
  if !s.turns s.dies[die] then .next s
  else
    let s1 := ({ s with dies := s.dies.map (fun d => if s.turns d then { d with engines := d.engines.map Budget.turn } else d) } : State).advanceTime
      s.cyclesToTurn
    if s.turns s.dies[(0 : Fin 8)] then
      .next ({ s1 with
        launches := s1.launches.map (fun l => { l with budget := l.budget.turn })
        fns := s1.fns.map (fun p => (p.1, { p.2 with tenant := p.2.tenant.turn })) } : State).preemptions
    else .next s1

end Sys2Proof.Machine
end

