-- ==== Sys2Proof/Machine/Firmware.lean ====
section
/-! DEFINITION. The arbiter and energy (07 R101; 09 R128, R130), the host's registers (07 R104, R105, R110; 08 R122; 19 R308), TLB
slices and shoot-down (08 R123), keys (08 R124), boot, updates, resets and power (19 R309 to R314; 11 R166), host memory (06 R87).
A step whose condition does not hold changes nothing. -/

namespace Sys2Proof.Machine

/-! ### Charges and the arbiter (09 R128, R130; 07 R101) -/

/-- A used count goes up and saturates (log entry 9, DEDUCED; log entry 50, DEDUCED). -/
def Budget.charge (b : Budget) (i : Fin 4) (n : Nat) : Budget :=
  { b with used := b.used.set i.val (BitVec.ofNat 32 (min 0xFFFFFFFF (b.used[i].toNat + n))) i.isLt }

/-- Change the budgets of the activities of an event: a copy entry's copy has no launch context (log entry 9, DEDUCED). -/
def State.activities (s : State) (launch : Option Nat) (fn : Fin 256) (die : Fin 8) (k : EngineClass) (f : Budget → Budget) : State :=
  let s1 := match launch with
    | some n => s.modLaunch n (fun l => { l with budget := f l.budget })
    | none => s
  (s1.modFn fn (fun r => { r with tenant := f r.tenant })).modDie die
    (fun d => { d with engines := d.engines.set (engineIdx k).val (f d.engines[engineIdx k]) (engineIdx k).isLt })

/-- Who pays for an event that names a launch or a copy by number: its launch context, if any, and its function. -/
def State.payer (s : State) (n : Nat) : Option (Option Nat × Fin 256) :=
  match s.launch n with
  | some l => some (some n, l.fn)
  | none => (s.copy n).map (fun c => (c.launch, c.fn))

/-- The number of a shared resource (log entry 50, DEDUCED). -/
def resIdx : SharedRes → Fin 5
  | .loadStore => 0 | .crossbar => 1 | .special => 2 | .drain => 3 | .graver => 4

/-- The head of a thread's vector issue queue requests a resource (R99). -/
def Context.asks (c : Context) (res : SharedRes) : Bool := c.vq.head?.any (fun e => e.res == some res && e.left != 0)

/-- The threads of a cluster that request a resource and are not held by a budget, by slot (log entry 50, DEDUCED). -/
def State.requesters (s : State) (cl : Fin 64) (pick : Context → Bool) : List Context :=
  (List.finRange 4).filterMap (fun k =>
    (((s.clusters[cl]).slots[k]).bind s.context).bind (fun c =>
      if c.status == .running && !s.held c && pick c then some c else none))

/-- The credits of a requester after a clock in which `w` won (log entry 50, DEDUCED). -/
def Context.payCredit (c : Context) (r : Fin 5) (total : BitVec 16) (w : Nat) : Context :=
  let v := c.credits[r] + c.sys.share.setWidth 16 - (if c.slot.val = w then total else 0)
  { c with credits := c.credits.set r.val v r.isLt }

/-- The thread that wins a resource among those that request it: the highest credit after growth, the lowest slot on a tie. -/
def grantWinner (res : SharedRes) (ps : List Context) : Option Context :=
  (roundWinner (ps.map (fun c => (c.slot.val, (c.credits[resIdx res] + c.sys.share.setWidth 16).toInt)))).bind (fun w =>
    ps.find? (fun c => c.slot.val == w))

/-- One clock of arbitration: the requesters' credits grow, the winner pays, and the grant is charged to its slots budgets. -/
def State.grantRound (s : State) (res : SharedRes) (ps : List Context) : State :=
  match grantWinner res ps with
  | none => s
  | some w =>
    let total := ps.foldl (fun t c => t + c.sys.share.setWidth 16) (0 : BitVec 16)
    let s1 := s.mapContexts (fun c => if ps.any (fun p => p.uid == c.uid) then c.payCredit (resIdx res) total w.slot.val else c)
    s1.activities (some w.launch) w.fn w.die .thread (fun b => b.charge 0 1)

/-- Heads that need no further grant issue and leave the queue. -/
def Context.issueHeads (c : Context) : Context := { c with vq := c.vq.dropWhile (fun e => e.left == 0) }

/-- The head of the queue gets a grant; it issues when it needs no other. -/
def Context.takeGrant (c : Context) : Context :=
  match c.vq with
  | [] => c
  | e :: l => { c with vq := if e.left ≤ 1 then l else { e with left := e.left - 1 } :: l }

/-- The head of the winner's queue gets the grant. -/
def State.headGranted (s : State) (res : SharedRes) (ps : List Context) : State :=
  match grantWinner res ps with
  | none => s
  | some w => s.modContext w.uid Context.takeGrant

/-- VECTOR_QUEUE_ISSUE (07 R99, R101): in one clock the heads of the queues of the threads in `req` issue if they need no grant, and
otherwise request the resource if it is theirs; the winner's head gets the grant. -/
def execVectorQueueIssue (cl : Fin 64) (res : SharedRes) (req : BitVec 4) (s : State) : Out :=
  let s1 := s.mapContexts (fun c => if c.cl = cl ∧ c.status = .running ∧ req.getLsbD c.slot.val then c.issueHeads else c)
  let ps := s1.requesters cl (fun c => req.getLsbD c.slot.val && c.asks res)
  .next ((s1.grantRound res ps).headGranted res ps)

/-- Units of the energy accumulator in 1 µJ: 10^6 pJ in units of 2^-8 pJ. -/
def microjoule : Nat := 10 ^ 6 * 2 ^ 8

/-- How many microjoules an accumulator passes. -/
def Budget.passed (b : Budget) (amount : Word) : Nat := (b.acc.toNat + amount.toNat) / microjoule - b.acc.toNat / microjoule

/-- Weighted energy joins an accumulator; every multiple of 10^6 pJ that it passes charges 1 µJ. -/
def Budget.addEnergy (b : Budget) (amount : Word) : Budget := { b.charge 3 (b.passed amount) with acc := b.acc + amount }

/-- The weight of an event, which firmware has calibrated (09 R130). -/
def Firmware.weight (f : Firmware) (ev : EnergyEvent) : BitVec 24 := ((f.weights.find? (fun p => p.1 == ev)).map (fun p => p.2)).getD 0

/-- ENERGY_CHARGE (09 R128, R130): the events of a kind add their weights to the accumulators of their activities. -/
def execEnergyCharge (n : Nat) (die : Fin 8) (cls : EngineClass) (e : EnergyCount) (s : State) : Out :=
  match s.payer n with
  | none => .next s
  | some (launch, fn) =>
    let amount := BitVec.ofNat 64 ((s.fw.weight e.event).toNat * e.count)
    let s1 := s.activities launch fn die cls (fun b => b.addEnergy amount)
    match launch with
    | none => .next s1
    | some m => .next (s1.modLaunch m (fun k => { k with charged := k.charged + ((s.launch m).map (fun l => l.budget.passed amount)).getD 0 }))

/-- Accesses of a memory controller, or flits of a link, are charged to their three activities at a die (09 R128): how many an
access takes depends on caches and routing, so a turn of the schedule brings the number (log entry 9, DEDUCED). -/
def State.chargeTraffic (s : State) (n : Nat) (die : Fin 8) (cls : EngineClass) (flits : Bool) (units : Nat) : State :=
  match s.payer n with
  | none => s
  | some (launch, fn) => s.activities launch fn die cls (fun b => b.charge (if flits then 2 else 1) units)

/-! ### Host registers (07 R104, R105, R110; 08 R122; 19 R308) -/

/-- The host endpoint answers a function: D0 is not in reset (19 R312), and no reset of the function is under way (19 R313 step 1). -/
def State.hostUp (s : State) (fn : Fin 256) : Bool := decide ((s.dies[(0 : Fin 8)]).status = .present) && !(s.fnRec fn).flrDone

/-- Half of a 64-bit register is written (log entry 49, DEDUCED). -/
def putHalf (w : Word) (high : Bool) (v : BitVec 32) : Word :=
  if high then v ++ w.setWidth 32 else (w >>> 32).setWidth 32 ++ v

/-- A thread of an address space is resident. -/
def State.spaceBusy (s : State) (fn sp : Fin 256) : Bool :=
  s.contexts.any (fun c => c.fn == fn && c.sp == sp && c.kind == .thread && c.resident)

/-- Change the record of an address space. -/
def State.modSpace (s : State) (fn sp : Fin 256) (f : AsRec → AsRec) : State :=
  s.modFn fn (fun r => { r with sps := Assoc.set r.sps sp.val (f (Assoc.get AsRec.reset r.sps sp.val)) })

/-- A queue's own register at an offset that is a multiple of 4: QBASE, QHEAD and QCOMPL, while EN = 0
(log entry 49, DEDUCED). -/
def Queue.writeReg (k : Queue) (off : Nat) (v : BitVec 32) : Queue :=
  if k.en then k
  else match off with
    | 0x00 => { k with qbase := putHalf k.qbase false v }
    | 0x04 => { k with qbase := putHalf k.qbase true v }
    | 0x0C => { k with qhead := v }
    | 0x10 => { k with qcompl := putHalf k.qcompl false v }
    | 0x14 => { k with qcompl := putHalf k.qcompl true v }
    | _ => k

/-- A limit of the budget block; the launch limits hold for every launch context of the function (09 R128)
(log entry 49, DEDUCED). -/
def State.writeLimit (s : State) (fn : Fin 256) (i : Nat) (v : BitVec 32) : State :=
  if i < 4 then
    let s1 := s.modFn fn (fun f => { f with llim := f.llim.setIfInBounds i v })
    { s1 with launches := s1.launches.map (fun l => if l.fn = fn then { l with budget := { l.budget with lim := l.budget.lim.setIfInBounds i v } } else l) }
  else s.modFn fn (fun f => { f with tenant := { f.tenant with lim := f.tenant.lim.setIfInBounds (i - 4) v } })

/-- A communicator's register (log entry 49, DEDUCED). -/
def Comm.writeReg (c : Comm) (off : Nat) (v : BitVec 32) : Comm :=
  match off with
  | 0 => { c with members := putHalf c.members false v }
  | 4 => { c with members := putHalf c.members true v }
  | 8 => { c with n := v }
  | _ => { c with defined := v.getLsbD 0 }

/-- One 32-bit word of BAR0 is written (19 R308); a register with a behaviour of its own has its own event
(log entry 49, DEDUCED). -/
def State.mmioWord (s : State) (fn : Fin 256) (off : Nat) (v : BitVec 32) : State :=
  if off % 4 ≠ 0 ∨ !s.hostUp fn then s
  else if off < 0x80000 then
    if (s.queue (off / 64)).owner = fn then s.modQueue (off / 64) (fun k => k.writeReg (off % 64) v) else s
  else if off < 0x82000 then
    let sp : Fin 256 := ⟨(off - 0x80000) / 32 % 256, Nat.mod_lt _ (by decide)⟩
    if off % 32 < 8 ∧ !s.spaceBusy fn sp then
      s.modSpace fn sp (fun a => { a with root := putHalf a.root (off % 32 == 4) v })
    else s
  else if off < 0x82020 then s.writeLimit fn ((off - 0x82000) / 4) v
  else if 0x83000 ≤ off ∧ off < 0x93000 then
    let k := (off - 0x83000) / 16
    s.modFn fn (fun f => { f with comms := Assoc.set f.comms k ((Assoc.get Comm.reset f.comms k).writeReg (off % 16) v) })
  else if 0xA0000 ≤ off ∧ off < 0xA1000 then
    let k := (off - 0xA0000) / 8
    s.modFn fn (fun f => { f with mailbox := Assoc.set f.mailbox k (putHalf (Assoc.get 0 f.mailbox k) (off % 8 == 4) v) })
  else s

/-- MMIO_REGISTER_WRITE (19 R308): 32 bits, or 64 as two words. -/
def execMmioRegisterWrite (fn : Fin 256) (off : BitVec 20) (v : Word) (wide : Bool) (s : State) : Out :=
  if wide then
    if off.toNat % 8 ≠ 0 then .next s
    else .next ((s.mmioWord fn off.toNat (v.setWidth 32)).mmioWord fn (off.toNat + 4) ((v >>> 32).setWidth 32))
  else .next (s.mmioWord fn off.toNat (v.setWidth 32))

/-- QTAIL_WRITE (07 R105; 19 R308). -/
def execQtailWrite (fn : Fin 256) (q : Fin 8192) (v : BitVec 32) (s : State) : Out :=
  .next (if s.hostUp fn ∧ (s.queue q.val).owner = fn then s.writeTail q.val v else s)

/-- The launch at the head of a queue that has not been accepted is forgotten; its entry is read again (07 R105, R110). -/
def State.dropHead (s : State) (q : Nat) : State :=
  match (s.queue q).head with
  | none => s
  | some h => { s with launches := s.launches.filter (fun l => l.id != h.launch) }.modQueue q (fun k => { k with head := none })

/-- QCTL after a write (07 R104): a WEIGHT of 0 stores 1; after enabling, the next entry lies at QBASE. -/
def Queue.control (k : Queue) (v : BitVec 32) : Queue :=
  { k with en := v.getLsbD 0, prio := v.extractLsb' 1 2
           weight := if v.extractLsb' 8 8 = 0 then 1 else v.extractLsb' 8 8
           fresh := k.fresh || (v.getLsbD 0 && !k.en) }

/-- QCTL_WRITE (07 R104, R110): a queue of a die in reset cannot be enabled. -/
def execQctlWrite (fn : Fin 256) (q : Fin 8192) (v : BitVec 32) (s : State) : Out :=
  if !s.hostUp fn ∨ (s.queue q.val).owner ≠ fn then .next s
  else
    let v1 := if (s.dies[queueDie q.val]).status = .present then v else v &&& ~~~1
    let s1 := if (s.queue q.val).en == v1.getLsbD 0 then s else s.dropHead q.val
    .next (s1.modQueue q.val (fun k => k.control v1))

/-- A stopped copy of an entry of a queue. -/
def Copy.stoppedOf (q : Nat) (c : Copy) : Bool :=
  c.entry.any (fun e => e.1 == q) && (match c.st with | .stopped _ _ => true | _ => false)

/-- QSTAT_CLEAR (07 R110): the queue restarts. -/
def execQstatClear (fn : Fin 256) (q : Fin 8192) (s : State) : Out :=
  if !s.hostUp fn ∨ (s.queue q.val).owner ≠ fn then .next s
  else
    let s1 := if (s.queue q.val).stop then s.dropHead q.val else s
    .next (({ s1 with copies := s1.copies.filter (fun c => !c.stoppedOf q.val) } : State).modQueue q.val (fun k =>
      { k with stop := false, reason := 0, sseq := 0 }))

/-! ### TLB slices and shoot-down (08 R122, R123) -/

/-- The entry maps a page of the range that ASSHOOT names. -/
def TlbEntry.inRange (t : TlbEntry) (v : Word) : Bool :=
  let first := v.toNat / 2 ^ 16 % 2 ^ 39
  let count := v.toNat % 2 ^ 16
  let lo := if t.big then t.page * 2 ^ 13 else t.page
  let hi := if t.big then lo + 2 ^ 13 else lo + 1
  count == 0 || (decide (lo < first + count) && decide (first < hi))

/-- A shoot-down of a space drops the entry: one of that space, or a global one of the function (08 R121). -/
def TlbEntry.dropped (t : TlbEntry) (fn sp : Fin 256) (v : Word) : Bool :=
  t.fn == fn && (t.sp == sp || field t.ent.toNat 6 1 == 1) && t.inRange v

/-- Drop the picked entries of every slice (log entry 14, DEDUCED). -/
def State.dropTlb (s : State) (pick : TlbEntry → Bool) : State :=
  { s with clusters := s.clusters.map (fun c => { c with tlb := c.tlb.filter (fun t => !pick t) }) }

/-- The address space of a store: its context's, or that of its copy or collective. -/
def State.spaceOf (s : State) (r : StoreRec) : Option (Fin 256) :=
  match r.ctx, r.work with
  | some u, _ => (s.context u).map (fun c => c.sp)
  | none, some w =>
    match s.copy w with
    | some c => some c.sp
    | none => (s.coll w).map (fun c => c.sp)
  | none, none => none

/-- The store has still to perform. -/
def StoreRec.waits (r : StoreRec) : Bool := !r.performed && r.alive

/-- The store used a translation that a shoot-down drops: one of the space in the range, or that of a global entry dropped
(log entry 14, DEDUCED). -/
def State.usedDropped (s : State) (fn sp : Fin 256) (v : Word) (r : StoreRec) : Bool :=
  let small := TlbEntry.inRange ⟨0, fn, sp, [], r.va.toNat / 2 ^ 16 % 2 ^ 39, false, 0⟩ v
  r.fn == fn && r.waits && (s.spaceOf r == some sp && small ||
    s.clusters.toList.any (fun c => c.tlb.any (fun t => t.dropped fn sp v && field t.ent.toNat 6 1 == 1 &&
      t.page == (if t.big then r.va.toNat / 2 ^ 29 else r.va.toNat / 2 ^ 16))))

/-- ASSHOOT_WRITE (08 R123): ASGEN advances, DONE is cleared, every slice drops its entries in the range, and the accesses that used
one are waited for. -/
def execAsshootWrite (fn : Fin 256) (sp : Fin 256) (v : Word) (s : State) : Out :=
  if !s.hostUp fn then .next s
  else
    let used := (s.stores.filter (s.usedDropped fn sp v)).map (fun r => r.id)
    .next ((s.modSpace fn sp (fun a => { a with gen := a.gen + 1, shoot := v, done := false, pending := a.pending ++ used })).dropTlb
      (fun t => t.dropped fn sp v))

/-- SHOOT_DOWN_DONE (08 R123): every access that used a dropped entry has performed. -/
def execShootDownDone (fn : Fin 256) (sp : Fin 256) (s : State) : Out :=
  .next (if s.stores.any (fun r => r.waits && (s.asRec fn sp).pending.contains r.id) then s
    else s.modSpace fn sp (fun a => { a with done := true, pending := [] }))

/-- A slice takes an entry: it replaces one of the same page, and the oldest when the slice holds 256
(log entry 14, DEDUCED). -/
def tlbInsert (t : TlbEntry) (l : List TlbEntry) : List TlbEntry :=
  let same := fun e : TlbEntry => e.slice == t.slice && e.fn == t.fn && e.sp == t.sp && e.big == t.big && e.page == t.page
  let l1 := l.filter (fun e => !same e)
  if (l1.filter (fun e => e.slice == t.slice)).length ≥ 256 then l1.eraseP (fun e => e.slice == t.slice) ++ [t] else l1 ++ [t]

/-- The generation of each address space of a function that has been given one. -/
def State.generations (s : State) (fn : Fin 256) : List (Nat × BitVec 32) := (s.fnRec fn).sps.map (fun p => (p.1, p.2.gen))

/-- The generation of a space among those recorded. -/
def genIn (l : List (Nat × BitVec 32)) (sp : Nat) : BitVec 32 := ((l.find? (fun p => p.1 == sp)).map (fun p => p.2)).getD 0

/-- A walk as it starts or restarts: it records the generations and reads the entries (R123) (log entry 14, DEDUCED). -/
def State.newWalk (s : State) (cl : Fin 64) (fn sp : Fin 256) (va : Word) : Walk where
  fn := fn
  sp := sp
  va := va
  gens := s.generations fn
  found := ((s.walk ⟨fn, sp, none, cl, false⟩ va.toNat).toOption).map (fun p => (p.1, BitVec.ofNat 64 p.2))

/-- A walker of a cluster starts a walk: at most four are in flight (R123). -/
def State.startWalk (s : State) (cl : Fin 64) (fn sp : Fin 256) (va : Word) : State :=
  if (s.clusters[cl]).walks.length ≥ 4 ∨ field va.toNat 55 9 ≠ 0 ∨ isPadVa va then s
  else s.modCluster cl (fun c => { c with walks := c.walks ++ [s.newWalk cl fn sp va] })

/-- The leaf that a walk found is global (R121). -/
def Walk.global (w : Walk) : Bool := w.found.any (fun p => field p.2.toNat 6 1 == 1)

/-- The recorded generations are those of now: that of its space, or of every space of the function for a global page (R121, R123). -/
def State.current (s : State) (w : Walk) : Bool :=
  if w.global then (s.generations w.fn).all (fun p => genIn w.gens p.1 == p.2) else genIn w.gens w.sp.val == (s.asRec w.fn w.sp).gen

/-- The entry that a walk fills (log entry 14, DEDUCED). -/
def Walk.entry (w : Walk) (big : Bool) (e : Word) : TlbEntry where
  slice := ⟨field w.va.toNat 16 3, by unfold field; omega⟩
  fn := w.fn
  sp := w.sp
  gens := if w.global then w.gens else [(w.sp.val, genIn w.gens w.sp.val)]
  page := if big then w.va.toNat / 2 ^ 29 else w.va.toNat / 2 ^ 16
  big := big
  ent := e

/-- The walk in flight that a fill names, by what it recorded for its space. -/
def Walk.isFor (fn sp : Fin 256) (va : Word) (gen : BitVec 32) (w : Walk) : Bool :=
  w.fn == fn && w.sp == sp && w.va == va && genIn w.gens sp.val == gen

/-- PAGE_WALK_FILL (08 R123): the fill of a walk that recorded `gen` reaches the slice, or is discarded and the walk restarts when a
generation has moved on. -/
def execPageWalkFill (cl : Fin 64) (fn : Fin 256) (sp : Fin 256) (va : Word) (gen : BitVec 32) (s : State) : Out :=
  match (s.clusters[cl]).walks.find? (Walk.isFor fn sp va gen) with
  | none => .next s
  | some w =>
    if s.current w then
      .next (s.modCluster cl (fun c => { c with
        walks := c.walks.erase w
        tlb := match w.found with | some (big, e) => tlbInsert (w.entry big e) c.tlb | none => c.tlb }))
    else .next (s.modCluster cl (fun c => { c with walks := c.walks.erase w ++ [s.newWalk cl fn sp va] }))

/-! ### Keys (08 R124) -/

/-- KEY_LOAD (08 R124): an empty slot takes a data key and a tweak key; slot 0 is plaintext and firmware's. -/
def execKeyLoad (fn : Fin 256) (k : KeyImage) (s : State) : Out :=
  .next (if k.slot = 0 ∨ s.keys.any (fun p => p.slot == k.slot.toNat) then s
    else { s with keys := s.keys ++ [⟨k.slot.toNat, fn.val, k.data, k.tweak⟩] })

/-- A block of a line lies under the keys of a slot. -/
def State.lineHas (s : State) (line : Nat) (k : Nat) : Bool :=
  s.lineKeys.any (fun p => p.1 / 8 == line && p.2.isSome && p.2 == s.slotKey k)

/-- A slot is emptied after every cached line that carries its index is written back. -/
def State.clearKey (s : State) (k : Nat) : State :=
  { s with modified := s.modified.filter (fun p => !s.lineHas p.1 k), keys := s.keys.filter (fun p => p.slot != k) }

/-- KEY_CLEAR (08 R124). -/
def execKeyClear (k : BitVec 11) (s : State) : Out := .next (s.clearKey k.toNat)

/-- KEY_RELEASE (08 R124): every slot of a destroyed function is cleared, and its address spaces leave the slices (08 R113). -/
def execKeyRelease (fn : Fin 256) (s : State) : Out :=
  .next ((((s.keys.filter (fun p => p.owner == fn.val)).foldl (fun s p => s.clearKey p.slot) s)).dropTlb (fun t => t.fn == fn))

/-! ### Boot, updates and the report (19 R309 to R311) -/

/-- The package after boot: D0 is released with TIME 0, every other die when its measurements match. Memory outside the
package keeps its bytes; the firmware in flash, its fused counter and what it publishes stay
(log entry 2, DESIGN CHOICE; log entry 47, DEDUCED). -/
def State.boot (s : State) (good : BitVec 8) : State :=
  { State.reset with
    sched := s.sched
    mem := s.mem.filter (fun c => !isPad c.1 && region c.1 != 0)
    dies := Vector.ofFn (fun d : Fin 8 =>
      { Die.reset with status := if d = 0 ∨ good.getLsbD d.val then .present else .absent })
    fw := s.fw
    tools := s.tools
    nextId := s.nextId
    freeCtr := s.freeCtr }

/-- PACKAGE_BOOT (19 R310): D0 does not leave reset when its firmware does not verify (log entry 45, DESIGN CHOICE). -/
def execPackageBoot (sigOk : Bool) (good : BitVec 8) (s : State) : Out := if sigOk then .next (s.boot good) else .fault .heldInReset

/-- The TIME a die is released with: D0's, less the cycles that the setting takes, fewer than 64 (09 R127). -/
def State.releaseTime (s : State) : Word :=
  let t := (s.dies[(0 : Fin 8)]).time
  t - BitVec.ofNat 64 (min (Config.releaseSkew s.freeCtr).toNat t.toNat)

/-- DIE_RELEASE (19 R310, R312; 09 R127): a die in reset whose measurements match is released with TIME set from D0's. -/
def execDieRelease (die : Fin 8) (good : Bool) (s : State) : Out :=
  .next (if (s.dies[die]).status ≠ .resetting then s
    else if good then s.tick.modDie die (fun d => { d with status := .present, time := s.releaseTime })
    else s.modDie die (fun d => { d with status := .absent }))

/-- FIRMWARE_UPDATE (19 R310; 12 R187): refused unsigned or below the fused counter; it raises only minor and patch
(log entry 47, DEDUCED). -/
def execFirmwareUpdate (sigOk : Bool) (sec : BitVec 32) (minor : BitVec 8) (patch : BitVec 8) (s : State) : Out :=
  let old := s.fw.isaver
  let new : BitVec 32 := old.extractLsb' 16 16 ++ (minor ++ patch)
  .next (if !sigOk || sec.ult s.fw.fused || new.ult old then { s with notes := s.notes ++ [.refusedUpdate] }
    else { s with fw := { s.fw with isaver := new, version := sec } })

/-- FABRIC_BRING_UP (19 R309). -/
def execFabricBringUp (dev : BitVec 20) (s : State) : Out := .next { s with fw := { s.fw with dev := dev } }

/-- PACKAGE_REPORT_REQUEST (19 R311): a virtual function's copy carries its nonce (log entry 48, DESIGN CHOICE). -/
def execPackageReportRequest (fn : Fin 256) (nonce : Word) (s : State) : Out :=
  let r : Report :=
    { dies := (List.finRange 8).map (fun d =>
        let on := decide ((s.dies[d]).status ≠ .absent)
        ⟨on, orientWord d, if on then Config.dramBytes else 0, Config.digest d.val s.fw.version.toNat, Config.identityKey d.val⟩)
      cxl := s.fw.cxl, weights := s.fw.weights, horizon := s.fw.horizon, dev := s.fw.dev, isaver := s.fw.isaver
      nonce := if fn = 0 then 0 else nonce, signature := Config.signature s.freeCtr }
  .next { s.tick with notes := s.notes ++ [.report fn r] }

/-! ### Resets (11 R166; 19 R312, R313) -/

/-- Some byte of a range of a copy maps to a home (log entry 43, DEDUCED). -/
def State.rangeHomed (s : State) (p : Party) (acc : Access) (va : Word) (n : Nat) (d : Fin 8) : Bool :=
  (pageParts (n / 0x10000 + 2) va n).any (fun q =>
    match s.xlate p acc q.1 with
    | .error _ => false
    | .ok m => !isPad m.key && decide (homeOf m.key = d))

/-- The first address of an unfinished row of a copy in flight that lies on a die: its destination, or its source. -/
def State.copyTarget (s : State) (c : Copy) (d : Fin 8) : Option Word :=
  ((List.range c.rows).filter (fun r => decide ((c.row r).done < c.rbytes))).findSome? (fun r =>
    let dst := match s.copyOffset c c.didx c.dpitch r with | .ok o => c.dst + o | .error _ => c.dst
    let src := match s.copyOffset c c.sidx c.spitch r with | .ok o => c.src + o | .error _ => c.src
    if s.rangeHomed c.party .store dst c.rbytes d then some dst
    else if s.rangeHomed c.party .load src c.rbytes d then some src else none)

/-- Copies of other dies that target a die stop with POISON (R312) (log entry 58, DEDUCED). -/
def State.stopCopies (s : State) (d : Fin 8) : State :=
  s.copies.foldl (fun s c =>
    match c.st with
    | .stopped _ _ => s
    | .running | .waitingPage _ =>
      if dieOfCl c.cl = d then s
      else match s.copyTarget c d with
        | some va => s.stopCopy c .poison va
        | none => s) s

/-- Collectives of other dies with a member on a die lose it (R312, 15 R260). -/
def State.loseMembers (s : State) (d : Fin 8) : State :=
  { s with colls := s.colls.map (fun c =>
      if c.die = d then c
      else match (s.comm c.fn c.comm).bind (fun cm => (s.commMembers c.fn cm).toOption) with
        | none => c
        | some ms => match ms.findIdx? (fun m => m.1 == s.fw.dev.toNat && m.2 == d.val) with
          | some r => { c with lost := some (c.lost.getD r), st := .running }
          | none => c) }

/-- The stores that a die reset ends (11 R166): those of other dies that the home has not acknowledged are lost; those of the
die itself that are applied stand, and the others are applied or discarded, by a free choice (log entry 43, DEDUCED). -/
def State.resetStores (s : State) (d : Fin 8) : State :=
  let yes := fun r : StoreRec => r.applied || ((r.performed || r.mode != .early) && Config.choice (s.freeCtr + r.id) && s.mayApply r)
  let s1 := { s with freeCtr := s.freeCtr + s.nextId }.lose (fun r => r.home == d && r.die != d) yes
  let own := fun r : StoreRec => r.die == d && r.alive
  let s2 := s1.advance (fun r => own r && yes r) StoreRec.ackNow
  State.settle { s2 with stores := s2.stores.map (fun r => if own r ∧ !r.applied then { r with bytes := [], acked := true } else r) }

/-- The queues of a die stop with REASON 5 and are disabled; without an entry concerned SEQ is QHEAD (07 R110; 19 R312)
(log entry 43, DEDUCED). -/
def State.resetQueues (s : State) (d : Fin 8) : State :=
  (List.range 1024).foldl (fun s i =>
    let q := 1024 * d.val + i
    ((s.dropHead q).stopQueue q 5 (s.queue q).qhead).modQueue q (fun k => { k with en := false })) s

/-- Copies on a die end with it; those of a queue count as over (log entry 43, DEDUCED). -/
def State.dropDieWork (s : State) (d : Fin 8) : State :=
  let gone := s.copies.filter (fun c => dieOfCl c.cl == d)
  let s1 := gone.foldl (fun s c => match c.entry with | some (q, e) => s.markEntry q e | none => s) s
  { s1 with copies := s1.copies.filter (fun c => dieOfCl c.cl != d), colls := s1.colls.filter (fun c => c.die != d) }

/-- A die's own state after its reset: its ports are its transit block's and stay (log entry 43, DEDUCED). -/
def Die.afterReset (d : Die) : Die :=
  { d with status := .resetting, hatch := Vector.replicate 16 ⟨none, 0, 0⟩, corr := Vector.replicate 8 0
           engines := d.engines.map (fun b => { b with used := Vector.replicate 4 0, acc := 0 }) }

/-- The granules of the lines that a die holds modified and whose home does not receive them (06 R95). -/
def State.lostGranules (s : State) (d : Fin 8) : List Nat :=
  (s.modified.filter (fun p => p.2 == d.val && homeOf (128 * p.1) != d && (s.route d (homeOf (128 * p.1))).isNone)).flatMap
    (fun p => [2 * p.1, 2 * p.1 + 1])

/-- The clusters of a die at reset, their scratchpads zero. Its modified lines are written back, or their home marks them poisoned
(06 R95). -/
def State.resetClusters (s : State) (d : Fin 8) : State :=
  let on := fun k => isPad k && padCluster k / 8 == d.val
  { s with
    clusters := s.clusters.mapIdx (fun i c => if i / 8 = d.val then Cluster.reset else c)
    mem := s.mem.filter (fun c => !on c.1)
    poison := (s.lostGranules d).foldl addOnce (s.poison.filter (fun g => !on (64 * g)))
    modified := s.modified.filter (fun p => p.2 != d.val) }

/-- A reset of D0 resets the host endpoint (R312): the mailboxes are empty and no reset of a function waits to be read; the registers of
queues, address spaces, budgets and communicators stay (log entry 43, DEDUCED). -/
def State.resetEndpoint (s : State) (d : Fin 8) : State :=
  if d = 0 then { s with fns := s.fns.map (fun p => (p.1, { p.2 with mailbox := [], flrDone := false })) } else s

/-- The page requests of contexts that have exited are void. -/
def State.dropRequests (s : State) : State :=
  { s with pageReqs := s.pageReqs.filter (fun r => match r.ctx with | some u => s.alive u | none => true) }

/-- A die is reset (11 R166; 19 R312) (log entry 43, DEDUCED). -/
def State.resetDie (s : State) (d : Fin 8) : State :=
  let ids := (s.contexts.filter (fun c => c.die == d && c.status != .exited)).map (fun c => c.launch)
  let s1 := (s.stopCopies d).loseMembers d
  let s2 := (s1.resetStores d).resetQueues d
  let s3 := ids.eraseDups.foldl (fun s n => s.endLaunch n 5) s2
  ((((s3.dropDieWork d).resetClusters d).dropRequests).resetEndpoint d).modDie d Die.afterReset

/-- DIE_RESET (19 R312). -/
def execDieReset (die : Fin 8) (s : State) : Out := .next (s.resetDie die)

/-- OVERTEMP_RESET (19 R314): at 110 °C the die is reset by R312. -/
def execOvertempReset (die : Fin 8) (s : State) : Out := .next (s.resetDie die)

/-- The queues of a function stop with REASON 4, and the SEQ of a launch that ended with it, or QHEAD; they are disabled, lose their
entries and return to the free pool (R313; 07 R110) (log entry 18, PRESUMED; log entry 44, DEDUCED). -/
def State.flrQueues (s : State) (fn : Fin 256) : State :=
  { s with queues := s.queues.map (fun p =>
      if p.2.owner = fn then
        (p.1, { p.2 with stop := true, reason := 4, sseq := if p.2.stop && p.2.reason == 4 then p.2.sseq else p.2.qhead, en := false, owner := 0, head := none, ents := [] })
      else p) }

/-- Stores of a function that have left the transit block of their home are applied, of those not applied yet by a free choice; the
others are discarded with its flits. Applied ones stand, lost acknowledgements or not (R313); an element of a nibble whose byte an
older store of another function still writes stays among the stores (log entry 44, DEDUCED). -/
def State.flrStores (s : State) (fn : Fin 256) : State :=
  let yes := fun r : StoreRec => r.fn == fn && (r.applied || (r.alive && (r.performed || r.mode != .early) &&
    Config.choice (s.freeCtr + r.id) && s.mayApply r))
  let s1 := { s with freeCtr := s.freeCtr + s.nextId }.advance yes StoreRec.ackNow
  { s1 with stores := s1.stores.filter (fun r => !(r.fn == fn) || (r.applied && !r.bytes.isEmpty)) }

/-- What a function's launches hold of the clusters is freed; its segments are zeroed when they are granted again
(log entry 44, DEDUCED). -/
def State.flrClusters (s : State) (ns : List Nat) : State :=
  { s with clusters := s.clusters.map (fun c => { c with segs := c.segs.map (fun g => if g.any ns.contains then none else g) }) }

/-- A function-level reset (19 R313) (log entry 44, DEDUCED). -/
def State.resetFunction (s : State) (fn : Fin 256) : State :=
  let ns := (s.launches.filter (fun l => l.fn == fn)).map (fun l => l.id)
  let s1 := ns.foldl (fun s n => s.endLaunch n 4) s
  let s2 := ((s1.flrStores fn).flrQueues fn).flrClusters ns
  let s3 : State := { s2 with
    copies := s2.copies.filter (fun c => c.fn != fn)
    colls := s2.colls.filter (fun c => c.fn != fn)
    pageReqs := s2.pageReqs.filter (fun r => r.fn != fn) }
  ((ns.foldl (fun s n => s.releaseLaunch n) s3).dropTlb (fun t => t.fn == fn)).modFn fn (fun f => { f with flrDone := true })

/-- FUNCTION_LEVEL_RESET (19 R313): of a virtual function. -/
def execFunctionLevelReset (fn : Fin 256) (s : State) : Out := .next (if fn = 0 then s else s.resetFunction fn)

/-! ### What the host reads, and what the PF assigns (19 R307, R308, R313) -/

/-- A 32-bit half of a register. -/
def halfOf (w : Word) (high : Bool) : BitVec 32 := if high then w.extractLsb' 32 32 else w.setWidth 32

/-- A queue's register at an offset that is a multiple of 4 (07 R104). -/
def Queue.readReg (k : Queue) (off : Nat) : BitVec 32 :=
  match off with
  | 0x00 => halfOf k.qbase false
  | 0x04 => halfOf k.qbase true
  | 0x08 => k.qtail
  | 0x0C => k.qhead
  | 0x10 => halfOf k.qcompl false
  | 0x14 => halfOf k.qcompl true
  | 0x18 => (k.weight ++ (0 : BitVec 5) ++ k.prio ++ BitVec.ofBool k.en).setWidth 32
  | 0x20 => (k.reason ++ (0 : BitVec 3) ++ BitVec.ofBool k.stop).setWidth 32
  | 0x24 => k.sseq
  | _ => 0

/-- An address-space record's register; ASSHOOT is write-only (08 R122) (log entry 49, DEDUCED). -/
def AsRec.readReg (a : AsRec) (off : Nat) : BitVec 32 :=
  match off with
  | 0 => halfOf a.root false
  | 4 => halfOf a.root true
  | 8 => a.gen
  | 24 => (BitVec.ofBool a.done).setWidth 32
  | _ => 0

/-- A communicator's register. -/
def Comm.readReg (c : Comm) (off : Nat) : BitVec 32 :=
  match off with
  | 0 => halfOf c.members false
  | 4 => halfOf c.members true
  | 8 => c.n
  | _ => (BitVec.ofBool c.defined).setWidth 32

/-- One 32-bit word of BAR0 as a function reads it (19 R308): an offset not listed reads zero, and so does a queue that the function
does not own (log entry 49, DEDUCED). -/
def State.mmioRead (s : State) (fn : Fin 256) (off : Nat) : BitVec 32 :=
  let f := s.fnRec fn
  if off % 4 ≠ 0 then 0
  else if off < 0x80000 then
    if (s.queue (off / 64)).owner = fn then (s.queue (off / 64)).readReg (off % 64) else 0
  else if off < 0x82000 then (Assoc.get AsRec.reset f.sps ((off - 0x80000) / 32)).readReg (off % 32)
  else if off < 0x82020 then
    let i := (off - 0x82000) / 4
    ((f.llim.toList ++ f.tenant.lim.toList)[i]?).getD 0
  else if 0x83000 ≤ off ∧ off < 0x93000 then (Assoc.get Comm.reset f.comms ((off - 0x83000) / 16)).readReg (off % 16)
  else if 0xA0000 ≤ off ∧ off < 0xA1000 then halfOf (Assoc.get 0 f.mailbox ((off - 0xA0000) / 8)) (off % 8 == 4)
  else 0

/-- The host reads 32 bits, or 64 as two words, of a function's BAR0 (19 R308) (log entry 49, DEDUCED). -/
def State.hostRead (s : State) (fn : Fin 256) (off : Nat) (wide : Bool) : State :=
  if !s.hostUp fn then s
  else
    let v : Word := if !wide then (s.mmioRead fn off).setWidth 64
      else if off % 8 ≠ 0 then 0
      else s.mmioRead fn (off + 4) ++ s.mmioRead fn off
    { s with notes := s.notes ++ [.mmio fn off v] }

/-- The PF reads the FLR-done bit of a function in the mailbox: a reset of the function that has run its steps is then complete, and the
host interface accepts its requests again (19 R313) (log entry 44, DEDUCED). -/
def State.readFlr (s : State) (fn : Fin 256) : State :=
  if !s.hostUp 0 then s
  else ({ s with notes := s.notes ++ [.flrDone fn (s.fnRec fn).flrDone] } : State).modFn fn (fun f => { f with flrDone := false })

/-- The PF assigns a queue that is disabled and has nothing started, or clusters, to a function, or sets a limit of an engine class on a
die (19 R307; 09 R128) (log entry 18, PRESUMED). -/
def State.assign (s : State) (a : Assignment) : State :=
  if !s.hostUp 0 then s
  else
    match a with
    | .queue q fn => if (s.queue q.val).en || !(s.queue q.val).ents.isEmpty then s else s.modQueue q.val (fun k => { k with owner := fn })
    | .clusters fn set => s.modFn fn (fun f => { f with clusters := set })
    | .engine die cls i v =>
      s.modDie die (fun d =>
        let b := d.engines[engineIdx cls]
        { d with engines := d.engines.set (engineIdx cls).val { b with lim := b.lim.set i.val v i.isLt } (engineIdx cls).isLt })

/-! ### Power and host memory (19 R314; 06 R87) -/

/-- THERMAL_THROTTLE (19 R314): ACLK falls by 100 MHz while the condition holds (log entry 48, DESIGN CHOICE). -/
def execThermalThrottle (hot : Bool) (s : State) : Out :=
  .next (if hot ∧ 100 < s.fw.aclkMHz then { s with fw := { s.fw with aclkMHz := s.fw.aclkMHz - 100 } } else s)

/-- HOST_WRITE (06 R87, R93): a host agent writes the host's memory. -/
def execHostWrite (pa : BitVec 48) (data : List Byte) (s : State) : Out :=
  .next (s.pokeKey 0 (2 ^ 49 + pa.toNat) (data.take (2 ^ 48 - pa.toNat)))

end Sys2Proof.Machine
end

