-- ==== Sys2Proof/Machine/VecMem.lean ====
section
/-! DEFINITION. Vector loads and stores (15 R236 to R245) and vector atomics (R246, R247), on path P1. -/

namespace Sys2Proof.Machine

/-! ### Addresses (R236, R237, R239) -/

/-- The address forms of vector memory instructions. -/
inductive VForm
  | unit
  | strided (b : XReg)
  | indexed (ix : VReg)
  deriving DecidableEq, Repr

/-- The scalar registers a form reads beside the base. -/
def VForm.xs : VForm → List XReg
  | .strided b => [b]
  | _ => []

/-- The index group a form reads. -/
def VForm.vs (v : VView) : VForm → List VSrc
  | .indexed ix => [⟨ix, v.indexRegs, 32⟩]
  | _ => []

/-- The modes a form is allowed in, and its index group (R236, R237). -/
def VForm.ok (v : VView) : VForm → Bool
  | .unit => true
  | .strided _ => v.tile || (v.bl == 0 && decide (8 ≤ v.sew))
  | .indexed ix => (v.tile || (v.bl == 0 && decide (8 ≤ v.sew))) && aligned ix v.indexRegs

/-- Elements of a tile row or row record (R239). -/
def VView.epr (v : VView) : Nat := 512 / v.sew
/-- Descriptors of a row record. -/
def VView.recDescs (v : VView) : Nat := if v.bl = 0 then 0 else v.epr / v.bl
/-- The size of a row record, RS; 64 without descriptors. -/
def VView.recSize (v : VView) : Nat := 64 + 4 * v.recDescs

/-- The address of a unit: of its element, row or row record. -/
def VForm.addr (f : VForm) (v : VView) (r : VecRegs) (s : State) (xa : Word) (u : Nat) : Word :=
  match f with
  | .unit =>
    let off := if v.tile then v.recSize * u else if v.bl = 0 then u * v.sew / 8 else u / v.epr * v.recSize
    xa + BitVec.ofNat 64 off
  | .strided b => xa + BitVec.ofNat 64 u * s.rx b
  | .indexed ix => xa + BitVec.ofNat 64 (permIndex v r ix u)

/-- One access of a unit: its address, its size, and the block whose descriptor it holds. -/
structure VPiece where
  va   : Word
  size : Nat
  blk  : Option Nat
  deriving DecidableEq, Repr

/-- A unit with its address, that of its row record under a nonzero BL, and its accesses. -/
structure VUnit where
  u      : Nat
  base   : Word
  pieces : List VPiece
  deriving DecidableEq, Repr

/-- The address of a unit's element or row, which TVAL holds when it faults (R240). -/
def VUnit.tval (q : VUnit) (v : VView) : Word := if v.tile then q.base else (q.pieces.head?.map (fun p => p.va)).getD q.base

/-- A unit that faults: its cause, the address of the datum that does, and TVAL. -/
structure UnitFault where
  u     : Nat
  cause : Cause
  va    : Word
  tval  : Word
  deriving DecidableEq, Repr

/-- The alignment of a unit's address. -/
def VView.unitAlign (v : VView) : Nat := if v.bl ≠ 0 then 8 else if v.tile then 64 else max (v.sew / 8) 1

/-- The accesses of a unit at its address; `desc` when an element's block is not accessed by an earlier unit. -/
def unitPieces (v : VView) (base : Word) (u : Nat) (desc : Bool) : List VPiece :=
  let at_ := fun n => base + BitVec.ofNat 64 n
  if v.tile then
    (List.range v.recDescs).map (fun k => ⟨at_ (4 * k), 4, some (u * v.recDescs + k)⟩) ++ [⟨at_ (4 * v.recDescs), 64, none⟩]
  else
    let pos := if v.bl = 0 then 0 else u % v.epr
    ⟨at_ (4 * v.recDescs + pos * v.sew / 8), max (v.sew / 8) 1, none⟩ ::
      (if v.bl ≠ 0 ∧ desc then [⟨at_ (4 * (pos / v.bl)), 4, some (u / v.bl)⟩] else [])

/-- The units of an instruction in index order; `prev` is the unit before. -/
def planUnits (f : VForm) (v : VView) (r : VecRegs) (s : State) (xa : Word) : Option Nat → List Nat → List VUnit
  | _, [] => []
  | prev, u :: l =>
    let base := f.addr v r s xa u
    let new := match prev with
      | some p => p / v.bl != u / v.bl
      | none => true
    ⟨u, base, unitPieces v base u new⟩ :: planUnits f v r s xa (some u) l

/-- A store also writes the descriptor of a block that holds pad elements, outside VFETCH blocks (R239, R233)
(log entry 51, DEDUCED). -/
def padPiece (v : VView) (xa : Word) (inBlock : Bool) (l : List VUnit) : List VUnit :=
  let b := (v.vl - 1) / v.bl
  if v.bl = 0 ∨ v.tile ∨ inBlock ∨ v.vl % v.bl = 0 then l
  else match l.getLast? with
    | none => l
    | some q =>
      if q.u / v.bl = b then l
      else
        let e := b * v.bl
        let va := xa + BitVec.ofNat 64 (e / v.epr * v.recSize + 4 * (e % v.epr / v.bl))
        l.dropLast ++ [{ q with pieces := q.pieces ++ [⟨va, 4, some b⟩] }]

/-! ### Checks (R237, R240) -/

/-- A translated access. -/
structure VAccess where
  va  : Word
  blk : Option Nat
  ms  : List (Mapped × Nat)
  deriving DecidableEq, Repr

/-- Translate one access; a load also meets poison. -/
def State.checkPiece (s : State) (acc : Access) (load : Bool) (p : VPiece) : Except (Cause × Word) VAccess :=
  match s.xlateRange s.me.party acc p.va p.size with
  | .error e => .error e
  | .ok ms =>
    match if load then s.badByte s.me.die ms else none with
    | some i => .error (.poison, p.va + BitVec.ofNat 64 i)
    | none => .ok ⟨p.va, p.blk, ms⟩

/-- Translate accesses in order. -/
def State.checkPieces (s : State) (acc : Access) (load : Bool) : List VPiece → Except (Cause × Word) (List VAccess)
  | [] => .ok []
  | p :: l =>
    match s.checkPiece acc load p with
    | .error e => .error e
    | .ok a =>
      match s.checkPieces acc load l with
      | .error e => .error e
      | .ok as => .ok (a :: as)

/-- The checks of one unit: range, alignment, then each access. -/
def State.checkUnit (s : State) (v : VView) (acc : Access) (load : Bool) (q : VUnit) : Except UnitFault (List VAccess) :=
  match badAddress q.base v.unitAlign with
  | some c => .error ⟨q.u, c, q.base, q.tval v⟩
  | none =>
    match s.checkPieces acc load q.pieces with
    | .error e => .error ⟨q.u, e.1, e.2, q.tval v⟩
    | .ok as => .ok as

/-- What the checks of all units give: the units that may be performed, the VPs that stop at a VLDF in a block, where a
VLDF shortens VL, and the faulting unit with the units after it. -/
structure Scan where
  good  : List (Nat × List VAccess)
  stop  : List Nat
  cut   : Option Nat
  fault : Option UnitFault
  rest  : List VUnit
  deriving DecidableEq, Repr

/-- A good unit in front of a scan. -/
def Scan.cons (u : Nat) (as : List VAccess) (q : Scan) : Scan := { q with good := (u, as) :: q.good }

/-- An access touches a page with NS = 1. -/
def touchesNs (as : List VAccess) : Bool := as.any (fun a => a.ms.any (fun p => p.1.ns))

/-- The units up to the first that faults (R240). -/
def State.scan (s : State) (v : VView) (acc : Access) (load : Bool) : List VUnit → Scan
  | [] => ⟨[], [], none, none, []⟩
  | q :: l =>
    match s.checkUnit v acc load q with
    | .error e => ⟨[], [], none, some e, l⟩
    | .ok as => (s.scan v acc load l).cons q.u as

/-- The units of a VLDF after its first: outside a block up to the first that does not qualify (R241), inside one all that
do (R242). -/
def State.scanFirst (s : State) (v : VView) (inBlock : Bool) : List VUnit → Scan
  | [] => ⟨[], [], none, none, []⟩
  | q :: l =>
    let more := fun _ : Unit => s.scanFirst v inBlock l
    let skip := fun _ : Unit =>
      if inBlock then
        let r := more ()
        { r with stop := q.u :: r.stop }
      else ⟨[], [], some q.u, none, []⟩
    match s.checkUnit v .load true q with
    | .error _ => skip ()
    | .ok as => if touchesNs as then skip () else (more ()).cons q.u as

/-- The scan of a load. -/
def State.scanLoad (s : State) (v : VView) (ff inBlock : Bool) (l : List VUnit) : Scan :=
  if !ff then s.scan v .load true l
  else match l with
    | [] => ⟨[], [], none, none, []⟩
    | q :: r =>
      match s.checkUnit v .load true q with
      | .error e => ⟨[], [], none, some e, r⟩
      | .ok as => (s.scanFirst v inBlock r).cons q.u as

/-- The keys the good units access. -/
def Scan.keys (q : Scan) : List (Nat × Nat) := q.good.flatMap (fun g => g.2.flatMap (fun a => keysOf a.ms))

/-- Some access meets memory of type 1 or 2, where the instruction behaves as with E = 1 (R238). -/
def Scan.uncached (q : Scan) : Bool := q.good.any (fun g => g.2.any (fun a => a.ms.any (fun p => p.1.mt != 0)))

/-- Order an instruction's accesses, if it makes any, after the context's earlier ones (10 R141, 11 R160). -/
def orderedAll (cls : Cls) (ks : List (Nat × Nat)) (s : State) (k : State → Out) : Out :=
  if ks.isEmpty then k s else ordered .p1 cls ks s k

/-- The same around an instruction that faults at a unit: an ACKLOSS waits until it executes again (18 R296). -/
def Scan.ordered (q : Scan) (cls : Cls) (s : State) (k : State → Out) : Out :=
  if q.fault.isSome then k (s.orderHome .p1 cls q.keys) else orderedAll cls q.keys s k

/-- The units that the instruction makes before a pre-emption between elements, and the first of the others (R240). -/
def Context.share {α : Type} (c : Context) (us : List α) : List α × Option α :=
  match c.quota with
  | none => (us, none)
  | some n => (us.take n, (us.drop n).head?)

/-! ### Faults of one unit (R240; 02 R21) -/

/-- Inside a block the VPs of the group below `k` (all of them without one) have completed the instruction of `len` bytes;
a VP stopped meanwhile stays stopped. -/
def Block.advance (b : Block) (below : Option Nat) (ready : Nat) : Block :=
  let on := fun i => (match b.grp with | some g => g.getLsbD i | none => false) &&
    (match below with | some k => decide (i < k) | none => true)
  { b with pcs := b.pcs.mapIdx (fun i p => if on i then p.map (fun _ => b.cur + 4) else p)
           nextAt := b.nextAt.mapIdx (fun i t => if on i then ready else t) }

/-- The context stands at unit `k` of its instruction: VBEG := k, or in a block the VPs below k have gone on
(log entry 51, DEDUCED). -/
def Context.stopAt (c : Context) (k : Nat) : Context :=
  match c.group with
  | some _ => { c with vec := { c.vec with blk := c.vec.blk.map (fun b => b.advance (some k) (c.vslot + 1)) } }
  | none => { c with vec := { c.vec with vbeg := BitVec.ofNat 32 k } }

/-- A fault at a unit. -/
def faultUnit (f : UnitFault) (acc : Access) (s : State) : Out := faultOf f.cause f.va f.tval acc (s.modMe (fun x => x.stopAt f.u))

/-- The context stands at a boundary before unit `k`, where a pre-emption may fall (R240, R298). -/
def Context.boundary (c : Context) (k : Nat) : Context :=
  let c1 := c.stopAt k
  { c1 with vec := { c1.vec with blk := c1.vec.blk.map (fun b => { b with grp := none }) } }

/-! ### Loads -/

/-- The element or row a unit's data bytes give. -/
def unitCells (v : VView) (u : Nat) (bs : List Byte) : List (Nat × Nat) :=
  let n := ofBytes bs
  if v.tile then (List.range v.per).map (fun k => (u * v.per + k, n / 2 ^ (v.sew * k) % 2 ^ v.sew))
  else [(u, if v.sew = 4 then n / 2 ^ (4 * (u % 2)) % 16 else n)]

/-- The elements and descriptors that the accesses of a unit give, read with `rd`. -/
def unitGot (v : VView) (rd : List (Mapped × Nat) → List Byte) (g : Nat × List VAccess) : List (Nat × Nat) × List (Nat × BitVec 32) :=
  g.2.foldl (fun acc a =>
    match a.blk with
    | none => (acc.1 ++ unitCells v g.1 (rd a.ms), acc.2)
    | some b => (acc.1, acc.2 ++ [(b, BitVec.ofNat 32 (ofBytes (rd a.ms) % 2 ^ 16))])) ([], [])

/-- What a unit reads of memory when it is made. -/
def State.readUnit (s : State) (v : VView) (g : Nat × List VAccess) : List (Nat × Nat) × List (Nat × BitVec 32) :=
  unitGot v (s.readParts (s.me.obs .p1)) g

/-- The keys of a unit. -/
def unitKeys (g : Nat × List VAccess) : List (Nat × Nat) := g.2.flatMap (fun a => keysOf a.ms)

/-- What the units of a load read, and the state after it (10 R143). With E = 1 each performs after those below it. With E = 0 in any
order: one that the context has performed ahead may stand for the unit or not, a free choice (log entry 26, DEDUCED). -/
def State.readUnits (v : VView) (cls : Cls) (e y : Bool) (s : State) :
    List (Nat × List VAccess) → (List (Nat × Nat) × List (Nat × BitVec 32)) × State
  | [] => (([], []), s)
  | g :: l =>
    let fresh := s.me.ahead.isEmpty || (!e && Config.choice s.freeCtr)
    let got := if fresh then s.readUnit v g else unitGot v (s.loadParts .p1 cls) g
    let s1 := if e then s.passed .p1 cls y (unitKeys g) else if s.me.ahead.isEmpty then s else s.tick
    let r := State.readUnits v cls e y s1 l
    ((got.1 ++ r.1.1, got.2 ++ r.1.2), r.2)

/-- A load makes the units of a scan. -/
def State.loadUnits (s : State) (v : VView) (cls : Cls) (e y : Bool) (q : Scan) :
    (List (Nat × Nat) × List (Nat × BitVec 32)) × State :=
  if q.keys.isEmpty then (([], []), s)
  else
    let s1 := s.orderLoad .p1 cls q.keys
    let r := State.readUnits v cls (e || q.uncached) y (s1.noteRead (s1.me.obs .p1) q.keys) q.good
    (r.1, r.2.passed .p1 cls y q.keys)

/-- Inactive units below `k` that MP = 1 zeroes. -/
def VView.zeroedBelow (v : VView) (grp : Option (BitVec 32768)) (r : VecRegs) (m : MReg) (k : Nat) : List Nat :=
  if v.mp then v.elems ((v.body grp false).filter (fun u => decide (u < k) && !r.mbit m u)) else []

/-- Write loaded elements with the descriptors of their blocks. -/
def Context.putLoad (c : Context) (v : VView) (d : VReg) (got : List (Nat × Nat) × List (Nat × BitVec 32))
    (zeros : List Nat) : Context :=
  c.putGroup v d (got.1 ++ zeros.map (fun e => (e, 0))) (fun b => (got.2.find? (fun p => p.1 == b)).map (fun p => p.2)) 0

/-- VPs that stopped at a VLDF (R242) (log entry 51, DEDUCED). -/
def Context.stopVps (c : Context) (l : List Nat) : Context :=
  if l.isEmpty then c
  else { c with vec := { c.vec with blk := c.vec.blk.map (fun b =>
    { b with pcs := b.pcs.mapIdx (fun i p => if l.contains i then none else p) }) } }

/-- A load completes: the roles of R210 under the VL a VLDF may have shortened. -/
def Context.finishLoad (c : Context) (v : VView) (r : VecRegs) (d : VReg) (m : MReg) (q : Scan)
    (got : List (Nat × Nat) × List (Nat × BitVec 32)) : Context :=
  let v1 := match q.cut with
    | some k => { v with vl := k }
    | none => v
  let c1 := c.putLoad v d got (v1.zeroed c.group r m false true true)
  let c2 := match q.cut with
    | some k => { c1 with vec := { c1.vec with vl := BitVec.ofNat 32 k } }
    | none => c1
  ((c2.stopVps q.stop).setLdv d).vdone v 0 4

/-- A vector load (R236 to R242); `ff` for VLDF. -/
def vload (f : VForm) (ff : Bool) (d : VReg) (a : XReg) (cls : Cls) (e y : Bool) (m : MReg) (s : State) : Out :=
  vector true (fun v => f.ok v && aligned d v.lmul && (match f with
      | .indexed ix => overlapOk d v.lmul ix v.indexRegs
      | _ => true)) (a :: f.xs) (f.vs ·) [m]
    (fun v r => !(v.active s.me.group r m false).isEmpty) (fun v => some (d, v.lmul)) s fun v r s =>
        let us := v.active s.me.group r m false
        let w := s.me.share (planUnits f v r s (s.rx a) none us)
        let q := s.scanLoad v ff s.me.group.isSome w.1
        q.ordered cls (s.modMe (fun c => { c with quota := none })) fun s =>
          let p := s.loadUnits v cls e y q
          let part := fun (k : Nat) => p.2.modMe (fun c => c.putLoad v d p.1 (v.zeroedBelow c.group r m k))
          match q.fault, q.cut, w.2 with
          | some e, _, _ => faultUnit e .load (part e.u)
          | none, none, some n => .next ((part n.u).modMe (fun c => (c.stopVps q.stop).boundary n.u))
          | none, _, _ => .next (p.2.modMe (fun c => c.finishLoad v r d m q p.1))

/-- VLD (R236). -/
def execVld (d : VReg) (a : XReg) (cls : Cls) (e y : Bool) (m : MReg) (s : State) : Out := vload .unit false d a cls e y m s

/-- VLDS (R236). -/
def execVlds (d : VReg) (a b : XReg) (cls : Cls) (e y : Bool) (m : MReg) (s : State) : Out :=
  vload (.strided b) false d a cls e y m s

/-- VLDX (R236). -/
def execVldx (d : VReg) (a : XReg) (ix : VReg) (cls : Cls) (e y : Bool) (m : MReg) (s : State) : Out :=
  vload (.indexed ix) false d a cls e y m s

/-- VLDF (R241, R242). -/
def execVldf (d : VReg) (a : XReg) (cls : Cls) (e y : Bool) (m : MReg) (s : State) : Out := vload .unit true d a cls e y m s

/-! ### Stores -/

/-- The 64 bytes of a tile row (05 R75). -/
def VecRegs.row (r : VecRegs) (v : VView) (a : VReg) (u : Nat) : List Byte :=
  let n := 8 * v.g
  let lo := bitsAt (r.v[regAt a (2 * (u / n))]) (256 * (u % n)) 256
  let hi := bitsAt (r.v[regAt a (2 * (u / n) + 1)]) (256 * (u % n)) 256
  toBytes 64 (lo + 2 ^ 256 * hi)

/-- The descriptor a store writes for a block: SCALE and X of the register, nf recomputed (R51, R239). -/
def storedDesc (v : VView) (r : VecRegs) (a : VReg) (b : Nat) : Nat :=
  let d := (r.desc v a b).toNat % 2 ^ 16
  let nf := d % 256 == 255 ||
    (List.range v.bl).any (fun i => (v.fmt.decode 127 (d / 256) (r.code v a (b * v.bl + i))).nonFinite)
  d + (if nf then 2 ^ 16 else 0)

/-- The bytes one access of a unit stores. -/
def storeBytes (v : VView) (r : VecRegs) (a : VReg) (u : Nat) (p : VAccess) : List Byte :=
  match p.blk with
  | some b => toBytes 4 (storedDesc v r a b)
  | none => if v.tile then r.row v a u else toBytes (v.sew / 8) (r.elem v a v.sew u)

/-- The bytes that an access stores, and for an element of E2M1 which nibble of its byte it merges: the high one of odd elements
(R238; 03 R45) (log entry 52, DEDUCED). -/
def storeDatum (v : VView) (r : VecRegs) (a : VReg) (u : Nat) (p : VAccess) : List Byte × Option Bool :=
  if v.sew = 4 ∧ !v.tile ∧ p.blk.isNone then ([BitVec.ofNat 8 (17 * (r.elem v a 4 u % 16))], some (u % 2 == 1))
  else (storeBytes v r a u p, none)

/-- Perform one access of a storing unit; `ins` names the elements that have no order among themselves. -/
def State.storeAccess (s : State) (v : VView) (r : VecRegs) (a : VReg) (mode : StoreMode) (cls : Cls) (y : Bool) (ins : Option Nat)
    (u : Nat) (p : VAccess) : State :=
  let d := storeDatum v r a u p
  s.storeParts (some s.me.uid) s.me.fn s.me.die .p1 cls y p.va mode d.2 ins p.ms d.1

/-- Perform a storing unit. -/
def State.storeUnit (v : VView) (r : VecRegs) (a : VReg) (mode : StoreMode) (cls : Cls) (y : Bool) (ins : Option Nat) (s : State)
    (g : Nat × List VAccess) : State :=
  g.2.foldl (fun s p => s.storeAccess v r a mode cls y ins g.1 p) s

/-- With E = 0 each later unit whose checks pass, on pages of type 0, may have performed (R240): a free choice
(log entry 26, DEDUCED). -/
def State.storeRest (v : VView) (r : VecRegs) (a : VReg) (mode : StoreMode) (cls : Cls) (y : Bool) (ins : Option Nat) (s : State) :
    List VUnit → State
  | [] => s
  | q :: l =>
    match s.checkUnit v .store false q with
    | .error _ => State.storeRest v r a mode cls y ins s l
    | .ok as =>
      if as.any (fun p => p.ms.any (fun e => e.1.mt != 0)) then State.storeRest v r a mode cls y ins s l
      else
        let s1 := if Config.choice s.freeCtr then s.storeUnit v r a mode cls y ins (q.u, as) else s
        State.storeRest v r a mode cls y ins s1.tick l

/-- A vector store (R236 to R240, R244). -/
def vstore (f : VForm) (mode : StoreMode) (d : VReg) (a : XReg) (cls : Cls) (e y : Bool) (m : MReg) (s : State) : Out :=
  vector true (fun v => f.ok v && aligned d v.lmul) (a :: f.xs) (fun v => ⟨d, v.lmul, v.sew⟩ :: f.vs v) [m]
    (fun v r => !(v.active s.me.group r m false).isEmpty) (fun _ => none) s fun v r s =>
      let us := v.active s.me.group r m false
      let w := s.me.share (padPiece v (s.rx a) s.me.group.isSome (planUnits f v r s (s.rx a) none us))
      let q := s.scan v .store false w.1
      q.ordered cls (s.modMe (fun c => { c with quota := none })) fun s =>
        let ins := if e || q.uncached then none else some s.nextId
        let s1 := (q.good.foldl (State.storeUnit v r d mode cls y ins) s).passed .p1 cls y q.keys
        match q.fault, w.2 with
        | some f, _ => faultUnit f .store (if e || q.uncached then s1 else State.storeRest v r d mode cls y ins s1 q.rest)
        | none, some n => .next (s1.modMe (fun c => c.boundary n.u))
        | none, none => .next (s1.modMe (fun c => c.vdone v 0 4))

/-- VST (R236). -/
def execVst (d : VReg) (a : XReg) (cls : Cls) (e y : Bool) (m : MReg) (s : State) : Out :=
  vstore .unit .early d a cls e y m s

/-- VSTS (R236). -/
def execVsts (d : VReg) (a b : XReg) (cls : Cls) (e y : Bool) (m : MReg) (s : State) : Out :=
  vstore (.strided b) .early d a cls e y m s

/-- VSTX (R236). -/
def execVstx (d : VReg) (a : XReg) (ix : VReg) (cls : Cls) (e y : Bool) (m : MReg) (s : State) : Out :=
  vstore (.indexed ix) .early d a cls e y m s

/-- VST.G (R244). -/
def execVstG (d : VReg) (a : XReg) (cls : Cls) (e y : Bool) (m : MReg) (s : State) : Out :=
  vstore .unit .glob d a cls e y m s

/-- VSTX.G (R244). -/
def execVstxG (d : VReg) (a : XReg) (ix : VReg) (cls : Cls) (e y : Bool) (m : MReg) (s : State) : Out :=
  vstore (.indexed ix) .glob d a cls e y m s

/-! ### Sequentially consistent accesses (R245; 10 R154) -/

/-- The accesses `.SC` forms take. -/
def scOk (v : VView) : Bool := !v.tile && v.bl == 0 && decide (8 ≤ v.sew)

/-- The probe of every unit: their mappings, or the first fault. -/
def State.probeUnits (s : State) (v : VView) (acc : Access) : List VUnit → Except UnitFault (List (Word × Mapped))
  | [] => .ok []
  | q :: l =>
    match s.checkUnit v acc false q with
    | .error e => .error e
    | .ok as =>
      match s.probeUnits v acc l with
      | .error e => .error e
      | .ok r => .ok ((as.flatMap (fun a => a.ms.map (fun p => (a.va, p.1)))) ++ r)

/-- The access of an element that the instruction has probed: its page stays resident (R245). -/
def Context.probedUnit (c : Context) (v : VView) (q : VUnit) : List VAccess :=
  ((c.probed.find? (fun p => p.1 == q.base)).map (fun p => (⟨q.base, none, [(p.2, v.sew / 8)]⟩ : VAccess))).toList

/-- A ticket is drawn (09 R133) (log entry 36, DEDUCED). -/
def State.ticket (s : State) : State := { s with seqctr := s.seqctr + 1 }

/-- Every store of some keys that an observer sees has performed in the whole package: those seen, then those that this shows, at most
as often as there are stores. -/
def State.drainSeen (o : Observer) (ks : List (Nat × Nat)) : Nat → State → State
  | 0, s => s
  | n + 1, s => State.drainSeen o ks n (s.drainAll (fun r => r.visible o && r.touches ks && !r.everywhere))

/-- One `.SC` load element: the store it reads has performed in the whole package first (10 R154, 11 R162)
(log entry 36, DEDUCED). -/
def State.scLoad (s : State) (v : VView) (q : VUnit) : Except UnitFault (List (Nat × Nat) × State) :=
  let as := s.me.probedUnit v q
  match s.badByte s.me.die (as.flatMap (fun a => a.ms)) with
  | some i => .error ⟨q.u, .poison, q.base + BitVec.ofNat 64 i, q.base⟩
  | none =>
    let s1 := State.drainSeen (s.me.obs .p1) (unitKeys (q.u, as)) s.stores.length s.ticket
    .ok ((s1.readUnit v (q.u, as)).1, s1)

/-- One `.SC` store element: it performs in the whole package, unless its home cannot be reached
(log entry 36, DEDUCED). -/
def State.scStore (s : State) (v : VView) (r : VecRegs) (d : VReg) (cls : Cls) (q : VUnit) :
    Except UnitFault (List (Nat × Nat) × State) :=
  let s1 := s.ticket.storeUnit v r d .early cls false none (q.u, s.me.probedUnit v q)
  let mine := fun x : StoreRec => decide (s.nextId ≤ x.id)
  .ok ([], (s1.loseUnreachable mine).drainAll mine)

/-- Perform `.SC` elements in index order up to the first that faults (log entry 36, DEDUCED). -/
def scRun (one : State → VUnit → Except UnitFault (List (Nat × Nat) × State)) :
    State → List VUnit → List (Nat × Nat) × State × Option UnitFault
  | s, [] => ([], s, none)
  | s, q :: l =>
    match one s q with
    | .error e => ([], s, some e)
    | .ok (cells, s1) =>
      let t := scRun one s1 l
      (cells ++ t.1, t.2)

/-- An `.SC` instruction goes on once its elements are probed: the pages then stay resident until it completes, traps or is pre-empted
(R245). A fault of the probe inside a block leaves every VP of the group at it (02 R21) (log entry 13, DEDUCED)
(log entry 36, DEDUCED). -/
def probing (v : VView) (acc : Access) (plan : List VUnit) (s : State) (k : State → Out) : Out :=
  if plan.all (fun q => s.me.probed.any (fun p => p.1 == q.base)) then k s
  else
    match s.probeUnits v acc plan with
    | .error e => faultOf e.cause e.va e.tval acc s
    | .ok l => k (s.modMe (fun c => { c with probed := l }))

/-- An `.SC` instruction. Outside a VFETCH block one step performs one element and leaves VBEG at the next, so that the
tickets of other contexts may fall between them; the step of the last element completes the instruction
(log entry 36, DEDUCED). -/
def vsc (store : Bool) (d : VReg) (a : XReg) (cls : Cls) (m : MReg) (s : State) : Out :=
  vector true (fun v => scOk v && aligned d v.lmul) [a] (fun v => if store then [⟨d, v.lmul, v.sew⟩] else []) [m]
    (fun v r => !(v.active s.me.group r m false).isEmpty) (fun v => if store then none else some (d, v.lmul)) s fun v r s =>
      let us := v.active s.me.group r m false
      let acc : Access := if store then .store else .load
      let finish := fun (cells : List (Nat × Nat)) (s : State) => Host.Outcome.next (s.modMe (fun c =>
        let c1 := if store then c else (c.putLoad v d (cells, []) (v.zeroed c.group r m false true true)).setLdv d
        { c1.vdone v 0 4 with probed := [] }))
        if us.isEmpty then finish [] s
        else
          let plan := planUnits .unit v r s (s.rx a) none us
          probing v acc plan s fun s =>
            fenced .p s fun s =>
              let now := if s.me.group.isSome then plan else plan.take 1
              let t := scRun (fun s q => if store then s.scStore v r d cls q else s.scLoad v q) s now
              let part := fun (k : Nat) (s : State) =>
                if store then s else s.modMe (fun c => c.putLoad v d (t.1, []) (v.zeroedBelow c.group r m k))
              match t.2.2 with
              | some e => faultUnit e acc (part e.u t.2.1)
              | none =>
                match (plan.drop now.length).head? with
                | none => finish t.1 t.2.1
                | some q => .next ((part q.u t.2.1).modMe (fun c => c.stopAt q.u))

/-- VLD.SC (R245). -/
def execVldSc (d : VReg) (a : XReg) (cls : Cls) (m : MReg) (s : State) : Out := vsc false d a cls m s

/-- VST.SC (R245). -/
def execVstSc (d : VReg) (a : XReg) (cls : Cls) (m : MReg) (s : State) : Out := vsc true d a cls m s

/-! ### Vector atomics (R246, R247) -/

/-- One element of a VAMO: its index, address, mapping and operands. -/
structure VAmoElt where
  u   : Nat
  va  : Word
  m   : Mapped
  x   : Nat
  y   : Nat
  deriving DecidableEq, Repr

/-- The checks of one element of a VAMO. -/
def State.probeElt (s : State) (n : Nat) (va : Word) : Except Cause Mapped :=
  match badAddress va n with
  | some c => .error c
  | none =>
    match s.xlate s.me.party .store va with
    | .error c => .error c
    | .ok m => if isHostKey m.key then .error .prot else .ok m

/-- The probe of a VAMO: the elements, or the fault at the lowest failing address (R247). -/
def State.probeAmo (s : State) (n : Nat) : List (Nat × Word × Nat × Nat) → Except (Cause × Word) (List VAmoElt)
  | [] => .ok []
  | (u, va, x, y) :: l =>
    match s.probeElt n va, s.probeAmo n l with
    | .ok m, .ok r => .ok (⟨u, va, m, x, y⟩ :: r)
    | .ok _, .error e => .error e
    | .error c, .ok _ => .error (c, va)
    | .error c, .error e => .error (if e.2.toNat < va.toNat then e else (c, va))

/-- The word of an element is poisoned or its home cannot be reached (06 R96, 11 R166) (log entry 53, DESIGN CHOICE). -/
def State.badAmo (s : State) (n : Nat) (e : VAmoElt) : Bool :=
  s.anyPoison e.m.key n || !(isPad e.m.key || s.reachable s.me.die (homeOf e.m.key))

/-- Perform the elements in ascending order; answers the old values. -/
def State.amoAll (cls : Cls) (far : Bool) (n : Nat) (f : Nat → Nat → Nat → Nat) (s : State) : List VAmoElt → List (Nat × Nat) × State
  | [] => ([], s)
  | e :: l =>
    let r := s.atomicAt .p1 cls far e.va e.m n (fun o => f o e.x e.y)
    let q := State.amoAll cls far n f r.2 l
    ((e.u, r.1) :: q.1, q.2)

/-- Before a POISON trap any elements with a good word may have performed, those of one address in ascending order: a free
choice for each (log entry 53, DESIGN CHOICE). -/
def State.amoSome (cls : Cls) (far : Bool) (n : Nat) (f : Nat → Nat → Nat → Nat) (skipped : List Nat) (s : State) : List VAmoElt → State
  | [] => s
  | e :: l =>
    if s.badAmo n e then State.amoSome cls far n f skipped s l
    else if Config.choice s.freeCtr && !skipped.contains e.m.key then
      State.amoSome cls far n f skipped (s.tick.atomicAt .p1 cls far e.va e.m n (fun o => f o e.x e.y)).2 l
    else State.amoSome cls far n f (e.m.key :: skipped) s.tick l

/-- A VAMO, near or far (10 R151): `f` gives the new value from the old one, vd[i] and vd+LMUL[i]. A fault of its probe inside a block
leaves every VP of the group at it: the instruction traps as a whole (R247, 02 R21) (log entry 13, DEDUCED). -/
def vamo (far cas : Bool) (ok : VView → Bool) (f : VView → Nat → Nat → Nat → Nat) (d : VReg) (a : XReg) (ix : VReg) (cls : Cls)
    (m : MReg) (s : State) : Out :=
  vector true (fun v => ok v && !v.tile && v.bl == 0 && aligned d v.lmul && aligned ix v.indexRegs &&
      overlapOk d v.lmul ix v.indexRegs &&
      (!cas || (decide (d.val + 2 * v.lmul ≤ 32) && apart d (2 * v.lmul) ix v.indexRegs))) [a]
    (fun v => [⟨d, v.lmul, v.sew⟩, ⟨ix, v.indexRegs, 32⟩] ++ (if cas then [⟨regAt d v.lmul, v.lmul, v.sew⟩] else [])) [m]
    (fun v r => !(v.active s.me.group r m false).isEmpty) (fun v => some (d, v.lmul)) s fun v r s =>
        let us := v.active s.me.group r m false
        let n := v.sew / 8
        let sc : Scope := if far then .p else .d
        match s.probeAmo n (us.map (fun u => (u, s.rx a + BitVec.ofNat 64 (permIndex v r ix u), r.elem v d v.sew u,
            if cas then r.elem v (regAt d v.lmul) v.sew u else 0))) with
        | .error (c, va) => faultAt c va .store s
        | .ok es =>
          let ks := es.map (fun e => (e.m.key, n))
          orderedAll cls ks s fun s =>
            let s1 := if es.isEmpty then s else s.beforeAtomic .p1 sc cls ks
            match es.find? (s1.badAmo n) with
            | some e => faultAt .poison e.va .load (State.amoSome cls far n (f v) [] s1 es)
            | none =>
              let q := State.amoAll cls far n (f v) s1 es
              .next (q.2.modMe (fun c =>
                let cells := q.1 ++ (v.zeroed c.group r m false true true).map (fun e => (e, 0))
                ((c.putGroup v d cells (fun _ => none) 0).setLdv d).vdone v 0 4))

/-- FMT is I32, N32, I64 or N64. -/
def amoInt (v : VView) : Bool := v.isInt && decide (32 ≤ v.sew)
/-- FMT is F32 or F64. -/
def amoFloat (v : VView) : Bool := v.isFloat && decide (32 ≤ v.sew)

/-- The operations of VAMO on old, vd and vd+LMUL elements (R247). -/
def amoAdd (v : VView) (o x _y : Nat) : Nat := (o + x) % 2 ^ v.sew
/-- AND. -/
def amoAnd (_v : VView) (o x _y : Nat) : Nat := o &&& x
/-- OR. -/
def amoOr (_v : VView) (o x _y : Nat) : Nat := o ||| x
/-- XOR. -/
def amoXor (_v : VView) (o x _y : Nat) : Nat := o ^^^ x
/-- Signed minimum. -/
def amoMin (v : VView) (o x _y : Nat) : Nat := if signedOf v.sew o ≤ signedOf v.sew x then o else x
/-- Signed maximum. -/
def amoMax (v : VView) (o x _y : Nat) : Nat := if signedOf v.sew o ≥ signedOf v.sew x then o else x
/-- Unsigned minimum. -/
def amoMinn (_v : VView) (o x _y : Nat) : Nat := min o x
/-- Unsigned maximum. -/
def amoMaxn (_v : VView) (o x _y : Nat) : Nat := max o x
/-- SWAP. -/
def amoSwap (_v : VView) (_o x _y : Nat) : Nat := x
/-- CAS. -/
def amoCas (_v : VView) (o x y : Nat) : Nat := if o = x then y else o
/-- FADD: round to nearest even, default NaN, no flag. -/
def amoFadd (v : VView) (o x _y : Nat) : Nat := (v.ff.add .rne false o x).1

/-- VAMO.ADD (R246, R247). -/
def execVamoAdd (d : VReg) (a : XReg) (ix : VReg) (cls : Cls) (m : MReg) (s : State) : Out :=
  vamo false false amoInt amoAdd d a ix cls m s

/-- VAMO.AND (R246, R247). -/
def execVamoAnd (d : VReg) (a : XReg) (ix : VReg) (cls : Cls) (m : MReg) (s : State) : Out :=
  vamo false false amoInt amoAnd d a ix cls m s

/-- VAMO.OR (R246, R247). -/
def execVamoOr (d : VReg) (a : XReg) (ix : VReg) (cls : Cls) (m : MReg) (s : State) : Out :=
  vamo false false amoInt amoOr d a ix cls m s

/-- VAMO.XOR (R246, R247). -/
def execVamoXor (d : VReg) (a : XReg) (ix : VReg) (cls : Cls) (m : MReg) (s : State) : Out :=
  vamo false false amoInt amoXor d a ix cls m s

/-- VAMO.MIN (R246, R247). -/
def execVamoMin (d : VReg) (a : XReg) (ix : VReg) (cls : Cls) (m : MReg) (s : State) : Out :=
  vamo false false amoInt amoMin d a ix cls m s

/-- VAMO.MAX (R246, R247). -/
def execVamoMax (d : VReg) (a : XReg) (ix : VReg) (cls : Cls) (m : MReg) (s : State) : Out :=
  vamo false false amoInt amoMax d a ix cls m s

/-- VAMO.MINN (R246, R247). -/
def execVamoMinn (d : VReg) (a : XReg) (ix : VReg) (cls : Cls) (m : MReg) (s : State) : Out :=
  vamo false false amoInt amoMinn d a ix cls m s

/-- VAMO.MAXN (R246, R247). -/
def execVamoMaxn (d : VReg) (a : XReg) (ix : VReg) (cls : Cls) (m : MReg) (s : State) : Out :=
  vamo false false amoInt amoMaxn d a ix cls m s

/-- VAMO.SWAP (R246, R247). -/
def execVamoSwap (d : VReg) (a : XReg) (ix : VReg) (cls : Cls) (m : MReg) (s : State) : Out :=
  vamo false false amoInt amoSwap d a ix cls m s

/-- VAMO.CAS (R246, R247). -/
def execVamoCas (d : VReg) (a : XReg) (ix : VReg) (cls : Cls) (m : MReg) (s : State) : Out :=
  vamo false true amoInt amoCas d a ix cls m s

/-- VAMO.FADD (R246, R247). -/
def execVamoFadd (d : VReg) (a : XReg) (ix : VReg) (cls : Cls) (m : MReg) (s : State) : Out :=
  vamo false false amoFloat amoFadd d a ix cls m s

/-- VAMO.F.ADD (R246, R247). -/
def execVamoFAdd (d : VReg) (a : XReg) (ix : VReg) (cls : Cls) (m : MReg) (s : State) : Out :=
  vamo true false amoInt amoAdd d a ix cls m s

/-- VAMO.F.AND (R246, R247). -/
def execVamoFAnd (d : VReg) (a : XReg) (ix : VReg) (cls : Cls) (m : MReg) (s : State) : Out :=
  vamo true false amoInt amoAnd d a ix cls m s

/-- VAMO.F.OR (R246, R247). -/
def execVamoFOr (d : VReg) (a : XReg) (ix : VReg) (cls : Cls) (m : MReg) (s : State) : Out :=
  vamo true false amoInt amoOr d a ix cls m s

/-- VAMO.F.XOR (R246, R247). -/
def execVamoFXor (d : VReg) (a : XReg) (ix : VReg) (cls : Cls) (m : MReg) (s : State) : Out :=
  vamo true false amoInt amoXor d a ix cls m s

/-- VAMO.F.MIN (R246, R247). -/
def execVamoFMin (d : VReg) (a : XReg) (ix : VReg) (cls : Cls) (m : MReg) (s : State) : Out :=
  vamo true false amoInt amoMin d a ix cls m s

/-- VAMO.F.MAX (R246, R247). -/
def execVamoFMax (d : VReg) (a : XReg) (ix : VReg) (cls : Cls) (m : MReg) (s : State) : Out :=
  vamo true false amoInt amoMax d a ix cls m s

/-- VAMO.F.MINN (R246, R247). -/
def execVamoFMinn (d : VReg) (a : XReg) (ix : VReg) (cls : Cls) (m : MReg) (s : State) : Out :=
  vamo true false amoInt amoMinn d a ix cls m s

/-- VAMO.F.MAXN (R246, R247). -/
def execVamoFMaxn (d : VReg) (a : XReg) (ix : VReg) (cls : Cls) (m : MReg) (s : State) : Out :=
  vamo true false amoInt amoMaxn d a ix cls m s

/-- VAMO.F.SWAP (R246, R247). -/
def execVamoFSwap (d : VReg) (a : XReg) (ix : VReg) (cls : Cls) (m : MReg) (s : State) : Out :=
  vamo true false amoInt amoSwap d a ix cls m s

/-- VAMO.F.CAS (R246, R247). -/
def execVamoFCas (d : VReg) (a : XReg) (ix : VReg) (cls : Cls) (m : MReg) (s : State) : Out :=
  vamo true true amoInt amoCas d a ix cls m s

/-- VAMO.F.FADD (R246, R247). -/
def execVamoFFadd (d : VReg) (a : XReg) (ix : VReg) (cls : Cls) (m : MReg) (s : State) : Out :=
  vamo true false amoFloat amoFadd d a ix cls m s

end Sys2Proof.Machine
end

