-- ==== Sys2Proof/Machine/Graver.lean ====
section
/-! DEFINITION. Graver instructions (17 R283 to R293; 08 R117, R118): loading and changing tables, running them over digit
strings, and reading the results. -/

namespace Sys2Proof.Machine

/-! ### Tables -/

/-- The number of symbols of a table (08 R117). -/
def GTable.symbols (t : GTable) : Nat := 2 ^ (if t.binary then 2 * t.w else t.w)

/-- GFAULT (05 R80). -/
def gfaultWord (slot : Fin 4) (pos sym q : Nat) : BitVec 20 :=
  BitVec.ofNat 20 (slot.val * 2 ^ 18 + pos % 64 * 2 ^ 12 + sym % 64 * 2 ^ 6 + q % 64)

/-- GRAVE with GFAULT and TVAL. -/
def graveTrap (g : BitVec 20) (tval : Word) (s : State) : Out :=
  .next ((s.modMe (fun c => { c with trap := { c.trap with gfault := g } })).deliverAt .grave s.me.pc tval)

/-- GRAVE for a slot: only GFAULT.SLOT is set. -/
def graveSlot (slot : Fin 4) (tval : Word) (s : State) : Out := graveTrap (gfaultWord slot 0 0 0) tval s

/-- TVAL of a table that cannot be used. -/
def noElement : Word := 0xFFFFFFFFFFFFFFFF

/-- The table that a header describes, without its maps and entries (08 R117). -/
def tableHead (h : List Byte) : GTable :=
  let mode := fieldOf h 0 1
  ⟨mode % 4, mode / 4 % 2 == 1, mode / 8 % 2 == 1, mode / 16 % 2 == 1, fieldOf h 1 1 % 64, fieldOf h 2 1, fieldOf h 3 1, [], []⟩

/-- The checks of a header (08 R118). -/
def GTable.headOk (t : GTable) : Bool :=
  t.w != 0 && decide (1 ≤ t.ns) && decide (t.ns ≤ 64) && decide (1 ≤ t.ndig) && decide (t.ndig ≤ 64 / t.w) && decide (t.start < t.ns)

/-- The final map of a state. -/
def GTable.finalOf (t : GTable) (q : Nat) : Nat := ((t.final[q]?).getD 0).toNat

/-- NFLUSH of a final map. -/
def nflush (f : Nat) : Nat := f / 64 % 4

/-- Halfwords in memory order. -/
def halves (n : Nat) (bs : List Byte) : List (BitVec 16) := (List.range n).map (fun i => BitVec.ofNat 16 (fieldOf bs (2 * i) 2))

/-- A table slot of a context changes. -/
def Context.setTable (c : Context) (slot : Fin 4) (t : GTable) : Context :=
  { c with vec := { c.vec with gt := c.vec.gt.set slot.val (some t) slot.isLt } }

/-- GLOAD (R285): the header is read and checked, then the rest is read, then NFLUSH is checked; the slot is replaced. -/
def execGload (slot : Fin 4) (a : XReg) (s : State) : Out :=
  threadOnly s <| readsX [a] s <|
    let va := s.rx a
    match badAddress va 8 with
    | some c => trap c va s
    | none =>
      rangeOn .p0 0 va 8 s fun head s =>
        let t := tableHead head
        if !t.headOk then graveSlot slot noElement s
        else
          let n := t.ns * t.symbols
          rangeOn .p0 0 (va + 8) (128 + 2 * n) s fun rest s =>
            let t1 := { t with final := halves 64 rest, entry := halves n (rest.drop 128) }
            if (List.range t.ns).any (fun q => nflush (t1.finalOf q) == 3) then graveSlot slot noElement s
            else (s.modMe (fun c => c.setTable slot t1)).finish

/-- The condition on xa of a GSET, and what it writes (R286). -/
def GTable.gset (t : GTable) (xa xb : Word) : Except Word GTable :=
  let i := xa.toNat % 4096
  if xa.toNat / 2 ^ 16 ≠ 0 ∨ xa.toNat / 2 ^ 12 % 8 ≠ 0 then .error xa
  else if xa.getLsbD 15 then
    if i ≥ 64 ∨ i ≥ t.ns then .error xa
    else if nflush xb.toNat = 3 then .error xb
    else .ok { t with final := t.final.set i (xb.setWidth 16) }
  else if i ≥ t.ns * t.symbols then .error xa
  else .ok { t with entry := t.entry.set i (xb.setWidth 16) }

/-- GSET (R286). -/
def execGset (slot : Fin 4) (a b : XReg) (s : State) : Out :=
  threadOnly s <| readsX [a, b] s <|
    match s.me.vec.gt[slot] with
    | none => graveSlot slot noElement s
    | some t =>
      match t.gset (s.rx a) (s.rx b) with
      | .error w => graveSlot slot w s
      | .ok t1 => (s.modMe (fun c => c.setTable slot t1)).finish

/-! ### GSV (R284) -/

/-- The GSV byte of an element. -/
def VecRegs.gsvAt (r : VecRegs) (e : Nat) : Nat := bitsAt r.gsv (8 * e) 8

/-- GSV with an element's byte replaced. -/
def setGsv (g : BitVec 16384) (e v : Nat) : BitVec 16384 :=
  (g &&& ~~~(BitVec.ofNat 16384 255 <<< (8 * e))) ||| (BitVec.ofNat 16384 (v % 256) <<< (8 * e))

/-- GSV with several bytes replaced. -/
def setGsvAll (g : BitVec 16384) (l : List (Nat × Nat)) : BitVec 16384 := l.foldl (fun g p => setGsv g p.1 p.2) g

/-- VTYPE of the Graver vector instructions (R283). -/
def VView.graver (v : VView) : Bool := v.fmt.digits && !v.tile && v.bl == 0

/-- The digit width of a digit format. -/
def Fmt.digitW : Fmt → Nat
  | .d1 => 1 | .d2 => 2 | .d3 => 3 | _ => 0

/-- A slot's table when it can be used (R283). -/
def usable (v : VView) (r : VecRegs) (slot : Fin 4) (binary : Option Bool) (width : Bool) : Option GTable :=
  match r.gt[slot] with
  | none => none
  | some t => if binary.all (fun b => t.binary == b) && (!width || t.w == v.fmt.digitW) then some t else none

/-! ### GRUN and GRUN1 (R287 to R289) -/

/-- An undefined transition: element, digit position, symbol and state. -/
structure GStop where
  elt : Nat
  pos : Nat
  sym : Nat
  q   : Nat
  deriving DecidableEq, Repr

/-- The digits of one element from a state: the result so far, or the position, symbol and state of an undefined
transition. -/
def GTable.digitsFrom (t : GTable) (a b : Nat) : List Nat → Nat → Nat → Except (Nat × Nat × Nat) (Nat × Nat)
  | [], q, r => .ok (r, q)
  | k :: ks, q, r =>
    let m := 2 ^ t.w
    let y := a / 2 ^ (t.w * k) % m + (if t.binary then b / 2 ^ (t.w * k) % m * m else 0)
    let e := ((t.entry[q * t.symbols + y]?).getD 0).toNat
    if q ≥ t.ns ∨ e / 2 ^ 15 = 0 ∨ e / 8 % 64 ≥ t.ns then .error (k, y, q)
    else t.digitsFrom a b ks (e / 8 % 64) (r + e % m * 2 ^ (t.w * k))

/-- The digit positions in the order a table reads them. -/
def GTable.order (t : GTable) : List Nat := if t.msd then (List.range t.ndig).reverse else List.range t.ndig

/-- Run a table over active elements in index order; `prev` is the state of the active element before. Answers results,
GSV bytes and where it stopped. -/
def GTable.run (t : GTable) (src : Nat → Nat × Nat) (gsv : Nat → Nat) :
    List Nat → Option Nat → List (Nat × Nat × Nat) × Option GStop
  | [], _ => ([], none)
  | i :: r, prev =>
    let q := match t.chain, prev with
      | true, some p => p
      | true, none => if gsv i / 128 = 1 then gsv i % 64 else t.start
      | false, _ => t.start
    match t.digitsFrom (src i).1 (src i).2 t.order q 0 with
    | .error (k, y, q) => ([], some ⟨i, k, y, q⟩)
    | .ok (res, q1) =>
      let rest := t.run src gsv r (some q1)
      ((i, res, q1) :: rest.1, rest.2)

/-- Results of a run are written: elements of vd and GSV bytes (log entry 38, DEDUCED). -/
def Context.commitRun (c : Context) (v : VView) (d : VReg) (l : List (Nat × Nat × Nat)) (zeros : List Nat) : Context :=
  let c1 := c.putCells false v.g d v.lmul 64 (l.map (fun p => (p.1, p.2.1)) ++ zeros.map (fun e => (e, 0))) 0
  { c1 with vec := { c1.vec with gsv := setGsvAll c1.vec.gsv (l.map (fun p => (p.1, p.2.2))) } }

/-- The active element before the first one that runs: it may lie below VBEG (R287) (log entry 38, DEDUCED). -/
def VView.beforeFirst (v : VView) (r : VecRegs) (m : MReg) : Option Nat :=
  ((List.range (min v.vbeg v.vl)).reverse).find? (fun e => r.mbit m e)

/-- GRUN and GRUN1: a pre-emption may fall between elements; an undefined transition commits the elements below it, sets VBEG to its element and traps GRAVE
(R289) (log entry 38, DEDUCED). -/
def grun (d a : VReg) (b : Option VReg) (slot : Fin 4) (m : MReg) (s : State) : Out :=
  vector false (fun v => v.graver && aligned d v.lmul && aligned a v.lmul && b.all (fun r => aligned r v.lmul)) []
    (fun v => ⟨a, v.lmul, 64⟩ :: (b.map (fun r => (⟨r, v.lmul, 64⟩ : VSrc))).toList) [m]
    (fun v r => !(v.active none r m false).isEmpty) (fun v => some (d, v.lmul)) s fun v r s =>
      let us := v.active none r m false
      let zeros := v.zeroed none r m false true false
      if us.isEmpty then .next (s.modMe (fun c => ((c.commitRun v d [] zeros).setLdv d).vdone v 0 4))
      else
        match usable v r slot (some b.isSome) true with
        | none => graveSlot slot noElement s
        | some t =>
          let src := fun i => (r.elem v a 64 i, match b with | some x => r.elem v x 64 i | none => 0)
          let w := s.me.share us
          let q := t.run src r.gsvAt w.1 ((v.beforeFirst r m).map (fun e => r.gsvAt e % 64))
          let part := fun (k : Nat) => s.modMe (fun c =>
            ({ c with quota := none } : Context).commitRun v d q.1 (zeros.filter (fun e => decide (e < k))))
          match q.2, w.2 with
          | none, none => .next (s.modMe (fun c => ((({ c with quota := none } : Context).commitRun v d q.1 zeros).setLdv d).vdone v 0 4))
          | none, some n => .next ((part n).modMe (fun c => c.boundary n))
          | some p, _ =>
            graveTrap (gfaultWord slot p.pos p.sym p.q) (BitVec.ofNat 64 p.elt) ((part p.elt).modMe (fun c => c.stopAt p.elt))

/-- GRUN (R287). -/
def execGrun (d a b : VReg) (slot : Fin 4) (m : MReg) (s : State) : Out := grun d a (some b) slot m s

/-- GRUN1 (R287). -/
def execGrun1 (d a : VReg) (slot : Fin 4) (m : MReg) (s : State) : Out := grun d a none slot m s

/-! ### GCMP, GFIN and GSTATE (R290 to R292) -/

/-- The verdict of a state: 0 for a state the table does not have. -/
def GTable.verdict (t : GTable) (q : Nat) : Nat := if q < t.ns then t.finalOf q / 256 % 8 else 0

/-- GCMP (R290). -/
def execGcmp (d : MReg) (slot : Fin 4) (k : BitVec 3) (m : MReg) (s : State) : Out :=
  vector false VView.graver [] (fun _ => []) [m] (fun v r => !(v.active none r m false).isEmpty) (fun _ => none) s fun v r s =>
    let us := v.active none r m false
    if us.isEmpty then .next (s.modMe (fun c => c.finishMask v r d m false [] 0 0 4))
    else
      match usable v r slot none false with
      | none => graveSlot slot noElement s
      | some t =>
        .next (s.modMe (fun c => c.finishMask v r d m false (us.map (fun i => (i, t.verdict (r.gsvAt i % 64) == k.toNat))) 0 0 4))

/-- An element after GFIN in a state (R291): digits below n stay, flush digits within the capacity are written, every
other bit is cleared. -/
def GTable.flush (t : GTable) (x q : Nat) : Nat :=
  let f := if q < t.ns then t.finalOf q else 0
  let put := fun (j d : Nat) => if j < 64 / t.w then d % 2 ^ t.w * 2 ^ (t.w * j) else 0
  x % 2 ^ (t.w * t.ndig) + (if nflush f ≥ 1 then put t.ndig (f % 8) else 0) + (if nflush f = 2 then put (t.ndig + 1) (f / 8 % 8) else 0)

/-- GFIN (R291). -/
def execGfin (d : VReg) (slot : Fin 4) (m : MReg) (s : State) : Out :=
  vector false (fun v => v.graver && aligned d v.lmul) [] (fun v => [⟨d, v.lmul, 64⟩]) [m]
    (fun v r => !(v.active none r m false).isEmpty) (fun v => some (d, v.lmul)) s fun v r s =>
      let us := v.active none r m false
      let zeros := v.zeroed none r m false true false
      if us.isEmpty then .next (s.modMe (fun c => c.finishCells v d [] zeros 0 0))
      else
        match usable v r slot none true with
        | none => graveSlot slot noElement s
        | some t =>
          .next (s.modMe (fun c => c.finishCells v d (us.map (fun i => (i, t.flush (r.elem v d 64 i) (r.gsvAt i % 64)))) zeros 0 0))

/-- GSTATE.R (R292): body elements of GSV, zero-extended. -/
def execGstateR (d : VReg) (s : State) : Out :=
  vector false (fun v => v.graver && aligned d v.lmul) [] (fun _ => []) [] (fun v _ => !(v.body none false).isEmpty)
    (fun v => some (d, v.lmul)) s fun v r s =>
      let us := v.body none false
      .next (s.modMe (fun c => c.finishCells v d (us.map (fun i => (i, r.gsvAt i))) (v.zeroed none r 0 false false false) 0 0))

/-- GSTATE.W (R292): SEED and STATE of body elements. -/
def execGstateW (b : VReg) (s : State) : Out :=
  vector false (fun v => v.graver && aligned b v.lmul) [] (fun v => [⟨b, v.lmul, 64⟩]) []
    (fun v _ => !(v.body none false).isEmpty) (fun _ => none) s fun v r s =>
    let l := (v.body none false).map (fun i => (i, BitVec.toNat (BitVec.ofNat 8 (r.elem v b 64 i) &&& 0xBF)))
    .next (s.modMe (fun c => ({ c with vec := { c.vec with gsv := setGsvAll c.vec.gsv l } } : Context).vdone v 0 4))

end Sys2Proof.Machine
end

