-- ==== Sys2Proof/Machine/Product.lean ====
section
/-! DEFINITION. Tuple products, window sums and accumulation in the Chest (04 R59 to R67, 16 R262, R266, R268, R269). -/

namespace Sys2Proof.Machine

/-! ### Plates (04 R66) -/

/-- The value of a cube code that is not 0x00; `none` for a code outside the table. -/
def Plate.codeVal (p : Plate) (c : Nat) : Option Val :=
  match c with
  | 1 => some (.fin false 1 0) | 2 => some (.fin true 1 0)
  | 3 => some (.fin false 2 0) | 4 => some (.fin true 2 0)
  | 5 => some (.fin false 1 (-1)) | 6 => some (.fin true 1 (-1))
  | _ =>
    let v := fmtF32.decode ((p.pool[c % 64]?).getD 0).toNat
    if 0x40 ≤ c ∧ c ≤ 0x7F then some v else if 0xC0 ≤ c ∧ c ≤ 0xFF then some v.flip else none

/-- The code T[p][q][r]. -/
def Plate.code (p : Plate) (i j r : Nat) : Nat := ((p.cube[(i * p.d + j) * p.d + r]?).getD 0).toNat

/-- The pairs (p, q) that form terms of component r, with their constants (R59). -/
def Plate.pairs (p : Plate) (r : Nat) : List (Nat × Nat × Val) :=
  (List.range p.d).flatMap (fun i => (List.range p.d).filterMap (fun j =>
    if p.code i j r = 0 then none else (p.codeVal (p.code i j r)).map (fun c => (i, j, c))))

/-- The Plate serves integer mode: its codes lie in 0x00 to 0x04 (R65). -/
def Plate.forInt (p : Plate) : Bool := p.cube.all (fun c => decide (c.toNat ≤ 4))

/-- An involution applied to a tuple (R67): a sign change and a permutation. -/
def applyInv {α : Type} (inv : List Byte) (flip : α → α) (t : List α) : List α :=
  inv.filterMap (fun b => (t[b.toNat % 16]?).map (fun v => if b.getLsbD 7 then flip v else v))

/-- INV0, or INV1 when IV = 1. -/
def Plate.inv (p : Plate) (iv : Bool) : List Byte := if iv then p.inv1 else p.inv0

/-! ### Operands (16 R262, R266) -/

/-- The pairing classes of R262: formats of one class multiply. -/
def pairClass : Fmt → Option Nat
  | .i8 => some 0 | .e4m3 | .e5m2 => some 1 | .e2m1 => some 2 | .f16 | .bf16 => some 3 | .f32 => some 4
  | _ => none

/-- The gathered format of a GF code; 0 is the register operand's. -/
def gatherFmt (reg : Fmt) : Nat → Option Fmt
  | 0 => some reg | 1 => some .i8 | 2 => some .f16 | 3 => some .bf16 | 4 => some .f32 | 5 => some .e4m3 | 6 => some .e5m2
  | 7 => some .e2m1 | _ => none

/-- Descriptors of a row record by its NB code. -/
def nbOf : Nat → Nat
  | 0 => 0 | 1 => 2 | 2 => 4 | _ => 8

/-- Elements of a row of 64 bytes. -/
def Fmt.epr (f : Fmt) : Nat := 512 / f.sew

/-- BL of gathered rows of a format (R266): `none` when it is not allowed. -/
def gatherBl (f : Fmt) (nb : Nat) : Option Nat :=
  if nbOf nb = 0 then some 0
  else
    let bl := f.epr / nbOf nb
    if f.blocks && (bl == 16 || bl == 32) then some bl else none

/-- The elements of a row; descriptors are not applied under BL none (R50). -/
def MatRow.vals (w : MatRow) (f : Fmt) (bl : Nat) : List Val :=
  (List.range f.epr).map (fun i =>
    let d := if bl = 0 then 0x807F else ((w.desc[i / bl]?).getD 0).toNat
    f.decode (d % 256) (d / 256 % 256) (bitsAt w.data (f.sew * i) f.sew))

/-- The tuples of a row, with an involution applied where one is given. -/
def MatRow.tuples (w : MatRow) (f : Fmt) (bl d : Nat) (inv : Option (List Byte)) : List (List Val) :=
  let l := w.vals f bl
  (List.range (f.epr / d)).map (fun k =>
    let t := (l.drop (k * d)).take d
    match inv with
    | some i => applyInv i Val.flip t
    | none => t)

/-! ### Terms and windows (04 R59 to R61, R65) -/

/-- A term (R60). -/
def termVal (c a b : Val) : Val := (mulVal (mulVal c a).1 b).1

/-- The terms of component r of one output element, from its pairs of tuples. -/
def termsOf (codes : List (Nat × Nat × Val)) (l : List (List Val × List Val)) : List Val :=
  l.flatMap (fun t => codes.map (fun c => termVal c.2.2 ((t.1[c.1]?).getD .zero) ((t.2[c.2.1]?).getD .zero)))

/-- A term as an integer multiple of 2^t, truncated toward zero, and whether that changed it. -/
def truncAt (t : Int) : Val → Int × Bool
  | .fin n m e =>
    if t ≤ e then (signedAt n m e t, false)
    else
      let d := 2 ^ (t - e).toNat
      (signedAt n (m / d) t t, m % d != 0)
  | _ => (0, false)

/-- A term is −0. -/
def Val.isNegZero : Val → Bool
  | .fin n m _ => n && m == 0
  | _ => false

/-- Round an exact window sum (−1)^neg × m × 2^e, m ≠ 0: a truncated term makes the result inexact (R61). -/
def roundWindow (rm : RMode) (sat neg : Bool) (m : Nat) (e : Int) (trunc : Bool) : Nat × FlagSet :=
  let r := fmtF32.roundFin rm sat neg m e
  (r.1, r.2 ||| (if trunc then flagNX else 0) ||| (if trunc && fmtF32.tiny rm neg m e then flagUF else 0))

/-- WindowSum of at least one term (R61). -/
def windowSum (rm : RMode) (sat : Bool) (terms : List Val) : Nat × FlagSet :=
  if terms.any Val.isNan || (terms.contains (.inf false) && terms.contains (.inf true)) then (fmtF32.nanCode, flagNV)
  else if terms.contains (.inf false) then (fmtF32.infCode false, 0)
  else if terms.contains (.inf true) then (fmtF32.infCode true, 0)
  else
    match topExp terms with
    | none => (fmtF32.signBit (rm == .rdn || terms.all Val.isNegZero), 0)
    | some top =>
      let t := top - 72
      let q := terms.foldl (fun (acc : Int × Bool) v =>
        let a := truncAt t v
        (acc.1 + a.1, acc.2 || a.2)) (0, false)
      if q.1 = 0 then (fmtF32.signBit (rm == .rdn), if q.2 then flagNX else 0)
      else roundWindow rm sat (decide (q.1 < 0)) q.1.natAbs t q.2

/-- The exact integer sum of a window in integer mode (R65). -/
def windowInt (terms : List Val) : Int := terms.foldl (fun acc v => acc + (truncAt 0 v).1) 0

/-- How a multiply computes: integer mode, the rounding mode of its snapshot and its SAT. -/
structure MulMode where
  int : Bool
  rm  : RMode
  sat : Bool
  deriving DecidableEq, Repr

/-- A window's result as the word to accumulate, and its flags. -/
def MulMode.window (k : MulMode) (terms : List Val) : Word × FlagSet :=
  if k.int then (BitVec.ofInt 64 (windowInt terms), 0)
  else
    let r := windowSum k.rm k.sat terms
    (BitVec.ofNat 64 r.1, r.2)

/-- The pair index of row m and column c of a tile. -/
def pairIdx (q : Fin 8) (m c : Nat) : Nat := 32768 * q.val + 256 * m + c

/-- The windows of an output element: for each component with terms, its pair and result (R61, R268). -/
def MulMode.element (k : MulMode) (p : Plate) (at_ : Nat) (l : List (List Val × List Val)) : List (Nat × Word × FlagSet) :=
  if l.isEmpty then []
  else (List.range p.d).filterMap (fun r =>
    let codes := p.pairs r
    if codes.isEmpty then none else some (at_ + r, k.window (termsOf codes l)))

/-- The sum of gathered by register rows (R268): left row m and register row n, from register row `n0` on. -/
def MulMode.gr (k : MulMode) (p : Plate) (q : Fin 8) (cb : Nat) (g r : List (List (List Val))) (n0 : Nat) :
    List (Nat × Word × FlagSet) :=
  g.zipIdx.flatMap (fun a => r.zipIdx.flatMap (fun b =>
    k.element p (pairIdx q a.2 (32 * cb + (n0 + b.2) * p.d)) (a.1.zip b.1)))

/-- The sum over register rows of register tuples by gathered tuples (R269). -/
def MulMode.rg (k : MulMode) (p : Plate) (q : Fin 8) (cb kt : Nat) (g r : List (List (List Val))) :
    List (Nat × Word × FlagSet) :=
  (List.range kt).flatMap (fun m => (List.range kt).flatMap (fun n =>
    k.element p (pairIdx q m (32 * cb + n * p.d)) ((r.zip g).map (fun w => ((w.1[m]?).getD [], (w.2[n]?).getD [])))))

/-! ### The Chest (04 R63, R65) -/

/-- TwoSum: the pair (s, c) after t is added, and its flags (R63). -/
def twoSum (sat : Bool) (s c t : Nat) : (Nat × Nat) × FlagSet :=
  let add := fun a b => (fmtF32.add .rne false a b).1
  let sub := fun a b => (fmtF32.sub .rne false a b).1
  let vs := fmtF32.decode s
  let vt := fmtF32.decode t
  let s1 := add s t
  let finite := fun v : Val => !v.nonFinite
  let fl : FlagSet := match vs, vt with
    | .inf p, .inf q => if p = q then 0 else flagNV
    | _, _ => if finite vs && finite vt && (fmtF32.decode s1).nonFinite then flagOF else 0
  if finite (fmtF32.decode s1) then
    let z := sub s1 s
    let e := add (sub s (sub s1 z)) (sub t z)
    ((s1, add c e), fl)
  else if sat && finite vs && finite vt then ((fmtF32.maxCode (fmtF32.decode s1).neg, 0), fl)
  else ((s1, 0), fl)

/-- A pair after a window's result is added to it (R63, R65). -/
def MulMode.accumulate (k : MulMode) (pair t : Word) : Word × FlagSet :=
  if k.int then (pair + t, 0)
  else
    let r := twoSum k.sat (pair.toNat % 2 ^ 32) (pair.toNat / 2 ^ 32) t.toNat
    (BitVec.ofNat 64 (r.1.2 * 2 ^ 32 + r.1.1), r.2)

/-- The pairs of the Chest outside a tile: MZERO and Z (R69, R274). -/
def chestZero (q : Fin 8) (l : List (Nat × BitVec 64)) : List (Nat × BitVec 64) := l.filter (fun p => p.1 / 32768 != q.val)

/-- Apply window results, in rising order of pairs, to the Chest. -/
def chestSteps (f : Word → Word → Word × FlagSet) : List (Nat × BitVec 64) → List (Nat × Word) → List (Nat × BitVec 64) × FlagSet
  | ch, [] => (ch, 0)
  | ch, (k, t) :: r =>
    let lo := ch.takeWhile (fun p => decide (p.1 < k))
    let hi := ch.dropWhile (fun p => decide (p.1 < k))
    let old := match hi with | (a, b) :: _ => if a = k then b else 0 | [] => 0
    let rest := match hi with | (a, b) :: h => if a = k then h else (a, b) :: h | [] => []
    let n := f old t
    let q := chestSteps f rest r
    (lo ++ (if n.1 = 0 then q.1 else (k, n.1) :: q.1), n.2 ||| q.2)

/-- A pair of the Chest. -/
def chestGet (l : List (Nat × BitVec 64)) (q : Fin 8) (m c : Nat) : BitVec 64 :=
  match l.find? (fun p => p.1 == pairIdx q m c) with
  | some p => p.2
  | none => 0

end Sys2Proof.Machine
end

