-- ==== Sys2Proof/Machine/Matrix.lean ====
section
/-! DEFINITION. Matrix instructions (16 R261 to R281; 07 R102, R103; 08 R114 to R116): entry into the matrix queue, PLOAD, the
engine's steps, and the control threads' TDRAIN and TFILL. -/

namespace Sys2Proof.Machine

/-! ### Entering the queue (R261, 07 R102) -/

/-- A Plate slot commits its shadow (08 R115). -/
def PlateSlot.commit (p : PlateSlot) : PlateSlot := match p.shadow with | some i => ⟨some i, none⟩ | none => p

/-- An entry joins the matrix queue, which holds at most eight; a full queue stalls the Bureau. -/
def enter (op : MatOp) (slot : Option (Fin 4)) (a b : Word) (s : State) : Out :=
  if s.myCluster.mq.length ≥ 8 then .next s
  else
    let plates := match slot with
      | some i => s.myCluster.plates.set i.val ((s.myCluster.plates[i]).commit) i.isLt
      | none => s.myCluster.plates
    let e : MatEntry := ⟨op, s.insWord.setWidth 32, s.me.pc, a, b, slot.bind (fun i => (plates[i]).committed), none⟩
    (s.modCluster s.me.cl (fun c => { c with plates := plates, mq := c.mq ++ [e] })).finish

/-- GATH (R264). -/
def execGath (l : Fin 2) (a b : XReg) (s : State) : Out :=
  bureauOnly s <| readsX [a, b] s <| enter (.gath l) none (s.rx a) (s.rx b) s

/-- MMA.GR (R267, R268). -/
def execMmaGr (l : Fin 2) (q : Fin 8) (h : Fin 32) (slot : Fin 4) (cb : Fin 8) (z sat cg cr iv : Bool) (s : State) : Out :=
  bureauOnly s <| enter (.gr l ⟨q, h, slot, cb, z, sat, cg, cr, iv⟩) (some slot) 0 0 s

/-- MMA.RG (R267, R269). -/
def execMmaRg (l : Fin 2) (q : Fin 8) (h : Fin 32) (slot : Fin 4) (cb : Fin 8) (z sat cg cr iv : Bool) (s : State) : Out :=
  bureauOnly s <| enter (.rg l ⟨q, h, slot, cb, z, sat, cg, cr, iv⟩) (some slot) 0 0 s

/-- MMAG (R272). -/
def execMmag (a : XReg) (q : Fin 8) (h : Fin 32) (slot : Fin 4) (cb : Fin 8) (z sat cg cr iv : Bool) (s : State) : Out :=
  bureauOnly s <| readsX [a] s <| enter (.mmag ⟨q, h, slot, cb, z, sat, cg, cr, iv⟩) (some slot) (s.rx a) 0 s

/-- MZERO (R274). -/
def execMzero (q : Fin 8) (s : State) : Out := bureauOnly s <| enter (.mzero q) none 0 0 s

/-- MWAIT (R275): waits until the queue holds at most n entries. -/
def execMwait (n : Fin 8) (s : State) : Out :=
  bureauOnly s <| if s.myCluster.mq.length ≤ n.val then s.finish else .next s

/-! ### PLOAD (R277; 04 R66; 08 R114) -/

/-- D lies in its set. -/
def plateDim (d : Nat) : Bool := d == 1 || d == 2 || d == 4 || d == 8 || d == 16

/-- The Plate of an image whose D lies in its set. -/
def plateOf (img : List Byte) : Plate :=
  let d := fieldOf img 0 1
  { d := d, kind := BitVec.ofNat 8 (fieldOf img 1 1), inv0 := (img.drop 16).take d, inv1 := (img.drop 32).take d
    pool := (List.range 64).map (fun i => BitVec.ofNat 32 (fieldOf img (64 + 4 * i) 4)), cube := (img.drop 320).take (d * d * d) }

/-- The byte offset of the first field that fails the checks of R66, in offset order. -/
def Plate.firstBad (p : Plate) : Option Nat :=
  let bad := fun (at_ step : Nat) (l : List Bool) => (l.zipIdx.find? (fun q => q.1)).map (fun q => at_ + step * q.2)
  let src := fun b : Byte => decide (p.d ≤ b.toNat % 16)
  (bad 16 1 (p.inv0.map src)).or <| (bad 32 1 (p.inv1.map src)).or <|
    (bad 64 4 (p.pool.map (fun w => (fmtF32.decode w.toNat).nonFinite))).or <|
      bad 320 1 (p.cube.map (fun c => c != 0 && (p.codeVal c.toNat).isNone))

/-- PLOAD (R277): alignment, the reads, then the checks with the offset of the first failing field in TVAL; the shadow is
written. -/
def execPload (slot : Fin 4) (a : XReg) (s : State) : Out :=
  bureauOnly s <| readsX [a] s <|
    let va := s.rx a
    match badAddress va 16 with
    | some c => trap c va s
    | none =>
      rangeOn .p0 0 va 320 s fun head s =>
        let d := fieldOf head 0 1
        if !plateDim d then trap .plate 0 s
        else rangeOn .p0 0 (va + 320) (d * d * d) s fun cube s =>
          let p := plateOf (head ++ cube)
          match p.firstBad with
          | some off => trap .plate (BitVec.ofNat 64 off) s
          | none => (s.modCluster s.me.cl (fun c =>
              { c with plates := c.plates.set slot.val { c.plates[slot] with shadow := some p } slot.isLt })).finish

/-! ### What the engine reads (R263, R265) -/

/-- The Bureau context of a cluster. -/
def State.bureauOf (s : State) (cl : Fin 64) : Option Context := (s.clusters[cl]).bureau.bind s.context

/-- Bytes that the engine reads on P2 for a Bureau: from the scratchpad space only. -/
def State.engineRead (s : State) (b : Context) (va : Word) (n : Nat) : Except (Cause × Word) (List Byte) :=
  if !isPadVa va then .error (.prot, va) else s.loadVa (b.obs .p2) b.party va n

/-- A row record (R265, R239): in the scratchpad space, aligned, its data and descriptors; a descriptor above NB is the reset
one. -/
def State.readRecord (s : State) (b : Context) (va : Word) (nb : Nat) : Except (Cause × Word) MatRow :=
  if field va.toNat 55 9 ≠ 0 ∨ !isPadVa va then .error (.prot, va)
  else if va.toNat % (if nbOf nb = 0 then 64 else 8) ≠ 0 then .error (.align, va)
  else
    match s.engineRead b va (64 + 4 * nbOf nb) with
    | .error e => .error e
    | .ok bs => .ok ⟨BitVec.ofNat 512 (ofBytes (bs.drop (4 * nbOf nb))),
        (List.range 8).map (fun k => if k < nbOf nb then BitVec.ofNat 32 (fieldOf bs (4 * k) 4 % 2 ^ 17) else descReset)⟩

/-- Records one after another; the first fault ends the reading. -/
def readAll {α : Type} (f : α → Except (Cause × Word) MatRow) : List α → Except (Cause × Word) (List MatRow)
  | [] => .ok []
  | a :: r =>
    match f a with
    | .error e => .error e
    | .ok w =>
      match readAll f r with
      | .error e => .error e
      | .ok ws => .ok (w :: ws)

/-- The record that index entry i of a GATH names (R265). -/
def State.gatherRow (s : State) (b : Context) (xa : Word) (nb i : Nat) : Except (Cause × Word) MatRow :=
  match s.engineRead b (xa + BitVec.ofNat 64 (4 * i)) 4 with
  | .error e => .error e
  | .ok bs =>
    let e := ofBytes bs
    let va : Word := BitVec.ofNat 64 (0x7E * 2 ^ 48 + e % 2 ^ 28)
    if e / 2 ^ 28 ≠ 0 then .error (.prot, va) else s.readRecord b va nb

/-- A row of a latch. -/
def Latch.row (l : Latch) (i : Nat) : MatRow :=
  ⟨BitVec.ofNat 512 (bitsAt l.rows (512 * i) 512), (List.range 8).map (fun k => BitVec.ofNat 32 (bitsAt l.desc (256 * i + 32 * k) 32))⟩

/-- The descriptors of a row as one value. -/
def MatRow.descBits (w : MatRow) : Nat := ofBytes (w.desc.flatMap (fun d => toBytes 4 d.toNat))

/-- A latch after a GATH of some rows: rows above them keep their contents (log entry 37, DEDUCED). -/
def Latch.load (l : Latch) (ws : List MatRow) (m : Nat) (gf nb : Nat) : Latch where
  rows := BitVec.ofNat 65536 ((l.rows.toNat / 2 ^ (512 * ws.length)) * 2 ^ (512 * ws.length) +
    (ws.foldr (fun w acc => acc * 2 ^ 512 + w.data.toNat) 0))
  desc := BitVec.ofNat 32768 ((l.desc.toNat / 2 ^ (256 * ws.length)) * 2 ^ (256 * ws.length) +
    (ws.foldr (fun w acc => acc * 2 ^ 256 + w.descBits) 0))
  m := BitVec.ofNat 8 m
  gf := BitVec.ofNat 3 gf
  nb := BitVec.ofNat 2 nb

/-- The row of a latch that a 64-bit piece lies in: 1,024 pieces of data, then the descriptors' (06 R96). -/
def latchPieceRow (k : Nat) : Nat := if k < 1024 then k / 8 else (k - 1024) / 4

/-- A latch holds a poisoned piece in its first rows. -/
def Cluster.latchBad (c : Cluster) (l : Fin 2) (rows : Nat) : Bool :=
  c.latchPoison.any (fun p => p.1 == l.val && decide (latchPieceRow p.2 < rows))

/-- A tile row of a published group, at the publishing thread's placement (R263). -/
def VecRegs.tileRow (r : VecRegs) (v : VView) (a : VReg) (j : Nat) : MatRow where
  data := BitVec.ofNat 512 (ofBytes ((List.range 8).flatMap (fun i => toBytes 8 (r.elem v a 64 (8 * j + i)))))
  desc := if v.bl = 0 then [] else (List.range (v.per / v.bl)).map (fun k => r.desc v a (j * (v.per / v.bl) + k))

/-- A published tile row holds a poisoned piece, of its data or of its descriptors. -/
def Context.tileBad (c : Context) (v : VView) (a : VReg) (rows : Nat) : Bool :=
  (!c.vpoison.isEmpty && (List.range (8 * rows)).any (fun e =>
    let p := placeOf true v.g 64 e
    c.vpoison.contains (regAt a p.1, p.2 / 64))) ||
  (!c.shpoison.isEmpty && v.bl != 0 && (List.range (rows * (v.per / v.bl))).any (fun b =>
    let p := descPlace true v.g v.sew v.bl b
    c.shpoison.contains (regAt a p.1, p.2 / 2)))

/-! ### Starting an entry (R261) -/

/-- What starting an entry comes to; a fault of a memory access has its address. -/
inductive EngineStart
  | wait
  | fault (k : Cause) (va : Option Word)
  | go (r : MatRun)

/-- What a started entry holds when nothing else is said. -/
def MatRun.plain : MatRun := ⟨none, [], false, [], 0, 0, 0, 0, [], 0, false, true, 0⟩

/-- GATH starts (R264, R265): SHAPE for its row word, then its reads; nothing is written if any row faults. -/
def State.startGath (s : State) (b : Context) (l : Fin 2) (xa xb : Word) : EngineStart :=
  let m := xb.toNat % 256
  let nb := xb.toNat / 256 % 4
  if m > 128 ∨ xb.toNat / 2 ^ 19 ≠ 0 ∨ xb.toNat / 2 ^ 10 % 2 ^ 6 ≠ 0 then .fault .shape none
  else if field xa.toNat 55 9 ≠ 0 ∨ !isPadVa xa then .fault .prot none
  else if xa.toNat % 4 ≠ 0 then .fault .align none
  else
    match readAll (s.gatherRow b xa nb) (List.range m) with
    | .error (k, va) => .fault k (some va)
    | .ok ws => .go { MatRun.plain with latch := some ((s.clusters[b.cl].latches[l]).load ws m (xb.toNat / 2 ^ 16 % 8) nb) }

/-- The formats of a multiply: gathered format and BL, when the pairing, BL, TDIM and integer mode allow it (R262, R266,
R270); what needs the Plate is left out without one (R261). -/
def mulFormats (v : VView) (plate : Option Plate) (gf nb : Nat) : Option (Fmt × Nat) :=
  match gatherFmt v.fmt gf with
  | none => none
  | some f =>
    match pairClass v.fmt, pairClass f, gatherBl f nb with
    | some a, some c, some bl =>
      if a = c && (match plate with | some p => v.tdim == p.d && (a != 0 || p.forInt) | none => true) then some (f, bl) else none
    | _, _, _ => none

/-- The publisher of a flag and the snapshot's view at its placement. -/
def State.snapshot (s : State) (h : HFlag) : Option (Context × VView) :=
  match h.setter.bind s.context with
  | none => none
  | some c => (viewOf h.vtype (groupCount c.groups) h.vl.toNat 0).map (fun v => (c, v))

/-- The mode of a multiply (R262). -/
def mulMode (v : VView) (c : MxCtl) : MulMode := ⟨v.fmt == .i8, v.rm, c.sat⟩

/-- Tuples of the register rows and of gathered rows; in integer mode descriptors are not applied (04 R65). -/
def regTuples (v : VView) (c : MxCtl) (p : Plate) (ws : List MatRow) : List (List (List Val)) :=
  ws.map (fun w => w.tuples v.fmt (if v.fmt = .i8 then 0 else v.bl) p.d (if c.cr then some (p.inv c.iv) else none))

/-- As `regTuples`, for gathered rows. -/
def gatherTuples (v : VView) (c : MxCtl) (p : Plate) (f : Fmt) (bl : Nat) (ws : List MatRow) : List (List (List Val)) :=
  ws.map (fun w => w.tuples f (if v.fmt = .i8 then 0 else bl) p.d (if c.cg then some (p.inv c.iv) else none))

/-- Split window results into the steps and their joined flags. -/
def MatRun.withSteps (r : MatRun) (l : List (Nat × Word × FlagSet)) : MatRun :=
  { r with steps := l.map (fun q => (q.1, q.2.1)), ff := l.foldl (fun f q => f ||| q.2.2) 0 }

/-- MMA.GR or MMA.RG starts (R263, R268 to R270): its flag is full; HANDOFF, SHAPE, PLATE, POISON; then all operands are
read and every window summed. -/
def State.startMul (s : State) (b : Context) (rg : Bool) (l : Fin 2) (c : MxCtl) (plate : Option Plate) : EngineStart :=
  let k := s.clusters[b.cl]
  let h := k.hf[c.h]
  let lt := k.latches[l]
  if !h.full then .wait
  else if !h.grp then .fault .handoff none
  else
    match s.snapshot h with
    | none => .fault .handoff none
    | some (pub, v) =>
      let n := v.vl
      match mulFormats v plate lt.gf.toNat lt.nb.toNat with
      | none => .fault .shape none
      | some (f, bl) =>
        if !v.tile || (if rg then decide (32 * c.cb.val + v.fmt.epr > 256) || decide (n > lt.m.toNat)
            else plate.any (fun p => decide (32 * c.cb.val + n * p.d > 256))) then .fault .shape none
        else
          match plate with
          | none => .fault .plate none
          | some p =>
            let m := if rg then n else lt.m.toNat
            if k.latchBad l m || pub.tileBad v h.base n then .fault .poison none
            else
              let g := gatherTuples v c p f bl ((List.range m).map lt.row)
              let r := regTuples v c p ((List.range n).map (pub.vec.tileRow v h.base))
              let mode := mulMode v c
              .go ({ MatRun.plain with freed := false, int := mode.int }.withSteps
                (if rg then mode.rg p c.q c.cb.val (v.fmt.epr / p.d) g r else mode.gr p c.q c.cb.val g r 0))

/-- The groups of an MMAG table. -/
def mmagGroups (n : Nat) (tab : List Byte) : List MmagGroup :=
  (List.range n).map (fun j => ⟨fieldOf tab (16 * j) 4, fieldOf tab (16 * j + 4) 4, BitVec.ofNat 64 (fieldOf tab (16 * j + 8) 8)⟩)

/-- Two groups with rows share one (R273). -/
def MmagGroup.meets (a b : MmagGroup) : Bool :=
  a.count != 0 && b.count != 0 && decide (a.first < b.first + b.count) && decide (b.first < a.first + a.count)

/-- Some two groups of a list share a row. -/
def groupsMeet : List MmagGroup → Bool
  | [] => false
  | g :: r => r.any g.meets || groupsMeet r

/-- The SHAPE conditions of an MMAG table (R273, check 5). -/
def mmagShape (v : VView) (p : Plate) (head : List Byte) (gs : List MmagGroup) : Bool :=
  decide (fieldOf head 0 4 ≤ 256) && decide (fieldOf head 4 4 ≤ 128) && decide (fieldOf head 9 1 < 4) && fieldOf head 10 6 == 0 &&
    gs.all (fun g => g.count == 0 || decide (g.first + g.count ≤ v.vl)) && !groupsMeet gs &&
    (mulFormats v (some p) (fieldOf head 8 1) (fieldOf head 9 1)).isSome

/-- MMAG starts (R273): the checks in their order; then its register rows are read. -/
def State.startMmag (s : State) (b : Context) (c : MxCtl) (plate : Option Plate) (xt : Word) : EngineStart :=
  let h := (s.clusters[b.cl]).hf[c.h]
  if !h.full then .wait
  else if !h.grp then .fault .handoff none
  else
    match s.snapshot h with
    | none => .fault .handoff none
    | some (pub, v) =>
      if !v.tile || plate.any (fun p => v.tdim != p.d || decide (32 * c.cb.val + v.vl * p.d > 256)) then .fault .shape none
      else
        match plate with
        | none => .fault .plate none
        | some p =>
          if field xt.toNat 55 9 ≠ 0 ∨ !isPadVa xt then .fault .prot none
          else if xt.toNat % 16 ≠ 0 then .fault .align none
          else
            match s.engineRead b xt 16 with
            | .error (k, va) => .fault k (some va)
            | .ok head =>
              let gn := fieldOf head 0 4
              match if gn ≤ 256 then s.engineRead b (xt + 16) (16 * gn) else .ok [] with
              | .error (k, va) => .fault k (some va)
              | .ok tab =>
                let gs := mmagGroups (if gn ≤ 256 then gn else 0) tab
                if !mmagShape v p head gs then .fault .shape none
                else if pub.tileBad v h.base v.vl then .fault .poison none
                else .go { MatRun.plain with
                  freed := false
                  int := v.fmt == .i8
                  regs := (List.range v.vl).map (pub.vec.tileRow v h.base)
                  vtype := h.vtype
                  gm := fieldOf head 4 4
                  gf := fieldOf head 8 1
                  nb := fieldOf head 9 1
                  groups := gs }

/-- An entry starts (log entry 37, DEDUCED). -/
def State.startEntry (s : State) (b : Context) (e : MatEntry) : EngineStart :=
  match e.op with
  | .gath l => s.startGath b l e.a e.b
  | .gr l c => s.startMul b false l c e.plate
  | .rg l c => s.startMul b true l c e.plate
  | .mmag c => s.startMmag b c e.plate e.a
  | .mzero _ => .go MatRun.plain

/-- A started entry holds the next one back: an MMAG may still fault and discard it, a GATH has not yet written the latch
that it reads, and one that has not yet emptied the flag both name still holds its publication (R263)
(log entry 37, DEDUCED). -/
def MatEntry.holds (e next : MatEntry) : Bool :=
  (e.run.any (fun r => !r.freed) && e.flag.isSome && e.flag == next.flag) ||
  match e.op, next.op with
  | .mmag _, _ => true
  | .gath l, .gr k _ => l == k
  | .gath l, .rg k _ => l == k
  | _, _ => false

/-- A fault of a queued instruction is delivered to its Bureau (07 R103): the queue is empty, TVAL holds the instruction's
address and EPC that of the next instruction; a Bureau that waits for a page takes the trap instead
(log entry 37, DEDUCED). A poisoned datum is logged by its own address, if it has one (18 R295). -/
def State.matrixFault (s : State) (b : Context) (k : Cause) (at_ : Word) (va : Option Word) : State :=
  let old := s.me.uid
  let s1 := (s.modCluster b.cl (fun c => { c with mq := [] })).focus b.uid
  let s2 := s1.modMe (fun c => if c.status = .waitingPage then { c with status := .running } else c)
  let s3 := if k = .poison then (match va with | some a => s2.logPoison a | none => s2.logDatum) else s2
  (s3.deliverAt k s3.me.pc at_).focus old

/-- Change the entries of a cluster's queue. -/
def State.setMq (s : State) (cl : Fin 64) (l : List MatEntry) : State := s.modCluster cl (fun c => { c with mq := l })

/-- MATRIX_START (R261, 07 R102): the first entry that has not started starts, in queue order, once its flag is full. A
start that faults does so when the entries before it are complete. -/
def execMatrixStart (cl : Fin 64) (s : State) : Out :=
  match s.bureauOf cl with
  | none => .next s
  | some b =>
    let q := (s.clusters[cl]).mq
    let on := q.takeWhile (fun e => e.run.isSome)
    match q.dropWhile (fun e => e.run.isSome) with
    | [] => .next s
    | e :: r =>
      if on.any (fun d => d.holds e) then .next s
      else
        match s.startEntry b e with
        | .wait => .next s
        | .fault k va => if on.isEmpty then .next (s.matrixFault b k e.addr va) else .next s
        | .go m => .next (s.setMq cl (on ++ { e with run := some m } :: r))

/-- Change the entry in progress at a place of the queue. -/
def MatEntry.modRun (e : MatEntry) (f : MatRun → MatRun) : MatEntry := { e with run := e.run.map f }

/-- HANDOFF_FLAG_EMPTIED (R263): after its register rows are read, the oldest started entry whose flag is still full empties
it; the other fields stay. -/
def execHandoffFlagEmptied (cl : Fin 64) (s : State) : Out :=
  let q := (s.clusters[cl]).mq
  match q.findIdx? (fun e => e.run.any (fun r => !r.freed)) with
  | none => .next s
  | some i =>
    match (q[i]?).bind MatEntry.flag with
    | none => .next s
    | some f =>
      .next ((s.setFlag cl f { (s.clusters[cl]).hf[f] with full := false }).setMq cl
        (q.modify i (fun e => e.modRun (fun r => { r with freed := true }))))

/-- Flags go to the FFLAGS of a context (03 R58). -/
def State.orFlags (s : State) (uid : Nat) (f : FlagSet) : State :=
  s.modContext uid (fun c => { c with flags := { c.flags with ff := c.flags.ff ||| f } })

/-- Apply window results to the Chest of a cluster; answers the flags. -/
def State.chestApply (s : State) (cl : Fin 64) (k : MulMode) (l : List (Nat × Word)) : State × FlagSet :=
  let r := chestSteps k.accumulate (s.clusters[cl]).chest l
  (s.modCluster cl (fun c => { c with chest := r.1 }), r.2)

/-- Z and MZERO: every pair of a tile becomes (+0, +0). -/
def State.zeroTile (s : State) (cl : Fin 64) (q : Fin 8) : State :=
  s.modCluster cl (fun c => { c with chest := chestZero q c.chest
                                     chestPoison := c.chestPoison.filter (fun i => i / 32768 != q.val) })

/-- Some pair that window results would be added to is poisoned (06 R96). -/
def State.chestBad (s : State) (cl : Fin 64) (l : List (Nat × Word)) : Bool :=
  !(s.clusters[cl]).chestPoison.isEmpty && l.any (fun p => (s.clusters[cl]).chestPoison.contains p.1)

/-- The rows of a group of an MMAG. -/
def State.groupRows (s : State) (b : Context) (r : MatRun) (g : MmagGroup) : Except (Cause × Word) (List MatRow) :=
  readAll (fun i =>
    s.readRecord b (g.gbase + BitVec.ofNat 64 (i * (64 + 4 * nbOf r.nb))) r.nb) (List.range r.gm)

/-- The windows of a group of an MMAG (R273). -/
def MatRun.groupSteps (r : MatRun) (c : MxCtl) (p : Plate) (g : MmagGroup) (ws : List MatRow) : List (Nat × Word × FlagSet) :=
  match viewOf r.vtype 1 r.regs.length 0 with
  | none => []
  | some v =>
    match mulFormats v (some p) r.gf r.nb with
    | none => []
    | some (f, bl) =>
      (mulMode v c).gr p c.q c.cb.val (gatherTuples v c p f bl ws) (regTuples v c p ((r.regs.drop g.first).take g.count)) g.first

/-- One more group of an MMAG has run: MGDONE counts it (09 R135) (log entry 37, DEDUCED). -/
def State.groupDone (s : State) (cl : Fin 64) (ff : FlagSet) : State :=
  s.modCluster cl (fun c => { c with
    mgdone := c.mgdone + 1
    mq := c.mq.modify 0 (fun e => e.modRun (fun r => { r with done := r.done + 1, ff := r.ff ||| ff })) })

/-- The Z of an MMAG, before its first group. -/
def State.mmagZero (s : State) (cl : Fin 64) (c : MxCtl) (r : MatRun) : State :=
  if r.zeroed then s
  else (if c.z then s.zeroTile cl c.q else s).modCluster cl (fun k => { k with mq := k.mq.modify 0 (fun e => e.modRun (fun r => { r with zeroed := true })) })

/-- MMAG_GROUP_COMPLETE (R273): the MMAG at the head of the queue runs its next group; a fault discards it and the younger
entries, and the groups before it stand. -/
def execMmagGroupComplete (cl : Fin 64) (s : State) : Out :=
  match s.bureauOf cl, (s.clusters[cl]).mq with
  | some b, ⟨.mmag c, _, at_, _, _, some p, some r⟩ :: _ =>
    if !r.freed then .next s
    else
      match r.groups[r.done]? with
      | none => .next s
      | some g =>
        let s1 := s.mmagZero cl c r
        if g.count = 0 then .next (s1.groupDone cl 0)
        else
          match s1.groupRows b r g with
          | .error (k, va) => .next (s1.matrixFault b k at_ (some va))
          | .ok ws =>
            let l := r.groupSteps c p g ws
            let mode : MulMode := ⟨r.int, .rne, c.sat⟩
            if s1.chestBad cl (l.map (fun w => (w.1, w.2.1))) then .next (s1.matrixFault b .poison at_ none)
            else
            let q := s1.chestApply cl mode (l.map (fun w => (w.1, w.2.1)))
            .next (q.1.groupDone cl (l.foldl (fun f w => f ||| w.2.2) q.2))
  | _, _ => .next s

/-- The Z of a multiply, before its first TwoSum step. -/
def State.zeroFirst (s : State) (cl : Fin 64) (c : MxCtl) (r : MatRun) : State := if c.z && !r.zeroed then s.zeroTile cl c.q else s

/-- One TwoSum step of the multiply at the head of a queue, the i-th of those left: threads may read and write Chest tiles
between its steps (06 R92). -/
def State.engineStep (s : State) (cl : Fin 64) (i : Nat) : State :=
  match (s.clusters[cl]).mq with
  | e :: _ =>
    match e.op, e.run with
    | .gr _ c, some r | .rg _ c, some r =>
      match r.steps[i]? with
      | none => s
      | some p =>
        let s1 := s.zeroFirst cl c r
        if s1.chestBad cl [p] then s
        else
          let q := s1.chestApply cl ⟨r.int, .rne, c.sat⟩ [p]
          q.1.setMq cl ((q.1.clusters[cl]).mq.modify 0 (fun e => e.modRun (fun r =>
            { r with steps := r.steps.eraseIdx i, ff := r.ff ||| q.2, zeroed := true })))
    | _, _ => s
  | [] => s

/-- An entry leaves the queue with everything it writes (07 R102, R268, R271), or a poisoned Chest pair faults it:
`none` while it cannot (log entry 37, DEDUCED). -/
def State.completeEntry (s : State) (b : Context) (i : Nat) (e : MatEntry) : Option State :=
  match e.run with
  | none => none
  | some r =>
    let s1 := s.modCluster b.cl (fun c => { c with mq := c.mq.eraseIdx i })
    if !r.freed then none
    else
      match e.op with
      | .gath l => r.latch.map (fun t => s1.modCluster b.cl (fun c =>
          { c with latches := c.latches.set l.val t l.isLt
                   latchPoison := c.latchPoison.filter (fun p => !(p.1 == l.val && decide (latchPieceRow p.2 < t.m.toNat))) }))
      | .gr _ c | .rg _ c =>
        let s2 := s1.zeroFirst b.cl c r
        if s2.chestBad b.cl r.steps then some (s.matrixFault b .poison e.addr none)
        else
          let q := s2.chestApply b.cl ⟨r.int, .rne, c.sat⟩ r.steps
          some (q.1.orFlags b.uid (r.ff ||| q.2))
      | .mmag c =>
        if r.done < r.groups.length then none
        else some ((s1.zeroFirst b.cl c r).orFlags b.uid r.ff)
      | .mzero q => some (s1.zeroTile b.cl q)

/-- MATRIX_COMPLETE (07 R102, R271): the oldest entry completes; a GATH behind entries that have all started may complete
before them, by a free choice. -/
def execMatrixComplete (cl : Fin 64) (s : State) : Out :=
  match s.bureauOf cl with
  | none => .next s
  | some b =>
    let q := (s.clusters[cl]).mq
    let i := match q.findIdx? (fun e => e.run.any (fun r => r.latch.isSome)) with
      | some j => if Config.choice s.freeCtr then j else 0
      | none => 0
    match q[i]? with
    | none => .next s
    | some e => .next ((s.tick.completeEntry b i e).getD s.tick)

/-! ### TDRAIN and TFILL (R278 to R281) -/

/-- The Bureau context of the thread's cluster, if it belongs to the thread's launch. -/
def State.ownBureau (s : State) : Bool :=
  match s.bureauOf s.me.cl with
  | some b => b.launch == s.me.launch
  | none => false

/-- Fields of xp: first row, first column, and whether other bits are zero (R278). -/
def xpRow (x : Word) : Nat := x.toNat % 128
/-- The first column. -/
def xpCol (x : Word) : Nat := x.toNat / 256 % 256
/-- No bit beside the fields is set. -/
def xpOk (x : Word) : Bool := x &&& ~~~0xFF7F == 0

/-- The Chest row and column of element k of row j of a drain (R279). -/
def drainPlace (t : Bool) (row0 col0 d j k : Nat) : Nat × Nat :=
  if t then (row0 + k / d, col0 + j * d + k % d) else (row0 + j, col0 + k)

/-- The pairs of row j of a drain, with an involution where one is applied (R279). -/
def drainRow (ch : List (Nat × BitVec 64)) (q : Fin 8) (t : Bool) (row0 col0 d epr j : Nat) (inv : Option (List Byte)) :
    List (BitVec 64) :=
  let l := (List.range epr).map (fun k =>
    let p := drainPlace t row0 col0 d j k
    chestGet ch q p.1 p.2)
  match inv with
  | none => l
  | some i => (List.range (epr / d)).flatMap (fun u => applyInv i (fun p => p ^^^ 0x8000000080000000) ((l.drop (u * d)).take d))

/-- One drained element outside block scaling (R279). -/
def drainElt (f : Fmt) (rm : RMode) (sat : Bool) (p : BitVec 64) : Nat × FlagSet :=
  match f with
  | .pair => (p.toNat, 0)
  | _ => match f.int? with
    | some _ => cvtElt .i64 f rm sat 127 0x80 p.toNat
    | none => cvtVal f rm sat (pairVal rm p.toNat)

/-- A drained block under a nonzero BL: codes, flags and the descriptor (R279, R221). -/
def drainBlock (v : VView) (own : BitVec 32) (l : List (BitVec 64)) : List (Nat × FlagSet) × BitVec 32 :=
  let vals := l.map (fun p => pairVal v.rm p.toNat)
  if vals.any Val.nonFinite then (vals.map (fun _ => (0, flagNV)), own ||| 0xFF)
  else
    let sc := computedScale v.fmt vals
    (vals.map (fun x => cvtScaled .pair v.fmt v.rm v.sat sc (own.toNat / 256 % 256) x), (own &&& 0xFFFFFF00) ||| BitVec.ofNat 32 sc)

/-- The elements of a drain, their flags, and the descriptors of the blocks written. -/
def drainAll (v : VView) (r : VecRegs) (d : VReg) (rows : List (Nat × List (BitVec 64))) :
    List (Nat × Nat) × FlagSet × List (Nat × BitVec 32) :=
  if v.bl = 0 then
    let l := rows.flatMap (fun w => w.2.zipIdx.map (fun p => (w.1 * v.per + p.2, drainElt v.fmt v.rm v.sat p.1)))
    (l.map (fun q => (q.1, q.2.1)), l.foldl (fun f q => f ||| q.2.2) 0, [])
  else
    let nb := v.per / v.bl
    let bs := rows.flatMap (fun w => (List.range nb).map (fun k =>
      (w.1 * nb + k, drainBlock v (r.desc v d (w.1 * nb + k)) ((w.2.drop (k * v.bl)).take v.bl))))
    (bs.flatMap (fun b => b.2.1.zipIdx.map (fun q => (b.1 * v.bl + q.2, q.1.1))),
      bs.foldl (fun f b => b.2.1.foldl (fun f q => f ||| q.2) f) 0, bs.map (fun b => (b.1, b.2.2)))

/-- A pair that a drain reads is poisoned (06 R96). -/
def State.drainBad (s : State) (v : VView) (q : Fin 8) (t : Bool) (x : Word) : Bool :=
  !s.myCluster.chestPoison.isEmpty && (v.body none false).any (fun j => (List.range v.per).any (fun k =>
    let p := drainPlace t (xpRow x) (xpCol x) v.tdim j k
    s.myCluster.chestPoison.contains (pairIdx q p.1 p.2)))

/-- The SHAPE conditions of TDRAIN (R278, check 4). -/
def drainShape (v : VView) (x : Word) (t c : Bool) (plate : Option Plate) : Bool :=
  let d := v.tdim
  let epr := v.per
  xpOk x && (if t then decide (xpRow x + epr / d ≤ 128) && decide (xpCol x + v.vl * d ≤ 256)
    else decide (xpRow x + v.vl ≤ 128) && decide (xpCol x + epr ≤ 256)) &&
    (!(t || c) || (epr % d == 0 && xpCol x % d == 0)) && (!c || plate.all (fun p => p.d == d))

/-- Write a drain's result and complete; flags go to FFLAGS only (03 R58). -/
def Context.finishDrain (c : Context) (v : VView) (d : VReg) (q : List (Nat × Nat) × FlagSet × List (Nat × BitVec 32))
    (zeros : List Nat) : Context :=
  let c1 := c.putGroup v d (q.1 ++ zeros.map (fun e => (e, 0))) (fun b => (q.2.2.find? (fun p => p.1 == b)).map (fun p => p.2)) 0
  (({ c1 with flags := { c1.flags with ff := c1.flags.ff ||| q.2.1 } } : Context).setLdv d).vdone v 0 4

/-- TDRAIN (R278, R279): VTYPE, HANDOFF, SHAPE, PLATE, PROT, POISON; then rows VBEG to VL − 1. -/
def execTdrain (d : VReg) (q : Fin 8) (code : BitVec 5) (a : XReg) (slot : Fin 4) (t c iv : Bool) (s : State) : Out :=
  vector false (fun v => v.tile && Fmt.ofCode code.toNat == some v.fmt && aligned d 8 && !(c && v.fmt.int?.isSome && v.bl == 0))
    [a] (fun _ => []) [] (fun _ _ => true) (fun _ => some (d, 8)) s fun v r s =>
        let plate := if s.ownBureau && c then (s.myCluster.plates[slot]).committed else none
        if !drainShape v (s.rx a) t c plate then trap .shape s.me.pc s
        else if c && plate.isNone then trap .plate s.me.pc s
        else if !s.ownBureau then trap .prot s.me.pc s
        else if s.drainBad v q t (s.rx a) then poisonReg s
        else
          let rows := (v.body none false).map (fun j => (j, drainRow s.myCluster.chest q t (xpRow (s.rx a)) (xpCol (s.rx a)) v.tdim
            v.per j (plate.map (fun p => p.inv iv))))
          .next (s.modMe (fun k => k.finishDrain v d (drainAll v r d rows) (v.zeroed none r 0 false false true)))

/-- TFILL (R278, R281): raw pairs of rows VBEG to VL − 1 into the Chest. -/
def execTfill (q : Fin 8) (b : VReg) (a : XReg) (s : State) : Out :=
  vector false (fun v => v.tile && v.fmt == .pair && aligned b 8) [a] (fun _ => [⟨b, 8, 64⟩]) [] (fun _ _ => true) (fun _ => none) s fun v r s =>
    let x := s.rx a
    if !xpOk x || decide (xpRow x + v.vl > 128) || decide (xpCol x + 8 > 256) then trap .shape s.me.pc s
    else if !s.ownBureau then trap .prot s.me.pc s
    else
      let l := (v.body none false).flatMap (fun j => (List.range 8).map (fun k =>
        (pairIdx q (xpRow x + j) (xpCol x + k), BitVec.ofNat 64 (r.elem v b 64 (8 * j + k)))))
      let s1 := s.modCluster s.me.cl (fun c =>
        { c with chest := (chestSteps (fun _ t => (t, 0)) c.chest l).1
                 chestPoison := c.chestPoison.filter (fun i => !l.any (fun p => p.1 == i)) })
      .next (s1.modMe (fun c => c.vdone v 0 4))

end Sys2Proof.Machine
end

