-- ==== Sys2Proof/Machine/ScalarFp.lean ====
section
/-! DEFINITION. Scalar floating-point instructions (13 R191 to R193). -/

namespace Sys2Proof.Machine

/-- The format a scalar floating-point major names (12 R177). -/
def fpFmt : FpFmt → FloatFmt
  | .f64 => ⟨11, 52, false⟩ | .f32 => ⟨8, 23, false⟩ | .f16 => ⟨5, 10, false⟩ | .bf16 => ⟨8, 7, false⟩

/-- The width of a format in bits. -/
def FloatFmt.width (f : FloatFmt) : Nat := f.ebits + f.mbits + 1

/-- The operand in the low bits of a register; the bits above are ignored (R191). -/
def State.fx (s : State) (f : FpFmt) (r : XReg) : Nat := (s.rx r).toNat % 2 ^ (fpFmt f).width

/-- A scalar floating-point instruction: a thread's, reading `rs`, writing a result and raising its flags. -/
def fpOp (rs : List XReg) (d : XReg) (r : Nat × FlagSet) (lat st : Nat) (s : State) : Out :=
  threadOnly s <| readsX rs s <|
    .next (s.modMe (fun c => ((c.wx d (BitVec.ofNat 64 r.1) lat).raise r.2).done st 4))

/-- FADD (R192). -/
def execFadd (f : FpFmt) (rm : RMode) (d a b : XReg) (st : Stall) (s : State) : Out :=
  fpOp [a, b] d ((fpFmt f).add rm false (s.fx f a) (s.fx f b)) 4 st.val s

/-- FSUB (R192). -/
def execFsub (f : FpFmt) (rm : RMode) (d a b : XReg) (st : Stall) (s : State) : Out :=
  fpOp [a, b] d ((fpFmt f).sub rm false (s.fx f a) (s.fx f b)) 4 st.val s

/-- FMUL (R192). -/
def execFmul (f : FpFmt) (rm : RMode) (d a b : XReg) (st : Stall) (s : State) : Out :=
  fpOp [a, b] d ((fpFmt f).mul rm false (s.fx f a) (s.fx f b)) 4 st.val s

/-- FFMA (R192): xa × xb + old xd, rounded once. -/
def execFfma (f : FpFmt) (rm : RMode) (d a b : XReg) (st : Stall) (s : State) : Out :=
  fpOp [a, b, d] d ((fpFmt f).fma rm false (s.fx f a) (s.fx f b) (s.fx f d)) 4 st.val s

/-- FDIV (R192). -/
def execFdiv (f : FpFmt) (rm : RMode) (d a b : XReg) (st : Stall) (s : State) : Out :=
  fpOp [a, b] d ((fpFmt f).div rm false (s.fx f a) (s.fx f b)) 14 st.val s

/-- FMIN (R193). -/
def execFmin (f : FpFmt) (d a b : XReg) (st : Stall) (s : State) : Out :=
  fpOp [a, b] d ((fpFmt f).minMax false (s.fx f a) (s.fx f b)) 4 st.val s

/-- FMAX (R193). -/
def execFmax (f : FpFmt) (d a b : XReg) (st : Stall) (s : State) : Out :=
  fpOp [a, b] d ((fpFmt f).minMax true (s.fx f a) (s.fx f b)) 4 st.val s

/-- The relation of a scalar compare. -/
def fcmpRel : FCmpOp → FRel
  | .eq => .eq | .lt => .lt | .le => .le | .un => .un

/-- FCMP (R193): 1 where the relation holds. -/
def execFcmp (f : FpFmt) (cc : FCmpOp) (d a b : XReg) (st : Stall) (s : State) : Out :=
  let r := (fpFmt f).rel (fcmpRel cc) (s.fx f a) (s.fx f b)
  fpOp [a, b] d (r.1.toNat, r.2) 4 st.val s

/-- FSQRT (R192). -/
def execFsqrt (f : FpFmt) (rm : RMode) (d a : XReg) (st : Stall) (s : State) : Out :=
  fpOp [a] d ((fpFmt f).sqrt rm false (s.fx f a)) 14 st.val s

/-- A conversion by code (12 R177, 03 R55): I32 results are sign-extended, N32 results zero-extended (R191). -/
def fcvt (f : FloatFmt) (code : CvtCode) (rm : RMode) (v : Nat) : Nat × FlagSet :=
  let toF := fun g : FloatFmt => g.round rm false (f.decode (v % 2 ^ f.width))
  let toI := fun (signed : Bool) (w : Nat) => toIntFmt signed w rm (f.decode (v % 2 ^ f.width))
  let ofI := fun i : Int => f.round rm false (Val.ofInt i)
  match code with
  | .toF64 => toF (fpFmt .f64)
  | .toF32 => toF (fpFmt .f32)
  | .toF16 => toF (fpFmt .f16)
  | .toBf16 => toF (fpFmt .bf16)
  | .toI32 =>
    let r := toI true 32
    (patternOf 64 (signedOf 32 r.1), r.2)
  | .toN32 => toI false 32
  | .toI64 => toI true 64
  | .toN64 => toI false 64
  | .ofI32 => ofI (signedOf 32 v)
  | .ofN32 => ofI ((v % 2 ^ 32 : Nat) : Int)
  | .ofI64 => ofI (signedOf 64 v)
  | .ofN64 => ofI (v : Int)

/-- FCVT (R192). -/
def execFcvt (f : FpFmt) (code : CvtCode) (rm : RMode) (d a : XReg) (st : Stall) (s : State) : Out :=
  fpOp [a] d (fcvt (fpFmt f) code rm (s.rx a).toNat) 4 st.val s

/-- FCLASS (R193): no flag. -/
def execFclass (f : FpFmt) (d a : XReg) (st : Stall) (s : State) : Out :=
  fpOp [a] d ((fpFmt f).classOf (s.fx f a), 0) 4 st.val s

end Sys2Proof.Machine
end

