-- ==== Sys2Proof/Machine/ScalarInt.lean ====
section
/-! DEFINITION. Scalar integer instructions (13 R188 to R190) and the compact scalar forms (13 R209, 12 R174). -/

namespace Sys2Proof.Machine

/-- R189, ADD. -/
def execAdd (d a b : XReg) (st : Stall) (s : State) : Out :=
  alu [a, b] d (s.rx a + s.rx b) 1 st.val 4 s

/-- R189, SUB. -/
def execSub (d a b : XReg) (st : Stall) (s : State) : Out :=
  alu [a, b] d (s.rx a - s.rx b) 1 st.val 4 s

/-- R189, MUL: the low 64 bits. -/
def execMul (d a b : XReg) (st : Stall) (s : State) : Out :=
  alu [a, b] d (s.rx a * s.rx b) 3 st.val 4 s

/-- R189, MULH: the high 64 bits of the signed product. -/
def execMulh (d a b : XReg) (st : Stall) (s : State) : Out :=
  alu [a, b] d (wordOfInt ((s.rx a).toInt * (s.rx b).toInt / 2 ^ 64)) 3 st.val 4 s

/-- R189, MULHN: the high 64 bits of the unsigned product. -/
def execMulhn (d a b : XReg) (st : Stall) (s : State) : Out :=
  alu [a, b] d (BitVec.ofNat 64 ((s.rx a).toNat * (s.rx b).toNat / 2 ^ 64)) 3 st.val 4 s

/-- R189, R36, DIV. -/
def execDiv (d a b : XReg) (st : Stall) (s : State) : Out :=
  alu [a, b] d (wordOfInt (divInt true 64 (s.rx a).toInt (s.rx b).toInt)) 14 st.val 4 s

/-- R189, R36, DIVN. -/
def execDivn (d a b : XReg) (st : Stall) (s : State) : Out :=
  alu [a, b] d (wordOfInt (divInt false 64 (s.rx a).toNat (s.rx b).toNat)) 14 st.val 4 s

/-- R189, R36, REM. -/
def execRem (d a b : XReg) (st : Stall) (s : State) : Out :=
  alu [a, b] d (wordOfInt (remInt true 64 (s.rx a).toInt (s.rx b).toInt)) 14 st.val 4 s

/-- R189, R36, REMN. -/
def execRemn (d a b : XReg) (st : Stall) (s : State) : Out :=
  alu [a, b] d (wordOfInt (remInt false 64 (s.rx a).toNat (s.rx b).toNat)) 14 st.val 4 s

/-- R189, AND. -/
def execAnd (d a b : XReg) (st : Stall) (s : State) : Out :=
  alu [a, b] d (s.rx a &&& s.rx b) 1 st.val 4 s

/-- R189, OR. -/
def execOr (d a b : XReg) (st : Stall) (s : State) : Out :=
  alu [a, b] d (s.rx a ||| s.rx b) 1 st.val 4 s

/-- R189, XOR. -/
def execXor (d a b : XReg) (st : Stall) (s : State) : Out :=
  alu [a, b] d (s.rx a ^^^ s.rx b) 1 st.val 4 s

/-- R189, SHL: by xb[5:0]. -/
def execShl (d a b : XReg) (st : Stall) (s : State) : Out :=
  alu [a, b] d (s.rx a <<< ((s.rx b).toNat % 64)) 1 st.val 4 s

/-- R189, SHR: logical, by xb[5:0]. -/
def execShr (d a b : XReg) (st : Stall) (s : State) : Out :=
  alu [a, b] d (s.rx a >>> ((s.rx b).toNat % 64)) 1 st.val 4 s

/-- R189, SRA: arithmetic, by xb[5:0]. -/
def execSra (d a b : XReg) (st : Stall) (s : State) : Out :=
  alu [a, b] d ((s.rx a).sshiftRight ((s.rx b).toNat % 64)) 1 st.val 4 s

/-- R189, MIN: signed. -/
def execMin (d a b : XReg) (st : Stall) (s : State) : Out :=
  alu [a, b] d (if (s.rx a).slt (s.rx b) then s.rx a else s.rx b) 1 st.val 4 s

/-- R189, MAX: signed. -/
def execMax (d a b : XReg) (st : Stall) (s : State) : Out :=
  alu [a, b] d (if (s.rx a).slt (s.rx b) then s.rx b else s.rx a) 1 st.val 4 s

/-- R189, MINN: unsigned. -/
def execMinn (d a b : XReg) (st : Stall) (s : State) : Out :=
  alu [a, b] d (if (s.rx a).ult (s.rx b) then s.rx a else s.rx b) 1 st.val 4 s

/-- R189, MAXN: unsigned. -/
def execMaxn (d a b : XReg) (st : Stall) (s : State) : Out :=
  alu [a, b] d (if (s.rx a).ult (s.rx b) then s.rx b else s.rx a) 1 st.val 4 s

/-- R189, SLT: signed. -/
def execSlt (d a b : XReg) (st : Stall) (s : State) : Out :=
  alu [a, b] d (wordOfBool ((s.rx a).slt (s.rx b))) 1 st.val 4 s

/-- R189, SLTN: unsigned. -/
def execSltn (d a b : XReg) (st : Stall) (s : State) : Out :=
  alu [a, b] d (wordOfBool ((s.rx a).ult (s.rx b))) 1 st.val 4 s

/-- R189, SEL: xa if the old xd is nonzero, else xb. -/
def execSel (d a b : XReg) (st : Stall) (s : State) : Out :=
  alu [a, b, d] d (if s.rx d = 0 then s.rx b else s.rx a) 1 st.val 4 s

/-- R189, CLZ. -/
def execClz (d a : XReg) (st : Stall) (s : State) : Out :=
  alu [a] d (BitVec.ofNat 64 (leadingZeros (s.rx a))) 1 st.val 4 s

/-- R189, CTZ. -/
def execCtz (d a : XReg) (st : Stall) (s : State) : Out :=
  alu [a] d (BitVec.ofNat 64 (trailingZeros (s.rx a))) 1 st.val 4 s

/-- R189, POPC. -/
def execPopc (d a : XReg) (st : Stall) (s : State) : Out :=
  alu [a] d (BitVec.ofNat 64 (popCount (s.rx a))) 1 st.val 4 s

/-- R189, BREV. -/
def execBrev (d a : XReg) (st : Stall) (s : State) : Out :=
  alu [a] d ((s.rx a).reverse) 1 st.val 4 s

/-- R190, ADDI. -/
def execAddi (d a : XReg) (imm : BitVec 11) (st : Stall) (s : State) : Out :=
  alu [a] d (s.rx a + imm.signExtend 64) 1 st.val 4 s

/-- R190, ANDI. -/
def execAndi (d a : XReg) (imm : BitVec 11) (st : Stall) (s : State) : Out :=
  alu [a] d (s.rx a &&& imm.signExtend 64) 1 st.val 4 s

/-- R190, ORI. -/
def execOri (d a : XReg) (imm : BitVec 11) (st : Stall) (s : State) : Out :=
  alu [a] d (s.rx a ||| imm.signExtend 64) 1 st.val 4 s

/-- R190, XORI. -/
def execXori (d a : XReg) (imm : BitVec 11) (st : Stall) (s : State) : Out :=
  alu [a] d (s.rx a ^^^ imm.signExtend 64) 1 st.val 4 s

/-- R190, SLTI. -/
def execSlti (d a : XReg) (imm : BitVec 11) (st : Stall) (s : State) : Out :=
  alu [a] d (wordOfBool ((s.rx a).slt (imm.signExtend 64))) 1 st.val 4 s

/-- R190, SHLI. -/
def execShli (d a : XReg) (sh : BitVec 6) (st : Stall) (s : State) : Out :=
  alu [a] d (s.rx a <<< sh.toNat) 1 st.val 4 s

/-- R190, SHRI. -/
def execShri (d a : XReg) (sh : BitVec 6) (st : Stall) (s : State) : Out :=
  alu [a] d (s.rx a >>> sh.toNat) 1 st.val 4 s

/-- R190, SRAI. -/
def execSrai (d a : XReg) (sh : BitVec 6) (st : Stall) (s : State) : Out :=
  alu [a] d ((s.rx a).sshiftRight sh.toNat) 1 st.val 4 s

/-- R190, LIH: the old xd shifted left by 16, with imm16 below. -/
def execLih (d : XReg) (imm : BitVec 16) (st : Stall) (s : State) : Out :=
  alu [d] d (s.rx d <<< 16 ||| imm.setWidth 64) 1 st.val 4 s

/-- R190, ADPC: the whole PC plus sext(imm16) × 2,048. -/
def execAdpc (d : XReg) (imm : BitVec 16) (st : Stall) (s : State) : Out :=
  alu [] d (s.me.pc + imm.signExtend 64 * 2048) 1 st.val 4 s

/-! ### Compact scalar forms -/

/-- A compact scalar form: the last x destination is written with latency 1 (R173), 2 bytes on. -/
def compact (rs : List XReg) (v : Word) (s : State) : Out := alu rs s.me.ldx v 1 0 2 s

/-- R209, C.ADD. -/
def execCAdd (b : XReg) (s : State) : Out := compact [s.me.ldx, b] (s.rx s.me.ldx + s.rx b) s

/-- R209, C.SUB. -/
def execCSub (b : XReg) (s : State) : Out := compact [s.me.ldx, b] (s.rx s.me.ldx - s.rx b) s

/-- R209, C.AND. -/
def execCAnd (b : XReg) (s : State) : Out := compact [s.me.ldx, b] (s.rx s.me.ldx &&& s.rx b) s

/-- R209, C.OR. -/
def execCOr (b : XReg) (s : State) : Out := compact [s.me.ldx, b] (s.rx s.me.ldx ||| s.rx b) s

/-- R209, C.XOR. -/
def execCXor (b : XReg) (s : State) : Out := compact [s.me.ldx, b] (s.rx s.me.ldx ^^^ s.rx b) s

/-- R209, C.MOV. -/
def execCMov (b : XReg) (s : State) : Out := compact [b] (s.rx b) s

/-- R209, C.ADDI. -/
def execCAddi (imm : BitVec 10) (s : State) : Out := compact [s.me.ldx] (s.rx s.me.ldx + imm.signExtend 64) s

/-- R209, C.LI. -/
def execCLi (imm : BitVec 10) (s : State) : Out := compact [] (imm.signExtend 64) s

/-- R209, C.SHLI. -/
def execCShli (sh : BitVec 6) (s : State) : Out := compact [s.me.ldx] (s.rx s.me.ldx <<< sh.toNat) s

/-- R209, C.SHRI. -/
def execCShri (sh : BitVec 6) (s : State) : Out := compact [s.me.ldx] (s.rx s.me.ldx >>> sh.toNat) s

/-- R174, C.NOP: no effect. -/
def execCNop (s : State) : Out := s.finish 2

end Sys2Proof.Machine
end

