-- ==== Sys2Proof/Machine/ScalarMem.lean ====
section
/-! DEFINITION. Scalar loads, stores and atomics on P0 (13 R194 to R196, 07 R112). -/

namespace Sys2Proof.Machine

/-- The size of a load in bytes (12 R176). -/
def ldSize : LdWidth → Nat
  | .i8 | .n8 => 1 | .i16 | .n16 => 2 | .i32 | .n32 => 4 | .d => 8

/-- The register value of loaded bytes: the I widths are sign-extended, the N widths zero-extended (R194). -/
def ldExtend (w : LdWidth) (bs : List Byte) : Word :=
  match w with
  | .i8 | .i16 | .i32 => wordOfInt (signedOf (8 * ldSize w) (ofBytes bs))
  | .n8 | .n16 | .n32 | .d => BitVec.ofNat 64 (ofBytes bs)

/-- The size of a store in bytes (12 R176). -/
def stSize : StWidth → Nat
  | .w8 => 1 | .w16 => 2 | .w32 => 4 | .w64 => 8

/-- The address of a scalar access: xa + sext(imm7) × size (R194). -/
def State.memAddr (s : State) (a : XReg) (imm : BitVec 7) (size : Nat) : Word :=
  s.rx a + imm.signExtend 64 * BitVec.ofNat 64 size

/-- LD (R194). -/
def execLd (w : LdWidth) (d a : XReg) (imm : BitVec 7) (cls : Cls) (s : State) : Out :=
  readsX [a] s <|
    loadOn .p0 cls (s.memAddr a imm (ldSize w)) (ldSize w) s fun bs s =>
      .next (s.modMe (fun c => (c.wx d (ldExtend w bs) 0).done 0 4))

/-- A scalar store of either mode (R194). -/
def scalarStore (mode : StoreMode) (w : StWidth) (b a : XReg) (imm : BitVec 7) (cls : Cls) (s : State) : Out :=
  readsX [a, b] s <|
    storeOn .p0 cls mode (s.memAddr a imm (stSize w)) (toBytes (stSize w) (s.rx b).toNat) s fun s => s.finish

/-- ST (R194): early-forwarding. -/
def execSt (w : StWidth) (b a : XReg) (imm : BitVec 7) (cls : Cls) (s : State) : Out := scalarStore .early w b a imm cls s

/-- ST.G (R194, 11 R159): globally acknowledged. -/
def execStG (w : StWidth) (b a : XReg) (imm : BitVec 7) (cls : Cls) (s : State) : Out := scalarStore .glob w b a imm cls s

/-! ### Atomics -/

/-- An AMO of a function of the old value (R195), on the die that issues it (10 R151); xd receives the old value. -/
def amo (rs : List XReg) (f : Word → Word) (d a : XReg) (cls : Cls) (sc : Scope) (s : State) : Out :=
  readsX rs s <|
    atomicOn sc cls false (s.rx a) 8 (fun o => (f (BitVec.ofNat 64 o)).toNat) s fun old s =>
      .next (s.modMe (fun c => (c.wx d (BitVec.ofNat 64 old) 0).done 0 4))

/-- AMO.ADD (R195): modulo 2^64. -/
def execAmoAdd (d a b : XReg) (cls : Cls) (sc : Scope) (s : State) : Out :=
  amo [a, b] (fun o => o + s.rx b) d a cls sc s

/-- AMO.AND (R195): bitwise. -/
def execAmoAnd (d a b : XReg) (cls : Cls) (sc : Scope) (s : State) : Out :=
  amo [a, b] (fun o => o &&& s.rx b) d a cls sc s

/-- AMO.OR (R195): bitwise. -/
def execAmoOr (d a b : XReg) (cls : Cls) (sc : Scope) (s : State) : Out :=
  amo [a, b] (fun o => o ||| s.rx b) d a cls sc s

/-- AMO.XOR (R195): bitwise. -/
def execAmoXor (d a b : XReg) (cls : Cls) (sc : Scope) (s : State) : Out :=
  amo [a, b] (fun o => o ^^^ s.rx b) d a cls sc s

/-- AMO.MIN (R195): signed. -/
def execAmoMin (d a b : XReg) (cls : Cls) (sc : Scope) (s : State) : Out :=
  amo [a, b] (fun o => if o.slt (s.rx b) then o else s.rx b) d a cls sc s

/-- AMO.MAX (R195): signed. -/
def execAmoMax (d a b : XReg) (cls : Cls) (sc : Scope) (s : State) : Out :=
  amo [a, b] (fun o => if o.slt (s.rx b) then s.rx b else o) d a cls sc s

/-- AMO.MINN (R195): unsigned. -/
def execAmoMinn (d a b : XReg) (cls : Cls) (sc : Scope) (s : State) : Out :=
  amo [a, b] (fun o => if o.ult (s.rx b) then o else s.rx b) d a cls sc s

/-- AMO.MAXN (R195): unsigned. -/
def execAmoMaxn (d a b : XReg) (cls : Cls) (sc : Scope) (s : State) : Out :=
  amo [a, b] (fun o => if o.ult (s.rx b) then s.rx b else o) d a cls sc s

/-- AMO.SWAP (R195). -/
def execAmoSwap (d a b : XReg) (cls : Cls) (sc : Scope) (s : State) : Out := amo [a, b] (fun _ => s.rx b) d a cls sc s

/-- AMO.CAS (R195): xb is stored where the word equals the old xd. -/
def execAmoCas (d a b : XReg) (cls : Cls) (sc : Scope) (s : State) : Out :=
  amo [a, b, d] (fun o => if o = s.rx d then s.rx b else o) d a cls sc s

/-- A deque header as a value of 128 bits, after a pop or a steal, and the index answered (07 R112). -/
def dequeStep (steal : Bool) (old : Nat) : Nat × Nat :=
  let head := old % 2 ^ 64
  let tail := old / 2 ^ 64
  if tail > head then
    if steal then (tail * 2 ^ 64 + (head + 1), head) else ((tail - 1) * 2 ^ 64 + head, tail - 1)
  else (old, 2 ^ 64 - 1)

/-- A deque operation (R196, 07 R112), at the home of its header (10 R151). -/
def amoq (steal : Bool) (d a : XReg) (cls : Cls) (sc : Scope) (s : State) : Out :=
  readsX [a] s <|
    atomicOn sc cls true (s.rx a) 16 (fun o => (dequeStep steal o).1) s fun old s =>
      .next (s.modMe (fun c => (c.wx d (BitVec.ofNat 64 (dequeStep steal old).2) 0).done 0 4))

/-- AMOQPOP (R196, 07 R112). -/
def execAmoqpop (d a : XReg) (cls : Cls) (sc : Scope) (s : State) : Out := amoq false d a cls sc s

/-- AMOQSTEAL (R196, 07 R112). -/
def execAmoqsteal (d a : XReg) (cls : Cls) (sc : Scope) (s : State) : Out := amoq true d a cls sc s

end Sys2Proof.Machine
end

