-- ==== Sys2Proof/Machine/AsmText.lean ====
section
/-! DEFINITION. fjas, the lexical part: names, numbers, floating-point literals, operands and expressions (21 R326 to R329). -/

namespace Sys2Proof.Fjas

open Sys2Proof.Machine

/-- Source text. -/
abbrev Text := List Char

def isBlank (c : Char) : Bool := c == ' ' || c == '\t' || c == '\r'
def isLetter (c : Char) : Bool := c.isAlpha || c == '_'
def isName (c : Char) : Bool := c.isAlphanum || c == '_'

/-- Text without blanks at its ends. -/
def trim (t : Text) : Text := ((t.dropWhile isBlank).reverse.dropWhile isBlank).reverse

/-- Text in capitals, for the names that are case-insensitive. -/
def upper (t : Text) : Text := t.map Char.toUpper

def str (t : Text) : String := String.ofList t

/-- A line without its comment. -/
def uncomment : Text → Text
  | [] => []
  | ';' :: _ => []
  | '/' :: '/' :: _ => []
  | c :: t => c :: uncomment t

/-- The lines of a source file. -/
def linesOf (t : Text) : List Text := t.splitOn '\n'

/-- Text split at commas outside parentheses. -/
def splitCommas : Nat → Text → Text → List Text
  | _, cur, [] => [trim cur.reverse]
  | d, cur, c :: t =>
    if c == ',' && d == 0 then trim cur.reverse :: splitCommas 0 [] t
    else splitCommas (if c == '(' then d + 1 else if c == ')' then d - 1 else d) (c :: cur) t

/-- A list of operands; an empty operand is rejected. -/
def operandsOf (t : Text) : Option (List Text) :=
  if (trim t).isEmpty then some [] else
    let l := splitCommas 0 [] t
    if l.any (fun o => o.isEmpty) then none else some l

/-! ### Names and numbers -/

/-- A whole text that is a symbol. -/
def symbolOf (t : Text) : Option String :=
  match t with
  | c :: r => if isLetter c && r.all isName then some (str t) else none
  | [] => none

/-- Digits of a base, with underscores allowed between digits only. -/
def digitsOf (base : Nat) (t : Text) : Option Nat :=
  let digit := fun (c : Char) =>
    let n := c.toNat
    let v := if c.isDigit then n - 48 else if 'A' ≤ c ∧ c ≤ 'F' then n - 55 else if 'a' ≤ c ∧ c ≤ 'f' then n - 87 else 99
    if v < base then some v else none
  let rec go : Bool → Nat → Text → Option Nat
    | ready, acc, [] => if ready then some acc else none
    | ready, acc, '_' :: r => if ready then go false acc r else none
    | _, acc, c :: r => (digit c).bind (fun v => go true (acc * base + v) r)
  go false 0 t

/-- A number: decimal, hexadecimal or binary. -/
def numberOf : Text → Option Nat
  | '0' :: 'x' :: r => digitsOf 16 r
  | '0' :: 'X' :: r => digitsOf 16 r
  | '0' :: 'b' :: r => digitsOf 2 r
  | '0' :: 'B' :: r => digitsOf 2 r
  | t => digitsOf 10 t

/-- The kinds of numbered names (R327). -/
inductive RegKind | x | v | m | q | l | pl | gt | hf
  deriving DecidableEq, Repr

/-- A decimal number without a leading zero, below a bound. -/
def indexOf (bound : Nat) (t : Text) : Option Nat :=
  if t.length > 1 && t.head? == some '0' then none
  else if t.all Char.isDigit then (digitsOf 10 t).filter (· < bound) else none

/-- A numbered name of R327. -/
def regOf (t : Text) : Option (RegKind × Nat) :=
  match upper t with
  | 'X' :: r => (indexOf 32 r).map (fun n => (.x, n))
  | 'V' :: r => (indexOf 32 r).map (fun n => (.v, n))
  | 'M' :: r => (indexOf 8 r).map (fun n => (.m, n))
  | 'Q' :: r => (indexOf 8 r).map (fun n => (.q, n))
  | 'P' :: 'L' :: r => (indexOf 4 r).map (fun n => (.pl, n))
  | 'L' :: r => (indexOf 2 r).map (fun n => (.l, n))
  | 'G' :: 'T' :: r => (indexOf 4 r).map (fun n => (.gt, n))
  | 'H' :: 'F' :: r => (indexOf 32 r).map (fun n => (.hf, n))
  | _ => none

/-- The format names (03 R33), each at its code. -/
def formatNames : List String :=
  ["I8", "N8", "I16", "N16", "I32", "N32", "I64", "N64", "F16", "BF16", "F32", "F64", "E4M3", "E5M2", "E2M1", "E8M0",
   "PAIR", "D1", "D2", "D3"]

/-- The rounding modes (03 R34), each at its code. -/
def roundNames : List String := ["RNE", "RMM", "RUP", "RDN", "RTZ"]

/-- The scopes (10 R146), each at its code. -/
def scopeNames : List String := ["T", "C", "D", "P", "S"]

/-- The named system registers (05 R78). -/
def systemNames : List (String × Nat) :=
  [("ISAVER", 0), ("MMREV", 1), ("MMRS", 2), ("SBCHK", 3), ("SHARE", 4), ("CLID", 5), ("DIEID", 6), ("TVEC", 0x10),
   ("EPC", 0x11), ("CAUSE", 0x12), ("TVAL", 0x13), ("GFAULT", 0x14), ("SCRATCH", 0x15), ("AKREC", 0x16), ("RNG", 0x20),
   ("CTAGS", 0x21), ("VTYPE", 0x22), ("VL", 0x23), ("VBEG", 0x24), ("FFLAGS", 0x25), ("LDREG", 0x26), ("LPART", 0x40),
   ("ORIENT", 0x41)]

/-- The FXIDX registers, written with a dot or a blank before the flag. -/
def fxidxNames : List String := ["NV", "DZ", "OF", "UF", "NX"]

/-- The number of a system register that an operand names. -/
def systemOf (t : Text) : Option Nat :=
  let u := upper t
  match regOf t with
  | some (.hf, n) => some (0x80 + n)
  | _ =>
    match systemNames.find? (fun p => p.1 == str u) with
    | some p => some p.2
    | none =>
      if u.take 5 == "FXIDX".toList ∧ 5 < u.length ∧ ¬isName (u.getD 5 '.') then
        let i := fxidxNames.idxOf (str (trim (u.drop 6)))
        if i < 5 then some (0x28 + i) else none
      else none

/-- A path name. -/
def pathOf (t : Text) : Option Nat := match upper t with | 'P' :: r => indexOf 5 r | _ => none

/-- A path list joined by `+`, as its set of bits. -/
def pathsOf (t : Text) : Option Nat :=
  ((t.splitOn '+').mapM (fun p => pathOf (trim p))).map (fun l => l.foldl (fun a k => a ||| 2 ^ k) 0)

/-- The index of a name in a list of names. -/
def nameIn (l : List String) (t : Text) : Option Nat :=
  let i := l.idxOf (str (upper t))
  if i < l.length then some i else none

/-- The name is one of R327. -/
def reserved (n : String) : Bool :=
  let t := n.toList
  (regOf t).isSome || (pathOf t).isSome || (nameIn formatNames t).isSome || (nameIn roundNames t).isSome
    || systemNames.any (fun p => p.1 == str (upper t)) || str (upper t) == "FXIDX"

/-! ### Floating-point literals -/

/-- A literal as sign, decimal significand and power of ten. -/
def decimalOf (t : Text) : Option (Bool × Nat × Int) :=
  let (neg, t) := match t with | '-' :: r => (true, r) | r => (false, r)
  let mant := t.takeWhile (fun c => c != 'e' && c != 'E')
  let ex := t.drop (mant.length + 1)
  let whole := mant.takeWhile (· != '.')
  let frac := mant.drop (whole.length + 1)
  let e : Option Int :=
    if mant.length = t.length then some 0 else
    match ex with
    | '-' :: r => (digitsOf 10 r).map (fun n => -(n : Int))
    | '+' :: r => (digitsOf 10 r).map (fun n => (n : Int))
    | r => (digitsOf 10 r).map (fun n => (n : Int))
  let fd := frac.filter (· != '_')
  let fracOk := if whole.length = mant.length then some 0 else digitsOf 10 frac
  match digitsOf 10 whole, fracOk, e with
  | some w, some f, some e => some (neg, w * 10 ^ fd.length + f, e - fd.length)
  | _, _, _ => none

/-- A literal as an F32 bit pattern, rounded once to nearest, ties to even. -/
def f32Of (t : Text) : Option Nat :=
  (decimalOf t).map fun (neg, m, e) =>
    let v : Val := if 0 ≤ e then .fin neg (m * 10 ^ e.toNat) 0 else divFin fmtF32.prec neg m 0 false (10 ^ (-e).toNat) 0
    (fmtF32.round .rne false v).1

/-! ### Expressions (R329) -/

/-- What a symbol stands for: an absolute value, an address in a section, or a signature class. -/
inductive SymVal
  | abs (v : Word)
  | label (sect off size : Nat)
  | cls (n : Nat)
  deriving DecidableEq, Repr

abbrev Symbols := List (String × SymVal)

/-- A value: absolute, or a symbol of another section plus an absolute value. -/
structure EVal where
  sym : Option String
  v   : Word
  deriving DecidableEq, Repr

/-- Where an expression stands: its section, the address of the instruction or datum, and the symbols. In a lenient pass
an unknown symbol counts as 0. In a loose pass, whose layout is not final, a value that does not fit is taken as it comes. -/
structure Env where
  sect    : Nat
  here    : Nat
  syms    : Symbols
  lenient : Bool
  loose   : Bool

inductive Tok
  | num (n : Nat) | sym (s : String) | op (s : String)
  deriving DecidableEq, Repr

/-- The tokens of an expression. -/
def lex : Nat → Text → Option (List Tok)
  | 0, _ => some []
  | _ + 1, [] => some []
  | f + 1, c :: t =>
    if isBlank c then lex f t
    else if c.isDigit then
      let w := (c :: t).takeWhile isName
      ((numberOf w).filter (· < 2 ^ 64)).bind (fun n => (lex f ((c :: t).drop w.length)).map (fun l => .num n :: l))
    else if isLetter c then
      let w := (c :: t).takeWhile isName
      (lex f ((c :: t).drop w.length)).map (fun l => .sym (str w) :: l)
    else
      match c, t with
      | '<', '<' :: r => (lex f r).map (fun l => .op "<<" :: l)
      | '>', '>' :: r => (lex f r).map (fun l => .op ">>" :: l)
      | _, _ => if "()+-*/%&^|~$".toList.contains c then (lex f t).map (fun l => .op (str [c]) :: l) else none

/-- A symbol's value where it is used: one of the same section is its offset there; a name defined in several sections means
the section's own, else the first. -/
def Env.value (e : Env) (s : String) : EVal :=
  match e.syms.find? (fun p => p.1 == s && (match p.2 with | .label k _ _ => k == e.sect | _ => false)) with
  | some (_, .label _ off _) => ⟨none, BitVec.ofNat 64 off⟩
  | _ =>
    match e.syms.find? (fun p => p.1 == s) with
    | some (_, .abs v) => ⟨none, v⟩
    | some _ => ⟨some s, 0⟩
    | none => if e.lenient then ⟨none, 0⟩ else ⟨some s, 0⟩

/-- The binary operators by precedence, the loosest first. -/
def levels : List (List String) := [["|"], ["^"], ["&"], ["<<", ">>"], ["+", "-"], ["*", "/", "%"]]

/-- A binary operator; a relocated value takes only an absolute value added or subtracted. -/
def applyOp (o : String) (a b : EVal) : Option EVal :=
  match a.sym, b.sym with
  | some s, none => match o with | "+" => some ⟨some s, a.v + b.v⟩ | "-" => some ⟨some s, a.v - b.v⟩ | _ => none
  | none, none =>
    let r : Option Word := match o with
      | "|" => some (a.v ||| b.v) | "^" => some (a.v ^^^ b.v) | "&" => some (a.v &&& b.v)
      | "<<" => some (a.v <<< b.v.toNat) | ">>" => some (a.v >>> b.v.toNat)
      | "+" => some (a.v + b.v) | "-" => some (a.v - b.v) | "*" => some (a.v * b.v)
      | "/" => if b.v = 0 then none else some (a.v.sdiv b.v)
      | "%" => if b.v = 0 then none else some (a.v.srem b.v)
      | _ => none
    r.map (fun v => ⟨none, v⟩)
  | _, _ => none

mutual
/-- An operand of a unary operator, or an expression of a level of precedence and tighter. -/
def parseAt (e : Env) : Nat → Nat → List Tok → Option (EVal × List Tok)
  | 0, _, _ => none
  | f + 1, lvl, ts =>
    match levels[lvl]? with
    | some _ => (parseAt e f (lvl + 1) ts).bind (fun p => parseMore e f lvl p.1 p.2)
    | none =>
      match ts with
      | .num n :: r => some (⟨none, BitVec.ofNat 64 n⟩, r)
      | .sym s :: r => if reserved s then none else some (e.value s, r)
      | .op "$" :: r => some (⟨none, BitVec.ofNat 64 e.here⟩, r)
      | .op "(" :: r =>
        match parseAt e f 0 r with
        | some (v, .op ")" :: r) => some (v, r)
        | _ => none
      | .op "-" :: r => (parseAt e f lvl r).bind (fun p => if p.1.sym.isSome then none else some (⟨none, -p.1.v⟩, p.2))
      | .op "~" :: r => (parseAt e f lvl r).bind (fun p => if p.1.sym.isSome then none else some (⟨none, ~~~p.1.v⟩, p.2))
      | _ => none
/-- The rest of an expression of a level, from the left. -/
def parseMore (e : Env) : Nat → Nat → EVal → List Tok → Option (EVal × List Tok)
  | 0, _, _, _ => none
  | f + 1, lvl, a, ts =>
    match ts with
    | .op o :: r =>
      if (levels.getD lvl []).contains o then
        (parseAt e f (lvl + 1) r).bind (fun p => (applyOp o a p.1).bind (fun v => parseMore e f lvl v p.2))
      else some (a, ts)
    | _ => some (a, ts)
end

/-- The value of an expression; a name of R327 stands for no symbol (21 R326) (log entry 54, DEDUCED). -/
def Env.eval (e : Env) (t : Text) : Option EVal :=
  (lex (t.length + 1) t).bind fun ts =>
    match parseAt e (16 * (ts.length + 2)) 0 ts with
    | some (v, []) => some v
    | _ => none

/-- The value of an absolute expression. -/
def Env.abs (e : Env) (t : Text) : Option Word := (e.eval t).bind (fun v => if v.sym.isSome then none else some v.v)

/-- An absolute expression read as a natural number up to a bound. -/
def Env.nat (e : Env) (max : Nat) (t : Text) : Option Nat :=
  (e.abs t).bind (fun v => if v.toNat ≤ max then some v.toNat else if e.loose then some 0 else none)

end Sys2Proof.Fjas
end

