-- ==== Sys2Proof/Machine/AsmForms.lean ====
section
/-! DEFINITION. fjas, the instruction forms: one row per mnemonic with its word and operands (12 R169 to R184, and the
syntax of 13 to 17), the reading of operands, and what a form writes (20 R321). -/

namespace Sys2Proof.Fjas

open Sys2Proof.Machine

/-- An operand of a form, with the lowest bit of its field. -/
inductive Opd
  /-- A destination in [15:11]. -/
  | xd | vd | md
  /-- An x destination that may be omitted for x0 (15 R257). -/
  | xdOpt
  /-- Other numbered names. -/
  | reg (k : RegKind) (lo : Nat)
  /-- `(xa)`. -/
  | mem (lo : Nat)
  /-- `(xa, vi)`. -/
  | memIdx
  /-- `off(xa)` of an SM word, off a multiple of the size, and of JALR. -/
  | memOff (size : Nat) | memJump
  /-- An immediate of some bits, signed or unsigned. -/
  | simm (lo bits : Nat) | uimm (lo bits : Nat)
  /-- Targets: offset14, offset19 and the compact offset. -/
  | br14 | br19 | brC
  /-- A format name, a system register, a Hatch or flag state, the paths of FENCE.P. -/
  | fmt (lo : Nat) | sys | state | paths (lo : Nat)
  /-- A signature class. -/
  | cls (lo : Nat)
  /-- The VTYPE request of VSETVLI: every operand left. -/
  | request
  /-- What may be omitted: rounding mode, ordering class, mask, column block, position, Plate slot, published group. -/
  | round | class_ (lo : Nat) | mask (lo : Nat)
  /-- A mask register other than m0. -/
  | mask1 (lo : Nat)
  | colBlock | pos | plateOpt | pubOpt
  deriving DecidableEq, Repr

/-- An instruction form: its name, its word without operands, its operands in order, whether it takes a stall count, the
suffixes it takes in order with their bits, and whether its word is compact. -/
structure Form where
  name  : String
  word  : Nat
  opds  : List Opd
  stall : Bool := false
  mods  : List (String × Nat) := []
  short : Bool := false

/-- A word of a major with its bit 0. -/
def major (m : Nat) : Nat := m * 16 + 1

def withNames (names : List String) (f : String → Nat → Form) : List Form := names.zipIdx.map (fun p => f p.1 p.2)

/-- Integer and control forms (12 R176, 13). -/
def scalarForms : List Form :=
  withNames ["ADD", "SUB", "MUL", "MULH", "MULHN", "DIV", "DIVN", "REM", "REMN", "AND", "OR", "XOR", "SHL", "SHR", "SRA",
      "MIN", "MAX", "MINN", "MAXN", "SLT", "SLTN", "SEL"]
    (fun n i => { name := n, word := major 1 + i * 2 ^ 26, opds := [.xd, .reg .x 16, .reg .x 21], stall := true }) ++
  withNames ["CLZ", "CTZ", "POPC", "BREV"]
    (fun n i => { name := n, word := major 1 + (22 + i) * 2 ^ 26, opds := [.xd, .reg .x 16], stall := true }) ++
  withNames ["ADDI", "ANDI", "ORI", "XORI"]
    (fun n i => { name := n, word := major (2 + i), opds := [.xd, .reg .x 16, .simm 21 11], stall := true }) ++
  withNames ["SHLI", "SHRI", "SRAI"]
    (fun n i => { name := n, word := major (6 + i), opds := [.xd, .reg .x 16, .uimm 21 6], stall := true }) ++
  [{ name := "SLTI", word := major 9, opds := [.xd, .reg .x 16, .simm 21 11], stall := true },
   { name := "LIH", word := major 10, opds := [.xd, .uimm 16 16], stall := true },
   { name := "ADPC", word := major 11, opds := [.xd, .simm 16 16], stall := true }] ++
  withNames ["BEQ", "BNE", "BLT", "BGE", "BLTN", "BGEN"]
    (fun n i => { name := n, word := major (0x18 + i), opds := [.reg .x 11, .reg .x 16, .br14] }) ++
  [{ name := "JAL", word := major 0x1E, opds := [.xd, .br19] },
   { name := "JALR", word := major 0x1F, opds := [.xd, .memJump] },
   { name := "CALLI", word := major 0x20, opds := [.xd, .reg .x 16, .cls 21] },
   { name := "CMARK", word := major 0x21, opds := [.cls 16] },
   { name := "TRAP", word := major 0x22, opds := [.uimm 21 11] },
   { name := "SRD", word := major 0x23, opds := [.xd, .sys] },
   { name := "SWR", word := major 0x24, opds := [.sys, .reg .x 16] },
   { name := "ERD", word := major 0x25, opds := [.xd, .uimm 21 11] }] ++
  withNames ["TRET", "FENCEI", "YIELD", "EXIT"] (fun n i => { name := n, word := major 0x26 + i * 2 ^ 26, opds := [] }) ++
  [{ name := "JOIN", word := major 0x26 + 4 * 2 ^ 26, opds := [.xd, .reg .x 16] },
   { name := "LEAVE", word := major 0x26 + 5 * 2 ^ 26, opds := [.xd, .reg .x 16] },
   { name := "CTAIL", word := major 0x26 + 6 * 2 ^ 26, opds := [.reg .x 16, .reg .x 21] },
   { name := "LREQ", word := major 0x26 + 7 * 2 ^ 26, opds := [.xd, .reg .x 16] }]

/-- Scalar floating point (12 R177, 13 R192), each form under each format of majors 0x0C to 0x0F. -/
def floatForms : List Form :=
  let fs : List (String × Nat) := [("F64", 0), ("F32", 1), ("F16", 2), ("BF16", 3)]
  let ints : List String := ["I32", "N32", "I64", "N64"]
  let w := fun (m op sel code : Nat) => major (0xC + m) + op * 2 ^ 26 + sel * 2 ^ 29 + code * 2 ^ 21
  fs.flatMap fun (f, m) =>
    withNames ["FADD", "FSUB", "FMUL", "FFMA", "FDIV"]
      (fun n i => { name := n ++ "." ++ f, word := w m i 0 0, opds := [.xd, .reg .x 16, .reg .x 21, .round], stall := true }) ++
    withNames ["FMIN", "FMAX", "FCMP.EQ", "FCMP.LT", "FCMP.LE", "FCMP.UN"]
      (fun n i => { name := n ++ "." ++ f, word := w m 5 i 0, opds := [.xd, .reg .x 16, .reg .x 21], stall := true }) ++
    [{ name := "FSQRT." ++ f, word := w m 6 0 0, opds := [.xd, .reg .x 16, .round], stall := true },
     { name := "FCLASS." ++ f, word := w m 7 0 0x1F, opds := [.xd, .reg .x 16], stall := true }] ++
    fs.map (fun (t, i) =>
      { name := "FCVT." ++ t ++ "." ++ f, word := w m 7 0 i, opds := [.xd, .reg .x 16, .round], stall := true }) ++
    withNames ints (fun t i =>
      { name := "FCVT." ++ t ++ "." ++ f, word := w m 7 0 (4 + i), opds := [.xd, .reg .x 16, .round], stall := true }) ++
    withNames ints (fun t i =>
      { name := "FCVT." ++ f ++ "." ++ t, word := w m 7 0 (8 + i), opds := [.xd, .reg .x 16, .round], stall := true })

/-- Scalar loads, stores and atomics (12 R176, 13 R194 to R196). -/
def memoryForms : List Form :=
  let amo := fun (l : List String) (m : Nat) => withNames l fun n i =>
    { name := n, word := major m + i * 2 ^ 30, opds := [.xd, .mem 16, .reg .x 21, .class_ 26] }
  let byScope := fun (l : List Form) => l.flatMap (fun f =>
    withNames scopeNames (fun s i => { f with name := f.name ++ "." ++ s, word := f.word + i * 2 }))
  [("I8", 1, 0), ("I16", 2, 1), ("I32", 4, 2), ("D", 8, 3), ("N8", 1, 4), ("N16", 2, 5), ("N32", 4, 6)].map
    (fun (n, size, code) =>
      { name := "LD." ++ n, word := major 0x10 + code * 2, opds := [.xd, .memOff size, .class_ 21] }) ++
  [("ST.", 0x11), ("ST.G.", 0x12)].flatMap (fun (p, m) => withNames ["8", "16", "32", "64"] (fun n i =>
    { name := p ++ n, word := major m + i * 2, opds := [.reg .x 11, .memOff (2 ^ i), .class_ 21] })) ++
  byScope (amo ["AMO.ADD", "AMO.AND", "AMO.OR", "AMO.XOR"] 0x13 ++ amo ["AMO.MIN", "AMO.MAX", "AMO.MINN", "AMO.MAXN"] 0x14 ++
    amo ["AMO.SWAP", "AMO.CAS"] 0x15 ++ withNames ["AMOQPOP", "AMOQSTEAL"] (fun n i =>
      { name := n, word := major 0x16 + i * 2 ^ 30, opds := [.xd, .mem 16, .class_ 26] }))

/-- Vector arithmetic (12 R178, R179, 14). -/
def vectorForms : List Form :=
  let f3 := fun (i : Nat) => i * 2 ^ 29
  let b := fun (kind : Nat) (shift : Bool) => match kind with
    | 0 => Opd.reg .v 16 | 1 => .reg .x 16 | _ => if shift then .uimm 16 5 else .simm 16 5
  let kinds : List (String × Nat) := [(".VV", 0), (".VX", 1), (".VI", 2)]
  let group := fun (l : List String) (m : Nat) => withNames l fun n i => { name := n, word := f3 i + m, opds := [] }
  let expand := fun (l : List Form) => l.flatMap (fun f => kinds.map (fun (sfx, k) =>
    { f with name := f.name ++ sfx, word := f.word - f.word % 2 ^ 29 + major (f.word % 2 ^ 29 + k)
             opds := [.vd, .reg .v 21, b k (f.name == "VSHL" || f.name == "VSHR" || f.name == "VSRA"), .mask 26], stall := true }))
  let cmp := fun (pre : String) (l : List String) (m : Nat) (ks : List (String × Nat)) =>
    (withNames l fun n i => { name := pre ++ n, word := f3 i, opds := [] }).flatMap (fun f => ks.map (fun (sfx, k) =>
      { f with name := f.name ++ sfx, word := f.word + major (m + k)
               opds := [.md, .reg .v 21, b k false, .mask 26], stall := true }))
  let fl := kinds.take 2
  [{ name := "VSETVL", word := major 0x28, opds := [.xd, .reg .x 16, .reg .x 21] },
   { name := "VSETVLI", word := major 0x2C, opds := [.xd, .reg .x 16, .request] }] ++
  expand (group ["VADD", "VSUB", "VMUL", "VMULH", "VMACC", "VDIV", "VREM", "VMIN"] 0x30 ++
    group ["VAND", "VOR", "VXOR", "VSHL", "VSHR", "VSRA", "VSADD", "VSSUB"] 0x33 ++ group ["VMAX"] 0x36) ++
  cmp "VCMP." ["EQ", "NE", "LT", "LE", "GT", "GE"] 0x39 kinds ++
  (withNames ["VFADD", "VFSUB", "VFMUL", "VFMACC", "VFNMSAC", "VFDIV", "VFMIN", "VFMAX"] fun n i =>
    { name := n, word := f3 i, opds := [] }).flatMap (fun f => fl.map (fun (sfx, k) =>
      { f with name := f.name ++ sfx, word := f.word + major (0x3C + k)
               opds := [.vd, .reg .v 21, b k false, .mask 26], stall := true })) ++
  cmp "VFCMP." ["EQ", "NE", "LT", "LE", "GT", "GE", "UN"] 0x3E fl ++
  withNames ["VFSQRT", "VFCLASS", "VEXP2", "VLOG2", "VRCP", "VRSQ", "VSIN", "VCOS"]
    (fun n i => { name := n, word := major 0x40 + f3 i, opds := [.vd, .reg .v 21, .mask 26], stall := i < 2 }) ++
  withNames ["VFCVT.TO", "VFCVT.FROM"] (fun n i =>
    { name := n, word := major 0x41 + f3 i, opds := [.vd, .reg .v 21, .fmt 16, .mask 26], stall := true, mods := [("CS", 30)] })

/-- Permutes, reductions, masks, sparse and block forms (12 R180, 14). -/
def permuteForms : List Form :=
  let f := fun (n : String) (m i : Nat) (o : List Opd) (st : Bool) => ({ name := n, word := major m + i * 2 ^ 29, opds := o, stall := st } : Form)
  let va := Opd.reg .v 21
  [f "VMV.VV" 0x42 0 [.vd, va, .mask 26] true, f "VMERGE.VV" 0x42 1 [.vd, va, .reg .v 16, .mask 26] true,
   f "VSLIDEUP.VX" 0x42 2 [.vd, va, .reg .x 16, .mask 26] false, f "VSLIDEDN.VX" 0x42 3 [.vd, va, .reg .x 16, .mask 26] false,
   f "VPERM.VV" 0x42 4 [.vd, va, .reg .v 16, .mask 26] false, f "VIOTA" 0x42 5 [.vd, .reg .m 16, .mask 26] false,
   f "VEXTX" 0x42 6 [.xd, va, .reg .x 16] false, f "VINSX" 0x42 7 [.vd, .reg .x 16, .reg .x 21] false,
   f "VBCAST.VX" 0x43 0 [.vd, .reg .x 16, .mask 26] true, f "VBCAST.VI" 0x43 1 [.vd, .simm 16 5, .mask 26] true,
   f "VSLIDEUP.VI" 0x43 2 [.vd, va, .uimm 16 5, .mask 26] false, f "VSLIDEDN.VI" 0x43 3 [.vd, va, .uimm 16 5, .mask 26] false,
   f "VMERGE.VX" 0x43 4 [.vd, va, .reg .x 16, .mask 26] true, f "VMERGE.VI" 0x43 5 [.vd, va, .simm 16 5, .mask 26] true] ++
  withNames ["SUM", "MIN", "MAX", "AND", "OR", "XOR"] (fun n i => f ("VRED." ++ n) 0x44 i [.vd, va, .reg .v 16, .mask 26] false) ++
  withNames ["O", "T", "MIN", "MAX"] (fun n i => f ("VFRED." ++ n) 0x45 i [.vd, va, .reg .v 16, .mask 26] false) ++
  withNames ["MAND", "MOR", "MXOR"] (fun n i => f n 0x46 i [.md, .reg .m 16, .reg .m 21] true) ++
  [f "MNOT" 0x46 3 [.md, .reg .m 16] true, f "MPOPC" 0x46 4 [.xd, .reg .m 16, .mask 26] true,
   f "MFIRST" 0x46 5 [.xd, .reg .m 16, .mask 26] true, f "MMV" 0x46 6 [.md, .reg .m 16] true] ++
  withNames ["VCOMPRESS", "VCOMPRESS.VL", "VEXPAND", "VPPOPC", "VCONFL", "VRANK"] (fun n i => f n 0x47 i [.vd, va, .mask 26] false) ++
  [f "VKCOUNT" 0x47 6 [.vd, va, .reg .x 16, .mask 26] false, f "VNFBLK" 0x47 7 [.md, va, .mask 26] false] ++
  withNames ["VSCAN.ADD", "VSCAN.MIN", "VSCAN.MAX", "VSCAN.FADD"] (fun n i => f n 0x48 i [.vd, va, .reg .m 16, .mask 26] false) ++
  withNames ["VCOMPRESS.KEEPNF", "VCOMPRESS.KEEPNF.VL"] (fun n i => f n 0x48 (4 + i) [.vd, va, .mask1 16, .mask 26] false) ++
  [f "VSTOP" 0x49 0 [] false, f "VPID" 0x49 1 [.vd, .mask 26] false, f "VRAND" 0x49 2 [.vd, .mask 26] true,
   { name := "VFETCH", word := major 0x4A, opds := [.br19, .mask 11] }, { name := "VPJ", word := major 0x4B, opds := [.br19, .mask 11] }]

/-- Vector memory and atomics (12 R181, 15 R236, R246). -/
def vectorMemoryForms : List Form :=
  let ey : List (String × Nat) := [("E", 30), ("Y", 31)]
  let vm := fun (n : String) (m : Nat) (o : List Opd) =>
    ({ name := n, word := major m, opds := o ++ [.class_ 26, .mask 1], mods := ey } : Form)
  let d := Opd.vd
  let s := Opd.reg .v 11
  let vamo := fun (pre : String) (m : Nat) =>
    [["ADD", "AND", "OR", "XOR"], ["MIN", "MAX", "MINN", "MAXN"], ["SWAP", "CAS", "FADD"]].zipIdx.flatMap (fun (l, g) =>
      withNames l (fun n i => ({ name := pre ++ n, word := major (m + g) + i * 2 ^ 30, opds := [.vd, .memIdx, .class_ 26, .mask 1] } : Form)))
  [vm "VLD" 0x50 [d, .mem 16], vm "VLDS" 0x51 [d, .mem 16, .reg .x 21], vm "VLDX" 0x52 [d, .memIdx], vm "VLDF" 0x53 [d, .mem 16],
   vm "VST" 0x54 [s, .mem 16], vm "VSTS" 0x55 [s, .mem 16, .reg .x 21], vm "VSTX" 0x56 [s, .memIdx], vm "VST.G" 0x57 [s, .mem 16],
   vm "VSTX.G" 0x58 [s, .memIdx], { vm "VLD.SC" 0x59 [d, .mem 16] with mods := [] }, { vm "VST.SC" 0x5A [s, .mem 16] with mods := [] }] ++
  vamo "VAMO." 0x5B ++ vamo "VAMO.F." 0x5E

/-- Synchronisation, copies and tag waits (12 R182, 15). -/
def syncForms : List Form :=
  let sub := fun (i : Nat) => major 0x63 + i * 2 ^ 28
  let byScope := fun (f : Form) => withNames scopeNames (fun s i => { f with name := f.name ++ "." ++ s, word := f.word + i * 2 ^ 21 })
  [{ name := "FENCE.C", word := major 0x61, opds := [.uimm 16 16] }, { name := "FENCE.P", word := major 0x62, opds := [.paths 21, .paths 26] }] ++
  byScope { name := "FENCE.S", word := sub 0, opds := [] } ++ byScope { name := "FENCE.A", word := sub 1, opds := [.reg .x 16] } ++
  byScope { name := "BWAIT", word := sub 2, opds := [.reg .x 16] } ++
  [{ name := "HPOST", word := sub 3, opds := [.uimm 21 4, .reg .x 16] }, { name := "HWAIT", word := sub 4, opds := [.uimm 21 4, .reg .x 16] },
   { name := "HFSET", word := sub 5, opds := [.reg .hf 21, .pubOpt] }, { name := "HFSET.CLR", word := sub 5 + 2 ^ 27, opds := [.reg .hf 21] },
   { name := "HFWAIT", word := sub 6, opds := [.reg .hf 21, .state] }] ++
  withNames ["CPY", "CPY2", "CPYX"] (fun n i => { name := n, word := major (0x64 + i), opds := [.mem 11, .mem 16, .reg .x 21, .uimm 26 6] }) ++
  withNames ["TWAITALL", "TWAITANY", "TFIRST"] (fun n i => { name := n, word := major 0x67 + i * 2 ^ 26, opds := [.xdOpt, .reg .x 16] }) ++
  [{ name := "COLL", word := major 0x68, opds := [.xd, .mem 16] }]

/-- Matrix and Graver forms (12 R183, R184, 16, 17). -/
def engineForms : List Form :=
  let mm : List (String × Nat) := [("Z", 22), ("SAT", 23), ("CG", 19), ("CR", 20), ("IV", 21)]
  [{ name := "GATH", word := major 0x69, opds := [.reg .l 26, .mem 16, .reg .x 21] },
   { name := "MMA.GR", word := major 0x6A, opds := [.reg .q 1, .reg .l 16, .reg .pl 17, .reg .hf 11, .colBlock], mods := mm },
   { name := "MMA.RG", word := major 0x6B, opds := [.reg .q 1, .reg .l 16, .reg .pl 17, .reg .hf 11, .colBlock], mods := mm },
   { name := "MMAG", word := major 0x6C, opds := [.reg .q 1, .mem 27, .reg .pl 17, .reg .hf 11, .colBlock], mods := mm },
   { name := "MZERO", word := major 0x6D, opds := [.reg .q 1] }, { name := "MWAIT", word := major 0x6D + 2 ^ 26, opds := [.uimm 21 3] },
   { name := "PLOAD", word := major 0x6D + 2 * 2 ^ 26, opds := [.reg .pl 11, .mem 16] },
   { name := "TDRAIN", word := major 0x6E, opds := [.vd, .reg .q 1, .fmt 16, .pos, .plateOpt], mods := [("T", 21), ("C", 22), ("IV", 23)] },
   { name := "TFILL", word := major 0x6F + 2 ^ 20, opds := [.reg .q 1, .reg .v 11, .pos] },
   { name := "GLOAD", word := major 0x70, opds := [.reg .gt 11, .mem 16] },
   { name := "GSET", word := major 0x70 + 2 ^ 26, opds := [.reg .gt 11, .reg .x 16, .reg .x 21] },
   { name := "GSTATE.R", word := major 0x70 + 2 * 2 ^ 26, opds := [.vd] },
   { name := "GSTATE.W", word := major 0x70 + 3 * 2 ^ 26, opds := [.reg .v 16] },
   { name := "GRUN", word := major 0x71, opds := [.vd, .reg .v 16, .reg .v 21, .reg .gt 29, .mask 26] },
   { name := "GRUN1", word := major 0x71 + 2 ^ 31, opds := [.vd, .reg .v 16, .reg .gt 29, .mask 26] },
   { name := "GCMP", word := major 0x72, opds := [.md, .reg .gt 29, .uimm 16 3, .mask 26] },
   { name := "GFIN", word := major 0x72 + 2 ^ 31, opds := [.vd, .reg .gt 29, .mask 26] }]

/-- Compact forms (12 R174). -/
def compactForms : List Form :=
  let c := fun (n : String) (op : Nat) (o : List Opd) => ({ name := n, word := op * 2, opds := o, short := true } : Form)
  [c "C.ADD" 1 [.reg .x 6], c "C.SUB" 2 [.reg .x 6], c "C.AND" 3 [.reg .x 6], c "C.OR" 4 [.reg .x 6], c "C.XOR" 5 [.reg .x 6],
   c "C.ADDI" 6 [.simm 6 10], c "C.SHLI" 7 [.uimm 6 6], c "C.SHRI" 8 [.uimm 6 6], c "C.MOV" 9 [.reg .x 6], c "C.LI" 10 [.simm 6 10],
   c "C.BNEZ" 11 [.brC], c "C.BEQZ" 12 [.brC], c "C.NOP" 13 [], c "CV.ADD" 14 [.reg .v 6], c "CV.FADD" 15 [.reg .v 6],
   c "CV.FMUL" 16 [.reg .v 6], c "CV.FMACC" 17 [.reg .v 6, .reg .v 11], c "CV.MV" 18 [.reg .v 6]]

/-- Every form. -/
def forms : List Form :=
  scalarForms ++ floatForms ++ memoryForms ++ vectorForms ++ permuteForms ++ vectorMemoryForms ++ syncForms ++ engineForms ++ compactForms

/-- The bits of the suffixes written after a form's name, in the form's order. -/
def suffixBits : List (String × Nat) → Text → Option Nat
  | _, [] => some 0
  | [], _ :: _ => none
  | (n, b) :: l, t =>
    let p := '.' :: n.toList
    if p.isPrefixOf t && (match t.drop p.length with | [] => true | c :: _ => c == '.') then
      (suffixBits l (t.drop p.length)).map (· + 2 ^ b)
    else suffixBits l t

/-- The form of a mnemonic, with the bits of its suffixes. -/
def formOf (mn : Text) : Option (Form × Nat) :=
  forms.findSome? fun f =>
    let n := f.name.toList
    if n.isPrefixOf mn then (suffixBits f.mods (mn.drop n.length)).map (fun b => (f, b)) else none

/-! ### Reading operands -/

/-- A relocation that an instruction carries: its type, its symbol and its addend (21 R332). -/
structure Reloc where
  typ : Nat
  sym : String
  add : Word
  deriving DecidableEq, Repr

/-- What reading operands gathers: the bits of the word and a relocation; whether a target or an immediate failed to fit. -/
structure Enc where
  bits : Nat
  rel  : Option Reloc := none
  deriving DecidableEq, Repr

def Enc.put (e : Enc) (lo v : Nat) : Enc := { e with bits := e.bits ||| v * 2 ^ lo }

/-- A numbered name of a kind. -/
def kindOf (k : RegKind) (t : Text) : Option Nat := (regOf t).bind (fun p => if p.1 = k then some p.2 else none)

/-- The text before and inside the last parentheses of a memory operand. -/
def memParts (t : Text) : Option (Text × Text) :=
  match t.reverse with
  | ')' :: r =>
    let inside := (r.takeWhile (· != '(')).reverse
    let before := (r.drop (inside.length + 1)).reverse
    if r.length = inside.length then none else some (trim before, trim inside)
  | _ => none

/-- A signed value that fits some bits, as those bits. -/
def fitSigned (bits : Nat) (v : Int) : Option Nat :=
  if -(2 ^ (bits - 1) : Int) ≤ v ∧ v < 2 ^ (bits - 1) then some (v % 2 ^ bits).toNat else none

/-- A signed value that must fit some bits. -/
def Env.fit (e : Env) (bits : Nat) (v : Int) : Option Nat := (fitSigned bits v).or (if e.loose then some 0 else none)

def Env.signed (e : Env) (bits : Nat) (t : Text) : Option Nat := (e.abs t).bind (fun v => e.fit bits v.toInt)

/-- A target as a count of halfwords from the instruction; one in another section is relocated, and in a loose pass one out of
range counts as the farthest (log entry 54, DEDUCED). -/
def Env.target (e : Env) (bits typ : Nat) (t : Text) : Option (Nat × Option Reloc) :=
  (e.eval t).bind fun v =>
    match v.sym with
    | some s => if typ = 0 then none else some (0, some ⟨typ, s, v.v⟩)
    | none =>
      let d := v.v.toInt - (e.here : Int)
      if e.lenient then some (0, none)
      else if d % 2 ≠ 0 then none
      else ((fitSigned bits (d / 2)).or (if e.loose then some (2 ^ (bits - 1)) else none)).map (fun n => (n, none))

/-- A class: a declared name, which the linker numbers, or a number. -/
def Env.classNo (e : Env) (t : Text) : Option (Nat × Option Reloc) :=
  match (symbolOf t).bind (fun n => (e.syms.find? (fun p => p.1 == n)).map (fun p => (n, p.2))) with
  | some (n, SymVal.cls k) => some (k, some ⟨6, n, 0⟩)
  | _ => (e.nat 2047 t).map (fun n => (n, none))

/-- The VTYPE request of VSETVLI (12 R178, 01 R7): each field at most once. R7 gives every field but FMT a value where it is left out;
a request that names no format is rejected (log entry 55, DEDUCED). -/
def requestOf (l : List Text) : Option (Nat × Option Nat) :=
  let names : List (String × Nat × Nat) :=
    (formatNames.zipIdx.map (fun p => (p.1, 1, p.2))) ++ (roundNames.zipIdx.map (fun p => (p.1, 2, p.2 * 2 ^ 1))) ++
      [("LMUL2", 3, 1 * 2 ^ 5), ("LMUL4", 3, 2 * 2 ^ 5), ("LMUL8", 3, 3 * 2 ^ 5), ("TILE", 4, 2 ^ 7), ("BL16", 5, 1 * 2 ^ 8),
       ("BL32", 5, 2 * 2 ^ 8), ("TDIM2", 6, 1), ("TDIM4", 6, 2), ("TDIM8", 6, 3), ("TDIM16", 6, 4)]
  (l.mapM (fun t => names.find? (fun p => p.1 == str (upper t)))).bind fun fs =>
    let kinds := fs.map (fun p => p.2.1)
    if kinds.eraseDups.length ≠ kinds.length ∨ ¬kinds.contains 1 then none else
      let sum := fun (k : Nat) => (fs.filter (fun p => p.2.1 = k)).foldl (fun a p => a + p.2.2) 0
      let td := sum 6
      let low := sum 1 + sum 3 + sum 4 + sum 5 + td % 2 * 2 ^ 10
      some (low * 2 ^ 21 + td / 2 * 2 ^ 4 + sum 2, none)

/-- One operand of a form: the new encoding and the operands left. -/
def readOpd (e : Env) (o : Opd) (l : List Text) (c : Enc) : Option (Enc × List Text) :=
  let one := fun (f : Text → Option Enc) => match l with | t :: r => (f t).map (fun c => (c, r)) | [] => none
  let opt := fun (f : Text → Option Enc) => match l with | t :: r => (match f t with | some c => some (c, r) | none => some (c, l)) | [] => some (c, l)
  let putReg := fun (k : RegKind) (lo : Nat) (t : Text) => (kindOf k t).map (c.put lo)
  match o with
  | .xd => one (putReg .x 11) | .vd => one (putReg .v 11) | .md => one (putReg .m 11)
  | .xdOpt => if l.length ≥ 2 then one (putReg .x 11) else some (c, l)
  | .reg k lo => one (putReg k lo)
  | .mem lo => one fun t => (memParts t).bind (fun p => if p.1.isEmpty then putReg .x lo p.2 else none)
  | .memIdx => one fun t => (memParts t).bind fun p =>
      match splitCommas 0 [] p.2 with
      | [a, v] => if p.1.isEmpty then (kindOf .x a).bind (fun a => (kindOf .v v).map (fun v => (c.put 16 a).put 21 v)) else none
      | _ => none
  | .memOff size => one fun t => (memParts t).bind fun p => (kindOf .x p.2).bind fun a =>
      (if p.1.isEmpty then some 0 else e.abs p.1).bind fun v =>
        if v.toInt % (size : Int) ≠ 0 then none else (e.fit 7 (v.toInt / (size : Int))).map (fun i => (c.put 16 a).put 25 i)
  | .memJump => one fun t => (memParts t).bind fun p => (kindOf .x p.2).bind fun a =>
      (if p.1.isEmpty then some 0 else e.abs p.1).bind fun v =>
        if v.toInt % 2 ≠ 0 then none else (e.fit 11 (v.toInt / 2)).map (fun i => (c.put 16 a).put 21 i)
  | .simm lo bits => one fun t => (e.signed bits t).map (c.put lo)
  | .uimm lo bits => one fun t => (e.nat (2 ^ bits - 1) t).map (c.put lo)
  | .br14 => one fun t => (e.target 14 4 t).map (fun p => { (c.put 21 (p.1 / 8)).put 1 (p.1 % 8) with rel := p.2 })
  | .br19 => one fun t => (e.target 19 5 t).map (fun p => { (c.put 16 (p.1 / 8)).put 1 (p.1 % 8) with rel := p.2 })
  | .brC => one fun t => (e.target 10 0 t).map (fun p => c.put 6 p.1)
  | .fmt lo => one fun t => (nameIn (formatNames.take 17) t).map (c.put lo)
  | .sys => one fun t => ((systemOf t).or (e.nat 2047 t)).map (c.put 21)
  | .state => one fun t => (nameIn ["EMPTY", "FULL"] t).map (c.put 26)
  | .paths lo => one fun t => (pathsOf t).map (c.put lo)
  | .cls lo => one fun t => (e.classNo t).map (fun p => { c.put lo p.1 with rel := p.2 })
  | .request => (requestOf l).map (fun p => ({ c with bits := c.bits ||| p.1 }, []))
  | .round => opt fun t => (nameIn roundNames t).map (c.put 29)
  | .class_ lo => match l with
      | t :: r => if (regOf t).isSome then some (c, l) else (e.nat 15 t).map (fun n => (c.put lo n, r))
      | [] => some (c, l)
  | .mask lo => opt (putReg .m lo)
  | .mask1 lo => one fun t => ((kindOf .m t).filter (· ≠ 0)).map (c.put lo)
  | .colBlock => match l with | t :: r => (e.nat 7 t).map (fun n => (c.put 24 n, r)) | [] => some (c, l)
  | .pos => opt (putReg .x 27)
  | .plateOpt => opt (putReg .pl 24)
  | .pubOpt => opt fun t => (kindOf .v t).map (fun v => (c.put 11 v).put 26 1)

/-- Every operand of a form; none may be left over. -/
def readOpds (e : Env) : List Opd → List Text → Enc → Option Enc
  | [], [], c => some c
  | [], _ :: _, _ => none
  | o :: os, l, c => (readOpd e o l c).bind (fun p => readOpds e os p.2 p.1)

/-! ### What a word writes -/

/-- An instruction word as assembled. -/
structure Ins where
  form : Form
  word : Nat
  rel  : Option Reloc

/-- The x register an instruction writes: its named destination. -/
def Ins.xDest (i : Ins) : Option Nat := if i.form.opds.any (fun o => o == .xd || o == .xdOpt) then some (i.word / 2 ^ 11 % 32) else none

/-- What is known where an instruction stands: the last x and v destinations, and the length multiplier and element width (05 R72). -/
structure Known where
  ldx : Option Nat
  ldv : Option Nat
  vt  : Option (Nat × Nat)

/-- Nothing is known: at the start of a function, at a label, after a call. -/
def Known.start : Known := ⟨none, none, none⟩

/-- The vector group that a form writes from `d` on spans some registers: the current length multiplier, eight for TDRAIN, and the
width of the code's format for a conversion from FMT (14 R212); the largest aligned group where the VTYPE is not known. -/
def Ins.span (i : Ins) (k : Known) (d : Nat) : Nat :=
  if i.form.name == "TDRAIN" then 8
  else match k.vt with
    | some (lmul, sew) =>
      if i.form.name == "VFCVT.TO" then ((Fmt.ofCode (i.word / 2 ^ 16 % 32)).map (fun f => max 1 (min 8 (lmul * f.sew / sew)))).getD lmul
      else lmul
    | none => if d % 8 = 0 then 8 else if d % 4 = 0 then 4 else if d % 2 = 0 then 2 else 1

/-- A compact form writes the last x destination, or the last v destination (12 R174). -/
def Ins.shortX (i : Ins) : Bool := i.form.short && decide (1 ≤ i.word / 2 % 32 ∧ i.word / 2 % 32 ≤ 10)
def Ins.shortV (i : Ins) : Bool := i.form.short && decide (14 ≤ i.word / 2 % 32)

/-- The state other than registers that a form writes, as bits of WRITES (20 R321). -/
def Ins.extra (i : Ins) : List Nat :=
  let n := i.form.name
  let maj := i.word / 16 % 128
  let sys := i.word / 2 ^ 21
  (if n == "VSETVL" ∨ n == "VSETVLI" ∨ n == "VLDF" ∨ n == "VCOMPRESS.VL" ∨ n == "VCOMPRESS.KEEPNF.VL" then [72] else []) ++
  (if !i.form.short ∧ ((0xC ≤ maj ∧ maj ≤ 0xF ∧ i.word / 2 ^ 26 % 8 ≠ 7) ∨ (n.startsWith "FCVT.") ∨ (0x3C ≤ maj ∧ maj ≤ 0x3F) ∨
      (maj = 0x40 ∧ n != "VFCLASS") ∨ maj = 0x41 ∨ maj = 0x45 ∨ n == "VSCAN.FADD" ∨ n == "VFETCH" ∨
      (0x6A ≤ maj ∧ maj ≤ 0x6C) ∨ n == "TDRAIN" ∨ (n == "SWR" ∧ (sys = 0x25 ∨ (0x28 ≤ sys ∧ sys ≤ 0x2C)))) ∨
      (i.form.short ∧ (n == "CV.FADD" ∨ n == "CV.FMUL" ∨ n == "CV.FMACC")) then [73] else []) ++
  (if n == "GRUN" ∨ n == "GRUN1" ∨ n == "GSTATE.W" then [74] else []) ++
  (if n == "GLOAD" ∨ n == "GSET" then [75] else []) ++
  (if n == "VRAND" ∨ (n == "SWR" ∧ sys = 0x20) then [76] else [])

/-- The v register groups that an instruction may write begin at these registers: all where LDV is not known. -/
def Ins.vDests (i : Ins) (k : Known) : List Nat :=
  if i.form.opds.contains .vd then [i.word / 2 ^ 11 % 32]
  else if i.shortV then match k.ldv with | some d => [d] | none => List.range 32
  else []

/-- The bits of WRITES for an instruction (log entry 55, DEDUCED). -/
def Ins.writes (i : Ins) (k : Known) : List Nat :=
  let d := i.word / 2 ^ 11 % 32
  let xs := match i.xDest with
    | some x => [x]
    | none => if i.shortX then match k.ldx with | some x => [x] | none => List.range 32 else []
  xs.filter (fun x => x ≠ 0 ∧ x ≠ 2) ++
  (i.vDests k).flatMap (fun d => ((List.range (i.span k d)).map (fun j => 32 + d + j)).filter (· < 64)) ++
  (if i.form.opds.contains .md ∧ d ≠ 0 then [64 + d] else []) ++ i.extra

/-- What is known after an instruction (log entry 55, DEDUCED). -/
def Known.after (k : Known) (i : Ins) : Known :=
  let n := i.form.name
  if n == "JAL" ∨ n == "JALR" ∨ n == "CALLI" then Known.start
  else
    let k := { k with
      ldx := i.xDest.or k.ldx
      ldv := if i.form.opds.contains .vd then some (i.word / 2 ^ 11 % 32) else k.ldv }
    if n == "VSETVLI" then
      { k with vt := (Fmt.ofCode (i.word / 2 ^ 21 % 32)).map (fun f => (if i.word / 2 ^ 28 % 2 = 1 then 8 else 2 ^ (i.word / 2 ^ 26 % 4), f.sew)) }
    else if n == "VSETVL" then { k with vt := none } else k

/-- The copy tag an instruction takes. -/
def Ins.tag (i : Ins) : Option Nat := if ["CPY", "CPY2", "CPYX"].contains i.form.name then some (i.word / 2 ^ 26) else none

/-- A word that R185 forbids on the Bureau. -/
def bureauBad (i : Ins) : Bool :=
  if i.form.short then i.form.name.startsWith "CV." else
    let m := i.word / 16 % 128
    (0xC ≤ m ∧ m ≤ 0xF) || (0x28 ≤ m ∧ m ≤ 0x60) || (0x64 ≤ m ∧ m ≤ 0x68) || (0x6E ≤ m ∧ m ≤ 0x72) ||
      (m = 0x63 ∧ (i.word / 2 ^ 28 = 1 ∨ i.word / 2 ^ 28 = 2 ∨ (i.word / 2 ^ 28 = 5 ∧ i.word / 2 ^ 26 % 2 = 1))) ||
      (m = 0x26 ∧ (i.word / 2 ^ 26 = 4 ∨ i.word / 2 ^ 26 = 5 ∨ i.word / 2 ^ 26 = 7))

/-- Assemble one instruction: mnemonic, operands and stall count (21 R328, 01 R5). -/
def assembleOne (e : Env) (mn rest : Text) : Option Ins :=
  (formOf (upper mn)).bind fun (f, mods) =>
    let ops := rest.takeWhile (· != '!')
    let tail := rest.drop ops.length
    let stall : Option Nat := match tail with | [] => some 0 | _ :: t => if f.stall then e.nat 7 t else none
    (operandsOf ops).bind fun l => stall.bind fun s =>
      (readOpds e f.opds l ⟨f.word + mods, none⟩).map (fun c => ⟨f, c.bits + s * 2, c.rel⟩)

/-- The compact form of a 32-bit word after an instruction that writes register `r` (21 R333): the compact word, and
whether it is a branch, whose offset is in its bits. -/
def compactOf (w r : Nat) : Option Nat :=
  let rd := w / 2 ^ 11 % 32
  let rs1 := w / 2 ^ 16 % 32
  let rs2 := w / 2 ^ 21 % 32
  let c := fun (op v : Nat) => some (op * 2 + v * 2 ^ 6)
  let imm : Int := (BitVec.ofNat 11 (w / 2 ^ 21)).toInt
  let off : Int := (BitVec.ofNat 14 (w / 2 ^ 21 * 8 + w / 2 % 8)).toInt
  let maj := w / 16 % 128
  let br := fun (op : Nat) => if rd = r ∧ rs1 = 0 then (fitSigned 10 off).bind (c op) else none
  match maj with
  | 0x18 => br 12
  | 0x19 => br 11
  | _ =>
    if w / 2 % 8 ≠ 0 ∨ rd ≠ r then none else
    match maj with
    | 1 =>
      if rs1 = r then match w / 2 ^ 26 with | 0 => c 1 rs2 | 1 => c 2 rs2 | 9 => c 3 rs2 | 10 => c 4 rs2 | 11 => c 5 rs2 | _ => none
      else if w / 2 ^ 26 = 0 ∧ rs2 = 0 then c 9 rs1 else none
    | 2 => if rs1 = r then (fitSigned 10 imm).bind (c 6) else if rs1 = 0 then (fitSigned 10 imm).bind (c 10) else none
    | 6 => if rs1 = r then c 7 (w / 2 ^ 21) else none
    | 7 => if rs1 = r then c 8 (w / 2 ^ 21) else none
    | _ => none

end Sys2Proof.Fjas
end

