-- ==== Sys2Proof/Machine/Ocsor.lean ====
section
/-! DEFINITION. Ocsor objects as data, writing one and reading one (20 R316 to R321, 21 R332). -/

namespace Sys2Proof.Ocsor

open Sys2Proof.Machine

/-- A section: type, flags, log2 of its alignment, its bytes, its size, its LINK index (none for 0xFFFF_FFFF). -/
structure Sec where
  typ   : Nat
  flags : Nat
  align : Nat
  bytes : List Byte
  size  : Nat
  link  : Option Nat
  deriving DecidableEq, Repr

/-- A symbol: its name, its section (none if undefined), whether it is global, value and size. -/
structure Sym where
  name  : List Byte
  sec   : Option Nat
  glob  : Bool
  value : Nat
  size  : Nat
  deriving DecidableEq, Repr

/-- A relocation of a word of a section. -/
structure Rel where
  sec : Nat
  off : Nat
  sym : Nat
  typ : Nat
  add : Word
  deriving DecidableEq, Repr

/-- An object. The SYMBOLS and RELOCS sections stand as lists; `secs` holds the others. -/
structure Obj where
  isa   : Nat
  mmrev : Nat
  notes : List (List Byte)
  secs  : List Sec
  syms  : List Sym
  rels  : List Rel
  deriving DecidableEq, Repr

/-- The next multiple of a power of two. -/
def alignUp (k n : Nat) : Nat := (n + 2 ^ k - 1) / 2 ^ k * 2 ^ k

def zeros (n : Nat) : List Byte := List.replicate n 0

/-! ### Writing -/

/-- Offsets of pieces that follow one another, each aligned; and the end. -/
def place : Nat → List (Nat × Nat) → List Nat × Nat
  | at_, [] => ([], at_)
  | at_, (k, n) :: l => let o := alignUp k at_; let p := place (o + n) l; (o :: p.1, p.2)

/-- The bytes of pieces at their offsets, padded with zeros, from a position. -/
def join : Nat → List (Nat × List Byte) → List Byte
  | _, [] => []
  | at_, (o, b) :: l => zeros (o - at_) ++ b ++ join (o + b.length) l

/-- The bytes of an object: header, section table, notes, sections in order (SYMBOLS and then one RELOCS section for each
section that has relocations come last), and the names. -/
def Obj.write (o : Obj) : List Byte :=
  let symIx := o.secs.length
  let relSecs := ((List.range o.secs.length).filter (fun k => o.rels.any (fun r => r.sec = k)))
  let blank := fun (typ n : Nat) (link : Option Nat) => (⟨typ, 0, 3, zeros n, n, link⟩ : Sec)
  let secs := o.secs ++ [blank 9 (24 * o.syms.length) none] ++
    relSecs.map (fun k => blank 10 (24 * (o.rels.filter (fun r => r.sec = k)).length) (some k))
  let tabEnd := 64 + 32 * secs.length
  let notes := o.notes.flatten
  let (offs, fin) := place (tabEnd + notes.length) (secs.map (fun s => (s.align, s.bytes.length)))
  let (nameOffs, _) := place fin (o.syms.map (fun s => (0, s.name.length + 1)))
  let symBytes := (o.syms.zip nameOffs).flatMap (fun (s, n) =>
    toBytes 4 n ++ toBytes 2 (s.sec.getD 0xFFFF) ++ [if s.glob then 1 else 0, 0] ++ toBytes 8 s.value ++ toBytes 8 s.size)
  let relBytes := fun (k : Nat) => (o.rels.filter (fun r => r.sec = k)).flatMap (fun r =>
    toBytes 8 r.off ++ toBytes 4 r.sym ++ toBytes 2 r.typ ++ zeros 2 ++ toBytes 8 r.add.toNat)
  let body := (secs.zipIdx.zip offs).map (fun ((s, i), off) =>
    (off, if i < symIx then s.bytes else if i = symIx then symBytes else relBytes (s.link.getD 0)))
  let table := (secs.zip offs).flatMap (fun (s, off) =>
    toBytes 2 s.typ ++ toBytes 2 s.flags ++ [BitVec.ofNat 8 s.align] ++ zeros 3 ++ toBytes 8 off ++ toBytes 8 s.size ++
      toBytes 4 (s.link.getD 0xFFFFFFFF) ++ zeros 4)
  [0x4F, 0x43, 0x53, 0x01, 1, BitVec.ofNat 8 o.mmrev] ++ zeros 2 ++ toBytes 4 o.isa ++ toBytes 2 secs.length ++
    toBytes 2 o.notes.length ++ toBytes 8 64 ++ toBytes 8 tabEnd ++ toBytes 8 notes.length ++ zeros 24 ++
    table ++ notes ++ join (tabEnd + notes.length) body ++ o.syms.flatMap (fun s => s.name ++ [0])

/-! ### Reading -/

/-- The notes of a note area, each whole; the area holds exactly the count. -/
def readNotes : Nat → List Byte → Option (List (List Byte))
  | 0, [] => some []
  | 0, _ :: _ => none
  | n + 1, bs =>
    let len := 12 + alignUp 2 (fieldOf bs 0 4) + alignUp 2 (fieldOf bs 4 4)
    if bs.length < len then none else (readNotes n (bs.drop len)).map (fun l => bs.take len :: l)

/-- The bytes from an offset up to a zero. -/
def nameAt (bs : List Byte) (off : Nat) : Option (List Byte) :=
  let t := bs.drop off
  let n := t.takeWhile (· != 0)
  if n.length < t.length then some n else none

/-- The fields of a section-table entry that R317 and R318 fix. -/
def secOk (size nsec : Nat) (e : List Byte) (typ flags align off len link : Nat) : Bool :=
  (flags < 16) && (1 ≤ align) && (align ≤ 16) && (fieldOf e 5 3 == 0) && (fieldOf e 28 4 == 0) && (off % 2 ^ align == 0) &&
  (if typ = 3 then off ≤ size else off + len ≤ size) && (link < nsec || link == 0xFFFFFFFF) &&
  (match typ with
    | 1 => flags / 4 % 2 == 1 && flags / 8 % 2 == 0
    | 4 => 4 ≤ align
    | 5 => 3 ≤ align
    | 7 => len % 40 == 0
    | 9 => len % 24 == 0
    | 10 => len % 24 == 0 && link < nsec
    | _ => true)

/-- A CLASSES section: entries of class number and member indices; none if its lengths do not fit. -/
def readClasses (members : Nat) : Nat → List Byte → Option (List (Nat × List Nat))
  | 0, _ => none
  | _ + 1, [] => some []
  | f + 1, bs =>
    let k := fieldOf bs 4 4
    let ms := (List.range k).map (fun i => fieldOf bs (8 + 4 * i) 4)
    if bs.length < 8 + 4 * k ∨ fieldOf bs 0 2 > 2047 ∨ fieldOf bs 2 2 ≠ 0 ∨ ms.any (fun m => members ≤ m) then none
    else (readClasses members f (bs.drop (8 + 4 * k))).map (fun l => (fieldOf bs 0 2, ms) :: l)

/-- One entry of the section table as a section. -/
def readSec (bs : List Byte) (nsec tab i : Nat) : Option Sec :=
  let e := (bs.drop (tab + 32 * i)).take 32
  let typ := fieldOf e 0 2
  let off := fieldOf e 8 8
  let len := fieldOf e 16 8
  let link := fieldOf e 24 4
  if secOk bs.length nsec e typ (fieldOf e 2 2) (fieldOf e 4 1) off len link then
    some ⟨typ, fieldOf e 2 2, fieldOf e 4 1, if typ = 3 then [] else (bs.drop off).take len, len, if link < nsec then some link else none⟩
  else none

/-- The records of 24 bytes of a section. -/
def rows (s : Sec) : List (List Byte) := (List.range (s.size / 24)).map (fun i => (s.bytes.drop (24 * i)).take 24)

/-- One SYMBOLS entry; `back` gives the place of a section among those kept. -/
def readSym (bs : List Byte) (back : Nat → Option Nat) (r : List Byte) : Option Sym :=
  let sec := fieldOf r 4 2
  match nameAt bs (fieldOf r 0 4) with
  | none => none
  | some n =>
    if fieldOf r 6 1 > 1 ∨ fieldOf r 7 1 ≠ 0 ∨ (sec ≠ 0xFFFF ∧ (back sec).isNone) then none
    else some ⟨n, if sec = 0xFFFF then none else back sec, fieldOf r 6 1 == 1, fieldOf r 8 8, fieldOf r 16 8⟩

/-- One RELOCS entry of a section. -/
def readRel (nsym : Nat) (k : Nat) (r : List Byte) : Option Rel :=
  if fieldOf r 8 4 ≥ nsym ∨ fieldOf r 14 2 ≠ 0 ∨ fieldOf r 12 2 = 0 ∨ fieldOf r 12 2 > 6 then none
  else some ⟨k, fieldOf r 0 8, fieldOf r 8 4, fieldOf r 12 2, BitVec.ofNat 64 (fieldOf r 16 8)⟩

/-- The faults of a header (R316). -/
def headBad (bs : List Byte) : Bool :=
  let nsec := fieldOf bs 12 2
  let tab := fieldOf bs 16 8
  let notes := fieldOf bs 24 8
  decide (bs.length < 64) || (fieldOf bs 0 4 != 0x0153434F) || (fieldOf bs 4 1 != 1) || (fieldOf bs 6 2 != 0) || (fieldOf bs 11 1 != 0) ||
    (nsec == 0) || (tab % 8 != 0) || decide (tab + 32 * nsec > bs.length) || (notes % 4 != 0) ||
    decide (notes + fieldOf bs 32 8 > bs.length) || (fieldOf bs 40 24 != 0)

/-- Every bit that WRITES may hold (R321). -/
def allWrites : Nat := 2 ^ 77 - 1 - 1 - 2 ^ 2 - 2 ^ 64

/-- A register-needs record holds zeros where R321 says so, and a class of R323 or 0xFFFF. -/
def needOk (r : List Byte) : Bool :=
  (fieldOf r 8 16 &&& allWrites == fieldOf r 8 16) && decide (fieldOf r 32 4 < 2) && (fieldOf r 38 2 == 0) &&
    (decide (fieldOf r 36 2 < 2048) || fieldOf r 36 2 == 0xFFFF)

/-- The records of 40 bytes of a NEEDS section. -/
def needRows (s : Sec) : List (List Byte) := (List.range (s.size / 40)).map (fun i => (s.bytes.drop (40 * i)).take 40)

/-- The tables refer to one another as R321, R323 and R332 say. -/
def tablesOk (secs : List Sec) (rels : List Rel) : Bool :=
  let needs := ((secs.filter (fun s => s.typ = 7)).map (fun s => s.size / 40)).sum
  rels.all (fun r => (secs[r.sec]?).any (fun s => decide (r.off + (if r.typ = 1 then 8 else 4) ≤ s.bytes.length))) &&
    secs.all (fun s => s.typ != 8 || (readClasses needs (s.size + 1) s.bytes).isSome) &&
    secs.all (fun s => s.typ != 7 || ((needRows s).all needOk && (s.link.bind (fun k => secs[k]?)).any (fun t => t.typ = 1)))

/-- The object that bytes hold: none where a header or table fault makes them malformed (R316 to R319, R321, R332). -/
def read (bs : List Byte) : Option Obj :=
  let nsec := fieldOf bs 12 2
  let tab := fieldOf bs 16 8
  if headBad bs then none else do
    let ns ← readNotes (fieldOf bs 14 2) ((bs.drop (fieldOf bs 24 8)).take (fieldOf bs 32 8))
    let all ← (List.range nsec).mapM (readSec bs nsec tab)
    let kept := all.zipIdx.filter (fun p => p.1.typ != 9 && p.1.typ != 10)
    let back := fun (k : Nat) => kept.findIdx? (fun p => p.2 = k)
    let syms ← ((all.filter (fun s => s.typ = 9)).flatMap rows).mapM (readSym bs back)
    let rels ← (all.filter (fun s => s.typ = 10)).mapM (fun s => (s.link.bind back).bind (fun k => (rows s).mapM (readRel syms.length k)))
    let secs := kept.map (fun p => { p.1 with link := p.1.link.bind back })
    if tablesOk secs rels.flatten then some ⟨fieldOf bs 8 4, fieldOf bs 5 1, ns, secs, syms, rels.flatten⟩ else none

/-! ### Register-needs records (R321) -/

/-- A NEEDS record. -/
structure Need where
  entry   : Nat
  writes  : Nat
  tags    : Nat
  unknown : Bool
  cls     : Nat
  deriving DecidableEq, Repr

def Need.bytes (n : Need) : List Byte :=
  toBytes 8 n.entry ++ toBytes 16 n.writes ++ toBytes 8 n.tags ++ toBytes 4 n.unknown.toNat ++ toBytes 2 n.cls ++ zeros 2

def readNeeds (s : Sec) : List Need :=
  (needRows s).map (fun r =>
    ⟨fieldOf r 0 8, fieldOf r 8 16, fieldOf r 24 8, fieldOf r 32 4 % 2 == 1, fieldOf r 36 2⟩)

def classBytes (l : List (Nat × List Nat)) : List Byte :=
  l.flatMap (fun (n, ms) => toBytes 2 n ++ zeros 2 ++ toBytes 4 ms.length ++ ms.flatMap (toBytes 4))

/-! ### Relocating a word (R332) -/

/-- k of R330. -/
def adpcK (s p : Int) : Int := (s - p + 1024) / 2048

/-- lo of R330. -/
def adpcLo (s p : Int) : Int := s - p - 2048 * adpcK s p

/-- Set a field of a number. -/
def setField (w lo bits v : Nat) : Nat := w - w / 2 ^ lo % 2 ^ bits * 2 ^ lo + v % 2 ^ bits * 2 ^ lo

/-- The relocated value of the word `w` at P, for S + A; none if the value is odd or out of range. -/
def patch (typ : Nat) (w : Nat) (sa : Word) (p : Nat) : Option Nat :=
  let s : Int := sa.toInt
  let d : Int := s - (p : Int)
  match typ with
  | 1 => some sa.toNat
  | 2 => (Fjas.fitSigned 16 (adpcK s p)).map (setField w 16 16)
  | 3 => (Fjas.fitSigned 11 (adpcLo s (p - 4))).map (setField w 21 11)
  | 4 => if d % 2 ≠ 0 then none else (Fjas.fitSigned 14 (d / 2)).map (fun o => setField (setField w 21 11 (o / 8)) 1 3 o)
  | 5 => if d % 2 ≠ 0 then none else (Fjas.fitSigned 19 (d / 2)).map (fun o => setField (setField w 16 16 (o / 8)) 1 3 o)
  | 6 => if sa.toNat > 2047 then none else some (if w / 16 % 128 = 0x20 then setField w 21 11 sa.toNat else setField w 16 11 sa.toNat)
  | _ => none

/-- The bytes of a section with one relocation applied. -/
def patchBytes (bs : List Byte) (r : Rel) (s : Word) (base : Nat) : Option (List Byte) :=
  let n := if r.typ = 1 then 8 else 4
  (patch r.typ (fieldOf bs r.off n) (s + r.add) (base + r.off)).map (fun v => bs.take r.off ++ toBytes n v ++ bs.drop (r.off + n))

end Sys2Proof.Ocsor
end

