-- ==== Sys2Proof/Machine/Assemble.lean ====
section
/-! DEFINITION. fjas, the passes over a source file: lines, directives, images, pseudo-instructions, compact selection, and the
object written (21 R326, R330 to R333; 20 R321, R323). -/

namespace Sys2Proof.Fjas

open Sys2Proof.Machine
open Sys2Proof.Ocsor (Need alignUp zeros)

/-- The sections fjas fills, in the order in which they stand in the object. -/
def sText : Nat := 0
def sData : Nat := 1
def sPlate : Nat := 2
def sGraver : Nat := 3
def sLaunch : Nat := 4

/-- A section as it grows: its pieces, newest first, its size and its alignment. -/
structure SecBuf where
  pieces : List (List Byte)
  size   : Nat
  align  : Nat

def SecBuf.add (b : SecBuf) (bs : List Byte) : SecBuf := { b with pieces := bs :: b.pieces, size := b.size + bs.length }
def SecBuf.bytes (b : SecBuf) : List Byte := b.pieces.reverse.flatten

/-- An open `.proc`: its name, its start, its class, what it writes so far, and what is known where it stands. -/
structure ProcSt where
  name    : String
  start   : Nat
  cls     : Option (Nat ⊕ String)
  writes  : List Nat
  tags    : List Nat
  unknown : Bool
  known   : Known

/-- An open image. -/
inductive Block
  | plate (name : String) (p : Plate)
  | graver (name : String) (t : GTable)

/-- A closed `.proc`. -/
structure ProcRec where
  need : Need
  cls  : Option (Nat ⊕ String)

/-- The state of a pass. `syms` and `long` come from the pass before, `lenient` and `loose` say which pass it is; the rest grows. -/
structure Pass where
  syms    : Symbols
  long    : List Nat
  lenient : Bool
  loose   : Bool
  sect    : Nat := sText
  bureau  : Bool := false
  compact : Bool := false
  bufs    : List SecBuf := [⟨[], 0, 1⟩, ⟨[], 0, 1⟩, ⟨[], 0, 4⟩, ⟨[], 0, 3⟩, ⟨[], 0, 3⟩]
  defs    : Symbols := []
  globals : List String := []
  named   : List String := []
  numbers : List Nat := []
  rels    : List (Nat × Nat × Reloc) := []
  prevX   : Option Nat := none
  ix      : Nat := 0
  newLong : List Nat := []
  block   : Option Block := none
  proc    : Option ProcSt := none
  procs   : List ProcRec := []

/-- A step over the state of a pass; none where the line is rejected. -/
abbrev Do := Option Pass

def Pass.buf (p : Pass) (k : Nat) : SecBuf := p.bufs.getD k ⟨[], 0, 1⟩
def Pass.here (p : Pass) : Nat := (p.buf p.sect).size
def Pass.env (p : Pass) : Env := ⟨p.sect, p.here, p.syms, p.lenient, p.loose⟩
def Pass.emitTo (p : Pass) (k : Nat) (bs : List Byte) : Pass := { p with bufs := p.bufs.set k ((p.buf k).add bs) }
def Pass.emit (p : Pass) (bs : List Byte) : Pass := p.emitTo p.sect bs

/-- Two definitions of one name may stand beside each other: labels of TEXT and of DATA. The name of an image or a template is no
label's (21 R331). -/
def apart : SymVal → SymVal → Bool
  | .label k _ _, .label j _ _ => k != j && decide (k ≤ sData) && decide (j ≤ sData)
  | _, _ => false

/-- A new symbol; a reserved name and a second definition in one section are rejected (log entry 54, DEDUCED). -/
def Pass.define (p : Pass) (n : String) (v : SymVal) : Do :=
  if reserved n ∨ p.defs.any (fun d => d.1 == n && !apart d.2 v) then none else some { p with defs := p.defs ++ [(n, v)] }

/-- Padding to an alignment: C.NOP in TEXT, zero bytes elsewhere. -/
def Pass.alignTo (p : Pass) (k n : Nat) : Pass :=
  let b := p.buf k
  let gap := alignUp n b.size - b.size
  let fill := if k = sText then zeros (gap % 2) ++ (List.replicate (gap / 2) (toBytes 2 26)).flatten else zeros gap
  let b := b.add fill
  { p with bufs := p.bufs.set k { b with align := max b.align n }, prevX := if k = sText then none else p.prevX }

/-- What an instruction adds to the open function. -/
def ProcSt.see (q : ProcSt) (i : Ins) : ProcSt :=
  { q with
    writes := i.writes q.known ++ q.writes
    tags := i.tag.toList ++ q.tags
    unknown := q.unknown || (i.form.name == "JALR" && i.word / 2 ^ 11 % 32 != 0)
    known := q.known.after i }

/-- What the next instruction may take as the last x destination (R333). -/
def nextX (prev : Option Nat) (i : Ins) : Option Nat :=
  if i.form.short then (if 1 ≤ i.word / 2 % 32 ∧ i.word / 2 % 32 ≤ 10 then prev else none)
  else if ["JAL", "JALR", "CALLI"].contains i.form.name then none else i.xDest

/-- Put an instruction into TEXT, made compact where R333 says so. A branch that is made compact and does not fit keeps its place of two
bytes in this pass and is 32 bits long in the next. -/
def Pass.putIns (p : Pass) (i : Ins) (keep : Bool := false) : Do :=
  if p.sect ≠ sText ∨ p.here % 2 = 1 ∨ (p.bureau ∧ bureauBad i) then none else
    let isBr := i.form.opds.contains .br14
    let cand := p.compact && !keep && !i.form.short && !p.long.contains p.ix
    let short := if cand && i.rel.isNone then p.prevX.bind (compactOf i.word) else none
    let couldBe := cand && isBr && p.prevX == some (i.word / 2 ^ 11 % 32) && i.word / 2 ^ 16 % 32 == 0 &&
      (i.form.name == "BNE" || i.form.name == "BEQ")
    let bs := match short with | some c => toBytes 2 c | none => toBytes (if i.form.short || couldBe then 2 else 4) i.word
    let p1 := { p with
      rels := p.rels ++ (i.rel.map (fun r => (sText, p.here, r))).toList, prevX := nextX p.prevX i, ix := p.ix + 1
      newLong := if couldBe && short.isNone then p.ix :: p.newLong else p.newLong
      numbers := if (i.form.name == "CALLI" ∨ i.form.name == "CMARK") ∧ i.rel.isNone then
          (if i.form.name == "CALLI" then i.word / 2 ^ 21 else i.word / 2 ^ 16 % 2048) :: p.numbers else p.numbers
      proc := p.proc.map (fun (q : ProcSt) => q.see i) }
    some (p1.emit bs)

/-- An instruction built from a form's name and its word's operand bits (log entry 55, DEDUCED). -/
def insOf (name : String) (word : Nat) (rel : Option Reloc := none) : Option Ins :=
  (forms.find? (fun f => f.name == name)).map (fun f => ⟨f, f.word + word, rel⟩)

/-- The bits of ADDI xd, xa, imm with a stall count, and of LIH. -/
def addiBits (d a : Nat) (imm : Int) (s : Nat) : Nat := d * 2 ^ 11 + a * 2 ^ 16 + (imm % 2048).toNat * 2 ^ 21 + s * 2
def lihBits (d v s : Nat) : Nat := d * 2 ^ 11 + v % 65536 * 2 ^ 16 + s * 2

/-- LI (R330): the words of the shortest sequence (log entry 55, DEDUCED). -/
def liWords (d : Nat) (v : Word) (s : Nat) : Option (List Ins) :=
  let half := fun (k : Nat) => v.toNat / 2 ^ (16 * k)
  let fits := fun (c : Nat) => decide (-(2 ^ (16 * c - 1) : Int) ≤ v.toInt ∧ v.toInt < 2 ^ (16 * c - 1))
  let tail := fun (c : Nat) => ((List.range c).reverse).mapM (fun k => insOf "LIH" (lihBits d (half k) (if k = 0 then s else 0)))
  if -1024 ≤ v.toInt ∧ v.toInt ≤ 1023 then (insOf "ADDI" (addiBits d 0 v.toInt s)).map (fun i => [i])
  else
    match [1, 2, 3].find? fits with
    | some c => (insOf "ADDI" (addiBits d 0 (if v.toInt < 0 then -1 else 0) 0)).bind (fun i => (tail c).map (fun l => i :: l))
    | none => tail 4

/-- The stall count written after `!`, and the operands before it. -/
def stallOf (e : Env) (rest : Text) : Option (Text × Nat) :=
  let ops := rest.takeWhile (· != '!')
  match rest.drop ops.length with
  | [] => some (ops, 0)
  | _ :: t => (e.nat 7 t).map (fun n => (ops, n))

/-- LI and LA (R330); LA's words are never made compact. -/
def Pass.pseudo (p : Pass) (mn rest : Text) : Do := do
  let (ops, s) ← stallOf p.env rest
  match ← operandsOf ops with
  | [d, v] =>
    let d ← kindOf .x d
    if mn == "LI".toList then
      (← liWords d (← p.env.abs v) s).foldlM (fun q i => q.putIns i) p
    else
      let e ← p.env.eval v
      let at_ : Int := p.here
      match e.sym with
      | some y =>
        let p ← p.putIns (← insOf "ADPC" (d * 2 ^ 11) (some ⟨2, y, e.v⟩)) true
        p.putIns (← insOf "ADDI" (addiBits d d 0 s) (some ⟨3, y, e.v⟩)) true
      | none =>
        let k ← p.env.fit 16 (Ocsor.adpcK e.v.toInt at_)
        let p ← p.putIns (← insOf "ADPC" (lihBits d k 0)) true
        p.putIns (← insOf "ADDI" (addiBits d d (Ocsor.adpcLo e.v.toInt at_) s)) true
  | _ => none

/-! ### Directives (R331) -/

/-- Values of some bytes each; an address of another section is relocated as a `.dword`. -/
def Pass.values (p : Pass) (n : Nat) (l : List Text) : Do :=
  l.foldlM (fun q t => do
    let e ← q.env.eval t
    match e.sym with
    | some y => if n = 8 then some (({ q with rels := q.rels ++ [(q.sect, q.here, ⟨1, y, e.v⟩)] } : Pass).emit (zeros 8)) else none
    | none =>
      if e.v.toInt < 2 ^ (8 * n) ∧ -(2 ^ (8 * n - 1) : Int) ≤ e.v.toInt then some (q.emit (toBytes n (e.v.toInt % 2 ^ (8 * n)).toNat))
      else if q.loose then some (q.emit (zeros n)) else none) { p with prevX := if p.sect = sText then none else p.prevX }

/-- The class of a `.proc`: a declared name or a number. -/
def Pass.classArg (p : Pass) (t : Text) : Option (Nat ⊕ String) :=
  match symbolOf t with
  | some n => if p.lenient ∨ p.syms.any (fun d => d.1 == n && (match d.2 with | .cls _ => true | _ => false)) then some (.inr n) else none
  | none => (p.env.nat 2047 t).map .inl

/-- `.proc`: CMARK comes first where a class is given. -/
def Pass.openProc (p : Pass) (l : List Text) : Do := do
  if p.proc.isSome ∨ p.sect ≠ sText then none else
  let n ← (l.head?).bind symbolOf
  let cls ← match l.tail with | [] => some none | [c] => (p.classArg c).map some | _ => none
  let p := { p with proc := some ⟨n, p.here, cls, [], [], false, Known.start⟩, prevX := none }
  match cls with
  | none => some p
  | some (.inl k) => p.putIns (← insOf "CMARK" (k * 2 ^ 16))
  | some (.inr c) => p.putIns (← insOf "CMARK" 0 (some ⟨6, c, 0⟩))

/-- `.endproc`: the record and the symbol with its size (log entry 55, DEDUCED). -/
def Pass.closeProc (p : Pass) : Do := do
  let q ← p.proc
  if p.sect ≠ sText then none else
  let sum := fun (l : List Nat) => l.eraseDups.foldl (fun a b => a + 2 ^ b) 0
  let p ← p.define q.name (.label sText q.start (p.here - q.start))
  some { p with proc := none, procs := p.procs ++ [⟨⟨q.start, sum q.writes, sum q.tags, q.unknown, 0xFFFF⟩, q.cls⟩] }

/-- The keys of a LAUNCH template with offset and size in it, and the greatest value (07 R107; the template holds bytes 16 on). -/
def launchKeys : List (String × Nat × Nat × Nat) :=
  [("entry", 0, 8, 2 ^ 64 - 1), ("bureau", 8, 8, 2 ^ 64 - 1), ("n", 16, 8, 2 ^ 64 - 1), ("mask", 24, 8, 2 ^ 64 - 1),
   ("t", 32, 4, 2 ^ 32 - 1), ("energy", 36, 4, 2 ^ 32 - 1), ("g0", 40, 1, 255), ("gmax", 41, 1, 255), ("gmin", 42, 1, 255),
   ("cosched", 43, 1, 1), ("hatch", 43, 1, 16), ("segs", 44, 1, 255)] ++
  (List.range 8).map (fun i => ("arg" ++ toString i, 48 + 8 * i, 8, 2 ^ 64 - 1))

/-- `.launch`: a template of 112 bytes, its addresses relocated. -/
def Pass.launch (p : Pass) (l : List Text) : Do := do
  let n ← (l.head?).bind symbolOf
  let pairs ← l.tail.mapM (fun t =>
    let k := t.takeWhile (· != '=')
    if k.length < t.length then some (str (trim k), trim (t.drop (k.length + 1))) else none)
  if (pairs.map (fun q => q.1)).eraseDups.length ≠ pairs.length then none else
  let p := p.alignTo sLaunch 3
  let at_ := (p.buf sLaunch).size
  let start : List Byte := zeros 40 ++ [8, 8, 1] ++ zeros 69
  let env : Env := { p.env with sect := sLaunch, here := at_ }
  let (bs, rels) ← pairs.foldlM (fun (acc : List Byte × List (Nat × Nat × Reloc)) (k, t) => do
    let (_, off, size, max) ← launchKeys.find? (fun q => q.1 == k)
    let e ← env.eval t
    match e.sym with
    | some y => if size = 8 then some (acc.1, acc.2 ++ [(sLaunch, at_ + off, ⟨1, y, e.v⟩)]) else none
    | none =>
      if e.v.toNat > max then none else
        let v := if k == "hatch" then fieldOf acc.1 off 1 + 2 * e.v.toNat
          else if k == "cosched" then fieldOf acc.1 off 1 + e.v.toNat else e.v.toNat
        some (acc.1.take off ++ toBytes size v ++ acc.1.drop (off + size), acc.2)) (start, [])
  let p ← p.define n (.label sLaunch at_ 112)
  some (({ p with rels := p.rels ++ rels } : Pass).emitTo sLaunch bs)

/-- The groups in parentheses of a text. -/
def groupsOf : Nat → Text → Option (List Text)
  | 0, t => if t.isEmpty then some [] else none
  | f + 1, t =>
    match t.dropWhile isBlank with
    | [] => some []
    | '(' :: r =>
      let g := r.takeWhile (· != ')')
      if g.length < r.length then (groupsOf f (r.drop (g.length + 1))).map (fun l => g :: l) else none
    | _ => none

/-- An involution entry (23 R335). -/
def invEntry (e : Env) (d : Nat) (g : Text) : Option Byte :=
  match splitCommas 0 [] g with
  | [s, r] => do
    let sign ← if s == ['0'] ∨ s == ['+'] then some 0 else if s == ['1'] ∨ s == ['-'] then some 1 else none
    let src ← e.nat (d - 1) r
    some (BitVec.ofNat 8 (sign * 0x80 + src))
  | _ => none

/-- A line of a `.plate` block. -/
def plateLine (e : Env) (pl : Plate) (d : String) (l : List Text) : Option Plate :=
  match d, l with
  | ".INV", k :: kind :: rest => do
    let k ← e.nat 1 k
    let anti ← if upper kind == "ANTI".toList then some 1 else if upper kind == "AUTO".toList then some 0 else none
    let gs ← rest.mapM (fun t => groupsOf (t.length + 1) t)
    let es ← gs.flatten.mapM (invEntry e pl.d)
    if es.length > pl.d then none else
    let es := es ++ List.replicate (pl.d - es.length) 0
    let kd := pl.kind.toNat - pl.kind.toNat / 2 ^ k % 2 * 2 ^ k + anti * 2 ^ k
    some (if k = 0 then { pl with kind := BitVec.ofNat 8 kd, inv0 := es } else { pl with kind := BitVec.ofNat 8 kd, inv1 := es })
  | ".T", [a, b, c, v] => do
    let a ← e.nat (pl.d - 1) a
    let b ← e.nat (pl.d - 1) b
    let c ← e.nat (pl.d - 1) c
    let v ← e.nat 255 v
    if v ≠ 0 ∧ (pl.codeVal v).isNone then none else some { pl with cube := pl.cube.set ((a * pl.d + b) * pl.d + c) (BitVec.ofNat 8 v) }
  | ".POOL", [i, v] => do
    let i ← e.nat 63 i
    some { pl with pool := pl.pool.set i (BitVec.ofNat 32 (← f32Of v)) }
  | _, _ => none

/-- A line of a `.graver` block (24 R337). -/
def graverLine (e : Env) (t : GTable) (d : String) (l : List Text) : Option GTable :=
  match d, l with
  | ".EDGE", [s, y, nx, out] => do
    let s ← e.nat (t.ns - 1) s
    let y ← e.nat (t.symbols - 1) y
    let nx ← e.nat 63 nx
    let out ← e.nat 7 out
    some { t with entry := t.entry.set (s * t.symbols + y) (BitVec.ofNat 16 (0x8000 + nx * 8 + out)) }
  | ".FINAL", s :: v :: fs => do
    let s ← e.nat (t.ns - 1) s
    let v ← e.nat 7 v
    let fs ← fs.mapM (e.nat 7)
    if fs.length > 2 then none else
    some { t with final := t.final.set s (BitVec.ofNat 16 (v * 2 ^ 8 + fs.length * 2 ^ 6 + fs.getD 1 0 * 2 ^ 3 + fs.getD 0 0)) }
  | _, _ => none

/-- Open an image. -/
def Pass.openImage (p : Pass) (d : String) (l : List Text) : Do :=
  match d, l with
  | ".PLATE", [n, dm] => do
    let n ← symbolOf n
    let dm ← p.env.nat 16 dm
    if plateDim dm then
      some { p with block := some (.plate n ⟨dm, 0, List.replicate dm 0, List.replicate dm 0, List.replicate 64 0, List.replicate (dm * dm * dm) 0⟩) }
    else none
  | ".GRAVER", n :: w :: ar :: dir :: st :: ns :: nd :: rest => do
    let n ← symbolOf n
    let w ← p.env.nat 3 w
    let bin ← if upper ar == "BINARY".toList then some true else if upper ar == "UNARY".toList then some false else none
    let msd ← if upper dir == "MSD".toList then some true else if upper dir == "LSD".toList then some false else none
    let chain ← match rest with | [] => some false | [c] => if upper c == "CHAIN".toList then some true else none | _ => none
    let st ← p.env.nat 63 st
    let ns ← p.env.nat 64 ns
    let nd ← p.env.nat 64 nd
    let t : GTable := ⟨w, bin, msd, chain, st, ns, nd, List.replicate 64 0, []⟩
    if t.headOk then some { p with block := some (.graver n { t with entry := List.replicate (ns * t.symbols) 0 }) } else none
  | _, _ => none

/-- Close an image: its bytes and its symbol. -/
def Pass.closeImage (p : Pass) (k : Nat) (n : String) (al : Nat) (bs : List Byte) : Do := do
  let p := p.alignTo k al
  let p ← p.define n (.label k (p.buf k).size bs.length)
  some (({ p with block := none } : Pass).emitTo k bs)

/-- A line inside an image block. -/
def Pass.inBlock (p : Pass) (b : Block) (d : String) (l : List Text) : Do :=
  match b with
  | .plate n pl =>
    if d == ".ENDPLATE" then
      if pl.firstBad.isSome then none else p.closeImage sPlate n 4 (pl.image.take (320 + pl.d * pl.d * pl.d))
    else (plateLine p.env pl d l).map (fun q => { p with block := some (.plate n q) })
  | .graver n t =>
    if d == ".ENDGRAVER" then p.closeImage sGraver n 3 t.image
    else (graverLine p.env t d l).map (fun q => { p with block := some (.graver n q) })

/-- A directive outside an image block. -/
def Pass.directive (p : Pass) (d : String) (l : List Text) : Do :=
  match d, l with
  | ".TEXT", [] => some { p with sect := sText, bureau := false }
  | ".BUREAU", [] => some { p with sect := sText, bureau := true }
  | ".DATA", [] => some { p with sect := sData }
  | ".COMPACT", [] => some { p with compact := true }
  | ".NOCOMPACT", [] => some { p with compact := false }
  | ".ALIGN", [n] => (p.env.nat 16 n).bind (fun n => if n = 0 then none else some (p.alignTo p.sect n))
  | ".BYTE", l => p.values 1 l
  | ".HALF", l => p.values 2 l
  | ".WORD", l => p.values 4 l
  | ".DWORD", l => p.values 8 l
  | ".WORD.F32", l => (l.mapM f32Of).map (fun vs =>
      ({ p with prevX := if p.sect = sText then none else p.prevX } : Pass).emit (vs.flatMap (toBytes 4)))
  | ".ZERO", [n] => (p.env.nat (2 ^ 64 - 1) n).map (fun n =>
      ({ p with prevX := if p.sect = sText then none else p.prevX } : Pass).emit (zeros n))
  | ".EQU", [n, v] => do p.define (← symbolOf n) (.abs (← p.env.abs v))
  | ".GLOBAL", [n] => (symbolOf n).map (fun n => { p with globals := n :: p.globals })
  | ".CLASS", [n] => do
    let n ← symbolOf n
    let p ← p.define n (.cls 0)
    some { p with named := p.named ++ [n] }
  | ".PROC", l => p.openProc l
  | ".ENDPROC", [] => p.closeProc
  | ".LAUNCH", l => p.launch l
  | d, l => p.openImage d l

/-! ### Lines -/

/-- The label of a line and what follows it. -/
def labelOf (t : Text) : Option String × Text :=
  let n := t.takeWhile isName
  match (t.drop n.length).dropWhile isBlank with
  | ':' :: r => match symbolOf n with | some s => (some s, trim r) | none => (none, t)
  | _ => (none, t)

/-- One line. -/
def Pass.line (p : Pass) (t : Text) : Do := do
  let (lab, t) := labelOf (trim (uncomment t))
  let p ← match lab with
    | some n => if p.block.isSome then none else
        (p.define n (.label p.sect p.here 0)).map (fun q =>
          if q.sect = sText then { q with prevX := none, proc := q.proc.map (fun f => { f with known := Known.start }) } else q)
    | none => some p
  if t.isEmpty then some p else
  let mn := upper (t.takeWhile (fun c => !isBlank c))
  let rest := trim (t.drop mn.length)
  match p.block with
  | some b => do p.inBlock b (str mn) (← operandsOf rest)
  | none =>
    if mn.head? == some '.' then do p.directive (str mn) (← operandsOf rest)
    else if mn == "LI".toList ∨ mn == "LA".toList then p.pseudo mn rest
    else (assembleOne p.env mn rest).bind (fun i => p.putIns i)

/-- A line in a pass: in a loose pass a rejected line leaves the state as it is. -/
def Pass.lineOr (p : Pass) (no : Nat) (t : Text) : Except Nat Pass :=
  match p.line t with
  | some q => .ok q
  | none => if p.loose then .ok p else .error no

/-- The classes of a file: the numbers used as written, then each declared name with the least number not used
(log entry 55, DEDUCED). -/
def Pass.classNumbers (p : Pass) : List (Nat × Option String) :=
  let nums := (p.numbers ++ p.procs.filterMap (fun q => match q.cls with | some (.inl k) => some k | _ => none)).eraseDups
  let free := (List.range 2048).filter (fun k => !nums.contains k)
  nums.map (fun k => (k, none)) ++ (free.zip p.named).map (fun q => (q.1, some q.2))

/-- The symbols that a pass defines, the declared classes numbered (log entry 54, DEDUCED). -/
def Pass.symbols (p : Pass) : Symbols :=
  p.defs.map (fun d => match d.2 with
    | .cls _ => (d.1, .cls (((p.classNumbers.find? (fun q => q.2 == some d.1)).map (fun q => q.1)).getD 0))
    | v => (d.1, v))

/-- One pass over the lines. -/
def runPass (lines : List Text) (syms : Symbols) (long : List Nat) (lenient loose : Bool) : Except Nat Pass :=
  lines.zipIdx.foldlM (fun p (t, i) => p.lineOr (i + 1) t) ({ syms := syms, long := long, lenient := lenient, loose := loose } : Pass)

/-- Lenient passes until the symbols settle. -/
def settle (lines : List Text) (long : List Nat) : Nat → Symbols → Option Symbols
  | 0, _ => none
  | f + 1, syms =>
    match runPass lines syms long true true with
    | .error _ => none
    | .ok p => if p.symbols = syms then some syms else settle lines long f p.symbols

/-- Every candidate is made compact first; branches that do not fit are turned back until nothing changes (R333). Only then, with the
layout final, is a line rejected. -/
def passes (lines : List Text) : Nat → List Nat → Except Nat Pass
  | 0, _ => .error 0
  | f + 1, long =>
    match settle lines long (lines.length + 16) [] with
    | none => .error 0
    | some syms =>
      match (runPass lines syms long false true).map (fun p => p.newLong) with
      | .error n => .error n
      | .ok (b :: bs) => passes lines f (b :: bs ++ long)
      | .ok [] =>
        match runPass lines syms long false false with
        | .error n => .error n
        | .ok p =>
        if p.symbols ≠ syms ∨ p.block.isSome ∨ p.proc.isSome ∨
            p.globals.any (fun g => p.symbols.all (fun d => d.1 != g || (match d.2 with | .abs _ => true | _ => false))) ∨
            p.named.length > (p.classNumbers.filter (fun q => q.2.isSome)).length then .error lines.length
        else .ok p

/-! ### The object -/

/-- The bytes of a name. -/
def nameBytes (n : String) : List Byte := n.toList.map (fun c => BitVec.ofNat 8 c.toNat)

/-- The object of a pass. Its sections: TEXT, then those of DATA, PLATE, GRAVER and LAUNCH that hold something, then NEEDS and CLASSES
(log entry 54, DEDUCED). -/
def Pass.object (p : Pass) : Ocsor.Obj :=
  let kinds : List (Nat × Nat × Nat) := [(sText, 1, 6), (sData, 2, 10), (sPlate, 4, 2), (sGraver, 5, 2), (sLaunch, 6, 2)]
  let used := kinds.filter (fun q => q.1 = sText || (p.buf q.1).size != 0)
  let place := fun (k : Nat) => used.findIdx (fun q => q.1 = k)
  let mk := fun (q : Nat × Nat × Nat) =>
    (⟨q.2.1, q.2.2, (p.buf q.1).align, (p.buf q.1).bytes, (p.buf q.1).size, none⟩ : Ocsor.Sec)
  let classes := p.classNumbers
  let numOf := fun (c : Option (Nat ⊕ String)) => match c with
    | some (.inl k) => k
    | some (.inr n) => ((classes.find? (fun q => q.2 == some n)).map (fun q => q.1)).getD 0xFFFF
    | none => 0xFFFF
  let needs := p.procs.map (fun q => { q.need with cls := numOf q.cls })
  let needBytes := needs.flatMap Need.bytes
  let clsBytes := Ocsor.classBytes (classes.map (fun (k, _) => (k, (needs.zipIdx.filter (fun q => q.1.cls = k)).map (fun q => q.2))))
  let nNeed := if needs.isEmpty then [] else [(⟨7, 0, 3, needBytes, needBytes.length, some 0⟩ : Ocsor.Sec)]
  let nCls := if classes.isEmpty then [] else [(⟨8, 0, 2, clsBytes, clsBytes.length, if needs.isEmpty then none else some used.length⟩ : Ocsor.Sec)]
  let clsAt := used.length + nNeed.length
  let own := p.symbols.filterMap (fun d => match d.2 with
    | .abs _ => none
    | .label k off size => some (⟨nameBytes d.1, some (place k), p.globals.contains d.1, off, size⟩ : Ocsor.Sym)
    | .cls n => some ⟨nameBytes d.1, some clsAt, true, n, 0⟩)
  let unresolved := ((p.rels.map (fun r => r.2.2.sym)).filter (fun n => !p.defs.any (fun d => d.1 == n))).eraseDups
  let syms := own ++ unresolved.map (fun n => ⟨nameBytes n, none, true, 0, 0⟩)
  let rels := p.rels.map (fun (k, off, r) =>
    (⟨place k, off, syms.findIdx (fun y => y.name == nameBytes r.sym), r.typ, r.add⟩ : Ocsor.Rel))
  ⟨0x00030000, 1, [], used.map mk ++ nNeed ++ nCls, syms, rels⟩

/-- fjas: the object of a source file, or the line that it rejects (log entry 54, DEDUCED). -/
def assemble (src : Text) : Except Nat (List Byte) :=
  let lines := linesOf src
  match passes lines (2 * src.length + 2) [] with
  | .error n => .error n
  | .ok p => .ok p.object.write

end Sys2Proof.Fjas
end

