-- ==== Sys2Proof/Machine/Tools.lean ====
section
/-! DEFINITION. The host tools as events: fjas, the linker and the loader (20 R318 to R325, 21 R326, R332). -/

namespace Sys2Proof.Ocsor

open Sys2Proof.Machine

/-! ### Linking (R320, R322, R323) -/

/-- The sections that are joined by type: TEXT as one, the others by type and flags. -/
def joinKey (s : Sec) : Option (Nat × Nat) :=
  if s.typ = 1 then some (1, 0) else if 2 ≤ s.typ ∧ s.typ ≤ 6 then some (s.typ, s.flags) else none

/-- A section joins the linked ones: the new list, and where it stands (index and offset). NEEDS and CLASSES are rebuilt. -/
def joinSec (acc : List Sec) (s : Sec) : List Sec × (Nat × Nat) :=
  let fresh := (acc ++ [{ s with link := none }], (acc.length, 0))
  match joinKey s with
  | none => fresh
  | some k =>
    match acc.findIdx? (fun t => joinKey t == some k) with
    | none => fresh
    | some i =>
      match acc[i]? with
      | none => fresh
      | some t =>
        let off := alignUp s.align t.size
        let gap := off - t.size
        let fill := if s.typ = 1 then zeros (gap % 2) ++ (List.replicate (gap / 2) (toBytes 2 26)).flatten else zeros gap
        let bytes := if s.typ = 3 then [] else t.bytes ++ fill ++ s.bytes
        (acc.set i { t with flags := t.flags ||| s.flags, align := max t.align s.align, bytes := bytes, size := off + s.size }, (i, off))

/-- Where each section of each object came to stand; none for NEEDS and CLASSES (log entry 56, DEDUCED). -/
def joinAll (objs : List Obj) : List Sec × List (List (Option (Nat × Nat))) :=
  objs.foldl (fun (acc : List Sec × List (List (Option (Nat × Nat)))) o =>
    let r := o.secs.foldl (fun (a : List Sec × List (Option (Nat × Nat))) s =>
      if s.typ = 7 ∨ s.typ = 8 then (a.1, a.2 ++ [none])
      else let j := joinSec a.1 s; (j.1, a.2 ++ [some j.2])) (acc.1, [])
    (r.1, acc.2 ++ [r.2])) ([], [])

/-- The symbol names a signature class: it stands in a CLASSES section. -/
def Obj.isClass (o : Obj) (y : Sym) : Bool := (y.sec.bind (fun k => o.secs[k]?)).any (fun s => s.typ = 8)

/-- The records of an object, one NEEDS section after another, each with its section's LINK. -/
def Obj.needs (o : Obj) : List (Option Nat × Need) :=
  (o.secs.filter (fun s => s.typ = 7)).flatMap (fun s => (readNeeds s).map (fun n => (s.link, n)))

/-- The classes of an object: number, name where one is declared, member indices; a number that only a record's CLASS gives has none. -/
def Obj.classes (o : Obj) : List (Nat × Option (List Byte) × List Nat) :=
  let listed := ((o.secs.filter (fun s => s.typ = 8)).flatMap (fun s => (readClasses (2 ^ 32) (s.size + 1) s.bytes).getD [])).map (fun (n, ms) =>
    (n, (o.syms.find? (fun y => o.isClass y && y.value == n)).map (fun y => y.name), ms))
  listed ++ ((o.needs.map (fun n => n.2.cls)).filter (fun c => c ≠ 0xFFFF ∧ listed.all (fun l => l.1 ≠ c))).eraseDups.map (fun c => (c, none, []))

/-- The class of record `i`, by its CLASS and by the CLASSES entries that list it: 0xFFFF without one, none if there are two
(R323). -/
def Obj.classOf (o : Obj) (i : Nat) (n : Need) : Option Nat :=
  let listed := (o.classes.filter (fun c => c.2.2.contains i)).map (fun c => c.1)
  match (if n.cls = 0xFFFF then listed else n.cls :: listed).eraseDups with
  | [] => some 0xFFFF
  | [c] => some c
  | _ => none

/-- A signature: a name, or a number used as written. -/
abbrev Sig := List Byte ⊕ Nat

/-- The distinct signatures of the objects with their numbers: numbers as written, then names with the least number not used;
none when a number beyond 2,047 would be needed. -/
def numberSigs (objs : List Obj) : Option (List (Sig × Nat)) :=
  let all := objs.flatMap Obj.classes
  let nums := (all.filterMap (fun c => if c.2.1.isNone then some c.1 else none)).eraseDups
  let names := (all.filterMap (fun c => c.2.1)).eraseDups
  let free := (List.range 2048).filter (fun k => !nums.contains k)
  if names.length > free.length then none
  else some (nums.map (fun k => (Sum.inr k, k)) ++ (names.zip free).map (fun p => (Sum.inl p.1, p.2)))

def sigOf (n : Nat) (name : Option (List Byte)) : Sig := match name with | some b => .inl b | none => .inr n

def sigNo (sigs : List (Sig × Nat)) (g : Sig) : Nat := ((sigs.find? (fun p => p.1 == g)).map (fun p => p.2)).getD 0xFFFF

/-- The NEEDS records of an object, entries and classes as the linked object numbers them. -/
def linkNeeds (sigs : List (Sig × Nat)) (o : Obj) (at_ : List (Option (Nat × Nat))) : Option (List Need) :=
  o.needs.zipIdx.mapM (fun ((link, n), i) => do
    let delta := (link.bind (fun k => (at_[k]?).bind id)).map (fun p => p.2)
    let c ← o.classOf i n
    some { n with entry := n.entry + delta.getD 0
                  cls := if c = 0xFFFF then 0xFFFF
                    else sigNo sigs (sigOf c (((o.classes.find? (fun k => k.1 = c)).bind (fun k => k.2.1)))) })

/-- A defined symbol that is no class, in the linked object. -/
def linkSym (at_ : List (Option (Nat × Nat))) (y : Sym) : Option Sym :=
  match y.sec.bind (fun k => (at_[k]?).bind id) with
  | some (i, off) => some { y with sec := some i, value := y.value + off }
  | none => none

/-- Where a symbol of an object is found among the linked symbols: itself, or the global definition of its name. -/
def resolveSym (syms : List Sym) (o : Obj) (at_ : List (Option (Nat × Nat))) (y : Sym) : Nat :=
  let global := syms.findIdx (fun z => z.name == y.name && z.glob)
  if o.isClass y ∨ y.sec.isNone then global
  else match linkSym at_ y with
    | some z => if z.glob then global else syms.findIdx (fun w => w == z)
    | none => global

/-! ### What a function calls -/

/-- The instruction words of a stretch of TEXT with their offsets; a compact word is skipped. -/
def wordsIn (bs : List Byte) : Nat → Nat → Nat → List (Nat × Nat)
  | 0, _, _ => []
  | f + 1, at_, stop =>
    if stop ≤ at_ then []
    else if fieldOf bs at_ 1 % 2 = 0 then wordsIn bs f (at_ + 2) stop
    else (at_, fieldOf bs at_ 4) :: wordsIn bs f (at_ + 4) stop

/-- The end of the function that begins at an entry: by its symbol's size, else at the next entry or the end of TEXT. -/
def endOf (syms : List Sym) (needs : List Need) (text entry size : Nat) : Nat :=
  match syms.find? (fun y => y.sec == some text && y.value == entry && y.size != 0) with
  | some y => entry + y.size
  | none => (needs.map (fun n => n.entry)).foldl (fun e n => if entry < n ∧ n < e then n else e) size

/-- What a function calls: callees by index, classes, and whether a callee is not linked. -/
structure Calls where
  funs    : List Nat
  classes : List Nat
  lost    : Bool

/-- The calls of a function: JAL with a link register to another record's function, and CALLI. -/
def callsOf (text : Sec) (ix : Nat) (syms : List Sym) (needs : List Need) (pending : List Rel) (n : Need) : Calls :=
  let fin := endOf syms needs ix n.entry text.size
  let ranges := needs.map (fun m => (m.entry, endOf syms needs ix m.entry text.size))
  (wordsIn text.bytes (text.size + 1) n.entry fin).foldl (fun c (off, w) =>
    if w / 16 % 128 = 0x20 then { c with classes := w / 2 ^ 21 :: c.classes }
    else if w / 16 % 128 = 0x1E ∧ w / 2 ^ 11 % 32 ≠ 0 then
      if pending.any (fun r => r.sec = ix ∧ r.off = off) then { c with lost := true } else
      let d : Int := (BitVec.ofNat 19 (w / 2 ^ 16 * 8 + w / 2 % 8)).toInt
      let t := ((off : Int) + 2 * d).toNat
      if n.entry ≤ t ∧ t < fin then c
      else match ranges.findIdx? (fun p => p.1 ≤ t ∧ t < p.2) with
        | some k => { c with funs := k :: c.funs }
        | none => { c with lost := true }
    else c) ⟨[], [], false⟩

/-- Closures by repetition: each round adds what callees and class members write. Every record is reached after as many
rounds as there are records (R322) (log entry 56, DEDUCED). -/
def closures (needs : List Need) (calls : List Calls) : List (Nat × Nat) :=
  let start := (needs.zip calls).map (fun (n, c) => if n.unknown ∨ c.lost then (allWrites, 2 ^ 64 - 1) else (n.writes, n.tags))
  let round := fun (w : List (Nat × Nat)) => (w.zip calls).map (fun (v, c) =>
    let ks := c.funs ++ c.classes.flatMap (fun k => (needs.zipIdx.filter (fun p => p.1.cls = k)).map (fun p => p.2))
    ks.foldl (fun (a : Nat × Nat) k => let b := w.getD k (0, 0); (a.1 ||| b.1, a.2 ||| b.2)) v)
  (List.range (needs.length + 1)).foldl (fun w _ => round w) start

/-- The linked object with its relocations resolved so far as one object can: a class number, and a target in the word's own
section. The others stay for the loader (log entry 56, DEDUCED). -/
def applyRels (secs : List Sec) (syms : List Sym) (sigs : List (Sig × Nat)) (classes : Nat) (rels : List Rel) : Option (List Sec × List Rel) :=
  rels.foldlM (fun (acc : List Sec × List Rel) r => do
    let y ← syms[r.sym]?
    let s ← acc.1[r.sec]?
    if r.typ = 6 then
      if y.sec = some classes then
        let bs ← patchBytes s.bytes r (BitVec.ofNat 64 (sigNo sigs (.inl y.name))) 0
        some (acc.1.set r.sec { s with bytes := bs }, acc.2)
      else some (acc.1, acc.2 ++ [r])
    else if r.typ ≠ 1 ∧ y.sec = some r.sec then
      let bs ← patchBytes s.bytes r (BitVec.ofNat 64 y.value) 0
      some (acc.1.set r.sec { s with bytes := bs }, acc.2)
    else some (acc.1, acc.2 ++ [r])) (secs, [])

/-- The first word of every member is the CMARK of its class (13 R199). -/
def marksOk (text : Option Sec) (needs : List Need) : Bool :=
  needs.all (fun n => n.cls == 0xFFFF || (text.any (fun t => fieldOf t.bytes n.entry 4 == 0x211 + n.cls * 2 ^ 16)))

/-- Link objects into one (log entry 56, DEDUCED). -/
def link (objs : List Obj) : Except ToolError (List Byte) :=
  let (secs, at_) := joinAll objs
  let isa := objs.foldl (fun m o => max m o.isa) 0
  let mmrev := (objs.map (fun o => o.mmrev)).foldl min 255
  let merged : Option (List Byte) := do
    let sigs ← numberSigs objs
    if objs.any (fun o => o.isa / 2 ^ 16 % 256 != isa / 2 ^ 16 % 256) then none else
    let needs ← ((objs.zip at_).mapM (fun (o, a) => linkNeeds sigs o a)).map List.flatten
    let own := (objs.zip at_).flatMap (fun (o, a) => (o.syms.filter (fun y => !o.isClass y)).filterMap (linkSym a))
    let globals := (own.filter (fun y => y.glob)).map (fun y => y.name)
    if globals.eraseDups.length ≠ globals.length then none else
    let nNeed := if needs.isEmpty then 0 else 1
    let clsAt := secs.length + nNeed
    let classSyms := sigs.filterMap (fun p => match p.1 with | .inl b => some (⟨b, some clsAt, true, p.2, 0⟩ : Sym) | .inr _ => none)
    let undef := ((objs.flatMap (fun o => (o.syms.filter (fun y => y.sec.isNone)).map (fun y => y.name))).filter
      (fun n => !globals.contains n)).eraseDups.map (fun n => (⟨n, none, true, 0, 0⟩ : Sym))
    let syms := own ++ classSyms ++ undef
    let rels := (objs.zip at_).flatMap (fun (o, a) => o.rels.filterMap (fun r =>
      match (a[r.sec]?).bind id, o.syms[r.sym]? with
      | some (i, off), some y => some { r with sec := i, off := r.off + off, sym := resolveSym syms o a y }
      | _, _ => none))
    let (secs, pending) ← applyRels secs syms sigs clsAt rels
    let ix := secs.findIdx (fun s => s.typ = 1)
    let text := secs[ix]?
    if !marksOk text needs then none else
    let calls := needs.map (fun n => match text with | some t => callsOf t ix syms needs pending n | none => ⟨[], [], false⟩)
    let needs := (needs.zip (closures needs calls)).map (fun (n, w) => { n with writes := w.1, tags := w.2 })
    let clsBytes := classBytes (sigs.map (fun (_, k) => (k, (needs.zipIdx.filter (fun q => q.1.cls = k)).map (fun q => q.2))))
    let nb := needs.flatMap Need.bytes
    some (Obj.write ⟨isa, mmrev, objs.flatMap (fun o => o.notes),
      secs ++ (if needs.isEmpty then [] else [⟨7, 0, 3, nb, nb.length, some ix⟩]) ++
        (if sigs.isEmpty then [] else [⟨8, 0, 2, clsBytes, clsBytes.length, if needs.isEmpty then none else some secs.length⟩]), syms, pending⟩)
  match merged with
  | some b => .ok b
  | none => .error .link

/-! ### Loading (R318 to R320, R325) -/

/-- A note that the loader knows: owner `Morasyn`, type 1 or 2. -/
def noteKnown (n : List Byte) : Bool :=
  (n.drop 12).take (fieldOf n 0 4) == [0x4D, 0x6F, 0x72, 0x61, 0x73, 0x79, 0x6E, 0] && (fieldOf n 8 4 % 2 ^ 31 == 1 || fieldOf n 8 4 % 2 ^ 31 == 2)

/-- The check of the ISA version against the part's ISAVER. -/
def versionError (isaver : BitVec 32) (o : Obj) : Option ToolError :=
  if o.isa / 2 ^ 16 % 256 ≠ isaver.toNat / 2 ^ 16 % 256 then some .versionMajor
  else if o.isa / 2 ^ 8 % 256 > isaver.toNat / 2 ^ 8 % 256 then some .versionMinor
  else none

/-- The checks of R320 after the ISA version, in their order. -/
def laterError (o : Obj) : Option ToolError :=
  if o.mmrev = 0 ∨ o.mmrev > Config.mmrev.toNat then some .mmrevHigh
  else if o.secs.any (fun s => (s.typ == 0 || 11 < s.typ) && s.flags % 2 == 0) then some .sectionUnknown
  else if o.notes.any (fun n => !noteKnown n && 2 ^ 31 ≤ fieldOf n 8 4) then some .noteMandatory
  else none

/-- The object with the translation of section `k`, its ESNIK section, in place of TEXT and NEEDS (R324, R325): the first TEXT section,
or the ESNIK section itself where there is none, holds the code, and the other TEXT and NEEDS sections hold nothing
(log entry 57, DESIGN CHOICE). -/
def Obj.translated (o : Obj) (isaver : BitVec 32) (k : Nat) (e : Sec) : Obj :=
  let code := Config.esnikText isaver.toNat e.bytes
  let needs := Config.esnikNeeds isaver.toNat e.bytes
  let at_ := (o.secs.findIdx? (fun s => s.typ = 1)).getD k
  let put := fun (p : Sec × Nat) =>
    if p.2 = at_ then { p.1 with typ := 1, flags := 6, bytes := code, size := code.length }
    else if p.1.typ = 1 then { p.1 with flags := 4, bytes := [], size := 0 }
    else if p.1.typ = 7 then { p.1 with flags := 0, bytes := [], size := 0 } else p.1
  { o with secs := o.secs.zipIdx.map put ++ [⟨7, 0, 3, needs, needs.length, some at_⟩]
           rels := o.rels.filter (fun r => r.sec ≠ at_ ∧ (o.secs[r.sec]?).all (fun s => s.typ ≠ 1)) }

/-- The object as it is loaded for the part: TEXT as it is, or the translation of ESNIK in place of TEXT where only the ISA
version fails (R325). -/
def acceptable (isaver : BitVec 32) (o : Obj) : Except ToolError Obj :=
  match versionError isaver o with
  | none => match laterError o with | none => .ok o | some e => .error e
  | some e =>
    match o.secs.zipIdx.find? (fun p => p.1.typ = 11) with
    | some (sec, k) => if (laterError o).isSome then .error e else .ok (o.translated isaver k sec)
    | none => .error e

/-- A section is loaded: LOAD is set, and its type is known (R318). -/
def Sec.loads (s : Sec) : Bool := s.flags / 2 % 2 == 1 && decide (1 ≤ s.typ ∧ s.typ ≤ 11)

/-- The address of each section: the LOAD sections in order from an address, each in pages of its own; the others at 0
(log entry 56, DEDUCED). -/
def basesFrom : Nat → List Sec → List Nat
  | _, [] => []
  | at_, s :: l => if s.loads then at_ :: basesFrom (at_ + alignUp 16 (max s.size 1)) l else 0 :: basesFrom at_ l

/-- Load an object: its LOAD sections at their addresses from `base` on, relocated
(log entry 56, DEDUCED; log entry 57, DESIGN CHOICE). -/
def load (isaver : BitVec 32) (base : Nat) (bs : List Byte) : Except ToolError (List LoadedSection) :=
  match read bs with
  | none => .error .malformed
  | some o =>
    match acceptable isaver o with
    | .error e => .error e
    | .ok o =>
      let bases := basesFrom base o.secs
      let full := o.secs.map (fun s => if s.typ = 3 then { s with bytes := zeros s.size } else s)
      let patched : Option (List Sec) := o.rels.foldlM (fun secs r => do
        let y ← o.syms[r.sym]?
        let k ← y.sec
        let s ← secs[r.sec]?
        let b ← patchBytes s.bytes r (BitVec.ofNat 64 (bases.getD k 0 + y.value)) (bases.getD r.sec 0)
        some (secs.set r.sec { s with bytes := b })) full
      match patched with
      | none => .error .link
      | some secs => .ok ((secs.zip bases).filterMap (fun (s, b) =>
          if s.loads then some ⟨b, s.bytes, s.flags / 8 % 2 == 1, s.flags / 4 % 2 == 1⟩ else none))

end Sys2Proof.Ocsor

namespace Sys2Proof.Machine

/-- The result of a tool: an object joins the objects, or the error joins the errors. -/
def State.toolObject (s : State) (r : Except ToolError (List Byte)) : State :=
  { s with tools := match r with
    | .ok b => { s.tools with objects := s.tools.objects ++ [b] }
    | .error e => { s.tools with errors := s.tools.errors ++ [e] } }

/-- FJAS_ASSEMBLY (21 R326): fjas reads source file `n`. A number that names no source has no effect. -/
def execFjasAssembly (n : Nat) (s : State) : Out :=
  match s.tools.sources[n]? with
  | none => .next s
  | some src => .next (s.toolObject (match Fjas.assemble src.toList with | .ok b => .ok b | .error l => .error (.badLine l)))

/-- OBJECT_LINK (20 R322): the linker joins the objects of link set `n`. -/
def execObjectLink (n : Nat) (s : State) : Out :=
  match s.tools.links[n]? with
  | none => .next s
  | some ks =>
    match ks.mapM (fun k => (s.tools.objects[k]?).bind Ocsor.read) with
    | none => .next (s.toolObject (.error .malformed))
    | some objs => .next (s.toolObject (Ocsor.link objs))

/-! ### Placing a loaded object (20 R318, 25 R339) -/

/-- The loader at work: the state, and the next 64 KiB frame of D0's bonded DRAM that the host gives it. -/
structure Placing where
  s    : State
  next : Nat

/-- The frame that the loader takes next, if D0's memory holds it. -/
def Placing.frame (p : Placing) : Option (Nat × Placing) :=
  if p.next < 2 ^ 20 then some (p.next * 2 ^ 16, { p with next := p.next + 1 }) else none

/-- A new table of invalid entries. -/
def Placing.table (p : Placing) : Option (Nat × Placing) :=
  p.frame.map (fun (f, p) => (f, { p with s := p.s.pokeKey 0 f (Ocsor.zeros 0x10000) }))

/-- The table that the entry at `at_` points to; an entry with V = 0 is pointed to a new table (08 R119). -/
def Placing.below (p : Placing) (at_ : Nat) : Option (Nat × Placing) :=
  let e := p.s.readEntry 0 at_ 0
  if field e 0 1 = 0 then p.table.map (fun (t, p) => (t, { p with s := p.s.pokeKey 0 at_ (toBytes 8 (t + 1)) }))
  else if field e 1 1 = 1 then none else some (entFrame e, p)

/-- The level-1 table of an address space; where ASROOT is 0, a new one becomes its root (08 R122; log entry 56, DEDUCED). -/
def Placing.root (p : Placing) (fn sp : Fin 256) : Option (Nat × Placing) :=
  let r := (p.s.asRec fn sp).root.toNat % 2 ^ 52
  if r ≠ 0 then some (r, p)
  else p.table.map (fun (t, p) => (t, { p with s := p.s.modSpace fn sp (fun a => { a with root := BitVec.ofNat 64 t }) }))

/-- One 64 KiB page at an address: a new frame with these bytes, mapped by a leaf with U = 1, memory type 0, NS = 0, G = 0, a key
index, and the W and X bits given (25 R339). -/
def Placing.page (fn sp : Fin 256) (ki : Nat) (p : Placing) (va perm : Nat) (bs : List Byte) : Option Placing := do
  if 2 ^ 55 ≤ va ∨ isPadVa (BitVec.ofNat 64 va) then none else
  let (t1, p) ← p.root fn sp
  let (t2, p) ← p.below (t1 + 8 * field va 42 13)
  let (t3, p) ← p.below (t2 + 8 * field va 29 13)
  let at_ := t3 + 8 * field va 16 13
  if field (p.s.readEntry 0 at_ 0) 0 1 = 1 then none else
  let (f, p) ← p.frame
  some { p with s := (p.s.pokeKey 0 at_ (toBytes 8 (ki * 2 ^ 52 + f + 0x13 + perm))).pokeKey ki f bs }

/-- The pages of a loaded section: address, W and X bits, bytes. -/
def LoadedSection.pages (l : LoadedSection) : List (Nat × Nat × List Byte) :=
  (List.range (Ocsor.alignUp 16 (max l.bytes.length 1) / 2 ^ 16)).map (fun i =>
    (l.base + i * 2 ^ 16, 4 * l.write.toNat + 8 * l.exec.toNat, (l.bytes.drop (i * 2 ^ 16)).take (2 ^ 16)))

/-- Every page of the loaded sections placed; none where the host's frames or the address space leave no room
(log entry 56, DEDUCED). -/
def State.placeObject (s : State) (fn sp : Fin 256) (frame : Nat) (l : List LoadedSection) : Option State :=
  (s.keys.find? (fun k => k.owner == fn.val)).bind (fun k =>
    ((l.flatMap LoadedSection.pages).foldlM (fun p (va, perm, bs) => Placing.page fn sp k.slot p va perm bs) (⟨s, frame⟩ : Placing)).map
      Placing.s)

/-- OBJECT_LOAD (20 R318, R320, 25 R339): the loader checks an object against the part's ISAVER and maps its LOAD sections in the
function's address space and in D0's bonded DRAM, from a page and a frame on, under the key index assigned to the function. -/
def execObjectLoad (r : LoadOrder) (s : State) : Out :=
  match s.tools.objects[r.object]? with
  | none => .next s
  | some bs =>
    match Ocsor.load s.fw.isaver (r.page * 2 ^ 16) bs with
    | .error e => .next { s with tools := { s.tools with errors := s.tools.errors ++ [e] } }
    | .ok l =>
      match s.placeObject r.fn r.sp r.frame l with
      | none => .next s
      | some t => .next { t with tools := { t.tools with loaded := t.tools.loaded ++ [l] } }

end Sys2Proof.Machine
end

