-- ==== Sys2Proof/Machine/VecSet.lean ====
section
/-! DEFINITION. VSETVL and VSETVLI with the lane-group change they apply (14 R214, R215; 02 R27; 05 R83), and the compact
vector forms (12 R174). -/

namespace Sys2Proof.Machine

/-! ### Migration (R27) -/

/-- The numbering of a migration: the VTYPE in force, or I8 with LMUL 1 when none is valid. -/
def migrationView (w : BitVec 32) (g : Nat) : VView := (viewOf w g 0 0).getD ((viewOf 0 g 0 0).getD ⟨.i8, 1, false, 0, 1, .rne, false, false, false, g, 0, 0⟩)

/-- The elements of an aligned group below a limit in units. -/
def VecRegs.take (r : VecRegs) (v : VView) (a : VReg) (lim : Nat) : List (Nat × Nat) :=
  (List.range (lim * v.per)).map (fun e => (e, r.elem v a v.sew e))

/-- A register of a migrated group, by its place in the group. -/
def migrateReg (old new : VView) (lim : Nat) (r : VecRegs) (a : VReg) (k : Nat) : BitVec 16384 :=
  BitVec.ofNat 16384 (cellsIn new.tile new.g new.sew k (r.take old a lim)).2

/-- Entries of a shadow from `lo` on and below `hi`, the rest at their reset value. -/
def shadowKeep (w : BitVec 8192) (lo hi : Nat) : BitVec 8192 :=
  let m := BitVec.ofNat 8192 (2 ^ (32 * min hi 256) - 1) &&& ~~~(BitVec.ofNat 8192 (2 ^ (32 * min lo 256) - 1))
  (w &&& m) ||| (shadowReset &&& ~~~m)

/-- How many entries of the shadow of a register of a group hold descriptors, by its place in the group (05 R76). -/
def VView.descCount (v : VView) (k : Nat) : Nat :=
  if v.bl = 0 then 0
  else if v.tile then
    let n := 8 * v.g * (512 / v.sew / v.bl)
    if k % 2 = 0 then min n (32 * v.g) else n - 32 * v.g
  else 8 * v.g * 256 / v.sew / v.bl

/-- The shadow of a register of a migrated group: descriptors move with their blocks, and entries that hold none before and
after, all of them under BL none, keep their order below the smaller entry count (05 R76) (log entry 28, DEDUCED). -/
def migrateShadow (old new : VView) (lim : Nat) (r : VecRegs) (a : VReg) (k : Nat) : BitVec 8192 :=
  let kept := shadowKeep r.sh[regAt a k] (max (old.descCount k) (new.descCount k)) (32 * min old.g new.g)
  if old.bl = 0 then kept
  else (List.range (lim * old.per / old.bl)).foldl (fun acc b =>
    let p := descPlace new.tile new.g new.sew new.bl b
    if p.1 = k then
      (acc &&& ~~~(BitVec.ofNat 8192 (2 ^ 32 - 1) <<< (32 * p.2))) ||| ((r.desc old a b).setWidth 8192 <<< (32 * p.2))
    else acc) kept

/-- The poisoned pieces of the registers follow the elements that lie in them. -/
def migratePoison (old new : VView) (lim : Nat) (l : List (VReg × Nat)) : List (VReg × Nat) :=
  if l.isEmpty then []
  else (List.range (32 / old.lmul)).flatMap (fun i =>
    let a : VReg := ⟨i * old.lmul % 32, Nat.mod_lt _ (by decide)⟩
    (List.range (lim * old.per)).filterMap (fun e =>
      let p := placeOf old.tile old.g old.sew e
      let q := placeOf new.tile new.g new.sew e
      if l.contains (regAt a p.1, p.2 / 64) then some (regAt a q.1, q.2 / 64) else none))

/-- The poisoned pieces of the shadows follow the descriptors in them, or keep their place below the smaller entry count. -/
def migrateShPoison (old new : VView) (lim : Nat) (l : List (VReg × Nat)) : List (VReg × Nat) :=
  if l.isEmpty then []
  else
    l.filter (fun p => decide (max (old.descCount (p.1.val % old.lmul)) (new.descCount (p.1.val % old.lmul)) ≤ 2 * p.2 + 1) &&
      decide (2 * p.2 < 32 * min old.g new.g)) ++
    (if old.bl = 0 then [] else (List.range (32 / old.lmul)).flatMap (fun i =>
      let a : VReg := ⟨i * old.lmul % 32, Nat.mod_lt _ (by decide)⟩
      (List.range (lim * old.per / old.bl)).filterMap (fun b =>
        let p := descPlace old.tile old.g old.sew old.bl b
        let q := descPlace new.tile new.g new.sew new.bl b
        if l.contains (regAt a p.1, p.2 / 2) then some (regAt a q.1, q.2 / 2) else none)))

/-- The thread's vector state under `g` groups: elements below the smaller VLMAX move, the others become zero
(log entry 28, DEDUCED). -/
def Context.migrate (c : Context) (g : Nat) : Context :=
  let old := migrationView c.vec.vtype (groupCount c.groups)
  let new := { old with g := g }
  let lim := min old.vlmax new.vlmax
  let keep := BitVec.ofNat 32768 (2 ^ lim - 1)
  let base := fun (r : Fin 32) => (⟨r.val / old.lmul * old.lmul % 32, Nat.mod_lt _ (by decide)⟩ : VReg)
  { c with
    vec := { c.vec with
      v := Vector.ofFn (fun r => migrateReg old new lim c.vec (base r) (r.val % old.lmul))
      sh := Vector.ofFn (fun r => migrateShadow old new lim c.vec (base r) (r.val % old.lmul))
      m := c.vec.m.map (fun x => x &&& keep)
      gsv := c.vec.gsv &&& BitVec.ofNat 16384 (2 ^ min (8 * lim) 16384 - 1) }
    vpoison := migratePoison old new lim c.vpoison
    shpoison := migrateShPoison old new lim c.shpoison
    mpoison := c.mpoison.filter (fun p => decide (64 * p.2 < lim))
    clock := { c.clock with vp := [], mp := [] } }

/-! ### Lane-group changes (R27, R83; 26 R341) -/

/-- A group that a slot's VSETVL moves: OWNER becomes NEXT and HEIR is unchanged (log entry 28, DEDUCED). -/
def LaneGroup.moveFrom (slot : Fin 4) (g : LaneGroup) : LaneGroup :=
  if g.owned && g.owner == slot && g.move then { g with owner := g.next, next := 0, move := false } else g

/-- A released group goes to its resident heir, or becomes unowned (R26). -/
def Cluster.released (c : Cluster) (slot : Fin 4) (g : LaneGroup) : LaneGroup :=
  if g.heir != slot && c.resident g.heir then { g with owner := g.heir } else LaneGroup.free

/-- Release all groups a slot owns but its `n` lowest. -/
def Cluster.keepLowest (c : Cluster) (slot : Fin 4) (n : Nat) : Cluster :=
  let own := (List.finRange 8).filter (fun k => (c.lpart[k]).owned && (c.lpart[k]).owner == slot)
  { c with lpart := (own.drop n).foldl (fun lp k => lp.set k.val (c.released slot lp[k]) k.isLt) c.lpart }

/-- LPART after the pending changes of a slot: moving groups go to NEXT, then a pending request that lowers the count
releases groups; those coming stay granted. -/
def Cluster.applyLanes (c : Cluster) (slot : Fin 4) (req : Option Nat) : Cluster :=
  let c1 := { c with lpart := c.lpart.map (LaneGroup.moveFrom slot) }
  match req with
  | none => c1
  | some n =>
    let coming := (c1.lpart.toList.filter (fun g => g.comingTo slot)).length
    c1.keepLowest slot (max (n - coming) 1)

/-- Apply the lane-group change waiting for the thread, unless it has published a group through a full flag (R24)
(log entry 28, DEDUCED). -/
def State.laneChange (s : State) : State :=
  if s.published s.me ≠ [] then s
  else
    let s1 := s.modCluster s.me.cl (fun c => c.applyLanes s.me.slot s.me.lreq)
    let set_ := ownedGroups s1.myCluster.lpart s.me.slot
    s1.modMe (fun c =>
      let c1 := if groupCount set_ = groupCount c.groups then c else c.migrate (groupCount set_)
      { c1 with groups := set_, lreq := none })

/-! ### VSETVL and VSETVLI (R214, R215) -/

/-- Install a requested VTYPE for `n` elements still to be handled: the granted VTYPE and VL. -/
def grantVl (req n : Word) (g : Nat) : BitVec 32 × BitVec 32 :=
  match requestOk req, viewOf (req.setWidth 32) g 0 0 with
  | true, some v => (req.setWidth 32, BitVec.ofNat 32 (min n.toNat v.vlmax))
  | _, _ => (vtypeIll, 0)

/-- VSETVL in both forms. -/
def vsetvl (xs : List XReg) (d a : XReg) (req : State → Word) (s : State) : Out :=
  threadOnly s <|
    if s.me.group.isSome then trapIll s
    else readsX xs s <|
      let n := s.rx a
      let w := req s
      let s1 := s.laneChange
      let r := grantVl w n (groupCount s1.me.groups)
      .next (s1.modMe (fun c =>
        let c1 := { c with vec := { c.vec with vtype := r.1, vl := r.2, vbeg := 0 } }
        let c2 := (c1.wx d (r.2.setWidth 64) 0).issueV 1 0
        { c2 with pc := c2.pc + 4 }))

/-- VSETVL (R214): xt holds the request; a nonzero bit above 18 is rejected. -/
def execVsetvl (d a b : XReg) (s : State) : Out := vsetvl [a, b] d a (fun s => s.rx b) s

/-- VSETVLI (R178, R214): the request's low 13 bits and RM; TP, MP and SAT are 0. -/
def execVsetvli (d a : XReg) (req : BitVec 13) (rm : BitVec 3) (s : State) : Out :=
  vsetvl [a] d a (fun _ => req.setWidth 64 ||| (rm.setWidth 64 <<< 15)) s

/-! ### Compact vector forms (12 R173, R174) -/

/-- ILL inside a VFETCH block (02 R19). -/
def notInBlock (s : State) (k : Out) : Out := threadOnly s <| if s.me.group.isSome then trapIll s else k

/-- CV.ADD: VADD.VV LDV, LDV, vs; the stream holds the next instruction until the result is written. -/
def execCvAdd (b : VReg) (s : State) : Out :=
  notInBlock s <| eltwise VView.isInt (.vv b) false false 0 3 2 (fun v x y z => (vaddElt v x y z, 0)) s.me.vec.ldv s.me.vec.ldv 0 s

/-- CV.FADD: VFADD.VV LDV, LDV, vs. -/
def execCvFadd (b : VReg) (s : State) : Out :=
  notInBlock s <| eltwise VView.isFloat (.vv b) false true 0 5 2 vfaddElt s.me.vec.ldv s.me.vec.ldv 0 s

/-- CV.FMUL: VFMUL.VV LDV, LDV, vs. -/
def execCvFmul (b : VReg) (s : State) : Out :=
  notInBlock s <| eltwise VView.isFloat (.vv b) false true 0 5 2 vfmulElt s.me.vec.ldv s.me.vec.ldv 0 s

/-- CV.FMACC: VFMACC.VV LDV, va, vb. -/
def execCvFmacc (a b : VReg) (s : State) : Out :=
  notInBlock s <| eltwise VView.isFloat (.vv b) true true 0 5 2 vfmaccElt s.me.vec.ldv a 0 s

/-- CV.MV: VMV.VV LDV, vs. -/
def execCvMv (b : VReg) (s : State) : Out :=
  notInBlock s <| moving (some b) (fun v => aligned b v.lmul) true [] (fun v => [⟨b, v.lmul, v.sew⟩]) [0] 0 false 0 3 2
    (fun _ _ _ u => some (some (b, u))) s.me.vec.ldv s

end Sys2Proof.Machine
end

