-- ==== Sys2Proof/Machine/VecSpecial.lean ====
section
/-! DEFINITION. The special functions (14 R220), correctly rounded. Values that no binary fraction represents are computed
to some 300 bits and carry a sticky last bit; no argument of a format of at most 32 bits comes near enough to a rounding
boundary for the error to reach it (log entry 20). -/

namespace Sys2Proof.Machine

/-- Fraction bits of the fixed-point values. -/
def fixBits : Nat := 320
/-- ln 2 × 2^320, rounded down. -/
def ln2Fix : Nat := 0xB17217F7D1CF79ABC9E3B39803F2F6AF40F343267298B62D8A0D175B8BAAFA2BE7B876206DEBAC98
/-- π × 2^512, rounded down. -/
def piFix : Nat := 0x3243F6A8885A308D313198A2E03707344A4093822299F31D0082EFA98EC4E6C89452821E638D01377BE5466CF34E90C6CC0AC29B7C97C50DD3F84D5B5B5470917

/-- Σ of x^k / k! from a term on, in fixed point. -/
def expSeries (x : Nat) : Nat → Nat → Nat → Nat
  | 0, _, _ => 0
  | n + 1, k, t => t + expSeries x n (k + 1) (t * x / 2 ^ fixBits / k)

/-- Σ of z^(2k+1) / (2k+1) from a power on, in fixed point: artanh z. -/
def atanhSeries (z2 : Nat) : Nat → Nat → Nat → Nat
  | 0, _, _ => 0
  | n + 1, k, p => p / k + atanhSeries z2 n (k + 2) (p * z2 / 2 ^ fixBits)

/-- The alternating series of sine and cosine from a term on, in fixed point. -/
def trigSeries (x2 : Nat) : Nat → Nat → Nat → Int
  | 0, _, _ => 0
  | n + 1, k, t => (t : Int) - trigSeries x2 n (k + 2) (t * x2 / 2 ^ fixBits / (k * (k + 1)))

/-- A fixed-point integer that stands for a value between it and the next, as a value with a sticky last bit
(log entry 20, DEDUCED). -/
def stickyFix (i : Int) (e : Int) : Val := .fin (decide (i < 0)) (2 * i.natAbs + 1) (e - fixBits - 1)

/-! ### 2^a -/

/-- 2^a of a finite a that is no integer: the integer part n, and the fraction as x / 2^320. -/
def exp2Frac (n : Int) (x : Nat) : Val :=
  stickyFix (expSeries (x * ln2Fix / 2 ^ fixBits) 80 1 (2 ^ fixBits) : Nat) n

/-- 2^a of a finite value; far outside the range of every format the value is held at the edge. -/
def exp2Fin (neg : Bool) (m : Nat) (e : Int) : Val :=
  if m = 0 then .fin false 1 0
  else if (m.log2 : Int) + e ≥ 9 then (if neg then .fin false 1 (-600) else .fin false 1 600)
  else
    let i : Int := if neg then -((m : Nat) : Int) else m
    if e ≥ 0 then .fin false 1 (i * 2 ^ e.toNat)
    else
      let d : Nat := 2 ^ (-e).toNat
      let n := i / d
      let x := (i % d).toNat
      if x = 0 then .fin false 1 n else exp2Frac n (x * 2 ^ fixBits / d)

/-- VEXP2 of a value (log entry 20, DEDUCED). -/
def exp2Val (a : Val) : Val × FlagSet :=
  match a with
  | .nan s => (.nan false, nvIf s)
  | .inf n => (if n then .zero else .inf false, 0)
  | .fin n m e => (exp2Fin n m e, 0)

/-! ### log2 a -/

/-- log2 of m × 2^e, m ≠ 0. -/
def log2Fin (m : Nat) (e : Int) : Val :=
  let l := m.log2
  let n := e + l
  if m = 2 ^ l then Val.ofInt n
  else
    let d := 2 ^ l
    let z := (m - d) * 2 ^ fixBits / (m + d)
    let ln := 2 * atanhSeries (z * z / 2 ^ fixBits) 110 1 z
    stickyFix (n * (2 ^ fixBits : Nat) + (ln * 2 ^ fixBits / ln2Fix : Nat)) 0

/-- VLOG2 of a value (log entry 20, DEDUCED). -/
def log2Val (a : Val) : Val × FlagSet :=
  match a with
  | .nan s => (.nan false, nvIf s)
  | .inf n => if n then (.nan false, flagNV) else (.inf false, 0)
  | .fin n m e => if m = 0 then (.inf true, flagDZ) else if n then (.nan false, flagNV) else (log2Fin m e, 0)

/-! ### 1/a and 1/√a -/

/-- VRCP of a value (log entry 20, DEDUCED). -/
def rcpVal (p : Nat) (a : Val) : Val × FlagSet := divVal p (.fin false 1 0) a

/-- 1/√(m × 2^e), m ≠ 0, with a sticky last bit when inexact. -/
def rsqFin (m : Nat) (e : Int) : Val :=
  let odd := e % 2 == 1
  let m1 := if odd then 2 * m else m
  let e1 := if odd then e - 1 else e
  let r := isqrt (2 ^ 240 / m1)
  .fin false (2 * r + (if r * r * m1 = 2 ^ 240 then 0 else 1)) (-(e1 / 2) - 121)

/-- VRSQ of a value (log entry 20, DEDUCED). -/
def rsqVal (a : Val) : Val × FlagSet :=
  match a with
  | .nan s => (.nan false, nvIf s)
  | .inf n => if n then (.nan false, flagNV) else (.zero, 0)
  | .fin n m e => if m = 0 then (.inf n, flagDZ) else if n then (.nan false, flagNV) else (rsqFin m e, 0)

/-! ### sin a and cos a -/

/-- m × 2^e reduced by multiples of π/2: the quadrant, and the rest in fixed point (log entry 20, DEDUCED). -/
def reduceHalfPi (m : Nat) (e : Int) : Nat × Nat :=
  let x := if e + 512 ≥ 0 then m * 2 ^ (e + 512).toNat else m / 2 ^ (-(e + 512)).toNat
  let h := piFix / 2
  (x / h % 4, x % h / 2 ^ (512 - fixBits))

/-- sin of a fixed-point value. -/
def sinFix (x : Nat) : Int := trigSeries (x * x / 2 ^ fixBits) 45 2 x
/-- cos of a fixed-point value. -/
def cosFix (x : Nat) : Int := trigSeries (x * x / 2 ^ fixBits) 45 1 (2 ^ fixBits)

/-- sin or cos of m × 2^e, m ≠ 0, of quadrant shift `k`. -/
def trigFin (k : Nat) (m : Nat) (e : Int) : Val :=
  let r := reduceHalfPi m e
  let x := r.2
  match (r.1 + k) % 4 with
  | 0 => stickyFix (sinFix x) 0
  | 1 => stickyFix (cosFix x) 0
  | 2 => stickyFix (-sinFix x) 0
  | _ => stickyFix (-cosFix x) 0

/-- An argument so small that sin a is just below it and cos a just below 1. -/
def tinyArg (m : Nat) (e : Int) : Bool := decide ((m.log2 : Int) + e < -40)

/-- VSIN of a value (log entry 20, DEDUCED). -/
def sinVal (a : Val) : Val × FlagSet :=
  match a with
  | .nan s => (.nan false, nvIf s)
  | .inf _ => (.nan false, flagNV)
  | .fin n m e =>
    if m = 0 then (.fin n 0 0, 0)
    else
      let v := if tinyArg m e then .fin false (m * 2 ^ 100 - 1) (e - 100) else trigFin 0 m e
      (if n then v.flip else v, 0)

/-- VCOS of a value (log entry 20, DEDUCED). -/
def cosVal (a : Val) : Val × FlagSet :=
  match a with
  | .nan s => (.nan false, nvIf s)
  | .inf _ => (.nan false, flagNV)
  | .fin _ m e =>
    if m = 0 then (.fin false 1 0, 0)
    else if tinyArg m e then (.fin false (2 ^ 100 - 1) (-100), 0)
    else (trigFin 1 m e, 0)

/-! ### The instructions -/

/-- FMT is F16, BF16 or F32. -/
def VView.isFloat32 (v : VView) : Bool := v.fmt.ieee && v.fmt != .f64

/-- A special function (R220): variable-latency, with flags by R57. -/
def vfun (f : VView → Val → Val × FlagSet) (d a : VReg) (m : MReg) (s : State) : Out :=
  eltwise VView.isFloat32 (.vi 0) false true 0 0 4 (fun v x _ _ => v.ff.finish v.rm v.sat (f v (v.ff.decode x))) d a m s

/-- VEXP2 (R220). -/
def execVexp2 (d a : VReg) (m : MReg) (s : State) : Out := vfun (fun _ => exp2Val) d a m s
/-- VLOG2 (R220). -/
def execVlog2 (d a : VReg) (m : MReg) (s : State) : Out := vfun (fun _ => log2Val) d a m s
/-- VRCP (R220). -/
def execVrcp (d a : VReg) (m : MReg) (s : State) : Out := vfun (fun v => rcpVal v.ff.prec) d a m s
/-- VRSQ (R220). -/
def execVrsq (d a : VReg) (m : MReg) (s : State) : Out := vfun (fun _ => rsqVal) d a m s
/-- VSIN (R220). -/
def execVsin (d a : VReg) (m : MReg) (s : State) : Out := vfun (fun _ => sinVal) d a m s
/-- VCOS (R220). -/
def execVcos (d a : VReg) (m : MReg) (s : State) : Out := vfun (fun _ => cosVal) d a m s

end Sys2Proof.Machine
end

