-- ==== Sys2Proof/Machine/VecBlock.lean ====
section
/-! DEFINITION. VFETCH and its blocks (02 R17 to R21; 14 R232, R233): starting a block, one issue group, VPJ and VSTOP. -/

namespace Sys2Proof.Machine

/-- A J-format target: the address plus offset19 × 2 (12 R169). -/
def jTarget (pc : Word) (off : BitVec 19) : Word := pc + off.signExtend 64 * 2

/-- The VPs that run. -/
def Block.running (b : Block) : Bool := b.pcs.any (fun p => p.isSome)

/-- The results of a block are readable once it has completed (R18). -/
def Clock.landBlock (k : Clock) : Clock :=
  { k with vp := k.vp.map (fun e => if e.blk then { e with ready := 0 } else e)
           mp := k.mp.map (fun e => if e.blk then { e with ready := 0 } else e) }

/-- A VFETCH completes: the pc moves on, VBEG becomes 0 (R213), and a later instruction sees all its results. -/
def Context.endBlock (c : Context) : Context :=
  let k := c.clock.landBlock
  { c with
    pc := c.pc + 4
    vec := { c.vec with blk := none, vbeg := 0 }
    clock := { k.prune (max k.vector k.scalar) with scalar := k.scalar + 1 } }

/-- Every active VP starts at the block address (log entry 51, DEDUCED). -/
def Block.start (v : VView) (us : List Nat) (pc target : Word) : Block where
  addr   := pc
  pcs    := (List.range v.vl).map (fun i => if us.contains i then some target else none)
  nextAt := List.replicate v.vl 0
  grp    := none
  cur    := target
  held   := false

/-- VFETCH (R232): it starts its block, or completes at once without an active VP (R19). As one flag-raising instruction it
clears FXIDX when VBEG = 0 (R18, 03 R57). PAIR and the digit formats do not allow it (03 R53, R54). A VFETCH of a trap handler
takes the place of a block set aside, which then starts anew (log entry 13, DEDUCED). -/
def execVfetch (off : BitVec 19) (m : MReg) (s : State) : Out :=
  vector false (fun v => !v.tile && v.fmt != .pair && !v.fmt.digits) [] (fun _ => []) [m]
    (fun v r => !(v.active none r m false).isEmpty) (fun _ => none) s fun v r s =>
    let us := v.active none r m false
    .next (s.modMe (fun c =>
      let c1 := c.raiseV false []
      if us.isEmpty then c1.endBlock
      else { c1 with vec := { c1.vec with blk := some (Block.start v us c.pc (jTarget c.pc off)) } }))

/-- A mask register as bits; m0 is all ones. -/
def VecRegs.mbits (r : VecRegs) (m : MReg) : BitVec 32768 := if m = 0 then BitVec.allOnes 32768 else r.m[m]

/-- VPJ (R18, R232): VPs of the issue group whose bit is set go to the target, the rest to the next instruction. -/
def execVpj (off : BitVec 19) (m : MReg) (s : State) : Out :=
  threadOnly s <|
    match s.me.group, s.me.view with
    | some g, some v =>
      let r := s.me.vregs
      (if (v.active (some g) r m false).isEmpty then id else fun k => stalls v [] [] [m] s (cleanV v [] [] [m] s k)) <|
        .next (s.modMe (fun c => { c with vec := { c.vec with blk := c.vec.blk.map (fun b =>
          let b1 := { b with pcs := b.pcs.mapIdx (fun i p =>
            if g.getLsbD i && r.mbit m i then Option.map (fun _ => jTarget b.cur off) p else p) }
          { b1 with grp := some (g &&& ~~~r.mbits m) }) } }))
    | _, _ => trapIll s

/-- VSTOP (R18): the VPs of the issue group stop. -/
def execVstop (s : State) : Out :=
  threadOnly s <|
    match s.me.group with
    | some g => .next (s.modMe (fun c => { c with vec := { c.vec with blk := c.vec.blk.map (fun b =>
        { b with pcs := b.pcs.mapIdx (fun i p => if g.getLsbD i then none else p) }) } }))
    | none => trapIll s

/-! ### One issue group (R18 to R21) -/

/-- The instructions a block may contain; any other encoding traps ILL (R19). -/
def blockExec (i : Instr) (s : State) : Out :=
  match i with
  | .vaddVv d a b m st => execVaddVv d a b m st s
  | .vaddVx d a b m st => execVaddVx d a b m st s
  | .vaddVi d a imm m st => execVaddVi d a imm m st s
  | .vsubVv d a b m st => execVsubVv d a b m st s
  | .vsubVx d a b m st => execVsubVx d a b m st s
  | .vsubVi d a imm m st => execVsubVi d a imm m st s
  | .vmulVv d a b m st => execVmulVv d a b m st s
  | .vmulVx d a b m st => execVmulVx d a b m st s
  | .vmulVi d a imm m st => execVmulVi d a imm m st s
  | .vmulhVv d a b m st => execVmulhVv d a b m st s
  | .vmulhVx d a b m st => execVmulhVx d a b m st s
  | .vmulhVi d a imm m st => execVmulhVi d a imm m st s
  | .vmaccVv d a b m st => execVmaccVv d a b m st s
  | .vmaccVx d a b m st => execVmaccVx d a b m st s
  | .vmaccVi d a imm m st => execVmaccVi d a imm m st s
  | .vdivVv d a b m st => execVdivVv d a b m st s
  | .vdivVx d a b m st => execVdivVx d a b m st s
  | .vdivVi d a imm m st => execVdivVi d a imm m st s
  | .vremVv d a b m st => execVremVv d a b m st s
  | .vremVx d a b m st => execVremVx d a b m st s
  | .vremVi d a imm m st => execVremVi d a imm m st s
  | .vminVv d a b m st => execVminVv d a b m st s
  | .vminVx d a b m st => execVminVx d a b m st s
  | .vminVi d a imm m st => execVminVi d a imm m st s
  | .vandVv d a b m st => execVandVv d a b m st s
  | .vandVx d a b m st => execVandVx d a b m st s
  | .vandVi d a imm m st => execVandVi d a imm m st s
  | .vorVv d a b m st => execVorVv d a b m st s
  | .vorVx d a b m st => execVorVx d a b m st s
  | .vorVi d a imm m st => execVorVi d a imm m st s
  | .vxorVv d a b m st => execVxorVv d a b m st s
  | .vxorVx d a b m st => execVxorVx d a b m st s
  | .vxorVi d a imm m st => execVxorVi d a imm m st s
  | .vshlVv d a b m st => execVshlVv d a b m st s
  | .vshlVx d a b m st => execVshlVx d a b m st s
  | .vshlVi d a imm m st => execVshlVi d a imm m st s
  | .vshrVv d a b m st => execVshrVv d a b m st s
  | .vshrVx d a b m st => execVshrVx d a b m st s
  | .vshrVi d a imm m st => execVshrVi d a imm m st s
  | .vsraVv d a b m st => execVsraVv d a b m st s
  | .vsraVx d a b m st => execVsraVx d a b m st s
  | .vsraVi d a imm m st => execVsraVi d a imm m st s
  | .vsaddVv d a b m st => execVsaddVv d a b m st s
  | .vsaddVx d a b m st => execVsaddVx d a b m st s
  | .vsaddVi d a imm m st => execVsaddVi d a imm m st s
  | .vssubVv d a b m st => execVssubVv d a b m st s
  | .vssubVx d a b m st => execVssubVx d a b m st s
  | .vssubVi d a imm m st => execVssubVi d a imm m st s
  | .vmaxVv d a b m st => execVmaxVv d a b m st s
  | .vmaxVx d a b m st => execVmaxVx d a b m st s
  | .vmaxVi d a imm m st => execVmaxVi d a imm m st s
  | .vcmpVv cc d a b m st => execVcmpVv cc d a b m st s
  | .vcmpVx cc d a b m st => execVcmpVx cc d a b m st s
  | .vcmpVi cc d a imm m st => execVcmpVi cc d a imm m st s
  | .vfaddVv d a b m st => execVfaddVv d a b m st s
  | .vfaddVx d a b m st => execVfaddVx d a b m st s
  | .vfsubVv d a b m st => execVfsubVv d a b m st s
  | .vfsubVx d a b m st => execVfsubVx d a b m st s
  | .vfmulVv d a b m st => execVfmulVv d a b m st s
  | .vfmulVx d a b m st => execVfmulVx d a b m st s
  | .vfmaccVv d a b m st => execVfmaccVv d a b m st s
  | .vfmaccVx d a b m st => execVfmaccVx d a b m st s
  | .vfnmsacVv d a b m st => execVfnmsacVv d a b m st s
  | .vfnmsacVx d a b m st => execVfnmsacVx d a b m st s
  | .vfdivVv d a b m st => execVfdivVv d a b m st s
  | .vfdivVx d a b m st => execVfdivVx d a b m st s
  | .vfminVv d a b m st => execVfminVv d a b m st s
  | .vfminVx d a b m st => execVfminVx d a b m st s
  | .vfmaxVv d a b m st => execVfmaxVv d a b m st s
  | .vfmaxVx d a b m st => execVfmaxVx d a b m st s
  | .vfcmpVv cc d a b m st => execVfcmpVv cc d a b m st s
  | .vfcmpVx cc d a b m st => execVfcmpVx cc d a b m st s
  | .vfsqrt d a m st => execVfsqrt d a m st s
  | .vfclass d a m st => execVfclass d a m st s
  | .vexp2 d a m => execVexp2 d a m s
  | .vlog2 d a m => execVlog2 d a m s
  | .vrcp d a m => execVrcp d a m s
  | .vrsq d a m => execVrsq d a m s
  | .vsin d a m => execVsin d a m s
  | .vcos d a m => execVcos d a m s
  | .vfcvtTo cs code d a m st => execVfcvtTo cs code d a m st s
  | .vfcvtFrom cs code d a m st => execVfcvtFrom cs code d a m st s
  | .vmvVv d a m st => execVmvVv d a m st s
  | .vmergeVv d a b m st => execVmergeVv d a b m st s
  | .vbcastVx d b m st => execVbcastVx d b m st s
  | .vbcastVi d imm m st => execVbcastVi d imm m st s
  | .vmergeVx d a b m st => execVmergeVx d a b m st s
  | .vmergeVi d a imm m st => execVmergeVi d a imm m st s
  | .mand d a b st => execMand d a b st s
  | .mor d a b st => execMor d a b st s
  | .mxor d a b st => execMxor d a b st s
  | .mnot d a st => execMnot d a st s
  | .mmv d a st => execMmv d a st s
  | .vstop => execVstop s
  | .vpid d m => execVpid d m s
  | .vrand d m st => execVrand d m st s
  | .vpj off m => execVpj off m s
  | .vld d a cls e y m => execVld d a cls e y m s
  | .vlds d a b cls e y m => execVlds d a b cls e y m s
  | .vldx d a ix cls e y m => execVldx d a ix cls e y m s
  | .vldf d a cls e y m => execVldf d a cls e y m s
  | .vst d a cls e y m => execVst d a cls e y m s
  | .vsts d a b cls e y m => execVsts d a b cls e y m s
  | .vstx d a ix cls e y m => execVstx d a ix cls e y m s
  | .vstG d a cls e y m => execVstG d a cls e y m s
  | .vstxG d a ix cls e y m => execVstxG d a ix cls e y m s
  | .vldSc d a cls m => execVldSc d a cls m s
  | .vstSc d a cls m => execVstSc d a cls m s
  | .vamoAdd d a ix cls m => execVamoAdd d a ix cls m s
  | .vamoAnd d a ix cls m => execVamoAnd d a ix cls m s
  | .vamoOr d a ix cls m => execVamoOr d a ix cls m s
  | .vamoXor d a ix cls m => execVamoXor d a ix cls m s
  | .vamoMin d a ix cls m => execVamoMin d a ix cls m s
  | .vamoMax d a ix cls m => execVamoMax d a ix cls m s
  | .vamoMinn d a ix cls m => execVamoMinn d a ix cls m s
  | .vamoMaxn d a ix cls m => execVamoMaxn d a ix cls m s
  | .vamoSwap d a ix cls m => execVamoSwap d a ix cls m s
  | .vamoCas d a ix cls m => execVamoCas d a ix cls m s
  | .vamoFadd d a ix cls m => execVamoFadd d a ix cls m s
  | .vamoFAdd d a ix cls m => execVamoFAdd d a ix cls m s
  | .vamoFAnd d a ix cls m => execVamoFAnd d a ix cls m s
  | .vamoFOr d a ix cls m => execVamoFOr d a ix cls m s
  | .vamoFXor d a ix cls m => execVamoFXor d a ix cls m s
  | .vamoFMin d a ix cls m => execVamoFMin d a ix cls m s
  | .vamoFMax d a ix cls m => execVamoFMax d a ix cls m s
  | .vamoFMinn d a ix cls m => execVamoFMinn d a ix cls m s
  | .vamoFMaxn d a ix cls m => execVamoFMaxn d a ix cls m s
  | .vamoFSwap d a ix cls m => execVamoFSwap d a ix cls m s
  | .vamoFCas d a ix cls m => execVamoFCas d a ix cls m s
  | .vamoFFadd d a ix cls m => execVamoFFadd d a ix cls m s
  | _ => trapIll s

/-- The instruction of a word in a block: of the vector majors only. -/
def blockDecode (w : BitVec 32) : Option Instr :=
  let f := splitWord w
  if 0x30 ≤ f.maj.toNat ∧ f.maj.toNat ≤ 0x60 then
    match decodeVec f with
    | .ok i => some i
    | .error _ => none
  else none

/-- The stall count of a word in a block: only the arithmetic majors carry one (12 R171). -/
def blockStall (w : BitVec 32) : Nat := if (splitWord w).maj.toNat < 0x4A then (splitWord w).lo.toNat else 0

/-- The lowest VP program counter among the running VPs. -/
def Block.lowest (b : Block) : Option Word :=
  b.pcs.foldl (fun acc p => match acc, p with
    | some x, some y => if y.ult x then some y else some x
    | none, y => y
    | x, none => x) none

/-- The issue group at an address. -/
def Block.groupAt (b : Block) (p : Word) : BitVec 32768 :=
  ((List.range b.pcs.length).filter (fun i => b.pcs.getD i none == some p)).foldl
    (fun acc i => acc ||| (BitVec.ofNat 32768 1 <<< i)) (0#32768)

/-- The slot from which every VP of the group may issue (R20). -/
def Block.slotFor (b : Block) (g : BitVec 32768) : Nat :=
  ((List.range b.nextAt.length).filter (fun i => g.getLsbD i)).foldl (fun acc i => max acc (b.nextAt.getD i 0)) 0

/-- The issue group is selected: its VPs, its address and its slot. -/
def Context.selectGroup (c : Context) (b : Block) (p : Word) : Context :=
  let g := b.groupAt p
  { c with
    vec := { c.vec with blk := some { b with grp := some g, cur := p } }
    clock := { c.clock with vector := max c.vslot (b.slotFor g) } }

/-- The issue group has run without a trap: its VPs go on, and the VFETCH completes when all have stopped. -/
def Context.closeGroup (c : Context) (slots st : Nat) : Context :=
  match c.vec.blk with
  | none => c
  | some b =>
    if b.grp.isNone then c
    else
      let last := c.vslot + slots - 1
      let b1 := { b.advance none (last + 1 + st) with grp := none }
      let c1 := { c with vec := { c.vec with blk := some b1 }, clock := { c.clock with vector := last + 1 } }
      if b1.running then c1 else c1.endBlock

/-- What an issue group's instruction does. -/
def runGroup (w : BitVec 32) (s : State) : Out :=
  match blockDecode w with
  | some i => blockExec i s
  | none => if 0x78 ≤ (splitWord w).maj.toNat then execUnimpl w s else trapIll s

/-- VFETCH_ISSUE_GROUP (R18): the lowest VP program counter issues once for every VP that stands there, unless the thread does
not issue, held by a budget (09 R129). -/
def execVfetchIssueGroup (s : State) : Out :=
  match s.me.vec.blk with
  | none => .next s
  | some b =>
    if b.held || !s.runnable then .next s
    else
      match b.lowest with
      | none => .next (s.modMe Context.endBlock)
      | some p =>
        let s1 := s.modMe (fun c => c.selectGroup b p)
        match s1.fetchCode s1.me p with
        | .error (k, va) => faultAt k va .fetch s1
        | .ok (.w16 _) => trapIll s1
        | .ok (.w32 w) =>
          match runGroup w s1 with
          | .next t =>
            .next (t.modMe (fun c => if c.uid = s.me.uid then c.closeGroup (match c.view with | some v => v.slots | none => 1) (blockStall w) else c))
          | o => o

end Sys2Proof.Machine
end

