-- ==== Sys2Proof/Machine/Dispatch.lean ====
section
/-! DEFINITION. The meaning of every instruction, one arm for each constructor. -/

namespace Sys2Proof.Machine

def exec (i : Instr) (s : State) : Host.Outcome State Fault Refusal :=
  match i with
  | .vaddVv d a b m st => Sys2Proof.Machine.execVaddVv d a b m st s
  | .vaddVx d a b m st => Sys2Proof.Machine.execVaddVx d a b m st s
  | .vaddVi d a imm m st => Sys2Proof.Machine.execVaddVi d a imm m st s
  | .vsubVv d a b m st => Sys2Proof.Machine.execVsubVv d a b m st s
  | .vsubVx d a b m st => Sys2Proof.Machine.execVsubVx d a b m st s
  | .vsubVi d a imm m st => Sys2Proof.Machine.execVsubVi d a imm m st s
  | .vmulVv d a b m st => Sys2Proof.Machine.execVmulVv d a b m st s
  | .vmulVx d a b m st => Sys2Proof.Machine.execVmulVx d a b m st s
  | .vmulVi d a imm m st => Sys2Proof.Machine.execVmulVi d a imm m st s
  | .vmulhVv d a b m st => Sys2Proof.Machine.execVmulhVv d a b m st s
  | .vmulhVx d a b m st => Sys2Proof.Machine.execVmulhVx d a b m st s
  | .vmulhVi d a imm m st => Sys2Proof.Machine.execVmulhVi d a imm m st s
  | .vmaccVv d a b m st => Sys2Proof.Machine.execVmaccVv d a b m st s
  | .vmaccVx d a b m st => Sys2Proof.Machine.execVmaccVx d a b m st s
  | .vmaccVi d a imm m st => Sys2Proof.Machine.execVmaccVi d a imm m st s
  | .vdivVv d a b m st => Sys2Proof.Machine.execVdivVv d a b m st s
  | .vdivVx d a b m st => Sys2Proof.Machine.execVdivVx d a b m st s
  | .vdivVi d a imm m st => Sys2Proof.Machine.execVdivVi d a imm m st s
  | .vremVv d a b m st => Sys2Proof.Machine.execVremVv d a b m st s
  | .vremVx d a b m st => Sys2Proof.Machine.execVremVx d a b m st s
  | .vremVi d a imm m st => Sys2Proof.Machine.execVremVi d a imm m st s
  | .vminVv d a b m st => Sys2Proof.Machine.execVminVv d a b m st s
  | .vminVx d a b m st => Sys2Proof.Machine.execVminVx d a b m st s
  | .vminVi d a imm m st => Sys2Proof.Machine.execVminVi d a imm m st s
  | .vandVv d a b m st => Sys2Proof.Machine.execVandVv d a b m st s
  | .vandVx d a b m st => Sys2Proof.Machine.execVandVx d a b m st s
  | .vandVi d a imm m st => Sys2Proof.Machine.execVandVi d a imm m st s
  | .vorVv d a b m st => Sys2Proof.Machine.execVorVv d a b m st s
  | .vorVx d a b m st => Sys2Proof.Machine.execVorVx d a b m st s
  | .vorVi d a imm m st => Sys2Proof.Machine.execVorVi d a imm m st s
  | .vxorVv d a b m st => Sys2Proof.Machine.execVxorVv d a b m st s
  | .vxorVx d a b m st => Sys2Proof.Machine.execVxorVx d a b m st s
  | .vxorVi d a imm m st => Sys2Proof.Machine.execVxorVi d a imm m st s
  | .vshlVv d a b m st => Sys2Proof.Machine.execVshlVv d a b m st s
  | .vshlVx d a b m st => Sys2Proof.Machine.execVshlVx d a b m st s
  | .vshlVi d a imm m st => Sys2Proof.Machine.execVshlVi d a imm m st s
  | .vshrVv d a b m st => Sys2Proof.Machine.execVshrVv d a b m st s
  | .vshrVx d a b m st => Sys2Proof.Machine.execVshrVx d a b m st s
  | .vshrVi d a imm m st => Sys2Proof.Machine.execVshrVi d a imm m st s
  | .vsraVv d a b m st => Sys2Proof.Machine.execVsraVv d a b m st s
  | .vsraVx d a b m st => Sys2Proof.Machine.execVsraVx d a b m st s
  | .vsraVi d a imm m st => Sys2Proof.Machine.execVsraVi d a imm m st s
  | .vsaddVv d a b m st => Sys2Proof.Machine.execVsaddVv d a b m st s
  | .vsaddVx d a b m st => Sys2Proof.Machine.execVsaddVx d a b m st s
  | .vsaddVi d a imm m st => Sys2Proof.Machine.execVsaddVi d a imm m st s
  | .vssubVv d a b m st => Sys2Proof.Machine.execVssubVv d a b m st s
  | .vssubVx d a b m st => Sys2Proof.Machine.execVssubVx d a b m st s
  | .vssubVi d a imm m st => Sys2Proof.Machine.execVssubVi d a imm m st s
  | .vmaxVv d a b m st => Sys2Proof.Machine.execVmaxVv d a b m st s
  | .vmaxVx d a b m st => Sys2Proof.Machine.execVmaxVx d a b m st s
  | .vmaxVi d a imm m st => Sys2Proof.Machine.execVmaxVi d a imm m st s
  | .vcmpVv cc d a b m st => Sys2Proof.Machine.execVcmpVv cc d a b m st s
  | .vcmpVx cc d a b m st => Sys2Proof.Machine.execVcmpVx cc d a b m st s
  | .vcmpVi cc d a imm m st => Sys2Proof.Machine.execVcmpVi cc d a imm m st s
  | .vfaddVv d a b m st => Sys2Proof.Machine.execVfaddVv d a b m st s
  | .vfaddVx d a b m st => Sys2Proof.Machine.execVfaddVx d a b m st s
  | .vfsubVv d a b m st => Sys2Proof.Machine.execVfsubVv d a b m st s
  | .vfsubVx d a b m st => Sys2Proof.Machine.execVfsubVx d a b m st s
  | .vfmulVv d a b m st => Sys2Proof.Machine.execVfmulVv d a b m st s
  | .vfmulVx d a b m st => Sys2Proof.Machine.execVfmulVx d a b m st s
  | .vfmaccVv d a b m st => Sys2Proof.Machine.execVfmaccVv d a b m st s
  | .vfmaccVx d a b m st => Sys2Proof.Machine.execVfmaccVx d a b m st s
  | .vfnmsacVv d a b m st => Sys2Proof.Machine.execVfnmsacVv d a b m st s
  | .vfnmsacVx d a b m st => Sys2Proof.Machine.execVfnmsacVx d a b m st s
  | .vfdivVv d a b m st => Sys2Proof.Machine.execVfdivVv d a b m st s
  | .vfdivVx d a b m st => Sys2Proof.Machine.execVfdivVx d a b m st s
  | .vfminVv d a b m st => Sys2Proof.Machine.execVfminVv d a b m st s
  | .vfminVx d a b m st => Sys2Proof.Machine.execVfminVx d a b m st s
  | .vfmaxVv d a b m st => Sys2Proof.Machine.execVfmaxVv d a b m st s
  | .vfmaxVx d a b m st => Sys2Proof.Machine.execVfmaxVx d a b m st s
  | .vfcmpVv cc d a b m st => Sys2Proof.Machine.execVfcmpVv cc d a b m st s
  | .vfcmpVx cc d a b m st => Sys2Proof.Machine.execVfcmpVx cc d a b m st s
  | .vfsqrt d a m st => Sys2Proof.Machine.execVfsqrt d a m st s
  | .vfclass d a m st => Sys2Proof.Machine.execVfclass d a m st s
  | .vexp2 d a m => Sys2Proof.Machine.execVexp2 d a m s
  | .vlog2 d a m => Sys2Proof.Machine.execVlog2 d a m s
  | .vrcp d a m => Sys2Proof.Machine.execVrcp d a m s
  | .vrsq d a m => Sys2Proof.Machine.execVrsq d a m s
  | .vsin d a m => Sys2Proof.Machine.execVsin d a m s
  | .vcos d a m => Sys2Proof.Machine.execVcos d a m s
  | .vfcvtTo cs code d a m st => Sys2Proof.Machine.execVfcvtTo cs code d a m st s
  | .vfcvtFrom cs code d a m st => Sys2Proof.Machine.execVfcvtFrom cs code d a m st s
  | .vmvVv d a m st => Sys2Proof.Machine.execVmvVv d a m st s
  | .vmergeVv d a b m st => Sys2Proof.Machine.execVmergeVv d a b m st s
  | .vslideupVx d a b m => Sys2Proof.Machine.execVslideupVx d a b m s
  | .vslidednVx d a b m => Sys2Proof.Machine.execVslidednVx d a b m s
  | .vpermVv d a b m => Sys2Proof.Machine.execVpermVv d a b m s
  | .viota d ms m => Sys2Proof.Machine.execViota d ms m s
  | .vextx d a b => Sys2Proof.Machine.execVextx d a b s
  | .vinsx d a b => Sys2Proof.Machine.execVinsx d a b s
  | .vbcastVx d b m st => Sys2Proof.Machine.execVbcastVx d b m st s
  | .vbcastVi d imm m st => Sys2Proof.Machine.execVbcastVi d imm m st s
  | .vslideupVi d a imm m => Sys2Proof.Machine.execVslideupVi d a imm m s
  | .vslidednVi d a imm m => Sys2Proof.Machine.execVslidednVi d a imm m s
  | .vmergeVx d a b m st => Sys2Proof.Machine.execVmergeVx d a b m st s
  | .vmergeVi d a imm m st => Sys2Proof.Machine.execVmergeVi d a imm m st s
  | .vred o d a b m => Sys2Proof.Machine.execVred o d a b m s
  | .vfredO d a b m => Sys2Proof.Machine.execVfredO d a b m s
  | .vfredT d a b m => Sys2Proof.Machine.execVfredT d a b m s
  | .vfredMin d a b m => Sys2Proof.Machine.execVfredMin d a b m s
  | .vfredMax d a b m => Sys2Proof.Machine.execVfredMax d a b m s
  | .mand d a b st => Sys2Proof.Machine.execMand d a b st s
  | .mor d a b st => Sys2Proof.Machine.execMor d a b st s
  | .mxor d a b st => Sys2Proof.Machine.execMxor d a b st s
  | .mnot d a st => Sys2Proof.Machine.execMnot d a st s
  | .mpopc d a m st => Sys2Proof.Machine.execMpopc d a m st s
  | .mfirst d a m st => Sys2Proof.Machine.execMfirst d a m st s
  | .mmv d a st => Sys2Proof.Machine.execMmv d a st s
  | .vcompress d a m => Sys2Proof.Machine.execVcompress d a m s
  | .vcompressVl d a m => Sys2Proof.Machine.execVcompressVl d a m s
  | .vexpand d a m => Sys2Proof.Machine.execVexpand d a m s
  | .vppopc d a m => Sys2Proof.Machine.execVppopc d a m s
  | .vconfl d a m => Sys2Proof.Machine.execVconfl d a m s
  | .vrank d a m => Sys2Proof.Machine.execVrank d a m s
  | .vkcount d a b m => Sys2Proof.Machine.execVkcount d a b m s
  | .vnfblk d a m => Sys2Proof.Machine.execVnfblk d a m s
  | .vscanAdd d a ms m => Sys2Proof.Machine.execVscanAdd d a ms m s
  | .vscanMin d a ms m => Sys2Proof.Machine.execVscanMin d a ms m s
  | .vscanMax d a ms m => Sys2Proof.Machine.execVscanMax d a ms m s
  | .vscanFadd d a ms m => Sys2Proof.Machine.execVscanFadd d a ms m s
  | .vcompressKeepnf d a mk m => Sys2Proof.Machine.execVcompressKeepnf d a mk m s
  | .vcompressKeepnfVl d a mk m => Sys2Proof.Machine.execVcompressKeepnfVl d a mk m s
  | .vstop => Sys2Proof.Machine.execVstop s
  | .vpid d m => Sys2Proof.Machine.execVpid d m s
  | .vrand d m st => Sys2Proof.Machine.execVrand d m st s
  | .vfetch off m => Sys2Proof.Machine.execVfetch off m s
  | .vpj off m => Sys2Proof.Machine.execVpj off m s
  | .vld d a cls e y m => Sys2Proof.Machine.execVld d a cls e y m s
  | .vlds d a b cls e y m => Sys2Proof.Machine.execVlds d a b cls e y m s
  | .vldx d a ix cls e y m => Sys2Proof.Machine.execVldx d a ix cls e y m s
  | .vldf d a cls e y m => Sys2Proof.Machine.execVldf d a cls e y m s
  | .vst d a cls e y m => Sys2Proof.Machine.execVst d a cls e y m s
  | .vsts d a b cls e y m => Sys2Proof.Machine.execVsts d a b cls e y m s
  | .vstx d a ix cls e y m => Sys2Proof.Machine.execVstx d a ix cls e y m s
  | .vstG d a cls e y m => Sys2Proof.Machine.execVstG d a cls e y m s
  | .vstxG d a ix cls e y m => Sys2Proof.Machine.execVstxG d a ix cls e y m s
  | .vldSc d a cls m => Sys2Proof.Machine.execVldSc d a cls m s
  | .vstSc d a cls m => Sys2Proof.Machine.execVstSc d a cls m s
  | .vamoAdd d a ix cls m => Sys2Proof.Machine.execVamoAdd d a ix cls m s
  | .vamoAnd d a ix cls m => Sys2Proof.Machine.execVamoAnd d a ix cls m s
  | .vamoOr d a ix cls m => Sys2Proof.Machine.execVamoOr d a ix cls m s
  | .vamoXor d a ix cls m => Sys2Proof.Machine.execVamoXor d a ix cls m s
  | .vamoMin d a ix cls m => Sys2Proof.Machine.execVamoMin d a ix cls m s
  | .vamoMax d a ix cls m => Sys2Proof.Machine.execVamoMax d a ix cls m s
  | .vamoMinn d a ix cls m => Sys2Proof.Machine.execVamoMinn d a ix cls m s
  | .vamoMaxn d a ix cls m => Sys2Proof.Machine.execVamoMaxn d a ix cls m s
  | .vamoSwap d a ix cls m => Sys2Proof.Machine.execVamoSwap d a ix cls m s
  | .vamoCas d a ix cls m => Sys2Proof.Machine.execVamoCas d a ix cls m s
  | .vamoFadd d a ix cls m => Sys2Proof.Machine.execVamoFadd d a ix cls m s
  | .vamoFAdd d a ix cls m => Sys2Proof.Machine.execVamoFAdd d a ix cls m s
  | .vamoFAnd d a ix cls m => Sys2Proof.Machine.execVamoFAnd d a ix cls m s
  | .vamoFOr d a ix cls m => Sys2Proof.Machine.execVamoFOr d a ix cls m s
  | .vamoFXor d a ix cls m => Sys2Proof.Machine.execVamoFXor d a ix cls m s
  | .vamoFMin d a ix cls m => Sys2Proof.Machine.execVamoFMin d a ix cls m s
  | .vamoFMax d a ix cls m => Sys2Proof.Machine.execVamoFMax d a ix cls m s
  | .vamoFMinn d a ix cls m => Sys2Proof.Machine.execVamoFMinn d a ix cls m s
  | .vamoFMaxn d a ix cls m => Sys2Proof.Machine.execVamoFMaxn d a ix cls m s
  | .vamoFSwap d a ix cls m => Sys2Proof.Machine.execVamoFSwap d a ix cls m s
  | .vamoFCas d a ix cls m => Sys2Proof.Machine.execVamoFCas d a ix cls m s
  | .vamoFFadd d a ix cls m => Sys2Proof.Machine.execVamoFFadd d a ix cls m s
  | .add d a b st => Sys2Proof.Machine.execAdd d a b st s
  | .sub d a b st => Sys2Proof.Machine.execSub d a b st s
  | .mul d a b st => Sys2Proof.Machine.execMul d a b st s
  | .mulh d a b st => Sys2Proof.Machine.execMulh d a b st s
  | .mulhn d a b st => Sys2Proof.Machine.execMulhn d a b st s
  | .div d a b st => Sys2Proof.Machine.execDiv d a b st s
  | .divn d a b st => Sys2Proof.Machine.execDivn d a b st s
  | .rem d a b st => Sys2Proof.Machine.execRem d a b st s
  | .remn d a b st => Sys2Proof.Machine.execRemn d a b st s
  | .and d a b st => Sys2Proof.Machine.execAnd d a b st s
  | .or d a b st => Sys2Proof.Machine.execOr d a b st s
  | .xor d a b st => Sys2Proof.Machine.execXor d a b st s
  | .shl d a b st => Sys2Proof.Machine.execShl d a b st s
  | .shr d a b st => Sys2Proof.Machine.execShr d a b st s
  | .sra d a b st => Sys2Proof.Machine.execSra d a b st s
  | .min d a b st => Sys2Proof.Machine.execMin d a b st s
  | .max d a b st => Sys2Proof.Machine.execMax d a b st s
  | .minn d a b st => Sys2Proof.Machine.execMinn d a b st s
  | .maxn d a b st => Sys2Proof.Machine.execMaxn d a b st s
  | .slt d a b st => Sys2Proof.Machine.execSlt d a b st s
  | .sltn d a b st => Sys2Proof.Machine.execSltn d a b st s
  | .sel d a b st => Sys2Proof.Machine.execSel d a b st s
  | .clz d a st => Sys2Proof.Machine.execClz d a st s
  | .ctz d a st => Sys2Proof.Machine.execCtz d a st s
  | .popc d a st => Sys2Proof.Machine.execPopc d a st s
  | .brev d a st => Sys2Proof.Machine.execBrev d a st s
  | .addi d a imm st => Sys2Proof.Machine.execAddi d a imm st s
  | .andi d a imm st => Sys2Proof.Machine.execAndi d a imm st s
  | .ori d a imm st => Sys2Proof.Machine.execOri d a imm st s
  | .xori d a imm st => Sys2Proof.Machine.execXori d a imm st s
  | .shli d a sh st => Sys2Proof.Machine.execShli d a sh st s
  | .shri d a sh st => Sys2Proof.Machine.execShri d a sh st s
  | .srai d a sh st => Sys2Proof.Machine.execSrai d a sh st s
  | .slti d a imm st => Sys2Proof.Machine.execSlti d a imm st s
  | .lih d imm st => Sys2Proof.Machine.execLih d imm st s
  | .adpc d imm st => Sys2Proof.Machine.execAdpc d imm st s
  | .fadd f rm d a b st => Sys2Proof.Machine.execFadd f rm d a b st s
  | .fsub f rm d a b st => Sys2Proof.Machine.execFsub f rm d a b st s
  | .fmul f rm d a b st => Sys2Proof.Machine.execFmul f rm d a b st s
  | .ffma f rm d a b st => Sys2Proof.Machine.execFfma f rm d a b st s
  | .fdiv f rm d a b st => Sys2Proof.Machine.execFdiv f rm d a b st s
  | .fmin f d a b st => Sys2Proof.Machine.execFmin f d a b st s
  | .fmax f d a b st => Sys2Proof.Machine.execFmax f d a b st s
  | .fcmp f cc d a b st => Sys2Proof.Machine.execFcmp f cc d a b st s
  | .fsqrt f rm d a st => Sys2Proof.Machine.execFsqrt f rm d a st s
  | .fcvt f code rm d a st => Sys2Proof.Machine.execFcvt f code rm d a st s
  | .fclass f d a st => Sys2Proof.Machine.execFclass f d a st s
  | .ld w d a imm cls => Sys2Proof.Machine.execLd w d a imm cls s
  | .st w b a imm cls => Sys2Proof.Machine.execSt w b a imm cls s
  | .stG w b a imm cls => Sys2Proof.Machine.execStG w b a imm cls s
  | .amoAdd d a b cls sc => Sys2Proof.Machine.execAmoAdd d a b cls sc s
  | .amoAnd d a b cls sc => Sys2Proof.Machine.execAmoAnd d a b cls sc s
  | .amoOr d a b cls sc => Sys2Proof.Machine.execAmoOr d a b cls sc s
  | .amoXor d a b cls sc => Sys2Proof.Machine.execAmoXor d a b cls sc s
  | .amoMin d a b cls sc => Sys2Proof.Machine.execAmoMin d a b cls sc s
  | .amoMax d a b cls sc => Sys2Proof.Machine.execAmoMax d a b cls sc s
  | .amoMinn d a b cls sc => Sys2Proof.Machine.execAmoMinn d a b cls sc s
  | .amoMaxn d a b cls sc => Sys2Proof.Machine.execAmoMaxn d a b cls sc s
  | .amoSwap d a b cls sc => Sys2Proof.Machine.execAmoSwap d a b cls sc s
  | .amoCas d a b cls sc => Sys2Proof.Machine.execAmoCas d a b cls sc s
  | .amoqpop d a cls sc => Sys2Proof.Machine.execAmoqpop d a cls sc s
  | .amoqsteal d a cls sc => Sys2Proof.Machine.execAmoqsteal d a cls sc s
  | .beq a b off => Sys2Proof.Machine.execBeq a b off s
  | .bne a b off => Sys2Proof.Machine.execBne a b off s
  | .blt a b off => Sys2Proof.Machine.execBlt a b off s
  | .bge a b off => Sys2Proof.Machine.execBge a b off s
  | .bltn a b off => Sys2Proof.Machine.execBltn a b off s
  | .bgen a b off => Sys2Proof.Machine.execBgen a b off s
  | .jal d off => Sys2Proof.Machine.execJal d off s
  | .jalr d a imm => Sys2Proof.Machine.execJalr d a imm s
  | .calli d a k => Sys2Proof.Machine.execCalli d a k s
  | .cmark k => Sys2Proof.Machine.execCmark k s
  | .trap imm => Sys2Proof.Machine.execTrap imm s
  | .srd d n => Sys2Proof.Machine.execSrd d n s
  | .swr n a => Sys2Proof.Machine.execSwr n a s
  | .erd d sel => Sys2Proof.Machine.execErd d sel s
  | .tret => Sys2Proof.Machine.execTret s
  | .fencei => Sys2Proof.Machine.execFencei s
  | .yield => Sys2Proof.Machine.execYield s
  | .exit => Sys2Proof.Machine.execExit s
  | .join d a => Sys2Proof.Machine.execJoin d a s
  | .leave d a => Sys2Proof.Machine.execLeave d a s
  | .ctail a b => Sys2Proof.Machine.execCtail a b s
  | .lreq d a => Sys2Proof.Machine.execLreq d a s
  | .vsetvl d a b => Sys2Proof.Machine.execVsetvl d a b s
  | .vsetvli d a req rm => Sys2Proof.Machine.execVsetvli d a req rm s
  | .vfetchIssueGroup => Sys2Proof.Machine.execVfetchIssueGroup s
  | .fenceC mask => Sys2Proof.Machine.execFenceC mask s
  | .fenceP pf pt => Sys2Proof.Machine.execFenceP pf pt s
  | .fenceS sc => Sys2Proof.Machine.execFenceS sc s
  | .fenceA sc a => Sys2Proof.Machine.execFenceA sc a s
  | .bwait sc a => Sys2Proof.Machine.execBwait sc a s
  | .hpost l a => Sys2Proof.Machine.execHpost l a s
  | .hwait l a => Sys2Proof.Machine.execHwait l a s
  | .hfset f b => Sys2Proof.Machine.execHfset f b s
  | .hfsetBare f => Sys2Proof.Machine.execHfsetBare f s
  | .hfsetClr f => Sys2Proof.Machine.execHfsetClr f s
  | .hfwait f full => Sys2Proof.Machine.execHfwait f full s
  | .cpy d a b tag => Sys2Proof.Machine.execCpy d a b tag s
  | .cpy2 d a b tag => Sys2Proof.Machine.execCpy2 d a b tag s
  | .cpyx d a b tag => Sys2Proof.Machine.execCpyx d a b tag s
  | .twaitall d a => Sys2Proof.Machine.execTwaitall d a s
  | .twaitany d a => Sys2Proof.Machine.execTwaitany d a s
  | .tfirst d a => Sys2Proof.Machine.execTfirst d a s
  | .coll d a => Sys2Proof.Machine.execColl d a s
  | .gath l a b => Sys2Proof.Machine.execGath l a b s
  | .mmaGr l q h slot cb z sat cg cr iv => Sys2Proof.Machine.execMmaGr l q h slot cb z sat cg cr iv s
  | .mmaRg l q h slot cb z sat cg cr iv => Sys2Proof.Machine.execMmaRg l q h slot cb z sat cg cr iv s
  | .mmag a q h slot cb z sat cg cr iv => Sys2Proof.Machine.execMmag a q h slot cb z sat cg cr iv s
  | .mzero q => Sys2Proof.Machine.execMzero q s
  | .mwait n => Sys2Proof.Machine.execMwait n s
  | .pload slot a => Sys2Proof.Machine.execPload slot a s
  | .matrixStart cl => Sys2Proof.Machine.execMatrixStart cl s
  | .handoffFlagEmptied cl => Sys2Proof.Machine.execHandoffFlagEmptied cl s
  | .mmagGroupComplete cl => Sys2Proof.Machine.execMmagGroupComplete cl s
  | .matrixComplete cl => Sys2Proof.Machine.execMatrixComplete cl s
  | .tdrain d q code a slot t c iv => Sys2Proof.Machine.execTdrain d q code a slot t c iv s
  | .tfill q b a => Sys2Proof.Machine.execTfill q b a s
  | .gload slot a => Sys2Proof.Machine.execGload slot a s
  | .gset slot a b => Sys2Proof.Machine.execGset slot a b s
  | .gstateR d => Sys2Proof.Machine.execGstateR d s
  | .gstateW b => Sys2Proof.Machine.execGstateW b s
  | .grun d a b slot m => Sys2Proof.Machine.execGrun d a b slot m s
  | .grun1 d a slot m => Sys2Proof.Machine.execGrun1 d a slot m s
  | .gcmp d slot v m => Sys2Proof.Machine.execGcmp d slot v m s
  | .gfin d slot m => Sys2Proof.Machine.execGfin d slot m s
  | .unimpl w => Sys2Proof.Machine.execUnimpl w s
  | .cAdd b => Sys2Proof.Machine.execCAdd b s
  | .cSub b => Sys2Proof.Machine.execCSub b s
  | .cAnd b => Sys2Proof.Machine.execCAnd b s
  | .cOr b => Sys2Proof.Machine.execCOr b s
  | .cXor b => Sys2Proof.Machine.execCXor b s
  | .cAddi imm => Sys2Proof.Machine.execCAddi imm s
  | .cShli sh => Sys2Proof.Machine.execCShli sh s
  | .cShri sh => Sys2Proof.Machine.execCShri sh s
  | .cMov b => Sys2Proof.Machine.execCMov b s
  | .cLi imm => Sys2Proof.Machine.execCLi imm s
  | .cBnez imm => Sys2Proof.Machine.execCBnez imm s
  | .cBeqz imm => Sys2Proof.Machine.execCBeqz imm s
  | .cNop => Sys2Proof.Machine.execCNop s
  | .cvAdd b => Sys2Proof.Machine.execCvAdd b s
  | .cvFadd b => Sys2Proof.Machine.execCvFadd b s
  | .cvFmul b => Sys2Proof.Machine.execCvFmul b s
  | .cvFmacc a b => Sys2Proof.Machine.execCvFmacc a b s
  | .cvMv b => Sys2Proof.Machine.execCvMv b s
  | .pagePresent n => Sys2Proof.Machine.execPagePresent n s
  | .pageFail n => Sys2Proof.Machine.execPageFail n s
  | .vectorQueueIssue cl res req => Sys2Proof.Machine.execVectorQueueIssue cl res req s
  | .mmioRegisterWrite fn off v wide => Sys2Proof.Machine.execMmioRegisterWrite fn off v wide s
  | .qtailWrite fn q v => Sys2Proof.Machine.execQtailWrite fn q v s
  | .qctlWrite fn q v => Sys2Proof.Machine.execQctlWrite fn q v s
  | .qstatClear fn q => Sys2Proof.Machine.execQstatClear fn q s
  | .asshootWrite fn sp v => Sys2Proof.Machine.execAsshootWrite fn sp v s
  | .shootDownDone fn sp => Sys2Proof.Machine.execShootDownDone fn sp s
  | .pageWalkFill cl fn sp va gen => Sys2Proof.Machine.execPageWalkFill cl fn sp va gen s
  | .queueEntryRead q => Sys2Proof.Machine.execQueueEntryRead q s
  | .launchAdmission n => Sys2Proof.Machine.execLaunchAdmission n s
  | .launchAccept n => Sys2Proof.Machine.execLaunchAccept n s
  | .waitOnValueCheck n => Sys2Proof.Machine.execWaitOnValueCheck n s
  | .signalEntry n => Sys2Proof.Machine.execSignalEntry n s
  | .queueEntryComplete n => Sys2Proof.Machine.execQueueEntryComplete n s
  | .threadPlacement n => Sys2Proof.Machine.execThreadPlacement n s
  | .coscheduledPlacement n => Sys2Proof.Machine.execCoscheduledPlacement n s
  | .launchCompletion n => Sys2Proof.Machine.execLaunchCompletion n s
  | .segmentRelease n cl => Sys2Proof.Machine.execSegmentRelease n cl s
  | .periodTurn die => Sys2Proof.Machine.execPeriodTurn die s
  | .energyCharge n die cls amount => Sys2Proof.Machine.execEnergyCharge n die cls amount s
  | .contextSwapOut n area => Sys2Proof.Machine.execContextSwapOut n area s
  | .contextResume n slot => Sys2Proof.Machine.execContextResume n slot s
  | .bureauContextSwitch n out area => Sys2Proof.Machine.execBureauContextSwitch n out area s
  | .copyPiece n => Sys2Proof.Machine.execCopyPiece n s
  | .copyComplete n => Sys2Proof.Machine.execCopyComplete n s
  | .collComplete n => Sys2Proof.Machine.execCollComplete n s
  | .storeApply n => Sys2Proof.Machine.execStoreApply n s
  | .storeVisibleOnDie n die => Sys2Proof.Machine.execStoreVisibleOnDie n die s
  | .storeAcknowledge n => Sys2Proof.Machine.execStoreAcknowledge n s
  | .globalStoreApply n => Sys2Proof.Machine.execGlobalStoreApply n s
  | .ackLossDetection n applied => Sys2Proof.Machine.execAckLossDetection n applied s
  | .linkFailure die port => Sys2Proof.Machine.execLinkFailure die port s
  | .uncorrectableError site => Sys2Proof.Machine.execUncorrectableError site s
  | .patrolScrub die line => Sys2Proof.Machine.execPatrolScrub die line s
  | .monitorSample cl k slot v => Sys2Proof.Machine.execMonitorSample cl k slot v s
  | .mctlWrite k v => Sys2Proof.Machine.execMctlWrite k v s
  | .packageReportRequest fn nonce => Sys2Proof.Machine.execPackageReportRequest fn nonce s
  | .keyLoad fn k => Sys2Proof.Machine.execKeyLoad fn k s
  | .keyClear k => Sys2Proof.Machine.execKeyClear k s
  | .keyRelease fn => Sys2Proof.Machine.execKeyRelease fn s
  | .packageBoot sigOk good => Sys2Proof.Machine.execPackageBoot sigOk good s
  | .dieRelease die good => Sys2Proof.Machine.execDieRelease die good s
  | .firmwareUpdate sigOk sec minor patch => Sys2Proof.Machine.execFirmwareUpdate sigOk sec minor patch s
  | .dieReset die => Sys2Proof.Machine.execDieReset die s
  | .functionLevelReset fn => Sys2Proof.Machine.execFunctionLevelReset fn s
  | .thermalThrottle hot => Sys2Proof.Machine.execThermalThrottle hot s
  | .overtempReset die => Sys2Proof.Machine.execOvertempReset die s
  | .objectLoad n => Sys2Proof.Machine.execObjectLoad n s
  | .objectLink n => Sys2Proof.Machine.execObjectLink n s
  | .illegalEncoding w => Sys2Proof.Machine.execIllegalEncoding w s
  | .storeVisibleToPath n p => Sys2Proof.Machine.execStoreVisibleToPath n p s
  | .lineWriteBack line => Sys2Proof.Machine.execLineWriteBack line s
  | .correctedError die kind => Sys2Proof.Machine.execCorrectedError die kind s
  | .linkRecovery die port => Sys2Proof.Machine.execLinkRecovery die port s
  | .linkRetransmission die port => Sys2Proof.Machine.execLinkRetransmission die port s
  | .fabricBringUp dev => Sys2Proof.Machine.execFabricBringUp dev s
  | .hostWrite pa data => Sys2Proof.Machine.execHostWrite pa data s
  | .fjasAssembly n => Sys2Proof.Machine.execFjasAssembly n s

end Sys2Proof.Machine
end

