-- ==== Sys2Proof/Machine/VecQueue.lean ====
section
/-! DEFINITION. The vector issue queue around an instruction (07 R98 to R101; 12 R173): entering it, stalling on a full one, and the
grant of load/store issue that a copy or collective instruction needs. An entry stands for the grants its instruction still needs;
what the instruction does to registers and memory it does as it enters (log entry 50, DEDUCED). -/

namespace Sys2Proof.Machine

/-- The code of a vector, Graver or drain instruction, which a thread's scalar core places in the vector issue queue (R99). -/
def queuedCode (c : Code) : Bool :=
  match c with
  | .w16 h => decide (14 ≤ (h.extractLsb' 1 5).toNat)
  | .w32 w =>
    let m := (splitWord w).maj.toNat
    decide (m = 0x28) || decide (0x2C ≤ m ∧ m ≤ 0x60) || decide (0x6E ≤ m ∧ m ≤ 0x72)

/-- How many grants of a given size cover `n` results. -/
def grantsFor (size n : Nat) : Nat := (n + size - 1) / size

/-- The clocks of a Graver run over the active elements (17 R293). -/
def State.graverClocks (s : State) (slot : Fin 4) (m : MReg) : Nat :=
  match s.me.vec.gt[slot], s.me.view with
  | some t, some v =>
    let a := (v.active s.me.group s.me.vregs m false).length
    (if t.chain then a else grantsFor 8 a) * t.ndig
  | _, _ => 0

/-- The shared resource that a vector instruction requests and the grants it needs, counted over the positions from VBEG to
VL - 1 (R101; 15 R243; 14 R235; 16 R282; 17 R293) (log entry 50, DEDUCED). -/
def grantsOf (i : Instr) (s : State) : Option (SharedRes × Nat) :=
  let n := s.me.vec.vl.toNat - s.me.vec.vbeg.toNat
  let special := some (.special, grantsFor (if s.me.vec.vtype.toNat % 32 = 10 then 32 else 64) n)
  let per64 := fun r : SharedRes => some (r, grantsFor 64 n)
  match i with
  | .vld .. | .vlds .. | .vldx .. | .vldf .. | .vst .. | .vsts .. | .vstx .. | .vstG .. | .vstxG .. | .vldSc .. | .vstSc ..
  | .vamoAdd .. | .vamoAnd .. | .vamoOr .. | .vamoXor .. | .vamoMin .. | .vamoMax .. | .vamoMinn .. | .vamoMaxn .. | .vamoSwap ..
  | .vamoCas .. | .vamoFadd .. | .vamoFAdd .. | .vamoFAnd .. | .vamoFOr .. | .vamoFXor .. | .vamoFMin .. | .vamoFMax ..
  | .vamoFMinn .. | .vamoFMaxn .. | .vamoFSwap .. | .vamoFCas .. | .vamoFFadd .. => per64 .loadStore
  | .vslideupVx .. | .vslidednVx .. | .vslideupVi .. | .vslidednVi .. | .vpermVv .. | .viota .. | .vcompress .. | .vcompressVl ..
  | .vcompressKeepnf .. | .vcompressKeepnfVl .. | .vexpand .. | .vred .. | .vfredO .. | .vfredT .. | .vfredMin .. | .vfredMax ..
  | .vscanAdd .. | .vscanMin .. | .vscanMax .. | .vscanFadd .. | .vppopc .. | .vconfl .. | .vrank .. | .vkcount .. => per64 .crossbar
  | .vexp2 .. | .vlog2 .. | .vrcp .. | .vrsq .. | .vsin .. | .vcos .. => special
  | .tdrain .. | .tfill .. => some (.drain, n)
  | .grun _ _ _ slot m => some (.graver, s.graverClocks slot m)
  | .grun1 _ _ slot m => some (.graver, s.graverClocks slot m)
  | .gcmp .. | .gfin .. | .gstateR .. | .gstateW .. => per64 .graver
  | _ => none

/-- The entry of an instruction: one without a shared resource needs no grant. -/
def vqEntryOf (i : Instr) (s : State) : VqEntry :=
  match grantsOf i s with
  | some (r, n) => ⟨some r, n⟩
  | none => ⟨none, 0⟩

/-- The vector issue queue holds 16 entries (R98). -/
def vqDepth : Nat := 16

/-- The context in focus went on past an instruction, or an issue group, without a trap. -/
def State.passedOn (s t : State) : Bool :=
  t.me.uid == s.me.uid && t.me.status == .running && t.me.trap.handling == s.me.trap.handling && (t.me.pc != s.me.pc || s.inBlock)

/-- An instruction that goes on past has entered the vector issue queue. -/
def State.enterVq (s : State) (e : VqEntry) (o : Out) : Out :=
  match o with
  | .next t => .next (if s.passedOn t then t.modMe (fun c => { c with vq := c.vq ++ [e] }) else t)
  | o => o

/-- A copy or collective instruction needs one grant of load/store issue as it issues (R101). -/
def asksAtIssue : Instr → Bool
  | .cpy .. | .cpy2 .. | .cpyx .. | .coll .. => true
  | _ => false

/-- The context in focus runs an instruction of the given code: one of a thread for the vector issue queue waits while that is
full and enters it; a copy or collective instruction runs in a clock in which its thread wins load/store issue. A clock in which
the stream waits is a slot (12 R173). -/
def State.issue (s : State) (c : Code) (i : Instr) (run : State → Out) : Out :=
  if s.me.kind = .thread ∧ queuedCode c then
    if vqDepth ≤ s.me.vq.length then .next (s.idleSlots 1) else s.enterVq (vqEntryOf i s) (run s)
  else if s.me.kind = .thread ∧ asksAtIssue i then
    let ps := s.requesters s.me.cl (fun c => c.uid == s.me.uid || c.asks .loadStore)
    let s1 := s.grantRound .loadStore ps
    if (grantWinner .loadStore ps).any (fun w => w.uid != s.me.uid) then .next ((s1.headGranted .loadStore ps).idleSlots 1)
    else run s1
  else run s

/-- The instruction that the next issue group of the block in progress runs, when it is one. -/
def State.groupInstr (s : State) : Option (Code × Instr) :=
  match s.me.vec.blk.bind Block.lowest with
  | none => none
  | some p =>
    match s.fetchCode s.me p with
    | .ok (.w32 w) => (blockDecode w).map (fun i => (.w32 w, i))
    | _ => none

end Sys2Proof.Machine
end

