-- ==== Sys2Proof/Machine/Step.lean ====
section
/-! DEFINITION. One step of the package: the next turn of the schedule, or else one instruction of the context in focus. -/

namespace Sys2Proof.Machine

/-- The context in focus runs one instruction: the next issue group of a VFETCH in progress, or the instruction at its pc;
a rejected word runs as ILLEGAL_ENCODING; around it stands the vector issue queue. Nothing happens while it is not running or is held by a budget
(log entry 5, DESIGN CHOICE; log entry 6, DESIGN CHOICE). -/
noncomputable def stepContext (s : State) : Host.Outcome State Fault Refusal :=
  if !s.runnable then .next s
  else if s.inBlock then
    match s.groupInstr with
    | some (c, i) => s.issue c i (exec .vfetchIssueGroup)
    | none => exec .vfetchIssueGroup s
  else
    match s.code with
    | .error (k, va) => fetchFault k va s
    | .ok c => s.issue c (decodeOrIllegal c) (exec (decodeOrIllegal c))

/-- One step (log entry 5, DESIGN CHOICE; log entry 6, DESIGN CHOICE). -/
noncomputable def step (s : State) : Host.Outcome State Fault Refusal :=
  match s.sched with
  | .ctx n :: r => .next (State.focus { s with sched := r } n)
  | .event i :: r => if (encode i).isNone then exec i { s with sched := r } else .next { s with sched := r }
  | .prefetch va :: r => .next (State.prefetch { s with sched := r } va)
  | .idle n :: r => .next (State.idleSlots { s with sched := r } n)
  | .engine cl i :: r => .next (State.engineStep { s with sched := r } cl i)
  | .traffic n die cls flits units :: r => .next (State.chargeTraffic { s with sched := r } n die cls flits units)
  | .ahead p cls va n :: r => .next (State.loadAhead { s with sched := r } p cls va n)
  | .part n :: r => .next (State.modMe { s with sched := r } (fun c => { c with quota := some n }))
  | .walk cl fn sp va :: r => .next (State.startWalk { s with sched := r } cl fn sp va)
  | .mmioRead fn off wide :: r => .next (State.hostRead { s with sched := r } fn off wide)
  | .flrRead fn :: r => .next (State.readFlr { s with sched := r } fn)
  | .assign a :: r => .next (State.assign { s with sched := r } a)
  | [] => stepContext s

/-- `s` with the instruction of `nbits` bits `w` (zero above them, up to four bytes) stored where the next step fetches;
where no instruction could be fetched, one thread is placed first (log entry 4, DESIGN CHOICE). -/
def State.withFetchWord (s : State) (nbits w : Nat) : State :=
  if s.canFetch then s.loadCode (tableBytes nbits w) else s.placeProbe.loadCode (tableBytes nbits w)

end Sys2Proof.Machine
end

