-- ==== Sys2Proof/Safety.lean ====
section
/-! DEFINITION. The words in which the statements are made: the conditions on a state and operands under which an
instruction has its own effect, and the frames of groups of instructions. -/

namespace Sys2Proof.Machine

/-! ### Scalar instructions -/

/-- None of the scalar sources stops the instruction: under SBCHK = 1 none is read early (12 R173), and none is poisoned
(06 R96). -/
def State.ReadyX (s : State) (rs : List XReg) : Prop :=
  s.stalledX rs = none ∧ rs.any (fun r => s.me.xpoison.getLsbD r.val) = false

/-- The next state of an instruction whose only effect is to write `v` to xd: latency `lat`, stall count `st`, `len` bytes. -/
def State.scalarNext (s : State) (d : XReg) (v : Word) (lat st len : Nat) : State :=
  s.modMe (fun c => (c.wx d v lat).done st len)

/-- The next state of an instruction with no effect but to go on. -/
def State.goOn (s : State) (len : Nat) : State := s.modMe (fun c => c.done 0 len)

/-- The state in which the stream of the context goes on at `pc` and nothing else has changed. -/
def State.goTo (s : State) (pc : Word) : State :=
  { s with me := { s.me with pc := pc, clock := { s.me.clock with scalar := s.me.clock.scalar + 1 } } }

/-- The context has a trap handler and is not handling a trap: a trap is delivered to TVEC (13 R201). -/
def Context.TakesTraps (c : Context) : Prop := c.trap.tvec ≠ 0 ∧ c.trap.handling = false

/-! ### Stores of the context -/

/-- No store that the test picks is lost, and each has a home that answers: nothing traps ACKLOSS (11 R164, R165). -/
def State.Clear (s : State) (pick : StoreRec → Bool) : Prop :=
  ∀ r ∈ s.stores, pick r = true → r.lost = false ∧ (r.home = r.die ∨ s.reachable r.die r.home = true)

/-- The memory system is in canonical form: memory's keys strictly rise and no entry equals what an unlisted key reads as;
each pending store lists a key once; and in the list of stores the applied ones come first, in coherence order, then those that have
performed on their die, then those only issued. -/
def State.Canonical (s : State) : Prop :=
  Memory.wf s.mem = true ∧ (∀ r ∈ s.stores, (r.bytes.map (fun c => c.1)).Nodup) ∧ s.stores.Pairwise (fun r q => r.rank ≤ q.rank)

/-- Every store has a number of its own, one that has been given out. -/
def State.Numbered (s : State) : Prop := (∀ r ∈ s.stores, r.id < s.nextId) ∧ (s.stores.map (fun r => r.id)).Nodup

/-- A store under key index `ki` to the block of a key changes nothing else in the block: it is not encrypted, or lies under the keys
of that index or under none yet (06 R97). -/
def State.keyedAs (s : State) (ki k : Nat) : Prop :=
  isEncrypted k = false ∨ s.blockKey k = none ∨ s.blockKey k = some (s.slotKey ki)

/-- No store of the context, or of a copy whose completion it has observed, is lost or can be lost now. -/
def State.NoneLost (s : State) : Prop := s.Clear s.me.owns

/-! ### Accesses of a context on P0 -/

/-- The earlier stores of the context that must be applied before an access of a path and class to some bytes: those that
perform at their home and that R141 or R145 orders before it (11 R160). -/
def State.heldBack (s : State) (p : Path) (cls : Cls) (k n : Nat) (r : StoreRec) : Bool :=
  r.mode != .early && s.me.orders p cls [(k, n)] r

/-- A scalar access of `n` bytes at an address goes through: aligned, inside the address space, mapped to `m` with the right
asked for, and every store it must wait for can still be applied (13 R194; 08 R119, R120). -/
def State.Reaches (s : State) (acc : Access) (cls : Cls) (va : Word) (n : Nat) (m : Mapped) : Prop :=
  va.toNat < 2 ^ 55 ∧ va.toNat % n = 0 ∧ s.xlate s.me.party acc va = .ok m ∧ s.Clear (s.heldBack .p0 cls m.key n)

/-- Every byte of a datum is there: no poison, and a home that answers (06 R96, 11 R166). -/
def State.Present (s : State) (k n : Nat) : Prop :=
  ∀ i, i < n → s.poisoned (k + i) = false ∧ (isPad k = true ∨ s.reachable s.me.die (homeOf (k + i)) = true)

/-! ### Vector instructions outside a VFETCH block -/

/-- The context is a thread outside a block, under a valid VTYPE that `v` describes, with a VL that VSETVL can have granted. -/
def State.Vec (s : State) (v : VView) : Prop :=
  s.me.kind = .thread ∧ s.me.group = none ∧ s.me.view = some v ∧ v.vl ≤ v.vlmax

/-- No vector or mask source stops the instruction: under SBCHK = 1 none is read early, and none is poisoned, its descriptors
included under a nonzero BL. -/
def State.ReadyV (s : State) (v : VView) (vs : List VSrc) (ms : List MReg) : Prop :=
  (s.me.sys.sbchk = true → s.me.earlyV v vs = none ∧ s.me.earlyM ms = none) ∧
    (∀ p ∈ s.me.vpoison, ∀ a ∈ vs, a.has p.1 = false) ∧
    (v.bl ≠ 0 → ∀ p ∈ s.me.shpoison, ∀ a ∈ vs, a.has p.1 = false) ∧ ∀ p ∈ s.me.mpoison, p.1 ∉ ms

/-- With an active unit under `m`, no source stops the instruction, and no published group overlaps its destination. -/
def State.VecReady (s : State) (v : VView) (xs : List XReg) (vs : List VSrc) (ms : List MReg) (d : VReg) (n : Nat) (m : MReg)
    (from0 : Bool) : Prop :=
  v.active none s.me.vregs m from0 ≠ [] → s.ReadyX xs ∧ s.ReadyV v vs ms ∧ s.guarding d n = none

/-- What a vector instruction with a destination group of `n` registers from `d` changes at most: the group with its
descriptors, FFLAGS and FXIDX, LDV, VBEG, the pc and the issue slots. -/
def State.VecFrame (s t : State) (d : VReg) (n len : Nat) : Prop :=
  t = { s with me := t.me } ∧
  t.me = { s.me with pc := s.me.pc + BitVec.ofNat 64 len
                     vec := { s.me.vec with v := t.me.vec.v, sh := t.me.vec.sh, vbeg := 0, ldv := d }
                     flags := t.me.flags
                     clock := { t.me.clock with xp := s.me.clock.xp }
                     vpoison := t.me.vpoison
                     shpoison := t.me.shpoison } ∧
  ∀ q : VReg, (∀ k, k < n → regAt d k ≠ q) → t.me.vec.v[q] = s.me.vec.v[q] ∧ t.me.vec.sh[q] = s.me.vec.sh[q]

/-- What is written to an element of the destination (14 R210, R211, R214), if anything: `new` for an active one, zero for an
inactive one under MP = 1, for a pad element, and for the tail under TP = 1. With `from0` VBEG counts as 0. -/
def VView.outcome (v : VView) (r : VecRegs) (m : MReg) (from0 : Bool) (e : Nat) (new : Option Nat) : Option Nat :=
  let u := e / v.per
  if v.vl ≤ v.vbeg ∨ (from0 = false ∧ u < v.vbeg) then none
  else if u < v.vl then (if r.mbit m u then new else if v.mp then some 0 else none)
  else if u < v.vlb ∨ v.tp = true then some 0 else none

/-- The elements of width `w` of a destination group after an instruction: what `val` says is written, else as before. -/
def State.Elements (s t : State) (v : VView) (d : VReg) (w : Nat) (val : Nat → Option Nat) : Prop :=
  ∀ e, e < v.vlmax * v.per → t.me.vec.elem v d w e = match val e with
    | some x => x % 2 ^ w
    | none => s.me.vec.elem v d w e

/-- FFLAGS and FXIDX after a flag-raising vector instruction whose elements raise `hits`, in index order (03 R57, R58): FXIDX
is cleared first when the instruction starts at element 0, and then keeps the first index. -/
def State.FlagsJoin (s t : State) (at0 : Prop) (hits : List (Nat × FlagSet)) : Prop :=
  (∀ k : Fin 5, t.me.flags.ff.getLsbD k.val = (s.me.flags.ff.getLsbD k.val || hits.any (fun h => h.2.getLsbD k.val))) ∧
  ∀ k : Fin 5, ∀ old : BitVec 32, (at0 → old = 0xFFFFFFFF) → (¬at0 → old = s.me.flags.fx[k]) →
    t.me.flags.fx[k] = if old ≠ 0xFFFFFFFF then old else match hits.find? (fun h => h.2.getLsbD k.val) with
      | some h => BitVec.ofNat 32 h.1
      | none => 0xFFFFFFFF

/-- An element-wise instruction on a format that `fmt` accepts completes with the frame of R210 and, element by element, the
results of `f` on its two operands and the old destination; `fl` says whether it raises their flags. -/
def State.EltSpec (s : State) (i : Instr) (fmt : VView → Bool) (o : VOpnd) (acc fl : Bool)
    (f : VView → Nat → Nat → Nat → Nat × FlagSet) (d a : VReg) (m : MReg) (len : Nat) : Prop :=
  ∀ v : VView, s.Vec v → fmt v = true → v.bl = 0 → aligned d v.lmul = true → aligned a v.lmul = true → o.ok v = true →
    s.VecReady v o.xs (⟨a, v.lmul, v.sew⟩ :: (if acc then [⟨d, v.lmul, v.sew⟩] else []) ++ o.vs v) [m] d v.lmul m false →
    let r := s.me.vregs
    let g := fun e => f v (r.elem v a v.sew e) (o.at s v r e) (r.elem v d v.sew e)
    ∃ t, exec i s = .next t ∧ s.VecFrame t d v.lmul len ∧ t.me.vec.sh = s.me.vec.sh ∧
      s.Elements t v d v.sew (fun e => v.outcome r m false e (some (g e).1)) ∧
      (fl = true → s.FlagsJoin t (v.vbeg = 0) ((v.elems (v.active none r m false)).map (fun e => (e, (g e).2)))) ∧
      (fl = false → t.me.flags = s.me.flags)

/-- A vector instruction with a destination group of FMT completes: under a view that `ok` accepts, its sources ready where
`act` says that it reads them, it writes to each element what `val` says and raises the flags that `hits` lists, if it raises
any. `s'` is the state its frame starts from: `s` but for the registers it changes beside the group. -/
def State.CellSpec (s : State) (i : Instr) (ok : VView → Bool) (act : VView → VecRegs → Bool) (xs : List XReg)
    (vs : VView → List VSrc) (ms : List MReg) (d : VReg) (len : Nat) (s' : VView → State)
    (val : VView → VecRegs → Nat → Option Nat) (hits : Option (VView → VecRegs → List (Nat × FlagSet))) : Prop :=
  ∀ v : VView, s.Vec v → ok v = true → aligned d v.lmul = true →
    (act v s.me.vregs = true → s.ReadyX xs ∧ s.ReadyV v (vs v) ms ∧ s.guarding d v.lmul = none) →
    ∃ t, exec i s = .next t ∧ (s' v).VecFrame t d v.lmul len ∧ s.Elements t v d v.sew (val v s.me.vregs) ∧
      match hits with
      | none => t.me.flags = s.me.flags
      | some h => s.FlagsJoin t True (h v s.me.vregs)

/-- An instruction that writes mask register `d` under mask `m` completes and changes only that register, the flags (where
`fl`), VBEG, the pc and the issue slots; a write to m0 is discarded. The tail of a mask reaches to its last bit (14 R210). -/
def State.MaskSpec (s : State) (i : Instr) (ok : VView → Bool) (xs : List XReg) (vs : VView → List VSrc) (ms : List MReg)
    (from0 fl : Bool) (f : VView → VecRegs → Nat → Bool × FlagSet) (d m : MReg) : Prop :=
  ∀ v : VView, s.Vec v → ok v = true →
    (v.active none s.me.vregs m from0 ≠ [] → s.ReadyX xs ∧ s.ReadyV v (vs v) ms) →
    let r := s.me.vregs
    ∃ t, exec i s = .next t ∧ t = { s with me := t.me } ∧
      t.me = { s.me with pc := s.me.pc + 4
                         vec := { s.me.vec with m := t.me.vec.m, vbeg := 0 }
                         flags := t.me.flags
                         clock := { t.me.clock with xp := s.me.clock.xp }
                         mpoison := t.me.mpoison } ∧
      (∀ q : MReg, q ≠ d ∨ d = 0 → t.me.vec.m[q] = s.me.vec.m[q]) ∧
      (d ≠ 0 → ∀ e, e < 32768 → (t.me.vec.m[d]).getLsbD e =
        if v.vl ≤ v.vbeg ∨ (from0 = false ∧ e < v.vbeg) then (s.me.vec.m[d]).getLsbD e
        else if e < v.vl then (if r.mbit m e then (f v r e).1 else if v.mp then false else (s.me.vec.m[d]).getLsbD e)
        else if v.tp then false else (s.me.vec.m[d]).getLsbD e) ∧
      (fl = true → s.FlagsJoin t (v.vbeg = 0) ((v.active none r m false).map (fun e => (e, (f v r e).2)))) ∧
      (fl = false → t.me.flags = s.me.flags)

/-! ### Vector memory instructions outside a block -/

/-- Bytes of a unit's data without block descriptors: a tile row, an element, or the byte that holds an E2M1 element. -/
def VView.unitBytes (v : VView) : Nat := if v.tile then 64 else max (v.sew / 8) 1

/-- The stores that the accesses of a vector instruction to these keys must wait for (11 R160). -/
def State.heldBackAll (s : State) (cls : Cls) (ks : List (Nat × Nat)) (r : StoreRec) : Bool :=
  r.mode != .early && s.me.orders .p1 cls ks r

/-- The state in which the accesses of a vector instruction to these keys take place: those stores have been applied. -/
def State.afterHeld (s : State) (cls : Cls) (ks : List (Nat × Nat)) : State :=
  if ks = [] then s else s.drainGlob (s.heldBackAll cls ks)

end Sys2Proof.Machine
end

