-- ==== Sys2Proof/WellFormed.lean ====
section
/-! DEFINITION. Well-formed instructions: the conditions on an instruction's operands that its operand types do not
already impose and that chapter 12 puts on its encoding. -/

namespace Sys2Proof

/-- The operands are ones the encoding tables admit: a VFCVT or TDRAIN format code to 16 (12 R179, R183), a TDRAIN with
slot and IV zero while C = 0 (16 R279), an MX word with IV only beside CG or CR (16 R268), a KEEPNF mask m1 to m7
(12 R180), an UNIMPL word with a major of 0x78 to 0x7F (12 R187), a rejected compact word in the low halfword
(12 R168), an aligned register offset (19 R308) and a host write inside a 48-bit window address (06 R93). -/
def Instr.wf : Instr → Bool
  | .vaddVv _ _ _ _ _ => true
  | .vaddVx _ _ _ _ _ => true
  | .vaddVi _ _ _ _ _ => true
  | .vsubVv _ _ _ _ _ => true
  | .vsubVx _ _ _ _ _ => true
  | .vsubVi _ _ _ _ _ => true
  | .vmulVv _ _ _ _ _ => true
  | .vmulVx _ _ _ _ _ => true
  | .vmulVi _ _ _ _ _ => true
  | .vmulhVv _ _ _ _ _ => true
  | .vmulhVx _ _ _ _ _ => true
  | .vmulhVi _ _ _ _ _ => true
  | .vmaccVv _ _ _ _ _ => true
  | .vmaccVx _ _ _ _ _ => true
  | .vmaccVi _ _ _ _ _ => true
  | .vdivVv _ _ _ _ _ => true
  | .vdivVx _ _ _ _ _ => true
  | .vdivVi _ _ _ _ _ => true
  | .vremVv _ _ _ _ _ => true
  | .vremVx _ _ _ _ _ => true
  | .vremVi _ _ _ _ _ => true
  | .vminVv _ _ _ _ _ => true
  | .vminVx _ _ _ _ _ => true
  | .vminVi _ _ _ _ _ => true
  | .vandVv _ _ _ _ _ => true
  | .vandVx _ _ _ _ _ => true
  | .vandVi _ _ _ _ _ => true
  | .vorVv _ _ _ _ _ => true
  | .vorVx _ _ _ _ _ => true
  | .vorVi _ _ _ _ _ => true
  | .vxorVv _ _ _ _ _ => true
  | .vxorVx _ _ _ _ _ => true
  | .vxorVi _ _ _ _ _ => true
  | .vshlVv _ _ _ _ _ => true
  | .vshlVx _ _ _ _ _ => true
  | .vshlVi _ _ _ _ _ => true
  | .vshrVv _ _ _ _ _ => true
  | .vshrVx _ _ _ _ _ => true
  | .vshrVi _ _ _ _ _ => true
  | .vsraVv _ _ _ _ _ => true
  | .vsraVx _ _ _ _ _ => true
  | .vsraVi _ _ _ _ _ => true
  | .vsaddVv _ _ _ _ _ => true
  | .vsaddVx _ _ _ _ _ => true
  | .vsaddVi _ _ _ _ _ => true
  | .vssubVv _ _ _ _ _ => true
  | .vssubVx _ _ _ _ _ => true
  | .vssubVi _ _ _ _ _ => true
  | .vmaxVv _ _ _ _ _ => true
  | .vmaxVx _ _ _ _ _ => true
  | .vmaxVi _ _ _ _ _ => true
  | .vcmpVv _ _ _ _ _ _ => true
  | .vcmpVx _ _ _ _ _ _ => true
  | .vcmpVi _ _ _ _ _ _ => true
  | .vfaddVv _ _ _ _ _ => true
  | .vfaddVx _ _ _ _ _ => true
  | .vfsubVv _ _ _ _ _ => true
  | .vfsubVx _ _ _ _ _ => true
  | .vfmulVv _ _ _ _ _ => true
  | .vfmulVx _ _ _ _ _ => true
  | .vfmaccVv _ _ _ _ _ => true
  | .vfmaccVx _ _ _ _ _ => true
  | .vfnmsacVv _ _ _ _ _ => true
  | .vfnmsacVx _ _ _ _ _ => true
  | .vfdivVv _ _ _ _ _ => true
  | .vfdivVx _ _ _ _ _ => true
  | .vfminVv _ _ _ _ _ => true
  | .vfminVx _ _ _ _ _ => true
  | .vfmaxVv _ _ _ _ _ => true
  | .vfmaxVx _ _ _ _ _ => true
  | .vfcmpVv _ _ _ _ _ _ => true
  | .vfcmpVx _ _ _ _ _ _ => true
  | .vfsqrt _ _ _ _ => true
  | .vfclass _ _ _ _ => true
  | .vexp2 _ _ _ => true
  | .vlog2 _ _ _ => true
  | .vrcp _ _ _ => true
  | .vrsq _ _ _ => true
  | .vsin _ _ _ => true
  | .vcos _ _ _ => true
  | .vfcvtTo _ code _ _ _ _ => decide (code.toNat ≤ 16)
  | .vfcvtFrom _ code _ _ _ _ => decide (code.toNat ≤ 16)
  | .vmvVv _ _ _ _ => true
  | .vmergeVv _ _ _ _ _ => true
  | .vslideupVx _ _ _ _ => true
  | .vslidednVx _ _ _ _ => true
  | .vpermVv _ _ _ _ => true
  | .viota _ _ _ => true
  | .vextx _ _ _ => true
  | .vinsx _ _ _ => true
  | .vbcastVx _ _ _ _ => true
  | .vbcastVi _ _ _ _ => true
  | .vslideupVi _ _ _ _ => true
  | .vslidednVi _ _ _ _ => true
  | .vmergeVx _ _ _ _ _ => true
  | .vmergeVi _ _ _ _ _ => true
  | .vred _ _ _ _ _ => true
  | .vfredO _ _ _ _ => true
  | .vfredT _ _ _ _ => true
  | .vfredMin _ _ _ _ => true
  | .vfredMax _ _ _ _ => true
  | .mand _ _ _ _ => true
  | .mor _ _ _ _ => true
  | .mxor _ _ _ _ => true
  | .mnot _ _ _ => true
  | .mpopc _ _ _ _ => true
  | .mfirst _ _ _ _ => true
  | .mmv _ _ _ => true
  | .vcompress _ _ _ => true
  | .vcompressVl _ _ _ => true
  | .vexpand _ _ _ => true
  | .vppopc _ _ _ => true
  | .vconfl _ _ _ => true
  | .vrank _ _ _ => true
  | .vkcount _ _ _ _ => true
  | .vnfblk _ _ _ => true
  | .vscanAdd _ _ _ _ => true
  | .vscanMin _ _ _ _ => true
  | .vscanMax _ _ _ _ => true
  | .vscanFadd _ _ _ _ => true
  | .vcompressKeepnf _ _ mk _ => decide (mk ≠ 0)
  | .vcompressKeepnfVl _ _ mk _ => decide (mk ≠ 0)
  | .vstop => true
  | .vpid _ _ => true
  | .vrand _ _ _ => true
  | .vfetch _ _ => true
  | .vpj _ _ => true
  | .vld _ _ _ _ _ _ => true
  | .vlds _ _ _ _ _ _ _ => true
  | .vldx _ _ _ _ _ _ _ => true
  | .vldf _ _ _ _ _ _ => true
  | .vst _ _ _ _ _ _ => true
  | .vsts _ _ _ _ _ _ _ => true
  | .vstx _ _ _ _ _ _ _ => true
  | .vstG _ _ _ _ _ _ => true
  | .vstxG _ _ _ _ _ _ _ => true
  | .vldSc _ _ _ _ => true
  | .vstSc _ _ _ _ => true
  | .vamoAdd _ _ _ _ _ => true
  | .vamoAnd _ _ _ _ _ => true
  | .vamoOr _ _ _ _ _ => true
  | .vamoXor _ _ _ _ _ => true
  | .vamoMin _ _ _ _ _ => true
  | .vamoMax _ _ _ _ _ => true
  | .vamoMinn _ _ _ _ _ => true
  | .vamoMaxn _ _ _ _ _ => true
  | .vamoSwap _ _ _ _ _ => true
  | .vamoCas _ _ _ _ _ => true
  | .vamoFadd _ _ _ _ _ => true
  | .vamoFAdd _ _ _ _ _ => true
  | .vamoFAnd _ _ _ _ _ => true
  | .vamoFOr _ _ _ _ _ => true
  | .vamoFXor _ _ _ _ _ => true
  | .vamoFMin _ _ _ _ _ => true
  | .vamoFMax _ _ _ _ _ => true
  | .vamoFMinn _ _ _ _ _ => true
  | .vamoFMaxn _ _ _ _ _ => true
  | .vamoFSwap _ _ _ _ _ => true
  | .vamoFCas _ _ _ _ _ => true
  | .vamoFFadd _ _ _ _ _ => true
  | .add _ _ _ _ => true
  | .sub _ _ _ _ => true
  | .mul _ _ _ _ => true
  | .mulh _ _ _ _ => true
  | .mulhn _ _ _ _ => true
  | .div _ _ _ _ => true
  | .divn _ _ _ _ => true
  | .rem _ _ _ _ => true
  | .remn _ _ _ _ => true
  | .and _ _ _ _ => true
  | .or _ _ _ _ => true
  | .xor _ _ _ _ => true
  | .shl _ _ _ _ => true
  | .shr _ _ _ _ => true
  | .sra _ _ _ _ => true
  | .min _ _ _ _ => true
  | .max _ _ _ _ => true
  | .minn _ _ _ _ => true
  | .maxn _ _ _ _ => true
  | .slt _ _ _ _ => true
  | .sltn _ _ _ _ => true
  | .sel _ _ _ _ => true
  | .clz _ _ _ => true
  | .ctz _ _ _ => true
  | .popc _ _ _ => true
  | .brev _ _ _ => true
  | .addi _ _ _ _ => true
  | .andi _ _ _ _ => true
  | .ori _ _ _ _ => true
  | .xori _ _ _ _ => true
  | .shli _ _ _ _ => true
  | .shri _ _ _ _ => true
  | .srai _ _ _ _ => true
  | .slti _ _ _ _ => true
  | .lih _ _ _ => true
  | .adpc _ _ _ => true
  | .fadd _ _ _ _ _ _ => true
  | .fsub _ _ _ _ _ _ => true
  | .fmul _ _ _ _ _ _ => true
  | .ffma _ _ _ _ _ _ => true
  | .fdiv _ _ _ _ _ _ => true
  | .fmin _ _ _ _ _ => true
  | .fmax _ _ _ _ _ => true
  | .fcmp _ _ _ _ _ _ => true
  | .fsqrt _ _ _ _ _ => true
  | .fcvt _ _ _ _ _ _ => true
  | .fclass _ _ _ _ => true
  | .ld _ _ _ _ _ => true
  | .st _ _ _ _ _ => true
  | .stG _ _ _ _ _ => true
  | .amoAdd _ _ _ _ _ => true
  | .amoAnd _ _ _ _ _ => true
  | .amoOr _ _ _ _ _ => true
  | .amoXor _ _ _ _ _ => true
  | .amoMin _ _ _ _ _ => true
  | .amoMax _ _ _ _ _ => true
  | .amoMinn _ _ _ _ _ => true
  | .amoMaxn _ _ _ _ _ => true
  | .amoSwap _ _ _ _ _ => true
  | .amoCas _ _ _ _ _ => true
  | .amoqpop _ _ _ _ => true
  | .amoqsteal _ _ _ _ => true
  | .beq _ _ _ => true
  | .bne _ _ _ => true
  | .blt _ _ _ => true
  | .bge _ _ _ => true
  | .bltn _ _ _ => true
  | .bgen _ _ _ => true
  | .jal _ _ => true
  | .jalr _ _ _ => true
  | .calli _ _ _ => true
  | .cmark _ => true
  | .trap _ => true
  | .srd _ _ => true
  | .swr _ _ => true
  | .erd _ _ => true
  | .tret => true
  | .fencei => true
  | .yield => true
  | .exit => true
  | .join _ _ => true
  | .leave _ _ => true
  | .ctail _ _ => true
  | .lreq _ _ => true
  | .vsetvl _ _ _ => true
  | .vsetvli _ _ _ _ => true
  | .vfetchIssueGroup => true
  | .fenceC _ => true
  | .fenceP _ _ => true
  | .fenceS _ => true
  | .fenceA _ _ => true
  | .bwait _ _ => true
  | .hpost _ _ => true
  | .hwait _ _ => true
  | .hfset _ _ => true
  | .hfsetBare _ => true
  | .hfsetClr _ => true
  | .hfwait _ _ => true
  | .cpy _ _ _ _ => true
  | .cpy2 _ _ _ _ => true
  | .cpyx _ _ _ _ => true
  | .twaitall _ _ => true
  | .twaitany _ _ => true
  | .tfirst _ _ => true
  | .coll _ _ => true
  | .gath _ _ _ => true
  | .mmaGr _ _ _ _ _ _ _ cg cr iv => !iv || cg || cr
  | .mmaRg _ _ _ _ _ _ _ cg cr iv => !iv || cg || cr
  | .mmag _ _ _ _ _ _ _ cg cr iv => !iv || cg || cr
  | .mzero _ => true
  | .mwait _ => true
  | .pload _ _ => true
  | .matrixStart _ => true
  | .handoffFlagEmptied _ => true
  | .mmagGroupComplete _ => true
  | .matrixComplete _ => true
  | .tdrain _ _ code _ slot _ c iv => decide (code.toNat ≤ 16) && (c || (decide (slot = 0) && !iv))
  | .tfill _ _ _ => true
  | .gload _ _ => true
  | .gset _ _ _ => true
  | .gstateR _ => true
  | .gstateW _ => true
  | .grun _ _ _ _ _ => true
  | .grun1 _ _ _ _ => true
  | .gcmp _ _ _ _ => true
  | .gfin _ _ _ => true
  | .unimpl w => w.getLsbD 0 && decide (w.extractLsb' 7 4 = 15)
  | .cAdd _ => true
  | .cSub _ => true
  | .cAnd _ => true
  | .cOr _ => true
  | .cXor _ => true
  | .cAddi _ => true
  | .cShli _ => true
  | .cShri _ => true
  | .cMov _ => true
  | .cLi _ => true
  | .cBnez _ => true
  | .cBeqz _ => true
  | .cNop => true
  | .cvAdd _ => true
  | .cvFadd _ => true
  | .cvFmul _ => true
  | .cvFmacc _ _ => true
  | .cvMv _ => true
  | .pagePresent _ => true
  | .pageFail _ => true
  | .vectorQueueIssue _ _ _ => true
  | .mmioRegisterWrite _ off _ wide => if wide then decide (off.toNat % 8 = 0) else decide (off.toNat % 4 = 0)
  | .qtailWrite _ _ _ => true
  | .qctlWrite _ _ _ => true
  | .qstatClear _ _ => true
  | .asshootWrite _ _ _ => true
  | .shootDownDone _ _ => true
  | .pageWalkFill _ _ _ _ _ => true
  | .queueEntryRead _ => true
  | .launchAdmission _ => true
  | .launchAccept _ => true
  | .waitOnValueCheck _ => true
  | .signalEntry _ => true
  | .queueEntryComplete _ => true
  | .threadPlacement _ => true
  | .coscheduledPlacement _ => true
  | .launchCompletion _ => true
  | .segmentRelease _ _ => true
  | .periodTurn _ => true
  | .energyCharge _ _ _ _ => true
  | .contextSwapOut _ _ => true
  | .contextResume _ _ => true
  | .bureauContextSwitch _ _ _ => true
  | .copyPiece _ => true
  | .copyComplete _ => true
  | .collComplete _ => true
  | .storeApply _ => true
  | .storeVisibleOnDie _ _ => true
  | .storeAcknowledge _ => true
  | .globalStoreApply _ => true
  | .ackLossDetection _ _ => true
  | .linkFailure _ _ => true
  | .uncorrectableError _ => true
  | .patrolScrub _ _ => true
  | .monitorSample _ _ _ _ => true
  | .mctlWrite _ _ => true
  | .packageReportRequest _ _ => true
  | .keyLoad _ _ => true
  | .keyClear _ => true
  | .keyRelease _ => true
  | .packageBoot _ _ => true
  | .dieRelease _ _ => true
  | .firmwareUpdate _ _ _ _ => true
  | .dieReset _ => true
  | .functionLevelReset _ => true
  | .thermalThrottle _ => true
  | .overtempReset _ => true
  | .objectLoad _ => true
  | .objectLink _ => true
  | .illegalEncoding w => w.getLsbD 0 || decide (w.extractLsb' 16 16 = 0)
  | .storeVisibleToPath _ _ => true
  | .lineWriteBack _ => true
  | .correctedError _ _ => true
  | .linkRecovery _ _ => true
  | .linkRetransmission _ _ => true
  | .fabricBringUp _ => true
  | .hostWrite pa data => decide (pa.toNat + data.length ≤ 2 ^ 48)
  | .fjasAssembly _ => true

end Sys2Proof
end

