-- ==== Sys2Proof/Certificates/Slice0/Obligations.lean ====
section
/-! DEFINITION. The statements about the model, each with the rules of the spec it rests on. -/

section Statements
open Sys2Proof Sys2Proof.Machine

/-- What the spec gives for reset (06 R87; 05 R78, R83, R84; 07 R104; 08 R122; 09 R126, R136; 10 R139): the memory system is
at rest in canonical form; every cluster has no owned lane group, empty flags, empty Plates, latches of zeros whose block
descriptors have SCALE 0x7F, X 0x80 and nf 0, a Chest of zeros, no poison, no cached translation and monitors at their reset
values; queues are disabled with registers 0; ASROOT is 0 and no shoot-down is outstanding; the part has version 3.0.0. -/
def Obligations.ResetState : Prop :=
  let r := State.reset
  r.Canonical ∧ r.Numbered ∧ r.stores = [] ∧ r.fw.isaver = 0x00030000 ∧ r.seqctr = 0 ∧
  (∀ c : Fin 64, let k := r.clusters[c]
    (∀ g : Fin 8, (k.lpart[g]).owned = false) ∧ lpartWord k.lpart = 0 ∧ (∀ f : Fin 32, (k.hf[f]).word = 0) ∧
    (∀ p : Fin 4, (k.plates[p]).committed = none) ∧ (∀ n, Sparse.get 0 k.chest n = 0) ∧ k.mq = [] ∧
    (∀ l : Fin 2, (k.latches[l]).rows = 0 ∧ (k.latches[l]).m = 0 ∧ ∀ b, b < 1024 →
      bitsAt (k.latches[l]).desc (32 * b) 8 = 0x7F ∧ bitsAt (k.latches[l]).desc (32 * b + 8) 8 = 0x80 ∧
      ((k.latches[l]).desc).getLsbD (32 * b + 16) = false) ∧
    k.latchPoison = [] ∧ k.chestPoison = [] ∧ k.tlb = [] ∧ k.walks = [] ∧
    ∀ m : Fin 4, (k.mons[m]).ctl = 0 ∧ (k.mons[m]).mmin = BitVec.allOnes 64 ∧ (k.mons[m]).mmax = 0) ∧
  (∀ q, (r.queue q).en = false ∧ (r.queue q).qbase = 0 ∧ (r.queue q).qtail = 0 ∧ (r.queue q).qhead = 0 ∧ (r.queue q).qcompl = 0 ∧
    (r.queue q).stop = false) ∧
  ∀ fn sp : Fin 256, (r.asRec fn sp).root = 0 ∧ (r.asRec fn sp).done = true

/-- 12 R168 to R172, R174: the code that the encoder writes for a well-formed instruction of any row decodes to it, with
every operand; a code that stands for no row is ILLEGAL_ENCODING's. -/
def Obligations.DecodeEncode : Prop :=
  ∀ (i : Instr) (c : Code), i.wf = true → encode i = some c → (∀ w, i ≠ .illegalEncoding w) → decodeCode c = .ok i

/-- 12 R168 to R172, R174 to R184: words written from the encoding tables, of each family, decode to the instructions they
stand for. -/
def Obligations.DecodeWords : Prop :=
  decodeTableWord 32 0x14C54811 = some (.div 9 5 6 0) ∧ decodeTableWord 32 0x123428A1 = some (.lih 5 0x1234 0) ∧
  decodeTableWord 32 0x00E628D7 = some (.fadd .f32 .rne 5 6 7 3) ∧ decodeTableWord 32 0x04072907 = some (.ld .d 5 7 2 0) ∧
  decodeTableWord 32 0x40C72955 = some (.amoCas 5 7 6 0 .d) ∧ decodeTableWord 32 0x000031E5 = some (.jal 6 2) ∧
  decodeTableWord 32 0x04202A31 = some (.srd 5 0x21) ∧ decodeTableWord 32 0x02060241 = some (.swr 0x10 6) ∧
  decodeTableWord 32 0x112A2AC1 = some (.vsetvli 5 10 0x89 0) ∧ decodeTableWord 32 0x603013DB = some (.vfmaccVx 2 1 16 0 5) ∧
  decodeTableWord 32 0x4B144523 = some (.vldx 8 20 24 2 true false 1) ∧ decodeTableWord 32 0x10400621 = some (.fenceP 2 4) ∧
  decodeTableWord 32 0x02853EB7 = some (.mmaRg 1 3 7 2 2 false true false false false) ∧
  decodeTableWord 32 0x396946E5 = some (.tdrain 8 2 9 7 1 true true false) ∧
  decodeTableWord 32 0xC0042F11 = some (.grun1 5 4 2 0) ∧ decodeTableWord 16 0x01C8 = some (.cOr 7)

/-- 13 R188; 02 R5; 07 R98, R99, R101: with nothing else scheduled the context in focus, if it runs, executes the instruction
that the code at its pc decodes to, or the next issue group of its VFETCH block; a code of no row runs as ILLEGAL_ENCODING,
and a fetch that fails takes its fault at the failing halfword. Around the instruction stands `issue`, which runs it as it is
unless it is a thread's and of the vector issue queue, or a copy or collective: an instruction of the queue enters it where
it has fewer than 16 entries and waits a slot where it is full, and a copy or collective waits a slot while another thread
wins load/store issue. -/
def Obligations.StepRunsDecoded : Prop :=
  ∀ (s : State),
    (s.sched = [] →
      (s.runnable = false → step s = .next s) ∧
      (s.runnable = true →
        (s.inBlock = true →
          (s.groupInstr = none → step s = exec .vfetchIssueGroup s) ∧
          ∀ c i, s.groupInstr = some (c, i) → step s = s.issue c i (exec .vfetchIssueGroup)) ∧
        (s.inBlock = false →
          (∀ c i, s.code = .ok c → decodeCode c = .ok i → step s = s.issue c i (exec i)) ∧
          (∀ c e, s.code = .ok c → decodeCode c = .error e →
            step s = s.issue c (.illegalEncoding c.bits) (exec (.illegalEncoding c.bits))) ∧
          ∀ k va, s.code = .error (k, va) → step s = faultAt k va .fetch s))) ∧
    ∀ (c : Code) (i : Instr) (run : State → Out),
      (s.me.kind = .bureau ∨ (queuedCode c = false ∧ asksAtIssue i = false) → s.issue c i run = run s) ∧
      (s.me.kind = .thread → queuedCode c = true →
        (16 ≤ s.me.vq.length → s.issue c i run = .next (s.idleSlots 1)) ∧
        (s.me.vq.length < 16 →
          (∀ t, run s = .next t → ∃ u, s.issue c i run = .next u ∧ u = { t with me := { t.me with vq := u.me.vq } } ∧
            u.me.vq = if s.passedOn t then t.me.vq ++ [vqEntryOf i s] else t.me.vq) ∧
          (∀ t, run s ≠ .next t) → s.issue c i run = run s)) ∧
      (s.me.kind = .thread → queuedCode c = false → asksAtIssue i = true →
        let ps := s.requesters s.me.cl (fun c => c.uid == s.me.uid || c.asks .loadStore)
        let s1 := s.grantRound .loadStore ps
        ((∀ w, grantWinner .loadStore ps = some w → w.uid = s.me.uid) → s.issue c i run = run s1) ∧
        ∀ w, grantWinner .loadStore ps = some w → w.uid ≠ s.me.uid →
          s.issue c i run = .next ((s1.headGranted .loadStore ps).idleSlots 1))

/-- The model's schedule (log entry 5): the next turn brings a context into focus, runs the step of another agent, fetches a
halfword ahead, performs a load ahead of its instruction, makes the next vector memory or Graver instruction stop at a
boundary, lets issue slots pass, starts a page walk, makes one TwoSum step of a matrix engine, has the host read a register
or assign something, or charges bytes or flits that an access moved (log entry 9). An instruction with an encoding runs in no
other agent's turn. -/
def Obligations.StepTakesTurns : Prop :=
  ∀ (s : State) (l : List Turn),
    let s0 : State := { s with sched := l }
    (∀ n, s.sched = .ctx n :: l → ∃ t, step s = .next t ∧ t.sched = l ∧ t.mem = s.mem ∧ t.stores = s.stores ∧
      ((∃ c ∈ s.contexts, c.uid = n) → t.me.uid = n) ∧ (s.me.uid ≠ n → (∃ c ∈ s.others, c.uid = n) → s.me ∈ t.others)) ∧
    (∀ i, s.sched = .event i :: l → encode i = none → step s = exec i s0) ∧
    (∀ i c, s.sched = .event i :: l → encode i = some c → step s = .next s0) ∧
    (∀ va, s.sched = .prefetch va :: l → ∃ t, step s = .next t ∧
      t = { s0 with me := { s.me with fetched := t.me.fetched } } ∧ ∀ p ∈ s.me.fetched, p ∈ t.me.fetched) ∧
    (∀ n, s.sched = .idle n :: l → step s = .next { s0 with
      me := { s.me with clock := { s.me.clock with scalar := s.me.clock.scalar + n, vector := s.me.clock.vector + n } } }) ∧
    (∀ n, s.sched = .part n :: l → step s = .next { s0 with me := { s.me with quota := some n } }) ∧
    (∀ p cls va n, s.sched = .ahead p cls va n :: l → ∃ t, step s = .next t ∧
      t = { s0 with mem := t.mem, stores := t.stores, me := { s.me with ahead := t.me.ahead, seen := t.me.seen } } ∧
      (∀ a ∈ s.me.ahead, a ∈ t.me.ahead) ∧ ∀ k, s.me.bound p cls k ≠ none → t.me.bound p cls k = s.me.bound p cls k) ∧
    (∀ cl fn sp va, s.sched = .walk cl fn sp va :: l → ∃ t, step s = .next t ∧
      t = { s0 with clusters := t.clusters } ∧ (∀ k : Fin 64, k ≠ cl → t.clusters[k] = s.clusters[k]) ∧
      (4 ≤ (s.clusters[cl]).walks.length → t.clusters[cl] = s.clusters[cl]) ∧
      t.clusters[cl] = { s.clusters[cl] with walks := (t.clusters[cl]).walks }) ∧
    (∀ fn off wide, s.sched = .mmioRead fn off wide :: l → step s = .next (s0.hostRead fn off wide)) ∧
    (∀ fn, s.sched = .flrRead fn :: l → step s = .next (s0.readFlr fn)) ∧
    (∀ a, s.sched = .assign a :: l → step s = .next (s0.assign a)) ∧
    (∀ cl i, s.sched = .engine cl i :: l → step s = .next (s0.engineStep cl i)) ∧
    ∀ n die cls flits units, s.sched = .traffic n die cls flits units :: l →
      (s.payer n = none → step s = .next s0) ∧
      ∀ launch fn, s.payer n = some (launch, fn) → ∃ t, step s = .next t ∧ t.sched = l ∧ t.me = s.me ∧ t.mem = s.mem ∧
        t.stores = s.stores ∧ (∀ m, launch ≠ some m → t.launch m = s.launch m) ∧
        let i : Fin 4 := if flits then 2 else 1
        let charged := fun b b' : Budget => b'.lim = b.lim ∧
          b'.used[i] = BitVec.ofNat 32 (min 0xFFFFFFFF (b.used[i].toNat + units)) ∧ ∀ j : Fin 4, j ≠ i → b'.used[j] = b.used[j]
        (∀ k, s.launch n = some k → ∃ k', t.launch n = some k' ∧ charged k.budget k'.budget) ∧
        charged (s.fnRec fn).tenant (t.fnRec fn).tenant ∧
        charged ((s.dies[die]).engines[engineIdx cls]) ((t.dies[die]).engines[engineIdx cls])

/-- 10 R139; 11 R161: every step keeps the memory system in canonical form: memory lists no byte twice and none that reads as
an unlisted one, each pending store lists a byte once and has a number of its own, and in the coherence order the stores that
are applied at their home come before those that are not. -/
def Obligations.StepKeepsCanonical : Prop :=
  ∀ (s t : State), s.Canonical → s.Numbered → step s = .next t → t.Canonical ∧ t.Numbered

/-- 13 R188, 05 R72, 01 R6: what every instruction that ends in a scalar register write changes, and nothing else. A write to
x0 is discarded and sets LDX; the pc moves past the instruction; the stream's next slot is 1 + S further. 01 R6, 12 R173: a
result of latency L is read from slot t + L on; a read before it, under SBCHK = 0, gives what the register held before. x0
reads zero in every state. 12 R173, 18 R294: with SBCHK = 1 an instruction that reads a scalar result before its latency has
passed traps STALL; TVAL names the first such register of its sources, kind 0, and it has no effect of its own. Every form
with scalar sources does so: on a thread and on a Bureau where both may run it. 12 R173, 12 R186, 18 R294, 14 R213: with
SBCHK = 1 a vector instruction past its first four checks whose mask leaves it an active unit traps STALL where a source is
read early, before it looks at a published group or at poison: TVAL holds kind 0, 1 or 2 and the number of the register,
scalar sources first, then vector groups, then masks (log entry 7). With an all-zero mask it makes no such check. -/
def Obligations.ScalarResults : Prop :=
  (∀ (s : State) (d : XReg) (v : Word) (lat st len : Nat),
    let t := s.scalarNext d v lat st len
    t = { s with me := t.me } ∧
    t.me = { s.me with pc := s.me.pc + BitVec.ofNat 64 len, ldx := d, x := t.me.x, xpoison := t.me.xpoison,
                       clock := { s.me.clock with scalar := s.me.clock.scalar + 1 + st, xp := t.me.clock.xp } } ∧
    (d ≠ 0 → t.me.x[d] = v ∧ t.me.xpoison.getLsbD d.val = false) ∧
    (d = 0 → t.me.x = s.me.x ∧ t.me.xpoison = s.me.xpoison) ∧
    (∀ r : XReg, r ≠ d → t.me.x[r] = s.me.x[r] ∧ t.me.xpoison.getLsbD r.val = s.me.xpoison.getLsbD r.val ∧
      t.me.clock.xp.filter (fun p => p.reg == r) = s.me.clock.xp.filter (fun p => p.reg == r))) ∧
  (∀ (s : State) (d r : XReg) (v : Word) (lat st len : Nat),
    (lat ≤ 1 + st → d ≠ 0 → (s.scalarNext d v lat st len).rx d = v) ∧
    (1 + st < lat → d ≠ 0 → (∀ p ∈ s.me.clock.xp, p.reg ≠ d) → (s.scalarNext d v lat st len).rx d = s.me.x[d]) ∧
    (r ≠ d → (∀ p ∈ s.me.clock.xp, p.reg = r → p.ready ≤ s.me.clock.scalar) →
      (s.scalarNext d v lat st len).rx r = s.rx r) ∧
    s.rx 0 = 0) ∧
  (∀ (s : State) (d a b : XReg) (st : Stall) (r : XReg),
    let stops := fun (rs : List XReg) (i : Instr) =>
      s.stalledX rs = some r → exec i s = .next (s.deliverAt .stall s.me.pc (BitVec.ofNat 64 r.val))
    (∀ rs, s.stalledX rs = some r ↔ s.me.sys.sbchk = true ∧
      rs.find? (fun q => q != 0 && (s.me.clock.xp.find? (fun p => p.reg == q)).any (fun p => decide (s.me.clock.scalar < p.ready))) =
        some r) ∧
    (stops [a, b] (.add d a b st) ∧ stops [a, b] (.sub d a b st) ∧ stops [a, b] (.mul d a b st) ∧ stops [a, b] (.mulh d a b st) ∧
      stops [a, b] (.mulhn d a b st) ∧ stops [a, b] (.div d a b st) ∧ stops [a, b] (.divn d a b st) ∧ stops [a, b] (.rem d a b st) ∧
      stops [a, b] (.remn d a b st) ∧ stops [a, b] (.and d a b st) ∧ stops [a, b] (.or d a b st) ∧ stops [a, b] (.xor d a b st) ∧
      stops [a, b] (.shl d a b st) ∧ stops [a, b] (.shr d a b st) ∧ stops [a, b] (.sra d a b st) ∧ stops [a, b] (.min d a b st) ∧
      stops [a, b] (.max d a b st) ∧ stops [a, b] (.minn d a b st) ∧ stops [a, b] (.maxn d a b st) ∧ stops [a, b] (.slt d a b st) ∧
      stops [a, b] (.sltn d a b st) ∧ stops [a, b, d] (.sel d a b st) ∧ stops [a] (.clz d a st) ∧ stops [a] (.ctz d a st) ∧
      stops [a] (.popc d a st) ∧ stops [a] (.brev d a st)) ∧
    (∀ (imm : BitVec 11) (sh : BitVec 6) (w : BitVec 16), stops [a] (.addi d a imm st) ∧ stops [a] (.andi d a imm st) ∧
      stops [a] (.ori d a imm st) ∧ stops [a] (.xori d a imm st) ∧ stops [a] (.slti d a imm st) ∧ stops [a] (.shli d a sh st) ∧
      stops [a] (.shri d a sh st) ∧ stops [a] (.srai d a sh st) ∧ stops [d] (.lih d w st) ∧ stops [a] (.jalr d a imm) ∧
      stops [a] (.calli d a imm)) ∧
    (∀ (imm : BitVec 10) (sh : BitVec 6), let x := s.me.ldx
      stops [x, b] (.cAdd b) ∧ stops [x, b] (.cSub b) ∧ stops [x, b] (.cAnd b) ∧ stops [x, b] (.cOr b) ∧ stops [x, b] (.cXor b) ∧
      stops [x] (.cAddi imm) ∧ stops [x] (.cShli sh) ∧ stops [x] (.cShri sh) ∧ stops [b] (.cMov b) ∧ stops [x] (.cBnez imm) ∧
      stops [x] (.cBeqz imm)) ∧
    (∀ off : BitVec 14, stops [a, b] (.beq a b off) ∧ stops [a, b] (.bne a b off) ∧ stops [a, b] (.blt a b off) ∧
      stops [a, b] (.bge a b off) ∧ stops [a, b] (.bltn a b off) ∧ stops [a, b] (.bgen a b off)) ∧
    (∀ (w : LdWidth) (x : StWidth) (imm : BitVec 7) (cls : Cls) (sc : Scope), stops [a] (.ld w d a imm cls) ∧
      stops [a, b] (.st x b a imm cls) ∧ stops [a, b] (.stG x b a imm cls) ∧ stops [a, b] (.amoAdd d a b cls sc) ∧
      stops [a, b] (.amoAnd d a b cls sc) ∧ stops [a, b] (.amoOr d a b cls sc) ∧ stops [a, b] (.amoXor d a b cls sc) ∧
      stops [a, b] (.amoMin d a b cls sc) ∧ stops [a, b] (.amoMax d a b cls sc) ∧ stops [a, b] (.amoMinn d a b cls sc) ∧
      stops [a, b] (.amoMaxn d a b cls sc) ∧ stops [a, b] (.amoSwap d a b cls sc) ∧ stops [a, b, d] (.amoCas d a b cls sc) ∧
      stops [a] (.amoqpop d a cls sc) ∧ stops [a] (.amoqsteal d a cls sc)) ∧
    (∀ (n : BitVec 11) (l : Fin 16), (sysExists s.me.kind n.toNat = true → stops [a] (.swr n a)) ∧ stops [a, b] (.ctail a b) ∧
      stops [a] (.hpost l a) ∧ stops [a] (.hwait l a)) ∧
    (s.me.kind = .thread → ∀ (f : FpFmt) (rm : RMode) (cc : FCmpOp) (cv : CvtCode) (sc : Scope) (tag : Fin 64) (g : Fin 4),
      stops [a, b] (.fadd f rm d a b st) ∧ stops [a, b] (.fsub f rm d a b st) ∧ stops [a, b] (.fmul f rm d a b st) ∧
      stops [a, b, d] (.ffma f rm d a b st) ∧ stops [a, b] (.fdiv f rm d a b st) ∧ stops [a, b] (.fmin f d a b st) ∧
      stops [a, b] (.fmax f d a b st) ∧ stops [a, b] (.fcmp f cc d a b st) ∧ stops [a] (.fsqrt f rm d a st) ∧
      stops [a] (.fcvt f cv rm d a st) ∧ stops [a] (.fclass f d a st) ∧ stops [a] (.join d a) ∧ stops [a] (.leave d a) ∧
      stops [a] (.lreq d a) ∧ stops [a] (.fenceA sc a) ∧ stops [a] (.bwait sc a) ∧ stops [d, a, b] (.cpy d a b tag) ∧
      stops [d, a, b] (.cpy2 d a b tag) ∧ stops [d, a, b] (.cpyx d a b tag) ∧ stops [a] (.coll d a) ∧ stops [a] (.twaitall d a) ∧
      stops [a] (.twaitany d a) ∧ stops [a] (.tfirst d a) ∧ stops [a] (.gload g a) ∧ stops [a, b] (.gset g a b) ∧
      (s.me.group = none → stops [a, b] (.vsetvl d a b) ∧ ∀ (q : BitVec 13) (z : BitVec 3), stops [a] (.vsetvli d a q z))) ∧
    (s.me.kind = .bureau → ∀ (l : Fin 2) (q : Fin 8) (h : Fin 32) (g : Fin 4) (cb : Fin 8) (z sat cg cr iv : Bool),
      stops [a, b] (.gath l a b) ∧ stops [a] (.mmag a q h g cb z sat cg cr iv) ∧ stops [a] (.pload g a))) ∧
  ((∀ (s : State) (v : VView) (xs : List XReg) (vs : List VSrc) (ms : List MReg), s.me.sys.sbchk = true →
    (∀ r, s.stalledX xs = some r → s.stalledV v xs vs ms = some (BitVec.ofNat 64 r.val)) ∧
    (s.stalledX xs = none →
      (∀ r, s.me.earlyV v vs = some r → s.stalledV v xs vs ms = some (BitVec.ofNat 64 (32 + r.val))) ∧
      (s.me.earlyV v vs = none →
        (∀ m, s.me.earlyM ms = some m → s.stalledV v xs vs ms = some (BitVec.ofNat 64 (64 + m.val))) ∧
        (s.me.earlyM ms = none → s.stalledV v xs vs ms = none)))) ∧
  (∀ (s : State) (v : VView) (inBlock : Bool) (ok : VView → Bool) (xs : List XReg) (vs : VView → List VSrc) (ms : List MReg)
      (act : VView → VecRegs → Bool) (dst : VView → Option (VReg × Nat)) (k : VView → VecRegs → State → Out),
    s.me.kind = .thread → s.me.view = some v → (s.me.group = none ∨ inBlock = true) → ok v = true →
    (act v s.me.vregs = true → ∀ w, s.stalledV v xs (vs v) ms = some w →
      vector inBlock ok xs vs ms act dst s k = .next (s.deliverAt .stall s.me.pc w)) ∧
    (act v s.me.vregs = false → vector inBlock ok xs vs ms act dst s k = k v s.me.vregs s)) ∧
  ∀ (s : State) (v : VView) (d a b : VReg) (x : XReg) (m : MReg) (st : Stall) (w : Word),
    s.Vec v → v.bl = 0 → aligned d v.lmul = true → aligned a v.lmul = true → aligned b v.lmul = true →
    v.active none s.me.vregs m false ≠ [] →
    let stops := fun (xs : List XReg) (vs : List VReg) (i : Instr) =>
      s.stalledV v xs (vs.map (fun r => ⟨r, v.lmul, v.sew⟩)) [m] = some w → exec i s = .next (s.deliverAt .stall s.me.pc w)
    (v.isInt = true → stops [] [a, b] (.vaddVv d a b m st) ∧ stops [x] [a] (.vaddVx d a x m st) ∧ stops [] [a, b] (.vmulVv d a b m st)) ∧
    (v.isFloat = true → stops [] [a, b] (.vfaddVv d a b m st) ∧ stops [] [a, d, b] (.vfmaccVv d a b m st)))

/-- 13 R189, 12 R172: the R-format integer forms, for every pair of operand values. The products are those of 128 bits. 13
R190: the immediate forms. 12 R174, 13 R209: a compact scalar form is its 32-bit counterpart on the last x destination, 2
bytes long, its result readable by the next instruction. -/
def Obligations.IntegerForms : Prop :=
  (∀ (s : State) (d a b : XReg) (st : Stall),
    let x := s.rx a
    let y := s.rx b
    let gives := fun (i : Instr) (lat : Nat) (v : Word) => exec i s = .next (s.scalarNext d v lat st.val 4)
    (s.ReadyX [a, b] →
      gives (.add d a b st) 1 (x + y) ∧ gives (.sub d a b st) 1 (x - y) ∧ gives (.mul d a b st) 3 (x * y) ∧
      gives (.mulh d a b st) 3 ((x.signExtend 128 * y.signExtend 128).extractLsb' 64 64) ∧
      gives (.mulhn d a b st) 3 ((x.setWidth 128 * y.setWidth 128).extractLsb' 64 64) ∧
      gives (.and d a b st) 1 (x &&& y) ∧ gives (.or d a b st) 1 (x ||| y) ∧ gives (.xor d a b st) 1 (x ^^^ y) ∧
      gives (.shl d a b st) 1 (x <<< (y.extractLsb' 0 6).toNat) ∧
      gives (.shr d a b st) 1 (x >>> (y.extractLsb' 0 6).toNat) ∧
      gives (.sra d a b st) 1 (x.sshiftRight (y.extractLsb' 0 6).toNat) ∧
      gives (.min d a b st) 1 (if x.toInt < y.toInt then x else y) ∧
      gives (.max d a b st) 1 (if x.toInt < y.toInt then y else x) ∧
      gives (.minn d a b st) 1 (if x < y then x else y) ∧ gives (.maxn d a b st) 1 (if x < y then y else x) ∧
      gives (.slt d a b st) 1 (if x.toInt < y.toInt then 1 else 0) ∧
      gives (.sltn d a b st) 1 (if x < y then 1 else 0)) ∧
    (s.ReadyX [a, b, d] → gives (.sel d a b st) 1 (if s.rx d ≠ 0 then x else y))) ∧
  (∀ (s : State) (d a : XReg) (imm : BitVec 11) (sh : BitVec 6) (w : BitVec 16) (st : Stall),
    let x := s.rx a
    let k := imm.signExtend 64
    let gives := fun (i : Instr) (v : Word) => exec i s = .next (s.scalarNext d v 1 st.val 4)
    (s.ReadyX [a] →
      gives (.addi d a imm st) (x + k) ∧ gives (.andi d a imm st) (x &&& k) ∧ gives (.ori d a imm st) (x ||| k) ∧
      gives (.xori d a imm st) (x ^^^ k) ∧ gives (.slti d a imm st) (if x.toInt < imm.toInt then 1 else 0) ∧
      gives (.shli d a sh st) (x <<< sh.toNat) ∧ gives (.shri d a sh st) (x >>> sh.toNat) ∧
      gives (.srai d a sh st) (x.sshiftRight sh.toNat)) ∧
    (s.ReadyX [d] → gives (.lih d w st) ((s.rx d).extractLsb' 0 48 ++ w)) ∧
    gives (.adpc d w st) (s.me.pc + w.signExtend 64 * 2048)) ∧
  (∀ (s : State) (b : XReg) (imm : BitVec 10) (sh : BitVec 6),
    let d := s.me.ldx
    let x := s.rx d
    let y := s.rx b
    let k := imm.signExtend 64
    let gives := fun (i : Instr) (v : Word) => exec i s = .next (s.scalarNext d v 1 0 2)
    (s.ReadyX [d, b] → gives (.cAdd b) (x + y) ∧ gives (.cSub b) (x - y) ∧ gives (.cAnd b) (x &&& y) ∧
      gives (.cOr b) (x ||| y) ∧ gives (.cXor b) (x ^^^ y)) ∧
    (s.ReadyX [d] → gives (.cAddi imm) (x + k) ∧ gives (.cShli sh) (x <<< sh.toNat) ∧ gives (.cShri sh) (x >>> sh.toNat)) ∧
    (s.ReadyX [b] → gives (.cMov b) y) ∧ gives (.cLi imm) k ∧ exec .cNop s = .next (s.goOn 2))

/-- 03 R36: division truncates toward zero and the remainder takes the dividend's sign; a zero divisor and the one quotient
that has no representation saturate, with the remainders of R36's table, and neither traps or raises a flag: the values that
the vector forms give in a format of width w, and the scalar forms in 64 bits. -/
def Obligations.DivisionForms : Prop :=
  ∀ (s : State) (d a b : XReg) (st : Stall) (w : Nat) (p q : Int), 0 < w →
    let lo : Int := -2 ^ (w - 1)
    let hi : Int := 2 ^ (w - 1) - 1
    (lo ≤ p → p ≤ hi →
      divInt true w p q = (if q = 0 then (if 0 ≤ p then hi else lo) else if p = lo ∧ q = -1 then hi else p.tdiv q) ∧
      remInt true w p q = (if q = 0 then p else if p = lo ∧ q = -1 then -1 else p - q * p.tdiv q)) ∧
    (0 ≤ p → p < 2 ^ w → 0 ≤ q → divInt false w p q = (if q = 0 then 2 ^ w - 1 else p / q) ∧
      remInt false w p q = if q = 0 then p else p - q * (p / q)) ∧
    (s.ReadyX [a, b] →
      let x := s.rx a
      let y := s.rx b
      let least : Word := 0x8000000000000000
      let most : Word := 0x7FFFFFFFFFFFFFFF
      let gives := fun (i : Instr) (v : Word) => exec i s = .next (s.scalarNext d v 14 st.val 4)
      gives (.div d a b st) (if y = 0 then (if x.toInt < 0 then least else most)
        else if x = least ∧ y = -1 then most else x.sdiv y) ∧
      gives (.rem d a b st) (if y = 0 then x else if x = least ∧ y = -1 then -1 else x.srem y) ∧
      gives (.divn d a b st) (if y = 0 then BitVec.allOnes 64 else x.udiv y) ∧
      gives (.remn d a b st) (if y = 0 then x else x.umod y))

/-- 13 R189: the one-source forms, each by what it counts or where it moves a bit. -/
def Obligations.IntegerBitForms : Prop :=
  ∀ (s : State) (d a : XReg) (st : Stall), s.ReadyX [a] →
    let x := s.rx a
    (∃ n : Nat, exec (.clz d a st) s = .next (s.scalarNext d (BitVec.ofNat 64 n) 1 st.val 4) ∧ n ≤ 64 ∧
      (∀ i, i < n → x.getLsbD (63 - i) = false) ∧ (n < 64 → x.getLsbD (63 - n) = true)) ∧
    (∃ n : Nat, exec (.ctz d a st) s = .next (s.scalarNext d (BitVec.ofNat 64 n) 1 st.val 4) ∧ n ≤ 64 ∧
      (∀ i, i < n → x.getLsbD i = false) ∧ (n < 64 → x.getLsbD n = true)) ∧
    exec (.popc d a st) s =
      .next (s.scalarNext d (BitVec.ofNat 64 (Finset.univ.filter (fun i : Fin 64 => x.getLsbD i.val = true)).card) 1 st.val 4) ∧
    (∃ v : Word, exec (.brev d a st) s = .next (s.scalarNext d v 1 st.val 4) ∧
      ∀ i, i < 64 → v.getLsbD (63 - i) = x.getLsbD i)

/-- 13 R191 to R193, 12 R172: on a thread, the scalar floating-point forms take their operands from the low bits, write the
rounded result zero-extended, join their flags to FFLAGS, and leave FXIDX as it was. 12 R185: a scalar floating-point form
traps ILL on the Bureau, with its word as TVAL. -/
def Obligations.ScalarFloats : Prop :=
  (∀ (s : State) (f : FpFmt) (rm : RMode) (d a b : XReg) (st : Stall), s.me.kind = .thread →
    let g := fpFmt f
    let low := fun r : XReg => (s.rx r).toNat % 2 ^ g.width
    let gives := fun (i : Instr) (lat : Nat) (p : Nat × FlagSet) => exec i s =
      .next ((s.scalarNext d (BitVec.ofNat 64 p.1) lat st.val 4).modMe
        (fun c => { c with flags := ⟨s.me.flags.ff ||| p.2, s.me.flags.fx⟩ }))
    (s.ReadyX [a, b] →
      gives (.fadd f rm d a b st) 4 (g.finish rm false (addVal rm (g.decode (low a)) (g.decode (low b)))) ∧
      gives (.fsub f rm d a b st) 4 (g.finish rm false (addVal rm (g.decode (low a)) (g.decode (low b)).flip)) ∧
      gives (.fmul f rm d a b st) 4 (g.finish rm false (mulVal (g.decode (low a)) (g.decode (low b)))) ∧
      gives (.fdiv f rm d a b st) 14 (g.finish rm false (divVal g.prec (g.decode (low a)) (g.decode (low b)))) ∧
      gives (.fmin f d a b st) 4 (g.minMax false (low a) (low b)) ∧
      gives (.fmax f d a b st) 4 (g.minMax true (low a) (low b)) ∧
      ∀ cc : FCmpOp, gives (.fcmp f cc d a b st) 4
        ((g.rel (fcmpRel cc) (low a) (low b)).1.toNat, (g.rel (fcmpRel cc) (low a) (low b)).2)) ∧
    (s.ReadyX [a, b, d] → gives (.ffma f rm d a b st) 4
      (g.finish rm false (fmaVal rm (g.decode (low a)) (g.decode (low b)) (g.decode (low d))))) ∧
    (s.ReadyX [a] →
      gives (.fsqrt f rm d a st) 14 (g.finish rm false (sqrtVal g.prec (g.decode (low a)))) ∧
      gives (.fclass f d a st) 4 (g.classOf (low a), 0) ∧
      ∀ k : CvtCode, gives (.fcvt f k rm d a st) 4 (fcvt g k rm (s.rx a).toNat))) ∧
  (∀ (s : State) (f : FpFmt) (rm : RMode) (d a b : XReg) (st : Stall) (k : CvtCode) (cc : FCmpOp), s.me.kind = .bureau →
    ∀ i ∈ [Instr.fadd f rm d a b st, .fsub f rm d a b st, .fmul f rm d a b st, .ffma f rm d a b st, .fdiv f rm d a b st,
        .fmin f d a b st, .fmax f d a b st, .fcmp f cc d a b st, .fsqrt f rm d a st, .fcvt f k rm d a st, .fclass f d a st],
      exec i s = .next (s.deliverAt .ill s.me.pc s.insWord))

/-- 03 R37, R39: in each binary format of a scalar form, rounding the value that a finite pattern denotes gives the pattern
back in every mode, and raises no flag. -/
def Obligations.RoundingKeepsRepresentable : Prop :=
  ∀ (f : FpFmt) (rm : RMode) (sat : Bool) (c : Nat), c < 2 ^ (fpFmt f).width →
    (∃ n m e, (fpFmt f).decode c = .fin n m e) → (fpFmt f).round rm sat ((fpFmt f).decode c) = (c, 0)

/-- 13 R197, R209: a branch goes to PC + offset × 2 when its comparison holds, else to the next instruction, and writes
nothing else; a compact branch compares the last x destination with zero. 13 R198, R199: JAL, JALR and CALLI leave PC + 4 in
xd and go to their target; an odd register target traps ALIGN with xd and PC unchanged; CALLI goes on only to a CMARK of its
class, else it traps CFI; CMARK has no effect. -/
def Obligations.BranchesAndJumps : Prop :=
  (∀ (s : State) (a b : XReg) (off : BitVec 14) (imm : BitVec 10),
    let x := s.rx a
    let y := s.rx b
    let goes := fun (i : Instr) (taken : Bool) (o : Word) (len : Nat) => exec i s =
      .next (s.goTo (if taken then s.me.pc + o * 2 else s.me.pc + BitVec.ofNat 64 len))
    let o := off.signExtend 64
    (s.ReadyX [a, b] →
      goes (.beq a b off) (decide (x = y)) o 4 ∧ goes (.bne a b off) (decide (x ≠ y)) o 4 ∧
      goes (.blt a b off) (decide (x.toInt < y.toInt)) o 4 ∧ goes (.bge a b off) (decide (y.toInt ≤ x.toInt)) o 4 ∧
      goes (.bltn a b off) (decide (x < y)) o 4 ∧ goes (.bgen a b off) (decide (y ≤ x)) o 4) ∧
    (s.ReadyX [s.me.ldx] →
      goes (.cBnez imm) (decide (s.rx s.me.ldx ≠ 0)) (imm.signExtend 64) 2 ∧
      goes (.cBeqz imm) (decide (s.rx s.me.ldx = 0)) (imm.signExtend 64) 2)) ∧
  (∀ (s : State) (d a : XReg) (off : BitVec 19) (imm k : BitVec 11),
    let calls := fun (i : Instr) (to_ : Word) => exec i s =
      .next ((s.modMe (fun c => c.wx d (s.me.pc + 4) 0)).goTo to_)
    let target := s.rx a + imm.signExtend 64 * 2
    calls (.jal d off) (s.me.pc + off.signExtend 64 * 2) ∧
    (s.ReadyX [a] →
      (target.getLsbD 0 = false → calls (.jalr d a imm) target) ∧
      (target.getLsbD 0 = true → exec (.jalr d a imm) s = .next (s.deliverAt .align s.me.pc target)) ∧
      ((s.rx a).getLsbD 0 = false → (∀ w : BitVec 32, s.fetchCode s.me (s.rx a) = .ok (.w32 w) →
        (w = 0x211#32 ||| (k.setWidth 32 <<< 16) → calls (.calli d a k) (s.rx a)) ∧
        (w ≠ 0x211#32 ||| (k.setWidth 32 <<< 16) → exec (.calli d a k) s = .next (s.deliverAt .cfi s.me.pc (s.rx a)))) ∧
        (∀ h : BitVec 16, s.fetchCode s.me (s.rx a) = .ok (.w16 h) →
          exec (.calli d a k) s = .next (s.deliverAt .cfi s.me.pc (s.rx a)))) ∧
      ((s.rx a).getLsbD 0 = true → exec (.calli d a k) s = .next (s.deliverAt .align s.me.pc (s.rx a)))) ∧
    exec (.cmark k) s = .next (s.goOn 4))

/-- 13 R200, R201; 12 R186, R187; 05 R80: what TRAP, a rejected word and a firmware-definable word do when a handler takes
the trap: EPC, CAUSE and TVAL are written, LDX and LDV saved, the handling mark set, and the stream goes on at TVEC; a VFETCH
in progress is set aside, and no load made ahead stands for one of the handler's; no other register, no flag and no byte of
memory changes. 12 R187: a word that a firmware update, which has raised the minor version, has defined is the firmware's:
the spec names no effect for it, and the model stops on it by name; every other one still traps UNIMPL. Which words an update
defines is a free value (log entry 46). 13 R201, 02 R21: TRET goes on at EPC with LDX and LDV as the trap saved them and the
mark cleared; a VFETCH that the trap set aside resumes when EPC is its address. With no trap being handled TRET traps ILL. -/
def Obligations.TrapsAndReturn : Prop :=
  (∀ (s : State) (imm : BitVec 11) (w : BitVec 32), s.me.TakesTraps →
    let takes := fun (i : Instr) (code : BitVec 5) (tval : Word) => exec i s =
      .next { s with me := { s.me with
        pc := s.me.trap.tvec
        clock := { s.me.clock with scalar := s.me.clock.scalar + 1 }
        vec := { s.me.vec with blk := s.me.vec.blk.map (fun b => { b with grp := none, held := true }) }
        trap := { s.me.trap with epc := s.me.pc, blk := s.me.vec.blk.any (fun b => b.grp.isSome), code := code, tval := tval,
                                 handling := true, ldx := s.me.ldx, ldv := s.me.vec.ldv }
        ahead := [], quota := none, probed := [] } }
    takes (.trap imm) 15 (imm.setWidth 64) ∧ takes (.illegalEncoding w) 1 (w.setWidth 64) ∧
    (s.fw.isaver.extractLsb' 8 8 = 0 → takes (.unimpl w) 2 (w.setWidth 64))) ∧
  (∀ (s : State) (w : BitVec 32), s.fw.isaver.extractLsb' 8 8 ≠ 0 →
    exec (.unimpl w) s = if Config.wordDefined s.fw.isaver.toNat w.toNat then .refused .firmwareDefined
      else .next (s.deliverAt .unimpl s.me.pc (w.setWidth 64))) ∧
  (∀ (s : State),
    (s.me.trap.handling = true →
      ∃ t, exec .tret s = .next t ∧ t = { s with me := t.me } ∧
        t.me = { s.me with pc := s.me.trap.epc, ldx := s.me.trap.ldx,
                           vec := { s.me.vec with ldv := s.me.trap.ldv, blk := t.me.vec.blk },
                           trap := { s.me.trap with handling := false },
                           clock := { s.me.clock with scalar := s.me.clock.scalar + 1 } } ∧
        (∀ b, s.me.vec.blk = some b → b.held = true → b.addr = s.me.trap.epc →
          t.me.vec.blk = some { b with held := false }) ∧
        (∀ b, s.me.vec.blk = some b → ¬(b.held = true ∧ b.addr = s.me.trap.epc) → t.me.vec.blk = none)) ∧
    (s.me.trap.handling = false → exec .tret s = .next (s.deliverAt .ill s.me.pc s.insWord)))

/-- 13 R201, 05 R79, 07 R110: with TVEC = 0, or while a trap is being handled, a trap ends the launch: its contexts retire,
the launch is over, and its queue stops with REASON 2 and the launch's SEQ. -/
def Obligations.TrapWithoutHandlerEndsLaunch : Prop :=
  ∀ (s : State) (imm : BitVec 11) (l : Launch), (s.me.trap.tvec = 0 ∨ s.me.trap.handling = true) →
    s.launch s.me.launch = some l → l.stage ≠ .ended →
    ∃ t, exec (.trap imm) s = .next t ∧ t.me.status = .exited ∧ t.me.members = [] ∧
      (∀ c ∈ t.others, c.launch = l.id → c.status = .exited) ∧
      (t.queue l.queue).stop = true ∧ (t.queue l.queue).reason = 2 ∧ (t.queue l.queue).sseq = l.seq ∧
      t.mem = s.mem ∧ t.stores = s.stores ∧ t.me.x = s.me.x ∧ t.me.pc = s.me.pc

/-- 13 R202, 05 R78: SRD writes the register's value to xd. Here are the registers a thread's own state holds; TVEC, EPC,
CAUSE, TVAL, GFAULT, SCRATCH, AKREC, RNG, CTAGS, VTYPE, VL, VBEG, FFLAGS, FXIDX and LDREG, and the fixed ones. 13 R202, 05
R79: SWR writes a writable register; reserved bits ignore the write, TVEC and EPC keep bit 0 clear, and MMRS above MMREV
becomes MMREV. Nothing else changes. 05 R78, 12 R186: a number that names no register traps ILL; a write of one that exists
and is read-only traps PROT with the register number, and changes nothing. On a Bureau an access to FFLAGS waits until its
matrix queue is empty, and one to a handoff flag until no queued multiply names it. -/
def Obligations.SystemRegisters : Prop :=
  (∀ (s : State) (d : XReg), s.me.kind = .thread →
    let gives := fun (n : BitVec 11) (v : Word) => exec (.srd d n) s = .next (s.scalarNext d v 0 0 4)
    gives 0x000 (s.fw.isaver.setWidth 64) ∧ gives 0x001 1 ∧ gives 0x002 (s.me.sys.mmrs.setWidth 64) ∧
    gives 0x003 (if s.me.sys.sbchk then 1 else 0) ∧ gives 0x004 (s.me.sys.share.setWidth 64) ∧
    gives 0x005 (BitVec.ofNat 64 (s.me.cl.val % 8 + 8 * s.me.slot.val)) ∧
    gives 0x006 (BitVec.ofNat 64 (s.fw.dev.toNat * 2 ^ 12 + s.me.cl.val / 8)) ∧
    gives 0x010 s.me.trap.tvec ∧ gives 0x011 s.me.trap.epc ∧
    gives 0x012 (BitVec.ofNat 64 (s.me.trap.code.toNat + if s.me.trap.blk then 2 ^ 9 else 0)) ∧
    gives 0x013 s.me.trap.tval ∧ gives 0x014 (s.me.trap.gfault.setWidth 64) ∧ gives 0x015 s.me.trap.scratch ∧
    gives 0x016 (s.me.sys.akrec.setWidth 64) ∧ gives 0x020 s.me.vec.rng ∧ gives 0x021 s.me.tags.ctags ∧
    gives 0x022 (s.me.vec.vtype.setWidth 64) ∧ gives 0x023 (s.me.vec.vl.setWidth 64) ∧
    gives 0x024 (s.me.vec.vbeg.setWidth 64) ∧ gives 0x025 (s.me.flags.ff.setWidth 64) ∧
    gives 0x026 (BitVec.ofNat 64 (s.me.ldx.val + 2 ^ 8 * s.me.vec.ldv.val)) ∧
    (∀ i : Fin 5, gives (0x028 + BitVec.ofNat 11 i.val) ((s.me.flags.fx[i]).setWidth 64)) ∧
    (∀ n : BitVec 11, sysExists .thread n.toNat = true → gives n (s.sysRead n.toNat))) ∧
  (∀ (s : State) (a : XReg), s.me.kind = .thread → s.ReadyX [a] →
    let v := s.rx a
    let c := s.me.done 0 4
    let leaves := fun (n : BitVec 11) (k : Context) => exec (.swr n a) s = .next { s with me := k }
    leaves 0x002 { c with sys := { c.sys with mmrs := if v.toNat % 16 ≤ 1 then v.setWidth 4 else 1 } } ∧
    leaves 0x003 { c with sys := { c.sys with sbchk := v.getLsbD 0 } } ∧
    leaves 0x010 { c with trap := { c.trap with tvec := v &&& 0xFFFFFFFFFFFFFFFE } } ∧
    leaves 0x011 { c with trap := { c.trap with epc := v &&& 0xFFFFFFFFFFFFFFFE } } ∧
    leaves 0x012 { c with trap := { c.trap with blk := v.getLsbD 9, code := v.extractLsb' 0 5 } } ∧
    leaves 0x013 { c with trap := { c.trap with tval := v } } ∧
    leaves 0x014 { c with trap := { c.trap with gfault := v.extractLsb' 0 20 } } ∧
    leaves 0x015 { c with trap := { c.trap with scratch := v } } ∧
    leaves 0x016 { c with sys := { c.sys with akrec := v.extractLsb' 0 17 } } ∧
    leaves 0x020 { c with vec := { c.vec with rng := v } } ∧
    leaves 0x024 { c with vec := { c.vec with vbeg := v.extractLsb' 0 32 } } ∧
    leaves 0x025 { c with flags := { c.flags with ff := v.extractLsb' 0 5 } } ∧
    leaves 0x026 { c with ldx := ⟨v.toNat % 32, Nat.mod_lt _ (by decide)⟩
                          vec := { c.vec with ldv := ⟨v.toNat / 256 % 32, Nat.mod_lt _ (by decide)⟩ } } ∧
    ∀ i : Fin 5, leaves (0x028 + BitVec.ofNat 11 i.val) { c with flags := { c.flags with fx := c.flags.fx.set i (v.extractLsb' 0 32) } }) ∧
  (∀ (s : State) (d a : XReg) (n : BitVec 11),
    (s.me.kind = .bureau →
      (s.myCluster.mq ≠ [] → exec (.srd d 0x025) s = .next s ∧ (s.ReadyX [a] → exec (.swr 0x025 a) s = .next s)) ∧
      (s.myCluster.mq = [] → exec (.srd d 0x025) s = .next (s.scalarNext d (s.me.flags.ff.setWidth 64) 0 0 4)) ∧
      ∀ h : Fin 32, let r := 0x080 + BitVec.ofNat 11 h.val
        ((∃ e ∈ s.myCluster.mq, e.flag = some h) → exec (.srd d r) s = .next s) ∧
        ((∀ e ∈ s.myCluster.mq, e.flag ≠ some h) → exec (.srd d r) s = .next (s.scalarNext d (s.myCluster.hf[h]).word 0 0 4))) ∧
    (s.me.kind = .thread →
    (sysExists .thread n.toNat = false → exec (.srd d n) s = .next (s.deliverAt .ill s.me.pc s.insWord) ∧
      exec (.swr n a) s = .next (s.deliverAt .ill s.me.pc s.insWord)) ∧
    (n ∈ [0x000#11, 0x001, 0x004, 0x005, 0x006, 0x021, 0x022, 0x023, 0x040, 0x041] → s.ReadyX [a] →
      exec (.swr n a) s = .next (s.deliverAt .prot s.me.pc (n.setWidth 64)))))

/-- 09 R132, 13 R208: ERD writes the value of its selector to xd; an undefined selector traps ILL. TIME and what derives from
it are read after TIME has moved on, on every present die, by a free amount within the period (log entry 8). -/
def Obligations.EnergyAndTimeReads : Prop :=
  ∀ (s : State) (d : XReg) (sel : BitVec 11) (l : Launch), s.launch s.me.launch = some l →
    let gives := fun (n : BitVec 11) (v : Word) => exec (.erd d n) s = .next (s.scalarNext d v 0 0 4)
    let left := fun b : Budget => if b.lim[3] = 0xFFFFFFFF then (0x7FFFFFFFFFFFFFFF : Word)
      else BitVec.ofInt 64 ((b.lim[3].toNat : Int) - b.used[3].toNat)
    gives 0 (left l.budget) ∧ gives 1 (left (s.fnRec s.me.fn).tenant) ∧ gives 5 (BitVec.ofNat 64 l.charged) ∧
    gives 6 (if s.me.kind = .thread then 0 else s.myCluster.mgdone.setWidth 64) ∧
    (∃ n : Nat, ∀ k : Fin 8, s.passTime.dies[k] = { s.dies[k] with
      time := if (s.dies[k]).status = .present then (s.dies[k]).time + BitVec.ofNat 64 n else (s.dies[k]).time }) ∧
    (∀ n ∈ [2#11, 3, 4], ∃ v : Word, exec (.erd d n) s = .next (s.passTime.scalarNext d v 0 0 4) ∧
      let time := (s.passTime.dies[s.me.die]).time
      v = if n = 2 then time else if n = 3 then BitVec.ofNat 64 (time.toNat / 2 ^ 16)
        else BitVec.ofNat 64 (65536 - time.toNat % 2 ^ 16)) ∧
    (6 < sel.toNat → exec (.erd d sel) s = .next (s.deliverAt .ill s.me.pc s.insWord))

/-- 13 R204: YIELD sets each arbitration credit to the smaller of its value and 0 and has no other effect. -/
def Obligations.YieldCapsCredits : Prop :=
  ∀ (s : State), ∃ t, exec .yield s = .next t ∧ t = { s with me := { s.me.done 0 4 with credits := t.me.credits } } ∧
    ∀ i : Fin 5, (t.me.credits[i]).toInt = min (s.me.credits[i]).toInt 0

/-- 13 R206, 02 R15, 08 R125: JOIN and LEAVE answer the first status that holds in the order of R206; a JOIN that succeeds
adds one membership, a LEAVE that succeeds removes it, and otherwise nothing but xd changes. -/
def Obligations.GroupMembership : Prop :=
  ∀ (s : State) (d a : XReg), s.me.kind = .thread → s.ReadyX [a] →
    let n := (s.rx a).toNat
    let member := fun g : Nat => s.me.members.any (fun m => m.gid == g)
    let only := fun (i : Instr) (v : Int) => exec i s = .next (s.scalarNext d (BitVec.ofInt 64 v) 0 0 4)
    let joins := fun g : Nat => ∃ t m, exec (.join d a) s = .next t ∧
      t.me = { (s.me.wx d (BitVec.ofNat 64 g) 0).done 0 4 with members := s.me.members ++ [m] } ∧ m.gid = g ∧ m.last = none ∧
      Assoc.has t.groups g = true ∧ t = { s with me := t.me, groups := t.groups }
    (n > 0xFFF → only (.join d a) (-4)) ∧
    (n ≤ 0xFFF → member n = true → only (.join d a) (-1)) ∧
    (n ≤ 0xFFF → member n = false → 8 ≤ s.me.members.length → only (.join d a) (-3)) ∧
    (n = 0xFFF → member n = false → s.me.members.length < 8 → s.freeGroup s.me.die = none → only (.join d a) (-2)) ∧
    (n = 0xFFF → member n = false → s.me.members.length < 8 → ∀ g, s.freeGroup s.me.die = some g → joins g) ∧
    (n < 0xFFF → member n = false → s.me.members.length < 8 → joins n) ∧
    (0xFFF ≤ n → only (.leave d a) (-4)) ∧
    (n < 0xFFF → member n = false → only (.leave d a) (-5)) ∧
    (n < 0xFFF → member n = true → ∃ t, exec (.leave d a) s = .next t ∧
      t.me = { (s.me.wx d 0 0).done 0 4 with members := s.me.members.filter (fun m => m.gid != n) } ∧
      t = { s with me := t.me, groups := t.groups })

/-- 13 R205, 02 R25, R31: EXIT of a thread with nothing pending performs its stores at scope S, leaves its groups, hands over
its lane groups and frees its slot; EXIT of a Bureau whose matrix queue is empty ends its stream. While a published group or
a queued matrix instruction is left, EXIT waits: the state does not change. -/
def Obligations.ExitRetires : Prop :=
  ∀ (s : State), s.NoneLost →
    (s.me.kind = .thread → s.me.tags.faults = [] → s.published s.me = [] → s.me.resident = true →
      ∃ t, exec .exit s = .next t ∧ t.me.status = .exited ∧ t.me.members = [] ∧ t.me.lreq = none ∧
        (t.clusters[s.me.cl]).slots[s.me.slot] = none ∧
        (∀ k : Fin 8, ¬(((t.clusters[s.me.cl]).lpart[k]).owned = true ∧ ((t.clusters[s.me.cl]).lpart[k]).owner = s.me.slot ∧
          ((s.clusters[s.me.cl]).lpart[k]).move = false)) ∧
        ∀ r ∈ t.stores, s.me.owns r = true → r.everywhere = true ∧ r.acked = true) ∧
    (s.me.kind = .thread → s.me.tags.faults = [] → s.published s.me ≠ [] → exec .exit s = .next s) ∧
    (s.me.kind = .bureau → s.myCluster.mq = [] →
      ∃ t, exec .exit s = .next t ∧ t.me = { s.me with status := .ended, seen := [], ahead := [] } ∧
        ∀ r ∈ t.stores, s.me.owns r = true → r.everywhere = true ∧ r.acked = true) ∧
    (s.me.kind = .bureau → s.myCluster.mq ≠ [] → exec .exit s = .next s)

/-- 13 R208, 02 R26, 26 R341: LREQ clips its operand to the launch's bounds. Above what the thread holds, it takes unowned
lane groups, lowest first, of which it becomes OWNER and HEIR, then has donors mark groups for it, which keep their OWNER and
HEIR, and xd says how many it then holds. At or below that, xd says how many it will hold: those on their way stay granted,
and it keeps at least one of its own. 02 R26: the donor of a lane group is the resident thread, other than the requester,
whose groups exceed its launch's gmin by the most, the lowest slot on a tie; it gives the highest group it keeps, which is
marked MOVE with the requester as NEXT; donors are chosen again for each group, until the request is met or none is left. -/
def Obligations.LaneRequest : Prop :=
  (∀ (s : State) (d a : XReg), s.me.kind = .thread → s.ReadyX [a] →
    let b := match s.launch s.me.launch with
      | some l => (l.pk.gmin, l.pk.gmax)
      | none => (1, 8)
    let n := min (max (s.rx a).toNat b.1) b.2
    let lp := s.myCluster.lpart
    let coming := (lp.toList.filter (fun g => g.owned && g.move && g.next == s.me.slot)).length
    let held := (lp.toList.filter (fun g => g.owned && (g.owner == s.me.slot && !g.move || g.move && g.next == s.me.slot))).length
    let free := (lp.toList.filter (fun g => !g.owned)).length
    (n ≤ held →
      let total := coming + min (held - coming) (max (n - coming) 1)
      exec (.lreq d a) s = .next { s with me := { (s.me.wx d (BitVec.ofNat 64 total) 0).done 0 4 with
        lreq := if n < held then some total else none } }) ∧
    (held < n → ∃ lp1 : Vector LaneGroup 8,
      (∀ k : Fin 8, (lp[k]).owned = true → lp1[k] = lp[k]) ∧
      (∀ k : Fin 8, (lp[k]).owned = false → lp1[k] = lp[k] ∨ lp1[k] = ⟨true, s.me.slot, s.me.slot, 0, false⟩) ∧
      (∀ j k : Fin 8, j < k → (lp1[k]).owned = true → (lp[k]).owned = false → (lp1[j]).owned = true) ∧
      (lp1.toList.filter (fun g => g.owned)).length = (lp.toList.filter (fun g => g.owned)).length + min free (n - held) ∧
      let q := s.takeDonated (n - held - free) lp1
      exec (.lreq d a) s = .next { s with
        me := { (s.me.wx d (BitVec.ofNat 64 (n - q.2)) 0).done 0 4 with lreq := none }
        clusters := s.clusters.set s.me.cl.val { s.myCluster with lpart := q.1 } s.me.cl.isLt })) ∧
  (∀ (s : State) (lp : Vector LaneGroup 8),
    let kept := fun (k : Fin 4) (g : Fin 8) => (lp[g]).owned = true ∧ (lp[g]).owner = k ∧ (lp[g]).move = false
    let held := fun k : Fin 4 =>
      (lp.toList.filter (fun g => g.owned && (g.owner == k && !g.move || g.move && g.next == k))).length
    let gmin := fun u : Nat => match s.context u with
      | some c => (match s.launch c.launch with | some l => l.pk.gmin | none => 1)
      | none => 1
    let may := fun (k : Fin 4) (u : Nat) (g : Fin 8) => k ≠ s.me.slot ∧ s.myCluster.slots[k] = some u ∧ kept k g ∧
      (∀ h : Fin 8, kept k h → h ≤ g) ∧ gmin u < held k
    (s.donor lp = none ↔ ∀ k u g, ¬may k u g) ∧
    (∀ g, s.donor lp = some g ↔ ∃ k u, may k u g ∧ ∀ k' u' g', may k' u' g' →
      held k' - gmin u' < held k - gmin u ∨ (held k' - gmin u' = held k - gmin u ∧ k ≤ k')) ∧
    s.takeDonated 0 lp = (lp, 0) ∧
    ∀ n, (s.donor lp = none → s.takeDonated (n + 1) lp = (lp, n + 1)) ∧
      ∀ g, s.donor lp = some g → s.takeDonated (n + 1) lp =
        s.takeDonated n (lp.set g.val { lp[g] with move := true, next := s.me.slot } g.isLt))

/-- 13 R194, 10 R139, R141, R145: LD reads the bytes that path P0 of its context sees, in little-endian order, under the
page's key index, of an uncached page those at the home, and a byte that the context has loaded ahead as it was then (log
entry 26); the I widths are sign-extended, the N widths zero-extended. It changes xd, what it notes of the stores it has
read, and what still stands loaded ahead; before it, the stores that R160 has it wait for are applied and those that R141 and
R145 order before it perform. 08 R119, 13 R194: an address with any of bits [63:55] set traps PROT before anything else of
the access; a misaligned one traps ALIGN; TVAL is the address, and neither memory nor the destination changes. -/
def Obligations.ScalarLoads : Prop :=
  (∀ (s : State) (w : LdWidth) (d a : XReg) (imm : BitVec 7) (cls : Cls) (m : Mapped),
    let n := ldSize w
    let va := s.rx a + imm.signExtend 64 * BitVec.ofNat 64 n
    s.ReadyX [a] → s.Reaches .load cls va n m → s.Present m.key n →
    let u := (s.drainGlob (s.heldBack .p0 cls m.key n)).orderLoad .p0 cls [(m.key, n)]
    let raw := fun k => (s.me.bound .p0 cls k).getD (if m.mt = 0 then u.viewByte (s.me.obs .p0) k else u.homeByte k)
    let v := (List.range n).foldr (fun i acc => acc * 256 + (u.plain m.ki raw (m.key + i)).toNat) 0
    ∃ t, exec (.ld w d a imm cls) s = .next t ∧ t = { u with me := t.me } ∧
      t.me = { (s.me.wx d (match w with
        | .i8 => (BitVec.ofNat 8 v).signExtend 64
        | .i16 => (BitVec.ofNat 16 v).signExtend 64
        | .i32 => (BitVec.ofNat 32 v).signExtend 64
        | .n8 | .n16 | .n32 | .d => BitVec.ofNat 64 v) 0).done 0 4 with
          seen := t.me.seen, ahead := s.me.ahead.filter (Ahead.stays .p0 cls false [(m.key, n)]) }) ∧
  (∀ (s : State) (w : LdWidth) (x : StWidth) (d a b : XReg) (imm : BitVec 7) (cls : Cls),
    let la := s.rx a + imm.signExtend 64 * BitVec.ofNat 64 (ldSize w)
    let sa := s.rx a + imm.signExtend 64 * BitVec.ofNat 64 (stSize x)
    (s.ReadyX [a] →
      (2 ^ 55 ≤ la.toNat → exec (.ld w d a imm cls) s = .next (s.deliverAt .prot s.me.pc la)) ∧
      (la.toNat < 2 ^ 55 → la.toNat % ldSize w ≠ 0 → exec (.ld w d a imm cls) s = .next (s.deliverAt .align s.me.pc la))) ∧
    (s.ReadyX [a, b] →
      (2 ^ 55 ≤ sa.toNat → exec (.st x b a imm cls) s = .next (s.deliverAt .prot s.me.pc sa) ∧
        exec (.stG x b a imm cls) s = .next (s.deliverAt .prot s.me.pc sa)) ∧
      (sa.toNat < 2 ^ 55 → sa.toNat % stSize x ≠ 0 → exec (.st x b a imm cls) s = .next (s.deliverAt .align s.me.pc sa) ∧
        exec (.stG x b a imm cls) s = .next (s.deliverAt .align s.me.pc sa))))

/-- 13 R194, 10 R139, 11 R158: ST leaves the low bytes of xs, which path P0 of its context then reads, but for an uncached
page, whose store stands unapplied until it performs at its home (08 R120); every other byte is read by every observer as
before the store, but for the block of a page whose key index changes. Nothing else of the context changes but what stands
loaded ahead. 13 R194, 11 R159: ST.G changes what no observer reads until it is applied at its home; its record stands in the
coherence order, unapplied, with the bytes of xs. -/
def Obligations.ScalarStores : Prop :=
  (∀ (s : State) (w : StWidth) (b a : XReg) (imm : BitVec 7) (cls : Cls) (m : Mapped),
    let n := stSize w
    let va := s.rx a + imm.signExtend 64 * BitVec.ofNat 64 n
    s.ReadyX [a, b] → s.Reaches .store cls va n m → m.key % n = 0 →
    let u := s.drainGlob (s.heldBack .p0 cls m.key n)
    ∃ t, exec (.st w b a imm cls) s = .next t ∧
      t.me = { s.me.done 0 4 with ahead := s.me.ahead.filter (Ahead.stays .p0 cls false [(m.key, n)]) } ∧
      (u.Canonical →
        (m.mt = 0 → ∀ i, i < n → t.viewByte (s.me.obs .p0) (m.key + i) = BitVec.ofNat 8 ((s.rx b).toNat / 2 ^ (8 * i))) ∧
        (∃ r ∈ t.stores, r.ctx = some s.me.uid ∧ r.mode = (if m.mt = 0 then .early else .home) ∧ r.home = homeOf m.key ∧
          r.path = .p0 ∧ r.applied = false ∧ r.performed = false ∧ r.va = va ∧
          r.bytes = (List.range n).map (fun i => (m.key + i, BitVec.ofNat 8 ((s.rx b).toNat / 2 ^ (8 * i))))) ∧
        (m.mt ≠ 0 → ∀ (o : Observer) (k : Nat), (k / 16 ≠ m.key / 16 ∨ u.keyedAs m.ki m.key) → t.viewByte o k = u.viewByte o k) ∧
        ∀ (o : Observer) (k : Nat), k < m.key ∨ m.key + n ≤ k → (k / 16 ≠ m.key / 16 ∨ u.keyedAs m.ki m.key) →
          t.viewByte o k = u.viewByte o k)) ∧
  (∀ (s : State) (w : StWidth) (b a : XReg) (imm : BitVec 7) (cls : Cls) (m : Mapped),
    let n := stSize w
    let va := s.rx a + imm.signExtend 64 * BitVec.ofNat 64 n
    s.ReadyX [a, b] → s.Reaches .store cls va n m → m.key % n = 0 →
    let u := s.drainGlob (s.heldBack .p0 cls m.key n)
    ∃ t, exec (.stG w b a imm cls) s = .next t ∧
      t.me = { s.me.done 0 4 with ahead := s.me.ahead.filter (Ahead.stays .p0 cls false [(m.key, n)]) } ∧
      (u.Canonical →
        (∃ r ∈ t.stores, r.ctx = some s.me.uid ∧ r.mode = .glob ∧ r.home = homeOf m.key ∧ r.applied = false ∧ r.acked = false ∧
          r.va = va ∧ r.bytes = (List.range n).map (fun i => (m.key + i, BitVec.ofNat 8 ((s.rx b).toNat / 2 ^ (8 * i))))) ∧
        ∀ (o : Observer) (k : Nat), (k / 16 ≠ m.key / 16 ∨ u.keyedAs m.ki m.key) → t.viewByte o k = u.viewByte o k))

/-- 13 R195, 10 R150, R151, R152: an AMO leaves in xd the word that was there and in memory what its operation makes of it;
the write follows the latest applied store in coherence order, and no other byte of the applied order changes, but for a
block whose key index changes. It releases before and acquires after: no load made ahead on P0 stands for one after it. 13
R196, 07 R112: a deque operation on the header {HEAD, TAIL} in one step: with TAIL > HEAD a pop answers TAIL − 1 and takes it
from the tail, a steal answers HEAD and takes it from the head; an empty deque answers all ones and is left. -/
def Obligations.ScalarAtomics : Prop :=
  (∀ (s : State) (d a b : XReg) (cls : Cls) (sc : Scope) (m : Mapped),
    let va := s.rx a
    let y := s.rx b
    s.ReadyX [a, b, d] → s.NoneLost → s.Reaches .store cls va 8 m → isHostKey m.key = false → m.key % 8 = 0 → s.Present m.key 8 →
    let u := ((s.drainGlob (s.heldBack .p0 cls m.key 8)).beforeAtomic .p0 sc cls [(m.key, 8)]).applyFor s.me.die m.key 8
    let old := BitVec.ofNat 64 (ofBytes (u.readHome m.ki m.key 8))
    let does := fun (i : Instr) (f : Word → Word) => ∃ t, exec i s = .next t ∧
      t.me = { (s.me.wx d old 0).done 0 4 with seen := t.me.seen, ahead := t.me.ahead } ∧
      (∀ e ∈ t.me.ahead, e ∈ s.me.ahead ∧ e.path ≠ .p0) ∧
      (u.Canonical → t.readHome m.ki m.key 8 = toBytes 8 (f old).toNat ∧
        ∀ k, k < m.key ∨ m.key + 8 ≤ k → (k / 16 ≠ m.key / 16 ∨ u.keyedAs m.ki m.key) → t.homeByte k = u.homeByte k)
    does (.amoAdd d a b cls sc) (fun o => o + y) ∧ does (.amoAnd d a b cls sc) (fun o => o &&& y) ∧
    does (.amoOr d a b cls sc) (fun o => o ||| y) ∧ does (.amoXor d a b cls sc) (fun o => o ^^^ y) ∧
    does (.amoMin d a b cls sc) (fun o => if o.toInt < y.toInt then o else y) ∧
    does (.amoMax d a b cls sc) (fun o => if o.toInt < y.toInt then y else o) ∧
    does (.amoMinn d a b cls sc) (fun o => if o < y then o else y) ∧
    does (.amoMaxn d a b cls sc) (fun o => if o < y then y else o) ∧
    does (.amoSwap d a b cls sc) (fun _ => y) ∧ does (.amoCas d a b cls sc) (fun o => if o = s.rx d then y else o)) ∧
  (∀ (s : State) (d a : XReg) (cls : Cls) (sc : Scope) (m : Mapped),
    let va := s.rx a
    s.ReadyX [a] → s.NoneLost → s.Reaches .store cls va 16 m → isHostKey m.key = false → m.key % 16 = 0 → s.Present m.key 16 →
    let u := ((s.drainGlob (s.heldBack .p0 cls m.key 16)).beforeAtomic .p0 sc cls [(m.key, 16)]).applyFor s.me.die m.key 16
    let head := ofBytes ((u.readHome m.ki m.key 16).take 8)
    let tail := ofBytes ((u.readHome m.ki m.key 16).drop 8)
    let does := fun (i : Instr) (answer head' tail' : Nat) => ∃ t, exec i s = .next t ∧
      t.me = { (s.me.wx d (BitVec.ofNat 64 answer) 0).done 0 4 with seen := t.me.seen, ahead := t.me.ahead } ∧
      (∀ e ∈ t.me.ahead, e ∈ s.me.ahead ∧ e.path ≠ .p0) ∧
      (u.Canonical → t.readHome m.ki m.key 16 = toBytes 8 head' ++ toBytes 8 tail' ∧
        ∀ k, k < m.key ∨ m.key + 16 ≤ k → t.homeByte k = u.homeByte k)
    (head < tail → does (.amoqpop d a cls sc) (tail - 1) head (tail - 1) ∧ does (.amoqsteal d a cls sc) head (head + 1) tail) ∧
    (tail ≤ head → does (.amoqpop d a cls sc) (2 ^ 64 - 1) head tail ∧ does (.amoqsteal d a cls sc) (2 ^ 64 - 1) head tail))

/-- 14 R210, R211, R216; 03 R35, R36; 12 R174: the integer element-wise instructions, for every format, group size and mask:
the operation on the integers the codes denote, wrapped or, under SAT where R216 says so, clamped. CV.ADD is VADD.VV on the
last vector destination. -/
def Obligations.IntegerElementInstructions : Prop :=
  ∀ (s : State) (d a b : VReg) (x : XReg) (imm : BitVec 5) (m : MReg) (st : Stall),
    let clampIf := fun (v : VView) (sat : Bool) (i : Int) =>
      patternOf v.sew (if sat then max (intMin v.signed v.sew) (min (intMax v.signed v.sew) i) else i)
    let three := fun (vv vx vi : Instr) (unsignedImm acc : Bool) (f : VView → Nat → Nat → Nat → Nat) =>
      ∀ p ∈ [(vv, VOpnd.vv b), (vx, .vx x), (vi, .vi (if unsignedImm then imm.setWidth 64 else imm.signExtend 64))],
        s.EltSpec p.1 VView.isInt p.2 acc false (fun v p q z => (f v p q z, 0)) d a m 4
    three (.vaddVv d a b m st) (.vaddVx d a x m st) (.vaddVi d a imm m st) false false
      (fun v p q _ => clampIf v v.sat (v.intOf p + v.intOf q)) ∧
    three (.vsubVv d a b m st) (.vsubVx d a x m st) (.vsubVi d a imm m st) false false
      (fun v p q _ => clampIf v v.sat (v.intOf p - v.intOf q)) ∧
    three (.vmulVv d a b m st) (.vmulVx d a x m st) (.vmulVi d a imm m st) false false
      (fun v p q _ => clampIf v v.sat (v.intOf p * v.intOf q)) ∧
    three (.vmulhVv d a b m st) (.vmulhVx d a x m st) (.vmulhVi d a imm m st) false false
      (fun v p q _ => clampIf v false (v.intOf p * v.intOf q / 2 ^ v.sew)) ∧
    three (.vmaccVv d a b m st) (.vmaccVx d a x m st) (.vmaccVi d a imm m st) false true
      (fun v p q z => clampIf v v.sat (v.intOf z + v.intOf p * v.intOf q)) ∧
    three (.vdivVv d a b m st) (.vdivVx d a x m st) (.vdivVi d a imm m st) false false
      (fun v p q _ => clampIf v false (divInt v.signed v.sew (v.intOf p) (v.intOf q))) ∧
    three (.vremVv d a b m st) (.vremVx d a x m st) (.vremVi d a imm m st) false false
      (fun v p q _ => clampIf v false (remInt v.signed v.sew (v.intOf p) (v.intOf q))) ∧
    three (.vminVv d a b m st) (.vminVx d a x m st) (.vminVi d a imm m st) false false
      (fun v p q _ => clampIf v false (min (v.intOf p) (v.intOf q))) ∧
    three (.vmaxVv d a b m st) (.vmaxVx d a x m st) (.vmaxVi d a imm m st) false false
      (fun v p q _ => clampIf v false (max (v.intOf p) (v.intOf q))) ∧
    three (.vandVv d a b m st) (.vandVx d a x m st) (.vandVi d a imm m st) false false (fun _ p q _ => p &&& q) ∧
    three (.vorVv d a b m st) (.vorVx d a x m st) (.vorVi d a imm m st) false false (fun _ p q _ => p ||| q) ∧
    three (.vxorVv d a b m st) (.vxorVx d a x m st) (.vxorVi d a imm m st) false false (fun _ p q _ => p ^^^ q) ∧
    three (.vshlVv d a b m st) (.vshlVx d a x m st) (.vshlVi d a imm m st) true false
      (fun v p q _ => p * 2 ^ (q % v.sew)) ∧
    three (.vshrVv d a b m st) (.vshrVx d a x m st) (.vshrVi d a imm m st) true false
      (fun v p q _ => p / 2 ^ (q % v.sew)) ∧
    three (.vsraVv d a b m st) (.vsraVx d a x m st) (.vsraVi d a imm m st) true false
      (fun v p q _ => clampIf v false (signedOf v.sew p / 2 ^ (q % v.sew))) ∧
    three (.vsaddVv d a b m st) (.vsaddVx d a x m st) (.vsaddVi d a imm m st) false false
      (fun v p q _ => clampIf v true (v.intOf p + v.intOf q)) ∧
    three (.vssubVv d a b m st) (.vssubVx d a x m st) (.vssubVi d a imm m st) false false
      (fun v p q _ => clampIf v true (v.intOf p - v.intOf q)) ∧
    s.EltSpec (.cvAdd b) VView.isInt (.vv b) false false (fun v p q _ => (clampIf v v.sat (v.intOf p + v.intOf q), 0))
      s.me.vec.ldv s.me.vec.ldv 0 2

/-- 14 R218 to R220, 12 R174: the floating-point element-wise instructions: the exact result of the decoded operands, rounded
once under VTYPE.RM, with the flags of every active element; VFCLASS raises none. The special functions are those of
`exp2Val` to `cosVal` (log entry 20). -/
def Obligations.FloatElementInstructions : Prop :=
  ∀ (s : State) (d a b : VReg) (x : XReg) (m : MReg) (st : Stall),
    let fin := fun (v : VView) (p : Val × FlagSet) => v.ff.finish v.rm v.sat p
    let two := fun (vv vx : Instr) (acc : Bool) (f : VView → Nat → Nat → Nat → Nat × FlagSet) =>
      ∀ p ∈ [(vv, VOpnd.vv b), (vx, .vx x)], s.EltSpec p.1 VView.isFloat p.2 acc true f d a m 4
    let add := fun (v : VView) (p q _z : Nat) => fin v (addVal v.rm (v.ff.decode p) (v.ff.decode q))
    let mul := fun (v : VView) (p q _z : Nat) => fin v (mulVal (v.ff.decode p) (v.ff.decode q))
    let fma := fun (v : VView) (p q z : Nat) => fin v (fmaVal v.rm (v.ff.decode p) (v.ff.decode q) (v.ff.decode z))
    let fun_ := fun (i : Instr) (f : VView → Val → Val × FlagSet) =>
      s.EltSpec i VView.isFloat32 (.vi 0) false true (fun v p _ _ => fin v (f v (v.ff.decode p))) d a m 4
    two (.vfaddVv d a b m st) (.vfaddVx d a x m st) false add ∧
    two (.vfsubVv d a b m st) (.vfsubVx d a x m st) false
      (fun v p q _ => fin v (addVal v.rm (v.ff.decode p) (v.ff.decode q).flip)) ∧
    two (.vfmulVv d a b m st) (.vfmulVx d a x m st) false mul ∧
    two (.vfmaccVv d a b m st) (.vfmaccVx d a x m st) true fma ∧
    two (.vfnmsacVv d a b m st) (.vfnmsacVx d a x m st) true
      (fun v p q z => fin v (fmaVal v.rm (v.ff.decode p).flip (v.ff.decode q) (v.ff.decode z))) ∧
    two (.vfdivVv d a b m st) (.vfdivVx d a x m st) false
      (fun v p q _ => fin v (divVal v.ff.prec (v.ff.decode p) (v.ff.decode q))) ∧
    two (.vfminVv d a b m st) (.vfminVx d a x m st) false (fun v p q _ => v.ff.minMax false p q) ∧
    two (.vfmaxVv d a b m st) (.vfmaxVx d a x m st) false (fun v p q _ => v.ff.minMax true p q) ∧
    s.EltSpec (.vfsqrt d a m st) VView.isFloat (.vi 0) false true
      (fun v p _ _ => fin v (sqrtVal v.ff.prec (v.ff.decode p))) d a m 4 ∧
    s.EltSpec (.vfclass d a m st) VView.isFloat (.vi 0) false false (fun v p _ _ => (v.ff.classOf p, 0)) d a m 4 ∧
    fun_ (.vexp2 d a m) (fun _ => exp2Val) ∧ fun_ (.vlog2 d a m) (fun _ => log2Val) ∧
    fun_ (.vrcp d a m) (fun v => rcpVal v.ff.prec) ∧ fun_ (.vrsq d a m) (fun _ => rsqVal) ∧
    fun_ (.vsin d a m) (fun _ => sinVal) ∧ fun_ (.vcos d a m) (fun _ => cosVal) ∧
    s.EltSpec (.cvFadd b) VView.isFloat (.vv b) false true add s.me.vec.ldv s.me.vec.ldv 0 2 ∧
    s.EltSpec (.cvFmul b) VView.isFloat (.vv b) false true mul s.me.vec.ldv s.me.vec.ldv 0 2 ∧
    s.EltSpec (.cvFmacc a b) VView.isFloat (.vv b) true true fma s.me.vec.ldv a 0 2

/-- 14 R217, R219, R228: the compares and VNFBLK write a mask: bit i says whether the relation of the elements holds, or, for
VNFBLK, whether the element is not finite or its block's nf bit is set. VFCMP raises its flags. -/
def Obligations.CompareInstructions : Prop :=
  ∀ (s : State) (cc : VCmpOp) (fc : VFCmpOp) (d : MReg) (a b : VReg) (x : XReg) (imm : BitVec 5) (m : MReg) (st : Stall),
    let plain := fun (o : VOpnd) (v : VView) => v.bl == 0 && !v.tile && aligned a v.lmul && o.ok v
    (∀ p ∈ [(Instr.vcmpVv cc d a b m st, VOpnd.vv b), (.vcmpVx cc d a x m st, .vx x),
        (.vcmpVi cc d a imm m st, .vi (imm.signExtend 64))],
      s.MaskSpec p.1 (fun v => v.isInt && plain p.2 v) p.2.xs (fun v => ⟨a, v.lmul, v.sew⟩ :: p.2.vs v) [m] false false
        (fun v r e =>
          let y := v.intOf (r.elem v a v.sew e)
          let z := v.intOf (p.2.at s v r e)
          (match cc with
            | .eq => decide (y = z) | .ne => decide (y ≠ z) | .lt => decide (y < z)
            | .le => decide (y ≤ z) | .gt => decide (z < y) | .ge => decide (z ≤ y), 0)) d m) ∧
    (∀ p ∈ [(Instr.vfcmpVv fc d a b m st, VOpnd.vv b), (.vfcmpVx fc d a x m st, .vx x)],
      s.MaskSpec p.1 (fun v => v.isFloat && plain p.2 v) p.2.xs (fun v => ⟨a, v.lmul, v.sew⟩ :: p.2.vs v) [m] false true
        (fun v r e => v.ff.rel (vfcmpRel fc) (r.elem v a v.sew e) (p.2.at s v r e)) d m) ∧
    s.MaskSpec (.vnfblk d a m) (fun v => v.fmt != .pair && !v.fmt.digits && aligned a v.lmul) []
      (fun v => [⟨a, v.lmul, v.sew⟩]) [m] false false
      (fun v r u => ((List.range v.per).any (fun k =>
        let e := u * v.per + k
        (r.val v a e).nonFinite || (v.bl != 0 && (r.desc v a (e / v.bl)).getLsbD 16)), 0)) d m

/-- 14 R210, R221; 03 R46, R52, R55: VFCVT in both directions completes on every format pair it allows. Where the destination
has no blocks to scale, each active element is converted on its own, read under its block's SCALE and X; a destination of the
code's format has its pads written zero. A conversion between equal formats without a new scale copies the codes, and each
written block takes the source's SCALE and X. A conversion that computes a block's scale gives it the SCALE of R46, and its
elements are those of the block under that scale, or under the block's own without one; a non-finite active value makes the
block's results zero and its SCALE 0xFF. -/
def Obligations.Conversions : Prop :=
  ∀ (s : State) (back cs : Bool) (code : BitVec 5) (f : Fmt) (d a : VReg) (m : MReg) (st : Stall) (v : VView),
    let k := cvtOf v f back cs
    let r := s.me.vregs
    let es := v.elems (v.active none r m false)
    Fmt.ofCode code.toNat = some f → s.Vec v → k.ok v d a = true →
    (es ≠ [] → s.ReadyV v (⟨a, k.srcRegs v, k.frm.sew⟩ :: (if k.scaled then [⟨d, k.dstRegs v, k.tof.sew⟩] else [])) [m] ∧
      s.guarding d (k.dstRegs v) = none) →
    ∃ t, exec (if back then .vfcvtFrom cs code d a m st else .vfcvtTo cs code d a m st) s = .next t ∧
      s.VecFrame t d (k.dstRegs v) 4 ∧
      (v.bl = 0 ∨ k.scaled = false →
        let g := fun e => if k.copy then sameElt k.tof (r.elem v a k.frm.sew e)
          else cvtElt k.frm k.tof v.rm v.sat (k.srcScale v r a e).1 (k.srcScale v r a e).2 (r.elem v a k.frm.sew e)
        s.Elements t v d k.tof.sew (fun e => v.outcome r m false e (some (g e).1)) ∧
        s.FlagsJoin t (v.vbeg = 0) (es.map (fun e => (e, (g e).2)))) ∧
      (v.bl ≠ 0 → k.copy = true → ∀ e, e < v.vlmax * v.per → v.outcome r m false e (some 0) ≠ none →
        (t.me.vec.desc v d (e / v.bl)).toNat % 2 ^ 16 = (r.desc v a (e / v.bl)).toNat % 2 ^ 16) ∧
      (v.bl ≠ 0 → k.scaled = true → ∀ e ∈ es,
        let b := e / v.bl
        let val := fun e => cvtSource k.frm v.rm (k.srcScale v r a e).1 (k.srcScale v r a e).2 (r.elem v a k.frm.sew e)
        let vals := (es.filter (fun e => e / v.bl == b)).map val
        let own := (r.desc v d b).toNat
        let scale := (t.me.vec.desc v d b).toNat % 256
        (vals.any Val.nonFinite = true → t.me.vec.elem v d k.tof.sew e = 0 ∧ scale = 0xFF) ∧
        (vals.any Val.nonFinite = false →
          let sc := if cs then computedScale k.tof vals else own % 256
          t.me.vec.elem v d k.tof.sew e =
            (cvtScaled k.frm k.tof v.rm v.sat sc (own / 256 % 256) (val e)).1 % 2 ^ k.tof.sew ∧
          (cs = true → scale = sc)))

/-- 14 R222, R223; 12 R174: the moves and cross-element moves, element by element (unit by unit in tile mode): moved codes
are copied as they are; a slide up leaves the units below its offset, a slide down and VPERM write zero beyond VL. Each block
that VMV.VV writes takes SCALE and X of the source's block, one of whose elements only zeros are written too. -/
def Obligations.MoveInstructions : Prop :=
  ∀ (s : State) (d a b : VReg) (x : XReg) (imm : BitVec 5) (ms m : MReg) (st : Stall),
    let act := fun (mk : MReg) (from0 : Bool) (v : VView) (r : VecRegs) => !(v.active none r mk from0).isEmpty
    let one := fun (q : VReg) (v : VView) => [VSrc.mk q v.lmul v.sew]
    let same := fun _ : VView => s
    let unit := fun (v : VView) (r : VecRegs) (q : VReg) (u e : Nat) => r.elem v q v.sew (u * v.per + e % v.per)
    let moves := fun (i : Instr) (q dd : VReg) (mk : MReg) (len : Nat) =>
      s.CellSpec i (fun v => aligned q v.lmul) (act mk false) [] (one q) [mk] dd len same
        (fun v r e => v.outcome r mk false e (some (r.elem v q v.sew e))) none
    let fills := fun (i : Instr) (xs : List XReg) (w : Word) => s.CellSpec i (fun _ => true) (act m false) xs (fun _ => []) [m] d 4 same
      (fun v r e => v.outcome r m false e (some (w.toNat % 2 ^ v.sew))) none
    let slides := fun (i : Instr) (xs : List XReg) (f : VView → VecRegs → Nat → Option Nat) =>
      s.CellSpec i (fun v => !v.tile && v.bl == 0 && aligned a v.lmul && apart d v.lmul a v.lmul) (act m true) xs (one a) [m] d 4
        same (fun v r e => v.outcome r m true e (f v r e)) none
    let up := fun (n : Nat) (v : VView) (r : VecRegs) (e : Nat) => if n ≤ e then some (r.elem v a v.sew (e - n)) else none
    let down := fun (n : Nat) (v : VView) (r : VecRegs) (e : Nat) => some (if e + n < v.vl then r.elem v a v.sew (e + n) else 0)
    moves (.vmvVv d a m st) a d m 4 ∧ moves (.cvMv b) b s.me.vec.ldv 0 2 ∧
    (∀ v, s.Vec v → v.bl ≠ 0 → aligned d v.lmul = true → aligned a v.lmul = true →
      s.VecReady v [] (one a v) [m] d v.lmul m false → ∃ t, exec (.vmvVv d a m st) s = .next t ∧
        ∀ e, e < v.vlmax * v.per → v.outcome s.me.vregs m false e (some 0) ≠ none →
          (t.me.vec.desc v d (e / v.bl)).toNat % 2 ^ 16 = (s.me.vregs.desc v a (e / v.bl)).toNat % 2 ^ 16) ∧
    fills (.vbcastVx d x m st) [x] (s.rx x) ∧ fills (.vbcastVi d imm m st) [] (imm.signExtend 64) ∧
    (∀ p ∈ [(Instr.vmergeVv d a b m st, VOpnd.vv b), (.vmergeVx d a x m st, .vx x), (.vmergeVi d a imm m st, .vi (imm.signExtend 64))],
      s.CellSpec p.1 (fun v => (v.bl == 0 || v.tile) && aligned a v.lmul && p.2.ok v) (fun v _ => v.live) p.2.xs
        (fun v => ⟨a, v.lmul, v.sew⟩ :: p.2.vs v) [m] d 4 same
        (fun v r e => v.outcome r 0 false e (some (if r.mbit m (e / v.per) then p.2.at s v r e else r.elem v a v.sew e))) none) ∧
    slides (.vslideupVx d a x m) [x] (up (s.rx x).toNat) ∧ slides (.vslideupVi d a imm m) [] (up imm.toNat) ∧
    slides (.vslidednVx d a x m) [x] (down (s.rx x).toNat) ∧ slides (.vslidednVi d a imm m) [] (down imm.toNat) ∧
    s.CellSpec (.vpermVv d a b m)
      (fun v => (v.bl == 0 || v.tile) && aligned a v.lmul && aligned b v.indexRegs && apart d v.lmul a v.lmul &&
        apart d v.lmul b v.indexRegs) (act m true) [] (fun v => [⟨a, v.lmul, v.sew⟩, ⟨b, v.indexRegs, 32⟩]) [m] d 4 same
      (fun v r e =>
        let i := r.elem { v with tile := false } b 32 (e / v.per)
        v.outcome r m true e (some (if i < v.vl then unit v r a i e else 0))) none ∧
    s.CellSpec (.viota d ms m) (fun v => v.isInt && !v.tile) (act m true) [] (fun _ => []) [ms, m] d 4 same
      (fun v r e => v.outcome r m true e
        (some (((v.active none r m true).filter (fun i => decide (i < e) && r.mbit ms i)).length % 2 ^ v.sew))) none

/-- 14 R224, R231, R234: VEXTX reads one element, zero at or beyond VL; VINSX writes the element that its first scalar
operand names and no other; VPID writes each active element's index; VRAND writes the output of R231 for the rank of each
active element and advances RNG once for each. 14 R227: VCOMPRESS and its variants write the units their mask, or with KEEPNF
either mask, keeps, in order from unit 0 on, and treat the others as tail; `.VL` sets VL to their number. VEXPAND writes the
source's units in order into the active ones. -/
def Obligations.ElementsAndCompression : Prop :=
  (∀ (s : State) (d a : VReg) (x xa xb : XReg) (m : MReg) (st : Stall),
    let act := fun (v : VView) (r : VecRegs) => !(v.active none r m false).isEmpty
    let int := fun v : VView => v.isInt && v.bl == 0 && !v.tile
    let i := (s.rx xb).toNat
    let j := (s.rx xa).toNat
    (∀ v, s.Vec v → v.tile = false → aligned a v.lmul = true → s.ReadyX [xb] →
      (i < v.vl → s.ReadyV v [v.oneSrc a i] []) →
      ∃ t, exec (.vextx x a xb) s = .next t ∧ t = { s with me := t.me } ∧
        t.me.x = (s.me.wx x (if i < v.vl then (if v.signed then (BitVec.ofNat v.sew (s.me.vregs.elem v a v.sew i)).signExtend 64
          else BitVec.ofNat 64 (s.me.vregs.elem v a v.sew i)) else 0) 0).x ∧
        t.me.ldx = x ∧ t.me.pc = s.me.pc + 4 ∧ t.me.vec = { s.me.vec with vbeg := 0 } ∧ t.me.flags = s.me.flags) ∧
    s.CellSpec (.vinsx d xa xb) (fun v => !v.tile) (fun v _ => v.live) [xa, xb] (fun _ => []) [] d 4 (fun _ => s)
      (fun v _ e => if v.live ∧ e = j ∧ j < v.vl then some ((s.rx xb).toNat % 2 ^ v.sew) else none) none ∧
    s.CellSpec (.vpid d m) int act [] (fun _ => []) [m] d 4 (fun _ => s)
      (fun v r e => v.outcome r m false e (some (e % 2 ^ v.sew))) none ∧
    let gamma : Word := 0x9E3779B97F4A7C15
    let mix := fun z : Word =>
      let p := (z ^^^ (z >>> 30)) * 0xBF58476D1CE4E5B9
      let q := (p ^^^ (p >>> 27)) * 0x94D049BB133111EB
      q ^^^ (q >>> 31)
    s.CellSpec (.vrand d m st) int act [] (fun _ => []) [m] d 4
      (fun v => s.modMe (fun c => { c with vec := { c.vec with
        rng := c.vec.rng + BitVec.ofNat 64 (v.active none s.me.vregs m false).length * gamma } }))
      (fun v r e => v.outcome r m false e
        (some ((mix (s.me.vec.rng + BitVec.ofNat 64 (((v.active none r m false).filter (fun j => decide (j < e))).length + 1) * gamma)).toNat
          % 2 ^ v.sew))) none) ∧
  (∀ (s : State) (d a : VReg) (mk m : MReg),
    let ok := fun v : VView => v.fmt != .pair && !v.fmt.digits && (v.bl == 0 || v.tile) && aligned a v.lmul && apart d v.lmul a v.lmul
    let unit := fun (v : VView) (r : VecRegs) (u e : Nat) => r.elem v a v.sew (u * v.per + e % v.per)
    let compresses := fun (i : Instr) (ms : List MReg) (setVl : Bool) =>
      let kept := fun (v : VView) (r : VecRegs) => (List.range v.vl).filter (fun u => v.live && ms.any (fun q => r.mbit q u))
      s.CellSpec i ok (fun v r => !(kept v r).isEmpty) [] (fun v => [⟨a, v.lmul, v.sew⟩]) ms d 4
        (fun v => if setVl = true ∧ v.live = true then
          s.modMe (fun c => { c with vec := { c.vec with vl := BitVec.ofNat 32 (kept v s.me.vregs).length } }) else s)
        (fun v r e => if v.live then (match (kept v r)[e / v.per]? with
          | some u => some (unit v r u e)
          | none => if v.tp then some 0 else none) else none) none
    compresses (.vcompress d a m) [m] false ∧ compresses (.vcompressVl d a m) [m] true ∧
    compresses (.vcompressKeepnf d a mk m) [m, mk] false ∧ compresses (.vcompressKeepnfVl d a mk m) [m, mk] true ∧
    s.CellSpec (.vexpand d a m) ok (fun v r => !(v.active none r m false).isEmpty) [] (fun v => [⟨a, v.lmul, v.sew⟩]) [m] d 4
      (fun _ => s)
      (fun v r e => v.outcome r m false e
        (some (unit v r ((v.active none r m false).filter (fun j => decide (j < e / v.per))).length e))) none)

/-- 14 R225: a reduction writes element 0, seeded with the other source's element 0 and taken over the active elements from
element 0 on, and treats the rest as tail. VFRED.O adds in index order; VFRED.T is the tree of R225: level by level the sums
of neighbours, an absent leaf leaving its neighbour as it is, and the sum with the seed; the two comparisons fold in index
order. The flags of a sum of the tree go to its left index, those of the sum with the seed to the lowest active element;
FXIDX is cleared first and holds the lowest index of each flag. -/
def Obligations.Reductions : Prop :=
  ∀ (s : State) (d a b : VReg) (m : MReg),
    let act := fun (v : VView) (r : VecRegs) => !(v.active none r m true).isEmpty
    let seed := fun (v : VView) (r : VecRegs) => r.elem v b v.sew 0
    let items := fun (v : VView) (r : VecRegs) => (v.active none r m true).map (fun e => (e, r.elem v a v.sew e))
    let spec := fun (i : Instr) (fmt : VView → Bool) (res : VView → VecRegs → Nat) (hits : Option (VView → VecRegs → List (Nat × FlagSet))) =>
      s.CellSpec i (fun v => fmt v && v.bl == 0 && !v.tile && aligned a v.lmul && aligned b v.lmul) act []
        (fun v => [⟨a, v.lmul, v.sew⟩, v.oneSrc b 0]) [m] d 4 (fun _ => s)
        (fun v r e => if v.live then (if e = 0 then some (res v r) else if v.tp then some 0 else none) else none) hits
    let ints := fun (o : RedOp) (res : VView → VecRegs → Nat) => spec (.vred o d a b m) VView.isInt res none
    let exact := fun (op : Int → Int → Int) (v : VView) (r : VecRegs) =>
      (items v r).foldl (fun acc p => op acc (v.intOf p.2)) (v.intOf (seed v r))
    let bits := fun (op : Nat → Nat → Nat) (v : VView) (r : VecRegs) => (items v r).foldl (fun acc p => op acc p.2) (seed v r)
    let folds := fun (i : Instr) (op : VView → Nat → Nat → Nat × FlagSet) =>
      let upTo := fun (v : VView) (r : VecRegs) (k : Nat) => ((items v r).take k).foldl (fun x p => (op v x p.2).1) (seed v r)
      spec i VView.isFloat (fun v r => upTo v r (items v r).length)
        (some (fun v r => (items v r).zipIdx.map (fun p => (p.1.1, (op v (upTo v r p.2) p.1.2).2))))
    ints .sum (fun v r => patternOf v.sew (if v.sat then max (intMin v.signed v.sew) (min (intMax v.signed v.sew) (exact (· + ·) v r))
      else exact (· + ·) v r)) ∧
    ints .min (fun v r => patternOf v.sew (exact min v r)) ∧ ints .max (fun v r => patternOf v.sew (exact max v r)) ∧
    ints .and (bits (· &&& ·)) ∧ ints .or (bits (· ||| ·)) ∧ ints .xor (bits (· ^^^ ·)) ∧
    folds (.vfredO d a b m) (fun v => v.ff.add v.rm v.sat) ∧
    folds (.vfredMin d a b m) (fun v => v.ff.minMax false) ∧ folds (.vfredMax d a b m) (fun v => v.ff.minMax true) ∧
    ∀ v : VView, s.Vec v → v.isFloat = true → v.bl = 0 → v.tile = false → v.live = true →
      aligned d v.lmul = true → aligned a v.lmul = true → aligned b v.lmul = true → s.ReadyV v [⟨a, v.lmul, v.sew⟩, v.oneSrc b 0] [m] →
      s.guarding d v.lmul = none →
      ∀ tree : Nat → Nat → Option Nat,
        (∀ e, tree 0 e = if e < v.vl ∧ s.me.vregs.mbit m e = true then some (s.me.vregs.elem v a v.sew e) else none) →
        (∀ n e, tree (n + 1) e = match tree n (2 * e), tree n (2 * e + 1) with
          | some x, some y => some (v.ff.add v.rm v.sat x y).1
          | some x, none => some x
          | none, y => y) →
        ∀ n, v.vl ≤ 2 ^ n → (∀ k, v.vl ≤ 2 ^ k → n ≤ k) →
        ∃ t, exec (.vfredT d a b m) s = .next t ∧ s.VecFrame t d v.lmul 4 ∧
          s.Elements t v d v.sew (fun e => if e = 0 then some (match tree n 0 with
            | some x => (v.ff.add v.rm v.sat (seed v s.me.vregs) x).1
            | none => seed v s.me.vregs) else if v.tp then some 0 else none) ∧
          ∀ k : Fin 5,
            let raises := fun i : Nat =>
              (∃ j e x y, j < n ∧ i = e * 2 ^ (j + 1) ∧ tree j (2 * e) = some x ∧ tree j (2 * e + 1) = some y ∧
                (v.ff.add v.rm v.sat x y).2.getLsbD k.val = true) ∨
              (∃ x, tree n 0 = some x ∧ (v.ff.add v.rm v.sat (seed v s.me.vregs) x).2.getLsbD k.val = true ∧
                (v.active none s.me.vregs m true).head? = some i)
            (t.me.flags.ff.getLsbD k.val = true ↔ s.me.flags.ff.getLsbD k.val = true ∨ ∃ i, raises i) ∧
            ((∀ i, ¬raises i) → t.me.flags.fx[k] = 0xFFFFFFFF) ∧
            ∀ i, raises i → (∀ j, raises j → i ≤ j) → t.me.flags.fx[k] = BitVec.ofNat 32 i

/-- 14 R226: the mask instructions act on bits 0 to VL − 1 whatever VBEG holds; MPOPC counts the bits set in both masks,
MFIRST answers the lowest, all ones with none, and both write 0 or all ones at VL = 0 and under an all-zero mask, where they
check no source. -/
def Obligations.MaskInstructions : Prop :=
  ∀ (s : State) (d a b m : MReg) (x : XReg) (st : Stall),
    let notPair := fun v : VView => v.fmt != .pair
    let writes := fun (i : Instr) (ms : List MReg) (f : VecRegs → Nat → Bool) =>
      s.MaskSpec i notPair [] (fun _ => []) ms true false (fun _ r e => (f r e, 0)) d 0
    let gives := fun (i : Instr) (f : List Nat → Word) => ∀ v, s.Vec v → notPair v = true →
      ((∃ e, e < v.vl ∧ s.me.vregs.mbit m e = true) → s.ReadyV v [] [a, m]) →
      ∃ t, exec i s = .next t ∧ t = { s with me := t.me } ∧
        t.me.x = (s.me.wx x (f ((List.range v.vl).filter (fun e => s.me.vregs.mbit a e && s.me.vregs.mbit m e))) 0).x ∧
        t.me.ldx = x ∧ t.me.pc = s.me.pc + 4 ∧ t.me.vec = { s.me.vec with vbeg := 0 } ∧ t.me.flags = s.me.flags
    writes (.mand d a b st) [a, b] (fun r e => r.mbit a e && r.mbit b e) ∧
    writes (.mor d a b st) [a, b] (fun r e => r.mbit a e || r.mbit b e) ∧
    writes (.mxor d a b st) [a, b] (fun r e => r.mbit a e ^^ r.mbit b e) ∧
    writes (.mnot d a st) [a] (fun r e => !r.mbit a e) ∧ writes (.mmv d a st) [a] (fun r e => r.mbit a e) ∧
    gives (.mpopc x a m st) (fun l => BitVec.ofNat 64 l.length) ∧
    gives (.mfirst x a m st) (fun l => if l = [] then BitVec.allOnes 64 else BitVec.ofNat 64 (l.headD 0))

/-- 14 R229, R230: the counting instructions and the scans, from element 0 on: the running population count, the nearest
earlier and the number of earlier active elements of the same key, the number of active keys in each bin from xb on; and a
scan's fold over the active elements since the last set start bit. -/
def Obligations.CountingAndScans : Prop :=
  ∀ (s : State) (d a : VReg) (x : XReg) (ms m : MReg),
    let act := fun (v : VView) (r : VecRegs) => !(v.active none r m true).isEmpty
    let plain := fun (fmt : VView → Bool) (v : VView) => fmt v && v.bl == 0 && !v.tile && aligned a v.lmul
    let key := fun v : VView => v.isInt && decide (16 ≤ v.sew)
    let spec := fun (i : Instr) (fmt : VView → Bool) (xs : List XReg) (mk : List MReg) (role : MReg) (f : VView → VecRegs → Nat → Nat)
        (hits : Option (VView → VecRegs → List (Nat × FlagSet))) =>
      s.CellSpec i (plain fmt) act xs (fun v => [⟨a, v.lmul, v.sew⟩]) mk d 4 (fun _ => s)
        (fun v r e => v.outcome r role true e (some (f v r e))) hits
    let before := fun (v : VView) (r : VecRegs) (e : Nat) =>
      (v.active none r m true).filter (fun j => decide (j < e) && r.elem v a v.sew j == r.elem v a v.sew e)
    let run := fun (op : VView → Nat → Nat → Nat × FlagSet) (v : VView) (r : VecRegs) (e : Nat) =>
      let upTo := (v.active none r m true).filter (fun j => decide (j ≤ e))
      let starts := upTo.filter (fun j => ms != 0 && r.mbit ms j)
      let mine := upTo.filter (fun j => decide (starts.getLastD 0 ≤ j))
      match mine with
      | [] => (0, 0)
      | j :: l => l.foldl (fun (p : Nat × FlagSet) k => op v p.1 (r.elem v a v.sew k)) (r.elem v a v.sew j, 0)
    let scans := fun (i : Instr) (fmt : VView → Bool) (fl : Bool) (op : VView → Nat → Nat → Nat × FlagSet) =>
      spec i fmt [] [ms, m] m (fun v r e => (run op v r e).1)
        (if fl then some (fun v r => (v.active none r m true).map (fun e => (e, (run op v r e).2))) else none)
    let clampIf := fun (v : VView) (sat : Bool) (i : Int) =>
      patternOf v.sew (if sat then max (intMin v.signed v.sew) (min (intMax v.signed v.sew) i) else i)
    spec (.vppopc d a m) VView.isInt [] [m] m (fun v r e =>
      (((v.active none r m true).filter (fun j => decide (j ≤ e))).map (fun j =>
        ((List.range v.sew).filter (fun k => (r.elem v a v.sew j).testBit k)).length)).sum % 2 ^ v.sew) none ∧
    spec (.vconfl d a m) key [] [m] m (fun v r e => match (before v r e).getLast? with
      | some j => j % 2 ^ v.sew
      | none => 2 ^ v.sew - 1) none ∧
    spec (.vrank d a m) key [] [m] m (fun v r e => (before v r e).length % 2 ^ v.sew) none ∧
    spec (.vkcount d a x m) key [x] [m] 0 (fun v r e =>
      ((v.active none r m true).filter (fun j =>
        (r.elem v a v.sew j + 2 ^ v.sew - (s.rx x).toNat % 2 ^ v.sew) % 2 ^ v.sew == e)).length % 2 ^ v.sew) none ∧
    scans (.vscanAdd d a ms m) VView.isInt false (fun v p q => (clampIf v v.sat (v.intOf p + v.intOf q), 0)) ∧
    scans (.vscanMin d a ms m) VView.isInt false (fun v p q => (clampIf v false (min (v.intOf p) (v.intOf q)), 0)) ∧
    scans (.vscanMax d a ms m) VView.isInt false (fun v p q => (clampIf v false (max (v.intOf p) (v.intOf q)), 0)) ∧
    scans (.vscanFadd d a ms m) VView.isFloat true (fun v p q => v.ff.add v.rm v.sat p q)

/-- 14 R214, R215; 05 R77, R83: VSETVL and VSETVLI apply the lane-group change that waits, then install the requested VTYPE
and grant VL = min(n, VLMAX) under the groups then held, or set ILL and grant 0 for a rejected request; VBEG becomes 0 and xd
receives VL. With no change waiting nothing else changes. 02 R27, 05 R76, 26 R341: the VSETVL forms make the lane-group
change that waits. A group marked MOVE goes to the slot NEXT names with its HEIR unchanged, and a waiting LREQ hands the
highest groups above its number to their resident heirs. Where the number of groups changes, each element below the smaller
VLMAX of the old VTYPE keeps its value and the others become zero, in every aligned group, mask and GSV; descriptors move
with their blocks, and without blocks entries stay below the smaller count. A rejected VTYPE counts as I8 with LMUL 1. While
a published group is full, nothing moves (log entry 28). -/
def Obligations.VectorLengthGrant : Prop :=
  (∀ (s : State) (d a b : XReg) (req : BitVec 13) (rm : BitVec 3), s.me.kind = .thread → s.me.group = none →
    let grants := fun (i : Instr) (w : Word) =>
      let u := s.laneChange
      let g := groupCount u.me.groups
      let n := (s.rx a).toNat
      ∃ t, exec i s = .next t ∧ t = { u with me := t.me } ∧
        (∀ f, Fmt.ofCode (w.toNat % 32) = some f →
          (w.toNat < 2 ^ 19 ∧ w.toNat / 2 ^ 15 % 8 ≤ 4 ∧ w.toNat / 2 ^ 10 % 8 ≤ 4 ∧ w.toNat / 2 ^ 8 % 4 ≠ 3 ∧
              (w.getLsbD 7 = true → w.toNat / 32 % 4 = 0) ∧
              (w.toNat / 2 ^ 8 % 4 ≠ 0 → f.blocks = true ∧ (8 * 2 ^ (w.toNat / 2 ^ 8 % 4)) % 2 ^ (w.toNat / 2 ^ 10 % 8) = 0) →
            t.me.vec.vtype = w.setWidth 32 ∧
            t.me.vec.vl = BitVec.ofNat 32 (min n (if w.getLsbD 7 then 32 * g else 2 ^ (w.toNat / 32 % 4) * 8 * g * 256 / f.sew)))) ∧
        (requestOk w = false → t.me.vec.vtype = 0x80000000 ∧ t.me.vec.vl = 0) ∧
        t.me.vec = { u.me.vec with vtype := t.me.vec.vtype, vl := t.me.vec.vl, vbeg := 0 } ∧
        t.me.x = (u.me.wx d (t.me.vec.vl.setWidth 64) 0).x ∧ t.me.ldx = d ∧ t.me.pc = s.me.pc + 4 ∧ t.me.flags = s.me.flags ∧
        ((∀ k : Fin 8, (s.myCluster.lpart[k]).move = false) → s.me.lreq = none →
          s.me.groups = ownedGroups s.myCluster.lpart s.me.slot → u = s)
    (s.ReadyX [a, b] → grants (.vsetvl d a b) (s.rx b)) ∧
    (s.ReadyX [a] → grants (.vsetvli d a req rm) (req.setWidth 64 ||| (rm.setWidth 64 <<< 15)))) ∧
  (∀ (s : State) (d a : XReg) (req : BitVec 13) (rm : BitVec 3), s.me.kind = .thread → s.me.group = none → s.ReadyX [a] →
    ∃ t, exec (.vsetvli d a req rm) s = .next t ∧
      let vt := fun (u : State) => { u.me.vec with vtype := t.me.vec.vtype, vl := t.me.vec.vl, vbeg := 0 }
      let lp := s.myCluster.lpart
      let slot := s.me.slot
      let own := (List.finRange 8).filter (fun k => (lp[k]).owned && (lp[k]).owner == slot && !(lp[k]).move)
      let coming := (lp.toList.filter (fun g => g.owned && g.move && g.next == slot)).length
      (s.published s.me ≠ [] → t = { s with me := t.me } ∧ t.me.groups = s.me.groups ∧ t.me.lreq = s.me.lreq ∧ t.me.vec = vt s) ∧
      (s.published s.me = [] →
        t.me.lreq = none ∧ t.me.groups = ownedGroups t.myCluster.lpart slot ∧
        ((∀ k : Fin 8, ¬((lp[k]).owned = true ∧ (lp[k]).owner = slot ∧ (lp[k]).move = true ∧ (lp[k]).next = slot)) → ∀ k : Fin 8,
          ((lp[k]).owned = true → (lp[k]).owner = slot → (lp[k]).move = true →
            t.myCluster.lpart[k] = ⟨true, (lp[k]).next, (lp[k]).heir, 0, false⟩) ∧
          (¬((lp[k]).owned = true ∧ (lp[k]).owner = slot) → t.myCluster.lpart[k] = lp[k]) ∧
          (k ∈ own → s.me.lreq = none → t.myCluster.lpart[k] = lp[k]) ∧
          ∀ n, s.me.lreq = some n →
            (k ∈ own.take (max (n - coming) 1) → t.myCluster.lpart[k] = lp[k]) ∧
            (k ∈ own.drop (max (n - coming) 1) → t.myCluster.lpart[k] =
              if (lp[k]).heir ≠ slot ∧ (s.myCluster.slots[(lp[k]).heir]).isSome then { lp[k] with owner := (lp[k]).heir }
              else ⟨false, 0, 0, 0, false⟩)) ∧
        (groupCount t.me.groups = groupCount s.me.groups → t.me.vec = vt s) ∧
        (groupCount t.me.groups ≠ groupCount s.me.groups → ∀ v : VView,
          viewOf (if requestOk (s.me.vec.vtype.setWidth 64) then s.me.vec.vtype else 0) (groupCount s.me.groups) 0 0 = some v →
          (requestOk (s.me.vec.vtype.setWidth 64) = true ∨ s.me.vec.vtype.getLsbD 31 = true) →
          let w := { v with g := groupCount t.me.groups }
          let lim := min v.vlmax w.vlmax
          (∀ r : VReg, aligned r v.lmul = true → ∀ e, e < w.vlmax * v.per →
            t.me.vec.elem w r v.sew e = if e / v.per < lim then s.me.vec.elem v r v.sew e else 0) ∧
          (∀ (q : MReg) (e : Nat), e < 32768 → (t.me.vec.m[q]).getLsbD e = (decide (e < lim) && (s.me.vec.m[q]).getLsbD e)) ∧
          (∀ e, e < 2048 → t.me.vec.gsvAt e = if e < lim then s.me.vec.gsvAt e else 0) ∧
          (v.bl = 0 → ∀ (q : VReg) (e : Nat), e < 256 → (t.me.vec.sh[q]).extractLsb' (32 * e) 32 =
            if e < 32 * min v.g w.g then (s.me.vec.sh[q]).extractLsb' (32 * e) 32 else 0x0000807F) ∧
          (v.bl ≠ 0 → ∀ r : VReg, aligned r v.lmul = true → ∀ b, b * v.bl < w.vlmax * v.per →
            t.me.vec.desc w r b = if b * v.bl < lim * v.per then s.me.vec.desc v r b else 0x0000807F) ∧
          t.me.vec = { vt s with v := t.me.vec.v, sh := t.me.vec.sh, m := t.me.vec.m, gsv := t.me.vec.gsv })))

/-- 14 R232; 02 R17, R18, R19; 03 R53, R54, R57: VFETCH starts its block at PC + offset × 2 with every active VP there,
clearing FXIDX when VBEG = 0; without an active VP it completes at once and every pending result of a block is readable. In
tile mode and under PAIR and the digit formats it traps VTYPE. 02 R18; 14 R232: in a block VSTOP stops the VPs of the issue
group; VPJ sends those whose bit is set to its target, and the others stay in the group, which goes on to the next
instruction. Outside a block both trap ILL. 02 R18, R19, R20: a step of a block issues the instruction at the lowest VP
program counter for exactly the VPs that stand there. One that a block may contain has its own effect on them, any other
traps ILL; the VPs still in the group then stand at the instruction after it, and when no VP runs the VFETCH completes, its
results readable. After a trap nothing of this happens. With no block in progress, one that a trap has set aside, or a thread
that does not issue, the step changes nothing. 02 R21, 05 R80, 15 R240: a vector load in a block that faults at an element
traps with TVAL the address of that element, EPC the VFETCH and CAUSE.BLK 1, and sets the block aside: the VPs of the issue
group below the element stand at the next instruction, all others where they stood, and VBEG is as before. -/
def Obligations.FetchBlocks : Prop :=
  (∀ (s : State) (off : BitVec 19) (m : MReg) (v : VView), s.Vec v →
    let us := v.active none s.me.vregs m false
    let fl : Flags := if s.me.vec.vbeg = 0 then { s.me.flags with fx := Vector.replicate 5 0xFFFFFFFF } else s.me.flags
    let excluded := v.tile = true ∨ v.fmt = .pair ∨ v.fmt.digits = true
    (excluded → exec (.vfetch off m) s = .next (s.deliverAt .vtype s.me.pc (s.me.vec.vtype.setWidth 64))) ∧
    (¬excluded → us ≠ [] → s.ReadyV v [] [m] → ∃ t b, exec (.vfetch off m) s = .next t ∧
      t = { s with me := { s.me with flags := fl, vec := { s.me.vec with blk := some b } } } ∧
      b.addr = s.me.pc ∧ b.grp = none ∧ b.held = false ∧ b.pcs.length = v.vl ∧
      ∀ i, i < v.vl → b.pcs[i]? = some (if i ∈ us then some (s.me.pc + off.signExtend 64 * 2) else none)) ∧
    (¬excluded → us = [] → ∃ t, exec (.vfetch off m) s = .next t ∧ t = { s with me := t.me } ∧
      t.me = { s.me with pc := s.me.pc + 4, flags := fl, vec := { s.me.vec with blk := none, vbeg := 0 }, clock := t.me.clock } ∧
      (∀ e ∈ t.me.clock.vp, e.blk = true → e.ready = 0) ∧ ∀ e ∈ t.me.clock.mp, e.blk = true → e.ready = 0)) ∧
  (∀ (s : State) (off : BitVec 19) (m : MReg), s.me.kind = .thread →
    (s.me.group = none → exec .vstop s = .next (s.deliverAt .ill s.me.pc s.insWord) ∧
      exec (.vpj off m) s = .next (s.deliverAt .ill s.me.pc s.insWord)) ∧
    ∀ b g v, s.me.vec.blk = some b → b.grp = some g → s.me.view = some v →
      (∃ t c, exec .vstop s = .next t ∧ t = { s with me := { s.me with vec := { s.me.vec with blk := some c } } } ∧
        c = { b with pcs := c.pcs } ∧ c.pcs.length = b.pcs.length ∧
        ∀ i, i < b.pcs.length → c.pcs[i]? = if g.getLsbD i then some none else b.pcs[i]?) ∧
      ((v.active (some g) s.me.vregs m false ≠ [] → s.ReadyV v [] [m]) → ∃ t c, exec (.vpj off m) s = .next t ∧
        t = { s with me := { s.me with vec := { s.me.vec with blk := some c } } } ∧
        c = { b with pcs := c.pcs, grp := c.grp } ∧ c.pcs.length = b.pcs.length ∧
        (∀ (i : Nat) (p : Option Word), b.pcs[i]? = some p → c.pcs[i]? = some (p.map (fun q =>
          if g.getLsbD i && s.me.vregs.mbit m i then b.cur + off.signExtend 64 * 2 else q))) ∧
        ∃ h, c.grp = some h ∧ ∀ i, i < 32768 → h.getLsbD i = (g.getLsbD i && !s.me.vregs.mbit m i))) ∧
  (∀ (s : State),
    (s.me.vec.blk.all (fun b => b.held) = true ∨ s.runnable = false → exec .vfetchIssueGroup s = .next s) ∧
    (∀ b, s.me.vec.blk = some b → b.held = false → s.runnable = true → (∀ q ∈ b.pcs, q = none) →
      ∃ t, exec .vfetchIssueGroup s = .next t ∧ t = { s with me := { s.me with
        pc := s.me.pc + 4, vec := { s.me.vec with blk := none, vbeg := 0 }, clock := t.me.clock } }) ∧
    ∀ b p w i, s.me.vec.blk = some b → b.held = false → s.runnable = true → some p ∈ b.pcs →
      (∀ q, some q ∈ b.pcs → p.toNat ≤ q.toNat) → b.pcs.length ≤ 32768 →
      s.fetchCode s.me p = .ok (.w32 w) → blockDecode w = some i →
      ∃ (g : BitVec 32768) (slot : Nat), (∀ k, k < 32768 → g.getLsbD k = (b.pcs[k]? == some (some p))) ∧ s.me.vslot ≤ slot ∧
        let s1 := { s with me := { s.me with
          vec := { s.me.vec with blk := some { b with grp := some g, cur := p } }, clock := { s.me.clock with vector := slot } } }
        (blockExec i s1 = exec i s1 ∨ blockExec i s1 = .next (s1.deliverAt .ill s1.me.pc s1.insWord)) ∧
        ∀ u c, blockExec i s1 = .next u → u.me.uid = s.me.uid → u.me.vec.blk = some c →
          (c.grp = none → exec .vfetchIssueGroup s = .next u) ∧
          ∀ h, c.grp = some h →
            let pcs := c.pcs.mapIdx (fun k q => if h.getLsbD k then q.map (fun _ => c.cur + 4) else q)
            ∃ t, exec .vfetchIssueGroup s = .next t ∧ t = { u with me := { u.me with
                pc := t.me.pc, vec := { u.me.vec with blk := t.me.vec.blk, vbeg := t.me.vec.vbeg }, clock := t.me.clock } } ∧
              ((∃ q, some q ∈ pcs) → t.me.pc = u.me.pc ∧ t.me.vec.vbeg = u.me.vec.vbeg ∧
                ∃ n, t.me.vec.blk = some { c with pcs := pcs, nextAt := n, grp := none }) ∧
              ((∀ q ∈ pcs, q = none) → t.me.pc = u.me.pc + 4 ∧ t.me.vec.vbeg = 0 ∧ t.me.vec.blk = none ∧
                ∀ e ∈ t.me.clock.vp, e.blk = true → e.ready = 0)) ∧
  (∀ (s : State) (d : VReg) (a : XReg) (cls : Cls) (e y : Bool) (m : MReg) (v : VView) (b : Block) (g : BitVec 32768) (f : UnitFault),
    s.me.kind = .thread → s.me.view = some v → s.me.vec.blk = some b → b.grp = some g → s.me.TakesTraps → s.me.quota = none →
    let us := v.active (some g) s.me.vregs m false
    let q := s.scanLoad v false true (planUnits .unit v s.me.vregs s (s.rx a) none us)
    us ≠ [] → s.ReadyX [a] → s.ReadyV v [] [m] → s.guarding d v.lmul = none → aligned d v.lmul = true →
    q.fault = some f → f.cause ≠ .page → f.cause ≠ .poison →
    ∃ t c, exec (.vld d a cls e y m) s = .next t ∧ t.me.vec.blk = some c ∧ c.held = true ∧ c.grp = none ∧ c.addr = b.addr ∧
      (∀ (i : Nat) (p : Option Word), b.pcs[i]? = some p → c.pcs[i]? = some (p.map (fun x => if g.getLsbD i && decide (i < f.u) then b.cur + 4 else x))) ∧
      t.me.pc = s.me.trap.tvec ∧ t.me.trap.epc = s.me.pc ∧ t.me.trap.blk = true ∧ t.me.trap.tval = f.tval ∧
      t.me.trap.code = f.cause.code ∧ t.me.trap.handling = true ∧ t.me.vec.vbeg = s.me.vec.vbeg)

/-- 15 R236 to R242: a vector load whose accesses all pass completes: it changes its group, VBEG, the pc, the issue slots and
what stands loaded ahead, after the stores that R160 has it wait for and with those performed that R141 and R145 order before
it. Without blocks an active element (a row in tile mode) is what path P1 reads at its address under the page's key index, or
what the context had loaded ahead of it, with E = 1 for the first alone (log entry 26); the others take their roles. VLDF
that meets an access after its first that fails or that its page forbids to speculate shortens VL to that unit instead. -/
def Obligations.VectorLoads : Prop :=
  ∀ (s : State) (d : VReg) (a b : XReg) (ix : VReg) (cls : Cls) (e y : Bool) (m : MReg) (v : VView), s.Vec v → s.me.quota = none →
    let r := s.me.vregs
    let us := v.active none r m false
    let loads := fun (i : Instr) (f : VForm) (ff : Bool) (at_ : Nat → Word) =>
      let q := s.scanLoad v ff false (planUnits f v r s (s.rx a) none us)
      let u := if q.keys = [] then s else (s.afterHeld cls q.keys).orderLoad .p1 cls q.keys
      let v1 := match q.cut with
        | some k => { v with vl := k }
        | none => v
      f.ok v = true → aligned d v.lmul = true → (us ≠ [] → s.ReadyX (a :: f.xs) ∧ s.ReadyV v (f.vs v) [m] ∧ s.guarding d v.lmul = none) →
      q.fault = none → (q.keys ≠ [] → s.Clear (s.heldBackAll cls q.keys)) →
      ∃ t, exec i s = .next t ∧
        (({ u with freeCtr := t.freeCtr }).modMe (fun c => { c with
          seen := t.me.seen
          ahead := if q.keys = [] then c.ahead else c.ahead.filter (Ahead.stays .p1 cls y q.keys)
          vec := { c.vec with vl := BitVec.ofNat 32 v1.vl } })).VecFrame t d v.lmul 4 ∧
        t.me.flags = s.me.flags ∧
        (v.bl = 0 → ∀ mp : Nat → Mapped, (∀ k ∈ us, k < v1.vl → s.xlate s.me.party .load (at_ k) = .ok (mp k)) →
          ∃ pick : Nat → Bool, (e = true → ∀ k, pick k = true → us.head? = some k) ∧
          s.Elements t v d v.sew (fun e =>
            let k := e / v.per
            let raw := fun x => (if pick k then s.me.bound .p1 cls x else none).getD
              (if (mp k).mt = 0 then u.viewByte (s.me.obs .p1) x else u.homeByte x)
            let n := ofBytes ((List.range v.unitBytes).map (fun j => u.plain (mp k).ki raw ((mp k).key + j)))
            v1.outcome r m false e (some (if v.tile then n / 2 ^ (v.sew * (e % v.per)) else if v.sew = 4 then n / 16 ^ (e % 2) else n))))
    let unit := fun k : Nat => s.rx a + BitVec.ofNat 64 (if v.tile then 64 * k else k * v.sew / 8)
    loads (.vld d a cls e y m) .unit false unit ∧ loads (.vldf d a cls e y m) .unit true unit ∧
    loads (.vlds d a b cls e y m) (.strided b) false (fun k => s.rx a + BitVec.ofNat 64 k * s.rx b) ∧
    (overlapOk d v.lmul ix v.indexRegs = true → loads (.vldx d a ix cls e y m) (.indexed ix) false
      (fun k => s.rx a + BitVec.ofNat 64 (r.elem { v with tile := false } ix 32 k)))

/-- 15 R236 to R240, R244; 08 R120: a vector store whose accesses all pass completes and changes no register but VBEG.
Without blocks each active unit's bytes enter the coherence order under the unit's address as a store of path P1,
early-forwarding, to perform at the home on an uncached page or, with .G, to be acknowledged globally; every other byte reads
as before for every observer, but for a block whose keys change. 15 R240, 18 R298: a vector load or store between two of
whose elements a pre-emption can fall stands there with VBEG the first element it has not made, at its own address; of the
registers only a load's group, below that element, has changed. -/
def Obligations.VectorStores : Prop :=
  (∀ (s : State) (d : VReg) (a b : XReg) (ix : VReg) (cls : Cls) (e y : Bool) (m : MReg) (v : VView), s.Vec v → s.me.quota = none →
    let r := s.me.vregs
    let us := v.active none r m false
    let stores := fun (i : Instr) (f : VForm) (mode : StoreMode) (at_ : Nat → Word) =>
      let q := s.scan v .store false (padPiece v (s.rx a) false (planUnits f v r s (s.rx a) none us))
      let u := s.afterHeld cls q.keys
      let n := v.unitBytes
      f.ok v = true → aligned d v.lmul = true → (us ≠ [] → s.ReadyX (a :: f.xs) ∧ s.ReadyV v (⟨d, v.lmul, v.sew⟩ :: f.vs v) [m]) →
      q.fault = none → (q.keys ≠ [] → s.Clear (s.heldBackAll cls q.keys)) →
      ∃ t, exec i s = .next t ∧
        t.me = { s.me with pc := s.me.pc + 4
                           vec := { s.me.vec with vbeg := 0 }
                           clock := t.me.clock
                           ahead := s.me.ahead.filter (Ahead.stays .p1 cls y q.keys) } ∧
        (v.bl = 0 → v.tile = true ∨ 8 ≤ v.sew → ∀ mp : Nat → Mapped, (∀ k ∈ us, s.xlate s.me.party .store (at_ k) = .ok (mp k)) →
          (∀ k ∈ us, ∀ l ∈ us, (mp k).ki = (mp l).ki) → (∀ k ∈ us, (mp k).key % n = 0) → u.Canonical →
          (∀ k ∈ us, ∃ w ∈ t.stores, w.ctx = some s.me.uid ∧ w.path = .p1 ∧ w.cls = cls ∧ w.y = y ∧ w.va = at_ k ∧ w.applied = false ∧
            w.mode = (if mode = .early ∧ (mp k).mt ≠ 0 then .home else mode) ∧
            w.bytes = (List.range n).map (fun j => ((mp k).key + j, BitVec.ofNat 8
              (if v.tile then r.elem v d 8 (k * 64 + j) else r.elem v d v.sew k / 2 ^ (8 * j))))) ∧
          ∀ (o : Observer) (x : Nat),
            (∀ k ∈ us, (x < (mp k).key ∨ (mp k).key + n ≤ x) ∧ (x / 16 ≠ (mp k).key / 16 ∨ u.keyedAs (mp k).ki (mp k).key)) →
            t.viewByte o x = u.viewByte o x)
    let unit := fun k : Nat => s.rx a + BitVec.ofNat 64 (if v.tile then 64 * k else k * v.sew / 8)
    let byIndex := fun k : Nat => s.rx a + BitVec.ofNat 64 (r.elem { v with tile := false } ix 32 k)
    stores (.vst d a cls e y m) .unit .early unit ∧ stores (.vstG d a cls e y m) .unit .glob unit ∧
    stores (.vsts d a b cls e y m) (.strided b) .early (fun k => s.rx a + BitVec.ofNat 64 k * s.rx b) ∧
    stores (.vstx d a ix cls e y m) (.indexed ix) .early byIndex ∧ stores (.vstxG d a ix cls e y m) (.indexed ix) .glob byIndex) ∧
  (∀ (s : State) (d : VReg) (a : XReg) (cls : Cls) (e y : Bool) (m : MReg) (v : VView) (n k : Nat), s.Vec v → s.me.quota = some n →
    let r := s.me.vregs
    let us := v.active none r m false
    let l := planUnits .unit v r s (s.rx a) none us
    let q := s.scanLoad v false false (l.take n)
    let w := s.scan v .store false ((padPiece v (s.rx a) false l).take n)
    us[n]? = some k → s.ReadyX [a] → aligned d v.lmul = true →
    (s.ReadyV v [] [m] → s.guarding d v.lmul = none → q.fault = none → (q.keys ≠ [] → s.Clear (s.heldBackAll cls q.keys)) →
      ∃ t, exec (.vld d a cls e y m) s = .next t ∧ t.me.pc = s.me.pc ∧ t.me.quota = none ∧ t.me.flags = s.me.flags ∧ t.me.x = s.me.x ∧
        t.me.vec = { s.me.vec with v := t.me.vec.v, sh := t.me.vec.sh, vbeg := BitVec.ofNat 32 k } ∧
        (∀ p : VReg, (∀ j, j < v.lmul → regAt d j ≠ p) → t.me.vec.v[p] = s.me.vec.v[p]) ∧
        ∀ j, k ≤ j / v.per → j < v.vlmax * v.per → t.me.vec.elem v d v.sew j = s.me.vec.elem v d v.sew j) ∧
    (s.ReadyV v [⟨d, v.lmul, v.sew⟩] [m] → w.fault = none → (w.keys ≠ [] → s.Clear (s.heldBackAll cls w.keys)) →
      ∃ t, exec (.vst d a cls e y m) s = .next t ∧
        t.me = { s.me with quota := none, vec := { s.me.vec with vbeg := BitVec.ofNat 32 k }, ahead := t.me.ahead }))

/-- 15 R245, 10 R154, 09 R133, 11 R162: an .SC load or store draws a ticket for its next element and performs it: every store
that the load then sees has performed in the whole package unless it is lost; every observer reads the bytes of the store, or
those of a later store that is not applied. The last element completes the instruction; before it VBEG names the next, and
the pages probed stay those probed (log entry 36). -/
def Obligations.SequentiallyConsistentAccesses : Prop :=
  ∀ (s : State) (d : VReg) (a : XReg) (cls : Cls) (m : MReg) (v : VView) (k : Nat) (rest : List Nat) (mp : Mapped), s.Vec v →
    let n := v.sew / 8
    let at_ := fun k : Nat => s.rx a + BitVec.ofNat 64 (k * n)
    let f := s.fenceAt .p
    let found := fun (l : List (Word × Mapped)) (j : Nat) => (l.find? (fun p => p.1 == at_ j)).map (fun p => p.2)
    v.tile = false → v.bl = 0 → 8 ≤ v.sew → aligned d v.lmul = true → v.active none s.me.vregs m false = k :: rest →
    s.ReadyX [a] → s.NoneLost →
    let goes := fun (acc : Access) =>
      ((∀ j ∈ k :: rest, (found s.me.probed j).isSome = true) ∧ found s.me.probed k = some mp) ∨
      ((∃ j ∈ k :: rest, found s.me.probed j = none) ∧ s.xlate s.me.party acc (at_ k) = .ok mp ∧
        ∀ j ∈ k :: rest, (at_ j).toNat < 2 ^ 55 ∧ (at_ j).toNat % n = 0 ∧ ∃ x, s.xlate s.me.party acc (at_ j) = .ok x)
    let moves := fun t : State => t.seqctr = s.seqctr + 1 ∧ t.me.x = s.me.x ∧ t.me.flags = s.me.flags ∧
      (rest = [] → t.me.pc = s.me.pc + 4 ∧ t.me.vec.vbeg = 0 ∧ t.me.probed = []) ∧
      (∀ j l, rest = j :: l → t.me.pc = s.me.pc ∧ t.me.vec.vbeg = BitVec.ofNat 32 j ∧ ∀ i ∈ j :: l, (found t.me.probed i).isSome = true)
    (s.ReadyV v [] [m] → s.guarding d v.lmul = none → goes .load → f.Present mp.key n →
      ∃ t, exec (.vldSc d a cls m) s = .next t ∧ moves t ∧
        (∀ w ∈ t.stores, w.visible (s.me.obs .p1) = true → w.touches [(mp.key, n)] = true → w.lost = false → w.everywhere = true) ∧
        t.me.vec.elem v d v.sew k = ofBytes ((List.range n).map (fun j =>
          t.plain mp.ki (if mp.mt = 0 then t.viewByte (s.me.obs .p1) else t.homeByte) (mp.key + j)))) ∧
    (s.ReadyV v [⟨d, v.lmul, v.sew⟩] [m] → goes .store → mp.key % n = 0 → f.Canonical → s.Numbered →
      (homeOf mp.key = s.me.die ∨ s.reachable s.me.die (homeOf mp.key) = true) →
      ∃ t, exec (.vstSc d a cls m) s = .next t ∧ moves t ∧ ∀ j, j < n →
        let x := BitVec.ofNat 8 (s.me.vregs.elem v d v.sew k / 2 ^ (8 * j))
        t.homeByte (mp.key + j) = x ∧
        ∀ o : Observer, t.viewByte o (mp.key + j) = x ∨
          ∃ w ∈ t.stores, w.applied = false ∧ w.visible o = true ∧ w.touches [(mp.key + j, 1)] = true)

/-- 15 R246, R247; 10 R151: a VAMO leaves each active element's old word in its group; where no two elements name one word
and no store of the die to these words is under way, each word then holds what the operation makes of the old word, vd[i]
and, for CAS, vd+LMUL[i], and no other byte of the applied order changes. -/
def Obligations.VectorAtomics : Prop :=
  ∀ (s : State) (d : VReg) (a : XReg) (ix : VReg) (cls : Cls) (m : MReg) (v : VView) (mp : Nat → Mapped), s.Vec v →
    let r := s.me.vregs
    let us := v.active none r m false
    let n := v.sew / 8
    let ks := us.map (fun k => ((mp k).key, n))
    let int := fun (f : Nat → Nat → Nat → Nat) => (VView.isInt v && decide (32 ≤ v.sew), f)
    let float := fun (f : Nat → Nat → Nat → Nat) => (VView.isFloat v && decide (32 ≤ v.sew), f)
    let sg := signedOf v.sew
    let ops := [int (fun o x _ => (o + x) % 2 ^ v.sew), int (fun o x _ => o &&& x), int (fun o x _ => o ||| x),
      int (fun o x _ => o ^^^ x), int (fun o x _ => if sg o ≤ sg x then o else x), int (fun o x _ => if sg x ≤ sg o then o else x),
      int (fun o x _ => min o x), int (fun o x _ => max o x), int (fun _ x _ => x),
      float (fun o x _ => (v.ff.add .rne false o x).1)]
    let near := [Instr.vamoAdd d a ix cls m, .vamoAnd d a ix cls m, .vamoOr d a ix cls m, .vamoXor d a ix cls m,
      .vamoMin d a ix cls m, .vamoMax d a ix cls m, .vamoMinn d a ix cls m, .vamoMaxn d a ix cls m, .vamoSwap d a ix cls m,
      .vamoFadd d a ix cls m]
    let far := [Instr.vamoFAdd d a ix cls m, .vamoFAnd d a ix cls m, .vamoFOr d a ix cls m, .vamoFXor d a ix cls m,
      .vamoFMin d a ix cls m, .vamoFMax d a ix cls m, .vamoFMinn d a ix cls m, .vamoFMaxn d a ix cls m, .vamoFSwap d a ix cls m,
      .vamoFFadd d a ix cls m]
    let performs := fun (sc : Scope) (cas : Bool) (i : Instr) (ok : Bool) (f : Nat → Nat → Nat → Nat) =>
      let u := if us = [] then s else (s.afterHeld cls ks).beforeAtomic .p1 sc cls ks
      ok = true → v.tile = false → v.bl = 0 → aligned d v.lmul = true → aligned ix v.indexRegs = true →
      overlapOk d v.lmul ix v.indexRegs = true →
      (cas = true → d.val + 2 * v.lmul ≤ 32 ∧ apart d (2 * v.lmul) ix v.indexRegs = true) →
      (us ≠ [] → s.ReadyX [a] ∧ s.guarding d v.lmul = none ∧ s.NoneLost ∧ s.ReadyV v
        ([⟨d, v.lmul, v.sew⟩, ⟨ix, v.indexRegs, 32⟩] ++ if cas then [⟨regAt d v.lmul, v.lmul, v.sew⟩] else []) [m]) →
      (∀ k ∈ us, let va := s.rx a + BitVec.ofNat 64 (r.elem { v with tile := false } ix 32 k)
        va.toNat < 2 ^ 55 ∧ va.toNat % n = 0 ∧ s.xlate s.me.party .store va = .ok (mp k) ∧ isHostKey (mp k).key = false ∧
        (mp k).key % n = 0 ∧ s.Present (mp k).key n) →
      ∃ t, exec i s = .next t ∧
        t.me = { s.me with pc := s.me.pc + 4
                           vec := { s.me.vec with v := t.me.vec.v, vbeg := 0, ldv := d }
                           clock := { t.me.clock with xp := s.me.clock.xp }
                           seen := t.me.seen
                           ahead := if us = [] then s.me.ahead else s.me.ahead.filter (fun x => Ahead.stays .p1 cls false ks x && x.path != .p1)
                           vpoison := t.me.vpoison } ∧
        (∀ q : VReg, (∀ k, k < v.lmul → regAt d k ≠ q) → t.me.vec.v[q] = s.me.vec.v[q]) ∧
        (u.Canonical → (∀ w ∈ u.stores, w.applied = false → w.die = s.me.die → w.touches ks = false) →
          (∀ k ∈ us, ∀ l ∈ us, (mp k).ki = (mp l).ki ∧ ((mp k).key = (mp l).key → k = l)) → (∀ k ∈ us, u.keyedAs (mp k).ki (mp k).key) →
          let old := fun k => ofBytes ((List.range n).map (fun j => u.homeByte ((mp k).key + j)))
          s.Elements t v d v.sew (fun e => v.outcome r m false e (some (old e))) ∧
          (∀ k ∈ us, ∀ j, j < n → t.homeByte ((mp k).key + j) = BitVec.ofNat 8
            (f (old k) (r.elem v d v.sew k) (r.elem v (regAt d v.lmul) v.sew k) / 2 ^ (8 * j))) ∧
          ∀ x, (∀ k ∈ us, x < (mp k).key ∨ (mp k).key + n ≤ x) → t.homeByte x = u.homeByte x)
    (∀ p ∈ near.zip ops, performs .d false p.1 p.2.1 p.2.2) ∧ (∀ p ∈ far.zip ops, performs .p false p.1 p.2.1 p.2.2) ∧
    let cas := int (fun o x y => if o = x then y else o)
    performs .d true (.vamoCas d a ix cls m) cas.1 cas.2 ∧ performs .p true (.vamoFCas d a ix cls m) cas.1 cas.2

/-- 10 R142, R144, R147; 11 R162; 15 R248: what each fence has performed when it completes: FENCE.C the stores of the masked
classes; FENCE.P the stores on its from-paths, seen on its to-paths; FENCE.S at T, C or D every store of the context, seen on
every path of its die, and at P or S, with those its loads have read, seen by every observer and acknowledged. No load made
ahead in the masked classes, on the to-paths, or at all stands for one after it; of the context nothing else but the pc
changes. FENCE.P with an empty set has no effect. On a Bureau FENCE.P from P2 and FENCE.S wait for the reads of queued GATHs
and MMAGs. 10 R147, 13 R203: FENCEI is a fence at scope D: every earlier store of the context is then visible on every path
of its die; what the context has fetched or loaded ahead is discarded. A Bureau first waits for the reads of its queued GATHs
and MMAGs. 13 R207, 07 R105: CTAIL, of a queue of the context's function, is a release at scope S and then a write of QTAIL,
which takes effect only within the forward window; every store of the context is then visible everywhere and acknowledged.
Another queue traps PROT with xa. 02 R16, 15 R249, 10 R148: FENCE.A orders as FENCE.S and then arrives in the open phase of
the group, whose last expected arrival opens the next phase; an arrival that is repeated or not yet expected waits. BWAIT
waits for the phase the thread last arrived in, and acquires. A thread that is no member of a live group with that id traps
PROT. -/
def Obligations.FencesAndReleases : Prop :=
  (∀ (s : State) (mask : BitVec 16) (pf pt : BitVec 5) (sc : Scope),
    let mine := fun r : StoreRec => r.ctx = some s.me.uid ∧ r.lost = false
    let wide := sc = .p ∨ sc = .s
    let fr := pf &&& s.me.pathSet
    (∃ t, exec (.fenceC mask) s = .next t ∧
      t.me = { s.me.done 0 4 with ahead := s.me.ahead.filter (fun a => !mask.getLsbD a.cls.val) } ∧
      ∀ r ∈ t.stores, mine r → mask.getLsbD r.cls.val = true → r.performed = true ∧ (r.mode ≠ .early → r.applied = true)) ∧
    (fr = 0 ∨ pt = 0 → exec (.fenceP pf pt) s = .next (s.goOn 4)) ∧
    (fr ≠ 0 → pt ≠ 0 → fr.getLsbD (pathIdx .p2) = true → s.p2Waits = true → exec (.fenceP pf pt) s = .next s) ∧
    (fr ≠ 0 → pt ≠ 0 → fr.getLsbD (pathIdx .p2) = false ∨ s.p2Waits = false → ∃ t, exec (.fenceP pf pt) s = .next t ∧
      t.me = { s.me.done 0 4 with ahead := s.me.ahead.filter (fun a => !pt.getLsbD (pathIdx a.path)) } ∧
      ∀ r ∈ t.stores, mine r → fr.getLsbD (pathIdx r.path) = true →
        (r.mode ≠ .early → r.applied = true) ∧ (r.mode = .early → ∀ i, pt.getLsbD i = true → r.paths.getLsbD i = true)) ∧
    (s.p2Waits = true → exec (.fenceS sc) s = .next s) ∧
    (s.p2Waits = false → s.NoneLost → ∃ t, exec (.fenceS sc) s = .next t ∧
      t.me = { s.me.done 0 4 with seen := if wide then [] else s.me.seen, ahead := [] } ∧
      (∀ r ∈ t.stores, s.me.owns r = true → r.visibleAll r.die = true ∧ (wide → r.everywhere = true ∧ r.acked = true)) ∧
      (wide → ∀ r ∈ t.stores, (∃ e ∈ s.me.seen, e.1 = r.id) → r.lost = false → r.everywhere = true))) ∧
  (∀ (s : State),
    (s.p2Waits = true → exec .fencei s = .next s) ∧
    (s.p2Waits = false → s.NoneLost →
      ∃ t, exec .fencei s = .next t ∧ t.me = { s.me.done 0 4 with fetched := [], ahead := [] } ∧
        ∀ r ∈ t.stores, s.me.owns r = true → r.visibleAll r.die = true)) ∧
  (∀ (s : State) (a b : XReg), s.ReadyX [a, b] →
    let q := (s.rx a).toNat
    let v := (s.rx b).setWidth 32
    let ahead := (v.toNat + 2 ^ 32 - (s.queue q).qtail.toNat) % 2 ^ 32
    (q < 8192 → (s.queue q).owner = s.me.fn → s.p2Waits = false → s.NoneLost →
      ∃ t, exec (.ctail a b) s = .next t ∧ t.me = { s.me.done 0 4 with seen := [], ahead := [] } ∧
        (∀ r ∈ t.stores, s.me.owns r = true → r.everywhere = true ∧ r.acked = true) ∧
        t.queue q = { s.queue q with qtail := if 1 ≤ ahead ∧ ahead ≤ 2 ^ 31 - 1 then v else (s.queue q).qtail } ∧
        ∀ p, p ≠ q → t.queue p = s.queue p) ∧
    (8192 ≤ q ∨ (s.queue q).owner ≠ s.me.fn → exec (.ctail a b) s = .next (s.deliverAt .prot s.me.pc (s.rx a)))) ∧
  (∀ (s : State) (sc : Scope) (a : XReg), s.me.kind = .thread → s.ReadyX [a] →
    let n := (s.rx a).toNat
    let g := Assoc.get ⟨0, 0, 0, 0⟩ s.groups n
    let live := n ≤ 0xFFF ∧ Assoc.has s.groups n = true
    (∀ m, live → s.me.members.find? (fun m => m.gid == n) = some m →
      (s.NoneLost → (m.last = some g.phase ∨ g.phase < m.since) → ∃ t, exec (.fenceA sc a) s = .next t ∧
        t.me = { s.me with seen := t.me.seen, ahead := [] } ∧ t.groups = s.groups) ∧
      (s.NoneLost → m.last ≠ some g.phase → m.since ≤ g.phase → ∃ t, exec (.fenceA sc a) s = .next t ∧
        t.me = { s.me.done 0 4 with seen := t.me.seen, ahead := [], members := s.me.members.map (fun q =>
          if q.gid = n then { q with last := some g.phase } else q) } ∧
        Assoc.get ⟨0, 0, 0, 0⟩ t.groups n = (if g.arrived + 1 = g.expected then ⟨g.count, g.phase + 1, g.count, 0⟩
          else ⟨g.count, g.phase, g.expected, g.arrived + 1⟩) ∧
        (∀ k, k ≠ n → Assoc.get ⟨0, 0, 0, 0⟩ t.groups k = Assoc.get ⟨0, 0, 0, 0⟩ s.groups k) ∧
        ∀ r ∈ t.stores, s.me.owns r = true → r.visibleAll r.die = true) ∧
      (m.last = some g.phase → exec (.bwait sc a) s = .next s) ∧
      (m.last ≠ some g.phase → exec (.bwait sc a) s = .next { s with me := { s.me.done 0 4 with
        ahead := [], members := s.me.members.map (fun q => if q.gid = n then { q with last := none } else q) } })) ∧
    (¬live ∨ (∀ m ∈ s.me.members, m.gid ≠ n) →
      exec (.fenceA sc a) s = .next (s.deliverAt .prot s.me.pc (s.rx a)) ∧
      exec (.bwait sc a) s = .next (s.deliverAt .prot s.me.pc (s.rx a))))

/-- 15 R250, 09 R134: HPOST posts an iteration inside the window of 64 above the front F, which then moves past every posted
iteration that follows it; it waits beyond the window, and an iteration below F changes nothing. It releases first: every
store of the context has performed, and a Bureau's reads on P2 as well (10 R150). HWAIT goes on once F is above xa, and
acquires. A slot the launch does not hold traps PROT. 15 R251, R252; 02 R24; 05 R84: HFSET fills an empty flag, with a
register group, VL and VTYPE or without one, after a release at scope C; a full flag, or a group that overlaps one already
published, traps HANDOFF. HFSET.CLR empties a flag without a group and leaves an empty one; HFWAIT waits for the state it
names, and acquires. A Bureau's release waits for its reads on P2 (10 R150). -/
def Obligations.RingAndFlags : Prop :=
  (∀ (s : State) (l : Fin 16) (a : XReg), s.ReadyX [a] →
    let n := (s.rx a).toNat
    (s.loopSlot l = none → exec (.hpost l a) s = .next (s.deliverAt .prot s.me.pc (BitVec.ofNat 64 l.val)) ∧
      exec (.hwait l a) s = .next (s.deliverAt .prot s.me.pc (BitVec.ofNat 64 l.val))) ∧
    ∀ i, s.loopSlot l = some i →
      let h := s.hatchAt i
      let f := h.f.toNat
      let posted := fun j : Nat => decide (j < f) || j == n || (decide (j < f + 64) && h.win.getLsbD (j - f))
      (n < f → exec (.hwait l a) s = .next { s with me := { s.me.done 0 4 with ahead := [] } }) ∧
      (f ≤ n → exec (.hwait l a) s = .next s) ∧ (s.p2Waits = true → exec (.hpost l a) s = .next s) ∧
      (s.p2Waits = false → s.NoneLost → f + 64 ≤ n → ∃ t, exec (.hpost l a) s = .next t ∧ t.me = s.me ∧ t.dies = s.dies) ∧
      (s.p2Waits = false → s.NoneLost → n < f + 64 → f + 64 < 2 ^ 64 → ∃ t h', exec (.hpost l a) s = .next t ∧ t.me = s.me.done 0 4 ∧ t.hatchAt i = h' ∧
        (∀ k : Fin 16, k ≠ i → t.hatchAt k = s.hatchAt k) ∧ (∀ r ∈ t.stores, s.me.owns r = true → r.performed = true) ∧
        (n < f → h' = h) ∧
        (f ≤ n → f ≤ h'.f.toNat ∧ (∀ j, j < h'.f.toNat → posted j = true) ∧ posted h'.f.toNat = false ∧
          ∀ k, k < 64 → h'.win.getLsbD k = posted (h'.f.toNat + k)))) ∧
  (∀ (s : State) (f : Fin 32) (b : VReg) (full : Bool),
    let h := s.flag f
    let only := fun (i : Instr) (h' : HFlag) =>
      (s.p2Waits = true → exec i s = .next s) ∧
      (s.p2Waits = false → s.NoneLost → ∃ t, exec i s = .next t ∧ t.me = s.me.done 0 4 ∧ t.flag f = h' ∧
        (∀ k : Fin 32, k ≠ f → t.flag k = s.flag k) ∧
        ∀ r ∈ t.stores, s.me.owns r = true → (r.ctx ≠ some s.me.uid ∨ s.me.hfPaths r.path = true) → r.performed = true)
    let traps := fun (i : Instr) => exec i s = .next (s.deliverAt .handoff s.me.pc (BitVec.ofNat 64 f.val))
    (∀ v, s.me.kind = .thread → s.me.view = some v → aligned b v.lmul = true →
      (h.full = false → s.guarding b v.lmul = none →
        only (.hfset f b) ⟨true, true, s.me.pubSlot, b, s.me.vec.vl.setWidth 16, s.me.vec.vtype, some s.me.uid⟩) ∧
      (h.full = true ∨ s.guarding b v.lmul ≠ none → traps (.hfset f b))) ∧
    (h.full = false → only (.hfsetBare f) ⟨true, false, s.me.pubSlot, 0, 0, 0, some s.me.uid⟩ ∧
      exec (.hfsetClr f) s = .next (s.goOn 4)) ∧
    (h.full = true → traps (.hfsetBare f)) ∧ (h.full = true → h.grp = true → traps (.hfsetClr f)) ∧
    (h.full = true → h.grp = false → only (.hfsetClr f) { h with full := false }) ∧
    exec (.hfwait f full) s = .next (if h.full = full then { s with me := { s.me.done 0 4 with ahead := [] } } else s))

/-- 15 R254 to R257, 05 R81: a copy instruction queues its copy and clears its tag, or, with nothing to copy, sets the tag at
once; while the tag is held it waits. CPY2 and CPYX take the rest from their descriptor, reserved bytes of which trap PROT.
The tag waits go on with CTAGS AND the mask, or its lowest bit, when every bit, some bit, or whatever is set. 15 R258: COLL
reads its descriptor and answers −2 for an undefined communicator, −3 with 16 collectives of the context in flight, else 0,
and then the collective is under way and counted with the communicator. -/
def Obligations.CopiesAndCollectives : Prop :=
  (∀ (s : State) (d a b : XReg) (tag : Fin 64), s.me.kind = .thread →
    let bit := 1#64 <<< tag.val
    let queues := fun (i : Instr) (u : State) (ah : List Ahead) (rows rbytes : Nat) (sp dp si di : Word) (ix : Bool) =>
      (rows * rbytes = 0 → ∃ t, exec i s = .next t ∧ t.copies = s.copies ∧
        t.me = { s.me.done 0 4 with tags := t.me.tags, seen := t.me.seen, ahead := ah } ∧ t.me.tags.ctags = s.me.tags.ctags ||| bit) ∧
      (0 < rows * rbytes → ∃ t c, exec i s = .next t ∧ t.copies = s.copies ++ [c] ∧
        t.me = { s.me.done 0 4 with tags := t.me.tags, seen := t.me.seen, ahead := ah } ∧
        t.me.tags.ctags = s.me.tags.ctags &&& ~~~bit ∧ t.me.tags.held = s.me.tags.held ||| bit ∧ t.mem = u.mem ∧ t.stores = u.stores ∧
        c = { s.newCopy tag (s.rx d) (s.rx a) with rows := rows, rbytes := rbytes, spitch := sp, dpitch := dp, sidx := si, didx := di,
                                                   indexed := ix })
    (s.ReadyX [d, a, b] → s.me.tags.held.getLsbD tag.val = true → ∀ i ∈ [Instr.cpy d a b tag, .cpy2 d a b tag, .cpyx d a b tag],
      exec i s = .next s) ∧
    (s.ReadyX [d, a, b] → s.me.tags.held.getLsbD tag.val = false →
      queues (.cpy d a b tag) s s.me.ahead 1 (s.rx b).toNat 0 0 0 0 false ∧
      ∀ ms, (s.rx b).toNat < 2 ^ 55 → (s.rx b).toNat % 8 = 0 → s.xlateRange s.me.party .load (s.rx b) 32 = .ok ms →
        s.badByte s.me.die ms = none →
        let pick := fun r : StoreRec => r.mode != .early && s.me.orders .p0 0 (keysOf ms) r
        let u := (s.drainGlob pick).orderLoad .p0 0 (keysOf ms)
        let ah := s.me.ahead.filter (Ahead.stays .p0 0 false (keysOf ms))
        let num := fun (off n : Nat) => ofBytes (((u.loadParts .p0 0 ms).drop off).take n)
        let word := fun (off : Nat) => BitVec.ofNat 64 (num off 8)
        s.Clear pick →
        (num 24 8 = 0 → queues (.cpy2 d a b tag) u ah (num 0 4) (num 4 4) (word 8) (word 16) 0 0 false) ∧
        (num 24 8 = 0 → num 4 4 ≠ 0 → num 4 4 ≤ 4096 → num 8 8 % 8 = 0 → num 16 8 % 8 = 0 →
          queues (.cpyx d a b tag) u ah (num 0 4) (num 4 4) (BitVec.ofNat 64 (num 4 4)) (BitVec.ofNat 64 (num 4 4)) (word 8) (word 16) true) ∧
        (num 24 8 ≠ 0 → exec (.cpy2 d a b tag) s = .next (s.deliverAt .prot s.me.pc (s.rx b))) ∧
        (num 24 8 ≠ 0 ∨ num 4 4 = 0 ∨ 4096 < num 4 4 ∨ num 8 8 % 8 ≠ 0 ∨ num 16 8 % 8 ≠ 0 →
          exec (.cpyx d a b tag) s = .next (s.deliverAt .prot s.me.pc (s.rx b)))) ∧
    (s.ReadyX [a] → (∀ f ∈ s.me.tags.faults, ¬(f.tag < 64 ∧ (s.rx a).getLsbD f.tag = true)) →
      let got := s.me.tags.ctags &&& s.rx a
      let gives := fun (i : Instr) (v : Word) => ∃ t, exec i s = .next t ∧ t = { s with me := t.me } ∧
        t.me = { (s.me.wx d v 0).done 0 4 with tags := t.me.tags, ahead := [] } ∧ t.me.tags.ctags = s.me.tags.ctags ∧
        t.me.tags.held = s.me.tags.held
      (got = s.rx a → gives (.twaitall d a) got) ∧ (got ≠ s.rx a → exec (.twaitall d a) s = .next s) ∧
      (got ≠ 0 ∨ s.rx a = 0 → gives (.twaitany d a) got) ∧ (got = 0 → s.rx a ≠ 0 → exec (.twaitany d a) s = .next s) ∧
      (got = 0 → gives (.tfirst d a) 64) ∧
      ∀ k, k < 64 → got.getLsbD k = true → (∀ j, j < k → got.getLsbD j = false) → gives (.tfirst d a) (BitVec.ofNat 64 k))) ∧
  (∀ (s : State) (d a : XReg) (ms : List (Mapped × Nat)), s.me.kind = .thread → s.ReadyX [a] →
    let pick := fun r : StoreRec => r.mode != .early && s.me.orders .p0 0 (keysOf ms) r
    (s.rx a).toNat < 2 ^ 55 → (s.rx a).toNat % 8 = 0 → s.xlateRange s.me.party .load (s.rx a) 64 = .ok ms →
    s.badByte s.me.die ms = none → s.Clear pick →
    let u := (s.drainGlob pick).orderLoad .p0 0 (keysOf ms)
    let num := fun (off n : Nat) => ofBytes (((u.loadParts .p0 0 ms).drop off).take n)
    let answers := fun (v : Int) (t : State) => exec (.coll d a) s = .next t ∧ t.me = { (s.me.wx d (BitVec.ofInt 64 v) 0).done 0 4 with
      seen := t.me.seen, ahead := s.me.ahead.filter (Ahead.stays .p0 0 false (keysOf ms)) }
    let mine := s.colls.filter (fun c => c.owner == s.me.uid)
    (s.comm s.me.fn (num 4 4) = none → ∃ t, answers (-2) t ∧ t.colls = s.colls) ∧
    ∀ cm, s.comm s.me.fn (num 4 4) = some cm →
      (16 ≤ mine.length → ∃ t, answers (-3) t ∧ t.colls = s.colls) ∧
      (mine.length < 16 → ∃ t c, answers 0 t ∧ t.colls = s.colls ++ [c] ∧ c.owner = s.me.uid ∧ c.k = cm.issued[s.me.die] ∧
        c.comm = num 4 4 ∧ c.op.toNat = num 0 1 ∧ c.red.toNat = num 1 1 ∧ c.fmt.toNat = num 2 1 ∧ c.src.toNat = num 8 8 ∧
        c.dst.toNat = num 16 8 ∧ c.count = num 24 8 ∧ c.root = num 32 4 ∧ c.status.toNat = num 40 8 ∧
        ∃ cm', t.comm s.me.fn (num 4 4) = some cm' ∧ cm'.issued[s.me.die] = cm.issued[s.me.die] + 1))

/-- 16 R261, R264, R267, R272, R274, R275; 07 R102; 08 R115: a matrix instruction of a Bureau joins the queue of its cluster
with the scalars it read and the Plate its slot commits, and waits while eight entries are queued; MWAIT waits for at most n.
On a thread each traps ILL. -/
def Obligations.MatrixQueueEntry : Prop :=
  ∀ (s : State) (l : Fin 2) (a b : XReg) (q : Fin 8) (h : Fin 32) (slot : Fin 4) (cb n : Fin 8) (z sat cg cr iv : Bool),
    let c : MxCtl := ⟨q, h, slot, cb, z, sat, cg, cr, iv⟩
    let forms : List (Instr × List XReg × MatOp × Option (Fin 4) × Word × Word) :=
      [(.gath l a b, [a, b], .gath l, none, s.rx a, s.rx b), (.mmaGr l q h slot cb z sat cg cr iv, [], .gr l c, some slot, 0, 0),
       (.mmaRg l q h slot cb z sat cg cr iv, [], .rg l c, some slot, 0, 0),
       (.mmag a q h slot cb z sat cg cr iv, [a], .mmag c, some slot, s.rx a, 0), (.mzero q, [], .mzero q, none, 0, 0)]
    (s.me.kind = .bureau →
      (∀ p ∈ forms, s.ReadyX p.2.1 →
        (8 ≤ s.myCluster.mq.length → exec p.1 s = .next s) ∧
        (s.myCluster.mq.length < 8 → ∃ t e, exec p.1 s = .next t ∧ t = { s with me := s.me.done 0 4, clusters := t.clusters } ∧
          (∀ k : Fin 64, k ≠ s.me.cl → t.clusters[k] = s.clusters[k]) ∧
          t.myCluster = { s.myCluster with mq := s.myCluster.mq ++ [e], plates := t.myCluster.plates } ∧
          e.op = p.2.2.1 ∧ e.addr = s.me.pc ∧ e.a = p.2.2.2.2.1 ∧ e.b = p.2.2.2.2.2 ∧ e.run = none ∧
          (∀ i : Fin 4, p.2.2.2.1 ≠ some i → t.myCluster.plates[i] = s.myCluster.plates[i]) ∧
          (p.2.2.2.1 = none → e.plate = none) ∧
          ∀ i : Fin 4, p.2.2.2.1 = some i → e.plate = (t.myCluster.plates[i]).committed ∧
            t.myCluster.plates[i] = match (s.myCluster.plates[i]).shadow with
              | some x => ⟨some x, none⟩
              | none => s.myCluster.plates[i])) ∧
      exec (.mwait n) s = .next (if s.myCluster.mq.length ≤ n.val then s.goOn 4 else s)) ∧
    (s.me.kind = .thread → (∀ p ∈ forms, exec p.1 s = .next (s.deliverAt .ill s.me.pc s.insWord)) ∧
      exec (.mwait n) s = .next (s.deliverAt .ill s.me.pc s.insWord))

/-- 16 R277, 08 R114, 04 R66: PLOAD reads its image and writes it to the shadow of its slot; a D outside {1, 2, 4, 8, 16}
traps PLATE with TVAL 0, and a field that fails the checks of R66 traps PLATE with its offset; nothing is written then. 16
R276 to R279, 04 R64, R67; 06 R96: TDRAIN writes its window of the Chest, row by row or transposed, with the involution of
its Plate where it says so, converted to FMT, to the rows from VBEG on; under a nonzero BL each block gets its computed SCALE
and keeps its X, or holds zeros under SCALE 0xFF when a pair in it is not finite. It raises FFLAGS only. SHAPE, PLATE, PROT
without a Bureau of the launch, and POISON for a poisoned pair come in this order. 16 R276, R281, 06 R96: TFILL writes raw
pairs of rows VBEG to VL − 1 into its window of the Chest, which clears their poison, and changes no other pair; a window
outside the tile or a nonzero other bit traps SHAPE, and a thread whose launch has no Bureau there PROT. -/
def Obligations.PlateAndChest : Prop :=
  (∀ (s : State) (slot : Fin 4) (a : XReg) (head cube : List (Mapped × Nat)), s.me.kind = .bureau → s.ReadyX [a] →
    let va := s.rx a
    let pick := fun (ms : List (Mapped × Nat)) (r : StoreRec) => r.mode != .early && s.me.orders .p0 0 (keysOf ms) r
    va.toNat < 2 ^ 55 → va.toNat % 16 = 0 → s.xlateRange s.me.party .load va 320 = .ok head → s.badByte s.me.die head = none →
    s.Clear (pick head) →
    let u := (s.drainGlob (pick head)).orderLoad .p0 0 (keysOf head)
    let first := u.loadParts .p0 0 head
    let d := ofBytes (first.take 1)
    let ah := s.me.ahead.filter (Ahead.stays .p0 0 false (keysOf head))
    (d ∉ [1, 2, 4, 8, 16] → ∃ x, exec (.pload slot a) s =
      .next (({ u with me := { s.me with seen := x, ahead := ah } }).deliverAt .plate s.me.pc 0)) ∧
    (d ∈ [1, 2, 4, 8, 16] →
      (∀ x, ({ u with me := { s.me with seen := x, ahead := ah } } : State).xlateRange s.me.party .load (va + 320) (d ^ 3) = .ok cube) →
      u.badByte s.me.die cube = none → u.Clear (pick cube) →
      let w := (u.drainGlob (pick cube)).orderLoad .p0 0 (keysOf cube)
      let ah2 := ah.filter (Ahead.stays .p0 0 false (keysOf cube))
      let p := plateOf (first ++ w.readParts (s.me.obs .p0) cube)
      (p.firstBad = none → ∃ t, exec (.pload slot a) s = .next t ∧ t.me = { s.me.done 0 4 with seen := t.me.seen, ahead := ah2 } ∧
        t.myCluster = { s.myCluster with plates := t.myCluster.plates } ∧
        (∀ i : Fin 4, t.myCluster.plates[i] = if i = slot then { s.myCluster.plates[i] with shadow := some p } else s.myCluster.plates[i])) ∧
      (∀ off, p.firstBad = some off → ∃ x, exec (.pload slot a) s =
        .next (({ w with me := { s.me with seen := x, ahead := ah2 } }).deliverAt .plate s.me.pc (BitVec.ofNat 64 off))))) ∧
  (∀ (s : State) (d : VReg) (q : Fin 8) (code : BitVec 5) (a : XReg) (slot : Fin 4) (t c iv : Bool) (v : VView), s.Vec v →
    v.tile = true → s.ReadyX [a] → Fmt.ofCode code.toNat = some v.fmt → aligned d 8 = true →
    ¬(c = true ∧ v.fmt.int?.isSome = true ∧ v.bl = 0) → s.guarding d 8 = none →
    let x := s.rx a
    let row := x.toNat % 128
    let col := x.toNat / 256 % 256
    let td := v.tdim
    let plate := if c = true ∧ s.ownBureau = true then (s.myCluster.plates[slot]).committed else none
    let shape := x &&& ~~~0xFF7F = 0 ∧ (if t then row + v.per / td ≤ 128 ∧ col + v.vl * td ≤ 256 else row + v.vl ≤ 128 ∧ col + v.per ≤ 256) ∧
      (t = true ∨ c = true → v.per % td = 0 ∧ col % td = 0) ∧ ∀ p, plate = some p → p.d = td
    let i := Instr.tdrain d q code a slot t c iv
    (¬shape → exec i s = .next (s.deliverAt .shape s.me.pc s.me.pc)) ∧
    (shape → c = true → plate = none → exec i s = .next (s.deliverAt .plate s.me.pc s.me.pc)) ∧
    (shape → c = false → s.ownBureau = false → exec i s = .next (s.deliverAt .prot s.me.pc s.me.pc)) ∧
    (shape → s.ownBureau = true → (c = true → ∃ p, plate = some p ∧ (p.inv iv).length = td ∧ ∀ b ∈ p.inv iv, b.toNat % 16 < td) →
      let place := fun (j k : Nat) => if t then (row + k / td, col + j * td + k % td) else (row + j, col + k)
      let pair := fun (j k : Nat) => chestGet s.myCluster.chest q (place j k).1 (place j k).2
      let taken := fun (j k : Nat) => match plate with
        | none => pair j k
        | some p =>
          let b := ((p.inv iv)[k % td]?).getD 0
          let y := pair j (k - k % td + b.toNat % 16)
          if b.getLsbD 7 then y ^^^ 0x8000000080000000 else y
      let bad := ∃ j k, v.vbeg ≤ j ∧ j < v.vl ∧ k < v.per ∧ pairIdx q (place j k).1 (place j k).2 ∈ s.myCluster.chestPoison
      (bad → ∃ (w : State) (x : Word), exec i s = .next (w.deliverAt .poison s.me.pc x) ∧ w.me = s.me ∧ w.clusters = s.clusters) ∧
      (¬bad → ∃ u, exec i s = .next u ∧ s.VecFrame u d 8 4 ∧ u.me.flags.fx = s.me.flags.fx ∧
        let vals := fun (b : Nat) => (List.range v.bl).map (fun n =>
          let e := b * v.bl + n
          pairVal v.rm (taken (e / v.per) (e % v.per)).toNat)
        let own := fun (b : Nat) => (s.me.vregs.desc v d b).toNat
        let scale := fun (b : Nat) => if (vals b).any Val.nonFinite then 0xFF else computedScale v.fmt (vals b)
        let elt := fun (e : Nat) =>
          let y := taken (e / v.per) (e % v.per)
          if v.bl = 0 then drainElt v.fmt v.rm v.sat y
          else if (vals (e / v.bl)).any Val.nonFinite then (0, flagNV)
          else cvtScaled .pair v.fmt v.rm v.sat (scale (e / v.bl)) (own (e / v.bl) / 256 % 256) (pairVal v.rm y.toNat)
        (v.bl = 0 ∨ v.per % v.bl = 0 →
          s.Elements u v d v.sew (fun e => v.outcome s.me.vregs 0 false e (some (elt e).1)) ∧
          (∀ i : Fin 5, u.me.flags.ff.getLsbD i.val = (s.me.flags.ff.getLsbD i.val ||
            (List.range (v.vl * v.per)).any (fun e => decide (v.vbeg ≤ e / v.per) && (elt e).2.getLsbD i.val))) ∧
          (v.bl ≠ 0 → ∀ b, v.vbeg * v.per ≤ b * v.bl → b * v.bl < v.vl * v.per →
            (u.me.vec.desc v d b).toNat % 2 ^ 16 = scale b + own b / 256 % 256 * 256))))) ∧
  (∀ (s : State) (b : VReg) (q : Fin 8) (a : XReg) (v : VView), s.Vec v → v.tile = true → s.ReadyX [a] →
    v.fmt = .pair → aligned b 8 = true → s.ReadyV v [⟨b, 8, 64⟩] [] →
    let x := s.rx a
    let row := x.toNat % 128
    let col := x.toNat / 256 % 256
    let chest := s.myCluster.chest
    let shape := x &&& ~~~0xFF7F = 0 ∧ row + v.vl ≤ 128 ∧ col + 8 ≤ 256
    (¬shape → exec (.tfill q b a) s = .next (s.deliverAt .shape s.me.pc s.me.pc)) ∧
    (shape → s.ownBureau = false → exec (.tfill q b a) s = .next (s.deliverAt .prot s.me.pc s.me.pc)) ∧
    (shape → s.ownBureau = true → chest.Pairwise (fun p r => p.1 < r.1) →
      ∃ u, exec (.tfill q b a) s = .next u ∧
        u.me = { s.me with pc := s.me.pc + 4, vec := { s.me.vec with vbeg := 0 }, clock := u.me.clock } ∧
        u.myCluster = { s.myCluster with chest := u.myCluster.chest, chestPoison := u.myCluster.chestPoison } ∧
        ∀ (k : Fin 8) (i j : Nat), i < 128 → j < 256 →
          let mine := k = q ∧ row + v.vbeg ≤ i ∧ i < row + v.vl ∧ col ≤ j ∧ j < col + 8
          (mine → chestGet u.myCluster.chest k i j = BitVec.ofNat 64 (s.me.vregs.elem v b 64 (8 * (i - row) + (j - col))) ∧
            pairIdx k i j ∉ u.myCluster.chestPoison) ∧
          (¬mine → chestGet u.myCluster.chest k i j = chestGet chest k i j ∧
            (pairIdx k i j ∈ u.myCluster.chestPoison ↔ pairIdx k i j ∈ s.myCluster.chestPoison))))

/-- 16 R261, R264, R265, R274; 07 R102, R103: the engine starts the first entry that has not started, unless an older one
holds it back. A GATH reads the row that each index names, with its descriptors, and will leave in its latch these rows, M,
GF and NB, the rows above as they were; a bad row word faults SHAPE, an index array outside the scratchpad space PROT, a
misaligned one ALIGN. MZERO starts at once. A start that faults waits for older entries; then it empties the queue and traps
on the Bureau with TVAL the instruction's address. Without a Bureau nothing happens. 16 R261 to R263, R266 to R270; 04 R59,
R60, R65, R67: the start of MMA.GR and MMA.RG. The entry waits for its flag; without a published group it faults HANDOFF; a
snapshot that is no tile, a pairing, BL, TDIM or window that the rules do not allow faults SHAPE; no committed Plate PLATE; a
poisoned operand POISON. Else the engine holds, for each output pair whose component has a nonzero code, the window over the
tuples and the Plate's products, gathered tuple left in GR and right in RG, involutions applied, and the flags. 16 R272,
R273; 09 R135; 04 R63: MMAG. Its start makes the checks in their order and reads the register rows and the table. Then the
entry at the head of the queue runs one group a step, once its flag is empty again: the first clears the tile under Z, a
group without rows only counts, and any other reads its gathered rows and adds the windows of its register rows to the Chest;
a poisoned pair or a row that faults empties the queue, and the groups before stand. MGDONE counts the groups. -/
def Obligations.MatrixEngineSteps : Prop :=
  (∀ (s : State) (cl : Fin 64), (s.bureauOf cl = none → exec (.matrixStart cl) s = .next s) ∧
    (∀ b k at_ va, b.uid = s.me.uid → b.cl = s.me.cl → s.me.status = .running → (∀ c ∈ s.others, c.uid ≠ s.me.uid) → k ≠ .poison →
      ∃ u : State, s.matrixFault b k at_ va = u.deliverAt k s.me.pc at_ ∧ u = { s with clusters := u.clusters } ∧
        (∀ j : Fin 64, u.clusters[j] = if j = b.cl then { s.clusters[j] with mq := [] } else s.clusters[j])) ∧
    ∀ b e r on, s.bureauOf cl = some b → b.cl = cl → (s.clusters[cl]).mq = on ++ e :: r → e.run = none → (∀ d ∈ on, d.run.isSome = true) →
      let starts := fun (P : MatRun → Prop) => ∃ t m, exec (.matrixStart cl) s = .next t ∧ P m ∧ t = { s with clusters := t.clusters } ∧
        (∀ k : Fin 64, k ≠ cl → t.clusters[k] = s.clusters[k]) ∧
        t.clusters[cl] = { s.clusters[cl] with mq := on ++ { e with run := some m } :: r }
      let faults := fun (k : Cause) (va : Option Word) =>
        (on = [] → exec (.matrixStart cl) s = .next (s.matrixFault b k e.addr va)) ∧ (on ≠ [] → exec (.matrixStart cl) s = .next s)
      ((∃ d ∈ on, d.holds e = true) → exec (.matrixStart cl) s = .next s) ∧
      ((∀ d ∈ on, d.holds e = false) →
        (∀ q, e.op = .mzero q → starts (fun m => m = ⟨none, [], false, [], 0, 0, 0, 0, [], 0, false, true, 0⟩)) ∧
        ∀ l, e.op = .gath l →
          let m := e.b.toNat % 256
          let nb := e.b.toNat / 256 % 4
          let n := [0, 2, 4, 8].getD nb 0
          let old := (s.clusters[cl]).latches[l]
          let word := m ≤ 128 ∧ e.b.toNat / 2 ^ 10 % 2 ^ 6 = 0 ∧ e.b.toNat / 2 ^ 19 = 0
          let pad := e.a.toNat < 2 ^ 55 ∧ e.a.toNat / 2 ^ 48 = 0x7E
          (¬word → faults .shape none) ∧ (word → ¬pad → faults .prot none) ∧ (word → pad → e.a.toNat % 4 ≠ 0 → faults .align none) ∧
          (word → pad → e.a.toNat % 4 = 0 → ∀ (idx : Nat → Nat) (rec : Nat → List Byte),
            (∀ i, i < m → (∃ bs, s.engineRead b (e.a + BitVec.ofNat 64 (4 * i)) 4 = .ok bs ∧ ofBytes bs = idx i) ∧ idx i < 2 ^ 28 ∧
              idx i % (if n = 0 then 64 else 8) = 0 ∧
              s.engineRead b (BitVec.ofNat 64 (0x7E * 2 ^ 48 + idx i)) (64 + 4 * n) = .ok (rec i) ∧ (rec i).length = 64 + 4 * n) →
            starts (fun run => run.freed = true ∧ run.steps = [] ∧ ∃ k, run.latch = some k ∧ k.m.toNat = m ∧
              k.gf.toNat = e.b.toNat / 2 ^ 16 % 8 ∧ k.nb.toNat = nb ∧
              (∀ i, i < m → bitsAt k.rows (512 * i) 512 = ofBytes ((rec i).drop (4 * n)) ∧
                ∀ j, j < 8 → bitsAt k.desc (256 * i + 32 * j) 32 =
                  if j < n then ofBytes (((rec i).drop (4 * j)).take 4) % 2 ^ 17 else 0x807F) ∧
              ∀ i, m ≤ i → i < 128 → bitsAt k.rows (512 * i) 512 = bitsAt old.rows (512 * i) 512 ∧
                bitsAt k.desc (256 * i) 256 = bitsAt old.desc (256 * i) 256)))) ∧
  (∀ (s : State) (cl : Fin 64) b e r on l c, s.bureauOf cl = some b → b.cl = cl → (s.clusters[cl]).mq = on ++ e :: r → e.run = none →
    (∀ d ∈ on, d.run.isSome = true ∧ d.holds e = false) → (e.op = .gr l c ∨ e.op = .rg l c) →
    let k := s.clusters[cl]
    let h := k.hf[c.h]
    let lt := k.latches[l]
    let waits := exec (.matrixStart cl) s = .next s
    let faults := fun (k : Cause) => (on = [] → exec (.matrixStart cl) s = .next (s.matrixFault b k e.addr none)) ∧ (on ≠ [] → waits)
    (h.full = false → waits) ∧ (h.full = true → h.grp = false → faults .handoff) ∧
    ∀ u pub v, h.full = true → h.grp = true → h.setter = some u → s.context u = some pub →
      viewOf h.vtype (groupCount pub.groups) h.vl.toNat 0 = some v →
      let n := v.vl
      let f := (gatherFmt v.fmt lt.gf.toNat).getD v.fmt
      let bl := (gatherBl f lt.nb.toNat).getD 0
      let kt := fun p : Plate => v.fmt.epr / p.d
      let pairs := (gatherFmt v.fmt lt.gf.toNat).isSome = true ∧ (pairClass v.fmt).isSome = true ∧ pairClass f = pairClass v.fmt ∧
        (gatherBl f lt.nb.toNat).isSome = true ∧
        ∀ p, e.plate = some p → v.tdim = p.d ∧ (v.fmt = .i8 → ∀ x ∈ p.cube, x.toNat ≤ 4)
      let fits := v.tile = true ∧ (e.op = .rg l c → 32 * c.cb.val + v.fmt.epr ≤ 256 ∧ n ≤ lt.m.toNat) ∧
        (e.op = .gr l c → ∀ p, e.plate = some p → 32 * c.cb.val + n * p.d ≤ 256)
      (¬pairs ∨ ¬fits → faults .shape) ∧ (pairs → fits → e.plate = none → faults .plate) ∧
      ∀ p, pairs → fits → e.plate = some p → p.d ∈ [1, 2, 4, 8, 16] → (v.bl = 0 ∨ v.fmt.blocks = true) →
        (∀ iv, (p.inv iv).length = p.d ∧ ∀ x ∈ p.inv iv, x.toNat % 16 < p.d) →
        let gm := if e.op = .rg l c then n else lt.m.toNat
        let bad := k.latchBad l gm = true ∨ pub.tileBad v h.base n = true
        (bad → faults .poison) ∧
        (¬bad → ∃ t m, exec (.matrixStart cl) s = .next t ∧ t = { s with clusters := t.clusters } ∧
          (∀ j : Fin 64, j ≠ cl → t.clusters[j] = s.clusters[j]) ∧ t.clusters[cl] = { k with mq := on ++ { e with run := some m } :: r } ∧
          let value := fun (fm : Fmt) (bl : Nat) (data : Nat → Nat) (desc : Nat → Nat) (i : Nat) =>
            let w := if bl = 0 ∨ v.fmt = .i8 then 0x807F else desc (i / bl)
            fm.decode (w % 256) (w / 256 % 256) (data i)
          let comp := fun (on : Bool) (val : Nat → Val) (j i : Nat) =>
            let x := ((p.inv c.iv)[i]?).getD 0
            if on then (if x.getLsbD 7 then (val (j * p.d + x.toNat % 16)).flip else val (j * p.d + x.toNat % 16)) else val (j * p.d + i)
          let g := fun (row : Nat) => comp c.cg (value f bl (fun i => bitsAt lt.rows (512 * row + f.sew * i) f.sew)
            (fun j => bitsAt lt.desc (256 * row + 32 * j) 32))
          let w := fun (row : Nat) => comp c.cr (value v.fmt v.bl (fun i => pub.vec.elem v h.base v.sew (row * v.per + i))
            (fun j => (pub.vec.desc v h.base (row * (v.per / v.bl) + j)).toNat))
          let terms := fun (x y z : Nat) => if e.op = .rg l c
            then (List.range n).flatMap (fun j => (p.pairs z).map (fun q => termVal q.2.2 (w j x q.1) (g j y q.2.1)))
            else (List.range (kt p)).flatMap (fun j => (p.pairs z).map (fun q => termVal q.2.2 (g x j q.1) (w y j q.2.1)))
          let inside := fun (x y z : Nat) => x < (if e.op = .rg l c then kt p else lt.m.toNat) ∧
            y < (if e.op = .rg l c then kt p else n) ∧ z < p.d ∧ p.pairs z ≠ [] ∧ (e.op = .rg l c → 0 < n)
          let sum := fun (x y z : Nat) => if v.fmt = .i8 then (BitVec.ofInt 64 (windowInt (terms x y z)), (0 : FlagSet))
            else (BitVec.ofNat 64 (windowSum v.rm c.sat (terms x y z)).1, (windowSum v.rm c.sat (terms x y z)).2)
          m.latch = none ∧ m.freed = false ∧ m.zeroed = false ∧ m.int = (v.fmt == .i8) ∧
          (∀ x y z, inside x y z →
            (m.steps.find? (fun q => q.1 == pairIdx c.q x (32 * c.cb.val + y * p.d + z))).map (fun q => q.2) = some (sum x y z).1) ∧
          (∀ q ∈ m.steps, ∃ x y z, inside x y z ∧ q.1 = pairIdx c.q x (32 * c.cb.val + y * p.d + z)) ∧
          ∀ i : Fin 5, m.ff.getLsbD i.val = true ↔ ∃ x y z, inside x y z ∧ (sum x y z).2.getLsbD i.val = true)) ∧
  (∀ (s : State) (cl : Fin 64) (b : Context) (c : MxCtl), s.bureauOf cl = some b → b.cl = cl →
    let k := s.clusters[cl]
    (∀ e r on, k.mq = on ++ e :: r → e.run = none → (∀ d ∈ on, d.run.isSome = true ∧ d.holds e = false) → e.op = .mmag c →
      let h := k.hf[c.h]
      let xt := e.a.toNat
      let waits := exec (.matrixStart cl) s = .next s
      let faults := fun (x : Cause) => (on = [] → exec (.matrixStart cl) s = .next (s.matrixFault b x e.addr none)) ∧ (on ≠ [] → waits)
      (h.full = false → waits) ∧ (h.full = true → h.grp = false → faults .handoff) ∧
      ∀ u pub v, h.full = true → h.grp = true → h.setter = some u → s.context u = some pub →
        viewOf h.vtype (groupCount pub.groups) h.vl.toNat 0 = some v →
        let fits := v.tile = true ∧ ∀ p, e.plate = some p → v.tdim = p.d ∧ 32 * c.cb.val + v.vl * p.d ≤ 256
        let pad := xt < 2 ^ 55 ∧ xt / 2 ^ 48 = 0x7E
        (¬fits → faults .shape) ∧ (fits → e.plate = none → faults .plate) ∧
        ∀ p, fits → e.plate = some p → (¬pad → faults .prot) ∧ (pad → xt % 16 ≠ 0 → faults .align) ∧
          ∀ head tab, pad → xt % 16 = 0 → s.engineRead b e.a 16 = .ok head → head.length = 16 →
            let num := fun (l : List Byte) (off n : Nat) => ofBytes ((l.drop off).take n)
            let gn := num head 0 4
            (256 < gn → faults .shape) ∧
            (gn ≤ 256 → s.engineRead b (e.a + 16) (16 * gn) = .ok tab → tab.length = 16 * gn →
              let gs := (List.range gn).map (fun j => (⟨num tab (16 * j) 4, num tab (16 * j + 4) 4, BitVec.ofNat 64 (num tab (16 * j + 8) 8)⟩ : MmagGroup))
              let table := num head 4 4 ≤ 128 ∧ num head 9 1 < 4 ∧ num head 10 6 = 0 ∧ (∀ g ∈ gs, g.count ≠ 0 → g.first + g.count ≤ v.vl) ∧
                gs.Pairwise (fun x y => x.count = 0 ∨ y.count = 0 ∨ x.first + x.count ≤ y.first ∨ y.first + y.count ≤ x.first) ∧
                (mulFormats v (some p) (num head 8 1) (num head 9 1)).isSome = true
              (¬table → faults .shape) ∧ (table → pub.tileBad v h.base v.vl = true → faults .poison) ∧
              (table → pub.tileBad v h.base v.vl = false → ∃ t rows, exec (.matrixStart cl) s = .next t ∧
                t = { s with clusters := t.clusters } ∧ (∀ j : Fin 64, j ≠ cl → t.clusters[j] = s.clusters[j]) ∧
                t.clusters[cl] = { k with mq := on ++ { e with run := some ⟨none, [], v.fmt == .i8, rows, h.vtype, num head 4 4, num head 8 1,
                  num head 9 1, gs, 0, false, false, 0⟩ } :: r } ∧
                rows = (List.range v.vl).map (pub.vec.tileRow v h.base)))) ∧
    ∀ w at_ x y p r g post, k.mq = ⟨.mmag c, w, at_, x, y, some p, some r⟩ :: post → r.freed = true → r.groups[r.done]? = some g →
      let old := fun (j : Fin 8) (m i : Nat) => if r.zeroed = false ∧ c.z = true ∧ j = c.q then 0 else chestGet k.chest j m i
      let bad := fun (i : Nat) => i ∈ k.chestPoison ∧ ¬(r.zeroed = false ∧ c.z = true ∧ i / 32768 = c.q.val)
      let runs := fun (P : State → Prop) (F : FlagSet → Prop) => ∃ t ff, exec (.mmagGroupComplete cl) s = .next t ∧ P t ∧ F ff ∧
        t = { s with clusters := t.clusters } ∧ (∀ j : Fin 64, j ≠ cl → t.clusters[j] = s.clusters[j]) ∧
        t.clusters[cl] = { k with
          chest := (t.clusters[cl]).chest, chestPoison := (t.clusters[cl]).chestPoison, mgdone := k.mgdone + 1
          mq := ⟨.mmag c, w, at_, x, y, some p, some { r with done := r.done + 1, zeroed := true, ff := r.ff ||| ff }⟩ :: post }
      (g.count = 0 → runs (fun t => ∀ (j : Fin 8) (m i : Nat), m < 128 → i < 256 → chestGet (t.clusters[cl]).chest j m i = old j m i)
        (fun ff => ff = 0)) ∧
      ∀ v f bl (rec : Nat → MatRow), g.count ≠ 0 → viewOf r.vtype 1 r.regs.length 0 = some v → mulFormats v (some p) r.gf r.nb = some (f, bl) →
        p.d ∈ [1, 2, 4, 8, 16] → (∀ iv, (p.inv iv).length = p.d ∧ ∀ z ∈ p.inv iv, z.toNat % 16 < p.d) →
        g.first + g.count ≤ r.regs.length → 32 * c.cb.val + r.regs.length * p.d ≤ 256 → r.gm ≤ 128 → k.chest.Pairwise (fun a b => a.1 < b.1) →
        r.int = (v.fmt == .i8) →
        (∀ m, m < r.gm → s.readRecord b (g.gbase + BitVec.ofNat 64 (m * (64 + 4 * [0, 2, 4, 8].getD r.nb 8))) r.nb = .ok (rec m)) →
        let comp := fun (on : Bool) (fm : Fmt) (bl : Nat) (row : MatRow) (j i : Nat) =>
          let z := ((p.inv c.iv)[i]?).getD 0
          let at_ := j * p.d + if on then z.toNat % 16 else i
          let d := if bl = 0 ∨ v.fmt = .i8 then 0x807F else ((row.desc[at_ / bl]?).getD 0).toNat
          let val := fm.decode (d % 256) (d / 256 % 256) (bitsAt row.data (fm.sew * at_) fm.sew)
          if on && z.getLsbD 7 then val.flip else val
        let terms := fun (m n z : Nat) => (List.range (v.fmt.epr / p.d)).flatMap (fun j => (p.pairs z).map (fun q =>
          termVal q.2.2 (comp c.cg f bl (rec m) j q.1) (comp c.cr v.fmt v.bl ((r.regs[g.first + n]?).getD ⟨0, []⟩) j q.2.1)))
        let sum := fun (m n z : Nat) => if v.fmt = .i8 then BitVec.ofInt 64 (windowInt (terms m n z))
          else BitVec.ofNat 64 (windowSum v.rm c.sat (terms m n z)).1
        let hit := fun (m n z : Nat) => m < r.gm ∧ n < g.count ∧ z < p.d ∧ p.pairs z ≠ []
        let col := fun (n z : Nat) => 32 * c.cb.val + (g.first + n) * p.d + z
        ((∃ m n z, hit m n z ∧ bad (pairIdx c.q m (col n z))) → ∃ u : State, exec (.mmagGroupComplete cl) s = .next (u.matrixFault b .poison at_ none) ∧
          u = { s with clusters := u.clusters }) ∧
        ((∀ m n z, hit m n z → ¬bad (pairIdx c.q m (col n z))) → runs (fun t =>
          (∀ m n z, hit m n z → chestGet (t.clusters[cl]).chest c.q m (col n z) =
            ((⟨r.int, .rne, c.sat⟩ : MulMode).accumulate (old c.q m (col n z)) (sum m n z)).1) ∧
          ∀ (j : Fin 8) (m i : Nat), m < 128 → i < 256 → (∀ n z, hit m n z → ¬(j = c.q ∧ i = col n z)) →
            chestGet (t.clusters[cl]).chest j m i = old j m i) (fun _ => True)))

/-- 17 R285, R286: GLOAD replaces the slot's table by the one at its address; GSET replaces one entry or final map of it. A
header or an operand that the rules do not allow traps GRAVE and changes no table. 17 R290 to R292: GCMP writes a mask from
the verdicts of the elements' states; GFIN writes the flush digits of their states above the digits of the table and clears
the bits above; GSTATE.R reads GSV and GSTATE.W writes SEED and STATE of the body. -/
def Obligations.GraverTablesAndResults : Prop :=
  (∀ (s : State) (slot : Fin 4) (a b : XReg), s.me.kind = .thread →
    let grave := fun (u : State) (tval : Word) =>
      ({ u with me := { u.me with trap := { u.me.trap with gfault := BitVec.ofNat 20 (slot.val * 2 ^ 18) } } } : State).deliverAt
        .grave s.me.pc tval
    let only := fun (u t : State) (ah : List Ahead) (g : GTable) => t = { u with me := t.me } ∧
      t.me = { s.me.done 0 4 with seen := t.me.seen, ahead := ah, vec := { s.me.vec with gt := s.me.vec.gt.set slot.val (some g) slot.isLt } }
    let pick := fun (ms : List (Mapped × Nat)) (r : StoreRec) => r.mode != .early && s.me.orders .p0 0 (keysOf ms) r
    (∀ m1 m2, let va := s.rx a
      s.ReadyX [a] → va.toNat < 2 ^ 55 → va.toNat % 8 = 0 → s.xlateRange s.me.party .load va 8 = .ok m1 → s.badByte s.me.die m1 = none →
      s.Clear (pick m1) →
      let u := (s.drainGlob (pick m1)).orderLoad .p0 0 (keysOf m1)
      let ah := s.me.ahead.filter (Ahead.stays .p0 0 false (keysOf m1))
      let g := tableHead (u.loadParts .p0 0 m1)
      let n := g.ns * g.symbols
      (g.headOk = false → ∃ x, exec (.gload slot a) s =
        .next (grave { u with me := { s.me with seen := x, ahead := ah } } 0xFFFFFFFFFFFFFFFF)) ∧
      (g.headOk = true → (∀ x, ({ u with me := { s.me with seen := x, ahead := ah } } : State).xlateRange s.me.party .load (va + 8) (128 + 2 * n) = .ok m2) →
        u.badByte s.me.die m2 = none → u.Clear (pick m2) →
        let w := (u.drainGlob (pick m2)).orderLoad .p0 0 (keysOf m2)
        let bs := w.readParts (s.me.obs .p0) m2
        let half := fun (i : Nat) => BitVec.ofNat 16 (ofBytes ((bs.drop (2 * i)).take 2))
        let g' : GTable := { g with final := (List.range 64).map half, entry := (List.range n).map (fun i => half (64 + i)) }
        (∀ k, k < g.ns → (half k).toNat / 64 % 4 ≠ 3) → ∃ t, exec (.gload slot a) s = .next t ∧ only w t (ah.filter (Ahead.stays .p0 0 false (keysOf m2))) g')) ∧
    (s.ReadyX [a, b] →
      let x := (s.rx a).toNat
      let i := x % 4096
      let h := (s.rx b).setWidth 16
      (s.me.vec.gt[slot] = none → exec (.gset slot a b) s = .next (grave s 0xFFFFFFFFFFFFFFFF)) ∧
      ∀ g, s.me.vec.gt[slot] = some g → x < 2 ^ 16 → x / 2 ^ 12 % 8 = 0 →
        (x < 2 ^ 15 → i < g.ns * g.symbols → ∃ t, exec (.gset slot a b) s = .next t ∧ only s t s.me.ahead { g with entry := g.entry.set i h }) ∧
        (x < 2 ^ 15 → g.ns * g.symbols ≤ i → exec (.gset slot a b) s = .next (grave s (s.rx a))) ∧
        (2 ^ 15 ≤ x → i < 64 → i < g.ns → h.toNat / 64 % 4 ≠ 3 → ∃ t, exec (.gset slot a b) s = .next t ∧
          only s t s.me.ahead { g with final := g.final.set i h }) ∧
        (2 ^ 15 ≤ x → i < 64 → i < g.ns → h.toNat / 64 % 4 = 3 → exec (.gset slot a b) s = .next (grave s (s.rx b))))) ∧
  (∀ (s : State) (d b : VReg) (md m : MReg) (slot : Fin 4) (k : BitVec 3) (g : GTable), s.me.vec.gt[slot] = some g →
    let final := fun q : Nat => if q < g.ns then ((g.final[q]?).getD 0).toNat else 0
    let graver := fun v : VView => v.fmt.digits && !v.tile && v.bl == 0
    s.MaskSpec (.gcmp md slot k m) graver [] (fun _ => []) [m] false false
      (fun _ r e => (final (r.gsvAt e % 64) / 256 % 8 == k.toNat, 0)) md m ∧
    s.CellSpec (.gfin d slot m) (fun v => graver v && g.w == v.fmt.digitW) (fun v r => !(v.active none r m false).isEmpty) []
      (fun v => [⟨d, v.lmul, 64⟩]) [m] d 4 (fun _ => s)
      (fun v r e =>
        let f := final (r.gsvAt e % 64)
        let put := fun (j x : Nat) => if j < 64 / g.w then x % 2 ^ g.w * 2 ^ (g.w * j) else 0
        v.outcome r m false e (some (r.elem v d 64 e % 2 ^ (g.w * g.ndig) + (if f / 64 % 4 = 1 ∨ f / 64 % 4 = 2 ∨ f / 64 % 4 = 3 then put g.ndig (f % 8) else 0) +
          (if f / 64 % 4 = 2 then put (g.ndig + 1) (f / 8 % 8) else 0)))) none ∧
    s.CellSpec (.gstateR d) graver (fun v _ => v.live) [] (fun _ => []) [] d 4 (fun _ => s)
      (fun v r e => v.outcome r 0 false e (some (r.gsvAt e))) none ∧
    ∀ v, s.Vec v → graver v = true → aligned b v.lmul = true → s.ReadyV v [⟨b, v.lmul, 64⟩] [] →
      ∃ t, exec (.gstateW b) s = .next t ∧ t = { s with me := t.me } ∧
        t.me = { s.me with pc := s.me.pc + 4, vec := { s.me.vec with vbeg := 0, gsv := t.me.vec.gsv }, clock := t.me.clock } ∧
        ∀ e, e < 2048 → t.me.vec.gsvAt e = if v.vbeg ≤ e ∧ e < v.vl then
          s.me.vregs.elem v b 64 e % 64 + (if (s.me.vregs.elem v b 64 e).testBit 7 then 128 else 0) else s.me.vec.gsvAt e)

/-- 17 R287, R288: GRUN and GRUN1 run the slot's table over the digits of each active element: when every transition is
defined, an element holds the outputs at their digit positions and its GSV byte the last state. A chained table starts an
element in the state the active element before it ended in, or that GSV seeds. A pre-emption may fall between elements: those
before it are done, and VBEG names the next (R289). -/
def Obligations.GraverRuns : Prop :=
  ∀ (s : State) (d a b : VReg) (slot : Fin 4) (m : MReg) (v : VView) (g : GTable) (st : Nat → Nat → Nat), s.Vec v →
    let r := s.me.vregs
    let us := v.active none r m false
    let runs := fun (i : Instr) (binary : Bool) (src : List VReg) =>
      let pos := fun k : Nat => if g.msd then g.ndig - 1 - k else k
      let digit := fun (q : VReg) (e k : Nat) => r.elem v q 64 e / 2 ^ (g.w * pos k) % 2 ^ g.w
      let entry := fun (e k : Nat) => ((g.entry[st e k * g.symbols + (digit a e k + if binary then digit b e k * 2 ^ g.w else 0)]?).getD 0).toNat
      let result := fun e : Nat => ((List.range g.ndig).map (fun k => entry e k % 2 ^ g.w * 2 ^ (g.w * pos k))).sum
      let defined := fun l : List Nat =>
        (∀ e ∈ l, ∀ k, k < g.ndig → st e k < g.ns ∧ 2 ^ 15 ≤ entry e k ∧ entry e k / 8 % 64 < g.ns ∧ st e (k + 1) = entry e k / 8 % 64) ∧
        ∀ e ∈ l, st e 0 = if g.chain then (match (us.filter (fun j => decide (j < e))).getLast? with
          | some j => st j g.ndig
          | none => match ((List.range (min v.vbeg v.vl)).filter (fun j => r.mbit m j)).getLast? with
            | some j => r.gsvAt j % 64
            | none => if r.gsvAt e / 128 = 1 then r.gsvAt e % 64 else g.start) else g.start
      let states := fun (t : State) (l : List Nat) => t.me.flags = s.me.flags ∧
        ∀ e, e < 2048 → t.me.vec.gsvAt e = if e ∈ l then st e g.ndig % 256 else s.me.vec.gsvAt e
      v.fmt.digits = true → v.tile = false → v.bl = 0 → (∀ q ∈ d :: src, aligned q v.lmul = true) →
      s.me.vec.gt[slot] = some g → g.binary = binary → g.w = v.fmt.digitW → us ≠ [] →
      s.ReadyV v (src.map (fun q => ⟨q, v.lmul, 64⟩)) [m] → s.guarding d v.lmul = none →
      (s.me.quota = none → defined us → ∃ t, exec i s = .next t ∧ states t us ∧
        (s.modMe (fun c => { c with vec := { c.vec with gsv := t.me.vec.gsv } })).VecFrame t d v.lmul 4 ∧
        s.Elements t v d 64 (fun e => v.outcome r m false e (some (result e)))) ∧
      ∀ n k, s.me.quota = some n → us[n]? = some k → defined (us.take n) → ∃ t, exec i s = .next t ∧ states t (us.take n) ∧
        t.me.pc = s.me.pc ∧ t.me.quota = none ∧ t.me.vec.vbeg = BitVec.ofNat 32 k ∧ ∀ e ∈ us.take n, t.me.vec.elem v d 64 e = result e % 2 ^ 64
    runs (.grun d a b slot m) true [a, b] ∧ runs (.grun1 d a slot m) false [a]

/-- 10 R139, R140; 11 R158, R159, R161, R164: what each step of a pending store does to what observers read. The apply puts
its bytes last in coherence order at the home; visibility on a path, the first of which is its own once the stores before it
have performed, or on a die shows it there; the acknowledgement ends it; a loss of the acknowledgement, possible when a link
that carried the store failed or its home does not answer, counts in AKREC and leaves it applied or not. A step whose
condition does not hold changes nothing. -/
def Obligations.StoreEvents : Prop :=
  ∀ (s : State) (n : Nat) (r : StoreRec), s.Canonical → s.Numbered → s.store n = some r →
    let only := fun (t : State) => t = { s with mem := t.mem, stores := t.stores }
    let home := fun (t : State) => ∀ k, t.homeByte k = s.homeByte k
    let lands := fun (t : State) => (∀ c ∈ r.bytes, t.homeByte c.1 = r.put (s.homeByte c.1) c.2) ∧
      ∀ k, (∀ c ∈ r.bytes, c.1 ≠ k) → t.homeByte k = s.homeByte k
    let sole := fun (k : Nat) => ∀ q ∈ s.stores, q.id ≠ n → ∀ c ∈ q.bytes, c.1 ≠ k
    let shows := fun (t : State) (o : Observer) => ∀ c ∈ r.bytes, sole c.1 → t.viewByte o c.1 = r.put (Memory.get s.mem c.1) c.2
    let same := fun (t : State) (o : Observer) => ∀ k, (∀ c ∈ r.bytes, c.1 ≠ k) ∨ sole k → t.viewByte o k = s.viewByte o k
    let acks := r.alive = true ∧ r.applied = true ∧ r.home ≠ r.die ∧ r.onEveryDie = true ∧ s.homeUp r = true
    let may := r.alive && !r.applied && s.homeUp r && s.mayApply r
    let applies := fun (i : Instr) =>
      (may = true → ∃ t, exec i s = .next t ∧ only t ∧ lands t ∧ ∀ k, (∀ c ∈ r.bytes, c.1 ≠ k) → ∀ o, t.viewByte o k = s.viewByte o k) ∧
      (may = false → exec i s = .next s)
    (r.mode ≠ .glob → applies (.storeApply n) ∧ exec (.globalStoreApply n) s = .next s) ∧
    (r.mode = .glob → applies (.globalStoreApply n) ∧ exec (.storeApply n) s = .next s) ∧
    (∀ p, let i := Instr.storeVisibleToPath n p
      let acts := r.mode = .early ∧ r.alive = true ∧ (r.performed = true ∨ (p = r.path ∧ s.mayPerform r = true))
      (acts → ∃ t, exec i s = .next t ∧ only t ∧ (r.performed = true ∨ r.home ≠ r.die → home t) ∧
        (r.performed = false → r.home = r.die → lands t) ∧
        (∀ o, o.die ≠ r.die ∨ o.path ≠ p → same t o) ∧ ∀ o, o.die = r.die → o.path = p → shows t o) ∧
      (¬acts → exec i s = .next s)) ∧
    (∀ d, let i := Instr.storeVisibleOnDie n d
      let acts := r.mode = .early ∧ r.applied = true ∧ d ≠ r.die ∧ s.mayShow r d = true
      (acts → ∃ t, exec i s = .next t ∧ only t ∧ home t ∧
        (∀ o, o.die = r.die ∨ (o.die ≠ d ∧ r.home ≠ r.die) → same t o) ∧ ∀ o, o.die = d → shows t o) ∧
      (¬acts → exec i s = .next s)) ∧
    ((acks → ∃ t, exec (.storeAcknowledge n) s = .next t ∧ only t ∧ home t ∧ ∀ q ∈ t.stores, q.id = n → q.everywhere = true ∧ q.acked = true) ∧
      (¬acks → exec (.storeAcknowledge n) s = .next s)) ∧
    ∀ b, let i := Instr.ackLossDetection n b
      let acts := s.lossy r = true ∧ r.alive = true ∧ r.acked = false ∧ r.home ≠ r.die
      let count := fun (c : Context) => if s.counts c r then { c with sys := { c.sys with akrec := akrecNext c.sys.akrec } } else c
      (acts → ∃ t, exec i s = .next t ∧ t = { s with me := count s.me, others := s.others.map count, mem := t.mem, stores := t.stores } ∧
        (r.ctx ≠ none ∨ r.work ≠ none → r.reported = false → ∃ q ∈ t.stores, q.id = n ∧ q.lost = true) ∧
        (r.applied = true ∨ b = false ∨ s.mayApply r = false → home t) ∧
        (r.applied = false → b = true → s.mayApply r = true → lands t)) ∧
      (¬acts → exec i s = .next s)

/-- 19 R306, 11 R164, 06 R95, R96, 09 R126: a link goes down or up at both its ends, where a failure marks the stores it
carries, and a retransmission changes nothing; a write-back leaves the line no longer modified; an uncorrectable error
poisons a granule, 64 bits of a register, mask, shadow or latch, or a Chest pair; a corrected one is counted, saturating, and
a patrol scrub counts at most one of DRAM. 09 R136, R137: a sample that a monitor counts, for the two occupancies the length
of the queue, lowers MMIN, raises MMAX and joins the bin of its size, which saturates; one that it does not count changes
nothing. A write of MCTL claims a free slot and clears its results under CLEAR; a slot that another launch has enabled traps
PROT with the register number. The event MCTL_WRITE is the SWR at the pc that writes the value, and with any other
instruction there nothing. -/
def Obligations.LinksErrorsMonitors : Prop :=
  (∀ (s : State) (die : Fin 8),
    let links := fun (i : Instr) (p : Port) (on : Bool) (f : StoreRec → StoreRec) => ∃ t, exec i s = .next t ∧
      t = { s with dies := t.dies, stores := s.stores.map f } ∧
      ∀ d : Fin 8, t.dies[d] = { s.dies[d] with up := t.dies[d].up } ∧ ∀ q, (t.dies[d].up)[portIdx q] =
        if q = p ∧ (d = die ∨ d.val = die.val ^^^ portMask p) then on else (s.dies[d].up)[portIdx q]
    let counts := fun (t : State) (k : StoreKind) => ∀ d : Fin 8, t.dies[d] = { s.dies[d] with corr := t.dies[d].corr } ∧
      ∀ j : StoreKind, d ≠ die ∨ j ≠ k → (t.dies[d].corr)[storeKindIdx j] = (s.dies[d].corr)[storeKindIdx j]
    (∀ p, links (.linkFailure die p) p false (fun r => if s.carries die p r then { r with cut := true } else r) ∧
      links (.linkRecovery die p) p true id ∧ exec (.linkRetransmission die p) s = .next s) ∧
    (∀ (l : BitVec 45) d, s.modified.find? (fun p => p.1 == l.toNat) = some (l.toNat, d) →
      s.reachable (dieOf d) (homeOf (l.toNat * 128)) = true → ∃ t, exec (.lineWriteBack l) s = .next t ∧
        t = { s with modified := t.modified } ∧ ∀ p, p ∈ t.modified ↔ p ∈ s.modified ∧ p.1 ≠ l.toNat) ∧
    (∀ k, ∃ t, exec (.uncorrectableError (.mem k)) s = .next t ∧ t = { s with poison := t.poison } ∧
      ∀ j, t.poisoned j = true ↔ s.poisoned j = true ∨ j / 64 = k / 64) ∧
    (∀ r : XReg, ∃ t, exec (.uncorrectableError (.xreg s.me.uid r)) s = .next t ∧ t.me = { s.me with xpoison := t.me.xpoison } ∧
      ∀ q : XReg, t.me.xpoison.getLsbD q.val = (s.me.xpoison.getLsbD q.val || (q == r && q != 0))) ∧
    (∀ (r : VReg) (k : Nat), k < 256 → ∃ t, exec (.uncorrectableError (.vreg s.me.uid r k)) s = .next t ∧
      t.me = { s.me with vpoison := t.me.vpoison } ∧ ∀ p, p ∈ t.me.vpoison ↔ p ∈ s.me.vpoison ∨ p = (r, k)) ∧
    (∀ (c : Fin 64) (l : Fin 2) (k : Nat), k < 1536 → ∃ t, exec (.uncorrectableError (.latch c l k)) s = .next t ∧
      t = { s with clusters := t.clusters } ∧ t.clusters[c] = { s.clusters[c] with latchPoison := t.clusters[c].latchPoison } ∧
      ∀ p, p ∈ t.clusters[c].latchPoison ↔ p ∈ s.clusters[c].latchPoison ∨ p = (l.val, k)) ∧
    (∀ (r : VReg) (k : Nat), k < 128 → ∃ t, exec (.uncorrectableError (.shadow s.me.uid r k)) s = .next t ∧
      t.me = { s.me with shpoison := t.me.shpoison } ∧ ∀ p, p ∈ t.me.shpoison ↔ p ∈ s.me.shpoison ∨ p = (r, k)) ∧
    (∀ (r : MReg) (k : Nat), k < 512 → ∃ t, exec (.uncorrectableError (.mreg s.me.uid r k)) s = .next t ∧
      t.me = { s.me with mpoison := t.me.mpoison } ∧ ∀ p, p ∈ t.me.mpoison ↔ p ∈ s.me.mpoison ∨ (p = (r, k) ∧ r ≠ 0)) ∧
    (∀ (c : Fin 64) (i : Nat), i < 262144 → ∃ t, exec (.uncorrectableError (.chest c i)) s = .next t ∧
      t = { s with clusters := t.clusters } ∧ t.clusters[c] = { s.clusters[c] with chestPoison := t.clusters[c].chestPoison } ∧
      ∀ p, p ∈ t.clusters[c].chestPoison ↔ p ∈ s.clusters[c].chestPoison ∨ p = i) ∧
    (∀ k, ∃ t, exec (.correctedError die k) s = .next t ∧ t = { s with dies := t.dies } ∧ counts t k ∧
      ((t.dies[die].corr)[storeKindIdx k]).toNat = min (2 ^ 32 - 1) (((s.dies[die].corr)[storeKindIdx k]).toNat + 1)) ∧
    ∀ l, ∃ t, exec (.patrolScrub die l) s = .next t ∧ t = { s with dies := t.dies, freeCtr := s.freeCtr + 1 } ∧ counts t .dram ∧
      let old := ((s.dies[die].corr)[storeKindIdx .dram]).toNat
      let new := ((t.dies[die].corr)[storeKindIdx .dram]).toNat
      new = old ∨ new = min (2 ^ 32 - 1) (old + 1)) ∧
  (∀ (s : State) (cl : Fin 64) (k : Fin 4) (slot : Fin 4) (v : Word) (a : XReg),
    let slotOf := fun (u : State) (c : Fin 64) => (u.clusters[c]).mons[k]
    let keeps := fun (t : State) (c : Fin 64) => (∀ d : Fin 64, d ≠ c → t.clusters[d] = s.clusters[d]) ∧
      t.clusters[c] = { s.clusters[c] with mons := t.clusters[c].mons } ∧
      ∀ j : Fin 4, j ≠ k → (t.clusters[c].mons)[j] = (s.clusters[c].mons)[j]
    (s.monitorCounts cl k slot = false → exec (.monitorSample cl k slot v) s = .next s) ∧
    (s.monitorCounts cl k slot = true → ∃ t, exec (.monitorSample cl k slot v) s = .next t ∧ t = { s with clusters := t.clusters } ∧
      keeps t cl ∧
      let m := slotOf s cl
      let m' := slotOf t cl
      let shift := m.ctl.toNat / 256 % 32
      let source := m.ctl.toNat / 16 % 16
      ∃ x : Word, (source ≠ 3 → source ≠ 4 → x = v) ∧ (source = 4 → x = BitVec.ofNat 64 (s.clusters[cl]).mq.length) ∧
        (∀ c, source = 3 → ((s.clusters[cl]).slots[slot]).bind s.context = some c → x = BitVec.ofNat 64 c.vq.length) ∧
        m'.ctl = m.ctl ∧ m'.owner = m.owner ∧ m'.mmin.toNat = min m.mmin.toNat x.toNat ∧ m'.mmax.toNat = max m.mmax.toNat x.toNat ∧
        ∃ b : Fin 16, (b.val = 0 ↔ x.toNat < 2 ^ shift) ∧ (0 < b.val → 2 ^ (b.val - 1 + shift) ≤ x.toNat) ∧
          (b.val < 15 → x.toNat < 2 ^ (b.val + shift)) ∧ (m'.bins[b]).toNat = min (2 ^ 32 - 1) ((m.bins[b]).toNat + 1) ∧
          ∀ j : Fin 16, j ≠ b → m'.bins[j] = m.bins[j]) ∧
    let n : BitVec 11 := BitVec.ofNat 11 (0x100 + 16 * k.val)
    let m := slotOf s s.me.cl
    (s.ReadyX [a] → m.ctl.getLsbD 0 = false ∨ m.owner = some s.me.launch → ∃ t, exec (.swr n a) s = .next t ∧
      t = { s with me := s.me.done 0 4, clusters := t.clusters } ∧ keeps t s.me.cl ∧
      let m' := slotOf t s.me.cl
      m'.ctl = s.rx a &&& 0x71FF1 ∧ m'.owner = some s.me.launch ∧
      ((s.rx a).getLsbD 1 = true → m'.mmin = BitVec.allOnes 64 ∧ m'.mmax = 0 ∧ ∀ j : Fin 16, m'.bins[j] = 0) ∧
      ((s.rx a).getLsbD 1 = false → m'.mmin = m.mmin ∧ m'.mmax = m.mmax ∧ m'.bins = m.bins)) ∧
    (s.ReadyX [a] → m.ctl.getLsbD 0 = true → m.owner ≠ some s.me.launch →
      exec (.swr n a) s = .next (s.deliverAt .prot s.me.pc (BitVec.ofNat 64 (0x100 + 16 * k.val)))) ∧
    (∀ c, s.runnable = true → s.inBlock = false → encode (.swr n a) = some c → s.code = .ok c → s.rx a = v → exec (.mctlWrite k v) s = exec (.swr n a) s) ∧
    ((∀ b c, encode (.swr n b) = some c → s.code = .ok c → s.rx b ≠ v) → exec (.mctlWrite k v) s = .next s) ∧
    (s.runnable = false ∨ s.inBlock = true → exec (.mctlWrite k v) s = .next s))

/-- 18 R297; 15 R256, R260: when the host answers a page request, a context that waited runs on at its faulting instruction
and a copy or collective goes on; when the host refuses, the context takes PAGE with the TVAL of its instruction, the copy
stops with PAGE pending for its thread, and the collective ends with FAULT. A number that names no request changes nothing.
15 R259, R260; 14 R225: a collective that runs is decided: an undefined communicator gives code 3; with every member here,
their descriptors well-formed and in agreement, and their sources readable, each member's ending is DONE with its result: the
reduction of every element over the ranks by the tree, its own part of that, the sources one after another, the root's, or
nothing. Then DST is written, everywhere, and then the completion word of code and rank to STATUS, and the collective is
over. A lost member ends it with code 2 and the member's rank; whether a remote one is lost, and which, is free (log entry
31), and with every member here none is. One that waits or is held does nothing. -/
def Obligations.PageAnswersAndCollectiveEnds : Prop :=
  (∀ (s : State) (n : Nat), (s.pageReq n = none → exec (.pagePresent n) s = .next s ∧ exec (.pageFail n) s = .next s) ∧
    ∀ q, s.pageReq n = some q →
      let reqs := s.pageReqs.filter (fun p => p.id != n)
      let onw := fun (w : WorkState) => if w = .waitingPage n then .running else w
      (q.ctx = some s.me.uid → ∃ t, exec (.pagePresent n) s = .next t ∧ t.pageReqs = reqs ∧ t.me = { s.me with status := t.me.status } ∧
        (s.me.status = .waitingPage → t.me.status = .running) ∧ (s.me.status = .outForPage → t.me.status = .out) ∧
        (s.me.status ≠ .waitingPage → s.me.status ≠ .outForPage → t.me.status = s.me.status)) ∧
      (∀ w, q.ctx = none → q.work = some w → exec (.pagePresent n) s = .next { s with
        pageReqs := reqs
        copies := s.copies.map (fun c => if c.id = w then { c with st := onw c.st } else c)
        colls := s.colls.map (fun c => if c.id = w then { c with st := onw c.st } else c) }) ∧
      (q.ctx = some s.me.uid → (∀ c ∈ s.others, c.uid ≠ s.me.uid) → s.me.status = .waitingPage → s.me.TakesTraps →
        (∀ b, s.me.vec.blk = some b → b.held = true → b.grp = none) →
        exec (.pageFail n) s = .next { s with pageReqs := reqs, me := { s.me with
          status := .running
          pc := s.me.trap.tvec
          trap := { s.me.trap with epc := s.me.pc, blk := s.me.vec.blk.any (fun b => !b.held), code := 4, tval := q.tval, handling := true,
                                   ldx := s.me.ldx, ldv := s.me.vec.ldv }
          vec := { s.me.vec with blk := s.me.vec.blk.map (fun b => { b with grp := none, held := true }) }
          ahead := []
          quota := none
          probed := []
          clock := { s.me.clock with scalar := s.me.clock.scalar + 1 } } }) ∧
      (∀ w c, q.ctx = none → q.work = some w → s.copy w = some c → c.owner = some s.me.uid → s.me.status ≠ .exited →
        ∃ t, exec (.pageFail n) s = .next t ∧ t.pageReqs = reqs ∧
          t.copies = s.copies.map (fun d => if d.id = w then { d with st := .stopped .page q.va } else d) ∧
          t.me = { s.me with tags := { s.me.tags with faults := s.me.tags.faults ++ [⟨c.tag.val, .page, q.va⟩] } }) ∧
      ∀ w c, q.ctx = none → q.work = some w → s.copy w = none → s.coll w = some c → c.wrote = false →
        ∃ t, exec (.pageFail n) s = .next t ∧ t.pageReqs = reqs ∧
          ∀ d ∈ t.colls, d.id = w → d.st = .running ∧ d.ending.map (fun e => e.code) = some 4) ∧
  (∀ (s : State) (n : Nat) (c : Coll), s.coll n = some c →
    let held := s.engineHeld c.fn (some c.launch) c.die .collective
    let i := Instr.collComplete n
    let mine := fun (f : Coll → Coll) (l : List Coll) => l.map (fun d => if d.id = n then f d else d)
    let mem := fun (t u : State) => t.mem = u.mem ∧ t.stores = u.stores
    let status := fun (e : CollEnd) => ∀ ms, c.status.toNat < 2 ^ 55 → c.status.toNat % 8 = 0 → s.xlateLong c.party .store c.status 8 = .ok ms →
      ∃ t, exec i s = .next t ∧ t.coll n = none ∧ t.me = s.me ∧
        mem t ((s.storeParts none c.fn c.die .p4 0 false c.status .early none none ms (toBytes 8 (e.rank.toNat * 2 ^ 32 + e.code % 2 ^ 32))).tagStores
          s.nextId n)
    let here := ∀ cm ms, s.comm c.fn c.comm = some cm → s.commMembers c.fn cm = .ok ms → ∀ m ∈ ms, m.1 = s.fw.dev.toNat
    let loses := ∃ r cm ms m, s.comm c.fn c.comm = some cm ∧ s.commMembers c.fn cm = .ok ms ∧ ms[r]? = some m ∧ m.1 ≠ s.fw.dev.toNat ∧
      exec i s = .next { s with freeCtr := s.freeCtr + 1, colls := mine (fun d => { d with lost := some r }) s.colls }
    let goes :=
      (c.ending = none → s.comm c.fn c.comm = none → ∃ t, exec i s = .next t ∧ t = { s with freeCtr := s.freeCtr + 1, colls := t.colls } ∧
        ∀ d ∈ t.colls, d.id = n → d.ending.map (fun e => (e.code, e.rank)) = some (3, 0xFFFFFFFF)) ∧
      (∀ cm ms f, c.ending = none → s.comm c.fn c.comm = some cm → s.tick.commMembers c.fn cm = .ok ms → (∀ m ∈ ms, m.1 = s.fw.dev.toNat) →
        Fmt.ofCode c.fmt.toNat = some f → c.wellFormed ms.length = true → ∀ (ds : List Coll) (data : List (List Byte)),
        s.peers c ms = ds.map some → c ∈ ds → ds.Nodup → (ds.map (fun d => d.id)).Nodup → (∀ d ∈ ds, d.wellFormed ms.length = true ∧ d.agrees c = true) →
        data.length = ds.length → (∀ j d, ds[j]? = some d → ∃ u : State, u = { s with freeCtr := u.freeCtr } ∧
          u.loadLong d.obs d.party d.src (c.size * c.srcElems ms.length j) = .ok (data.getD j [])) →
        let elt := fun (l : List Byte) (j : Nat) => ofBytes ((l.drop (f.sew / 8 * j)).take (f.sew / 8))
        let sum := fun (j : Nat) => toBytes (f.sew / 8) (reduceRanks f c.red.toNat (data.map (fun l => elt l j)))
        let result := fun (rank : Nat) => match c.op.toNat with
          | 0 => (List.range c.count).flatMap sum
          | 1 => (List.range c.count).flatMap (fun j => sum (rank * c.count + j))
          | 2 => data.flatten
          | 3 => (data[c.root]?).getD []
          | _ => []
        ∃ t, exec i s = .next t ∧ t = { s with freeCtr := t.freeCtr, colls := t.colls } ∧ ∀ (j : Nat) (d : Coll), ds[j]? = some d →
          ∃ d' ∈ t.colls, d' = { d with ending := some ⟨1, 0xFFFFFFFF, result j, false⟩ }) ∧
      ∀ e, c.ending = some e →
        (c.wrote = true → status e) ∧
        (∀ ms, c.wrote = false → e.loose = false → s.xlateLong c.party .store c.dst e.bytes.length = .ok ms →
          let mine := fun r : StoreRec => r.work == some n
          let u := (s.storeParts none c.fn c.die .p4 0 false c.dst .early none none ms e.bytes).tagStores s.nextId n
          ∃ t d, exec i s = .next t ∧ t.coll n = some d ∧ d = { c with wrote := true } ∧ t.stores = ((u.loseUnreachable mine).drainAll mine).stores ∧
            t.mem = ((u.loseUnreachable mine).drainAll mine).mem)
    (c.st ≠ .running ∨ held = true → exec i s = .next s) ∧
    (c.st = .running → held = false →
      (∀ r, c.lost = some r →
        (c.ending = none → exec i s = .next { s with colls := mine (fun d => { d with ending := some ⟨2, BitVec.ofNat 32 r, [], true⟩ }) s.colls }) ∧
        (∀ e, c.ending = some e → c.wrote = true → status ⟨2, BitVec.ofNat 32 r, e.bytes, true⟩)) ∧
      (c.lost = none → (loses ∨ goes) ∧ (here → goes))))

/-- 15 R255, 05 R81, 10 R141: a copy that runs reads a row's source ahead and writes what it has read at its destination on
P3; which row goes on, how far it reads and how large a piece is are free (log entry 33). With every byte written it
completes: its stores are visible on every path of its die, or for a queue entry everywhere, and its tag sets or its entry is
done. A copy that waits for a page, whose engine is held, or before which one of its cluster has still to start does nothing.
-/
def Obligations.CopySteps : Prop :=
  ∀ (s : State) (n : Nat) (c : Copy), s.copy n = some c →
    let die := dieOfCl c.cl
    let goes := c.st = .running ∧ s.engineHeld c.fn c.launch die .copy = false ∧ s.mayStart c = true
    ((∃ r, c.st = .waitingPage r) ∨ (c.st = .running ∧ ¬goes) → exec (.copyPiece n) s = .next s) ∧
    (goes → c.done < c.total → ∃ want r, 0 < want ∧ ((∃ j, j < c.rows ∧ (c.row j).done < c.rbytes) → r < c.rows ∧ (c.row r).done < c.rbytes) ∧
      let q := c.row r
      (q.ahead = [] → ∀ o bs, s.tick.copyOffset c c.sidx c.spitch r = .ok o →
        s.tick.readMarked c.obs c.party (c.src + o + BitVec.ofNat 64 q.done) (min want (c.rbytes - q.done)) = .ok bs →
        ∃ t d, exec (.copyPiece n) s = .next t ∧ t = { s with freeCtr := s.freeCtr + 1, copies := t.copies } ∧ t.copy n = some d ∧
          t.copies.filter (fun x => x.id != n) = s.copies.filter (fun x => x.id != n) ∧
          d = { c with parts := d.parts } ∧ d.row r = ⟨r, q.done, bs⟩ ∧ ∀ j, j ≠ r → d.row j = c.row j) ∧
      (q.ahead ≠ [] → q.done + q.ahead.length = c.rbytes → c.wrote = [] → ∀ o ms,
        s.tick.copyOffset c c.didx c.dpitch r = .ok o →
        let bs := q.ahead.take want
        let va := c.dst + o + BitVec.ofNat 64 q.done
        s.tick.probeStore c.party va bs.length = .ok ms → ∃ t d, exec (.copyPiece n) s = .next t ∧ t.me = s.me ∧ t.copy n = some d ∧
          (let u := (s.storeParts none c.fn die .p3 0 false va .early none none ms (bs.map (fun b => b.1))).tagStores s.nextId n
           t.mem = u.mem ∧ t.stores = u.stores) ∧
          d.done = c.done + bs.length ∧ d.row r = ⟨r, q.done + bs.length, q.ahead.drop bs.length⟩ ∧ ∀ j, j ≠ r → d.row j = c.row j)) ∧
    (c.st ≠ .running ∨ c.done < c.total → exec (.copyComplete n) s = .next s) ∧
    (c.st = .running → c.total ≤ c.done → s.Clear (fun r => r.work == some n) →
      (c.owner = some s.me.uid → ∃ t, exec (.copyComplete n) s = .next t ∧ t.copy n = none ∧
        t.me = { s.me with tags := { s.me.tags with
          ctags := s.me.tags.ctags ||| (1#64 <<< c.tag.val), held := s.me.tags.held &&& ~~~(1#64 <<< c.tag.val),
          ended := s.me.tags.ended ++ [(c.tag.val, n)] } } ∧
        ∀ r ∈ t.stores, r.work = some n → r.visibleAll r.die = true) ∧
      ∀ q e, c.owner = none → c.entry = some (q, e) → ∃ t, exec (.copyComplete n) s = .next t ∧ t.copy n = none ∧ t.me = s.me ∧
        (∀ r ∈ t.stores, r.work = some n → r.everywhere = true ∧ r.acked = true) ∧ ∀ k ∈ (t.queue q).ents, k.seq = e → k.done = true)

/-- 07 R104, R105, R110; 19 R308; 09 R128: a write to a queue register goes by the function that owns the queue. QTAIL only
moves forward, by less than 2^31; QCTL sets EN, PRIO and WEIGHT, of which 0 counts as 1, and EN only on a die out of reset;
QSTAT restarts the queue; QBASE, QHEAD and QCOMPL are written while EN is 0. A limit, an address-space root or a mailbox word
is written half by half, and a wide write is two halves. Nothing is written while D0 is in reset or a reset of the function
waits to be read (19 R312, R313; log entry 44). 19 R307, R308, R313; 07 R104; 08 R122: what the host reads of BAR0 is told to
it: a queue's registers to the function that owns it, ASROOT, ASGEN and DONE, the limits, the mailbox, and zero elsewhere.
The PF reads the FLR-done bit, which completes the reset (log entry 44), and assigns queues, clusters and the limits of
engine classes (log entry 18). -/
def Obligations.HostRegisterWrites : Prop :=
  (∀ (s : State) (fn : Fin 256) (q : Fin 8192) (v : BitVec 32),
    let k := s.queue q.val
    let sets := fun (i : Instr) (k' : Queue) => ∃ t, exec i s = .next t ∧ t.queue q.val = k' ∧
      (∀ j, j ≠ q.val → t.queue j = s.queue j) ∧ t = { s with queues := t.queues }
    let at_ := fun (off : Nat) => Instr.mmioRegisterWrite fn (BitVec.ofNat 20 (64 * q.val + off)) (v.setWidth 64) false
    let ahead := (v - k.qtail).toNat
    let up := (s.dies[(0 : Fin 8)]).status = .present ∧ (s.fnRec fn).flrDone = false
    (¬up → ∀ i ∈ [Instr.qtailWrite fn q v, .qctlWrite fn q v, .qstatClear fn q, at_ 0, .asshootWrite fn 0 v.toNat], exec i s = .next s) ∧
    (k.owner ≠ fn → ∀ i ∈ [Instr.qtailWrite fn q v, .qctlWrite fn q v, .qstatClear fn q, at_ 0, at_ 12, at_ 16], exec i s = .next s) ∧
    (up → k.owner = fn →
      (1 ≤ ahead → ahead < 2 ^ 31 → sets (.qtailWrite fn q v) { k with qtail := v }) ∧
      (ahead = 0 ∨ 2 ^ 31 ≤ ahead → exec (.qtailWrite fn q v) s = .next s) ∧
      (k.head = none → ∃ k' : Queue, sets (.qctlWrite fn q v) k' ∧
        k'.en = (v.getLsbD 0 && decide ((s.dies[queueDie q.val]).status = .present)) ∧ k'.prio.toNat = v.toNat / 2 % 4 ∧
        k'.weight.toNat = max 1 (v.toNat / 256 % 256) ∧ k'.fresh = (k.fresh || (k'.en && !k.en)) ∧
        k' = { k with en := k'.en, prio := k'.prio, weight := k'.weight, fresh := k'.fresh }) ∧
      (k.head = none → (∀ c ∈ s.copies, c.stoppedOf q.val = false) →
        sets (.qstatClear fn q) { k with stop := false, reason := 0, sseq := 0 }) ∧
      (k.en = true → ∀ i ∈ [at_ 0, at_ 4, at_ 12, at_ 16, at_ 20], sets i k) ∧
      (k.en = false → sets (at_ 12) { k with qhead := v } ∧
        (∃ w : Word, sets (at_ 0) { k with qbase := w } ∧ w.setWidth 32 = v ∧ w.extractLsb' 32 32 = k.qbase.extractLsb' 32 32) ∧
        (∃ w : Word, sets (at_ 4) { k with qbase := w } ∧ w.extractLsb' 32 32 = v ∧ (w.setWidth 32 : BitVec 32) = k.qbase.setWidth 32) ∧
        (∃ w : Word, sets (at_ 16) { k with qcompl := w } ∧ w.setWidth 32 = v ∧ w.extractLsb' 32 32 = k.qcompl.extractLsb' 32 32) ∧
        ∃ w : Word, sets (at_ 20) { k with qcompl := w } ∧ w.extractLsb' 32 32 = v ∧ (w.setWidth 32 : BitVec 32) = k.qcompl.setWidth 32)) ∧
    (up → ∀ sp : Fin 256, s.spaceBusy fn sp = false → ∀ w : Word, ∃ t,
      exec (.mmioRegisterWrite fn (BitVec.ofNat 20 (0x80000 + 32 * sp.val)) w true) s = .next t ∧
        t.asRec fn sp = { s.asRec fn sp with root := w }) ∧
    (up → ∀ i : Fin 4, ∃ t, exec (.mmioRegisterWrite fn (BitVec.ofNat 20 (0x82010 + 4 * i.val)) (v.setWidth 64) false) s = .next t ∧
      ((t.fnRec fn).tenant.lim)[i] = v ∧ ∀ j : Fin 4, j ≠ i → ((t.fnRec fn).tenant.lim)[j] = ((s.fnRec fn).tenant.lim)[j]) ∧
    (up → ∀ i : Fin 4, ∃ t, exec (.mmioRegisterWrite fn (BitVec.ofNat 20 (0x82000 + 4 * i.val)) (v.setWidth 64) false) s = .next t ∧
      ((t.fnRec fn).llim)[i] = v ∧ ∀ l ∈ t.launches, l.fn = fn → l.budget.lim[i] = v) ∧
    (up → ∀ (k : Fin 512) (w : Word), ∃ t, exec (.mmioRegisterWrite fn (BitVec.ofNat 20 (0xA0000 + 8 * k.val)) w true) s = .next t ∧
      Assoc.get 0 (t.fnRec fn).mailbox k.val = w)) ∧
  (∀ (s : State) (fn sp : Fin 256) (q : Fin 8192) (off : Nat),
    let k := s.queue q.val
    let r := s.asRec fn sp
    let up := fun f : Fin 256 => (s.dies[(0 : Fin 8)]).status = .present ∧ (s.fnRec f).flrDone = false
    let low := fun w : Word => (w.setWidth 32 : BitVec 32)
    let high := fun w : Word => w.extractLsb' 32 32
    (¬up fn → ∀ wide, s.hostRead fn off wide = s) ∧
    (up fn → s.hostRead fn off false = { s with notes := s.notes ++ [.mmio fn off ((s.mmioRead fn off).setWidth 64)] } ∧
      (off % 8 = 0 → s.hostRead fn off true = { s with notes := s.notes ++ [.mmio fn off (s.mmioRead fn (off + 4) ++ s.mmioRead fn off)] })) ∧
    (k.owner = fn → ((List.range 16).map (fun j => s.mmioRead fn (64 * q.val + 4 * j))) =
      [low k.qbase, high k.qbase, k.qtail, k.qhead, low k.qcompl, high k.qcompl,
        BitVec.ofNat 32 (k.en.toNat + 2 * k.prio.toNat + 256 * k.weight.toNat), 0,
        BitVec.ofNat 32 (k.stop.toNat + 16 * k.reason.toNat), k.sseq, 0, 0, 0, 0, 0, 0]) ∧
    (k.owner ≠ fn → ∀ j < 64, s.mmioRead fn (64 * q.val + j) = 0) ∧
    ((List.range 8).map (fun j => s.mmioRead fn (0x80000 + 32 * sp.val + 4 * j)) =
      [low r.root, high r.root, r.gen, 0, 0, 0, BitVec.ofNat 32 r.done.toNat, 0]) ∧
    (∀ i : Fin 4, s.mmioRead fn (0x82000 + 4 * i.val) = (s.fnRec fn).llim[i] ∧
      s.mmioRead fn (0x82010 + 4 * i.val) = (s.fnRec fn).tenant.lim[i]) ∧
    (∀ j : Fin 512, s.mmioRead fn (0xA0000 + 8 * j.val) = low (Assoc.get 0 (s.fnRec fn).mailbox j.val) ∧
      s.mmioRead fn (0xA0004 + 8 * j.val) = high (Assoc.get 0 (s.fnRec fn).mailbox j.val)) ∧
    ((0x82020 ≤ off ∧ off < 0x83000) ∨ (0x93000 ≤ off ∧ off < 0xA0000) ∨ 0xA1000 ≤ off → s.mmioRead fn off = 0) ∧
    (up 0 → (s.readFlr fn).notes = s.notes ++ [.flrDone fn (s.fnRec fn).flrDone] ∧ ((s.readFlr fn).fnRec fn).flrDone = false ∧
      (k.en = false → k.ents = [] → (s.assign (.queue q fn)).queue q.val = { k with owner := fn } ∧
        ∀ j, j ≠ q.val → (s.assign (.queue q fn)).queue j = s.queue j) ∧
      (k.en = true ∨ k.ents ≠ [] → s.assign (.queue q fn) = s) ∧
      (∀ set, ((s.assign (.clusters fn set)).fnRec fn).clusters = set) ∧
      ∀ (die : Fin 8) (cls : EngineClass) (i : Fin 4) (v : BitVec 32), let t := s.assign (.engine die cls i v)
        let b' := (t.dies[die]).engines[engineIdx cls]
        let b := (s.dies[die]).engines[engineIdx cls]
        b'.lim[i] = v ∧ b'.used = b.used ∧ b'.acc = b.acc ∧ (∀ j : Fin 4, j ≠ i → b'.lim[j] = b.lim[j]) ∧
          ∀ d : Fin 8, d ≠ die → t.dies[d] = s.dies[d]))

/-- 08 R121, R123: a write of ASSHOOT advances ASGEN, clears DONE and drops from every slice the entries of its pages that
are the space's or global; DONE sets once no access that used one is outstanding (which accesses those are, log entry 14). A
fill places the leaf of a walk in flight in the slice of its address while the generations the walk recorded still hold: its
space's, or for a global page those of every space of the function; otherwise the fill is discarded and the walk starts
again. 08 R124, R113: a load gives an empty key slot other than 0, with its data key and its tweak key, to a function; a
clear empties the slot after the lines that lie under its keys have been written back; a release clears every slot of a
function and drops its translations. -/
def Obligations.TranslationsAndKeys : Prop :=
  (∀ (s : State) (fn sp : Fin 256) (v : Word) (cl : Fin 64) (gen : BitVec 32),
    let r := s.asRec fn sp
    let first := v.toNat / 2 ^ 16 % 2 ^ 39
    let hit := fun (t : TlbEntry) => t.fn = fn ∧ (t.sp = sp ∨ field t.ent.toNat 6 1 = 1) ∧
      (v.toNat % 2 ^ 16 = 0 ∨ ∃ p, first ≤ p ∧ p < first + v.toNat % 2 ^ 16 ∧ t.page = if t.big then p / 2 ^ 13 else p)
    let waits := ∃ u ∈ s.stores, u.id ∈ r.pending ∧ u.performed = false ∧ u.alive = true
    (s.hostUp fn = true → ∃ t, exec (.asshootWrite fn sp v) s = .next t ∧
      t.asRec fn sp = ⟨r.root, r.gen + 1, v, false, (t.asRec fn sp).pending⟩ ∧ (∀ n ∈ r.pending, n ∈ (t.asRec fn sp).pending) ∧
      (∀ u ∈ s.stores, u.fn = fn → u.performed = false → u.alive = true → s.spaceOf u = some sp →
        (v.toNat % 2 ^ 16 = 0 ∨ (first ≤ u.va.toNat / 2 ^ 16 % 2 ^ 39 ∧ u.va.toNat / 2 ^ 16 % 2 ^ 39 < first + v.toNat % 2 ^ 16)) →
        u.id ∈ (t.asRec fn sp).pending) ∧
      ∀ (c : Fin 64) e, e ∈ t.clusters[c].tlb ↔ e ∈ s.clusters[c].tlb ∧ ¬hit e) ∧
    (waits → exec (.shootDownDone fn sp) s = .next s) ∧
    (¬waits → ∃ t, exec (.shootDownDone fn sp) s = .next t ∧ t.asRec fn sp = { r with done := true, pending := [] } ∧
      t = { s with fns := t.fns }) ∧
    ((∀ w ∈ (s.clusters[cl]).walks, ¬(w.fn = fn ∧ w.sp = sp ∧ w.va = v ∧ genIn w.gens sp.val = gen)) →
      exec (.pageWalkFill cl fn sp v gen) s = .next s) ∧
    ∀ w before after, (s.clusters[cl]).walks = before ++ w :: after → w.fn = fn → w.sp = sp → w.va = v → genIn w.gens sp.val = gen →
      (∀ u ∈ before, ¬(u.fn = fn ∧ u.sp = sp ∧ u.va = v ∧ genIn u.gens sp.val = gen)) →
      let global := ∃ p, w.found = some p ∧ field p.2.toNat 6 1 = 1
      let stands := (¬global ∧ gen = r.gen) ∨ (global ∧ ∀ p ∈ (s.fnRec fn).sps, genIn w.gens p.1 = p.2.gen)
      ∃ t, exec (.pageWalkFill cl fn sp v gen) s = .next t ∧ t = { s with clusters := t.clusters } ∧
        (∀ d : Fin 64, d ≠ cl → t.clusters[d] = s.clusters[d]) ∧
        t.clusters[cl] = { s.clusters[cl] with tlb := t.clusters[cl].tlb, walks := t.clusters[cl].walks } ∧
        (¬stands → t.clusters[cl].tlb = s.clusters[cl].tlb ∧ ∃ w', w' ∈ t.clusters[cl].walks ∧ w'.fn = fn ∧ w'.sp = sp ∧ w'.va = v ∧
          (∀ p ∈ (s.fnRec fn).sps, (p.1, p.2.gen) ∈ w'.gens) ∧
          w'.found = ((s.walk ⟨fn, sp, none, cl, false⟩ v.toNat).toOption).map (fun p => (p.1, BitVec.ofNat 64 p.2))) ∧
        (stands → t.clusters[cl].walks = before ++ after ∧
          (w.found = none → t.clusters[cl].tlb = s.clusters[cl].tlb) ∧
          ∀ big e, w.found = some (big, e) →
            (∃ f ∈ t.clusters[cl].tlb, f.slice.val = v.toNat / 2 ^ 16 % 8 ∧ f.fn = fn ∧ f.sp = sp ∧ f.big = big ∧
              f.page = (if big then v.toNat / 2 ^ 29 else v.toNat / 2 ^ 16) ∧ f.ent = e) ∧
            ∀ f ∈ t.clusters[cl].tlb, f ∈ s.clusters[cl].tlb ∨ (f.fn = fn ∧ f.sp = sp ∧ f.ent = e))) ∧
  (∀ (s : State) (fn : Fin 256) (k : BitVec 11) (data tweak : BitVec 256),
    let used := ∃ p ∈ s.keys, p.slot = k.toNat
    (k = 0 ∨ used → exec (.keyLoad fn ⟨k, data, tweak⟩) s = .next s) ∧
    (k ≠ 0 → ¬used → exec (.keyLoad fn ⟨k, data, tweak⟩) s = .next { s with keys := s.keys ++ [⟨k.toNat, fn.val, data, tweak⟩] }) ∧
    (∃ t, exec (.keyClear k) s = .next t ∧ t = { s with keys := t.keys, modified := t.modified } ∧
      (∀ p, p ∈ t.keys ↔ p ∈ s.keys ∧ p.slot ≠ k.toNat) ∧
      ∀ p, p ∈ t.modified ↔ p ∈ s.modified ∧ ∀ u ∈ s.lineKeys, u.1 / 8 = p.1 → u.2 ≠ none → u.2 ≠ s.slotKey k.toNat) ∧
    ∃ t, exec (.keyRelease fn) s = .next t ∧ t = { s with keys := t.keys, modified := t.modified, clusters := t.clusters } ∧
      (∀ p ∈ t.keys, p ∈ s.keys ∧ p.owner ≠ fn.val) ∧
      ∀ (c : Fin 64) e, e ∈ t.clusters[c].tlb ↔ e ∈ s.clusters[c].tlb ∧ e.fn ≠ fn)

/-- 07 R105, R106, R108 to R111: the front end reads the next entry of a queue that runs: a malformed one stops it with the
reason and SEQ = QHEAD + 1, a launch waits at the head, and any other starts when its queue is chosen, which moves QHEAD and
NEXT. A wait ends when its condition holds and a signal stores or adds its value, or either stops its queue with REASON 3.
Completion writes the SEQ of the last of the completed entries at the front, each of which interrupts the host if it asks to.
-/
def Obligations.QueueEntries : Prop :=
  ∀ (s : State) (q : Fin 8192) (n : Nat),
    let k := s.queue q.val
    let die := queueDie q.val
    let ready := k.available = true ∧ k.head = none ∧ s.fnHeld k.owner = false
    let stops := fun (t : State) (r : BitVec 4) (e : BitVec 32) => (t.queue q.val).stop = true ∧ (t.queue q.val).reason = r ∧
      (t.queue q.val).sseq = e
    (k.available = false ∨ k.head ≠ none ∨ s.fnHeld k.owner = true → exec (.queueEntryRead q) s = .next s) ∧
    (∀ r, ready → s.nextRead q.val = .error r → ∃ t, exec (.queueEntryRead q) s = .next t ∧ stops t r (k.qhead + 1) ∧
      t = { s with queues := t.queues }) ∧
    (∀ bs, ready → s.nextRead q.val = .ok bs → entryType bs = 1 → ∃ t l, exec (.queueEntryRead q) s = .next t ∧
      t.launches = s.launches ++ [l] ∧ l.pk = packetOf bs ∧ l.stage = .waiting ∧ l.fn = k.owner ∧ l.queue = q.val ∧ l.seq = entrySeq bs ∧
      (t.queue q.val).head.map (fun h => h.launch) = some l.id ∧ (t.queue q.val).qhead = k.qhead ∧ t.me = s.me) ∧
    (∀ bs, ready → s.nextRead q.val = .ok bs → entryType bs ≠ 1 → s.chosenQueue = some q.val →
      ∃ t e, exec (.queueEntryRead q) s = .next t ∧ (t.queue q.val).qhead = entrySeq bs ∧ t.me = s.me ∧
        (t.queue q.val).nextAt.toNat = fieldOf bs 0 8 ∧ (t.queue q.val).ents = k.ents ++ [e] ∧ e.seq = entrySeq bs ∧
        (entryType bs = 2 → fieldOf bs 32 8 ≠ 0 → ∃ c, t.copies = s.copies ++ [c] ∧ c.entry = some (q.val, e.seq) ∧ c.owner = none ∧
          c.src.toNat = fieldOf bs 16 8 ∧ c.dst.toNat = fieldOf bs 24 8 ∧ c.total = fieldOf bs 32 8)) ∧
    (∀ bs, ready → s.nextRead q.val = .ok bs → entryType bs ≠ 1 → s.chosenQueue ≠ some q.val → exec (.queueEntryRead q) s = .next s) ∧
    ∀ e, s.entry n = some (q.val, e) →
      let marks := fun (t : State) => ∀ d ∈ (t.queue q.val).ents, d.seq = e.seq → d.done = true
      (∀ a v mask cond, e.kind = .wait a v mask cond → e.done = false → s.fnHeld k.owner = false →
        (∀ bs, s.frontLoad k.owner die a 8 = .ok bs →
          let x := BitVec.ofNat 64 (ofBytes bs) &&& mask
          let holds := if cond = 0 then x = v else if cond = 1 then x ≠ v else if cond = 2 then v.toNat ≤ x.toNat else x.toNat < v.toNat
          (holds → ∃ t, exec (.waitOnValueCheck n) s = .next t ∧ marks t ∧ t = { s with queues := t.queues }) ∧
          (¬holds → exec (.waitOnValueCheck n) s = .next s)) ∧
        ∀ c, s.frontLoad k.owner die a 8 = .error c → ∃ t, exec (.waitOnValueCheck n) s = .next t ∧ marks t ∧ stops t 3 e.seq) ∧
      (∀ a v add, e.kind = .signal a v add → e.done = false → s.fnHeld k.owner = false →
        (∀ m, s.frontStore k.owner die a 8 = .ok m → (add = true → s.anyPoison m.key 8 = false) → s.Canonical → m.key % 8 = 0 →
          let u := s.applyFor die m.key 8
          let old := ofBytes (u.readHome m.ki m.key 8)
          ∃ t, exec (.signalEntry n) s = .next t ∧ marks t ∧
            ofBytes (t.readHome m.ki m.key 8) = if add then (old + v.toNat) % 2 ^ 64 else v.toNat) ∧
        (∀ m, s.frontStore k.owner die a 8 = .ok m → add = true → s.anyPoison m.key 8 = true →
          ∃ t, exec (.signalEntry n) s = .next t ∧ marks t ∧ stops t 3 e.seq ∧ t = { s with queues := t.queues }) ∧
        ∀ c, s.frontStore k.owner die a 8 = .error c → ∃ t, exec (.signalEntry n) s = .next t ∧ marks t ∧ stops t 3 e.seq) ∧
      (e.done = false → exec (.queueEntryComplete n) s = .next s) ∧
      ∀ last, e.done = true → (k.ents.takeWhile (fun d => d.done)).getLast? = some last →
        let mine := e.intr = true ∧ e.told = false
        (∀ m, k.qcompl.toNat % 8 = 0 → s.frontStore k.owner die k.qcompl 8 = .ok m → s.anyPoison m.key 8 = false → ∃ t, exec (.queueEntryComplete n) s = .next t ∧
          (t.queue q.val).compl = last.seq ∧ (t.queue q.val).ents.length = (k.ents.dropWhile (fun d => d.done)).length ∧
          (mine → HostNote.entryDone q.val e.seq ∈ t.notes) ∧ (∀ x ∈ s.notes, x ∈ t.notes) ∧
          (∀ d ∈ k.ents.takeWhile (fun d => d.done), d.intr = true → d.told = false → (mine → d.id ≠ e.id) →
            HostNote.entryDone q.val d.seq ∈ t.notes) ∧
          ∀ i, i < 8 → m.key % 8 = 0 → s.Canonical → t.homeByte (m.key + i) = BitVec.ofNat 8 (last.seq.toNat / 2 ^ (8 * i))) ∧
        ((k.qcompl.toNat % 8 ≠ 0 ∨ (∃ c, s.frontStore k.owner die k.qcompl 8 = .error c) ∨
            ∃ m, s.frontStore k.owner die k.qcompl 8 = .ok m ∧ s.anyPoison m.key 8 = true) →
          ∃ t, exec (.queueEntryComplete n) s = .next t ∧ stops t 3 last.seq ∧ (t.queue q.val).compl = k.compl)

/-- 09 R131; 02 R10 to R15, R22, R25, R8; 07 R109; 18 R304: a waiting launch without an estimate, or of a tenant without an
energy limit, is admitted; the chosen queue's launch is accepted under the lowest free group id, or is over at once with T =
0. A placed thread starts at ENTRY with x10 to x21 set, in the lowest free slot, owning the lowest unowned lane groups. A
launch whose contexts are all over completes: every store of its contexts is visible everywhere, and its entry is done. A
launch that no longer has work on a cluster gives up its segments there. -/
def Obligations.LaunchSteps : Prop :=
  ∀ (s : State) (n : Nat) (l : Launch), s.launch n = some l →
    (l.stage = .waiting → l.pk.energy = 0 ∨ (s.fnRec l.fn).tenant.lim[3] = 0xFFFFFFFF → ∃ t, exec (.launchAdmission n) s = .next t ∧
      t.launch n = some { l with stage := .admitted } ∧ t = { s with launches := t.launches }) ∧
    (l.stage ≠ .waiting ∨ s.admits l = false → exec (.launchAdmission n) s = .next s) ∧
    (∀ h, (s.queue l.queue).head = some h → h.launch = n → s.chosenQueue = some l.queue →
      let starts := fun (t : State) (done : Bool) => (t.queue l.queue).qhead = l.seq ∧ (t.queue l.queue).nextAt = h.next ∧
        (t.queue l.queue).head = none ∧ t.me = s.me ∧ ∃ e, (t.queue l.queue).ents = (s.queue l.queue).ents ++ [e] ∧
          e.seq = l.seq ∧ e.kind = .launch n ∧ e.intr = h.intr ∧ e.done = done
      (l.pk.t = 0 → ∃ t, exec (.launchAccept n) s = .next t ∧ starts t true ∧ t.launch n = none) ∧
      (∀ g, l.pk.t ≠ 0 → s.freeGroup (queueDie l.queue) = some g → ∃ t l', exec (.launchAccept n) s = .next t ∧ starts t false ∧
        t.launch n = some l' ∧ l'.stage = .accepted ∧ l'.gid = g ∧ Assoc.get ⟨0, 0, 0, 0⟩ t.groups g = ⟨l.pk.t, 0, l.pk.t, 0⟩)) ∧
    (s.chosenQueue ≠ some l.queue → exec (.launchAccept n) s = .next s) ∧
    (∀ h, (s.queue l.queue).head = some h → h.launch = n → l.pk.t ≠ 0 → s.freeGroup (queueDie l.queue) = none →
      s.chosenQueue ≠ some l.queue) ∧
    (∀ cl, l.pk.cosched = false → s.mayPlace l = true → (s.tryOrder l).find? (fun c => s.fits l c 1) = some cl →
      ∃ t c, exec (.threadPlacement n) s = .next t ∧ c ∈ t.others ∧ c.uid = s.nextId ∧ c.kind = .thread ∧ c.cl = cl ∧ c.launch = n ∧
        c.ordinal = l.next ∧ c.pc = l.pk.entry ∧ c.fn = l.fn ∧ c.status = .running ∧ t.me = s.me ∧
        (∀ j : XReg, c.x[j] = if j = 10 then l.pk.n else if j = 11 then BitVec.ofNat 64 l.next else if j = 12 then BitVec.ofNat 64 l.pk.t
          else if j = 13 then BitVec.ofNat 64 l.gid else if 14 ≤ j.val ∧ j.val ≤ 21 then l.pk.args.toList.getD (j.val - 14) 0 else 0) ∧
        (s.clusters[cl].slots)[c.slot] = none ∧ (t.clusters[cl].slots)[c.slot] = some c.uid ∧
        (∀ k : Fin 4, k < c.slot → (s.clusters[cl].slots)[k] ≠ none) ∧
        (∀ k : Fin 8, c.groups.getLsbD k.val = true → (s.clusters[cl].lpart)[k].owned = false ∧
          (t.clusters[cl].lpart)[k] = ⟨true, c.slot, c.slot, 0, false⟩) ∧
        ∀ j k : Fin 8, c.groups.getLsbD k.val = true → j < k → c.groups.getLsbD j.val = true ∨ (s.clusters[cl].lpart)[j].owned = true) ∧
    (l.pk.cosched = false → (∀ cl ∈ s.tryOrder l, s.fits l cl 1 = false) → exec (.threadPlacement n) s = .next s) ∧
    (l.pk.cosched = true → s.mayPlace l = true → s.fitsAll l = true → ∃ t, exec (.coscheduledPlacement n) s = .next t ∧ t.me = s.me ∧
      ∀ (i : Nat) (cl : Fin 64), (s.assigned l)[i]? = some cl → ∃ c ∈ t.others, c.launch = n ∧ c.kind = .thread ∧ c.ordinal = i ∧
        c.cl = cl ∧ c.pc = l.pk.entry) ∧
    (l.pk.cosched = true → s.fitsAll l = false → exec (.coscheduledPlacement n) s = .next s) ∧
    (s.launchOver l = false ∨ s.workInFlight n = true → exec (.launchCompletion n) s = .next s) ∧
    (s.launchOver l = true → s.workInFlight n = false → s.Clear (fun r => r.ctx.any (s.ofLaunch n)) →
      ∃ t, exec (.launchCompletion n) s = .next t ∧ t.launch n = none ∧
        (∀ r ∈ t.stores, ∀ u, r.ctx = some u → s.ofLaunch n u = true → r.everywhere = true ∧ r.acked = true) ∧
        ∀ e ∈ (t.queue l.queue).ents, e.kind = .launch n → e.done = true) ∧
    ∀ cl, (s.mayRelease n cl = false → exec (.segmentRelease n cl) s = .next s) ∧
      (s.mayRelease n cl = true → ∃ t, exec (.segmentRelease n cl) s = .next t ∧ t = { s with clusters := t.clusters } ∧
        ∀ k : Fin 256, (t.clusters[cl].segs)[k] =
          if (s.clusters[cl].segs)[k] = some n then none else (s.clusters[cl].segs)[k])

/-- 07 R99, R101: in a clock of the arbiter the heads of the vector issue queues that need no grant issue, and the others of
the threads picked request the resource if it is theirs. The requester with the highest credit after growth wins, the lowest
slot on a tie; every requester's credit grows by its share and the winner's falls by the sum; its slots budgets are charged
1, and its head gets the grant, which lets it issue when it needs no other. 09 R127 to R130: the weights of the events join
the accumulators of their three activities, whose used energy counts every microjoule passed; a copy without a launch charges
its tenant and its engine class. A period turns on the die that comes first to its boundary, and on those that reach it in
the same cycle: each used count keeps what is above its limit, and with die 0's turn those of launches and tenants turn too.
-/
def Obligations.ChargesAndPeriods : Prop :=
  (∀ (s : State) (cl : Fin 64) (res : SharedRes) (req : BitVec 4),
    let picked := fun c : Context => c.cl = cl ∧ c.status = .running ∧ req.getLsbD c.slot.val = true
    let s1 := s.mapContexts (fun c => if picked c then { c with vq := c.vq.dropWhile (fun e => e.left == 0) } else c)
    let ps := s1.requesters cl (fun c => req.getLsbD c.slot.val && c.vq.head?.any (fun e => e.res == some res && e.left != 0))
    let r := resIdx res
    let grown := fun (c : Context) => (c.credits[r] + c.sys.share.setWidth 16).toInt
    (ps = [] → exec (.vectorQueueIssue cl res req) s = .next s1) ∧
    (ps ≠ [] → (ps.map (fun c => c.slot)).Nodup → ∃ t w, exec (.vectorQueueIssue cl res req) s = .next t ∧ w ∈ ps ∧
      (∀ c ∈ ps, grown c ≤ grown w ∧ (grown c = grown w → w.slot ≤ c.slot)) ∧
      (∀ c ∈ ps, ∀ d, t.context c.uid = some d → d.credits[r] = c.credits[r] + c.sys.share.setWidth 16 -
        (if c.slot = w.slot then ps.foldl (fun x p => x + p.sys.share.setWidth 16) 0 else 0)) ∧
      (∀ c ∈ ps, c.uid ≠ w.uid → ∀ d, t.context c.uid = some d → d.vq = c.vq) ∧
      (∀ e q d, w.vq = e :: q → t.context w.uid = some d → d.vq = if e.left = 1 then q else { e with left := e.left - 1 } :: q) ∧
      ∀ l, s.launch w.launch = some l → ∃ l', t.launch w.launch = some l' ∧
        (l'.budget.used[0]).toNat = min (2 ^ 32 - 1) ((l.budget.used[0]).toNat + 1))) ∧
  (∀ (s : State) (die : Fin 8),
    let turned := fun (b b' : Budget) => b'.lim = b.lim ∧ b'.acc = b.acc ∧
      ∀ i : Fin 4, (b'.used[i]).toNat = (b.used[i]).toNat - (b.lim[i]).toNat
    let joined := fun (e : Word) (b b' : Budget) => b'.acc = b.acc + e ∧ b'.lim = b.lim ∧
      (b'.used[3]).toNat = min (2 ^ 32 - 1) ((b.used[3]).toNat +
        ((b.acc.toNat + e.toNat) / (10 ^ 6 * 2 ^ 8) - b.acc.toNat / (10 ^ 6 * 2 ^ 8))) ∧
      ∀ i : Fin 4, i ≠ 3 → b'.used[i] = b.used[i]
    (∀ (n : Nat) (cls : EngineClass) (ev : EnergyEvent) (count : Nat),
      let e := BitVec.ofNat 64 ((((s.fw.weights.find? (fun p => p.1 == ev)).map (fun p => p.2.toNat)).getD 0) * count)
      (∀ l, s.launch n = some l → ∃ t l', exec (.energyCharge n die cls ⟨ev, count⟩) s = .next t ∧ t.launch n = some l' ∧ t.me = s.me ∧
        joined e l.budget l'.budget ∧ joined e (s.fnRec l.fn).tenant (t.fnRec l.fn).tenant ∧
        joined e ((s.dies[die]).engines[engineIdx cls]) ((t.dies[die]).engines[engineIdx cls])) ∧
      (∀ c, s.launch n = none → s.copy n = some c → ∃ t, exec (.energyCharge n die cls ⟨ev, count⟩) s = .next t ∧ t.me = s.me ∧
        (c.launch = none → t.launches = s.launches) ∧
        (∀ m l, c.launch = some m → s.launch m = some l → ∃ l', t.launch m = some l' ∧ joined e l.budget l'.budget) ∧
        joined e (s.fnRec c.fn).tenant (t.fnRec c.fn).tenant ∧
        joined e ((s.dies[die]).engines[engineIdx cls]) ((t.dies[die]).engines[engineIdx cls])) ∧
      (s.launch n = none → s.copy n = none → exec (.energyCharge n die cls ⟨ev, count⟩) s = .next s)) ∧
    let toGo := fun d : Die => 65536 - d.time.toNat % 65536
    let present := fun d : Fin 8 => (s.dies[d]).status = .present
    let first := present die ∧ ∀ d : Fin 8, present d → toGo s.dies[die] ≤ toGo s.dies[d]
    (¬first → exec (.periodTurn die) s = .next s) ∧
    (first → ∃ t, exec (.periodTurn die) s = .next t ∧ t.me = s.me ∧
      (∀ d : Fin 8, (present d → (t.dies[d]).time = (s.dies[d]).time + BitVec.ofNat 64 (toGo s.dies[die])) ∧ (¬present d → t.dies[d] = s.dies[d])) ∧
      (∀ d : Fin 8, present d → if toGo s.dies[d] = toGo s.dies[die]
        then ∀ k : Fin 4, turned ((s.dies[d]).engines[k]) ((t.dies[d]).engines[k]) else (t.dies[d]).engines = (s.dies[d]).engines) ∧
      let zeroTurns := present 0 ∧ toGo s.dies[(0 : Fin 8)] = toGo s.dies[die]
      (zeroTurns → ∀ n l, s.launch n = some l → ∃ l', t.launch n = some l' ∧ turned l.budget l'.budget) ∧
      (zeroTurns → ∀ fn, turned (s.fnRec fn).tenant (t.fnRec fn).tenant) ∧
      (¬zeroTurns → t.launches = s.launches ∧ t.fns = s.fns)))

/-- 07 R111; 02 R24, R32; 18 R302, R303; 05 R83: a thread of a pre-empted launch that holds no published group leaves its
slot and its lane groups with its stores acknowledged; when its launch may run again it resumes in a free slot with as many
of the lowest unowned groups, all else as it was. A Bureau whose started entries are complete leaves with its Chest, latches,
Plates and queue, and returns with them, where a firmware control thread finds a slot and 4 lane groups for its Chest. A
co-scheduled launch leaves as a whole, and frees its loop slots, or not at all (02 R30). -/
def Obligations.ContextSwitches : Prop :=
  ∀ (s : State) (n : Nat) (c : Context) (l : Launch) (area : BitVec 52) (slot : Fin 4), s.context n = some c →
    s.launch c.launch = some l →
    let cl := s.clusters[c.cl]
    let fits := cl.freeSlots ≠ [] ∧ 4 ≤ cl.unowned.length
    let group := s.contexts.filter (fun d => d.launch == l.id && d.inPlace)
    (l.pk.cosched = true → l.preempted = true → c.inPlace = true → (∃ d ∈ group, s.maySwap d = false) →
      exec (.contextSwapOut n area) s = .next s) ∧
    (l.pk.cosched = true → l.preempted = true → c.inPlace = true → (∀ d ∈ group, d.kind = .thread ∧ s.maySwap d = true) →
      ∃ t, exec (.contextSwapOut n area) s = .next t ∧ (∀ d ∈ t.contexts, d.launch = l.id → d.inPlace = false) ∧
        (∀ d : Fin 8, ∀ k : Fin 16, ((t.dies[d]).hatch[k]).owner ≠ some l.id) ∧
        ∃ l', t.launch l.id = some l' ∧ l'.hatch = []) ∧
    (c.status = .running ∨ c.status = .waitingPage ∨ c.status = .ended → l.preempted = false →
      exec (.contextSwapOut n area) s = .next s) ∧
    (l.pk.cosched = false → l.preempted = true → c.kind = .thread → c.status = .running → s.published c = [] → s.Clear (fun r => r.ctx == some n) →
      ∃ t d, exec (.contextSwapOut n area) s = .next t ∧ t.context n = some d ∧ (t.clusters[c.cl].slots)[c.slot] = none ∧
        (∀ r ∈ t.stores, r.ctx = some n → r.everywhere = true ∧ r.acked = true) ∧ d.status = .out ∧ d.lreq = none ∧ d.pc = c.pc ∧ d.x = c.x ∧ d.vec.v = c.vec.v ∧ d.vec.m = c.vec.m ∧
        d.flags = c.flags ∧ d.trap = c.trap ∧ d.tags = c.tags ∧ d.members = c.members) ∧
    (l.pk.cosched = false → c.status = .out → c.kind = .thread → s.mayResume l c = true → (∀ v ∈ l.spilled, v.cl ≠ c.cl) → (cl.slots)[slot] = none →
      groupCount c.groups ≤ cl.unowned.length → ∃ t d, exec (.contextResume n slot) s = .next t ∧ t.context n = some d ∧
        d = { c with status := .running, slot := slot, groups := d.groups } ∧ groupCount d.groups = groupCount c.groups ∧
        (t.clusters[c.cl].slots)[slot] = some n ∧
        ∀ k : Fin 8, d.groups.getLsbD k.val = true → (cl.lpart)[k].owned = false ∧ (t.clusters[c.cl].lpart)[k] = ⟨true, slot, slot, 0, false⟩) ∧
    (c.status ≠ .out ∨ s.mayResume l c = false → exec (.contextResume n slot) s = .next s) ∧
    (c.kind = .thread ∨ l.pk.cosched = true → ∀ b, exec (.bureauContextSwitch n b area) s = .next s) ∧
    (c.kind = .bureau → l.pk.cosched = false → (l.preempted = false ∨ s.maySwap c = false ∨ ¬fits) →
      exec (.bureauContextSwitch n true area) s = .next s) ∧
    (c.kind = .bureau → l.pk.cosched = false → l.preempted = true → s.maySwap c = true → fits → s.Clear (fun r => r.ctx == some n) →
      ∃ t d v, exec (.bureauContextSwitch n true area) s = .next t ∧ t.context n = some d ∧ d.status = .out ∧ d.saved = some v ∧
        d.pc = c.pc ∧ d.x = c.x ∧ v.area = area.toNat ∧ v.chest = cl.chest ∧ v.latches = cl.latches ∧ v.plates = cl.plates ∧ v.mq = cl.mq ∧ v.poison = cl.latchPoison ∧
        v.chestPoison = cl.chestPoison ∧
        v.mgdone = cl.mgdone ∧ t.clusters[c.cl].bureau = none ∧ t.clusters[c.cl].chest = [] ∧ t.clusters[c.cl].mq = []) ∧
    ∀ v, c.kind = .bureau → l.pk.cosched = false → fits → c.status = .out → s.mayResume l c = true → c.saved = some v → v.area = area.toNat → cl.bureau = none →
      (∀ v ∈ l.spilled, v.cl ≠ c.cl) → ∃ t, exec (.bureauContextSwitch n false area) s = .next t ∧
        t.context n = some { c with status := if v.ended then .ended else .running, saved := none } ∧
        t.clusters[c.cl] = { cl with bureau := some n, chest := v.chest, latches := v.latches, latchPoison := v.poison,
                                     chestPoison := v.chestPoison, plates := v.plates,
                                     mq := v.mq, mgdone := v.mgdone }

/-- 19 R309 to R314; 11 R166; 06 R87: what firmware's steps leave. A boot releases die 0 with TIME 0 and every die whose
measurements match, and stops the part where die 0's firmware does not verify; a die in reset is released with die 0's TIME,
less the cycles that the setting takes, or left absent; an update raises only minor and patch, and a refused one is reported;
a reset die is in reset, its scratchpads zero, its clusters and queues at rest, and a reset of die 0 empties the mailboxes; a
function reset ends its launches and its queues; a host write is in its place in coherence order and touches no other byte.
-/
def Obligations.FirmwareSteps : Prop :=
  ∀ (s : State) (die : Fin 8),
    (∃ t r, exec (.packageReportRequest 0 0) s = .next t ∧ t = { s with notes := s.notes ++ [.report 0 r], freeCtr := t.freeCtr } ∧ r.nonce = 0 ∧
      r.isaver = s.fw.isaver ∧ r.dev = s.fw.dev ∧ r.weights = s.fw.weights ∧ r.horizon = s.fw.horizon ∧ r.cxl = s.fw.cxl ∧
      ∀ d : Fin 8, let on := decide ((s.dies[d]).status ≠ .absent)
        r.dies[d.val]? = some ⟨on, orientWord d, if on then Config.dramBytes else 0, Config.digest d.val s.fw.version.toNat, Config.identityKey d.val⟩) ∧
    (∀ fn nonce, fn ≠ 0 → ∃ t r, exec (.packageReportRequest fn nonce) s = .next t ∧
      t = { s with notes := s.notes ++ [.report fn r], freeCtr := t.freeCtr } ∧ r.nonce = nonce) ∧
    (∀ good, exec (.packageBoot false good) s = .fault .heldInReset ∧ ∃ t, exec (.packageBoot true good) s = .next t ∧
      (∀ d : Fin 8, t.dies[d] = { Die.reset with status := if d = 0 ∨ good.getLsbD d.val = true then .present else .absent }) ∧
      t.me = State.reset.me ∧ t.others = [] ∧ t.queues = [] ∧ t.stores = [] ∧ t.keys = [] ∧ t.fw = s.fw) ∧
    (∀ good, ((s.dies[die]).status ≠ .resetting → exec (.dieRelease die good) s = .next s) ∧
      ((s.dies[die]).status = .resetting → ∃ t, exec (.dieRelease die good) s = .next t ∧ t = { s with dies := t.dies, freeCtr := t.freeCtr } ∧
        (∀ d : Fin 8, d ≠ die → t.dies[d] = s.dies[d]) ∧
        t.dies[die] = { s.dies[die] with status := if good then .present else .absent, time := (t.dies[die]).time } ∧
        (good = false → (t.dies[die]).time = (s.dies[die]).time) ∧
        (good = true → (t.dies[die]).time.toNat ≤ (s.dies[(0 : Fin 8)]).time.toNat ∧
          (s.dies[(0 : Fin 8)]).time.toNat < (t.dies[die]).time.toNat + 64))) ∧
    (∀ ok sec minor patch,
      let new := s.fw.isaver.extractLsb' 16 16 ++ (minor ++ patch)
      (ok = false ∨ sec.toNat < s.fw.fused.toNat ∨ new.toNat < s.fw.isaver.toNat →
        exec (.firmwareUpdate ok sec minor patch) s = .next { s with notes := s.notes ++ [.refusedUpdate] }) ∧
      (ok = true → s.fw.fused.toNat ≤ sec.toNat → s.fw.isaver.toNat ≤ new.toNat →
        exec (.firmwareUpdate ok sec minor patch) s = .next { s with fw := { s.fw with isaver := new, version := sec } })) ∧
    (∀ i ∈ [Instr.dieReset die, .overtempReset die], ∃ t, exec i s = .next t ∧ (t.dies[die]).status = .resetting ∧
      (t.dies[die]).corr = Vector.replicate 8 0 ∧ (t.dies[die]).up = (s.dies[die]).up ∧
      (∀ c : Fin 64, dieOfCl c = die → t.clusters[c] = Cluster.reset) ∧
      (∀ k, isPad k = true → padCluster k / 8 = die.val → Memory.get t.mem k = 0) ∧
      (die = 0 → ∀ fn, (t.fnRec fn).mailbox = [] ∧ (t.fnRec fn).flrDone = false) ∧
      ∀ q, q / 1024 = die.val → (t.queue q).stop = true ∧ (t.queue q).reason = 5 ∧ (t.queue q).en = false) ∧
    (∀ fn, (fn = 0 → exec (.functionLevelReset fn) s = .next s) ∧ (fn ≠ 0 → ∃ t, exec (.functionLevelReset fn) s = .next t ∧
      (∀ l ∈ t.launches, l.fn ≠ fn) ∧ (∀ r ∈ t.stores, r.fn = fn → r.applied = true) ∧ (∀ p ∈ t.queues, p.2.owner ≠ fn) ∧ (t.fnRec fn).flrDone = true ∧
      ∀ (c : Fin 64) e, e ∈ t.clusters[c].tlb → e.fn ≠ fn)) ∧
    (exec (.thermalThrottle true) s = .next (if 100 < s.fw.aclkMHz then { s with fw := { s.fw with aclkMHz := s.fw.aclkMHz - 100 } }
      else s) ∧ exec (.thermalThrottle false) s = .next s) ∧
    (∀ dev, exec (.fabricBringUp dev) s = .next { s with fw := { s.fw with dev := dev } }) ∧
    ∀ (pa : BitVec 48) (bs : List Byte), s.Canonical → pa.toNat + bs.length ≤ 2 ^ 48 → ∃ t, exec (.hostWrite pa bs) s = .next t ∧
      t.me = s.me ∧ (∀ i b, bs[i]? = some b → t.homeByte (2 ^ 49 + pa.toNat + i) = b) ∧
      ∀ k, k < 2 ^ 49 + pa.toNat ∨ 2 ^ 49 + pa.toNat + bs.length ≤ k → t.homeByte k = s.homeByte k ∧ ∀ o, t.viewByte o k = s.viewByte o k

/-- 20 R318 to R323; 21 R326: the assembler's object, or the number of the line it rejects, joins the tools' results, as does
the linker's object or its error; the loader adds the sections of an object of the part's version, each LOAD section in pages
of its own from the page it is given on, and places their bytes; without room for them nothing happens (log entry 56). A
number that names no input has no effect. -/
def Obligations.HostTools : Prop :=
  ∀ (s : State) (n : Nat),
    let only := fun (t : State) => t = { s with tools := t.tools }
    let obj := fun (t : State) (b : List Byte) => t.tools = { s.tools with objects := s.tools.objects ++ [b] }
    let err := fun (t : State) (e : ToolError) => t.tools = { s.tools with errors := s.tools.errors ++ [e] }
    (s.tools.sources.length ≤ n → exec (.fjasAssembly n) s = .next s) ∧
    (s.tools.links.length ≤ n → exec (.objectLink n) s = .next s) ∧
    (s.tools.objects.length ≤ n → ∀ fn sp page frame, exec (.objectLoad ⟨n, fn, sp, page, frame⟩) s = .next s) ∧
    (∀ src, s.tools.sources[n]? = some src → ∃ t, exec (.fjasAssembly n) s = .next t ∧ only t ∧
      (∀ b, Fjas.assemble src.toList = .ok b → obj t b) ∧ ∀ k, Fjas.assemble src.toList = .error k → err t (.badLine k)) ∧
    (∀ ks, s.tools.links[n]? = some ks → ∃ t, exec (.objectLink n) s = .next t ∧ only t ∧
      ((∃ k ∈ ks, (s.tools.objects[k]?).bind Ocsor.read = none) → err t .malformed) ∧
      ∀ objs, ks.mapM (fun k => (s.tools.objects[k]?).bind Ocsor.read) = some objs →
        (∀ b, Ocsor.link objs = .ok b → obj t b) ∧ ∀ e, Ocsor.link objs = .error e → err t e) ∧
    ∀ b, s.tools.objects[n]? = some b → ∀ fn sp page frame,
      (Ocsor.read b = none → Ocsor.load s.fw.isaver (page * 2 ^ 16) b = .error .malformed) ∧
      (∀ e, Ocsor.load s.fw.isaver (page * 2 ^ 16) b = .error e →
        ∃ t, exec (.objectLoad ⟨n, fn, sp, page, frame⟩) s = .next t ∧ only t ∧ err t e) ∧
      ∀ l, Ocsor.load s.fw.isaver (page * 2 ^ 16) b = .ok l →
        (∀ x ∈ l, page * 2 ^ 16 ≤ x.base ∧ x.base % 0x10000 = 0) ∧ l.Pairwise (fun x y => x.base < y.base) ∧
        (s.placeObject fn sp frame l = none → exec (.objectLoad ⟨n, fn, sp, page, frame⟩) s = .next s) ∧
        ∀ u, s.placeObject fn sp frame l = some u → ∃ t, exec (.objectLoad ⟨n, fn, sp, page, frame⟩) s = .next t ∧
          t = { u with tools := { u.tools with loaded := u.tools.loaded ++ [l] } } ∧ u.me = s.me ∧ u.tools = s.tools

/-- 04 R61, R62: the sum of a window. A NaN, or infinities of both signs, give the default NaN and NV; else an infinity gives
itself; zeros alone give +0, or −0 under RDN or when each is −0; else every term is truncated toward zero at 2^(E − 72), E
the exponent of the largest, the exact sum is rounded once, a zero sum is −0 under RDN alone, and what truncation changed
raises NX, with UF for a tiny result. The order of the terms has no effect. 04 R63, R65: adding a window's result to a pair.
In integer mode the pair is a 64-bit integer and no flag is raised. Otherwise s is its low word and c its high one: s becomes
s + t to nearest even and c takes the rounding error; an s that is not finite leaves c = +0, saturated under SAT when s and t
were finite. Infinities of both signs raise NV, an overflow OF, nothing else. 16 R263, R268, R271, R274; 07 R102; 06 R92,
R96: the oldest started entry whose flag is still full empties it. The oldest entry that is done leaves the queue: GATH
writes its latch, MZERO clears its tile, a multiply adds the windows not yet added to the Chest, after Z if none was, and its
flags go to its Bureau's FFLAGS; a poisoned pair among them faults instead. An MMAG completes after its last group. What has
not started, or has a full flag, stays. -/
def Obligations.WindowsAndPairs : Prop :=
  (∀ (rm : RMode) (sat : Bool) (terms : List Val),
    let w := windowSum rm sat terms
    let clash := (∃ x, Val.nan x ∈ terms) ∨ (Val.inf true ∈ terms ∧ Val.inf false ∈ terms)
    (∀ l : List Val, l.Perm terms → windowSum rm sat l = w) ∧
    (clash → w = (0x7FC00000, flagNV)) ∧
    (¬clash → ∀ n, Val.inf n ∈ terms → w = (if n then 0xFF800000 else 0x7F800000, 0)) ∧
    ((∀ x ∈ terms, ∃ n e, x = .fin n 0 e) →
      w = (if rm == .rdn || terms.all (fun x => match x with | .fin n _ _ => n | _ => true) then 0x80000000 else 0, 0)) ∧
    ∀ top : Int, (∀ x ∈ terms, ∃ n m e, x = .fin n m e ∧ (m = 0 ∨ (m.log2 : Int) + e ≤ top)) →
      (∃ n m e, Val.fin n m e ∈ terms ∧ m ≠ 0 ∧ (m.log2 : Int) + e = top) →
      let t := top - 72
      let cut : Val → Int := fun v => match v with
        | .fin n m e => (if n then (-1 : Int) else 1) * (if t ≤ e then m * 2 ^ (e - t).toNat else m / 2 ^ (t - e).toNat : Nat)
        | _ => 0
      let total : Int := (terms.map cut).sum
      let lossy := ∃ n m e, Val.fin n m e ∈ terms ∧ e < t ∧ m % 2 ^ (t - e).toNat ≠ 0
      let r := fmtF32.roundFin rm sat (decide (total < 0)) total.natAbs t
      (total = 0 → w.1 = (if rm = .rdn then 0x80000000 else 0) ∧ (lossy → w.2 = flagNX) ∧ (¬lossy → w.2 = 0)) ∧
      (total ≠ 0 → w.1 = r.1 ∧ (¬lossy → w.2 = r.2) ∧
        (lossy → w.2 = r.2 ||| flagNX ||| (if fmtF32.tiny rm (decide (total < 0)) total.natAbs t then flagUF else 0)))) ∧
  (∀ (k : MulMode) (p t : Word),
    (k.int = true → k.accumulate p t = (p + t, 0)) ∧
    (k.int = false → t.toNat < 2 ^ 32 →
      let add := fun a b : Nat => (fmtF32.add .rne false a b).1
      let sub := fun a b : Nat => (fmtF32.sub .rne false a b).1
      let finite := fun a : Nat => a / 2 ^ 23 % 256 ≠ 255
      let inf := fun a : Nat => a % 2 ^ 31 = 0x7F800000
      let s := p.toNat % 2 ^ 32
      let c := p.toNat / 2 ^ 32
      let x := t.toNat
      let s1 := add s x
      let z := sub s1 s
      let r := k.accumulate p t
      (finite s1 → r.1 = BitVec.ofNat 64 (add c (add (sub s (sub s1 z)) (sub x z)) * 2 ^ 32 + s1)) ∧
      (¬finite s1 → k.sat = true → finite s → finite x → r.1 = BitVec.ofNat 64 (s1 / 2 ^ 31 * 2 ^ 31 + 0x7F7FFFFF)) ∧
      (¬finite s1 → (k.sat = false ∨ ¬finite s ∨ ¬finite x) → r.1 = BitVec.ofNat 64 s1) ∧
      (inf s → inf x → s ≠ x → r.2 = flagNV) ∧ (finite s → finite x → ¬finite s1 → r.2 = flagOF) ∧
      (¬(inf s ∧ inf x ∧ s ≠ x) → ¬(finite s ∧ finite x ∧ ¬finite s1) → r.2 = 0))) ∧
  (∀ (s : State) (cl : Fin 64),
    (s.bureauOf cl = none → ∀ i ∈ [Instr.mmagGroupComplete cl, .matrixComplete cl], exec i s = .next s) ∧
    (∀ pre e post r f, (s.clusters[cl]).mq = pre ++ e :: post → (∀ d ∈ pre, d.run.any (fun r => !r.freed) = false) →
      e.run = some r → r.freed = false → e.flag = some f →
      ∃ t, exec (.handoffFlagEmptied cl) s = .next t ∧ t = { s with clusters := t.clusters } ∧
        (t.clusters[cl]).mq = pre ++ { e with run := some { r with freed := true } } :: post ∧
        ∀ k : Fin 32, (t.clusters[cl]).hf[k] = if k = f then { (s.clusters[cl]).hf[k] with full := false } else (s.clusters[cl]).hf[k]) ∧
    ((∀ e ∈ (s.clusters[cl]).mq, e.run.any (fun r => !r.freed) = false) → exec (.handoffFlagEmptied cl) s = .next s) ∧
    ∀ b e post, s.bureauOf cl = some b → b.cl = cl → (s.clusters[cl]).mq = e :: post →
      (∀ d ∈ post, d.run.any (fun r => r.latch.isSome) = false) →
      let k := s.clusters[cl]
      let leaves := fun (P : State → Prop) => ∃ t, exec (.matrixComplete cl) s = .next t ∧ (t.clusters[cl]).mq = post ∧ t.mem = s.mem ∧
        t.stores = s.stores ∧ (∀ j : Fin 64, j ≠ cl → t.clusters[j] = s.clusters[j]) ∧ P t
      let stays := ∃ t, exec (.matrixComplete cl) s = .next t ∧ t = { s with freeCtr := t.freeCtr }
      let flags := fun (t : State) (F : FlagSet → Prop) => ∃ ff, F ff ∧
        t.context b.uid = some { b with flags := { b.flags with ff := b.flags.ff ||| ff } }
      ((e.run = none ∨ ∃ r, e.run = some r ∧ r.freed = false) → stays) ∧
      ∀ r, e.run = some r → r.freed = true →
        (∀ l x, e.op = .gath l → r.latch = some x → leaves (fun t => (t.clusters[cl]).latches[l] = x ∧
          (∀ j : Fin 2, j ≠ l → (t.clusters[cl]).latches[j] = k.latches[j]) ∧ (t.clusters[cl]).chest = k.chest ∧ t.me = s.me)) ∧
        (r.latch = none → ∀ q, e.op = .mzero q → leaves (fun t => t.me = s.me ∧ ∀ (j : Fin 8) (m i : Nat), m < 128 → i < 256 →
          chestGet (t.clusters[cl]).chest j m i = if j = q then 0 else chestGet k.chest j m i)) ∧
        (r.latch = none → ∀ c, e.op = .mmag c →
          (r.done < r.groups.length → stays) ∧
          (r.groups.length ≤ r.done → leaves (fun t => flags t (fun ff => ff = r.ff) ∧ ∀ (j : Fin 8) (m i : Nat), m < 128 → i < 256 →
            chestGet (t.clusters[cl]).chest j m i = if c.z = true ∧ r.zeroed = false ∧ j = c.q then 0 else chestGet k.chest j m i))) ∧
        (r.latch = none → (∀ p ∈ r.steps, p.1 < 262144) → ∀ l c, (e.op = .gr l c ∨ e.op = .rg l c) →
          let z := c.z = true ∧ r.zeroed = false
          let bad := ∃ p ∈ r.steps, p.1 ∈ k.chestPoison ∧ ¬(z ∧ p.1 / 32768 = c.q.val)
          (bad → ∃ u : State, exec (.matrixComplete cl) s = .next (u.matrixFault b .poison e.addr none) ∧ u = { s with freeCtr := u.freeCtr }) ∧
          (¬bad → k.chest.Pairwise (fun p q => p.1 < q.1) → r.steps.Pairwise (fun p q => p.1 < q.1) → leaves (fun t =>
            (∀ (j : Fin 8) (m i : Nat), m < 128 → i < 256 → chestGet (t.clusters[cl]).chest j m i =
              let old := if z ∧ j = c.q then 0 else chestGet k.chest j m i
              match r.steps.find? (fun p => p.1 == pairIdx j m i) with
              | some p => ((⟨r.int, .rne, c.sat⟩ : MulMode).accumulate old p.2).1
              | none => old) ∧
            flags t (fun ff => ∀ i : Fin 5, ff.getLsbD i.val = true ↔ r.ff.getLsbD i.val = true ∨ ∃ (j : Fin 8) (m n : Nat), m < 128 ∧ n < 256 ∧
              ∃ p, r.steps.find? (fun p => p.1 == pairIdx j m n) = some p ∧
                ((⟨r.int, .rne, c.sat⟩ : MulMode).accumulate (if z ∧ j = c.q then 0 else chestGet k.chest j m n) p.2).2.getLsbD i.val = true)))))

end Statements
end

