-- ==== Sys2Proof/Laws/Elements.lean ====
section
/-! SUPPORT. Elements of register groups: where they lie, that two never share a bit, and reading them back after a write. -/

namespace Sys2Proof.Machine

/-! ### Places -/

/-- A width that divides a lane's 256 bits. -/
def GoodWidth (w : Nat) : Prop := w = 4 ∨ w = 8 ∨ w = 16 ∨ w = 32 ∨ w = 64

theorem Fmt.sew_good (f : Fmt) : GoodWidth f.sew := by cases f <;> simp [Fmt.sew, GoodWidth]

/-- A place lies inside one lane of 256 bits. -/
theorem placeOf_lane (tile : Bool) {g w : Nat} (hg : 0 < g) (hw : GoodWidth w) (e : Nat) :
    (placeOf tile g w e).2 % 256 + w ≤ 256 ∧ (placeOf tile g w e).2 / 256 < 8 * g := by
  unfold placeOf
  cases tile
  · simp only [Bool.false_eq_true, if_false]
    have := Nat.mod_lt e (show 0 < 8 * g by omega)
    rcases hw with rfl | rfl | rfl | rfl | rfl <;> simp only [Nat.reduceDiv] <;> omega
  · simp only [if_true]
    rcases hw with rfl | rfl | rfl | rfl | rfl <;> simp only [Nat.reduceDiv] <;>
      (constructor <;> [omega; skip]) <;>
      (have := Nat.mod_lt (e / 128) (show 0 < 8 * g by omega); have := Nat.mod_lt (e / 64) (show 0 < 8 * g by omega)
       have := Nat.mod_lt (e / 32) (show 0 < 8 * g by omega); have := Nat.mod_lt (e / 16) (show 0 < 8 * g by omega)
       have := Nat.mod_lt (e / 8) (show 0 < 8 * g by omega); omega)

/-- Two elements whose places share a bit are one. -/
theorem placeOf_inj (tile : Bool) {g w : Nat} (hg : 0 < g) (hw : GoodWidth w) {e f b : Nat}
    (hr : (placeOf tile g w e).1 = (placeOf tile g w f).1)
    (he : (placeOf tile g w e).2 ≤ b ∧ b < (placeOf tile g w e).2 + w)
    (hf : (placeOf tile g w f).2 ≤ b ∧ b < (placeOf tile g w f).2 + w) : e = f := by
  have key : ∀ n q1 q2 r1 r2 : Nat, q1 = q2 → r1 = r2 → n * q1 + r1 = n * q2 + r2 := by intros; subst_vars; rfl
  have hn : 0 < 8 * g := by omega
  unfold placeOf at hr he hf
  cases tile
  · simp only [Bool.false_eq_true, if_false] at hr he hf
    have de := Nat.div_add_mod e (8 * g)
    have df := Nat.div_add_mod f (8 * g)
    rw [← de, ← df]
    generalize e / (8 * g) = qe at *
    generalize f / (8 * g) = qf at *
    generalize e % (8 * g) = re at *
    generalize f % (8 * g) = rf at *
    refine key _ _ _ _ _ ?_ ?_ <;> rcases hw with rfl | rfl | rfl | rfl | rfl <;> simp only [Nat.reduceDiv] at * <;> omega
  · simp only [if_true] at hr he hf
    have gen : ∀ p : Nat, 0 < p → p * w = 512 → 512 / w = p → e = f := by
      intro p hp hpw hd
      rw [hd] at hr he hf
      have ee := Nat.div_add_mod e p
      have ef := Nat.div_add_mod f p
      have de := Nat.div_add_mod (e / p) (8 * g)
      have df := Nat.div_add_mod (f / p) (8 * g)
      have le := Nat.mod_lt e hp
      have lf := Nat.mod_lt f hp
      have hqr : e / p / (8 * g) = f / p / (8 * g) ∧ e / p % (8 * g) = f / p % (8 * g) ∧ e % p = f % p := by
        generalize e / p / (8 * g) = qe at *
        generalize f / p / (8 * g) = qf at *
        generalize e / p % (8 * g) = re at *
        generalize f / p % (8 * g) = rf at *
        generalize e % p = ue at *
        generalize f % p = uf at *
        clear ee ef de df hd
        rcases hw with rfl | rfl | rfl | rfl | rfl <;> omega
      rw [← ee, ← ef, hqr.2.2, ← de, ← df, hqr.1, hqr.2.1]
    rcases hw with rfl | rfl | rfl | rfl | rfl
    · exact gen 128 (by decide) rfl rfl
    · exact gen 64 (by decide) rfl rfl
    · exact gen 32 (by decide) rfl rfl
    · exact gen 16 (by decide) rfl rfl
    · exact gen 8 (by decide) rfl rfl

/-! ### Bits of a register that a write makes up -/

theorem bitsAt_testBit {n : Nat} (x : BitVec n) (lo w i : Nat) : (bitsAt x lo w).testBit i = (decide (i < w) && x.getLsbD (lo + i)) := by
  unfold bitsAt
  rw [Nat.testBit_mod_two_pow, BitVec.toNat_ushiftRight, Nat.testBit_shiftRight, BitVec.getLsbD]

theorem ones_shift_testBit (w lo b : Nat) : ((2 ^ w - 1) <<< lo).testBit b = (decide (lo ≤ b) && decide (b < lo + w)) := by
  rw [Nat.testBit_shiftLeft, Nat.testBit_two_pow_sub_one]
  by_cases h : lo ≤ b
  · simp only [h, decide_true, Bool.true_and]
    congr 1
    simp only [eq_iff_iff]; omega
  · simp [h]

theorem cellsIn_testBit (tile : Bool) (g w k : Nat) (cells : List (Nat × Nat)) (b : Nat) :
    (cellsIn tile g w k cells).1.testBit b = cells.any (fun c => (placeOf tile g w c.1).1 == k &&
      decide ((placeOf tile g w c.1).2 ≤ b) && decide (b < (placeOf tile g w c.1).2 + w)) ∧
    (cellsIn tile g w k cells).2.testBit b = cells.any (fun c => (placeOf tile g w c.1).1 == k &&
      decide ((placeOf tile g w c.1).2 ≤ b) && decide (b < (placeOf tile g w c.1).2 + w) &&
      c.2.testBit (b - (placeOf tile g w c.1).2)) := by
  unfold cellsIn
  have gen : ∀ (l : List (Nat × Nat)) (acc : Nat × Nat),
      (l.foldl (fun acc c => if (placeOf tile g w c.1).1 = k then
        (acc.1 ||| ((2 ^ w - 1) <<< (placeOf tile g w c.1).2), acc.2 ||| ((c.2 % 2 ^ w) <<< (placeOf tile g w c.1).2)) else acc) acc).1.testBit b =
        (acc.1.testBit b || l.any (fun c => (placeOf tile g w c.1).1 == k &&
          decide ((placeOf tile g w c.1).2 ≤ b) && decide (b < (placeOf tile g w c.1).2 + w))) ∧
      (l.foldl (fun acc c => if (placeOf tile g w c.1).1 = k then
        (acc.1 ||| ((2 ^ w - 1) <<< (placeOf tile g w c.1).2), acc.2 ||| ((c.2 % 2 ^ w) <<< (placeOf tile g w c.1).2)) else acc) acc).2.testBit b =
        (acc.2.testBit b || l.any (fun c => (placeOf tile g w c.1).1 == k &&
          decide ((placeOf tile g w c.1).2 ≤ b) && decide (b < (placeOf tile g w c.1).2 + w) &&
          c.2.testBit (b - (placeOf tile g w c.1).2))) := by
    intro l
    induction l with
    | nil => intro acc; simp
    | cons c r ih =>
      intro acc
      rw [List.foldl_cons, (ih _).1, (ih _).2, List.any_cons, List.any_cons]
      by_cases hk : (placeOf tile g w c.1).1 = k
      · simp only [hk, if_true, beq_self_eq_true, Bool.true_and]
        rw [Nat.testBit_or, Nat.testBit_or, ones_shift_testBit, Nat.testBit_shiftLeft, Nat.testBit_mod_two_pow]
        constructor
        · rw [Bool.or_assoc]
        · rw [Bool.or_assoc]
          congr 2
          by_cases hlo : (placeOf tile g w c.1).2 ≤ b
          · simp only [hlo, decide_true, Bool.true_and]
            congr 1
            simp only [decide_eq_decide]; omega
          · simp [hlo]
      · have : ((placeOf tile g w c.1).1 == k) = false := by simpa using hk
        simp only [hk, if_false, this, Bool.false_and, Bool.false_or, and_self]
  have := gen cells (0, 0)
  simpa using this

/-! ### Writing elements and reading them back -/

theorem regAt_inj {r : VReg} {a b : Nat} (ha : a < 32) (hb : b < 32) (h : regAt r a = regAt r b) : a = b := by
  have := congrArg Fin.val h
  simp only [regAt] at this
  omega

/-- What `putCells` leaves in a register of the group, and in every other. -/
theorem Context.putCells_reg (c : Context) (tile : Bool) (g : Nat) (d : VReg) (n w : Nat) (cells : List (Nat × Nat)) (ready : Nat)
    (hn : n ≤ 32) (q : VReg) :
    (c.putCells tile g d n w cells ready).vec.v[q] =
      if ∃ k, k < n ∧ regAt d k = q ∧ (cellsIn tile g w k cells).1 ≠ 0 then
        let k := (q.val + 32 - d.val) % 32
        (c.vec.v[q] &&& ~~~(BitVec.ofNat 16384 (cellsIn tile g w k cells).1)) |||
          (BitVec.ofNat 16384 (cellsIn tile g w k cells).2 &&& BitVec.ofNat 16384 (cellsIn tile g w k cells).1)
      else c.vec.v[q] := by
  unfold Context.putCells
  induction n with
  | zero => rw [if_neg (by rintro ⟨k, hk, -⟩; omega)]; rfl
  | succ n ih =>
    have ihn := ih (by omega)
    have e0 : ∀ f : Context → Nat → Context, (List.range (n + 1)).foldl f c = f ((List.range n).foldl f c) n := by
      intro f; rw [List.range_succ, List.foldl_append]; rfl
    rw [e0]
    generalize List.foldl _ c (List.range n) = c' at *
    by_cases hz : (cellsIn tile g w n cells).1 = 0
    · have est : (if (cellsIn tile g w n cells).1 = 0 then c' else c'.putReg (regAt d n) (BitVec.ofNat 16384 (cellsIn tile g w n cells).1)
          (BitVec.ofNat 16384 (cellsIn tile g w n cells).2) 0 0 ready) = c' := if_pos hz
      rw [est, ihn]
      congr 1
      simp only [eq_iff_iff]
      constructor
      · rintro ⟨k, hk, e⟩; exact ⟨k, by omega, e⟩
      · rintro ⟨k, hk, e1, e2⟩
        refine ⟨k, ?_, e1, e2⟩
        rcases Nat.lt_succ_iff_lt_or_eq.mp hk with h | h
        · exact h
        · subst h; exact absurd hz e2
    · have est : (if (cellsIn tile g w n cells).1 = 0 then c' else c'.putReg (regAt d n) (BitVec.ofNat 16384 (cellsIn tile g w n cells).1)
          (BitVec.ofNat 16384 (cellsIn tile g w n cells).2) 0 0 ready) = c'.putReg (regAt d n)
            (BitVec.ofNat 16384 (cellsIn tile g w n cells).1) (BitVec.ofNat 16384 (cellsIn tile g w n cells).2) 0 0 ready := if_neg hz
      rw [est]
      simp only [Context.putReg]
      by_cases hq : regAt d n = q
      · subst hq
        have e : ((regAt d n).val + 32 - d.val) % 32 = n := by simp only [regAt]; omega
        rw [if_pos ⟨n, by omega, rfl, hz⟩]
        have hno : ¬∃ k, k < n ∧ regAt d k = regAt d n ∧ (cellsIn tile g w k cells).1 ≠ 0 := by
          rintro ⟨k, hk, e1, -⟩
          have := regAt_inj (by omega) (by omega) e1
          omega
        rw [if_neg hno] at ihn
        simp only [e]
        rw [← ihn]
        simp
      · have hv : (regAt d n).val ≠ q.val := fun h => hq (Fin.ext h)
        have : (c'.vec.v.set (regAt d n).val ((c'.vec.v[regAt d n] &&& ~~~BitVec.ofNat 16384 (cellsIn tile g w n cells).1) |||
            (BitVec.ofNat 16384 (cellsIn tile g w n cells).2 &&& BitVec.ofNat 16384 (cellsIn tile g w n cells).1)) (regAt d n).isLt)[q] =
            c'.vec.v[q] := by
          simp [hv]
        rw [this, ihn]
        congr 1
        simp only [eq_iff_iff]
        constructor
        · rintro ⟨k, hk, e⟩; exact ⟨k, by omega, e⟩
        · rintro ⟨k, hk, e1, e2⟩
          refine ⟨k, ?_, e1, e2⟩
          rcases Nat.lt_succ_iff_lt_or_eq.mp hk with h | h
          · exact h
          · subst h; exact absurd e1 hq

/-- A register outside the group is unchanged. -/
theorem Context.putCells_other (c : Context) (tile : Bool) (g : Nat) (d : VReg) (n w : Nat) (cells : List (Nat × Nat)) (ready : Nat)
    (hn : n ≤ 32) (q : VReg) (hq : ∀ k, k < n → regAt d k ≠ q) : (c.putCells tile g d n w cells ready).vec.v[q] = c.vec.v[q] := by
  rw [Context.putCells_reg c tile g d n w cells ready hn q, if_neg]
  rintro ⟨k, hk, e, -⟩
  exact hq k hk e

/-- Reading an element back: the value its cell gives, or what was there. -/
theorem Context.putCells_elem (c : Context) (v : VView) (d : VReg) (n w : Nat) (cells : List (Nat × Nat)) (ready : Nat)
    (hg : 0 < v.g) (hg8 : v.g ≤ 8) (hw : GoodWidth w) (hn : n ≤ 32) (hd : (cells.map (fun p => p.1)).Nodup) (e : Nat)
    (he : (placeOf v.tile v.g w e).1 < n) :
    (c.putCells v.tile v.g d n w cells ready).vec.elem v d w e =
      match cells.find? (fun p => p.1 == e) with
      | some p => p.2 % 2 ^ w
      | none => c.vec.elem v d w e := by
  obtain ⟨hl1, hl2⟩ := placeOf_lane v.tile hg hw e
  have hw64 : w ≤ 64 := by rcases hw with rfl | rfl | rfl | rfl | rfl <;> decide
  apply Nat.eq_of_testBit_eq
  intro i
  unfold VecRegs.elem
  rw [bitsAt_testBit, Context.putCells_reg c v.tile v.g d n w cells ready hn]
  have hk : ((regAt d (placeOf v.tile v.g w e).1).val + 32 - d.val) % 32 = (placeOf v.tile v.g w e).1 := by
    simp only [regAt]; omega
  simp only [hk]
  by_cases hi : i < w
  swap
  · have hf : ∀ p : Nat × Nat, (p.2 % 2 ^ w).testBit i = false := by
      intro p; rw [Nat.testBit_mod_two_pow]; simp [hi]
    cases cells.find? (fun p => p.1 == e) with
    | some p => simp [hi, hf]
    | none => simp [bitsAt_testBit, hi]
  have hb : (placeOf v.tile v.g w e).2 + i < 16384 := by omega
  have other : ∀ p ∈ cells, (placeOf v.tile v.g w p.1).1 = (placeOf v.tile v.g w e).1 →
      (placeOf v.tile v.g w p.1).2 ≤ (placeOf v.tile v.g w e).2 + i →
      (placeOf v.tile v.g w e).2 + i < (placeOf v.tile v.g w p.1).2 + w → p.1 = e := by
    intro p hp h1 h2 h3
    exact placeOf_inj v.tile hg hw h1 ⟨h2, h3⟩ ⟨by omega, by omega⟩
  obtain ⟨m1, m2⟩ := cellsIn_testBit v.tile v.g w (placeOf v.tile v.g w e).1 cells ((placeOf v.tile v.g w e).2 + i)
  cases hf : cells.find? (fun p => p.1 == e) with
  | none =>
    have hno := List.find?_eq_none.mp hf
    have z : (cellsIn v.tile v.g w (placeOf v.tile v.g w e).1 cells).1.testBit ((placeOf v.tile v.g w e).2 + i) = false := by
      rw [m1, Bool.eq_false_iff, Ne, List.any_eq_true]
      rintro ⟨p, hp, hh⟩
      simp only [Bool.and_eq_true, beq_iff_eq, decide_eq_true_eq] at hh
      exact hno p hp (by simpa using other p hp hh.1.1 hh.1.2 hh.2)
    simp only [bitsAt_testBit, hi, decide_true, Bool.true_and]
    split
    · simp only [BitVec.getLsbD_or, BitVec.getLsbD_and, BitVec.getLsbD_not, BitVec.getLsbD_ofNat, hb, decide_true, Bool.true_and, z,
        Bool.not_false, Bool.and_true, Bool.and_false, Bool.or_false]
    · rfl
  | some p =>
    have hp := List.mem_of_find?_eq_some hf
    have hpe : p.1 = e := by simpa using List.find?_some hf
    have o : (cellsIn v.tile v.g w (placeOf v.tile v.g w e).1 cells).1.testBit ((placeOf v.tile v.g w e).2 + i) = true := by
      rw [m1, List.any_eq_true]
      refine ⟨p, hp, ?_⟩
      rw [hpe]
      simp only [beq_self_eq_true, Bool.true_and, Bool.and_eq_true, decide_eq_true_eq]
      omega
    have o2 : (cellsIn v.tile v.g w (placeOf v.tile v.g w e).1 cells).2.testBit ((placeOf v.tile v.g w e).2 + i) = p.2.testBit i := by
      rw [m2]
      by_cases ht : p.2.testBit i = true
      · rw [ht, List.any_eq_true]
        refine ⟨p, hp, ?_⟩
        rw [hpe]
        simp only [beq_self_eq_true, Bool.true_and, Bool.and_eq_true, decide_eq_true_eq]
        refine ⟨⟨by omega, by omega⟩, ?_⟩
        rw [show (placeOf v.tile v.g w e).2 + i - (placeOf v.tile v.g w e).2 = i by omega]
        exact ht
      · rw [Bool.eq_false_iff.mpr ht, Bool.eq_false_iff, Ne, List.any_eq_true]
        rintro ⟨q, hq, hh⟩
        simp only [Bool.and_eq_true, beq_iff_eq, decide_eq_true_eq] at hh
        have hqe := other q hq hh.1.1.1 hh.1.1.2 hh.1.2
        have : q = p := List.inj_on_of_nodup_map hd hq hp (hqe.trans hpe.symm)
        subst this
        rw [hpe, show (placeOf v.tile v.g w e).2 + i - (placeOf v.tile v.g w e).2 = i by omega] at hh
        exact ht hh.2
    have nz : (cellsIn v.tile v.g w (placeOf v.tile v.g w e).1 cells).1 ≠ 0 := by
      intro h0; rw [h0, Nat.zero_testBit] at o; cases o
    rw [if_pos ⟨_, he, rfl, nz⟩]
    simp only [hi, decide_true, Bool.true_and]
    simp only [BitVec.getLsbD_or, BitVec.getLsbD_and, BitVec.getLsbD_not, BitVec.getLsbD_ofNat, hb, decide_true, Bool.true_and, o, o2,
      Bool.not_true, Bool.and_false, Bool.false_or, Bool.and_true]
    rw [Nat.testBit_mod_two_pow]
    simp [hi]

/-- The place of an element below VLMAX lies in the group. -/
theorem placeOf_group {v : VView} (hg : 0 < v.g) (hl : v.tile = true → v.lmul = 8) {e : Nat} (he : e < v.vlmax * v.per) :
    (placeOf v.tile v.g v.sew e).1 < v.lmul := by
  have hw := Fmt.sew_good v.fmt
  have hn : 0 < 8 * v.g := by omega
  unfold VView.vlmax VView.per VView.sew at he
  unfold placeOf VView.sew
  cases ht : v.tile
  · simp only [ht, Bool.false_eq_true, if_false, Nat.mul_one] at *
    rw [Nat.div_div_eq_div_mul]
    have hwp : 0 < v.fmt.sew := by rcases hw with h | h | h | h | h <;> omega
    rw [Nat.div_lt_iff_lt_mul (Nat.mul_pos hn (Nat.div_pos (by rcases hw with h | h | h | h | h <;> omega) hwp))]
    have : v.lmul * 8 * v.g * 256 / v.fmt.sew = v.lmul * (8 * v.g * (256 / v.fmt.sew)) := by
      have hdvd : v.fmt.sew ∣ 256 := by rcases hw with h | h | h | h | h <;> rw [h] <;> decide
      rw [Nat.mul_div_assoc _ hdvd]; ring
    omega
  · simp only [ht, if_true] at *
    rw [hl trivial]
    have gen : ∀ p : Nat, 0 < p → p * v.fmt.sew = 512 → 512 / v.fmt.sew = p →
        2 * (e / (512 / v.fmt.sew) / (8 * v.g)) + v.fmt.sew * (e % (512 / v.fmt.sew)) / 256 < 8 := by
      intro p hp hpw hd
      rw [hd] at he ⊢
      have h1 : e / p / (8 * v.g) < 4 := by
        rw [Nat.div_lt_iff_lt_mul hn, Nat.div_lt_iff_lt_mul hp]; nlinarith
      have h2 : v.fmt.sew * (e % p) < 512 := by
        have := Nat.mod_lt e hp
        nlinarith
      omega
    rcases hw with h | h | h | h | h
    · exact gen 128 (by decide) (by rw [h]) (by rw [h])
    · exact gen 64 (by decide) (by rw [h]) (by rw [h])
    · exact gen 32 (by decide) (by rw [h]) (by rw [h])
    · exact gen 16 (by decide) (by rw [h]) (by rw [h])
    · exact gen 8 (by decide) (by rw [h]) (by rw [h])

end Sys2Proof.Machine
end

