-- ==== Sys2Proof/Laws/Encoding.lean ====
section
/-! SUPPORT. What the decoder finds in the words the encoder builds: fields of each format, codes, and majors. -/

set_option maxRecDepth 4000

namespace Sys2Proof

set_option Elab.async false

@[simp] theorem x5_r5 (a : Fin 32) : x5 (r5 a) = a := by
  apply Fin.ext; simp [x5, r5]
@[simp] theorem x3_r3 (a : Fin 8) : x3 (r3 a) = a := by
  apply Fin.ext; simp [x3, r3]
@[simp] theorem x4_r4 (a : Fin 16) : x4 (r4 a) = a := by
  apply Fin.ext; simp [x4, r4]
@[simp] theorem x2_r2 (a : Fin 4) : x2 (r2 a) = a := by
  apply Fin.ext; simp [x2, r2]
@[simp] theorem x1_r1 (a : Fin 2) : x1 (r1 a) = a := by
  apply Fin.ext; simp [x1, r1]
@[simp] theorem x6_r6 (a : Fin 64) : x6 (r6 a) = a := by
  apply Fin.ext; simp [x6, r6]
@[simp] theorem mreg_m5 (a : Fin 8) : mreg (m5 a) = a := by
  revert a; decide
@[simp] theorem m5_lt (a : Fin 8) : (m5 a).toNat < 8 := by
  revert a; decide
@[simp] theorem inMask_m5 (a : Fin 8) (r : Decoded) : inMask (m5 a) r = r := if_pos (m5_lt a)
@[simp] theorem RMode.ofCode_code (a : RMode) : RMode.ofCode a.code = some a := by cases a <;> rfl
@[simp] theorem CvtCode.ofCode_code (a : CvtCode) : CvtCode.ofCode a.code = some a := by cases a <;> rfl
@[simp] theorem LdWidth.ofCode_code (a : LdWidth) : LdWidth.ofCode a.code = some a := by cases a <;> rfl
@[simp] theorem StWidth.ofCode_code (a : StWidth) : StWidth.ofCode a.code = some a := by cases a <;> rfl
@[simp] theorem Scope.ofCode_code (a : Scope) : Scope.ofCode a.code = some a := by cases a <;> rfl
@[simp] theorem VCmpOp.ofCode_code (a : VCmpOp) : VCmpOp.ofCode a.code = some a := by cases a <;> rfl
@[simp] theorem VFCmpOp.ofCode_code (a : VFCmpOp) : VFCmpOp.ofCode a.code = some a := by cases a <;> rfl
@[simp] theorem RedOp.ofCode_code (a : RedOp) : RedOp.ofCode a.code = some a := by cases a <;> rfl
@[simp] theorem coded_some {α : Type} (v : α) (k : α → Decoded) : coded (some v) k = k v := rfl
@[simp] theorem accept_true (e : DecodeError) (i : Instr) : accept true e i = .ok i := rfl
@[simp] theorem zeroed_true (i : Instr) : zeroed true i = .ok i := rfl
@[simp] theorem varLat_zero (hi : BitVec 16) (rd : BitVec 5) (maj : BitVec 7) (r : Decoded) : varLat ⟨hi, rd, maj, 0#3⟩ r = r := rfl
@[simp] theorem splitWord_joinWord (hi : BitVec 16) (rd : BitVec 5) (maj : BitVec 7) (lo : BitVec 3) :
    splitWord (joinWord hi rd maj lo) = ⟨hi, rd, maj, lo⟩ := by
  unfold splitWord joinWord
  congr 1 <;> ext i hi
  all_goals
    simp only [BitVec.getElem_extractLsb', BitVec.getLsbD_append]
    rw [← BitVec.getLsbD_eq_getElem]
    repeat' split
    all_goals first | omega | (congr 1; omega)

@[simp] theorem hR_at10_6 (f : BitVec 6) (a : BitVec 5) (b : BitVec 5) : (hR f a b).extractLsb' 10 6 = f := by
  unfold hR
  ext i hi
  simp only [BitVec.getElem_extractLsb', BitVec.getLsbD_append]
  rw [← BitVec.getLsbD_eq_getElem]
  repeat' split
  all_goals first | omega | (congr 1; omega)

@[simp] theorem hR_funct6 (f : BitVec 6) (a : BitVec 5) (b : BitVec 5) (rd : BitVec 5) (maj : BitVec 7) (lo : BitVec 3) :
    (Fields.mk (hR f a b) rd maj lo).funct6 = f := hR_at10_6 f a b

@[simp] theorem hR_at5_5 (f : BitVec 6) (a : BitVec 5) (b : BitVec 5) : (hR f a b).extractLsb' 5 5 = a := by
  unfold hR
  ext i hi
  simp only [BitVec.getElem_extractLsb', BitVec.getLsbD_append]
  rw [← BitVec.getLsbD_eq_getElem]
  repeat' split
  all_goals first | omega | (congr 1; omega)

@[simp] theorem hR_r2 (f : BitVec 6) (a : BitVec 5) (b : BitVec 5) (rd : BitVec 5) (maj : BitVec 7) (lo : BitVec 3) :
    (Fields.mk (hR f a b) rd maj lo).r2 = a := hR_at5_5 f a b

@[simp] theorem hR_at0_5 (f : BitVec 6) (a : BitVec 5) (b : BitVec 5) : (hR f a b).extractLsb' 0 5 = b := by
  unfold hR
  ext i hi
  simp only [BitVec.getElem_extractLsb', BitVec.getLsbD_append]
  rw [← BitVec.getLsbD_eq_getElem]
  repeat' split
  all_goals first | omega | (congr 1; omega)

@[simp] theorem hR_r1 (f : BitVec 6) (a : BitVec 5) (b : BitVec 5) (rd : BitVec 5) (maj : BitVec 7) (lo : BitVec 3) :
    (Fields.mk (hR f a b) rd maj lo).r1 = b := hR_at0_5 f a b

@[simp] theorem hF_at13_3 (f : BitVec 3) (m : BitVec 3) (a : BitVec 5) (b : BitVec 5) : (hF f m a b).extractLsb' 13 3 = f := by
  unfold hF
  ext i hi
  simp only [BitVec.getElem_extractLsb', BitVec.getLsbD_append]
  rw [← BitVec.getLsbD_eq_getElem]
  repeat' split
  all_goals first | omega | (congr 1; omega)

@[simp] theorem hF_funct3 (f : BitVec 3) (m : BitVec 3) (a : BitVec 5) (b : BitVec 5) (rd : BitVec 5) (maj : BitVec 7) (lo : BitVec 3) :
    (Fields.mk (hF f m a b) rd maj lo).funct3 = f := hF_at13_3 f m a b

@[simp] theorem hF_at10_3 (f : BitVec 3) (m : BitVec 3) (a : BitVec 5) (b : BitVec 5) : (hF f m a b).extractLsb' 10 3 = m := by
  unfold hF
  ext i hi
  simp only [BitVec.getElem_extractLsb', BitVec.getLsbD_append]
  rw [← BitVec.getLsbD_eq_getElem]
  repeat' split
  all_goals first | omega | (congr 1; omega)

@[simp] theorem hF_mid3 (f : BitVec 3) (m : BitVec 3) (a : BitVec 5) (b : BitVec 5) (rd : BitVec 5) (maj : BitVec 7) (lo : BitVec 3) :
    (Fields.mk (hF f m a b) rd maj lo).mid3 = m := hF_at10_3 f m a b

@[simp] theorem hF_at5_5 (f : BitVec 3) (m : BitVec 3) (a : BitVec 5) (b : BitVec 5) : (hF f m a b).extractLsb' 5 5 = a := by
  unfold hF
  ext i hi
  simp only [BitVec.getElem_extractLsb', BitVec.getLsbD_append]
  rw [← BitVec.getLsbD_eq_getElem]
  repeat' split
  all_goals first | omega | (congr 1; omega)

@[simp] theorem hF_r2 (f : BitVec 3) (m : BitVec 3) (a : BitVec 5) (b : BitVec 5) (rd : BitVec 5) (maj : BitVec 7) (lo : BitVec 3) :
    (Fields.mk (hF f m a b) rd maj lo).r2 = a := hF_at5_5 f m a b

@[simp] theorem hF_at0_5 (f : BitVec 3) (m : BitVec 3) (a : BitVec 5) (b : BitVec 5) : (hF f m a b).extractLsb' 0 5 = b := by
  unfold hF
  ext i hi
  simp only [BitVec.getElem_extractLsb', BitVec.getLsbD_append]
  rw [← BitVec.getLsbD_eq_getElem]
  repeat' split
  all_goals first | omega | (congr 1; omega)

@[simp] theorem hF_r1 (f : BitVec 3) (m : BitVec 3) (a : BitVec 5) (b : BitVec 5) (rd : BitVec 5) (maj : BitVec 7) (lo : BitVec 3) :
    (Fields.mk (hF f m a b) rd maj lo).r1 = b := hF_at0_5 f m a b

@[simp] theorem hV_at13_3 (f : BitVec 3) (m : BitVec 3) (a : BitVec 5) (b : BitVec 5) : (hV f m a b).extractLsb' 13 3 = f := by
  unfold hV
  ext i hi
  simp only [BitVec.getElem_extractLsb', BitVec.getLsbD_append]
  rw [← BitVec.getLsbD_eq_getElem]
  repeat' split
  all_goals first | omega | (congr 1; omega)

@[simp] theorem hV_funct3 (f : BitVec 3) (m : BitVec 3) (a : BitVec 5) (b : BitVec 5) (rd : BitVec 5) (maj : BitVec 7) (lo : BitVec 3) :
    (Fields.mk (hV f m a b) rd maj lo).funct3 = f := hV_at13_3 f m a b

@[simp] theorem hV_at10_3 (f : BitVec 3) (m : BitVec 3) (a : BitVec 5) (b : BitVec 5) : (hV f m a b).extractLsb' 10 3 = m := by
  unfold hV
  ext i hi
  simp only [BitVec.getElem_extractLsb', BitVec.getLsbD_append]
  rw [← BitVec.getLsbD_eq_getElem]
  repeat' split
  all_goals first | omega | (congr 1; omega)

@[simp] theorem hV_mid3 (f : BitVec 3) (m : BitVec 3) (a : BitVec 5) (b : BitVec 5) (rd : BitVec 5) (maj : BitVec 7) (lo : BitVec 3) :
    (Fields.mk (hV f m a b) rd maj lo).mid3 = m := hV_at10_3 f m a b

@[simp] theorem hV_at5_5 (f : BitVec 3) (m : BitVec 3) (a : BitVec 5) (b : BitVec 5) : (hV f m a b).extractLsb' 5 5 = a := by
  unfold hV
  ext i hi
  simp only [BitVec.getElem_extractLsb', BitVec.getLsbD_append]
  rw [← BitVec.getLsbD_eq_getElem]
  repeat' split
  all_goals first | omega | (congr 1; omega)

@[simp] theorem hV_r2 (f : BitVec 3) (m : BitVec 3) (a : BitVec 5) (b : BitVec 5) (rd : BitVec 5) (maj : BitVec 7) (lo : BitVec 3) :
    (Fields.mk (hV f m a b) rd maj lo).r2 = a := hV_at5_5 f m a b

@[simp] theorem hV_at0_5 (f : BitVec 3) (m : BitVec 3) (a : BitVec 5) (b : BitVec 5) : (hV f m a b).extractLsb' 0 5 = b := by
  unfold hV
  ext i hi
  simp only [BitVec.getElem_extractLsb', BitVec.getLsbD_append]
  rw [← BitVec.getLsbD_eq_getElem]
  repeat' split
  all_goals first | omega | (congr 1; omega)

@[simp] theorem hV_r1 (f : BitVec 3) (m : BitVec 3) (a : BitVec 5) (b : BitVec 5) (rd : BitVec 5) (maj : BitVec 7) (lo : BitVec 3) :
    (Fields.mk (hV f m a b) rd maj lo).r1 = b := hV_at0_5 f m a b

@[simp] theorem hI_at5_11 (i : BitVec 11) (b : BitVec 5) : (hI i b).extractLsb' 5 11 = i := by
  unfold hI
  ext i hi
  simp only [BitVec.getElem_extractLsb', BitVec.getLsbD_append]
  rw [← BitVec.getLsbD_eq_getElem]
  repeat' split
  all_goals first | omega | (congr 1; omega)

@[simp] theorem hI_imm11 (i : BitVec 11) (b : BitVec 5) (rd : BitVec 5) (maj : BitVec 7) (lo : BitVec 3) :
    (Fields.mk (hI i b) rd maj lo).imm11 = i := hI_at5_11 i b

@[simp] theorem hI_at0_5 (i : BitVec 11) (b : BitVec 5) : (hI i b).extractLsb' 0 5 = b := by
  unfold hI
  ext i hi
  simp only [BitVec.getElem_extractLsb', BitVec.getLsbD_append]
  rw [← BitVec.getLsbD_eq_getElem]
  repeat' split
  all_goals first | omega | (congr 1; omega)

@[simp] theorem hI_r1 (i : BitVec 11) (b : BitVec 5) (rd : BitVec 5) (maj : BitVec 7) (lo : BitVec 3) :
    (Fields.mk (hI i b) rd maj lo).r1 = b := hI_at0_5 i b

@[simp] theorem hB_at0_5 (o : BitVec 14) (b : BitVec 5) : (hB o b).extractLsb' 0 5 = b := by
  unfold hB
  ext i hi
  simp only [BitVec.getElem_extractLsb', BitVec.getLsbD_append]
  rw [← BitVec.getLsbD_eq_getElem]
  repeat' split
  all_goals first | omega | (congr 1; omega)

@[simp] theorem hB_r1 (o : BitVec 14) (b : BitVec 5) (rd : BitVec 5) (maj : BitVec 7) (lo : BitVec 3) :
    (Fields.mk (hB o b) rd maj lo).r1 = b := hB_at0_5 o b

theorem hVM_bit15 (y : Bool) (e : Bool) (c : BitVec 4) (a : BitVec 5) (b : BitVec 5) : (hVM y e c a b).getLsbD 15 = y := by
  unfold hVM
  simp only [BitVec.getLsbD_append]
  simp

@[simp] theorem hVM_fbit15 (y : Bool) (e : Bool) (c : BitVec 4) (a : BitVec 5) (b : BitVec 5) (rd : BitVec 5) (maj : BitVec 7) (lo : BitVec 3) :
    (Fields.mk (hVM y e c a b) rd maj lo).bit 15 = y := hVM_bit15 y e c a b

theorem hVM_bit14 (y : Bool) (e : Bool) (c : BitVec 4) (a : BitVec 5) (b : BitVec 5) : (hVM y e c a b).getLsbD 14 = e := by
  unfold hVM
  simp only [BitVec.getLsbD_append]
  simp

@[simp] theorem hVM_fbit14 (y : Bool) (e : Bool) (c : BitVec 4) (a : BitVec 5) (b : BitVec 5) (rd : BitVec 5) (maj : BitVec 7) (lo : BitVec 3) :
    (Fields.mk (hVM y e c a b) rd maj lo).bit 14 = e := hVM_bit14 y e c a b

@[simp] theorem hVM_at10_4 (y : Bool) (e : Bool) (c : BitVec 4) (a : BitVec 5) (b : BitVec 5) : (hVM y e c a b).extractLsb' 10 4 = c := by
  unfold hVM
  ext i hi
  simp only [BitVec.getElem_extractLsb', BitVec.getLsbD_append]
  rw [← BitVec.getLsbD_eq_getElem]
  repeat' split
  all_goals first | omega | (congr 1; omega)

@[simp] theorem hVM_cls (y : Bool) (e : Bool) (c : BitVec 4) (a : BitVec 5) (b : BitVec 5) (rd : BitVec 5) (maj : BitVec 7) (lo : BitVec 3) :
    (Fields.mk (hVM y e c a b) rd maj lo).cls = x4 c := congrArg x4 (hVM_at10_4 y e c a b)

@[simp] theorem hVM_at5_5 (y : Bool) (e : Bool) (c : BitVec 4) (a : BitVec 5) (b : BitVec 5) : (hVM y e c a b).extractLsb' 5 5 = a := by
  unfold hVM
  ext i hi
  simp only [BitVec.getElem_extractLsb', BitVec.getLsbD_append]
  rw [← BitVec.getLsbD_eq_getElem]
  repeat' split
  all_goals first | omega | (congr 1; omega)

@[simp] theorem hVM_r2 (y : Bool) (e : Bool) (c : BitVec 4) (a : BitVec 5) (b : BitVec 5) (rd : BitVec 5) (maj : BitVec 7) (lo : BitVec 3) :
    (Fields.mk (hVM y e c a b) rd maj lo).r2 = a := hVM_at5_5 y e c a b

@[simp] theorem hVM_at0_5 (y : Bool) (e : Bool) (c : BitVec 4) (a : BitVec 5) (b : BitVec 5) : (hVM y e c a b).extractLsb' 0 5 = b := by
  unfold hVM
  ext i hi
  simp only [BitVec.getElem_extractLsb', BitVec.getLsbD_append]
  rw [← BitVec.getLsbD_eq_getElem]
  repeat' split
  all_goals first | omega | (congr 1; omega)

@[simp] theorem hVM_r1 (y : Bool) (e : Bool) (c : BitVec 4) (a : BitVec 5) (b : BitVec 5) (rd : BitVec 5) (maj : BitVec 7) (lo : BitVec 3) :
    (Fields.mk (hVM y e c a b) rd maj lo).r1 = b := hVM_at0_5 y e c a b

@[simp] theorem hSM_at9_7 (i : BitVec 7) (c : BitVec 4) (b : BitVec 5) : (hSM i c b).extractLsb' 9 7 = i := by
  unfold hSM
  ext i hi
  simp only [BitVec.getElem_extractLsb', BitVec.getLsbD_append]
  rw [← BitVec.getLsbD_eq_getElem]
  repeat' split
  all_goals first | omega | (congr 1; omega)

@[simp] theorem hSM_imm7 (i : BitVec 7) (c : BitVec 4) (b : BitVec 5) (rd : BitVec 5) (maj : BitVec 7) (lo : BitVec 3) :
    (Fields.mk (hSM i c b) rd maj lo).imm7 = i := hSM_at9_7 i c b

@[simp] theorem hSM_at5_4 (i : BitVec 7) (c : BitVec 4) (b : BitVec 5) : (hSM i c b).extractLsb' 5 4 = c := by
  unfold hSM
  ext i hi
  simp only [BitVec.getElem_extractLsb', BitVec.getLsbD_append]
  rw [← BitVec.getLsbD_eq_getElem]
  repeat' split
  all_goals first | omega | (congr 1; omega)

@[simp] theorem hSM_smCls (i : BitVec 7) (c : BitVec 4) (b : BitVec 5) (rd : BitVec 5) (maj : BitVec 7) (lo : BitVec 3) :
    (Fields.mk (hSM i c b) rd maj lo).smCls = x4 c := congrArg x4 (hSM_at5_4 i c b)

@[simp] theorem hSM_at0_5 (i : BitVec 7) (c : BitVec 4) (b : BitVec 5) : (hSM i c b).extractLsb' 0 5 = b := by
  unfold hSM
  ext i hi
  simp only [BitVec.getElem_extractLsb', BitVec.getLsbD_append]
  rw [← BitVec.getLsbD_eq_getElem]
  repeat' split
  all_goals first | omega | (congr 1; omega)

@[simp] theorem hSM_r1 (i : BitVec 7) (c : BitVec 4) (b : BitVec 5) (rd : BitVec 5) (maj : BitVec 7) (lo : BitVec 3) :
    (Fields.mk (hSM i c b) rd maj lo).r1 = b := hSM_at0_5 i c b

@[simp] theorem hA_at14_2 (o : BitVec 2) (c : BitVec 4) (a : BitVec 5) (b : BitVec 5) : (hA o c a b).extractLsb' 14 2 = o := by
  unfold hA
  ext i hi
  simp only [BitVec.getElem_extractLsb', BitVec.getLsbD_append]
  rw [← BitVec.getLsbD_eq_getElem]
  repeat' split
  all_goals first | omega | (congr 1; omega)

@[simp] theorem hA_op2 (o : BitVec 2) (c : BitVec 4) (a : BitVec 5) (b : BitVec 5) (rd : BitVec 5) (maj : BitVec 7) (lo : BitVec 3) :
    (Fields.mk (hA o c a b) rd maj lo).op2 = o := hA_at14_2 o c a b

@[simp] theorem hA_at10_4 (o : BitVec 2) (c : BitVec 4) (a : BitVec 5) (b : BitVec 5) : (hA o c a b).extractLsb' 10 4 = c := by
  unfold hA
  ext i hi
  simp only [BitVec.getElem_extractLsb', BitVec.getLsbD_append]
  rw [← BitVec.getLsbD_eq_getElem]
  repeat' split
  all_goals first | omega | (congr 1; omega)

@[simp] theorem hA_cls (o : BitVec 2) (c : BitVec 4) (a : BitVec 5) (b : BitVec 5) (rd : BitVec 5) (maj : BitVec 7) (lo : BitVec 3) :
    (Fields.mk (hA o c a b) rd maj lo).cls = x4 c := congrArg x4 (hA_at10_4 o c a b)

@[simp] theorem hA_at5_5 (o : BitVec 2) (c : BitVec 4) (a : BitVec 5) (b : BitVec 5) : (hA o c a b).extractLsb' 5 5 = a := by
  unfold hA
  ext i hi
  simp only [BitVec.getElem_extractLsb', BitVec.getLsbD_append]
  rw [← BitVec.getLsbD_eq_getElem]
  repeat' split
  all_goals first | omega | (congr 1; omega)

@[simp] theorem hA_r2 (o : BitVec 2) (c : BitVec 4) (a : BitVec 5) (b : BitVec 5) (rd : BitVec 5) (maj : BitVec 7) (lo : BitVec 3) :
    (Fields.mk (hA o c a b) rd maj lo).r2 = a := hA_at5_5 o c a b

@[simp] theorem hA_at0_5 (o : BitVec 2) (c : BitVec 4) (a : BitVec 5) (b : BitVec 5) : (hA o c a b).extractLsb' 0 5 = b := by
  unfold hA
  ext i hi
  simp only [BitVec.getElem_extractLsb', BitVec.getLsbD_append]
  rw [← BitVec.getLsbD_eq_getElem]
  repeat' split
  all_goals first | omega | (congr 1; omega)

@[simp] theorem hA_r1 (o : BitVec 2) (c : BitVec 4) (a : BitVec 5) (b : BitVec 5) (rd : BitVec 5) (maj : BitVec 7) (lo : BitVec 3) :
    (Fields.mk (hA o c a b) rd maj lo).r1 = b := hA_at0_5 o c a b

@[simp] theorem hMX_at11_5 (x : BitVec 5) (cb : BitVec 3) (sat : Bool) (z : Bool) (iv : Bool) (cr : Bool) (cg : Bool) (s : BitVec 2) (l : BitVec 1) : (hMX x cb sat z iv cr cg s l).extractLsb' 11 5 = x := by
  unfold hMX
  ext i hi
  simp only [BitVec.getElem_extractLsb', BitVec.getLsbD_append]
  rw [← BitVec.getLsbD_eq_getElem]
  repeat' split
  all_goals first | omega | (congr 1; omega)

@[simp] theorem hMX_top5 (x : BitVec 5) (cb : BitVec 3) (sat : Bool) (z : Bool) (iv : Bool) (cr : Bool) (cg : Bool) (s : BitVec 2) (l : BitVec 1) (rd : BitVec 5) (maj : BitVec 7) (lo : BitVec 3) :
    (Fields.mk (hMX x cb sat z iv cr cg s l) rd maj lo).top5 = x := hMX_at11_5 x cb sat z iv cr cg s l

@[simp] theorem hMX_at8_3 (x : BitVec 5) (cb : BitVec 3) (sat : Bool) (z : Bool) (iv : Bool) (cr : Bool) (cg : Bool) (s : BitVec 2) (l : BitVec 1) : (hMX x cb sat z iv cr cg s l).extractLsb' 8 3 = cb := by
  unfold hMX
  ext i hi
  simp only [BitVec.getElem_extractLsb', BitVec.getLsbD_append]
  rw [← BitVec.getLsbD_eq_getElem]
  repeat' split
  all_goals first | omega | (congr 1; omega)

theorem hMX_bit7 (x : BitVec 5) (cb : BitVec 3) (sat : Bool) (z : Bool) (iv : Bool) (cr : Bool) (cg : Bool) (s : BitVec 2) (l : BitVec 1) : (hMX x cb sat z iv cr cg s l).getLsbD 7 = sat := by
  unfold hMX
  simp only [BitVec.getLsbD_append]
  simp

@[simp] theorem hMX_fbit7 (x : BitVec 5) (cb : BitVec 3) (sat : Bool) (z : Bool) (iv : Bool) (cr : Bool) (cg : Bool) (s : BitVec 2) (l : BitVec 1) (rd : BitVec 5) (maj : BitVec 7) (lo : BitVec 3) :
    (Fields.mk (hMX x cb sat z iv cr cg s l) rd maj lo).bit 7 = sat := hMX_bit7 x cb sat z iv cr cg s l

theorem hMX_bit6 (x : BitVec 5) (cb : BitVec 3) (sat : Bool) (z : Bool) (iv : Bool) (cr : Bool) (cg : Bool) (s : BitVec 2) (l : BitVec 1) : (hMX x cb sat z iv cr cg s l).getLsbD 6 = z := by
  unfold hMX
  simp only [BitVec.getLsbD_append]
  simp

@[simp] theorem hMX_fbit6 (x : BitVec 5) (cb : BitVec 3) (sat : Bool) (z : Bool) (iv : Bool) (cr : Bool) (cg : Bool) (s : BitVec 2) (l : BitVec 1) (rd : BitVec 5) (maj : BitVec 7) (lo : BitVec 3) :
    (Fields.mk (hMX x cb sat z iv cr cg s l) rd maj lo).bit 6 = z := hMX_bit6 x cb sat z iv cr cg s l

theorem hMX_bit5 (x : BitVec 5) (cb : BitVec 3) (sat : Bool) (z : Bool) (iv : Bool) (cr : Bool) (cg : Bool) (s : BitVec 2) (l : BitVec 1) : (hMX x cb sat z iv cr cg s l).getLsbD 5 = iv := by
  unfold hMX
  simp only [BitVec.getLsbD_append]
  simp

@[simp] theorem hMX_fbit5 (x : BitVec 5) (cb : BitVec 3) (sat : Bool) (z : Bool) (iv : Bool) (cr : Bool) (cg : Bool) (s : BitVec 2) (l : BitVec 1) (rd : BitVec 5) (maj : BitVec 7) (lo : BitVec 3) :
    (Fields.mk (hMX x cb sat z iv cr cg s l) rd maj lo).bit 5 = iv := hMX_bit5 x cb sat z iv cr cg s l

theorem hMX_bit4 (x : BitVec 5) (cb : BitVec 3) (sat : Bool) (z : Bool) (iv : Bool) (cr : Bool) (cg : Bool) (s : BitVec 2) (l : BitVec 1) : (hMX x cb sat z iv cr cg s l).getLsbD 4 = cr := by
  unfold hMX
  simp only [BitVec.getLsbD_append]
  simp

@[simp] theorem hMX_fbit4 (x : BitVec 5) (cb : BitVec 3) (sat : Bool) (z : Bool) (iv : Bool) (cr : Bool) (cg : Bool) (s : BitVec 2) (l : BitVec 1) (rd : BitVec 5) (maj : BitVec 7) (lo : BitVec 3) :
    (Fields.mk (hMX x cb sat z iv cr cg s l) rd maj lo).bit 4 = cr := hMX_bit4 x cb sat z iv cr cg s l

theorem hMX_bit3 (x : BitVec 5) (cb : BitVec 3) (sat : Bool) (z : Bool) (iv : Bool) (cr : Bool) (cg : Bool) (s : BitVec 2) (l : BitVec 1) : (hMX x cb sat z iv cr cg s l).getLsbD 3 = cg := by
  unfold hMX
  simp only [BitVec.getLsbD_append]
  simp

@[simp] theorem hMX_fbit3 (x : BitVec 5) (cb : BitVec 3) (sat : Bool) (z : Bool) (iv : Bool) (cr : Bool) (cg : Bool) (s : BitVec 2) (l : BitVec 1) (rd : BitVec 5) (maj : BitVec 7) (lo : BitVec 3) :
    (Fields.mk (hMX x cb sat z iv cr cg s l) rd maj lo).bit 3 = cg := hMX_bit3 x cb sat z iv cr cg s l

@[simp] theorem hMX_at1_2 (x : BitVec 5) (cb : BitVec 3) (sat : Bool) (z : Bool) (iv : Bool) (cr : Bool) (cg : Bool) (s : BitVec 2) (l : BitVec 1) : (hMX x cb sat z iv cr cg s l).extractLsb' 1 2 = s := by
  unfold hMX
  ext i hi
  simp only [BitVec.getElem_extractLsb', BitVec.getLsbD_append]
  rw [← BitVec.getLsbD_eq_getElem]
  repeat' split
  all_goals first | omega | (congr 1; omega)

@[simp] theorem hMX_at0_1 (x : BitVec 5) (cb : BitVec 3) (sat : Bool) (z : Bool) (iv : Bool) (cr : Bool) (cg : Bool) (s : BitVec 2) (l : BitVec 1) : (hMX x cb sat z iv cr cg s l).extractLsb' 0 1 = l := by
  unfold hMX
  ext i hi
  simp only [BitVec.getElem_extractLsb', BitVec.getLsbD_append]
  rw [← BitVec.getLsbD_eq_getElem]
  repeat' split
  all_goals first | omega | (congr 1; omega)

@[simp] theorem hTD_at11_5 (x : BitVec 5) (s : BitVec 2) (iv : Bool) (c : Bool) (t : Bool) (k : BitVec 5) : (hTD x s iv c t k).extractLsb' 11 5 = x := by
  unfold hTD
  ext i hi
  simp only [BitVec.getElem_extractLsb', BitVec.getLsbD_append]
  rw [← BitVec.getLsbD_eq_getElem]
  repeat' split
  all_goals first | omega | (congr 1; omega)

@[simp] theorem hTD_top5 (x : BitVec 5) (s : BitVec 2) (iv : Bool) (c : Bool) (t : Bool) (k : BitVec 5) (rd : BitVec 5) (maj : BitVec 7) (lo : BitVec 3) :
    (Fields.mk (hTD x s iv c t k) rd maj lo).top5 = x := hTD_at11_5 x s iv c t k

@[simp] theorem hTD_at8_2 (x : BitVec 5) (s : BitVec 2) (iv : Bool) (c : Bool) (t : Bool) (k : BitVec 5) : (hTD x s iv c t k).extractLsb' 8 2 = s := by
  unfold hTD
  ext i hi
  simp only [BitVec.getElem_extractLsb', BitVec.getLsbD_append]
  rw [← BitVec.getLsbD_eq_getElem]
  repeat' split
  all_goals first | omega | (congr 1; omega)

theorem hTD_bit10 (x : BitVec 5) (s : BitVec 2) (iv : Bool) (c : Bool) (t : Bool) (k : BitVec 5) : (hTD x s iv c t k).getLsbD 10 = false := by
  unfold hTD
  simp only [BitVec.getLsbD_append]
  simp

@[simp] theorem hTD_fbit10 (x : BitVec 5) (s : BitVec 2) (iv : Bool) (c : Bool) (t : Bool) (k : BitVec 5) (rd : BitVec 5) (maj : BitVec 7) (lo : BitVec 3) :
    (Fields.mk (hTD x s iv c t k) rd maj lo).bit 10 = false := hTD_bit10 x s iv c t k

theorem hTD_bit7 (x : BitVec 5) (s : BitVec 2) (iv : Bool) (c : Bool) (t : Bool) (k : BitVec 5) : (hTD x s iv c t k).getLsbD 7 = iv := by
  unfold hTD
  simp only [BitVec.getLsbD_append]
  simp

@[simp] theorem hTD_fbit7 (x : BitVec 5) (s : BitVec 2) (iv : Bool) (c : Bool) (t : Bool) (k : BitVec 5) (rd : BitVec 5) (maj : BitVec 7) (lo : BitVec 3) :
    (Fields.mk (hTD x s iv c t k) rd maj lo).bit 7 = iv := hTD_bit7 x s iv c t k

theorem hTD_bit6 (x : BitVec 5) (s : BitVec 2) (iv : Bool) (c : Bool) (t : Bool) (k : BitVec 5) : (hTD x s iv c t k).getLsbD 6 = c := by
  unfold hTD
  simp only [BitVec.getLsbD_append]
  simp

@[simp] theorem hTD_fbit6 (x : BitVec 5) (s : BitVec 2) (iv : Bool) (c : Bool) (t : Bool) (k : BitVec 5) (rd : BitVec 5) (maj : BitVec 7) (lo : BitVec 3) :
    (Fields.mk (hTD x s iv c t k) rd maj lo).bit 6 = c := hTD_bit6 x s iv c t k

theorem hTD_bit5 (x : BitVec 5) (s : BitVec 2) (iv : Bool) (c : Bool) (t : Bool) (k : BitVec 5) : (hTD x s iv c t k).getLsbD 5 = t := by
  unfold hTD
  simp only [BitVec.getLsbD_append]
  simp

@[simp] theorem hTD_fbit5 (x : BitVec 5) (s : BitVec 2) (iv : Bool) (c : Bool) (t : Bool) (k : BitVec 5) (rd : BitVec 5) (maj : BitVec 7) (lo : BitVec 3) :
    (Fields.mk (hTD x s iv c t k) rd maj lo).bit 5 = t := hTD_bit5 x s iv c t k

@[simp] theorem hTD_at0_5 (x : BitVec 5) (s : BitVec 2) (iv : Bool) (c : Bool) (t : Bool) (k : BitVec 5) : (hTD x s iv c t k).extractLsb' 0 5 = k := by
  unfold hTD
  ext i hi
  simp only [BitVec.getElem_extractLsb', BitVec.getLsbD_append]
  rw [← BitVec.getLsbD_eq_getElem]
  repeat' split
  all_goals first | omega | (congr 1; omega)

@[simp] theorem hTD_r1 (x : BitVec 5) (s : BitVec 2) (iv : Bool) (c : Bool) (t : Bool) (k : BitVec 5) (rd : BitVec 5) (maj : BitVec 7) (lo : BitVec 3) :
    (Fields.mk (hTD x s iv c t k) rd maj lo).r1 = k := hTD_at0_5 x s iv c t k

theorem maj_01 (w : BitVec 32) (hi : BitVec 16) (rd : BitVec 5) (lo : BitVec 3) :
    decodeFields w ⟨hi, rd, 0x01, lo⟩ = decInt (Fields.mk hi rd 0x01 lo) := by
  simp [decodeFields]

theorem maj_02 (w : BitVec 32) (hi : BitVec 16) (rd : BitVec 5) (lo : BitVec 3) :
    decodeFields w ⟨hi, rd, 0x02, lo⟩ = .ok (.addi (Fields.mk hi rd 0x02 lo).d (x5 (Fields.mk hi rd 0x02 lo).r1) (Fields.mk hi rd 0x02 lo).imm11 (Fields.mk hi rd 0x02 lo).stall) := by
  simp [decodeFields]

theorem maj_03 (w : BitVec 32) (hi : BitVec 16) (rd : BitVec 5) (lo : BitVec 3) :
    decodeFields w ⟨hi, rd, 0x03, lo⟩ = .ok (.andi (Fields.mk hi rd 0x03 lo).d (x5 (Fields.mk hi rd 0x03 lo).r1) (Fields.mk hi rd 0x03 lo).imm11 (Fields.mk hi rd 0x03 lo).stall) := by
  simp [decodeFields]

theorem maj_04 (w : BitVec 32) (hi : BitVec 16) (rd : BitVec 5) (lo : BitVec 3) :
    decodeFields w ⟨hi, rd, 0x04, lo⟩ = .ok (.ori (Fields.mk hi rd 0x04 lo).d (x5 (Fields.mk hi rd 0x04 lo).r1) (Fields.mk hi rd 0x04 lo).imm11 (Fields.mk hi rd 0x04 lo).stall) := by
  simp [decodeFields]

theorem maj_05 (w : BitVec 32) (hi : BitVec 16) (rd : BitVec 5) (lo : BitVec 3) :
    decodeFields w ⟨hi, rd, 0x05, lo⟩ = .ok (.xori (Fields.mk hi rd 0x05 lo).d (x5 (Fields.mk hi rd 0x05 lo).r1) (Fields.mk hi rd 0x05 lo).imm11 (Fields.mk hi rd 0x05 lo).stall) := by
  simp [decodeFields]

theorem maj_06 (w : BitVec 32) (hi : BitVec 16) (rd : BitVec 5) (lo : BitVec 3) :
    decodeFields w ⟨hi, rd, 0x06, lo⟩ = decShift (Fields.mk hi rd 0x06 lo) (fun k => .shli (Fields.mk hi rd 0x06 lo).d (x5 (Fields.mk hi rd 0x06 lo).r1) k (Fields.mk hi rd 0x06 lo).stall) := by
  simp [decodeFields]

theorem maj_07 (w : BitVec 32) (hi : BitVec 16) (rd : BitVec 5) (lo : BitVec 3) :
    decodeFields w ⟨hi, rd, 0x07, lo⟩ = decShift (Fields.mk hi rd 0x07 lo) (fun k => .shri (Fields.mk hi rd 0x07 lo).d (x5 (Fields.mk hi rd 0x07 lo).r1) k (Fields.mk hi rd 0x07 lo).stall) := by
  simp [decodeFields]

theorem maj_08 (w : BitVec 32) (hi : BitVec 16) (rd : BitVec 5) (lo : BitVec 3) :
    decodeFields w ⟨hi, rd, 0x08, lo⟩ = decShift (Fields.mk hi rd 0x08 lo) (fun k => .srai (Fields.mk hi rd 0x08 lo).d (x5 (Fields.mk hi rd 0x08 lo).r1) k (Fields.mk hi rd 0x08 lo).stall) := by
  simp [decodeFields]

theorem maj_09 (w : BitVec 32) (hi : BitVec 16) (rd : BitVec 5) (lo : BitVec 3) :
    decodeFields w ⟨hi, rd, 0x09, lo⟩ = .ok (.slti (Fields.mk hi rd 0x09 lo).d (x5 (Fields.mk hi rd 0x09 lo).r1) (Fields.mk hi rd 0x09 lo).imm11 (Fields.mk hi rd 0x09 lo).stall) := by
  simp [decodeFields]

theorem maj_0A (w : BitVec 32) (hi : BitVec 16) (rd : BitVec 5) (lo : BitVec 3) :
    decodeFields w ⟨hi, rd, 0x0A, lo⟩ = .ok (.lih (Fields.mk hi rd 0x0A lo).d hi (Fields.mk hi rd 0x0A lo).stall) := by
  simp [decodeFields]

theorem maj_0B (w : BitVec 32) (hi : BitVec 16) (rd : BitVec 5) (lo : BitVec 3) :
    decodeFields w ⟨hi, rd, 0x0B, lo⟩ = .ok (.adpc (Fields.mk hi rd 0x0B lo).d hi (Fields.mk hi rd 0x0B lo).stall) := by
  simp [decodeFields]

theorem maj_0C (w : BitVec 32) (hi : BitVec 16) (rd : BitVec 5) (lo : BitVec 3) :
    decodeFields w ⟨hi, rd, 0x0C, lo⟩ = decFp .f64 (Fields.mk hi rd 0x0C lo) := by
  simp [decodeFields]

theorem maj_0D (w : BitVec 32) (hi : BitVec 16) (rd : BitVec 5) (lo : BitVec 3) :
    decodeFields w ⟨hi, rd, 0x0D, lo⟩ = decFp .f32 (Fields.mk hi rd 0x0D lo) := by
  simp [decodeFields]

theorem maj_0E (w : BitVec 32) (hi : BitVec 16) (rd : BitVec 5) (lo : BitVec 3) :
    decodeFields w ⟨hi, rd, 0x0E, lo⟩ = decFp .f16 (Fields.mk hi rd 0x0E lo) := by
  simp [decodeFields]

theorem maj_0F (w : BitVec 32) (hi : BitVec 16) (rd : BitVec 5) (lo : BitVec 3) :
    decodeFields w ⟨hi, rd, 0x0F, lo⟩ = decFp .bf16 (Fields.mk hi rd 0x0F lo) := by
  simp [decodeFields]

theorem maj_10 (w : BitVec 32) (hi : BitVec 16) (rd : BitVec 5) (lo : BitVec 3) :
    decodeFields w ⟨hi, rd, 0x10, lo⟩ = coded (LdWidth.ofCode lo) fun k => .ok (.ld k (Fields.mk hi rd 0x10 lo).d (x5 (Fields.mk hi rd 0x10 lo).r1) (Fields.mk hi rd 0x10 lo).imm7 (Fields.mk hi rd 0x10 lo).smCls) := by
  simp [decodeFields]

theorem maj_11 (w : BitVec 32) (hi : BitVec 16) (rd : BitVec 5) (lo : BitVec 3) :
    decodeFields w ⟨hi, rd, 0x11, lo⟩ = coded (StWidth.ofCode lo) fun k => .ok (.st k (Fields.mk hi rd 0x11 lo).d (x5 (Fields.mk hi rd 0x11 lo).r1) (Fields.mk hi rd 0x11 lo).imm7 (Fields.mk hi rd 0x11 lo).smCls) := by
  simp [decodeFields]

theorem maj_12 (w : BitVec 32) (hi : BitVec 16) (rd : BitVec 5) (lo : BitVec 3) :
    decodeFields w ⟨hi, rd, 0x12, lo⟩ = coded (StWidth.ofCode lo) fun k => .ok (.stG k (Fields.mk hi rd 0x12 lo).d (x5 (Fields.mk hi rd 0x12 lo).r1) (Fields.mk hi rd 0x12 lo).imm7 (Fields.mk hi rd 0x12 lo).smCls) := by
  simp [decodeFields]

theorem maj_13 (w : BitVec 32) (hi : BitVec 16) (rd : BitVec 5) (lo : BitVec 3) :
    decodeFields w ⟨hi, rd, 0x13, lo⟩ = decAmo0 (Fields.mk hi rd 0x13 lo) := by
  simp [decodeFields]

theorem maj_14 (w : BitVec 32) (hi : BitVec 16) (rd : BitVec 5) (lo : BitVec 3) :
    decodeFields w ⟨hi, rd, 0x14, lo⟩ = decAmo1 (Fields.mk hi rd 0x14 lo) := by
  simp [decodeFields]

theorem maj_15 (w : BitVec 32) (hi : BitVec 16) (rd : BitVec 5) (lo : BitVec 3) :
    decodeFields w ⟨hi, rd, 0x15, lo⟩ = decAmo2 (Fields.mk hi rd 0x15 lo) := by
  simp [decodeFields]

theorem maj_16 (w : BitVec 32) (hi : BitVec 16) (rd : BitVec 5) (lo : BitVec 3) :
    decodeFields w ⟨hi, rd, 0x16, lo⟩ = decAmoq (Fields.mk hi rd 0x16 lo) := by
  simp [decodeFields]

theorem maj_18 (w : BitVec 32) (hi : BitVec 16) (rd : BitVec 5) (lo : BitVec 3) :
    decodeFields w ⟨hi, rd, 0x18, lo⟩ = .ok (.beq (Fields.mk hi rd 0x18 lo).d (x5 (Fields.mk hi rd 0x18 lo).r1) (Fields.mk hi rd 0x18 lo).off14) := by
  simp [decodeFields]

theorem maj_19 (w : BitVec 32) (hi : BitVec 16) (rd : BitVec 5) (lo : BitVec 3) :
    decodeFields w ⟨hi, rd, 0x19, lo⟩ = .ok (.bne (Fields.mk hi rd 0x19 lo).d (x5 (Fields.mk hi rd 0x19 lo).r1) (Fields.mk hi rd 0x19 lo).off14) := by
  simp [decodeFields]

theorem maj_1A (w : BitVec 32) (hi : BitVec 16) (rd : BitVec 5) (lo : BitVec 3) :
    decodeFields w ⟨hi, rd, 0x1A, lo⟩ = .ok (.blt (Fields.mk hi rd 0x1A lo).d (x5 (Fields.mk hi rd 0x1A lo).r1) (Fields.mk hi rd 0x1A lo).off14) := by
  simp [decodeFields]

theorem maj_1B (w : BitVec 32) (hi : BitVec 16) (rd : BitVec 5) (lo : BitVec 3) :
    decodeFields w ⟨hi, rd, 0x1B, lo⟩ = .ok (.bge (Fields.mk hi rd 0x1B lo).d (x5 (Fields.mk hi rd 0x1B lo).r1) (Fields.mk hi rd 0x1B lo).off14) := by
  simp [decodeFields]

theorem maj_1C (w : BitVec 32) (hi : BitVec 16) (rd : BitVec 5) (lo : BitVec 3) :
    decodeFields w ⟨hi, rd, 0x1C, lo⟩ = .ok (.bltn (Fields.mk hi rd 0x1C lo).d (x5 (Fields.mk hi rd 0x1C lo).r1) (Fields.mk hi rd 0x1C lo).off14) := by
  simp [decodeFields]

theorem maj_1D (w : BitVec 32) (hi : BitVec 16) (rd : BitVec 5) (lo : BitVec 3) :
    decodeFields w ⟨hi, rd, 0x1D, lo⟩ = .ok (.bgen (Fields.mk hi rd 0x1D lo).d (x5 (Fields.mk hi rd 0x1D lo).r1) (Fields.mk hi rd 0x1D lo).off14) := by
  simp [decodeFields]

theorem maj_1E (w : BitVec 32) (hi : BitVec 16) (rd : BitVec 5) (lo : BitVec 3) :
    decodeFields w ⟨hi, rd, 0x1E, lo⟩ = .ok (.jal (Fields.mk hi rd 0x1E lo).d (Fields.mk hi rd 0x1E lo).off19) := by
  simp [decodeFields]

theorem maj_1F (w : BitVec 32) (hi : BitVec 16) (rd : BitVec 5) (lo : BitVec 3) :
    decodeFields w ⟨hi, rd, 0x1F, lo⟩ = varLat (Fields.mk hi rd 0x1F lo) (.ok (.jalr (Fields.mk hi rd 0x1F lo).d (x5 (Fields.mk hi rd 0x1F lo).r1) (Fields.mk hi rd 0x1F lo).imm11)) := by
  simp [decodeFields]

theorem maj_20 (w : BitVec 32) (hi : BitVec 16) (rd : BitVec 5) (lo : BitVec 3) :
    decodeFields w ⟨hi, rd, 0x20, lo⟩ = varLat (Fields.mk hi rd 0x20 lo) (.ok (.calli (Fields.mk hi rd 0x20 lo).d (x5 (Fields.mk hi rd 0x20 lo).r1) (Fields.mk hi rd 0x20 lo).imm11)) := by
  simp [decodeFields]

theorem maj_21 (w : BitVec 32) (hi : BitVec 16) (rd : BitVec 5) (lo : BitVec 3) :
    decodeFields w ⟨hi, rd, 0x21, lo⟩ = varLat (Fields.mk hi rd 0x21 lo) (zeroed (rd == 0 && (Fields.mk hi rd 0x21 lo).top5 == 0) (.cmark (hi.extractLsb' 0 11))) := by
  simp [decodeFields]

theorem maj_22 (w : BitVec 32) (hi : BitVec 16) (rd : BitVec 5) (lo : BitVec 3) :
    decodeFields w ⟨hi, rd, 0x22, lo⟩ = varLat (Fields.mk hi rd 0x22 lo) (zeroed (rd == 0 && (Fields.mk hi rd 0x22 lo).r1 == 0) (.trap (Fields.mk hi rd 0x22 lo).imm11)) := by
  simp [decodeFields]

theorem maj_23 (w : BitVec 32) (hi : BitVec 16) (rd : BitVec 5) (lo : BitVec 3) :
    decodeFields w ⟨hi, rd, 0x23, lo⟩ = varLat (Fields.mk hi rd 0x23 lo) (zeroed ((Fields.mk hi rd 0x23 lo).r1 == 0) (.srd (Fields.mk hi rd 0x23 lo).d (Fields.mk hi rd 0x23 lo).imm11)) := by
  simp [decodeFields]

theorem maj_24 (w : BitVec 32) (hi : BitVec 16) (rd : BitVec 5) (lo : BitVec 3) :
    decodeFields w ⟨hi, rd, 0x24, lo⟩ = varLat (Fields.mk hi rd 0x24 lo) (zeroed (rd == 0) (.swr (Fields.mk hi rd 0x24 lo).imm11 (x5 (Fields.mk hi rd 0x24 lo).r1))) := by
  simp [decodeFields]

theorem maj_25 (w : BitVec 32) (hi : BitVec 16) (rd : BitVec 5) (lo : BitVec 3) :
    decodeFields w ⟨hi, rd, 0x25, lo⟩ = varLat (Fields.mk hi rd 0x25 lo) (zeroed ((Fields.mk hi rd 0x25 lo).r1 == 0) (.erd (Fields.mk hi rd 0x25 lo).d (Fields.mk hi rd 0x25 lo).imm11)) := by
  simp [decodeFields]

theorem maj_26 (w : BitVec 32) (hi : BitVec 16) (rd : BitVec 5) (lo : BitVec 3) :
    decodeFields w ⟨hi, rd, 0x26, lo⟩ = decSystem (Fields.mk hi rd 0x26 lo) := by
  simp [decodeFields]

theorem maj_28 (w : BitVec 32) (hi : BitVec 16) (rd : BitVec 5) (lo : BitVec 3) :
    decodeFields w ⟨hi, rd, 0x28, lo⟩ = varLat (Fields.mk hi rd 0x28 lo) (zeroed ((Fields.mk hi rd 0x28 lo).funct6 == 0) (.vsetvl (Fields.mk hi rd 0x28 lo).d (x5 (Fields.mk hi rd 0x28 lo).r1) (x5 (Fields.mk hi rd 0x28 lo).r2))) := by
  simp [decodeFields]

theorem maj_30 (w : BitVec 32) (hi : BitVec 16) (rd : BitVec 5) (lo : BitVec 3) :
    decodeFields w ⟨hi, rd, 0x30, lo⟩ = decVintAVv (Fields.mk hi rd 0x30 lo) := by
  simp [decodeFields, decodeVec]

theorem maj_31 (w : BitVec 32) (hi : BitVec 16) (rd : BitVec 5) (lo : BitVec 3) :
    decodeFields w ⟨hi, rd, 0x31, lo⟩ = decVintAVx (Fields.mk hi rd 0x31 lo) := by
  simp [decodeFields, decodeVec]

theorem maj_32 (w : BitVec 32) (hi : BitVec 16) (rd : BitVec 5) (lo : BitVec 3) :
    decodeFields w ⟨hi, rd, 0x32, lo⟩ = decVintAVi (Fields.mk hi rd 0x32 lo) := by
  simp [decodeFields, decodeVec]

theorem maj_33 (w : BitVec 32) (hi : BitVec 16) (rd : BitVec 5) (lo : BitVec 3) :
    decodeFields w ⟨hi, rd, 0x33, lo⟩ = decVintBVv (Fields.mk hi rd 0x33 lo) := by
  simp [decodeFields, decodeVec]

theorem maj_34 (w : BitVec 32) (hi : BitVec 16) (rd : BitVec 5) (lo : BitVec 3) :
    decodeFields w ⟨hi, rd, 0x34, lo⟩ = decVintBVx (Fields.mk hi rd 0x34 lo) := by
  simp [decodeFields, decodeVec]

theorem maj_35 (w : BitVec 32) (hi : BitVec 16) (rd : BitVec 5) (lo : BitVec 3) :
    decodeFields w ⟨hi, rd, 0x35, lo⟩ = decVintBVi (Fields.mk hi rd 0x35 lo) := by
  simp [decodeFields, decodeVec]

theorem maj_36 (w : BitVec 32) (hi : BitVec 16) (rd : BitVec 5) (lo : BitVec 3) :
    decodeFields w ⟨hi, rd, 0x36, lo⟩ = decVmax (Fields.mk hi rd 0x36 lo) (.vmaxVv (Fields.mk hi rd 0x36 lo).d (x5 (Fields.mk hi rd 0x36 lo).r2) (x5 (Fields.mk hi rd 0x36 lo).r1) (Fields.mk hi rd 0x36 lo).m (Fields.mk hi rd 0x36 lo).stall) := by
  simp [decodeFields, decodeVec]

theorem maj_37 (w : BitVec 32) (hi : BitVec 16) (rd : BitVec 5) (lo : BitVec 3) :
    decodeFields w ⟨hi, rd, 0x37, lo⟩ = decVmax (Fields.mk hi rd 0x37 lo) (.vmaxVx (Fields.mk hi rd 0x37 lo).d (x5 (Fields.mk hi rd 0x37 lo).r2) (x5 (Fields.mk hi rd 0x37 lo).r1) (Fields.mk hi rd 0x37 lo).m (Fields.mk hi rd 0x37 lo).stall) := by
  simp [decodeFields, decodeVec]

theorem maj_38 (w : BitVec 32) (hi : BitVec 16) (rd : BitVec 5) (lo : BitVec 3) :
    decodeFields w ⟨hi, rd, 0x38, lo⟩ = decVmax (Fields.mk hi rd 0x38 lo) (.vmaxVi (Fields.mk hi rd 0x38 lo).d (x5 (Fields.mk hi rd 0x38 lo).r2) (Fields.mk hi rd 0x38 lo).r1 (Fields.mk hi rd 0x38 lo).m (Fields.mk hi rd 0x38 lo).stall) := by
  simp [decodeFields, decodeVec]

theorem maj_39 (w : BitVec 32) (hi : BitVec 16) (rd : BitVec 5) (lo : BitVec 3) :
    decodeFields w ⟨hi, rd, 0x39, lo⟩ = decVcmp (Fields.mk hi rd 0x39 lo) (fun c => .vcmpVv c (mreg rd) (x5 (Fields.mk hi rd 0x39 lo).r2) (x5 (Fields.mk hi rd 0x39 lo).r1) (Fields.mk hi rd 0x39 lo).m (Fields.mk hi rd 0x39 lo).stall) := by
  simp [decodeFields, decodeVec]

theorem maj_3A (w : BitVec 32) (hi : BitVec 16) (rd : BitVec 5) (lo : BitVec 3) :
    decodeFields w ⟨hi, rd, 0x3A, lo⟩ = decVcmp (Fields.mk hi rd 0x3A lo) (fun c => .vcmpVx c (mreg rd) (x5 (Fields.mk hi rd 0x3A lo).r2) (x5 (Fields.mk hi rd 0x3A lo).r1) (Fields.mk hi rd 0x3A lo).m (Fields.mk hi rd 0x3A lo).stall) := by
  simp [decodeFields, decodeVec]

theorem maj_3B (w : BitVec 32) (hi : BitVec 16) (rd : BitVec 5) (lo : BitVec 3) :
    decodeFields w ⟨hi, rd, 0x3B, lo⟩ = decVcmp (Fields.mk hi rd 0x3B lo) (fun c => .vcmpVi c (mreg rd) (x5 (Fields.mk hi rd 0x3B lo).r2) (Fields.mk hi rd 0x3B lo).r1 (Fields.mk hi rd 0x3B lo).m (Fields.mk hi rd 0x3B lo).stall) := by
  simp [decodeFields, decodeVec]

theorem maj_3C (w : BitVec 32) (hi : BitVec 16) (rd : BitVec 5) (lo : BitVec 3) :
    decodeFields w ⟨hi, rd, 0x3C, lo⟩ = decVfpVv (Fields.mk hi rd 0x3C lo) := by
  simp [decodeFields, decodeVec]

theorem maj_3D (w : BitVec 32) (hi : BitVec 16) (rd : BitVec 5) (lo : BitVec 3) :
    decodeFields w ⟨hi, rd, 0x3D, lo⟩ = decVfpVx (Fields.mk hi rd 0x3D lo) := by
  simp [decodeFields, decodeVec]

theorem maj_3E (w : BitVec 32) (hi : BitVec 16) (rd : BitVec 5) (lo : BitVec 3) :
    decodeFields w ⟨hi, rd, 0x3E, lo⟩ = decVfcmp (Fields.mk hi rd 0x3E lo) (fun c => .vfcmpVv c (mreg rd) (x5 (Fields.mk hi rd 0x3E lo).r2) (x5 (Fields.mk hi rd 0x3E lo).r1) (Fields.mk hi rd 0x3E lo).m (Fields.mk hi rd 0x3E lo).stall) := by
  simp [decodeFields, decodeVec]

theorem maj_3F (w : BitVec 32) (hi : BitVec 16) (rd : BitVec 5) (lo : BitVec 3) :
    decodeFields w ⟨hi, rd, 0x3F, lo⟩ = decVfcmp (Fields.mk hi rd 0x3F lo) (fun c => .vfcmpVx c (mreg rd) (x5 (Fields.mk hi rd 0x3F lo).r2) (x5 (Fields.mk hi rd 0x3F lo).r1) (Fields.mk hi rd 0x3F lo).m (Fields.mk hi rd 0x3F lo).stall) := by
  simp [decodeFields, decodeVec]

theorem maj_40 (w : BitVec 32) (hi : BitVec 16) (rd : BitVec 5) (lo : BitVec 3) :
    decodeFields w ⟨hi, rd, 0x40, lo⟩ = decVfpUnary (Fields.mk hi rd 0x40 lo) := by
  simp [decodeFields, decodeVec]

theorem maj_41 (w : BitVec 32) (hi : BitVec 16) (rd : BitVec 5) (lo : BitVec 3) :
    decodeFields w ⟨hi, rd, 0x41, lo⟩ = decVfcvt (Fields.mk hi rd 0x41 lo) := by
  simp [decodeFields, decodeVec]

theorem maj_42 (w : BitVec 32) (hi : BitVec 16) (rd : BitVec 5) (lo : BitVec 3) :
    decodeFields w ⟨hi, rd, 0x42, lo⟩ = decPermA (Fields.mk hi rd 0x42 lo) := by
  simp [decodeFields, decodeVec]

theorem maj_43 (w : BitVec 32) (hi : BitVec 16) (rd : BitVec 5) (lo : BitVec 3) :
    decodeFields w ⟨hi, rd, 0x43, lo⟩ = decPermB (Fields.mk hi rd 0x43 lo) := by
  simp [decodeFields, decodeVec]

theorem maj_44 (w : BitVec 32) (hi : BitVec 16) (rd : BitVec 5) (lo : BitVec 3) :
    decodeFields w ⟨hi, rd, 0x44, lo⟩ = decVred (Fields.mk hi rd 0x44 lo) := by
  simp [decodeFields, decodeVec]

theorem maj_45 (w : BitVec 32) (hi : BitVec 16) (rd : BitVec 5) (lo : BitVec 3) :
    decodeFields w ⟨hi, rd, 0x45, lo⟩ = decVfred (Fields.mk hi rd 0x45 lo) := by
  simp [decodeFields, decodeVec]

theorem maj_46 (w : BitVec 32) (hi : BitVec 16) (rd : BitVec 5) (lo : BitVec 3) :
    decodeFields w ⟨hi, rd, 0x46, lo⟩ = decMask (Fields.mk hi rd 0x46 lo) := by
  simp [decodeFields, decodeVec]

theorem maj_47 (w : BitVec 32) (hi : BitVec 16) (rd : BitVec 5) (lo : BitVec 3) :
    decodeFields w ⟨hi, rd, 0x47, lo⟩ = decSparseA (Fields.mk hi rd 0x47 lo) := by
  simp [decodeFields, decodeVec]

theorem maj_48 (w : BitVec 32) (hi : BitVec 16) (rd : BitVec 5) (lo : BitVec 3) :
    decodeFields w ⟨hi, rd, 0x48, lo⟩ = decSparseB (Fields.mk hi rd 0x48 lo) := by
  simp [decodeFields, decodeVec]

theorem maj_49 (w : BitVec 32) (hi : BitVec 16) (rd : BitVec 5) (lo : BitVec 3) :
    decodeFields w ⟨hi, rd, 0x49, lo⟩ = decVmisc (Fields.mk hi rd 0x49 lo) := by
  simp [decodeFields, decodeVec]

theorem maj_4A (w : BitVec 32) (hi : BitVec 16) (rd : BitVec 5) (lo : BitVec 3) :
    decodeFields w ⟨hi, rd, 0x4A, lo⟩ = inMask rd (.ok (.vfetch (Fields.mk hi rd 0x4A lo).off19 (mreg rd))) := by
  simp [decodeFields, decodeVec]

theorem maj_4B (w : BitVec 32) (hi : BitVec 16) (rd : BitVec 5) (lo : BitVec 3) :
    decodeFields w ⟨hi, rd, 0x4B, lo⟩ = inMask rd (.ok (.vpj (Fields.mk hi rd 0x4B lo).off19 (mreg rd))) := by
  simp [decodeFields, decodeVec]

theorem maj_50 (w : BitVec 32) (hi : BitVec 16) (rd : BitVec 5) (lo : BitVec 3) :
    decodeFields w ⟨hi, rd, 0x50, lo⟩ = decVm0 (Fields.mk hi rd 0x50 lo) .vld := by
  simp [decodeFields, decodeVec]

theorem maj_51 (w : BitVec 32) (hi : BitVec 16) (rd : BitVec 5) (lo : BitVec 3) :
    decodeFields w ⟨hi, rd, 0x51, lo⟩ = decVm1 (Fields.mk hi rd 0x51 lo) .vlds := by
  simp [decodeFields, decodeVec]

theorem maj_52 (w : BitVec 32) (hi : BitVec 16) (rd : BitVec 5) (lo : BitVec 3) :
    decodeFields w ⟨hi, rd, 0x52, lo⟩ = decVm1 (Fields.mk hi rd 0x52 lo) .vldx := by
  simp [decodeFields, decodeVec]

theorem maj_53 (w : BitVec 32) (hi : BitVec 16) (rd : BitVec 5) (lo : BitVec 3) :
    decodeFields w ⟨hi, rd, 0x53, lo⟩ = decVm0 (Fields.mk hi rd 0x53 lo) .vldf := by
  simp [decodeFields, decodeVec]

theorem maj_54 (w : BitVec 32) (hi : BitVec 16) (rd : BitVec 5) (lo : BitVec 3) :
    decodeFields w ⟨hi, rd, 0x54, lo⟩ = decVm0 (Fields.mk hi rd 0x54 lo) .vst := by
  simp [decodeFields, decodeVec]

theorem maj_55 (w : BitVec 32) (hi : BitVec 16) (rd : BitVec 5) (lo : BitVec 3) :
    decodeFields w ⟨hi, rd, 0x55, lo⟩ = decVm1 (Fields.mk hi rd 0x55 lo) .vsts := by
  simp [decodeFields, decodeVec]

theorem maj_56 (w : BitVec 32) (hi : BitVec 16) (rd : BitVec 5) (lo : BitVec 3) :
    decodeFields w ⟨hi, rd, 0x56, lo⟩ = decVm1 (Fields.mk hi rd 0x56 lo) .vstx := by
  simp [decodeFields, decodeVec]

theorem maj_57 (w : BitVec 32) (hi : BitVec 16) (rd : BitVec 5) (lo : BitVec 3) :
    decodeFields w ⟨hi, rd, 0x57, lo⟩ = decVm0 (Fields.mk hi rd 0x57 lo) .vstG := by
  simp [decodeFields, decodeVec]

theorem maj_58 (w : BitVec 32) (hi : BitVec 16) (rd : BitVec 5) (lo : BitVec 3) :
    decodeFields w ⟨hi, rd, 0x58, lo⟩ = decVm1 (Fields.mk hi rd 0x58 lo) .vstxG := by
  simp [decodeFields, decodeVec]

theorem maj_59 (w : BitVec 32) (hi : BitVec 16) (rd : BitVec 5) (lo : BitVec 3) :
    decodeFields w ⟨hi, rd, 0x59, lo⟩ = decVmSc (Fields.mk hi rd 0x59 lo) .vldSc := by
  simp [decodeFields, decodeVec]

theorem maj_5A (w : BitVec 32) (hi : BitVec 16) (rd : BitVec 5) (lo : BitVec 3) :
    decodeFields w ⟨hi, rd, 0x5A, lo⟩ = decVmSc (Fields.mk hi rd 0x5A lo) .vstSc := by
  simp [decodeFields, decodeVec]

theorem maj_5B (w : BitVec 32) (hi : BitVec 16) (rd : BitVec 5) (lo : BitVec 3) :
    decodeFields w ⟨hi, rd, 0x5B, lo⟩ = decVamo0 (Fields.mk hi rd 0x5B lo) := by
  simp [decodeFields, decodeVec]

theorem maj_5C (w : BitVec 32) (hi : BitVec 16) (rd : BitVec 5) (lo : BitVec 3) :
    decodeFields w ⟨hi, rd, 0x5C, lo⟩ = decVamo1 (Fields.mk hi rd 0x5C lo) := by
  simp [decodeFields, decodeVec]

theorem maj_5D (w : BitVec 32) (hi : BitVec 16) (rd : BitVec 5) (lo : BitVec 3) :
    decodeFields w ⟨hi, rd, 0x5D, lo⟩ = decVamo2 (Fields.mk hi rd 0x5D lo) := by
  simp [decodeFields, decodeVec]

theorem maj_5E (w : BitVec 32) (hi : BitVec 16) (rd : BitVec 5) (lo : BitVec 3) :
    decodeFields w ⟨hi, rd, 0x5E, lo⟩ = decVamoF0 (Fields.mk hi rd 0x5E lo) := by
  simp [decodeFields, decodeVec]

theorem maj_5F (w : BitVec 32) (hi : BitVec 16) (rd : BitVec 5) (lo : BitVec 3) :
    decodeFields w ⟨hi, rd, 0x5F, lo⟩ = decVamoF1 (Fields.mk hi rd 0x5F lo) := by
  simp [decodeFields, decodeVec]

theorem maj_60 (w : BitVec 32) (hi : BitVec 16) (rd : BitVec 5) (lo : BitVec 3) :
    decodeFields w ⟨hi, rd, 0x60, lo⟩ = decVamoF2 (Fields.mk hi rd 0x60 lo) := by
  simp [decodeFields, decodeVec]

theorem maj_61 (w : BitVec 32) (hi : BitVec 16) (rd : BitVec 5) (lo : BitVec 3) :
    decodeFields w ⟨hi, rd, 0x61, lo⟩ = varLat (Fields.mk hi rd 0x61 lo) (zeroed (rd == 0) (.fenceC hi)) := by
  simp [decodeFields]

theorem maj_62 (w : BitVec 32) (hi : BitVec 16) (rd : BitVec 5) (lo : BitVec 3) :
    decodeFields w ⟨hi, rd, 0x62, lo⟩ = varLat (Fields.mk hi rd 0x62 lo) (zeroed (rd == 0 && (Fields.mk hi rd 0x62 lo).r1 == 0 && !(Fields.mk hi rd 0x62 lo).bit 15) (.fenceP (hi.extractLsb' 5 5) (hi.extractLsb' 10 5))) := by
  simp [decodeFields]

theorem maj_63 (w : BitVec 32) (hi : BitVec 16) (rd : BitVec 5) (lo : BitVec 3) :
    decodeFields w ⟨hi, rd, 0x63, lo⟩ = decSync (Fields.mk hi rd 0x63 lo) := by
  simp [decodeFields]

theorem maj_64 (w : BitVec 32) (hi : BitVec 16) (rd : BitVec 5) (lo : BitVec 3) :
    decodeFields w ⟨hi, rd, 0x64, lo⟩ = varLat (Fields.mk hi rd 0x64 lo) (.ok (.cpy (Fields.mk hi rd 0x64 lo).d (x5 (Fields.mk hi rd 0x64 lo).r1) (x5 (Fields.mk hi rd 0x64 lo).r2) (x6 (Fields.mk hi rd 0x64 lo).funct6))) := by
  simp [decodeFields]

theorem maj_65 (w : BitVec 32) (hi : BitVec 16) (rd : BitVec 5) (lo : BitVec 3) :
    decodeFields w ⟨hi, rd, 0x65, lo⟩ = varLat (Fields.mk hi rd 0x65 lo) (.ok (.cpy2 (Fields.mk hi rd 0x65 lo).d (x5 (Fields.mk hi rd 0x65 lo).r1) (x5 (Fields.mk hi rd 0x65 lo).r2) (x6 (Fields.mk hi rd 0x65 lo).funct6))) := by
  simp [decodeFields]

theorem maj_66 (w : BitVec 32) (hi : BitVec 16) (rd : BitVec 5) (lo : BitVec 3) :
    decodeFields w ⟨hi, rd, 0x66, lo⟩ = varLat (Fields.mk hi rd 0x66 lo) (.ok (.cpyx (Fields.mk hi rd 0x66 lo).d (x5 (Fields.mk hi rd 0x66 lo).r1) (x5 (Fields.mk hi rd 0x66 lo).r2) (x6 (Fields.mk hi rd 0x66 lo).funct6))) := by
  simp [decodeFields]

theorem maj_67 (w : BitVec 32) (hi : BitVec 16) (rd : BitVec 5) (lo : BitVec 3) :
    decodeFields w ⟨hi, rd, 0x67, lo⟩ = decTag (Fields.mk hi rd 0x67 lo) := by
  simp [decodeFields]

theorem maj_68 (w : BitVec 32) (hi : BitVec 16) (rd : BitVec 5) (lo : BitVec 3) :
    decodeFields w ⟨hi, rd, 0x68, lo⟩ = varLat (Fields.mk hi rd 0x68 lo) (zeroed ((Fields.mk hi rd 0x68 lo).funct6 == 0 && (Fields.mk hi rd 0x68 lo).r2 == 0) (.coll (Fields.mk hi rd 0x68 lo).d (x5 (Fields.mk hi rd 0x68 lo).r1))) := by
  simp [decodeFields]

theorem maj_69 (w : BitVec 32) (hi : BitVec 16) (rd : BitVec 5) (lo : BitVec 3) :
    decodeFields w ⟨hi, rd, 0x69, lo⟩ = decGath (Fields.mk hi rd 0x69 lo) := by
  simp [decodeFields]

theorem maj_6A (w : BitVec 32) (hi : BitVec 16) (rd : BitVec 5) (lo : BitVec 3) :
    decodeFields w ⟨hi, rd, 0x6A, lo⟩ = decMma (Fields.mk hi rd 0x6A lo) .mmaGr := by
  simp [decodeFields]

theorem maj_6B (w : BitVec 32) (hi : BitVec 16) (rd : BitVec 5) (lo : BitVec 3) :
    decodeFields w ⟨hi, rd, 0x6B, lo⟩ = decMma (Fields.mk hi rd 0x6B lo) .mmaRg := by
  simp [decodeFields]

theorem maj_6C (w : BitVec 32) (hi : BitVec 16) (rd : BitVec 5) (lo : BitVec 3) :
    decodeFields w ⟨hi, rd, 0x6C, lo⟩ = decMmag (Fields.mk hi rd 0x6C lo) := by
  simp [decodeFields]

theorem maj_6D (w : BitVec 32) (hi : BitVec 16) (rd : BitVec 5) (lo : BitVec 3) :
    decodeFields w ⟨hi, rd, 0x6D, lo⟩ = decMatCtl (Fields.mk hi rd 0x6D lo) := by
  simp [decodeFields]

theorem maj_6E (w : BitVec 32) (hi : BitVec 16) (rd : BitVec 5) (lo : BitVec 3) :
    decodeFields w ⟨hi, rd, 0x6E, lo⟩ = decTdrain (Fields.mk hi rd 0x6E lo) := by
  simp [decodeFields]

theorem maj_6F (w : BitVec 32) (hi : BitVec 16) (rd : BitVec 5) (lo : BitVec 3) :
    decodeFields w ⟨hi, rd, 0x6F, lo⟩ = decTfill (Fields.mk hi rd 0x6F lo) := by
  simp [decodeFields]

theorem maj_70 (w : BitVec 32) (hi : BitVec 16) (rd : BitVec 5) (lo : BitVec 3) :
    decodeFields w ⟨hi, rd, 0x70, lo⟩ = decGtable (Fields.mk hi rd 0x70 lo) := by
  simp [decodeFields]

theorem maj_71 (w : BitVec 32) (hi : BitVec 16) (rd : BitVec 5) (lo : BitVec 3) :
    decodeFields w ⟨hi, rd, 0x71, lo⟩ = decGrun (Fields.mk hi rd 0x71 lo) := by
  simp [decodeFields]

theorem maj_72 (w : BitVec 32) (hi : BitVec 16) (rd : BitVec 5) (lo : BitVec 3) :
    decodeFields w ⟨hi, rd, 0x72, lo⟩ = decGmisc (Fields.mk hi rd 0x72 lo) := by
  simp [decodeFields]

theorem offJ_split (off : BitVec 19) : (off.extractLsb' 3 16 ++ off.extractLsb' 0 3 : BitVec 19) = off := by
  ext i hi
  simp only [BitVec.getElem_append, BitVec.getElem_extractLsb']
  rw [← BitVec.getLsbD_eq_getElem]
  split <;> (congr 1; omega)

/-- The offset of a J word. -/
@[simp] theorem off19_split (off : BitVec 19) (rd : BitVec 5) (maj : BitVec 7) :
    (Fields.mk (off.extractLsb' 3 16) rd maj (off.extractLsb' 0 3)).off19 = off := offJ_split off

theorem offB_split (off : BitVec 14) : (off.extractLsb' 3 11 ++ off.extractLsb' 0 3 : BitVec 14) = off := by
  ext i hi
  simp only [BitVec.getElem_append, BitVec.getElem_extractLsb']
  rw [← BitVec.getLsbD_eq_getElem]
  split <;> (congr 1; omega)

theorem hB_imm (o : BitVec 14) (b : BitVec 5) : (hB o b).extractLsb' 5 11 = o.extractLsb' 3 11 := by
  unfold hB
  ext i hi
  simp only [BitVec.getElem_extractLsb', BitVec.getLsbD_append]
  rw [if_neg (by omega)]
  simp only [BitVec.getLsbD_extractLsb', show 5 + i - 5 < 11 by omega, decide_true, Bool.true_and]
  congr 1; omega

/-- The offset of a B word. -/
@[simp] theorem off14_split (off : BitVec 14) (b rd : BitVec 5) (maj : BitVec 7) :
    (Fields.mk (hB off b) rd maj (off.extractLsb' 0 3)).off14 = off := by
  show (hB off b).extractLsb' 5 11 ++ off.extractLsb' 0 3 = off
  rw [hB_imm, offB_split]

@[simp] theorem shift_hi (sh : BitVec 6) : (sh.setWidth 11).extractLsb' 6 5 = 0#5 := by
  revert sh; decide
@[simp] theorem shift_lo (sh : BitVec 6) : (sh.setWidth 11).extractLsb' 0 6 = sh := by
  revert sh; decide
theorem maj_vsetvli (w : BitVec 32) (hi : BitVec 16) (rd : BitVec 5) (q : BitVec 2) (lo : BitVec 3) :
    decodeFields w ⟨hi, rd, 11#5 ++ q, lo⟩ =
      .ok (.vsetvli (Fields.mk hi rd (11#5 ++ q) lo).d (x5 (Fields.mk hi rd (11#5 ++ q) lo).r1)
        (q ++ (Fields.mk hi rd (11#5 ++ q) lo).imm11) lo) := by
  have h : q = 0 ∨ q = 1 ∨ q = 2 ∨ q = 3 := by revert q; decide
  rcases h with rfl | rfl | rfl | rfl <;> simp [decodeFields]

theorem req_split (req : BitVec 13) : (req.extractLsb' 11 2 ++ req.extractLsb' 0 11 : BitVec 13) = req := by
  ext i hi
  simp only [BitVec.getElem_append, BitVec.getElem_extractLsb']
  rw [← BitVec.getLsbD_eq_getElem]
  split <;> (congr 1; omega)

/-- What the decoder reads of a compact word. -/
theorem decodeHalf_joinHalf (a b op : BitVec 5) :
    (joinHalf a b op).extractLsb' 11 5 = a ∧ (joinHalf a b op).extractLsb' 6 5 = b ∧ (joinHalf a b op).extractLsb' 1 5 = op := by
  unfold joinHalf
  refine ⟨?_, ?_, ?_⟩ <;> ext i hi
  all_goals
    simp only [BitVec.getElem_extractLsb', BitVec.getLsbD_append]
    rw [← BitVec.getLsbD_eq_getElem]
    repeat' split
    all_goals first | omega | (congr 1; omega)

theorem syncs_op (k : BitVec 4) (z : BitVec 4) (s : BitVec 3) (b : BitVec 5) : (hI (k ++ z ++ s) b).extractLsb' 12 4 = k := by
  unfold hI
  ext i hi
  simp only [BitVec.getElem_extractLsb', BitVec.getLsbD_append]
  rw [← BitVec.getLsbD_eq_getElem]
  repeat' split
  all_goals first | omega | (congr 1; omega)

theorem syncs_z (k : BitVec 4) (z : BitVec 4) (s : BitVec 3) (b : BitVec 5) : ((hI (k ++ z ++ s) b).extractLsb' 5 7).extractLsb' 3 4 = z := by
  unfold hI
  ext i hi
  simp only [BitVec.getElem_extractLsb', BitVec.getLsbD_extractLsb', BitVec.getLsbD_append,
    decide_eq_true (show 3 + i < 7 by omega), Bool.true_and]
  rw [← BitVec.getLsbD_eq_getElem]
  repeat' split
  all_goals first | omega | (congr 1; omega)

theorem syncs_s (k : BitVec 4) (z : BitVec 4) (s : BitVec 3) (b : BitVec 5) : ((hI (k ++ z ++ s) b).extractLsb' 5 7).extractLsb' 0 3 = s := by
  unfold hI
  ext i hi
  simp only [BitVec.getElem_extractLsb', BitVec.getLsbD_extractLsb', BitVec.getLsbD_append,
    decide_eq_true (show 0 + i < 7 by omega), Bool.true_and]
  rw [← BitVec.getLsbD_eq_getElem]
  repeat' split
  all_goals first | omega | (congr 1; omega)

theorem syncl_op (k : BitVec 4) (z : BitVec 3) (s : BitVec 4) (b : BitVec 5) : (hI (k ++ z ++ s) b).extractLsb' 12 4 = k := by
  unfold hI
  ext i hi
  simp only [BitVec.getElem_extractLsb', BitVec.getLsbD_append]
  rw [← BitVec.getLsbD_eq_getElem]
  repeat' split
  all_goals first | omega | (congr 1; omega)

theorem syncl_z (k : BitVec 4) (z : BitVec 3) (s : BitVec 4) (b : BitVec 5) : ((hI (k ++ z ++ s) b).extractLsb' 5 7).extractLsb' 4 3 = z := by
  unfold hI
  ext i hi
  simp only [BitVec.getElem_extractLsb', BitVec.getLsbD_extractLsb', BitVec.getLsbD_append,
    decide_eq_true (show 4 + i < 7 by omega), Bool.true_and]
  rw [← BitVec.getLsbD_eq_getElem]
  repeat' split
  all_goals first | omega | (congr 1; omega)

theorem syncl_s (k : BitVec 4) (z : BitVec 3) (s : BitVec 4) (b : BitVec 5) : ((hI (k ++ z ++ s) b).extractLsb' 5 7).extractLsb' 0 4 = s := by
  unfold hI
  ext i hi
  simp only [BitVec.getElem_extractLsb', BitVec.getLsbD_extractLsb', BitVec.getLsbD_append,
    decide_eq_true (show 0 + i < 7 by omega), Bool.true_and]
  rw [← BitVec.getLsbD_eq_getElem]
  repeat' split
  all_goals first | omega | (congr 1; omega)

theorem syncf_op (k : BitVec 4) (z : BitVec 2) (s : BitVec 5) (b : BitVec 5) : (hI (k ++ z ++ s) b).extractLsb' 12 4 = k := by
  unfold hI
  ext i hi
  simp only [BitVec.getElem_extractLsb', BitVec.getLsbD_append]
  rw [← BitVec.getLsbD_eq_getElem]
  repeat' split
  all_goals first | omega | (congr 1; omega)

theorem syncf_z (k : BitVec 4) (z : BitVec 2) (s : BitVec 5) (b : BitVec 5) : ((hI (k ++ z ++ s) b).extractLsb' 5 7).extractLsb' 5 2 = z := by
  unfold hI
  ext i hi
  simp only [BitVec.getElem_extractLsb', BitVec.getLsbD_extractLsb', BitVec.getLsbD_append,
    decide_eq_true (show 5 + i < 7 by omega), Bool.true_and]
  rw [← BitVec.getLsbD_eq_getElem]
  repeat' split
  all_goals first | omega | (congr 1; omega)

theorem syncf_s (k : BitVec 4) (z : BitVec 2) (s : BitVec 5) (b : BitVec 5) : ((hI (k ++ z ++ s) b).extractLsb' 5 7).extractLsb' 0 5 = s := by
  unfold hI
  ext i hi
  simp only [BitVec.getElem_extractLsb', BitVec.getLsbD_extractLsb', BitVec.getLsbD_append,
    decide_eq_true (show 0 + i < 7 by omega), Bool.true_and]
  rw [← BitVec.getLsbD_eq_getElem]
  repeat' split
  all_goals first | omega | (congr 1; omega)

theorem syncw_op (k : BitVec 4) (z : BitVec 1) (u : BitVec 1) (s : BitVec 5) (b : BitVec 5) : (hI (k ++ z ++ u ++ s) b).extractLsb' 12 4 = k := by
  unfold hI
  ext i hi
  simp only [BitVec.getElem_extractLsb', BitVec.getLsbD_append]
  rw [← BitVec.getLsbD_eq_getElem]
  repeat' split
  all_goals first | omega | (congr 1; omega)

theorem syncw_z (k : BitVec 4) (z : BitVec 1) (u : BitVec 1) (s : BitVec 5) (b : BitVec 5) : ((hI (k ++ z ++ u ++ s) b).extractLsb' 5 7).extractLsb' 6 1 = z := by
  unfold hI
  ext i hi
  simp only [BitVec.getElem_extractLsb', BitVec.getLsbD_extractLsb', BitVec.getLsbD_append,
    decide_eq_true (show 6 + i < 7 by omega), Bool.true_and]
  rw [← BitVec.getLsbD_eq_getElem]
  repeat' split
  all_goals first | omega | (congr 1; omega)

theorem syncw_s (k : BitVec 4) (z : BitVec 1) (u : BitVec 1) (s : BitVec 5) (b : BitVec 5) : ((hI (k ++ z ++ u ++ s) b).extractLsb' 5 7).extractLsb' 0 5 = s := by
  unfold hI
  ext i hi
  simp only [BitVec.getElem_extractLsb', BitVec.getLsbD_extractLsb', BitVec.getLsbD_append,
    decide_eq_true (show 0 + i < 7 by omega), Bool.true_and]
  rw [← BitVec.getLsbD_eq_getElem]
  repeat' split
  all_goals first | omega | (congr 1; omega)

theorem syncw_u (k : BitVec 4) (z : BitVec 1) (u : Bool) (s : BitVec 5) (b : BitVec 5) :
    ((hI (k ++ z ++ BitVec.ofBool u ++ s) b).extractLsb' 5 7).getLsbD 5 = u := by
  unfold hI
  simp only [BitVec.getLsbD_extractLsb', BitVec.getLsbD_append]
  simp

theorem fenceP_to (z : BitVec 1) (u v b : BitVec 5) : (hI (z ++ u ++ v) b).extractLsb' 10 5 = u := by
  unfold hI
  ext i hi
  simp only [BitVec.getElem_extractLsb', BitVec.getLsbD_append]
  rw [← BitVec.getLsbD_eq_getElem]
  repeat' split
  all_goals first | omega | (congr 1; omega)

theorem fenceP_from (z : BitVec 1) (u v b : BitVec 5) : (hI (z ++ u ++ v) b).extractLsb' 5 5 = v := by
  unfold hI
  ext i hi
  simp only [BitVec.getElem_extractLsb', BitVec.getLsbD_append]
  rw [← BitVec.getLsbD_eq_getElem]
  repeat' split
  all_goals first | omega | (congr 1; omega)

theorem fenceP_bit (u v b rd : BitVec 5) (maj : BitVec 7) (lo : BitVec 3) :
    (Fields.mk (hI (0#1 ++ u ++ v) b) rd maj lo).bit 15 = false := by
  simp only [Fields.bit, hI, BitVec.getLsbD_append]
  simp

theorem gath_hi (z : BitVec 5) (l : BitVec 1) (a b : BitVec 5) : (hR (z ++ l) a b).extractLsb' 11 5 = z := by
  unfold hR
  ext i hi
  simp only [BitVec.getElem_extractLsb', BitVec.getLsbD_append]
  rw [← BitVec.getLsbD_eq_getElem]
  repeat' split
  all_goals first | omega | (congr 1; omega)

theorem gath_l (z : BitVec 5) (l : BitVec 1) (a b : BitVec 5) : (hR (z ++ l) a b).extractLsb' 10 1 = l := by
  unfold hR
  ext i hi
  simp only [BitVec.getElem_extractLsb', BitVec.getLsbD_append]
  rw [← BitVec.getLsbD_eq_getElem]
  repeat' split
  all_goals first | omega | (congr 1; omega)

theorem grun_slot (z : BitVec 1) (s : BitVec 2) (m : BitVec 3) (a b : BitVec 5) : (hV (z ++ s) m a b).extractLsb' 13 2 = s := by
  unfold hV
  ext i hi
  simp only [BitVec.getElem_extractLsb', BitVec.getLsbD_append]
  rw [← BitVec.getLsbD_eq_getElem]
  repeat' split
  all_goals first | omega | (congr 1; omega)

theorem grun_bit (z : Bool) (s : BitVec 2) (m : BitVec 3) (a b rd : BitVec 5) (maj : BitVec 7) (lo : BitVec 3) :
    (Fields.mk (hV (BitVec.ofBool z ++ s) m a b) rd maj lo).bit 15 = z := by
  simp only [Fields.bit, hV, BitVec.getLsbD_append]
  simp

theorem fcvt_scale (cs dir : Bool) (m : BitVec 3) (a b rd : BitVec 5) (maj : BitVec 7) (lo : BitVec 3) :
    (Fields.mk (hV (0#1 ++ BitVec.ofBool cs ++ BitVec.ofBool dir) m a b) rd maj lo).bit 14 = cs := by
  simp only [Fields.bit, hV, BitVec.getLsbD_append]
  simp

theorem fcvt_dir (cs dir : Bool) (m : BitVec 3) (a b rd : BitVec 5) (maj : BitVec 7) (lo : BitVec 3) :
    (Fields.mk (hV (0#1 ++ BitVec.ofBool cs ++ BitVec.ofBool dir) m a b) rd maj lo).bit 13 = dir := by
  simp only [Fields.bit, hV, BitVec.getLsbD_append]
  simp

theorem fcvt_top (cs dir : Bool) (m : BitVec 3) (a b rd : BitVec 5) (maj : BitVec 7) (lo : BitVec 3) :
    (Fields.mk (hV (0#1 ++ BitVec.ofBool cs ++ BitVec.ofBool dir) m a b) rd maj lo).bit 15 = false := by
  simp only [Fields.bit, hV, BitVec.getLsbD_append]
  simp

theorem hMX_latch0 (x : BitVec 5) (cb : BitVec 3) (sat z iv cr cg : Bool) (s : BitVec 2) (rd : BitVec 5) (maj : BitVec 7)
    (lo : BitVec 3) : (Fields.mk (hMX x cb sat z iv cr cg s 0) rd maj lo).bit 0 = false := by
  simp only [Fields.bit, hMX, BitVec.getLsbD_append]
  simp

theorem hTD_low (x : BitVec 5) : (hTD x 0#2 false false false 16#5).extractLsb' 0 11 = 16#11 := by
  revert x; decide

theorem cmark_top (k : BitVec 11) (rd : BitVec 5) (maj : BitVec 7) (lo : BitVec 3) :
    (Fields.mk (k.setWidth 16) rd maj lo).top5 = 0#5 := by
  show (k.setWidth 16).extractLsb' 11 5 = 0#5
  ext i hi
  simp

theorem cmark_low (k : BitVec 11) : (k.setWidth 16).extractLsb' 0 11 = k := by
  ext i hi
  simp only [BitVec.getElem_extractLsb', BitVec.getLsbD_setWidth]
  rw [← BitVec.getLsbD_eq_getElem]
  simp
  omega

theorem slot_lt (s : Fin 4) : (0#3 ++ r2 s).toNat < 4 := by revert s; decide
theorem slot_low (s : Fin 4) : (0#3 ++ r2 s : BitVec 5).extractLsb' 0 2 = r2 s := by revert s; decide
theorem count_lt (n : Fin 8) : (0#2 ++ r3 n).toNat < 8 := by revert n; decide
theorem count_low (n : Fin 8) : (0#2 ++ r3 n : BitVec 5).extractLsb' 0 3 = r3 n := by revert n; decide
theorem verdict_lt (v : BitVec 3) : (0#2 ++ v).toNat < 8 := by revert v; decide
theorem verdict_low (v : BitVec 3) : (0#2 ++ v : BitVec 5).extractLsb' 0 3 = v := by revert v; decide
theorem m5_ne (k : Fin 8) (h : k ≠ 0) : m5 k ≠ 0#5 := by revert h; revert k; decide
theorem cvt_ne (c : CvtCode) : c.code ≠ 31#5 := by cases c <;> decide
theorem imm10_split (i : BitVec 10) : (i.extractLsb' 5 5 ++ i.extractLsb' 0 5 : BitVec 10) = i := by
  revert i; decide
theorem shift_split (s : BitVec 6) :
    ((0#4 ++ s.extractLsb' 5 1 ++ s.extractLsb' 0 5 : BitVec 10)).extractLsb' 0 6 = s := by
  revert s; decide
theorem shift_top (s : BitVec 1) : (0#4 ++ s : BitVec 5).extractLsb' 1 4 = 0#4 := by
  revert s; decide

end Sys2Proof
end

