-- ==== Sys2Proof/Laws/Sparse.lean ====
section
/-! SUPPORT. Sorted sparse lists and memory: reading after a write, and every operation keeps the canonical form. -/

namespace Sys2Proof.Machine

section Sparse
variable {β : Type} [DecidableEq β] {d : β}

/-- The bound of `wfFrom` as a proposition. -/
def Sparse.above (lo : Option Nat) (k : Nat) : Prop := ∀ l, lo = some l → l < k

theorem Sparse.wfFrom_cons {lo : Option Nat} {a : Nat} {b : β} {r : List (Nat × β)} :
    Sparse.wfFrom d lo ((a, b) :: r) = true ↔ Sparse.above lo a ∧ b ≠ d ∧ Sparse.wfFrom d (some a) r = true := by
  cases lo <;> simp [Sparse.wfFrom, Sparse.above, and_assoc]

theorem Sparse.wfFrom_weaken {lo lo' : Option Nat} {l : List (Nat × β)} (h : Sparse.wfFrom d lo l = true)
    (hl : ∀ k, Sparse.above lo k → Sparse.above lo' k) : Sparse.wfFrom d lo' l = true := by
  cases l with
  | nil => rfl
  | cons p r =>
    obtain ⟨a, b⟩ := p
    rw [Sparse.wfFrom_cons] at h ⊢
    exact ⟨hl a h.1, h.2⟩

/-- Below its first key a well-formed list has the default. -/
theorem Sparse.get_below {lo : Option Nat} {l : List (Nat × β)} (h : Sparse.wfFrom d lo l = true) (k : Nat)
    (hk : ¬ Sparse.above lo k) : Sparse.get d l k = d := by
  induction l generalizing lo with
  | nil => rfl
  | cons p r ih =>
    obtain ⟨a, b⟩ := p
    rw [Sparse.wfFrom_cons] at h
    have ha : a ≠ k := by rintro rfl; exact hk h.1
    rw [Sparse.get, if_neg ha]
    refine ih h.2.2 (fun h' => hk ?_)
    intro x hx
    exact Nat.lt_trans (h.1 x hx) (h' a rfl)

/-- A write keeps the canonical form. -/
theorem Sparse.wfFrom_set {lo : Option Nat} {l : List (Nat × β)} (h : Sparse.wfFrom d lo l = true) (k : Nat) (v : β)
    (hk : Sparse.above lo k) : Sparse.wfFrom d lo (Sparse.set d l k v) = true := by
  induction l generalizing lo with
  | nil =>
    rw [Sparse.set]
    split
    · rfl
    · rw [Sparse.wfFrom_cons]; exact ⟨hk, ‹_›, rfl⟩
  | cons p r ih =>
    obtain ⟨a, b⟩ := p
    rw [Sparse.wfFrom_cons] at h
    rw [Sparse.set]
    split
    · rename_i hak
      rw [Sparse.wfFrom_cons]
      exact ⟨h.1, h.2.1, ih h.2.2 (by rintro _ ⟨rfl⟩; exact hak)⟩
    · split
      · rename_i hak
        subst hak
        split
        · refine Sparse.wfFrom_weaken h.2.2 (fun k hk' x hx => ?_)
          exact Nat.lt_trans (h.1 x hx) (hk' a rfl)
        · rw [Sparse.wfFrom_cons]; exact ⟨h.1, ‹_›, h.2.2⟩
      · rename_i h1 h2
        split
        · rw [Sparse.wfFrom_cons]; exact h
        · rw [Sparse.wfFrom_cons]
          refine ⟨hk, ‹_›, ?_⟩
          rw [Sparse.wfFrom_cons]
          refine ⟨?_, h.2⟩
          rintro _ ⟨rfl⟩
          omega

/-- Reading after a write. -/
theorem Sparse.get_set {lo : Option Nat} {l : List (Nat × β)} (h : Sparse.wfFrom d lo l = true) (k : Nat) (v : β) (j : Nat) :
    Sparse.get d (Sparse.set d l k v) j = if j = k then v else Sparse.get d l j := by
  induction l generalizing lo with
  | nil =>
    rw [Sparse.set]
    by_cases hj : j = k
    · subst hj; rw [if_pos rfl]; split <;> simp_all [Sparse.get]
    · rw [if_neg hj]; split <;> simp [Sparse.get, Ne.symm hj]
  | cons p r ih =>
    obtain ⟨a, b⟩ := p
    rw [Sparse.wfFrom_cons] at h
    rw [Sparse.set]
    split
    · rename_i hak
      simp only [Sparse.get, ih h.2.2]
      split
      · rename_i haj
        rw [if_neg (by omega)]
      · rfl
    · rename_i hak
      split
      · rename_i hk
        subst hk
        by_cases hj : a = j
        · subst hj
          rw [if_pos rfl]
          split
          · rename_i hv
            rw [hv]
            exact Sparse.get_below h.2.2 a (fun h' => absurd (h' a rfl) (Nat.lt_irrefl a))
          · rw [Sparse.get, if_pos rfl]
        · rw [if_neg (show ¬ j = a from fun e => hj e.symm), Sparse.get, if_neg hj]
          split
          · rfl
          · rw [Sparse.get, if_neg hj]
      · rename_i hk
        by_cases hj : k = j
        · subst hj
          rw [if_pos rfl]
          split
          · rename_i hv
            rw [hv, Sparse.get, if_neg hk]
            exact Sparse.get_below h.2.2 k (fun h' => hak (h' a rfl))
          · rw [Sparse.get, if_pos rfl]
        · rw [if_neg (show ¬ j = k from fun e => hj e.symm)]
          split
          · rfl
          · rw [Sparse.get, if_neg hj]

/-- Dropping entries keeps the canonical form. -/
theorem Sparse.wfFrom_filter {lo : Option Nat} {l : List (Nat × β)} (h : Sparse.wfFrom d lo l = true) (p : Nat × β → Bool) :
    Sparse.wfFrom d lo (l.filter p) = true := by
  induction l generalizing lo with
  | nil => rfl
  | cons q r ih =>
    obtain ⟨a, b⟩ := q
    rw [Sparse.wfFrom_cons] at h
    by_cases hp : p (a, b) = true
    · rw [List.filter_cons_of_pos hp, Sparse.wfFrom_cons]
      exact ⟨h.1, h.2.1, ih h.2.2⟩
    · rw [List.filter_cons_of_neg hp]
      refine Sparse.wfFrom_weaken (ih h.2.2) (fun k hk x hx => ?_)
      exact Nat.lt_trans (h.1 x hx) (hk a rfl)

omit [DecidableEq β] in
/-- What a filter leaves of the entries, read by key, when it looks at keys alone. -/
theorem Sparse.get_filter (l : List (Nat × β)) (p : Nat → Bool) (k : Nat) :
    Sparse.get d (l.filter (fun c => p c.1)) k = if p k then Sparse.get d l k else d := by
  induction l with
  | nil => simp [Sparse.get]
  | cons q r ih =>
    obtain ⟨a, b⟩ := q
    by_cases hp : p a = true
    · rw [List.filter_cons_of_pos (by simpa using hp), Sparse.get, Sparse.get, ih]
      by_cases ha : a = k
      · subst ha; simp [hp]
      · simp [ha]
    · rw [List.filter_cons_of_neg (by simpa using hp), ih, Sparse.get]
      by_cases ha : a = k
      · subst ha; simp [hp]
      · simp [ha]

end Sparse

/-! ### Memory -/

theorem Memory.wf_set {m : List Host.Cell} (h : Memory.wf m = true) (k : Nat) (v : Byte) : Memory.wf (Memory.set m k v) = true :=
  Sparse.wfFrom_set h k v (by intro l hl; cases hl)

theorem Memory.wf_setAll {m : List Host.Cell} (h : Memory.wf m = true) (cs : List Host.Cell) :
    Memory.wf (Memory.setAll m cs) = true := by
  induction cs generalizing m with
  | nil => exact h
  | cons c r ih => exact ih (Memory.wf_set h c.1 c.2)

theorem Memory.wf_filter {m : List Host.Cell} (h : Memory.wf m = true) (p : Host.Cell → Bool) : Memory.wf (m.filter p) = true :=
  Sparse.wfFrom_filter h p

/-- Reading a byte after a write of a byte. -/
theorem Memory.get_set {m : List Host.Cell} (h : Memory.wf m = true) (k : Nat) (v : Byte) (j : Nat) :
    Memory.get (Memory.set m k v) j = if j = k then v else Memory.get m j := Sparse.get_set h k v j

/-- A write of bytes leaves every other byte. -/
theorem Memory.get_setAll_other {m : List Host.Cell} (h : Memory.wf m = true) (cs : List Host.Cell) (j : Nat)
    (hj : ∀ c ∈ cs, c.1 ≠ j) : Memory.get (Memory.setAll m cs) j = Memory.get m j := by
  induction cs generalizing m with
  | nil => rfl
  | cons c r ih =>
    show Memory.get (Memory.setAll (Memory.set m c.1 c.2) r) j = _
    rw [ih (Memory.wf_set h c.1 c.2) (fun q hq => hj q (List.mem_cons_of_mem _ hq)), Memory.get_set h,
      if_neg (fun e => hj c (List.mem_cons_self ..) e.symm)]

/-- A write of bytes whose entries agree at a key leaves that byte there. -/
theorem Memory.get_setAll_same {m : List Host.Cell} (h : Memory.wf m = true) (cs : List Host.Cell) (j : Nat) (v : Byte)
    (hin : (j, v) ∈ cs) (hj : ∀ c ∈ cs, c.1 = j → c.2 = v) : Memory.get (Memory.setAll m cs) j = v := by
  induction cs generalizing m with
  | nil => cases hin
  | cons c r ih =>
    show Memory.get (Memory.setAll (Memory.set m c.1 c.2) r) j = _
    by_cases hr : ∃ q ∈ r, q.1 = j
    · obtain ⟨q, hq, hqj⟩ := hr
      refine ih (Memory.wf_set h c.1 c.2) ?_ (fun q hq => hj q (List.mem_cons_of_mem _ hq))
      have := hj q (List.mem_cons_of_mem _ hq) hqj
      have e : q = (j, v) := Prod.ext hqj this
      rwa [e] at hq
    · rw [Memory.get_setAll_other (Memory.wf_set h c.1 c.2) r j (fun q hq e => hr ⟨q, hq, e⟩), Memory.get_set h]
      have hc : c.1 = j := by
        rcases List.mem_cons.mp hin with e | e
        · rw [← e]
        · exact absurd ⟨_, e, rfl⟩ hr
      rw [if_pos hc.symm]
      exact hj c (List.mem_cons_self ..) hc

end Sys2Proof.Machine
end

