-- ==== Sys2Proof/Laws/Memory.lean ====
section
/-! SUPPORT. Stores becoming visible: what settling and the memory operations built on it leave of memory, its canonical form,
and what every observer reads. -/

namespace Sys2Proof.Machine

/-! ### The canonical form is kept -/

theorem settleFrom_wf (l : List StoreRec) : ∀ (kept : List StoreRec) (m : List Host.Cell), Memory.wf m = true →
    Memory.wf (settleFrom kept m l).2 = true := by
  induction l with
  | nil => intro kept m h; exact h
  | cons r rest ih =>
    intro kept m h
    rw [settleFrom]
    split
    · exact ih _ _ (Memory.wf_setAll h _)
    · exact ih _ _ h

theorem State.settle_wf {s : State} (h : Memory.wf s.mem = true) : Memory.wf s.settle.mem = true := settleFrom_wf _ _ _ h

theorem State.advance_wf {s : State} (h : Memory.wf s.mem = true) (pick : StoreRec → Bool) (f : StoreRec → StoreRec) :
    Memory.wf (s.advance pick f).mem = true := State.settle_wf h

theorem State.advanceAfter_wf {s : State} (h : Memory.wf s.mem = true) (apply : Bool) (pick : StoreRec → Bool) (f : StoreRec → StoreRec) :
    Memory.wf (s.advanceAfter apply pick f).mem = true := State.advance_wf h _ _

theorem State.afterRivals_wf {s : State} (h : Memory.wf s.mem = true) (pick : StoreRec → Bool) :
    Memory.wf (s.afterRivals pick).mem = true := by
  unfold State.afterRivals
  dsimp only
  split
  · exact h
  · exact State.advanceAfter_wf h _ _ _

theorem State.perform_wf {s : State} (h : Memory.wf s.mem = true) (pick : StoreRec → Bool) :
    Memory.wf (s.perform pick).mem = true := State.advanceAfter_wf (State.afterRivals_wf h _) _ _ _

theorem State.coverPaths_wf {s : State} (h : Memory.wf s.mem = true) (pt : BitVec 5) (pick : StoreRec → Bool) :
    Memory.wf (s.coverPaths pt pick).mem = true := State.advanceAfter_wf (State.afterRivals_wf h _) _ _ _

theorem State.drainDie_wf {s : State} (h : Memory.wf s.mem = true) (pick : StoreRec → Bool) :
    Memory.wf (s.drainDie pick).mem = true := State.coverPaths_wf h _ _

theorem State.drainAll_wf {s : State} (h : Memory.wf s.mem = true) (pick : StoreRec → Bool) :
    Memory.wf (s.drainAll pick).mem = true := State.advanceAfter_wf (State.afterRivals_wf h _) _ _ _

theorem State.drainPath_wf {s : State} (h : Memory.wf s.mem = true) (pick : StoreRec → Bool) :
    Memory.wf (s.drainPath pick).mem = true := State.advanceAfter_wf (State.afterRivals_wf h _) _ _ _

theorem State.drainGlob_wf {s : State} (h : Memory.wf s.mem = true) (pick : StoreRec → Bool) :
    Memory.wf (s.drainGlob pick).mem = true := State.advanceAfter_wf (State.afterRivals_wf h _) _ _ _

/-- What rekeying a block does to memory. -/
theorem State.rekey_mem (s : State) (ki k : Nat) :
    (s.rekey ki k).mem = s.mem ∨ ∃ cells, (s.rekey ki k).mem = Memory.setAll s.mem cells := by
  unfold State.rekey
  split
  · split
    · exact .inl rfl
    · split
      · exact .inl rfl
      · right; dsimp only; exact ⟨_, rfl⟩
  · exact .inl rfl

theorem State.rekey_wf {s : State} (h : Memory.wf s.mem = true) (ki k : Nat) : Memory.wf (s.rekey ki k).mem = true := by
  rcases s.rekey_mem ki k with e | ⟨cells, e⟩
  · rw [e]; exact h
  · rw [e]; exact Memory.wf_setAll h cells

theorem State.rekeyAll_wf {s : State} (h : Memory.wf s.mem = true) (ki k n : Nat) : Memory.wf (s.rekeyAll ki k n).mem = true := by
  have go : ∀ (l : List Nat) (t : State), Memory.wf t.mem = true →
      Memory.wf (l.foldl (fun s i => s.rekey ki (16 * (k / 16 + 1 + i))) t).mem = true := by
    intro l
    induction l with
    | nil => intro t h; exact h
    | cons i r ih => intro t h; exact ih _ (State.rekey_wf h _ _)
  exact go _ _ (State.rekey_wf h _ _)

/-- Inside one block there is one block to key. -/
theorem State.rekeyAll_block (s : State) (ki : Nat) {k n : Nat} (h : n - 1 + k % 16 < 16) : s.rekeyAll ki k n = s.rekey ki k := by
  have : (k + (n - 1)) / 16 - k / 16 = 0 := by omega
  simp [State.rekeyAll, this]

@[simp] theorem State.setModified_mem (s : State) (die : Fin 8) (k n : Nat) : (s.setModified die k n).mem = s.mem := by
  unfold State.setModified; split <;> rfl

@[simp] theorem State.unpoison_mem (s : State) (k n : Nat) : (s.unpoison k n).mem = s.mem := rfl

theorem State.putStore_wf {s : State} (h : Memory.wf s.mem = true) (ctx : Option Nat) (fn : Fin 256) (die : Fin 8)
    (path : Path) (cls : Cls) (y : Bool) (va : Word) (ki k : Nat) (bs : List Byte) (mode : StoreMode) (nib : Option Bool)
    (ins : Option Nat) : Memory.wf (s.putStore ctx fn die path cls y va ki k bs mode nib ins).mem = true := by
  refine State.settle_wf ?_
  simp only [State.setModified_mem]
  split <;> exact State.rekeyAll_wf h _ _ _

theorem State.putAtomic_wf {s : State} (h : Memory.wf s.mem = true) (ctx : Option Nat) (fn : Fin 256) (die : Fin 8)
    (path : Path) (cls : Cls) (va : Word) (ki k : Nat) (bs : List Byte) (far : Bool) :
    Memory.wf (s.putAtomic ctx fn die path cls va ki k bs far).mem = true := by
  refine State.settle_wf ?_
  simp only [State.setModified_mem]
  exact State.rekeyAll_wf h _ _ _

theorem State.applyFor_wf {s : State} (h : Memory.wf s.mem = true) (die : Fin 8) (k n : Nat) :
    Memory.wf (s.applyFor die k n).mem = true := State.advanceAfter_wf h _ _ _

theorem State.pokeKey_wf {s : State} (h : Memory.wf s.mem = true) (ki k : Nat) (bs : List Byte) :
    Memory.wf (s.pokeKey ki k bs).mem = true :=
  Memory.wf_setAll (State.rekeyAll_wf h _ _ _) _

theorem State.storeParts_wf (ctx : Option Nat) (fn : Fin 256) (die : Fin 8) (path : Path) (cls : Cls) (y : Bool) (va : Word)
    (mode : StoreMode) (nib : Option Bool) (ins : Option Nat) (ms : List (Mapped × Nat)) : ∀ (s : State) (bs : List Byte),
    Memory.wf s.mem = true → Memory.wf (s.storeParts ctx fn die path cls y va mode nib ins ms bs).mem = true := by
  induction ms with
  | nil => intro s bs h; exact h
  | cons p r ih =>
    intro s bs h
    exact ih _ _ (State.putStore_wf h ..)

/-! ### What observers read -/

theorem overBytes_append (sh : StoreRec → Bool) (k : Nat) (old : Byte) (a b : List StoreRec) :
    overBytes sh k old (a ++ b) = overBytes sh k (overBytes sh k old a) b := List.foldl_append

/-- The byte one record writes at a key. -/
def StoreRec.byteAt (r : StoreRec) (k : Nat) : Option Byte := (r.bytes.find? (fun c => c.1 == k)).map (fun c => c.2)

/-- One record over an older byte. -/
theorem overBytes_singleton (sh : StoreRec → Bool) (k : Nat) (old : Byte) (r : StoreRec) :
    overBytes sh k old [r] = if sh r then (match r.byteAt k with | some b => r.put old b | none => old) else old := by
  simp only [overBytes, List.foldl_cons, List.foldl_nil, StoreRec.byteAt]
  split
  · cases r.bytes.find? (fun c => c.1 == k) <;> rfl
  · rfl

@[simp] theorem overBytes_nil (sh : StoreRec → Bool) (k : Nat) (old : Byte) : overBytes sh k old [] = old := rfl

/-- Records that show nothing at a key leave the older byte. -/
theorem overBytes_none {sh : StoreRec → Bool} {k : Nat} {l : List StoreRec} (h : ∀ q ∈ l, sh q = false ∨ q.byteAt k = none) (old : Byte) :
    overBytes sh k old l = old := by
  induction l using List.reverseRecOn with
  | nil => rfl
  | append_singleton l r ih =>
    rw [overBytes_append, ih (fun q hq => h q (List.mem_append_left _ hq)), overBytes_singleton]
    rcases h r (by simp) with e | e <;> simp [e]

/-- A record stripped of some keys writes nothing there and the same elsewhere. -/
theorem StoreRec.byteAt_strip (cs : List Host.Cell) (r : StoreRec) (k : Nat) :
    (r.strip cs).byteAt k = if cs.any (fun d => d.1 == k) then none else r.byteAt k := by
  simp only [StoreRec.byteAt, StoreRec.strip, List.find?_filter]
  by_cases h : cs.any (fun d => d.1 == k) = true
  · rw [if_pos h]
    simp only [Option.map_eq_none_iff, List.find?_eq_none]
    intro x _ hx
    obtain ⟨h1, h2⟩ := of_decide_eq_true hx
    rw [beq_iff_eq.mp h2, h] at h1
    exact absurd h1 (by decide)
  · rw [if_neg h]
    congr 1
    apply List.find?_congr
    intro x _
    by_cases hx : x.1 = k
    · subst hx; simp [Bool.eq_false_iff.mpr h]
    · simp [hx]

theorem StoreRec.byteAt_isSome (r : StoreRec) (k : Nat) : (r.byteAt k).isSome = r.bytes.any (fun d => d.1 == k) := by
  simp only [StoreRec.byteAt, Option.isSome_map, List.isSome_find?]

/-- Two stores that both write a key meet. -/
theorem StoreRec.meets_of {r q : StoreRec} {k : Nat} (hr : (r.byteAt k).isSome) (hq : (q.byteAt k).isSome) : q.meets r = true := by
  rw [StoreRec.byteAt_isSome, List.any_eq_true] at hr hq
  obtain ⟨c, hc, e⟩ := hr
  obtain ⟨d, hd, e'⟩ := hq
  simp only [StoreRec.meets, List.any_eq_true]
  exact ⟨d, hd, c, hc, by rw [beq_iff_eq] at *; rw [e, e']⟩

/-- A test of records that does not look at their bytes or acknowledgement, and holds of every record visible everywhere. -/
structure Shows (sh : StoreRec → Bool) : Prop where
  same : ∀ (r : StoreRec) (bs : List Host.Cell) (a : Bool), sh { r with bytes := bs, acked := a } = sh r
  all  : ∀ r : StoreRec, r.everywhere = true → sh r = true

theorem Shows.strip {sh : StoreRec → Bool} (h : Shows sh) (cs : List Host.Cell) (r : StoreRec) : sh (r.strip cs) = sh r :=
  h.same r _ r.acked

theorem overBytes_strip {sh : StoreRec → Bool} (h : Shows sh) (cs : List Host.Cell) (k : Nat) (old : Byte) (l : List StoreRec) :
    overBytes sh k old (l.map (StoreRec.strip cs)) = if cs.any (fun d => d.1 == k) then old else overBytes sh k old l := by
  induction l using List.reverseRecOn with
  | nil => simp
  | append_singleton l r ih =>
    rw [List.map_append, overBytes_append, overBytes_append, ih, List.map_singleton, overBytes_singleton,
      overBytes_singleton, h.strip, StoreRec.byteAt_strip]
    by_cases hc : cs.any (fun d => d.1 == k) = true
    · simp only [if_pos hc]
      split <;> rfl
    · simp only [if_neg hc]
      rfl

/-- A record lists each key once. -/
def StoreRec.Distinct (r : StoreRec) : Prop := (r.bytes.map (fun c => c.1)).Nodup

/-- The byte memory holds after a record's cells are written to it. -/
theorem Memory.get_setCells {m : List Host.Cell} (h : Memory.wf m = true) (r : StoreRec) (hr : r.Distinct) (k : Nat) :
    Memory.get (Memory.setAll m (r.cells m)) k = match r.byteAt k with | some b => r.put (Memory.get m k) b | none => Memory.get m k := by
  have hmem : ∀ q ∈ r.cells m, ∃ c ∈ r.bytes, q = (c.1, r.put (Memory.get m c.1) c.2) := by
    intro q hq
    obtain ⟨c, hc, rfl⟩ := List.mem_map.mp hq
    exact ⟨c, hc, rfl⟩
  unfold StoreRec.byteAt
  cases hf : r.bytes.find? (fun c => c.1 == k) with
  | none =>
    refine Memory.get_setAll_other h _ _ (fun q hq e => ?_)
    obtain ⟨c, hc, rfl⟩ := hmem q hq
    exact absurd (beq_iff_eq.mpr e) (List.find?_eq_none.mp hf c hc)
  | some c =>
    have hc := List.mem_of_find?_eq_some hf
    have hk : c.1 = k := by simpa using List.find?_some hf
    have := Memory.get_setAll_same h (r.cells m) k (r.put (Memory.get m k) c.2) (by
      rw [← hk]; exact List.mem_map.mpr ⟨c, hc, rfl⟩) (fun q hq e => by
      obtain ⟨d, hd, rfl⟩ := hmem q hq
      have : d = c := List.inj_on_of_nodup_map hr hd hc (e.trans hk.symm)
      subst this; dsimp only at e; rw [e])
    exact this

theorem settleFrom_view {sh : StoreRec → Bool} (hs : Shows sh) (k : Nat) (l : List StoreRec) :
    ∀ (kept : List StoreRec) (m : List Host.Cell), Memory.wf m = true → (∀ r ∈ l, r.Distinct) →
      overBytes sh k (Memory.get (settleFrom kept m l).2 k) (settleFrom kept m l).1 =
        overBytes sh k (Memory.get m k) (kept ++ l) := by
  induction l with
  | nil => intro kept m _ _; rw [settleFrom, List.append_nil]
  | cons r rest ih =>
    intro kept m hm hd
    have hr := hd r (List.mem_cons_self ..)
    have hrest := fun q hq => hd q (List.mem_cons_of_mem _ hq)
    rw [settleFrom]
    split
    · rename_i he
      simp only [StoreRec.settles, Bool.and_eq_true, Bool.or_eq_true, Bool.not_eq_true'] at he
      have e : kept ++ r :: rest = kept ++ [r] ++ rest := by simp
      rw [ih _ _ (Memory.wf_setAll hm _) hrest, Memory.get_setCells hm r hr, e]
      simp only [overBytes_append, overBytes_strip hs, overBytes_singleton, hs.all r he.1, hs.same, if_true]
      have hb := r.byteAt_isSome k
      cases hc : r.byteAt k with
      | none =>
        rw [hc] at hb
        rw [← hb]
        simp [StoreRec.byteAt]
      | some c =>
        rw [hc] at hb
        rw [← hb]
        simp only [StoreRec.byteAt, List.find?_nil, Option.map_none, Option.isSome_some, if_true]
        have : r.put (overBytes sh k (Memory.get m k) kept) c = r.put (Memory.get m k) c := by
          rcases he.2 with hn | hn
          · rw [Option.isNone_iff_eq_none] at hn
            simp [StoreRec.put, hn]
          · congr 1
            refine overBytes_none (fun q hq => .inr ?_) _
            by_contra hq'
            have h1 := StoreRec.meets_of (r := r) (q := q) (k := k) (by rw [hc]; rfl) (Option.isSome_iff_ne_none.mpr hq')
            rw [Bool.eq_false_iff, Ne, List.any_eq_true] at hn
            exact hn ⟨q, hq, h1⟩
        rw [this]
    · rw [ih _ _ hm hrest]
      simp

/-- A record that is dropped because it has nothing to tell shows no byte. -/
theorem overBytes_live (sh : StoreRec → Bool) (k : Nat) (old : Byte) (l : List StoreRec) :
    overBytes sh k old (l.filter StoreRec.live) = overBytes sh k old l := by
  induction l using List.reverseRecOn with
  | nil => rfl
  | append_singleton l r ih =>
    rw [List.filter_append, overBytes_append, overBytes_append, ih]
    by_cases h : r.live = true
    · rw [List.filter_cons_of_pos h]; rfl
    · rw [List.filter_cons_of_neg h]
      have : r.bytes = [] := by
        simp only [StoreRec.live, Bool.or_eq_true, not_or, Bool.not_eq_true', Bool.not_eq_false] at h
        exact List.isEmpty_iff.mp (by simpa using h.1)
      simp [overBytes_singleton, StoreRec.byteAt, this]

/-- What a test of records shows of a key: the shown stores in their order over memory. -/
def State.see (s : State) (sh : StoreRec → Bool) (k : Nat) : Byte := overBytes sh k (Memory.get s.mem k) s.stores

theorem State.viewByte_see (s : State) (o : Observer) (k : Nat) : s.viewByte o k = s.see (fun r => r.visible o) k := rfl
theorem State.homeByte_see (s : State) (k : Nat) : s.homeByte k = s.see (fun r => r.applied) k := rfl
theorem State.dieByte_see (s : State) (die : Fin 8) (k : Nat) : s.dieByte die k = s.see (fun r => r.visibleAll die) k := rfl

/-- Settling changes nothing that any observer reads. -/
theorem State.settle_view {s : State} (hm : Memory.wf s.mem = true) (hd : ∀ r ∈ s.stores, r.Distinct) {sh : StoreRec → Bool}
    (hs : Shows sh) (k : Nat) : s.settle.see sh k = s.see sh k := by
  have := settleFrom_view hs k s.stores [] s.mem hm hd
  simpa only [State.see, State.settle, overBytes_live, List.nil_append] using this

theorem shows_visible (o : Observer) : Shows (fun r => r.visible o) := by
  constructor
  · intro r bs a; rfl
  · intro r h
    simp only [StoreRec.everywhere, Bool.and_eq_true, Bool.or_eq_true, bne_iff_ne, beq_iff_eq] at h
    unfold StoreRec.visible
    cases hm : r.mode with
    | glob => exact h.1
    | home => exact h.1
    | early =>
      obtain ⟨hp, hd⟩ := h.2.resolve_left (by simp [hm])
      simp only [hp, hd]
      have e5 : (BitVec.allOnes 5).getLsbD (pathIdx o.path) = true := by cases o.path <;> rfl
      have e8 : (BitVec.allOnes 8).getLsbD o.die.val = true := by rw [BitVec.getLsbD_allOnes]; simp
      rw [e5, e8]
      split <;> simp

theorem shows_visibleAll (die : Fin 8) : Shows (fun r => r.visibleAll die) := by
  constructor
  · intro r bs a; rfl
  · intro r h
    simp only [StoreRec.everywhere, Bool.and_eq_true, Bool.or_eq_true, bne_iff_ne, beq_iff_eq] at h
    unfold StoreRec.visibleAll
    cases hm : r.mode with
    | glob => exact h.1
    | home => exact h.1
    | early =>
      obtain ⟨hp, hd⟩ := h.2.resolve_left (by simp [hm])
      simp only [hp, hd]
      have e8 : (BitVec.allOnes 8).getLsbD die.val = true := by rw [BitVec.getLsbD_allOnes]; simp
      rw [e8]
      simp

theorem shows_applied : Shows (fun r => r.applied) := by
  constructor
  · intro r bs a; rfl
  · intro r h
    simp only [StoreRec.everywhere, Bool.and_eq_true] at h
    exact h.1

/-! ### The coherence order -/

/-- Applied stores come first, then those that have performed on their die. -/
abbrev RankSorted (l : List StoreRec) : Prop := l.Pairwise (fun r q => r.rank ≤ q.rank)

theorem StoreRec.rank_cases (r : StoreRec) : r.rank = 0 ∨ r.rank = 1 ∨ r.rank = 2 := by
  unfold StoreRec.rank; split
  · exact .inl rfl
  · split
    · exact .inr (.inl rfl)
    · exact .inr (.inr rfl)

theorem StoreRec.rank_applied (r : StoreRec) : r.rank = 0 ↔ r.applied = true := by
  unfold StoreRec.rank
  cases r.applied
  · cases r.performed <;> simp
  · simp

/-- A sorted list falls into the records up to a rank and the others. -/
theorem rankSorted_split {l : List StoreRec} (h : RankSorted l) (n : Nat) :
    l.filter (fun q => decide (q.rank ≤ n)) ++ l.filter (fun q => decide (n < q.rank)) = l := by
  induction l with
  | nil => rfl
  | cons r rest ih =>
    obtain ⟨h1, h2⟩ := List.pairwise_cons.mp h
    by_cases hr : r.rank ≤ n
    · rw [List.filter_cons_of_pos (by simpa using hr), List.filter_cons_of_neg (by simpa using hr), List.cons_append, ih h2]
    · have e1 : rest.filter (fun q => decide (q.rank ≤ n)) = [] := by
        rw [List.filter_eq_nil_iff]; intro q hq; have := h1 q hq; simp; omega
      have e2 : rest.filter (fun q => decide (n < q.rank)) = rest := by
        rw [List.filter_eq_self]; intro q hq; have := h1 q hq; simp; omega
      rw [List.filter_cons_of_neg (by simpa using hr), List.filter_cons_of_pos (by simp; omega), e1, e2, List.nil_append]

theorem mem_insertStore {r q : StoreRec} {l : List StoreRec} (h : q ∈ insertStore r l) : q = r ∨ q ∈ l := by
  unfold insertStore at h
  simp only [List.mem_append, List.mem_singleton, List.mem_filter] at h
  tauto

theorem insertStore_perm (r : StoreRec) (l : List StoreRec) : (insertStore r l).Perm (r :: l) := by
  unfold insertStore
  rw [List.append_assoc, List.singleton_append]
  refine List.perm_middle.trans (List.Perm.cons _ ?_)
  have : (fun q : StoreRec => decide (r.rank < q.rank)) = fun q => !(decide (q.rank ≤ r.rank)) := by
    funext q; rw [Bool.eq_iff_iff]; simp
  rw [this]
  exact List.filter_append_perm _ _

theorem insertStore_sorted (r : StoreRec) {l : List StoreRec} (h : RankSorted l) : RankSorted (insertStore r l) := by
  unfold insertStore
  rw [List.append_assoc, List.singleton_append]
  refine List.pairwise_append.mpr ⟨h.filter _, List.pairwise_cons.mpr ⟨fun q hq => ?_, h.filter _⟩, fun a ha b hb => ?_⟩
  · have := (List.mem_filter.mp hq).2; simp at this; omega
  · have h1 := (List.mem_filter.mp ha).2
    simp at h1
    rcases List.mem_cons.mp hb with rfl | hb
    · exact h1
    · have := (List.mem_filter.mp hb).2; simp at this; omega

/-- A record that is put into its rank or left out. -/
theorem byRank_cons (p : StoreRec × StoreRec) (l : List (StoreRec × StoreRec)) :
    (byRank (p :: l)).Perm (p.2 :: byRank l) ∨ byRank (p :: l) = byRank l := by
  unfold byRank
  rcases p.2.rank_cases with h2 | h2 | h2 <;> rcases p.1.rank_cases with h1 | h1 | h1
  all_goals
    simp only [List.filter_cons, h1, h2]
    first
      | (right; rfl)
      | (left; simp only [beq_self_eq_true, Bool.and_self, if_true, List.map_cons]
         simp [List.perm_iff_count, List.count_append, List.count_cons]
         try (intro a; omega))

theorem mem_byRank {q : StoreRec} : ∀ {l : List (StoreRec × StoreRec)}, q ∈ byRank l → ∃ p ∈ l, q = p.2 := by
  intro l
  induction l with
  | nil => intro h; simp [byRank] at h
  | cons p l ih =>
    intro h
    rcases byRank_cons p l with e | e
    · rcases List.mem_cons.mp (e.subset h) with rfl | h
      · exact ⟨p, List.mem_cons_self .., rfl⟩
      · obtain ⟨p', hp', e'⟩ := ih h
        exact ⟨p', List.mem_cons_of_mem _ hp', e'⟩
    · rw [e] at h
      obtain ⟨p', hp', e'⟩ := ih h
      exact ⟨p', List.mem_cons_of_mem _ hp', e'⟩

theorem byRank_sorted (l : List (StoreRec × StoreRec)) : RankSorted (byRank l) := by
  have hs : ∀ a b : Nat, ∀ q ∈ (l.filter (fun p => p.2.rank == a && p.1.rank == b)).map (fun p => p.2), q.rank = a := by
    intro a b q hq
    obtain ⟨p, hp, rfl⟩ := List.mem_map.mp hq
    have := (List.mem_filter.mp hp).2
    simp only [Bool.and_eq_true, beq_iff_eq] at this
    exact this.1
  have h2 : ∀ q ∈ (l.filter (fun p => p.2.rank == 2)).map (fun p => p.2), q.rank = 2 := by
    intro q hq
    obtain ⟨p, hp, rfl⟩ := List.mem_map.mp hq
    simpa using (List.mem_filter.mp hp).2
  have join : ∀ {x y : List StoreRec} (a b : Nat), a ≤ b → (∀ q ∈ x, q.rank ≤ a) → RankSorted x → (∀ q ∈ y, q.rank = b) → RankSorted (x ++ y) ∧
      ∀ q ∈ x ++ y, q.rank ≤ b := by
    intro x y a b hab hx hsx hy
    refine ⟨List.pairwise_append.mpr ⟨hsx, List.pairwise_of_forall_mem_list (fun r hr q hq => by rw [hy r hr, hy q hq]), fun r hr q hq => ?_⟩, ?_⟩
    · rw [hy q hq]; exact Nat.le_trans (hx r hr) hab
    · intro q hq
      rcases List.mem_append.mp hq with hq | hq
      · exact Nat.le_trans (hx q hq) hab
      · rw [hy q hq]
  unfold byRank
  have s0 : RankSorted ((l.filter (fun p => p.2.rank == 0 && p.1.rank == 0)).map (fun p => p.2)) :=
    List.pairwise_of_forall_mem_list (fun r hr q hq => by rw [hs 0 0 r hr, hs 0 0 q hq])
  have s1 := join 0 0 (Nat.le_refl _) (fun q hq => Nat.le_of_eq (hs 0 0 q hq)) s0 (hs 0 1)
  have s2 := join 0 0 (Nat.le_refl _) s1.2 s1.1 (hs 0 2)
  have s3 := join 0 1 (by omega) s2.2 s2.1 (hs 1 1)
  have s4 := join 1 1 (Nat.le_refl _) s3.2 s3.1 (hs 1 2)
  exact (join 1 2 (by omega) s4.2 s4.1 h2).1

theorem mem_updateStores {pick : StoreRec → Bool} {f : StoreRec → StoreRec} {l : List StoreRec} {q : StoreRec}
    (h : q ∈ updateStores pick f l) : ∃ r ∈ l, q = if pick r then f r else r := by
  obtain ⟨p, hp, rfl⟩ := mem_byRank h
  obtain ⟨r, hr, rfl⟩ := List.mem_map.mp hp
  exact ⟨r, hr, rfl⟩

/-- Every record that settling leaves stands for one it had: the same but for its bytes, of which it keeps some, and its
acknowledgement. -/
theorem settleFrom_mem (l : List StoreRec) : ∀ (kept : List StoreRec) (m : List Host.Cell), ∀ q ∈ (settleFrom kept m l).1,
    ∃ r ∈ kept ++ l, ∃ bs a, q = { r with bytes := bs, acked := a } ∧ bs.Sublist r.bytes := by
  induction l with
  | nil => intro kept m q hq; exact ⟨q, by simpa [settleFrom] using hq, q.bytes, q.acked, rfl, List.Sublist.refl _⟩
  | cons r rest ih =>
    intro kept m q hq
    rw [settleFrom] at hq
    split at hq
    · obtain ⟨p, hp, bs, a, rfl, hb⟩ := ih _ _ q hq
      rw [List.append_assoc, List.singleton_append] at hp
      rcases List.mem_append.mp hp with hp | hp
      · obtain ⟨p', hp', rfl⟩ := List.mem_map.mp hp
        exact ⟨p', List.mem_append_left _ hp', bs, a, rfl, hb.trans List.filter_sublist⟩
      · rcases List.mem_cons.mp hp with rfl | hp
        · refine ⟨r, by simp, bs, a, rfl, ?_⟩
          have : bs = [] := List.sublist_nil.mp hb
          rw [this]; exact List.nil_sublist _
        · exact ⟨p, by simp [hp], bs, a, rfl, hb⟩
    · obtain ⟨p, hp, e⟩ := ih _ _ q hq
      exact ⟨p, by simpa using hp, e⟩

theorem settleFrom_sorted (l : List StoreRec) : ∀ (kept : List StoreRec) (m : List Host.Cell), RankSorted (kept ++ l) →
    RankSorted (settleFrom kept m l).1 := by
  induction l with
  | nil => intro kept m h; simpa [settleFrom] using h
  | cons r rest ih =>
    intro kept m h
    have key : ∀ (kept' : List StoreRec) (r' : StoreRec), kept'.map StoreRec.rank = kept.map StoreRec.rank →
        r'.rank = r.rank → RankSorted (kept' ++ [r'] ++ rest) := by
      intro kept' r' h1 h2
      have e : ∀ x : List StoreRec, RankSorted x ↔ (x.map StoreRec.rank).Pairwise (fun a b => a ≤ b) := by
        intro x; rw [List.pairwise_map]
      rw [e] at h ⊢
      simpa [h1, h2] using h
    rw [settleFrom]
    split
    · refine ih _ _ (key _ _ ?_ rfl)
      rw [List.map_map]; rfl
    · exact ih _ _ (key _ _ rfl rfl)

/-- Settling keeps the canonical form. -/
theorem State.settle_canonical {s : State} (h : s.Canonical) : s.settle.Canonical := by
  obtain ⟨h1, h2, h3⟩ := h
  refine ⟨State.settle_wf h1, fun q hq => ?_, ?_⟩
  · obtain ⟨r, hr, bs, a, rfl, hb⟩ := settleFrom_mem _ _ _ q (List.mem_filter.mp hq).1
    exact (h2 r (by simpa using hr)).sublist (hb.map _)
  · exact (settleFrom_sorted _ _ _ (by simpa using h3)).filter _

/-- Changing picked stores keeps the canonical form when the change adds no bytes. -/
theorem State.advance_canonical {s : State} (h : s.Canonical) (pick : StoreRec → Bool) (f : StoreRec → StoreRec)
    (hb : ∀ r, (f r).bytes.Sublist r.bytes) : (s.advance pick f).Canonical := by
  refine State.settle_canonical ⟨h.1, fun q hq => ?_, byRank_sorted _⟩
  obtain ⟨r, hr, rfl⟩ := mem_updateStores hq
  split
  · exact (h.2.1 r hr).sublist ((hb r).map _)
  · exact h.2.1 r hr

theorem State.rekey_canonical {s : State} (h : s.Canonical) (ki k : Nat) : (s.rekey ki k).Canonical := by
  refine ⟨State.rekey_wf h.1 ki k, ?_, ?_⟩
  all_goals
    unfold State.rekey
    split
    · split
      · first | exact h.2.1 | exact h.2.2
      · split
        · first | exact h.2.1 | exact h.2.2
        · dsimp only
          first
            | intro q hq
              obtain ⟨r, hr, rfl⟩ := List.mem_map.mp hq
              split
              · exact (h.2.1 r hr).sublist (List.filter_sublist.map _)
              · exact h.2.1 r hr
            | refine List.pairwise_map.mpr (h.2.2.imp ?_)
              intro a b hab
              have e : ∀ (x : StoreRec) (cs : List Host.Cell), (if x.applied then x.strip cs else x).rank = x.rank := by
                intro x cs; split <;> rfl
              rw [e, e]; exact hab
    · first | exact h.2.1 | exact h.2.2

theorem State.rekeyAll_canonical {s : State} (h : s.Canonical) (ki k n : Nat) : (s.rekeyAll ki k n).Canonical := by
  have go : ∀ (l : List Nat) (t : State), t.Canonical → (l.foldl (fun s i => s.rekey ki (16 * (k / 16 + 1 + i))) t).Canonical := by
    intro l
    induction l with
    | nil => intro t h; exact h
    | cons i r ih => intro t h; exact ih _ (State.rekey_canonical h _ _)
  exact go _ _ (State.rekey_canonical h _ _)

/-! ### Reading after a store -/

theorem overBytes_insert_other (sh : StoreRec → Bool) (k : Nat) (old : Byte) (r : StoreRec) {l : List StoreRec} (hl : RankSorted l)
    (hr : r.byteAt k = none ∨ sh r = false) : overBytes sh k old (insertStore r l) = overBytes sh k old l := by
  unfold insertStore
  rw [overBytes_append, overBytes_append, overBytes_none (l := [r]), ← overBytes_append, rankSorted_split hl]
  intro q hq
  rw [List.mem_singleton.mp hq]
  exact hr.symm

/-- A shown store of the last rank shows its bytes over the others. -/
theorem overBytes_insert_last (sh : StoreRec → Bool) (k : Nat) (old : Byte) (r : StoreRec) {l : List StoreRec} (hl : RankSorted l)
    (hr : ∀ q ∈ l, q.rank ≤ r.rank) (hs : sh r = true) (b : Byte) (hb : r.byteAt k = some b) :
    overBytes sh k old (insertStore r l) = r.put (overBytes sh k old l) b := by
  unfold insertStore
  have e : l.filter (fun q => decide (r.rank < q.rank)) = [] := by
    rw [List.filter_eq_nil_iff]; intro q hq; have := hr q hq; simp; omega
  have e' : l.filter (fun q => decide (q.rank ≤ r.rank)) = l := by
    have := rankSorted_split hl r.rank
    rw [e, List.append_nil] at this; exact this
  rw [e, e', List.append_nil, overBytes_append, overBytes_singleton, hs, hb]
  rfl

/-- A store that nothing shown comes after shows its bytes. -/
theorem overBytes_insert_shown (sh : StoreRec → Bool) (k : Nat) (old : Byte) (r : StoreRec) (l : List StoreRec) (hs : sh r = true)
    (hn : r.nib = none) (b : Byte) (hb : r.byteAt k = some b)
    (hl : ∀ q ∈ l, r.rank < q.rank → sh q = false ∨ q.byteAt k = none) : overBytes sh k old (insertStore r l) = b := by
  unfold insertStore
  rw [overBytes_append, overBytes_append, overBytes_none (l := l.filter _), overBytes_singleton, hs, hb]
  · simp [StoreRec.put, hn]
  · intro q hq
    have := List.mem_filter.mp hq
    exact hl q this.1 (by simpa using this.2)

@[simp] theorem StoreRec.applyNow_bytes (r : StoreRec) : r.applyNow.bytes = r.bytes := by unfold StoreRec.applyNow; split <;> rfl
@[simp] theorem StoreRec.performNow_bytes (r : StoreRec) : r.performNow.bytes = r.bytes := by
  unfold StoreRec.performNow; split
  · exact r.applyNow_bytes
  · exact r.applyNow_bytes
  · split
    · exact r.applyNow_bytes
    · rfl

theorem StoreRec.fresh_bytes (id : Nat) (ctx : Option Nat) (fn : Fin 256) (die : Fin 8) (path : Path) (cls : Cls) (y : Bool)
    (va : Word) (k : Nat) (bs : List Byte) (mode : StoreMode) (nib : Option Bool) (ins : Option Nat) :
    (StoreRec.fresh id ctx fn die path cls y va k bs mode nib ins).bytes = (List.range bs.length).zipWith (fun i b => (k + i, b)) bs := by
  unfold StoreRec.fresh
  dsimp only
  split
  · rw [StoreRec.performNow_bytes]
  · rfl

/-- The bytes of a new store by key. -/
theorem StoreRec.fresh_byteAt (id : Nat) (ctx : Option Nat) (fn : Fin 256) (die : Fin 8) (path : Path) (cls : Cls) (y : Bool)
    (va : Word) (k : Nat) (bs : List Byte) (mode : StoreMode) (nib : Option Bool) (ins : Option Nat) (j : Nat) :
    (StoreRec.fresh id ctx fn die path cls y va k bs mode nib ins).byteAt j = if k ≤ j then bs[j - k]? else none := by
  rw [StoreRec.byteAt, StoreRec.fresh_bytes]
  have gen : ∀ (bs : List Byte) (k : Nat), (((List.range bs.length).zipWith (fun i b => (k + i, b)) bs).find? (fun c => c.1 == j)).map
      (fun c => c.2) = if k ≤ j then bs[j - k]? else none := by
    intro bs
    induction bs with
    | nil => intro k; simp
    | cons b r ih =>
      intro k
      rw [List.length_cons, List.range_succ_eq_map, List.zipWith_cons_cons, List.find?_cons]
      by_cases hk : k = j
      · subst hk; simp
      · have e : (k + 0 == j) = false := by simpa using hk
        simp only [e]
        have h2 : (List.zipWith (fun i b => (k + i, b)) (List.map Nat.succ (List.range r.length)) r) =
            (List.range r.length).zipWith (fun i b => (k + 1 + i, b)) r := by
          rw [List.zipWith_map_left]
          congr 1
          funext i b
          rw [Nat.succ_eq_add_one, Nat.add_comm i 1, Nat.add_assoc]
        rw [h2, ih (k + 1)]
        by_cases hj : k ≤ j
        · rw [if_pos hj, if_pos (by omega), show j - k = (j - (k + 1)) + 1 by omega, List.getElem?_cons_succ]
        · rw [if_neg hj, if_neg (by omega)]
  exact gen bs k

theorem StoreRec.fresh_distinct (id : Nat) (ctx : Option Nat) (fn : Fin 256) (die : Fin 8) (path : Path) (cls : Cls) (y : Bool)
    (va : Word) (k : Nat) (bs : List Byte) (mode : StoreMode) (nib : Option Bool) (ins : Option Nat) :
    (StoreRec.fresh id ctx fn die path cls y va k bs mode nib ins).Distinct := by
  rw [StoreRec.Distinct, StoreRec.fresh_bytes]
  rw [List.map_zipWith]
  have : List.zipWith (fun i (_ : Byte) => k + i) (List.range bs.length) bs = (List.range bs.length).map (fun i => k + i) := by
    apply List.ext_getElem
    · simp
    · intro i h1 h2; simp
  rw [this]
  exact List.Nodup.map (fun a b h => by simpa using h) List.nodup_range

/-- Rekeying a block that lies under the keys of the index, or under none yet, leaves memory and the stores. -/
theorem State.rekey_keyed {s : State} {ki k : Nat} (h : s.keyedAs ki k) : (s.rekey ki k).mem = s.mem ∧ (s.rekey ki k).stores = s.stores := by
  unfold State.rekey
  rcases h with h | h | h
  · simp [h]
  · rw [h]; split <;> exact ⟨rfl, rfl⟩
  · rw [h]; simp only [if_true]; split <;> exact ⟨rfl, rfl⟩

theorem Assoc.find_set {β : Type} (l : List (Nat × β)) (u : Nat) (v : β) (j : Nat) :
    ((Assoc.set l u v).find? (fun p => p.1 == j)).map (fun p => p.2) =
      if j = u then some v else (l.find? (fun p => p.1 == j)).map (fun p => p.2) := by
  induction l with
  | nil =>
    simp only [Assoc.set, List.find?_cons, List.find?_nil]
    by_cases hj : j = u
    · subst hj; simp
    · have : (u == j) = false := by simpa using fun e => hj e.symm
      simp [this, hj]
  | cons p r ih =>
    obtain ⟨a, b⟩ := p
    simp only [Assoc.set]
    split
    · rename_i ha
      subst ha
      by_cases hj : j = a
      · subst hj; simp
      · have : (a == j) = false := by simpa using fun e => hj e.symm
        simp [this, hj]
    · rename_i ha
      by_cases hj : a = j
      · subst hj; simp [ha]
      · have : (a == j) = false := by simpa using hj
        simp only [List.find?_cons, this, ih]

/-- After rekeying, an encrypted block lies under the keys of the index. -/
theorem State.rekey_blockKey (s : State) (ki k : Nat) (h : isEncrypted k = true) : (s.rekey ki k).blockKey k = some (s.slotKey ki) := by
  unfold State.rekey
  rw [if_pos h]
  split
  · simp only [State.blockKey, Assoc.find_set, if_true]
  · rename_i j hj
    split
    · rename_i e; rw [hj, e]
    · simp only [State.blockKey, Assoc.find_set, if_true]

end Sys2Proof.Machine
end

