-- ==== Sys2Proof/Laws/State.lean ====
section
/-! SUPPORT. One lemma per field per update of the state and of a context. -/

namespace Sys2Proof.Machine

section Focus
variable (s : State) (f g : Context → Context)

@[simp] theorem State.modMe_me : (s.modMe f).me = f s.me := rfl
@[simp] theorem State.modMe_others : (s.modMe f).others = s.others := rfl
@[simp] theorem State.modMe_clusters : (s.modMe f).clusters = s.clusters := rfl
@[simp] theorem State.modMe_dies : (s.modMe f).dies = s.dies := rfl
@[simp] theorem State.modMe_mem : (s.modMe f).mem = s.mem := rfl
@[simp] theorem State.modMe_stores : (s.modMe f).stores = s.stores := rfl
@[simp] theorem State.modMe_poison : (s.modMe f).poison = s.poison := rfl
@[simp] theorem State.modMe_lineKeys : (s.modMe f).lineKeys = s.lineKeys := rfl
@[simp] theorem State.modMe_queues : (s.modMe f).queues = s.queues := rfl
@[simp] theorem State.modMe_launches : (s.modMe f).launches = s.launches := rfl
@[simp] theorem State.modMe_groups : (s.modMe f).groups = s.groups := rfl
@[simp] theorem State.modMe_copies : (s.modMe f).copies = s.copies := rfl
@[simp] theorem State.modMe_colls : (s.modMe f).colls = s.colls := rfl
@[simp] theorem State.modMe_fns : (s.modMe f).fns = s.fns := rfl
@[simp] theorem State.modMe_fw : (s.modMe f).fw = s.fw := rfl
@[simp] theorem State.modMe_sched : (s.modMe f).sched = s.sched := rfl
@[simp] theorem State.modMe_myCluster_of (h : (f s.me).cl = s.me.cl) : (s.modMe f).myCluster = s.myCluster := by
  simp only [State.myCluster, State.modMe, h]
@[simp] theorem State.modMe_modMe : (s.modMe f).modMe g = s.modMe (fun c => g (f c)) := rfl

end Focus

section Parts
variable (s : State)

@[simp] theorem State.modCluster_me (c : Fin 64) (f : Cluster → Cluster) : (s.modCluster c f).me = s.me := rfl
@[simp] theorem State.modCluster_mem (c : Fin 64) (f : Cluster → Cluster) : (s.modCluster c f).mem = s.mem := rfl
@[simp] theorem State.modCluster_stores (c : Fin 64) (f : Cluster → Cluster) : (s.modCluster c f).stores = s.stores := rfl
@[simp] theorem State.modCluster_same (c : Fin 64) (f : Cluster → Cluster) :
    (s.modCluster c f).clusters[c] = f s.clusters[c] := by simp [State.modCluster]
theorem State.modCluster_other (c d : Fin 64) (f : Cluster → Cluster) (h : d ≠ c) :
    (s.modCluster c f).clusters[d] = s.clusters[d] := by
  have : c.val ≠ d.val := fun e => h (Fin.ext e.symm)
  simp [State.modCluster, this]
@[simp] theorem State.modDie_me (d : Fin 8) (f : Die → Die) : (s.modDie d f).me = s.me := rfl
@[simp] theorem State.modDie_mem (d : Fin 8) (f : Die → Die) : (s.modDie d f).mem = s.mem := rfl
@[simp] theorem State.modDie_stores (d : Fin 8) (f : Die → Die) : (s.modDie d f).stores = s.stores := rfl
@[simp] theorem State.modDie_same (d : Fin 8) (f : Die → Die) : (s.modDie d f).dies[d] = f s.dies[d] := by simp [State.modDie]
theorem State.modDie_other (d e : Fin 8) (f : Die → Die) (h : e ≠ d) : (s.modDie d f).dies[e] = s.dies[e] := by
  have : d.val ≠ e.val := fun k => h (Fin.ext k.symm)
  simp [State.modDie, this]
@[simp] theorem State.mapContexts_mem (f : Context → Context) : (s.mapContexts f).mem = s.mem := rfl
@[simp] theorem State.mapContexts_me (f : Context → Context) : (s.mapContexts f).me = f s.me := rfl
@[simp] theorem State.modContext_mem (n : Nat) (f : Context → Context) : (s.modContext n f).mem = s.mem := rfl
@[simp] theorem State.modQueue_mem (q : Nat) (f : Queue → Queue) : (s.modQueue q f).mem = s.mem := rfl
@[simp] theorem State.modQueue_me (q : Nat) (f : Queue → Queue) : (s.modQueue q f).me = s.me := rfl
@[simp] theorem State.modLaunch_mem (n : Nat) (f : Launch → Launch) : (s.modLaunch n f).mem = s.mem := rfl
@[simp] theorem State.modLaunch_me (n : Nat) (f : Launch → Launch) : (s.modLaunch n f).me = s.me := rfl
@[simp] theorem State.modFn_mem (n : Fin 256) (f : FnRec → FnRec) : (s.modFn n f).mem = s.mem := rfl
@[simp] theorem State.modFn_me (n : Fin 256) (f : FnRec → FnRec) : (s.modFn n f).me = s.me := rfl
@[simp] theorem State.tick_mem : s.tick.mem = s.mem := rfl
@[simp] theorem State.tick_me : s.tick.me = s.me := rfl
@[simp] theorem State.stopQueue_mem (q : Nat) (r : BitVec 4) (n : BitVec 32) : (s.stopQueue q r n).mem = s.mem := rfl
@[simp] theorem State.stopQueue_me (q : Nat) (r : BitVec 4) (n : BitVec 32) : (s.stopQueue q r n).me = s.me := rfl

end Parts

section Streams
variable (c : Context) (r : XReg) (v : Word) (lat st len : Nat)

@[simp] theorem Context.done_pc : (c.done st len).pc = c.pc + BitVec.ofNat 64 len := rfl
@[simp] theorem Context.done_x : (c.done st len).x = c.x := rfl
@[simp] theorem Context.done_ldx : (c.done st len).ldx = c.ldx := rfl
@[simp] theorem Context.done_vec : (c.done st len).vec = c.vec := rfl
@[simp] theorem Context.done_flags : (c.done st len).flags = c.flags := rfl
@[simp] theorem Context.done_trap : (c.done st len).trap = c.trap := rfl
@[simp] theorem Context.done_sys : (c.done st len).sys = c.sys := rfl
@[simp] theorem Context.done_xpoison : (c.done st len).xpoison = c.xpoison := rfl
@[simp] theorem Context.done_scalar : (c.done st len).clock.scalar = c.clock.scalar + 1 + st := rfl
@[simp] theorem Context.done_xp : (c.done st len).clock.xp = c.clock.xp := rfl
@[simp] theorem Context.done_cl : (c.done st len).cl = c.cl := rfl
@[simp] theorem Context.done_kind : (c.done st len).kind = c.kind := rfl
@[simp] theorem Context.jump_pc (t : Word) : (c.jump t).pc = t := rfl
@[simp] theorem Context.jump_x (t : Word) : (c.jump t).x = c.x := rfl
@[simp] theorem Context.jump_ldx (t : Word) : (c.jump t).ldx = c.ldx := rfl
@[simp] theorem Context.jump_vec (t : Word) : (c.jump t).vec = c.vec := rfl

@[simp] theorem Context.wx_pc : (c.wx r v lat).pc = c.pc := by unfold Context.wx; split <;> rfl
@[simp] theorem Context.wx_ldx : (c.wx r v lat).ldx = r := by unfold Context.wx; split <;> rfl
@[simp] theorem Context.wx_vec : (c.wx r v lat).vec = c.vec := by unfold Context.wx; split <;> rfl
@[simp] theorem Context.wx_flags : (c.wx r v lat).flags = c.flags := by unfold Context.wx; split <;> rfl
@[simp] theorem Context.wx_trap : (c.wx r v lat).trap = c.trap := by unfold Context.wx; split <;> rfl
@[simp] theorem Context.wx_sys : (c.wx r v lat).sys = c.sys := by unfold Context.wx; split <;> rfl
@[simp] theorem Context.wx_scalar : (c.wx r v lat).clock.scalar = c.clock.scalar := by unfold Context.wx; split <;> rfl
@[simp] theorem Context.wx_cl : (c.wx r v lat).cl = c.cl := by unfold Context.wx; split <;> rfl
@[simp] theorem Context.wx_kind : (c.wx r v lat).kind = c.kind := by unfold Context.wx; split <;> rfl
theorem Context.wx_zero : (c.wx 0 v lat).x = c.x := rfl
theorem Context.wx_same (h : r ≠ 0) : (c.wx r v lat).x[r] = v := by simp [Context.wx, h]
theorem Context.wx_other (q : XReg) (h : q ≠ r) : (c.wx r v lat).x[q] = c.x[q] := by
  have : r.val ≠ q.val := fun e => h (Fin.ext e.symm)
  unfold Context.wx
  split
  · rfl
  · simp [this]

end Streams

/-! ### Fields that an update leaves alone -/

@[simp] theorem State.modMe_modified (s : State) (f : Context → Context) : (s.modMe f).modified = s.modified := rfl
@[simp] theorem State.modMe_seqctr (s : State) (f : Context → Context) : (s.modMe f).seqctr = s.seqctr := rfl
@[simp] theorem State.modMe_pageReqs (s : State) (f : Context → Context) : (s.modMe f).pageReqs = s.pageReqs := rfl
@[simp] theorem State.modMe_keys (s : State) (f : Context → Context) : (s.modMe f).keys = s.keys := rfl
@[simp] theorem State.modMe_notes (s : State) (f : Context → Context) : (s.modMe f).notes = s.notes := rfl
@[simp] theorem State.modMe_tools (s : State) (f : Context → Context) : (s.modMe f).tools = s.tools := rfl
@[simp] theorem State.modMe_nextId (s : State) (f : Context → Context) : (s.modMe f).nextId = s.nextId := rfl
@[simp] theorem State.modMe_freeCtr (s : State) (f : Context → Context) : (s.modMe f).freeCtr = s.freeCtr := rfl

@[simp] theorem State.modCluster_sched (s : State) (c : Fin 64) (f : Cluster → Cluster) : (s.modCluster c f).sched = s.sched := rfl
@[simp] theorem State.modCluster_others (s : State) (c : Fin 64) (f : Cluster → Cluster) : (s.modCluster c f).others = s.others := rfl
@[simp] theorem State.modCluster_dies (s : State) (c : Fin 64) (f : Cluster → Cluster) : (s.modCluster c f).dies = s.dies := rfl
@[simp] theorem State.modCluster_poison (s : State) (c : Fin 64) (f : Cluster → Cluster) : (s.modCluster c f).poison = s.poison := rfl
@[simp] theorem State.modCluster_lineKeys (s : State) (c : Fin 64) (f : Cluster → Cluster) : (s.modCluster c f).lineKeys = s.lineKeys := rfl
@[simp] theorem State.modCluster_modified (s : State) (c : Fin 64) (f : Cluster → Cluster) : (s.modCluster c f).modified = s.modified := rfl
@[simp] theorem State.modCluster_seqctr (s : State) (c : Fin 64) (f : Cluster → Cluster) : (s.modCluster c f).seqctr = s.seqctr := rfl
@[simp] theorem State.modCluster_queues (s : State) (c : Fin 64) (f : Cluster → Cluster) : (s.modCluster c f).queues = s.queues := rfl
@[simp] theorem State.modCluster_launches (s : State) (c : Fin 64) (f : Cluster → Cluster) : (s.modCluster c f).launches = s.launches := rfl
@[simp] theorem State.modCluster_groups (s : State) (c : Fin 64) (f : Cluster → Cluster) : (s.modCluster c f).groups = s.groups := rfl
@[simp] theorem State.modCluster_copies (s : State) (c : Fin 64) (f : Cluster → Cluster) : (s.modCluster c f).copies = s.copies := rfl
@[simp] theorem State.modCluster_colls (s : State) (c : Fin 64) (f : Cluster → Cluster) : (s.modCluster c f).colls = s.colls := rfl
@[simp] theorem State.modCluster_pageReqs (s : State) (c : Fin 64) (f : Cluster → Cluster) : (s.modCluster c f).pageReqs = s.pageReqs := rfl
@[simp] theorem State.modCluster_fns (s : State) (c : Fin 64) (f : Cluster → Cluster) : (s.modCluster c f).fns = s.fns := rfl
@[simp] theorem State.modCluster_keys (s : State) (c : Fin 64) (f : Cluster → Cluster) : (s.modCluster c f).keys = s.keys := rfl
@[simp] theorem State.modCluster_notes (s : State) (c : Fin 64) (f : Cluster → Cluster) : (s.modCluster c f).notes = s.notes := rfl
@[simp] theorem State.modCluster_fw (s : State) (c : Fin 64) (f : Cluster → Cluster) : (s.modCluster c f).fw = s.fw := rfl
@[simp] theorem State.modCluster_tools (s : State) (c : Fin 64) (f : Cluster → Cluster) : (s.modCluster c f).tools = s.tools := rfl
@[simp] theorem State.modCluster_nextId (s : State) (c : Fin 64) (f : Cluster → Cluster) : (s.modCluster c f).nextId = s.nextId := rfl
@[simp] theorem State.modCluster_freeCtr (s : State) (c : Fin 64) (f : Cluster → Cluster) : (s.modCluster c f).freeCtr = s.freeCtr := rfl

@[simp] theorem State.modDie_sched (s : State) (d : Fin 8) (f : Die → Die) : (s.modDie d f).sched = s.sched := rfl
@[simp] theorem State.modDie_others (s : State) (d : Fin 8) (f : Die → Die) : (s.modDie d f).others = s.others := rfl
@[simp] theorem State.modDie_clusters (s : State) (d : Fin 8) (f : Die → Die) : (s.modDie d f).clusters = s.clusters := rfl
@[simp] theorem State.modDie_poison (s : State) (d : Fin 8) (f : Die → Die) : (s.modDie d f).poison = s.poison := rfl
@[simp] theorem State.modDie_lineKeys (s : State) (d : Fin 8) (f : Die → Die) : (s.modDie d f).lineKeys = s.lineKeys := rfl
@[simp] theorem State.modDie_modified (s : State) (d : Fin 8) (f : Die → Die) : (s.modDie d f).modified = s.modified := rfl
@[simp] theorem State.modDie_seqctr (s : State) (d : Fin 8) (f : Die → Die) : (s.modDie d f).seqctr = s.seqctr := rfl
@[simp] theorem State.modDie_queues (s : State) (d : Fin 8) (f : Die → Die) : (s.modDie d f).queues = s.queues := rfl
@[simp] theorem State.modDie_launches (s : State) (d : Fin 8) (f : Die → Die) : (s.modDie d f).launches = s.launches := rfl
@[simp] theorem State.modDie_groups (s : State) (d : Fin 8) (f : Die → Die) : (s.modDie d f).groups = s.groups := rfl
@[simp] theorem State.modDie_copies (s : State) (d : Fin 8) (f : Die → Die) : (s.modDie d f).copies = s.copies := rfl
@[simp] theorem State.modDie_colls (s : State) (d : Fin 8) (f : Die → Die) : (s.modDie d f).colls = s.colls := rfl
@[simp] theorem State.modDie_pageReqs (s : State) (d : Fin 8) (f : Die → Die) : (s.modDie d f).pageReqs = s.pageReqs := rfl
@[simp] theorem State.modDie_fns (s : State) (d : Fin 8) (f : Die → Die) : (s.modDie d f).fns = s.fns := rfl
@[simp] theorem State.modDie_keys (s : State) (d : Fin 8) (f : Die → Die) : (s.modDie d f).keys = s.keys := rfl
@[simp] theorem State.modDie_notes (s : State) (d : Fin 8) (f : Die → Die) : (s.modDie d f).notes = s.notes := rfl
@[simp] theorem State.modDie_fw (s : State) (d : Fin 8) (f : Die → Die) : (s.modDie d f).fw = s.fw := rfl
@[simp] theorem State.modDie_tools (s : State) (d : Fin 8) (f : Die → Die) : (s.modDie d f).tools = s.tools := rfl
@[simp] theorem State.modDie_nextId (s : State) (d : Fin 8) (f : Die → Die) : (s.modDie d f).nextId = s.nextId := rfl
@[simp] theorem State.modDie_freeCtr (s : State) (d : Fin 8) (f : Die → Die) : (s.modDie d f).freeCtr = s.freeCtr := rfl

@[simp] theorem State.mapContexts_sched (s : State) (f : Context → Context) : (s.mapContexts f).sched = s.sched := rfl
@[simp] theorem State.mapContexts_clusters (s : State) (f : Context → Context) : (s.mapContexts f).clusters = s.clusters := rfl
@[simp] theorem State.mapContexts_dies (s : State) (f : Context → Context) : (s.mapContexts f).dies = s.dies := rfl
@[simp] theorem State.mapContexts_stores (s : State) (f : Context → Context) : (s.mapContexts f).stores = s.stores := rfl
@[simp] theorem State.mapContexts_poison (s : State) (f : Context → Context) : (s.mapContexts f).poison = s.poison := rfl
@[simp] theorem State.mapContexts_lineKeys (s : State) (f : Context → Context) : (s.mapContexts f).lineKeys = s.lineKeys := rfl
@[simp] theorem State.mapContexts_modified (s : State) (f : Context → Context) : (s.mapContexts f).modified = s.modified := rfl
@[simp] theorem State.mapContexts_seqctr (s : State) (f : Context → Context) : (s.mapContexts f).seqctr = s.seqctr := rfl
@[simp] theorem State.mapContexts_queues (s : State) (f : Context → Context) : (s.mapContexts f).queues = s.queues := rfl
@[simp] theorem State.mapContexts_launches (s : State) (f : Context → Context) : (s.mapContexts f).launches = s.launches := rfl
@[simp] theorem State.mapContexts_groups (s : State) (f : Context → Context) : (s.mapContexts f).groups = s.groups := rfl
@[simp] theorem State.mapContexts_copies (s : State) (f : Context → Context) : (s.mapContexts f).copies = s.copies := rfl
@[simp] theorem State.mapContexts_colls (s : State) (f : Context → Context) : (s.mapContexts f).colls = s.colls := rfl
@[simp] theorem State.mapContexts_pageReqs (s : State) (f : Context → Context) : (s.mapContexts f).pageReqs = s.pageReqs := rfl
@[simp] theorem State.mapContexts_fns (s : State) (f : Context → Context) : (s.mapContexts f).fns = s.fns := rfl
@[simp] theorem State.mapContexts_keys (s : State) (f : Context → Context) : (s.mapContexts f).keys = s.keys := rfl
@[simp] theorem State.mapContexts_notes (s : State) (f : Context → Context) : (s.mapContexts f).notes = s.notes := rfl
@[simp] theorem State.mapContexts_fw (s : State) (f : Context → Context) : (s.mapContexts f).fw = s.fw := rfl
@[simp] theorem State.mapContexts_tools (s : State) (f : Context → Context) : (s.mapContexts f).tools = s.tools := rfl
@[simp] theorem State.mapContexts_nextId (s : State) (f : Context → Context) : (s.mapContexts f).nextId = s.nextId := rfl
@[simp] theorem State.mapContexts_freeCtr (s : State) (f : Context → Context) : (s.mapContexts f).freeCtr = s.freeCtr := rfl

@[simp] theorem State.modContext_sched (s : State) (n : Nat) (f : Context → Context) : (s.modContext n f).sched = s.sched := rfl
@[simp] theorem State.modContext_clusters (s : State) (n : Nat) (f : Context → Context) : (s.modContext n f).clusters = s.clusters := rfl
@[simp] theorem State.modContext_dies (s : State) (n : Nat) (f : Context → Context) : (s.modContext n f).dies = s.dies := rfl
@[simp] theorem State.modContext_stores (s : State) (n : Nat) (f : Context → Context) : (s.modContext n f).stores = s.stores := rfl
@[simp] theorem State.modContext_poison (s : State) (n : Nat) (f : Context → Context) : (s.modContext n f).poison = s.poison := rfl
@[simp] theorem State.modContext_lineKeys (s : State) (n : Nat) (f : Context → Context) : (s.modContext n f).lineKeys = s.lineKeys := rfl
@[simp] theorem State.modContext_modified (s : State) (n : Nat) (f : Context → Context) : (s.modContext n f).modified = s.modified := rfl
@[simp] theorem State.modContext_seqctr (s : State) (n : Nat) (f : Context → Context) : (s.modContext n f).seqctr = s.seqctr := rfl
@[simp] theorem State.modContext_queues (s : State) (n : Nat) (f : Context → Context) : (s.modContext n f).queues = s.queues := rfl
@[simp] theorem State.modContext_launches (s : State) (n : Nat) (f : Context → Context) : (s.modContext n f).launches = s.launches := rfl
@[simp] theorem State.modContext_groups (s : State) (n : Nat) (f : Context → Context) : (s.modContext n f).groups = s.groups := rfl
@[simp] theorem State.modContext_copies (s : State) (n : Nat) (f : Context → Context) : (s.modContext n f).copies = s.copies := rfl
@[simp] theorem State.modContext_colls (s : State) (n : Nat) (f : Context → Context) : (s.modContext n f).colls = s.colls := rfl
@[simp] theorem State.modContext_pageReqs (s : State) (n : Nat) (f : Context → Context) : (s.modContext n f).pageReqs = s.pageReqs := rfl
@[simp] theorem State.modContext_fns (s : State) (n : Nat) (f : Context → Context) : (s.modContext n f).fns = s.fns := rfl
@[simp] theorem State.modContext_keys (s : State) (n : Nat) (f : Context → Context) : (s.modContext n f).keys = s.keys := rfl
@[simp] theorem State.modContext_notes (s : State) (n : Nat) (f : Context → Context) : (s.modContext n f).notes = s.notes := rfl
@[simp] theorem State.modContext_fw (s : State) (n : Nat) (f : Context → Context) : (s.modContext n f).fw = s.fw := rfl
@[simp] theorem State.modContext_tools (s : State) (n : Nat) (f : Context → Context) : (s.modContext n f).tools = s.tools := rfl
@[simp] theorem State.modContext_nextId (s : State) (n : Nat) (f : Context → Context) : (s.modContext n f).nextId = s.nextId := rfl
@[simp] theorem State.modContext_freeCtr (s : State) (n : Nat) (f : Context → Context) : (s.modContext n f).freeCtr = s.freeCtr := rfl

@[simp] theorem State.modQueue_sched (s : State) (q : Nat) (f : Queue → Queue) : (s.modQueue q f).sched = s.sched := rfl
@[simp] theorem State.modQueue_others (s : State) (q : Nat) (f : Queue → Queue) : (s.modQueue q f).others = s.others := rfl
@[simp] theorem State.modQueue_clusters (s : State) (q : Nat) (f : Queue → Queue) : (s.modQueue q f).clusters = s.clusters := rfl
@[simp] theorem State.modQueue_dies (s : State) (q : Nat) (f : Queue → Queue) : (s.modQueue q f).dies = s.dies := rfl
@[simp] theorem State.modQueue_stores (s : State) (q : Nat) (f : Queue → Queue) : (s.modQueue q f).stores = s.stores := rfl
@[simp] theorem State.modQueue_poison (s : State) (q : Nat) (f : Queue → Queue) : (s.modQueue q f).poison = s.poison := rfl
@[simp] theorem State.modQueue_lineKeys (s : State) (q : Nat) (f : Queue → Queue) : (s.modQueue q f).lineKeys = s.lineKeys := rfl
@[simp] theorem State.modQueue_modified (s : State) (q : Nat) (f : Queue → Queue) : (s.modQueue q f).modified = s.modified := rfl
@[simp] theorem State.modQueue_seqctr (s : State) (q : Nat) (f : Queue → Queue) : (s.modQueue q f).seqctr = s.seqctr := rfl
@[simp] theorem State.modQueue_launches (s : State) (q : Nat) (f : Queue → Queue) : (s.modQueue q f).launches = s.launches := rfl
@[simp] theorem State.modQueue_groups (s : State) (q : Nat) (f : Queue → Queue) : (s.modQueue q f).groups = s.groups := rfl
@[simp] theorem State.modQueue_copies (s : State) (q : Nat) (f : Queue → Queue) : (s.modQueue q f).copies = s.copies := rfl
@[simp] theorem State.modQueue_colls (s : State) (q : Nat) (f : Queue → Queue) : (s.modQueue q f).colls = s.colls := rfl
@[simp] theorem State.modQueue_pageReqs (s : State) (q : Nat) (f : Queue → Queue) : (s.modQueue q f).pageReqs = s.pageReqs := rfl
@[simp] theorem State.modQueue_fns (s : State) (q : Nat) (f : Queue → Queue) : (s.modQueue q f).fns = s.fns := rfl
@[simp] theorem State.modQueue_keys (s : State) (q : Nat) (f : Queue → Queue) : (s.modQueue q f).keys = s.keys := rfl
@[simp] theorem State.modQueue_notes (s : State) (q : Nat) (f : Queue → Queue) : (s.modQueue q f).notes = s.notes := rfl
@[simp] theorem State.modQueue_fw (s : State) (q : Nat) (f : Queue → Queue) : (s.modQueue q f).fw = s.fw := rfl
@[simp] theorem State.modQueue_tools (s : State) (q : Nat) (f : Queue → Queue) : (s.modQueue q f).tools = s.tools := rfl
@[simp] theorem State.modQueue_nextId (s : State) (q : Nat) (f : Queue → Queue) : (s.modQueue q f).nextId = s.nextId := rfl
@[simp] theorem State.modQueue_freeCtr (s : State) (q : Nat) (f : Queue → Queue) : (s.modQueue q f).freeCtr = s.freeCtr := rfl

@[simp] theorem State.modLaunch_sched (s : State) (n : Nat) (f : Launch → Launch) : (s.modLaunch n f).sched = s.sched := rfl
@[simp] theorem State.modLaunch_others (s : State) (n : Nat) (f : Launch → Launch) : (s.modLaunch n f).others = s.others := rfl
@[simp] theorem State.modLaunch_clusters (s : State) (n : Nat) (f : Launch → Launch) : (s.modLaunch n f).clusters = s.clusters := rfl
@[simp] theorem State.modLaunch_dies (s : State) (n : Nat) (f : Launch → Launch) : (s.modLaunch n f).dies = s.dies := rfl
@[simp] theorem State.modLaunch_stores (s : State) (n : Nat) (f : Launch → Launch) : (s.modLaunch n f).stores = s.stores := rfl
@[simp] theorem State.modLaunch_poison (s : State) (n : Nat) (f : Launch → Launch) : (s.modLaunch n f).poison = s.poison := rfl
@[simp] theorem State.modLaunch_lineKeys (s : State) (n : Nat) (f : Launch → Launch) : (s.modLaunch n f).lineKeys = s.lineKeys := rfl
@[simp] theorem State.modLaunch_modified (s : State) (n : Nat) (f : Launch → Launch) : (s.modLaunch n f).modified = s.modified := rfl
@[simp] theorem State.modLaunch_seqctr (s : State) (n : Nat) (f : Launch → Launch) : (s.modLaunch n f).seqctr = s.seqctr := rfl
@[simp] theorem State.modLaunch_queues (s : State) (n : Nat) (f : Launch → Launch) : (s.modLaunch n f).queues = s.queues := rfl
@[simp] theorem State.modLaunch_groups (s : State) (n : Nat) (f : Launch → Launch) : (s.modLaunch n f).groups = s.groups := rfl
@[simp] theorem State.modLaunch_copies (s : State) (n : Nat) (f : Launch → Launch) : (s.modLaunch n f).copies = s.copies := rfl
@[simp] theorem State.modLaunch_colls (s : State) (n : Nat) (f : Launch → Launch) : (s.modLaunch n f).colls = s.colls := rfl
@[simp] theorem State.modLaunch_pageReqs (s : State) (n : Nat) (f : Launch → Launch) : (s.modLaunch n f).pageReqs = s.pageReqs := rfl
@[simp] theorem State.modLaunch_fns (s : State) (n : Nat) (f : Launch → Launch) : (s.modLaunch n f).fns = s.fns := rfl
@[simp] theorem State.modLaunch_keys (s : State) (n : Nat) (f : Launch → Launch) : (s.modLaunch n f).keys = s.keys := rfl
@[simp] theorem State.modLaunch_notes (s : State) (n : Nat) (f : Launch → Launch) : (s.modLaunch n f).notes = s.notes := rfl
@[simp] theorem State.modLaunch_fw (s : State) (n : Nat) (f : Launch → Launch) : (s.modLaunch n f).fw = s.fw := rfl
@[simp] theorem State.modLaunch_tools (s : State) (n : Nat) (f : Launch → Launch) : (s.modLaunch n f).tools = s.tools := rfl
@[simp] theorem State.modLaunch_nextId (s : State) (n : Nat) (f : Launch → Launch) : (s.modLaunch n f).nextId = s.nextId := rfl
@[simp] theorem State.modLaunch_freeCtr (s : State) (n : Nat) (f : Launch → Launch) : (s.modLaunch n f).freeCtr = s.freeCtr := rfl

@[simp] theorem State.modFn_sched (s : State) (n : Fin 256) (f : FnRec → FnRec) : (s.modFn n f).sched = s.sched := rfl
@[simp] theorem State.modFn_others (s : State) (n : Fin 256) (f : FnRec → FnRec) : (s.modFn n f).others = s.others := rfl
@[simp] theorem State.modFn_clusters (s : State) (n : Fin 256) (f : FnRec → FnRec) : (s.modFn n f).clusters = s.clusters := rfl
@[simp] theorem State.modFn_dies (s : State) (n : Fin 256) (f : FnRec → FnRec) : (s.modFn n f).dies = s.dies := rfl
@[simp] theorem State.modFn_stores (s : State) (n : Fin 256) (f : FnRec → FnRec) : (s.modFn n f).stores = s.stores := rfl
@[simp] theorem State.modFn_poison (s : State) (n : Fin 256) (f : FnRec → FnRec) : (s.modFn n f).poison = s.poison := rfl
@[simp] theorem State.modFn_lineKeys (s : State) (n : Fin 256) (f : FnRec → FnRec) : (s.modFn n f).lineKeys = s.lineKeys := rfl
@[simp] theorem State.modFn_modified (s : State) (n : Fin 256) (f : FnRec → FnRec) : (s.modFn n f).modified = s.modified := rfl
@[simp] theorem State.modFn_seqctr (s : State) (n : Fin 256) (f : FnRec → FnRec) : (s.modFn n f).seqctr = s.seqctr := rfl
@[simp] theorem State.modFn_queues (s : State) (n : Fin 256) (f : FnRec → FnRec) : (s.modFn n f).queues = s.queues := rfl
@[simp] theorem State.modFn_launches (s : State) (n : Fin 256) (f : FnRec → FnRec) : (s.modFn n f).launches = s.launches := rfl
@[simp] theorem State.modFn_groups (s : State) (n : Fin 256) (f : FnRec → FnRec) : (s.modFn n f).groups = s.groups := rfl
@[simp] theorem State.modFn_copies (s : State) (n : Fin 256) (f : FnRec → FnRec) : (s.modFn n f).copies = s.copies := rfl
@[simp] theorem State.modFn_colls (s : State) (n : Fin 256) (f : FnRec → FnRec) : (s.modFn n f).colls = s.colls := rfl
@[simp] theorem State.modFn_pageReqs (s : State) (n : Fin 256) (f : FnRec → FnRec) : (s.modFn n f).pageReqs = s.pageReqs := rfl
@[simp] theorem State.modFn_keys (s : State) (n : Fin 256) (f : FnRec → FnRec) : (s.modFn n f).keys = s.keys := rfl
@[simp] theorem State.modFn_notes (s : State) (n : Fin 256) (f : FnRec → FnRec) : (s.modFn n f).notes = s.notes := rfl
@[simp] theorem State.modFn_fw (s : State) (n : Fin 256) (f : FnRec → FnRec) : (s.modFn n f).fw = s.fw := rfl
@[simp] theorem State.modFn_tools (s : State) (n : Fin 256) (f : FnRec → FnRec) : (s.modFn n f).tools = s.tools := rfl
@[simp] theorem State.modFn_nextId (s : State) (n : Fin 256) (f : FnRec → FnRec) : (s.modFn n f).nextId = s.nextId := rfl
@[simp] theorem State.modFn_freeCtr (s : State) (n : Fin 256) (f : FnRec → FnRec) : (s.modFn n f).freeCtr = s.freeCtr := rfl

@[simp] theorem State.tick_sched (s : State) : s.tick.sched = s.sched := rfl
@[simp] theorem State.tick_others (s : State) : s.tick.others = s.others := rfl
@[simp] theorem State.tick_clusters (s : State) : s.tick.clusters = s.clusters := rfl
@[simp] theorem State.tick_dies (s : State) : s.tick.dies = s.dies := rfl
@[simp] theorem State.tick_stores (s : State) : s.tick.stores = s.stores := rfl
@[simp] theorem State.tick_poison (s : State) : s.tick.poison = s.poison := rfl
@[simp] theorem State.tick_lineKeys (s : State) : s.tick.lineKeys = s.lineKeys := rfl
@[simp] theorem State.tick_modified (s : State) : s.tick.modified = s.modified := rfl
@[simp] theorem State.tick_seqctr (s : State) : s.tick.seqctr = s.seqctr := rfl
@[simp] theorem State.tick_queues (s : State) : s.tick.queues = s.queues := rfl
@[simp] theorem State.tick_launches (s : State) : s.tick.launches = s.launches := rfl
@[simp] theorem State.tick_groups (s : State) : s.tick.groups = s.groups := rfl
@[simp] theorem State.tick_copies (s : State) : s.tick.copies = s.copies := rfl
@[simp] theorem State.tick_colls (s : State) : s.tick.colls = s.colls := rfl
@[simp] theorem State.tick_pageReqs (s : State) : s.tick.pageReqs = s.pageReqs := rfl
@[simp] theorem State.tick_fns (s : State) : s.tick.fns = s.fns := rfl
@[simp] theorem State.tick_keys (s : State) : s.tick.keys = s.keys := rfl
@[simp] theorem State.tick_notes (s : State) : s.tick.notes = s.notes := rfl
@[simp] theorem State.tick_fw (s : State) : s.tick.fw = s.fw := rfl
@[simp] theorem State.tick_tools (s : State) : s.tick.tools = s.tools := rfl
@[simp] theorem State.tick_nextId (s : State) : s.tick.nextId = s.nextId := rfl

@[simp] theorem State.stopQueue_sched (s : State) (q : Nat) (r : BitVec 4) (n : BitVec 32) : (s.stopQueue q r n).sched = s.sched := rfl
@[simp] theorem State.stopQueue_others (s : State) (q : Nat) (r : BitVec 4) (n : BitVec 32) : (s.stopQueue q r n).others = s.others := rfl
@[simp] theorem State.stopQueue_clusters (s : State) (q : Nat) (r : BitVec 4) (n : BitVec 32) : (s.stopQueue q r n).clusters = s.clusters := rfl
@[simp] theorem State.stopQueue_dies (s : State) (q : Nat) (r : BitVec 4) (n : BitVec 32) : (s.stopQueue q r n).dies = s.dies := rfl
@[simp] theorem State.stopQueue_stores (s : State) (q : Nat) (r : BitVec 4) (n : BitVec 32) : (s.stopQueue q r n).stores = s.stores := rfl
@[simp] theorem State.stopQueue_poison (s : State) (q : Nat) (r : BitVec 4) (n : BitVec 32) : (s.stopQueue q r n).poison = s.poison := rfl
@[simp] theorem State.stopQueue_lineKeys (s : State) (q : Nat) (r : BitVec 4) (n : BitVec 32) : (s.stopQueue q r n).lineKeys = s.lineKeys := rfl
@[simp] theorem State.stopQueue_modified (s : State) (q : Nat) (r : BitVec 4) (n : BitVec 32) : (s.stopQueue q r n).modified = s.modified := rfl
@[simp] theorem State.stopQueue_seqctr (s : State) (q : Nat) (r : BitVec 4) (n : BitVec 32) : (s.stopQueue q r n).seqctr = s.seqctr := rfl
@[simp] theorem State.stopQueue_launches (s : State) (q : Nat) (r : BitVec 4) (n : BitVec 32) : (s.stopQueue q r n).launches = s.launches := rfl
@[simp] theorem State.stopQueue_groups (s : State) (q : Nat) (r : BitVec 4) (n : BitVec 32) : (s.stopQueue q r n).groups = s.groups := rfl
@[simp] theorem State.stopQueue_copies (s : State) (q : Nat) (r : BitVec 4) (n : BitVec 32) : (s.stopQueue q r n).copies = s.copies := rfl
@[simp] theorem State.stopQueue_colls (s : State) (q : Nat) (r : BitVec 4) (n : BitVec 32) : (s.stopQueue q r n).colls = s.colls := rfl
@[simp] theorem State.stopQueue_pageReqs (s : State) (q : Nat) (r : BitVec 4) (n : BitVec 32) : (s.stopQueue q r n).pageReqs = s.pageReqs := rfl
@[simp] theorem State.stopQueue_fns (s : State) (q : Nat) (r : BitVec 4) (n : BitVec 32) : (s.stopQueue q r n).fns = s.fns := rfl
@[simp] theorem State.stopQueue_keys (s : State) (q : Nat) (r : BitVec 4) (n : BitVec 32) : (s.stopQueue q r n).keys = s.keys := rfl
@[simp] theorem State.stopQueue_notes (s : State) (q : Nat) (r : BitVec 4) (n : BitVec 32) : (s.stopQueue q r n).notes = s.notes := rfl
@[simp] theorem State.stopQueue_fw (s : State) (q : Nat) (r : BitVec 4) (n : BitVec 32) : (s.stopQueue q r n).fw = s.fw := rfl
@[simp] theorem State.stopQueue_tools (s : State) (q : Nat) (r : BitVec 4) (n : BitVec 32) : (s.stopQueue q r n).tools = s.tools := rfl
@[simp] theorem State.stopQueue_nextId (s : State) (q : Nat) (r : BitVec 4) (n : BitVec 32) : (s.stopQueue q r n).nextId = s.nextId := rfl
@[simp] theorem State.stopQueue_freeCtr (s : State) (q : Nat) (r : BitVec 4) (n : BitVec 32) : (s.stopQueue q r n).freeCtr = s.freeCtr := rfl

@[simp] theorem Context.done_uid (c : Context) (st len : Nat) : (c.done st len).uid = c.uid := rfl
@[simp] theorem Context.done_launch (c : Context) (st len : Nat) : (c.done st len).launch = c.launch := rfl
@[simp] theorem Context.done_fn (c : Context) (st len : Nat) : (c.done st len).fn = c.fn := rfl
@[simp] theorem Context.done_sp (c : Context) (st len : Nat) : (c.done st len).sp = c.sp := rfl
@[simp] theorem Context.done_ordinal (c : Context) (st len : Nat) : (c.done st len).ordinal = c.ordinal := rfl
@[simp] theorem Context.done_slot (c : Context) (st len : Nat) : (c.done st len).slot = c.slot := rfl
@[simp] theorem Context.done_status (c : Context) (st len : Nat) : (c.done st len).status = c.status := rfl
@[simp] theorem Context.done_tags (c : Context) (st len : Nat) : (c.done st len).tags = c.tags := rfl
@[simp] theorem Context.done_groups (c : Context) (st len : Nat) : (c.done st len).groups = c.groups := rfl
@[simp] theorem Context.done_lreq (c : Context) (st len : Nat) : (c.done st len).lreq = c.lreq := rfl
@[simp] theorem Context.done_credits (c : Context) (st len : Nat) : (c.done st len).credits = c.credits := rfl
@[simp] theorem Context.done_vq (c : Context) (st len : Nat) : (c.done st len).vq = c.vq := rfl
@[simp] theorem Context.done_members (c : Context) (st len : Nat) : (c.done st len).members = c.members := rfl
@[simp] theorem Context.done_fetched (c : Context) (st len : Nat) : (c.done st len).fetched = c.fetched := rfl
@[simp] theorem Context.done_seen (c : Context) (st len : Nat) : (c.done st len).seen = c.seen := rfl
@[simp] theorem Context.done_ahead (c : Context) (st len : Nat) : (c.done st len).ahead = c.ahead := rfl
@[simp] theorem Context.done_quota (c : Context) (st len : Nat) : (c.done st len).quota = c.quota := rfl
@[simp] theorem Context.done_probed (c : Context) (st len : Nat) : (c.done st len).probed = c.probed := rfl
@[simp] theorem Context.done_vpoison (c : Context) (st len : Nat) : (c.done st len).vpoison = c.vpoison := rfl
@[simp] theorem Context.done_shpoison (c : Context) (st len : Nat) : (c.done st len).shpoison = c.shpoison := rfl
@[simp] theorem Context.done_mpoison (c : Context) (st len : Nat) : (c.done st len).mpoison = c.mpoison := rfl
@[simp] theorem Context.done_saved (c : Context) (st len : Nat) : (c.done st len).saved = c.saved := rfl
@[simp] theorem Context.jump_uid (c : Context) (t : Word) : (c.jump t).uid = c.uid := rfl
@[simp] theorem Context.jump_kind (c : Context) (t : Word) : (c.jump t).kind = c.kind := rfl
@[simp] theorem Context.jump_launch (c : Context) (t : Word) : (c.jump t).launch = c.launch := rfl
@[simp] theorem Context.jump_fn (c : Context) (t : Word) : (c.jump t).fn = c.fn := rfl
@[simp] theorem Context.jump_sp (c : Context) (t : Word) : (c.jump t).sp = c.sp := rfl
@[simp] theorem Context.jump_ordinal (c : Context) (t : Word) : (c.jump t).ordinal = c.ordinal := rfl
@[simp] theorem Context.jump_cl (c : Context) (t : Word) : (c.jump t).cl = c.cl := rfl
@[simp] theorem Context.jump_slot (c : Context) (t : Word) : (c.jump t).slot = c.slot := rfl
@[simp] theorem Context.jump_status (c : Context) (t : Word) : (c.jump t).status = c.status := rfl
@[simp] theorem Context.jump_flags (c : Context) (t : Word) : (c.jump t).flags = c.flags := rfl
@[simp] theorem Context.jump_trap (c : Context) (t : Word) : (c.jump t).trap = c.trap := rfl
@[simp] theorem Context.jump_sys (c : Context) (t : Word) : (c.jump t).sys = c.sys := rfl
@[simp] theorem Context.jump_tags (c : Context) (t : Word) : (c.jump t).tags = c.tags := rfl
@[simp] theorem Context.jump_groups (c : Context) (t : Word) : (c.jump t).groups = c.groups := rfl
@[simp] theorem Context.jump_lreq (c : Context) (t : Word) : (c.jump t).lreq = c.lreq := rfl
@[simp] theorem Context.jump_credits (c : Context) (t : Word) : (c.jump t).credits = c.credits := rfl
@[simp] theorem Context.jump_vq (c : Context) (t : Word) : (c.jump t).vq = c.vq := rfl
@[simp] theorem Context.jump_members (c : Context) (t : Word) : (c.jump t).members = c.members := rfl
@[simp] theorem Context.jump_fetched (c : Context) (t : Word) : (c.jump t).fetched = c.fetched := rfl
@[simp] theorem Context.jump_seen (c : Context) (t : Word) : (c.jump t).seen = c.seen := rfl
@[simp] theorem Context.jump_ahead (c : Context) (t : Word) : (c.jump t).ahead = c.ahead := rfl
@[simp] theorem Context.jump_quota (c : Context) (t : Word) : (c.jump t).quota = c.quota := rfl
@[simp] theorem Context.jump_probed (c : Context) (t : Word) : (c.jump t).probed = c.probed := rfl
@[simp] theorem Context.jump_xpoison (c : Context) (t : Word) : (c.jump t).xpoison = c.xpoison := rfl
@[simp] theorem Context.jump_vpoison (c : Context) (t : Word) : (c.jump t).vpoison = c.vpoison := rfl
@[simp] theorem Context.jump_shpoison (c : Context) (t : Word) : (c.jump t).shpoison = c.shpoison := rfl
@[simp] theorem Context.jump_mpoison (c : Context) (t : Word) : (c.jump t).mpoison = c.mpoison := rfl
@[simp] theorem Context.jump_saved (c : Context) (t : Word) : (c.jump t).saved = c.saved := rfl
@[simp] theorem Context.wx_uid (c : Context) (r : XReg) (v : Word) (lat : Nat) : (c.wx r v lat).uid = c.uid := by
  unfold Context.wx; split <;> rfl
@[simp] theorem Context.wx_launch (c : Context) (r : XReg) (v : Word) (lat : Nat) : (c.wx r v lat).launch = c.launch := by
  unfold Context.wx; split <;> rfl
@[simp] theorem Context.wx_fn (c : Context) (r : XReg) (v : Word) (lat : Nat) : (c.wx r v lat).fn = c.fn := by
  unfold Context.wx; split <;> rfl
@[simp] theorem Context.wx_sp (c : Context) (r : XReg) (v : Word) (lat : Nat) : (c.wx r v lat).sp = c.sp := by
  unfold Context.wx; split <;> rfl
@[simp] theorem Context.wx_ordinal (c : Context) (r : XReg) (v : Word) (lat : Nat) : (c.wx r v lat).ordinal = c.ordinal := by
  unfold Context.wx; split <;> rfl
@[simp] theorem Context.wx_slot (c : Context) (r : XReg) (v : Word) (lat : Nat) : (c.wx r v lat).slot = c.slot := by
  unfold Context.wx; split <;> rfl
@[simp] theorem Context.wx_status (c : Context) (r : XReg) (v : Word) (lat : Nat) : (c.wx r v lat).status = c.status := by
  unfold Context.wx; split <;> rfl
@[simp] theorem Context.wx_tags (c : Context) (r : XReg) (v : Word) (lat : Nat) : (c.wx r v lat).tags = c.tags := by
  unfold Context.wx; split <;> rfl
@[simp] theorem Context.wx_groups (c : Context) (r : XReg) (v : Word) (lat : Nat) : (c.wx r v lat).groups = c.groups := by
  unfold Context.wx; split <;> rfl
@[simp] theorem Context.wx_lreq (c : Context) (r : XReg) (v : Word) (lat : Nat) : (c.wx r v lat).lreq = c.lreq := by
  unfold Context.wx; split <;> rfl
@[simp] theorem Context.wx_credits (c : Context) (r : XReg) (v : Word) (lat : Nat) : (c.wx r v lat).credits = c.credits := by
  unfold Context.wx; split <;> rfl
@[simp] theorem Context.wx_vq (c : Context) (r : XReg) (v : Word) (lat : Nat) : (c.wx r v lat).vq = c.vq := by
  unfold Context.wx; split <;> rfl
@[simp] theorem Context.wx_members (c : Context) (r : XReg) (v : Word) (lat : Nat) : (c.wx r v lat).members = c.members := by
  unfold Context.wx; split <;> rfl
@[simp] theorem Context.wx_fetched (c : Context) (r : XReg) (v : Word) (lat : Nat) : (c.wx r v lat).fetched = c.fetched := by
  unfold Context.wx; split <;> rfl
@[simp] theorem Context.wx_seen (c : Context) (r : XReg) (v : Word) (lat : Nat) : (c.wx r v lat).seen = c.seen := by
  unfold Context.wx; split <;> rfl
@[simp] theorem Context.wx_ahead (c : Context) (r : XReg) (v : Word) (lat : Nat) : (c.wx r v lat).ahead = c.ahead := by
  unfold Context.wx; split <;> rfl
@[simp] theorem Context.wx_quota (c : Context) (r : XReg) (v : Word) (lat : Nat) : (c.wx r v lat).quota = c.quota := by
  unfold Context.wx; split <;> rfl
@[simp] theorem Context.wx_probed (c : Context) (r : XReg) (v : Word) (lat : Nat) : (c.wx r v lat).probed = c.probed := by
  unfold Context.wx; split <;> rfl
@[simp] theorem Context.wx_vpoison (c : Context) (r : XReg) (v : Word) (lat : Nat) : (c.wx r v lat).vpoison = c.vpoison := by
  unfold Context.wx; split <;> rfl
@[simp] theorem Context.wx_shpoison (c : Context) (r : XReg) (v : Word) (lat : Nat) : (c.wx r v lat).shpoison = c.shpoison := by
  unfold Context.wx; split <;> rfl
@[simp] theorem Context.wx_mpoison (c : Context) (r : XReg) (v : Word) (lat : Nat) : (c.wx r v lat).mpoison = c.mpoison := by
  unfold Context.wx; split <;> rfl
@[simp] theorem Context.wx_saved (c : Context) (r : XReg) (v : Word) (lat : Nat) : (c.wx r v lat).saved = c.saved := by
  unfold Context.wx; split <;> rfl

end Sys2Proof.Machine
end

