-- ==== Sys2Proof/Laws/Ops.lean ====
section
/-! SUPPORT. What the shared operations over scalar registers, checks and traps can do. -/

namespace Sys2Proof.Machine

/-! ### Checks -/

/-- With ready sources the instruction goes on. -/
theorem readsX_ready {s : State} {rs : List XReg} (h : s.ReadyX rs) (k : Out) : readsX rs s k = k := by
  unfold readsX
  rw [h.1, h.2]
  rfl

/-- No source stops an instruction that reads none. -/
theorem readyX_nil (s : State) : s.ReadyX [] := by constructor <;> simp [State.stalledX]

/-- A source that is ready alone is ready in every list of which it makes up the rest. -/
theorem readyX_cons {s : State} {r : XReg} {rs : List XReg} (h : s.ReadyX [r]) (h' : s.ReadyX rs) : s.ReadyX (r :: rs) := by
  obtain ⟨h1, h2⟩ := h
  obtain ⟨h3, h4⟩ := h'
  constructor
  · simp only [State.stalledX] at *
    split at h1 <;> simp_all
  · simp only [List.any_cons, List.any_nil, Bool.or_false] at *
    rw [h2, h4]
    rfl

/-- A thread runs a thread's instruction. -/
theorem threadOnly_thread {s : State} (h : s.me.kind = .thread) (k : Out) : threadOnly s k = k := by simp [threadOnly, h]

/-- The Bureau runs a Bureau's instruction. -/
theorem bureauOnly_bureau {s : State} (h : s.me.kind = .bureau) (k : Out) : bureauOnly s k = k := by simp [bureauOnly, h]

/-- What `readsX` can answer: a STALL trap, a POISON trap, or what follows. -/
theorem readsX_cases (rs : List XReg) (s : State) (k : Out) :
    (∃ r, s.stalledX rs = some r ∧ readsX rs s k = trap .stall (BitVec.ofNat 64 r.val) s) ∨
    (readsX rs s k = poisonReg s) ∨ (s.ReadyX rs ∧ readsX rs s k = k) := by
  unfold readsX
  cases h : s.stalledX rs with
  | some r => exact .inl ⟨r, rfl, rfl⟩
  | none =>
    by_cases hp : rs.any (fun r => s.me.xpoison.getLsbD r.val) = true
    · exact .inr (.inl (if_pos hp))
    · exact .inr (.inr ⟨⟨h, Bool.eq_false_iff.mpr hp⟩, if_neg hp⟩)

/-- A scalar instruction with ready sources writes its result. -/
theorem alu_ready {s : State} {rs : List XReg} (h : s.ReadyX rs) (d : XReg) (v : Word) (lat st len : Nat) :
    alu rs d v lat st len s = .next (s.scalarNext d v lat st len) := by
  simp [alu, readsX_ready h, State.scalarNext]

/-! ### Traps -/

/-- A trap that a handler takes. -/
theorem deliverAt_handler {s : State} (h : s.me.trap.tvec ≠ 0) (h' : s.me.trap.handling = false) (k : Cause) (epc tval : Word) :
    s.deliverAt k epc tval = s.modMe (fun c => c.enterTrap k epc tval) :=
  if_neg (fun e => e.elim h (by simp [h']))

/-- A trap without a handler, or a second trap, ends the launch. -/
theorem deliverAt_ends {s : State} (h : s.me.trap.tvec = 0 ∨ s.me.trap.handling = true) (k : Cause) (epc tval : Word) :
    s.deliverAt k epc tval = s.endLaunch s.me.launch 2 := if_pos h

/-! ### Translation -/

/-- Translation does not depend on the context in focus. -/
@[simp] theorem State.xlate_me (s : State) (c : Context) (p : Party) (acc : Access) (va : Word) :
    ({ s with me := c } : State).xlate p acc va = s.xlate p acc va := rfl

/-- Nor does that of a list of ranges. -/
@[simp] theorem State.xlateParts_me (s : State) (c : Context) (p : Party) (acc : Access) (l : List (Word × Nat)) :
    ({ s with me := c } : State).xlateParts p acc l = s.xlateParts p acc l := by
  induction l with
  | nil => rfl
  | cons q l ih => simp only [State.xlateParts, State.xlate_me, ih]

/-- Nor does that of a range. -/
@[simp] theorem State.xlateRange_me (s : State) (c : Context) (p : Party) (acc : Access) (va : Word) (n : Nat) :
    ({ s with me := c } : State).xlateRange p acc va n = s.xlateRange p acc va n := State.xlateParts_me ..
end Sys2Proof.Machine
end

