-- ==== Sys2Proof/Laws/Stores.lean ====
section
/-! SUPPORT. What a store and an atomic write change of what observers read; what waiting for lost stores does when none is
lost; what a fence and a release leave of the stores of a context. -/

namespace Sys2Proof.Machine

/-! ### Rekeying and what is read -/

/-- A record in canonical form, as the store lemmas use it. -/
theorem State.Canonical.distinct {s : State} (h : s.Canonical) : ∀ r ∈ s.stores, r.Distinct := h.2.1

/-- Stripping some records of other keys changes nothing at a key. -/
theorem overBytes_stripIf {sh : StoreRec → Bool} (h : Shows sh) (p : StoreRec → Bool) (cs : List Host.Cell) (k : Nat) (old : Byte)
    (l : List StoreRec) (hc : cs.any (fun d => d.1 == k) = false) :
    overBytes sh k old (l.map (fun r => if p r then r.strip cs else r)) = overBytes sh k old l := by
  induction l using List.reverseRecOn with
  | nil => rfl
  | append_singleton l r ih =>
    rw [List.map_append, overBytes_append, overBytes_append, ih, List.map_singleton, overBytes_singleton, overBytes_singleton]
    split
    · rw [h.strip, StoreRec.byteAt_strip, hc]
      rfl
    · rfl

/-- Rekeying a block leaves every byte outside it as every observer reads it. -/
theorem State.rekey_see {s : State} (h : s.Canonical) (ki k j : Nat) (hj : j / 16 ≠ k / 16 ∨ s.keyedAs ki k)
    {sh : StoreRec → Bool} (hs : Shows sh) : (s.rekey ki k).see sh j = s.see sh j := by
  rcases hj with hj | hj
  · unfold State.rekey
    split
    · split
      · rfl
      · split
        · rfl
        · dsimp only [State.see]
          have hc : ∀ (f : Nat → Byte), ((List.range 16).map (fun i => (k / 16 * 16 + i, f i))).any (fun d => d.1 == j) = false := by
            intro f
            rw [Bool.eq_false_iff, Ne, List.any_eq_true]
            rintro ⟨c, hc, e⟩
            obtain ⟨i, hi, rfl⟩ := List.mem_map.mp hc
            have := List.mem_range.mp hi
            have := beq_iff_eq.mp e
            omega
          rw [overBytes_stripIf hs _ _ _ _ _ (hc _), Memory.get_setAll_other h.1]
          intro c hcm e
          obtain ⟨i, hi, rfl⟩ := List.mem_map.mp hcm
          have := List.mem_range.mp hi
          dsimp only at e
          omega
    · rfl
  · simp only [State.see, (State.rekey_keyed hj).1, (State.rekey_keyed hj).2]

/-- Two keys of one block. -/
theorem State.keyedAs_block {s : State} {ki k j : Nat} (h : s.keyedAs ki k) (hu : j / 16 = k / 16) (he : isEncrypted j = isEncrypted k) :
    s.keyedAs ki j := by
  unfold State.keyedAs State.blockKey at *
  rw [hu, he]; exact h

theorem State.setModified_same (s : State) (die : Fin 8) (k n : Nat) :
    (s.setModified die k n).mem = s.mem ∧ (s.setModified die k n).stores = s.stores ∧ (s.setModified die k n).lineKeys = s.lineKeys ∧
      (s.setModified die k n).me = s.me ∧ (s.setModified die k n).nextId = s.nextId := by
  unfold State.setModified; split <;> exact ⟨rfl, rfl, rfl, rfl, rfl⟩

/-- What comes between a store's keying and its place in the order. -/
def State.prepare (s : State) (nib : Option Bool) (die : Fin 8) (k n : Nat) : State :=
  (if nib.isNone then s.unpoison k n else s).setModified die k n

/-- It changes neither memory nor the stores, nor the context. -/
theorem State.prepare_same (s : State) (nib : Option Bool) (die : Fin 8) (k n : Nat) :
    (s.prepare nib die k n).mem = s.mem ∧ (s.prepare nib die k n).stores = s.stores ∧ (s.prepare nib die k n).me = s.me ∧
      (s.prepare nib die k n).nextId = s.nextId := by
  unfold State.prepare
  obtain ⟨h1, h2, -, h4, h5⟩ := State.setModified_same (if nib.isNone then s.unpoison k n else s) die k n
  rw [h1, h2, h4, h5]
  split <;> exact ⟨rfl, rfl, rfl, rfl⟩

/-- Inserting a record and settling: the canonical form, and what is read. -/
theorem State.insert_canonical {s : State} (h : s.Canonical) (r : StoreRec) (hr : r.Distinct) (n : Nat) :
    (State.settle { s with nextId := n, stores := insertStore r s.stores }).Canonical := by
  refine State.settle_canonical ⟨h.1, fun q hq => ?_, insertStore_sorted r h.2.2⟩
  rcases mem_insertStore hq with rfl | hq
  · exact hr
  · exact h.2.1 q hq

/-- After inserting a record and settling every observer reads what the records read as they stand in the list. -/
theorem State.insert_see {s : State} (h : s.Canonical) (r : StoreRec) (hr : r.Distinct) (n : Nat) {sh : StoreRec → Bool}
    (hs : Shows sh) (j : Nat) :
    (State.settle { s with nextId := n, stores := insertStore r s.stores }).see sh j =
      overBytes sh j (Memory.get s.mem j) (insertStore r s.stores) := by
  refine State.settle_view (s := { s with nextId := n, stores := insertStore r s.stores }) h.1 (fun q hq => ?_) hs j
  rcases mem_insertStore hq with rfl | hq
  · exact hr
  · exact h.2.1 q hq

/-! ### One store -/

section Store
variable {s : State} (ctx : Option Nat) (fn : Fin 256) (die : Fin 8) (path : Path) (cls : Cls) (y : Bool) (va : Word)
  (ki k : Nat) (bs : List Byte) (mode : StoreMode) (nib : Option Bool) (ins : Option Nat)

theorem State.putStore_canonical (h : s.Canonical) : (s.putStore ctx fn die path cls y va ki k bs mode nib ins).Canonical := by
  have h1 := State.rekeyAll_canonical h ki k bs.length
  have h2 := State.prepare_same (s.rekeyAll ki k bs.length) nib (homeOf k) k bs.length
  exact State.insert_canonical (s := (s.rekeyAll ki k bs.length).prepare nib (homeOf k) k bs.length)
    ⟨by rw [h2.1]; exact h1.1, by rw [h2.2.1]; exact h1.2.1, by rw [h2.2.1]; exact h1.2.2⟩ _ (StoreRec.fresh_distinct ..) _

/-- Records of a state, each with some of its bytes at most, in their ranks. -/
def StoresOf (l m : List StoreRec) : Prop := ∀ q ∈ l, ∃ p ∈ m, ∃ b, q = { p with bytes := b } ∧ b.Sublist p.bytes

theorem State.rekey_me (s : State) (ki k : Nat) : (s.rekey ki k).me = s.me := by
  unfold State.rekey
  repeat' split
  all_goals rfl

theorem State.rekey_storesOf (s : State) (ki k : Nat) : StoresOf (s.rekey ki k).stores s.stores := by
  intro q hq
  unfold State.rekey at hq
  split at hq
  · split at hq
    · exact ⟨q, hq, _, rfl, List.Sublist.refl _⟩
    · split at hq
      · exact ⟨q, hq, _, rfl, List.Sublist.refl _⟩
      · dsimp only at hq
        obtain ⟨p, hp, rfl⟩ := List.mem_map.mp hq
        split
        · exact ⟨p, hp, _, rfl, List.filter_sublist⟩
        · exact ⟨p, hp, _, rfl, List.Sublist.refl _⟩
  · exact ⟨q, hq, _, rfl, List.Sublist.refl _⟩

/-- The state a store's record enters: what observers read of keys that keying does not touch is as before. -/
theorem State.store_base (h : s.Canonical) (hu : bs.length - 1 + k % 16 < 16) :
    ∃ u : State, u.Canonical ∧
      s.putStore ctx fn die path cls y va ki k bs mode nib ins =
        State.settle { u with nextId := s.nextId + 1,
                              stores := insertStore (StoreRec.fresh s.nextId ctx fn die path cls y va k bs mode nib ins) u.stores } ∧
      (∀ j, (j / 16 ≠ k / 16 ∨ s.keyedAs ki k) → ∀ sh : StoreRec → Bool, Shows sh → u.see sh j = s.see sh j) ∧
      u.me = s.me ∧ StoresOf u.stores s.stores := by
  have h1 := State.rekey_canonical h ki k
  have h3 := State.prepare_same (s.rekey ki k) nib (homeOf k) k bs.length
  refine ⟨(s.rekey ki k).prepare nib (homeOf k) k bs.length,
    ⟨by rw [h3.1]; exact h1.1, by rw [h3.2.1]; exact h1.2.1, by rw [h3.2.1]; exact h1.2.2⟩, ?_, ?_, ?_, ?_⟩
  · unfold State.putStore State.prepare
    rw [State.rekeyAll_block s ki hu]
  · intro j hj sh hs
    have e : ∀ t u : State, t.mem = u.mem → t.stores = u.stores → t.see sh j = u.see sh j := by
      intro t u a b; simp only [State.see, a, b]
    rw [e _ _ h3.1 h3.2.1, State.rekey_see h ki k j hj hs]
  · rw [h3.2.2.1]; exact State.rekey_me s ki k
  · rw [h3.2.1]; exact State.rekey_storesOf s ki k

/-- A store leaves every byte outside it as every observer reads it, but for a block that changes its keys. -/
theorem State.putStore_other (h : s.Canonical) (hu : bs.length - 1 + k % 16 < 16) (j : Nat) (hj : j < k ∨ k + bs.length ≤ j)
    (hk : j / 16 ≠ k / 16 ∨ s.keyedAs ki k) {sh : StoreRec → Bool} (hs : Shows sh) :
    (s.putStore ctx fn die path cls y va ki k bs mode nib ins).see sh j = s.see sh j := by
  obtain ⟨u, hc, e, hsee, -, -⟩ := State.store_base (s := s) ctx fn die path cls y va ki k bs mode nib ins h hu
  rw [e, State.insert_see hc _ (StoreRec.fresh_distinct ..) _ hs j, overBytes_insert_other sh j _ _ hc.2.2 (.inl ?_)]
  · exact hsee j hk sh hs
  · rw [StoreRec.fresh_byteAt]
    split
    · exact List.getElem?_eq_none (by omega)
    · rfl

/-- A store that an observer does not see yet changes nothing the observer reads. -/
theorem State.putStore_hidden (h : s.Canonical) (hu : bs.length - 1 + k % 16 < 16) (j : Nat)
    (hk : j / 16 ≠ k / 16 ∨ s.keyedAs ki k) {sh : StoreRec → Bool} (hs : Shows sh)
    (hn : sh (StoreRec.fresh s.nextId ctx fn die path cls y va k bs mode nib ins) = false) :
    (s.putStore ctx fn die path cls y va ki k bs mode nib ins).see sh j = s.see sh j := by
  obtain ⟨u, hc, e, hsee, -, -⟩ := State.store_base (s := s) ctx fn die path cls y va ki k bs mode nib ins h hu
  rw [e, State.insert_see hc _ (StoreRec.fresh_distinct ..) _ hs j, overBytes_insert_other sh j _ _ hc.2.2 (.inr hn)]
  exact hsee j hk sh hs

/-- A context's own store is the newest of all for an observer that sees it. -/
theorem State.putStore_same (n : Nat) (h : s.Canonical) (hu : bs.length - 1 + k % 16 < 16) (i : Nat) (b : Byte) (hb : bs[i]? = some b)
    {sh : StoreRec → Bool} (hs : Shows sh) (hn : sh (StoreRec.fresh s.nextId (some n) fn die path cls y va k bs mode none ins) = true) :
    (s.putStore (some n) fn die path cls y va ki k bs mode none ins).see sh (k + i) = b := by
  obtain ⟨u, hc, e, -, -, -⟩ := State.store_base (s := s) (some n) fn die path cls y va ki k bs mode none ins h hu
  rw [e, State.insert_see hc _ (StoreRec.fresh_distinct ..) _ hs (k + i),
    overBytes_insert_last sh (k + i) _ _ hc.2.2 ?_ hn b ?_]
  · rfl
  · intro q _
    have : (StoreRec.fresh s.nextId (some n) fn die path cls y va k bs mode none ins).rank = 2 := by
      simp [StoreRec.fresh, StoreRec.rank, StoreRec.performed]
    rw [this]
    rcases q.rank_cases with h | h | h <;> omega
  · rw [StoreRec.fresh_byteAt, if_pos (by omega), Nat.add_sub_cancel_left]; exact hb

end Store

/-! ### Lost stores -/

/-- With no picked store lost or unreachable nothing is lost now. -/
theorem State.loseUnreachable_clear {s : State} {pick : StoreRec → Bool} (h : s.Clear pick) : s.loseUnreachable pick = s := by
  unfold State.loseUnreachable
  rw [if_neg]
  rw [List.any_eq_true]
  rintro ⟨r, hr, e⟩
  simp only [Bool.and_eq_true, bne_iff_ne, Bool.not_eq_true'] at e
  rcases (h r hr e.1.1.1.1).2 with e1 | e1
  · exact e.1.1.1.2 e1
  · rw [e1] at e; exact absurd e.2 (by decide)

theorem State.Clear.mono {s : State} {p q : StoreRec → Bool} (h : s.Clear p) (hq : ∀ r, q r = true → p r = true) : s.Clear q :=
  fun r hr e => h r hr (hq r e)

/-- With none of the context's stores lost nothing traps ACKLOSS. -/
theorem ackloss_none {s : State} (h : s.NoneLost) (all : Bool) (k : State → Out) : ackloss all s k = k s := by
  unfold ackloss
  rw [if_neg]
  rw [List.any_eq_true]
  rintro ⟨r, hr, e⟩
  simp only [lostFor, Bool.and_eq_true] at e
  have := (h r hr e.1.1.1).1
  rw [this] at e; exact absurd e.1.1.2 (by decide)

theorem fenced_none {s : State} (h : s.NoneLost) (hp : s.p2Waits = false) (sc : Scope) (k : State → Out) :
    fenced sc s k = k (s.fenceAt sc) := by
  unfold fenced
  rw [hp, State.loseUnreachable_clear (h.mono (fun r e => by simp only [Bool.and_eq_true] at e; exact e.1)), ackloss_none h]
  rfl

theorem releasing_none {s : State} (h : s.NoneLost) (on : Path → Bool) (hp : (on .p2 && s.p2Waits) = false) (sc : Scope) (k : State → Out) :
    releasing sc on s k = k (s.release sc on) := by
  unfold releasing
  rw [hp, State.loseUnreachable_clear (h.mono (fun r e => by simp only [Bool.and_eq_true] at e; exact e.1)), ackloss_none h]
  rfl

theorem ordered_clear {s : State} {p : Path} {cls : Cls} {ks : List (Nat × Nat)} (h : s.Clear (s.homeBefore p cls ks)) (k : State → Out) :
    ordered p cls ks s k = k (s.drainGlob (s.homeBefore p cls ks)) := by
  unfold ordered
  dsimp only
  rw [State.loseUnreachable_clear h, if_neg]
  rw [List.any_eq_true]
  rintro ⟨r, hr, e⟩
  simp only [Bool.and_eq_true] at e
  have := (h r hr e.1.1.1).1
  rw [this] at e; exact absurd e.1.2 (by decide)

end Sys2Proof.Machine
end

