-- ==== Sys2Proof/Laws/Keeps.lean ====
section
/-! SUPPORT. The operations that change memory or the pending stores keep the canonical form and the numbering. -/

namespace Sys2Proof.Machine

/-- The canonical form of the memory system and the numbering of its stores. -/
abbrev State.Kept (s : State) : Prop := s.Canonical ∧ s.Numbered

/-! ### Changes that leave the memory system, or shrink it -/

theorem State.Kept.same {s t : State} (h : s.Kept) (hm : t.mem = s.mem) (hs : t.stores = s.stores) (hn : s.nextId ≤ t.nextId) :
    t.Kept := by
  obtain ⟨⟨h1, h2, h3⟩, h4, h5⟩ := h
  refine ⟨⟨by rw [hm]; exact h1, by rw [hs]; exact h2, by rw [hs]; exact h3⟩, fun r hr => ?_, by rw [hs]; exact h5⟩
  rw [hs] at hr
  exact Nat.lt_of_lt_of_le (h4 r hr) hn

theorem State.Kept.withMem {s : State} (h : s.Kept) {m : List Host.Cell} (hm : Memory.wf m = true) : State.Kept { s with mem := m } :=
  ⟨⟨hm, h.1.2⟩, h.2⟩

/-- Records may change their bytes to fewer, and anything but their number and rank. -/
theorem State.Kept.mapStores {s : State} (h : s.Kept) (f : StoreRec → StoreRec) (hi : ∀ r, (f r).id = r.id)
    (ha : ∀ r, (f r).rank = r.rank) (hb : ∀ r, (f r).bytes.Sublist r.bytes) :
    State.Kept { s with stores := s.stores.map f } := by
  obtain ⟨⟨h1, h2, h3⟩, h4, h5⟩ := h
  refine ⟨⟨h1, fun q hq => ?_, ?_⟩, fun q hq => ?_, ?_⟩
  · obtain ⟨r, hr, rfl⟩ := List.mem_map.mp hq
    exact (h2 r hr).sublist ((hb r).map _)
  · show (s.stores.map f).Pairwise _
    rw [List.pairwise_map]
    simpa only [ha] using h3
  · obtain ⟨r, hr, rfl⟩ := List.mem_map.mp hq
    rw [hi]; exact h4 r hr
  · show ((s.stores.map f).map _).Nodup
    rw [List.map_map]
    have : ((fun r : StoreRec => r.id) ∘ f) = (fun r => r.id) := funext hi
    rw [this]; exact h5

theorem State.Kept.filterStores {s : State} (h : s.Kept) (p : StoreRec → Bool) :
    State.Kept { s with stores := s.stores.filter p } := by
  obtain ⟨⟨h1, h2, h3⟩, h4, h5⟩ := h
  exact ⟨⟨h1, fun q hq => h2 q (List.mem_filter.mp hq).1, h3.filter _⟩, fun q hq => h4 q (List.mem_filter.mp hq).1,
    h5.sublist (List.filter_sublist.map _)⟩

theorem State.Kept.noStores {s : State} {m : List Host.Cell} (hm : Memory.wf m = true) : State.Kept { s with mem := m, stores := [] } :=
  ⟨⟨hm, by simp, .nil⟩, by simp, by simp⟩

/-! ### Settling and advancing -/

theorem settleFrom_ids (l : List StoreRec) : ∀ (kept : List StoreRec) (m : List Host.Cell),
    (settleFrom kept m l).1.map (fun r => r.id) = (kept ++ l).map (fun r => r.id) := by
  induction l with
  | nil => intro kept m; simp [settleFrom]
  | cons r rest ih =>
    intro kept m
    rw [settleFrom]
    split
    · rw [ih]
      simp [List.map_map, Function.comp_def, StoreRec.strip]
    · rw [ih]; simp

theorem State.settle_kept {s : State} (h : s.Kept) : s.settle.Kept := by
  refine ⟨State.settle_canonical h.1, fun q hq => ?_, ?_⟩
  · obtain ⟨r, hr, bs, a, rfl, _⟩ := settleFrom_mem _ _ _ q (List.mem_filter.mp hq).1
    exact h.2.1 r (by simpa using hr)
  · have e := settleFrom_ids s.stores [] s.mem
    refine List.Nodup.sublist (List.filter_sublist.map _) ?_
    rw [e]; exact h.2.2

theorem byRank_ids {l : List (StoreRec × StoreRec)} (h : (l.map (fun p => p.2.id)).Nodup) :
    ((byRank l).map (fun r => r.id)).Nodup := by
  induction l with
  | nil => simp [byRank]
  | cons p l ih =>
    rw [List.map_cons, List.nodup_cons] at h
    rcases byRank_cons p l with e | e
    · rw [(e.map _).nodup_iff, List.map_cons, List.nodup_cons]
      refine ⟨fun hm => h.1 ?_, ih h.2⟩
      obtain ⟨q, hq, e'⟩ := List.mem_map.mp hm
      obtain ⟨p', hp', rfl⟩ := mem_byRank hq
      rw [← e']
      exact List.mem_map.mpr ⟨p', hp', rfl⟩
    · rw [e]; exact ih h.2

/-- The records after a change stand for different ones before it. -/
theorem updateStores_ids (pick : StoreRec → Bool) (f : StoreRec → StoreRec) (hi : ∀ r, (f r).id = r.id) {l : List StoreRec}
    (h : (l.map (fun r => r.id)).Nodup) : ((updateStores pick f l).map (fun r => r.id)).Nodup := by
  refine byRank_ids ?_
  rw [List.map_map]
  have : ((fun p : StoreRec × StoreRec => p.2.id) ∘ fun r => (r, if pick r then f r else r)) = fun r => r.id := by
    funext r
    show (if pick r then f r else r).id = r.id
    split <;> simp [hi]
  rw [this]; exact h

theorem State.advance_kept {s : State} (h : s.Kept) (pick : StoreRec → Bool) (f : StoreRec → StoreRec)
    (hb : ∀ r, (f r).bytes.Sublist r.bytes) (hi : ∀ r, (f r).id = r.id) : (s.advance pick f).Kept := by
  refine ⟨State.advance_canonical h.1 pick f hb, ?_⟩
  have hn := updateStores_ids pick f hi h.2.2
  have hlt : ∀ q ∈ updateStores pick f s.stores, q.id < s.nextId := by
    intro q hq
    obtain ⟨r, hr, rfl⟩ := mem_updateStores hq
    have e : (if pick r then f r else r).id = r.id := by split <;> simp [hi]
    rw [e]; exact h.2.1 r hr
  refine ⟨fun q hq => ?_, ?_⟩
  · obtain ⟨r, hr, bs, a, rfl, _⟩ := settleFrom_mem _ _ _ q (List.mem_filter.mp hq).1
    exact hlt r (by simpa using hr)
  · refine List.Nodup.sublist (List.filter_sublist.map _) ?_
    rw [settleFrom_ids]; exact hn

/-! ### The changes of one record -/

@[simp] theorem StoreRec.applyNow_id (r : StoreRec) : r.applyNow.id = r.id := by unfold StoreRec.applyNow; split <;> rfl
@[simp] theorem StoreRec.applyNow_applied (r : StoreRec) : r.applyNow.applied = true := by unfold StoreRec.applyNow; split <;> rfl
@[simp] theorem StoreRec.performNow_id (r : StoreRec) : r.performNow.id = r.id := by
  unfold StoreRec.performNow; split <;> (try split) <;> first | exact r.applyNow_id | rfl
@[simp] theorem StoreRec.ackNow_id (r : StoreRec) : r.ackNow.id = r.id := r.applyNow_id
@[simp] theorem StoreRec.ackNow_bytes (r : StoreRec) : r.ackNow.bytes = r.bytes := r.applyNow_bytes
@[simp] theorem StoreRec.cover_id (pt : BitVec 5) (r : StoreRec) : (r.cover pt).id = r.id := by
  unfold StoreRec.cover; split <;> simp
@[simp] theorem StoreRec.cover_bytes (pt : BitVec 5) (r : StoreRec) : (r.cover pt).bytes = r.bytes := by
  unfold StoreRec.cover; split <;> simp
@[simp] theorem StoreRec.loseNow_id (b : Bool) (r : StoreRec) : (r.loseNow b).id = r.id := by
  unfold StoreRec.loseNow; split <;> simp
theorem StoreRec.loseNow_bytes (b : Bool) (r : StoreRec) : (r.loseNow b).bytes.Sublist r.bytes := by
  unfold StoreRec.loseNow; split <;> simp

/-- A change that keeps a record's number and adds no bytes. -/
abbrev StoreRec.Onward (f : StoreRec → StoreRec) : Prop := (∀ r, (f r).bytes.Sublist r.bytes) ∧ ∀ r, (f r).id = r.id

theorem StoreRec.applyNow_onward : StoreRec.Onward StoreRec.applyNow := ⟨by simp, by simp⟩
theorem StoreRec.performNow_onward : StoreRec.Onward StoreRec.performNow := ⟨by simp, by simp⟩
theorem StoreRec.ackNow_onward : StoreRec.Onward StoreRec.ackNow := ⟨by simp, by simp⟩
theorem StoreRec.cover_onward (pt : BitVec 5) : StoreRec.Onward (StoreRec.cover pt) := ⟨by simp, by simp⟩

theorem State.Kept.onward {s : State} (h : s.Kept) (pick : StoreRec → Bool) {f : StoreRec → StoreRec} (hf : StoreRec.Onward f) :
    (s.advance pick f).Kept := State.advance_kept h pick f hf.1 hf.2

theorem State.Kept.advanceAfter {s : State} (h : s.Kept) (apply : Bool) (pick : StoreRec → Bool) {f : StoreRec → StoreRec}
    (hf : StoreRec.Onward f) : (s.advanceAfter apply pick f).Kept := by
  refine h.onward _ ⟨fun r => ?_, fun r => ?_⟩ <;> dsimp only
  · split
    · exact hf.1 r
    · split <;> simp
  · split
    · exact hf.2 r
    · split <;> simp

theorem State.Kept.afterRivals {s : State} (h : s.Kept) (pick : StoreRec → Bool) : (s.afterRivals pick).Kept := by
  unfold State.afterRivals
  dsimp only
  split
  · exact h
  · exact h.advanceAfter _ _ ⟨by simp, by simp⟩

theorem State.Kept.perform {s : State} (h : s.Kept) (pick : StoreRec → Bool) : (s.perform pick).Kept :=
  (h.afterRivals _).advanceAfter _ _ StoreRec.performNow_onward
theorem State.Kept.coverPaths {s : State} (h : s.Kept) (pt : BitVec 5) (pick : StoreRec → Bool) : (s.coverPaths pt pick).Kept :=
  (h.afterRivals _).advanceAfter _ _ (StoreRec.cover_onward _)
theorem State.Kept.drainDie {s : State} (h : s.Kept) (pick : StoreRec → Bool) : (s.drainDie pick).Kept := h.coverPaths _ _
theorem State.Kept.drainAll {s : State} (h : s.Kept) (pick : StoreRec → Bool) : (s.drainAll pick).Kept :=
  (h.afterRivals _).advanceAfter _ _ StoreRec.ackNow_onward
theorem State.Kept.applyFor {s : State} (h : s.Kept) (die : Fin 8) (k n : Nat) : (s.applyFor die k n).Kept :=
  h.advanceAfter _ _ StoreRec.applyNow_onward
theorem State.Kept.drainGlob {s : State} (h : s.Kept) (pick : StoreRec → Bool) : (s.drainGlob pick).Kept :=
  (h.afterRivals _).advanceAfter _ _ StoreRec.applyNow_onward
theorem State.Kept.drainPath {s : State} (h : s.Kept) (pick : StoreRec → Bool) : (s.drainPath pick).Kept := by
  refine (h.afterRivals _).advanceAfter _ _ ⟨fun r => ?_, fun r => ?_⟩ <;> dsimp only <;> split <;> simp

/-! ### Lost stores -/

theorem State.Kept.modMe {s : State} (h : s.Kept) (f : Context → Context) : (s.modMe f).Kept := h.same rfl rfl (Nat.le_refl _)
theorem State.Kept.mapContexts {s : State} (h : s.Kept) (f : Context → Context) : (s.mapContexts f).Kept := h.same rfl rfl (Nat.le_refl _)

/-- A fold of changes that each keep it. -/
theorem State.Kept.foldl {α : Type} {f : State → α → State} (hf : ∀ s a, s.Kept → (f s a).Kept) :
    ∀ (l : List α) {s : State}, s.Kept → (l.foldl f s).Kept := by
  intro l
  induction l with
  | nil => intro s h; exact h
  | cons a l ih => intro s h; exact ih (hf s a h)

theorem State.Kept.lose {s : State} (h : s.Kept) (pick applied : StoreRec → Bool) : (s.lose pick applied).Kept := by
  unfold State.lose
  exact State.Kept.onward (State.Kept.foldl (fun s r hs => hs.mapContexts _) _ h) _ ⟨fun r => StoreRec.loseNow_bytes _ r, by simp⟩

theorem State.Kept.loseUnreachable {s : State} (h : s.Kept) (pick : StoreRec → Bool) : (s.loseUnreachable pick).Kept := by
  unfold State.loseUnreachable
  split
  · exact h.lose _ _
  · exact h

theorem State.Kept.reportLost {s : State} (h : s.Kept) : s.reportLost.Kept := by
  unfold State.reportLost
  refine State.Kept.filterStores (s := { s with stores := _ }) (State.Kept.mapStores h _ ?_ ?_ ?_) _
  · intro r; split <;> rfl
  · intro r; split <;> rfl
  · intro r; split <;> exact List.Sublist.refl _

/-! ### Keying and stores -/

theorem State.Kept.rekey {s : State} (h : s.Kept) (ki k : Nat) : (s.rekey ki k).Kept := by
  refine ⟨State.rekey_canonical h.1 ki k, ?_⟩
  unfold State.rekey
  split
  · split
    · exact h.2
    · split
      · exact h.2
      · dsimp only
        generalize (List.range 16).map _ = cells
        have := (State.Kept.mapStores h (fun r => if r.applied then r.strip cells else r) (fun r => by split <;> rfl)
          (fun r => by split <;> rfl) (fun r => by
            split
            · exact List.filter_sublist
            · exact List.Sublist.refl _)).2
        exact ⟨this.1, this.2⟩
  · exact h.2

theorem State.rekey_nextId (s : State) (ki k : Nat) : (s.rekey ki k).nextId = s.nextId := by
  unfold State.rekey
  repeat' split
  all_goals rfl

theorem State.rekeyAll_nextId (s : State) (ki k n : Nat) : (s.rekeyAll ki k n).nextId = s.nextId := by
  have go : ∀ (l : List Nat) (t : State), (l.foldl (fun s i => s.rekey ki (16 * (k / 16 + 1 + i))) t).nextId = t.nextId := by
    intro l
    induction l with
    | nil => intro t; rfl
    | cons i r ih => intro t; rw [List.foldl_cons, ih, State.rekey_nextId]
  unfold State.rekeyAll
  rw [go, State.rekey_nextId]

theorem State.Kept.rekeyAll {s : State} (h : s.Kept) (ki k n : Nat) : (s.rekeyAll ki k n).Kept := by
  have go : ∀ (l : List Nat) (t : State), t.Kept → (l.foldl (fun s i => s.rekey ki (16 * (k / 16 + 1 + i))) t).Kept := by
    intro l
    induction l with
    | nil => intro t h; exact h
    | cons i r ih => intro t h; exact ih _ (h.rekey _ _)
  exact go _ _ (h.rekey _ _)

/-- A new store enters with the next number. -/
theorem State.Kept.insert {s : State} (h : s.Kept) (r : StoreRec) (hr : r.Distinct) (hi : r.id = s.nextId) :
    (State.settle { s with nextId := s.nextId + 1, stores := insertStore r s.stores }).Kept := by
  refine ⟨State.insert_canonical h.1 r hr _, ?_⟩
  have hp : ((insertStore r s.stores).map (fun q => q.id)).Perm (r.id :: s.stores.map (fun q => q.id)) := (insertStore_perm r s.stores).map _
  have hnd : ((insertStore r s.stores).map (fun q => q.id)).Nodup := by
    rw [hp.nodup_iff, List.nodup_cons]
    refine ⟨fun hm => ?_, h.2.2⟩
    obtain ⟨q, hq, e⟩ := List.mem_map.mp hm
    have := h.2.1 q hq
    omega
  refine ⟨fun q hq => ?_, ?_⟩
  · obtain ⟨p, hp', bs, a, rfl, _⟩ := settleFrom_mem _ _ _ q (List.mem_filter.mp hq).1
    have hm : p.id ∈ r.id :: s.stores.map (fun q => q.id) := hp.subset (List.mem_map_of_mem (by simpa using hp'))
    rcases List.mem_cons.mp hm with e | e
    · show p.id < s.nextId + 1; omega
    · obtain ⟨q', hq', e'⟩ := List.mem_map.mp e
      have := h.2.1 q' hq'
      show p.id < s.nextId + 1; omega
  · refine List.Nodup.sublist (List.filter_sublist.map _) ?_
    rw [settleFrom_ids]; exact hnd

section Store
variable {s : State} (ctx : Option Nat) (fn : Fin 256) (die : Fin 8) (path : Path) (cls : Cls) (y : Bool) (va : Word)
  (ki k : Nat) (bs : List Byte) (mode : StoreMode) (nib : Option Bool) (ins : Option Nat) (far : Bool)

theorem StoreRec.fresh_id (id : Nat) : (StoreRec.fresh id ctx fn die path cls y va k bs mode nib ins).id = id := by
  unfold StoreRec.fresh
  dsimp only
  split
  · rw [StoreRec.performNow_id]
  · rfl

theorem State.Kept.putStore (h : s.Kept) : (s.putStore ctx fn die path cls y va ki k bs mode nib ins).Kept := by
  have h1 := h.rekeyAll ki k bs.length
  have h2 := State.prepare_same (s.rekeyAll ki k bs.length) nib (homeOf k) k bs.length
  have hn : ((s.rekeyAll ki k bs.length).prepare nib (homeOf k) k bs.length).nextId = s.nextId :=
    h2.2.2.2.trans (State.rekeyAll_nextId s ki k bs.length)
  have h3 := h1.same (t := (s.rekeyAll ki k bs.length).prepare nib (homeOf k) k bs.length) h2.1 h2.2.1
    (by rw [hn, State.rekeyAll_nextId])
  have h4 := h3.insert (StoreRec.fresh s.nextId ctx fn die path cls y va k bs mode nib ins) (StoreRec.fresh_distinct ..)
    ((StoreRec.fresh_id ..).trans hn.symm)
  rw [hn] at h4
  exact h4

theorem State.Kept.putAtomic (h : s.Kept) : (s.putAtomic ctx fn die path cls va ki k bs far).Kept := by
  have h1 := h.rekeyAll ki k bs.length
  have h2 := State.setModified_same (s.rekeyAll ki k bs.length) (if far then homeOf k else die) k bs.length
  have hn : ((s.rekeyAll ki k bs.length).setModified (if far then homeOf k else die) k bs.length).nextId = s.nextId :=
    h2.2.2.2.2.trans (State.rekeyAll_nextId s ki k bs.length)
  have h3 := h1.same (t := (s.rekeyAll ki k bs.length).setModified (if far then homeOf k else die) k bs.length) h2.1 h2.2.1
    (by rw [hn, State.rekeyAll_nextId])
  have h4 := h3.insert { (StoreRec.fresh s.nextId ctx fn die path cls false va k bs .early).applyNow with
    dies := BitVec.allOnes 8, acked := true }
    (by
      unfold StoreRec.Distinct
      rw [StoreRec.applyNow_bytes]
      exact StoreRec.fresh_distinct s.nextId ctx fn die path cls false va k bs .early none none)
    (((StoreRec.applyNow_id _).trans (StoreRec.fresh_id ..)).trans hn.symm)
  rw [hn] at h4
  exact h4

theorem State.Kept.pokeKey (h : s.Kept) : (s.pokeKey ki k bs).Kept := by
  have h1 := h.rekeyAll ki k bs.length
  have h2 := (h1.withMem (Memory.wf_setAll h1.1.1 ((List.range bs.length).zipWith (fun i b => (k + i, b)) bs))).mapStores
    (fun r => if r.applied then r.strip ((List.range bs.length).zipWith (fun i b => (k + i, b)) bs) else r)
    (fun r => by split <;> rfl) (fun r => by split <;> rfl) (fun r => by
      split
      · exact List.filter_sublist
      · exact List.Sublist.refl _)
  exact h2.same rfl rfl (Nat.le_refl _)

theorem State.Kept.storeParts (h : s.Kept) (ms : List (Mapped × Nat)) :
    (s.storeParts ctx fn die path cls y va mode nib ins ms bs).Kept := by
  induction ms generalizing s bs with
  | nil => exact h
  | cons m r ih =>
    obtain ⟨m, n⟩ := m
    unfold State.storeParts
    exact ih _ (h.putStore ..)
end Store

/-! ### Fences and releases -/

theorem State.Kept.acquire {s : State} (h : s.Kept) (on : Path → Bool) : (s.acquire on).Kept := h.modMe _
theorem State.Kept.acquireAll {s : State} (h : s.Kept) : s.acquireAll.Kept := h.acquire _

theorem State.Kept.fenceAt {s : State} (h : s.Kept) (sc : Scope) : (s.fenceAt sc).Kept := by
  unfold State.fenceAt
  split
  · exact (h.drainAll _).modMe _
  · exact (h.drainDie _).acquireAll

theorem State.Kept.release {s : State} (h : s.Kept) (sc : Scope) (on : Path → Bool) : (s.release sc on).Kept := by
  unfold State.release
  split
  · exact ((h.loseUnreachable _).drainPath _).drainAll _
  · exact h.perform _

/-! ### Loads -/

theorem State.Kept.orderLoad {s : State} (h : s.Kept) (p : Path) (cls : Cls) (ks : List (Nat × Nat)) : (s.orderLoad p cls ks).Kept :=
  (h.perform _).coverPaths _ _
theorem State.Kept.noteRead {s : State} (h : s.Kept) (o : Observer) (ks : List (Nat × Nat)) : (s.noteRead o ks).Kept := by
  unfold State.noteRead
  split
  · exact h
  · exact h.modMe _
theorem State.Kept.passed {s : State} (h : s.Kept) (p : Path) (cls : Cls) (y : Bool) (ks : List (Nat × Nat)) : (s.passed p cls y ks).Kept :=
  h.modMe _

theorem State.Kept.loadAhead {s : State} (h : s.Kept) (p : Path) (cls : Cls) (va : Word) (n : Nat) : (s.loadAhead p cls va n).Kept := by
  unfold State.loadAhead
  split
  · exact h
  · split
    · exact h
    · split
      · exact h
      · exact ((h.orderLoad _ _ _).noteRead _ _).modMe _

/-! ### Firmware -/

theorem State.Kept.zeroSegs {s : State} (h : s.Kept) (cl : Fin 64) (ks : List Nat) : (s.zeroSegs cl ks).Kept := by
  have h2 := (h.withMem (Memory.wf_filter h.1.1 (fun c => !inSegs cl ks c.1))).mapStores
    (fun r => { r with bytes := r.bytes.filter (fun c => !inSegs cl ks c.1) }) (fun _ => rfl) (fun _ => rfl)
    (fun r => List.filter_sublist)
  exact h2.same rfl rfl (Nat.le_refl _)

theorem State.Kept.refill {s t : State} (h : s.Kept) (l : Launch) (cl : Fin 64) (e : s.refill l cl = some t) : t.Kept := by
  unfold State.refill at e
  split at e
  · cases e; exact h
  · split at e
    · cases e
      have h1 := h.zeroSegs cl (by assumption : Spill).segs
      exact (h1.withMem (Memory.wf_setAll h1.1.1 _)).same rfl rfl (Nat.le_refl _)
    · cases e

theorem State.Kept.boot {s : State} (h : s.Kept) (good : BitVec 8) : (s.boot good).Kept :=
  ⟨⟨Memory.wf_filter h.1.1 _, fun _ hr => (List.not_mem_nil hr).elim, List.Pairwise.nil⟩,
    fun _ hr => (List.not_mem_nil hr).elim, List.Pairwise.nil⟩

theorem State.Kept.flrStores {s : State} (h : s.Kept) (fn : Fin 256) : (s.flrStores fn).Kept :=
  State.Kept.filterStores (State.Kept.onward
    (State.Kept.same h (t := { s with freeCtr := s.freeCtr + s.nextId }) rfl rfl (Nat.le_refl _)) _ StoreRec.ackNow_onward) _

/-- The unapplied stores of a test are over. -/
theorem State.Kept.discard {s : State} (h : s.Kept) (p : StoreRec → Bool) :
    State.Kept { s with stores := s.stores.map (fun r => if p r ∧ !r.applied then { r with bytes := [], acked := true } else r) } := by
  refine h.mapStores _ ?_ ?_ ?_ <;> intro r <;> split <;> first | rfl | exact List.nil_sublist _

theorem State.Kept.resetStores {s : State} (h : s.Kept) (d : Fin 8) : (s.resetStores d).Kept := by
  have h0 : State.Kept { s with freeCtr := s.freeCtr + s.nextId } := h.same rfl rfl (Nat.le_refl _)
  exact State.settle_kept (((h0.lose _ _).onward _ StoreRec.ackNow_onward).discard _)

theorem State.Kept.tagStores {s : State} (h : s.Kept) (from_ work : Nat) : (s.tagStores from_ work).Kept := by
  refine State.Kept.mapStores h _ ?_ ?_ ?_ <;> intro r <;> split <;> rfl

end Sys2Proof.Machine
end

