-- ==== Sys2Proof/Laws/PerInstr.lean ====
section
/-! SUPPORT. Decoding what the encoder writes gives the instruction back, constructor by constructor. -/

set_option linter.unusedSimpArgs false

namespace Sys2Proof.Laws.EncodeDecode

set_option Elab.async false

/-- The code of a well-formed instruction decodes to it; ILLEGAL_ENCODING stands for the codes that decode to nothing. -/
def Statement (i : Instr) : Prop :=
  ∀ c, encode i = some c → i.wf = true → (∀ w, i ≠ .illegalEncoding w) → decodeCode c = .ok i

theorem vaddVv (d : VReg) (a : VReg) (b : VReg) (m : MReg) (st : Stall) : Statement (.vaddVv d a b m st) := by
  intro c hc hw _
  obtain rfl := Option.some.inj (show some (.w32 (joinWord (hV 0 (r3 m) (r5 a) (r5 b)) (r5 d) 0x30 (r3 st))) = some c from hc)
  simp only [decodeCode, decodeWord, splitWord_joinWord, maj_30]
  simp only [decVintAVv, BitVec.ofNat_eq_ofNat, Fields.d, Fields.stall, Fields.m, Fields.mlo, zeroed, accept, x5_r5, x3_r3, x4_r4, x6_r6, mreg_m5, inMask_m5, coded_some, varLat_zero, RMode.ofCode_code, LdWidth.ofCode_code, StWidth.ofCode_code, Scope.ofCode_code, VCmpOp.ofCode_code, VFCmpOp.ofCode_code, RedOp.ofCode_code, off14_split, off19_split, decShift, decVmax, decVcmp, decVfcmp, decVm0, decVm1, decVmSc, beq_self_eq_true, Bool.and_self, ↓reduceIte, BitVec.toNat_ofNat, Nat.reducePow, Nat.reduceMod, Bool.and_true, Bool.not_false, hV_funct3, hV_mid3, hV_r2, hV_r1]

theorem vaddVx (d : VReg) (a : VReg) (b : XReg) (m : MReg) (st : Stall) : Statement (.vaddVx d a b m st) := by
  intro c hc hw _
  obtain rfl := Option.some.inj (show some (.w32 (joinWord (hV 0 (r3 m) (r5 a) (r5 b)) (r5 d) 0x31 (r3 st))) = some c from hc)
  simp only [decodeCode, decodeWord, splitWord_joinWord, maj_31]
  simp only [decVintAVx, BitVec.ofNat_eq_ofNat, Fields.d, Fields.stall, Fields.m, Fields.mlo, zeroed, accept, x5_r5, x3_r3, x4_r4, x6_r6, mreg_m5, inMask_m5, coded_some, varLat_zero, RMode.ofCode_code, LdWidth.ofCode_code, StWidth.ofCode_code, Scope.ofCode_code, VCmpOp.ofCode_code, VFCmpOp.ofCode_code, RedOp.ofCode_code, off14_split, off19_split, decShift, decVmax, decVcmp, decVfcmp, decVm0, decVm1, decVmSc, beq_self_eq_true, Bool.and_self, ↓reduceIte, BitVec.toNat_ofNat, Nat.reducePow, Nat.reduceMod, Bool.and_true, Bool.not_false, hV_funct3, hV_mid3, hV_r2, hV_r1]

theorem vaddVi (d : VReg) (a : VReg) (imm : BitVec 5) (m : MReg) (st : Stall) : Statement (.vaddVi d a imm m st) := by
  intro c hc hw _
  obtain rfl := Option.some.inj (show some (.w32 (joinWord (hV 0 (r3 m) (r5 a) imm) (r5 d) 0x32 (r3 st))) = some c from hc)
  simp only [decodeCode, decodeWord, splitWord_joinWord, maj_32]
  simp only [decVintAVi, BitVec.ofNat_eq_ofNat, Fields.d, Fields.stall, Fields.m, Fields.mlo, zeroed, accept, x5_r5, x3_r3, x4_r4, x6_r6, mreg_m5, inMask_m5, coded_some, varLat_zero, RMode.ofCode_code, LdWidth.ofCode_code, StWidth.ofCode_code, Scope.ofCode_code, VCmpOp.ofCode_code, VFCmpOp.ofCode_code, RedOp.ofCode_code, off14_split, off19_split, decShift, decVmax, decVcmp, decVfcmp, decVm0, decVm1, decVmSc, beq_self_eq_true, Bool.and_self, ↓reduceIte, BitVec.toNat_ofNat, Nat.reducePow, Nat.reduceMod, Bool.and_true, Bool.not_false, hV_funct3, hV_mid3, hV_r2, hV_r1]

theorem vsubVv (d : VReg) (a : VReg) (b : VReg) (m : MReg) (st : Stall) : Statement (.vsubVv d a b m st) := by
  intro c hc hw _
  obtain rfl := Option.some.inj (show some (.w32 (joinWord (hV 1 (r3 m) (r5 a) (r5 b)) (r5 d) 0x30 (r3 st))) = some c from hc)
  simp only [decodeCode, decodeWord, splitWord_joinWord, maj_30]
  simp only [decVintAVv, BitVec.ofNat_eq_ofNat, Fields.d, Fields.stall, Fields.m, Fields.mlo, zeroed, accept, x5_r5, x3_r3, x4_r4, x6_r6, mreg_m5, inMask_m5, coded_some, varLat_zero, RMode.ofCode_code, LdWidth.ofCode_code, StWidth.ofCode_code, Scope.ofCode_code, VCmpOp.ofCode_code, VFCmpOp.ofCode_code, RedOp.ofCode_code, off14_split, off19_split, decShift, decVmax, decVcmp, decVfcmp, decVm0, decVm1, decVmSc, beq_self_eq_true, Bool.and_self, ↓reduceIte, BitVec.toNat_ofNat, Nat.reducePow, Nat.reduceMod, Bool.and_true, Bool.not_false, hV_funct3, hV_mid3, hV_r2, hV_r1]

theorem vsubVx (d : VReg) (a : VReg) (b : XReg) (m : MReg) (st : Stall) : Statement (.vsubVx d a b m st) := by
  intro c hc hw _
  obtain rfl := Option.some.inj (show some (.w32 (joinWord (hV 1 (r3 m) (r5 a) (r5 b)) (r5 d) 0x31 (r3 st))) = some c from hc)
  simp only [decodeCode, decodeWord, splitWord_joinWord, maj_31]
  simp only [decVintAVx, BitVec.ofNat_eq_ofNat, Fields.d, Fields.stall, Fields.m, Fields.mlo, zeroed, accept, x5_r5, x3_r3, x4_r4, x6_r6, mreg_m5, inMask_m5, coded_some, varLat_zero, RMode.ofCode_code, LdWidth.ofCode_code, StWidth.ofCode_code, Scope.ofCode_code, VCmpOp.ofCode_code, VFCmpOp.ofCode_code, RedOp.ofCode_code, off14_split, off19_split, decShift, decVmax, decVcmp, decVfcmp, decVm0, decVm1, decVmSc, beq_self_eq_true, Bool.and_self, ↓reduceIte, BitVec.toNat_ofNat, Nat.reducePow, Nat.reduceMod, Bool.and_true, Bool.not_false, hV_funct3, hV_mid3, hV_r2, hV_r1]

theorem vsubVi (d : VReg) (a : VReg) (imm : BitVec 5) (m : MReg) (st : Stall) : Statement (.vsubVi d a imm m st) := by
  intro c hc hw _
  obtain rfl := Option.some.inj (show some (.w32 (joinWord (hV 1 (r3 m) (r5 a) imm) (r5 d) 0x32 (r3 st))) = some c from hc)
  simp only [decodeCode, decodeWord, splitWord_joinWord, maj_32]
  simp only [decVintAVi, BitVec.ofNat_eq_ofNat, Fields.d, Fields.stall, Fields.m, Fields.mlo, zeroed, accept, x5_r5, x3_r3, x4_r4, x6_r6, mreg_m5, inMask_m5, coded_some, varLat_zero, RMode.ofCode_code, LdWidth.ofCode_code, StWidth.ofCode_code, Scope.ofCode_code, VCmpOp.ofCode_code, VFCmpOp.ofCode_code, RedOp.ofCode_code, off14_split, off19_split, decShift, decVmax, decVcmp, decVfcmp, decVm0, decVm1, decVmSc, beq_self_eq_true, Bool.and_self, ↓reduceIte, BitVec.toNat_ofNat, Nat.reducePow, Nat.reduceMod, Bool.and_true, Bool.not_false, hV_funct3, hV_mid3, hV_r2, hV_r1]

theorem vmulVv (d : VReg) (a : VReg) (b : VReg) (m : MReg) (st : Stall) : Statement (.vmulVv d a b m st) := by
  intro c hc hw _
  obtain rfl := Option.some.inj (show some (.w32 (joinWord (hV 2 (r3 m) (r5 a) (r5 b)) (r5 d) 0x30 (r3 st))) = some c from hc)
  simp only [decodeCode, decodeWord, splitWord_joinWord, maj_30]
  simp only [decVintAVv, BitVec.ofNat_eq_ofNat, Fields.d, Fields.stall, Fields.m, Fields.mlo, zeroed, accept, x5_r5, x3_r3, x4_r4, x6_r6, mreg_m5, inMask_m5, coded_some, varLat_zero, RMode.ofCode_code, LdWidth.ofCode_code, StWidth.ofCode_code, Scope.ofCode_code, VCmpOp.ofCode_code, VFCmpOp.ofCode_code, RedOp.ofCode_code, off14_split, off19_split, decShift, decVmax, decVcmp, decVfcmp, decVm0, decVm1, decVmSc, beq_self_eq_true, Bool.and_self, ↓reduceIte, BitVec.toNat_ofNat, Nat.reducePow, Nat.reduceMod, Bool.and_true, Bool.not_false, hV_funct3, hV_mid3, hV_r2, hV_r1]

theorem vmulVx (d : VReg) (a : VReg) (b : XReg) (m : MReg) (st : Stall) : Statement (.vmulVx d a b m st) := by
  intro c hc hw _
  obtain rfl := Option.some.inj (show some (.w32 (joinWord (hV 2 (r3 m) (r5 a) (r5 b)) (r5 d) 0x31 (r3 st))) = some c from hc)
  simp only [decodeCode, decodeWord, splitWord_joinWord, maj_31]
  simp only [decVintAVx, BitVec.ofNat_eq_ofNat, Fields.d, Fields.stall, Fields.m, Fields.mlo, zeroed, accept, x5_r5, x3_r3, x4_r4, x6_r6, mreg_m5, inMask_m5, coded_some, varLat_zero, RMode.ofCode_code, LdWidth.ofCode_code, StWidth.ofCode_code, Scope.ofCode_code, VCmpOp.ofCode_code, VFCmpOp.ofCode_code, RedOp.ofCode_code, off14_split, off19_split, decShift, decVmax, decVcmp, decVfcmp, decVm0, decVm1, decVmSc, beq_self_eq_true, Bool.and_self, ↓reduceIte, BitVec.toNat_ofNat, Nat.reducePow, Nat.reduceMod, Bool.and_true, Bool.not_false, hV_funct3, hV_mid3, hV_r2, hV_r1]

theorem vmulVi (d : VReg) (a : VReg) (imm : BitVec 5) (m : MReg) (st : Stall) : Statement (.vmulVi d a imm m st) := by
  intro c hc hw _
  obtain rfl := Option.some.inj (show some (.w32 (joinWord (hV 2 (r3 m) (r5 a) imm) (r5 d) 0x32 (r3 st))) = some c from hc)
  simp only [decodeCode, decodeWord, splitWord_joinWord, maj_32]
  simp only [decVintAVi, BitVec.ofNat_eq_ofNat, Fields.d, Fields.stall, Fields.m, Fields.mlo, zeroed, accept, x5_r5, x3_r3, x4_r4, x6_r6, mreg_m5, inMask_m5, coded_some, varLat_zero, RMode.ofCode_code, LdWidth.ofCode_code, StWidth.ofCode_code, Scope.ofCode_code, VCmpOp.ofCode_code, VFCmpOp.ofCode_code, RedOp.ofCode_code, off14_split, off19_split, decShift, decVmax, decVcmp, decVfcmp, decVm0, decVm1, decVmSc, beq_self_eq_true, Bool.and_self, ↓reduceIte, BitVec.toNat_ofNat, Nat.reducePow, Nat.reduceMod, Bool.and_true, Bool.not_false, hV_funct3, hV_mid3, hV_r2, hV_r1]

theorem vmulhVv (d : VReg) (a : VReg) (b : VReg) (m : MReg) (st : Stall) : Statement (.vmulhVv d a b m st) := by
  intro c hc hw _
  obtain rfl := Option.some.inj (show some (.w32 (joinWord (hV 3 (r3 m) (r5 a) (r5 b)) (r5 d) 0x30 (r3 st))) = some c from hc)
  simp only [decodeCode, decodeWord, splitWord_joinWord, maj_30]
  simp only [decVintAVv, BitVec.ofNat_eq_ofNat, Fields.d, Fields.stall, Fields.m, Fields.mlo, zeroed, accept, x5_r5, x3_r3, x4_r4, x6_r6, mreg_m5, inMask_m5, coded_some, varLat_zero, RMode.ofCode_code, LdWidth.ofCode_code, StWidth.ofCode_code, Scope.ofCode_code, VCmpOp.ofCode_code, VFCmpOp.ofCode_code, RedOp.ofCode_code, off14_split, off19_split, decShift, decVmax, decVcmp, decVfcmp, decVm0, decVm1, decVmSc, beq_self_eq_true, Bool.and_self, ↓reduceIte, BitVec.toNat_ofNat, Nat.reducePow, Nat.reduceMod, Bool.and_true, Bool.not_false, hV_funct3, hV_mid3, hV_r2, hV_r1]

theorem vmulhVx (d : VReg) (a : VReg) (b : XReg) (m : MReg) (st : Stall) : Statement (.vmulhVx d a b m st) := by
  intro c hc hw _
  obtain rfl := Option.some.inj (show some (.w32 (joinWord (hV 3 (r3 m) (r5 a) (r5 b)) (r5 d) 0x31 (r3 st))) = some c from hc)
  simp only [decodeCode, decodeWord, splitWord_joinWord, maj_31]
  simp only [decVintAVx, BitVec.ofNat_eq_ofNat, Fields.d, Fields.stall, Fields.m, Fields.mlo, zeroed, accept, x5_r5, x3_r3, x4_r4, x6_r6, mreg_m5, inMask_m5, coded_some, varLat_zero, RMode.ofCode_code, LdWidth.ofCode_code, StWidth.ofCode_code, Scope.ofCode_code, VCmpOp.ofCode_code, VFCmpOp.ofCode_code, RedOp.ofCode_code, off14_split, off19_split, decShift, decVmax, decVcmp, decVfcmp, decVm0, decVm1, decVmSc, beq_self_eq_true, Bool.and_self, ↓reduceIte, BitVec.toNat_ofNat, Nat.reducePow, Nat.reduceMod, Bool.and_true, Bool.not_false, hV_funct3, hV_mid3, hV_r2, hV_r1]

theorem vmulhVi (d : VReg) (a : VReg) (imm : BitVec 5) (m : MReg) (st : Stall) : Statement (.vmulhVi d a imm m st) := by
  intro c hc hw _
  obtain rfl := Option.some.inj (show some (.w32 (joinWord (hV 3 (r3 m) (r5 a) imm) (r5 d) 0x32 (r3 st))) = some c from hc)
  simp only [decodeCode, decodeWord, splitWord_joinWord, maj_32]
  simp only [decVintAVi, BitVec.ofNat_eq_ofNat, Fields.d, Fields.stall, Fields.m, Fields.mlo, zeroed, accept, x5_r5, x3_r3, x4_r4, x6_r6, mreg_m5, inMask_m5, coded_some, varLat_zero, RMode.ofCode_code, LdWidth.ofCode_code, StWidth.ofCode_code, Scope.ofCode_code, VCmpOp.ofCode_code, VFCmpOp.ofCode_code, RedOp.ofCode_code, off14_split, off19_split, decShift, decVmax, decVcmp, decVfcmp, decVm0, decVm1, decVmSc, beq_self_eq_true, Bool.and_self, ↓reduceIte, BitVec.toNat_ofNat, Nat.reducePow, Nat.reduceMod, Bool.and_true, Bool.not_false, hV_funct3, hV_mid3, hV_r2, hV_r1]

theorem vmaccVv (d : VReg) (a : VReg) (b : VReg) (m : MReg) (st : Stall) : Statement (.vmaccVv d a b m st) := by
  intro c hc hw _
  obtain rfl := Option.some.inj (show some (.w32 (joinWord (hV 4 (r3 m) (r5 a) (r5 b)) (r5 d) 0x30 (r3 st))) = some c from hc)
  simp only [decodeCode, decodeWord, splitWord_joinWord, maj_30]
  simp only [decVintAVv, BitVec.ofNat_eq_ofNat, Fields.d, Fields.stall, Fields.m, Fields.mlo, zeroed, accept, x5_r5, x3_r3, x4_r4, x6_r6, mreg_m5, inMask_m5, coded_some, varLat_zero, RMode.ofCode_code, LdWidth.ofCode_code, StWidth.ofCode_code, Scope.ofCode_code, VCmpOp.ofCode_code, VFCmpOp.ofCode_code, RedOp.ofCode_code, off14_split, off19_split, decShift, decVmax, decVcmp, decVfcmp, decVm0, decVm1, decVmSc, beq_self_eq_true, Bool.and_self, ↓reduceIte, BitVec.toNat_ofNat, Nat.reducePow, Nat.reduceMod, Bool.and_true, Bool.not_false, hV_funct3, hV_mid3, hV_r2, hV_r1]

theorem vmaccVx (d : VReg) (a : VReg) (b : XReg) (m : MReg) (st : Stall) : Statement (.vmaccVx d a b m st) := by
  intro c hc hw _
  obtain rfl := Option.some.inj (show some (.w32 (joinWord (hV 4 (r3 m) (r5 a) (r5 b)) (r5 d) 0x31 (r3 st))) = some c from hc)
  simp only [decodeCode, decodeWord, splitWord_joinWord, maj_31]
  simp only [decVintAVx, BitVec.ofNat_eq_ofNat, Fields.d, Fields.stall, Fields.m, Fields.mlo, zeroed, accept, x5_r5, x3_r3, x4_r4, x6_r6, mreg_m5, inMask_m5, coded_some, varLat_zero, RMode.ofCode_code, LdWidth.ofCode_code, StWidth.ofCode_code, Scope.ofCode_code, VCmpOp.ofCode_code, VFCmpOp.ofCode_code, RedOp.ofCode_code, off14_split, off19_split, decShift, decVmax, decVcmp, decVfcmp, decVm0, decVm1, decVmSc, beq_self_eq_true, Bool.and_self, ↓reduceIte, BitVec.toNat_ofNat, Nat.reducePow, Nat.reduceMod, Bool.and_true, Bool.not_false, hV_funct3, hV_mid3, hV_r2, hV_r1]

theorem vmaccVi (d : VReg) (a : VReg) (imm : BitVec 5) (m : MReg) (st : Stall) : Statement (.vmaccVi d a imm m st) := by
  intro c hc hw _
  obtain rfl := Option.some.inj (show some (.w32 (joinWord (hV 4 (r3 m) (r5 a) imm) (r5 d) 0x32 (r3 st))) = some c from hc)
  simp only [decodeCode, decodeWord, splitWord_joinWord, maj_32]
  simp only [decVintAVi, BitVec.ofNat_eq_ofNat, Fields.d, Fields.stall, Fields.m, Fields.mlo, zeroed, accept, x5_r5, x3_r3, x4_r4, x6_r6, mreg_m5, inMask_m5, coded_some, varLat_zero, RMode.ofCode_code, LdWidth.ofCode_code, StWidth.ofCode_code, Scope.ofCode_code, VCmpOp.ofCode_code, VFCmpOp.ofCode_code, RedOp.ofCode_code, off14_split, off19_split, decShift, decVmax, decVcmp, decVfcmp, decVm0, decVm1, decVmSc, beq_self_eq_true, Bool.and_self, ↓reduceIte, BitVec.toNat_ofNat, Nat.reducePow, Nat.reduceMod, Bool.and_true, Bool.not_false, hV_funct3, hV_mid3, hV_r2, hV_r1]

theorem vdivVv (d : VReg) (a : VReg) (b : VReg) (m : MReg) (st : Stall) : Statement (.vdivVv d a b m st) := by
  intro c hc hw _
  obtain rfl := Option.some.inj (show some (.w32 (joinWord (hV 5 (r3 m) (r5 a) (r5 b)) (r5 d) 0x30 (r3 st))) = some c from hc)
  simp only [decodeCode, decodeWord, splitWord_joinWord, maj_30]
  simp only [decVintAVv, BitVec.ofNat_eq_ofNat, Fields.d, Fields.stall, Fields.m, Fields.mlo, zeroed, accept, x5_r5, x3_r3, x4_r4, x6_r6, mreg_m5, inMask_m5, coded_some, varLat_zero, RMode.ofCode_code, LdWidth.ofCode_code, StWidth.ofCode_code, Scope.ofCode_code, VCmpOp.ofCode_code, VFCmpOp.ofCode_code, RedOp.ofCode_code, off14_split, off19_split, decShift, decVmax, decVcmp, decVfcmp, decVm0, decVm1, decVmSc, beq_self_eq_true, Bool.and_self, ↓reduceIte, BitVec.toNat_ofNat, Nat.reducePow, Nat.reduceMod, Bool.and_true, Bool.not_false, hV_funct3, hV_mid3, hV_r2, hV_r1]

theorem vdivVx (d : VReg) (a : VReg) (b : XReg) (m : MReg) (st : Stall) : Statement (.vdivVx d a b m st) := by
  intro c hc hw _
  obtain rfl := Option.some.inj (show some (.w32 (joinWord (hV 5 (r3 m) (r5 a) (r5 b)) (r5 d) 0x31 (r3 st))) = some c from hc)
  simp only [decodeCode, decodeWord, splitWord_joinWord, maj_31]
  simp only [decVintAVx, BitVec.ofNat_eq_ofNat, Fields.d, Fields.stall, Fields.m, Fields.mlo, zeroed, accept, x5_r5, x3_r3, x4_r4, x6_r6, mreg_m5, inMask_m5, coded_some, varLat_zero, RMode.ofCode_code, LdWidth.ofCode_code, StWidth.ofCode_code, Scope.ofCode_code, VCmpOp.ofCode_code, VFCmpOp.ofCode_code, RedOp.ofCode_code, off14_split, off19_split, decShift, decVmax, decVcmp, decVfcmp, decVm0, decVm1, decVmSc, beq_self_eq_true, Bool.and_self, ↓reduceIte, BitVec.toNat_ofNat, Nat.reducePow, Nat.reduceMod, Bool.and_true, Bool.not_false, hV_funct3, hV_mid3, hV_r2, hV_r1]

theorem vdivVi (d : VReg) (a : VReg) (imm : BitVec 5) (m : MReg) (st : Stall) : Statement (.vdivVi d a imm m st) := by
  intro c hc hw _
  obtain rfl := Option.some.inj (show some (.w32 (joinWord (hV 5 (r3 m) (r5 a) imm) (r5 d) 0x32 (r3 st))) = some c from hc)
  simp only [decodeCode, decodeWord, splitWord_joinWord, maj_32]
  simp only [decVintAVi, BitVec.ofNat_eq_ofNat, Fields.d, Fields.stall, Fields.m, Fields.mlo, zeroed, accept, x5_r5, x3_r3, x4_r4, x6_r6, mreg_m5, inMask_m5, coded_some, varLat_zero, RMode.ofCode_code, LdWidth.ofCode_code, StWidth.ofCode_code, Scope.ofCode_code, VCmpOp.ofCode_code, VFCmpOp.ofCode_code, RedOp.ofCode_code, off14_split, off19_split, decShift, decVmax, decVcmp, decVfcmp, decVm0, decVm1, decVmSc, beq_self_eq_true, Bool.and_self, ↓reduceIte, BitVec.toNat_ofNat, Nat.reducePow, Nat.reduceMod, Bool.and_true, Bool.not_false, hV_funct3, hV_mid3, hV_r2, hV_r1]

theorem vremVv (d : VReg) (a : VReg) (b : VReg) (m : MReg) (st : Stall) : Statement (.vremVv d a b m st) := by
  intro c hc hw _
  obtain rfl := Option.some.inj (show some (.w32 (joinWord (hV 6 (r3 m) (r5 a) (r5 b)) (r5 d) 0x30 (r3 st))) = some c from hc)
  simp only [decodeCode, decodeWord, splitWord_joinWord, maj_30]
  simp only [decVintAVv, BitVec.ofNat_eq_ofNat, Fields.d, Fields.stall, Fields.m, Fields.mlo, zeroed, accept, x5_r5, x3_r3, x4_r4, x6_r6, mreg_m5, inMask_m5, coded_some, varLat_zero, RMode.ofCode_code, LdWidth.ofCode_code, StWidth.ofCode_code, Scope.ofCode_code, VCmpOp.ofCode_code, VFCmpOp.ofCode_code, RedOp.ofCode_code, off14_split, off19_split, decShift, decVmax, decVcmp, decVfcmp, decVm0, decVm1, decVmSc, beq_self_eq_true, Bool.and_self, ↓reduceIte, BitVec.toNat_ofNat, Nat.reducePow, Nat.reduceMod, Bool.and_true, Bool.not_false, hV_funct3, hV_mid3, hV_r2, hV_r1]

theorem vremVx (d : VReg) (a : VReg) (b : XReg) (m : MReg) (st : Stall) : Statement (.vremVx d a b m st) := by
  intro c hc hw _
  obtain rfl := Option.some.inj (show some (.w32 (joinWord (hV 6 (r3 m) (r5 a) (r5 b)) (r5 d) 0x31 (r3 st))) = some c from hc)
  simp only [decodeCode, decodeWord, splitWord_joinWord, maj_31]
  simp only [decVintAVx, BitVec.ofNat_eq_ofNat, Fields.d, Fields.stall, Fields.m, Fields.mlo, zeroed, accept, x5_r5, x3_r3, x4_r4, x6_r6, mreg_m5, inMask_m5, coded_some, varLat_zero, RMode.ofCode_code, LdWidth.ofCode_code, StWidth.ofCode_code, Scope.ofCode_code, VCmpOp.ofCode_code, VFCmpOp.ofCode_code, RedOp.ofCode_code, off14_split, off19_split, decShift, decVmax, decVcmp, decVfcmp, decVm0, decVm1, decVmSc, beq_self_eq_true, Bool.and_self, ↓reduceIte, BitVec.toNat_ofNat, Nat.reducePow, Nat.reduceMod, Bool.and_true, Bool.not_false, hV_funct3, hV_mid3, hV_r2, hV_r1]

theorem vremVi (d : VReg) (a : VReg) (imm : BitVec 5) (m : MReg) (st : Stall) : Statement (.vremVi d a imm m st) := by
  intro c hc hw _
  obtain rfl := Option.some.inj (show some (.w32 (joinWord (hV 6 (r3 m) (r5 a) imm) (r5 d) 0x32 (r3 st))) = some c from hc)
  simp only [decodeCode, decodeWord, splitWord_joinWord, maj_32]
  simp only [decVintAVi, BitVec.ofNat_eq_ofNat, Fields.d, Fields.stall, Fields.m, Fields.mlo, zeroed, accept, x5_r5, x3_r3, x4_r4, x6_r6, mreg_m5, inMask_m5, coded_some, varLat_zero, RMode.ofCode_code, LdWidth.ofCode_code, StWidth.ofCode_code, Scope.ofCode_code, VCmpOp.ofCode_code, VFCmpOp.ofCode_code, RedOp.ofCode_code, off14_split, off19_split, decShift, decVmax, decVcmp, decVfcmp, decVm0, decVm1, decVmSc, beq_self_eq_true, Bool.and_self, ↓reduceIte, BitVec.toNat_ofNat, Nat.reducePow, Nat.reduceMod, Bool.and_true, Bool.not_false, hV_funct3, hV_mid3, hV_r2, hV_r1]

theorem vminVv (d : VReg) (a : VReg) (b : VReg) (m : MReg) (st : Stall) : Statement (.vminVv d a b m st) := by
  intro c hc hw _
  obtain rfl := Option.some.inj (show some (.w32 (joinWord (hV 7 (r3 m) (r5 a) (r5 b)) (r5 d) 0x30 (r3 st))) = some c from hc)
  simp only [decodeCode, decodeWord, splitWord_joinWord, maj_30]
  simp only [decVintAVv, BitVec.ofNat_eq_ofNat, Fields.d, Fields.stall, Fields.m, Fields.mlo, zeroed, accept, x5_r5, x3_r3, x4_r4, x6_r6, mreg_m5, inMask_m5, coded_some, varLat_zero, RMode.ofCode_code, LdWidth.ofCode_code, StWidth.ofCode_code, Scope.ofCode_code, VCmpOp.ofCode_code, VFCmpOp.ofCode_code, RedOp.ofCode_code, off14_split, off19_split, decShift, decVmax, decVcmp, decVfcmp, decVm0, decVm1, decVmSc, beq_self_eq_true, Bool.and_self, ↓reduceIte, BitVec.toNat_ofNat, Nat.reducePow, Nat.reduceMod, Bool.and_true, Bool.not_false, hV_funct3, hV_mid3, hV_r2, hV_r1]

theorem vminVx (d : VReg) (a : VReg) (b : XReg) (m : MReg) (st : Stall) : Statement (.vminVx d a b m st) := by
  intro c hc hw _
  obtain rfl := Option.some.inj (show some (.w32 (joinWord (hV 7 (r3 m) (r5 a) (r5 b)) (r5 d) 0x31 (r3 st))) = some c from hc)
  simp only [decodeCode, decodeWord, splitWord_joinWord, maj_31]
  simp only [decVintAVx, BitVec.ofNat_eq_ofNat, Fields.d, Fields.stall, Fields.m, Fields.mlo, zeroed, accept, x5_r5, x3_r3, x4_r4, x6_r6, mreg_m5, inMask_m5, coded_some, varLat_zero, RMode.ofCode_code, LdWidth.ofCode_code, StWidth.ofCode_code, Scope.ofCode_code, VCmpOp.ofCode_code, VFCmpOp.ofCode_code, RedOp.ofCode_code, off14_split, off19_split, decShift, decVmax, decVcmp, decVfcmp, decVm0, decVm1, decVmSc, beq_self_eq_true, Bool.and_self, ↓reduceIte, BitVec.toNat_ofNat, Nat.reducePow, Nat.reduceMod, Bool.and_true, Bool.not_false, hV_funct3, hV_mid3, hV_r2, hV_r1]

theorem vminVi (d : VReg) (a : VReg) (imm : BitVec 5) (m : MReg) (st : Stall) : Statement (.vminVi d a imm m st) := by
  intro c hc hw _
  obtain rfl := Option.some.inj (show some (.w32 (joinWord (hV 7 (r3 m) (r5 a) imm) (r5 d) 0x32 (r3 st))) = some c from hc)
  simp only [decodeCode, decodeWord, splitWord_joinWord, maj_32]
  simp only [decVintAVi, BitVec.ofNat_eq_ofNat, Fields.d, Fields.stall, Fields.m, Fields.mlo, zeroed, accept, x5_r5, x3_r3, x4_r4, x6_r6, mreg_m5, inMask_m5, coded_some, varLat_zero, RMode.ofCode_code, LdWidth.ofCode_code, StWidth.ofCode_code, Scope.ofCode_code, VCmpOp.ofCode_code, VFCmpOp.ofCode_code, RedOp.ofCode_code, off14_split, off19_split, decShift, decVmax, decVcmp, decVfcmp, decVm0, decVm1, decVmSc, beq_self_eq_true, Bool.and_self, ↓reduceIte, BitVec.toNat_ofNat, Nat.reducePow, Nat.reduceMod, Bool.and_true, Bool.not_false, hV_funct3, hV_mid3, hV_r2, hV_r1]

theorem vandVv (d : VReg) (a : VReg) (b : VReg) (m : MReg) (st : Stall) : Statement (.vandVv d a b m st) := by
  intro c hc hw _
  obtain rfl := Option.some.inj (show some (.w32 (joinWord (hV 0 (r3 m) (r5 a) (r5 b)) (r5 d) 0x33 (r3 st))) = some c from hc)
  simp only [decodeCode, decodeWord, splitWord_joinWord, maj_33]
  simp only [decVintBVv, BitVec.ofNat_eq_ofNat, Fields.d, Fields.stall, Fields.m, Fields.mlo, zeroed, accept, x5_r5, x3_r3, x4_r4, x6_r6, mreg_m5, inMask_m5, coded_some, varLat_zero, RMode.ofCode_code, LdWidth.ofCode_code, StWidth.ofCode_code, Scope.ofCode_code, VCmpOp.ofCode_code, VFCmpOp.ofCode_code, RedOp.ofCode_code, off14_split, off19_split, decShift, decVmax, decVcmp, decVfcmp, decVm0, decVm1, decVmSc, beq_self_eq_true, Bool.and_self, ↓reduceIte, BitVec.toNat_ofNat, Nat.reducePow, Nat.reduceMod, Bool.and_true, Bool.not_false, hV_funct3, hV_mid3, hV_r2, hV_r1]

theorem vandVx (d : VReg) (a : VReg) (b : XReg) (m : MReg) (st : Stall) : Statement (.vandVx d a b m st) := by
  intro c hc hw _
  obtain rfl := Option.some.inj (show some (.w32 (joinWord (hV 0 (r3 m) (r5 a) (r5 b)) (r5 d) 0x34 (r3 st))) = some c from hc)
  simp only [decodeCode, decodeWord, splitWord_joinWord, maj_34]
  simp only [decVintBVx, BitVec.ofNat_eq_ofNat, Fields.d, Fields.stall, Fields.m, Fields.mlo, zeroed, accept, x5_r5, x3_r3, x4_r4, x6_r6, mreg_m5, inMask_m5, coded_some, varLat_zero, RMode.ofCode_code, LdWidth.ofCode_code, StWidth.ofCode_code, Scope.ofCode_code, VCmpOp.ofCode_code, VFCmpOp.ofCode_code, RedOp.ofCode_code, off14_split, off19_split, decShift, decVmax, decVcmp, decVfcmp, decVm0, decVm1, decVmSc, beq_self_eq_true, Bool.and_self, ↓reduceIte, BitVec.toNat_ofNat, Nat.reducePow, Nat.reduceMod, Bool.and_true, Bool.not_false, hV_funct3, hV_mid3, hV_r2, hV_r1]

theorem vandVi (d : VReg) (a : VReg) (imm : BitVec 5) (m : MReg) (st : Stall) : Statement (.vandVi d a imm m st) := by
  intro c hc hw _
  obtain rfl := Option.some.inj (show some (.w32 (joinWord (hV 0 (r3 m) (r5 a) imm) (r5 d) 0x35 (r3 st))) = some c from hc)
  simp only [decodeCode, decodeWord, splitWord_joinWord, maj_35]
  simp only [decVintBVi, BitVec.ofNat_eq_ofNat, Fields.d, Fields.stall, Fields.m, Fields.mlo, zeroed, accept, x5_r5, x3_r3, x4_r4, x6_r6, mreg_m5, inMask_m5, coded_some, varLat_zero, RMode.ofCode_code, LdWidth.ofCode_code, StWidth.ofCode_code, Scope.ofCode_code, VCmpOp.ofCode_code, VFCmpOp.ofCode_code, RedOp.ofCode_code, off14_split, off19_split, decShift, decVmax, decVcmp, decVfcmp, decVm0, decVm1, decVmSc, beq_self_eq_true, Bool.and_self, ↓reduceIte, BitVec.toNat_ofNat, Nat.reducePow, Nat.reduceMod, Bool.and_true, Bool.not_false, hV_funct3, hV_mid3, hV_r2, hV_r1]

theorem vorVv (d : VReg) (a : VReg) (b : VReg) (m : MReg) (st : Stall) : Statement (.vorVv d a b m st) := by
  intro c hc hw _
  obtain rfl := Option.some.inj (show some (.w32 (joinWord (hV 1 (r3 m) (r5 a) (r5 b)) (r5 d) 0x33 (r3 st))) = some c from hc)
  simp only [decodeCode, decodeWord, splitWord_joinWord, maj_33]
  simp only [decVintBVv, BitVec.ofNat_eq_ofNat, Fields.d, Fields.stall, Fields.m, Fields.mlo, zeroed, accept, x5_r5, x3_r3, x4_r4, x6_r6, mreg_m5, inMask_m5, coded_some, varLat_zero, RMode.ofCode_code, LdWidth.ofCode_code, StWidth.ofCode_code, Scope.ofCode_code, VCmpOp.ofCode_code, VFCmpOp.ofCode_code, RedOp.ofCode_code, off14_split, off19_split, decShift, decVmax, decVcmp, decVfcmp, decVm0, decVm1, decVmSc, beq_self_eq_true, Bool.and_self, ↓reduceIte, BitVec.toNat_ofNat, Nat.reducePow, Nat.reduceMod, Bool.and_true, Bool.not_false, hV_funct3, hV_mid3, hV_r2, hV_r1]

theorem vorVx (d : VReg) (a : VReg) (b : XReg) (m : MReg) (st : Stall) : Statement (.vorVx d a b m st) := by
  intro c hc hw _
  obtain rfl := Option.some.inj (show some (.w32 (joinWord (hV 1 (r3 m) (r5 a) (r5 b)) (r5 d) 0x34 (r3 st))) = some c from hc)
  simp only [decodeCode, decodeWord, splitWord_joinWord, maj_34]
  simp only [decVintBVx, BitVec.ofNat_eq_ofNat, Fields.d, Fields.stall, Fields.m, Fields.mlo, zeroed, accept, x5_r5, x3_r3, x4_r4, x6_r6, mreg_m5, inMask_m5, coded_some, varLat_zero, RMode.ofCode_code, LdWidth.ofCode_code, StWidth.ofCode_code, Scope.ofCode_code, VCmpOp.ofCode_code, VFCmpOp.ofCode_code, RedOp.ofCode_code, off14_split, off19_split, decShift, decVmax, decVcmp, decVfcmp, decVm0, decVm1, decVmSc, beq_self_eq_true, Bool.and_self, ↓reduceIte, BitVec.toNat_ofNat, Nat.reducePow, Nat.reduceMod, Bool.and_true, Bool.not_false, hV_funct3, hV_mid3, hV_r2, hV_r1]

theorem vorVi (d : VReg) (a : VReg) (imm : BitVec 5) (m : MReg) (st : Stall) : Statement (.vorVi d a imm m st) := by
  intro c hc hw _
  obtain rfl := Option.some.inj (show some (.w32 (joinWord (hV 1 (r3 m) (r5 a) imm) (r5 d) 0x35 (r3 st))) = some c from hc)
  simp only [decodeCode, decodeWord, splitWord_joinWord, maj_35]
  simp only [decVintBVi, BitVec.ofNat_eq_ofNat, Fields.d, Fields.stall, Fields.m, Fields.mlo, zeroed, accept, x5_r5, x3_r3, x4_r4, x6_r6, mreg_m5, inMask_m5, coded_some, varLat_zero, RMode.ofCode_code, LdWidth.ofCode_code, StWidth.ofCode_code, Scope.ofCode_code, VCmpOp.ofCode_code, VFCmpOp.ofCode_code, RedOp.ofCode_code, off14_split, off19_split, decShift, decVmax, decVcmp, decVfcmp, decVm0, decVm1, decVmSc, beq_self_eq_true, Bool.and_self, ↓reduceIte, BitVec.toNat_ofNat, Nat.reducePow, Nat.reduceMod, Bool.and_true, Bool.not_false, hV_funct3, hV_mid3, hV_r2, hV_r1]

theorem vxorVv (d : VReg) (a : VReg) (b : VReg) (m : MReg) (st : Stall) : Statement (.vxorVv d a b m st) := by
  intro c hc hw _
  obtain rfl := Option.some.inj (show some (.w32 (joinWord (hV 2 (r3 m) (r5 a) (r5 b)) (r5 d) 0x33 (r3 st))) = some c from hc)
  simp only [decodeCode, decodeWord, splitWord_joinWord, maj_33]
  simp only [decVintBVv, BitVec.ofNat_eq_ofNat, Fields.d, Fields.stall, Fields.m, Fields.mlo, zeroed, accept, x5_r5, x3_r3, x4_r4, x6_r6, mreg_m5, inMask_m5, coded_some, varLat_zero, RMode.ofCode_code, LdWidth.ofCode_code, StWidth.ofCode_code, Scope.ofCode_code, VCmpOp.ofCode_code, VFCmpOp.ofCode_code, RedOp.ofCode_code, off14_split, off19_split, decShift, decVmax, decVcmp, decVfcmp, decVm0, decVm1, decVmSc, beq_self_eq_true, Bool.and_self, ↓reduceIte, BitVec.toNat_ofNat, Nat.reducePow, Nat.reduceMod, Bool.and_true, Bool.not_false, hV_funct3, hV_mid3, hV_r2, hV_r1]

theorem vxorVx (d : VReg) (a : VReg) (b : XReg) (m : MReg) (st : Stall) : Statement (.vxorVx d a b m st) := by
  intro c hc hw _
  obtain rfl := Option.some.inj (show some (.w32 (joinWord (hV 2 (r3 m) (r5 a) (r5 b)) (r5 d) 0x34 (r3 st))) = some c from hc)
  simp only [decodeCode, decodeWord, splitWord_joinWord, maj_34]
  simp only [decVintBVx, BitVec.ofNat_eq_ofNat, Fields.d, Fields.stall, Fields.m, Fields.mlo, zeroed, accept, x5_r5, x3_r3, x4_r4, x6_r6, mreg_m5, inMask_m5, coded_some, varLat_zero, RMode.ofCode_code, LdWidth.ofCode_code, StWidth.ofCode_code, Scope.ofCode_code, VCmpOp.ofCode_code, VFCmpOp.ofCode_code, RedOp.ofCode_code, off14_split, off19_split, decShift, decVmax, decVcmp, decVfcmp, decVm0, decVm1, decVmSc, beq_self_eq_true, Bool.and_self, ↓reduceIte, BitVec.toNat_ofNat, Nat.reducePow, Nat.reduceMod, Bool.and_true, Bool.not_false, hV_funct3, hV_mid3, hV_r2, hV_r1]

theorem vxorVi (d : VReg) (a : VReg) (imm : BitVec 5) (m : MReg) (st : Stall) : Statement (.vxorVi d a imm m st) := by
  intro c hc hw _
  obtain rfl := Option.some.inj (show some (.w32 (joinWord (hV 2 (r3 m) (r5 a) imm) (r5 d) 0x35 (r3 st))) = some c from hc)
  simp only [decodeCode, decodeWord, splitWord_joinWord, maj_35]
  simp only [decVintBVi, BitVec.ofNat_eq_ofNat, Fields.d, Fields.stall, Fields.m, Fields.mlo, zeroed, accept, x5_r5, x3_r3, x4_r4, x6_r6, mreg_m5, inMask_m5, coded_some, varLat_zero, RMode.ofCode_code, LdWidth.ofCode_code, StWidth.ofCode_code, Scope.ofCode_code, VCmpOp.ofCode_code, VFCmpOp.ofCode_code, RedOp.ofCode_code, off14_split, off19_split, decShift, decVmax, decVcmp, decVfcmp, decVm0, decVm1, decVmSc, beq_self_eq_true, Bool.and_self, ↓reduceIte, BitVec.toNat_ofNat, Nat.reducePow, Nat.reduceMod, Bool.and_true, Bool.not_false, hV_funct3, hV_mid3, hV_r2, hV_r1]

theorem vshlVv (d : VReg) (a : VReg) (b : VReg) (m : MReg) (st : Stall) : Statement (.vshlVv d a b m st) := by
  intro c hc hw _
  obtain rfl := Option.some.inj (show some (.w32 (joinWord (hV 3 (r3 m) (r5 a) (r5 b)) (r5 d) 0x33 (r3 st))) = some c from hc)
  simp only [decodeCode, decodeWord, splitWord_joinWord, maj_33]
  simp only [decVintBVv, BitVec.ofNat_eq_ofNat, Fields.d, Fields.stall, Fields.m, Fields.mlo, zeroed, accept, x5_r5, x3_r3, x4_r4, x6_r6, mreg_m5, inMask_m5, coded_some, varLat_zero, RMode.ofCode_code, LdWidth.ofCode_code, StWidth.ofCode_code, Scope.ofCode_code, VCmpOp.ofCode_code, VFCmpOp.ofCode_code, RedOp.ofCode_code, off14_split, off19_split, decShift, decVmax, decVcmp, decVfcmp, decVm0, decVm1, decVmSc, beq_self_eq_true, Bool.and_self, ↓reduceIte, BitVec.toNat_ofNat, Nat.reducePow, Nat.reduceMod, Bool.and_true, Bool.not_false, hV_funct3, hV_mid3, hV_r2, hV_r1]

theorem vshlVx (d : VReg) (a : VReg) (b : XReg) (m : MReg) (st : Stall) : Statement (.vshlVx d a b m st) := by
  intro c hc hw _
  obtain rfl := Option.some.inj (show some (.w32 (joinWord (hV 3 (r3 m) (r5 a) (r5 b)) (r5 d) 0x34 (r3 st))) = some c from hc)
  simp only [decodeCode, decodeWord, splitWord_joinWord, maj_34]
  simp only [decVintBVx, BitVec.ofNat_eq_ofNat, Fields.d, Fields.stall, Fields.m, Fields.mlo, zeroed, accept, x5_r5, x3_r3, x4_r4, x6_r6, mreg_m5, inMask_m5, coded_some, varLat_zero, RMode.ofCode_code, LdWidth.ofCode_code, StWidth.ofCode_code, Scope.ofCode_code, VCmpOp.ofCode_code, VFCmpOp.ofCode_code, RedOp.ofCode_code, off14_split, off19_split, decShift, decVmax, decVcmp, decVfcmp, decVm0, decVm1, decVmSc, beq_self_eq_true, Bool.and_self, ↓reduceIte, BitVec.toNat_ofNat, Nat.reducePow, Nat.reduceMod, Bool.and_true, Bool.not_false, hV_funct3, hV_mid3, hV_r2, hV_r1]

theorem vshlVi (d : VReg) (a : VReg) (imm : BitVec 5) (m : MReg) (st : Stall) : Statement (.vshlVi d a imm m st) := by
  intro c hc hw _
  obtain rfl := Option.some.inj (show some (.w32 (joinWord (hV 3 (r3 m) (r5 a) imm) (r5 d) 0x35 (r3 st))) = some c from hc)
  simp only [decodeCode, decodeWord, splitWord_joinWord, maj_35]
  simp only [decVintBVi, BitVec.ofNat_eq_ofNat, Fields.d, Fields.stall, Fields.m, Fields.mlo, zeroed, accept, x5_r5, x3_r3, x4_r4, x6_r6, mreg_m5, inMask_m5, coded_some, varLat_zero, RMode.ofCode_code, LdWidth.ofCode_code, StWidth.ofCode_code, Scope.ofCode_code, VCmpOp.ofCode_code, VFCmpOp.ofCode_code, RedOp.ofCode_code, off14_split, off19_split, decShift, decVmax, decVcmp, decVfcmp, decVm0, decVm1, decVmSc, beq_self_eq_true, Bool.and_self, ↓reduceIte, BitVec.toNat_ofNat, Nat.reducePow, Nat.reduceMod, Bool.and_true, Bool.not_false, hV_funct3, hV_mid3, hV_r2, hV_r1]

theorem vshrVv (d : VReg) (a : VReg) (b : VReg) (m : MReg) (st : Stall) : Statement (.vshrVv d a b m st) := by
  intro c hc hw _
  obtain rfl := Option.some.inj (show some (.w32 (joinWord (hV 4 (r3 m) (r5 a) (r5 b)) (r5 d) 0x33 (r3 st))) = some c from hc)
  simp only [decodeCode, decodeWord, splitWord_joinWord, maj_33]
  simp only [decVintBVv, BitVec.ofNat_eq_ofNat, Fields.d, Fields.stall, Fields.m, Fields.mlo, zeroed, accept, x5_r5, x3_r3, x4_r4, x6_r6, mreg_m5, inMask_m5, coded_some, varLat_zero, RMode.ofCode_code, LdWidth.ofCode_code, StWidth.ofCode_code, Scope.ofCode_code, VCmpOp.ofCode_code, VFCmpOp.ofCode_code, RedOp.ofCode_code, off14_split, off19_split, decShift, decVmax, decVcmp, decVfcmp, decVm0, decVm1, decVmSc, beq_self_eq_true, Bool.and_self, ↓reduceIte, BitVec.toNat_ofNat, Nat.reducePow, Nat.reduceMod, Bool.and_true, Bool.not_false, hV_funct3, hV_mid3, hV_r2, hV_r1]

theorem vshrVx (d : VReg) (a : VReg) (b : XReg) (m : MReg) (st : Stall) : Statement (.vshrVx d a b m st) := by
  intro c hc hw _
  obtain rfl := Option.some.inj (show some (.w32 (joinWord (hV 4 (r3 m) (r5 a) (r5 b)) (r5 d) 0x34 (r3 st))) = some c from hc)
  simp only [decodeCode, decodeWord, splitWord_joinWord, maj_34]
  simp only [decVintBVx, BitVec.ofNat_eq_ofNat, Fields.d, Fields.stall, Fields.m, Fields.mlo, zeroed, accept, x5_r5, x3_r3, x4_r4, x6_r6, mreg_m5, inMask_m5, coded_some, varLat_zero, RMode.ofCode_code, LdWidth.ofCode_code, StWidth.ofCode_code, Scope.ofCode_code, VCmpOp.ofCode_code, VFCmpOp.ofCode_code, RedOp.ofCode_code, off14_split, off19_split, decShift, decVmax, decVcmp, decVfcmp, decVm0, decVm1, decVmSc, beq_self_eq_true, Bool.and_self, ↓reduceIte, BitVec.toNat_ofNat, Nat.reducePow, Nat.reduceMod, Bool.and_true, Bool.not_false, hV_funct3, hV_mid3, hV_r2, hV_r1]

theorem vshrVi (d : VReg) (a : VReg) (imm : BitVec 5) (m : MReg) (st : Stall) : Statement (.vshrVi d a imm m st) := by
  intro c hc hw _
  obtain rfl := Option.some.inj (show some (.w32 (joinWord (hV 4 (r3 m) (r5 a) imm) (r5 d) 0x35 (r3 st))) = some c from hc)
  simp only [decodeCode, decodeWord, splitWord_joinWord, maj_35]
  simp only [decVintBVi, BitVec.ofNat_eq_ofNat, Fields.d, Fields.stall, Fields.m, Fields.mlo, zeroed, accept, x5_r5, x3_r3, x4_r4, x6_r6, mreg_m5, inMask_m5, coded_some, varLat_zero, RMode.ofCode_code, LdWidth.ofCode_code, StWidth.ofCode_code, Scope.ofCode_code, VCmpOp.ofCode_code, VFCmpOp.ofCode_code, RedOp.ofCode_code, off14_split, off19_split, decShift, decVmax, decVcmp, decVfcmp, decVm0, decVm1, decVmSc, beq_self_eq_true, Bool.and_self, ↓reduceIte, BitVec.toNat_ofNat, Nat.reducePow, Nat.reduceMod, Bool.and_true, Bool.not_false, hV_funct3, hV_mid3, hV_r2, hV_r1]

theorem vsraVv (d : VReg) (a : VReg) (b : VReg) (m : MReg) (st : Stall) : Statement (.vsraVv d a b m st) := by
  intro c hc hw _
  obtain rfl := Option.some.inj (show some (.w32 (joinWord (hV 5 (r3 m) (r5 a) (r5 b)) (r5 d) 0x33 (r3 st))) = some c from hc)
  simp only [decodeCode, decodeWord, splitWord_joinWord, maj_33]
  simp only [decVintBVv, BitVec.ofNat_eq_ofNat, Fields.d, Fields.stall, Fields.m, Fields.mlo, zeroed, accept, x5_r5, x3_r3, x4_r4, x6_r6, mreg_m5, inMask_m5, coded_some, varLat_zero, RMode.ofCode_code, LdWidth.ofCode_code, StWidth.ofCode_code, Scope.ofCode_code, VCmpOp.ofCode_code, VFCmpOp.ofCode_code, RedOp.ofCode_code, off14_split, off19_split, decShift, decVmax, decVcmp, decVfcmp, decVm0, decVm1, decVmSc, beq_self_eq_true, Bool.and_self, ↓reduceIte, BitVec.toNat_ofNat, Nat.reducePow, Nat.reduceMod, Bool.and_true, Bool.not_false, hV_funct3, hV_mid3, hV_r2, hV_r1]

theorem vsraVx (d : VReg) (a : VReg) (b : XReg) (m : MReg) (st : Stall) : Statement (.vsraVx d a b m st) := by
  intro c hc hw _
  obtain rfl := Option.some.inj (show some (.w32 (joinWord (hV 5 (r3 m) (r5 a) (r5 b)) (r5 d) 0x34 (r3 st))) = some c from hc)
  simp only [decodeCode, decodeWord, splitWord_joinWord, maj_34]
  simp only [decVintBVx, BitVec.ofNat_eq_ofNat, Fields.d, Fields.stall, Fields.m, Fields.mlo, zeroed, accept, x5_r5, x3_r3, x4_r4, x6_r6, mreg_m5, inMask_m5, coded_some, varLat_zero, RMode.ofCode_code, LdWidth.ofCode_code, StWidth.ofCode_code, Scope.ofCode_code, VCmpOp.ofCode_code, VFCmpOp.ofCode_code, RedOp.ofCode_code, off14_split, off19_split, decShift, decVmax, decVcmp, decVfcmp, decVm0, decVm1, decVmSc, beq_self_eq_true, Bool.and_self, ↓reduceIte, BitVec.toNat_ofNat, Nat.reducePow, Nat.reduceMod, Bool.and_true, Bool.not_false, hV_funct3, hV_mid3, hV_r2, hV_r1]

theorem vsraVi (d : VReg) (a : VReg) (imm : BitVec 5) (m : MReg) (st : Stall) : Statement (.vsraVi d a imm m st) := by
  intro c hc hw _
  obtain rfl := Option.some.inj (show some (.w32 (joinWord (hV 5 (r3 m) (r5 a) imm) (r5 d) 0x35 (r3 st))) = some c from hc)
  simp only [decodeCode, decodeWord, splitWord_joinWord, maj_35]
  simp only [decVintBVi, BitVec.ofNat_eq_ofNat, Fields.d, Fields.stall, Fields.m, Fields.mlo, zeroed, accept, x5_r5, x3_r3, x4_r4, x6_r6, mreg_m5, inMask_m5, coded_some, varLat_zero, RMode.ofCode_code, LdWidth.ofCode_code, StWidth.ofCode_code, Scope.ofCode_code, VCmpOp.ofCode_code, VFCmpOp.ofCode_code, RedOp.ofCode_code, off14_split, off19_split, decShift, decVmax, decVcmp, decVfcmp, decVm0, decVm1, decVmSc, beq_self_eq_true, Bool.and_self, ↓reduceIte, BitVec.toNat_ofNat, Nat.reducePow, Nat.reduceMod, Bool.and_true, Bool.not_false, hV_funct3, hV_mid3, hV_r2, hV_r1]

theorem vsaddVv (d : VReg) (a : VReg) (b : VReg) (m : MReg) (st : Stall) : Statement (.vsaddVv d a b m st) := by
  intro c hc hw _
  obtain rfl := Option.some.inj (show some (.w32 (joinWord (hV 6 (r3 m) (r5 a) (r5 b)) (r5 d) 0x33 (r3 st))) = some c from hc)
  simp only [decodeCode, decodeWord, splitWord_joinWord, maj_33]
  simp only [decVintBVv, BitVec.ofNat_eq_ofNat, Fields.d, Fields.stall, Fields.m, Fields.mlo, zeroed, accept, x5_r5, x3_r3, x4_r4, x6_r6, mreg_m5, inMask_m5, coded_some, varLat_zero, RMode.ofCode_code, LdWidth.ofCode_code, StWidth.ofCode_code, Scope.ofCode_code, VCmpOp.ofCode_code, VFCmpOp.ofCode_code, RedOp.ofCode_code, off14_split, off19_split, decShift, decVmax, decVcmp, decVfcmp, decVm0, decVm1, decVmSc, beq_self_eq_true, Bool.and_self, ↓reduceIte, BitVec.toNat_ofNat, Nat.reducePow, Nat.reduceMod, Bool.and_true, Bool.not_false, hV_funct3, hV_mid3, hV_r2, hV_r1]

theorem vsaddVx (d : VReg) (a : VReg) (b : XReg) (m : MReg) (st : Stall) : Statement (.vsaddVx d a b m st) := by
  intro c hc hw _
  obtain rfl := Option.some.inj (show some (.w32 (joinWord (hV 6 (r3 m) (r5 a) (r5 b)) (r5 d) 0x34 (r3 st))) = some c from hc)
  simp only [decodeCode, decodeWord, splitWord_joinWord, maj_34]
  simp only [decVintBVx, BitVec.ofNat_eq_ofNat, Fields.d, Fields.stall, Fields.m, Fields.mlo, zeroed, accept, x5_r5, x3_r3, x4_r4, x6_r6, mreg_m5, inMask_m5, coded_some, varLat_zero, RMode.ofCode_code, LdWidth.ofCode_code, StWidth.ofCode_code, Scope.ofCode_code, VCmpOp.ofCode_code, VFCmpOp.ofCode_code, RedOp.ofCode_code, off14_split, off19_split, decShift, decVmax, decVcmp, decVfcmp, decVm0, decVm1, decVmSc, beq_self_eq_true, Bool.and_self, ↓reduceIte, BitVec.toNat_ofNat, Nat.reducePow, Nat.reduceMod, Bool.and_true, Bool.not_false, hV_funct3, hV_mid3, hV_r2, hV_r1]

theorem vsaddVi (d : VReg) (a : VReg) (imm : BitVec 5) (m : MReg) (st : Stall) : Statement (.vsaddVi d a imm m st) := by
  intro c hc hw _
  obtain rfl := Option.some.inj (show some (.w32 (joinWord (hV 6 (r3 m) (r5 a) imm) (r5 d) 0x35 (r3 st))) = some c from hc)
  simp only [decodeCode, decodeWord, splitWord_joinWord, maj_35]
  simp only [decVintBVi, BitVec.ofNat_eq_ofNat, Fields.d, Fields.stall, Fields.m, Fields.mlo, zeroed, accept, x5_r5, x3_r3, x4_r4, x6_r6, mreg_m5, inMask_m5, coded_some, varLat_zero, RMode.ofCode_code, LdWidth.ofCode_code, StWidth.ofCode_code, Scope.ofCode_code, VCmpOp.ofCode_code, VFCmpOp.ofCode_code, RedOp.ofCode_code, off14_split, off19_split, decShift, decVmax, decVcmp, decVfcmp, decVm0, decVm1, decVmSc, beq_self_eq_true, Bool.and_self, ↓reduceIte, BitVec.toNat_ofNat, Nat.reducePow, Nat.reduceMod, Bool.and_true, Bool.not_false, hV_funct3, hV_mid3, hV_r2, hV_r1]

theorem vssubVv (d : VReg) (a : VReg) (b : VReg) (m : MReg) (st : Stall) : Statement (.vssubVv d a b m st) := by
  intro c hc hw _
  obtain rfl := Option.some.inj (show some (.w32 (joinWord (hV 7 (r3 m) (r5 a) (r5 b)) (r5 d) 0x33 (r3 st))) = some c from hc)
  simp only [decodeCode, decodeWord, splitWord_joinWord, maj_33]
  simp only [decVintBVv, BitVec.ofNat_eq_ofNat, Fields.d, Fields.stall, Fields.m, Fields.mlo, zeroed, accept, x5_r5, x3_r3, x4_r4, x6_r6, mreg_m5, inMask_m5, coded_some, varLat_zero, RMode.ofCode_code, LdWidth.ofCode_code, StWidth.ofCode_code, Scope.ofCode_code, VCmpOp.ofCode_code, VFCmpOp.ofCode_code, RedOp.ofCode_code, off14_split, off19_split, decShift, decVmax, decVcmp, decVfcmp, decVm0, decVm1, decVmSc, beq_self_eq_true, Bool.and_self, ↓reduceIte, BitVec.toNat_ofNat, Nat.reducePow, Nat.reduceMod, Bool.and_true, Bool.not_false, hV_funct3, hV_mid3, hV_r2, hV_r1]

theorem vssubVx (d : VReg) (a : VReg) (b : XReg) (m : MReg) (st : Stall) : Statement (.vssubVx d a b m st) := by
  intro c hc hw _
  obtain rfl := Option.some.inj (show some (.w32 (joinWord (hV 7 (r3 m) (r5 a) (r5 b)) (r5 d) 0x34 (r3 st))) = some c from hc)
  simp only [decodeCode, decodeWord, splitWord_joinWord, maj_34]
  simp only [decVintBVx, BitVec.ofNat_eq_ofNat, Fields.d, Fields.stall, Fields.m, Fields.mlo, zeroed, accept, x5_r5, x3_r3, x4_r4, x6_r6, mreg_m5, inMask_m5, coded_some, varLat_zero, RMode.ofCode_code, LdWidth.ofCode_code, StWidth.ofCode_code, Scope.ofCode_code, VCmpOp.ofCode_code, VFCmpOp.ofCode_code, RedOp.ofCode_code, off14_split, off19_split, decShift, decVmax, decVcmp, decVfcmp, decVm0, decVm1, decVmSc, beq_self_eq_true, Bool.and_self, ↓reduceIte, BitVec.toNat_ofNat, Nat.reducePow, Nat.reduceMod, Bool.and_true, Bool.not_false, hV_funct3, hV_mid3, hV_r2, hV_r1]

theorem vssubVi (d : VReg) (a : VReg) (imm : BitVec 5) (m : MReg) (st : Stall) : Statement (.vssubVi d a imm m st) := by
  intro c hc hw _
  obtain rfl := Option.some.inj (show some (.w32 (joinWord (hV 7 (r3 m) (r5 a) imm) (r5 d) 0x35 (r3 st))) = some c from hc)
  simp only [decodeCode, decodeWord, splitWord_joinWord, maj_35]
  simp only [decVintBVi, BitVec.ofNat_eq_ofNat, Fields.d, Fields.stall, Fields.m, Fields.mlo, zeroed, accept, x5_r5, x3_r3, x4_r4, x6_r6, mreg_m5, inMask_m5, coded_some, varLat_zero, RMode.ofCode_code, LdWidth.ofCode_code, StWidth.ofCode_code, Scope.ofCode_code, VCmpOp.ofCode_code, VFCmpOp.ofCode_code, RedOp.ofCode_code, off14_split, off19_split, decShift, decVmax, decVcmp, decVfcmp, decVm0, decVm1, decVmSc, beq_self_eq_true, Bool.and_self, ↓reduceIte, BitVec.toNat_ofNat, Nat.reducePow, Nat.reduceMod, Bool.and_true, Bool.not_false, hV_funct3, hV_mid3, hV_r2, hV_r1]

theorem vmaxVv (d : VReg) (a : VReg) (b : VReg) (m : MReg) (st : Stall) : Statement (.vmaxVv d a b m st) := by
  intro c hc hw _
  obtain rfl := Option.some.inj (show some (.w32 (joinWord (hV 0 (r3 m) (r5 a) (r5 b)) (r5 d) 0x36 (r3 st))) = some c from hc)
  simp only [decodeCode, decodeWord, splitWord_joinWord, maj_36]
  simp only [decVmax, BitVec.ofNat_eq_ofNat, Fields.d, Fields.stall, Fields.m, Fields.mlo, zeroed, accept, x5_r5, x3_r3, x4_r4, x6_r6, mreg_m5, inMask_m5, coded_some, varLat_zero, RMode.ofCode_code, LdWidth.ofCode_code, StWidth.ofCode_code, Scope.ofCode_code, VCmpOp.ofCode_code, VFCmpOp.ofCode_code, RedOp.ofCode_code, off14_split, off19_split, decShift, decVmax, decVcmp, decVfcmp, decVm0, decVm1, decVmSc, beq_self_eq_true, Bool.and_self, ↓reduceIte, BitVec.toNat_ofNat, Nat.reducePow, Nat.reduceMod, Bool.and_true, Bool.not_false, hV_funct3, hV_mid3, hV_r2, hV_r1]

theorem vmaxVx (d : VReg) (a : VReg) (b : XReg) (m : MReg) (st : Stall) : Statement (.vmaxVx d a b m st) := by
  intro c hc hw _
  obtain rfl := Option.some.inj (show some (.w32 (joinWord (hV 0 (r3 m) (r5 a) (r5 b)) (r5 d) 0x37 (r3 st))) = some c from hc)
  simp only [decodeCode, decodeWord, splitWord_joinWord, maj_37]
  simp only [decVmax, BitVec.ofNat_eq_ofNat, Fields.d, Fields.stall, Fields.m, Fields.mlo, zeroed, accept, x5_r5, x3_r3, x4_r4, x6_r6, mreg_m5, inMask_m5, coded_some, varLat_zero, RMode.ofCode_code, LdWidth.ofCode_code, StWidth.ofCode_code, Scope.ofCode_code, VCmpOp.ofCode_code, VFCmpOp.ofCode_code, RedOp.ofCode_code, off14_split, off19_split, decShift, decVmax, decVcmp, decVfcmp, decVm0, decVm1, decVmSc, beq_self_eq_true, Bool.and_self, ↓reduceIte, BitVec.toNat_ofNat, Nat.reducePow, Nat.reduceMod, Bool.and_true, Bool.not_false, hV_funct3, hV_mid3, hV_r2, hV_r1]

theorem vmaxVi (d : VReg) (a : VReg) (imm : BitVec 5) (m : MReg) (st : Stall) : Statement (.vmaxVi d a imm m st) := by
  intro c hc hw _
  obtain rfl := Option.some.inj (show some (.w32 (joinWord (hV 0 (r3 m) (r5 a) imm) (r5 d) 0x38 (r3 st))) = some c from hc)
  simp only [decodeCode, decodeWord, splitWord_joinWord, maj_38]
  simp only [decVmax, BitVec.ofNat_eq_ofNat, Fields.d, Fields.stall, Fields.m, Fields.mlo, zeroed, accept, x5_r5, x3_r3, x4_r4, x6_r6, mreg_m5, inMask_m5, coded_some, varLat_zero, RMode.ofCode_code, LdWidth.ofCode_code, StWidth.ofCode_code, Scope.ofCode_code, VCmpOp.ofCode_code, VFCmpOp.ofCode_code, RedOp.ofCode_code, off14_split, off19_split, decShift, decVmax, decVcmp, decVfcmp, decVm0, decVm1, decVmSc, beq_self_eq_true, Bool.and_self, ↓reduceIte, BitVec.toNat_ofNat, Nat.reducePow, Nat.reduceMod, Bool.and_true, Bool.not_false, hV_funct3, hV_mid3, hV_r2, hV_r1]

theorem vcmpVv (cc : VCmpOp) (d : MReg) (a : VReg) (b : VReg) (m : MReg) (st : Stall) : Statement (.vcmpVv cc d a b m st) := by
  intro c hc hw _
  obtain rfl := Option.some.inj (show some (.w32 (joinWord (hV cc.code (r3 m) (r5 a) (r5 b)) (m5 d) 0x39 (r3 st))) = some c from hc)
  simp only [decodeCode, decodeWord, splitWord_joinWord, maj_39]
  simp only [decVcmp, BitVec.ofNat_eq_ofNat, Fields.d, Fields.stall, Fields.m, Fields.mlo, zeroed, accept, x5_r5, x3_r3, x4_r4, x6_r6, mreg_m5, inMask_m5, coded_some, varLat_zero, RMode.ofCode_code, LdWidth.ofCode_code, StWidth.ofCode_code, Scope.ofCode_code, VCmpOp.ofCode_code, VFCmpOp.ofCode_code, RedOp.ofCode_code, off14_split, off19_split, decShift, decVmax, decVcmp, decVfcmp, decVm0, decVm1, decVmSc, beq_self_eq_true, Bool.and_self, ↓reduceIte, BitVec.toNat_ofNat, Nat.reducePow, Nat.reduceMod, Bool.and_true, Bool.not_false, hV_funct3, hV_mid3, hV_r2, hV_r1]

theorem vcmpVx (cc : VCmpOp) (d : MReg) (a : VReg) (b : XReg) (m : MReg) (st : Stall) : Statement (.vcmpVx cc d a b m st) := by
  intro c hc hw _
  obtain rfl := Option.some.inj (show some (.w32 (joinWord (hV cc.code (r3 m) (r5 a) (r5 b)) (m5 d) 0x3a (r3 st))) = some c from hc)
  simp only [decodeCode, decodeWord, splitWord_joinWord, maj_3A]
  simp only [decVcmp, BitVec.ofNat_eq_ofNat, Fields.d, Fields.stall, Fields.m, Fields.mlo, zeroed, accept, x5_r5, x3_r3, x4_r4, x6_r6, mreg_m5, inMask_m5, coded_some, varLat_zero, RMode.ofCode_code, LdWidth.ofCode_code, StWidth.ofCode_code, Scope.ofCode_code, VCmpOp.ofCode_code, VFCmpOp.ofCode_code, RedOp.ofCode_code, off14_split, off19_split, decShift, decVmax, decVcmp, decVfcmp, decVm0, decVm1, decVmSc, beq_self_eq_true, Bool.and_self, ↓reduceIte, BitVec.toNat_ofNat, Nat.reducePow, Nat.reduceMod, Bool.and_true, Bool.not_false, hV_funct3, hV_mid3, hV_r2, hV_r1]

theorem vcmpVi (cc : VCmpOp) (d : MReg) (a : VReg) (imm : BitVec 5) (m : MReg) (st : Stall) : Statement (.vcmpVi cc d a imm m st) := by
  intro c hc hw _
  obtain rfl := Option.some.inj (show some (.w32 (joinWord (hV cc.code (r3 m) (r5 a) imm) (m5 d) 0x3b (r3 st))) = some c from hc)
  simp only [decodeCode, decodeWord, splitWord_joinWord, maj_3B]
  simp only [decVcmp, BitVec.ofNat_eq_ofNat, Fields.d, Fields.stall, Fields.m, Fields.mlo, zeroed, accept, x5_r5, x3_r3, x4_r4, x6_r6, mreg_m5, inMask_m5, coded_some, varLat_zero, RMode.ofCode_code, LdWidth.ofCode_code, StWidth.ofCode_code, Scope.ofCode_code, VCmpOp.ofCode_code, VFCmpOp.ofCode_code, RedOp.ofCode_code, off14_split, off19_split, decShift, decVmax, decVcmp, decVfcmp, decVm0, decVm1, decVmSc, beq_self_eq_true, Bool.and_self, ↓reduceIte, BitVec.toNat_ofNat, Nat.reducePow, Nat.reduceMod, Bool.and_true, Bool.not_false, hV_funct3, hV_mid3, hV_r2, hV_r1]

theorem vfaddVv (d : VReg) (a : VReg) (b : VReg) (m : MReg) (st : Stall) : Statement (.vfaddVv d a b m st) := by
  intro c hc hw _
  obtain rfl := Option.some.inj (show some (.w32 (joinWord (hV 0 (r3 m) (r5 a) (r5 b)) (r5 d) 0x3c (r3 st))) = some c from hc)
  simp only [decodeCode, decodeWord, splitWord_joinWord, maj_3C]
  simp only [decVfpVv, BitVec.ofNat_eq_ofNat, Fields.d, Fields.stall, Fields.m, Fields.mlo, zeroed, accept, x5_r5, x3_r3, x4_r4, x6_r6, mreg_m5, inMask_m5, coded_some, varLat_zero, RMode.ofCode_code, LdWidth.ofCode_code, StWidth.ofCode_code, Scope.ofCode_code, VCmpOp.ofCode_code, VFCmpOp.ofCode_code, RedOp.ofCode_code, off14_split, off19_split, decShift, decVmax, decVcmp, decVfcmp, decVm0, decVm1, decVmSc, beq_self_eq_true, Bool.and_self, ↓reduceIte, BitVec.toNat_ofNat, Nat.reducePow, Nat.reduceMod, Bool.and_true, Bool.not_false, hV_funct3, hV_mid3, hV_r2, hV_r1]

theorem vfaddVx (d : VReg) (a : VReg) (b : XReg) (m : MReg) (st : Stall) : Statement (.vfaddVx d a b m st) := by
  intro c hc hw _
  obtain rfl := Option.some.inj (show some (.w32 (joinWord (hV 0 (r3 m) (r5 a) (r5 b)) (r5 d) 0x3d (r3 st))) = some c from hc)
  simp only [decodeCode, decodeWord, splitWord_joinWord, maj_3D]
  simp only [decVfpVx, BitVec.ofNat_eq_ofNat, Fields.d, Fields.stall, Fields.m, Fields.mlo, zeroed, accept, x5_r5, x3_r3, x4_r4, x6_r6, mreg_m5, inMask_m5, coded_some, varLat_zero, RMode.ofCode_code, LdWidth.ofCode_code, StWidth.ofCode_code, Scope.ofCode_code, VCmpOp.ofCode_code, VFCmpOp.ofCode_code, RedOp.ofCode_code, off14_split, off19_split, decShift, decVmax, decVcmp, decVfcmp, decVm0, decVm1, decVmSc, beq_self_eq_true, Bool.and_self, ↓reduceIte, BitVec.toNat_ofNat, Nat.reducePow, Nat.reduceMod, Bool.and_true, Bool.not_false, hV_funct3, hV_mid3, hV_r2, hV_r1]

theorem vfsubVv (d : VReg) (a : VReg) (b : VReg) (m : MReg) (st : Stall) : Statement (.vfsubVv d a b m st) := by
  intro c hc hw _
  obtain rfl := Option.some.inj (show some (.w32 (joinWord (hV 1 (r3 m) (r5 a) (r5 b)) (r5 d) 0x3c (r3 st))) = some c from hc)
  simp only [decodeCode, decodeWord, splitWord_joinWord, maj_3C]
  simp only [decVfpVv, BitVec.ofNat_eq_ofNat, Fields.d, Fields.stall, Fields.m, Fields.mlo, zeroed, accept, x5_r5, x3_r3, x4_r4, x6_r6, mreg_m5, inMask_m5, coded_some, varLat_zero, RMode.ofCode_code, LdWidth.ofCode_code, StWidth.ofCode_code, Scope.ofCode_code, VCmpOp.ofCode_code, VFCmpOp.ofCode_code, RedOp.ofCode_code, off14_split, off19_split, decShift, decVmax, decVcmp, decVfcmp, decVm0, decVm1, decVmSc, beq_self_eq_true, Bool.and_self, ↓reduceIte, BitVec.toNat_ofNat, Nat.reducePow, Nat.reduceMod, Bool.and_true, Bool.not_false, hV_funct3, hV_mid3, hV_r2, hV_r1]

theorem vfsubVx (d : VReg) (a : VReg) (b : XReg) (m : MReg) (st : Stall) : Statement (.vfsubVx d a b m st) := by
  intro c hc hw _
  obtain rfl := Option.some.inj (show some (.w32 (joinWord (hV 1 (r3 m) (r5 a) (r5 b)) (r5 d) 0x3d (r3 st))) = some c from hc)
  simp only [decodeCode, decodeWord, splitWord_joinWord, maj_3D]
  simp only [decVfpVx, BitVec.ofNat_eq_ofNat, Fields.d, Fields.stall, Fields.m, Fields.mlo, zeroed, accept, x5_r5, x3_r3, x4_r4, x6_r6, mreg_m5, inMask_m5, coded_some, varLat_zero, RMode.ofCode_code, LdWidth.ofCode_code, StWidth.ofCode_code, Scope.ofCode_code, VCmpOp.ofCode_code, VFCmpOp.ofCode_code, RedOp.ofCode_code, off14_split, off19_split, decShift, decVmax, decVcmp, decVfcmp, decVm0, decVm1, decVmSc, beq_self_eq_true, Bool.and_self, ↓reduceIte, BitVec.toNat_ofNat, Nat.reducePow, Nat.reduceMod, Bool.and_true, Bool.not_false, hV_funct3, hV_mid3, hV_r2, hV_r1]

theorem vfmulVv (d : VReg) (a : VReg) (b : VReg) (m : MReg) (st : Stall) : Statement (.vfmulVv d a b m st) := by
  intro c hc hw _
  obtain rfl := Option.some.inj (show some (.w32 (joinWord (hV 2 (r3 m) (r5 a) (r5 b)) (r5 d) 0x3c (r3 st))) = some c from hc)
  simp only [decodeCode, decodeWord, splitWord_joinWord, maj_3C]
  simp only [decVfpVv, BitVec.ofNat_eq_ofNat, Fields.d, Fields.stall, Fields.m, Fields.mlo, zeroed, accept, x5_r5, x3_r3, x4_r4, x6_r6, mreg_m5, inMask_m5, coded_some, varLat_zero, RMode.ofCode_code, LdWidth.ofCode_code, StWidth.ofCode_code, Scope.ofCode_code, VCmpOp.ofCode_code, VFCmpOp.ofCode_code, RedOp.ofCode_code, off14_split, off19_split, decShift, decVmax, decVcmp, decVfcmp, decVm0, decVm1, decVmSc, beq_self_eq_true, Bool.and_self, ↓reduceIte, BitVec.toNat_ofNat, Nat.reducePow, Nat.reduceMod, Bool.and_true, Bool.not_false, hV_funct3, hV_mid3, hV_r2, hV_r1]

theorem vfmulVx (d : VReg) (a : VReg) (b : XReg) (m : MReg) (st : Stall) : Statement (.vfmulVx d a b m st) := by
  intro c hc hw _
  obtain rfl := Option.some.inj (show some (.w32 (joinWord (hV 2 (r3 m) (r5 a) (r5 b)) (r5 d) 0x3d (r3 st))) = some c from hc)
  simp only [decodeCode, decodeWord, splitWord_joinWord, maj_3D]
  simp only [decVfpVx, BitVec.ofNat_eq_ofNat, Fields.d, Fields.stall, Fields.m, Fields.mlo, zeroed, accept, x5_r5, x3_r3, x4_r4, x6_r6, mreg_m5, inMask_m5, coded_some, varLat_zero, RMode.ofCode_code, LdWidth.ofCode_code, StWidth.ofCode_code, Scope.ofCode_code, VCmpOp.ofCode_code, VFCmpOp.ofCode_code, RedOp.ofCode_code, off14_split, off19_split, decShift, decVmax, decVcmp, decVfcmp, decVm0, decVm1, decVmSc, beq_self_eq_true, Bool.and_self, ↓reduceIte, BitVec.toNat_ofNat, Nat.reducePow, Nat.reduceMod, Bool.and_true, Bool.not_false, hV_funct3, hV_mid3, hV_r2, hV_r1]

theorem vfmaccVv (d : VReg) (a : VReg) (b : VReg) (m : MReg) (st : Stall) : Statement (.vfmaccVv d a b m st) := by
  intro c hc hw _
  obtain rfl := Option.some.inj (show some (.w32 (joinWord (hV 3 (r3 m) (r5 a) (r5 b)) (r5 d) 0x3c (r3 st))) = some c from hc)
  simp only [decodeCode, decodeWord, splitWord_joinWord, maj_3C]
  simp only [decVfpVv, BitVec.ofNat_eq_ofNat, Fields.d, Fields.stall, Fields.m, Fields.mlo, zeroed, accept, x5_r5, x3_r3, x4_r4, x6_r6, mreg_m5, inMask_m5, coded_some, varLat_zero, RMode.ofCode_code, LdWidth.ofCode_code, StWidth.ofCode_code, Scope.ofCode_code, VCmpOp.ofCode_code, VFCmpOp.ofCode_code, RedOp.ofCode_code, off14_split, off19_split, decShift, decVmax, decVcmp, decVfcmp, decVm0, decVm1, decVmSc, beq_self_eq_true, Bool.and_self, ↓reduceIte, BitVec.toNat_ofNat, Nat.reducePow, Nat.reduceMod, Bool.and_true, Bool.not_false, hV_funct3, hV_mid3, hV_r2, hV_r1]

theorem vfmaccVx (d : VReg) (a : VReg) (b : XReg) (m : MReg) (st : Stall) : Statement (.vfmaccVx d a b m st) := by
  intro c hc hw _
  obtain rfl := Option.some.inj (show some (.w32 (joinWord (hV 3 (r3 m) (r5 a) (r5 b)) (r5 d) 0x3d (r3 st))) = some c from hc)
  simp only [decodeCode, decodeWord, splitWord_joinWord, maj_3D]
  simp only [decVfpVx, BitVec.ofNat_eq_ofNat, Fields.d, Fields.stall, Fields.m, Fields.mlo, zeroed, accept, x5_r5, x3_r3, x4_r4, x6_r6, mreg_m5, inMask_m5, coded_some, varLat_zero, RMode.ofCode_code, LdWidth.ofCode_code, StWidth.ofCode_code, Scope.ofCode_code, VCmpOp.ofCode_code, VFCmpOp.ofCode_code, RedOp.ofCode_code, off14_split, off19_split, decShift, decVmax, decVcmp, decVfcmp, decVm0, decVm1, decVmSc, beq_self_eq_true, Bool.and_self, ↓reduceIte, BitVec.toNat_ofNat, Nat.reducePow, Nat.reduceMod, Bool.and_true, Bool.not_false, hV_funct3, hV_mid3, hV_r2, hV_r1]

theorem vfnmsacVv (d : VReg) (a : VReg) (b : VReg) (m : MReg) (st : Stall) : Statement (.vfnmsacVv d a b m st) := by
  intro c hc hw _
  obtain rfl := Option.some.inj (show some (.w32 (joinWord (hV 4 (r3 m) (r5 a) (r5 b)) (r5 d) 0x3c (r3 st))) = some c from hc)
  simp only [decodeCode, decodeWord, splitWord_joinWord, maj_3C]
  simp only [decVfpVv, BitVec.ofNat_eq_ofNat, Fields.d, Fields.stall, Fields.m, Fields.mlo, zeroed, accept, x5_r5, x3_r3, x4_r4, x6_r6, mreg_m5, inMask_m5, coded_some, varLat_zero, RMode.ofCode_code, LdWidth.ofCode_code, StWidth.ofCode_code, Scope.ofCode_code, VCmpOp.ofCode_code, VFCmpOp.ofCode_code, RedOp.ofCode_code, off14_split, off19_split, decShift, decVmax, decVcmp, decVfcmp, decVm0, decVm1, decVmSc, beq_self_eq_true, Bool.and_self, ↓reduceIte, BitVec.toNat_ofNat, Nat.reducePow, Nat.reduceMod, Bool.and_true, Bool.not_false, hV_funct3, hV_mid3, hV_r2, hV_r1]

theorem vfnmsacVx (d : VReg) (a : VReg) (b : XReg) (m : MReg) (st : Stall) : Statement (.vfnmsacVx d a b m st) := by
  intro c hc hw _
  obtain rfl := Option.some.inj (show some (.w32 (joinWord (hV 4 (r3 m) (r5 a) (r5 b)) (r5 d) 0x3d (r3 st))) = some c from hc)
  simp only [decodeCode, decodeWord, splitWord_joinWord, maj_3D]
  simp only [decVfpVx, BitVec.ofNat_eq_ofNat, Fields.d, Fields.stall, Fields.m, Fields.mlo, zeroed, accept, x5_r5, x3_r3, x4_r4, x6_r6, mreg_m5, inMask_m5, coded_some, varLat_zero, RMode.ofCode_code, LdWidth.ofCode_code, StWidth.ofCode_code, Scope.ofCode_code, VCmpOp.ofCode_code, VFCmpOp.ofCode_code, RedOp.ofCode_code, off14_split, off19_split, decShift, decVmax, decVcmp, decVfcmp, decVm0, decVm1, decVmSc, beq_self_eq_true, Bool.and_self, ↓reduceIte, BitVec.toNat_ofNat, Nat.reducePow, Nat.reduceMod, Bool.and_true, Bool.not_false, hV_funct3, hV_mid3, hV_r2, hV_r1]

theorem vfdivVv (d : VReg) (a : VReg) (b : VReg) (m : MReg) (st : Stall) : Statement (.vfdivVv d a b m st) := by
  intro c hc hw _
  obtain rfl := Option.some.inj (show some (.w32 (joinWord (hV 5 (r3 m) (r5 a) (r5 b)) (r5 d) 0x3c (r3 st))) = some c from hc)
  simp only [decodeCode, decodeWord, splitWord_joinWord, maj_3C]
  simp only [decVfpVv, BitVec.ofNat_eq_ofNat, Fields.d, Fields.stall, Fields.m, Fields.mlo, zeroed, accept, x5_r5, x3_r3, x4_r4, x6_r6, mreg_m5, inMask_m5, coded_some, varLat_zero, RMode.ofCode_code, LdWidth.ofCode_code, StWidth.ofCode_code, Scope.ofCode_code, VCmpOp.ofCode_code, VFCmpOp.ofCode_code, RedOp.ofCode_code, off14_split, off19_split, decShift, decVmax, decVcmp, decVfcmp, decVm0, decVm1, decVmSc, beq_self_eq_true, Bool.and_self, ↓reduceIte, BitVec.toNat_ofNat, Nat.reducePow, Nat.reduceMod, Bool.and_true, Bool.not_false, hV_funct3, hV_mid3, hV_r2, hV_r1]

theorem vfdivVx (d : VReg) (a : VReg) (b : XReg) (m : MReg) (st : Stall) : Statement (.vfdivVx d a b m st) := by
  intro c hc hw _
  obtain rfl := Option.some.inj (show some (.w32 (joinWord (hV 5 (r3 m) (r5 a) (r5 b)) (r5 d) 0x3d (r3 st))) = some c from hc)
  simp only [decodeCode, decodeWord, splitWord_joinWord, maj_3D]
  simp only [decVfpVx, BitVec.ofNat_eq_ofNat, Fields.d, Fields.stall, Fields.m, Fields.mlo, zeroed, accept, x5_r5, x3_r3, x4_r4, x6_r6, mreg_m5, inMask_m5, coded_some, varLat_zero, RMode.ofCode_code, LdWidth.ofCode_code, StWidth.ofCode_code, Scope.ofCode_code, VCmpOp.ofCode_code, VFCmpOp.ofCode_code, RedOp.ofCode_code, off14_split, off19_split, decShift, decVmax, decVcmp, decVfcmp, decVm0, decVm1, decVmSc, beq_self_eq_true, Bool.and_self, ↓reduceIte, BitVec.toNat_ofNat, Nat.reducePow, Nat.reduceMod, Bool.and_true, Bool.not_false, hV_funct3, hV_mid3, hV_r2, hV_r1]

theorem vfminVv (d : VReg) (a : VReg) (b : VReg) (m : MReg) (st : Stall) : Statement (.vfminVv d a b m st) := by
  intro c hc hw _
  obtain rfl := Option.some.inj (show some (.w32 (joinWord (hV 6 (r3 m) (r5 a) (r5 b)) (r5 d) 0x3c (r3 st))) = some c from hc)
  simp only [decodeCode, decodeWord, splitWord_joinWord, maj_3C]
  simp only [decVfpVv, BitVec.ofNat_eq_ofNat, Fields.d, Fields.stall, Fields.m, Fields.mlo, zeroed, accept, x5_r5, x3_r3, x4_r4, x6_r6, mreg_m5, inMask_m5, coded_some, varLat_zero, RMode.ofCode_code, LdWidth.ofCode_code, StWidth.ofCode_code, Scope.ofCode_code, VCmpOp.ofCode_code, VFCmpOp.ofCode_code, RedOp.ofCode_code, off14_split, off19_split, decShift, decVmax, decVcmp, decVfcmp, decVm0, decVm1, decVmSc, beq_self_eq_true, Bool.and_self, ↓reduceIte, BitVec.toNat_ofNat, Nat.reducePow, Nat.reduceMod, Bool.and_true, Bool.not_false, hV_funct3, hV_mid3, hV_r2, hV_r1]

theorem vfminVx (d : VReg) (a : VReg) (b : XReg) (m : MReg) (st : Stall) : Statement (.vfminVx d a b m st) := by
  intro c hc hw _
  obtain rfl := Option.some.inj (show some (.w32 (joinWord (hV 6 (r3 m) (r5 a) (r5 b)) (r5 d) 0x3d (r3 st))) = some c from hc)
  simp only [decodeCode, decodeWord, splitWord_joinWord, maj_3D]
  simp only [decVfpVx, BitVec.ofNat_eq_ofNat, Fields.d, Fields.stall, Fields.m, Fields.mlo, zeroed, accept, x5_r5, x3_r3, x4_r4, x6_r6, mreg_m5, inMask_m5, coded_some, varLat_zero, RMode.ofCode_code, LdWidth.ofCode_code, StWidth.ofCode_code, Scope.ofCode_code, VCmpOp.ofCode_code, VFCmpOp.ofCode_code, RedOp.ofCode_code, off14_split, off19_split, decShift, decVmax, decVcmp, decVfcmp, decVm0, decVm1, decVmSc, beq_self_eq_true, Bool.and_self, ↓reduceIte, BitVec.toNat_ofNat, Nat.reducePow, Nat.reduceMod, Bool.and_true, Bool.not_false, hV_funct3, hV_mid3, hV_r2, hV_r1]

theorem vfmaxVv (d : VReg) (a : VReg) (b : VReg) (m : MReg) (st : Stall) : Statement (.vfmaxVv d a b m st) := by
  intro c hc hw _
  obtain rfl := Option.some.inj (show some (.w32 (joinWord (hV 7 (r3 m) (r5 a) (r5 b)) (r5 d) 0x3c (r3 st))) = some c from hc)
  simp only [decodeCode, decodeWord, splitWord_joinWord, maj_3C]
  simp only [decVfpVv, BitVec.ofNat_eq_ofNat, Fields.d, Fields.stall, Fields.m, Fields.mlo, zeroed, accept, x5_r5, x3_r3, x4_r4, x6_r6, mreg_m5, inMask_m5, coded_some, varLat_zero, RMode.ofCode_code, LdWidth.ofCode_code, StWidth.ofCode_code, Scope.ofCode_code, VCmpOp.ofCode_code, VFCmpOp.ofCode_code, RedOp.ofCode_code, off14_split, off19_split, decShift, decVmax, decVcmp, decVfcmp, decVm0, decVm1, decVmSc, beq_self_eq_true, Bool.and_self, ↓reduceIte, BitVec.toNat_ofNat, Nat.reducePow, Nat.reduceMod, Bool.and_true, Bool.not_false, hV_funct3, hV_mid3, hV_r2, hV_r1]

theorem vfmaxVx (d : VReg) (a : VReg) (b : XReg) (m : MReg) (st : Stall) : Statement (.vfmaxVx d a b m st) := by
  intro c hc hw _
  obtain rfl := Option.some.inj (show some (.w32 (joinWord (hV 7 (r3 m) (r5 a) (r5 b)) (r5 d) 0x3d (r3 st))) = some c from hc)
  simp only [decodeCode, decodeWord, splitWord_joinWord, maj_3D]
  simp only [decVfpVx, BitVec.ofNat_eq_ofNat, Fields.d, Fields.stall, Fields.m, Fields.mlo, zeroed, accept, x5_r5, x3_r3, x4_r4, x6_r6, mreg_m5, inMask_m5, coded_some, varLat_zero, RMode.ofCode_code, LdWidth.ofCode_code, StWidth.ofCode_code, Scope.ofCode_code, VCmpOp.ofCode_code, VFCmpOp.ofCode_code, RedOp.ofCode_code, off14_split, off19_split, decShift, decVmax, decVcmp, decVfcmp, decVm0, decVm1, decVmSc, beq_self_eq_true, Bool.and_self, ↓reduceIte, BitVec.toNat_ofNat, Nat.reducePow, Nat.reduceMod, Bool.and_true, Bool.not_false, hV_funct3, hV_mid3, hV_r2, hV_r1]

theorem vfcmpVv (cc : VFCmpOp) (d : MReg) (a : VReg) (b : VReg) (m : MReg) (st : Stall) : Statement (.vfcmpVv cc d a b m st) := by
  intro c hc hw _
  obtain rfl := Option.some.inj (show some (.w32 (joinWord (hV cc.code (r3 m) (r5 a) (r5 b)) (m5 d) 0x3e (r3 st))) = some c from hc)
  simp only [decodeCode, decodeWord, splitWord_joinWord, maj_3E]
  simp only [decVfcmp, BitVec.ofNat_eq_ofNat, Fields.d, Fields.stall, Fields.m, Fields.mlo, zeroed, accept, x5_r5, x3_r3, x4_r4, x6_r6, mreg_m5, inMask_m5, coded_some, varLat_zero, RMode.ofCode_code, LdWidth.ofCode_code, StWidth.ofCode_code, Scope.ofCode_code, VCmpOp.ofCode_code, VFCmpOp.ofCode_code, RedOp.ofCode_code, off14_split, off19_split, decShift, decVmax, decVcmp, decVfcmp, decVm0, decVm1, decVmSc, beq_self_eq_true, Bool.and_self, ↓reduceIte, BitVec.toNat_ofNat, Nat.reducePow, Nat.reduceMod, Bool.and_true, Bool.not_false, hV_funct3, hV_mid3, hV_r2, hV_r1]

theorem vfcmpVx (cc : VFCmpOp) (d : MReg) (a : VReg) (b : XReg) (m : MReg) (st : Stall) : Statement (.vfcmpVx cc d a b m st) := by
  intro c hc hw _
  obtain rfl := Option.some.inj (show some (.w32 (joinWord (hV cc.code (r3 m) (r5 a) (r5 b)) (m5 d) 0x3f (r3 st))) = some c from hc)
  simp only [decodeCode, decodeWord, splitWord_joinWord, maj_3F]
  simp only [decVfcmp, BitVec.ofNat_eq_ofNat, Fields.d, Fields.stall, Fields.m, Fields.mlo, zeroed, accept, x5_r5, x3_r3, x4_r4, x6_r6, mreg_m5, inMask_m5, coded_some, varLat_zero, RMode.ofCode_code, LdWidth.ofCode_code, StWidth.ofCode_code, Scope.ofCode_code, VCmpOp.ofCode_code, VFCmpOp.ofCode_code, RedOp.ofCode_code, off14_split, off19_split, decShift, decVmax, decVcmp, decVfcmp, decVm0, decVm1, decVmSc, beq_self_eq_true, Bool.and_self, ↓reduceIte, BitVec.toNat_ofNat, Nat.reducePow, Nat.reduceMod, Bool.and_true, Bool.not_false, hV_funct3, hV_mid3, hV_r2, hV_r1]

theorem vfsqrt (d : VReg) (a : VReg) (m : MReg) (st : Stall) : Statement (.vfsqrt d a m st) := by
  intro c hc hw _
  obtain rfl := Option.some.inj (show some (.w32 (joinWord (hV 0 (r3 m) (r5 a) 0) (r5 d) 0x40 (r3 st))) = some c from hc)
  simp only [decodeCode, decodeWord, splitWord_joinWord, maj_40]
  simp only [decVfpUnary, BitVec.ofNat_eq_ofNat, Fields.d, Fields.stall, Fields.m, Fields.mlo, zeroed, accept, x5_r5, x3_r3, x4_r4, x6_r6, mreg_m5, inMask_m5, coded_some, varLat_zero, RMode.ofCode_code, LdWidth.ofCode_code, StWidth.ofCode_code, Scope.ofCode_code, VCmpOp.ofCode_code, VFCmpOp.ofCode_code, RedOp.ofCode_code, off14_split, off19_split, decShift, decVmax, decVcmp, decVfcmp, decVm0, decVm1, decVmSc, beq_self_eq_true, Bool.and_self, ↓reduceIte, BitVec.toNat_ofNat, Nat.reducePow, Nat.reduceMod, Bool.and_true, Bool.not_false, hV_funct3, hV_mid3, hV_r2, hV_r1]

theorem vfclass (d : VReg) (a : VReg) (m : MReg) (st : Stall) : Statement (.vfclass d a m st) := by
  intro c hc hw _
  obtain rfl := Option.some.inj (show some (.w32 (joinWord (hV 1 (r3 m) (r5 a) 0) (r5 d) 0x40 (r3 st))) = some c from hc)
  simp only [decodeCode, decodeWord, splitWord_joinWord, maj_40]
  simp only [decVfpUnary, BitVec.ofNat_eq_ofNat, Fields.d, Fields.stall, Fields.m, Fields.mlo, zeroed, accept, x5_r5, x3_r3, x4_r4, x6_r6, mreg_m5, inMask_m5, coded_some, varLat_zero, RMode.ofCode_code, LdWidth.ofCode_code, StWidth.ofCode_code, Scope.ofCode_code, VCmpOp.ofCode_code, VFCmpOp.ofCode_code, RedOp.ofCode_code, off14_split, off19_split, decShift, decVmax, decVcmp, decVfcmp, decVm0, decVm1, decVmSc, beq_self_eq_true, Bool.and_self, ↓reduceIte, BitVec.toNat_ofNat, Nat.reducePow, Nat.reduceMod, Bool.and_true, Bool.not_false, hV_funct3, hV_mid3, hV_r2, hV_r1]

theorem vexp2 (d : VReg) (a : VReg) (m : MReg) : Statement (.vexp2 d a m) := by
  intro c hc hw _
  obtain rfl := Option.some.inj (show some (.w32 (joinWord (hV 2 (r3 m) (r5 a) 0) (r5 d) 0x40 0)) = some c from hc)
  simp only [decodeCode, decodeWord, splitWord_joinWord, maj_40]
  simp only [decVfpUnary, BitVec.ofNat_eq_ofNat, Fields.d, Fields.stall, Fields.m, Fields.mlo, zeroed, accept, x5_r5, x3_r3, x4_r4, x6_r6, mreg_m5, inMask_m5, coded_some, varLat_zero, RMode.ofCode_code, LdWidth.ofCode_code, StWidth.ofCode_code, Scope.ofCode_code, VCmpOp.ofCode_code, VFCmpOp.ofCode_code, RedOp.ofCode_code, off14_split, off19_split, decShift, decVmax, decVcmp, decVfcmp, decVm0, decVm1, decVmSc, beq_self_eq_true, Bool.and_self, ↓reduceIte, BitVec.toNat_ofNat, Nat.reducePow, Nat.reduceMod, Bool.and_true, Bool.not_false, hV_funct3, hV_mid3, hV_r2, hV_r1]

theorem vlog2 (d : VReg) (a : VReg) (m : MReg) : Statement (.vlog2 d a m) := by
  intro c hc hw _
  obtain rfl := Option.some.inj (show some (.w32 (joinWord (hV 3 (r3 m) (r5 a) 0) (r5 d) 0x40 0)) = some c from hc)
  simp only [decodeCode, decodeWord, splitWord_joinWord, maj_40]
  simp only [decVfpUnary, BitVec.ofNat_eq_ofNat, Fields.d, Fields.stall, Fields.m, Fields.mlo, zeroed, accept, x5_r5, x3_r3, x4_r4, x6_r6, mreg_m5, inMask_m5, coded_some, varLat_zero, RMode.ofCode_code, LdWidth.ofCode_code, StWidth.ofCode_code, Scope.ofCode_code, VCmpOp.ofCode_code, VFCmpOp.ofCode_code, RedOp.ofCode_code, off14_split, off19_split, decShift, decVmax, decVcmp, decVfcmp, decVm0, decVm1, decVmSc, beq_self_eq_true, Bool.and_self, ↓reduceIte, BitVec.toNat_ofNat, Nat.reducePow, Nat.reduceMod, Bool.and_true, Bool.not_false, hV_funct3, hV_mid3, hV_r2, hV_r1]

theorem vrcp (d : VReg) (a : VReg) (m : MReg) : Statement (.vrcp d a m) := by
  intro c hc hw _
  obtain rfl := Option.some.inj (show some (.w32 (joinWord (hV 4 (r3 m) (r5 a) 0) (r5 d) 0x40 0)) = some c from hc)
  simp only [decodeCode, decodeWord, splitWord_joinWord, maj_40]
  simp only [decVfpUnary, BitVec.ofNat_eq_ofNat, Fields.d, Fields.stall, Fields.m, Fields.mlo, zeroed, accept, x5_r5, x3_r3, x4_r4, x6_r6, mreg_m5, inMask_m5, coded_some, varLat_zero, RMode.ofCode_code, LdWidth.ofCode_code, StWidth.ofCode_code, Scope.ofCode_code, VCmpOp.ofCode_code, VFCmpOp.ofCode_code, RedOp.ofCode_code, off14_split, off19_split, decShift, decVmax, decVcmp, decVfcmp, decVm0, decVm1, decVmSc, beq_self_eq_true, Bool.and_self, ↓reduceIte, BitVec.toNat_ofNat, Nat.reducePow, Nat.reduceMod, Bool.and_true, Bool.not_false, hV_funct3, hV_mid3, hV_r2, hV_r1]

theorem vrsq (d : VReg) (a : VReg) (m : MReg) : Statement (.vrsq d a m) := by
  intro c hc hw _
  obtain rfl := Option.some.inj (show some (.w32 (joinWord (hV 5 (r3 m) (r5 a) 0) (r5 d) 0x40 0)) = some c from hc)
  simp only [decodeCode, decodeWord, splitWord_joinWord, maj_40]
  simp only [decVfpUnary, BitVec.ofNat_eq_ofNat, Fields.d, Fields.stall, Fields.m, Fields.mlo, zeroed, accept, x5_r5, x3_r3, x4_r4, x6_r6, mreg_m5, inMask_m5, coded_some, varLat_zero, RMode.ofCode_code, LdWidth.ofCode_code, StWidth.ofCode_code, Scope.ofCode_code, VCmpOp.ofCode_code, VFCmpOp.ofCode_code, RedOp.ofCode_code, off14_split, off19_split, decShift, decVmax, decVcmp, decVfcmp, decVm0, decVm1, decVmSc, beq_self_eq_true, Bool.and_self, ↓reduceIte, BitVec.toNat_ofNat, Nat.reducePow, Nat.reduceMod, Bool.and_true, Bool.not_false, hV_funct3, hV_mid3, hV_r2, hV_r1]

theorem vsin (d : VReg) (a : VReg) (m : MReg) : Statement (.vsin d a m) := by
  intro c hc hw _
  obtain rfl := Option.some.inj (show some (.w32 (joinWord (hV 6 (r3 m) (r5 a) 0) (r5 d) 0x40 0)) = some c from hc)
  simp only [decodeCode, decodeWord, splitWord_joinWord, maj_40]
  simp only [decVfpUnary, BitVec.ofNat_eq_ofNat, Fields.d, Fields.stall, Fields.m, Fields.mlo, zeroed, accept, x5_r5, x3_r3, x4_r4, x6_r6, mreg_m5, inMask_m5, coded_some, varLat_zero, RMode.ofCode_code, LdWidth.ofCode_code, StWidth.ofCode_code, Scope.ofCode_code, VCmpOp.ofCode_code, VFCmpOp.ofCode_code, RedOp.ofCode_code, off14_split, off19_split, decShift, decVmax, decVcmp, decVfcmp, decVm0, decVm1, decVmSc, beq_self_eq_true, Bool.and_self, ↓reduceIte, BitVec.toNat_ofNat, Nat.reducePow, Nat.reduceMod, Bool.and_true, Bool.not_false, hV_funct3, hV_mid3, hV_r2, hV_r1]

theorem vcos (d : VReg) (a : VReg) (m : MReg) : Statement (.vcos d a m) := by
  intro c hc hw _
  obtain rfl := Option.some.inj (show some (.w32 (joinWord (hV 7 (r3 m) (r5 a) 0) (r5 d) 0x40 0)) = some c from hc)
  simp only [decodeCode, decodeWord, splitWord_joinWord, maj_40]
  simp only [decVfpUnary, BitVec.ofNat_eq_ofNat, Fields.d, Fields.stall, Fields.m, Fields.mlo, zeroed, accept, x5_r5, x3_r3, x4_r4, x6_r6, mreg_m5, inMask_m5, coded_some, varLat_zero, RMode.ofCode_code, LdWidth.ofCode_code, StWidth.ofCode_code, Scope.ofCode_code, VCmpOp.ofCode_code, VFCmpOp.ofCode_code, RedOp.ofCode_code, off14_split, off19_split, decShift, decVmax, decVcmp, decVfcmp, decVm0, decVm1, decVmSc, beq_self_eq_true, Bool.and_self, ↓reduceIte, BitVec.toNat_ofNat, Nat.reducePow, Nat.reduceMod, Bool.and_true, Bool.not_false, hV_funct3, hV_mid3, hV_r2, hV_r1]

theorem vfcvtTo (cs : Bool) (code : BitVec 5) (d : VReg) (a : VReg) (m : MReg) (st : Stall) : Statement (.vfcvtTo cs code d a m st) := by
  intro c hc hw _
  obtain rfl := Option.some.inj (show some (.w32 (joinWord (hV (0#1 ++ BitVec.ofBool cs ++ BitVec.ofBool false) (r3 m) (r5 a) code) (r5 d) 0x41 (r3 st))) = some c from hc)
  simp only [decodeCode, decodeWord, splitWord_joinWord, maj_41]
  simp only [decVfcvt, fcvt_top, fcvt_scale, fcvt_dir, hV_r1, hV_r2, Fields.m, hV_mid3, Fields.d, Fields.stall, x5_r5, x3_r3]
  simp only [Instr.wf, decide_eq_true_eq] at hw
  rw [if_neg (by simp), if_neg (by omega)]
  rfl

theorem vfcvtFrom (cs : Bool) (code : BitVec 5) (d : VReg) (a : VReg) (m : MReg) (st : Stall) : Statement (.vfcvtFrom cs code d a m st) := by
  intro c hc hw _
  obtain rfl := Option.some.inj (show some (.w32 (joinWord (hV (0#1 ++ BitVec.ofBool cs ++ BitVec.ofBool true) (r3 m) (r5 a) code) (r5 d) 0x41 (r3 st))) = some c from hc)
  simp only [decodeCode, decodeWord, splitWord_joinWord, maj_41]
  simp only [decVfcvt, fcvt_top, fcvt_scale, fcvt_dir, hV_r1, hV_r2, Fields.m, hV_mid3, Fields.d, Fields.stall, x5_r5, x3_r3]
  simp only [Instr.wf, decide_eq_true_eq] at hw
  rw [if_neg (by simp), if_neg (by omega)]
  rfl

theorem vmvVv (d : VReg) (a : VReg) (m : MReg) (st : Stall) : Statement (.vmvVv d a m st) := by
  intro c hc hw _
  obtain rfl := Option.some.inj (show some (.w32 (joinWord (hV 0 (r3 m) (r5 a) 0) (r5 d) 0x42 (r3 st))) = some c from hc)
  simp only [decodeCode, decodeWord, splitWord_joinWord, maj_42]
  simp only [decPermA, BitVec.ofNat_eq_ofNat, Fields.d, Fields.stall, Fields.m, Fields.mlo, zeroed, accept, x5_r5, x3_r3, x4_r4, x6_r6, mreg_m5, inMask_m5, coded_some, varLat_zero, RMode.ofCode_code, LdWidth.ofCode_code, StWidth.ofCode_code, Scope.ofCode_code, VCmpOp.ofCode_code, VFCmpOp.ofCode_code, RedOp.ofCode_code, off14_split, off19_split, decShift, decVmax, decVcmp, decVfcmp, decVm0, decVm1, decVmSc, beq_self_eq_true, Bool.and_self, ↓reduceIte, BitVec.toNat_ofNat, Nat.reducePow, Nat.reduceMod, Bool.and_true, Bool.not_false, hV_funct3, hV_mid3, hV_r2, hV_r1]

theorem vmergeVv (d : VReg) (a : VReg) (b : VReg) (m : MReg) (st : Stall) : Statement (.vmergeVv d a b m st) := by
  intro c hc hw _
  obtain rfl := Option.some.inj (show some (.w32 (joinWord (hV 1 (r3 m) (r5 a) (r5 b)) (r5 d) 0x42 (r3 st))) = some c from hc)
  simp only [decodeCode, decodeWord, splitWord_joinWord, maj_42]
  simp only [decPermA, BitVec.ofNat_eq_ofNat, Fields.d, Fields.stall, Fields.m, Fields.mlo, zeroed, accept, x5_r5, x3_r3, x4_r4, x6_r6, mreg_m5, inMask_m5, coded_some, varLat_zero, RMode.ofCode_code, LdWidth.ofCode_code, StWidth.ofCode_code, Scope.ofCode_code, VCmpOp.ofCode_code, VFCmpOp.ofCode_code, RedOp.ofCode_code, off14_split, off19_split, decShift, decVmax, decVcmp, decVfcmp, decVm0, decVm1, decVmSc, beq_self_eq_true, Bool.and_self, ↓reduceIte, BitVec.toNat_ofNat, Nat.reducePow, Nat.reduceMod, Bool.and_true, Bool.not_false, hV_funct3, hV_mid3, hV_r2, hV_r1]

theorem vslideupVx (d : VReg) (a : VReg) (b : XReg) (m : MReg) : Statement (.vslideupVx d a b m) := by
  intro c hc hw _
  obtain rfl := Option.some.inj (show some (.w32 (joinWord (hV 2 (r3 m) (r5 a) (r5 b)) (r5 d) 0x42 0)) = some c from hc)
  simp only [decodeCode, decodeWord, splitWord_joinWord, maj_42]
  simp only [decPermA, BitVec.ofNat_eq_ofNat, Fields.d, Fields.stall, Fields.m, Fields.mlo, zeroed, accept, x5_r5, x3_r3, x4_r4, x6_r6, mreg_m5, inMask_m5, coded_some, varLat_zero, RMode.ofCode_code, LdWidth.ofCode_code, StWidth.ofCode_code, Scope.ofCode_code, VCmpOp.ofCode_code, VFCmpOp.ofCode_code, RedOp.ofCode_code, off14_split, off19_split, decShift, decVmax, decVcmp, decVfcmp, decVm0, decVm1, decVmSc, beq_self_eq_true, Bool.and_self, ↓reduceIte, BitVec.toNat_ofNat, Nat.reducePow, Nat.reduceMod, Bool.and_true, Bool.not_false, hV_funct3, hV_mid3, hV_r2, hV_r1]

theorem vslidednVx (d : VReg) (a : VReg) (b : XReg) (m : MReg) : Statement (.vslidednVx d a b m) := by
  intro c hc hw _
  obtain rfl := Option.some.inj (show some (.w32 (joinWord (hV 3 (r3 m) (r5 a) (r5 b)) (r5 d) 0x42 0)) = some c from hc)
  simp only [decodeCode, decodeWord, splitWord_joinWord, maj_42]
  simp only [decPermA, BitVec.ofNat_eq_ofNat, Fields.d, Fields.stall, Fields.m, Fields.mlo, zeroed, accept, x5_r5, x3_r3, x4_r4, x6_r6, mreg_m5, inMask_m5, coded_some, varLat_zero, RMode.ofCode_code, LdWidth.ofCode_code, StWidth.ofCode_code, Scope.ofCode_code, VCmpOp.ofCode_code, VFCmpOp.ofCode_code, RedOp.ofCode_code, off14_split, off19_split, decShift, decVmax, decVcmp, decVfcmp, decVm0, decVm1, decVmSc, beq_self_eq_true, Bool.and_self, ↓reduceIte, BitVec.toNat_ofNat, Nat.reducePow, Nat.reduceMod, Bool.and_true, Bool.not_false, hV_funct3, hV_mid3, hV_r2, hV_r1]

theorem vpermVv (d : VReg) (a : VReg) (b : VReg) (m : MReg) : Statement (.vpermVv d a b m) := by
  intro c hc hw _
  obtain rfl := Option.some.inj (show some (.w32 (joinWord (hV 4 (r3 m) (r5 a) (r5 b)) (r5 d) 0x42 0)) = some c from hc)
  simp only [decodeCode, decodeWord, splitWord_joinWord, maj_42]
  simp only [decPermA, BitVec.ofNat_eq_ofNat, Fields.d, Fields.stall, Fields.m, Fields.mlo, zeroed, accept, x5_r5, x3_r3, x4_r4, x6_r6, mreg_m5, inMask_m5, coded_some, varLat_zero, RMode.ofCode_code, LdWidth.ofCode_code, StWidth.ofCode_code, Scope.ofCode_code, VCmpOp.ofCode_code, VFCmpOp.ofCode_code, RedOp.ofCode_code, off14_split, off19_split, decShift, decVmax, decVcmp, decVfcmp, decVm0, decVm1, decVmSc, beq_self_eq_true, Bool.and_self, ↓reduceIte, BitVec.toNat_ofNat, Nat.reducePow, Nat.reduceMod, Bool.and_true, Bool.not_false, hV_funct3, hV_mid3, hV_r2, hV_r1]

theorem viota (d : VReg) (ms : MReg) (m : MReg) : Statement (.viota d ms m) := by
  intro c hc hw _
  obtain rfl := Option.some.inj (show some (.w32 (joinWord (hV 5 (r3 m) 0 (m5 ms)) (r5 d) 0x42 0)) = some c from hc)
  simp only [decodeCode, decodeWord, splitWord_joinWord, maj_42]
  simp only [decPermA, BitVec.ofNat_eq_ofNat, Fields.d, Fields.stall, Fields.m, Fields.mlo, zeroed, accept, x5_r5, x3_r3, x4_r4, x6_r6, mreg_m5, inMask_m5, coded_some, varLat_zero, RMode.ofCode_code, LdWidth.ofCode_code, StWidth.ofCode_code, Scope.ofCode_code, VCmpOp.ofCode_code, VFCmpOp.ofCode_code, RedOp.ofCode_code, off14_split, off19_split, decShift, decVmax, decVcmp, decVfcmp, decVm0, decVm1, decVmSc, beq_self_eq_true, Bool.and_self, ↓reduceIte, BitVec.toNat_ofNat, Nat.reducePow, Nat.reduceMod, Bool.and_true, Bool.not_false, hV_funct3, hV_mid3, hV_r2, hV_r1]

theorem vextx (d : XReg) (a : VReg) (b : XReg) : Statement (.vextx d a b) := by
  intro c hc hw _
  obtain rfl := Option.some.inj (show some (.w32 (joinWord (hV 6 0 (r5 a) (r5 b)) (r5 d) 0x42 0)) = some c from hc)
  simp only [decodeCode, decodeWord, splitWord_joinWord, maj_42]
  simp only [decPermA, BitVec.ofNat_eq_ofNat, Fields.d, Fields.stall, Fields.m, Fields.mlo, zeroed, accept, x5_r5, x3_r3, x4_r4, x6_r6, mreg_m5, inMask_m5, coded_some, varLat_zero, RMode.ofCode_code, LdWidth.ofCode_code, StWidth.ofCode_code, Scope.ofCode_code, VCmpOp.ofCode_code, VFCmpOp.ofCode_code, RedOp.ofCode_code, off14_split, off19_split, decShift, decVmax, decVcmp, decVfcmp, decVm0, decVm1, decVmSc, beq_self_eq_true, Bool.and_self, ↓reduceIte, BitVec.toNat_ofNat, Nat.reducePow, Nat.reduceMod, Bool.and_true, Bool.not_false, hV_funct3, hV_mid3, hV_r2, hV_r1]

theorem vinsx (d : VReg) (a : XReg) (b : XReg) : Statement (.vinsx d a b) := by
  intro c hc hw _
  obtain rfl := Option.some.inj (show some (.w32 (joinWord (hV 7 0 (r5 b) (r5 a)) (r5 d) 0x42 0)) = some c from hc)
  simp only [decodeCode, decodeWord, splitWord_joinWord, maj_42]
  simp only [decPermA, BitVec.ofNat_eq_ofNat, Fields.d, Fields.stall, Fields.m, Fields.mlo, zeroed, accept, x5_r5, x3_r3, x4_r4, x6_r6, mreg_m5, inMask_m5, coded_some, varLat_zero, RMode.ofCode_code, LdWidth.ofCode_code, StWidth.ofCode_code, Scope.ofCode_code, VCmpOp.ofCode_code, VFCmpOp.ofCode_code, RedOp.ofCode_code, off14_split, off19_split, decShift, decVmax, decVcmp, decVfcmp, decVm0, decVm1, decVmSc, beq_self_eq_true, Bool.and_self, ↓reduceIte, BitVec.toNat_ofNat, Nat.reducePow, Nat.reduceMod, Bool.and_true, Bool.not_false, hV_funct3, hV_mid3, hV_r2, hV_r1]

theorem vbcastVx (d : VReg) (b : XReg) (m : MReg) (st : Stall) : Statement (.vbcastVx d b m st) := by
  intro c hc hw _
  obtain rfl := Option.some.inj (show some (.w32 (joinWord (hV 0 (r3 m) 0 (r5 b)) (r5 d) 0x43 (r3 st))) = some c from hc)
  simp only [decodeCode, decodeWord, splitWord_joinWord, maj_43]
  simp only [decPermB, BitVec.ofNat_eq_ofNat, Fields.d, Fields.stall, Fields.m, Fields.mlo, zeroed, accept, x5_r5, x3_r3, x4_r4, x6_r6, mreg_m5, inMask_m5, coded_some, varLat_zero, RMode.ofCode_code, LdWidth.ofCode_code, StWidth.ofCode_code, Scope.ofCode_code, VCmpOp.ofCode_code, VFCmpOp.ofCode_code, RedOp.ofCode_code, off14_split, off19_split, decShift, decVmax, decVcmp, decVfcmp, decVm0, decVm1, decVmSc, beq_self_eq_true, Bool.and_self, ↓reduceIte, BitVec.toNat_ofNat, Nat.reducePow, Nat.reduceMod, Bool.and_true, Bool.not_false, hV_funct3, hV_mid3, hV_r2, hV_r1]

theorem vbcastVi (d : VReg) (imm : BitVec 5) (m : MReg) (st : Stall) : Statement (.vbcastVi d imm m st) := by
  intro c hc hw _
  obtain rfl := Option.some.inj (show some (.w32 (joinWord (hV 1 (r3 m) 0 imm) (r5 d) 0x43 (r3 st))) = some c from hc)
  simp only [decodeCode, decodeWord, splitWord_joinWord, maj_43]
  simp only [decPermB, BitVec.ofNat_eq_ofNat, Fields.d, Fields.stall, Fields.m, Fields.mlo, zeroed, accept, x5_r5, x3_r3, x4_r4, x6_r6, mreg_m5, inMask_m5, coded_some, varLat_zero, RMode.ofCode_code, LdWidth.ofCode_code, StWidth.ofCode_code, Scope.ofCode_code, VCmpOp.ofCode_code, VFCmpOp.ofCode_code, RedOp.ofCode_code, off14_split, off19_split, decShift, decVmax, decVcmp, decVfcmp, decVm0, decVm1, decVmSc, beq_self_eq_true, Bool.and_self, ↓reduceIte, BitVec.toNat_ofNat, Nat.reducePow, Nat.reduceMod, Bool.and_true, Bool.not_false, hV_funct3, hV_mid3, hV_r2, hV_r1]

theorem vslideupVi (d : VReg) (a : VReg) (imm : BitVec 5) (m : MReg) : Statement (.vslideupVi d a imm m) := by
  intro c hc hw _
  obtain rfl := Option.some.inj (show some (.w32 (joinWord (hV 2 (r3 m) (r5 a) imm) (r5 d) 0x43 0)) = some c from hc)
  simp only [decodeCode, decodeWord, splitWord_joinWord, maj_43]
  simp only [decPermB, BitVec.ofNat_eq_ofNat, Fields.d, Fields.stall, Fields.m, Fields.mlo, zeroed, accept, x5_r5, x3_r3, x4_r4, x6_r6, mreg_m5, inMask_m5, coded_some, varLat_zero, RMode.ofCode_code, LdWidth.ofCode_code, StWidth.ofCode_code, Scope.ofCode_code, VCmpOp.ofCode_code, VFCmpOp.ofCode_code, RedOp.ofCode_code, off14_split, off19_split, decShift, decVmax, decVcmp, decVfcmp, decVm0, decVm1, decVmSc, beq_self_eq_true, Bool.and_self, ↓reduceIte, BitVec.toNat_ofNat, Nat.reducePow, Nat.reduceMod, Bool.and_true, Bool.not_false, hV_funct3, hV_mid3, hV_r2, hV_r1]

theorem vslidednVi (d : VReg) (a : VReg) (imm : BitVec 5) (m : MReg) : Statement (.vslidednVi d a imm m) := by
  intro c hc hw _
  obtain rfl := Option.some.inj (show some (.w32 (joinWord (hV 3 (r3 m) (r5 a) imm) (r5 d) 0x43 0)) = some c from hc)
  simp only [decodeCode, decodeWord, splitWord_joinWord, maj_43]
  simp only [decPermB, BitVec.ofNat_eq_ofNat, Fields.d, Fields.stall, Fields.m, Fields.mlo, zeroed, accept, x5_r5, x3_r3, x4_r4, x6_r6, mreg_m5, inMask_m5, coded_some, varLat_zero, RMode.ofCode_code, LdWidth.ofCode_code, StWidth.ofCode_code, Scope.ofCode_code, VCmpOp.ofCode_code, VFCmpOp.ofCode_code, RedOp.ofCode_code, off14_split, off19_split, decShift, decVmax, decVcmp, decVfcmp, decVm0, decVm1, decVmSc, beq_self_eq_true, Bool.and_self, ↓reduceIte, BitVec.toNat_ofNat, Nat.reducePow, Nat.reduceMod, Bool.and_true, Bool.not_false, hV_funct3, hV_mid3, hV_r2, hV_r1]

theorem vmergeVx (d : VReg) (a : VReg) (b : XReg) (m : MReg) (st : Stall) : Statement (.vmergeVx d a b m st) := by
  intro c hc hw _
  obtain rfl := Option.some.inj (show some (.w32 (joinWord (hV 4 (r3 m) (r5 a) (r5 b)) (r5 d) 0x43 (r3 st))) = some c from hc)
  simp only [decodeCode, decodeWord, splitWord_joinWord, maj_43]
  simp only [decPermB, BitVec.ofNat_eq_ofNat, Fields.d, Fields.stall, Fields.m, Fields.mlo, zeroed, accept, x5_r5, x3_r3, x4_r4, x6_r6, mreg_m5, inMask_m5, coded_some, varLat_zero, RMode.ofCode_code, LdWidth.ofCode_code, StWidth.ofCode_code, Scope.ofCode_code, VCmpOp.ofCode_code, VFCmpOp.ofCode_code, RedOp.ofCode_code, off14_split, off19_split, decShift, decVmax, decVcmp, decVfcmp, decVm0, decVm1, decVmSc, beq_self_eq_true, Bool.and_self, ↓reduceIte, BitVec.toNat_ofNat, Nat.reducePow, Nat.reduceMod, Bool.and_true, Bool.not_false, hV_funct3, hV_mid3, hV_r2, hV_r1]

theorem vmergeVi (d : VReg) (a : VReg) (imm : BitVec 5) (m : MReg) (st : Stall) : Statement (.vmergeVi d a imm m st) := by
  intro c hc hw _
  obtain rfl := Option.some.inj (show some (.w32 (joinWord (hV 5 (r3 m) (r5 a) imm) (r5 d) 0x43 (r3 st))) = some c from hc)
  simp only [decodeCode, decodeWord, splitWord_joinWord, maj_43]
  simp only [decPermB, BitVec.ofNat_eq_ofNat, Fields.d, Fields.stall, Fields.m, Fields.mlo, zeroed, accept, x5_r5, x3_r3, x4_r4, x6_r6, mreg_m5, inMask_m5, coded_some, varLat_zero, RMode.ofCode_code, LdWidth.ofCode_code, StWidth.ofCode_code, Scope.ofCode_code, VCmpOp.ofCode_code, VFCmpOp.ofCode_code, RedOp.ofCode_code, off14_split, off19_split, decShift, decVmax, decVcmp, decVfcmp, decVm0, decVm1, decVmSc, beq_self_eq_true, Bool.and_self, ↓reduceIte, BitVec.toNat_ofNat, Nat.reducePow, Nat.reduceMod, Bool.and_true, Bool.not_false, hV_funct3, hV_mid3, hV_r2, hV_r1]

theorem vred (o : RedOp) (d : VReg) (a : VReg) (b : VReg) (m : MReg) : Statement (.vred o d a b m) := by
  intro c hc hw _
  obtain rfl := Option.some.inj (show some (.w32 (joinWord (hV o.code (r3 m) (r5 a) (r5 b)) (r5 d) 0x44 0)) = some c from hc)
  simp only [decodeCode, decodeWord, splitWord_joinWord, maj_44]
  simp only [decVred, BitVec.ofNat_eq_ofNat, Fields.d, Fields.stall, Fields.m, Fields.mlo, zeroed, accept, x5_r5, x3_r3, x4_r4, x6_r6, mreg_m5, inMask_m5, coded_some, varLat_zero, RMode.ofCode_code, LdWidth.ofCode_code, StWidth.ofCode_code, Scope.ofCode_code, VCmpOp.ofCode_code, VFCmpOp.ofCode_code, RedOp.ofCode_code, off14_split, off19_split, decShift, decVmax, decVcmp, decVfcmp, decVm0, decVm1, decVmSc, beq_self_eq_true, Bool.and_self, ↓reduceIte, BitVec.toNat_ofNat, Nat.reducePow, Nat.reduceMod, Bool.and_true, Bool.not_false, hV_funct3, hV_mid3, hV_r2, hV_r1]

theorem vfredO (d : VReg) (a : VReg) (b : VReg) (m : MReg) : Statement (.vfredO d a b m) := by
  intro c hc hw _
  obtain rfl := Option.some.inj (show some (.w32 (joinWord (hV 0 (r3 m) (r5 a) (r5 b)) (r5 d) 0x45 0)) = some c from hc)
  simp only [decodeCode, decodeWord, splitWord_joinWord, maj_45]
  simp only [decVfred, BitVec.ofNat_eq_ofNat, Fields.d, Fields.stall, Fields.m, Fields.mlo, zeroed, accept, x5_r5, x3_r3, x4_r4, x6_r6, mreg_m5, inMask_m5, coded_some, varLat_zero, RMode.ofCode_code, LdWidth.ofCode_code, StWidth.ofCode_code, Scope.ofCode_code, VCmpOp.ofCode_code, VFCmpOp.ofCode_code, RedOp.ofCode_code, off14_split, off19_split, decShift, decVmax, decVcmp, decVfcmp, decVm0, decVm1, decVmSc, beq_self_eq_true, Bool.and_self, ↓reduceIte, BitVec.toNat_ofNat, Nat.reducePow, Nat.reduceMod, Bool.and_true, Bool.not_false, hV_funct3, hV_mid3, hV_r2, hV_r1]

theorem vfredT (d : VReg) (a : VReg) (b : VReg) (m : MReg) : Statement (.vfredT d a b m) := by
  intro c hc hw _
  obtain rfl := Option.some.inj (show some (.w32 (joinWord (hV 1 (r3 m) (r5 a) (r5 b)) (r5 d) 0x45 0)) = some c from hc)
  simp only [decodeCode, decodeWord, splitWord_joinWord, maj_45]
  simp only [decVfred, BitVec.ofNat_eq_ofNat, Fields.d, Fields.stall, Fields.m, Fields.mlo, zeroed, accept, x5_r5, x3_r3, x4_r4, x6_r6, mreg_m5, inMask_m5, coded_some, varLat_zero, RMode.ofCode_code, LdWidth.ofCode_code, StWidth.ofCode_code, Scope.ofCode_code, VCmpOp.ofCode_code, VFCmpOp.ofCode_code, RedOp.ofCode_code, off14_split, off19_split, decShift, decVmax, decVcmp, decVfcmp, decVm0, decVm1, decVmSc, beq_self_eq_true, Bool.and_self, ↓reduceIte, BitVec.toNat_ofNat, Nat.reducePow, Nat.reduceMod, Bool.and_true, Bool.not_false, hV_funct3, hV_mid3, hV_r2, hV_r1]

theorem vfredMin (d : VReg) (a : VReg) (b : VReg) (m : MReg) : Statement (.vfredMin d a b m) := by
  intro c hc hw _
  obtain rfl := Option.some.inj (show some (.w32 (joinWord (hV 2 (r3 m) (r5 a) (r5 b)) (r5 d) 0x45 0)) = some c from hc)
  simp only [decodeCode, decodeWord, splitWord_joinWord, maj_45]
  simp only [decVfred, BitVec.ofNat_eq_ofNat, Fields.d, Fields.stall, Fields.m, Fields.mlo, zeroed, accept, x5_r5, x3_r3, x4_r4, x6_r6, mreg_m5, inMask_m5, coded_some, varLat_zero, RMode.ofCode_code, LdWidth.ofCode_code, StWidth.ofCode_code, Scope.ofCode_code, VCmpOp.ofCode_code, VFCmpOp.ofCode_code, RedOp.ofCode_code, off14_split, off19_split, decShift, decVmax, decVcmp, decVfcmp, decVm0, decVm1, decVmSc, beq_self_eq_true, Bool.and_self, ↓reduceIte, BitVec.toNat_ofNat, Nat.reducePow, Nat.reduceMod, Bool.and_true, Bool.not_false, hV_funct3, hV_mid3, hV_r2, hV_r1]

theorem vfredMax (d : VReg) (a : VReg) (b : VReg) (m : MReg) : Statement (.vfredMax d a b m) := by
  intro c hc hw _
  obtain rfl := Option.some.inj (show some (.w32 (joinWord (hV 3 (r3 m) (r5 a) (r5 b)) (r5 d) 0x45 0)) = some c from hc)
  simp only [decodeCode, decodeWord, splitWord_joinWord, maj_45]
  simp only [decVfred, BitVec.ofNat_eq_ofNat, Fields.d, Fields.stall, Fields.m, Fields.mlo, zeroed, accept, x5_r5, x3_r3, x4_r4, x6_r6, mreg_m5, inMask_m5, coded_some, varLat_zero, RMode.ofCode_code, LdWidth.ofCode_code, StWidth.ofCode_code, Scope.ofCode_code, VCmpOp.ofCode_code, VFCmpOp.ofCode_code, RedOp.ofCode_code, off14_split, off19_split, decShift, decVmax, decVcmp, decVfcmp, decVm0, decVm1, decVmSc, beq_self_eq_true, Bool.and_self, ↓reduceIte, BitVec.toNat_ofNat, Nat.reducePow, Nat.reduceMod, Bool.and_true, Bool.not_false, hV_funct3, hV_mid3, hV_r2, hV_r1]

theorem mand (d : MReg) (a : MReg) (b : MReg) (st : Stall) : Statement (.mand d a b st) := by
  intro c hc hw _
  obtain rfl := Option.some.inj (show some (.w32 (joinWord (hV 0 0 (m5 b) (m5 a)) (m5 d) 0x46 (r3 st))) = some c from hc)
  simp only [decodeCode, decodeWord, splitWord_joinWord, maj_46]
  simp only [decMask, BitVec.ofNat_eq_ofNat, Fields.d, Fields.stall, Fields.m, Fields.mlo, zeroed, accept, x5_r5, x3_r3, x4_r4, x6_r6, mreg_m5, inMask_m5, coded_some, varLat_zero, RMode.ofCode_code, LdWidth.ofCode_code, StWidth.ofCode_code, Scope.ofCode_code, VCmpOp.ofCode_code, VFCmpOp.ofCode_code, RedOp.ofCode_code, off14_split, off19_split, decShift, decVmax, decVcmp, decVfcmp, decVm0, decVm1, decVmSc, beq_self_eq_true, Bool.and_self, ↓reduceIte, BitVec.toNat_ofNat, Nat.reducePow, Nat.reduceMod, Bool.and_true, Bool.not_false, hV_funct3, hV_mid3, hV_r2, hV_r1]

theorem mor (d : MReg) (a : MReg) (b : MReg) (st : Stall) : Statement (.mor d a b st) := by
  intro c hc hw _
  obtain rfl := Option.some.inj (show some (.w32 (joinWord (hV 1 0 (m5 b) (m5 a)) (m5 d) 0x46 (r3 st))) = some c from hc)
  simp only [decodeCode, decodeWord, splitWord_joinWord, maj_46]
  simp only [decMask, BitVec.ofNat_eq_ofNat, Fields.d, Fields.stall, Fields.m, Fields.mlo, zeroed, accept, x5_r5, x3_r3, x4_r4, x6_r6, mreg_m5, inMask_m5, coded_some, varLat_zero, RMode.ofCode_code, LdWidth.ofCode_code, StWidth.ofCode_code, Scope.ofCode_code, VCmpOp.ofCode_code, VFCmpOp.ofCode_code, RedOp.ofCode_code, off14_split, off19_split, decShift, decVmax, decVcmp, decVfcmp, decVm0, decVm1, decVmSc, beq_self_eq_true, Bool.and_self, ↓reduceIte, BitVec.toNat_ofNat, Nat.reducePow, Nat.reduceMod, Bool.and_true, Bool.not_false, hV_funct3, hV_mid3, hV_r2, hV_r1]

theorem mxor (d : MReg) (a : MReg) (b : MReg) (st : Stall) : Statement (.mxor d a b st) := by
  intro c hc hw _
  obtain rfl := Option.some.inj (show some (.w32 (joinWord (hV 2 0 (m5 b) (m5 a)) (m5 d) 0x46 (r3 st))) = some c from hc)
  simp only [decodeCode, decodeWord, splitWord_joinWord, maj_46]
  simp only [decMask, BitVec.ofNat_eq_ofNat, Fields.d, Fields.stall, Fields.m, Fields.mlo, zeroed, accept, x5_r5, x3_r3, x4_r4, x6_r6, mreg_m5, inMask_m5, coded_some, varLat_zero, RMode.ofCode_code, LdWidth.ofCode_code, StWidth.ofCode_code, Scope.ofCode_code, VCmpOp.ofCode_code, VFCmpOp.ofCode_code, RedOp.ofCode_code, off14_split, off19_split, decShift, decVmax, decVcmp, decVfcmp, decVm0, decVm1, decVmSc, beq_self_eq_true, Bool.and_self, ↓reduceIte, BitVec.toNat_ofNat, Nat.reducePow, Nat.reduceMod, Bool.and_true, Bool.not_false, hV_funct3, hV_mid3, hV_r2, hV_r1]

theorem mnot (d : MReg) (a : MReg) (st : Stall) : Statement (.mnot d a st) := by
  intro c hc hw _
  obtain rfl := Option.some.inj (show some (.w32 (joinWord (hV 3 0 0 (m5 a)) (m5 d) 0x46 (r3 st))) = some c from hc)
  simp only [decodeCode, decodeWord, splitWord_joinWord, maj_46]
  simp only [decMask, BitVec.ofNat_eq_ofNat, Fields.d, Fields.stall, Fields.m, Fields.mlo, zeroed, accept, x5_r5, x3_r3, x4_r4, x6_r6, mreg_m5, inMask_m5, coded_some, varLat_zero, RMode.ofCode_code, LdWidth.ofCode_code, StWidth.ofCode_code, Scope.ofCode_code, VCmpOp.ofCode_code, VFCmpOp.ofCode_code, RedOp.ofCode_code, off14_split, off19_split, decShift, decVmax, decVcmp, decVfcmp, decVm0, decVm1, decVmSc, beq_self_eq_true, Bool.and_self, ↓reduceIte, BitVec.toNat_ofNat, Nat.reducePow, Nat.reduceMod, Bool.and_true, Bool.not_false, hV_funct3, hV_mid3, hV_r2, hV_r1]

theorem mpopc (d : XReg) (a : MReg) (m : MReg) (st : Stall) : Statement (.mpopc d a m st) := by
  intro c hc hw _
  obtain rfl := Option.some.inj (show some (.w32 (joinWord (hV 4 (r3 m) 0 (m5 a)) (r5 d) 0x46 (r3 st))) = some c from hc)
  simp only [decodeCode, decodeWord, splitWord_joinWord, maj_46]
  simp only [decMask, BitVec.ofNat_eq_ofNat, Fields.d, Fields.stall, Fields.m, Fields.mlo, zeroed, accept, x5_r5, x3_r3, x4_r4, x6_r6, mreg_m5, inMask_m5, coded_some, varLat_zero, RMode.ofCode_code, LdWidth.ofCode_code, StWidth.ofCode_code, Scope.ofCode_code, VCmpOp.ofCode_code, VFCmpOp.ofCode_code, RedOp.ofCode_code, off14_split, off19_split, decShift, decVmax, decVcmp, decVfcmp, decVm0, decVm1, decVmSc, beq_self_eq_true, Bool.and_self, ↓reduceIte, BitVec.toNat_ofNat, Nat.reducePow, Nat.reduceMod, Bool.and_true, Bool.not_false, hV_funct3, hV_mid3, hV_r2, hV_r1]

theorem mfirst (d : XReg) (a : MReg) (m : MReg) (st : Stall) : Statement (.mfirst d a m st) := by
  intro c hc hw _
  obtain rfl := Option.some.inj (show some (.w32 (joinWord (hV 5 (r3 m) 0 (m5 a)) (r5 d) 0x46 (r3 st))) = some c from hc)
  simp only [decodeCode, decodeWord, splitWord_joinWord, maj_46]
  simp only [decMask, BitVec.ofNat_eq_ofNat, Fields.d, Fields.stall, Fields.m, Fields.mlo, zeroed, accept, x5_r5, x3_r3, x4_r4, x6_r6, mreg_m5, inMask_m5, coded_some, varLat_zero, RMode.ofCode_code, LdWidth.ofCode_code, StWidth.ofCode_code, Scope.ofCode_code, VCmpOp.ofCode_code, VFCmpOp.ofCode_code, RedOp.ofCode_code, off14_split, off19_split, decShift, decVmax, decVcmp, decVfcmp, decVm0, decVm1, decVmSc, beq_self_eq_true, Bool.and_self, ↓reduceIte, BitVec.toNat_ofNat, Nat.reducePow, Nat.reduceMod, Bool.and_true, Bool.not_false, hV_funct3, hV_mid3, hV_r2, hV_r1]

theorem mmv (d : MReg) (a : MReg) (st : Stall) : Statement (.mmv d a st) := by
  intro c hc hw _
  obtain rfl := Option.some.inj (show some (.w32 (joinWord (hV 6 0 0 (m5 a)) (m5 d) 0x46 (r3 st))) = some c from hc)
  simp only [decodeCode, decodeWord, splitWord_joinWord, maj_46]
  simp only [decMask, BitVec.ofNat_eq_ofNat, Fields.d, Fields.stall, Fields.m, Fields.mlo, zeroed, accept, x5_r5, x3_r3, x4_r4, x6_r6, mreg_m5, inMask_m5, coded_some, varLat_zero, RMode.ofCode_code, LdWidth.ofCode_code, StWidth.ofCode_code, Scope.ofCode_code, VCmpOp.ofCode_code, VFCmpOp.ofCode_code, RedOp.ofCode_code, off14_split, off19_split, decShift, decVmax, decVcmp, decVfcmp, decVm0, decVm1, decVmSc, beq_self_eq_true, Bool.and_self, ↓reduceIte, BitVec.toNat_ofNat, Nat.reducePow, Nat.reduceMod, Bool.and_true, Bool.not_false, hV_funct3, hV_mid3, hV_r2, hV_r1]

theorem vcompress (d : VReg) (a : VReg) (m : MReg) : Statement (.vcompress d a m) := by
  intro c hc hw _
  obtain rfl := Option.some.inj (show some (.w32 (joinWord (hV 0 (r3 m) (r5 a) 0) (r5 d) 0x47 0)) = some c from hc)
  simp only [decodeCode, decodeWord, splitWord_joinWord, maj_47]
  simp only [decSparseA, BitVec.ofNat_eq_ofNat, Fields.d, Fields.stall, Fields.m, Fields.mlo, zeroed, accept, x5_r5, x3_r3, x4_r4, x6_r6, mreg_m5, inMask_m5, coded_some, varLat_zero, RMode.ofCode_code, LdWidth.ofCode_code, StWidth.ofCode_code, Scope.ofCode_code, VCmpOp.ofCode_code, VFCmpOp.ofCode_code, RedOp.ofCode_code, off14_split, off19_split, decShift, decVmax, decVcmp, decVfcmp, decVm0, decVm1, decVmSc, beq_self_eq_true, Bool.and_self, ↓reduceIte, BitVec.toNat_ofNat, Nat.reducePow, Nat.reduceMod, Bool.and_true, Bool.not_false, hV_funct3, hV_mid3, hV_r2, hV_r1]

theorem vcompressVl (d : VReg) (a : VReg) (m : MReg) : Statement (.vcompressVl d a m) := by
  intro c hc hw _
  obtain rfl := Option.some.inj (show some (.w32 (joinWord (hV 1 (r3 m) (r5 a) 0) (r5 d) 0x47 0)) = some c from hc)
  simp only [decodeCode, decodeWord, splitWord_joinWord, maj_47]
  simp only [decSparseA, BitVec.ofNat_eq_ofNat, Fields.d, Fields.stall, Fields.m, Fields.mlo, zeroed, accept, x5_r5, x3_r3, x4_r4, x6_r6, mreg_m5, inMask_m5, coded_some, varLat_zero, RMode.ofCode_code, LdWidth.ofCode_code, StWidth.ofCode_code, Scope.ofCode_code, VCmpOp.ofCode_code, VFCmpOp.ofCode_code, RedOp.ofCode_code, off14_split, off19_split, decShift, decVmax, decVcmp, decVfcmp, decVm0, decVm1, decVmSc, beq_self_eq_true, Bool.and_self, ↓reduceIte, BitVec.toNat_ofNat, Nat.reducePow, Nat.reduceMod, Bool.and_true, Bool.not_false, hV_funct3, hV_mid3, hV_r2, hV_r1]

theorem vexpand (d : VReg) (a : VReg) (m : MReg) : Statement (.vexpand d a m) := by
  intro c hc hw _
  obtain rfl := Option.some.inj (show some (.w32 (joinWord (hV 2 (r3 m) (r5 a) 0) (r5 d) 0x47 0)) = some c from hc)
  simp only [decodeCode, decodeWord, splitWord_joinWord, maj_47]
  simp only [decSparseA, BitVec.ofNat_eq_ofNat, Fields.d, Fields.stall, Fields.m, Fields.mlo, zeroed, accept, x5_r5, x3_r3, x4_r4, x6_r6, mreg_m5, inMask_m5, coded_some, varLat_zero, RMode.ofCode_code, LdWidth.ofCode_code, StWidth.ofCode_code, Scope.ofCode_code, VCmpOp.ofCode_code, VFCmpOp.ofCode_code, RedOp.ofCode_code, off14_split, off19_split, decShift, decVmax, decVcmp, decVfcmp, decVm0, decVm1, decVmSc, beq_self_eq_true, Bool.and_self, ↓reduceIte, BitVec.toNat_ofNat, Nat.reducePow, Nat.reduceMod, Bool.and_true, Bool.not_false, hV_funct3, hV_mid3, hV_r2, hV_r1]

theorem vppopc (d : VReg) (a : VReg) (m : MReg) : Statement (.vppopc d a m) := by
  intro c hc hw _
  obtain rfl := Option.some.inj (show some (.w32 (joinWord (hV 3 (r3 m) (r5 a) 0) (r5 d) 0x47 0)) = some c from hc)
  simp only [decodeCode, decodeWord, splitWord_joinWord, maj_47]
  simp only [decSparseA, BitVec.ofNat_eq_ofNat, Fields.d, Fields.stall, Fields.m, Fields.mlo, zeroed, accept, x5_r5, x3_r3, x4_r4, x6_r6, mreg_m5, inMask_m5, coded_some, varLat_zero, RMode.ofCode_code, LdWidth.ofCode_code, StWidth.ofCode_code, Scope.ofCode_code, VCmpOp.ofCode_code, VFCmpOp.ofCode_code, RedOp.ofCode_code, off14_split, off19_split, decShift, decVmax, decVcmp, decVfcmp, decVm0, decVm1, decVmSc, beq_self_eq_true, Bool.and_self, ↓reduceIte, BitVec.toNat_ofNat, Nat.reducePow, Nat.reduceMod, Bool.and_true, Bool.not_false, hV_funct3, hV_mid3, hV_r2, hV_r1]

theorem vconfl (d : VReg) (a : VReg) (m : MReg) : Statement (.vconfl d a m) := by
  intro c hc hw _
  obtain rfl := Option.some.inj (show some (.w32 (joinWord (hV 4 (r3 m) (r5 a) 0) (r5 d) 0x47 0)) = some c from hc)
  simp only [decodeCode, decodeWord, splitWord_joinWord, maj_47]
  simp only [decSparseA, BitVec.ofNat_eq_ofNat, Fields.d, Fields.stall, Fields.m, Fields.mlo, zeroed, accept, x5_r5, x3_r3, x4_r4, x6_r6, mreg_m5, inMask_m5, coded_some, varLat_zero, RMode.ofCode_code, LdWidth.ofCode_code, StWidth.ofCode_code, Scope.ofCode_code, VCmpOp.ofCode_code, VFCmpOp.ofCode_code, RedOp.ofCode_code, off14_split, off19_split, decShift, decVmax, decVcmp, decVfcmp, decVm0, decVm1, decVmSc, beq_self_eq_true, Bool.and_self, ↓reduceIte, BitVec.toNat_ofNat, Nat.reducePow, Nat.reduceMod, Bool.and_true, Bool.not_false, hV_funct3, hV_mid3, hV_r2, hV_r1]

theorem vrank (d : VReg) (a : VReg) (m : MReg) : Statement (.vrank d a m) := by
  intro c hc hw _
  obtain rfl := Option.some.inj (show some (.w32 (joinWord (hV 5 (r3 m) (r5 a) 0) (r5 d) 0x47 0)) = some c from hc)
  simp only [decodeCode, decodeWord, splitWord_joinWord, maj_47]
  simp only [decSparseA, BitVec.ofNat_eq_ofNat, Fields.d, Fields.stall, Fields.m, Fields.mlo, zeroed, accept, x5_r5, x3_r3, x4_r4, x6_r6, mreg_m5, inMask_m5, coded_some, varLat_zero, RMode.ofCode_code, LdWidth.ofCode_code, StWidth.ofCode_code, Scope.ofCode_code, VCmpOp.ofCode_code, VFCmpOp.ofCode_code, RedOp.ofCode_code, off14_split, off19_split, decShift, decVmax, decVcmp, decVfcmp, decVm0, decVm1, decVmSc, beq_self_eq_true, Bool.and_self, ↓reduceIte, BitVec.toNat_ofNat, Nat.reducePow, Nat.reduceMod, Bool.and_true, Bool.not_false, hV_funct3, hV_mid3, hV_r2, hV_r1]

theorem vkcount (d : VReg) (a : VReg) (b : XReg) (m : MReg) : Statement (.vkcount d a b m) := by
  intro c hc hw _
  obtain rfl := Option.some.inj (show some (.w32 (joinWord (hV 6 (r3 m) (r5 a) (r5 b)) (r5 d) 0x47 0)) = some c from hc)
  simp only [decodeCode, decodeWord, splitWord_joinWord, maj_47]
  simp only [decSparseA, BitVec.ofNat_eq_ofNat, Fields.d, Fields.stall, Fields.m, Fields.mlo, zeroed, accept, x5_r5, x3_r3, x4_r4, x6_r6, mreg_m5, inMask_m5, coded_some, varLat_zero, RMode.ofCode_code, LdWidth.ofCode_code, StWidth.ofCode_code, Scope.ofCode_code, VCmpOp.ofCode_code, VFCmpOp.ofCode_code, RedOp.ofCode_code, off14_split, off19_split, decShift, decVmax, decVcmp, decVfcmp, decVm0, decVm1, decVmSc, beq_self_eq_true, Bool.and_self, ↓reduceIte, BitVec.toNat_ofNat, Nat.reducePow, Nat.reduceMod, Bool.and_true, Bool.not_false, hV_funct3, hV_mid3, hV_r2, hV_r1]

theorem vnfblk (d : MReg) (a : VReg) (m : MReg) : Statement (.vnfblk d a m) := by
  intro c hc hw _
  obtain rfl := Option.some.inj (show some (.w32 (joinWord (hV 7 (r3 m) (r5 a) 0) (m5 d) 0x47 0)) = some c from hc)
  simp only [decodeCode, decodeWord, splitWord_joinWord, maj_47]
  simp only [decSparseA, BitVec.ofNat_eq_ofNat, Fields.d, Fields.stall, Fields.m, Fields.mlo, zeroed, accept, x5_r5, x3_r3, x4_r4, x6_r6, mreg_m5, inMask_m5, coded_some, varLat_zero, RMode.ofCode_code, LdWidth.ofCode_code, StWidth.ofCode_code, Scope.ofCode_code, VCmpOp.ofCode_code, VFCmpOp.ofCode_code, RedOp.ofCode_code, off14_split, off19_split, decShift, decVmax, decVcmp, decVfcmp, decVm0, decVm1, decVmSc, beq_self_eq_true, Bool.and_self, ↓reduceIte, BitVec.toNat_ofNat, Nat.reducePow, Nat.reduceMod, Bool.and_true, Bool.not_false, hV_funct3, hV_mid3, hV_r2, hV_r1]

theorem vscanAdd (d : VReg) (a : VReg) (ms : MReg) (m : MReg) : Statement (.vscanAdd d a ms m) := by
  intro c hc hw _
  obtain rfl := Option.some.inj (show some (.w32 (joinWord (hV 0 (r3 m) (r5 a) (m5 ms)) (r5 d) 0x48 0)) = some c from hc)
  simp only [decodeCode, decodeWord, splitWord_joinWord, maj_48]
  simp only [decSparseB, BitVec.ofNat_eq_ofNat, Fields.d, Fields.stall, Fields.m, Fields.mlo, zeroed, accept, x5_r5, x3_r3, x4_r4, x6_r6, mreg_m5, inMask_m5, coded_some, varLat_zero, RMode.ofCode_code, LdWidth.ofCode_code, StWidth.ofCode_code, Scope.ofCode_code, VCmpOp.ofCode_code, VFCmpOp.ofCode_code, RedOp.ofCode_code, off14_split, off19_split, decShift, decVmax, decVcmp, decVfcmp, decVm0, decVm1, decVmSc, beq_self_eq_true, Bool.and_self, ↓reduceIte, BitVec.toNat_ofNat, Nat.reducePow, Nat.reduceMod, Bool.and_true, Bool.not_false, hV_funct3, hV_mid3, hV_r2, hV_r1]

theorem vscanMin (d : VReg) (a : VReg) (ms : MReg) (m : MReg) : Statement (.vscanMin d a ms m) := by
  intro c hc hw _
  obtain rfl := Option.some.inj (show some (.w32 (joinWord (hV 1 (r3 m) (r5 a) (m5 ms)) (r5 d) 0x48 0)) = some c from hc)
  simp only [decodeCode, decodeWord, splitWord_joinWord, maj_48]
  simp only [decSparseB, BitVec.ofNat_eq_ofNat, Fields.d, Fields.stall, Fields.m, Fields.mlo, zeroed, accept, x5_r5, x3_r3, x4_r4, x6_r6, mreg_m5, inMask_m5, coded_some, varLat_zero, RMode.ofCode_code, LdWidth.ofCode_code, StWidth.ofCode_code, Scope.ofCode_code, VCmpOp.ofCode_code, VFCmpOp.ofCode_code, RedOp.ofCode_code, off14_split, off19_split, decShift, decVmax, decVcmp, decVfcmp, decVm0, decVm1, decVmSc, beq_self_eq_true, Bool.and_self, ↓reduceIte, BitVec.toNat_ofNat, Nat.reducePow, Nat.reduceMod, Bool.and_true, Bool.not_false, hV_funct3, hV_mid3, hV_r2, hV_r1]

theorem vscanMax (d : VReg) (a : VReg) (ms : MReg) (m : MReg) : Statement (.vscanMax d a ms m) := by
  intro c hc hw _
  obtain rfl := Option.some.inj (show some (.w32 (joinWord (hV 2 (r3 m) (r5 a) (m5 ms)) (r5 d) 0x48 0)) = some c from hc)
  simp only [decodeCode, decodeWord, splitWord_joinWord, maj_48]
  simp only [decSparseB, BitVec.ofNat_eq_ofNat, Fields.d, Fields.stall, Fields.m, Fields.mlo, zeroed, accept, x5_r5, x3_r3, x4_r4, x6_r6, mreg_m5, inMask_m5, coded_some, varLat_zero, RMode.ofCode_code, LdWidth.ofCode_code, StWidth.ofCode_code, Scope.ofCode_code, VCmpOp.ofCode_code, VFCmpOp.ofCode_code, RedOp.ofCode_code, off14_split, off19_split, decShift, decVmax, decVcmp, decVfcmp, decVm0, decVm1, decVmSc, beq_self_eq_true, Bool.and_self, ↓reduceIte, BitVec.toNat_ofNat, Nat.reducePow, Nat.reduceMod, Bool.and_true, Bool.not_false, hV_funct3, hV_mid3, hV_r2, hV_r1]

theorem vscanFadd (d : VReg) (a : VReg) (ms : MReg) (m : MReg) : Statement (.vscanFadd d a ms m) := by
  intro c hc hw _
  obtain rfl := Option.some.inj (show some (.w32 (joinWord (hV 3 (r3 m) (r5 a) (m5 ms)) (r5 d) 0x48 0)) = some c from hc)
  simp only [decodeCode, decodeWord, splitWord_joinWord, maj_48]
  simp only [decSparseB, BitVec.ofNat_eq_ofNat, Fields.d, Fields.stall, Fields.m, Fields.mlo, zeroed, accept, x5_r5, x3_r3, x4_r4, x6_r6, mreg_m5, inMask_m5, coded_some, varLat_zero, RMode.ofCode_code, LdWidth.ofCode_code, StWidth.ofCode_code, Scope.ofCode_code, VCmpOp.ofCode_code, VFCmpOp.ofCode_code, RedOp.ofCode_code, off14_split, off19_split, decShift, decVmax, decVcmp, decVfcmp, decVm0, decVm1, decVmSc, beq_self_eq_true, Bool.and_self, ↓reduceIte, BitVec.toNat_ofNat, Nat.reducePow, Nat.reduceMod, Bool.and_true, Bool.not_false, hV_funct3, hV_mid3, hV_r2, hV_r1]

theorem vcompressKeepnf (d : VReg) (a : VReg) (mk : MReg) (m : MReg) : Statement (.vcompressKeepnf d a mk m) := by
  intro c hc hw _
  obtain rfl := Option.some.inj (show some (.w32 (joinWord (hV 4 (r3 m) (r5 a) (m5 mk)) (r5 d) 0x48 0)) = some c from hc)
  simp only [decodeCode, decodeWord, splitWord_joinWord, maj_48]
  simp only [decSparseB, hV_funct3, hV_r2, hV_r1, hV_mid3, Fields.m]
  simp only [Instr.wf, decide_eq_true_eq] at hw
  simp [varLat, accept, Fields.d, m5_ne mk hw]

theorem vcompressKeepnfVl (d : VReg) (a : VReg) (mk : MReg) (m : MReg) : Statement (.vcompressKeepnfVl d a mk m) := by
  intro c hc hw _
  obtain rfl := Option.some.inj (show some (.w32 (joinWord (hV 5 (r3 m) (r5 a) (m5 mk)) (r5 d) 0x48 0)) = some c from hc)
  simp only [decodeCode, decodeWord, splitWord_joinWord, maj_48]
  simp only [decSparseB, hV_funct3, hV_r2, hV_r1, hV_mid3, Fields.m]
  simp only [Instr.wf, decide_eq_true_eq] at hw
  simp [varLat, accept, Fields.d, m5_ne mk hw]

theorem vstop : Statement .vstop := by
  intro c hc hw _
  obtain rfl := Option.some.inj (show some (.w32 (joinWord (hV 0 0 0 0) 0 0x49 0)) = some c from hc)
  simp only [decodeCode, decodeWord, splitWord_joinWord, maj_49]
  simp only [decVmisc, BitVec.ofNat_eq_ofNat, Fields.d, Fields.stall, Fields.m, Fields.mlo, zeroed, accept, x5_r5, x3_r3, x4_r4, x6_r6, mreg_m5, inMask_m5, coded_some, varLat_zero, RMode.ofCode_code, LdWidth.ofCode_code, StWidth.ofCode_code, Scope.ofCode_code, VCmpOp.ofCode_code, VFCmpOp.ofCode_code, RedOp.ofCode_code, off14_split, off19_split, decShift, decVmax, decVcmp, decVfcmp, decVm0, decVm1, decVmSc, beq_self_eq_true, Bool.and_self, ↓reduceIte, BitVec.toNat_ofNat, Nat.reducePow, Nat.reduceMod, Bool.and_true, Bool.not_false, hV_funct3, hV_mid3, hV_r2, hV_r1]

theorem vpid (d : VReg) (m : MReg) : Statement (.vpid d m) := by
  intro c hc hw _
  obtain rfl := Option.some.inj (show some (.w32 (joinWord (hV 1 (r3 m) 0 0) (r5 d) 0x49 0)) = some c from hc)
  simp only [decodeCode, decodeWord, splitWord_joinWord, maj_49]
  simp only [decVmisc, BitVec.ofNat_eq_ofNat, Fields.d, Fields.stall, Fields.m, Fields.mlo, zeroed, accept, x5_r5, x3_r3, x4_r4, x6_r6, mreg_m5, inMask_m5, coded_some, varLat_zero, RMode.ofCode_code, LdWidth.ofCode_code, StWidth.ofCode_code, Scope.ofCode_code, VCmpOp.ofCode_code, VFCmpOp.ofCode_code, RedOp.ofCode_code, off14_split, off19_split, decShift, decVmax, decVcmp, decVfcmp, decVm0, decVm1, decVmSc, beq_self_eq_true, Bool.and_self, ↓reduceIte, BitVec.toNat_ofNat, Nat.reducePow, Nat.reduceMod, Bool.and_true, Bool.not_false, hV_funct3, hV_mid3, hV_r2, hV_r1]

theorem vrand (d : VReg) (m : MReg) (st : Stall) : Statement (.vrand d m st) := by
  intro c hc hw _
  obtain rfl := Option.some.inj (show some (.w32 (joinWord (hV 2 (r3 m) 0 0) (r5 d) 0x49 (r3 st))) = some c from hc)
  simp only [decodeCode, decodeWord, splitWord_joinWord, maj_49]
  simp only [decVmisc, BitVec.ofNat_eq_ofNat, Fields.d, Fields.stall, Fields.m, Fields.mlo, zeroed, accept, x5_r5, x3_r3, x4_r4, x6_r6, mreg_m5, inMask_m5, coded_some, varLat_zero, RMode.ofCode_code, LdWidth.ofCode_code, StWidth.ofCode_code, Scope.ofCode_code, VCmpOp.ofCode_code, VFCmpOp.ofCode_code, RedOp.ofCode_code, off14_split, off19_split, decShift, decVmax, decVcmp, decVfcmp, decVm0, decVm1, decVmSc, beq_self_eq_true, Bool.and_self, ↓reduceIte, BitVec.toNat_ofNat, Nat.reducePow, Nat.reduceMod, Bool.and_true, Bool.not_false, hV_funct3, hV_mid3, hV_r2, hV_r1]

theorem vfetch (off : BitVec 19) (m : MReg) : Statement (.vfetch off m) := by
  intro c hc hw _
  obtain rfl := Option.some.inj (show some (.w32 (joinWord (off.extractLsb' 3 16) (m5 m) 0x4a (off.extractLsb' 0 3))) = some c from hc)
  simp only [decodeCode, decodeWord, splitWord_joinWord, maj_4A]
  simp only [BitVec.ofNat_eq_ofNat, Fields.d, Fields.stall, Fields.m, Fields.mlo, zeroed, accept, x5_r5, x3_r3, x4_r4, x6_r6, mreg_m5, inMask_m5, coded_some, varLat_zero, RMode.ofCode_code, LdWidth.ofCode_code, StWidth.ofCode_code, Scope.ofCode_code, VCmpOp.ofCode_code, VFCmpOp.ofCode_code, RedOp.ofCode_code, off14_split, off19_split, decShift, decVmax, decVcmp, decVfcmp, decVm0, decVm1, decVmSc, beq_self_eq_true, Bool.and_self, ↓reduceIte, BitVec.toNat_ofNat, Nat.reducePow, Nat.reduceMod, Bool.and_true, Bool.not_false]

theorem vpj (off : BitVec 19) (m : MReg) : Statement (.vpj off m) := by
  intro c hc hw _
  obtain rfl := Option.some.inj (show some (.w32 (joinWord (off.extractLsb' 3 16) (m5 m) 0x4b (off.extractLsb' 0 3))) = some c from hc)
  simp only [decodeCode, decodeWord, splitWord_joinWord, maj_4B]
  simp only [BitVec.ofNat_eq_ofNat, Fields.d, Fields.stall, Fields.m, Fields.mlo, zeroed, accept, x5_r5, x3_r3, x4_r4, x6_r6, mreg_m5, inMask_m5, coded_some, varLat_zero, RMode.ofCode_code, LdWidth.ofCode_code, StWidth.ofCode_code, Scope.ofCode_code, VCmpOp.ofCode_code, VFCmpOp.ofCode_code, RedOp.ofCode_code, off14_split, off19_split, decShift, decVmax, decVcmp, decVfcmp, decVm0, decVm1, decVmSc, beq_self_eq_true, Bool.and_self, ↓reduceIte, BitVec.toNat_ofNat, Nat.reducePow, Nat.reduceMod, Bool.and_true, Bool.not_false]

theorem vld (d : VReg) (a : XReg) (cls : Cls) (e : Bool) (y : Bool) (m : MReg) : Statement (.vld d a cls e y m) := by
  intro c hc hw _
  obtain rfl := Option.some.inj (show some (.w32 (joinWord (hVM y e (r4 cls) 0 (r5 a)) (r5 d) 0x50 (r3 m))) = some c from hc)
  simp only [decodeCode, decodeWord, splitWord_joinWord, maj_50]
  simp only [decVm0, BitVec.ofNat_eq_ofNat, Fields.d, Fields.stall, Fields.m, Fields.mlo, zeroed, accept, x5_r5, x3_r3, x4_r4, x6_r6, mreg_m5, inMask_m5, coded_some, varLat_zero, RMode.ofCode_code, LdWidth.ofCode_code, StWidth.ofCode_code, Scope.ofCode_code, VCmpOp.ofCode_code, VFCmpOp.ofCode_code, RedOp.ofCode_code, off14_split, off19_split, decShift, decVmax, decVcmp, decVfcmp, decVm0, decVm1, decVmSc, beq_self_eq_true, Bool.and_self, ↓reduceIte, BitVec.toNat_ofNat, Nat.reducePow, Nat.reduceMod, Bool.and_true, Bool.not_false, hVM_fbit15, hVM_fbit14, hVM_cls, hVM_r2, hVM_r1]

theorem vlds (d : VReg) (a : XReg) (b : XReg) (cls : Cls) (e : Bool) (y : Bool) (m : MReg) : Statement (.vlds d a b cls e y m) := by
  intro c hc hw _
  obtain rfl := Option.some.inj (show some (.w32 (joinWord (hVM y e (r4 cls) (r5 b) (r5 a)) (r5 d) 0x51 (r3 m))) = some c from hc)
  simp only [decodeCode, decodeWord, splitWord_joinWord, maj_51]
  simp only [decVm1, BitVec.ofNat_eq_ofNat, Fields.d, Fields.stall, Fields.m, Fields.mlo, zeroed, accept, x5_r5, x3_r3, x4_r4, x6_r6, mreg_m5, inMask_m5, coded_some, varLat_zero, RMode.ofCode_code, LdWidth.ofCode_code, StWidth.ofCode_code, Scope.ofCode_code, VCmpOp.ofCode_code, VFCmpOp.ofCode_code, RedOp.ofCode_code, off14_split, off19_split, decShift, decVmax, decVcmp, decVfcmp, decVm0, decVm1, decVmSc, beq_self_eq_true, Bool.and_self, ↓reduceIte, BitVec.toNat_ofNat, Nat.reducePow, Nat.reduceMod, Bool.and_true, Bool.not_false, hVM_fbit15, hVM_fbit14, hVM_cls, hVM_r2, hVM_r1]

theorem vldx (d : VReg) (a : XReg) (ix : VReg) (cls : Cls) (e : Bool) (y : Bool) (m : MReg) : Statement (.vldx d a ix cls e y m) := by
  intro c hc hw _
  obtain rfl := Option.some.inj (show some (.w32 (joinWord (hVM y e (r4 cls) (r5 ix) (r5 a)) (r5 d) 0x52 (r3 m))) = some c from hc)
  simp only [decodeCode, decodeWord, splitWord_joinWord, maj_52]
  simp only [decVm1, BitVec.ofNat_eq_ofNat, Fields.d, Fields.stall, Fields.m, Fields.mlo, zeroed, accept, x5_r5, x3_r3, x4_r4, x6_r6, mreg_m5, inMask_m5, coded_some, varLat_zero, RMode.ofCode_code, LdWidth.ofCode_code, StWidth.ofCode_code, Scope.ofCode_code, VCmpOp.ofCode_code, VFCmpOp.ofCode_code, RedOp.ofCode_code, off14_split, off19_split, decShift, decVmax, decVcmp, decVfcmp, decVm0, decVm1, decVmSc, beq_self_eq_true, Bool.and_self, ↓reduceIte, BitVec.toNat_ofNat, Nat.reducePow, Nat.reduceMod, Bool.and_true, Bool.not_false, hVM_fbit15, hVM_fbit14, hVM_cls, hVM_r2, hVM_r1]

theorem vldf (d : VReg) (a : XReg) (cls : Cls) (e : Bool) (y : Bool) (m : MReg) : Statement (.vldf d a cls e y m) := by
  intro c hc hw _
  obtain rfl := Option.some.inj (show some (.w32 (joinWord (hVM y e (r4 cls) 0 (r5 a)) (r5 d) 0x53 (r3 m))) = some c from hc)
  simp only [decodeCode, decodeWord, splitWord_joinWord, maj_53]
  simp only [decVm0, BitVec.ofNat_eq_ofNat, Fields.d, Fields.stall, Fields.m, Fields.mlo, zeroed, accept, x5_r5, x3_r3, x4_r4, x6_r6, mreg_m5, inMask_m5, coded_some, varLat_zero, RMode.ofCode_code, LdWidth.ofCode_code, StWidth.ofCode_code, Scope.ofCode_code, VCmpOp.ofCode_code, VFCmpOp.ofCode_code, RedOp.ofCode_code, off14_split, off19_split, decShift, decVmax, decVcmp, decVfcmp, decVm0, decVm1, decVmSc, beq_self_eq_true, Bool.and_self, ↓reduceIte, BitVec.toNat_ofNat, Nat.reducePow, Nat.reduceMod, Bool.and_true, Bool.not_false, hVM_fbit15, hVM_fbit14, hVM_cls, hVM_r2, hVM_r1]

theorem vst (d : VReg) (a : XReg) (cls : Cls) (e : Bool) (y : Bool) (m : MReg) : Statement (.vst d a cls e y m) := by
  intro c hc hw _
  obtain rfl := Option.some.inj (show some (.w32 (joinWord (hVM y e (r4 cls) 0 (r5 a)) (r5 d) 0x54 (r3 m))) = some c from hc)
  simp only [decodeCode, decodeWord, splitWord_joinWord, maj_54]
  simp only [decVm0, BitVec.ofNat_eq_ofNat, Fields.d, Fields.stall, Fields.m, Fields.mlo, zeroed, accept, x5_r5, x3_r3, x4_r4, x6_r6, mreg_m5, inMask_m5, coded_some, varLat_zero, RMode.ofCode_code, LdWidth.ofCode_code, StWidth.ofCode_code, Scope.ofCode_code, VCmpOp.ofCode_code, VFCmpOp.ofCode_code, RedOp.ofCode_code, off14_split, off19_split, decShift, decVmax, decVcmp, decVfcmp, decVm0, decVm1, decVmSc, beq_self_eq_true, Bool.and_self, ↓reduceIte, BitVec.toNat_ofNat, Nat.reducePow, Nat.reduceMod, Bool.and_true, Bool.not_false, hVM_fbit15, hVM_fbit14, hVM_cls, hVM_r2, hVM_r1]

theorem vsts (d : VReg) (a : XReg) (b : XReg) (cls : Cls) (e : Bool) (y : Bool) (m : MReg) : Statement (.vsts d a b cls e y m) := by
  intro c hc hw _
  obtain rfl := Option.some.inj (show some (.w32 (joinWord (hVM y e (r4 cls) (r5 b) (r5 a)) (r5 d) 0x55 (r3 m))) = some c from hc)
  simp only [decodeCode, decodeWord, splitWord_joinWord, maj_55]
  simp only [decVm1, BitVec.ofNat_eq_ofNat, Fields.d, Fields.stall, Fields.m, Fields.mlo, zeroed, accept, x5_r5, x3_r3, x4_r4, x6_r6, mreg_m5, inMask_m5, coded_some, varLat_zero, RMode.ofCode_code, LdWidth.ofCode_code, StWidth.ofCode_code, Scope.ofCode_code, VCmpOp.ofCode_code, VFCmpOp.ofCode_code, RedOp.ofCode_code, off14_split, off19_split, decShift, decVmax, decVcmp, decVfcmp, decVm0, decVm1, decVmSc, beq_self_eq_true, Bool.and_self, ↓reduceIte, BitVec.toNat_ofNat, Nat.reducePow, Nat.reduceMod, Bool.and_true, Bool.not_false, hVM_fbit15, hVM_fbit14, hVM_cls, hVM_r2, hVM_r1]

theorem vstx (d : VReg) (a : XReg) (ix : VReg) (cls : Cls) (e : Bool) (y : Bool) (m : MReg) : Statement (.vstx d a ix cls e y m) := by
  intro c hc hw _
  obtain rfl := Option.some.inj (show some (.w32 (joinWord (hVM y e (r4 cls) (r5 ix) (r5 a)) (r5 d) 0x56 (r3 m))) = some c from hc)
  simp only [decodeCode, decodeWord, splitWord_joinWord, maj_56]
  simp only [decVm1, BitVec.ofNat_eq_ofNat, Fields.d, Fields.stall, Fields.m, Fields.mlo, zeroed, accept, x5_r5, x3_r3, x4_r4, x6_r6, mreg_m5, inMask_m5, coded_some, varLat_zero, RMode.ofCode_code, LdWidth.ofCode_code, StWidth.ofCode_code, Scope.ofCode_code, VCmpOp.ofCode_code, VFCmpOp.ofCode_code, RedOp.ofCode_code, off14_split, off19_split, decShift, decVmax, decVcmp, decVfcmp, decVm0, decVm1, decVmSc, beq_self_eq_true, Bool.and_self, ↓reduceIte, BitVec.toNat_ofNat, Nat.reducePow, Nat.reduceMod, Bool.and_true, Bool.not_false, hVM_fbit15, hVM_fbit14, hVM_cls, hVM_r2, hVM_r1]

theorem vstG (d : VReg) (a : XReg) (cls : Cls) (e : Bool) (y : Bool) (m : MReg) : Statement (.vstG d a cls e y m) := by
  intro c hc hw _
  obtain rfl := Option.some.inj (show some (.w32 (joinWord (hVM y e (r4 cls) 0 (r5 a)) (r5 d) 0x57 (r3 m))) = some c from hc)
  simp only [decodeCode, decodeWord, splitWord_joinWord, maj_57]
  simp only [decVm0, BitVec.ofNat_eq_ofNat, Fields.d, Fields.stall, Fields.m, Fields.mlo, zeroed, accept, x5_r5, x3_r3, x4_r4, x6_r6, mreg_m5, inMask_m5, coded_some, varLat_zero, RMode.ofCode_code, LdWidth.ofCode_code, StWidth.ofCode_code, Scope.ofCode_code, VCmpOp.ofCode_code, VFCmpOp.ofCode_code, RedOp.ofCode_code, off14_split, off19_split, decShift, decVmax, decVcmp, decVfcmp, decVm0, decVm1, decVmSc, beq_self_eq_true, Bool.and_self, ↓reduceIte, BitVec.toNat_ofNat, Nat.reducePow, Nat.reduceMod, Bool.and_true, Bool.not_false, hVM_fbit15, hVM_fbit14, hVM_cls, hVM_r2, hVM_r1]

theorem vstxG (d : VReg) (a : XReg) (ix : VReg) (cls : Cls) (e : Bool) (y : Bool) (m : MReg) : Statement (.vstxG d a ix cls e y m) := by
  intro c hc hw _
  obtain rfl := Option.some.inj (show some (.w32 (joinWord (hVM y e (r4 cls) (r5 ix) (r5 a)) (r5 d) 0x58 (r3 m))) = some c from hc)
  simp only [decodeCode, decodeWord, splitWord_joinWord, maj_58]
  simp only [decVm1, BitVec.ofNat_eq_ofNat, Fields.d, Fields.stall, Fields.m, Fields.mlo, zeroed, accept, x5_r5, x3_r3, x4_r4, x6_r6, mreg_m5, inMask_m5, coded_some, varLat_zero, RMode.ofCode_code, LdWidth.ofCode_code, StWidth.ofCode_code, Scope.ofCode_code, VCmpOp.ofCode_code, VFCmpOp.ofCode_code, RedOp.ofCode_code, off14_split, off19_split, decShift, decVmax, decVcmp, decVfcmp, decVm0, decVm1, decVmSc, beq_self_eq_true, Bool.and_self, ↓reduceIte, BitVec.toNat_ofNat, Nat.reducePow, Nat.reduceMod, Bool.and_true, Bool.not_false, hVM_fbit15, hVM_fbit14, hVM_cls, hVM_r2, hVM_r1]

theorem vldSc (d : VReg) (a : XReg) (cls : Cls) (m : MReg) : Statement (.vldSc d a cls m) := by
  intro c hc hw _
  obtain rfl := Option.some.inj (show some (.w32 (joinWord (hVM false false (r4 cls) 0 (r5 a)) (r5 d) 0x59 (r3 m))) = some c from hc)
  simp only [decodeCode, decodeWord, splitWord_joinWord, maj_59]
  simp only [decVmSc, BitVec.ofNat_eq_ofNat, Fields.d, Fields.stall, Fields.m, Fields.mlo, zeroed, accept, x5_r5, x3_r3, x4_r4, x6_r6, mreg_m5, inMask_m5, coded_some, varLat_zero, RMode.ofCode_code, LdWidth.ofCode_code, StWidth.ofCode_code, Scope.ofCode_code, VCmpOp.ofCode_code, VFCmpOp.ofCode_code, RedOp.ofCode_code, off14_split, off19_split, decShift, decVmax, decVcmp, decVfcmp, decVm0, decVm1, decVmSc, beq_self_eq_true, Bool.and_self, ↓reduceIte, BitVec.toNat_ofNat, Nat.reducePow, Nat.reduceMod, Bool.and_true, Bool.not_false, hVM_fbit15, hVM_fbit14, hVM_cls, hVM_r2, hVM_r1]

theorem vstSc (d : VReg) (a : XReg) (cls : Cls) (m : MReg) : Statement (.vstSc d a cls m) := by
  intro c hc hw _
  obtain rfl := Option.some.inj (show some (.w32 (joinWord (hVM false false (r4 cls) 0 (r5 a)) (r5 d) 0x5a (r3 m))) = some c from hc)
  simp only [decodeCode, decodeWord, splitWord_joinWord, maj_5A]
  simp only [decVmSc, BitVec.ofNat_eq_ofNat, Fields.d, Fields.stall, Fields.m, Fields.mlo, zeroed, accept, x5_r5, x3_r3, x4_r4, x6_r6, mreg_m5, inMask_m5, coded_some, varLat_zero, RMode.ofCode_code, LdWidth.ofCode_code, StWidth.ofCode_code, Scope.ofCode_code, VCmpOp.ofCode_code, VFCmpOp.ofCode_code, RedOp.ofCode_code, off14_split, off19_split, decShift, decVmax, decVcmp, decVfcmp, decVm0, decVm1, decVmSc, beq_self_eq_true, Bool.and_self, ↓reduceIte, BitVec.toNat_ofNat, Nat.reducePow, Nat.reduceMod, Bool.and_true, Bool.not_false, hVM_fbit15, hVM_fbit14, hVM_cls, hVM_r2, hVM_r1]

theorem vamoAdd (d : VReg) (a : XReg) (ix : VReg) (cls : Cls) (m : MReg) : Statement (.vamoAdd d a ix cls m) := by
  intro c hc hw _
  obtain rfl := Option.some.inj (show some (.w32 (joinWord (hA 0 (r4 cls) (r5 ix) (r5 a)) (r5 d) 0x5b (r3 m))) = some c from hc)
  simp only [decodeCode, decodeWord, splitWord_joinWord, maj_5B]
  simp only [decVamo0, BitVec.ofNat_eq_ofNat, Fields.d, Fields.stall, Fields.m, Fields.mlo, zeroed, accept, x5_r5, x3_r3, x4_r4, x6_r6, mreg_m5, inMask_m5, coded_some, varLat_zero, RMode.ofCode_code, LdWidth.ofCode_code, StWidth.ofCode_code, Scope.ofCode_code, VCmpOp.ofCode_code, VFCmpOp.ofCode_code, RedOp.ofCode_code, off14_split, off19_split, decShift, decVmax, decVcmp, decVfcmp, decVm0, decVm1, decVmSc, beq_self_eq_true, Bool.and_self, ↓reduceIte, BitVec.toNat_ofNat, Nat.reducePow, Nat.reduceMod, Bool.and_true, Bool.not_false, hA_op2, hA_cls, hA_r2, hA_r1]

theorem vamoAnd (d : VReg) (a : XReg) (ix : VReg) (cls : Cls) (m : MReg) : Statement (.vamoAnd d a ix cls m) := by
  intro c hc hw _
  obtain rfl := Option.some.inj (show some (.w32 (joinWord (hA 1 (r4 cls) (r5 ix) (r5 a)) (r5 d) 0x5b (r3 m))) = some c from hc)
  simp only [decodeCode, decodeWord, splitWord_joinWord, maj_5B]
  simp only [decVamo0, BitVec.ofNat_eq_ofNat, Fields.d, Fields.stall, Fields.m, Fields.mlo, zeroed, accept, x5_r5, x3_r3, x4_r4, x6_r6, mreg_m5, inMask_m5, coded_some, varLat_zero, RMode.ofCode_code, LdWidth.ofCode_code, StWidth.ofCode_code, Scope.ofCode_code, VCmpOp.ofCode_code, VFCmpOp.ofCode_code, RedOp.ofCode_code, off14_split, off19_split, decShift, decVmax, decVcmp, decVfcmp, decVm0, decVm1, decVmSc, beq_self_eq_true, Bool.and_self, ↓reduceIte, BitVec.toNat_ofNat, Nat.reducePow, Nat.reduceMod, Bool.and_true, Bool.not_false, hA_op2, hA_cls, hA_r2, hA_r1]

theorem vamoOr (d : VReg) (a : XReg) (ix : VReg) (cls : Cls) (m : MReg) : Statement (.vamoOr d a ix cls m) := by
  intro c hc hw _
  obtain rfl := Option.some.inj (show some (.w32 (joinWord (hA 2 (r4 cls) (r5 ix) (r5 a)) (r5 d) 0x5b (r3 m))) = some c from hc)
  simp only [decodeCode, decodeWord, splitWord_joinWord, maj_5B]
  simp only [decVamo0, BitVec.ofNat_eq_ofNat, Fields.d, Fields.stall, Fields.m, Fields.mlo, zeroed, accept, x5_r5, x3_r3, x4_r4, x6_r6, mreg_m5, inMask_m5, coded_some, varLat_zero, RMode.ofCode_code, LdWidth.ofCode_code, StWidth.ofCode_code, Scope.ofCode_code, VCmpOp.ofCode_code, VFCmpOp.ofCode_code, RedOp.ofCode_code, off14_split, off19_split, decShift, decVmax, decVcmp, decVfcmp, decVm0, decVm1, decVmSc, beq_self_eq_true, Bool.and_self, ↓reduceIte, BitVec.toNat_ofNat, Nat.reducePow, Nat.reduceMod, Bool.and_true, Bool.not_false, hA_op2, hA_cls, hA_r2, hA_r1]

theorem vamoXor (d : VReg) (a : XReg) (ix : VReg) (cls : Cls) (m : MReg) : Statement (.vamoXor d a ix cls m) := by
  intro c hc hw _
  obtain rfl := Option.some.inj (show some (.w32 (joinWord (hA 3 (r4 cls) (r5 ix) (r5 a)) (r5 d) 0x5b (r3 m))) = some c from hc)
  simp only [decodeCode, decodeWord, splitWord_joinWord, maj_5B]
  simp only [decVamo0, BitVec.ofNat_eq_ofNat, Fields.d, Fields.stall, Fields.m, Fields.mlo, zeroed, accept, x5_r5, x3_r3, x4_r4, x6_r6, mreg_m5, inMask_m5, coded_some, varLat_zero, RMode.ofCode_code, LdWidth.ofCode_code, StWidth.ofCode_code, Scope.ofCode_code, VCmpOp.ofCode_code, VFCmpOp.ofCode_code, RedOp.ofCode_code, off14_split, off19_split, decShift, decVmax, decVcmp, decVfcmp, decVm0, decVm1, decVmSc, beq_self_eq_true, Bool.and_self, ↓reduceIte, BitVec.toNat_ofNat, Nat.reducePow, Nat.reduceMod, Bool.and_true, Bool.not_false, hA_op2, hA_cls, hA_r2, hA_r1]

theorem vamoMin (d : VReg) (a : XReg) (ix : VReg) (cls : Cls) (m : MReg) : Statement (.vamoMin d a ix cls m) := by
  intro c hc hw _
  obtain rfl := Option.some.inj (show some (.w32 (joinWord (hA 0 (r4 cls) (r5 ix) (r5 a)) (r5 d) 0x5c (r3 m))) = some c from hc)
  simp only [decodeCode, decodeWord, splitWord_joinWord, maj_5C]
  simp only [decVamo1, BitVec.ofNat_eq_ofNat, Fields.d, Fields.stall, Fields.m, Fields.mlo, zeroed, accept, x5_r5, x3_r3, x4_r4, x6_r6, mreg_m5, inMask_m5, coded_some, varLat_zero, RMode.ofCode_code, LdWidth.ofCode_code, StWidth.ofCode_code, Scope.ofCode_code, VCmpOp.ofCode_code, VFCmpOp.ofCode_code, RedOp.ofCode_code, off14_split, off19_split, decShift, decVmax, decVcmp, decVfcmp, decVm0, decVm1, decVmSc, beq_self_eq_true, Bool.and_self, ↓reduceIte, BitVec.toNat_ofNat, Nat.reducePow, Nat.reduceMod, Bool.and_true, Bool.not_false, hA_op2, hA_cls, hA_r2, hA_r1]

theorem vamoMax (d : VReg) (a : XReg) (ix : VReg) (cls : Cls) (m : MReg) : Statement (.vamoMax d a ix cls m) := by
  intro c hc hw _
  obtain rfl := Option.some.inj (show some (.w32 (joinWord (hA 1 (r4 cls) (r5 ix) (r5 a)) (r5 d) 0x5c (r3 m))) = some c from hc)
  simp only [decodeCode, decodeWord, splitWord_joinWord, maj_5C]
  simp only [decVamo1, BitVec.ofNat_eq_ofNat, Fields.d, Fields.stall, Fields.m, Fields.mlo, zeroed, accept, x5_r5, x3_r3, x4_r4, x6_r6, mreg_m5, inMask_m5, coded_some, varLat_zero, RMode.ofCode_code, LdWidth.ofCode_code, StWidth.ofCode_code, Scope.ofCode_code, VCmpOp.ofCode_code, VFCmpOp.ofCode_code, RedOp.ofCode_code, off14_split, off19_split, decShift, decVmax, decVcmp, decVfcmp, decVm0, decVm1, decVmSc, beq_self_eq_true, Bool.and_self, ↓reduceIte, BitVec.toNat_ofNat, Nat.reducePow, Nat.reduceMod, Bool.and_true, Bool.not_false, hA_op2, hA_cls, hA_r2, hA_r1]

theorem vamoMinn (d : VReg) (a : XReg) (ix : VReg) (cls : Cls) (m : MReg) : Statement (.vamoMinn d a ix cls m) := by
  intro c hc hw _
  obtain rfl := Option.some.inj (show some (.w32 (joinWord (hA 2 (r4 cls) (r5 ix) (r5 a)) (r5 d) 0x5c (r3 m))) = some c from hc)
  simp only [decodeCode, decodeWord, splitWord_joinWord, maj_5C]
  simp only [decVamo1, BitVec.ofNat_eq_ofNat, Fields.d, Fields.stall, Fields.m, Fields.mlo, zeroed, accept, x5_r5, x3_r3, x4_r4, x6_r6, mreg_m5, inMask_m5, coded_some, varLat_zero, RMode.ofCode_code, LdWidth.ofCode_code, StWidth.ofCode_code, Scope.ofCode_code, VCmpOp.ofCode_code, VFCmpOp.ofCode_code, RedOp.ofCode_code, off14_split, off19_split, decShift, decVmax, decVcmp, decVfcmp, decVm0, decVm1, decVmSc, beq_self_eq_true, Bool.and_self, ↓reduceIte, BitVec.toNat_ofNat, Nat.reducePow, Nat.reduceMod, Bool.and_true, Bool.not_false, hA_op2, hA_cls, hA_r2, hA_r1]

theorem vamoMaxn (d : VReg) (a : XReg) (ix : VReg) (cls : Cls) (m : MReg) : Statement (.vamoMaxn d a ix cls m) := by
  intro c hc hw _
  obtain rfl := Option.some.inj (show some (.w32 (joinWord (hA 3 (r4 cls) (r5 ix) (r5 a)) (r5 d) 0x5c (r3 m))) = some c from hc)
  simp only [decodeCode, decodeWord, splitWord_joinWord, maj_5C]
  simp only [decVamo1, BitVec.ofNat_eq_ofNat, Fields.d, Fields.stall, Fields.m, Fields.mlo, zeroed, accept, x5_r5, x3_r3, x4_r4, x6_r6, mreg_m5, inMask_m5, coded_some, varLat_zero, RMode.ofCode_code, LdWidth.ofCode_code, StWidth.ofCode_code, Scope.ofCode_code, VCmpOp.ofCode_code, VFCmpOp.ofCode_code, RedOp.ofCode_code, off14_split, off19_split, decShift, decVmax, decVcmp, decVfcmp, decVm0, decVm1, decVmSc, beq_self_eq_true, Bool.and_self, ↓reduceIte, BitVec.toNat_ofNat, Nat.reducePow, Nat.reduceMod, Bool.and_true, Bool.not_false, hA_op2, hA_cls, hA_r2, hA_r1]

theorem vamoSwap (d : VReg) (a : XReg) (ix : VReg) (cls : Cls) (m : MReg) : Statement (.vamoSwap d a ix cls m) := by
  intro c hc hw _
  obtain rfl := Option.some.inj (show some (.w32 (joinWord (hA 0 (r4 cls) (r5 ix) (r5 a)) (r5 d) 0x5d (r3 m))) = some c from hc)
  simp only [decodeCode, decodeWord, splitWord_joinWord, maj_5D]
  simp only [decVamo2, BitVec.ofNat_eq_ofNat, Fields.d, Fields.stall, Fields.m, Fields.mlo, zeroed, accept, x5_r5, x3_r3, x4_r4, x6_r6, mreg_m5, inMask_m5, coded_some, varLat_zero, RMode.ofCode_code, LdWidth.ofCode_code, StWidth.ofCode_code, Scope.ofCode_code, VCmpOp.ofCode_code, VFCmpOp.ofCode_code, RedOp.ofCode_code, off14_split, off19_split, decShift, decVmax, decVcmp, decVfcmp, decVm0, decVm1, decVmSc, beq_self_eq_true, Bool.and_self, ↓reduceIte, BitVec.toNat_ofNat, Nat.reducePow, Nat.reduceMod, Bool.and_true, Bool.not_false, hA_op2, hA_cls, hA_r2, hA_r1]

theorem vamoCas (d : VReg) (a : XReg) (ix : VReg) (cls : Cls) (m : MReg) : Statement (.vamoCas d a ix cls m) := by
  intro c hc hw _
  obtain rfl := Option.some.inj (show some (.w32 (joinWord (hA 1 (r4 cls) (r5 ix) (r5 a)) (r5 d) 0x5d (r3 m))) = some c from hc)
  simp only [decodeCode, decodeWord, splitWord_joinWord, maj_5D]
  simp only [decVamo2, BitVec.ofNat_eq_ofNat, Fields.d, Fields.stall, Fields.m, Fields.mlo, zeroed, accept, x5_r5, x3_r3, x4_r4, x6_r6, mreg_m5, inMask_m5, coded_some, varLat_zero, RMode.ofCode_code, LdWidth.ofCode_code, StWidth.ofCode_code, Scope.ofCode_code, VCmpOp.ofCode_code, VFCmpOp.ofCode_code, RedOp.ofCode_code, off14_split, off19_split, decShift, decVmax, decVcmp, decVfcmp, decVm0, decVm1, decVmSc, beq_self_eq_true, Bool.and_self, ↓reduceIte, BitVec.toNat_ofNat, Nat.reducePow, Nat.reduceMod, Bool.and_true, Bool.not_false, hA_op2, hA_cls, hA_r2, hA_r1]

theorem vamoFadd (d : VReg) (a : XReg) (ix : VReg) (cls : Cls) (m : MReg) : Statement (.vamoFadd d a ix cls m) := by
  intro c hc hw _
  obtain rfl := Option.some.inj (show some (.w32 (joinWord (hA 2 (r4 cls) (r5 ix) (r5 a)) (r5 d) 0x5d (r3 m))) = some c from hc)
  simp only [decodeCode, decodeWord, splitWord_joinWord, maj_5D]
  simp only [decVamo2, BitVec.ofNat_eq_ofNat, Fields.d, Fields.stall, Fields.m, Fields.mlo, zeroed, accept, x5_r5, x3_r3, x4_r4, x6_r6, mreg_m5, inMask_m5, coded_some, varLat_zero, RMode.ofCode_code, LdWidth.ofCode_code, StWidth.ofCode_code, Scope.ofCode_code, VCmpOp.ofCode_code, VFCmpOp.ofCode_code, RedOp.ofCode_code, off14_split, off19_split, decShift, decVmax, decVcmp, decVfcmp, decVm0, decVm1, decVmSc, beq_self_eq_true, Bool.and_self, ↓reduceIte, BitVec.toNat_ofNat, Nat.reducePow, Nat.reduceMod, Bool.and_true, Bool.not_false, hA_op2, hA_cls, hA_r2, hA_r1]

theorem vamoFAdd (d : VReg) (a : XReg) (ix : VReg) (cls : Cls) (m : MReg) : Statement (.vamoFAdd d a ix cls m) := by
  intro c hc hw _
  obtain rfl := Option.some.inj (show some (.w32 (joinWord (hA 0 (r4 cls) (r5 ix) (r5 a)) (r5 d) 0x5e (r3 m))) = some c from hc)
  simp only [decodeCode, decodeWord, splitWord_joinWord, maj_5E]
  simp only [decVamoF0, BitVec.ofNat_eq_ofNat, Fields.d, Fields.stall, Fields.m, Fields.mlo, zeroed, accept, x5_r5, x3_r3, x4_r4, x6_r6, mreg_m5, inMask_m5, coded_some, varLat_zero, RMode.ofCode_code, LdWidth.ofCode_code, StWidth.ofCode_code, Scope.ofCode_code, VCmpOp.ofCode_code, VFCmpOp.ofCode_code, RedOp.ofCode_code, off14_split, off19_split, decShift, decVmax, decVcmp, decVfcmp, decVm0, decVm1, decVmSc, beq_self_eq_true, Bool.and_self, ↓reduceIte, BitVec.toNat_ofNat, Nat.reducePow, Nat.reduceMod, Bool.and_true, Bool.not_false, hA_op2, hA_cls, hA_r2, hA_r1]

theorem vamoFAnd (d : VReg) (a : XReg) (ix : VReg) (cls : Cls) (m : MReg) : Statement (.vamoFAnd d a ix cls m) := by
  intro c hc hw _
  obtain rfl := Option.some.inj (show some (.w32 (joinWord (hA 1 (r4 cls) (r5 ix) (r5 a)) (r5 d) 0x5e (r3 m))) = some c from hc)
  simp only [decodeCode, decodeWord, splitWord_joinWord, maj_5E]
  simp only [decVamoF0, BitVec.ofNat_eq_ofNat, Fields.d, Fields.stall, Fields.m, Fields.mlo, zeroed, accept, x5_r5, x3_r3, x4_r4, x6_r6, mreg_m5, inMask_m5, coded_some, varLat_zero, RMode.ofCode_code, LdWidth.ofCode_code, StWidth.ofCode_code, Scope.ofCode_code, VCmpOp.ofCode_code, VFCmpOp.ofCode_code, RedOp.ofCode_code, off14_split, off19_split, decShift, decVmax, decVcmp, decVfcmp, decVm0, decVm1, decVmSc, beq_self_eq_true, Bool.and_self, ↓reduceIte, BitVec.toNat_ofNat, Nat.reducePow, Nat.reduceMod, Bool.and_true, Bool.not_false, hA_op2, hA_cls, hA_r2, hA_r1]

theorem vamoFOr (d : VReg) (a : XReg) (ix : VReg) (cls : Cls) (m : MReg) : Statement (.vamoFOr d a ix cls m) := by
  intro c hc hw _
  obtain rfl := Option.some.inj (show some (.w32 (joinWord (hA 2 (r4 cls) (r5 ix) (r5 a)) (r5 d) 0x5e (r3 m))) = some c from hc)
  simp only [decodeCode, decodeWord, splitWord_joinWord, maj_5E]
  simp only [decVamoF0, BitVec.ofNat_eq_ofNat, Fields.d, Fields.stall, Fields.m, Fields.mlo, zeroed, accept, x5_r5, x3_r3, x4_r4, x6_r6, mreg_m5, inMask_m5, coded_some, varLat_zero, RMode.ofCode_code, LdWidth.ofCode_code, StWidth.ofCode_code, Scope.ofCode_code, VCmpOp.ofCode_code, VFCmpOp.ofCode_code, RedOp.ofCode_code, off14_split, off19_split, decShift, decVmax, decVcmp, decVfcmp, decVm0, decVm1, decVmSc, beq_self_eq_true, Bool.and_self, ↓reduceIte, BitVec.toNat_ofNat, Nat.reducePow, Nat.reduceMod, Bool.and_true, Bool.not_false, hA_op2, hA_cls, hA_r2, hA_r1]

theorem vamoFXor (d : VReg) (a : XReg) (ix : VReg) (cls : Cls) (m : MReg) : Statement (.vamoFXor d a ix cls m) := by
  intro c hc hw _
  obtain rfl := Option.some.inj (show some (.w32 (joinWord (hA 3 (r4 cls) (r5 ix) (r5 a)) (r5 d) 0x5e (r3 m))) = some c from hc)
  simp only [decodeCode, decodeWord, splitWord_joinWord, maj_5E]
  simp only [decVamoF0, BitVec.ofNat_eq_ofNat, Fields.d, Fields.stall, Fields.m, Fields.mlo, zeroed, accept, x5_r5, x3_r3, x4_r4, x6_r6, mreg_m5, inMask_m5, coded_some, varLat_zero, RMode.ofCode_code, LdWidth.ofCode_code, StWidth.ofCode_code, Scope.ofCode_code, VCmpOp.ofCode_code, VFCmpOp.ofCode_code, RedOp.ofCode_code, off14_split, off19_split, decShift, decVmax, decVcmp, decVfcmp, decVm0, decVm1, decVmSc, beq_self_eq_true, Bool.and_self, ↓reduceIte, BitVec.toNat_ofNat, Nat.reducePow, Nat.reduceMod, Bool.and_true, Bool.not_false, hA_op2, hA_cls, hA_r2, hA_r1]

theorem vamoFMin (d : VReg) (a : XReg) (ix : VReg) (cls : Cls) (m : MReg) : Statement (.vamoFMin d a ix cls m) := by
  intro c hc hw _
  obtain rfl := Option.some.inj (show some (.w32 (joinWord (hA 0 (r4 cls) (r5 ix) (r5 a)) (r5 d) 0x5f (r3 m))) = some c from hc)
  simp only [decodeCode, decodeWord, splitWord_joinWord, maj_5F]
  simp only [decVamoF1, BitVec.ofNat_eq_ofNat, Fields.d, Fields.stall, Fields.m, Fields.mlo, zeroed, accept, x5_r5, x3_r3, x4_r4, x6_r6, mreg_m5, inMask_m5, coded_some, varLat_zero, RMode.ofCode_code, LdWidth.ofCode_code, StWidth.ofCode_code, Scope.ofCode_code, VCmpOp.ofCode_code, VFCmpOp.ofCode_code, RedOp.ofCode_code, off14_split, off19_split, decShift, decVmax, decVcmp, decVfcmp, decVm0, decVm1, decVmSc, beq_self_eq_true, Bool.and_self, ↓reduceIte, BitVec.toNat_ofNat, Nat.reducePow, Nat.reduceMod, Bool.and_true, Bool.not_false, hA_op2, hA_cls, hA_r2, hA_r1]

theorem vamoFMax (d : VReg) (a : XReg) (ix : VReg) (cls : Cls) (m : MReg) : Statement (.vamoFMax d a ix cls m) := by
  intro c hc hw _
  obtain rfl := Option.some.inj (show some (.w32 (joinWord (hA 1 (r4 cls) (r5 ix) (r5 a)) (r5 d) 0x5f (r3 m))) = some c from hc)
  simp only [decodeCode, decodeWord, splitWord_joinWord, maj_5F]
  simp only [decVamoF1, BitVec.ofNat_eq_ofNat, Fields.d, Fields.stall, Fields.m, Fields.mlo, zeroed, accept, x5_r5, x3_r3, x4_r4, x6_r6, mreg_m5, inMask_m5, coded_some, varLat_zero, RMode.ofCode_code, LdWidth.ofCode_code, StWidth.ofCode_code, Scope.ofCode_code, VCmpOp.ofCode_code, VFCmpOp.ofCode_code, RedOp.ofCode_code, off14_split, off19_split, decShift, decVmax, decVcmp, decVfcmp, decVm0, decVm1, decVmSc, beq_self_eq_true, Bool.and_self, ↓reduceIte, BitVec.toNat_ofNat, Nat.reducePow, Nat.reduceMod, Bool.and_true, Bool.not_false, hA_op2, hA_cls, hA_r2, hA_r1]

theorem vamoFMinn (d : VReg) (a : XReg) (ix : VReg) (cls : Cls) (m : MReg) : Statement (.vamoFMinn d a ix cls m) := by
  intro c hc hw _
  obtain rfl := Option.some.inj (show some (.w32 (joinWord (hA 2 (r4 cls) (r5 ix) (r5 a)) (r5 d) 0x5f (r3 m))) = some c from hc)
  simp only [decodeCode, decodeWord, splitWord_joinWord, maj_5F]
  simp only [decVamoF1, BitVec.ofNat_eq_ofNat, Fields.d, Fields.stall, Fields.m, Fields.mlo, zeroed, accept, x5_r5, x3_r3, x4_r4, x6_r6, mreg_m5, inMask_m5, coded_some, varLat_zero, RMode.ofCode_code, LdWidth.ofCode_code, StWidth.ofCode_code, Scope.ofCode_code, VCmpOp.ofCode_code, VFCmpOp.ofCode_code, RedOp.ofCode_code, off14_split, off19_split, decShift, decVmax, decVcmp, decVfcmp, decVm0, decVm1, decVmSc, beq_self_eq_true, Bool.and_self, ↓reduceIte, BitVec.toNat_ofNat, Nat.reducePow, Nat.reduceMod, Bool.and_true, Bool.not_false, hA_op2, hA_cls, hA_r2, hA_r1]

theorem vamoFMaxn (d : VReg) (a : XReg) (ix : VReg) (cls : Cls) (m : MReg) : Statement (.vamoFMaxn d a ix cls m) := by
  intro c hc hw _
  obtain rfl := Option.some.inj (show some (.w32 (joinWord (hA 3 (r4 cls) (r5 ix) (r5 a)) (r5 d) 0x5f (r3 m))) = some c from hc)
  simp only [decodeCode, decodeWord, splitWord_joinWord, maj_5F]
  simp only [decVamoF1, BitVec.ofNat_eq_ofNat, Fields.d, Fields.stall, Fields.m, Fields.mlo, zeroed, accept, x5_r5, x3_r3, x4_r4, x6_r6, mreg_m5, inMask_m5, coded_some, varLat_zero, RMode.ofCode_code, LdWidth.ofCode_code, StWidth.ofCode_code, Scope.ofCode_code, VCmpOp.ofCode_code, VFCmpOp.ofCode_code, RedOp.ofCode_code, off14_split, off19_split, decShift, decVmax, decVcmp, decVfcmp, decVm0, decVm1, decVmSc, beq_self_eq_true, Bool.and_self, ↓reduceIte, BitVec.toNat_ofNat, Nat.reducePow, Nat.reduceMod, Bool.and_true, Bool.not_false, hA_op2, hA_cls, hA_r2, hA_r1]

theorem vamoFSwap (d : VReg) (a : XReg) (ix : VReg) (cls : Cls) (m : MReg) : Statement (.vamoFSwap d a ix cls m) := by
  intro c hc hw _
  obtain rfl := Option.some.inj (show some (.w32 (joinWord (hA 0 (r4 cls) (r5 ix) (r5 a)) (r5 d) 0x60 (r3 m))) = some c from hc)
  simp only [decodeCode, decodeWord, splitWord_joinWord, maj_60]
  simp only [decVamoF2, BitVec.ofNat_eq_ofNat, Fields.d, Fields.stall, Fields.m, Fields.mlo, zeroed, accept, x5_r5, x3_r3, x4_r4, x6_r6, mreg_m5, inMask_m5, coded_some, varLat_zero, RMode.ofCode_code, LdWidth.ofCode_code, StWidth.ofCode_code, Scope.ofCode_code, VCmpOp.ofCode_code, VFCmpOp.ofCode_code, RedOp.ofCode_code, off14_split, off19_split, decShift, decVmax, decVcmp, decVfcmp, decVm0, decVm1, decVmSc, beq_self_eq_true, Bool.and_self, ↓reduceIte, BitVec.toNat_ofNat, Nat.reducePow, Nat.reduceMod, Bool.and_true, Bool.not_false, hA_op2, hA_cls, hA_r2, hA_r1]

theorem vamoFCas (d : VReg) (a : XReg) (ix : VReg) (cls : Cls) (m : MReg) : Statement (.vamoFCas d a ix cls m) := by
  intro c hc hw _
  obtain rfl := Option.some.inj (show some (.w32 (joinWord (hA 1 (r4 cls) (r5 ix) (r5 a)) (r5 d) 0x60 (r3 m))) = some c from hc)
  simp only [decodeCode, decodeWord, splitWord_joinWord, maj_60]
  simp only [decVamoF2, BitVec.ofNat_eq_ofNat, Fields.d, Fields.stall, Fields.m, Fields.mlo, zeroed, accept, x5_r5, x3_r3, x4_r4, x6_r6, mreg_m5, inMask_m5, coded_some, varLat_zero, RMode.ofCode_code, LdWidth.ofCode_code, StWidth.ofCode_code, Scope.ofCode_code, VCmpOp.ofCode_code, VFCmpOp.ofCode_code, RedOp.ofCode_code, off14_split, off19_split, decShift, decVmax, decVcmp, decVfcmp, decVm0, decVm1, decVmSc, beq_self_eq_true, Bool.and_self, ↓reduceIte, BitVec.toNat_ofNat, Nat.reducePow, Nat.reduceMod, Bool.and_true, Bool.not_false, hA_op2, hA_cls, hA_r2, hA_r1]

theorem vamoFFadd (d : VReg) (a : XReg) (ix : VReg) (cls : Cls) (m : MReg) : Statement (.vamoFFadd d a ix cls m) := by
  intro c hc hw _
  obtain rfl := Option.some.inj (show some (.w32 (joinWord (hA 2 (r4 cls) (r5 ix) (r5 a)) (r5 d) 0x60 (r3 m))) = some c from hc)
  simp only [decodeCode, decodeWord, splitWord_joinWord, maj_60]
  simp only [decVamoF2, BitVec.ofNat_eq_ofNat, Fields.d, Fields.stall, Fields.m, Fields.mlo, zeroed, accept, x5_r5, x3_r3, x4_r4, x6_r6, mreg_m5, inMask_m5, coded_some, varLat_zero, RMode.ofCode_code, LdWidth.ofCode_code, StWidth.ofCode_code, Scope.ofCode_code, VCmpOp.ofCode_code, VFCmpOp.ofCode_code, RedOp.ofCode_code, off14_split, off19_split, decShift, decVmax, decVcmp, decVfcmp, decVm0, decVm1, decVmSc, beq_self_eq_true, Bool.and_self, ↓reduceIte, BitVec.toNat_ofNat, Nat.reducePow, Nat.reduceMod, Bool.and_true, Bool.not_false, hA_op2, hA_cls, hA_r2, hA_r1]

theorem add (d : XReg) (a : XReg) (b : XReg) (st : Stall) : Statement (.add d a b st) := by
  intro c hc hw _
  obtain rfl := Option.some.inj (show some (.w32 (joinWord (hR 0 (r5 b) (r5 a)) (r5 d) 0x01 (r3 st))) = some c from hc)
  simp only [decodeCode, decodeWord, splitWord_joinWord, maj_01]
  simp only [decInt, BitVec.ofNat_eq_ofNat, Fields.d, Fields.stall, Fields.m, Fields.mlo, zeroed, accept, x5_r5, x3_r3, x4_r4, x6_r6, mreg_m5, inMask_m5, coded_some, varLat_zero, RMode.ofCode_code, LdWidth.ofCode_code, StWidth.ofCode_code, Scope.ofCode_code, VCmpOp.ofCode_code, VFCmpOp.ofCode_code, RedOp.ofCode_code, off14_split, off19_split, decShift, decVmax, decVcmp, decVfcmp, decVm0, decVm1, decVmSc, beq_self_eq_true, Bool.and_self, ↓reduceIte, BitVec.toNat_ofNat, Nat.reducePow, Nat.reduceMod, Bool.and_true, Bool.not_false, hR_funct6, hR_r2, hR_r1]

theorem sub (d : XReg) (a : XReg) (b : XReg) (st : Stall) : Statement (.sub d a b st) := by
  intro c hc hw _
  obtain rfl := Option.some.inj (show some (.w32 (joinWord (hR 1 (r5 b) (r5 a)) (r5 d) 0x01 (r3 st))) = some c from hc)
  simp only [decodeCode, decodeWord, splitWord_joinWord, maj_01]
  simp only [decInt, BitVec.ofNat_eq_ofNat, Fields.d, Fields.stall, Fields.m, Fields.mlo, zeroed, accept, x5_r5, x3_r3, x4_r4, x6_r6, mreg_m5, inMask_m5, coded_some, varLat_zero, RMode.ofCode_code, LdWidth.ofCode_code, StWidth.ofCode_code, Scope.ofCode_code, VCmpOp.ofCode_code, VFCmpOp.ofCode_code, RedOp.ofCode_code, off14_split, off19_split, decShift, decVmax, decVcmp, decVfcmp, decVm0, decVm1, decVmSc, beq_self_eq_true, Bool.and_self, ↓reduceIte, BitVec.toNat_ofNat, Nat.reducePow, Nat.reduceMod, Bool.and_true, Bool.not_false, hR_funct6, hR_r2, hR_r1]

theorem mul (d : XReg) (a : XReg) (b : XReg) (st : Stall) : Statement (.mul d a b st) := by
  intro c hc hw _
  obtain rfl := Option.some.inj (show some (.w32 (joinWord (hR 2 (r5 b) (r5 a)) (r5 d) 0x01 (r3 st))) = some c from hc)
  simp only [decodeCode, decodeWord, splitWord_joinWord, maj_01]
  simp only [decInt, BitVec.ofNat_eq_ofNat, Fields.d, Fields.stall, Fields.m, Fields.mlo, zeroed, accept, x5_r5, x3_r3, x4_r4, x6_r6, mreg_m5, inMask_m5, coded_some, varLat_zero, RMode.ofCode_code, LdWidth.ofCode_code, StWidth.ofCode_code, Scope.ofCode_code, VCmpOp.ofCode_code, VFCmpOp.ofCode_code, RedOp.ofCode_code, off14_split, off19_split, decShift, decVmax, decVcmp, decVfcmp, decVm0, decVm1, decVmSc, beq_self_eq_true, Bool.and_self, ↓reduceIte, BitVec.toNat_ofNat, Nat.reducePow, Nat.reduceMod, Bool.and_true, Bool.not_false, hR_funct6, hR_r2, hR_r1]

theorem mulh (d : XReg) (a : XReg) (b : XReg) (st : Stall) : Statement (.mulh d a b st) := by
  intro c hc hw _
  obtain rfl := Option.some.inj (show some (.w32 (joinWord (hR 3 (r5 b) (r5 a)) (r5 d) 0x01 (r3 st))) = some c from hc)
  simp only [decodeCode, decodeWord, splitWord_joinWord, maj_01]
  simp only [decInt, BitVec.ofNat_eq_ofNat, Fields.d, Fields.stall, Fields.m, Fields.mlo, zeroed, accept, x5_r5, x3_r3, x4_r4, x6_r6, mreg_m5, inMask_m5, coded_some, varLat_zero, RMode.ofCode_code, LdWidth.ofCode_code, StWidth.ofCode_code, Scope.ofCode_code, VCmpOp.ofCode_code, VFCmpOp.ofCode_code, RedOp.ofCode_code, off14_split, off19_split, decShift, decVmax, decVcmp, decVfcmp, decVm0, decVm1, decVmSc, beq_self_eq_true, Bool.and_self, ↓reduceIte, BitVec.toNat_ofNat, Nat.reducePow, Nat.reduceMod, Bool.and_true, Bool.not_false, hR_funct6, hR_r2, hR_r1]

theorem mulhn (d : XReg) (a : XReg) (b : XReg) (st : Stall) : Statement (.mulhn d a b st) := by
  intro c hc hw _
  obtain rfl := Option.some.inj (show some (.w32 (joinWord (hR 4 (r5 b) (r5 a)) (r5 d) 0x01 (r3 st))) = some c from hc)
  simp only [decodeCode, decodeWord, splitWord_joinWord, maj_01]
  simp only [decInt, BitVec.ofNat_eq_ofNat, Fields.d, Fields.stall, Fields.m, Fields.mlo, zeroed, accept, x5_r5, x3_r3, x4_r4, x6_r6, mreg_m5, inMask_m5, coded_some, varLat_zero, RMode.ofCode_code, LdWidth.ofCode_code, StWidth.ofCode_code, Scope.ofCode_code, VCmpOp.ofCode_code, VFCmpOp.ofCode_code, RedOp.ofCode_code, off14_split, off19_split, decShift, decVmax, decVcmp, decVfcmp, decVm0, decVm1, decVmSc, beq_self_eq_true, Bool.and_self, ↓reduceIte, BitVec.toNat_ofNat, Nat.reducePow, Nat.reduceMod, Bool.and_true, Bool.not_false, hR_funct6, hR_r2, hR_r1]

theorem div (d : XReg) (a : XReg) (b : XReg) (st : Stall) : Statement (.div d a b st) := by
  intro c hc hw _
  obtain rfl := Option.some.inj (show some (.w32 (joinWord (hR 5 (r5 b) (r5 a)) (r5 d) 0x01 (r3 st))) = some c from hc)
  simp only [decodeCode, decodeWord, splitWord_joinWord, maj_01]
  simp only [decInt, BitVec.ofNat_eq_ofNat, Fields.d, Fields.stall, Fields.m, Fields.mlo, zeroed, accept, x5_r5, x3_r3, x4_r4, x6_r6, mreg_m5, inMask_m5, coded_some, varLat_zero, RMode.ofCode_code, LdWidth.ofCode_code, StWidth.ofCode_code, Scope.ofCode_code, VCmpOp.ofCode_code, VFCmpOp.ofCode_code, RedOp.ofCode_code, off14_split, off19_split, decShift, decVmax, decVcmp, decVfcmp, decVm0, decVm1, decVmSc, beq_self_eq_true, Bool.and_self, ↓reduceIte, BitVec.toNat_ofNat, Nat.reducePow, Nat.reduceMod, Bool.and_true, Bool.not_false, hR_funct6, hR_r2, hR_r1]

theorem divn (d : XReg) (a : XReg) (b : XReg) (st : Stall) : Statement (.divn d a b st) := by
  intro c hc hw _
  obtain rfl := Option.some.inj (show some (.w32 (joinWord (hR 6 (r5 b) (r5 a)) (r5 d) 0x01 (r3 st))) = some c from hc)
  simp only [decodeCode, decodeWord, splitWord_joinWord, maj_01]
  simp only [decInt, BitVec.ofNat_eq_ofNat, Fields.d, Fields.stall, Fields.m, Fields.mlo, zeroed, accept, x5_r5, x3_r3, x4_r4, x6_r6, mreg_m5, inMask_m5, coded_some, varLat_zero, RMode.ofCode_code, LdWidth.ofCode_code, StWidth.ofCode_code, Scope.ofCode_code, VCmpOp.ofCode_code, VFCmpOp.ofCode_code, RedOp.ofCode_code, off14_split, off19_split, decShift, decVmax, decVcmp, decVfcmp, decVm0, decVm1, decVmSc, beq_self_eq_true, Bool.and_self, ↓reduceIte, BitVec.toNat_ofNat, Nat.reducePow, Nat.reduceMod, Bool.and_true, Bool.not_false, hR_funct6, hR_r2, hR_r1]

theorem rem (d : XReg) (a : XReg) (b : XReg) (st : Stall) : Statement (.rem d a b st) := by
  intro c hc hw _
  obtain rfl := Option.some.inj (show some (.w32 (joinWord (hR 7 (r5 b) (r5 a)) (r5 d) 0x01 (r3 st))) = some c from hc)
  simp only [decodeCode, decodeWord, splitWord_joinWord, maj_01]
  simp only [decInt, BitVec.ofNat_eq_ofNat, Fields.d, Fields.stall, Fields.m, Fields.mlo, zeroed, accept, x5_r5, x3_r3, x4_r4, x6_r6, mreg_m5, inMask_m5, coded_some, varLat_zero, RMode.ofCode_code, LdWidth.ofCode_code, StWidth.ofCode_code, Scope.ofCode_code, VCmpOp.ofCode_code, VFCmpOp.ofCode_code, RedOp.ofCode_code, off14_split, off19_split, decShift, decVmax, decVcmp, decVfcmp, decVm0, decVm1, decVmSc, beq_self_eq_true, Bool.and_self, ↓reduceIte, BitVec.toNat_ofNat, Nat.reducePow, Nat.reduceMod, Bool.and_true, Bool.not_false, hR_funct6, hR_r2, hR_r1]

theorem remn (d : XReg) (a : XReg) (b : XReg) (st : Stall) : Statement (.remn d a b st) := by
  intro c hc hw _
  obtain rfl := Option.some.inj (show some (.w32 (joinWord (hR 8 (r5 b) (r5 a)) (r5 d) 0x01 (r3 st))) = some c from hc)
  simp only [decodeCode, decodeWord, splitWord_joinWord, maj_01]
  simp only [decInt, BitVec.ofNat_eq_ofNat, Fields.d, Fields.stall, Fields.m, Fields.mlo, zeroed, accept, x5_r5, x3_r3, x4_r4, x6_r6, mreg_m5, inMask_m5, coded_some, varLat_zero, RMode.ofCode_code, LdWidth.ofCode_code, StWidth.ofCode_code, Scope.ofCode_code, VCmpOp.ofCode_code, VFCmpOp.ofCode_code, RedOp.ofCode_code, off14_split, off19_split, decShift, decVmax, decVcmp, decVfcmp, decVm0, decVm1, decVmSc, beq_self_eq_true, Bool.and_self, ↓reduceIte, BitVec.toNat_ofNat, Nat.reducePow, Nat.reduceMod, Bool.and_true, Bool.not_false, hR_funct6, hR_r2, hR_r1]

theorem and (d : XReg) (a : XReg) (b : XReg) (st : Stall) : Statement (.and d a b st) := by
  intro c hc hw _
  obtain rfl := Option.some.inj (show some (.w32 (joinWord (hR 9 (r5 b) (r5 a)) (r5 d) 0x01 (r3 st))) = some c from hc)
  simp only [decodeCode, decodeWord, splitWord_joinWord, maj_01]
  simp only [decInt, BitVec.ofNat_eq_ofNat, Fields.d, Fields.stall, Fields.m, Fields.mlo, zeroed, accept, x5_r5, x3_r3, x4_r4, x6_r6, mreg_m5, inMask_m5, coded_some, varLat_zero, RMode.ofCode_code, LdWidth.ofCode_code, StWidth.ofCode_code, Scope.ofCode_code, VCmpOp.ofCode_code, VFCmpOp.ofCode_code, RedOp.ofCode_code, off14_split, off19_split, decShift, decVmax, decVcmp, decVfcmp, decVm0, decVm1, decVmSc, beq_self_eq_true, Bool.and_self, ↓reduceIte, BitVec.toNat_ofNat, Nat.reducePow, Nat.reduceMod, Bool.and_true, Bool.not_false, hR_funct6, hR_r2, hR_r1]

theorem or (d : XReg) (a : XReg) (b : XReg) (st : Stall) : Statement (.or d a b st) := by
  intro c hc hw _
  obtain rfl := Option.some.inj (show some (.w32 (joinWord (hR 10 (r5 b) (r5 a)) (r5 d) 0x01 (r3 st))) = some c from hc)
  simp only [decodeCode, decodeWord, splitWord_joinWord, maj_01]
  simp only [decInt, BitVec.ofNat_eq_ofNat, Fields.d, Fields.stall, Fields.m, Fields.mlo, zeroed, accept, x5_r5, x3_r3, x4_r4, x6_r6, mreg_m5, inMask_m5, coded_some, varLat_zero, RMode.ofCode_code, LdWidth.ofCode_code, StWidth.ofCode_code, Scope.ofCode_code, VCmpOp.ofCode_code, VFCmpOp.ofCode_code, RedOp.ofCode_code, off14_split, off19_split, decShift, decVmax, decVcmp, decVfcmp, decVm0, decVm1, decVmSc, beq_self_eq_true, Bool.and_self, ↓reduceIte, BitVec.toNat_ofNat, Nat.reducePow, Nat.reduceMod, Bool.and_true, Bool.not_false, hR_funct6, hR_r2, hR_r1]

theorem xor (d : XReg) (a : XReg) (b : XReg) (st : Stall) : Statement (.xor d a b st) := by
  intro c hc hw _
  obtain rfl := Option.some.inj (show some (.w32 (joinWord (hR 11 (r5 b) (r5 a)) (r5 d) 0x01 (r3 st))) = some c from hc)
  simp only [decodeCode, decodeWord, splitWord_joinWord, maj_01]
  simp only [decInt, BitVec.ofNat_eq_ofNat, Fields.d, Fields.stall, Fields.m, Fields.mlo, zeroed, accept, x5_r5, x3_r3, x4_r4, x6_r6, mreg_m5, inMask_m5, coded_some, varLat_zero, RMode.ofCode_code, LdWidth.ofCode_code, StWidth.ofCode_code, Scope.ofCode_code, VCmpOp.ofCode_code, VFCmpOp.ofCode_code, RedOp.ofCode_code, off14_split, off19_split, decShift, decVmax, decVcmp, decVfcmp, decVm0, decVm1, decVmSc, beq_self_eq_true, Bool.and_self, ↓reduceIte, BitVec.toNat_ofNat, Nat.reducePow, Nat.reduceMod, Bool.and_true, Bool.not_false, hR_funct6, hR_r2, hR_r1]

theorem shl (d : XReg) (a : XReg) (b : XReg) (st : Stall) : Statement (.shl d a b st) := by
  intro c hc hw _
  obtain rfl := Option.some.inj (show some (.w32 (joinWord (hR 12 (r5 b) (r5 a)) (r5 d) 0x01 (r3 st))) = some c from hc)
  simp only [decodeCode, decodeWord, splitWord_joinWord, maj_01]
  simp only [decInt, BitVec.ofNat_eq_ofNat, Fields.d, Fields.stall, Fields.m, Fields.mlo, zeroed, accept, x5_r5, x3_r3, x4_r4, x6_r6, mreg_m5, inMask_m5, coded_some, varLat_zero, RMode.ofCode_code, LdWidth.ofCode_code, StWidth.ofCode_code, Scope.ofCode_code, VCmpOp.ofCode_code, VFCmpOp.ofCode_code, RedOp.ofCode_code, off14_split, off19_split, decShift, decVmax, decVcmp, decVfcmp, decVm0, decVm1, decVmSc, beq_self_eq_true, Bool.and_self, ↓reduceIte, BitVec.toNat_ofNat, Nat.reducePow, Nat.reduceMod, Bool.and_true, Bool.not_false, hR_funct6, hR_r2, hR_r1]

theorem shr (d : XReg) (a : XReg) (b : XReg) (st : Stall) : Statement (.shr d a b st) := by
  intro c hc hw _
  obtain rfl := Option.some.inj (show some (.w32 (joinWord (hR 13 (r5 b) (r5 a)) (r5 d) 0x01 (r3 st))) = some c from hc)
  simp only [decodeCode, decodeWord, splitWord_joinWord, maj_01]
  simp only [decInt, BitVec.ofNat_eq_ofNat, Fields.d, Fields.stall, Fields.m, Fields.mlo, zeroed, accept, x5_r5, x3_r3, x4_r4, x6_r6, mreg_m5, inMask_m5, coded_some, varLat_zero, RMode.ofCode_code, LdWidth.ofCode_code, StWidth.ofCode_code, Scope.ofCode_code, VCmpOp.ofCode_code, VFCmpOp.ofCode_code, RedOp.ofCode_code, off14_split, off19_split, decShift, decVmax, decVcmp, decVfcmp, decVm0, decVm1, decVmSc, beq_self_eq_true, Bool.and_self, ↓reduceIte, BitVec.toNat_ofNat, Nat.reducePow, Nat.reduceMod, Bool.and_true, Bool.not_false, hR_funct6, hR_r2, hR_r1]

theorem sra (d : XReg) (a : XReg) (b : XReg) (st : Stall) : Statement (.sra d a b st) := by
  intro c hc hw _
  obtain rfl := Option.some.inj (show some (.w32 (joinWord (hR 14 (r5 b) (r5 a)) (r5 d) 0x01 (r3 st))) = some c from hc)
  simp only [decodeCode, decodeWord, splitWord_joinWord, maj_01]
  simp only [decInt, BitVec.ofNat_eq_ofNat, Fields.d, Fields.stall, Fields.m, Fields.mlo, zeroed, accept, x5_r5, x3_r3, x4_r4, x6_r6, mreg_m5, inMask_m5, coded_some, varLat_zero, RMode.ofCode_code, LdWidth.ofCode_code, StWidth.ofCode_code, Scope.ofCode_code, VCmpOp.ofCode_code, VFCmpOp.ofCode_code, RedOp.ofCode_code, off14_split, off19_split, decShift, decVmax, decVcmp, decVfcmp, decVm0, decVm1, decVmSc, beq_self_eq_true, Bool.and_self, ↓reduceIte, BitVec.toNat_ofNat, Nat.reducePow, Nat.reduceMod, Bool.and_true, Bool.not_false, hR_funct6, hR_r2, hR_r1]

theorem min (d : XReg) (a : XReg) (b : XReg) (st : Stall) : Statement (.min d a b st) := by
  intro c hc hw _
  obtain rfl := Option.some.inj (show some (.w32 (joinWord (hR 15 (r5 b) (r5 a)) (r5 d) 0x01 (r3 st))) = some c from hc)
  simp only [decodeCode, decodeWord, splitWord_joinWord, maj_01]
  simp only [decInt, BitVec.ofNat_eq_ofNat, Fields.d, Fields.stall, Fields.m, Fields.mlo, zeroed, accept, x5_r5, x3_r3, x4_r4, x6_r6, mreg_m5, inMask_m5, coded_some, varLat_zero, RMode.ofCode_code, LdWidth.ofCode_code, StWidth.ofCode_code, Scope.ofCode_code, VCmpOp.ofCode_code, VFCmpOp.ofCode_code, RedOp.ofCode_code, off14_split, off19_split, decShift, decVmax, decVcmp, decVfcmp, decVm0, decVm1, decVmSc, beq_self_eq_true, Bool.and_self, ↓reduceIte, BitVec.toNat_ofNat, Nat.reducePow, Nat.reduceMod, Bool.and_true, Bool.not_false, hR_funct6, hR_r2, hR_r1]

theorem max (d : XReg) (a : XReg) (b : XReg) (st : Stall) : Statement (.max d a b st) := by
  intro c hc hw _
  obtain rfl := Option.some.inj (show some (.w32 (joinWord (hR 16 (r5 b) (r5 a)) (r5 d) 0x01 (r3 st))) = some c from hc)
  simp only [decodeCode, decodeWord, splitWord_joinWord, maj_01]
  simp only [decInt, BitVec.ofNat_eq_ofNat, Fields.d, Fields.stall, Fields.m, Fields.mlo, zeroed, accept, x5_r5, x3_r3, x4_r4, x6_r6, mreg_m5, inMask_m5, coded_some, varLat_zero, RMode.ofCode_code, LdWidth.ofCode_code, StWidth.ofCode_code, Scope.ofCode_code, VCmpOp.ofCode_code, VFCmpOp.ofCode_code, RedOp.ofCode_code, off14_split, off19_split, decShift, decVmax, decVcmp, decVfcmp, decVm0, decVm1, decVmSc, beq_self_eq_true, Bool.and_self, ↓reduceIte, BitVec.toNat_ofNat, Nat.reducePow, Nat.reduceMod, Bool.and_true, Bool.not_false, hR_funct6, hR_r2, hR_r1]

theorem minn (d : XReg) (a : XReg) (b : XReg) (st : Stall) : Statement (.minn d a b st) := by
  intro c hc hw _
  obtain rfl := Option.some.inj (show some (.w32 (joinWord (hR 17 (r5 b) (r5 a)) (r5 d) 0x01 (r3 st))) = some c from hc)
  simp only [decodeCode, decodeWord, splitWord_joinWord, maj_01]
  simp only [decInt, BitVec.ofNat_eq_ofNat, Fields.d, Fields.stall, Fields.m, Fields.mlo, zeroed, accept, x5_r5, x3_r3, x4_r4, x6_r6, mreg_m5, inMask_m5, coded_some, varLat_zero, RMode.ofCode_code, LdWidth.ofCode_code, StWidth.ofCode_code, Scope.ofCode_code, VCmpOp.ofCode_code, VFCmpOp.ofCode_code, RedOp.ofCode_code, off14_split, off19_split, decShift, decVmax, decVcmp, decVfcmp, decVm0, decVm1, decVmSc, beq_self_eq_true, Bool.and_self, ↓reduceIte, BitVec.toNat_ofNat, Nat.reducePow, Nat.reduceMod, Bool.and_true, Bool.not_false, hR_funct6, hR_r2, hR_r1]

theorem maxn (d : XReg) (a : XReg) (b : XReg) (st : Stall) : Statement (.maxn d a b st) := by
  intro c hc hw _
  obtain rfl := Option.some.inj (show some (.w32 (joinWord (hR 18 (r5 b) (r5 a)) (r5 d) 0x01 (r3 st))) = some c from hc)
  simp only [decodeCode, decodeWord, splitWord_joinWord, maj_01]
  simp only [decInt, BitVec.ofNat_eq_ofNat, Fields.d, Fields.stall, Fields.m, Fields.mlo, zeroed, accept, x5_r5, x3_r3, x4_r4, x6_r6, mreg_m5, inMask_m5, coded_some, varLat_zero, RMode.ofCode_code, LdWidth.ofCode_code, StWidth.ofCode_code, Scope.ofCode_code, VCmpOp.ofCode_code, VFCmpOp.ofCode_code, RedOp.ofCode_code, off14_split, off19_split, decShift, decVmax, decVcmp, decVfcmp, decVm0, decVm1, decVmSc, beq_self_eq_true, Bool.and_self, ↓reduceIte, BitVec.toNat_ofNat, Nat.reducePow, Nat.reduceMod, Bool.and_true, Bool.not_false, hR_funct6, hR_r2, hR_r1]

theorem slt (d : XReg) (a : XReg) (b : XReg) (st : Stall) : Statement (.slt d a b st) := by
  intro c hc hw _
  obtain rfl := Option.some.inj (show some (.w32 (joinWord (hR 19 (r5 b) (r5 a)) (r5 d) 0x01 (r3 st))) = some c from hc)
  simp only [decodeCode, decodeWord, splitWord_joinWord, maj_01]
  simp only [decInt, BitVec.ofNat_eq_ofNat, Fields.d, Fields.stall, Fields.m, Fields.mlo, zeroed, accept, x5_r5, x3_r3, x4_r4, x6_r6, mreg_m5, inMask_m5, coded_some, varLat_zero, RMode.ofCode_code, LdWidth.ofCode_code, StWidth.ofCode_code, Scope.ofCode_code, VCmpOp.ofCode_code, VFCmpOp.ofCode_code, RedOp.ofCode_code, off14_split, off19_split, decShift, decVmax, decVcmp, decVfcmp, decVm0, decVm1, decVmSc, beq_self_eq_true, Bool.and_self, ↓reduceIte, BitVec.toNat_ofNat, Nat.reducePow, Nat.reduceMod, Bool.and_true, Bool.not_false, hR_funct6, hR_r2, hR_r1]

theorem sltn (d : XReg) (a : XReg) (b : XReg) (st : Stall) : Statement (.sltn d a b st) := by
  intro c hc hw _
  obtain rfl := Option.some.inj (show some (.w32 (joinWord (hR 20 (r5 b) (r5 a)) (r5 d) 0x01 (r3 st))) = some c from hc)
  simp only [decodeCode, decodeWord, splitWord_joinWord, maj_01]
  simp only [decInt, BitVec.ofNat_eq_ofNat, Fields.d, Fields.stall, Fields.m, Fields.mlo, zeroed, accept, x5_r5, x3_r3, x4_r4, x6_r6, mreg_m5, inMask_m5, coded_some, varLat_zero, RMode.ofCode_code, LdWidth.ofCode_code, StWidth.ofCode_code, Scope.ofCode_code, VCmpOp.ofCode_code, VFCmpOp.ofCode_code, RedOp.ofCode_code, off14_split, off19_split, decShift, decVmax, decVcmp, decVfcmp, decVm0, decVm1, decVmSc, beq_self_eq_true, Bool.and_self, ↓reduceIte, BitVec.toNat_ofNat, Nat.reducePow, Nat.reduceMod, Bool.and_true, Bool.not_false, hR_funct6, hR_r2, hR_r1]

theorem sel (d : XReg) (a : XReg) (b : XReg) (st : Stall) : Statement (.sel d a b st) := by
  intro c hc hw _
  obtain rfl := Option.some.inj (show some (.w32 (joinWord (hR 21 (r5 b) (r5 a)) (r5 d) 0x01 (r3 st))) = some c from hc)
  simp only [decodeCode, decodeWord, splitWord_joinWord, maj_01]
  simp only [decInt, BitVec.ofNat_eq_ofNat, Fields.d, Fields.stall, Fields.m, Fields.mlo, zeroed, accept, x5_r5, x3_r3, x4_r4, x6_r6, mreg_m5, inMask_m5, coded_some, varLat_zero, RMode.ofCode_code, LdWidth.ofCode_code, StWidth.ofCode_code, Scope.ofCode_code, VCmpOp.ofCode_code, VFCmpOp.ofCode_code, RedOp.ofCode_code, off14_split, off19_split, decShift, decVmax, decVcmp, decVfcmp, decVm0, decVm1, decVmSc, beq_self_eq_true, Bool.and_self, ↓reduceIte, BitVec.toNat_ofNat, Nat.reducePow, Nat.reduceMod, Bool.and_true, Bool.not_false, hR_funct6, hR_r2, hR_r1]

theorem clz (d : XReg) (a : XReg) (st : Stall) : Statement (.clz d a st) := by
  intro c hc hw _
  obtain rfl := Option.some.inj (show some (.w32 (joinWord (hR 22 0 (r5 a)) (r5 d) 0x01 (r3 st))) = some c from hc)
  simp only [decodeCode, decodeWord, splitWord_joinWord, maj_01]
  simp only [decInt, BitVec.ofNat_eq_ofNat, Fields.d, Fields.stall, Fields.m, Fields.mlo, zeroed, accept, x5_r5, x3_r3, x4_r4, x6_r6, mreg_m5, inMask_m5, coded_some, varLat_zero, RMode.ofCode_code, LdWidth.ofCode_code, StWidth.ofCode_code, Scope.ofCode_code, VCmpOp.ofCode_code, VFCmpOp.ofCode_code, RedOp.ofCode_code, off14_split, off19_split, decShift, decVmax, decVcmp, decVfcmp, decVm0, decVm1, decVmSc, beq_self_eq_true, Bool.and_self, ↓reduceIte, BitVec.toNat_ofNat, Nat.reducePow, Nat.reduceMod, Bool.and_true, Bool.not_false, hR_funct6, hR_r2, hR_r1]

theorem ctz (d : XReg) (a : XReg) (st : Stall) : Statement (.ctz d a st) := by
  intro c hc hw _
  obtain rfl := Option.some.inj (show some (.w32 (joinWord (hR 23 0 (r5 a)) (r5 d) 0x01 (r3 st))) = some c from hc)
  simp only [decodeCode, decodeWord, splitWord_joinWord, maj_01]
  simp only [decInt, BitVec.ofNat_eq_ofNat, Fields.d, Fields.stall, Fields.m, Fields.mlo, zeroed, accept, x5_r5, x3_r3, x4_r4, x6_r6, mreg_m5, inMask_m5, coded_some, varLat_zero, RMode.ofCode_code, LdWidth.ofCode_code, StWidth.ofCode_code, Scope.ofCode_code, VCmpOp.ofCode_code, VFCmpOp.ofCode_code, RedOp.ofCode_code, off14_split, off19_split, decShift, decVmax, decVcmp, decVfcmp, decVm0, decVm1, decVmSc, beq_self_eq_true, Bool.and_self, ↓reduceIte, BitVec.toNat_ofNat, Nat.reducePow, Nat.reduceMod, Bool.and_true, Bool.not_false, hR_funct6, hR_r2, hR_r1]

theorem popc (d : XReg) (a : XReg) (st : Stall) : Statement (.popc d a st) := by
  intro c hc hw _
  obtain rfl := Option.some.inj (show some (.w32 (joinWord (hR 24 0 (r5 a)) (r5 d) 0x01 (r3 st))) = some c from hc)
  simp only [decodeCode, decodeWord, splitWord_joinWord, maj_01]
  simp only [decInt, BitVec.ofNat_eq_ofNat, Fields.d, Fields.stall, Fields.m, Fields.mlo, zeroed, accept, x5_r5, x3_r3, x4_r4, x6_r6, mreg_m5, inMask_m5, coded_some, varLat_zero, RMode.ofCode_code, LdWidth.ofCode_code, StWidth.ofCode_code, Scope.ofCode_code, VCmpOp.ofCode_code, VFCmpOp.ofCode_code, RedOp.ofCode_code, off14_split, off19_split, decShift, decVmax, decVcmp, decVfcmp, decVm0, decVm1, decVmSc, beq_self_eq_true, Bool.and_self, ↓reduceIte, BitVec.toNat_ofNat, Nat.reducePow, Nat.reduceMod, Bool.and_true, Bool.not_false, hR_funct6, hR_r2, hR_r1]

theorem brev (d : XReg) (a : XReg) (st : Stall) : Statement (.brev d a st) := by
  intro c hc hw _
  obtain rfl := Option.some.inj (show some (.w32 (joinWord (hR 25 0 (r5 a)) (r5 d) 0x01 (r3 st))) = some c from hc)
  simp only [decodeCode, decodeWord, splitWord_joinWord, maj_01]
  simp only [decInt, BitVec.ofNat_eq_ofNat, Fields.d, Fields.stall, Fields.m, Fields.mlo, zeroed, accept, x5_r5, x3_r3, x4_r4, x6_r6, mreg_m5, inMask_m5, coded_some, varLat_zero, RMode.ofCode_code, LdWidth.ofCode_code, StWidth.ofCode_code, Scope.ofCode_code, VCmpOp.ofCode_code, VFCmpOp.ofCode_code, RedOp.ofCode_code, off14_split, off19_split, decShift, decVmax, decVcmp, decVfcmp, decVm0, decVm1, decVmSc, beq_self_eq_true, Bool.and_self, ↓reduceIte, BitVec.toNat_ofNat, Nat.reducePow, Nat.reduceMod, Bool.and_true, Bool.not_false, hR_funct6, hR_r2, hR_r1]

theorem addi (d : XReg) (a : XReg) (imm : BitVec 11) (st : Stall) : Statement (.addi d a imm st) := by
  intro c hc hw _
  obtain rfl := Option.some.inj (show some (.w32 (joinWord (hI imm (r5 a)) (r5 d) 0x2 (r3 st))) = some c from hc)
  simp only [decodeCode, decodeWord, splitWord_joinWord, maj_02]
  simp only [BitVec.ofNat_eq_ofNat, Fields.d, Fields.stall, Fields.m, Fields.mlo, zeroed, accept, x5_r5, x3_r3, x4_r4, x6_r6, mreg_m5, inMask_m5, coded_some, varLat_zero, RMode.ofCode_code, LdWidth.ofCode_code, StWidth.ofCode_code, Scope.ofCode_code, VCmpOp.ofCode_code, VFCmpOp.ofCode_code, RedOp.ofCode_code, off14_split, off19_split, decShift, decVmax, decVcmp, decVfcmp, decVm0, decVm1, decVmSc, beq_self_eq_true, Bool.and_self, ↓reduceIte, BitVec.toNat_ofNat, Nat.reducePow, Nat.reduceMod, Bool.and_true, Bool.not_false, hI_imm11, hI_r1, shift_hi, shift_lo]

theorem andi (d : XReg) (a : XReg) (imm : BitVec 11) (st : Stall) : Statement (.andi d a imm st) := by
  intro c hc hw _
  obtain rfl := Option.some.inj (show some (.w32 (joinWord (hI imm (r5 a)) (r5 d) 0x3 (r3 st))) = some c from hc)
  simp only [decodeCode, decodeWord, splitWord_joinWord, maj_03]
  simp only [BitVec.ofNat_eq_ofNat, Fields.d, Fields.stall, Fields.m, Fields.mlo, zeroed, accept, x5_r5, x3_r3, x4_r4, x6_r6, mreg_m5, inMask_m5, coded_some, varLat_zero, RMode.ofCode_code, LdWidth.ofCode_code, StWidth.ofCode_code, Scope.ofCode_code, VCmpOp.ofCode_code, VFCmpOp.ofCode_code, RedOp.ofCode_code, off14_split, off19_split, decShift, decVmax, decVcmp, decVfcmp, decVm0, decVm1, decVmSc, beq_self_eq_true, Bool.and_self, ↓reduceIte, BitVec.toNat_ofNat, Nat.reducePow, Nat.reduceMod, Bool.and_true, Bool.not_false, hI_imm11, hI_r1, shift_hi, shift_lo]

theorem ori (d : XReg) (a : XReg) (imm : BitVec 11) (st : Stall) : Statement (.ori d a imm st) := by
  intro c hc hw _
  obtain rfl := Option.some.inj (show some (.w32 (joinWord (hI imm (r5 a)) (r5 d) 0x4 (r3 st))) = some c from hc)
  simp only [decodeCode, decodeWord, splitWord_joinWord, maj_04]
  simp only [BitVec.ofNat_eq_ofNat, Fields.d, Fields.stall, Fields.m, Fields.mlo, zeroed, accept, x5_r5, x3_r3, x4_r4, x6_r6, mreg_m5, inMask_m5, coded_some, varLat_zero, RMode.ofCode_code, LdWidth.ofCode_code, StWidth.ofCode_code, Scope.ofCode_code, VCmpOp.ofCode_code, VFCmpOp.ofCode_code, RedOp.ofCode_code, off14_split, off19_split, decShift, decVmax, decVcmp, decVfcmp, decVm0, decVm1, decVmSc, beq_self_eq_true, Bool.and_self, ↓reduceIte, BitVec.toNat_ofNat, Nat.reducePow, Nat.reduceMod, Bool.and_true, Bool.not_false, hI_imm11, hI_r1, shift_hi, shift_lo]

theorem xori (d : XReg) (a : XReg) (imm : BitVec 11) (st : Stall) : Statement (.xori d a imm st) := by
  intro c hc hw _
  obtain rfl := Option.some.inj (show some (.w32 (joinWord (hI imm (r5 a)) (r5 d) 0x5 (r3 st))) = some c from hc)
  simp only [decodeCode, decodeWord, splitWord_joinWord, maj_05]
  simp only [BitVec.ofNat_eq_ofNat, Fields.d, Fields.stall, Fields.m, Fields.mlo, zeroed, accept, x5_r5, x3_r3, x4_r4, x6_r6, mreg_m5, inMask_m5, coded_some, varLat_zero, RMode.ofCode_code, LdWidth.ofCode_code, StWidth.ofCode_code, Scope.ofCode_code, VCmpOp.ofCode_code, VFCmpOp.ofCode_code, RedOp.ofCode_code, off14_split, off19_split, decShift, decVmax, decVcmp, decVfcmp, decVm0, decVm1, decVmSc, beq_self_eq_true, Bool.and_self, ↓reduceIte, BitVec.toNat_ofNat, Nat.reducePow, Nat.reduceMod, Bool.and_true, Bool.not_false, hI_imm11, hI_r1, shift_hi, shift_lo]

theorem shli (d : XReg) (a : XReg) (sh : BitVec 6) (st : Stall) : Statement (.shli d a sh st) := by
  intro c hc hw _
  obtain rfl := Option.some.inj (show some (.w32 (joinWord (hI (sh.setWidth 11) (r5 a)) (r5 d) 0x6 (r3 st))) = some c from hc)
  simp only [decodeCode, decodeWord, splitWord_joinWord, maj_06]
  simp only [decShift, BitVec.ofNat_eq_ofNat, Fields.d, Fields.stall, Fields.m, Fields.mlo, zeroed, accept, x5_r5, x3_r3, x4_r4, x6_r6, mreg_m5, inMask_m5, coded_some, varLat_zero, RMode.ofCode_code, LdWidth.ofCode_code, StWidth.ofCode_code, Scope.ofCode_code, VCmpOp.ofCode_code, VFCmpOp.ofCode_code, RedOp.ofCode_code, off14_split, off19_split, decShift, decVmax, decVcmp, decVfcmp, decVm0, decVm1, decVmSc, beq_self_eq_true, Bool.and_self, ↓reduceIte, BitVec.toNat_ofNat, Nat.reducePow, Nat.reduceMod, Bool.and_true, Bool.not_false, hI_imm11, hI_r1, shift_hi, shift_lo]

theorem shri (d : XReg) (a : XReg) (sh : BitVec 6) (st : Stall) : Statement (.shri d a sh st) := by
  intro c hc hw _
  obtain rfl := Option.some.inj (show some (.w32 (joinWord (hI (sh.setWidth 11) (r5 a)) (r5 d) 0x7 (r3 st))) = some c from hc)
  simp only [decodeCode, decodeWord, splitWord_joinWord, maj_07]
  simp only [decShift, BitVec.ofNat_eq_ofNat, Fields.d, Fields.stall, Fields.m, Fields.mlo, zeroed, accept, x5_r5, x3_r3, x4_r4, x6_r6, mreg_m5, inMask_m5, coded_some, varLat_zero, RMode.ofCode_code, LdWidth.ofCode_code, StWidth.ofCode_code, Scope.ofCode_code, VCmpOp.ofCode_code, VFCmpOp.ofCode_code, RedOp.ofCode_code, off14_split, off19_split, decShift, decVmax, decVcmp, decVfcmp, decVm0, decVm1, decVmSc, beq_self_eq_true, Bool.and_self, ↓reduceIte, BitVec.toNat_ofNat, Nat.reducePow, Nat.reduceMod, Bool.and_true, Bool.not_false, hI_imm11, hI_r1, shift_hi, shift_lo]

theorem srai (d : XReg) (a : XReg) (sh : BitVec 6) (st : Stall) : Statement (.srai d a sh st) := by
  intro c hc hw _
  obtain rfl := Option.some.inj (show some (.w32 (joinWord (hI (sh.setWidth 11) (r5 a)) (r5 d) 0x8 (r3 st))) = some c from hc)
  simp only [decodeCode, decodeWord, splitWord_joinWord, maj_08]
  simp only [decShift, BitVec.ofNat_eq_ofNat, Fields.d, Fields.stall, Fields.m, Fields.mlo, zeroed, accept, x5_r5, x3_r3, x4_r4, x6_r6, mreg_m5, inMask_m5, coded_some, varLat_zero, RMode.ofCode_code, LdWidth.ofCode_code, StWidth.ofCode_code, Scope.ofCode_code, VCmpOp.ofCode_code, VFCmpOp.ofCode_code, RedOp.ofCode_code, off14_split, off19_split, decShift, decVmax, decVcmp, decVfcmp, decVm0, decVm1, decVmSc, beq_self_eq_true, Bool.and_self, ↓reduceIte, BitVec.toNat_ofNat, Nat.reducePow, Nat.reduceMod, Bool.and_true, Bool.not_false, hI_imm11, hI_r1, shift_hi, shift_lo]

theorem slti (d : XReg) (a : XReg) (imm : BitVec 11) (st : Stall) : Statement (.slti d a imm st) := by
  intro c hc hw _
  obtain rfl := Option.some.inj (show some (.w32 (joinWord (hI imm (r5 a)) (r5 d) 0x9 (r3 st))) = some c from hc)
  simp only [decodeCode, decodeWord, splitWord_joinWord, maj_09]
  simp only [BitVec.ofNat_eq_ofNat, Fields.d, Fields.stall, Fields.m, Fields.mlo, zeroed, accept, x5_r5, x3_r3, x4_r4, x6_r6, mreg_m5, inMask_m5, coded_some, varLat_zero, RMode.ofCode_code, LdWidth.ofCode_code, StWidth.ofCode_code, Scope.ofCode_code, VCmpOp.ofCode_code, VFCmpOp.ofCode_code, RedOp.ofCode_code, off14_split, off19_split, decShift, decVmax, decVcmp, decVfcmp, decVm0, decVm1, decVmSc, beq_self_eq_true, Bool.and_self, ↓reduceIte, BitVec.toNat_ofNat, Nat.reducePow, Nat.reduceMod, Bool.and_true, Bool.not_false, hI_imm11, hI_r1, shift_hi, shift_lo]

theorem lih (d : XReg) (imm : BitVec 16) (st : Stall) : Statement (.lih d imm st) := by
  intro c hc hw _
  obtain rfl := Option.some.inj (show some (.w32 (joinWord imm (r5 d) 0x0A (r3 st))) = some c from hc)
  simp only [decodeCode, decodeWord, splitWord_joinWord, maj_0A]
  simp only [BitVec.ofNat_eq_ofNat, Fields.d, Fields.stall, Fields.m, Fields.mlo, zeroed, accept, x5_r5, x3_r3, x4_r4, x6_r6, mreg_m5, inMask_m5, coded_some, varLat_zero, RMode.ofCode_code, LdWidth.ofCode_code, StWidth.ofCode_code, Scope.ofCode_code, VCmpOp.ofCode_code, VFCmpOp.ofCode_code, RedOp.ofCode_code, off14_split, off19_split, decShift, decVmax, decVcmp, decVfcmp, decVm0, decVm1, decVmSc, beq_self_eq_true, Bool.and_self, ↓reduceIte, BitVec.toNat_ofNat, Nat.reducePow, Nat.reduceMod, Bool.and_true, Bool.not_false]

theorem adpc (d : XReg) (imm : BitVec 16) (st : Stall) : Statement (.adpc d imm st) := by
  intro c hc hw _
  obtain rfl := Option.some.inj (show some (.w32 (joinWord imm (r5 d) 0x0B (r3 st))) = some c from hc)
  simp only [decodeCode, decodeWord, splitWord_joinWord, maj_0B]
  simp only [BitVec.ofNat_eq_ofNat, Fields.d, Fields.stall, Fields.m, Fields.mlo, zeroed, accept, x5_r5, x3_r3, x4_r4, x6_r6, mreg_m5, inMask_m5, coded_some, varLat_zero, RMode.ofCode_code, LdWidth.ofCode_code, StWidth.ofCode_code, Scope.ofCode_code, VCmpOp.ofCode_code, VFCmpOp.ofCode_code, RedOp.ofCode_code, off14_split, off19_split, decShift, decVmax, decVcmp, decVfcmp, decVm0, decVm1, decVmSc, beq_self_eq_true, Bool.and_self, ↓reduceIte, BitVec.toNat_ofNat, Nat.reducePow, Nat.reduceMod, Bool.and_true, Bool.not_false]

theorem fadd (f : FpFmt) (rm : RMode) (d : XReg) (a : XReg) (b : XReg) (st : Stall) : Statement (.fadd f rm d a b st) := by
  intro c hc hw _
  obtain rfl := Option.some.inj (show some (.w32 (joinWord (hF rm.code 0 (r5 b) (r5 a)) (r5 d) f.major (r3 st))) = some c from hc)
  simp only [decodeCode, decodeWord, splitWord_joinWord]
  cases f <;> simp only [FpFmt.major, maj_0C, maj_0D, maj_0E, maj_0F] <;> simp [decFp, Fields.d, Fields.stall]

theorem fsub (f : FpFmt) (rm : RMode) (d : XReg) (a : XReg) (b : XReg) (st : Stall) : Statement (.fsub f rm d a b st) := by
  intro c hc hw _
  obtain rfl := Option.some.inj (show some (.w32 (joinWord (hF rm.code 1 (r5 b) (r5 a)) (r5 d) f.major (r3 st))) = some c from hc)
  simp only [decodeCode, decodeWord, splitWord_joinWord]
  cases f <;> simp only [FpFmt.major, maj_0C, maj_0D, maj_0E, maj_0F] <;> simp [decFp, Fields.d, Fields.stall]

theorem fmul (f : FpFmt) (rm : RMode) (d : XReg) (a : XReg) (b : XReg) (st : Stall) : Statement (.fmul f rm d a b st) := by
  intro c hc hw _
  obtain rfl := Option.some.inj (show some (.w32 (joinWord (hF rm.code 2 (r5 b) (r5 a)) (r5 d) f.major (r3 st))) = some c from hc)
  simp only [decodeCode, decodeWord, splitWord_joinWord]
  cases f <;> simp only [FpFmt.major, maj_0C, maj_0D, maj_0E, maj_0F] <;> simp [decFp, Fields.d, Fields.stall]

theorem ffma (f : FpFmt) (rm : RMode) (d : XReg) (a : XReg) (b : XReg) (st : Stall) : Statement (.ffma f rm d a b st) := by
  intro c hc hw _
  obtain rfl := Option.some.inj (show some (.w32 (joinWord (hF rm.code 3 (r5 b) (r5 a)) (r5 d) f.major (r3 st))) = some c from hc)
  simp only [decodeCode, decodeWord, splitWord_joinWord]
  cases f <;> simp only [FpFmt.major, maj_0C, maj_0D, maj_0E, maj_0F] <;> simp [decFp, Fields.d, Fields.stall]

theorem fdiv (f : FpFmt) (rm : RMode) (d : XReg) (a : XReg) (b : XReg) (st : Stall) : Statement (.fdiv f rm d a b st) := by
  intro c hc hw _
  obtain rfl := Option.some.inj (show some (.w32 (joinWord (hF rm.code 4 (r5 b) (r5 a)) (r5 d) f.major (r3 st))) = some c from hc)
  simp only [decodeCode, decodeWord, splitWord_joinWord]
  cases f <;> simp only [FpFmt.major, maj_0C, maj_0D, maj_0E, maj_0F] <;> simp [decFp, Fields.d, Fields.stall]

theorem fmin (f : FpFmt) (d : XReg) (a : XReg) (b : XReg) (st : Stall) : Statement (.fmin f d a b st) := by
  intro c hc hw _
  obtain rfl := Option.some.inj (show some (.w32 (joinWord (hF 0 5 (r5 b) (r5 a)) (r5 d) f.major (r3 st))) = some c from hc)
  simp only [decodeCode, decodeWord, splitWord_joinWord]
  cases f <;> simp only [FpFmt.major, maj_0C, maj_0D, maj_0E, maj_0F] <;> simp [decFp, Fields.d, Fields.stall]

theorem fmax (f : FpFmt) (d : XReg) (a : XReg) (b : XReg) (st : Stall) : Statement (.fmax f d a b st) := by
  intro c hc hw _
  obtain rfl := Option.some.inj (show some (.w32 (joinWord (hF 1 5 (r5 b) (r5 a)) (r5 d) f.major (r3 st))) = some c from hc)
  simp only [decodeCode, decodeWord, splitWord_joinWord]
  cases f <;> simp only [FpFmt.major, maj_0C, maj_0D, maj_0E, maj_0F] <;> simp [decFp, Fields.d, Fields.stall]

theorem fcmp (f : FpFmt) (cc : FCmpOp) (d : XReg) (a : XReg) (b : XReg) (st : Stall) : Statement (.fcmp f cc d a b st) := by
  intro c hc hw _
  obtain rfl := Option.some.inj (show some (.w32 (joinWord (hF cc.code 5 (r5 b) (r5 a)) (r5 d) f.major (r3 st))) = some c from hc)
  simp only [decodeCode, decodeWord, splitWord_joinWord]
  cases f <;> simp only [FpFmt.major, maj_0C, maj_0D, maj_0E, maj_0F] <;> (cases cc <;> simp [decFp, Fields.d, Fields.stall, FCmpOp.code])

theorem fsqrt (f : FpFmt) (rm : RMode) (d : XReg) (a : XReg) (st : Stall) : Statement (.fsqrt f rm d a st) := by
  intro c hc hw _
  obtain rfl := Option.some.inj (show some (.w32 (joinWord (hF rm.code 6 0 (r5 a)) (r5 d) f.major (r3 st))) = some c from hc)
  simp only [decodeCode, decodeWord, splitWord_joinWord]
  cases f <;> simp only [FpFmt.major, maj_0C, maj_0D, maj_0E, maj_0F] <;> simp [decFp, Fields.d, Fields.stall]

theorem fcvt (f : FpFmt) (code : CvtCode) (rm : RMode) (d : XReg) (a : XReg) (st : Stall) : Statement (.fcvt f code rm d a st) := by
  intro c hc hw _
  obtain rfl := Option.some.inj (show some (.w32 (joinWord (hF rm.code 7 code.code (r5 a)) (r5 d) f.major (r3 st))) = some c from hc)
  simp only [decodeCode, decodeWord, splitWord_joinWord]
  cases f <;> simp only [FpFmt.major, maj_0C, maj_0D, maj_0E, maj_0F] <;> simp [decFp, Fields.d, Fields.stall, cvt_ne]

theorem fclass (f : FpFmt) (d : XReg) (a : XReg) (st : Stall) : Statement (.fclass f d a st) := by
  intro c hc hw _
  obtain rfl := Option.some.inj (show some (.w32 (joinWord (hF 0 7 0x1F (r5 a)) (r5 d) f.major (r3 st))) = some c from hc)
  simp only [decodeCode, decodeWord, splitWord_joinWord]
  cases f <;> simp only [FpFmt.major, maj_0C, maj_0D, maj_0E, maj_0F] <;> simp [decFp, Fields.d, Fields.stall]

theorem ld (w : LdWidth) (d : XReg) (a : XReg) (imm : BitVec 7) (cls : Cls) : Statement (.ld w d a imm cls) := by
  intro c hc hw _
  obtain rfl := Option.some.inj (show some (.w32 (joinWord (hSM imm (r4 cls) (r5 a)) (r5 d) 0x10 w.code)) = some c from hc)
  simp only [decodeCode, decodeWord, splitWord_joinWord, maj_10]
  simp only [BitVec.ofNat_eq_ofNat, Fields.d, Fields.stall, Fields.m, Fields.mlo, zeroed, accept, x5_r5, x3_r3, x4_r4, x6_r6, mreg_m5, inMask_m5, coded_some, varLat_zero, RMode.ofCode_code, LdWidth.ofCode_code, StWidth.ofCode_code, Scope.ofCode_code, VCmpOp.ofCode_code, VFCmpOp.ofCode_code, RedOp.ofCode_code, off14_split, off19_split, decShift, decVmax, decVcmp, decVfcmp, decVm0, decVm1, decVmSc, beq_self_eq_true, Bool.and_self, ↓reduceIte, BitVec.toNat_ofNat, Nat.reducePow, Nat.reduceMod, Bool.and_true, Bool.not_false, hSM_imm7, hSM_smCls, hSM_r1]

theorem st (w : StWidth) (b : XReg) (a : XReg) (imm : BitVec 7) (cls : Cls) : Statement (.st w b a imm cls) := by
  intro c hc hw _
  obtain rfl := Option.some.inj (show some (.w32 (joinWord (hSM imm (r4 cls) (r5 a)) (r5 b) 0x11 w.code)) = some c from hc)
  simp only [decodeCode, decodeWord, splitWord_joinWord, maj_11]
  simp only [BitVec.ofNat_eq_ofNat, Fields.d, Fields.stall, Fields.m, Fields.mlo, zeroed, accept, x5_r5, x3_r3, x4_r4, x6_r6, mreg_m5, inMask_m5, coded_some, varLat_zero, RMode.ofCode_code, LdWidth.ofCode_code, StWidth.ofCode_code, Scope.ofCode_code, VCmpOp.ofCode_code, VFCmpOp.ofCode_code, RedOp.ofCode_code, off14_split, off19_split, decShift, decVmax, decVcmp, decVfcmp, decVm0, decVm1, decVmSc, beq_self_eq_true, Bool.and_self, ↓reduceIte, BitVec.toNat_ofNat, Nat.reducePow, Nat.reduceMod, Bool.and_true, Bool.not_false, hSM_imm7, hSM_smCls, hSM_r1]

theorem stG (w : StWidth) (b : XReg) (a : XReg) (imm : BitVec 7) (cls : Cls) : Statement (.stG w b a imm cls) := by
  intro c hc hw _
  obtain rfl := Option.some.inj (show some (.w32 (joinWord (hSM imm (r4 cls) (r5 a)) (r5 b) 0x12 w.code)) = some c from hc)
  simp only [decodeCode, decodeWord, splitWord_joinWord, maj_12]
  simp only [BitVec.ofNat_eq_ofNat, Fields.d, Fields.stall, Fields.m, Fields.mlo, zeroed, accept, x5_r5, x3_r3, x4_r4, x6_r6, mreg_m5, inMask_m5, coded_some, varLat_zero, RMode.ofCode_code, LdWidth.ofCode_code, StWidth.ofCode_code, Scope.ofCode_code, VCmpOp.ofCode_code, VFCmpOp.ofCode_code, RedOp.ofCode_code, off14_split, off19_split, decShift, decVmax, decVcmp, decVfcmp, decVm0, decVm1, decVmSc, beq_self_eq_true, Bool.and_self, ↓reduceIte, BitVec.toNat_ofNat, Nat.reducePow, Nat.reduceMod, Bool.and_true, Bool.not_false, hSM_imm7, hSM_smCls, hSM_r1]

theorem amoAdd (d : XReg) (a : XReg) (b : XReg) (cls : Cls) (sc : Scope) : Statement (.amoAdd d a b cls sc) := by
  intro c hc hw _
  obtain rfl := Option.some.inj (show some (.w32 (joinWord (hA 0 (r4 cls) (r5 b) (r5 a)) (r5 d) 0x13 sc.code)) = some c from hc)
  simp only [decodeCode, decodeWord, splitWord_joinWord, maj_13]
  simp only [decAmo0, BitVec.ofNat_eq_ofNat, Fields.d, Fields.stall, Fields.m, Fields.mlo, zeroed, accept, x5_r5, x3_r3, x4_r4, x6_r6, mreg_m5, inMask_m5, coded_some, varLat_zero, RMode.ofCode_code, LdWidth.ofCode_code, StWidth.ofCode_code, Scope.ofCode_code, VCmpOp.ofCode_code, VFCmpOp.ofCode_code, RedOp.ofCode_code, off14_split, off19_split, decShift, decVmax, decVcmp, decVfcmp, decVm0, decVm1, decVmSc, beq_self_eq_true, Bool.and_self, ↓reduceIte, BitVec.toNat_ofNat, Nat.reducePow, Nat.reduceMod, Bool.and_true, Bool.not_false, hA_op2, hA_cls, hA_r2, hA_r1]

theorem amoAnd (d : XReg) (a : XReg) (b : XReg) (cls : Cls) (sc : Scope) : Statement (.amoAnd d a b cls sc) := by
  intro c hc hw _
  obtain rfl := Option.some.inj (show some (.w32 (joinWord (hA 1 (r4 cls) (r5 b) (r5 a)) (r5 d) 0x13 sc.code)) = some c from hc)
  simp only [decodeCode, decodeWord, splitWord_joinWord, maj_13]
  simp only [decAmo0, BitVec.ofNat_eq_ofNat, Fields.d, Fields.stall, Fields.m, Fields.mlo, zeroed, accept, x5_r5, x3_r3, x4_r4, x6_r6, mreg_m5, inMask_m5, coded_some, varLat_zero, RMode.ofCode_code, LdWidth.ofCode_code, StWidth.ofCode_code, Scope.ofCode_code, VCmpOp.ofCode_code, VFCmpOp.ofCode_code, RedOp.ofCode_code, off14_split, off19_split, decShift, decVmax, decVcmp, decVfcmp, decVm0, decVm1, decVmSc, beq_self_eq_true, Bool.and_self, ↓reduceIte, BitVec.toNat_ofNat, Nat.reducePow, Nat.reduceMod, Bool.and_true, Bool.not_false, hA_op2, hA_cls, hA_r2, hA_r1]

theorem amoOr (d : XReg) (a : XReg) (b : XReg) (cls : Cls) (sc : Scope) : Statement (.amoOr d a b cls sc) := by
  intro c hc hw _
  obtain rfl := Option.some.inj (show some (.w32 (joinWord (hA 2 (r4 cls) (r5 b) (r5 a)) (r5 d) 0x13 sc.code)) = some c from hc)
  simp only [decodeCode, decodeWord, splitWord_joinWord, maj_13]
  simp only [decAmo0, BitVec.ofNat_eq_ofNat, Fields.d, Fields.stall, Fields.m, Fields.mlo, zeroed, accept, x5_r5, x3_r3, x4_r4, x6_r6, mreg_m5, inMask_m5, coded_some, varLat_zero, RMode.ofCode_code, LdWidth.ofCode_code, StWidth.ofCode_code, Scope.ofCode_code, VCmpOp.ofCode_code, VFCmpOp.ofCode_code, RedOp.ofCode_code, off14_split, off19_split, decShift, decVmax, decVcmp, decVfcmp, decVm0, decVm1, decVmSc, beq_self_eq_true, Bool.and_self, ↓reduceIte, BitVec.toNat_ofNat, Nat.reducePow, Nat.reduceMod, Bool.and_true, Bool.not_false, hA_op2, hA_cls, hA_r2, hA_r1]

theorem amoXor (d : XReg) (a : XReg) (b : XReg) (cls : Cls) (sc : Scope) : Statement (.amoXor d a b cls sc) := by
  intro c hc hw _
  obtain rfl := Option.some.inj (show some (.w32 (joinWord (hA 3 (r4 cls) (r5 b) (r5 a)) (r5 d) 0x13 sc.code)) = some c from hc)
  simp only [decodeCode, decodeWord, splitWord_joinWord, maj_13]
  simp only [decAmo0, BitVec.ofNat_eq_ofNat, Fields.d, Fields.stall, Fields.m, Fields.mlo, zeroed, accept, x5_r5, x3_r3, x4_r4, x6_r6, mreg_m5, inMask_m5, coded_some, varLat_zero, RMode.ofCode_code, LdWidth.ofCode_code, StWidth.ofCode_code, Scope.ofCode_code, VCmpOp.ofCode_code, VFCmpOp.ofCode_code, RedOp.ofCode_code, off14_split, off19_split, decShift, decVmax, decVcmp, decVfcmp, decVm0, decVm1, decVmSc, beq_self_eq_true, Bool.and_self, ↓reduceIte, BitVec.toNat_ofNat, Nat.reducePow, Nat.reduceMod, Bool.and_true, Bool.not_false, hA_op2, hA_cls, hA_r2, hA_r1]

theorem amoMin (d : XReg) (a : XReg) (b : XReg) (cls : Cls) (sc : Scope) : Statement (.amoMin d a b cls sc) := by
  intro c hc hw _
  obtain rfl := Option.some.inj (show some (.w32 (joinWord (hA 0 (r4 cls) (r5 b) (r5 a)) (r5 d) 0x14 sc.code)) = some c from hc)
  simp only [decodeCode, decodeWord, splitWord_joinWord, maj_14]
  simp only [decAmo1, BitVec.ofNat_eq_ofNat, Fields.d, Fields.stall, Fields.m, Fields.mlo, zeroed, accept, x5_r5, x3_r3, x4_r4, x6_r6, mreg_m5, inMask_m5, coded_some, varLat_zero, RMode.ofCode_code, LdWidth.ofCode_code, StWidth.ofCode_code, Scope.ofCode_code, VCmpOp.ofCode_code, VFCmpOp.ofCode_code, RedOp.ofCode_code, off14_split, off19_split, decShift, decVmax, decVcmp, decVfcmp, decVm0, decVm1, decVmSc, beq_self_eq_true, Bool.and_self, ↓reduceIte, BitVec.toNat_ofNat, Nat.reducePow, Nat.reduceMod, Bool.and_true, Bool.not_false, hA_op2, hA_cls, hA_r2, hA_r1]

theorem amoMax (d : XReg) (a : XReg) (b : XReg) (cls : Cls) (sc : Scope) : Statement (.amoMax d a b cls sc) := by
  intro c hc hw _
  obtain rfl := Option.some.inj (show some (.w32 (joinWord (hA 1 (r4 cls) (r5 b) (r5 a)) (r5 d) 0x14 sc.code)) = some c from hc)
  simp only [decodeCode, decodeWord, splitWord_joinWord, maj_14]
  simp only [decAmo1, BitVec.ofNat_eq_ofNat, Fields.d, Fields.stall, Fields.m, Fields.mlo, zeroed, accept, x5_r5, x3_r3, x4_r4, x6_r6, mreg_m5, inMask_m5, coded_some, varLat_zero, RMode.ofCode_code, LdWidth.ofCode_code, StWidth.ofCode_code, Scope.ofCode_code, VCmpOp.ofCode_code, VFCmpOp.ofCode_code, RedOp.ofCode_code, off14_split, off19_split, decShift, decVmax, decVcmp, decVfcmp, decVm0, decVm1, decVmSc, beq_self_eq_true, Bool.and_self, ↓reduceIte, BitVec.toNat_ofNat, Nat.reducePow, Nat.reduceMod, Bool.and_true, Bool.not_false, hA_op2, hA_cls, hA_r2, hA_r1]

theorem amoMinn (d : XReg) (a : XReg) (b : XReg) (cls : Cls) (sc : Scope) : Statement (.amoMinn d a b cls sc) := by
  intro c hc hw _
  obtain rfl := Option.some.inj (show some (.w32 (joinWord (hA 2 (r4 cls) (r5 b) (r5 a)) (r5 d) 0x14 sc.code)) = some c from hc)
  simp only [decodeCode, decodeWord, splitWord_joinWord, maj_14]
  simp only [decAmo1, BitVec.ofNat_eq_ofNat, Fields.d, Fields.stall, Fields.m, Fields.mlo, zeroed, accept, x5_r5, x3_r3, x4_r4, x6_r6, mreg_m5, inMask_m5, coded_some, varLat_zero, RMode.ofCode_code, LdWidth.ofCode_code, StWidth.ofCode_code, Scope.ofCode_code, VCmpOp.ofCode_code, VFCmpOp.ofCode_code, RedOp.ofCode_code, off14_split, off19_split, decShift, decVmax, decVcmp, decVfcmp, decVm0, decVm1, decVmSc, beq_self_eq_true, Bool.and_self, ↓reduceIte, BitVec.toNat_ofNat, Nat.reducePow, Nat.reduceMod, Bool.and_true, Bool.not_false, hA_op2, hA_cls, hA_r2, hA_r1]

theorem amoMaxn (d : XReg) (a : XReg) (b : XReg) (cls : Cls) (sc : Scope) : Statement (.amoMaxn d a b cls sc) := by
  intro c hc hw _
  obtain rfl := Option.some.inj (show some (.w32 (joinWord (hA 3 (r4 cls) (r5 b) (r5 a)) (r5 d) 0x14 sc.code)) = some c from hc)
  simp only [decodeCode, decodeWord, splitWord_joinWord, maj_14]
  simp only [decAmo1, BitVec.ofNat_eq_ofNat, Fields.d, Fields.stall, Fields.m, Fields.mlo, zeroed, accept, x5_r5, x3_r3, x4_r4, x6_r6, mreg_m5, inMask_m5, coded_some, varLat_zero, RMode.ofCode_code, LdWidth.ofCode_code, StWidth.ofCode_code, Scope.ofCode_code, VCmpOp.ofCode_code, VFCmpOp.ofCode_code, RedOp.ofCode_code, off14_split, off19_split, decShift, decVmax, decVcmp, decVfcmp, decVm0, decVm1, decVmSc, beq_self_eq_true, Bool.and_self, ↓reduceIte, BitVec.toNat_ofNat, Nat.reducePow, Nat.reduceMod, Bool.and_true, Bool.not_false, hA_op2, hA_cls, hA_r2, hA_r1]

theorem amoSwap (d : XReg) (a : XReg) (b : XReg) (cls : Cls) (sc : Scope) : Statement (.amoSwap d a b cls sc) := by
  intro c hc hw _
  obtain rfl := Option.some.inj (show some (.w32 (joinWord (hA 0 (r4 cls) (r5 b) (r5 a)) (r5 d) 0x15 sc.code)) = some c from hc)
  simp only [decodeCode, decodeWord, splitWord_joinWord, maj_15]
  simp only [decAmo2, BitVec.ofNat_eq_ofNat, Fields.d, Fields.stall, Fields.m, Fields.mlo, zeroed, accept, x5_r5, x3_r3, x4_r4, x6_r6, mreg_m5, inMask_m5, coded_some, varLat_zero, RMode.ofCode_code, LdWidth.ofCode_code, StWidth.ofCode_code, Scope.ofCode_code, VCmpOp.ofCode_code, VFCmpOp.ofCode_code, RedOp.ofCode_code, off14_split, off19_split, decShift, decVmax, decVcmp, decVfcmp, decVm0, decVm1, decVmSc, beq_self_eq_true, Bool.and_self, ↓reduceIte, BitVec.toNat_ofNat, Nat.reducePow, Nat.reduceMod, Bool.and_true, Bool.not_false, hA_op2, hA_cls, hA_r2, hA_r1]

theorem amoCas (d : XReg) (a : XReg) (b : XReg) (cls : Cls) (sc : Scope) : Statement (.amoCas d a b cls sc) := by
  intro c hc hw _
  obtain rfl := Option.some.inj (show some (.w32 (joinWord (hA 1 (r4 cls) (r5 b) (r5 a)) (r5 d) 0x15 sc.code)) = some c from hc)
  simp only [decodeCode, decodeWord, splitWord_joinWord, maj_15]
  simp only [decAmo2, BitVec.ofNat_eq_ofNat, Fields.d, Fields.stall, Fields.m, Fields.mlo, zeroed, accept, x5_r5, x3_r3, x4_r4, x6_r6, mreg_m5, inMask_m5, coded_some, varLat_zero, RMode.ofCode_code, LdWidth.ofCode_code, StWidth.ofCode_code, Scope.ofCode_code, VCmpOp.ofCode_code, VFCmpOp.ofCode_code, RedOp.ofCode_code, off14_split, off19_split, decShift, decVmax, decVcmp, decVfcmp, decVm0, decVm1, decVmSc, beq_self_eq_true, Bool.and_self, ↓reduceIte, BitVec.toNat_ofNat, Nat.reducePow, Nat.reduceMod, Bool.and_true, Bool.not_false, hA_op2, hA_cls, hA_r2, hA_r1]

theorem amoqpop (d : XReg) (a : XReg) (cls : Cls) (sc : Scope) : Statement (.amoqpop d a cls sc) := by
  intro c hc hw _
  obtain rfl := Option.some.inj (show some (.w32 (joinWord (hA 0 (r4 cls) 0 (r5 a)) (r5 d) 0x16 sc.code)) = some c from hc)
  simp only [decodeCode, decodeWord, splitWord_joinWord, maj_16]
  simp only [decAmoq, BitVec.ofNat_eq_ofNat, Fields.d, Fields.stall, Fields.m, Fields.mlo, zeroed, accept, x5_r5, x3_r3, x4_r4, x6_r6, mreg_m5, inMask_m5, coded_some, varLat_zero, RMode.ofCode_code, LdWidth.ofCode_code, StWidth.ofCode_code, Scope.ofCode_code, VCmpOp.ofCode_code, VFCmpOp.ofCode_code, RedOp.ofCode_code, off14_split, off19_split, decShift, decVmax, decVcmp, decVfcmp, decVm0, decVm1, decVmSc, beq_self_eq_true, Bool.and_self, ↓reduceIte, BitVec.toNat_ofNat, Nat.reducePow, Nat.reduceMod, Bool.and_true, Bool.not_false, hA_op2, hA_cls, hA_r2, hA_r1]

theorem amoqsteal (d : XReg) (a : XReg) (cls : Cls) (sc : Scope) : Statement (.amoqsteal d a cls sc) := by
  intro c hc hw _
  obtain rfl := Option.some.inj (show some (.w32 (joinWord (hA 1 (r4 cls) 0 (r5 a)) (r5 d) 0x16 sc.code)) = some c from hc)
  simp only [decodeCode, decodeWord, splitWord_joinWord, maj_16]
  simp only [decAmoq, BitVec.ofNat_eq_ofNat, Fields.d, Fields.stall, Fields.m, Fields.mlo, zeroed, accept, x5_r5, x3_r3, x4_r4, x6_r6, mreg_m5, inMask_m5, coded_some, varLat_zero, RMode.ofCode_code, LdWidth.ofCode_code, StWidth.ofCode_code, Scope.ofCode_code, VCmpOp.ofCode_code, VFCmpOp.ofCode_code, RedOp.ofCode_code, off14_split, off19_split, decShift, decVmax, decVcmp, decVfcmp, decVm0, decVm1, decVmSc, beq_self_eq_true, Bool.and_self, ↓reduceIte, BitVec.toNat_ofNat, Nat.reducePow, Nat.reduceMod, Bool.and_true, Bool.not_false, hA_op2, hA_cls, hA_r2, hA_r1]

theorem beq (a : XReg) (b : XReg) (off : BitVec 14) : Statement (.beq a b off) := by
  intro c hc hw _
  obtain rfl := Option.some.inj (show some (.w32 (joinWord (hB off (r5 b)) (r5 a) 0x18 (off.extractLsb' 0 3))) = some c from hc)
  simp only [decodeCode, decodeWord, splitWord_joinWord, maj_18]
  simp only [BitVec.ofNat_eq_ofNat, Fields.d, Fields.stall, Fields.m, Fields.mlo, zeroed, accept, x5_r5, x3_r3, x4_r4, x6_r6, mreg_m5, inMask_m5, coded_some, varLat_zero, RMode.ofCode_code, LdWidth.ofCode_code, StWidth.ofCode_code, Scope.ofCode_code, VCmpOp.ofCode_code, VFCmpOp.ofCode_code, RedOp.ofCode_code, off14_split, off19_split, decShift, decVmax, decVcmp, decVfcmp, decVm0, decVm1, decVmSc, beq_self_eq_true, Bool.and_self, ↓reduceIte, BitVec.toNat_ofNat, Nat.reducePow, Nat.reduceMod, Bool.and_true, Bool.not_false, hB_r1]

theorem bne (a : XReg) (b : XReg) (off : BitVec 14) : Statement (.bne a b off) := by
  intro c hc hw _
  obtain rfl := Option.some.inj (show some (.w32 (joinWord (hB off (r5 b)) (r5 a) 0x19 (off.extractLsb' 0 3))) = some c from hc)
  simp only [decodeCode, decodeWord, splitWord_joinWord, maj_19]
  simp only [BitVec.ofNat_eq_ofNat, Fields.d, Fields.stall, Fields.m, Fields.mlo, zeroed, accept, x5_r5, x3_r3, x4_r4, x6_r6, mreg_m5, inMask_m5, coded_some, varLat_zero, RMode.ofCode_code, LdWidth.ofCode_code, StWidth.ofCode_code, Scope.ofCode_code, VCmpOp.ofCode_code, VFCmpOp.ofCode_code, RedOp.ofCode_code, off14_split, off19_split, decShift, decVmax, decVcmp, decVfcmp, decVm0, decVm1, decVmSc, beq_self_eq_true, Bool.and_self, ↓reduceIte, BitVec.toNat_ofNat, Nat.reducePow, Nat.reduceMod, Bool.and_true, Bool.not_false, hB_r1]

theorem blt (a : XReg) (b : XReg) (off : BitVec 14) : Statement (.blt a b off) := by
  intro c hc hw _
  obtain rfl := Option.some.inj (show some (.w32 (joinWord (hB off (r5 b)) (r5 a) 0x1a (off.extractLsb' 0 3))) = some c from hc)
  simp only [decodeCode, decodeWord, splitWord_joinWord, maj_1A]
  simp only [BitVec.ofNat_eq_ofNat, Fields.d, Fields.stall, Fields.m, Fields.mlo, zeroed, accept, x5_r5, x3_r3, x4_r4, x6_r6, mreg_m5, inMask_m5, coded_some, varLat_zero, RMode.ofCode_code, LdWidth.ofCode_code, StWidth.ofCode_code, Scope.ofCode_code, VCmpOp.ofCode_code, VFCmpOp.ofCode_code, RedOp.ofCode_code, off14_split, off19_split, decShift, decVmax, decVcmp, decVfcmp, decVm0, decVm1, decVmSc, beq_self_eq_true, Bool.and_self, ↓reduceIte, BitVec.toNat_ofNat, Nat.reducePow, Nat.reduceMod, Bool.and_true, Bool.not_false, hB_r1]

theorem bge (a : XReg) (b : XReg) (off : BitVec 14) : Statement (.bge a b off) := by
  intro c hc hw _
  obtain rfl := Option.some.inj (show some (.w32 (joinWord (hB off (r5 b)) (r5 a) 0x1b (off.extractLsb' 0 3))) = some c from hc)
  simp only [decodeCode, decodeWord, splitWord_joinWord, maj_1B]
  simp only [BitVec.ofNat_eq_ofNat, Fields.d, Fields.stall, Fields.m, Fields.mlo, zeroed, accept, x5_r5, x3_r3, x4_r4, x6_r6, mreg_m5, inMask_m5, coded_some, varLat_zero, RMode.ofCode_code, LdWidth.ofCode_code, StWidth.ofCode_code, Scope.ofCode_code, VCmpOp.ofCode_code, VFCmpOp.ofCode_code, RedOp.ofCode_code, off14_split, off19_split, decShift, decVmax, decVcmp, decVfcmp, decVm0, decVm1, decVmSc, beq_self_eq_true, Bool.and_self, ↓reduceIte, BitVec.toNat_ofNat, Nat.reducePow, Nat.reduceMod, Bool.and_true, Bool.not_false, hB_r1]

theorem bltn (a : XReg) (b : XReg) (off : BitVec 14) : Statement (.bltn a b off) := by
  intro c hc hw _
  obtain rfl := Option.some.inj (show some (.w32 (joinWord (hB off (r5 b)) (r5 a) 0x1c (off.extractLsb' 0 3))) = some c from hc)
  simp only [decodeCode, decodeWord, splitWord_joinWord, maj_1C]
  simp only [BitVec.ofNat_eq_ofNat, Fields.d, Fields.stall, Fields.m, Fields.mlo, zeroed, accept, x5_r5, x3_r3, x4_r4, x6_r6, mreg_m5, inMask_m5, coded_some, varLat_zero, RMode.ofCode_code, LdWidth.ofCode_code, StWidth.ofCode_code, Scope.ofCode_code, VCmpOp.ofCode_code, VFCmpOp.ofCode_code, RedOp.ofCode_code, off14_split, off19_split, decShift, decVmax, decVcmp, decVfcmp, decVm0, decVm1, decVmSc, beq_self_eq_true, Bool.and_self, ↓reduceIte, BitVec.toNat_ofNat, Nat.reducePow, Nat.reduceMod, Bool.and_true, Bool.not_false, hB_r1]

theorem bgen (a : XReg) (b : XReg) (off : BitVec 14) : Statement (.bgen a b off) := by
  intro c hc hw _
  obtain rfl := Option.some.inj (show some (.w32 (joinWord (hB off (r5 b)) (r5 a) 0x1d (off.extractLsb' 0 3))) = some c from hc)
  simp only [decodeCode, decodeWord, splitWord_joinWord, maj_1D]
  simp only [BitVec.ofNat_eq_ofNat, Fields.d, Fields.stall, Fields.m, Fields.mlo, zeroed, accept, x5_r5, x3_r3, x4_r4, x6_r6, mreg_m5, inMask_m5, coded_some, varLat_zero, RMode.ofCode_code, LdWidth.ofCode_code, StWidth.ofCode_code, Scope.ofCode_code, VCmpOp.ofCode_code, VFCmpOp.ofCode_code, RedOp.ofCode_code, off14_split, off19_split, decShift, decVmax, decVcmp, decVfcmp, decVm0, decVm1, decVmSc, beq_self_eq_true, Bool.and_self, ↓reduceIte, BitVec.toNat_ofNat, Nat.reducePow, Nat.reduceMod, Bool.and_true, Bool.not_false, hB_r1]

theorem jal (d : XReg) (off : BitVec 19) : Statement (.jal d off) := by
  intro c hc hw _
  obtain rfl := Option.some.inj (show some (.w32 (joinWord (off.extractLsb' 3 16) (r5 d) 0x1E (off.extractLsb' 0 3))) = some c from hc)
  simp only [decodeCode, decodeWord, splitWord_joinWord, maj_1E]
  simp only [BitVec.ofNat_eq_ofNat, Fields.d, Fields.stall, Fields.m, Fields.mlo, zeroed, accept, x5_r5, x3_r3, x4_r4, x6_r6, mreg_m5, inMask_m5, coded_some, varLat_zero, RMode.ofCode_code, LdWidth.ofCode_code, StWidth.ofCode_code, Scope.ofCode_code, VCmpOp.ofCode_code, VFCmpOp.ofCode_code, RedOp.ofCode_code, off14_split, off19_split, decShift, decVmax, decVcmp, decVfcmp, decVm0, decVm1, decVmSc, beq_self_eq_true, Bool.and_self, ↓reduceIte, BitVec.toNat_ofNat, Nat.reducePow, Nat.reduceMod, Bool.and_true, Bool.not_false]

theorem jalr (d : XReg) (a : XReg) (imm : BitVec 11) : Statement (.jalr d a imm) := by
  intro c hc hw _
  obtain rfl := Option.some.inj (show some (.w32 (joinWord (hI imm (r5 a)) (r5 d) 0x1F 0)) = some c from hc)
  simp only [decodeCode, decodeWord, splitWord_joinWord, maj_1F]
  simp only [BitVec.ofNat_eq_ofNat, Fields.d, Fields.stall, Fields.m, Fields.mlo, zeroed, accept, x5_r5, x3_r3, x4_r4, x6_r6, mreg_m5, inMask_m5, coded_some, varLat_zero, RMode.ofCode_code, LdWidth.ofCode_code, StWidth.ofCode_code, Scope.ofCode_code, VCmpOp.ofCode_code, VFCmpOp.ofCode_code, RedOp.ofCode_code, off14_split, off19_split, decShift, decVmax, decVcmp, decVfcmp, decVm0, decVm1, decVmSc, beq_self_eq_true, Bool.and_self, ↓reduceIte, BitVec.toNat_ofNat, Nat.reducePow, Nat.reduceMod, Bool.and_true, Bool.not_false, hI_imm11, hI_r1, shift_hi, shift_lo]

theorem calli (d : XReg) (a : XReg) (k : BitVec 11) : Statement (.calli d a k) := by
  intro c hc hw _
  obtain rfl := Option.some.inj (show some (.w32 (joinWord (hI k (r5 a)) (r5 d) 0x20 0)) = some c from hc)
  simp only [decodeCode, decodeWord, splitWord_joinWord, maj_20]
  simp only [BitVec.ofNat_eq_ofNat, Fields.d, Fields.stall, Fields.m, Fields.mlo, zeroed, accept, x5_r5, x3_r3, x4_r4, x6_r6, mreg_m5, inMask_m5, coded_some, varLat_zero, RMode.ofCode_code, LdWidth.ofCode_code, StWidth.ofCode_code, Scope.ofCode_code, VCmpOp.ofCode_code, VFCmpOp.ofCode_code, RedOp.ofCode_code, off14_split, off19_split, decShift, decVmax, decVcmp, decVfcmp, decVm0, decVm1, decVmSc, beq_self_eq_true, Bool.and_self, ↓reduceIte, BitVec.toNat_ofNat, Nat.reducePow, Nat.reduceMod, Bool.and_true, Bool.not_false, hI_imm11, hI_r1, shift_hi, shift_lo]

theorem cmark (k : BitVec 11) : Statement (.cmark k) := by
  intro c hc hw _
  obtain rfl := Option.some.inj (show some (.w32 (joinWord (k.setWidth 16) 0 0x21 0)) = some c from hc)
  simp only [decodeCode, decodeWord, splitWord_joinWord, maj_21]
  simp only [cmark_top, cmark_low]
  simp [varLat, zeroed, accept, Fields.d]

theorem trap (imm : BitVec 11) : Statement (.trap imm) := by
  intro c hc hw _
  obtain rfl := Option.some.inj (show some (.w32 (joinWord (hI imm 0) 0 0x22 0)) = some c from hc)
  simp only [decodeCode, decodeWord, splitWord_joinWord, maj_22]
  simp only [BitVec.ofNat_eq_ofNat, Fields.d, Fields.stall, Fields.m, Fields.mlo, zeroed, accept, x5_r5, x3_r3, x4_r4, x6_r6, mreg_m5, inMask_m5, coded_some, varLat_zero, RMode.ofCode_code, LdWidth.ofCode_code, StWidth.ofCode_code, Scope.ofCode_code, VCmpOp.ofCode_code, VFCmpOp.ofCode_code, RedOp.ofCode_code, off14_split, off19_split, decShift, decVmax, decVcmp, decVfcmp, decVm0, decVm1, decVmSc, beq_self_eq_true, Bool.and_self, ↓reduceIte, BitVec.toNat_ofNat, Nat.reducePow, Nat.reduceMod, Bool.and_true, Bool.not_false, hI_imm11, hI_r1, shift_hi, shift_lo]

theorem srd (d : XReg) (n : BitVec 11) : Statement (.srd d n) := by
  intro c hc hw _
  obtain rfl := Option.some.inj (show some (.w32 (joinWord (hI n 0) (r5 d) 0x23 0)) = some c from hc)
  simp only [decodeCode, decodeWord, splitWord_joinWord, maj_23]
  simp only [BitVec.ofNat_eq_ofNat, Fields.d, Fields.stall, Fields.m, Fields.mlo, zeroed, accept, x5_r5, x3_r3, x4_r4, x6_r6, mreg_m5, inMask_m5, coded_some, varLat_zero, RMode.ofCode_code, LdWidth.ofCode_code, StWidth.ofCode_code, Scope.ofCode_code, VCmpOp.ofCode_code, VFCmpOp.ofCode_code, RedOp.ofCode_code, off14_split, off19_split, decShift, decVmax, decVcmp, decVfcmp, decVm0, decVm1, decVmSc, beq_self_eq_true, Bool.and_self, ↓reduceIte, BitVec.toNat_ofNat, Nat.reducePow, Nat.reduceMod, Bool.and_true, Bool.not_false, hI_imm11, hI_r1, shift_hi, shift_lo]

theorem swr (n : BitVec 11) (a : XReg) : Statement (.swr n a) := by
  intro c hc hw _
  obtain rfl := Option.some.inj (show some (.w32 (joinWord (hI n (r5 a)) 0 0x24 0)) = some c from hc)
  simp only [decodeCode, decodeWord, splitWord_joinWord, maj_24]
  simp only [BitVec.ofNat_eq_ofNat, Fields.d, Fields.stall, Fields.m, Fields.mlo, zeroed, accept, x5_r5, x3_r3, x4_r4, x6_r6, mreg_m5, inMask_m5, coded_some, varLat_zero, RMode.ofCode_code, LdWidth.ofCode_code, StWidth.ofCode_code, Scope.ofCode_code, VCmpOp.ofCode_code, VFCmpOp.ofCode_code, RedOp.ofCode_code, off14_split, off19_split, decShift, decVmax, decVcmp, decVfcmp, decVm0, decVm1, decVmSc, beq_self_eq_true, Bool.and_self, ↓reduceIte, BitVec.toNat_ofNat, Nat.reducePow, Nat.reduceMod, Bool.and_true, Bool.not_false, hI_imm11, hI_r1, shift_hi, shift_lo]

theorem erd (d : XReg) (sel : BitVec 11) : Statement (.erd d sel) := by
  intro c hc hw _
  obtain rfl := Option.some.inj (show some (.w32 (joinWord (hI sel 0) (r5 d) 0x25 0)) = some c from hc)
  simp only [decodeCode, decodeWord, splitWord_joinWord, maj_25]
  simp only [BitVec.ofNat_eq_ofNat, Fields.d, Fields.stall, Fields.m, Fields.mlo, zeroed, accept, x5_r5, x3_r3, x4_r4, x6_r6, mreg_m5, inMask_m5, coded_some, varLat_zero, RMode.ofCode_code, LdWidth.ofCode_code, StWidth.ofCode_code, Scope.ofCode_code, VCmpOp.ofCode_code, VFCmpOp.ofCode_code, RedOp.ofCode_code, off14_split, off19_split, decShift, decVmax, decVcmp, decVfcmp, decVm0, decVm1, decVmSc, beq_self_eq_true, Bool.and_self, ↓reduceIte, BitVec.toNat_ofNat, Nat.reducePow, Nat.reduceMod, Bool.and_true, Bool.not_false, hI_imm11, hI_r1, shift_hi, shift_lo]

theorem tret : Statement .tret := by
  intro c hc hw _
  obtain rfl := Option.some.inj (show some (.w32 (joinWord (hR 0 0 0) 0 0x26 0)) = some c from hc)
  simp only [decodeCode, decodeWord, splitWord_joinWord, maj_26]
  simp only [decSystem, BitVec.ofNat_eq_ofNat, Fields.d, Fields.stall, Fields.m, Fields.mlo, zeroed, accept, x5_r5, x3_r3, x4_r4, x6_r6, mreg_m5, inMask_m5, coded_some, varLat_zero, RMode.ofCode_code, LdWidth.ofCode_code, StWidth.ofCode_code, Scope.ofCode_code, VCmpOp.ofCode_code, VFCmpOp.ofCode_code, RedOp.ofCode_code, off14_split, off19_split, decShift, decVmax, decVcmp, decVfcmp, decVm0, decVm1, decVmSc, beq_self_eq_true, Bool.and_self, ↓reduceIte, BitVec.toNat_ofNat, Nat.reducePow, Nat.reduceMod, Bool.and_true, Bool.not_false, hR_funct6, hR_r2, hR_r1]

theorem fencei : Statement .fencei := by
  intro c hc hw _
  obtain rfl := Option.some.inj (show some (.w32 (joinWord (hR 1 0 0) 0 0x26 0)) = some c from hc)
  simp only [decodeCode, decodeWord, splitWord_joinWord, maj_26]
  simp only [decSystem, BitVec.ofNat_eq_ofNat, Fields.d, Fields.stall, Fields.m, Fields.mlo, zeroed, accept, x5_r5, x3_r3, x4_r4, x6_r6, mreg_m5, inMask_m5, coded_some, varLat_zero, RMode.ofCode_code, LdWidth.ofCode_code, StWidth.ofCode_code, Scope.ofCode_code, VCmpOp.ofCode_code, VFCmpOp.ofCode_code, RedOp.ofCode_code, off14_split, off19_split, decShift, decVmax, decVcmp, decVfcmp, decVm0, decVm1, decVmSc, beq_self_eq_true, Bool.and_self, ↓reduceIte, BitVec.toNat_ofNat, Nat.reducePow, Nat.reduceMod, Bool.and_true, Bool.not_false, hR_funct6, hR_r2, hR_r1]

theorem yield : Statement .yield := by
  intro c hc hw _
  obtain rfl := Option.some.inj (show some (.w32 (joinWord (hR 2 0 0) 0 0x26 0)) = some c from hc)
  simp only [decodeCode, decodeWord, splitWord_joinWord, maj_26]
  simp only [decSystem, BitVec.ofNat_eq_ofNat, Fields.d, Fields.stall, Fields.m, Fields.mlo, zeroed, accept, x5_r5, x3_r3, x4_r4, x6_r6, mreg_m5, inMask_m5, coded_some, varLat_zero, RMode.ofCode_code, LdWidth.ofCode_code, StWidth.ofCode_code, Scope.ofCode_code, VCmpOp.ofCode_code, VFCmpOp.ofCode_code, RedOp.ofCode_code, off14_split, off19_split, decShift, decVmax, decVcmp, decVfcmp, decVm0, decVm1, decVmSc, beq_self_eq_true, Bool.and_self, ↓reduceIte, BitVec.toNat_ofNat, Nat.reducePow, Nat.reduceMod, Bool.and_true, Bool.not_false, hR_funct6, hR_r2, hR_r1]

theorem exit : Statement .exit := by
  intro c hc hw _
  obtain rfl := Option.some.inj (show some (.w32 (joinWord (hR 3 0 0) 0 0x26 0)) = some c from hc)
  simp only [decodeCode, decodeWord, splitWord_joinWord, maj_26]
  simp only [decSystem, BitVec.ofNat_eq_ofNat, Fields.d, Fields.stall, Fields.m, Fields.mlo, zeroed, accept, x5_r5, x3_r3, x4_r4, x6_r6, mreg_m5, inMask_m5, coded_some, varLat_zero, RMode.ofCode_code, LdWidth.ofCode_code, StWidth.ofCode_code, Scope.ofCode_code, VCmpOp.ofCode_code, VFCmpOp.ofCode_code, RedOp.ofCode_code, off14_split, off19_split, decShift, decVmax, decVcmp, decVfcmp, decVm0, decVm1, decVmSc, beq_self_eq_true, Bool.and_self, ↓reduceIte, BitVec.toNat_ofNat, Nat.reducePow, Nat.reduceMod, Bool.and_true, Bool.not_false, hR_funct6, hR_r2, hR_r1]

theorem join (d : XReg) (a : XReg) : Statement (.join d a) := by
  intro c hc hw _
  obtain rfl := Option.some.inj (show some (.w32 (joinWord (hR 4 0 (r5 a)) (r5 d) 0x26 0)) = some c from hc)
  simp only [decodeCode, decodeWord, splitWord_joinWord, maj_26]
  simp only [decSystem, BitVec.ofNat_eq_ofNat, Fields.d, Fields.stall, Fields.m, Fields.mlo, zeroed, accept, x5_r5, x3_r3, x4_r4, x6_r6, mreg_m5, inMask_m5, coded_some, varLat_zero, RMode.ofCode_code, LdWidth.ofCode_code, StWidth.ofCode_code, Scope.ofCode_code, VCmpOp.ofCode_code, VFCmpOp.ofCode_code, RedOp.ofCode_code, off14_split, off19_split, decShift, decVmax, decVcmp, decVfcmp, decVm0, decVm1, decVmSc, beq_self_eq_true, Bool.and_self, ↓reduceIte, BitVec.toNat_ofNat, Nat.reducePow, Nat.reduceMod, Bool.and_true, Bool.not_false, hR_funct6, hR_r2, hR_r1]

theorem leave (d : XReg) (a : XReg) : Statement (.leave d a) := by
  intro c hc hw _
  obtain rfl := Option.some.inj (show some (.w32 (joinWord (hR 5 0 (r5 a)) (r5 d) 0x26 0)) = some c from hc)
  simp only [decodeCode, decodeWord, splitWord_joinWord, maj_26]
  simp only [decSystem, BitVec.ofNat_eq_ofNat, Fields.d, Fields.stall, Fields.m, Fields.mlo, zeroed, accept, x5_r5, x3_r3, x4_r4, x6_r6, mreg_m5, inMask_m5, coded_some, varLat_zero, RMode.ofCode_code, LdWidth.ofCode_code, StWidth.ofCode_code, Scope.ofCode_code, VCmpOp.ofCode_code, VFCmpOp.ofCode_code, RedOp.ofCode_code, off14_split, off19_split, decShift, decVmax, decVcmp, decVfcmp, decVm0, decVm1, decVmSc, beq_self_eq_true, Bool.and_self, ↓reduceIte, BitVec.toNat_ofNat, Nat.reducePow, Nat.reduceMod, Bool.and_true, Bool.not_false, hR_funct6, hR_r2, hR_r1]

theorem ctail (a : XReg) (b : XReg) : Statement (.ctail a b) := by
  intro c hc hw _
  obtain rfl := Option.some.inj (show some (.w32 (joinWord (hR 6 (r5 b) (r5 a)) 0 0x26 0)) = some c from hc)
  simp only [decodeCode, decodeWord, splitWord_joinWord, maj_26]
  simp only [decSystem, BitVec.ofNat_eq_ofNat, Fields.d, Fields.stall, Fields.m, Fields.mlo, zeroed, accept, x5_r5, x3_r3, x4_r4, x6_r6, mreg_m5, inMask_m5, coded_some, varLat_zero, RMode.ofCode_code, LdWidth.ofCode_code, StWidth.ofCode_code, Scope.ofCode_code, VCmpOp.ofCode_code, VFCmpOp.ofCode_code, RedOp.ofCode_code, off14_split, off19_split, decShift, decVmax, decVcmp, decVfcmp, decVm0, decVm1, decVmSc, beq_self_eq_true, Bool.and_self, ↓reduceIte, BitVec.toNat_ofNat, Nat.reducePow, Nat.reduceMod, Bool.and_true, Bool.not_false, hR_funct6, hR_r2, hR_r1]

theorem lreq (d : XReg) (a : XReg) : Statement (.lreq d a) := by
  intro c hc hw _
  obtain rfl := Option.some.inj (show some (.w32 (joinWord (hR 7 0 (r5 a)) (r5 d) 0x26 0)) = some c from hc)
  simp only [decodeCode, decodeWord, splitWord_joinWord, maj_26]
  simp only [decSystem, BitVec.ofNat_eq_ofNat, Fields.d, Fields.stall, Fields.m, Fields.mlo, zeroed, accept, x5_r5, x3_r3, x4_r4, x6_r6, mreg_m5, inMask_m5, coded_some, varLat_zero, RMode.ofCode_code, LdWidth.ofCode_code, StWidth.ofCode_code, Scope.ofCode_code, VCmpOp.ofCode_code, VFCmpOp.ofCode_code, RedOp.ofCode_code, off14_split, off19_split, decShift, decVmax, decVcmp, decVfcmp, decVm0, decVm1, decVmSc, beq_self_eq_true, Bool.and_self, ↓reduceIte, BitVec.toNat_ofNat, Nat.reducePow, Nat.reduceMod, Bool.and_true, Bool.not_false, hR_funct6, hR_r2, hR_r1]

theorem vsetvl (d : XReg) (a : XReg) (b : XReg) : Statement (.vsetvl d a b) := by
  intro c hc hw _
  obtain rfl := Option.some.inj (show some (.w32 (joinWord (hR 0 (r5 b) (r5 a)) (r5 d) 0x28 0)) = some c from hc)
  simp only [decodeCode, decodeWord, splitWord_joinWord, maj_28]
  simp only [BitVec.ofNat_eq_ofNat, Fields.d, Fields.stall, Fields.m, Fields.mlo, zeroed, accept, x5_r5, x3_r3, x4_r4, x6_r6, mreg_m5, inMask_m5, coded_some, varLat_zero, RMode.ofCode_code, LdWidth.ofCode_code, StWidth.ofCode_code, Scope.ofCode_code, VCmpOp.ofCode_code, VFCmpOp.ofCode_code, RedOp.ofCode_code, off14_split, off19_split, decShift, decVmax, decVcmp, decVfcmp, decVm0, decVm1, decVmSc, beq_self_eq_true, Bool.and_self, ↓reduceIte, BitVec.toNat_ofNat, Nat.reducePow, Nat.reduceMod, Bool.and_true, Bool.not_false, hR_funct6, hR_r2, hR_r1]

theorem vsetvli (d : XReg) (a : XReg) (req : BitVec 13) (rm : BitVec 3) : Statement (.vsetvli d a req rm) := by
  intro c hc hw _
  obtain rfl := Option.some.inj (show some (Code.w32 (joinWord (hI (req.extractLsb' 0 11) (r5 a)) (r5 d) (11#5 ++ req.extractLsb' 11 2) rm)) = some c from hc)
  simp only [decodeCode, decodeWord, splitWord_joinWord, maj_vsetvli]
  simp [Fields.d, req_split]

theorem vfetchIssueGroup : Statement .vfetchIssueGroup := by
  intro c hc
  exact nomatch (show none = some c from hc)

theorem fenceC (mask : BitVec 16) : Statement (.fenceC mask) := by
  intro c hc hw _
  obtain rfl := Option.some.inj (show some (.w32 (joinWord mask 0 0x61 0)) = some c from hc)
  simp only [decodeCode, decodeWord, splitWord_joinWord, maj_61]
  simp only [BitVec.ofNat_eq_ofNat, Fields.d, Fields.stall, Fields.m, Fields.mlo, zeroed, accept, x5_r5, x3_r3, x4_r4, x6_r6, mreg_m5, inMask_m5, coded_some, varLat_zero, RMode.ofCode_code, LdWidth.ofCode_code, StWidth.ofCode_code, Scope.ofCode_code, VCmpOp.ofCode_code, VFCmpOp.ofCode_code, RedOp.ofCode_code, off14_split, off19_split, decShift, decVmax, decVcmp, decVfcmp, decVm0, decVm1, decVmSc, beq_self_eq_true, Bool.and_self, ↓reduceIte, BitVec.toNat_ofNat, Nat.reducePow, Nat.reduceMod, Bool.and_true, Bool.not_false]

theorem fenceP (pf : BitVec 5) (pt : BitVec 5) : Statement (.fenceP pf pt) := by
  intro c hc hw _
  obtain rfl := Option.some.inj (show some (.w32 (joinWord (hI (0#1 ++ pt ++ pf) 0) 0 0x62 0)) = some c from hc)
  simp only [decodeCode, decodeWord, splitWord_joinWord, maj_62]
  simp only [fenceP_to, fenceP_from, fenceP_bit]
  simp [varLat, zeroed, accept, Fields.d]

theorem fenceS (sc : Scope) : Statement (.fenceS sc) := by
  intro c hc hw _
  obtain rfl := Option.some.inj (show some (.w32 (joinWord (hI (0#4 ++ 0#4 ++ sc.code) 0) 0 0x63 0)) = some c from hc)
  simp only [decodeCode, decodeWord, splitWord_joinWord, maj_63]
  simp only [decSync, syncs_op, syncs_z, syncs_s]
  simp [varLat, zeroed, accept, Fields.d]

theorem fenceA (sc : Scope) (a : XReg) : Statement (.fenceA sc a) := by
  intro c hc hw _
  obtain rfl := Option.some.inj (show some (.w32 (joinWord (hI (1#4 ++ 0#4 ++ sc.code) (r5 a)) 0 0x63 0)) = some c from hc)
  simp only [decodeCode, decodeWord, splitWord_joinWord, maj_63]
  simp only [decSync, syncs_op, syncs_z, syncs_s]
  simp [varLat, zeroed, accept, Fields.d]

theorem bwait (sc : Scope) (a : XReg) : Statement (.bwait sc a) := by
  intro c hc hw _
  obtain rfl := Option.some.inj (show some (.w32 (joinWord (hI (2#4 ++ 0#4 ++ sc.code) (r5 a)) 0 0x63 0)) = some c from hc)
  simp only [decodeCode, decodeWord, splitWord_joinWord, maj_63]
  simp only [decSync, syncs_op, syncs_z, syncs_s]
  simp [varLat, zeroed, accept, Fields.d]

theorem hpost (l : Fin 16) (a : XReg) : Statement (.hpost l a) := by
  intro c hc hw _
  obtain rfl := Option.some.inj (show some (.w32 (joinWord (hI (3#4 ++ 0#3 ++ r4 l) (r5 a)) 0 0x63 0)) = some c from hc)
  simp only [decodeCode, decodeWord, splitWord_joinWord, maj_63]
  simp only [decSync, syncl_op, syncl_z, syncl_s]
  simp [varLat, zeroed, accept, Fields.d]

theorem hwait (l : Fin 16) (a : XReg) : Statement (.hwait l a) := by
  intro c hc hw _
  obtain rfl := Option.some.inj (show some (.w32 (joinWord (hI (4#4 ++ 0#3 ++ r4 l) (r5 a)) 0 0x63 0)) = some c from hc)
  simp only [decodeCode, decodeWord, splitWord_joinWord, maj_63]
  simp only [decSync, syncl_op, syncl_z, syncl_s]
  simp [varLat, zeroed, accept, Fields.d]

theorem hfset (f : Fin 32) (b : VReg) : Statement (.hfset f b) := by
  intro c hc hw _
  obtain rfl := Option.some.inj (show some (.w32 (joinWord (hI (5#4 ++ 1#2 ++ r5 f) 0) (r5 b) 0x63 0)) = some c from hc)
  simp only [decodeCode, decodeWord, splitWord_joinWord, maj_63]
  simp only [decSync, syncf_op, syncf_z, syncf_s]
  simp [varLat, zeroed, accept, Fields.d]

theorem hfsetBare (f : Fin 32) : Statement (.hfsetBare f) := by
  intro c hc hw _
  obtain rfl := Option.some.inj (show some (.w32 (joinWord (hI (5#4 ++ 0#2 ++ r5 f) 0) 0 0x63 0)) = some c from hc)
  simp only [decodeCode, decodeWord, splitWord_joinWord, maj_63]
  simp only [decSync, syncf_op, syncf_z, syncf_s]
  simp [varLat, zeroed, accept, Fields.d]

theorem hfsetClr (f : Fin 32) : Statement (.hfsetClr f) := by
  intro c hc hw _
  obtain rfl := Option.some.inj (show some (.w32 (joinWord (hI (5#4 ++ 2#2 ++ r5 f) 0) 0 0x63 0)) = some c from hc)
  simp only [decodeCode, decodeWord, splitWord_joinWord, maj_63]
  simp only [decSync, syncf_op, syncf_z, syncf_s]
  simp [varLat, zeroed, accept, Fields.d]

theorem hfwait (f : Fin 32) (full : Bool) : Statement (.hfwait f full) := by
  intro c hc hw _
  obtain rfl := Option.some.inj (show some (.w32 (joinWord (hI (6#4 ++ 0#1 ++ BitVec.ofBool full ++ r5 f) 0) 0 0x63 0)) = some c from hc)
  simp only [decodeCode, decodeWord, splitWord_joinWord, maj_63]
  simp only [decSync, syncw_op, syncw_z, syncw_s, syncw_u]
  simp [varLat, zeroed, accept, Fields.d]

theorem cpy (d : XReg) (a : XReg) (b : XReg) (tag : Fin 64) : Statement (.cpy d a b tag) := by
  intro c hc hw _
  obtain rfl := Option.some.inj (show some (.w32 (joinWord (hR (r6 tag) (r5 b) (r5 a)) (r5 d) 0x64 0)) = some c from hc)
  simp only [decodeCode, decodeWord, splitWord_joinWord, maj_64]
  simp only [BitVec.ofNat_eq_ofNat, Fields.d, Fields.stall, Fields.m, Fields.mlo, zeroed, accept, x5_r5, x3_r3, x4_r4, x6_r6, mreg_m5, inMask_m5, coded_some, varLat_zero, RMode.ofCode_code, LdWidth.ofCode_code, StWidth.ofCode_code, Scope.ofCode_code, VCmpOp.ofCode_code, VFCmpOp.ofCode_code, RedOp.ofCode_code, off14_split, off19_split, decShift, decVmax, decVcmp, decVfcmp, decVm0, decVm1, decVmSc, beq_self_eq_true, Bool.and_self, ↓reduceIte, BitVec.toNat_ofNat, Nat.reducePow, Nat.reduceMod, Bool.and_true, Bool.not_false, hR_funct6, hR_r2, hR_r1]

theorem cpy2 (d : XReg) (a : XReg) (b : XReg) (tag : Fin 64) : Statement (.cpy2 d a b tag) := by
  intro c hc hw _
  obtain rfl := Option.some.inj (show some (.w32 (joinWord (hR (r6 tag) (r5 b) (r5 a)) (r5 d) 0x65 0)) = some c from hc)
  simp only [decodeCode, decodeWord, splitWord_joinWord, maj_65]
  simp only [BitVec.ofNat_eq_ofNat, Fields.d, Fields.stall, Fields.m, Fields.mlo, zeroed, accept, x5_r5, x3_r3, x4_r4, x6_r6, mreg_m5, inMask_m5, coded_some, varLat_zero, RMode.ofCode_code, LdWidth.ofCode_code, StWidth.ofCode_code, Scope.ofCode_code, VCmpOp.ofCode_code, VFCmpOp.ofCode_code, RedOp.ofCode_code, off14_split, off19_split, decShift, decVmax, decVcmp, decVfcmp, decVm0, decVm1, decVmSc, beq_self_eq_true, Bool.and_self, ↓reduceIte, BitVec.toNat_ofNat, Nat.reducePow, Nat.reduceMod, Bool.and_true, Bool.not_false, hR_funct6, hR_r2, hR_r1]

theorem cpyx (d : XReg) (a : XReg) (b : XReg) (tag : Fin 64) : Statement (.cpyx d a b tag) := by
  intro c hc hw _
  obtain rfl := Option.some.inj (show some (.w32 (joinWord (hR (r6 tag) (r5 b) (r5 a)) (r5 d) 0x66 0)) = some c from hc)
  simp only [decodeCode, decodeWord, splitWord_joinWord, maj_66]
  simp only [BitVec.ofNat_eq_ofNat, Fields.d, Fields.stall, Fields.m, Fields.mlo, zeroed, accept, x5_r5, x3_r3, x4_r4, x6_r6, mreg_m5, inMask_m5, coded_some, varLat_zero, RMode.ofCode_code, LdWidth.ofCode_code, StWidth.ofCode_code, Scope.ofCode_code, VCmpOp.ofCode_code, VFCmpOp.ofCode_code, RedOp.ofCode_code, off14_split, off19_split, decShift, decVmax, decVcmp, decVfcmp, decVm0, decVm1, decVmSc, beq_self_eq_true, Bool.and_self, ↓reduceIte, BitVec.toNat_ofNat, Nat.reducePow, Nat.reduceMod, Bool.and_true, Bool.not_false, hR_funct6, hR_r2, hR_r1]

theorem twaitall (d : XReg) (a : XReg) : Statement (.twaitall d a) := by
  intro c hc hw _
  obtain rfl := Option.some.inj (show some (.w32 (joinWord (hR 0 0 (r5 a)) (r5 d) 0x67 0)) = some c from hc)
  simp only [decodeCode, decodeWord, splitWord_joinWord, maj_67]
  simp only [decTag, BitVec.ofNat_eq_ofNat, Fields.d, Fields.stall, Fields.m, Fields.mlo, zeroed, accept, x5_r5, x3_r3, x4_r4, x6_r6, mreg_m5, inMask_m5, coded_some, varLat_zero, RMode.ofCode_code, LdWidth.ofCode_code, StWidth.ofCode_code, Scope.ofCode_code, VCmpOp.ofCode_code, VFCmpOp.ofCode_code, RedOp.ofCode_code, off14_split, off19_split, decShift, decVmax, decVcmp, decVfcmp, decVm0, decVm1, decVmSc, beq_self_eq_true, Bool.and_self, ↓reduceIte, BitVec.toNat_ofNat, Nat.reducePow, Nat.reduceMod, Bool.and_true, Bool.not_false, hR_funct6, hR_r2, hR_r1]

theorem twaitany (d : XReg) (a : XReg) : Statement (.twaitany d a) := by
  intro c hc hw _
  obtain rfl := Option.some.inj (show some (.w32 (joinWord (hR 1 0 (r5 a)) (r5 d) 0x67 0)) = some c from hc)
  simp only [decodeCode, decodeWord, splitWord_joinWord, maj_67]
  simp only [decTag, BitVec.ofNat_eq_ofNat, Fields.d, Fields.stall, Fields.m, Fields.mlo, zeroed, accept, x5_r5, x3_r3, x4_r4, x6_r6, mreg_m5, inMask_m5, coded_some, varLat_zero, RMode.ofCode_code, LdWidth.ofCode_code, StWidth.ofCode_code, Scope.ofCode_code, VCmpOp.ofCode_code, VFCmpOp.ofCode_code, RedOp.ofCode_code, off14_split, off19_split, decShift, decVmax, decVcmp, decVfcmp, decVm0, decVm1, decVmSc, beq_self_eq_true, Bool.and_self, ↓reduceIte, BitVec.toNat_ofNat, Nat.reducePow, Nat.reduceMod, Bool.and_true, Bool.not_false, hR_funct6, hR_r2, hR_r1]

theorem tfirst (d : XReg) (a : XReg) : Statement (.tfirst d a) := by
  intro c hc hw _
  obtain rfl := Option.some.inj (show some (.w32 (joinWord (hR 2 0 (r5 a)) (r5 d) 0x67 0)) = some c from hc)
  simp only [decodeCode, decodeWord, splitWord_joinWord, maj_67]
  simp only [decTag, BitVec.ofNat_eq_ofNat, Fields.d, Fields.stall, Fields.m, Fields.mlo, zeroed, accept, x5_r5, x3_r3, x4_r4, x6_r6, mreg_m5, inMask_m5, coded_some, varLat_zero, RMode.ofCode_code, LdWidth.ofCode_code, StWidth.ofCode_code, Scope.ofCode_code, VCmpOp.ofCode_code, VFCmpOp.ofCode_code, RedOp.ofCode_code, off14_split, off19_split, decShift, decVmax, decVcmp, decVfcmp, decVm0, decVm1, decVmSc, beq_self_eq_true, Bool.and_self, ↓reduceIte, BitVec.toNat_ofNat, Nat.reducePow, Nat.reduceMod, Bool.and_true, Bool.not_false, hR_funct6, hR_r2, hR_r1]

theorem coll (d : XReg) (a : XReg) : Statement (.coll d a) := by
  intro c hc hw _
  obtain rfl := Option.some.inj (show some (.w32 (joinWord (hR 0 0 (r5 a)) (r5 d) 0x68 0)) = some c from hc)
  simp only [decodeCode, decodeWord, splitWord_joinWord, maj_68]
  simp only [BitVec.ofNat_eq_ofNat, Fields.d, Fields.stall, Fields.m, Fields.mlo, zeroed, accept, x5_r5, x3_r3, x4_r4, x6_r6, mreg_m5, inMask_m5, coded_some, varLat_zero, RMode.ofCode_code, LdWidth.ofCode_code, StWidth.ofCode_code, Scope.ofCode_code, VCmpOp.ofCode_code, VFCmpOp.ofCode_code, RedOp.ofCode_code, off14_split, off19_split, decShift, decVmax, decVcmp, decVfcmp, decVm0, decVm1, decVmSc, beq_self_eq_true, Bool.and_self, ↓reduceIte, BitVec.toNat_ofNat, Nat.reducePow, Nat.reduceMod, Bool.and_true, Bool.not_false, hR_funct6, hR_r2, hR_r1]

theorem gath (l : Fin 2) (a : XReg) (b : XReg) : Statement (.gath l a b) := by
  intro c hc hw _
  obtain rfl := Option.some.inj (show some (.w32 (joinWord (hR (0#5 ++ r1 l) (r5 b) (r5 a)) 0 0x69 0)) = some c from hc)
  simp only [decodeCode, decodeWord, splitWord_joinWord, maj_69]
  simp only [decGath, hR_at10_6, gath_l, Fields.top5, gath_hi]
  simp [varLat, zeroed, accept, Fields.d]

theorem mmaGr (l : Fin 2) (q : Fin 8) (h : Fin 32) (slot : Fin 4) (cb : Fin 8) (z : Bool) (sat : Bool) (cg : Bool) (cr : Bool) (iv : Bool) : Statement (.mmaGr l q h slot cb z sat cg cr iv) := by
  intro c hc hw _
  obtain rfl := Option.some.inj (show some (.w32 (joinWord (hMX 0 (r3 cb) sat z iv cr cg (r2 slot) (r1 l)) (r5 h) 0x6A (r3 q))) = some c from hc)
  simp only [decodeCode, decodeWord, splitWord_joinWord, maj_6A]
  simp only [decMma, hMX_top5, hMX_fbit3, hMX_fbit4, hMX_fbit5, hMX_fbit6, hMX_fbit7, hMX_at0_1, hMX_at1_2, hMX_at8_3]
  simp only [Instr.wf] at hw
  simp [accept, mmaOk, Fields.d]
  revert hw
  cases iv <;> cases cg <;> cases cr <;> simp

theorem mmaRg (l : Fin 2) (q : Fin 8) (h : Fin 32) (slot : Fin 4) (cb : Fin 8) (z : Bool) (sat : Bool) (cg : Bool) (cr : Bool) (iv : Bool) : Statement (.mmaRg l q h slot cb z sat cg cr iv) := by
  intro c hc hw _
  obtain rfl := Option.some.inj (show some (.w32 (joinWord (hMX 0 (r3 cb) sat z iv cr cg (r2 slot) (r1 l)) (r5 h) 0x6B (r3 q))) = some c from hc)
  simp only [decodeCode, decodeWord, splitWord_joinWord, maj_6B]
  simp only [decMma, hMX_top5, hMX_fbit3, hMX_fbit4, hMX_fbit5, hMX_fbit6, hMX_fbit7, hMX_at0_1, hMX_at1_2, hMX_at8_3]
  simp only [Instr.wf] at hw
  simp [accept, mmaOk, Fields.d]
  revert hw
  cases iv <;> cases cg <;> cases cr <;> simp

theorem mmag (a : XReg) (q : Fin 8) (h : Fin 32) (slot : Fin 4) (cb : Fin 8) (z : Bool) (sat : Bool) (cg : Bool) (cr : Bool) (iv : Bool) : Statement (.mmag a q h slot cb z sat cg cr iv) := by
  intro c hc hw _
  obtain rfl := Option.some.inj (show some (.w32 (joinWord (hMX (r5 a) (r3 cb) sat z iv cr cg (r2 slot) 0) (r5 h) 0x6C (r3 q))) = some c from hc)
  simp only [decodeCode, decodeWord, splitWord_joinWord, maj_6C]
  simp only [decMmag, hMX_latch0, hMX_top5, hMX_fbit3, hMX_fbit4, hMX_fbit5, hMX_fbit6, hMX_fbit7, hMX_at1_2, hMX_at8_3]
  simp only [Instr.wf] at hw
  simp [accept, mmaOk, Fields.d]
  revert hw
  cases iv <;> cases cg <;> cases cr <;> simp

theorem mzero (q : Fin 8) : Statement (.mzero q) := by
  intro c hc hw _
  obtain rfl := Option.some.inj (show some (.w32 (joinWord (hR 0 0 0) 0 0x6D (r3 q))) = some c from hc)
  simp only [decodeCode, decodeWord, splitWord_joinWord, maj_6D]
  simp only [decMatCtl, BitVec.ofNat_eq_ofNat, Fields.d, Fields.stall, Fields.m, Fields.mlo, zeroed, accept, x5_r5, x3_r3, x4_r4, x6_r6, mreg_m5, inMask_m5, coded_some, varLat_zero, RMode.ofCode_code, LdWidth.ofCode_code, StWidth.ofCode_code, Scope.ofCode_code, VCmpOp.ofCode_code, VFCmpOp.ofCode_code, RedOp.ofCode_code, off14_split, off19_split, decShift, decVmax, decVcmp, decVfcmp, decVm0, decVm1, decVmSc, beq_self_eq_true, Bool.and_self, ↓reduceIte, BitVec.toNat_ofNat, Nat.reducePow, Nat.reduceMod, Bool.and_true, Bool.not_false, hR_funct6, hR_r2, hR_r1]

theorem mwait (n : Fin 8) : Statement (.mwait n) := by
  intro c hc hw _
  obtain rfl := Option.some.inj (show some (.w32 (joinWord (hR 1 (0#2 ++ r3 n) 0) 0 0x6D 0)) = some c from hc)
  simp only [decodeCode, decodeWord, splitWord_joinWord, maj_6D]
  simp only [decMatCtl, hR_funct6, hR_r2, hR_r1]
  simp [varLat, zeroed, accept, -BitVec.toNat_append, count_lt, count_low]

theorem pload (slot : Fin 4) (a : XReg) : Statement (.pload slot a) := by
  intro c hc hw _
  obtain rfl := Option.some.inj (show some (.w32 (joinWord (hR 2 0 (r5 a)) (0#3 ++ r2 slot) 0x6D 0)) = some c from hc)
  simp only [decodeCode, decodeWord, splitWord_joinWord, maj_6D]
  simp only [decMatCtl, hR_funct6, hR_r2, hR_r1]
  simp [varLat, zeroed, accept, -BitVec.toNat_append, slot_lt, slot_low]

theorem matrixStart (cl : Fin 64) : Statement (.matrixStart cl) := by
  intro c hc
  exact nomatch (show none = some c from hc)

theorem handoffFlagEmptied (cl : Fin 64) : Statement (.handoffFlagEmptied cl) := by
  intro c hc
  exact nomatch (show none = some c from hc)

theorem mmagGroupComplete (cl : Fin 64) : Statement (.mmagGroupComplete cl) := by
  intro c hc
  exact nomatch (show none = some c from hc)

theorem matrixComplete (cl : Fin 64) : Statement (.matrixComplete cl) := by
  intro c hc
  exact nomatch (show none = some c from hc)

theorem tdrain (d : VReg) (q : Fin 8) (code : BitVec 5) (a : XReg) (slot : Fin 4) (t : Bool) (c : Bool) (iv : Bool) : Statement (.tdrain d q code a slot t c iv) := by
  intro k hc hw _
  obtain rfl := Option.some.inj (show some (Code.w32 (joinWord (hTD (r5 a) (r2 slot) iv c t code) (r5 d) 0x6E (r3 q))) = some k from hc)
  simp only [decodeCode, decodeWord, splitWord_joinWord, maj_6E]
  simp only [decTdrain, hTD_fbit10, hTD_r1, hTD_fbit6, hTD_fbit7, hTD_fbit5, hTD_at8_2, hTD_top5]
  simp only [Instr.wf, Bool.and_eq_true, decide_eq_true_eq] at hw
  rw [if_neg (by simp), if_neg (by omega)]
  have h2 : (c || (r2 slot == 0 && !iv)) = true := by
    cases hc' : c
    · have h3 := hw.2
      rw [hc'] at h3
      simp at h3
      obtain ⟨rfl, rfl⟩ := h3
      rfl
    · rfl
  simp only [accept, h2, if_true, x3_r3, x5_r5, x2_r2, Fields.d]

theorem tfill (q : Fin 8) (b : VReg) (a : XReg) : Statement (.tfill q b a) := by
  intro c hc hw _
  obtain rfl := Option.some.inj (show some (.w32 (joinWord (hTD (r5 a) 0 false false false 16) (r5 b) 0x6F (r3 q))) = some c from hc)
  simp only [decodeCode, decodeWord, splitWord_joinWord, maj_6F]
  simp only [decTfill, hTD_low, hTD_top5]
  simp [accept, Fields.d, hTD_low]

theorem gload (slot : Fin 4) (a : XReg) : Statement (.gload slot a) := by
  intro c hc hw _
  obtain rfl := Option.some.inj (show some (.w32 (joinWord (hR 0 0 (r5 a)) (0#3 ++ r2 slot) 0x70 0)) = some c from hc)
  simp only [decodeCode, decodeWord, splitWord_joinWord, maj_70]
  simp only [decGtable, hR_funct6, hR_r2, hR_r1]
  simp [varLat, zeroed, accept, -BitVec.toNat_append, slot_lt, slot_low]

theorem gset (slot : Fin 4) (a : XReg) (b : XReg) : Statement (.gset slot a b) := by
  intro c hc hw _
  obtain rfl := Option.some.inj (show some (.w32 (joinWord (hR 1 (r5 b) (r5 a)) (0#3 ++ r2 slot) 0x70 0)) = some c from hc)
  simp only [decodeCode, decodeWord, splitWord_joinWord, maj_70]
  simp only [decGtable, hR_funct6, hR_r2, hR_r1]
  simp [varLat, zeroed, accept, -BitVec.toNat_append, slot_lt, slot_low]

theorem gstateR (d : VReg) : Statement (.gstateR d) := by
  intro c hc hw _
  obtain rfl := Option.some.inj (show some (.w32 (joinWord (hR 2 0 0) (r5 d) 0x70 0)) = some c from hc)
  simp only [decodeCode, decodeWord, splitWord_joinWord, maj_70]
  simp only [decGtable, BitVec.ofNat_eq_ofNat, Fields.d, Fields.stall, Fields.m, Fields.mlo, zeroed, accept, x5_r5, x3_r3, x4_r4, x6_r6, mreg_m5, inMask_m5, coded_some, varLat_zero, RMode.ofCode_code, LdWidth.ofCode_code, StWidth.ofCode_code, Scope.ofCode_code, VCmpOp.ofCode_code, VFCmpOp.ofCode_code, RedOp.ofCode_code, off14_split, off19_split, decShift, decVmax, decVcmp, decVfcmp, decVm0, decVm1, decVmSc, beq_self_eq_true, Bool.and_self, ↓reduceIte, BitVec.toNat_ofNat, Nat.reducePow, Nat.reduceMod, Bool.and_true, Bool.not_false, hR_funct6, hR_r2, hR_r1]

theorem gstateW (b : VReg) : Statement (.gstateW b) := by
  intro c hc hw _
  obtain rfl := Option.some.inj (show some (.w32 (joinWord (hR 3 0 (r5 b)) 0 0x70 0)) = some c from hc)
  simp only [decodeCode, decodeWord, splitWord_joinWord, maj_70]
  simp only [decGtable, BitVec.ofNat_eq_ofNat, Fields.d, Fields.stall, Fields.m, Fields.mlo, zeroed, accept, x5_r5, x3_r3, x4_r4, x6_r6, mreg_m5, inMask_m5, coded_some, varLat_zero, RMode.ofCode_code, LdWidth.ofCode_code, StWidth.ofCode_code, Scope.ofCode_code, VCmpOp.ofCode_code, VFCmpOp.ofCode_code, RedOp.ofCode_code, off14_split, off19_split, decShift, decVmax, decVcmp, decVfcmp, decVm0, decVm1, decVmSc, beq_self_eq_true, Bool.and_self, ↓reduceIte, BitVec.toNat_ofNat, Nat.reducePow, Nat.reduceMod, Bool.and_true, Bool.not_false, hR_funct6, hR_r2, hR_r1]

theorem grun (d : VReg) (a : VReg) (b : VReg) (slot : Fin 4) (m : MReg) : Statement (.grun d a b slot m) := by
  intro c hc hw _
  obtain rfl := Option.some.inj (show some (.w32 (joinWord (hV (0#1 ++ r2 slot) (r3 m) (r5 b) (r5 a)) (r5 d) 0x71 0)) = some c from hc)
  simp only [decodeCode, decodeWord, splitWord_joinWord, maj_71]
  simp only [decGrun, hV_r2, hV_r1, hV_mid3, grun_slot, Fields.m]
  rw [show (0#1) = BitVec.ofBool false from rfl, grun_bit]
  simp [varLat, Fields.d]

theorem grun1 (d : VReg) (a : VReg) (slot : Fin 4) (m : MReg) : Statement (.grun1 d a slot m) := by
  intro c hc hw _
  obtain rfl := Option.some.inj (show some (.w32 (joinWord (hV (1#1 ++ r2 slot) (r3 m) 0 (r5 a)) (r5 d) 0x71 0)) = some c from hc)
  simp only [decodeCode, decodeWord, splitWord_joinWord, maj_71]
  simp only [decGrun, hV_r2, hV_r1, hV_mid3, grun_slot, Fields.m]
  rw [show (1#1) = BitVec.ofBool true from rfl, grun_bit]
  simp [varLat, Fields.d, zeroed, accept]

theorem gcmp (d : MReg) (slot : Fin 4) (v : BitVec 3) (m : MReg) : Statement (.gcmp d slot v m) := by
  intro c hc hw _
  obtain rfl := Option.some.inj (show some (.w32 (joinWord (hV (0#1 ++ r2 slot) (r3 m) 0 (0#2 ++ v)) (m5 d) 0x72 0)) = some c from hc)
  simp only [decodeCode, decodeWord, splitWord_joinWord, maj_72]
  simp only [decGmisc, hV_r2, hV_r1, hV_mid3, grun_slot, Fields.m, verdict_low]
  rw [show (0#1) = BitVec.ofBool false from rfl, grun_bit]
  simp [varLat, inMask, -BitVec.toNat_append, verdict_lt]

theorem gfin (d : VReg) (slot : Fin 4) (m : MReg) : Statement (.gfin d slot m) := by
  intro c hc hw _
  obtain rfl := Option.some.inj (show some (.w32 (joinWord (hV (1#1 ++ r2 slot) (r3 m) 0 0) (r5 d) 0x72 0)) = some c from hc)
  simp only [decodeCode, decodeWord, splitWord_joinWord, maj_72]
  simp only [decGmisc, hV_r2, hV_r1, hV_mid3, grun_slot, Fields.m]
  rw [show (1#1) = BitVec.ofBool true from rfl, grun_bit]
  simp [varLat, Fields.d, zeroed, accept]

theorem unimpl (w : BitVec 32) : Statement (.unimpl w) := by
  intro c hc hw _
  obtain rfl := Option.some.inj (show some (Code.w32 w) = some c from hc)
  simp only [Instr.wf, Bool.and_eq_true, decide_eq_true_eq] at hw
  have h : ((splitWord w).maj.extractLsb' 3 4).toNat = 15 := by
    have : (splitWord w).maj.extractLsb' 3 4 = w.extractLsb' 7 4 := by
      simp only [splitWord]
      ext i hi
      simp only [BitVec.getElem_extractLsb', BitVec.getLsbD_extractLsb']
      simp only [show (3 + i < 7) by omega, decide_true, Bool.true_and]
      congr 1; omega
    rw [this, hw.2]; rfl
  simp only [decodeCode, decodeWord, decodeFields, h]

theorem cAdd (b : XReg) : Statement (.cAdd b) := by
  intro c hc hw _
  obtain rfl := Option.some.inj (show some (.w16 (joinHalf 0 (r5 b) 1)) = some c from hc)
  simp [decodeCode, decodeHalf, decodeHalf_joinHalf]

theorem cSub (b : XReg) : Statement (.cSub b) := by
  intro c hc hw _
  obtain rfl := Option.some.inj (show some (.w16 (joinHalf 0 (r5 b) 2)) = some c from hc)
  simp [decodeCode, decodeHalf, decodeHalf_joinHalf]

theorem cAnd (b : XReg) : Statement (.cAnd b) := by
  intro c hc hw _
  obtain rfl := Option.some.inj (show some (.w16 (joinHalf 0 (r5 b) 3)) = some c from hc)
  simp [decodeCode, decodeHalf, decodeHalf_joinHalf]

theorem cOr (b : XReg) : Statement (.cOr b) := by
  intro c hc hw _
  obtain rfl := Option.some.inj (show some (.w16 (joinHalf 0 (r5 b) 4)) = some c from hc)
  simp [decodeCode, decodeHalf, decodeHalf_joinHalf]

theorem cXor (b : XReg) : Statement (.cXor b) := by
  intro c hc hw _
  obtain rfl := Option.some.inj (show some (.w16 (joinHalf 0 (r5 b) 5)) = some c from hc)
  simp [decodeCode, decodeHalf, decodeHalf_joinHalf]

theorem cAddi (imm : BitVec 10) : Statement (.cAddi imm) := by
  intro c hc hw _
  obtain rfl := Option.some.inj (show some (.w16 (joinHalf (imm.extractLsb' 5 5) (imm.extractLsb' 0 5) 6)) = some c from hc)
  simp only [decodeCode, decodeHalf, decodeHalf_joinHalf, imm10_split, shift_split, shift_top]
  simp [zeroed, accept]

theorem cShli (sh : BitVec 6) : Statement (.cShli sh) := by
  intro c hc hw _
  obtain rfl := Option.some.inj (show some (.w16 (joinHalf (0#4 ++ sh.extractLsb' 5 1) (sh.extractLsb' 0 5) 7)) = some c from hc)
  simp only [decodeCode, decodeHalf, decodeHalf_joinHalf, imm10_split, shift_split, shift_top]
  simp [zeroed, accept]

theorem cShri (sh : BitVec 6) : Statement (.cShri sh) := by
  intro c hc hw _
  obtain rfl := Option.some.inj (show some (.w16 (joinHalf (0#4 ++ sh.extractLsb' 5 1) (sh.extractLsb' 0 5) 8)) = some c from hc)
  simp only [decodeCode, decodeHalf, decodeHalf_joinHalf, imm10_split, shift_split, shift_top]
  simp [zeroed, accept]

theorem cMov (b : XReg) : Statement (.cMov b) := by
  intro c hc hw _
  obtain rfl := Option.some.inj (show some (.w16 (joinHalf 0 (r5 b) 9)) = some c from hc)
  simp [decodeCode, decodeHalf, decodeHalf_joinHalf]

theorem cLi (imm : BitVec 10) : Statement (.cLi imm) := by
  intro c hc hw _
  obtain rfl := Option.some.inj (show some (.w16 (joinHalf (imm.extractLsb' 5 5) (imm.extractLsb' 0 5) 10)) = some c from hc)
  simp only [decodeCode, decodeHalf, decodeHalf_joinHalf, imm10_split, shift_split, shift_top]
  simp [zeroed, accept]

theorem cBnez (imm : BitVec 10) : Statement (.cBnez imm) := by
  intro c hc hw _
  obtain rfl := Option.some.inj (show some (.w16 (joinHalf (imm.extractLsb' 5 5) (imm.extractLsb' 0 5) 11)) = some c from hc)
  simp only [decodeCode, decodeHalf, decodeHalf_joinHalf, imm10_split, shift_split, shift_top]
  simp [zeroed, accept]

theorem cBeqz (imm : BitVec 10) : Statement (.cBeqz imm) := by
  intro c hc hw _
  obtain rfl := Option.some.inj (show some (.w16 (joinHalf (imm.extractLsb' 5 5) (imm.extractLsb' 0 5) 12)) = some c from hc)
  simp only [decodeCode, decodeHalf, decodeHalf_joinHalf, imm10_split, shift_split, shift_top]
  simp [zeroed, accept]

theorem cNop : Statement .cNop := by
  intro c hc hw _
  obtain rfl := Option.some.inj (show some (.w16 (joinHalf 0 0 13)) = some c from hc)
  simp [decodeCode, decodeHalf, decodeHalf_joinHalf]

theorem cvAdd (b : VReg) : Statement (.cvAdd b) := by
  intro c hc hw _
  obtain rfl := Option.some.inj (show some (.w16 (joinHalf 0 (r5 b) 14)) = some c from hc)
  simp [decodeCode, decodeHalf, decodeHalf_joinHalf]

theorem cvFadd (b : VReg) : Statement (.cvFadd b) := by
  intro c hc hw _
  obtain rfl := Option.some.inj (show some (.w16 (joinHalf 0 (r5 b) 15)) = some c from hc)
  simp [decodeCode, decodeHalf, decodeHalf_joinHalf]

theorem cvFmul (b : VReg) : Statement (.cvFmul b) := by
  intro c hc hw _
  obtain rfl := Option.some.inj (show some (.w16 (joinHalf 0 (r5 b) 16)) = some c from hc)
  simp [decodeCode, decodeHalf, decodeHalf_joinHalf]

theorem cvFmacc (a : VReg) (b : VReg) : Statement (.cvFmacc a b) := by
  intro c hc hw _
  obtain rfl := Option.some.inj (show some (.w16 (joinHalf (r5 b) (r5 a) 17)) = some c from hc)
  simp [decodeCode, decodeHalf, decodeHalf_joinHalf]

theorem cvMv (b : VReg) : Statement (.cvMv b) := by
  intro c hc hw _
  obtain rfl := Option.some.inj (show some (.w16 (joinHalf 0 (r5 b) 18)) = some c from hc)
  simp [decodeCode, decodeHalf, decodeHalf_joinHalf]

theorem pagePresent (n : Nat) : Statement (.pagePresent n) := by
  intro c hc
  exact nomatch (show none = some c from hc)

theorem pageFail (n : Nat) : Statement (.pageFail n) := by
  intro c hc
  exact nomatch (show none = some c from hc)

theorem vectorQueueIssue (cl : Fin 64) (res : SharedRes) (req : BitVec 4) : Statement (.vectorQueueIssue cl res req) := by
  intro c hc
  exact nomatch (show none = some c from hc)

theorem mmioRegisterWrite (fn : Fin 256) (off : BitVec 20) (v : Word) (wide : Bool) : Statement (.mmioRegisterWrite fn off v wide) := by
  intro c hc
  exact nomatch (show none = some c from hc)

theorem qtailWrite (fn : Fin 256) (q : Fin 8192) (v : BitVec 32) : Statement (.qtailWrite fn q v) := by
  intro c hc
  exact nomatch (show none = some c from hc)

theorem qctlWrite (fn : Fin 256) (q : Fin 8192) (v : BitVec 32) : Statement (.qctlWrite fn q v) := by
  intro c hc
  exact nomatch (show none = some c from hc)

theorem qstatClear (fn : Fin 256) (q : Fin 8192) : Statement (.qstatClear fn q) := by
  intro c hc
  exact nomatch (show none = some c from hc)

theorem asshootWrite (fn : Fin 256) (sp : Fin 256) (v : Word) : Statement (.asshootWrite fn sp v) := by
  intro c hc
  exact nomatch (show none = some c from hc)

theorem shootDownDone (fn : Fin 256) (sp : Fin 256) : Statement (.shootDownDone fn sp) := by
  intro c hc
  exact nomatch (show none = some c from hc)

theorem pageWalkFill (cl : Fin 64) (fn : Fin 256) (sp : Fin 256) (va : Word) (gen : BitVec 32) : Statement (.pageWalkFill cl fn sp va gen) := by
  intro c hc
  exact nomatch (show none = some c from hc)

theorem queueEntryRead (q : Fin 8192) : Statement (.queueEntryRead q) := by
  intro c hc
  exact nomatch (show none = some c from hc)

theorem launchAdmission (n : Nat) : Statement (.launchAdmission n) := by
  intro c hc
  exact nomatch (show none = some c from hc)

theorem launchAccept (n : Nat) : Statement (.launchAccept n) := by
  intro c hc
  exact nomatch (show none = some c from hc)

theorem waitOnValueCheck (n : Nat) : Statement (.waitOnValueCheck n) := by
  intro c hc
  exact nomatch (show none = some c from hc)

theorem signalEntry (n : Nat) : Statement (.signalEntry n) := by
  intro c hc
  exact nomatch (show none = some c from hc)

theorem queueEntryComplete (n : Nat) : Statement (.queueEntryComplete n) := by
  intro c hc
  exact nomatch (show none = some c from hc)

theorem threadPlacement (n : Nat) : Statement (.threadPlacement n) := by
  intro c hc
  exact nomatch (show none = some c from hc)

theorem coscheduledPlacement (n : Nat) : Statement (.coscheduledPlacement n) := by
  intro c hc
  exact nomatch (show none = some c from hc)

theorem launchCompletion (n : Nat) : Statement (.launchCompletion n) := by
  intro c hc
  exact nomatch (show none = some c from hc)

theorem segmentRelease (n : Nat) (cl : Fin 64) : Statement (.segmentRelease n cl) := by
  intro c hc
  exact nomatch (show none = some c from hc)

theorem periodTurn (die : Fin 8) : Statement (.periodTurn die) := by
  intro c hc
  exact nomatch (show none = some c from hc)

theorem energyCharge (n : Nat) (die : Fin 8) (cls : EngineClass) (amount : EnergyCount) :
    Statement (.energyCharge n die cls amount) := by
  intro c hc
  exact nomatch (show none = some c from hc)

theorem contextSwapOut (n : Nat) (area : BitVec 52) : Statement (.contextSwapOut n area) := by
  intro c hc
  exact nomatch (show none = some c from hc)

theorem contextResume (n : Nat) (slot : Fin 4) : Statement (.contextResume n slot) := by
  intro c hc
  exact nomatch (show none = some c from hc)

theorem bureauContextSwitch (n : Nat) (out : Bool) (area : BitVec 52) : Statement (.bureauContextSwitch n out area) := by
  intro c hc
  exact nomatch (show none = some c from hc)

theorem copyPiece (n : Nat) : Statement (.copyPiece n) := by
  intro c hc
  exact nomatch (show none = some c from hc)

theorem copyComplete (n : Nat) : Statement (.copyComplete n) := by
  intro c hc
  exact nomatch (show none = some c from hc)

theorem collComplete (n : Nat) : Statement (.collComplete n) := by
  intro c hc
  exact nomatch (show none = some c from hc)

theorem storeApply (n : Nat) : Statement (.storeApply n) := by
  intro c hc
  exact nomatch (show none = some c from hc)

theorem storeVisibleOnDie (n : Nat) (die : Fin 8) : Statement (.storeVisibleOnDie n die) := by
  intro c hc
  exact nomatch (show none = some c from hc)

theorem storeAcknowledge (n : Nat) : Statement (.storeAcknowledge n) := by
  intro c hc
  exact nomatch (show none = some c from hc)

theorem globalStoreApply (n : Nat) : Statement (.globalStoreApply n) := by
  intro c hc
  exact nomatch (show none = some c from hc)

theorem ackLossDetection (n : Nat) (applied : Bool) : Statement (.ackLossDetection n applied) := by
  intro c hc
  exact nomatch (show none = some c from hc)

theorem linkFailure (die : Fin 8) (port : Port) : Statement (.linkFailure die port) := by
  intro c hc
  exact nomatch (show none = some c from hc)

theorem uncorrectableError (site : ErrSite) : Statement (.uncorrectableError site) := by
  intro c hc
  exact nomatch (show none = some c from hc)

theorem patrolScrub (die : Fin 8) (line : BitVec 29) : Statement (.patrolScrub die line) := by
  intro c hc
  exact nomatch (show none = some c from hc)

theorem monitorSample (cl : Fin 64) (k : Fin 4) (slot : Fin 4) (v : Word) : Statement (.monitorSample cl k slot v) := by
  intro c hc
  exact nomatch (show none = some c from hc)

theorem mctlWrite (k : Fin 4) (v : Word) : Statement (.mctlWrite k v) := by
  intro c hc
  exact nomatch (show none = some c from hc)

theorem packageReportRequest (fn : Fin 256) (nonce : Word) : Statement (.packageReportRequest fn nonce) := by
  intro c hc
  exact nomatch (show none = some c from hc)

theorem keyLoad (fn : Fin 256) (k : KeyImage) : Statement (.keyLoad fn k) := by
  intro c hc
  exact nomatch (show none = some c from hc)

theorem keyClear (k : BitVec 11) : Statement (.keyClear k) := by
  intro c hc
  exact nomatch (show none = some c from hc)

theorem keyRelease (fn : Fin 256) : Statement (.keyRelease fn) := by
  intro c hc
  exact nomatch (show none = some c from hc)

theorem packageBoot (sigOk : Bool) (good : BitVec 8) : Statement (.packageBoot sigOk good) := by
  intro c hc
  exact nomatch (show none = some c from hc)

theorem dieRelease (die : Fin 8) (good : Bool) : Statement (.dieRelease die good) := by
  intro c hc
  exact nomatch (show none = some c from hc)

theorem firmwareUpdate (sigOk : Bool) (sec : BitVec 32) (minor : BitVec 8) (patch : BitVec 8) : Statement (.firmwareUpdate sigOk sec minor patch) := by
  intro c hc
  exact nomatch (show none = some c from hc)

theorem dieReset (die : Fin 8) : Statement (.dieReset die) := by
  intro c hc
  exact nomatch (show none = some c from hc)

theorem functionLevelReset (fn : Fin 256) : Statement (.functionLevelReset fn) := by
  intro c hc
  exact nomatch (show none = some c from hc)

theorem thermalThrottle (hot : Bool) : Statement (.thermalThrottle hot) := by
  intro c hc
  exact nomatch (show none = some c from hc)

theorem overtempReset (die : Fin 8) : Statement (.overtempReset die) := by
  intro c hc
  exact nomatch (show none = some c from hc)

theorem objectLoad (n : LoadOrder) : Statement (.objectLoad n) := by
  intro c hc
  exact nomatch (show none = some c from hc)

theorem objectLink (n : Nat) : Statement (.objectLink n) := by
  intro c hc
  exact nomatch (show none = some c from hc)

theorem illegalEncoding (w : BitVec 32) : Statement (.illegalEncoding w) := by
  intro c _ _ h
  exact absurd rfl (h w)

theorem storeVisibleToPath (n : Nat) (p : Path) : Statement (.storeVisibleToPath n p) := by
  intro c hc
  exact nomatch (show none = some c from hc)

theorem lineWriteBack (line : BitVec 45) : Statement (.lineWriteBack line) := by
  intro c hc
  exact nomatch (show none = some c from hc)

theorem correctedError (die : Fin 8) (kind : StoreKind) : Statement (.correctedError die kind) := by
  intro c hc
  exact nomatch (show none = some c from hc)

theorem linkRecovery (die : Fin 8) (port : Port) : Statement (.linkRecovery die port) := by
  intro c hc
  exact nomatch (show none = some c from hc)

theorem linkRetransmission (die : Fin 8) (port : Port) : Statement (.linkRetransmission die port) := by
  intro c hc
  exact nomatch (show none = some c from hc)

theorem fabricBringUp (dev : BitVec 20) : Statement (.fabricBringUp dev) := by
  intro c hc
  exact nomatch (show none = some c from hc)

theorem hostWrite (pa : BitVec 48) (data : List Byte) : Statement (.hostWrite pa data) := by
  intro c hc
  exact nomatch (show none = some c from hc)

theorem fjasAssembly (n : Nat) : Statement (.fjasAssembly n) := by
  intro c hc
  exact nomatch (show none = some c from hc)

end Sys2Proof.Laws.EncodeDecode
end

