-- ==== Sys2Proof/Laws/Vectors.lean ====
section
/-! SUPPORT. What the shared frames of vector instructions outside a block do: which elements a write lists, the flags, and
the whole of an element-wise instruction. -/

namespace Sys2Proof.Machine

/-! ### Units and elements -/

theorem VView.per_pos (v : VView) : 0 < v.per := by
  unfold VView.per VView.sew
  split
  · rcases Fmt.sew_good v.fmt with h | h | h | h | h <;> rw [h] <;> decide
  · exact Nat.one_pos

theorem VView.mem_elems (v : VView) (us : List Nat) (e : Nat) : e ∈ v.elems us ↔ e / v.per ∈ us := by
  have hp := v.per_pos
  unfold VView.elems
  split
  · simp only [List.mem_flatMap, List.mem_map, List.mem_range]
    constructor
    · rintro ⟨u, hu, k, hk, rfl⟩
      have : (u * v.per + k) / v.per = u := by
        rw [Nat.mul_comm, Nat.mul_add_div hp, Nat.div_eq_of_lt hk, Nat.add_zero]
      rwa [this]
    · intro h
      refine ⟨_, h, e % v.per, Nat.mod_lt _ hp, ?_⟩
      rw [Nat.mul_comm]; exact Nat.div_add_mod e v.per
  · rename_i h
    have : v.per = 1 := by unfold VView.per; rw [if_neg h]
    rw [this, Nat.div_one]

theorem VView.nodup_elems (v : VView) {us : List Nat} (h : us.Nodup) : (v.elems us).Nodup := by
  unfold VView.elems
  split
  · rw [List.nodup_flatMap]
    refine ⟨fun u _ => ?_, h.imp ?_⟩
    · exact List.Nodup.map (fun a b e => by simpa using e) List.nodup_range
    · intro a b hab x hx hy
      simp only [List.mem_map, List.mem_range] at hx hy
      obtain ⟨k, hk, rfl⟩ := hx
      obtain ⟨j, hj, e⟩ := hy
      have hp := v.per_pos
      have h1 : (a * v.per + k) / v.per = a := by rw [Nat.mul_comm, Nat.mul_add_div hp, Nat.div_eq_of_lt hk, Nat.add_zero]
      have h2 : (b * v.per + j) / v.per = b := by rw [Nat.mul_comm, Nat.mul_add_div hp, Nat.div_eq_of_lt hj, Nat.add_zero]
      rw [e, h1] at h2
      exact hab h2
  · exact h

theorem VView.mem_body (v : VView) (from0 : Bool) (u : Nat) :
    u ∈ v.body none from0 ↔ v.vbeg < v.vl ∧ (from0 = true ∨ v.vbeg ≤ u) ∧ u < v.vl := by
  unfold VView.body VView.live
  by_cases h : v.vbeg < v.vl
  · simp only [h, decide_true, Bool.not_true, Bool.false_eq_true, if_false, List.filter_true, List.mem_map, List.mem_range, true_and]
    cases from0
    · simp only [Bool.false_eq_true, if_false, false_or]
      constructor
      · rintro ⟨k, hk, rfl⟩; omega
      · rintro ⟨h1, h2⟩; exact ⟨u - v.vbeg, by omega, by omega⟩
    · simp only [if_true, true_or, true_and]
      constructor
      · rintro ⟨k, hk, rfl⟩; omega
      · intro h2; exact ⟨u, by omega, by omega⟩
  · simp [h]

theorem VView.nodup_body (v : VView) (grp : Option (BitVec 32768)) (from0 : Bool) : (v.body grp from0).Nodup := by
  unfold VView.body
  split
  · exact List.nodup_nil
  · exact (List.Nodup.map (fun a b e => by simpa using e) List.nodup_range).filter _

theorem VView.mem_active (v : VView) (r : VecRegs) (m : MReg) (from0 : Bool) (u : Nat) :
    u ∈ v.active none r m from0 ↔ (v.vbeg < v.vl ∧ (from0 = true ∨ v.vbeg ≤ u) ∧ u < v.vl) ∧ r.mbit m u = true := by
  unfold VView.active
  rw [List.mem_filter, VView.mem_body]

/-- An element that a write with descriptors sets to zero. -/
theorem VView.mem_zeroed (v : VView) (r : VecRegs) (m : MReg) (from0 : Bool) (hb : v.vlb = v.vl ∨ v.tile = false) (e : Nat) :
    e ∈ v.zeroed none r m from0 true true ↔ v.vbeg < v.vl ∧
      ((v.mp = true ∧ (from0 = true ∨ v.vbeg ≤ e / v.per) ∧ e / v.per < v.vl ∧ r.mbit m (e / v.per) = false) ∨
       (v.vl ≤ e / v.per ∧ e / v.per < v.vlb) ∨ (v.tp = true ∧ v.vlb ≤ e / v.per ∧ e / v.per < v.vlmax)) := by
  have hp := v.per_pos
  unfold VView.zeroed VView.live
  by_cases h : v.vbeg < v.vl
  · simp only [h, decide_true, Bool.not_true, Bool.false_eq_true, if_false, Bool.true_and, if_true, List.mem_append, true_and]
    have h1 : (e ∈ if v.mp = true then v.elems ((v.body none from0).filter (fun u => !r.mbit m u)) else []) ↔
        (v.mp = true ∧ (from0 = true ∨ v.vbeg ≤ e / v.per) ∧ e / v.per < v.vl ∧ r.mbit m (e / v.per) = false) := by
      split
      · rw [VView.mem_elems, List.mem_filter, VView.mem_body]
        simp [*, and_assoc]
      · simp [*]
    have h2 : (e ∈ (List.range (v.vlb - v.vl)).map (fun i => v.vl + i)) ↔ (v.vl ≤ e / v.per ∧ e / v.per < v.vlb) := by
      simp only [List.mem_map, List.mem_range]
      rcases hb with hb | hb
      · constructor
        · rintro ⟨i, hi, _⟩; omega
        · rintro ⟨h3, h4⟩; omega
      · have : v.per = 1 := by unfold VView.per; rw [hb]; rfl
        rw [this, Nat.div_one]
        constructor
        · rintro ⟨i, hi, rfl⟩; omega
        · rintro ⟨h3, h4⟩; exact ⟨e - v.vl, by omega, by omega⟩
    have h3 : (e ∈ if v.tp = true then v.elems ((List.range (v.vlmax - v.vlb)).map (fun i => v.vlb + i)) else []) ↔
        (v.tp = true ∧ v.vlb ≤ e / v.per ∧ e / v.per < v.vlmax) := by
      split
      · rw [VView.mem_elems]
        simp only [List.mem_map, List.mem_range, *, true_and]
        constructor
        · rintro ⟨i, hi, h4⟩; omega
        · rintro ⟨h4, h5⟩; exact ⟨e / v.per - v.vlb, by omega, by omega⟩
      · simp [*]
    rw [h1, h2, h3, or_assoc]
  · simp [h]

theorem VView.nodup_zeroed (v : VView) (r : VecRegs) (m : MReg) (from0 : Bool) (hb : v.vl ≤ v.vlb) (hb' : v.vlb = v.vl ∨ v.tile = false) :
    (v.zeroed none r m from0 true true).Nodup := by
  have hp := v.per_pos
  have rg : ∀ a n : Nat, ((List.range n).map (fun i => a + i)).Nodup :=
    fun a n => List.Nodup.map (fun x y e => by simpa using e) List.nodup_range
  unfold VView.zeroed
  split
  · exact List.nodup_nil
  · dsimp only
    rw [List.nodup_append', List.nodup_append']
    refine ⟨⟨?_, rg _ _, ?_⟩, ?_, ?_⟩
    · split
      · exact v.nodup_elems ((v.nodup_body _ _).filter _)
      · exact List.nodup_nil
    · intro e h1 h2
      split at h1
      · rw [VView.mem_elems, List.mem_filter, VView.mem_body] at h1
        simp only [List.mem_map, List.mem_range, if_true] at h2
        obtain ⟨i, hi, rfl⟩ := h2
        rcases hb' with hb' | hb'
        · omega
        · have : v.per = 1 := by unfold VView.per; rw [hb']; rfl
          rw [this, Nat.div_one] at h1
          omega
      · simp at h1
    · split
      · exact v.nodup_elems (rg _ _)
      · exact List.nodup_nil
    · intro e h1 h2
      split at h2
      · rw [VView.mem_elems] at h2
        simp only [List.mem_map, List.mem_range, if_true] at h2
        obtain ⟨i, hi, h2⟩ := h2
        rw [List.mem_append] at h1
        rcases h1 with h1 | h1
        · split at h1
          · rw [VView.mem_elems, List.mem_filter, VView.mem_body] at h1
            omega
          · simp at h1
        · simp only [List.mem_map, List.mem_range, if_true] at h1
          obtain ⟨j, hj, rfl⟩ := h1
          rcases hb' with hb' | hb'
          · omega
          · have : v.per = 1 := by unfold VView.per; rw [hb']; rfl
            rw [this, Nat.div_one] at h2
            omega
      · simp at h2

/-! ### The cells of a write -/

theorem find_map_key {α : Type} (l : List Nat) (g : Nat → α) (e : Nat) :
    (l.map (fun k => (k, g k))).find? (fun p => p.1 == e) = if e ∈ l then some (e, g e) else none := by
  induction l with
  | nil => rfl
  | cons k l ih =>
    rw [List.map_cons, List.find?_cons]
    by_cases h : k = e
    · subst h; simp
    · have h' : e ≠ k := fun x => h x.symm
      have hk : (k == e) = false := by simpa using h
      simp [hk, h', ih]

/-- The cells of a destination group: a result for each active element, and zeros. -/
def VView.cells (v : VView) (r : VecRegs) (m : MReg) (from0 : Bool) (g : Nat → Nat) : List (Nat × Nat) :=
  (v.elems (v.active none r m from0)).map (fun e => (e, g e)) ++ (v.zeroed none r m from0 true true).map (fun e => (e, 0))

/-- The cells list no element twice. -/
theorem VView.nodup_cells (v : VView) (r : VecRegs) (m : MReg) (from0 : Bool) (g : Nat → Nat) (hb : v.vl ≤ v.vlb)
    (hb' : v.vlb = v.vl ∨ v.tile = false) : ((v.cells r m from0 g).map (fun p => p.1)).Nodup := by
  unfold VView.cells
  rw [List.map_append, List.map_map, List.map_map]
  have e1 : ∀ (l : List Nat) (h : Nat → Nat), l.map ((fun p : Nat × Nat => p.1) ∘ fun e => (e, h e)) = l := fun l h => by
    simp [Function.comp_def]
  have e2 := e1 (v.zeroed none r m from0 true true) (fun _ => 0)
  rw [e1, e2, List.nodup_append']
  refine ⟨v.nodup_elems ((v.nodup_body _ _).filter _), v.nodup_zeroed r m from0 hb hb', fun e h1 h2 => ?_⟩
  rw [VView.mem_elems, VView.mem_active] at h1
  rw [VView.mem_zeroed v r m from0 hb'] at h2
  obtain ⟨⟨h0, h3, h4⟩, h5⟩ := h1
  obtain ⟨_, ⟨_, _, _, h6⟩ | ⟨h6, _⟩ | ⟨_, h6, _⟩⟩ := h2
  · rw [h5] at h6; cases h6
  · omega
  · omega

/-- What the cells give for an element below VLMAX is what its role says. -/
theorem VView.find_cells (v : VView) (r : VecRegs) (m : MReg) (from0 : Bool) (g : Nat → Nat) (hb : v.vl ≤ v.vlb)
    (hb' : v.vlb = v.vl ∨ v.tile = false) (e : Nat) (he : e < v.vlmax * v.per) :
    (v.cells r m from0 g).find? (fun p => p.1 == e) = (v.outcome r m from0 e (some (g e))).map (fun x => (e, x)) := by
  have hu : e / v.per < v.vlmax := (Nat.div_lt_iff_lt_mul v.per_pos).mpr he
  unfold VView.cells VView.outcome
  rw [List.find?_append, find_map_key, find_map_key (g := fun _ => 0)]
  simp only [VView.mem_elems, VView.mem_active, VView.mem_zeroed v r m from0 hb']
  generalize e / v.per = u at *
  by_cases h0 : v.vl ≤ v.vbeg
  · have : ¬v.vbeg < v.vl := by omega
    simp [h0, this]
  have h0' : v.vbeg < v.vl := by omega
  by_cases h1 : from0 = false ∧ u < v.vbeg
  · have a : ¬v.vbeg ≤ u := by omega
    have b : ¬v.vl ≤ u := by omega
    have c : ¬v.vlb ≤ u := by omega
    simp [h0', h1, a, b, c]
  have h1' : from0 = true ∨ v.vbeg ≤ u := by
    cases from0
    · right; have := not_and.mp h1 rfl; omega
    · left; rfl
  have h01 : ¬(v.vl ≤ v.vbeg ∨ (from0 = false ∧ u < v.vbeg)) := fun h => h.elim h0 h1
  rw [if_neg h01]
  by_cases h2 : u < v.vl
  · have b : ¬v.vl ≤ u := by omega
    have c : ¬v.vlb ≤ u := by omega
    cases r.mbit m u <;> cases v.mp <;> simp [h0', h1', h2, b, c]
  · have b : v.vl ≤ u := by omega
    by_cases h3 : u < v.vlb
    · have c : ¬v.vlb ≤ u := by omega
      simp [h0', h2, h3, b, c]
    · have c : v.vlb ≤ u := by omega
      cases v.tp <;> simp [h0', h2, h3, b, c, hu]

/-- Results that agree in their low bits are written alike. -/
theorem VView.outcome_congr (v : VView) (r : VecRegs) (m : MReg) (from0 : Bool) (e w old : Nat) {a b : Nat}
    (h : a % 2 ^ w = b % 2 ^ w) :
    (match (v.outcome r m from0 e (some a)).map (fun x => (e, x)) with | some p => p.2 % 2 ^ w | none => old) =
      match v.outcome r m from0 e (some b) with | some x => x % 2 ^ w | none => old := by
  unfold VView.outcome
  dsimp only
  by_cases h1 : v.vl ≤ v.vbeg ∨ (from0 = false ∧ e / v.per < v.vbeg)
  · rw [if_pos h1, if_pos h1]; rfl
  · rw [if_neg h1, if_neg h1]
    by_cases h2 : e / v.per < v.vl
    · rw [if_pos h2, if_pos h2]
      cases r.mbit m (e / v.per) <;> cases v.mp <;> first | exact h | rfl
    · rw [if_neg h2, if_neg h2]
      by_cases h3 : e / v.per < v.vlb ∨ v.tp = true
      · rw [if_pos h3]; rfl
      · rw [if_neg h3]; rfl

/-- VLB is not below VL, and is VL in tile mode (R214). -/
theorem VView.vlb_le {v : VView} (h : v.vl ≤ v.vlmax) : v.vl ≤ v.vlb := by
  unfold VView.vlb
  split
  · exact Nat.le_refl _
  · rename_i h0
    have hb : 0 < v.bl := Nat.pos_of_ne_zero (fun e => h0 (Or.inl e))
    refine Nat.le_min.mpr ⟨?_, h⟩
    have := Nat.div_add_mod (v.vl + v.bl - 1) v.bl
    have := Nat.mod_lt (v.vl + v.bl - 1) hb
    rw [Nat.mul_comm]; omega

theorem VView.vlb_tile (v : VView) : v.vlb = v.vl ∨ v.tile = false := by
  unfold VView.vlb
  cases h : v.tile
  · exact .inr rfl
  · left; simp

/-! ### Frames -/

theorem BitVec.keep_all {n : Nat} (x : BitVec n) : (x &&& ~~~(0#n)) ||| (0#n &&& 0#n) = x := by
  apply BitVec.eq_of_getLsbD_eq
  intro i hi
  simp [hi]

/-- A write of no shadow bits leaves the shadow. -/
theorem Context.putReg_plain (c : Context) (r : VReg) (mask val : BitVec 16384) (ready : Nat) :
    let t := c.putReg r mask val 0 0 ready
    t = { c with vec := { c.vec with v := t.vec.v }, clock := { c.clock with vp := t.clock.vp }, vpoison := t.vpoison, shpoison := t.shpoison } := by
  have h : c.vec.sh.set r.val ((c.vec.sh[r] &&& ~~~(0#8192)) ||| (0#8192 &&& 0#8192)) r.isLt = c.vec.sh := by
    rw [BitVec.keep_all]; exact Vector.set_getElem_self ..
  show Context.putReg c r mask val 0 0 ready = _
  unfold Context.putReg
  dsimp only
  rw [show (0 : BitVec 8192) = 0#8192 from rfl, h]

/-- Cells change only vector registers, what is pending of them, and their poison. -/
theorem Context.putCells_frame (c : Context) (tile : Bool) (g : Nat) (d : VReg) (n w : Nat) (cells : List (Nat × Nat)) (ready : Nat) :
    let t := c.putCells tile g d n w cells ready
    t = { c with vec := { c.vec with v := t.vec.v }, clock := { c.clock with vp := t.clock.vp }, vpoison := t.vpoison, shpoison := t.shpoison } := by
  unfold Context.putCells
  dsimp only
  induction n with
  | zero => rfl
  | succ n ih =>
    rw [List.range_succ, List.foldl_append, List.foldl_cons, List.foldl_nil]
    generalize List.foldl _ c (List.range n) = c' at *
    split
    · exact ih
    · have h := Context.putReg_plain c' (regAt d n) (BitVec.ofNat 16384 (cellsIn tile g w n cells).1)
        (BitVec.ofNat 16384 (cellsIn tile g w n cells).2) ready
      dsimp only at h
      refine h.trans ?_
      generalize c'.putReg (regAt d n) (BitVec.ofNat 16384 (cellsIn tile g w n cells).1)
        (BitVec.ofNat 16384 (cellsIn tile g w n cells).2) 0 0 ready = t
      rw [ih]

/-- With no descriptors a group is its cells. -/
theorem Context.putGroup_plain (c : Context) (v : VView) (d : VReg) (cells : List (Nat × Nat)) (dsc : Nat → Option (BitVec 32))
    (ready : Nat) (h : v.bl = 0) : c.putGroup v d cells dsc ready = c.putCells v.tile v.g d v.lmul v.sew cells ready := by
  unfold Context.putGroup
  simp [h]

/-- A write of no register bits changes only the shadow of its register. -/
theorem Context.putReg_shadow (c : Context) (r : VReg) (sm sv : BitVec 8192) (ready : Nat) :
    let t := c.putReg r 0 0 sm sv ready
    t = { c with vec := { c.vec with sh := t.vec.sh }, clock := { c.clock with vp := t.clock.vp }, vpoison := t.vpoison, shpoison := t.shpoison } ∧
      ∀ q : VReg, q ≠ r → t.vec.sh[q] = c.vec.sh[q] := by
  have h : c.vec.v.set r.val ((c.vec.v[r] &&& ~~~(0#16384)) ||| (0#16384 &&& 0#16384)) r.isLt = c.vec.v := by
    rw [BitVec.keep_all]; exact Vector.set_getElem_self ..
  constructor
  · show Context.putReg c r 0 0 sm sv ready = _
    unfold Context.putReg
    dsimp only
    rw [show (0 : BitVec 16384) = 0#16384 from rfl, h]
  · intro q hq
    have hv : r.val ≠ q.val := fun e => hq (Fin.ext e.symm)
    show (Context.putReg c r 0 0 sm sv ready).vec.sh[q] = _
    unfold Context.putReg
    simp [hv]

/-- A descriptor changes only the shadow of its register. -/
theorem Context.putDesc_frame (c : Context) (v : VView) (d : VReg) (b : Nat) (w : BitVec 32) (ready : Nat) :
    let t := c.putDesc v d b w ready
    t = { c with vec := { c.vec with sh := t.vec.sh }, clock := { c.clock with vp := t.clock.vp }, vpoison := t.vpoison, shpoison := t.shpoison } ∧
      ∀ q : VReg, q ≠ regAt d (descPlace v.tile v.g v.sew v.bl b).1 → t.vec.sh[q] = c.vec.sh[q] :=
  Context.putReg_shadow ..

/-- A group write leaves the vector registers as its cells alone would, and changes only the shadows of its blocks. -/
theorem Context.putGroup_frame (c : Context) (v : VView) (d : VReg) (cells : List (Nat × Nat)) (dsc : Nat → Option (BitVec 32))
    (ready : Nat) :
    let t := c.putGroup v d cells dsc ready
    t = { c with vec := { c.vec with v := t.vec.v, sh := t.vec.sh }, clock := { c.clock with vp := t.clock.vp },
                 vpoison := t.vpoison, shpoison := t.shpoison } ∧
      t.vec.v = (c.putCells v.tile v.g d v.lmul v.sew cells ready).vec.v ∧
      ∀ q : VReg, (∀ b ∈ blocksOf v.bl cells, v.bl ≠ 0 → q ≠ regAt d (descPlace v.tile v.g v.sew v.bl b).1) →
        t.vec.sh[q] = c.vec.sh[q] := by
  dsimp only
  have h0 := Context.putCells_frame c v.tile v.g d v.lmul v.sew cells ready
  dsimp only at h0
  unfold Context.putGroup
  dsimp only
  generalize c.putCells v.tile v.g d v.lmul v.sew cells ready = c1 at h0 ⊢
  split
  · refine ⟨?_, rfl, fun q _ => ?_⟩
    · rw [h0]
    · rw [h0]
  · rename_i hb
    generalize blocksOf v.bl cells = l
    have go : ∀ (l : List Nat) (c2 : Context),
        let t := l.foldl (fun c b => c.putDesc v d b ((dsc b).getD (c.vec.desc v d b)) ready) c2
        t = { c2 with vec := { c2.vec with sh := t.vec.sh }, clock := { c2.clock with vp := t.clock.vp }, vpoison := t.vpoison, shpoison := t.shpoison } ∧
          ∀ q : VReg, (∀ b ∈ l, q ≠ regAt d (descPlace v.tile v.g v.sew v.bl b).1) → t.vec.sh[q] = c2.vec.sh[q] := by
      intro l
      induction l with
      | nil => intro c2; exact ⟨rfl, fun _ _ => rfl⟩
      | cons b l ih =>
        intro c2
        dsimp only
        rw [List.foldl_cons]
        obtain ⟨a1, a2⟩ := Context.putDesc_frame c2 v d b ((dsc b).getD (c2.vec.desc v d b)) ready
        generalize c2.putDesc v d b ((dsc b).getD (c2.vec.desc v d b)) ready = c3 at a1 a2 ⊢
        obtain ⟨i1, i2⟩ := ih c3
        dsimp only at i1 i2
        generalize List.foldl _ c3 l = t at i1 i2 ⊢
        refine ⟨?_, fun q hq => ?_⟩
        · refine i1.trans ?_
          rw [a1]
        · rw [i2 q (fun b' hb' => hq b' (List.mem_cons_of_mem _ hb')), a2 q (hq b (List.mem_cons_self ..))]
    obtain ⟨g1, g2⟩ := go l c1
    dsimp only at g1 g2
    generalize List.foldl _ c1 l = t at g1 g2 ⊢
    have gv : t.vec.v = c1.vec.v := by rw [g1]
    refine ⟨?_, ?_, fun q hq => ?_⟩
    · rw [gv]
      refine g1.trans ?_
      rw [h0]
    · rw [g1]
    · rw [g2 q (fun b hb' => hq b hb' hb), h0]

/-- Every block listed holds a written element. -/
theorem mem_blocksOf (bl : Nat) (cells : List (Nat × Nat)) (b : Nat) (h : b ∈ blocksOf bl cells) : ∃ p ∈ cells, p.1 / bl = b := by
  unfold blocksOf at h
  rw [List.mem_reverse] at h
  have go : ∀ (l : List (Nat × Nat)) (acc : List Nat), b ∈ l.foldl (fun (acc : List Nat) c => match acc with
      | b :: _ => if b = c.1 / bl then acc else if acc.contains (c.1 / bl) then acc else c.1 / bl :: acc
      | [] => [c.1 / bl]) acc → b ∈ acc ∨ ∃ p ∈ l, p.1 / bl = b := by
    intro l
    induction l with
    | nil => intro acc h; exact .inl h
    | cons c l ih =>
      intro acc h
      rw [List.foldl_cons] at h
      rcases ih _ h with h | ⟨p, hp, e⟩
      · split at h
        · split at h
          · exact .inl h
          · split at h
            · exact .inl h
            · rcases List.mem_cons.mp h with h | h
              · exact .inr ⟨c, List.mem_cons_self .., h.symm⟩
              · exact .inl h
        · rw [List.mem_singleton] at h
          exact .inr ⟨c, List.mem_cons_self .., h.symm⟩
      · exact .inr ⟨p, List.mem_cons_of_mem _ hp, e⟩
  rcases go cells [] h with h | h
  · exact absurd h List.not_mem_nil
  · exact h

/-- Completing outside a block. -/
theorem Context.vdone_none {c : Context} (h : c.group = none) (v : VView) (st len : Nat) :
    c.vdone v st len = { c with
      pc := c.pc + BitVec.ofNat 64 len
      vec := { c.vec with vbeg := 0 }
      clock := (c.issueV v.slots st).clock } := by
  unfold Context.vdone
  rw [h]
  rfl

theorem Context.setLdv_none {c : Context} (h : c.group = none) (d : VReg) : c.setLdv d = { c with vec := { c.vec with ldv := d } } := by
  unfold Context.setLdv
  rw [h]

@[simp] theorem Context.raiseV_rest (c : Context) (b : Bool) (l : List (Nat × FlagSet)) :
    c.raiseV b l = { c with flags := (c.raiseV b l).flags } := rfl

theorem VecRegs.elem_congr {r q : VecRegs} (h : r.v = q.v) (v : VView) (d : VReg) (w e : Nat) : r.elem v d w e = q.elem v d w e := by
  unfold VecRegs.elem; rw [h]

/-! ### Checks -/

theorem stalls_ready {s : State} {v : VView} {xs : List XReg} {vs : List VSrc} {ms : List MReg} (hx : s.ReadyX xs)
    (h : s.ReadyV v vs ms) (k : Out) : stalls v xs vs ms s k = k := by
  unfold stalls State.stalledV
  rw [hx.1]
  cases hs : s.me.sys.sbchk
  · rfl
  · obtain ⟨h3, h4⟩ := h.1 hs
    simp [h3, h4]

theorem cleanV_ready {s : State} {v : VView} {xs : List XReg} {vs : List VSrc} {ms : List MReg} (hx : s.ReadyX xs)
    (h : s.ReadyV v vs ms) (k : Out) : cleanV v xs vs ms s k = k := by
  obtain ⟨-, h2, h3, h4⟩ := h
  have a : s.me.vpoison.any (fun p => vs.any (fun a => a.has p.1)) = false := by
    simp only [List.any_eq_false, Bool.not_eq_true]
    exact h2
  have b : (v.bl != 0 && s.me.shpoison.any (fun p => vs.any (fun a => a.has p.1))) = false := by
    by_cases hb : v.bl = 0
    · simp [hb]
    · simp only [Bool.and_eq_false_iff, List.any_eq_false, Bool.not_eq_true]
      exact .inr (h3 hb)
  have c : s.me.mpoison.any (fun p => ms.contains p.1) = false := by
    simp only [List.any_eq_false, List.contains_iff_mem]
    exact h4
  unfold cleanV State.poisonedV
  rw [hx.2, a, b, c]
  rfl

theorem handing_free {s : State} {dst : Option (VReg × Nat)} (h : ∀ p, dst = some p → s.guarding p.1 p.2 = none) (k : Out) :
    handing dst s k = k := by
  unfold handing notHanded
  cases dst with
  | none => rfl
  | some p => simp only [h p rfl]

/-- The frame of a vector instruction outside a block, once its checks pass. -/
theorem vector_ready {s : State} {v : VView} (h : s.Vec v) (inBlock : Bool) {ok : VView → Bool} (hok : ok v = true) (xs : List XReg)
    (vs : VView → List VSrc) (ms : List MReg) (act : VView → VecRegs → Bool) (dst : VView → Option (VReg × Nat))
    (hr : act v s.me.vregs = true → s.ReadyX xs ∧ s.ReadyV v (vs v) ms ∧ ∀ p, dst v = some p → s.guarding p.1 p.2 = none)
    (k : VView → VecRegs → State → Out) : vector inBlock ok xs vs ms act dst s k = k v s.me.vregs s := by
  obtain ⟨h1, h2, h3, h4⟩ := h
  unfold vector
  rw [threadOnly_thread h1, h2, h3]
  simp only [Option.isSome_none, Bool.false_and, Bool.false_eq_true, if_false, hok, Bool.not_true]
  split
  · obtain ⟨a, b, c⟩ := hr ‹_›
    rw [stalls_ready a b, handing_free c, cleanV_ready a b]
  · rfl

theorem notInBlock_none {s : State} (h : s.me.kind = .thread ∧ s.me.group = none) (k : Out) : notInBlock s k = k := by
  unfold notInBlock
  rw [threadOnly_thread h.1, h.2]
  rfl

/-- What follows the checks matters only at the state checked. -/
theorem vector_congr {inBlock : Bool} {ok : VView → Bool} {xs : List XReg} {vs : VView → List VSrc} {ms : List MReg}
    {act : VView → VecRegs → Bool} {dst : VView → Option (VReg × Nat)} {s : State} {k k' : VView → VecRegs → State → Out}
    (h : ∀ v r, k v r s = k' v r s) : vector inBlock ok xs vs ms act dst s k = vector inBlock ok xs vs ms act dst s k' := by
  unfold vector
  simp only [h]

/-! ### Flags (03 R57, R58) -/

theorem Flags.hits_join (l : List (Nat × FlagSet)) : ∀ (f : Flags), (∀ h ∈ l, h.1 < 2 ^ 32 - 1) →
    (∀ k : Fin 5, ((l.filter (fun h => h.2 != 0)).foldl (Flags.hit false) f).ff.getLsbD k.val =
      (f.ff.getLsbD k.val || l.any (fun h => h.2.getLsbD k.val))) ∧
    ∀ k : Fin 5, ((l.filter (fun h => h.2 != 0)).foldl (Flags.hit false) f).fx[k] =
      if f.fx[k] ≠ 0xFFFFFFFF then f.fx[k] else match l.find? (fun h => h.2.getLsbD k.val) with
        | some h => BitVec.ofNat 32 h.1
        | none => 0xFFFFFFFF := by
  induction l with
  | nil =>
    intro f _
    refine ⟨fun k => by simp, fun k => ?_⟩
    simp only [List.filter_nil, List.foldl_nil, List.find?_nil]
    split
    · rfl
    · rename_i h; simpa using h
  | cons h l ih =>
    intro f hb
    have hl : ∀ h ∈ l, h.1 < 2 ^ 32 - 1 := fun q hq => hb q (List.mem_cons_of_mem _ hq)
    have hh := hb h (List.mem_cons_self ..)
    by_cases hz : h.2 = 0
    · have hzk : ∀ k : Fin 5, h.2.getLsbD k.val = false := by intro k; rw [hz]; simp
      have : (h :: l).filter (fun h => h.2 != 0) = l.filter (fun h => h.2 != 0) := by
        rw [List.filter_cons_of_neg]; simp [hz]
      rw [this]
      obtain ⟨i1, i2⟩ := ih f hl
      refine ⟨fun k => ?_, fun k => ?_⟩
      · rw [i1, List.any_cons, hzk, Bool.false_or]
      · rw [i2, List.find?_cons, hzk]
    · have : (h :: l).filter (fun h => h.2 != 0) = h :: l.filter (fun h => h.2 != 0) := by
        rw [List.filter_cons_of_pos]; simpa using hz
      rw [this, List.foldl_cons]
      obtain ⟨i1, i2⟩ := ih (f.hit false h) hl
      refine ⟨fun k => ?_, fun k => ?_⟩
      · rw [i1, List.any_cons]
        simp [Flags.hit, Bool.or_assoc]
      · rw [i2, List.find?_cons]
        have hne : BitVec.ofNat 32 h.1 ≠ 0xFFFFFFFF := by
          intro e
          have := congrArg BitVec.toNat e
          simp only [BitVec.toNat_ofNat] at this
          rw [Nat.mod_eq_of_lt (by omega), show (0xFFFFFFFF : BitVec 32).toNat = 4294967295 from rfl] at this
          omega
        have hx : (f.hit false h).fx[k] = if (h.2.getLsbD k.val && (f.fx[k] == 0xFFFFFFFF)) = true then BitVec.ofNat 32 h.1 else f.fx[k] := by
          simp [Flags.hit]
        rw [hx]
        cases hk : h.2.getLsbD k.val
        · simp
        · by_cases hf : f.fx[k] = 0xFFFFFFFF
          · have : (f.fx[k] == 0xFFFFFFFF) = true := by rw [hf]; rfl
            rw [this, Bool.and_self, if_pos rfl, if_pos hne, if_neg (not_not.mpr hf)]
          · have : (f.fx[k] == 0xFFFFFFFF) = false := by rw [beq_eq_false_iff_ne]; exact hf
            simp only [this, Bool.and_false, Bool.false_eq_true, if_false]
            rw [if_pos hf, if_pos hf]

/-- The flags of a vector instruction outside a block. -/
theorem State.raiseV_join {s t : State} {c : Context} (hg : c.group = none) (hf : c.flags = s.me.flags) (from0 : Bool)
    (hits : List (Nat × FlagSet)) (hb : ∀ h ∈ hits, h.1 < 2 ^ 32 - 1) (ht : t.me.flags = (c.raiseV from0 hits).flags)
    {at0 : Prop} (h0 : at0 ↔ (from0 || c.vec.vbeg == 0) = true) : s.FlagsJoin t at0 hits := by
  unfold State.FlagsJoin
  rw [ht]
  unfold Context.raiseV
  rw [hg]
  simp only [Option.isSome_none, Bool.not_false, Bool.true_and]
  obtain ⟨j1, j2⟩ := Flags.hits_join hits (c.flags.start? (from0 || c.vec.vbeg == 0)) hb
  refine ⟨fun k => ?_, fun k old h1 h2 => ?_⟩
  · rw [j1, ← hf]
    unfold Flags.start?
    split <;> rfl
  · rw [j2]
    have : (c.flags.start? (from0 || c.vec.vbeg == 0)).fx[k] = old := by
      unfold Flags.start?
      split
      · rename_i h
        rw [h1 (h0.mpr h)]
        simp
      · rename_i h
        rw [h2 (fun x => h (h0.mp x)), hf]
    rw [this]
    all_goals (cases hits.find? (fun h => h.2.getLsbD k.val) <;> rfl)

/-! ### Element-wise instructions (14 R210, R211) -/

/-- The view of a context outside a block in the terms the frames use. -/
theorem Context.view_vbeg {c : Context} {v : VView} (h : c.view = some v) : v.vbeg = c.vec.vbeg.toNat := by
  unfold Context.view viewOf at h
  dsimp only at h
  split at h
  · split at h
    · cases h
    · cases h; rfl
  · cases h

theorem Context.view_g {c : Context} {v : VView} (h : c.view = some v) : v.g ≤ 8 := by
  unfold Context.view viewOf at h
  dsimp only at h
  split at h
  · split at h
    · cases h
    · cases h
      exact (List.length_filter_le _ _).trans (by simp)
  · cases h

theorem Context.view_lmul {c : Context} {v : VView} (h : c.view = some v) : v.lmul ≤ 8 ∧ (v.tile = true → v.lmul = 8) := by
  unfold Context.view viewOf at h
  dsimp only at h
  split at h
  · split at h
    · cases h
    · cases h
      dsimp only
      refine ⟨?_, fun ht => by rw [if_pos ht]⟩
      split
      · exact Nat.le_refl _
      · have : c.vec.vtype.toNat / 32 % 4 < 4 := Nat.mod_lt _ (by decide)
        generalize c.vec.vtype.toNat / 32 % 4 = n at this
        interval_cases n <;> decide
  · cases h

/-- VLMAX in elements fits. -/
theorem Context.view_bound {c : Context} {v : VView} (h : c.view = some v) : v.vlmax * v.per ≤ 32768 := by
  have h1 := Context.view_g h
  have h2 := Context.view_lmul h
  have hw := Fmt.sew_good v.fmt
  unfold VView.vlmax VView.per VView.sew
  split
  · have : 512 / v.fmt.sew ≤ 128 := by rcases hw with h | h | h | h | h <;> rw [h] <;> decide
    nlinarith
  · have : v.lmul * 8 * v.g * 256 ≤ 131072 := by nlinarith [h2.1]
    rcases hw with h | h | h | h | h <;> rw [h] <;> omega

/-- The descriptor of a written block lies in the shadow of the group. -/
theorem VView.desc_group {v : VView} (hg : 0 < v.g) (hb : v.bl = 16 ∨ v.bl = 32) (hl : v.tile = true → v.lmul = 8) {e : Nat}
    (he : e < v.vlmax * v.per) : (descPlace v.tile v.g v.sew v.bl (e / v.bl)).1 < v.lmul := by
  have hw := Fmt.sew_good v.fmt
  have hb0 : v.bl ≠ 0 := by omega
  unfold VView.vlmax VView.per VView.sew at he
  unfold descPlace VView.sew
  rw [if_neg hb0]
  generalize v.fmt.sew = w at *
  generalize v.bl = bl at *
  generalize v.g = g at *
  cases ht : v.tile
  · simp only [ht, Bool.false_eq_true, if_false, Nat.mul_one] at *
    generalize v.lmul = l at *
    have key : ∀ K M : Nat, 8 * g * 256 / w / bl = K * g → 0 < K → l * 8 * g * 256 / w ≤ l * (K * g) * bl →
        e / bl / (8 * g * 256 / w / bl) < l := by
      intro K M h1 h2 h3
      rw [h1, Nat.div_lt_iff_lt_mul (Nat.mul_pos h2 hg), Nat.div_lt_iff_lt_mul (by omega)]
      omega
    have eq : ∀ K : Nat, l * (K * g) = K * (l * g) := fun K => by ring
    have eq2 : l * 8 * g * 256 = 2048 * (l * g) := by ring
    rcases hw with h | h | h | h | h <;> rcases hb with h' | h' <;> subst h <;> subst h'
    · exact key 32 0 (by omega) (by omega) (by rw [eq, eq2]; omega)
    · exact key 16 0 (by omega) (by omega) (by rw [eq, eq2]; omega)
    · exact key 16 0 (by omega) (by omega) (by rw [eq, eq2]; omega)
    · exact key 8 0 (by omega) (by omega) (by rw [eq, eq2]; omega)
    · exact key 8 0 (by omega) (by omega) (by rw [eq, eq2]; omega)
    · exact key 4 0 (by omega) (by omega) (by rw [eq, eq2]; omega)
    · exact key 4 0 (by omega) (by omega) (by rw [eq, eq2]; omega)
    · exact key 2 0 (by omega) (by omega) (by rw [eq, eq2]; omega)
    · exact key 2 0 (by omega) (by omega) (by rw [eq, eq2]; omega)
    · exact key 1 0 (by omega) (by omega) (by rw [eq, eq2]; omega)
  · simp only [ht, if_true] at *
    rw [hl trivial]
    have key : ∀ R : Nat, 512 / w / bl = R → e / bl < 32 * g * R → R ≤ 8 → R ≠ 0 →
        2 * (e / bl / (8 * g * (512 / w / bl))) + e / bl % (8 * g * (512 / w / bl)) / (32 * g) < 8 := by
      intro R h1 h2 h3 h4
      rw [h1]
      have hn : 0 < 8 * g * R := Nat.mul_pos (by omega) (Nat.pos_of_ne_zero h4)
      have a : e / bl / (8 * g * R) < 4 := by
        rw [Nat.div_lt_iff_lt_mul hn]
        have : 4 * (8 * g * R) = 32 * g * R := by ring
        omega
      have b : e / bl % (8 * g * R) / (32 * g) < 2 := by
        rw [Nat.div_lt_iff_lt_mul (by omega)]
        have := Nat.mod_lt (e / bl) hn
        have : 8 * g * R ≤ 2 * (32 * g) := by nlinarith
        omega
      omega
    have key0 : 512 / w / bl = 0 → e / bl < 32 * g →
        2 * (e / bl / (8 * g * (512 / w / bl))) + e / bl % (8 * g * (512 / w / bl)) / (32 * g) < 8 := by
      intro h1 h2
      rw [h1, Nat.mul_zero, Nat.div_zero, Nat.mod_zero, Nat.div_eq_of_lt h2]
      decide
    rcases hw with h | h | h | h | h <;> rcases hb with h' | h' <;> subst h <;> subst h'
    · exact key 8 (by omega) (by omega) (by omega) (by omega)
    · exact key 4 (by omega) (by omega) (by omega) (by omega)
    · exact key 4 (by omega) (by omega) (by omega) (by omega)
    · exact key 2 (by omega) (by omega) (by omega) (by omega)
    · exact key 2 (by omega) (by omega) (by omega) (by omega)
    · exact key 1 (by omega) (by omega) (by omega) (by omega)
    · exact key 1 (by omega) (by omega) (by omega) (by omega)
    · exact key0 (by omega) (by omega)
    · exact key0 (by omega) (by omega)
    · exact key0 (by omega) (by omega)

theorem Context.view_bl {c : Context} {v : VView} (h : c.view = some v) : v.bl = 0 ∨ v.bl = 16 ∨ v.bl = 32 := by
  unfold Context.view viewOf at h
  dsimp only at h
  split at h
  · split at h
    · cases h
    · cases h
      show blOf _ = 0 ∨ _
      unfold blOf
      split <;> simp
  · cases h

/-! ### Writing a group and completing -/

/-- What a write of a group and completing leave, of a context in focus that may have changed before. -/
theorem State.finish_spec {s : State} {c0 : Context} {v : VView} (hview : s.me.view = some v) (hgrp : c0.group = none) (d : VReg)
    (cells : List (Nat × Nat)) (dsc : Nat → Option (BitVec 32)) (ready st len : Nat) (hnd : (cells.map (fun p => p.1)).Nodup)
    (hin : ∀ p ∈ cells, p.1 < v.vlmax * v.per) :
    let t : State := { s with me := ((c0.putGroup v d cells dsc ready).setLdv d).vdone v st len }
    State.VecFrame { s with me := c0 } t d v.lmul len ∧ t.me.flags = c0.flags ∧
      ∀ e, e < v.vlmax * v.per → t.me.vec.elem v d v.sew e = match cells.find? (fun p => p.1 == e) with
        | some p => p.2 % 2 ^ v.sew
        | none => c0.vec.elem v d v.sew e := by
  have hg8 := Context.view_g hview
  obtain ⟨hl8, hlt⟩ := Context.view_lmul hview
  obtain ⟨f1, f2, f3⟩ := Context.putGroup_frame c0 v d cells dsc ready
  have hg1 : (c0.putGroup v d cells dsc ready).group = none := by rw [f1]; exact hgrp
  have hg2 : ((c0.putGroup v d cells dsc ready).setLdv d).group = none := by rw [Context.setLdv_none hg1]; exact hg1
  dsimp only
  rw [Context.vdone_none hg2]
  have hx : (((c0.putGroup v d cells dsc ready).setLdv d).issueV v.slots st).clock.xp = c0.clock.xp := by
    show ((c0.putGroup v d cells dsc ready).setLdv d).clock.xp = _
    rw [Context.setLdv_none hg1, f1]
  generalize (((c0.putGroup v d cells dsc ready).setLdv d).issueV v.slots st).clock = k at hx ⊢
  rw [Context.setLdv_none hg1]
  have hg0 : ∀ e, e < v.vlmax * v.per → 0 < v.g := by
    intro e he
    rcases Nat.eq_zero_or_pos v.g with h | h
    · have : v.vlmax = 0 := by unfold VView.vlmax; rw [h]; split <;> simp
      rw [this, Nat.zero_mul] at he
      exact absurd he (Nat.not_lt_zero _)
    · exact h
  have f3' : ∀ q : VReg, (∀ k, k < v.lmul → regAt d k ≠ q) → (c0.putGroup v d cells dsc ready).vec.sh[q] = c0.vec.sh[q] := by
    intro q hq
    refine f3 q (fun b hb hne => ?_)
    obtain ⟨p, hp, rfl⟩ := mem_blocksOf _ _ _ hb
    have he := hin p hp
    have hb' : v.bl = 16 ∨ v.bl = 32 := (Context.view_bl hview).resolve_left hne
    exact fun e => hq _ (VView.desc_group (hg0 _ he) hb' hlt he) e.symm
  have f4 : ∀ q : VReg, (∀ k, k < v.lmul → regAt d k ≠ q) → (c0.putGroup v d cells dsc ready).vec.v[q] = c0.vec.v[q] := by
    intro q hq
    rw [f2]
    exact Context.putCells_other _ _ _ _ _ _ _ _ (by omega) q hq
  generalize (c0.putGroup v d cells dsc ready) = c1 at *
  refine ⟨⟨rfl, ?_, fun q hq => ⟨f4 q hq, f3' q hq⟩⟩, by rw [f1], fun e he => ?_⟩
  · show Context.mk .. = _
    rw [← hx, f1]
  · show c1.vec.elem v d v.sew e = _
    rw [VecRegs.elem_congr f2]
    exact Context.putCells_elem c0 v d v.lmul v.sew cells ready (hg0 e he) hg8 (Fmt.sew_good _) (by omega) hnd e
      (placeOf_group (hg0 e he) hlt he)

/-- A code read has the width of its element. -/
theorem VecRegs.elem_lt (r : VecRegs) (v : VView) (a : VReg) (w e : Nat) : r.elem v a w e < 2 ^ w :=
  Nat.mod_lt _ (Nat.two_pow_pos w)

theorem VOpnd.at_lt (o : VOpnd) (s : State) (v : VView) (r : VecRegs) (e : Nat) : o.at s v r e < 2 ^ v.sew := by
  cases o with
  | vv b => exact r.elem_lt v b v.sew e
  | vx b => exact Nat.mod_lt _ (Nat.two_pow_pos _)
  | vi i => exact Nat.mod_lt _ (Nat.two_pow_pos _)

/-- What an element-wise instruction of the shared form does. -/
theorem eltwise_spec {s : State} {i : Instr} {fmt : VView → Bool} {o : VOpnd} {acc fl : Bool} {lat st len : Nat}
    {f g : VView → Nat → Nat → Nat → Nat × FlagSet} {d a : VReg} {m : MReg}
    (hi : s.me.kind = .thread ∧ s.me.group = none → exec i s = eltwise fmt o acc fl lat st len f d a m s)
    (hfg : ∀ v x y z, x < 2 ^ v.sew → y < 2 ^ v.sew → z < 2 ^ v.sew → ((f v x y (if acc then z else 0)).1 % 2 ^ v.sew = (g v x y z).1 % 2 ^ v.sew) ∧
      (fl = true → (f v x y (if acc then z else 0)).2 = (g v x y z).2)) :
    s.EltSpec i fmt o acc fl g d a m len := by
  intro v hv hfmt hbl hd ha ho hr r gg
  have hgrp := hv.2.1
  have hview := hv.2.2.1
  have hvl := hv.2.2.2
  have hact : (!(v.active none r m false).isEmpty) = true → v.active none r m false ≠ [] := by
    intro h e; rw [e] at h; cases h
  have hg8 := Context.view_g hview
  have hbound := Context.view_bound hview
  have hvb := Context.view_vbeg hview
  obtain ⟨hl8, hlt⟩ := Context.view_lmul hview
  have hlb := VView.vlb_le hvl
  have hlb' := v.vlb_tile
  have e0 : exec i s = .next (s.modMe (fun c => c.finishElt v r d m (eltResults s v r o a d acc m (f v)) fl lat st len)) := by
    rw [hi ⟨hv.1, hgrp⟩]
    unfold eltwise
    rw [vector_ready hv true (ok := fun v => fmt v && v.bl == 0 && aligned d v.lmul && aligned a v.lmul && o.ok v)
      (by simp [hfmt, hbl, hd, ha, ho]) _ _ _ _ _
      (fun h => by
        rw [hgrp] at h
        obtain ⟨h1, h2, h3⟩ := hr (hact h)
        exact ⟨h1, h2, fun p e => by cases e; exact h3⟩)]
  let G : Nat → Nat × FlagSet := fun e => f v (r.elem v a v.sew e) (o.at s v r e) (if acc then r.elem v d v.sew e else 0)
  have hres : eltResults s v r o a d acc m (f v) = (v.elems (v.active none r m false)).map (fun e => (e, G e)) := by
    unfold eltResults; rw [hgrp]
  have hcells : (eltResults s v r o a d acc m (f v)).map (fun p => (p.1, p.2.1)) ++
      (v.zeroed s.me.group r m false true true).map (fun e => (e, 0)) = v.cells r m false (fun e => (G e).1) := by
    rw [hres, hgrp, List.map_map]; rfl
  let c1 := s.me.putCells v.tile v.g d v.lmul v.sew (v.cells r m false (fun e => (G e).1)) (s.me.readyAt v lat)
  have hc1 : c1 = _ := Context.putCells_frame s.me v.tile v.g d v.lmul v.sew (v.cells r m false (fun e => (G e).1)) (s.me.readyAt v lat)
  let c2 := if fl then c1.raiseV false ((eltResults s v r o a d acc m (f v)).map (fun p => (p.1, p.2.2))) else c1
  have hc2 : c2 = { c1 with flags := c2.flags } := by
    show (if fl then _ else _) = { c1 with flags := (if fl then _ else _ : Context).flags }
    cases fl <;> rfl
  have hg1 : c1.group = none := by rw [hc1]; exact hgrp
  have hg2 : c2.group = none := by rw [hc2]; exact hg1
  have hfin : s.me.finishElt v r d m (eltResults s v r o a d acc m (f v)) fl lat st len = (c2.setLdv d).vdone v st len := by
    unfold Context.finishElt
    dsimp only
    rw [hcells, Context.putGroup_plain _ _ _ _ _ _ hbl]
  have hg3 : (c2.setLdv d).group = none := by rw [Context.setLdv_none hg2]; exact hg2
  have hme : (c2.setLdv d).vdone v st len = { s.me with
      pc := s.me.pc + BitVec.ofNat 64 len
      vec := { s.me.vec with v := c1.vec.v, vbeg := 0, ldv := d }
      flags := c2.flags
      clock := ((c2.setLdv d).issueV v.slots st).clock
      vpoison := c1.vpoison
      shpoison := c1.shpoison } := by
    rw [Context.vdone_none hg3, Context.setLdv_none hg2, hc2]
    generalize c2.flags = fl2
    generalize Context.clock _ = k2
    rw [hc1]
  refine ⟨_, e0, ?_⟩
  have ht : (s.modMe (fun c => c.finishElt v r d m (eltResults s v r o a d acc m (f v)) fl lat st len)).me = _ := hfin.trans hme
  generalize hT : s.modMe (fun c => c.finishElt v r d m (eltResults s v r o a d acc m (f v)) fl lat st len) = t at ht ⊢
  refine ⟨⟨?_, ?_, fun q hq => ?_⟩, ?_, fun e he => ?_, fun hfl => ?_, fun hfl => ?_⟩
  · rw [← hT]; rfl
  · rw [ht]
    have : ((c2.setLdv d).issueV v.slots st).clock.xp = s.me.clock.xp := by
      show (c2.setLdv d).clock.xp = _
      rw [Context.setLdv_none hg2, hc2]
      show c1.clock.xp = _
      rw [hc1]
    rw [← this]
  · rw [ht]
    exact ⟨Context.putCells_other _ _ _ _ _ _ _ _ (by omega) q hq, rfl⟩
  · rw [ht]
  · rw [ht]
    show c1.vec.elem v d v.sew e = _
    by_cases hg0 : v.g = 0
    · have : v.vlmax = 0 := by unfold VView.vlmax; rw [hg0]; split <;> simp
      rw [this, Nat.zero_mul] at he
      exact absurd he (Nat.not_lt_zero _)
    · have hgp := Nat.pos_of_ne_zero hg0
      rw [Context.putCells_elem s.me v d v.lmul v.sew _ _ hgp hg8 (Fmt.sew_good _) (by omega) (v.nodup_cells r m false _ hlb hlb') e
        (placeOf_group hgp hlt he), VView.find_cells v r m false _ hlb hlb' e he]
      exact v.outcome_congr r m false e v.sew _ (hfg v _ _ _ (r.elem_lt v a v.sew e) (o.at_lt s v r e) (r.elem_lt v d v.sew e)).1
  · have hc1f : c1.flags = s.me.flags := by rw [hc1]
    have hhits : (eltResults s v r o a d acc m (f v)).map (fun p => (p.1, p.2.2)) =
        (v.elems (v.active none r m false)).map (fun e => (e, (gg e).2)) := by
      rw [hres, List.map_map]
      refine List.map_congr_left (fun e _ => ?_)
      show (e, (G e).2) = _
      rw [(hfg v _ _ _ (r.elem_lt v a v.sew e) (o.at_lt s v r e) (r.elem_lt v d v.sew e)).2 hfl]
    refine State.raiseV_join (c := c1) (from0 := false) hg1 hc1f _ (fun h hh => ?_) ?_ ?_
    · obtain ⟨e, he, rfl⟩ := List.mem_map.mp hh
      rw [VView.mem_elems, VView.mem_active] at he
      have h5 : e / v.per < v.vlmax := Nat.lt_of_lt_of_le he.1.2.2 hvl
      rw [Nat.div_lt_iff_lt_mul v.per_pos] at h5
      show e < _
      omega
    · rw [ht, ← hhits]
      show c2.flags = _
      have : c2 = c1.raiseV false ((eltResults s v r o a d acc m (f v)).map (fun p => (p.1, p.2.2))) := if_pos hfl
      rw [this]
    · rw [hvb, hc1]
      simp only [Bool.false_or, beq_iff_eq]
      exact ⟨fun h => BitVec.eq_of_toNat_eq (by simpa using h), fun h => by rw [h]; rfl⟩
  · rw [ht]
    have : c2 = c1 := if_neg (by rw [hfl]; decide)
    show c2.flags = _
    rw [this, hc1]

/-! ### Mask destinations (14 R210, R217, R226) -/

theorem one_shift_bit (u e : Nat) (he : e < 32768) : (BitVec.ofNat 32768 1 <<< u).getLsbD e = (u == e) := by
  rw [BitVec.getLsbD_shiftLeft]
  have h1 : (BitVec.ofNat 32768 1).getLsbD (e - u) = decide (e - u = 0) := by
    rw [show BitVec.ofNat 32768 1 = 1#32768 from rfl, BitVec.getLsbD_one]
    simp
  rw [h1]
  simp only [he, decide_true, Bool.true_and]
  by_cases h : u = e
  · subst h; simp
  · have h' : (u == e) = false := beq_eq_false_iff_ne.mpr h
    rw [h']
    by_cases h2 : e < u
    · simp [h2]
    · have h3 : ¬(e - u = 0) := by omega
      simp [h3]

theorem fold_on (l : List Nat) (a : BitVec 32768) (e : Nat) (he : e < 32768) :
    (l.foldl (fun acc u => acc ||| (BitVec.ofNat 32768 1 <<< u)) a).getLsbD e = (a.getLsbD e || l.contains e) := by
  induction l generalizing a with
  | nil => simp
  | cons u l ih =>
    rw [List.foldl_cons, ih, BitVec.getLsbD_or, one_shift_bit u e he, List.contains_cons, Bool.or_assoc, Bool.beq_comm (a := u)]

theorem fold_val (l : List (Nat × Bool)) (a : BitVec 32768) (e : Nat) (he : e < 32768) :
    (l.foldl (fun acc p => if p.2 then acc ||| (BitVec.ofNat 32768 1 <<< p.1) else acc) a).getLsbD e =
      (a.getLsbD e || l.any (fun p => p.2 && p.1 == e)) := by
  induction l generalizing a with
  | nil => simp
  | cons u l ih =>
    rw [List.foldl_cons, ih, List.any_cons]
    cases u.2
    · simp
    · rw [if_pos rfl, BitVec.getLsbD_or, one_shift_bit _ e he, Bool.or_assoc, Bool.true_and]

/-- The bits that a mask destination holds afterwards. -/
theorem VView.maskWrite_bit (v : VView) (r : VecRegs) (m : MReg) (from0 : Bool) (F : Nat → Bool) (old : BitVec 32768) (e : Nat)
    (he : e < 32768) :
    let w := v.maskWrite none r m from0 ((v.active none r m from0).map (fun e => (e, F e)))
    ((old &&& ~~~w.1) ||| (w.2 &&& w.1)).getLsbD e =
      if v.vl ≤ v.vbeg ∨ (from0 = false ∧ e < v.vbeg) then old.getLsbD e
      else if e < v.vl then (if r.mbit m e then F e else if v.mp then false else old.getLsbD e)
      else if v.tp then false else old.getLsbD e := by
  dsimp only
  unfold VView.maskWrite VView.live
  by_cases h0 : v.vl ≤ v.vbeg
  · have : ¬v.vbeg < v.vl := by omega
    rw [if_pos (Or.inl h0)]
    simp only [this, decide_false, Bool.not_false, if_true]
    rw [show (0 : BitVec 32768) = 0#32768 from rfl, BitVec.keep_all]
  have h0' : v.vbeg < v.vl := by omega
  simp only [h0', decide_true, Bool.not_true, Bool.false_eq_true, if_false]
  rw [List.foldl_map, List.foldl_map]
  simp only [BitVec.getLsbD_or, BitVec.getLsbD_and, BitVec.getLsbD_not, he, decide_true, Bool.true_and]
  have e1 : ((v.active none r m from0).foldl (fun acc u => acc ||| (BitVec.ofNat 32768 1 <<< u)) 0#32768).getLsbD e =
      (decide (from0 = true ∨ v.vbeg ≤ e) && decide (e < v.vl) && r.mbit m e) := by
    rw [fold_on _ _ _ he]
    rw [Bool.eq_iff_iff]
    simp only [BitVec.getLsbD_zero, Bool.false_or, List.contains_iff_mem, VView.mem_active, Bool.and_eq_true, decide_eq_true_eq]
    tauto
  have e2 : ((v.active none r m from0).foldl (fun acc u => if F u then acc ||| (BitVec.ofNat 32768 1 <<< u) else acc) 0#32768).getLsbD e =
      (decide (from0 = true ∨ v.vbeg ≤ e) && decide (e < v.vl) && r.mbit m e && F e) := by
    have := fold_val ((v.active none r m from0).map (fun e => (e, F e))) 0#32768 e he
    rw [List.foldl_map] at this
    rw [this, Bool.eq_iff_iff]
    simp only [BitVec.getLsbD_zero, Bool.false_or, List.any_eq_true, List.mem_map, Bool.and_eq_true, beq_iff_eq, decide_eq_true_eq]
    constructor
    · rintro ⟨p, ⟨u, hu, rfl⟩, h1, rfl⟩
      rw [VView.mem_active] at hu
      exact ⟨⟨⟨hu.1.2.1, hu.1.2.2⟩, hu.2⟩, h1⟩
    · rintro ⟨⟨⟨a, b⟩, c⟩, d⟩
      exact ⟨(e, F e), ⟨e, (VView.mem_active ..).mpr ⟨⟨h0', a, b⟩, c⟩, rfl⟩, d, rfl⟩
  have e3 : (if v.mp = true then ((v.body none from0).filter (fun u => !r.mbit m u)).foldl
      (fun acc u => acc ||| (BitVec.ofNat 32768 1 <<< u)) 0#32768 else 0).getLsbD e =
      (v.mp && decide (from0 = true ∨ v.vbeg ≤ e) && decide (e < v.vl) && !r.mbit m e) := by
    cases hmp : v.mp
    · simp
    · rw [if_pos rfl, fold_on _ _ _ he, Bool.eq_iff_iff]
      simp only [BitVec.getLsbD_zero, Bool.false_or, List.contains_iff_mem, List.mem_filter, VView.mem_body, Bool.and_eq_true,
        decide_eq_true_eq, Bool.true_and]
      tauto
  have e4 : (if (v.tp && (none : Option (BitVec 32768)).isNone) = true then BitVec.allOnes 32768 <<< v.vl else 0).getLsbD e =
      (v.tp && decide (v.vl ≤ e)) := by
    cases v.tp
    · simp
    · simp only [Option.isNone_none, Bool.and_self, if_true, BitVec.getLsbD_shiftLeft, BitVec.getLsbD_allOnes, he, decide_true, Bool.true_and]
      by_cases h : e < v.vl
      · have : ¬v.vl ≤ e := by omega
        simp [h, this]
      · have h' : v.vl ≤ e := by omega
        have : e - v.vl < 32768 := by omega
        simp [h, h', this]
  rw [e1, e2, e3, e4]
  by_cases h1 : from0 = false ∧ e < v.vbeg
  · have a : ¬v.vbeg ≤ e := by omega
    have b : ¬v.vl ≤ e := by omega
    simp [h0, h1, a, b]
  have h1' : from0 = true ∨ v.vbeg ≤ e := by
    cases from0
    · right; have := not_and.mp h1 rfl; omega
    · left; rfl
  rw [if_neg (fun h => h.elim h0 h1)]
  by_cases h2 : e < v.vl
  · have c : ¬v.vl ≤ e := by omega
    cases r.mbit m e <;> cases v.mp <;> simp [h1', h2, c]
  · have c : v.vl ≤ e := by omega
    cases v.tp <;> simp [h1', h2, c]

/-- An instruction that writes a mask register, whatever it computes for its active elements. -/
theorem mask_spec {s : State} {i : Instr} {ok : VView → Bool} {xs : List XReg} {vs : VView → List VSrc} {ms : List MReg}
    {from0 fl inBlock : Bool} {f : VView → VecRegs → Nat → Bool × FlagSet} {d m : MReg} {lat st : Nat} {act : VView → VecRegs → Bool}
    (hi : s.me.kind = .thread ∧ s.me.group = none → exec i s = vector inBlock ok xs vs ms act (fun _ => none) s fun v r s =>
      .next (s.modMe (fun c =>
        (if fl then c.raiseV false ((v.active none r m false).map (fun e => (e, (f v r e).2))) else c).finishMask v r d m from0
          ((v.active none r m from0).map (fun e => (e, (f v r e).1))) lat st 4)))
    (ha : ∀ v, s.me.view = some v → act v s.me.vregs = true → v.active none s.me.vregs m from0 ≠ []) :
    s.MaskSpec i ok xs vs ms from0 fl f d m := by
  intro v hv hok hr r
  have hgrp := hv.2.1
  have hview := hv.2.2.1
  have hvl := hv.2.2.2
  have hbound := Context.view_bound hview
  have hvb := Context.view_vbeg hview
  let c1 := if fl then s.me.raiseV false ((v.active none r m false).map (fun e => (e, (f v r e).2))) else s.me
  have hc1 : c1 = { s.me with flags := c1.flags } := by
    simp only [c1]
    cases fl <;> rfl
  have hg1 : c1.group = none := by rw [hc1]; exact hgrp
  have e0 : exec i s = .next { s with me := c1.finishMask v r d m from0 ((v.active none r m from0).map (fun e => (e, (f v r e).1))) lat st 4 } := by
    rw [hi ⟨hv.1, hgrp⟩, vector_ready hv inBlock hok _ _ _ _ _ (fun h => ⟨(hr (ha v hview h)).1, (hr (ha v hview h)).2, fun _ e => by cases e⟩)]
    rfl
  let w := v.maskWrite none r m from0 ((v.active none r m from0).map (fun e => (e, (f v r e).1)))
  have hfm : c1.finishMask v r d m from0 ((v.active none r m from0).map (fun e => (e, (f v r e).1))) lat st 4 =
      (c1.putMask d w.1 w.2 (c1.readyAt v lat)).vdone v st 4 := by
    unfold Context.finishMask
    rw [hg1]
  have hp : c1.putMask d w.1 w.2 (c1.readyAt v lat) = { c1 with
      vec := { c1.vec with m := (c1.putMask d w.1 w.2 (c1.readyAt v lat)).vec.m }
      clock := { c1.clock with mp := (c1.putMask d w.1 w.2 (c1.readyAt v lat)).clock.mp }
      mpoison := (c1.putMask d w.1 w.2 (c1.readyAt v lat)).mpoison } := by
    unfold Context.putMask
    by_cases h : d = 0
    · simp only [h, if_true]
    · simp only [h, if_false]
  have hq : ∀ q : MReg, q ≠ d ∨ d = 0 → (c1.putMask d w.1 w.2 (c1.readyAt v lat)).vec.m[q] = s.me.vec.m[q] := by
    intro q hq
    unfold Context.putMask
    by_cases h : d = 0
    · simp only [h, if_true]; rw [hc1]
    · have hv' : d.val ≠ q.val := fun e => (hq.resolve_right h) (Fin.ext e.symm)
      simp only [h, if_false]
      have : c1.vec.m = s.me.vec.m := by rw [hc1]
      simp [hv', this]
  have hd : d ≠ 0 → (c1.putMask d w.1 w.2 (c1.readyAt v lat)).vec.m[d] = (s.me.vec.m[d] &&& ~~~w.1) ||| (w.2 &&& w.1) := by
    intro h
    unfold Context.putMask
    simp only [h, if_false]
    have : c1.vec.m = s.me.vec.m := by rw [hc1]
    simp [this]
  generalize c1.putMask d w.1 w.2 (c1.readyAt v lat) = c2 at hp hq hd hfm
  have hg2 : c2.group = none := by rw [hp]; exact hg1
  have hf2 : c2.flags = c1.flags := by rw [hp]
  have hx : (c2.issueV v.slots st).clock.xp = s.me.clock.xp := by
    show c2.clock.xp = _
    rw [hp]
    show c1.clock.xp = _
    rw [hc1]
  rw [Context.vdone_none hg2] at hfm
  generalize (c2.issueV v.slots st).clock = k at hx hfm
  refine ⟨_, e0, rfl, ?_, ?_, ?_, ?_, ?_⟩
  · have hp' : c2 = { s.me with
        vec := { s.me.vec with m := c2.vec.m }, flags := c2.flags, clock := { s.me.clock with mp := c2.clock.mp },
        mpoison := c2.mpoison } := by
      rw [hf2]
      refine hp.trans ?_
      rw [hc1]
    rw [hfm, ← hx]
    generalize c2.vec.m = mm at *
    generalize c2.flags = ff at *
    rw [hp']
    rfl
  · intro q h; rw [hfm]; exact hq q h
  · intro h e he
    rw [hfm]
    show (c2.vec.m[d]).getLsbD e = _
    rw [hd h]
    exact VView.maskWrite_bit v r m from0 (fun e => (f v r e).1) _ e he
  · intro hfl
    have hc1f : c1 = s.me.raiseV false ((v.active none r m false).map (fun e => (e, (f v r e).2))) := if_pos hfl
    refine State.raiseV_join (c := s.me) (from0 := false) hgrp rfl _ (fun h hh => ?_) ?_ ?_
    · obtain ⟨e, he, rfl⟩ := List.mem_map.mp hh
      rw [VView.mem_active] at he
      show e < _
      have : v.vlmax ≤ 32768 := by
        have := v.per_pos
        nlinarith
      omega
    · rw [hfm]
      exact hf2.trans (congrArg Context.flags hc1f)
    · rw [hvb]
      simp only [Bool.false_or, beq_iff_eq]
      exact ⟨fun h => BitVec.eq_of_toNat_eq (by simpa using h), fun h => by rw [h]; rfl⟩
  · intro hfl
    have hc1f : c1 = s.me := if_neg (by rw [hfl]; decide)
    rw [hfm]
    exact hf2.trans (congrArg Context.flags hc1f)

end Sys2Proof.Machine
end

