-- ==== Sys2Proof/Tests/Slice0.lean ====
section
/-! SUPPORT. Tests: words of the spec decode, ill-formed instructions are refused, single steps, and a witness for the
hypotheses of each statement. -/

namespace Sys2Proof.Tests

set_option Elab.async false
set_option synthInstance.maxSize 1024
open Sys2Proof.Machine

/-! ### Words that the spec prints -/

/-- Words that the spec prints (12, A fragment in memory). -/
theorem test_word_scalar_fragment :
    decodeTableWord 32 0x00003021 = some (.addi 6 0 0 0) ∧
    decodeTableWord 32 0x000A2821 = some (.addi 5 10 0 0) ∧
    decodeTableWord 32 0x002E3831 = some (.andi 7 14 1 0) ∧
    decodeTableWord 32 0x002E7071 = some (.shri 14 14 1 0) ∧
    decodeTableWord 32 0x00263061 = some (.shli 6 6 1 0) ∧
    decodeTableWord 16 0x01C8 = some (.cOr 7) ∧
    decodeTableWord 32 0xFFE52821 = some (.addi 5 5 0x7FF 0) ∧
    decodeTableWord 16 0xFDD6 = some (.cBnez 0x3F7) ∧
    decodeTableWord 32 0x08C64015 = some (.mul 8 6 6 2) ∧
    decodeTableWord 16 0x004C = some (.cAddi 1) ∧
    decodeTableWord 32 0x0C000261 = some .exit ∧
    decodeTableWord 32 0xFFE62985 = some (.beq 5 6 0x3FFA) := by decide

/-- Words that the spec prints (13, table of encodings and the call example). -/
theorem test_word_scalar_table :
    decodeTableWord 32 0x14C54811 = some (.div 9 5 6 0) ∧
    decodeTableWord 32 0x123428A1 = some (.lih 5 0x1234 0) ∧
    decodeTableWord 32 0x00E628D7 = some (.fadd .f32 .rne 5 6 7 3) ∧
    decodeTableWord 32 0x9C8628D1 = some (.fcvt .f32 .toI32 .rtz 5 6 0) ∧
    decodeTableWord 32 0x04072907 = some (.ld .d 5 7 2 0) ∧
    decodeTableWord 32 0x00083127 = some (.stG .w64 6 8 0 0) ∧
    decodeTableWord 32 0x40C72955 = some (.amoCas 5 7 6 0 .d) ∧
    decodeTableWord 32 0x000C4967 = some (.amoqpop 9 12 0 .p) ∧
    decodeTableWord 32 0x04202A31 = some (.srd 5 0x21) ∧
    decodeTableWord 32 0x02060241 = some (.swr 0x10 6) ∧
    decodeTableWord 32 0x10062A61 = some (.join 5 6) ∧
    decodeTableWord 32 0x000031E5 = some (.jal 6 2) ∧
    decodeTableWord 32 0x00A60A01 = some (.calli 1 6 5) ∧
    decodeTableWord 32 0x00050211 = some (.cmark 5) ∧
    decodeTableWord 32 0x000101F1 = some (.jalr 0 1 0) := by decide

/-- Words that the spec prints (14). -/
theorem test_word_vector :
    decodeTableWord 32 0x112A2AC1 = some (.vsetvli 5 10 0x89 0) ∧
    decodeTableWord 32 0x014A2AC1 = some (.vsetvli 5 10 0xA 0) ∧
    decodeTableWord 32 0x603013DB = some (.vfmaccVx 2 1 16 0 5) ∧
    decodeTableWord 32 0x00221B01 = some (.vaddVv 3 1 2 0 0) ∧
    decodeTableWord 32 0x00410BB7 = some (.vcmpVi .eq 1 2 1 0 3) ∧
    decodeTableWord 32 0x610A2411 = some (.vfcvtFrom true 10 4 8 0 0) ∧
    decodeTableWord 32 0x20252451 = some (.vfredT 4 1 5 0) ∧
    decodeTableWord 32 0xC0251C71 = some (.vkcount 3 1 5 0) ∧
    decodeTableWord 32 0x00000491 = some .vstop ∧
    decodeTableWord 32 0x000104A5 = some (.vfetch 10 0) := by decide

/-- Words that the spec prints (15). -/
theorem test_word_vector_memory_and_ordering :
    decodeTableWord 32 0x000E0D01 = some (.vld 1 14 0 false false 0) ∧
    decodeTableWord 32 0x00138541 = some (.vst 16 19 0 false false 0) ∧
    decodeTableWord 32 0x4B144523 = some (.vldx 8 20 24 2 true false 1) ∧
    decodeTableWord 32 0x00081571 = some (.vstG 2 8 0 false false 0) ∧
    decodeTableWord 32 0x00C925E1 = some (.vamoFAdd 4 9 6 0 0) ∧
    decodeTableWord 32 0x00030611 = some (.fenceC 3) ∧
    decodeTableWord 32 0x10400621 = some (.fenceP 2 4) ∧
    decodeTableWord 32 0x00600631 = some (.fenceS .p) ∧
    decodeTableWord 32 0x102D0631 = some (.fenceA .c 13) ∧
    decodeTableWord 32 0x30470631 = some (.hpost 2 7) ∧
    decodeTableWord 32 0x54604631 = some (.hfset 3 8) ∧
    decodeTableWord 32 0x64800631 = some (.hfwait 4 true) ∧
    decodeTableWord 32 0x160E7E41 = some (.cpy 15 14 16 5) ∧
    decodeTableWord 32 0x00070671 = some (.twaitall 0 7) := by decide

/-- Words that the spec prints (16). -/
theorem test_word_matrix :
    decodeTableWord 32 0x020F0691 = some (.gath 0 15 16) ∧
    decodeTableWord 32 0x060F0691 = some (.gath 1 15 16) ∧
    decodeTableWord 32 0x00401EA1 = some (.mmaGr 0 0 3 0 0 true false false false false) ∧
    decodeTableWord 32 0x002E06A5 = some (.mmaGr 0 2 0 3 0 false false true false true) ∧
    decodeTableWord 32 0x02853EB7 = some (.mmaRg 1 3 7 2 2 false true false false false) ∧
    decodeTableWord 32 0x484016C3 = some (.mmag 9 1 2 0 0 true false false false false) ∧
    decodeTableWord 32 0x000006DB = some (.mzero 5) ∧
    decodeTableWord 32 0x044006D1 = some (.mwait 2) ∧
    decodeTableWord 32 0x080E0ED1 = some (.pload 1 14) ∧
    decodeTableWord 32 0x000A86E1 = some (.tdrain 16 0 10 0 0 false false false) ∧
    decodeTableWord 32 0x396946E5 = some (.tdrain 8 2 9 7 1 true true false) ∧
    decodeTableWord 32 0x2810C6F7 = some (.tfill 3 24 5) := by decide

/-- Words that the spec prints (17). -/
theorem test_word_graver :
    decodeTableWord 32 0x00100701 = some (.gload 0 16) ∧
    decodeTableWord 32 0x05070701 = some (.gset 0 7 8) ∧
    decodeTableWord 32 0x08003701 = some (.gstateR 6) ∧
    decodeTableWord 32 0x0C060701 = some (.gstateW 6) ∧
    decodeTableWord 32 0x00411F11 = some (.grun 3 1 2 0 0) ∧
    decodeTableWord 32 0xC0042F11 = some (.grun1 5 4 2 0) ∧
    decodeTableWord 32 0x00011721 = some (.gcmp 2 0 1 0) ∧
    decodeTableWord 32 0xA0001F21 = some (.gfin 3 1 0) := by decide
/-- Words that chapter 12 rejects: an unassigned major, a stall field on JALR, a width, scope, operation or rounding mode
that names nothing, and compact words of op5 0 (R171, R174 to R177). -/
theorem test_rejected_words :
    decodeTableWord 32 0x00000001 = none ∧ decodeTableWord 32 0x00000171 = none ∧ decodeTableWord 32 0x000101F3 = none ∧
    decodeTableWord 32 0x0407290F = none ∧ decodeTableWord 32 0x40C7295B = none ∧ decodeTableWord 32 0x80C72955 = none ∧
    decodeTableWord 32 0xA0E628D7 = none ∧ decodeTableWord 16 0x0000 = none := by decide

/-! ### Ill-formed instructions -/

/-- One for each check of `Instr.wf`; each is refused. -/
theorem test_wf_refuses :
    (Instr.vfcvtTo false 17 1 2 0 0).wf = false ∧ (Instr.vfcvtFrom false 17 1 2 0 0).wf = false ∧
    (Instr.vcompressKeepnf 1 2 0 0).wf = false ∧ (Instr.vcompressKeepnfVl 1 2 0 0).wf = false ∧
    (Instr.mmaGr 0 0 0 0 0 false false false false true).wf = false ∧
    (Instr.mmaRg 0 0 0 0 0 false false false false true).wf = false ∧
    (Instr.mmag 1 0 0 0 0 false false false false true).wf = false ∧
    (Instr.tdrain 8 0 17 1 0 false true false).wf = false ∧ (Instr.tdrain 8 0 10 1 1 false false false).wf = false ∧
    (Instr.tdrain 8 0 10 1 0 false false true).wf = false ∧ (Instr.unimpl 0x00000021).wf = false ∧
    (Instr.mmioRegisterWrite 0 2 0 false).wf = false ∧ (Instr.mmioRegisterWrite 0 4 0 true).wf = false ∧
    (Instr.illegalEncoding 0x00010000).wf = false ∧ (Instr.hostWrite 0xFFFFFFFFFFFF [0, 0]).wf = false := by decide

/-! ### One word for each encoded row, written from the tables of chapter 12 -/

theorem test_decode_scalar_integer_1 :
    decodeTableWord 32 0x00E62817 = some (.add 5 6 7 3) ∧
    decodeTableWord 32 0x04E62817 = some (.sub 5 6 7 3) ∧
    decodeTableWord 32 0x08E62817 = some (.mul 5 6 7 3) ∧
    decodeTableWord 32 0x0CE62817 = some (.mulh 5 6 7 3) ∧
    decodeTableWord 32 0x10E62817 = some (.mulhn 5 6 7 3) ∧
    decodeTableWord 32 0x14E62817 = some (.div 5 6 7 3) ∧
    decodeTableWord 32 0x18E62817 = some (.divn 5 6 7 3) ∧
    decodeTableWord 32 0x1CE62817 = some (.rem 5 6 7 3) ∧
    decodeTableWord 32 0x20E62817 = some (.remn 5 6 7 3) ∧
    decodeTableWord 32 0x24E62817 = some (.and 5 6 7 3) ∧
    decodeTableWord 32 0x28E62817 = some (.or 5 6 7 3) ∧
    decodeTableWord 32 0x2CE62817 = some (.xor 5 6 7 3) ∧
    decodeTableWord 32 0x30E62817 = some (.shl 5 6 7 3) ∧
    decodeTableWord 32 0x34E62817 = some (.shr 5 6 7 3) ∧
    decodeTableWord 32 0x38E62817 = some (.sra 5 6 7 3) ∧
    decodeTableWord 32 0x3CE62817 = some (.min 5 6 7 3) ∧
    decodeTableWord 32 0x40E62817 = some (.max 5 6 7 3) ∧
    decodeTableWord 32 0x44E62817 = some (.minn 5 6 7 3) ∧
    decodeTableWord 32 0x48E62817 = some (.maxn 5 6 7 3) ∧
    decodeTableWord 32 0x4CE62817 = some (.slt 5 6 7 3) ∧
    decodeTableWord 32 0x50E62817 = some (.sltn 5 6 7 3) ∧
    decodeTableWord 32 0x54E62817 = some (.sel 5 6 7 3) ∧
    decodeTableWord 32 0x58062817 = some (.clz 5 6 3) ∧
    decodeTableWord 32 0x5C062817 = some (.ctz 5 6 3) ∧
    decodeTableWord 32 0x60062817 = some (.popc 5 6 3) ∧
    decodeTableWord 32 0x64062817 = some (.brev 5 6 3) ∧
    decodeTableWord 32 0x2AA62827 = some (.addi 5 6 341 3) ∧
    decodeTableWord 32 0x2AA62837 = some (.andi 5 6 341 3) := by decide

theorem test_decode_scalar_integer_2 :
    decodeTableWord 32 0x2AA62847 = some (.ori 5 6 341 3) ∧
    decodeTableWord 32 0x2AA62857 = some (.xori 5 6 341 3) ∧
    decodeTableWord 32 0x04A62867 = some (.shli 5 6 37 3) ∧
    decodeTableWord 32 0x04A62877 = some (.shri 5 6 37 3) ∧
    decodeTableWord 32 0x04A62887 = some (.srai 5 6 37 3) ∧
    decodeTableWord 32 0x2AA62897 = some (.slti 5 6 341 3) ∧
    decodeTableWord 32 0x015528A7 = some (.lih 5 341 3) ∧
    decodeTableWord 32 0x015528B7 = some (.adpc 5 341 3) := by decide

theorem test_decode_scalar_float :
    decodeTableWord 32 0x40E628D7 = some (.fadd .f32 .rup 5 6 7 3) ∧
    decodeTableWord 32 0x44E628D7 = some (.fsub .f32 .rup 5 6 7 3) ∧
    decodeTableWord 32 0x48E628D7 = some (.fmul .f32 .rup 5 6 7 3) ∧
    decodeTableWord 32 0x4CE628D7 = some (.ffma .f32 .rup 5 6 7 3) ∧
    decodeTableWord 32 0x50E628D7 = some (.fdiv .f32 .rup 5 6 7 3) ∧
    decodeTableWord 32 0x14E628D7 = some (.fmin .f32 5 6 7 3) ∧
    decodeTableWord 32 0x34E628D7 = some (.fmax .f32 5 6 7 3) ∧
    decodeTableWord 32 0x74E628D7 = some (.fcmp .f32 .lt 5 6 7 3) ∧
    decodeTableWord 32 0x580628D7 = some (.fsqrt .f32 .rup 5 6 3) ∧
    decodeTableWord 32 0x5C8628D7 = some (.fcvt .f32 .toI32 .rup 5 6 3) ∧
    decodeTableWord 32 0x1FE628D7 = some (.fclass .f32 5 6 3) := by decide

theorem test_decode_scalar_memory :
    decodeTableWord 32 0xAA262907 = some (.ld .d 5 6 85 1) ∧
    decodeTableWord 32 0xAA261917 = some (.st .w64 3 6 85 1) ∧
    decodeTableWord 32 0xAA261927 = some (.stG .w64 3 6 85 1) ∧
    decodeTableWord 32 0x04E62935 = some (.amoAdd 5 6 7 1 .d) ∧
    decodeTableWord 32 0x44E62935 = some (.amoAnd 5 6 7 1 .d) ∧
    decodeTableWord 32 0x84E62935 = some (.amoOr 5 6 7 1 .d) ∧
    decodeTableWord 32 0xC4E62935 = some (.amoXor 5 6 7 1 .d) ∧
    decodeTableWord 32 0x04E62945 = some (.amoMin 5 6 7 1 .d) ∧
    decodeTableWord 32 0x44E62945 = some (.amoMax 5 6 7 1 .d) ∧
    decodeTableWord 32 0x84E62945 = some (.amoMinn 5 6 7 1 .d) ∧
    decodeTableWord 32 0xC4E62945 = some (.amoMaxn 5 6 7 1 .d) ∧
    decodeTableWord 32 0x04E62955 = some (.amoSwap 5 6 7 1 .d) ∧
    decodeTableWord 32 0x44E62955 = some (.amoCas 5 6 7 1 .d) ∧
    decodeTableWord 32 0x04062965 = some (.amoqpop 5 6 1 .d) ∧
    decodeTableWord 32 0x44062965 = some (.amoqsteal 5 6 1 .d) := by decide

theorem test_decode_control :
    decodeTableWord 32 0x5527318B = some (.beq 6 7 5453) ∧
    decodeTableWord 32 0x5527319B = some (.bne 6 7 5453) ∧
    decodeTableWord 32 0x552731AB = some (.blt 6 7 5453) ∧
    decodeTableWord 32 0x552731BB = some (.bge 6 7 5453) ∧
    decodeTableWord 32 0x552731CB = some (.bltn 6 7 5453) ∧
    decodeTableWord 32 0x552731DB = some (.bgen 6 7 5453) ∧
    decodeTableWord 32 0x02A929EB = some (.jal 5 5453) ∧
    decodeTableWord 32 0x2AA629F1 = some (.jalr 5 6 341) ∧
    decodeTableWord 32 0x00262A01 = some (.calli 5 6 1) ∧
    decodeTableWord 32 0x00010211 = some (.cmark 1) ∧
    decodeTableWord 32 0x2AA00221 = some (.trap 341) ∧
    decodeTableWord 32 0x04202A31 = some (.srd 5 33) ∧
    decodeTableWord 32 0x04260241 = some (.swr 33 6) ∧
    decodeTableWord 32 0x04202A51 = some (.erd 5 33) ∧
    decodeTableWord 32 0x00000261 = some (.tret) ∧
    decodeTableWord 32 0x04000261 = some (.fencei) ∧
    decodeTableWord 32 0x08000261 = some (.yield) ∧
    decodeTableWord 32 0x0C000261 = some (.exit) ∧
    decodeTableWord 32 0x10062A61 = some (.join 5 6) ∧
    decodeTableWord 32 0x14062A61 = some (.leave 5 6) ∧
    decodeTableWord 32 0x18E60261 = some (.ctail 6 7) ∧
    decodeTableWord 32 0x1C062A61 = some (.lreq 5 6) ∧
    decodeTableWord 32 0x00E62A81 = some (.vsetvl 5 6 7) ∧
    decodeTableWord 32 0x58A62AC5 = some (.vsetvli 5 6 709 2) := by decide

theorem test_decode_vector_integer_a :
    decodeTableWord 32 0x08E62B07 = some (.vaddVv 5 7 6 2 3) ∧
    decodeTableWord 32 0x08E62B17 = some (.vaddVx 5 7 6 2 3) ∧
    decodeTableWord 32 0x08E62B27 = some (.vaddVi 5 7 6 2 3) ∧
    decodeTableWord 32 0x28E62B07 = some (.vsubVv 5 7 6 2 3) ∧
    decodeTableWord 32 0x28E62B17 = some (.vsubVx 5 7 6 2 3) ∧
    decodeTableWord 32 0x28E62B27 = some (.vsubVi 5 7 6 2 3) ∧
    decodeTableWord 32 0x48E62B07 = some (.vmulVv 5 7 6 2 3) ∧
    decodeTableWord 32 0x48E62B17 = some (.vmulVx 5 7 6 2 3) ∧
    decodeTableWord 32 0x48E62B27 = some (.vmulVi 5 7 6 2 3) ∧
    decodeTableWord 32 0x68E62B07 = some (.vmulhVv 5 7 6 2 3) ∧
    decodeTableWord 32 0x68E62B17 = some (.vmulhVx 5 7 6 2 3) ∧
    decodeTableWord 32 0x68E62B27 = some (.vmulhVi 5 7 6 2 3) ∧
    decodeTableWord 32 0x88E62B07 = some (.vmaccVv 5 7 6 2 3) ∧
    decodeTableWord 32 0x88E62B17 = some (.vmaccVx 5 7 6 2 3) ∧
    decodeTableWord 32 0x88E62B27 = some (.vmaccVi 5 7 6 2 3) ∧
    decodeTableWord 32 0xA8E62B07 = some (.vdivVv 5 7 6 2 3) ∧
    decodeTableWord 32 0xA8E62B17 = some (.vdivVx 5 7 6 2 3) ∧
    decodeTableWord 32 0xA8E62B27 = some (.vdivVi 5 7 6 2 3) ∧
    decodeTableWord 32 0xC8E62B07 = some (.vremVv 5 7 6 2 3) ∧
    decodeTableWord 32 0xC8E62B17 = some (.vremVx 5 7 6 2 3) ∧
    decodeTableWord 32 0xC8E62B27 = some (.vremVi 5 7 6 2 3) ∧
    decodeTableWord 32 0xE8E62B07 = some (.vminVv 5 7 6 2 3) ∧
    decodeTableWord 32 0xE8E62B17 = some (.vminVx 5 7 6 2 3) ∧
    decodeTableWord 32 0xE8E62B27 = some (.vminVi 5 7 6 2 3) := by decide

theorem test_decode_vector_integer_b_1 :
    decodeTableWord 32 0x08E62B37 = some (.vandVv 5 7 6 2 3) ∧
    decodeTableWord 32 0x08E62B47 = some (.vandVx 5 7 6 2 3) ∧
    decodeTableWord 32 0x08E62B57 = some (.vandVi 5 7 6 2 3) ∧
    decodeTableWord 32 0x28E62B37 = some (.vorVv 5 7 6 2 3) ∧
    decodeTableWord 32 0x28E62B47 = some (.vorVx 5 7 6 2 3) ∧
    decodeTableWord 32 0x28E62B57 = some (.vorVi 5 7 6 2 3) ∧
    decodeTableWord 32 0x48E62B37 = some (.vxorVv 5 7 6 2 3) ∧
    decodeTableWord 32 0x48E62B47 = some (.vxorVx 5 7 6 2 3) ∧
    decodeTableWord 32 0x48E62B57 = some (.vxorVi 5 7 6 2 3) ∧
    decodeTableWord 32 0x68E62B37 = some (.vshlVv 5 7 6 2 3) ∧
    decodeTableWord 32 0x68E62B47 = some (.vshlVx 5 7 6 2 3) ∧
    decodeTableWord 32 0x68E62B57 = some (.vshlVi 5 7 6 2 3) ∧
    decodeTableWord 32 0x88E62B37 = some (.vshrVv 5 7 6 2 3) ∧
    decodeTableWord 32 0x88E62B47 = some (.vshrVx 5 7 6 2 3) ∧
    decodeTableWord 32 0x88E62B57 = some (.vshrVi 5 7 6 2 3) ∧
    decodeTableWord 32 0xA8E62B37 = some (.vsraVv 5 7 6 2 3) ∧
    decodeTableWord 32 0xA8E62B47 = some (.vsraVx 5 7 6 2 3) ∧
    decodeTableWord 32 0xA8E62B57 = some (.vsraVi 5 7 6 2 3) ∧
    decodeTableWord 32 0xC8E62B37 = some (.vsaddVv 5 7 6 2 3) ∧
    decodeTableWord 32 0xC8E62B47 = some (.vsaddVx 5 7 6 2 3) ∧
    decodeTableWord 32 0xC8E62B57 = some (.vsaddVi 5 7 6 2 3) ∧
    decodeTableWord 32 0xE8E62B37 = some (.vssubVv 5 7 6 2 3) ∧
    decodeTableWord 32 0xE8E62B47 = some (.vssubVx 5 7 6 2 3) ∧
    decodeTableWord 32 0xE8E62B57 = some (.vssubVi 5 7 6 2 3) ∧
    decodeTableWord 32 0x08E62B67 = some (.vmaxVv 5 7 6 2 3) ∧
    decodeTableWord 32 0x08E62B77 = some (.vmaxVx 5 7 6 2 3) ∧
    decodeTableWord 32 0x08E62B87 = some (.vmaxVi 5 7 6 2 3) ∧
    decodeTableWord 32 0x68E62B97 = some (.vcmpVv .le 5 7 6 2 3) := by decide

theorem test_decode_vector_integer_b_2 :
    decodeTableWord 32 0x68E62BA7 = some (.vcmpVx .le 5 7 6 2 3) ∧
    decodeTableWord 32 0x68E62BB7 = some (.vcmpVi .le 5 7 6 2 3) := by decide

theorem test_decode_vector_float :
    decodeTableWord 32 0x08E62BC7 = some (.vfaddVv 5 7 6 2 3) ∧
    decodeTableWord 32 0x08E62BD7 = some (.vfaddVx 5 7 6 2 3) ∧
    decodeTableWord 32 0x28E62BC7 = some (.vfsubVv 5 7 6 2 3) ∧
    decodeTableWord 32 0x28E62BD7 = some (.vfsubVx 5 7 6 2 3) ∧
    decodeTableWord 32 0x48E62BC7 = some (.vfmulVv 5 7 6 2 3) ∧
    decodeTableWord 32 0x48E62BD7 = some (.vfmulVx 5 7 6 2 3) ∧
    decodeTableWord 32 0x68E62BC7 = some (.vfmaccVv 5 7 6 2 3) ∧
    decodeTableWord 32 0x68E62BD7 = some (.vfmaccVx 5 7 6 2 3) ∧
    decodeTableWord 32 0x88E62BC7 = some (.vfnmsacVv 5 7 6 2 3) ∧
    decodeTableWord 32 0x88E62BD7 = some (.vfnmsacVx 5 7 6 2 3) ∧
    decodeTableWord 32 0xA8E62BC7 = some (.vfdivVv 5 7 6 2 3) ∧
    decodeTableWord 32 0xA8E62BD7 = some (.vfdivVx 5 7 6 2 3) ∧
    decodeTableWord 32 0xC8E62BC7 = some (.vfminVv 5 7 6 2 3) ∧
    decodeTableWord 32 0xC8E62BD7 = some (.vfminVx 5 7 6 2 3) ∧
    decodeTableWord 32 0xE8E62BC7 = some (.vfmaxVv 5 7 6 2 3) ∧
    decodeTableWord 32 0xE8E62BD7 = some (.vfmaxVx 5 7 6 2 3) ∧
    decodeTableWord 32 0x68E62BE7 = some (.vfcmpVv .le 5 7 6 2 3) ∧
    decodeTableWord 32 0x68E62BF7 = some (.vfcmpVx .le 5 7 6 2 3) := by decide

theorem test_decode_vector_moves_masks_1 :
    decodeTableWord 32 0x08E02C07 = some (.vfsqrt 5 7 2 3) ∧
    decodeTableWord 32 0x28E02C07 = some (.vfclass 5 7 2 3) ∧
    decodeTableWord 32 0x48E02C01 = some (.vexp2 5 7 2) ∧
    decodeTableWord 32 0x68E02C01 = some (.vlog2 5 7 2) ∧
    decodeTableWord 32 0x88E02C01 = some (.vrcp 5 7 2) ∧
    decodeTableWord 32 0xA8E02C01 = some (.vrsq 5 7 2) ∧
    decodeTableWord 32 0xC8E02C01 = some (.vsin 5 7 2) ∧
    decodeTableWord 32 0xE8E02C01 = some (.vcos 5 7 2) ∧
    decodeTableWord 32 0x48E42C17 = some (.vfcvtTo true 4 5 7 2 3) ∧
    decodeTableWord 32 0x68E42C17 = some (.vfcvtFrom true 4 5 7 2 3) ∧
    decodeTableWord 32 0x08E02C27 = some (.vmvVv 5 7 2 3) ∧
    decodeTableWord 32 0x28E62C27 = some (.vmergeVv 5 7 6 2 3) ∧
    decodeTableWord 32 0x48E62C21 = some (.vslideupVx 5 7 6 2) ∧
    decodeTableWord 32 0x68E62C21 = some (.vslidednVx 5 7 6 2) ∧
    decodeTableWord 32 0x88E62C21 = some (.vpermVv 5 7 6 2) ∧
    decodeTableWord 32 0xA8062C21 = some (.viota 5 6 2) ∧
    decodeTableWord 32 0xC0E62C21 = some (.vextx 5 7 6) ∧
    decodeTableWord 32 0xE0E62C21 = some (.vinsx 5 6 7) ∧
    decodeTableWord 32 0x08062C37 = some (.vbcastVx 5 6 2 3) ∧
    decodeTableWord 32 0x28062C37 = some (.vbcastVi 5 6 2 3) ∧
    decodeTableWord 32 0x48E62C31 = some (.vslideupVi 5 7 6 2) ∧
    decodeTableWord 32 0x68E62C31 = some (.vslidednVi 5 7 6 2) ∧
    decodeTableWord 32 0x88E62C37 = some (.vmergeVx 5 7 6 2 3) ∧
    decodeTableWord 32 0xA8E62C37 = some (.vmergeVi 5 7 6 2 3) ∧
    decodeTableWord 32 0x28E62C41 = some (.vred .min 5 7 6 2) ∧
    decodeTableWord 32 0x08E62C51 = some (.vfredO 5 7 6 2) ∧
    decodeTableWord 32 0x28E62C51 = some (.vfredT 5 7 6 2) ∧
    decodeTableWord 32 0x48E62C51 = some (.vfredMin 5 7 6 2) := by decide

theorem test_decode_vector_moves_masks_2 :
    decodeTableWord 32 0x68E62C51 = some (.vfredMax 5 7 6 2) ∧
    decodeTableWord 32 0x00E62C67 = some (.mand 5 6 7 3) ∧
    decodeTableWord 32 0x20E62C67 = some (.mor 5 6 7 3) ∧
    decodeTableWord 32 0x40E62C67 = some (.mxor 5 6 7 3) ∧
    decodeTableWord 32 0x60062C67 = some (.mnot 5 6 3) ∧
    decodeTableWord 32 0x88062C67 = some (.mpopc 5 6 2 3) ∧
    decodeTableWord 32 0xA8062C67 = some (.mfirst 5 6 2 3) ∧
    decodeTableWord 32 0xC0062C67 = some (.mmv 5 6 3) ∧
    decodeTableWord 32 0x08E02C71 = some (.vcompress 5 7 2) ∧
    decodeTableWord 32 0x28E02C71 = some (.vcompressVl 5 7 2) ∧
    decodeTableWord 32 0x48E02C71 = some (.vexpand 5 7 2) ∧
    decodeTableWord 32 0x68E02C71 = some (.vppopc 5 7 2) ∧
    decodeTableWord 32 0x88E02C71 = some (.vconfl 5 7 2) ∧
    decodeTableWord 32 0xA8E02C71 = some (.vrank 5 7 2) ∧
    decodeTableWord 32 0xC8E62C71 = some (.vkcount 5 7 6 2) ∧
    decodeTableWord 32 0xE8E02C71 = some (.vnfblk 5 7 2) ∧
    decodeTableWord 32 0x08E32C81 = some (.vscanAdd 5 7 3 2) ∧
    decodeTableWord 32 0x28E32C81 = some (.vscanMin 5 7 3 2) ∧
    decodeTableWord 32 0x48E32C81 = some (.vscanMax 5 7 3 2) ∧
    decodeTableWord 32 0x68E32C81 = some (.vscanFadd 5 7 3 2) ∧
    decodeTableWord 32 0x88E42C81 = some (.vcompressKeepnf 5 7 4 2) ∧
    decodeTableWord 32 0xA8E42C81 = some (.vcompressKeepnfVl 5 7 4 2) ∧
    decodeTableWord 32 0x00000491 = some (.vstop) ∧
    decodeTableWord 32 0x28002C91 = some (.vpid 5 2) ∧
    decodeTableWord 32 0x48002C97 = some (.vrand 5 2 3) ∧
    decodeTableWord 32 0x02A914AB = some (.vfetch 5453 2) ∧
    decodeTableWord 32 0x02A914BB = some (.vpj 5453 2) := by decide

theorem test_decode_vector_memory :
    decodeTableWord 32 0xC4062D05 = some (.vld 5 6 1 true true 2) ∧
    decodeTableWord 32 0xC4662D15 = some (.vlds 5 6 3 1 true true 2) ∧
    decodeTableWord 32 0xC6A62D25 = some (.vldx 5 6 21 1 true true 2) ∧
    decodeTableWord 32 0xC4062D35 = some (.vldf 5 6 1 true true 2) ∧
    decodeTableWord 32 0xC4062D45 = some (.vst 5 6 1 true true 2) ∧
    decodeTableWord 32 0xC4662D55 = some (.vsts 5 6 3 1 true true 2) ∧
    decodeTableWord 32 0xC6A62D65 = some (.vstx 5 6 21 1 true true 2) ∧
    decodeTableWord 32 0xC4062D75 = some (.vstG 5 6 1 true true 2) ∧
    decodeTableWord 32 0xC6A62D85 = some (.vstxG 5 6 21 1 true true 2) ∧
    decodeTableWord 32 0x04062D95 = some (.vldSc 5 6 1 2) ∧
    decodeTableWord 32 0x04062DA5 = some (.vstSc 5 6 1 2) := by decide

theorem test_decode_synchronisation_copies_1 :
    decodeTableWord 32 0x06A62DB5 = some (.vamoAdd 5 6 21 1 2) ∧
    decodeTableWord 32 0x46A62DB5 = some (.vamoAnd 5 6 21 1 2) ∧
    decodeTableWord 32 0x86A62DB5 = some (.vamoOr 5 6 21 1 2) ∧
    decodeTableWord 32 0xC6A62DB5 = some (.vamoXor 5 6 21 1 2) ∧
    decodeTableWord 32 0x06A62DC5 = some (.vamoMin 5 6 21 1 2) ∧
    decodeTableWord 32 0x46A62DC5 = some (.vamoMax 5 6 21 1 2) ∧
    decodeTableWord 32 0x86A62DC5 = some (.vamoMinn 5 6 21 1 2) ∧
    decodeTableWord 32 0xC6A62DC5 = some (.vamoMaxn 5 6 21 1 2) ∧
    decodeTableWord 32 0x06A62DD5 = some (.vamoSwap 5 6 21 1 2) ∧
    decodeTableWord 32 0x46A62DD5 = some (.vamoCas 5 6 21 1 2) ∧
    decodeTableWord 32 0x86A62DD5 = some (.vamoFadd 5 6 21 1 2) ∧
    decodeTableWord 32 0x06A62DE5 = some (.vamoFAdd 5 6 21 1 2) ∧
    decodeTableWord 32 0x46A62DE5 = some (.vamoFAnd 5 6 21 1 2) ∧
    decodeTableWord 32 0x86A62DE5 = some (.vamoFOr 5 6 21 1 2) ∧
    decodeTableWord 32 0xC6A62DE5 = some (.vamoFXor 5 6 21 1 2) ∧
    decodeTableWord 32 0x06A62DF5 = some (.vamoFMin 5 6 21 1 2) ∧
    decodeTableWord 32 0x46A62DF5 = some (.vamoFMax 5 6 21 1 2) ∧
    decodeTableWord 32 0x86A62DF5 = some (.vamoFMinn 5 6 21 1 2) ∧
    decodeTableWord 32 0xC6A62DF5 = some (.vamoFMaxn 5 6 21 1 2) ∧
    decodeTableWord 32 0x06A62E05 = some (.vamoFSwap 5 6 21 1 2) ∧
    decodeTableWord 32 0x46A62E05 = some (.vamoFCas 5 6 21 1 2) ∧
    decodeTableWord 32 0x86A62E05 = some (.vamoFFadd 5 6 21 1 2) ∧
    decodeTableWord 32 0x00010611 = some (.fenceC 1) ∧
    decodeTableWord 32 0x02200621 = some (.fenceP 17 0) ∧
    decodeTableWord 32 0x00600631 = some (.fenceS .p) ∧
    decodeTableWord 32 0x10660631 = some (.fenceA .p 6) ∧
    decodeTableWord 32 0x20660631 = some (.bwait .p 6) ∧
    decodeTableWord 32 0x30260631 = some (.hpost 1 6) := by decide

theorem test_decode_synchronisation_copies_2 :
    decodeTableWord 32 0x40260631 = some (.hwait 1 6) ∧
    decodeTableWord 32 0x56202E31 = some (.hfset 17 5) ∧
    decodeTableWord 32 0x52200631 = some (.hfsetBare 17) ∧
    decodeTableWord 32 0x5A200631 = some (.hfsetClr 17) ∧
    decodeTableWord 32 0x66200631 = some (.hfwait 17 true) ∧
    decodeTableWord 32 0x00262E41 = some (.cpy 5 6 1 0) ∧
    decodeTableWord 32 0x00262E51 = some (.cpy2 5 6 1 0) ∧
    decodeTableWord 32 0x00262E61 = some (.cpyx 5 6 1 0) ∧
    decodeTableWord 32 0x00062E71 = some (.twaitall 5 6) ∧
    decodeTableWord 32 0x04062E71 = some (.twaitany 5 6) ∧
    decodeTableWord 32 0x08062E71 = some (.tfirst 5 6) := by decide

theorem test_decode_matrix :
    decodeTableWord 32 0x00062E81 = some (.coll 5 6) ∧
    decodeTableWord 32 0x04E60691 = some (.gath 1 6 7) ∧
    decodeTableWord 32 0x01ED2EA7 = some (.mmaGr 1 3 5 2 1 true true true false true) ∧
    decodeTableWord 32 0x01ED2EB7 = some (.mmaRg 1 3 5 2 1 true true true false true) ∧
    decodeTableWord 32 0x49EC2EC7 = some (.mmag 9 3 5 2 1 true true true false true) ∧
    decodeTableWord 32 0x000006D7 = some (.mzero 3) ∧
    decodeTableWord 32 0x042006D1 = some (.mwait 1) ∧
    decodeTableWord 32 0x080616D1 = some (.pload 2 6) ∧
    decodeTableWord 32 0x49C42EE7 = some (.tdrain 5 3 4 9 1 false true true) ∧
    decodeTableWord 32 0x48102EF7 = some (.tfill 3 5 9) := by decide

theorem test_decode_graver_unimpl :
    decodeTableWord 32 0x00061F01 = some (.gload 3 6) ∧
    decodeTableWord 32 0x04E61F01 = some (.gset 3 6 7) ∧
    decodeTableWord 32 0x08002F01 = some (.gstateR 5) ∧
    decodeTableWord 32 0x0C060701 = some (.gstateW 6) ∧
    decodeTableWord 32 0x68E62F11 = some (.grun 5 6 7 3 2) ∧
    decodeTableWord 32 0xE8062F11 = some (.grun1 5 6 3 2) ∧
    decodeTableWord 32 0x68052F21 = some (.gcmp 5 3 5 2) ∧
    decodeTableWord 32 0xE8002F21 = some (.gfin 5 3 2) ∧
    decodeTableWord 32 0x000AAFD7 = some (.unimpl 0x000aafd7) := by decide

theorem test_decode_compact :
    decodeTableWord 16 0x00C2 = some (.cAdd 3) ∧
    decodeTableWord 16 0x00C4 = some (.cSub 3) ∧
    decodeTableWord 16 0x00C6 = some (.cAnd 3) ∧
    decodeTableWord 16 0x00C8 = some (.cOr 3) ∧
    decodeTableWord 16 0x00CA = some (.cXor 3) ∧
    decodeTableWord 16 0x554C = some (.cAddi 341) ∧
    decodeTableWord 16 0x094E = some (.cShli 37) ∧
    decodeTableWord 16 0x0950 = some (.cShri 37) ∧
    decodeTableWord 16 0x00D2 = some (.cMov 3) ∧
    decodeTableWord 16 0x5554 = some (.cLi 341) ∧
    decodeTableWord 16 0xAA56 = some (.cBnez 681) ∧
    decodeTableWord 16 0xAA58 = some (.cBeqz 681) ∧
    decodeTableWord 16 0x001A = some (.cNop) ∧
    decodeTableWord 16 0x015C = some (.cvAdd 5) ∧
    decodeTableWord 16 0x015E = some (.cvFadd 5) ∧
    decodeTableWord 16 0x0160 = some (.cvFmul 5) ∧
    decodeTableWord 16 0x39A2 = some (.cvFmacc 6 7) ∧
    decodeTableWord 16 0x0164 = some (.cvMv 5) := by decide

/-! ### States for the witnesses -/

/-- One thread of a launch of function 1, at virtual address 0x1_0000, which maps to physical 0x5_0000. -/
def p : State := State.reset.placeProbe
/-- `p` under a VTYPE and a VL. -/
def vec (w n : BitVec 32) : State := p.modMe (fun c => { c with vec := { c.vec with vtype := w, vl := n } })
/-- `p` with values in x5 and x6. -/
def xs (a b : Word) : State := p.modMe (fun c => { c with x := (c.x.set 5 a).set 6 b })
/-- `p` with its context a Bureau. -/
def bur : State :=
  (p.modMe (fun c => { c with kind := .bureau })).modCluster 0 (fun k => { k with bureau := some 2, slots := Vector.replicate 4 none })
/-- `p` with a trap handler. -/
def hand : State := p.modMe (fun c => { c with trap := { c.trap with tvec := 0x20000 } })
/-- `p` while a trap is handled that set a VFETCH block aside. -/
def handling : State := hand.modMe (fun c => { c with
  trap := { c.trap with handling := true, epc := 0x10000 }
  vec := { c.vec with blk := some ⟨0x10000, [none], [0], none, 0, true⟩ } })
/-- `p` whose context has an early-forwarding store and a globally acknowledged one under way. -/
def storing : State := { p with
  nextId := 12
  stores := [⟨10, some 2, none, 1, 0, .p0, 0, false, 0x11000, [(0x51000, 7)], none, none, .early, 0, 1, true, 0, false, false, false, false⟩,
             ⟨11, some 2, none, 1, 0, .p0, 0, false, 0x11008, [(0x51008, 7)], none, none, .glob, 0, 0, false, 0, false, false, false, false⟩] }
/-- `p` in a VFETCH block with an issue group. -/
def block : State := (vec 0x00A 8).modMe (fun c => { c with vec := { c.vec with
  blk := some ⟨0x10000, List.replicate 8 (some 0x10000), List.replicate 8 0, some 0xFF, 0x10000, false⟩ } })
/-- The views of the states `vec`: F32, I32, N32, F32 in tiles, F32 in blocks, N64, PAIR and D1. -/
def vw (f : Fmt) (lmul : Nat) (tile : Bool) (bl vl : Nat) : VView := ⟨f, lmul, tile, bl, 1, .rne, false, false, false, 8, vl, 0⟩

/-! ### Witnesses: for each statement, states and operands that meet the hypotheses of its clauses -/

theorem witness_DecodeEncode :
    (Instr.add 5 6 7 3).wf = true ∧ encode (.add 5 6 7 3) = some (.w32 0x00E62817) ∧
    ∀ w, Instr.add 5 6 7 3 ≠ .illegalEncoding w := by
  refine ⟨by decide, by decide, fun w h => by cases h⟩

/-- `block` where the groups' instruction is VSTOP. -/
def stopping : State :=
  let s := p.loadCode (toBytes 4 0x00000491)
  s.modMe (fun c => { c with vec := { c.vec with vtype := 0x00A, vl := 2, blk := some ⟨0x10000, [some 0x10000, some 0x10000], [0, 0], none, 0, false⟩ } })
/-- `p` beside a thread in slot 1 whose vector issue queue asks for load/store issue. -/
def asking : State := { p with others := { p.me with uid := 7, slot := 1, vq := [⟨some .loadStore, 2⟩], sys := { p.me.sys with share := 9 } } :: p.others }.modCluster 0
  (fun k => { k with slots := k.slots.set 1 (some 7) })

theorem witness_StepRunsDecoded :
    (State.reset.sched = [] ∧ State.reset.runnable = false) ∧
    (block.sched = [] ∧ block.runnable = true ∧ block.inBlock = true ∧ block.groupInstr = none) ∧
    (stopping.sched = [] ∧ stopping.runnable = true ∧ stopping.inBlock = true ∧ stopping.groupInstr = some (.w32 0x491, .vstop)) ∧
    (let s := State.reset.withFetchWord 32 0x00E62817;
      s.sched = [] ∧ s.runnable = true ∧ s.inBlock = false ∧ s.code = .ok (.w32 0x00E62817) ∧
      decodeCode (.w32 0x00E62817) = .ok (.add 5 6 7 3)) ∧
    (p.runnable = true ∧ p.inBlock = false ∧ p.code = .ok (.w16 0) ∧ (∃ e, decodeCode (.w16 0) = .error e)) ∧
    (let s := p.modMe (fun c => { c with pc := 0x80000000000000 });
      s.runnable = true ∧ s.inBlock = false ∧ s.code = .error (.prot, 0x80000000000000)) ∧
    bur.me.kind = .bureau ∧ (p.me.kind = .thread ∧ queuedCode (.w32 0x00E62817) = false ∧ asksAtIssue (.add 5 6 7 3) = false) ∧
    (queuedCode (.w32 0x603013DB) = true ∧ p.me.vq.length < 16 ∧
      16 ≤ (p.modMe (fun c => { c with vq := List.replicate 16 ⟨none, 0⟩ })).me.vq.length) ∧
    (asksAtIssue (.coll 5 6) = true ∧ queuedCode (.w32 0x00062E81) = false ∧
      (grantWinner .loadStore (p.requesters p.me.cl (fun c => c.uid == p.me.uid || c.asks .loadStore))).map (fun w => w.uid) = some p.me.uid ∧
      (grantWinner .loadStore (asking.requesters asking.me.cl (fun c => c.uid == asking.me.uid || c.asks .loadStore))).map (fun w => w.uid) =
        some 7 ∧ asking.me.uid ≠ 7) := by
  refine ⟨by decide, by decide, by decide, by decide, ⟨by decide, by decide, by decide, ⟨_, rfl⟩⟩, by decide, by decide, by decide, by decide, by decide +kernel⟩

/-- `p` with four walks in flight on its cluster. -/
def walking : State := p.modCluster 0 (fun k => { k with walks := List.replicate 4 (p.newWalk 0 1 0 0x12000) })

theorem witness_StepTakesTurns :
    (let s := { p with sched := [Turn.ctx 0] };
      s.sched = .ctx 0 :: [] ∧ (∃ c ∈ s.contexts, c.uid = 0) ∧ s.me.uid ≠ 0 ∧ ∃ c ∈ s.others, c.uid = 0) ∧
    encode (.periodTurn 0) = none ∧ encode .cNop = some (.w16 0x001A) ∧
    p.payer p.me.launch = some (some p.me.launch, 1) ∧ (p.launch p.me.launch).isSome = true ∧ p.payer 99 = none ∧
    p.me.bound .p0 0 0x51000 = none ∧ 4 ≤ (walking.clusters[0]).walks.length := by
  refine ⟨by decide, by decide, by decide, by decide, by decide, by decide, by decide, by decide⟩

/-- A flit charged by a turn of the schedule counts in the launch's budget (09 R128). -/
theorem test_traffic :
    (match step { p with sched := [Turn.traffic p.me.launch 0 .thread true 5] } with
      | .next s => (s.launch p.me.launch).map (fun l => l.budget.used.toList) == some [0, 0, 5, 0]
      | _ => false) = true := by decide +kernel

theorem witness_StepKeepsCanonical :
    p.Canonical ∧ p.Numbered ∧ storing.Canonical ∧ storing.Numbered ∧ ∃ t, step p = .next t := by
  refine ⟨by unfold State.Canonical; decide, by unfold State.Numbered; decide, by unfold State.Canonical; decide,
    by unfold State.Numbered; decide, ?_⟩
  have h : (match step p with | .next _ => true | _ => false) = true := by decide
  cases e : step p with
  | next t => exact ⟨t, rfl⟩
  | fault _ => simp [e] at h
  | refused _ => simp [e] at h

/-- A state under SBCHK = 1 whose x5, v1 and m1 are read early. -/
def early (w n : BitVec 32) : State := (vec w n).modMe (fun c => { c with
  sys := { c.sys with sbchk := true }
  clock := { c.clock with xp := [⟨5, 0, 4⟩], vp := [⟨1, 0, BitVec.allOnes 16384, 0, 0, 4, false⟩], mp := [⟨1, 0, BitVec.allOnes 32768, 4, false⟩] } })

theorem witness_ScalarResults :
    (1 ≤ 1 + 0 ∧ 1 + 0 < 2 ∧ (5 : XReg) ≠ 0 ∧ (∀ q ∈ p.me.clock.xp, q.reg ≠ 5) ∧ (6 : XReg) ≠ 5) ∧
    ((early 0x004 8).stalledX [5, 6] = some 5 ∧ (early 0x004 8).me.kind = .thread ∧ (early 0x004 8).me.group = none ∧
      sysExists .thread 0x010 = true ∧ (early 0x004 8).me.sys.sbchk = true) ∧
    (let s := early 0x004 8
     let v := vw .i32 1 false 0 8
     let src : VSrc := ⟨1, 1, 32⟩
     s.Vec v ∧ v.isInt = true ∧ v.bl = 0 ∧ aligned 3 v.lmul = true ∧ aligned 1 v.lmul = true ∧ v.active none s.me.vregs 0 false ≠ [] ∧
       s.stalledV v [5] [src] [0] = some 5 ∧ s.stalledX [] = none ∧ s.me.earlyV v [src] = some 1 ∧
       s.me.earlyV v [⟨2, 1, 32⟩] = none ∧ s.me.earlyM [1] = some 1 ∧ s.me.earlyM [0] = none ∧
       s.stalledV v [] [src, ⟨2, 1, 32⟩] [0] = some 33) ∧
    (let s := early 0x00A 8
     let v := vw .f32 1 false 0 8
     s.Vec v ∧ v.isFloat = true ∧ v.active none s.me.vregs 0 false ≠ [] ∧ s.stalledV v [] [⟨1, 1, 32⟩, ⟨2, 1, 32⟩] [0] = some 33) := by
  unfold State.Vec; decide +kernel

theorem witness_IntegerForms : p.ReadyX [5, 6, 7] ∧ p.ReadyX [p.me.ldx, 5] := by unfold State.ReadyX; decide

theorem witness_DivisionForms :
    (∀ q ∈ [((7 : Int), (0 : Int)), (-128, -1), (-7, 2)], -2 ^ (8 - 1) ≤ q.1 ∧ q.1 ≤ 2 ^ (8 - 1) - 1) ∧
    ((0 : Int) ≤ 255 ∧ (255 : Int) < 2 ^ 8) ∧
    (xs 0x8000000000000000 (-1)).ReadyX [5, 6] ∧ (xs 7 0).ReadyX [5, 6] := by
  refine ⟨by decide, by decide, by unfold State.ReadyX; decide, by unfold State.ReadyX; decide⟩

theorem witness_IntegerBitForms : (xs 0 0).ReadyX [5] ∧ (xs 1 0).ReadyX [5] := by unfold State.ReadyX; decide

theorem witness_ScalarFloats : (p.me.kind = .thread ∧ p.ReadyX [5, 6, 7]) ∧ bur.me.kind = .bureau := by
  unfold State.ReadyX; decide

theorem witness_RoundingKeepsRepresentable :
    ∃ n m e, (0x3C00 : Nat) < 2 ^ (fpFmt .f16).width ∧ (fpFmt .f16).decode 0x3C00 = .fin n m e := by
  refine ⟨_, _, _, by decide, rfl⟩

theorem witness_BranchesAndJumps :
    p.ReadyX [5, 6] ∧ p.ReadyX [p.me.ldx] ∧
    ((xs 0x10000 0).rx 5 + BitVec.signExtend 64 (0 : BitVec 11) * 2).getLsbD 0 = false ∧
    ((xs 0x10001 0).rx 5 + BitVec.signExtend 64 (0 : BitVec 11) * 2).getLsbD 0 = true ∧
    (let s := (State.reset.withFetchWord 32 0x00050211).modMe (fun c => { c with x := c.x.set 5 0x10000 });
      (s.rx 5).getLsbD 0 = false ∧ s.fetchCode s.me (s.rx 5) = .ok (.w32 0x00050211) ∧
      (0x00050211 : BitVec 32) = 0x211#32 ||| ((5 : BitVec 11).setWidth 32 <<< 16) ∧
      (0x00050211 : BitVec 32) ≠ 0x211#32 ||| ((6 : BitVec 11).setWidth 32 <<< 16)) ∧
    (let s := xs 0x10000 0;
      s.ReadyX [5] ∧ s.fetchCode s.me (s.rx 5) = .ok (.w16 0)) ∧ ((xs 0x10001 0).rx 5).getLsbD 0 = true := by
  refine ⟨by unfold State.ReadyX; decide, by unfold State.ReadyX; decide, by decide, by decide, by decide,
    by unfold State.ReadyX; decide, by decide⟩

theorem witness_TrapsAndReturn :
    (hand.me.TakesTraps ∧ hand.fw.isaver.extractLsb' 8 8 = 0) ∧
    ({ p with fw := { p.fw with isaver := 0x00030100 } } : State).fw.isaver.extractLsb' 8 8 ≠ 0 ∧
    (handling.me.trap.handling = true ∧
      ∃ b, handling.me.vec.blk = some b ∧ b.held = true ∧ b.addr = handling.me.trap.epc) ∧
    (let s := handling.modMe (fun c => { c with trap := { c.trap with epc := 0x10008 } });
      s.me.trap.handling = true ∧ ∃ b, s.me.vec.blk = some b ∧ ¬(b.held = true ∧ b.addr = s.me.trap.epc)) ∧
    p.me.trap.handling = false := by
  refine ⟨by unfold Context.TakesTraps; decide, by decide, ⟨by decide, _, rfl, by decide, by decide⟩,
    ⟨by decide, _, rfl, by decide⟩, by decide⟩

theorem witness_TrapWithoutHandlerEndsLaunch :
    ∃ l, p.me.trap.tvec = 0 ∧ handling.me.trap.handling = true ∧ p.launch p.me.launch = some l ∧ l.stage ≠ .ended ∧
      handling.launch handling.me.launch = some l := by
  refine ⟨_, by decide, by decide, rfl, by decide, rfl⟩

theorem witness_SystemRegisters :
    p.me.kind = .thread ∧ p.ReadyX [5] ∧ sysExists .thread 0x020 = true ∧ sysExists .thread 0x007 = false ∧
    sysExists .thread 0x7FF = false := by
  refine ⟨by decide, by unfold State.ReadyX; decide, by decide, by decide, by decide⟩

theorem witness_EnergyAndTimeReads : (∃ l, p.launch p.me.launch = some l) ∧ 6 < (7 : BitVec 11).toNat :=
  ⟨⟨_, rfl⟩, by decide⟩

theorem witness_GroupMembership :
    let eight := fun n : Nat => (xs 0xFFF 0).modMe (fun c => { c with members := (List.range n).map (fun g => ⟨g + 1, 0, none⟩) });
    let s := xs 0xFFF 0;
    s.me.kind = .thread ∧ s.ReadyX [5] ∧ ((xs 0x1000 0).rx 5).toNat > 0xFFF ∧ (s.rx 5).toNat = 0xFFF ∧
    (s.me.members.any (fun m => m.gid == 0xFFF) = false ∧ s.me.members.length < 8 ∧ s.freeGroup s.me.die = some 1) ∧
    (p.me.members.any (fun m => m.gid == 0) = true ∧ (p.rx 5).toNat < 0xFFF) ∧
    ((eight 8).me.members.any (fun m => m.gid == 0xFFF) = false ∧ 8 ≤ (eight 8).me.members.length) ∧
    ((xs 0xFFE 0).me.members.any (fun m => m.gid == 0xFFE) = false ∧ ((xs 0xFFE 0).rx 5).toNat < 0xFFF) := by
  refine ⟨by decide, by unfold State.ReadyX; decide, by decide, by decide, by decide +kernel, by decide, by decide, by decide⟩

/-- `p` with a group of one register published through HF2. -/
def pubd : State := p.modCluster 0 (fun k => { k with hf := k.hf.set 2 ⟨true, true, 0, 8, 8, 0x00A, some 2⟩ })
/-- `bur` with two entries in the matrix queue. -/
def queued : State := bur.modCluster 0 (fun k => { k with mq := [⟨.mzero 1, 0, 0x10000, 0, 0, none, none⟩, ⟨.mzero 2, 0, 0x10004, 0, 0, none, none⟩] })
/-- `p` with two of its eight lane groups unowned. -/
def lanes : State := p.modCluster 0 (fun k => { k with lpart := Vector.ofFn (fun i => if i.val < 6 then ⟨true, 0, 0, 0, false⟩ else .free) })
/-- What the page of `p` maps an offset to. -/
def at_ (off : Nat) : Mapped := ⟨0x50000 + off, 0, 1, false⟩

theorem witness_ExitRetires :
    (p.NoneLost ∧ p.me.kind = .thread ∧ p.me.tags.faults = [] ∧ p.published p.me = [] ∧ p.me.resident = true) ∧
    (storing.NoneLost ∧ storing.me.kind = .thread ∧ storing.published storing.me = [] ∧ storing.me.resident = true) ∧
    (pubd.NoneLost ∧ pubd.me.kind = .thread ∧ pubd.me.tags.faults = [] ∧ pubd.published pubd.me ≠ []) ∧
    (bur.NoneLost ∧ bur.me.kind = .bureau ∧ bur.myCluster.mq = []) ∧
    (queued.NoneLost ∧ queued.me.kind = .bureau ∧ queued.myCluster.mq ≠ []) := by
  unfold State.NoneLost State.Clear; decide +kernel

/-- `bur` with a GATH in its matrix queue that has not started. -/
def gathering : State := bur.modCluster 0 (fun k => { k with mq := [⟨.gath 0, 0, 0x10000, 0, 0, none, none⟩] })
/-- `queued` behind a multiply that names flag 3. -/
def naming : State := queued.modCluster 0 (fun k => { k with mq := ⟨.gr 0 ⟨0, 3, 0, 0, true, false, false, false, false⟩, 0, 0x10008, 0, 0, none, none⟩ :: k.mq })

theorem witness_SystemRegisters_bureau :
    queued.me.kind = .bureau ∧ queued.myCluster.mq ≠ [] ∧ queued.ReadyX [5] ∧ bur.myCluster.mq = [] ∧
    (∃ e ∈ naming.myCluster.mq, e.flag = some 3) ∧ ∀ e ∈ naming.myCluster.mq, e.flag ≠ some 4 := by
  unfold State.ReadyX; decide +kernel

/-- `asking` whose other thread holds the lane groups above the first two, under a launch with gmin 1. -/
def donating : State := asking.modCluster 0 (fun k =>
  { k with lpart := Vector.ofFn (fun i => if i.val < 2 then ⟨true, 0, 0, 0, false⟩ else ⟨true, 1, 1, 0, false⟩) })

theorem witness_LaneDonors :
    p.donor p.myCluster.lpart = none ∧ donating.donor donating.myCluster.lpart = some 7 ∧
    (1 : Fin 4) ≠ donating.me.slot ∧ donating.myCluster.slots[(1 : Fin 4)] = some 7 ∧
    ((donating.context 7).bind (fun c => donating.launch c.launch)).map (fun l => l.pk.gmin) = some 1 := by decide +kernel

theorem witness_LaneRequest :
    ∃ l, (lanes.me.kind = .thread ∧ lanes.ReadyX [5] ∧ lanes.launch lanes.me.launch = some l) ∧
      (let held := fun s : State =>
        (s.myCluster.lpart.toList.filter (fun g => g.owned && (g.owner == s.me.slot && !g.move || g.move && g.next == s.me.slot))).length;
      held lanes = 6 ∧ (lanes.myCluster.lpart.toList.filter (fun g => !g.owned)).length = 2 ∧
      min (max 8 l.pk.gmin) l.pk.gmax = 8 ∧ min (max 6 l.pk.gmin) l.pk.gmax = 6 ∧ min (max 0 l.pk.gmin) l.pk.gmax = 1) := by
  refine ⟨_, ⟨by decide, by unfold State.ReadyX; decide, rfl⟩, by decide⟩

theorem witness_ScalarLoads :
    (let s := xs 0x10008 0;
      s.ReadyX [5] ∧ s.Reaches .load 0 0x10008 8 (at_ 8) ∧ s.Present (at_ 8).key 8 ∧ (s.rx 5).toNat % 8 = 0) ∧
    ((xs 0x80000000000000 0).ReadyX [5, 6] ∧ 2 ^ 55 ≤ ((xs 0x80000000000000 0).rx 5).toNat) ∧
    (let s := xs 0x7FFFFFFFFFFFFF 0;
      s.ReadyX [5, 6] ∧ (s.rx 5).toNat < 2 ^ 55 ∧ (s.rx 5).toNat % ldSize .d ≠ 0 ∧ (s.rx 5).toNat % stSize .w64 ≠ 0) := by
  unfold State.ReadyX State.Reaches State.Present State.Clear; decide +kernel

/-- `p` whose page has memory type 1. -/
def uncached : State := { p with mem := Memory.setAll p.mem [(0x40008, 0x9F)] }

theorem witness_ScalarStores :
    let s := { storing with me := { storing.me with x := storing.me.x.set 5 0x10008 } };
    let u := s.drainGlob (s.heldBack .p0 0 (at_ 8).key 8);
    s.ReadyX [5, 6] ∧ s.Reaches .store 0 0x10008 8 (at_ 8) ∧ (at_ 8).key % 8 = 0 ∧ u.Canonical ∧
    (at_ 8).mt = 0 ∧ u.keyedAs (at_ 8).ki (at_ 8).key ∧ (0x50000 : Nat) / 16 ≠ (at_ 0x10).key / 16 ∧
    (let n := uncached.modMe (fun c => { c with x := c.x.set 5 0x10008 });
      n.ReadyX [5, 6] ∧ n.Reaches .store 0 0x10008 8 { at_ 8 with mt := 1 } ∧ n.Canonical) := by
  unfold State.ReadyX State.Reaches State.Clear State.Canonical State.keyedAs; decide +kernel

theorem witness_ScalarAtomics :
    let s := { storing with me := { storing.me with x := storing.me.x.set 5 0x10010 } };
    let u := fun n => ((s.drainGlob (s.heldBack .p0 0 (at_ 0x10).key n)).beforeAtomic .p0 .s 0 [((at_ 0x10).key, n)]).applyFor s.me.die
      (at_ 0x10).key n;
    s.ReadyX [5, 6, 7] ∧ s.NoneLost ∧ s.Reaches .store 0 0x10010 8 (at_ 0x10) ∧ s.Reaches .store 0 0x10010 16 (at_ 0x10) ∧
    isHostKey (at_ 0x10).key = false ∧ (at_ 0x10).key % 16 = 0 ∧ s.Present (at_ 0x10).key 16 ∧ (u 8).Canonical ∧ (u 16).Canonical ∧
    (u 8).keyedAs (at_ 0x10).ki (at_ 0x10).key ∧
    ofBytes (((u 16).readHome 1 (at_ 0x10).key 16).drop 8) ≤ ofBytes (((u 16).readHome 1 (at_ 0x10).key 16).take 8) ∧
    (let v := (u 16).pokeKey 1 0x50018 [1];
      ofBytes ((v.readHome 1 (at_ 0x10).key 16).take 8) < ofBytes ((v.readHome 1 (at_ 0x10).key 16).drop 8)) := by
  unfold State.ReadyX State.NoneLost State.Reaches State.Present State.Clear State.Canonical State.keyedAs; decide +kernel

theorem witness_IntegerElementInstructions :
    let s := vec 0x004 8;
    let v := vw .i32 1 false 0 8;
    s.Vec v ∧ v.isInt = true ∧ v.bl = 0 ∧ aligned 3 v.lmul = true ∧ aligned 1 v.lmul = true ∧ (VOpnd.vv 2).ok v = true ∧
    s.VecReady v [5] (⟨1, 1, 32⟩ :: [⟨3, 1, 32⟩] ++ [⟨2, 1, 32⟩]) [0] 3 1 0 false ∧ v.active none s.me.vregs 0 false ≠ [] ∧
    s.VecReady v [] [] [0] s.me.vec.ldv 1 0 false := by
  unfold State.Vec State.VecReady State.ReadyX State.ReadyV; decide +kernel

theorem witness_FloatElementInstructions :
    let s := vec 0x00A 8;
    let v := vw .f32 1 false 0 8;
    s.Vec v ∧ v.isFloat = true ∧ v.isFloat32 = true ∧ v.bl = 0 ∧ aligned 3 v.lmul = true ∧ aligned 1 v.lmul = true ∧
    (VOpnd.vv 2).ok v = true ∧ s.VecReady v [5] (⟨1, 1, 32⟩ :: [⟨3, 1, 32⟩] ++ [⟨2, 1, 32⟩]) [0] 3 1 0 false ∧
    v.active none s.me.vregs 0 false ≠ [] := by
  unfold State.Vec State.VecReady State.ReadyX State.ReadyV; decide +kernel

theorem witness_CompareInstructions :
    (let s := vec 0x004 8;
      let v := vw .i32 1 false 0 8;
      s.Vec v ∧ (v.isInt && (v.bl == 0 && !v.tile && aligned 1 v.lmul && (VOpnd.vv 2).ok v)) = true ∧
      v.active none s.me.vregs 0 false ≠ [] ∧ s.ReadyX [5] ∧ s.ReadyV v [⟨1, 1, 32⟩, ⟨2, 1, 32⟩] [0] ∧ (1 : MReg) ≠ 0) ∧
    (let s := vec 0x00A 8;
      let v := vw .f32 1 false 0 8;
      s.Vec v ∧ (v.isFloat && (v.bl == 0 && !v.tile && aligned 1 v.lmul)) = true ∧ s.ReadyV v [⟨1, 1, 32⟩] [0] ∧
      (v.fmt != .pair && !v.fmt.digits) = true) := by
  unfold State.Vec State.ReadyX State.ReadyV; decide +kernel

theorem witness_Conversions :
    (let s := vec 0x00A 8;
      let v := vw .f32 1 false 0 8;
      let k := cvtOf v .f64 false false;
      Fmt.ofCode (11 : BitVec 5).toNat = some .f64 ∧ s.Vec v ∧ k.ok v 4 1 = true ∧ v.bl = 0 ∧
      v.elems (v.active none s.me.vregs 0 false) ≠ [] ∧ s.ReadyV v [⟨1, k.srcRegs v, k.frm.sew⟩] [0] ∧
      s.guarding 4 (k.dstRegs v) = none) ∧
    (let s := vec 0x10C 16;
      let v := vw .e4m3 1 false 16 16;
      let k := cvtOf v .f32 true true;
      Fmt.ofCode (10 : BitVec 5).toNat = some .f32 ∧ s.Vec v ∧ k.ok v 8 4 = true ∧ v.bl ≠ 0 ∧ k.scaled = true ∧
      s.ReadyV v [⟨4, k.srcRegs v, k.frm.sew⟩, ⟨8, k.dstRegs v, k.tof.sew⟩] [0] ∧ s.guarding 8 (k.dstRegs v) = none ∧
      (∃ e ∈ v.elems (v.active none s.me.vregs 0 false), e / v.bl = 0) ∧ 0 * v.bl < v.vlmax * v.per ∧
      (((v.elems (v.active none s.me.vregs 0 false)).filter (fun e => e / v.bl == 0)).map (fun e => cvtSource k.frm v.rm
        (k.srcScale v s.me.vregs 4 e).1 (k.srcScale v s.me.vregs 4 e).2 (s.me.vregs.elem v 4 k.frm.sew e))).any Val.nonFinite = false) := by
  unfold State.Vec State.ReadyV; decide +kernel

theorem witness_Conversions_copy :
    let s := vec 0x10C 16;
    let v := vw .e4m3 1 false 16 16;
    let k := cvtOf v .e4m3 false false;
    Fmt.ofCode (12 : BitVec 5).toNat = some .e4m3 ∧ s.Vec v ∧ k.ok v 4 1 = true ∧ v.bl ≠ 0 ∧ k.copy = true ∧ k.scaled = false ∧
    v.elems (v.active none s.me.vregs 0 false) ≠ [] ∧ s.ReadyV v [⟨1, k.srcRegs v, k.frm.sew⟩] [0] ∧ s.guarding 4 (k.dstRegs v) = none ∧
    v.outcome s.me.vregs 0 false 3 (some 0) ≠ none := by
  unfold State.Vec State.ReadyV; decide +kernel

theorem witness_MoveInstructions :
    (let s := vec 0x00A 8;
      let v := vw .f32 1 false 0 8;
      s.Vec v ∧ aligned 1 v.lmul = true ∧ aligned 3 v.lmul = true ∧ s.ReadyX [5] ∧ s.ReadyV v [⟨1, 1, 32⟩, ⟨2, 1, 32⟩] [0, 1] ∧
      s.guarding 3 1 = none ∧ (!(v.active none s.me.vregs 0 true).isEmpty) = true ∧ v.live = true ∧
      ((v.bl == 0 || v.tile) && (VOpnd.vv 2).ok v) = true ∧ (!v.tile && v.bl == 0 && apart 3 v.lmul 1 v.lmul) = true ∧
      (aligned 2 v.indexRegs && apart 3 v.lmul 2 v.indexRegs) = true) ∧
    (let s := vec 0x10A 16;
      let v := vw .f32 1 false 16 16;
      s.Vec v ∧ v.bl ≠ 0 ∧ s.VecReady v [] [⟨1, 1, 32⟩] [0] 3 1 0 false ∧ 0 ∈ v.active none s.me.vregs 0 false ∧ 0 < v.per) ∧
    (let s := vec 0x004 8;
      let v := vw .i32 1 false 0 8;
      s.Vec v ∧ (v.isInt && !v.tile) = true) := by
  unfold State.Vec State.VecReady State.ReadyX State.ReadyV; decide +kernel

theorem witness_ElementsAndCompression :
    let s := vec 0x004 8;
    let v := vw .i32 1 false 0 8;
    s.Vec v ∧ v.tile = false ∧ aligned 1 v.lmul = true ∧ s.ReadyX [5, 6] ∧ (s.rx 5).toNat < v.vl ∧ s.ReadyV v [v.oneSrc 1 0, ⟨1, 1, 32⟩] [0, 1] ∧
    (v.isInt && v.bl == 0 && !v.tile) = true ∧ s.guarding 3 1 = none ∧ v.live = true ∧ v.active none s.me.vregs 0 false ≠ [] ∧
    (v.fmt != .pair && !v.fmt.digits && (v.bl == 0 || v.tile) && aligned 1 v.lmul && apart 3 v.lmul 1 v.lmul) = true ∧
    (List.range v.vl).filter (fun u => v.live && [(0 : MReg), 1].any (fun q => s.me.vregs.mbit q u)) ≠ [] := by
  unfold State.Vec State.ReadyX State.ReadyV; decide +kernel

theorem witness_Reductions :
    (let s := vec 0x004 8;
      let v := vw .i32 1 false 0 8;
      s.Vec v ∧ (v.isInt && v.bl == 0 && !v.tile && aligned 1 v.lmul && aligned 2 v.lmul) = true ∧ aligned 3 v.lmul = true ∧
      (!(v.active none s.me.vregs 0 true).isEmpty) = true ∧ s.ReadyV v [⟨1, 1, 32⟩, v.oneSrc 2 0] [0] ∧ s.guarding 3 1 = none) ∧
    (let s := vec 0x00A 3;
      let v := vw .f32 1 false 0 3;
      let tree : Nat → Nat → Option Nat := fun n e => if 2 ^ n * e < 3 then some 0 else none;
      s.Vec v ∧ v.isFloat = true ∧ v.bl = 0 ∧ v.tile = false ∧ v.live = true ∧ aligned 1 v.lmul = true ∧
      s.ReadyV v [⟨1, 1, 32⟩, v.oneSrc 2 0] [0] ∧ s.guarding 3 1 = none ∧
      (∀ e, e < 4 → tree 0 e = if e < v.vl ∧ s.me.vregs.mbit 0 e = true then some (s.me.vregs.elem v 1 v.sew e) else none) ∧
      (∀ n, n < 2 → ∀ e, e < 4 → tree (n + 1) e = match tree n (2 * e), tree n (2 * e + 1) with
        | some x, some y => some (v.ff.add v.rm v.sat x y).1
        | some x, none => some x
        | none, y => y) ∧ v.vl ≤ 2 ^ 2 ∧ ∀ k, k < 2 → ¬v.vl ≤ 2 ^ k) := by
  unfold State.Vec State.ReadyV; decide +kernel

theorem witness_MaskInstructions :
    let s := vec 0x004 8;
    let v := vw .i32 1 false 0 8;
    s.Vec v ∧ (v.fmt != .pair) = true ∧ v.active none s.me.vregs 0 true ≠ [] ∧ 0 < v.vl ∧ s.ReadyX [] ∧ s.ReadyV v [] [1, 2] ∧
    (3 : MReg) ≠ 0 := by
  unfold State.Vec State.ReadyX State.ReadyV; decide +kernel

theorem witness_CountingAndScans :
    (let s := vec 0x004 8;
      let v := vw .i32 1 false 0 8;
      s.Vec v ∧ ((v.isInt && decide (16 ≤ v.sew)) && v.bl == 0 && !v.tile && aligned 1 v.lmul) = true ∧ aligned 3 v.lmul = true ∧
      (!(v.active none s.me.vregs 0 true).isEmpty) = true ∧ s.ReadyX [5] ∧ s.ReadyV v [⟨1, 1, 32⟩] [1, 0] ∧ s.guarding 3 1 = none) ∧
    (let s := vec 0x00A 8;
      let v := vw .f32 1 false 0 8;
      s.Vec v ∧ (v.isFloat && v.bl == 0 && !v.tile && aligned 1 v.lmul) = true ∧ s.ReadyV v [⟨1, 1, 32⟩] [1, 0]) := by
  unfold State.Vec State.ReadyX State.ReadyV; decide +kernel

theorem witness_VectorLengthGrant :
    p.me.kind = .thread ∧ p.me.group = none ∧ p.ReadyX [5, 6] ∧ Fmt.ofCode ((0x00A : Word).toNat % 32) = some .f32 ∧
    ((0x00A : Word).toNat < 2 ^ 19 ∧ (0x00A : Word).toNat / 2 ^ 15 % 8 ≤ 4 ∧ (0x00A : Word).toNat / 2 ^ 10 % 8 ≤ 4 ∧
      (0x00A : Word).toNat / 2 ^ 8 % 4 = 0 ∧ (0x00A : Word).getLsbD 7 = false) ∧
    requestOk 0x300 = false ∧ (∀ k : Fin 8, (p.myCluster.lpart[k]).move = false) ∧ p.me.lreq = none ∧
    p.me.groups = ownedGroups p.myCluster.lpart p.me.slot := by
  unfold State.ReadyX; decide +kernel

/-- `vec` with addresses and operands in x5 and x6. -/
def vat (w n : BitVec 32) : State := (vec w n).modMe (fun c => { c with x := (c.x.set 5 0x10100).set 6 8 })
/-- `p` with bytes at offset 0x100 of its page, whose address is in x5. -/
def bytes (bs : List Byte) : State := ((xs 0x10100 0).pokeKey 1 0x50100 bs)

theorem witness_BlockStart :
    (let s := vec 0x004 8
     let v := vw .i32 1 false 0 8
     s.Vec v ∧ ¬(v.tile = true ∨ v.fmt = .pair ∨ v.fmt.digits = true) ∧ v.active none s.me.vregs 0 false ≠ [] ∧ s.ReadyV v [] [0]) ∧
    ((vec 0x004 0).Vec (vw .i32 1 false 0 0) ∧ (vw .i32 1 false 0 0).active none (vec 0x004 0).me.vregs 0 false = []) ∧
    ((vec 0x084 8).Vec (vw .i32 8 true 0 8) ∧ (vw .i32 8 true 0 8).tile = true) ∧ ((vec 0x010 8).Vec (vw .pair 1 false 0 8)) ∧
    ((vec 0x011 8).Vec (vw .d1 1 false 0 8) ∧ (vw .d1 1 false 0 8).fmt.digits = true) := by
  unfold State.Vec State.ReadyV; decide +kernel

/-- The state of a step of `stopping` while the instruction of its issue group runs. -/
def inGroup : State := stopping.modMe (fun c => { c with vec := { c.vec with
  blk := some ⟨0x10000, [some 0x10000, some 0x10000], [0, 0], some 3, 0x10000, false⟩ } })
/-- `inGroup` with a trap handler. -/
def inGroupHand : State := inGroup.modMe (fun c => { c with trap := { c.trap with tvec := 0x20000 } })

theorem witness_FetchBlocks :
    (p.me.kind = .thread ∧ p.me.group = none) ∧
    (∃ b, block.me.vec.blk = some b ∧ b.grp = some 0xFF ∧ block.me.view = some (vw .f32 1 false 0 8) ∧ block.me.kind = .thread ∧
      (vw .f32 1 false 0 8).active (some 0xFF) block.me.vregs 0 false ≠ [] ∧ block.ReadyV (vw .f32 1 false 0 8) [] [0]) ∧
    p.me.vec.blk.all (fun b => b.held) = true ∧ State.reset.runnable = false ∧
    (stopping.me.vec.blk = some ⟨0x10000, [some 0x10000, some 0x10000], [0, 0], none, 0, false⟩ ∧ stopping.runnable = true ∧ stopping.fetchCode stopping.me 0x10000 = .ok (.w32 0x491) ∧
      blockDecode 0x491 = some .vstop) ∧
    ((match blockExec .vstop inGroup with | .next u => (u.me.uid == inGroup.me.uid) && (u.me.vec.blk.map (fun c => c.grp) == some (some 3)) | _ => false) = true) ∧
    ((match blockExec (.vsetvl 5 6 7) inGroupHand with | .next u => (u.me.uid == inGroupHand.me.uid) && (u.me.vec.blk.map (fun c => c.grp) == some none) | _ => false) = true) ∧
    (stopping.modMe (fun c => { c with vec := { c.vec with blk := some ⟨0x10000, [none, none], [0, 0], none, 0, false⟩ } })).me.vec.blk =
      some ⟨0x10000, [none, none], [0, 0], none, 0, false⟩ := by
  refine ⟨by decide +kernel, ⟨_, rfl, by decide +kernel, by decide +kernel, by decide +kernel, by decide +kernel, by unfold State.ReadyV; decide +kernel⟩,
    by decide +kernel, by decide +kernel, by decide +kernel, by decide +kernel, by decide +kernel, by decide +kernel⟩

/-- A fault of a vector load at element 0 of a group in a block: an address that is not aligned. -/
theorem witness_BlockFaults :
    let s := block.modMe (fun c => { c with x := c.x.set 5 0x10101, trap := { c.trap with tvec := 0x20000 } })
    let v := vw .f32 1 false 0 8
    let us := v.active (some 0xFF) s.me.vregs 0 false
    let q := s.scanLoad v false true (planUnits .unit v s.me.vregs s (s.rx 5) none us)
    s.me.kind = .thread ∧ s.me.view = some v ∧ (s.me.vec.blk.map (fun b => b.grp)) = some (some 0xFF) ∧ s.me.TakesTraps ∧ s.me.quota = none ∧
    us ≠ [] ∧ s.ReadyX [5] ∧ s.ReadyV v [] [0] ∧ s.guarding 3 v.lmul = none ∧ aligned 3 v.lmul = true ∧
    q.fault.map (fun f => (f.u, f.cause, f.tval)) = some (0, .align, 0x10101) := by
  unfold Context.TakesTraps State.ReadyX State.ReadyV; decide +kernel

theorem witness_VectorLoads :
    let s := vat 0x00A 8;
    let v := vw .f32 1 false 0 8;
    s.Vec v ∧ s.me.quota = none ∧ aligned 3 v.lmul = true ∧ v.active none s.me.vregs 0 false ≠ [] ∧ s.ReadyX [5, 6] ∧
    s.ReadyV v (VForm.indexed 8 |>.vs v) [0] ∧
    s.guarding 3 1 = none ∧ overlapOk 3 v.lmul 8 v.indexRegs = true ∧ v.bl = 0 ∧
    (∀ q ∈ [(VForm.unit, false), (.unit, true), (.strided 6, false), (.indexed 8, false)], q.1.ok v = true ∧
      (s.scanLoad v q.2 false (planUnits q.1 v s.me.vregs s (s.rx 5) none (v.active none s.me.vregs 0 false))).fault = none ∧
      (s.scanLoad v q.2 false (planUnits q.1 v s.me.vregs s (s.rx 5) none (v.active none s.me.vregs 0 false))).keys ≠ []) ∧
    (∀ k ∈ v.active none s.me.vregs 0 false, s.xlate s.me.party .load (s.rx 5 + BitVec.ofNat 64 (k * v.sew / 8)) = .ok (at_ (0x100 + 4 * k))) ∧
    s.Clear (s.heldBackAll 0 [(0x50100, 4)]) := by
  unfold State.Vec State.ReadyX State.ReadyV State.Clear; decide +kernel

theorem witness_VectorStores :
    let s := vat 0x00A 8;
    let v := vw .f32 1 false 0 8;
    s.Vec v ∧ s.me.quota = none ∧ aligned 3 v.lmul = true ∧ v.active none s.me.vregs 0 false ≠ [] ∧ s.ReadyX [5, 6] ∧
    s.ReadyV v (⟨3, v.lmul, v.sew⟩ :: (VForm.indexed 8 |>.vs v)) [0] ∧ v.bl = 0 ∧ 8 ≤ v.sew ∧
    (∀ f ∈ [VForm.unit, .strided 6, .indexed 8], f.ok v = true ∧
      (s.scan v .store false (padPiece v (s.rx 5) false (planUnits f v s.me.vregs s (s.rx 5) none (v.active none s.me.vregs 0 false)))).fault = none ∧
      (s.scan v .store false (padPiece v (s.rx 5) false (planUnits f v s.me.vregs s (s.rx 5) none (v.active none s.me.vregs 0 false)))).keys ≠ []) ∧
    (∀ k ∈ v.active none s.me.vregs 0 false, s.xlate s.me.party .store (s.rx 5 + BitVec.ofNat 64 (k * v.sew / 8)) = .ok (at_ (0x100 + 4 * k)) ∧
      (at_ (0x100 + 4 * k)).key % v.unitBytes = 0 ∧ s.keyedAs 1 (at_ (0x100 + 4 * k)).key) ∧
    s.Clear (s.heldBackAll 0 [(0x50100, 4)]) ∧ (s.afterHeld 0 [(0x50100, 4)]).Canonical := by
  unfold State.Vec State.ReadyX State.ReadyV State.Clear State.Canonical State.keyedAs; decide +kernel

theorem witness_ElementBoundary :
    let s := (vat 0x00A 8).modMe (fun c => { c with quota := some 2 })
    let v := vw .f32 1 false 0 8
    let us := v.active none s.me.vregs 0 false
    let l := planUnits .unit v s.me.vregs s (s.rx 5) none us
    let q := s.scanLoad v false false (l.take 2)
    let w := s.scan v .store false ((padPiece v (s.rx 5) false l).take 2)
    s.Vec v ∧ s.me.quota = some 2 ∧ us[2]? = some 2 ∧ s.ReadyX [5] ∧ aligned 3 v.lmul = true ∧ s.ReadyV v [⟨3, v.lmul, v.sew⟩] [0] ∧
    s.guarding 3 v.lmul = none ∧ q.fault = none ∧ q.keys ≠ [] ∧ s.Clear (s.heldBackAll 0 q.keys) ∧ w.fault = none ∧ w.keys ≠ [] ∧
    s.Clear (s.heldBackAll 0 w.keys) := by
  unfold State.Vec State.ReadyX State.ReadyV State.Clear; decide +kernel

theorem witness_SequentiallyConsistentAccesses :
    ∀ n ∈ [1, 8], let s := vat 0x00A (BitVec.ofNat 32 n);
    let v := vw .f32 1 false 0 n;
    let f := s.fenceAt .p;
    let us := v.active none s.me.vregs 0 false;
    let va := fun j : Nat => s.rx 5 + BitVec.ofNat 64 (j * 4);
    let u := s.modMe (fun c => { c with probed := us.map (fun j => (va j, at_ (0x100 + 4 * j))) });
    s.Vec v ∧ v.tile = false ∧ v.bl = 0 ∧ 8 ≤ v.sew ∧ aligned 3 v.lmul = true ∧
    us = 0 :: (List.range' 1 (n - 1)) ∧ s.ReadyX [5] ∧ s.NoneLost ∧ s.me.probed = [] ∧
    (∀ acc ∈ [Access.load, .store], ∀ j ∈ us, (va j).toNat < 2 ^ 55 ∧ (va j).toNat % 4 = 0 ∧
        s.xlate s.me.party acc (va j) = .ok (at_ (0x100 + 4 * j))) ∧
    (∀ j ∈ us, (u.me.probed.find? (fun p => p.1 == va j)).map (fun p => p.2) = some (at_ (0x100 + 4 * j))) ∧
    s.ReadyV v [⟨3, v.lmul, v.sew⟩] [0] ∧ s.guarding 3 1 = none ∧ f.Present (at_ 0x100).key 4 ∧ (at_ 0x100).key % 4 = 0 ∧
    f.Canonical ∧ s.Numbered ∧ homeOf (at_ 0x100).key = s.me.die := by
  unfold State.Vec State.ReadyX State.ReadyV State.NoneLost State.Clear State.Canonical State.Present State.Numbered; decide +kernel

theorem witness_VectorAtomics :
    ∀ q ∈ [((0x004 : BitVec 32), vw .i32 1 false 0 2, true), (0x00A, vw .f32 1 false 0 2, false)],
    let s := (vat q.1 2).modMe (fun c => { c with vec := { c.vec with v := c.vec.v.set 8 (8 <<< 256) } });
    let v := q.2.1;
    let mp := fun k => at_ (0x100 + 8 * k);
    let us := v.active none s.me.vregs 0 false;
    let ks := us.map (fun k => ((mp k).key, 4));
    let u := (s.afterHeld 0 ks).beforeAtomic .p1 .p 0 ks;
    s.Vec v ∧ (v.isInt && decide (32 ≤ v.sew)) = q.2.2 ∧ (v.isFloat && decide (32 ≤ v.sew)) = !q.2.2 ∧ v.tile = false ∧ v.bl = 0 ∧
    aligned 3 v.lmul = true ∧ aligned 8 v.indexRegs = true ∧ overlapOk 3 v.lmul 8 v.indexRegs = true ∧
    apart 3 (2 * v.lmul) 8 v.indexRegs = true ∧ us = [0, 1] ∧ s.ReadyX [5] ∧ s.guarding 3 1 = none ∧ s.NoneLost ∧
    s.ReadyV v [⟨3, v.lmul, v.sew⟩, ⟨8, v.indexRegs, 32⟩, ⟨regAt 3 v.lmul, v.lmul, v.sew⟩] [0] ∧
    (∀ k ∈ us, let va := s.rx 5 + BitVec.ofNat 64 (s.me.vregs.elem { v with tile := false } 8 32 k);
      va.toNat < 2 ^ 55 ∧ va.toNat % 4 = 0 ∧ s.xlate s.me.party .store va = .ok (mp k) ∧ isHostKey (mp k).key = false ∧
      (mp k).key % 4 = 0 ∧ s.Present (mp k).key 4 ∧ u.keyedAs (mp k).ki (mp k).key) ∧
    u.Canonical ∧ (∀ w ∈ u.stores, w.applied = true) := by
  unfold State.Vec State.ReadyX State.ReadyV State.NoneLost State.Clear State.Canonical State.Present State.keyedAs; decide +kernel

/-- `p` with queue 5 owned by its function and queue number and tail in x5 and x6. -/
def tails (q v : Word) : State := { xs q v with queues := [(5, { Queue.reset with owner := 1 })] }
/-- `p` with a membership of group 0 that last arrived in a phase, or is expected only from a phase on. -/
def joined (since : Nat) (last : Option Nat) : State := p.modMe (fun c => { c with members := [⟨0, since, last⟩] })

theorem witness_FencesAndReleases :
    (storing.NoneLost ∧ storing.p2Waits = false ∧ gathering.p2Waits = true ∧
      (let fr := (5#5) &&& gathering.me.pathSet; fr ≠ 0 ∧ fr.getLsbD (pathIdx .p2) = true) ∧ (1#5) &&& storing.me.pathSet ≠ 0) ∧
    ((tails 5 1).ReadyX [5, 6] ∧ ((tails 5 1).rx 5).toNat < 8192 ∧ ((tails 5 1).queue 5).owner = (tails 5 1).me.fn ∧ (tails 5 1).NoneLost) ∧
    ((tails 8192 1).ReadyX [5, 6] ∧ 8192 ≤ ((tails 8192 1).rx 5).toNat) ∧
    ((tails 8191 1).ReadyX [5, 6] ∧ ((tails 8191 1).queue 8191).owner ≠ (tails 8191 1).me.fn) ∧
    (p.me.kind = .thread ∧ p.ReadyX [5]) ∧
    (∀ q ∈ [((0 : Nat), (some 0 : Option Nat)), (1, none), (0, none)], let s := joined q.1 q.2;
      s.NoneLost ∧ (s.rx 5).toNat = 0 ∧ Assoc.has s.groups 0 = true ∧ (Assoc.get ⟨0, 0, 0, 0⟩ s.groups 0).phase = 0 ∧
      s.me.members.find? (fun m => m.gid == 0) = some ⟨0, q.1, q.2⟩) ∧
    (((xs 5 0).rx 5).toNat ≤ 0xFFF ∧ Assoc.has (xs 5 0).groups 5 = false) ∧
    (∀ m ∈ (p.modMe (fun c => { c with members := [] })).me.members, m.gid ≠ 0) := by
  refine ⟨by unfold State.NoneLost State.Clear; decide +kernel, by unfold State.ReadyX State.NoneLost State.Clear; decide +kernel,
    by unfold State.ReadyX; decide +kernel, by unfold State.ReadyX; decide +kernel, by unfold State.ReadyX; decide +kernel,
    ?_, by decide +kernel, by decide +kernel⟩
  intro q hq
  fin_cases hq <;> (unfold State.NoneLost State.Clear; decide +kernel)

/-- `p` with loop slot 3 of its die claimed for loop 0, its front at 5, and an iteration in x5. -/
def ring (n : Word) : State :=
  let s := xs n 0
  { s with launches := s.launches.map (fun l => { l with hatch := [(0, [3])] })
           dies := Vector.set s.dies 0 { s.dies[(0 : Fin 8)] with hatch := ((s.dies[(0 : Fin 8)]).hatch).set 3 ⟨some 1, 5, 2⟩ } }
/-- `pubd` with a full flag without a group in HF4. -/
def flags : State := (pubd.modMe (fun c => { c with vec := { c.vec with vtype := 0x00A, vl := 8 } })).modCluster 0 (fun k =>
  { k with hf := k.hf.set 4 ⟨true, false, 0, 0, 0, 0, some 2⟩ })

theorem witness_RingAndFlags :
    (p.ReadyX [5] ∧ p.loopSlot 0 = none) ∧
    (∀ n ∈ [(4 : Word), 5, 68, 69], (ring n).p2Waits = false ∧ (ring n).ReadyX [5] ∧ (ring n).loopSlot 0 = some 3 ∧ (ring n).NoneLost ∧
      ((ring n).hatchAt 3).f.toNat = 5 ∧ ((ring n).rx 5).toNat = n.toNat) ∧
    flags.NoneLost ∧ flags.p2Waits = false ∧ gathering.p2Waits = true ∧ flags.me.kind = .thread ∧ flags.me.view = some (vw .f32 1 false 0 8) ∧ aligned 8 1 = true ∧
    (flags.flag 3).full = false ∧ flags.guarding 9 1 = none ∧ flags.guarding 8 1 ≠ none ∧
    ((flags.flag 2).full = true ∧ (flags.flag 2).grp = true) ∧ (flags.flag 4).full = true ∧ (flags.flag 4).grp = false := by
  refine ⟨by unfold State.ReadyX; decide +kernel, ?_, by unfold State.NoneLost State.Clear; decide +kernel, by decide +kernel⟩
  intro n hn
  fin_cases hn <;> (unfold State.ReadyX State.NoneLost State.Clear; decide +kernel)

/-- A collective of the context of `p`. -/
def someColl : Coll :=
  ⟨20, 2, 1, 1, 0, 0, 0, 0, 0, false, 0, 0, 0x10100, 0x10200, 1, 0, 0x10300, none, none, false, .running⟩
/-- `bytes` with communicator 0 defined for its function. -/
def comms (bs : List Byte) : State := (bytes bs).modFn 1 (fun f => { f with comms := [(0, ⟨1, 1, true, Vector.replicate 8 0⟩)] })

/-- `bytes` as an instruction on P0 reads `n` of them: what orders before it has performed. -/
def descState (bs : List Byte) (n : Nat) : State :=
  let s := bytes bs
  (s.drainGlob (fun r => r.mode != .early && s.me.orders .p0 0 (keysOf [(at_ 0x100, n)]) r)).orderLoad .p0 0 (keysOf [(at_ 0x100, n)])

theorem witness_CopiesAndCollectives :
    (∀ bs ∈ [[2, 0, 0, 0, 8, 0, 0, 0], List.replicate 24 0 ++ [1]], let s := bytes bs;
      s.me.kind = .thread ∧ s.ReadyX [7, 6, 5] ∧ s.me.tags.held.getLsbD 0 = false ∧ (s.rx 5).toNat < 2 ^ 55 ∧ (s.rx 5).toNat % 8 = 0 ∧
      s.xlateRange s.me.party .load (s.rx 5) 32 = .ok [(at_ 0x100, 32)] ∧ s.badByte s.me.die [(at_ 0x100, 32)] = none ∧
      s.Clear (fun r => r.mode != .early && s.me.orders .p0 0 (keysOf [(at_ 0x100, 32)]) r)) ∧
    (let num := fun (off n : Nat) => ofBytes (((descState [2, 0, 0, 0, 8, 0, 0, 0] 32).loadParts .p0 0 [(at_ 0x100, 32)] |>.drop off).take n);
      num 24 8 = 0 ∧ num 0 4 = 2 ∧ num 4 4 = 8 ∧ num 8 8 % 8 = 0 ∧ num 16 8 % 8 = 0) ∧
    ofBytes ((((descState (List.replicate 24 0 ++ [1]) 32).loadParts .p0 0 [(at_ 0x100, 32)]).drop 24).take 8) ≠ 0 ∧
    (bytes []).rx 6 = 0 ∧ (bytes []).rx 5 ≠ 0 ∧
    (p.modMe (fun c => { c with tags := { c.tags with held := 1 } })).me.tags.held.getLsbD 0 = true ∧
    (∀ q ∈ [((0 : Word), (3 : Word)), (1, 3), (3, 3)],
      let s := (xs q.2 0).modMe (fun c => { c with tags := { c.tags with ctags := q.1 } });
      s.ReadyX [5] ∧ (∀ f ∈ s.me.tags.faults, ¬(f.tag < 64 ∧ (s.rx 5).getLsbD f.tag = true)) ∧ s.me.tags.ctags &&& s.rx 5 = q.1) ∧
    (∀ l ∈ [[], List.replicate 16 someColl], let s := { comms [2] with colls := l };
      s.me.kind = .thread ∧ s.ReadyX [5] ∧ (s.rx 5).toNat < 2 ^ 55 ∧ (s.rx 5).toNat % 8 = 0 ∧
      s.xlateRange s.me.party .load (s.rx 5) 64 = .ok [(at_ 0x100, 64)] ∧ s.badByte s.me.die [(at_ 0x100, 64)] = none ∧
      s.Clear (fun r => r.mode != .early && s.me.orders .p0 0 (keysOf [(at_ 0x100, 64)]) r) ∧
      s.comm s.me.fn 0 = some ⟨1, 1, true, Vector.replicate 8 0⟩ ∧ (s.colls.filter (fun c => c.owner == s.me.uid)).length = l.length) ∧
    (bytes [2]).comm 1 0 = none := by
  refine ⟨?_, by decide +kernel, by decide +kernel, by decide +kernel, by decide +kernel,
    by decide +kernel, ?_, ?_, by decide +kernel⟩
  · intro bs h; fin_cases h <;> (unfold State.ReadyX State.Clear; decide +kernel)
  · intro q h; fin_cases h <;> (unfold State.ReadyX; decide +kernel)
  · intro l h; fin_cases h <;> (unfold State.ReadyX State.Clear; decide +kernel)

/-- A Plate of dimension 1 of zeros. -/
def plate0 : Plate := plateOf (1#8 :: List.replicate 320 0)
/-- An entry of the matrix queue of the Bureau in `bur`. -/
def ent (o : MatOp) (pl : Option Plate) (r : Option MatRun) : MatEntry := ⟨o, 0, 0x10000, 0, 0, pl, r⟩
/-- `bur` with a matrix queue. -/
def mq (l : List MatEntry) : State := bur.modCluster 0 (fun k => { k with mq := l })
/-- The control bits of an MX word that names flag 3. -/
def mx : MxCtl := ⟨0, 3, 0, 0, true, false, false, false, false⟩
/-- `vec` in a cluster where a Bureau of the launch holds its context. -/
def drains (w n : BitVec 32) (x : Word) : State :=
  let s := (vec w n).modMe (fun c => { c with x := c.x.set 5 x })
  ({ s with others := s.others ++ [{ s.me with uid := 99, kind := .bureau }] }).modCluster 0 (fun k =>
    { k with bureau := some 99, plates := k.plates.set 1 ⟨some plate0, none⟩ })
/-- A Graver table of one state and one digit of one bit, whose transitions all stay and write 0. -/
def table0 (binary chain : Bool) : GTable :=
  ⟨1, binary, false, chain, 0, 1, 1, List.replicate 64 0, List.replicate (if binary then 4 else 2) 0x8000⟩
/-- `vec` under D1 with a table in slot 0. -/
def gr (binary chain : Bool) : State :=
  (vec 0x011 8).modMe (fun c => { c with vec := { c.vec with gt := c.vec.gt.set 0 (some (table0 binary chain)) } })

theorem witness_MatrixQueueEntry :
    (bur.me.kind = .bureau ∧ bur.ReadyX [5, 6] ∧ bur.myCluster.mq.length < 8) ∧
    (let s := mq (List.replicate 8 (ent (.mzero 1) none none));
      s.me.kind = .bureau ∧ s.ReadyX [5, 6] ∧ 8 ≤ s.myCluster.mq.length) ∧ p.me.kind = .thread := by
  unfold State.ReadyX; decide +kernel

/-- `bytes` of a Bureau. -/
def burBytes (bs : List Byte) : State := (bytes bs).modMe (fun c => { c with kind := .bureau })

/-- `burBytes` as an instruction on P0 reads `n` of them. -/
def burDesc (bs : List Byte) (n : Nat) : State :=
  let s := burBytes bs
  (s.drainGlob (fun r => r.mode != .early && s.me.orders .p0 0 (keysOf [(at_ 0x100, n)]) r)).orderLoad .p0 0 (keysOf [(at_ 0x100, n)])

theorem witness_PlateAndChest_load :
    (∀ bs ∈ [[], [1], [1, 0, 0, 0, 0, 0, 0, 0, 0, 0, 0, 0, 0, 0, 0, 0, 1]], let s := burBytes bs;
      s.me.kind = .bureau ∧ s.ReadyX [5] ∧ (s.rx 5).toNat < 2 ^ 55 ∧ (s.rx 5).toNat % 16 = 0 ∧
      s.xlateRange s.me.party .load (s.rx 5) 320 = .ok [(at_ 0x100, 320)] ∧ s.badByte s.me.die [(at_ 0x100, 320)] = none ∧
      s.Clear (fun r => r.mode != .early && s.me.orders .p0 0 (keysOf [(at_ 0x100, 320)]) r) ∧
      (burDesc bs 320).badByte s.me.die [(at_ 0x240, 1)] = none ∧
      (burDesc bs 320).Clear (fun r => r.mode != .early && s.me.orders .p0 0 (keysOf [(at_ 0x240, 1)]) r)) ∧
    (∀ x l, ({ burDesc [1] 320 with me := { (burBytes [1]).me with seen := x, ahead := l } } : State).xlateRange (burBytes [1]).me.party .load
      ((burBytes [1]).rx 5 + 320) (1 ^ 3) = .ok [(at_ 0x240, 1)]) ∧
    ofBytes (((burDesc [] 320).loadParts .p0 0 [(at_ 0x100, 320)]).take 1) = 0 ∧
    ofBytes (((burDesc [1] 320).loadParts .p0 0 [(at_ 0x100, 320)]).take 1) = 1 ∧
    (plateOf ((burDesc [1] 320).loadParts .p0 0 [(at_ 0x100, 320)] ++ [0])).firstBad = none ∧
    (plateOf ((burDesc [1, 0, 0, 0, 0, 0, 0, 0, 0, 0, 0, 0, 0, 0, 0, 0, 1] 320).loadParts .p0 0 [(at_ 0x100, 320)] ++ [0])).firstBad = some 16 := by
  refine ⟨?_, fun x l => (State.xlateRange_me ..).trans (by decide +kernel), by decide +kernel, by decide +kernel, by decide +kernel, by decide +kernel⟩
  intro bs h
  fin_cases h <;> (unfold State.ReadyX State.Clear; decide +kernel)

theorem witness_PlateAndChest_drain :
    (let s := drains 0x08A 8 0;
      let v := vw .f32 8 true 0 8;
      let l := (s.myCluster.plates[(1 : Fin 4)]).committed;
      s.Vec v ∧ v.tile = true ∧ s.ReadyX [5] ∧ s.ownBureau = true ∧ Fmt.ofCode (10 : BitVec 5).toNat = some v.fmt ∧ aligned 16 8 = true ∧
      v.fmt.int?.isSome = false ∧ s.guarding 16 8 = none ∧ l = some plate0 ∧ plate0.d = v.tdim ∧
      (plate0.inv false).length = v.tdim ∧ (∀ b ∈ plate0.inv false, b.toNat % 16 < v.tdim) ∧ s.rx 5 &&& ~~~0xFF7F = 0 ∧
      (s.rx 5).toNat % 128 + v.vl ≤ 128 ∧ (s.rx 5).toNat / 256 % 256 + v.per ≤ 256 ∧ v.per % v.tdim = 0 ∧
      (s.rx 5).toNat / 256 % 256 % v.tdim = 0 ∧ v.bl = 0 ∧ s.myCluster.chestPoison = []) ∧
    ((drains 0x08A 8 0x80).ReadyX [5] ∧ (drains 0x08A 8 0x80).rx 5 &&& ~~~0xFF7F ≠ 0) ∧
    ((vec 0x08A 8).ownBureau = false ∧ (vec 0x08A 8).rx 5 = 0) ∧
    (let s := drains 0x18C 8 0;
      let v := vw .e4m3 8 true 16 8;
      s.Vec v ∧ Fmt.ofCode (12 : BitVec 5).toNat = some v.fmt ∧ s.guarding 16 8 = none ∧ v.bl ≠ 0 ∧ v.per % v.bl = 0) ∧
    (let s := (drains 0x08A 8 0).modCluster 0 (fun k => { k with chestPoison := [pairIdx 2 0 0] });
      let v := vw .f32 8 true 0 8;
      v.vbeg ≤ 0 ∧ 0 < v.vl ∧ 0 < v.per ∧ pairIdx 2 0 0 ∈ s.myCluster.chestPoison) := by
  refine ⟨by unfold State.Vec State.ReadyX; decide +kernel, by unfold State.ReadyX; decide +kernel, by decide +kernel,
    by unfold State.Vec; decide +kernel, by decide +kernel⟩

theorem witness_PlateAndChest_fill :
    (let s := drains 0x090 8 0xF878;
      let v := vw .pair 8 true 0 8;
      let x : Word := 0xF878;
      s.Vec v ∧ v.tile = true ∧ s.ReadyX [5] ∧ v.fmt = .pair ∧ aligned 24 8 = true ∧ s.ReadyV v [⟨24, 8, 64⟩] [] ∧ s.rx 5 = x ∧
      x &&& ~~~0xFF7F = 0 ∧ x.toNat % 128 + v.vl = 128 ∧ x.toNat / 256 % 256 + 8 = 256 ∧ s.ownBureau = true ∧ s.myCluster.chest = []) ∧
    ((drains 0x090 8 0x80).rx 5 = 0x80 ∧ (0x80 : Word) &&& ~~~0xFF7F ≠ 0) ∧ (vec 0x090 8).ownBureau = false := by
  refine ⟨by unfold State.Vec State.ReadyX State.ReadyV; decide +kernel, by decide +kernel, by decide +kernel⟩

/-- `bur` whose segment 0 of the scratchpad starts with some bytes. -/
def padded (bs : List Byte) : State := bur.pokeKey 0 (padKey 0 0) bs
/-- The same with a matrix queue. -/
def pmq (bs : List Byte) (l : List MatEntry) : State := (padded bs).modCluster 0 (fun k => { k with mq := l })
/-- The scratchpad's first address. -/
def pad0 : Word := 0x7E000000000000
/-- The same beside a thread whose F32 tile of eight rows at v8 is published through flag 3, or whose flag is as given. -/
def published (bs : List Byte) (f : HFlag) (l : List MatEntry) : State :=
  let s := pmq bs l
  ({ s with others := { (vec 0x08A 8).me with uid := 7, slot := 1 } :: s.others }).modCluster 0 (fun k =>
    { k with hf := k.hf.set 3 f, slots := k.slots.set 1 (some 7) })
/-- That flag, and one that holds no group, and one under a format without tiles. -/
def tileFlag : HFlag := ⟨true, true, 1, 8, 8, 0x08A, some 7⟩
/-- An MMAG entry that reads its table at an address. -/
def mmagEnt (a : Word) (pl : Option Plate) : MatEntry := ⟨.mmag mx, 0, 0x10000, a, 0, pl, none⟩
/-- A table of one group of two rows. -/
def oneGroup : List Byte := toBytes 4 1 ++ toBytes 4 1 ++ toBytes 8 0 ++ toBytes 4 0 ++ toBytes 4 2 ++ toBytes 8 0x7E000000000040

theorem witness_WindowSums :
    (∀ l ∈ [[Val.nan false], [.inf true, .inf false], [.inf true, .fin false 1 0], [.fin true 0 0, .fin true 0 5]], l.length ≤ 2) ∧
    (let terms := [Val.fin false 1 0, .fin true 3 (-80), .fin false 0 0];
      (∀ x ∈ terms, ∃ n m e, x = .fin n m e ∧ (m = 0 ∨ (m.log2 : Int) + e ≤ 0)) ∧
      (∃ n m e, Val.fin n m e ∈ terms ∧ m ≠ 0 ∧ (m.log2 : Int) + e = 0) ∧
      ∃ n m e, Val.fin n m e ∈ terms ∧ e < (0 - 72 : Int) ∧ m % 2 ^ ((0 - 72 : Int) - e).toNat ≠ 0) ∧
    (let terms := [Val.fin false 1 0, .fin true 1 0];
      (∀ x ∈ terms, ∃ n m e, x = .fin n m e ∧ (m = 0 ∨ (m.log2 : Int) + e ≤ 0)) ∧ ∃ n m e, Val.fin n m e ∈ terms ∧ m ≠ 0 ∧ (m.log2 : Int) + e = 0) := by
  refine ⟨by decide, ⟨?_, ⟨false, 1, 0, by decide⟩, ⟨true, 3, -80, by decide⟩⟩, ⟨?_, ⟨false, 1, 0, by decide⟩⟩⟩ <;>
    (intro x hx; fin_cases hx <;> exact ⟨_, _, _, rfl, by decide⟩)

theorem witness_PairAccumulation :
    (⟨true, .rne, false⟩ : MulMode).int = true ∧ (⟨false, .rne, true⟩ : MulMode).int = false ∧ (0x7F800000 : Word).toNat < 2 ^ 32 ∧
    (∀ a ∈ [(0x7F800000 : Nat), 0xFF800000], a % 2 ^ 31 = 0x7F800000 ∧ a / 2 ^ 23 % 256 = 255) ∧
    (fmtF32.add .rne false 0x7F7FFFFF 0x7F7FFFFF).1 / 2 ^ 23 % 256 = 255 ∧ (0x7F7FFFFF : Nat) / 2 ^ 23 % 256 ≠ 255 ∧
    (fmtF32.add .rne false 0x3F800000 0x3F800000).1 / 2 ^ 23 % 256 ≠ 255 ∧
    (fmtF32.add .rne false 0x7F800000 0xFF800000).1 / 2 ^ 23 % 256 = 255 := by decide +kernel

theorem witness_MatrixEngineSteps_gather :
    p.bureauOf 0 = none ∧
    (bur.bureauOf 0 = some bur.me ∧ bur.me.cl = 0 ∧ bur.me.status = .running ∧ (∀ c ∈ bur.others, c.uid ≠ bur.me.uid) ∧ Cause.shape ≠ .poison) ∧
    (let e : MatEntry := ⟨.gath 0, 0, 0x10000, pad0, 1, none, none⟩;
      let s := pmq [] [e];
      s.bureauOf 0 = some s.me ∧ s.clusters[(0 : Fin 64)].mq = [] ++ e :: [] ∧ e.run = none ∧ e.b.toNat % 256 = 1 ∧
      e.b.toNat / 2 ^ 10 % 2 ^ 6 = 0 ∧ e.b.toNat / 2 ^ 19 = 0 ∧ e.a.toNat < 2 ^ 55 ∧ e.a.toNat / 2 ^ 48 = 0x7E ∧ e.a.toNat % 4 = 0 ∧
      s.engineRead s.me (e.a + 0) 4 = .ok (List.replicate 4 0) ∧ s.engineRead s.me pad0 64 = .ok (List.replicate 64 0)) ∧
    (∀ e ∈ [(⟨.gath 0, 0, 0x10000, pad0, 0x400, none, none⟩ : MatEntry), ⟨.gath 0, 0, 0x10000, 0x10000, 1, none, none⟩,
        ⟨.gath 0, 0, 0x10000, pad0 + 2, 1, none, none⟩], e.op = .gath 0 ∧ e.run = none) ∧
    (let d := ent (.mzero 1) none (some MatRun.plain);
      let e := ent (.mzero 1) none none;
      (mq [d, e]).bureauOf 0 = some bur.me ∧ (mq [d, e]).clusters[(0 : Fin 64)].mq = [d] ++ e :: [] ∧ d.run.isSome = true ∧ d.holds e = false ∧
      e.op = .mzero 1) ∧
    (ent (.gr 0 mx) none (some { MatRun.plain with freed := false })).holds (ent (.rg 1 mx) none none) = true := by
  refine ⟨by decide +kernel, by decide +kernel, by decide +kernel, by decide +kernel, by decide +kernel, by decide +kernel⟩

theorem witness_MatrixEngineSteps_multiply :
    ∀ o ∈ [MatOp.gr 0 mx, .rg 0 mx], let e := ent o (some plate0) none;
    let s := published [] tileFlag [e];
    let k := s.clusters[(0 : Fin 64)];
    let h := k.hf[(3 : Fin 32)];
    let v := vw .f32 8 true 0 8;
    s.bureauOf 0 = some s.me ∧ k.mq = [] ++ e :: [] ∧ h.full = true ∧ h.grp = true ∧ h.setter = some 7 ∧
    (s.context 7).isSome = true ∧ viewOf h.vtype 8 h.vl.toNat 0 = some v ∧ (gatherFmt v.fmt 0).isSome = true ∧
    (pairClass v.fmt).isSome = true ∧ pairClass ((gatherFmt v.fmt 0).getD v.fmt) = pairClass v.fmt ∧
    (gatherBl ((gatherFmt v.fmt 0).getD v.fmt) 0).isSome = true ∧ v.tdim = plate0.d ∧ v.tile = true ∧ 32 * 0 + v.fmt.epr ≤ 256 ∧
    32 * 0 + v.vl * plate0.d ≤ 256 ∧ plate0.d = 1 ∧ v.bl = 0 ∧ (∀ iv, (plate0.inv iv).length = plate0.d ∧ ∀ x ∈ plate0.inv iv, x.toNat % 16 < plate0.d) ∧
    k.latchBad 0 0 = false ∧ (∀ c, s.context 7 = some c → c.tileBad v h.base 8 = false ∧ groupCount c.groups = 8) ∧
    (published [] { tileFlag with full := false } [e]).clusters[(0 : Fin 64)].hf[(3 : Fin 32)].full = false ∧
    (published [] { tileFlag with grp := false } [e]).clusters[(0 : Fin 64)].hf[(3 : Fin 32)].grp = false ∧
    viewOf 0x00A 8 8 0 = some (vw .f32 1 false 0 8) ∧ (vw .f32 1 false 0 8).tile = false ∧ (ent o none none).plate = none ∧
    ({ k with latchPoison := [(0, 0)] } : Cluster).latchBad 0 1 = true := by
  intro o h
  fin_cases h <;> (refine ⟨by decide +kernel, by decide +kernel, by decide +kernel, by decide +kernel, by decide +kernel, by decide +kernel, by decide +kernel,
    by decide +kernel, by decide +kernel, by decide +kernel, by decide +kernel, by decide +kernel, by decide +kernel, by decide +kernel, by decide +kernel,
    by decide +kernel, by decide +kernel, by decide +kernel, by decide +kernel, ?_, by decide +kernel, by decide +kernel, by decide +kernel,
    by decide +kernel, by decide +kernel, by decide +kernel⟩; intro c hc; cases hc; exact ⟨by decide +kernel, by decide +kernel⟩)

theorem witness_MatrixEngineSteps_groups :
    (let e := mmagEnt pad0 (some plate0);
      let s := published oneGroup tileFlag [e];
      let v := vw .f32 8 true 0 8;
      s.bureauOf 0 = some s.me ∧ s.me.cl = 0 ∧ s.clusters[(0 : Fin 64)].mq = [] ++ e :: [] ∧ e.op = .mmag mx ∧ v.tdim = plate0.d ∧
      32 * 0 + v.vl * plate0.d ≤ 256 ∧ e.a.toNat < 2 ^ 55 ∧ e.a.toNat / 2 ^ 48 = 0x7E ∧ e.a.toNat % 16 = 0 ∧
      (let head := oneGroup.take 16;
        let tab := oneGroup.drop 16;
        s.engineRead s.me e.a 16 = .ok head ∧ head.length = 16 ∧ ofBytes (head.take 4) = 1 ∧
        s.engineRead s.me (e.a + 16) (16 * 1) = .ok tab ∧ tab.length = 16 * 1 ∧ ofBytes ((head.drop 4).take 4) ≤ 128 ∧
        ofBytes ((tab.drop 0).take 4) + ofBytes ((tab.drop 4).take 4) ≤ v.vl) ∧
      (mulFormats v (some plate0) 0 0).isSome = true) ∧
    (∀ e ∈ [mmagEnt 0x10000 none, mmagEnt (pad0 + 8) none], e.op = .mmag mx ∧ e.plate = none) ∧
    (let v := vw .f32 8 true 0 8;
      let row : MatRow := ⟨0, []⟩;
      let r : MatRun := { MatRun.plain with regs := List.replicate 8 row, vtype := 0x08A, gm := 1, groups := [⟨0, 2, pad0⟩, ⟨0, 0, 0⟩] };
      let e : MatEntry := { mmagEnt pad0 (some plate0) with run := some r };
      let s := pmq [] [e];
      s.bureauOf 0 = some s.me ∧ s.clusters[(0 : Fin 64)].mq = ⟨.mmag mx, 0, 0x10000, pad0, 0, some plate0, some r⟩ :: [] ∧ r.freed = true ∧
      r.groups[r.done]? = some ⟨0, 2, pad0⟩ ∧ ({ r with done := 1 } : MatRun).groups[1]? = some ⟨0, 0, 0⟩ ∧ viewOf r.vtype 1 r.regs.length 0 = some { v with g := 1 } ∧
      mulFormats { v with g := 1 } (some plate0) 0 0 = some (.f32, 0) ∧ 0 + 2 ≤ r.regs.length ∧ 32 * 0 + r.regs.length * plate0.d ≤ 256 ∧ r.gm ≤ 128 ∧
      s.clusters[(0 : Fin 64)].chest = [] ∧ r.int = (v.fmt == .i8) ∧ (s.readRecord s.me (pad0 + 0) 0).toOption.isSome = true) := by
  refine ⟨by decide +kernel, by decide +kernel, by decide +kernel⟩

theorem witness_MatrixCompletion :
    p.bureauOf 0 = none ∧
    (let e := ent (.gr 0 mx) none (some { MatRun.plain with freed := false });
      (mq [e]).clusters[(0 : Fin 64)].mq = [] ++ e :: [] ∧ e.run = some { MatRun.plain with freed := false } ∧ e.flag = some 3) ∧
    (∀ e ∈ (mq [ent (.mzero 1) none none]).clusters[(0 : Fin 64)].mq, e.run.any (fun r => !r.freed) = false) ∧
    (∀ q ∈ [(MatOp.gath 1, { MatRun.plain with latch := some Latch.reset }), (.mzero 1, MatRun.plain), (.mmag mx, MatRun.plain),
        (.gr 0 mx, { MatRun.plain with steps := [(0, 0)] })],
      let s := mq [ent q.1 none (some q.2)];
      s.bureauOf 0 = some s.me ∧ s.me.cl = 0 ∧ s.clusters[(0 : Fin 64)].mq = ent q.1 none (some q.2) :: [] ∧ q.2.freed = true ∧
      (∀ p ∈ q.2.steps, p.1 < 262144) ∧ s.clusters[(0 : Fin 64)].chest = [] ∧ s.clusters[(0 : Fin 64)].chestPoison = []) ∧
    (mq [ent (.mzero 1) none none]).bureauOf 0 = some bur.me ∧ MatRun.plain.latch = none ∧ MatRun.plain.groups.length ≤ MatRun.plain.done ∧
    ({ MatRun.plain with groups := [⟨0, 0, 0⟩] } : MatRun).done < ({ MatRun.plain with groups := [⟨0, 0, 0⟩] } : MatRun).groups.length ∧
    (let r := { MatRun.plain with steps := [(5, 0)], zeroed := true };
      (5, (0 : Word)) ∈ r.steps ∧ 5 ∈ ((mq [ent (.gr 0 mx) none (some r)]).modCluster 0 (fun k => { k with chestPoison := [5] })).clusters[(0 : Fin 64)].chestPoison ∧
      ¬(mx.z = true ∧ r.zeroed = false)) := by
  refine ⟨by decide +kernel, by decide +kernel, by decide +kernel, ?_, by decide +kernel, by decide +kernel, by decide +kernel, by decide +kernel,
    by decide +kernel⟩
  intro q h
  fin_cases h <;> decide +kernel

theorem witness_GraverTablesAndResults_load :
    (∀ bs ∈ [[], [1, 0, 1, 1]], let s := bytes bs;
      s.me.kind = .thread ∧ s.ReadyX [5] ∧ (s.rx 5).toNat < 2 ^ 55 ∧ (s.rx 5).toNat % 8 = 0 ∧
      s.xlateRange s.me.party .load (s.rx 5) 8 = .ok [(at_ 0x100, 8)] ∧ s.badByte s.me.die [(at_ 0x100, 8)] = none ∧
      s.Clear (fun r => r.mode != .early && s.me.orders .p0 0 (keysOf [(at_ 0x100, 8)]) r) ∧ s.badByte s.me.die [(at_ 0x108, 132)] = none ∧
      s.Clear (fun r => r.mode != .early && s.me.orders .p0 0 (keysOf [(at_ 0x108, 132)]) r)) ∧
    (tableHead ((bytes []).readParts ((bytes []).me.obs .p0) [(at_ 0x100, 8)])).headOk = false ∧
    (let g := tableHead ((bytes [1, 0, 1, 1]).readParts ((bytes [1, 0, 1, 1]).me.obs .p0) [(at_ 0x100, 8)]);
      g.headOk = true ∧ g.ns * g.symbols = 2) ∧
    (∀ x, ({ bytes [1, 0, 1, 1] with me := { (bytes [1, 0, 1, 1]).me with seen := x } } : State).xlateRange (bytes [1, 0, 1, 1]).me.party
      .load ((bytes [1, 0, 1, 1]).rx 5 + 8) (128 + 2 * 2) = .ok [(at_ 0x108, 132)]) ∧
    ofBytes ((((bytes [1, 0, 1, 1]).readParts ((bytes [1, 0, 1, 1]).me.obs .p0) [(at_ 0x108, 132)]).drop 0).take 2) / 64 % 4 ≠ 3 := by
  refine ⟨?_, by decide +kernel, by decide +kernel, fun x => (State.xlateRange_me ..).trans (by decide +kernel), by decide +kernel⟩
  intro bs h
  fin_cases h <;> (unfold State.ReadyX State.Clear; decide +kernel)

theorem witness_GraverTablesAndResults_set :
    let s := gr true false;
    let n := (table0 true false).ns * (table0 true false).symbols;
    s.me.kind = .thread ∧ s.ReadyX [5, 6] ∧ s.me.vec.gt[(1 : Fin 4)] = none ∧ s.me.vec.gt[(0 : Fin 4)] = some (table0 true false) ∧ n = 4 ∧
    (∀ x ∈ [(3 : Nat), 4, 0x8000], x < 2 ^ 16 ∧ x / 2 ^ 12 % 8 = 0) ∧ (3 : Nat) % 4096 < n ∧ n ≤ (4 : Nat) % 4096 ∧
    (0x8000 : Nat) % 4096 < (table0 true false).ns ∧ (0 : BitVec 16).toNat / 64 % 4 ≠ 3 ∧ (0xC0 : BitVec 16).toNat / 64 % 4 = 3 ∧
    (let v := vw .d1 1 false 0 8;
      s.Vec v ∧ (v.fmt.digits && !v.tile && v.bl == 0) = true ∧ (table0 true false).w = v.fmt.digitW ∧ aligned 3 v.lmul = true ∧ v.live = true ∧
      v.active none s.me.vregs 0 false ≠ [] ∧ s.ReadyX [] ∧ s.ReadyV v [⟨3, v.lmul, 64⟩] [0] ∧ s.guarding 3 1 = none ∧ (2 : MReg) ≠ 0) := by
  unfold State.Vec State.ReadyX State.ReadyV; decide +kernel

theorem witness_GraverRuns :
    ∀ q ∈ [(true, false), (false, true)], let s := gr q.1 q.2;
    let v := vw .d1 1 false 0 8;
    let g := table0 q.1 q.2;
    let us := v.active none s.me.vregs 0 false;
    s.Vec v ∧ s.me.quota = none ∧ us[3]? = some 3 ∧ (s.modMe (fun c => { c with quota := some 3 })).me.quota = some 3 ∧
    v.fmt.digits = true ∧ v.tile = false ∧ v.bl = 0 ∧ s.me.vec.gt[(0 : Fin 4)] = some g ∧ g.binary = q.1 ∧ g.chain = q.2 ∧
    g.w = v.fmt.digitW ∧ us ≠ [] ∧ s.ReadyV v [⟨1, v.lmul, 64⟩, ⟨2, v.lmul, 64⟩] [0] ∧ s.guarding 3 1 = none ∧ g.start = 0 ∧
    (∀ i, i < g.entry.length → 0 < g.ns ∧ ((g.entry[i]?).getD 0).toNat = 2 ^ 15 ∧ 2 ^ 15 / 8 % 64 = 0) ∧ s.me.vec.gsv = 0 ∧
    ∀ e ∈ us, s.me.vregs.elem v 1 64 e = 0 ∧ s.me.vregs.elem v 2 64 e = 0 := by
  intro q h
  fin_cases h <;> (unfold State.Vec State.ReadyV; decide +kernel)

/-- `p` with one store of its context under way. -/
def one (md : StoreMode) (home : Fin 8) (applied : Bool) (dies : BitVec 8) : State := { p with
  nextId := 12
  stores := [⟨11, some 2, none, 1, 0, .p0, 0, false, 0x11008, [(0x51008, 7)], none, none, md, home, if md = .early then 1 else 0, applied, dies, false, false, false, false⟩] }
/-- A state with the east port of die 0 down. -/
def cut (s : State) : State := { s with dies := Vector.set s.dies 0 { s.dies[(0 : Fin 8)] with up := ((s.dies[(0 : Fin 8)]).up).set 1 false } }

/-- A cross-die store whose link failed. -/
def cutStore : State := { one .early 1 false 0 with stores := (one .early 1 false 0).stores.map (fun r => { r with cut := true }) }

theorem witness_StoreEvents :
    (∀ q ∈ [(StoreMode.early, (1 : Fin 8), false, (0 : BitVec 8)), (.early, 1, true, 0xFE), (.early, 0, true, 0), (.glob, 0, false, 0),
        (.home, 1, false, 0)], let s := one q.1 q.2.1 q.2.2.1 q.2.2.2;
      s.Canonical ∧ s.Numbered ∧ ∃ r, s.store 11 = some r ∧ r.mode = q.1 ∧ r.alive = true ∧ r.home = q.2.1 ∧ r.applied = q.2.2.1 ∧
        r.acked = false ∧ r.reported = false ∧ r.ctx ≠ none ∧ s.homeUp r = true ∧ s.mayApply r = true ∧ s.mayPerform r = true ∧
        s.mayShow r 2 = true ∧ (r.onEveryDie = true ↔ q.2.2.2 = 0xFE) ∧ s.lossy r = false) ∧
    (let s := cut (one .early 1 false 0);
      s.Canonical ∧ s.Numbered ∧ ∃ r, s.store 11 = some r ∧ r.performed = true ∧ r.cut = false ∧ s.lossy r = false) ∧
    ∃ r, cutStore.store 11 = some r ∧ cutStore.lossy r = true ∧ r.alive = true ∧ r.acked = false ∧ r.home ≠ r.die := by
  refine ⟨?_, ⟨by unfold State.Canonical; decide +kernel, by unfold State.Numbered; decide +kernel, _, rfl, by decide +kernel⟩, _, rfl, by decide +kernel⟩
  intro q h
  fin_cases h <;> exact ⟨by unfold State.Canonical; decide +kernel, by unfold State.Numbered; decide +kernel, _, rfl, by decide +kernel⟩

/-- `p` with monitor 0 of its cluster enabled for a launch. -/
def mon (l : Nat) : State := p.modCluster 0 (fun k => { k with mons := k.mons.set 0 { Monitor.reset with ctl := 0x40001, owner := some l } })

/-- `p` whose context waits for a page. -/
def asksPage : State := p.modMe (fun c => { c with status := .waitingPage })
/-- `p` where an SWR of x5 to MCTL of monitor 0 stands at the pc. -/
def swr100 : State :=
  let s := p.loadCode (toBytes 4 (match encode (.swr 0x100 5) with | some (.w32 w) => w.toNat | _ => 0))
  s.modMe (fun c => { c with x := c.x.set 5 2 })

theorem witness_LinksErrorsMonitors :
    (let s := { p with modified := [(0xA00, 0)] };
      s.modified.find? (fun q => q.1 == (0xA00 : BitVec 45).toNat) = some ((0xA00 : BitVec 45).toNat, 0) ∧
      s.reachable (dieOf 0) (homeOf ((0xA00 : BitVec 45).toNat * 128)) = true) ∧
    (one .early 1 false 0).stores.map ((one .early 1 false 0).carries 0 .n) = [true] ∧
    (mon 1).monitorCounts 0 0 0 = true ∧ p.monitorCounts 0 0 0 = false ∧
    ((mon 1).clusters[(0 : Fin 64)].slots[(0 : Fin 4)].bind (mon 1).context).isSome = true ∧
    (p.ReadyX [5] ∧ p.clusters[p.me.cl].mons[(0 : Fin 4)].ctl.getLsbD 0 = false ∧ (p.rx 5).getLsbD 1 = false) ∧ (xs 2 0).rx 5 = 2 ∧
    (let m := (mon 1).clusters[(mon 1).me.cl].mons[(0 : Fin 4)]; m.ctl.getLsbD 0 = true ∧ m.owner = some (mon 1).me.launch) ∧
    (let m := (mon 9).clusters[(mon 9).me.cl].mons[(0 : Fin 4)]; m.ctl.getLsbD 0 = true ∧ m.owner ≠ some (mon 9).me.launch) ∧
    (swr100.runnable = true ∧ swr100.inBlock = false ∧ swr100.rx 5 = 2 ∧ (encode (.swr 0x100 5)).map (fun c => decide (swr100.code = .ok c)) = some true) ∧
    (∀ b : XReg, (encode (.swr 0x100 b)).map (fun c => decide (p.code = .ok c)) = some false) ∧
    block.inBlock = true ∧ (asksPage.runnable = false) := by
  unfold State.ReadyX; decide +kernel

/-- A copy of the context of `p`: one row of eight bytes. -/
def someCopy : Copy :=
  ⟨30, some 2, 0, some 1, none, 1, 0, 0, 1, 8, 0x10100, 0x10200, 0, 0, 0, 0, false, 0, [], [], .running⟩
/-- `hand` with that copy and a collective, and a page request. -/
def asks (ctx work : Option Nat) (st : CtxStatus) : State := { hand with
  me := { hand.me with status := st }
  copies := [{ someCopy with st := .waitingPage 40 }]
  colls := [{ someColl with st := .waitingPage 40 }]
  pageReqs := [⟨40, 1, 0x10100, .load, 0x10100, ctx, work⟩]
  nextId := 41 }
/-- `p` with a collective. -/
def colls (c : Coll) : State := { p with colls := [c] }
/-- `s` with every engine class of die 0 held. -/
def stop (s : State) : State := { s with dies := Vector.set s.dies 0 { s.dies[(0 : Fin 8)] with
  engines := Vector.replicate 4 { Budget.reset with lim := Vector.replicate 4 0 } } }

/-- A reduction of one element at the one member of a communicator. -/
def reduces : Coll := { someColl with fmt := 4 }
/-- `p` with that collective and communicator 0 of its function, whose member is this die. -/
def reducing : State := (colls reduces).modFn 1 (fun f => { f with comms := [(0, ⟨0x10400, 1, true, Vector.replicate 8 0⟩)] })

theorem witness_PageAnswersAndCollectiveEnds :
    p.pageReq 40 = none ∧
    (let s := asks (some 2) none .waitingPage;
      s.pageReq 40 = some ⟨40, 1, 0x10100, .load, 0x10100, some 2, none⟩ ∧ s.me.uid = 2 ∧ s.me.status = .waitingPage ∧ s.me.TakesTraps ∧
      s.me.vec.blk = none ∧ ∀ c ∈ s.others, c.uid ≠ s.me.uid) ∧
    (asks (some 2) none .outForPage).me.status = .outForPage ∧
    (let s := asks none (some 30) .running;
      s.pageReq 40 = some ⟨40, 1, 0x10100, .load, 0x10100, none, some 30⟩ ∧ s.copy 30 = some { someCopy with st := .waitingPage 40 } ∧
      someCopy.owner = some s.me.uid ∧ s.me.status ≠ .exited) ∧
    (let s := asks none (some 20) .running;
      s.pageReq 40 = some ⟨40, 1, 0x10100, .load, 0x10100, none, some 20⟩ ∧ s.copy 20 = none ∧
      s.coll 20 = some { someColl with st := .waitingPage 40 } ∧ someColl.wrote = false) ∧
    ((colls someColl).coll 20 = some someColl ∧ someColl.st = .running ∧
      (colls someColl).engineHeld someColl.fn (some someColl.launch) someColl.die .collective = false ∧ someColl.lost = none ∧
      someColl.ending = none ∧ (colls someColl).comm someColl.fn someColl.comm = none) ∧
    ((stop (colls someColl)).coll 20 = some someColl ∧
      (stop (colls someColl)).engineHeld someColl.fn (some someColl.launch) someColl.die .collective = true) ∧
    (let c := { someColl with ending := some ⟨0, 0xFFFFFFFF, [], false⟩, wrote := true };
      (colls c).coll 20 = some c ∧ (colls c).engineHeld c.fn (some c.launch) c.die .collective = false ∧ c.lost = none ∧
      c.status.toNat < 2 ^ 55 ∧ c.status.toNat % 8 = 0 ∧ (colls c).xlateLong c.party .store c.status 8 = .ok [(at_ 0x300, 8)]) ∧
    (let s := reducing;
      let c := reduces;
      let u := { s with freeCtr := s.freeCtr + 2 };
      s.coll 20 = some c ∧ c.st = .running ∧ s.engineHeld c.fn (some c.launch) c.die .collective = false ∧ c.lost = none ∧ c.ending = none ∧
      s.comm c.fn c.comm = some ⟨0x10400, 1, true, Vector.replicate 8 0⟩ ∧
      s.tick.commMembers c.fn ⟨0x10400, 1, true, Vector.replicate 8 0⟩ = .ok [(0, 0)] ∧
      s.commMembers c.fn ⟨0x10400, 1, true, Vector.replicate 8 0⟩ = .ok [(0, 0)] ∧ s.fw.dev.toNat = 0 ∧
      Fmt.ofCode c.fmt.toNat = some .i32 ∧ c.wellFormed 1 = true ∧ s.peers c [(0, 0)] = [some c] ∧ c.agrees c = true ∧
      u.loadLong c.obs c.party c.src (c.size * c.srcElems 1 0) = .ok [0, 0, 0, 0]) ∧
    (let c := { reduces with ending := some ⟨1, 0xFFFFFFFF, [0, 0, 0, 0], false⟩ };
      (colls c).coll 20 = some c ∧ c.wrote = false ∧ (colls c).xlateLong c.party .store c.dst 4 = .ok [(at_ 0x200, 4)]) := by
  refine ⟨by decide +kernel, by unfold Context.TakesTraps; decide +kernel, by decide +kernel, by decide +kernel, by decide +kernel,
    by decide +kernel, by decide +kernel, by decide +kernel, by decide +kernel, by decide +kernel⟩

/-- `p` with a copy. -/
def copies (c : Copy) : State := { p with copies := [c], nextId := 31 }

theorem witness_CopySteps :
    (let s := copies someCopy;
      s.copy 30 = some someCopy ∧ someCopy.st = .running ∧ s.engineHeld someCopy.fn someCopy.launch 0 .copy = false ∧
      s.mayStart someCopy = true ∧ someCopy.done < someCopy.total ∧
      (∃ j, j < someCopy.rows ∧ (someCopy.row j).done < someCopy.rbytes) ∧ (someCopy.row 0).ahead = [] ∧
      s.tick.copyOffset someCopy someCopy.sidx someCopy.spitch 0 = .ok 0 ∧
      s.tick.readMarked someCopy.obs someCopy.party (someCopy.src + 0 + BitVec.ofNat 64 (someCopy.row 0).done) (min 3 8) =
        .ok (List.replicate 3 (0, false))) ∧
    (let c := { someCopy with parts := [⟨0, 0, List.replicate 8 (1, false)⟩] };
      let s := copies c;
      s.copy 30 = some c ∧ s.engineHeld c.fn c.launch 0 .copy = false ∧ s.mayStart c = true ∧ (c.row 0).ahead ≠ [] ∧
      (c.row 0).done + (c.row 0).ahead.length = c.rbytes ∧ c.wrote = [] ∧ s.tick.copyOffset c c.didx c.dpitch 0 = .ok 0 ∧
      s.tick.probeStore c.party (c.dst + 0 + BitVec.ofNat 64 (c.row 0).done) 8 = .ok [(at_ 0x200, 8)]) ∧
    (copies { someCopy with st := .waitingPage 40 }).copy 30 = some { someCopy with st := .waitingPage 40 } ∧
    (stop (copies someCopy)).engineHeld someCopy.fn someCopy.launch 0 .copy = true ∧
    (let c := { someCopy with done := 8 };
      (copies c).copy 30 = some c ∧ c.st = .running ∧ c.total ≤ c.done ∧ (copies c).Clear (fun r => r.work == some 30) ∧
      c.owner = some (copies c).me.uid) ∧
    (let c := { someCopy with done := 8, owner := none, entry := some (5, 1) };
      (copies c).copy 30 = some c ∧ c.total ≤ c.done ∧ c.owner = none ∧ c.entry = some (5, 1)) := by
  refine ⟨⟨by decide +kernel, by decide +kernel, by decide +kernel, by decide +kernel, by decide +kernel, ⟨0, by decide +kernel⟩, by decide +kernel,
    by decide +kernel, by decide +kernel⟩, by decide +kernel, by decide +kernel, by decide +kernel, by unfold State.Clear; decide +kernel, by decide +kernel⟩

/-- `p` with queue 5. -/
def queue (q : Queue) : State := { p with queues := [(5, q)] }

theorem witness_HostRegisterWrites :
    (∀ en, let s := queue { Queue.reset with owner := 1, en := en };
      (s.queue 5).owner ≠ 2 ∧ (s.queue 5).owner = 1 ∧ (s.queue 5).qtail = 0 ∧ (s.queue 5).head = none ∧ (s.queue 5).en = en ∧
      (s.dies[(0 : Fin 8)]).status = .present ∧ (s.fnRec 1).flrDone = false ∧ (s.queue 5).ents = [] ∧ (s.fnRec 0).flrDone = false ∧
      ∀ c ∈ s.copies, c.stoppedOf 5 = false) ∧
    (1 ≤ (1 - 0 : BitVec 32).toNat ∧ (0x7FFFFFFF - 0 : BitVec 32).toNat < 2 ^ 31 ∧ 2 ^ 31 ≤ (0x80000000 - 0 : BitVec 32).toNat) ∧
    p.spaceBusy 1 5 = false ∧ ((p.modFn 1 (fun f => { f with flrDone := true })).fnRec 1).flrDone = true := by
  refine ⟨?_, by decide, by decide +kernel, by decide +kernel⟩
  intro en
  cases en <;> decide +kernel

/-- `p` with a walk in flight on its cluster, whose space and whose function's other space have these generations. -/
def fills (glob : Bool) (g0 g1 : BitVec 32) : State :=
  (p.modFn 1 (fun f => { f with sps := [(0, { (Assoc.get AsRec.reset f.sps 0) with gen := g0 }), (1, { AsRec.reset with gen := g1 })] })).modCluster 0
    (fun k => { k with walks := [⟨1, 0, 0x10000, [(0, 0), (1, 0)], some (false, if glob then 0x5005F else 0x5001F)⟩] })

theorem witness_TranslationsAndKeys :
    (let s := (one .glob 0 false 0).modFn 1 (fun f => { f with sps := [(0, { (Assoc.get AsRec.reset f.sps 0) with pending := [11] })] });
      ∃ u, u ∈ s.stores ∧ u.id ∈ (s.asRec 1 0).pending ∧ u.performed = false ∧ u.alive = true) ∧
    (∀ u ∈ p.stores, ¬(u.id ∈ (p.asRec 1 0).pending ∧ u.performed = false ∧ u.alive = true)) ∧ p.hostUp 1 = true ∧
    (∃ u, u ∈ (one .glob 0 false 0).stores ∧ u.fn = 1 ∧ u.performed = false ∧ u.alive = true ∧ (one .glob 0 false 0).spaceOf u = some 0 ∧
      (0x10001 : Word).toNat / 2 ^ 16 % 2 ^ 39 ≤ u.va.toNat / 2 ^ 16 % 2 ^ 39 ∧ u.va.toNat / 2 ^ 16 % 2 ^ 39 < 1 + (0x10001 : Word).toNat % 2 ^ 16) ∧
    (∀ w ∈ (p.clusters[(0 : Fin 64)]).walks, w.fn ≠ 1) ∧
    (∀ q ∈ [(false, (0 : BitVec 32), (5 : BitVec 32), true), (false, 1, 0, false), (true, 0, 0, true), (true, 0, 1, false)],
      let s := fills q.1 q.2.1 q.2.2.1;
      let w : Walk := ⟨1, 0, 0x10000, [(0, 0), (1, 0)], some (false, if q.1 then 0x5005F else 0x5001F)⟩;
      (s.clusters[(0 : Fin 64)]).walks = [] ++ w :: [] ∧ genIn w.gens 0 = 0 ∧ w.found.map (fun p => field p.2.toNat 6 1) = some (if q.1 then 1 else 0) ∧
      (q.1 = false → decide ((0 : BitVec 32) = (s.asRec 1 0).gen) = q.2.2.2) ∧
      (q.1 = true → ((s.fnRec 1).sps.all (fun p => genIn w.gens p.1 == p.2.gen)) = q.2.2.2)) ∧
    (∃ q, q ∈ p.keys ∧ q.slot = (1 : BitVec 11).toNat) ∧ (2 : BitVec 11) ≠ 0 ∧ ∀ q ∈ p.keys, q.slot ≠ (2 : BitVec 11).toNat := by
  refine ⟨⟨_, List.mem_singleton.2 rfl, by decide +kernel⟩, by decide +kernel, by decide +kernel, ⟨_, List.mem_singleton.2 rfl, by decide +kernel⟩,
    by decide +kernel, ?_, by decide +kernel⟩
  intro q h
  fin_cases h <;> decide +kernel

/-- An entry of 128 bytes: NEXT 0, SEQ, TYPE, and the bytes from offset 16 on. -/
def entryBytes (seq typ : Byte) (l : List Byte) : List Byte :=
  List.replicate 8 0 ++ [seq, 0, 0, 0, typ, 0, 0, 0] ++ l ++ List.replicate (112 - l.length) 0
/-- `bytes` with queue 5 enabled, its next entry at the bytes and one entry ahead. -/
def reads (bs : List Byte) : State := { bytes bs with queues := [(5, { Queue.reset with
  owner := 1, en := true, weight := 1, qbase := 0x10100, qtail := 1 })] }
/-- A launch packet of one thread: ENTRY 0x1_0000, cluster 0, T 1, G0 1, GMAX 8, GMIN 1. -/
def packetBytes : List Byte :=
  [0, 0, 1, 0, 0, 0, 0, 0] ++ List.replicate 16 0 ++ [1, 0, 0, 0, 0, 0, 0, 0] ++ [1, 0, 0, 0, 0, 0, 0, 0] ++ [1, 8, 1, 0, 0, 0, 0, 0]
/-- `queue` with one entry started. -/
def started (k : EntryKind) (done : Bool) (compl : Word) : State := queue { Queue.reset with
  owner := 1, en := true, weight := 1, qhead := 1, qtail := 1, qcompl := compl, ents := [⟨50, 1, k, true, done, false⟩] }

theorem witness_QueueEntries :
    (∀ q ∈ [(entryBytes 1 1 packetBytes, (1 : Nat)), (entryBytes 1 3 [0, 2, 1], 3), (entryBytes 1 2 (List.replicate 16 0 ++ [8]), 2)],
      let s := reads q.1;
      (s.queue 5).available = true ∧ (s.queue 5).head = none ∧ s.fnHeld (s.queue 5).owner = false ∧
      (s.nextRead 5 = .ok q.1 ∧ entryType q.1 = q.2) ∧ (q.2 ≠ 1 → s.chosenQueue = some 5)) ∧
    (reads (entryBytes 2 3 [])).nextRead 5 = .error 1 ∧ (reads (entryBytes 2 3 [])).queue 5 = (reads (entryBytes 1 1 packetBytes)).queue 5 ∧
    (queue { Queue.reset with owner := 1 }).queue 5 = { Queue.reset with owner := 1 } ∧
    ({ Queue.reset with owner := 1 } : Queue).available = false ∧
    (∀ a ∈ [(0x10200 : Word), 0x90200], let s := started (.wait a 0 0xFF 0) false 0;
      (∃ e, s.entry 50 = some (5, e) ∧ e.kind = .wait a 0 0xFF 0 ∧ e.done = false) ∧ s.fnHeld 1 = false) ∧
    p.frontLoad 1 (queueDie 5) 0x10200 8 = .ok (List.replicate 8 0) ∧ p.frontLoad 1 (queueDie 5) 0x90200 8 = .error .page ∧
    (∃ e, (started (.signal 0x10200 3 true) false 0).entry 50 = some (5, e) ∧ e.kind = .signal 0x10200 3 true ∧ e.done = false) ∧
    p.frontStore 1 (queueDie 5) 0x10200 8 = .ok (at_ 0x200) ∧ p.frontStore 1 (queueDie 5) 0x90200 8 = .error .page ∧ p.Canonical ∧
    (let s := started (.signal 0x10200 3 true) true 0x10300;
      (∃ e, s.entry 50 = some (5, e) ∧ e.done = true ∧
        ((s.queue 5).ents.takeWhile (fun d => d.done)).getLast? = some e) ∧ (s.queue 5).qcompl.toNat % 8 = 0 ∧
      s.frontStore 1 (queueDie 5) (s.queue 5).qcompl 8 = .ok (at_ 0x300) ∧ s.anyPoison (at_ 0x300).key 8 = false) ∧
    (p.anyPoison (at_ 0x200).key 8 = false ∧ (at_ 0x200).key % 8 = 0) ∧
    (let s := { started (.signal 0x10200 3 true) true 0x10200 with poison := [(at_ 0x200).key / 64] };
      s.frontStore 1 (queueDie 5) 0x10200 8 = .ok (at_ 0x200) ∧ s.anyPoison (at_ 0x200).key 8 = true) := by
  refine ⟨?_, by decide +kernel, by decide +kernel, by decide +kernel, by decide +kernel, ?_, by decide +kernel, by decide +kernel,
    ⟨_, rfl, by decide +kernel⟩, by decide +kernel, by decide +kernel, by unfold State.Canonical; decide +kernel,
    ⟨⟨_, rfl, by decide +kernel⟩, by decide +kernel, by decide +kernel, by decide +kernel⟩, by decide +kernel, by decide +kernel⟩
  · intro q h
    fin_cases h <;> decide +kernel
  · intro a h
    fin_cases h <;> exact ⟨⟨_, rfl, by decide +kernel⟩, by decide +kernel⟩

/-- The launch of `p`. -/
def l0 : Launch := ⟨1, 0, 1, 1, 0, probePacket, .accepted, 1, 0, 1, some 0, 0, [], [], 0, Budget.reset, false, []⟩
/-- `p` with its launch changed, queue 0, every cluster assigned to its function, and no other context. -/
def lau (q : Queue) (l : Launch) : State :=
  ({ p with queues := [(0, q)], launches := [l], others := [] } : State).modFn 1 (fun f => { f with clusters := BitVec.allOnes 64 })
/-- A queue whose head is that launch. -/
def qhead : Queue := { Queue.reset with owner := 1, en := true, weight := 1, qtail := 1, head := some ⟨1, 0x10200, false, true⟩ }
/-- `s` with every group id in use. -/
def full (s : State) : State := { s with groups := (List.range 4096).map (fun g => (g, ⟨1, 0, 1, 0⟩)) }
/-- The launch of `p` before its thread is placed: three threads, or co-scheduled ones. -/
def l3 (cosched : Bool) : Launch := { l0 with pk := { probePacket with t := 3, g0 := 1, mask := 6, cosched := cosched }, next := 0, lastCl := some 1 }

/-- No group is free in `full`. -/
theorem full_freeGroup (s : State) (die : Fin 8) : (full s).freeGroup die = none := by
  refine List.find?_eq_none.mpr fun g hg => ?_
  have h : g < 4096 := by
    simp only [List.mem_flatMap, List.mem_map, List.mem_range] at hg
    omega
  have : Assoc.has (full s).groups g = true := by
    simp only [Assoc.has, full, List.any_map, List.any_eq_true, List.mem_range]
    exact ⟨g, h, by simp⟩
  simp [this]

theorem witness_LaunchSteps :
    (let l := { l0 with stage := .waiting };
      (lau Queue.reset l).launch 1 = some l ∧ l.pk.energy = 0) ∧
    ((lau Queue.reset l0).launch 1 = some l0 ∧ l0.stage ≠ .waiting) ∧
    (∀ t ∈ [(0 : Nat), 1], let l := { l0 with stage := .admitted, pk := { probePacket with t := t } };
      let s := lau qhead l;
      s.launch 1 = some l ∧ (s.queue l.queue).head = some ⟨1, 0x10200, false, true⟩ ∧ s.chosenQueue = some l.queue ∧
      s.freeGroup (queueDie l.queue) = some 1) ∧
    (lau Queue.reset l0).chosenQueue ≠ some l0.queue ∧ (full (lau qhead l0)).freeGroup 0 = none ∧
    (let s := lau Queue.reset (l3 false);
      (l3 false).pk.cosched = false ∧ s.mayPlace (l3 false) = true ∧ (s.tryOrder (l3 false)).find? (fun c => s.fits (l3 false) c 1) = some 2) ∧
    (let l := { l3 false with pk := { (l3 false).pk with mask := 1 } };
      let s := lau Queue.reset l;
      l.pk.cosched = false ∧ ∀ cl ∈ s.tryOrder l, s.fits l cl 1 = false) ∧
    (let l := { l3 true with pk := { (l3 true).pk with t := 2, mask := 2 } };
      let s := lau Queue.reset l;
      l.pk.cosched = true ∧ s.mayPlace l = true ∧ s.fitsAll l = true ∧ (s.assigned l)[1]? = some 1) ∧
    (let l := { l3 true with pk := { (l3 true).pk with mask := 1 } };
      l.pk.cosched = true ∧ (lau Queue.reset l).fitsAll l = false) ∧
    (lau Queue.reset l0).launchOver l0 = false ∧
    (let l := { l0 with exited := 1 };
      let s := lau Queue.reset l;
      s.launch 1 = some l ∧ s.launchOver l = true ∧ s.workInFlight 1 = false ∧ s.Clear (fun r => r.ctx.any (s.ofLaunch 1))) ∧
    (lau Queue.reset l0).mayRelease 1 0 = false ∧ (lau Queue.reset l0).mayRelease 1 1 = true := by
  refine ⟨by decide +kernel, by decide +kernel, ?_, by decide +kernel, full_freeGroup _ _, by decide +kernel, by decide +kernel,
    by decide +kernel, by decide +kernel, by decide +kernel, by unfold State.Clear; decide +kernel, by decide +kernel, by decide +kernel⟩
  intro t h
  fin_cases h <;> decide +kernel

theorem witness_ChargesAndPeriods :
    (let picked := fun (c : Context) => decide (c.cl = 0 ∧ c.status = .running ∧ (0xF : BitVec 4).getLsbD c.slot.val = true);
      let after := fun s : State => s.mapContexts (fun c => if picked c then { c with vq := c.vq.dropWhile (fun e => e.left == 0) } else c);
      let ps := fun (s : State) (res : SharedRes) =>
        (after s).requesters 0 (fun c => (0xF : BitVec 4).getLsbD c.slot.val && c.vq.head?.any (fun e => e.res == some res && e.left != 0));
      ps p .loadStore = [] ∧ (ps asking .loadStore).map (fun c => (c.uid, c.vq)) = [(7, [⟨some .loadStore, 2⟩])] ∧
      ((ps asking .loadStore).map (fun c => c.slot)).Nodup ∧ (asking.context 7).isSome = true ∧ (asking.launch 1).isSome = true) ∧
    p.launch 1 = some l0 ∧ (p.launch 7 = none ∧ p.copy 7 = none) ∧
    (∀ o ∈ [some 1, none], let c := { someCopy with launch := o }; (copies c).launch 30 = none ∧ (copies c).copy 30 = some c) ∧
    (let toGo := fun d : Die => 65536 - d.time.toNat % 65536;
      let far := { p with dies := Vector.set p.dies 1 { p.dies[(1 : Fin 8)] with time := 9 } };
      ((p.dies[(0 : Fin 8)]).status = .present ∧ ∀ d : Fin 8, toGo p.dies[(0 : Fin 8)] ≤ toGo p.dies[d]) ∧
      ((far.dies[(1 : Fin 8)]).status = .present ∧ toGo far.dies[(1 : Fin 8)] < toGo far.dies[(0 : Fin 8)])) := by
  refine ⟨by decide +kernel, by decide +kernel, by decide +kernel, by decide +kernel, by decide +kernel⟩

/-- `lau` with the context of `p` changed. -/
def sw (l : Launch) (f : Context → Context) : State := (lau Queue.reset l).modMe f
/-- `bur` of a launch, its cluster at rest. -/
def swb (l : Launch) (f : Context → Context) (b : Option Nat) : State :=
  ((sw l f).modMe (fun c => { c with kind := .bureau })).modCluster 0 (fun k => { k with bureau := b, slots := Vector.replicate 4 none, lpart := Vector.replicate 8 LaneGroup.free })

theorem witness_ContextSwitches :
    (∀ w ∈ [CtxStatus.running, .waitingPage],
      let l := { l0 with preempted := true, pk := { probePacket with cosched := true } };
      let s := sw l (fun c => { c with status := w });
      s.context 2 = some s.me ∧ s.launch s.me.launch = some l ∧ l.pk.cosched = true ∧ s.me.inPlace = true ∧
      (s.contexts.filter (fun d => d.launch == l.id && d.inPlace)).map (fun d => (d.kind, s.maySwap d)) = [(.thread, w == .running)]) ∧
    (let s := sw l0 id;
      s.context 2 = some s.me ∧ s.launch s.me.launch = some l0 ∧ l0.pk.cosched = false ∧ s.me.status = .running ∧ l0.preempted = false) ∧
    (let l := { l0 with preempted := true };
      let s := sw l id;
      s.context 2 = some s.me ∧ s.launch s.me.launch = some l ∧ l.pk.cosched = false ∧ s.me.kind = .thread ∧ s.published s.me = [] ∧
      s.Clear (fun r => r.ctx == some 2)) ∧
    (let s := (sw l0 (fun c => { c with status := .out, groups := 0x0F })).modCluster 0 (fun k =>
        { k with slots := Vector.replicate 4 none, lpart := Vector.replicate 8 LaneGroup.free });
      s.context 2 = some s.me ∧ s.launch s.me.launch = some l0 ∧ s.me.status = .out ∧ s.me.kind = .thread ∧ s.mayResume l0 s.me = true ∧
      (∀ v ∈ l0.spilled, v.cl ≠ s.me.cl) ∧ ((s.clusters[s.me.cl]).slots)[(1 : Fin 4)] = none ∧
      groupCount s.me.groups ≤ (s.clusters[s.me.cl]).unowned.length) ∧
    (let l := { l0 with preempted := true };
      let s := swb l id (some 2);
      s.context 2 = some s.me ∧ s.launch s.me.launch = some l ∧ s.me.kind = .bureau ∧ s.maySwap s.me = true ∧
      (s.clusters[s.me.cl]).freeSlots ≠ [] ∧ 4 ≤ (s.clusters[s.me.cl]).unowned.length ∧ s.Clear (fun r => r.ctx == some 2)) ∧
    (swb l0 id (some 2)).launch 1 = some l0 ∧
    (let v : BureauSave := ⟨0x100000, false, [], Vector.replicate 2 Latch.reset, [], [], Vector.replicate 4 ⟨none, none⟩, [], 0⟩;
      let s := swb l0 (fun c => { c with status := .out, saved := some v }) none;
      s.context 2 = some s.me ∧ s.launch s.me.launch = some l0 ∧ s.me.kind = .bureau ∧ s.me.status = .out ∧ s.mayResume l0 s.me = true ∧
      s.me.saved = some v ∧ v.area = (0x100000 : BitVec 52).toNat ∧ (s.clusters[s.me.cl]).bureau = none ∧
      (s.clusters[s.me.cl]).freeSlots ≠ [] ∧ 4 ≤ (s.clusters[s.me.cl]).unowned.length) := by
  refine ⟨?_, by decide +kernel, by unfold State.Clear; decide +kernel, by decide +kernel, by unfold State.Clear; decide +kernel,
    by decide +kernel, by decide +kernel⟩
  intro w h
  fin_cases h <;> decide +kernel

theorem witness_FirmwareSteps :
    (p.dies[(1 : Fin 8)]).status ≠ .resetting ∧
    (({ p with dies := Vector.set p.dies 1 { p.dies[(1 : Fin 8)] with status := .resetting } } : State).dies[(1 : Fin 8)]).status = .resetting ∧
    (p.fw.isaver.extractLsb' 16 16 ++ ((0 : BitVec 8) ++ (0 : BitVec 8))).toNat = p.fw.isaver.toNat ∧
    p.fw.fused.toNat ≤ (0 : BitVec 32).toNat ∧
    (let s := { p with fw := { p.fw with isaver := 0x00030100, fused := 2 } };
      (s.fw.isaver.extractLsb' 16 16 ++ ((0 : BitVec 8) ++ (9 : BitVec 8))).toNat < s.fw.isaver.toNat ∧ (1 : BitVec 32).toNat < s.fw.fused.toNat) ∧
    (1 : Fin 256) ≠ 0 ∧ dieOfCl 8 = 1 ∧ (isPad (padKey 8 0) = true ∧ padCluster (padKey 8 0) / 8 = 1) ∧ 1024 / 1024 = 1 ∧
    p.Canonical ∧ (0xFFFFFFFFFFFE : BitVec 48).toNat + [(1 : Byte), 2].length ≤ 2 ^ 48 := by
  refine ⟨by decide +kernel, by decide +kernel, by decide +kernel, by decide +kernel, by decide +kernel, by decide, by decide +kernel,
    by decide +kernel, by decide, by unfold State.Canonical; decide +kernel, by decide⟩

/-- `p` with host-tool inputs: a source, an object that is none, a set of objects. -/
def tool : State := { p with tools := ⟨["ADDI x5, x0, 1\n", "BAD\n"], [[]], [[0], []], [], []⟩ }

theorem witness_HostTools :
    p.tools.sources.length ≤ 0 ∧ p.tools.links.length ≤ 0 ∧ p.tools.objects.length ≤ 0 ∧
    tool.tools.sources[1]? = some "BAD\n" ∧ tool.tools.links[0]? = some [0] ∧ tool.tools.links[1]? = some [] ∧
    tool.tools.objects[0]? = some [] ∧ Ocsor.read [] = none ∧ (tool.tools.objects[0]?).bind Ocsor.read = none := by
  decide +kernel


/-- `p` with an object of one instruction among the tools. -/
def obj1 : State := { p with tools := { tool.tools with objects := match Fjas.assemble "ADDI x5, x0, 1\n".toList with | .ok b => [b] | .error _ => [] } }
theorem witness_HostTools_results :
    (match Fjas.assemble "ADDI x5, x0, 1\n".toList with | .ok b => (Ocsor.read b).isSome | .error _ => false) = true ∧
    (match Fjas.assemble "BAD\n".toList with | .ok _ => none | .error k => some k) = some 1 ∧
    (((obj1.tools.objects[0]?).bind Ocsor.read).map (fun o => (Ocsor.link [o]).toOption.isSome) = some true) ∧
    ((obj1.tools.objects[0]?).map (fun b => ((Ocsor.load obj1.fw.isaver (2 * 2 ^ 16) b).toOption.map (fun l => (l.length, (obj1.placeObject 1 0 0x60 l).isSome)))) =
      some (some (1, true))) ∧
    ((obj1.tools.objects[0]?).map (fun b => ((Ocsor.load obj1.fw.isaver 0x10000 b).toOption.map (fun l => (obj1.placeObject 1 0 0x60 l).isSome))) =
      some (some false)) := by decide +kernel
/-! ### Single steps from the worked examples of the spec -/

/-- The next state of an instruction, or `p` where it gives none. -/
def nx (o : Out) : State := match o with | .next t => t | _ => p
/-- A register whose 32-bit elements from 0 on are those given. -/
def elts (l : List Nat) : BitVec 16384 := BitVec.ofNat 16384 ((l.zipIdx.map (fun q => q.1 * 2 ^ (256 * q.2))).sum)

/-- 13, below R188: DIV and REM of the most negative number by −1. -/
theorem test_div_overflow :
    (nx (exec (.div 7 5 6 0) (xs 0x8000000000000000 (-1)))).me.x[7] = 0x7FFFFFFFFFFFFFFF ∧
    (nx (exec (.rem 7 5 6 0) (xs 0x8000000000000000 (-1)))).me.x[7] = 0xFFFFFFFFFFFFFFFF := by decide +kernel

/-- 13, below R188: DIV and REM of −5, DIVN and REMN of 5, by 0. -/
theorem test_div_by_zero :
    (nx (exec (.div 7 5 6 0) (xs (-5) 0))).me.x[7] = 0x8000000000000000 ∧ (nx (exec (.rem 7 5 6 0) (xs (-5) 0))).me.x[7] = -5 ∧
    (nx (exec (.divn 7 5 6 0) (xs 5 0))).me.x[7] = 0xFFFFFFFFFFFFFFFF ∧ (nx (exec (.remn 7 5 6 0) (xs 5 0))).me.x[7] = 5 := by
  decide +kernel

/-- 13, below R190: LIH shifts in sixteen bits. -/
theorem test_lih : (nx (exec (.lih 5 0xCDEF 0) (xs 0x0123456789AB 0))).me.x[5] = 0x0123456789ABCDEF := by decide +kernel

/-- 13, below R193: FCLASS of +1.0, −0, −∞ and the default NaN. -/
theorem test_fclass :
    (nx (exec (.fclass .f32 7 5 0) (xs 0x3F800000 0))).me.x[7] = 2 ∧ (nx (exec (.fclass .f32 7 5 0) (xs 0x80000000 0))).me.x[7] = 8 ∧
    (nx (exec (.fclass .f32 7 5 0) (xs 0xFF800000 0))).me.x[7] = 0xB ∧ (nx (exec (.fclass .f32 7 5 0) (xs 0x7FC00000 0))).me.x[7] = 4 := by
  decide +kernel

/-- 13, the call example: CALLI to `CMARK 5` leaves its return address in x1 and goes on at the mark. -/
theorem test_calli :
    let s := (State.reset.withFetchWord 32 0x00050211).modMe (fun c => { c with pc := 0x20000, x := c.x.set 6 0x10000 });
    (nx (exec (.calli 1 6 5) s)).me.x[1] = 0x20004 ∧ (nx (exec (.calli 1 6 5) s)).me.pc = 0x10000 := by decide +kernel

/-- Four F32 elements 2^24, 1, 1, 1 in v1 and the seed +0 in v5 (14 R225). -/
def four : State := (vec 0x00A 4).modMe (fun c => { c with vec := { c.vec with
  v := c.vec.v.set 1 (elts [0x4B800000, 0x3F800000, 0x3F800000, 0x3F800000]) } })

/-- 14, below R225: in index order the sum rounds at each step. -/
theorem test_vfred_o :
    let t := nx (exec (.vfredO 4 1 5 0) four);
    t.me.vec.elem (vw .f32 1 false 0 4) 4 32 0 = 0x4B800000 ∧ t.me.flags.fx[4] = 1 := by decide +kernel

/-- 14, below R225: as a tree it keeps both ones. -/
theorem test_vfred_t :
    let t := nx (exec (.vfredT 4 1 5 0) four);
    t.me.vec.elem (vw .f32 1 false 0 4) 4 32 0 = 0x4B800001 ∧ t.me.flags.fx[4] = 0 := by decide +kernel

/-- 03, below R48: F32 to E2M1 with a computed scale and X = 0x34. -/
theorem test_vfcvt_computed_scale :
    let s := (vec 0x10E 16).modMe (fun c => { c with vec := { c.vec with
      v := c.vec.v.set 8 (elts [0x3E99999A, 0x40A00000, 0x41500000, 0xC1A00000, 0x4039999A, 0x40200000])
      sh := c.vec.sh.set 4 (BitVec.ofNat 8192 (0x347F + (c.vec.sh[4]).toNat / 2 ^ 32 * 2 ^ 32)) } });
    let t := nx (exec (.vfcvtFrom true 10 4 8 0 0) s);
    let v := vw .e2m1 1 false 16 16;
    (List.range 7).map (fun e => t.me.vec.elem v 4 4 e) = [0, 2, 5, 14, 8, 1, 0] ∧
    (t.me.vec.desc v 4 0).toNat % 2 ^ 17 = 0x3481 ∧ t.me.flags.ff = 0x10 ∧ t.me.flags.fx[4] = 0 := by decide +kernel

/-- The negabinary table with its entry (cM, y = 0) left invalid, in slot 0; v1 = v2 = [0b110, 0b1] (17, Negabinary addition). -/
def nega : State := (hand.modMe (fun c => { c with vec := { c.vec with vtype := 0x011, vl := 2 } })).modMe (fun c => { c with
  vec := { c.vec with
    v := (c.vec.v.set 1 (elts [6, 1])).set 2 (elts [6, 1])
    gt := c.vec.gt.set 0 (some ⟨1, true, false, false, 0, 3, 8, [0, 0x0141, 0x0289] ++ List.replicate 61 0,
      [0x8000, 0x8001, 0x8001, 0x8010, 0x8001, 0x8010, 0x8010, 0x8011, 0, 0x8000, 0x8000, 0x8001]⟩) } })

/-- 17, Negabinary addition: element 0 is complete, element 1 traps GRAVE at its second digit. -/
theorem test_grun_trap :
    let t := nx (exec (.grun 3 1 2 0 0) nega);
    t.me.vec.elem (vw .d1 1 false 0 2) 3 64 0 = 4 ∧ t.me.vec.elem (vw .d1 1 false 0 2) 3 64 1 = 0 ∧ t.me.vec.vbeg = 1 ∧
    t.me.trap.code = 8 ∧ t.me.trap.tval = 1 ∧ t.me.trap.gfault = 0x01002 ∧ t.me.pc = 0x20000 := by decide +kernel

/-- 17, Negabinary addition: the handler's GSET makes the entry valid. -/
theorem test_gset :
    let s := nega.modMe (fun c => { c with x := (c.x.set 7 8).set 8 0x8009 });
    ((nx (exec (.gset 0 7 8) s)).me.vec.gt[(0 : Fin 4)]).map (fun g => g.entry[8]?) = some (some 0x8009) := by decide +kernel

/-- 06, the physical address example: its home is D5. -/
theorem test_home : homeOf 0x005312345E00 = 5 := by decide +kernel

/-- 13 R194, 10 R139: a load of the thread reads what its store left. -/
theorem test_store_load :
    let s := (xs 0x10100 0x1122334455667788);
    ((nx (exec (.ld .i16 7 5 3 0) (nx (exec (.st .w64 6 5 0 0) s)))).me.x[7]) = 0x1122 := by decide +kernel

/-- The first instruction after reset runs: ADDI x0, x0, 0. -/
theorem test_first_step :
    (match step (State.reset.withFetchWord 32 0x00000021) with | .next s => s.me.pc == 0x10004 | _ => false) = true := by
  decide +kernel

end Sys2Proof.Tests
end

section
/-! PROOFS. 03 Number formats: integer division and remainder (R36), and rounding of representable values (R37, R39). -/

namespace Sys2Proof.Machine

/-! ### Integer division and remainder (03 R36) -/

theorem intMax_signed (w : Nat) : intMax true w = 2 ^ (w - 1) - 1 := by simp [intMax]
theorem intMin_signed (w : Nat) : intMin true w = -2 ^ (w - 1) := by simp [intMin]
theorem intMax_unsigned (w : Nat) : intMax false w = 2 ^ w - 1 := by simp [intMax]

/-- Of the dividends of a two's complement format, only the least over −1 has a quotient past the greatest value. -/
theorem lt_tdiv_iff_of_range {b p q : Int} (hlo : -b ≤ p) (hhi : p ≤ b - 1) : b - 1 < p.tdiv q ↔ p = -b ∧ q = -1 := by
  constructor
  · intro h
    rcases Int.le_total 0 p with hp | hp
    · have hle := Int.tdiv_le_self q hp
      omega
    · have hneg : (-p).tdiv (-q) = p.tdiv q := Int.neg_tdiv_neg p q
      have hle : (-p).tdiv (-q) ≤ -p := Int.tdiv_le_self (-q) (by omega)
      have hpos : 0 < -q := by
        by_contra hq
        have hnonpos : (-p).tdiv (-q) ≤ 0 := Int.tdiv_nonpos_of_nonneg_of_nonpos (by omega) (by omega)
        omega
      have hone : -q = 1 := by
        by_contra hq
        have hlt : (-p) / (-q) < -p := Int.ediv_lt_self_of_pos_of_ne_one (by omega) hq
        rw [← Int.tdiv_eq_ediv_of_nonneg (by omega)] at hlt
        omega
      omega
  · rintro ⟨rfl, rfl⟩
    simp

/-- The quotient of an I format is cut off only for the least value over −1. -/
theorem divInt_signed {w : Nat} {p : Int} (q : Int) (hlo : -2 ^ (w - 1) ≤ p) (hhi : p ≤ 2 ^ (w - 1) - 1) :
    divInt true w p q = if q = 0 then (if 0 ≤ p then 2 ^ (w - 1) - 1 else -2 ^ (w - 1))
      else if p = -2 ^ (w - 1) ∧ q = -1 then 2 ^ (w - 1) - 1 else p.tdiv q := by
  have key := lt_tdiv_iff_of_range (q := q) hlo hhi
  rw [divInt, intMin_signed, intMax_signed]
  by_cases hq : q = 0
  · simp only [hq, if_true]
    split <;> split <;> omega
  · simp only [hq, if_false, ← key]
    split <;> omega

theorem remInt_signed {w : Nat} {p : Int} (q : Int) (hlo : -2 ^ (w - 1) ≤ p) (hhi : p ≤ 2 ^ (w - 1) - 1) :
    remInt true w p q = if q = 0 then p else if p = -2 ^ (w - 1) ∧ q = -1 then -1 else p - q * p.tdiv q := by
  simp only [remInt, intMax_signed, gt_iff_lt, lt_tdiv_iff_of_range hlo hhi, Int.tmod_def]

theorem divInt_unsigned {w : Nat} {p : Int} (q : Int) (hp : 0 ≤ p) (hhi : p < 2 ^ w) :
    divInt false w p q = if q = 0 then 2 ^ w - 1 else p / q := by
  have hle := Int.tdiv_le_self q hp
  rw [divInt, intMax_unsigned, if_neg (Int.not_lt.mpr hp), min_eq_left (by omega), Int.tdiv_eq_ediv_of_nonneg hp]

theorem remInt_unsigned {w : Nat} {p : Int} (q : Int) (hp : 0 ≤ p) (hhi : p < 2 ^ w) :
    remInt false w p q = if q = 0 then p else p - q * (p / q) := by
  have hle := Int.tdiv_le_self q hp
  rw [remInt, intMax_unsigned, if_neg (c := p.tdiv q > _) (by omega), Int.tmod_def, Int.tdiv_eq_ediv_of_nonneg hp]

/-! The integers of two words, their quotient and remainder taken by R36, are those of the word operations. -/

section Words
variable (x y : Word)

theorem toInt_eq_least_iff : x.toInt = -2 ^ 63 ↔ x = 0x8000000000000000 := BitVec.toInt_inj (y := 0x8000000000000000)
theorem toInt_eq_neg_one_iff : x.toInt = -1 ↔ x = -1 := BitVec.toInt_inj (y := -1)
theorem toInt_eq_zero_iff : x.toInt = 0 ↔ x = 0 := BitVec.toInt_inj (y := 0)
theorem toNat_eq_zero_iff : (x.toNat : Int) = 0 ↔ x = 0 := by simp [BitVec.toNat_eq]

theorem wordOfInt_divInt_signed : wordOfInt (divInt true 64 x.toInt y.toInt) =
    if y = 0 then (if x.toInt < 0 then 0x8000000000000000 else 0x7FFFFFFFFFFFFFFF)
    else if x = 0x8000000000000000 ∧ y = -1 then 0x7FFFFFFFFFFFFFFF else x.sdiv y := by
  rw [divInt_signed _ (BitVec.le_toInt x) (Int.le_sub_one_of_lt BitVec.toInt_lt)]
  simp only [toInt_eq_least_iff, toInt_eq_neg_one_iff, toInt_eq_zero_iff, ← Int.not_lt, ite_not, wordOfInt, Nat.add_one_sub_one]
  split
  · split <;> rfl
  · split
    · rfl
    · next h =>
      have hne : x ≠ BitVec.intMin 64 ∨ y ≠ -1#64 := not_and_or.mp h
      rw [← BitVec.toInt_sdiv_of_ne_or_ne x y hne, BitVec.ofInt_toInt]

theorem wordOfInt_remInt_signed : wordOfInt (remInt true 64 x.toInt y.toInt) =
    if y = 0 then x else if x = 0x8000000000000000 ∧ y = -1 then -1 else x.srem y := by
  rw [remInt_signed _ (BitVec.le_toInt x) (Int.le_sub_one_of_lt BitVec.toInt_lt), ← Int.tmod_def, ← BitVec.toInt_srem]
  simp only [toInt_eq_least_iff, toInt_eq_neg_one_iff, toInt_eq_zero_iff, wordOfInt, Nat.add_one_sub_one,
    apply_ite (BitVec.ofInt 64), BitVec.ofInt_toInt]
  rfl

theorem wordOfInt_divInt_unsigned : wordOfInt (divInt false 64 x.toNat y.toNat) =
    if y = 0 then BitVec.allOnes 64 else x.udiv y := by
  rw [divInt_unsigned _ (Int.natCast_nonneg _) (by exact_mod_cast x.isLt)]
  simp only [toNat_eq_zero_iff, wordOfInt, apply_ite (BitVec.ofInt 64), ← Int.natCast_ediv, BitVec.ofInt_natCast]
  rw [← BitVec.udiv_def]
  rfl

theorem wordOfInt_remInt_unsigned : wordOfInt (remInt false 64 x.toNat y.toNat) =
    if y = 0 then x else x.umod y := by
  rw [remInt_unsigned _ (Int.natCast_nonneg _) (by exact_mod_cast x.isLt), ← Int.emod_def]
  simp only [toNat_eq_zero_iff, wordOfInt, apply_ite (BitVec.ofInt 64), ← Int.natCast_emod, BitVec.ofInt_natCast, BitVec.ofNat_toNat,
    BitVec.setWidth_eq]
  rw [← BitVec.umod_def]
  rfl

end Words

section Exec
variable {s : State} {a b : XReg} (hr : s.ReadyX [a, b]) (d : XReg) (st : Stall)
include hr

theorem exec_div_ready : exec (.div d a b st) s =
    .next (s.scalarNext d (wordOfInt (divInt true 64 (s.rx a).toInt (s.rx b).toInt)) 14 st.val 4) := alu_ready hr ..

theorem exec_rem_ready : exec (.rem d a b st) s =
    .next (s.scalarNext d (wordOfInt (remInt true 64 (s.rx a).toInt (s.rx b).toInt)) 14 st.val 4) := alu_ready hr ..

theorem exec_divn_ready : exec (.divn d a b st) s =
    .next (s.scalarNext d (wordOfInt (divInt false 64 (s.rx a).toNat (s.rx b).toNat)) 14 st.val 4) := alu_ready hr ..

theorem exec_remn_ready : exec (.remn d a b st) s =
    .next (s.scalarNext d (wordOfInt (remInt false 64 (s.rx a).toNat (s.rx b).toNat)) 14 st.val 4) := alu_ready hr ..

end Exec

/-- Settles O9: a signed quotient leaves its format only for the least value over −1; in 64 bits the values are those of words. -/
theorem divisionForms : Obligations.DivisionForms := by
  unfold Obligations.DivisionForms
  intro s d a b st w p q _
  refine ⟨fun hlo hhi => ⟨divInt_signed q hlo hhi, remInt_signed q hlo hhi⟩,
    fun hp hhi _ => ⟨divInt_unsigned q hp hhi, remInt_unsigned q hp hhi⟩, fun hr => ⟨?_, ?_, ?_, ?_⟩⟩
  · rw [← wordOfInt_divInt_signed]; exact exec_div_ready hr d st
  · rw [← wordOfInt_remInt_signed]; exact exec_rem_ready hr d st
  · rw [← wordOfInt_divInt_unsigned]; exact exec_divn_ready hr d st
  · rw [← wordOfInt_remInt_unsigned]; exact exec_remn_ready hr d st

/-! ### Rounding a representable value (03 R37, R39) -/

/-- m × 2^e is a finite value of the format with last place e: a normal significand, or a smaller one at the least exponent. -/
structure FloatFmt.Representable (f : FloatFmt) (m : Nat) (e : Int) : Prop where
  emin_le : f.emin ≤ e
  le_emax : e ≤ f.emax
  normal_or_least : 2 ^ f.mbits ≤ m ∨ e = f.emin
  fits : m < 2 ^ (f.mbits + 1)
  le_greatest : m ≤ f.maxSig * 2 ^ (f.emax - e).toNat

theorem roundAt_of_le {t e : Int} (h : t ≤ e) (rm : RMode) (neg : Bool) (m : Nat) :
    roundAt rm neg m e t = (m * 2 ^ (e - t).toNat, false) := if_pos h

/-- The last place that rounding gives a representable value is the value's own. -/
theorem FloatFmt.Representable.lastPlace {f : FloatFmt} {m : Nat} {e : Int} (h : f.Representable m e) (hm : m ≠ 0) :
    max ((m.log2 : Int) + e - f.mbits) f.emin = e := by
  have hlog : m.log2 < f.mbits + 1 := (Nat.log2_lt hm).mpr h.fits
  have hmin := h.emin_le
  rcases h.normal_or_least with hn | he
  · have : f.mbits ≤ m.log2 := (Nat.le_log2 hm).mpr hn
    omega
  · omega

/-- Rounding a representable value is exact and raises no flag: its stored fields follow from its last place. -/
theorem FloatFmt.Representable.roundFin {f : FloatFmt} {m : Nat} {e : Int} (h : f.Representable m e) (rm : RMode) (sat neg : Bool) :
    f.roundFin rm sat neg m e = (f.signBit neg + (e - f.emin).toNat * 2 ^ f.mbits + m, 0) := by
  by_cases hm : m = 0
  · have he : e = f.emin := by
      rcases h.normal_or_least with hn | he
      · have := Nat.two_pow_pos f.mbits
        omega
      · exact he
    simp [FloatFmt.roundFin, hm, he]
  · have hbig : ¬ f.emax < e := Int.not_lt.mpr h.le_emax
    simp [FloatFmt.roundFin, hm, h.lastPlace hm, roundAt_of_le, hbig, h.le_greatest]

/-- The fields of a finite pattern of a format with infinities (R37): the exponent field `x` is not the greatest, and the last
place follows from it; a nonzero one adds the leading bit. -/
theorem FloatFmt.decode_fin {f : FloatFmt} (hf : f.noInf = false) {c : Nat} {n : Bool} {m : Nat} {e : Int}
    (h : f.decode c = .fin n m e) :
    let x := c / 2 ^ f.mbits % 2 ^ f.ebits
    n = (c / 2 ^ (f.ebits + f.mbits) % 2 == 1) ∧ x ≠ 2 ^ f.ebits - 1 ∧
    ((x = 0 ∧ m = c % 2 ^ f.mbits ∧ e = f.emin) ∨
     (0 < x ∧ m = 2 ^ f.mbits + c % 2 ^ f.mbits ∧ e = f.emin + (x - 1))) := by
  simp only [FloatFmt.decode, hf, Bool.false_eq_true, if_false] at h
  split at h
  · split at h <;> cases h
  · next htop =>
    split at h
    · next hx =>
      cases h
      exact ⟨rfl, htop, .inl ⟨hx, rfl, rfl⟩⟩
    · next hx =>
      cases h
      exact ⟨rfl, htop, .inr ⟨Nat.pos_of_ne_zero hx, rfl, rfl⟩⟩

/-- The greatest finite exponent lies 2^ebits − 3 above that of the subnormals. -/
theorem FloatFmt.emax_eq {f : FloatFmt} (hf : f.noInf = false) : f.emax = f.emin + ((2 ^ f.ebits - 2 : Nat) - 1 : Int) := by
  simp only [FloatFmt.emax, FloatFmt.emin, hf, Bool.false_eq_true, if_false]
  omega

theorem FloatFmt.representable_of_decode {f : FloatFmt} (hf : f.noInf = false) (he : 2 ≤ f.ebits) {c : Nat} {n : Bool} {m : Nat}
    {e : Int} (h : f.decode c = .fin n m e) : f.Representable m e := by
  obtain ⟨-, htop, hx⟩ := FloatFmt.decode_fin hf h
  have hxlt : c / 2 ^ f.mbits % 2 ^ f.ebits < 2 ^ f.ebits := Nat.mod_lt _ (Nat.two_pow_pos _)
  have hfrac : c % 2 ^ f.mbits < 2 ^ f.mbits := Nat.mod_lt _ (Nat.two_pow_pos _)
  have hpow : 2 ^ 2 ≤ 2 ^ f.ebits := Nat.pow_le_pow_right (by decide) he
  have hmax := FloatFmt.emax_eq hf
  have hfits : m < 2 ^ (f.mbits + 1) := by
    rw [Nat.pow_succ]
    omega
  refine ⟨by omega, by omega, by omega, hfits, ?_⟩
  calc m ≤ f.maxSig := by simp only [FloatFmt.maxSig, hf, Bool.false_eq_true, if_false]; omega
    _ ≤ f.maxSig * 2 ^ (f.emax - e).toNat := Nat.le_mul_of_pos_right _ (Nat.two_pow_pos _)

/-- A pattern is its sign bit, its exponent field and its fraction. -/
theorem FloatFmt.fields_join (f : FloatFmt) {c : Nat} (hc : c < 2 ^ f.width) :
    f.signBit (c / 2 ^ (f.ebits + f.mbits) % 2 == 1) + c / 2 ^ f.mbits % 2 ^ f.ebits * 2 ^ f.mbits + c % 2 ^ f.mbits = c := by
  have hfrac := Nat.div_add_mod' c (2 ^ f.mbits)
  have hexp := Nat.div_add_mod' (c / 2 ^ f.mbits) (2 ^ f.ebits)
  have hsign : c / 2 ^ (f.ebits + f.mbits) < 2 := Nat.div_lt_of_lt_mul (by rwa [← Nat.pow_succ])
  have hbit : f.signBit (c / 2 ^ (f.ebits + f.mbits) % 2 == 1) = c / 2 ^ (f.ebits + f.mbits) * 2 ^ (f.ebits + f.mbits) := by
    rw [Nat.mod_eq_of_lt hsign, FloatFmt.signBit]
    interval_cases c / 2 ^ (f.ebits + f.mbits) <;> simp
  have hdiv : c / 2 ^ f.mbits / 2 ^ f.ebits = c / 2 ^ (f.ebits + f.mbits) := by
    rw [Nat.div_div_eq_div_mul, ← Nat.pow_add, Nat.add_comm]
  calc _ = (c / 2 ^ f.mbits / 2 ^ f.ebits * 2 ^ f.ebits + c / 2 ^ f.mbits % 2 ^ f.ebits) * 2 ^ f.mbits + c % 2 ^ f.mbits := by
        rw [hbit, hdiv, Nat.pow_add]; ring
    _ = c := by rw [hexp, hfrac]

/-- In a binary format with infinities, rounding what a finite pattern denotes gives the pattern back without a flag. -/
theorem FloatFmt.round_decode {f : FloatFmt} (hf : f.noInf = false) (he : 2 ≤ f.ebits) (rm : RMode) (sat : Bool) {c : Nat}
    (hc : c < 2 ^ f.width) {n : Bool} {m : Nat} {e : Int} (h : f.decode c = .fin n m e) :
    f.round rm sat (f.decode c) = (c, 0) := by
  have hround : f.round rm sat (f.decode c) = f.roundFin rm sat n m e := by rw [h, FloatFmt.round]
  rw [hround, (FloatFmt.representable_of_decode hf he h).roundFin]
  have hjoin := f.fields_join hc
  obtain ⟨rfl, -, ⟨hx, rfl, rfl⟩ | ⟨hx, rfl, rfl⟩⟩ := FloatFmt.decode_fin hf h
  · rw [hx] at hjoin
    simpa using hjoin
  · generalize c / 2 ^ f.mbits % 2 ^ f.ebits = x at hx hjoin ⊢
    have hexp : (f.emin + ((x : Int) - 1) - f.emin).toNat = x - 1 := by omega
    have hlead : (x - 1) * 2 ^ f.mbits + 2 ^ f.mbits = x * 2 ^ f.mbits := by
      rw [← Nat.succ_mul, Nat.succ_eq_add_one, Nat.sub_add_cancel hx]
    rw [hexp]
    exact Prod.ext (by dsimp only; omega) rfl

theorem fpFmt_noInf (f : FpFmt) : (fpFmt f).noInf = false := by cases f <;> rfl
theorem two_le_fpFmt_ebits (f : FpFmt) : 2 ≤ (fpFmt f).ebits := by cases f <;> decide

/-- Settles O12: the last place that rounding takes for the value of a finite pattern is the pattern's own, so nothing is cut off. -/
theorem roundingKeepsRepresentable : Obligations.RoundingKeepsRepresentable := by
  unfold Obligations.RoundingKeepsRepresentable
  rintro f rm sat c hc ⟨n, m, e, h⟩
  exact FloatFmt.round_decode (fpFmt_noInf f) (two_le_fpFmt_ebits f) rm sat hc h

end Sys2Proof.Machine
end

section
/-! PROOFS. 04 Algebra products: window sums (R61, R62), their accumulation into pairs (R63, R65), and the completion of the entries
of the matrix queue (16 R263, R268, R271, R274). -/

namespace Sys2Proof.Machine

/-! ### The window of a multiply (04 R61, R62) -/

/-- The exponent of a finite value's leading bit; a zero has none. -/
def Val.leading? : Val → Option Int
  | .fin _ m e => if m = 0 then none else some ((m.log2 : Int) + e)
  | _ => none

theorem Val.leading?_eq_some_iff {v : Val} {k : Int} :
    v.leading? = some k ↔ ∃ n m e, v = .fin n m e ∧ m ≠ 0 ∧ (m.log2 : Int) + e = k := by
  cases v <;> simp [Val.leading?]

/-- The exponent of the largest term is the greatest of those that the terms have. -/
theorem topExp_eq_max? (l : List Val) : topExp l = (l.filterMap Val.leading?).max? := by
  unfold topExp
  rw [← List.nil_append (l.filterMap _), ← Option.toList_none]
  generalize (none : Option Int) = b
  induction l generalizing b with
  | nil => cases b <;> rfl
  | cons v l ih =>
    rw [List.foldl_cons, ih]
    rcases v with s | n | ⟨n, m, e⟩
    · rfl
    · rfl
    · by_cases hm : m = 0
      · simp [Val.leading?, hm]
      · cases b with
        | none => simp [Val.leading?, hm]
        | some j =>
          simp only [Val.leading?, hm, if_false, Option.toList_some, List.singleton_append, List.filterMap_cons, List.max?_cons',
            List.foldl_cons]

theorem topExp_eq_some_iff {l : List Val} {top : Int} :
    topExp l = some top ↔ (∃ v ∈ l, v.leading? = some top) ∧ ∀ v ∈ l, ∀ k, v.leading? = some k → k ≤ top := by
  rw [topExp_eq_max?, List.max?_eq_some_iff]
  simp only [List.mem_filterMap, forall_exists_index, and_imp]
  exact and_congr_right fun _ => ⟨fun h v hv k hk => h k v hv hk, fun h k v hv hk => h v hv k hk⟩

theorem topExp_eq_none_of_zeros {l : List Val} (h : ∀ x ∈ l, ∃ n e, x = .fin n 0 e) : topExp l = none := by
  rw [topExp_eq_max?, List.max?_eq_none_iff, List.filterMap_eq_nil_iff]
  intro x hx
  obtain ⟨n, e, rfl⟩ := h x hx
  rfl

theorem topExp_perm {l l' : List Val} (h : l.Perm l') : topExp l = topExp l' := by
  ext top
  simp only [topExp_eq_some_iff, h.mem_iff]

/-- The terms of a window added up in any order: the integer sum of what truncation leaves, and whether it changed any. -/
theorem foldl_truncAt (t : Int) (l : List Val) :
    l.foldl (fun (acc : Int × Bool) v => let a := truncAt t v; (acc.1 + a.1, acc.2 || a.2)) (0, false) =
      ((l.map (fun v => (truncAt t v).1)).sum, l.any (fun v => (truncAt t v).2)) := by
  suffices h : ∀ acc : Int × Bool, l.foldl (fun (acc : Int × Bool) v => let a := truncAt t v; (acc.1 + a.1, acc.2 || a.2)) acc =
      (acc.1 + (l.map (fun v => (truncAt t v).1)).sum, acc.2 || l.any (fun v => (truncAt t v).2)) by simpa using h (0, false)
  induction l with
  | nil => intro acc; simp
  | cons v l ih => intro acc; rw [List.foldl_cons, ih]; simp [add_assoc, Bool.or_assoc]

/-- The order of the terms has no effect (R62): everything a window sum looks at is the same in any order. -/
theorem windowSum_perm (rm : RMode) (sat : Bool) {l l' : List Val} (h : l.Perm l') : windowSum rm sat l = windowSum rm sat l' := by
  simp only [windowSum, foldl_truncAt, topExp_perm h, h.any_eq, h.all_eq, h.contains_eq, (h.map _).sum_eq]

/-- A window without a real sum: a NaN among its terms, or infinities of both signs. -/
def WindowClash (terms : List Val) : Prop := (∃ x, Val.nan x ∈ terms) ∨ (Val.inf true ∈ terms ∧ Val.inf false ∈ terms)

theorem windowClash_iff (terms : List Val) :
    (terms.any Val.isNan || (terms.contains (.inf false) && terms.contains (.inf true))) = true ↔ WindowClash terms := by
  have hnan : terms.any Val.isNan = true ↔ ∃ x, Val.nan x ∈ terms := by
    rw [List.any_eq_true]
    constructor
    · rintro ⟨v, hv, h⟩
      cases v with
      | nan x => exact ⟨x, hv⟩
      | inf | fin => cases h
    · rintro ⟨x, hx⟩
      exact ⟨_, hx, rfl⟩
  rw [Bool.or_eq_true, hnan, Bool.and_eq_true, List.contains_iff_mem, List.contains_iff_mem, and_comm, WindowClash]

section Window
variable {rm : RMode} {sat : Bool} {terms : List Val}

theorem windowSum_clash (h : WindowClash terms) : windowSum rm sat terms = (0x7FC00000, flagNV) := by
  rw [windowSum, if_pos ((windowClash_iff terms).mpr h)]
  rfl

theorem windowSum_inf (h : ¬WindowClash terms) {n : Bool} (hn : Val.inf n ∈ terms) :
    windowSum rm sat terms = (if n then 0xFF800000 else 0x7F800000, 0) := by
  rw [windowSum, if_neg (mt (windowClash_iff terms).mp h)]
  cases n with
  | false => rw [if_pos (List.contains_iff_mem.mpr hn)]; rfl
  | true =>
    have hpos : ¬ terms.contains (.inf false) = true := fun hp => h (.inr ⟨hn, List.contains_iff_mem.mp hp⟩)
    rw [if_neg hpos, if_pos (List.contains_iff_mem.mpr hn)]
    rfl

section Finite
variable (h : ∀ x ∈ terms, ∃ n m e, x = .fin n m e)
include h

theorem not_contains_inf_of_finite (n : Bool) : ¬ terms.contains (.inf n) = true := fun hn => by
  obtain ⟨_, _, _, he⟩ := h _ (List.contains_iff_mem.mp hn)
  cases he

theorem not_windowClash_of_finite : ¬WindowClash terms := by
  rintro (⟨x, hx⟩ | ⟨hx, -⟩)
  · obtain ⟨_, _, _, he⟩ := h _ hx
    cases he
  · exact not_contains_inf_of_finite h true (List.contains_iff_mem.mpr hx)

theorem windowSum_of_topExp_none (htop : topExp terms = none) :
    windowSum rm sat terms = (if rm == .rdn || terms.all Val.isNegZero then 0x80000000 else 0, 0) := by
  rw [windowSum, if_neg (mt (windowClash_iff terms).mp (not_windowClash_of_finite h)), if_neg (not_contains_inf_of_finite h _),
    if_neg (not_contains_inf_of_finite h _), htop]
  rfl

theorem windowSum_of_topExp_some {top : Int} (htop : topExp terms = some top) :
    let total := (terms.map (fun v => (truncAt (top - 72) v).1)).sum
    let lossy := terms.any (fun v => (truncAt (top - 72) v).2)
    windowSum rm sat terms =
      if total = 0 then (if rm == .rdn then 0x80000000 else 0, if lossy then flagNX else 0)
      else roundWindow rm sat (decide (total < 0)) total.natAbs (top - 72) lossy := by
  rw [windowSum, if_neg (mt (windowClash_iff terms).mp (not_windowClash_of_finite h)), if_neg (not_contains_inf_of_finite h _),
    if_neg (not_contains_inf_of_finite h _), htop]
  dsimp only
  rw [foldl_truncAt]
  rfl

end Finite

/-- Zeros alone give a zero, negative under RDN or when each of them is; `neg` is any test that tells their signs. -/
theorem windowSum_zeros (h : ∀ x ∈ terms, ∃ n e, x = .fin n 0 e) {neg : Val → Bool} (hneg : ∀ n e, neg (.fin n 0 e) = n) :
    windowSum rm sat terms = (if rm == .rdn || terms.all neg then 0x80000000 else 0, 0) := by
  have hall : terms.all Val.isNegZero = terms.all neg := by
    rw [Bool.eq_iff_iff, List.all_eq_true, List.all_eq_true]
    refine forall₂_congr fun x hx => ?_
    obtain ⟨n, e, rfl⟩ := h x hx
    simp [Val.isNegZero, hneg]
  rw [windowSum_of_topExp_none (fun x hx => (h x hx).imp fun n ⟨e, he⟩ => ⟨0, e, he⟩) (topExp_eq_none_of_zeros h), hall]

end Window

/-- A finite term truncated toward zero at 2^t. -/
theorem truncAt_fin (t : Int) (n : Bool) (m : Nat) (e : Int) :
    truncAt t (.fin n m e) = ((if n then (-1 : Int) else 1) * (if t ≤ e then m * 2 ^ (e - t).toNat else m / 2 ^ (t - e).toNat : Nat),
      decide (e < t ∧ m % 2 ^ (t - e).toNat ≠ 0)) := by
  by_cases h : t ≤ e
  · cases n <;> simp [truncAt, signedAt, h, Int.not_lt.mpr h]
  · cases n <;> simp [truncAt, signedAt, h, Int.not_le.mp h, bne, beq_eq_decide]

theorem any_truncAt_iff (t : Int) (terms : List Val) : terms.any (fun v => (truncAt t v).2) = true ↔
    ∃ n m e, Val.fin n m e ∈ terms ∧ e < t ∧ m % 2 ^ (t - e).toNat ≠ 0 := by
  rw [List.any_eq_true]
  constructor
  · rintro ⟨v, hv, h⟩
    rcases v with s | n | ⟨n, m, e⟩
    · cases h
    · cases h
    · rw [truncAt_fin, decide_eq_true_eq] at h
      exact ⟨n, m, e, hv, h⟩
  · rintro ⟨n, m, e, hv, h⟩
    exact ⟨_, hv, by rw [truncAt_fin]; exact decide_eq_true h⟩

theorem fmtF32_signBit (n : Bool) : fmtF32.signBit n = if n then 0x80000000 else 0 := rfl

theorem roundWindow_exact (rm : RMode) (sat neg : Bool) (m : Nat) (e : Int) :
    roundWindow rm sat neg m e false = fmtF32.roundFin rm sat neg m e := by simp [roundWindow]

theorem roundWindow_lossy (rm : RMode) (sat neg : Bool) (m : Nat) (e : Int) :
    roundWindow rm sat neg m e true = ((fmtF32.roundFin rm sat neg m e).1,
      (fmtF32.roundFin rm sat neg m e).2 ||| flagNX ||| (if fmtF32.tiny rm neg m e then flagUF else 0)) := by simp [roundWindow]

/-- The exponent of the largest term, from the terms written out. -/
theorem topExp_eq_some {terms : List Val} {top : Int}
    (hle : ∀ x ∈ terms, ∃ n m e, x = .fin n m e ∧ (m = 0 ∨ (m.log2 : Int) + e ≤ top))
    (hex : ∃ n m e, Val.fin n m e ∈ terms ∧ m ≠ 0 ∧ (m.log2 : Int) + e = top) : topExp terms = some top := by
  refine topExp_eq_some_iff.mpr ⟨?_, fun v hv k hk => ?_⟩
  · obtain ⟨n, m, e, hv, hm, he⟩ := hex
    exact ⟨_, hv, Val.leading?_eq_some_iff.mpr ⟨n, m, e, rfl, hm, he⟩⟩
  · obtain ⟨n, m, e, rfl, hm, rfl⟩ := Val.leading?_eq_some_iff.mp hk
    obtain ⟨n', m', e', heq, hzero | hk'⟩ := hle _ hv <;> cases heq
    · exact absurd hzero hm
    · exact hk'

/-- A window of finite terms, not all zero (R61): a zero sum is −0 under RDN alone, any other is rounded once, and what
truncation changed raises NX, with UF for a tiny result. -/
theorem windowSum_of_top {rm : RMode} {sat : Bool} {terms : List Val} {top : Int} (hfin : ∀ x ∈ terms, ∃ n m e, x = .fin n m e)
    (htop : topExp terms = some top) {total : Int} (htotal : (terms.map (fun v => (truncAt (top - 72) v).1)).sum = total)
    {lossy : Prop} (hlossy : terms.any (fun v => (truncAt (top - 72) v).2) = true ↔ lossy) :
    let w := windowSum rm sat terms
    let r := fmtF32.roundFin rm sat (decide (total < 0)) total.natAbs (top - 72)
    (total = 0 → w.1 = (if rm = .rdn then 0x80000000 else 0) ∧ (lossy → w.2 = flagNX) ∧ (¬lossy → w.2 = 0)) ∧
    (total ≠ 0 → w.1 = r.1 ∧ (¬lossy → w.2 = r.2) ∧
      (lossy → w.2 = r.2 ||| flagNX ||| (if fmtF32.tiny rm (decide (total < 0)) total.natAbs (top - 72) then flagUF else 0))) := by
  intro w r
  have hw : w = _ := windowSum_of_topExp_some hfin htop
  rw [htotal] at hw
  refine ⟨fun h0 => ?_, fun h0 => ?_⟩
  · rw [hw, if_pos h0]
    exact ⟨by cases rm <;> rfl, fun hl => if_pos (hlossy.mpr hl), fun hl => if_neg (mt hlossy.mp hl)⟩
  · rw [hw, if_neg h0]
    by_cases hl : lossy
    · rw [hlossy.mpr hl, roundWindow_lossy]
      exact ⟨rfl, fun h => absurd hl h, fun _ => rfl⟩
    · rw [Bool.eq_false_iff.mpr (mt hlossy.mp hl), roundWindow_exact]
      exact ⟨rfl, fun _ => rfl, fun h => absurd h hl⟩

/-! ### Adding a window's result to a pair (04 R63, R65) -/

/-- With the exponent field all ones an F32 pattern is an infinity or a NaN (R37). -/
theorem fmtF32_decode_top {c : Nat} (h : c / 2 ^ 23 % 256 = 255) : fmtF32.decode c =
    if c % 2 ^ 23 = 0 then .inf (c / 2 ^ 31 % 2 == 1) else .nan (c % 2 ^ 23 / 2 ^ 22 == 0) := if_pos h

/-- With any other exponent field it is finite. -/
theorem fmtF32_decode_finite {c : Nat} (h : c / 2 ^ 23 % 256 ≠ 255) : ∃ n m e, fmtF32.decode c = .fin n m e := by
  have hc : fmtF32.decode c = if c / 2 ^ 23 % 256 = 0 then .fin _ _ _ else .fin _ _ _ := if_neg h
  rw [hc]
  split
  · exact ⟨_, _, _, rfl⟩
  · exact ⟨_, _, _, rfl⟩

theorem fmtF32_nonFinite_iff (c : Nat) : (fmtF32.decode c).nonFinite = true ↔ c / 2 ^ 23 % 256 = 255 := by
  by_cases h : c / 2 ^ 23 % 256 = 255
  · rw [fmtF32_decode_top h]
    split <;> exact iff_of_true rfl h
  · obtain ⟨n, m, e, hc⟩ := fmtF32_decode_finite h
    rw [hc]
    exact iff_of_false Bool.false_ne_true h

/-- The pattern of an F32 infinity: every exponent bit, no fraction, and the sign. -/
theorem fmtF32_decode_eq_inf_iff (c : Nat) (n : Bool) :
    fmtF32.decode c = .inf n ↔ c % 2 ^ 31 = 0x7F800000 ∧ (c / 2 ^ 31 % 2 == 1) = n := by
  have hfields : c % 2 ^ 31 = 0x7F800000 ↔ c / 2 ^ 23 % 256 = 255 ∧ c % 2 ^ 23 = 0 := by omega
  rw [hfields]
  by_cases h : c / 2 ^ 23 % 256 = 255
  · rw [fmtF32_decode_top h]
    split
    · next hz => rw [Val.inf.injEq]; exact (and_iff_right ⟨h, hz⟩).symm
    · next hz => exact iff_of_false nofun fun e => hz e.1.2
  · obtain ⟨m, q, e, hc⟩ := fmtF32_decode_finite h
    rw [hc]
    exact iff_of_false nofun fun e => h e.1.1

theorem roundAt_le {m : Nat} {e t : Int} {b : Nat} (h : (m.log2 : Int) + e - b ≤ t) (rm : RMode) (neg : Bool) :
    (roundAt rm neg m e t).1 ≤ 2 ^ (b + 1) := by
  have hm : m < 2 ^ (m.log2 + 1) := Nat.lt_log2_self
  unfold roundAt
  split
  · next hte =>
    calc m * 2 ^ (e - t).toNat ≤ 2 ^ (m.log2 + 1) * 2 ^ (e - t).toNat := Nat.mul_le_mul_right _ hm.le
      _ = 2 ^ (m.log2 + 1 + (e - t).toNat) := (Nat.pow_add ..).symm
      _ ≤ 2 ^ (b + 1) := Nat.pow_le_pow_right (by decide) (by omega)
  · next hte =>
    have hq : m / 2 ^ (t - e).toNat < 2 ^ (b + 1) := by
      rw [Nat.div_lt_iff_lt_mul (Nat.two_pow_pos _), ← Nat.pow_add]
      exact hm.trans_le (Nat.pow_le_pow_right (by decide) (by omega))
    dsimp only
    split
    · exact hq
    · exact hq.le

/-- Rounding to F32 to nearest even overflows to an infinity; any other result is a finite pattern with its sign. -/
theorem fmtF32_roundFin_rne (neg : Bool) (m : Nat) (e : Int) :
    (fmtF32.roundFin .rne false neg m e).1 = fmtF32.infCode neg ∨
    ∃ k, (fmtF32.roundFin .rne false neg m e).1 = fmtF32.signBit neg + k ∧ k < 0x7F800000 := by
  by_cases hm : m = 0
  · exact .inr ⟨0, by rw [FloatFmt.roundFin, if_pos hm, Nat.add_zero], by decide⟩
  · simp only [FloatFmt.roundFin, hm, if_false]
    generalize ht : max ((m.log2 : Int) + e - fmtF32.mbits) fmtF32.emin = t
    have hemin : fmtF32.emin = -149 := rfl
    have hemax : fmtF32.emax = 104 := by decide
    have hmax : fmtF32.maxSig = 2 ^ 24 - 1 := by decide
    have hbits : fmtF32.mbits = 23 := rfl
    have hplace : (m.log2 : Int) + e - (23 : Nat) ≤ t := by rw [hbits] at ht; omega
    have hr : (roundAt .rne neg m e t).1 ≤ 2 ^ (23 + 1) := roundAt_le hplace ..
    rw [hemin, hemax, hmax, hbits]
    generalize (roundAt .rne neg m e t).1 = q at hr ⊢
    by_cases htop : t > 104
    · rw [if_pos htop]
      exact .inl rfl
    · rw [if_neg htop]
      by_cases hbig : q > (2 ^ 24 - 1) * 2 ^ (104 - t).toNat
      · rw [decide_eq_true hbig]
        exact .inl rfl
      · rw [decide_eq_false hbig]
        refine .inr ⟨_, Nat.add_assoc .., ?_⟩
        rcases Int.lt_or_eq_of_le (Int.not_lt.mp htop) with hlt | rfl
        · omega
        · norm_num at hbig
          omega

/-- The overflow pattern in the direction of a sum, as the sign bit of the sum joined to the greatest finite pattern. -/
theorem fmtF32_maxCode_of_nonFinite_round {v : Val} {c : Nat} (hc : (fmtF32.round .rne false v).1 = c)
    (h : c / 2 ^ 23 % 256 = 255) : fmtF32.maxCode (fmtF32.decode c).neg = c / 2 ^ 31 * 2 ^ 31 + 0x7F7FFFFF := by
  have hinf : ∀ n, fmtF32.maxCode (fmtF32.decode (fmtF32.infCode n)).neg = fmtF32.infCode n / 2 ^ 31 * 2 ^ 31 + 0x7F7FFFFF := by decide
  subst hc
  rcases v with s | n | ⟨n, m, e⟩
  · exact (by decide : fmtF32.maxCode (fmtF32.decode fmtF32.nanCode).neg = fmtF32.nanCode / 2 ^ 31 * 2 ^ 31 + 0x7F7FFFFF)
  · exact hinf n
  · rcases fmtF32_roundFin_rne n m e with hi | ⟨k, hk, hlt⟩
    · rw [FloatFmt.round, hi]; exact hinf n
    · rw [FloatFmt.round, hk, fmtF32_signBit] at h
      split at h <;> omega

/-- Out of integer mode the low word of a pair is its sum and the high word its compensation (R63). -/
theorem accumulate_float {k : MulMode} (h : k.int = false) (p t : Word) : k.accumulate p t =
    (BitVec.ofNat 64 ((twoSum k.sat (p.toNat % 2 ^ 32) (p.toNat / 2 ^ 32) t.toNat).1.2 * 2 ^ 32 +
        (twoSum k.sat (p.toNat % 2 ^ 32) (p.toNat / 2 ^ 32) t.toNat).1.1),
      (twoSum k.sat (p.toNat % 2 ^ 32) (p.toNat / 2 ^ 32) t.toNat).2) := by
  rw [MulMode.accumulate, h]
  rfl

section TwoSum
variable {sat : Bool} {s x : Nat} (c : Nat)

/-- The F32 sum to nearest even that TwoSum is made of (R63). -/
def rneAdd (a b : Nat) : Nat := (fmtF32.add .rne false a b).1
/-- The F32 difference to nearest even. -/
def rneSub (a b : Nat) : Nat := (fmtF32.sub .rne false a b).1

theorem not_nonFinite_iff (c : Nat) : (!(fmtF32.decode c).nonFinite) = true ↔ c / 2 ^ 23 % 256 ≠ 255 := by
  rw [Bool.not_eq_true', Bool.eq_false_iff]
  exact (fmtF32_nonFinite_iff c).not

/-- A finite sum has its rounding error added to the compensation. -/
theorem twoSum_finite (h : rneAdd s x / 2 ^ 23 % 256 ≠ 255) : (twoSum sat s c x).1 = (rneAdd s x,
    rneAdd c (rneAdd (rneSub s (rneSub (rneAdd s x) (rneSub (rneAdd s x) s))) (rneSub x (rneSub (rneAdd s x) s)))) :=
  congrArg Prod.fst (if_pos ((not_nonFinite_iff _).mpr h))

/-- Under SAT the sum of finite patterns that overflows is the greatest finite pattern of its sign. -/
theorem twoSum_saturated (h : rneAdd s x / 2 ^ 23 % 256 = 255) (hsat : sat = true) (hs : s / 2 ^ 23 % 256 ≠ 255)
    (hx : x / 2 ^ 23 % 256 ≠ 255) : (twoSum sat s c x).1 = (rneAdd s x / 2 ^ 31 * 2 ^ 31 + 0x7F7FFFFF, 0) := by
  have hmax : fmtF32.maxCode (fmtF32.decode (rneAdd s x)).neg = rneAdd s x / 2 ^ 31 * 2 ^ 31 + 0x7F7FFFFF :=
    fmtF32_maxCode_of_nonFinite_round rfl h
  have hall : (sat && !(fmtF32.decode s).nonFinite && !(fmtF32.decode x).nonFinite) = true := by
    rw [Bool.and_eq_true, Bool.and_eq_true]
    exact ⟨⟨hsat, (not_nonFinite_iff _).mpr hs⟩, (not_nonFinite_iff _).mpr hx⟩
  rw [← hmax]
  exact congrArg Prod.fst ((if_neg (mt (not_nonFinite_iff _).mp (not_not.mpr h))).trans (if_pos hall))

/-- Any other sum that is not finite has no compensation. -/
theorem twoSum_nonFinite (h : rneAdd s x / 2 ^ 23 % 256 = 255)
    (hall : sat = false ∨ ¬ s / 2 ^ 23 % 256 ≠ 255 ∨ ¬ x / 2 ^ 23 % 256 ≠ 255) : (twoSum sat s c x).1 = (rneAdd s x, 0) := by
  have hall' : ¬(sat && !(fmtF32.decode s).nonFinite && !(fmtF32.decode x).nonFinite) = true := by
    rw [Bool.and_eq_true, Bool.and_eq_true, not_nonFinite_iff, not_nonFinite_iff]
    rintro ⟨⟨rfl, hs⟩, hx⟩
    rcases hall with hsat | hs' | hx'
    · cases hsat
    · exact hs' hs
    · exact hx' hx
  exact congrArg Prod.fst ((if_neg (mt (not_nonFinite_iff _).mp (not_not.mpr h))).trans (if_neg hall'))

theorem twoSum_flags_of_inf {p q : Bool} (hs : fmtF32.decode s = .inf p) (hx : fmtF32.decode x = .inf q) :
    (twoSum sat s c x).2 = if p = q then 0 else flagNV := by
  simp only [twoSum, apply_ite Prod.snd, ite_self, hs, hx]

theorem twoSum_flags_of_not_inf (h : ∀ p q, fmtF32.decode s = .inf p → fmtF32.decode x ≠ .inf q) : (twoSum sat s c x).2 =
    if !(fmtF32.decode s).nonFinite && !(fmtF32.decode x).nonFinite && (fmtF32.decode (rneAdd s x)).nonFinite then flagOF else 0 := by
  simp only [twoSum, rneAdd, apply_ite Prod.snd, ite_self]
  generalize fmtF32.decode s = vs at h ⊢
  generalize fmtF32.decode x = vx at h ⊢
  cases vs with
  | inf p =>
    cases vx with
    | inf q => exact absurd rfl (h p q rfl)
    | nan | fin => rfl
  | nan | fin => rfl

/-- TwoSum raises NV for infinities of both signs, OF for an overflow, and nothing else. -/
theorem twoSum_flags (hs : s < 2 ^ 32) (hx : x < 2 ^ 32) : (twoSum sat s c x).2 =
    if s % 2 ^ 31 = 0x7F800000 ∧ x % 2 ^ 31 = 0x7F800000 ∧ s ≠ x then flagNV
    else if s / 2 ^ 23 % 256 ≠ 255 ∧ x / 2 ^ 23 % 256 ≠ 255 ∧ ¬ rneAdd s x / 2 ^ 23 % 256 ≠ 255 then flagOF else 0 := by
  by_cases hinf : s % 2 ^ 31 = 0x7F800000 ∧ x % 2 ^ 31 = 0x7F800000
  · obtain ⟨hsi, hxi⟩ := hinf
    have hsign : (s / 2 ^ 31 % 2 == 1) = (x / 2 ^ 31 % 2 == 1) ↔ s = x := by
      rw [Bool.eq_iff_iff, beq_iff_eq, beq_iff_eq]
      omega
    have hfin : ¬ s / 2 ^ 23 % 256 ≠ 255 := by omega
    rw [twoSum_flags_of_inf c ((fmtF32_decode_eq_inf_iff ..).mpr ⟨hsi, rfl⟩) ((fmtF32_decode_eq_inf_iff ..).mpr ⟨hxi, rfl⟩)]
    simp only [hsign, hsi, hxi, hfin, true_and, false_and, if_false, ite_not, ne_eq]
  · have hnot : ∀ p q, fmtF32.decode s = .inf p → fmtF32.decode x ≠ .inf q := fun p q hp hq =>
      hinf ⟨((fmtF32_decode_eq_inf_iff ..).mp hp).1, ((fmtF32_decode_eq_inf_iff ..).mp hq).1⟩
    have hne : ¬(s % 2 ^ 31 = 0x7F800000 ∧ x % 2 ^ 31 = 0x7F800000 ∧ s ≠ x) := fun h => hinf ⟨h.1, h.2.1⟩
    rw [twoSum_flags_of_not_inf c hnot, if_neg hne]
    simp only [Bool.and_eq_true, not_nonFinite_iff, fmtF32_nonFinite_iff, and_assoc, not_not, ne_eq]

end TwoSum

/-! ### The Chest as a sparse list (04 R63, R69) -/

theorem chestGet_eq_get (l : List (Nat × BitVec 64)) (q : Fin 8) (m c : Nat) : chestGet l q m c = Sparse.get 0 l (pairIdx q m c) := by
  unfold chestGet
  induction l with
  | nil => rfl
  | cons p l ih =>
    rw [List.find?_cons, Sparse.get]
    by_cases h : p.1 = pairIdx q m c
    · simp [h]
    · simp only [beq_eq_false_iff_ne.mpr h, if_neg h]
      exact ih

theorem pairIdx_tile (q : Fin 8) {m c : Nat} (hm : m < 128) (hc : c < 256) : pairIdx q m c / 32768 = q.val := by
  unfold pairIdx
  omega

/-- Every pair number of the Chest is that of a tile, a row and a column. -/
theorem exists_pairIdx_eq {k : Nat} (h : k < 262144) : ∃ (q : Fin 8) (m c : Nat), m < 128 ∧ c < 256 ∧ pairIdx q m c = k :=
  ⟨⟨k / 32768, by omega⟩, k % 32768 / 256, k % 256, by omega, by omega, by unfold pairIdx; dsimp only; omega⟩

theorem chestGet_chestZero (l : List (Nat × BitVec 64)) (q j : Fin 8) {m c : Nat} (hm : m < 128) (hc : c < 256) :
    chestGet (chestZero q l) j m c = if j = q then 0 else chestGet l j m c := by
  rw [chestGet_eq_get, chestGet_eq_get, chestZero, Sparse.get_filter l (fun k => k / 32768 != q.val), pairIdx_tile j hm hc]
  by_cases h : j = q
  · simp [h]
  · simp [h, Fin.val_ne_of_ne h]

/-- Keys strictly rise along a list. -/
abbrev Rising {β : Type} (l : List (Nat × β)) : Prop := l.Pairwise (fun p q => p.1 < q.1)

theorem Rising.chestZero {l : List (Nat × BitVec 64)} (h : Rising l) (q : Fin 8) : Rising (chestZero q l) := List.Pairwise.filter _ h

/-- Keys that rise are different: each finds its own entry. -/
theorem Rising.find?_key {β : Type} {l : List (Nat × β)} (h : Rising l) {p : Nat × β} (hp : p ∈ l) :
    l.find? (fun q => q.1 == p.1) = some p := by
  induction l with
  | nil => cases hp
  | cons a l ih =>
    obtain ⟨ha, hl⟩ := List.pairwise_cons.mp h
    rcases List.mem_cons.mp hp with rfl | hp
    · exact List.find?_cons_of_pos (beq_self_eq_true _)
    · rw [List.find?_cons_of_neg (by simpa using (ha p hp).ne), ih hl hp]

section Get
variable {β : Type} {d : β} {l l' : List (Nat × β)} {k : Nat}

theorem Sparse.get_of_not_key (h : ∀ p ∈ l, p.1 ≠ k) : Sparse.get d l k = d := by
  induction l with
  | nil => rfl
  | cons p l ih =>
    obtain ⟨hp, hl⟩ := List.forall_mem_cons.mp h
    rw [Sparse.get, if_neg hp, ih hl]

/-- Two lists on the two sides of a key are read one below it and the other from it on. -/
theorem Sparse.get_append_split (hl : ∀ p ∈ l, p.1 < k) (hl' : ∀ p ∈ l', k ≤ p.1) (x : Nat) :
    Sparse.get d (l ++ l') x = if x < k then Sparse.get d l x else Sparse.get d l' x := by
  induction l with
  | nil =>
    by_cases hx : x < k
    · rw [if_pos hx]
      exact Sparse.get_of_not_key fun p hp => (hx.trans_le (hl' p hp)).ne'
    · rw [if_neg hx, List.nil_append]
  | cons p l ih =>
    obtain ⟨hp, hl⟩ := List.forall_mem_cons.mp hl
    rw [List.cons_append, Sparse.get, Sparse.get, ih hl]
    by_cases hx : p.1 = x
    · rw [if_pos hx, if_pos hx, if_pos (hx ▸ hp)]
    · rw [if_neg hx, if_neg hx]

/-- A value listed before greater keys, unless it is the default, is read at its key. -/
theorem Sparse.get_cons_unless_default [DecidableEq β] (h : ∀ p ∈ l, k < p.1) (v : β) (x : Nat) :
    Sparse.get d (if v = d then l else (k, v) :: l) x = if x = k then v else Sparse.get d l x := by
  by_cases hx : x = k
  · rw [if_pos hx, hx]
    split
    · next hv => rw [hv]; exact Sparse.get_of_not_key fun p hp => (h p hp).ne'
    · exact if_pos rfl
  · rw [if_neg hx]
    split
    · rfl
    · exact if_neg (Ne.symm hx)

theorem filter_below_of_above (h : ∀ p ∈ l, k < p.1) : l.filter (fun p => decide (p.1 < k)) = [] :=
  List.filter_eq_nil_iff.mpr fun p hp => mt of_decide_eq_true (h p hp).not_gt

theorem filter_above_of_above (h : ∀ p ∈ l, k < p.1) : l.filter (fun p => decide (k < p.1)) = l :=
  List.filter_eq_self.mpr fun p hp => decide_eq_true (h p hp)

end Get

/-- What window results leave of a pair: that of its own number is accumulated, if there is one. -/
def accumulated (f : Word → Word → Word × FlagSet) (old : Word) (o : Option (Nat × Word)) : Word :=
  o.elim old (fun p => (f old p.2).1)

section Steps
variable (f : Word → Word → Word × FlagSet) {ch : List (Nat × BitVec 64)}

/-- The first window result splits the Chest: the pairs below its own stay, and the later results reach only those above. -/
theorem chestSteps_cons (h : Rising ch) (k : Nat) (t : Word) (r : List (Nat × Word)) : chestSteps f ch ((k, t) :: r) =
    let n := f (Sparse.get 0 ch k) t
    let q := chestSteps f (ch.filter (fun p => decide (k < p.1))) r
    (ch.filter (fun p => decide (p.1 < k)) ++ (if n.1 = 0 then q.1 else (k, n.1) :: q.1), n.2 ||| q.2) := by
  induction ch with
  | nil => rfl
  | cons p ch ih =>
    obtain ⟨hp, hch⟩ := List.pairwise_cons.mp h
    obtain ⟨a, b⟩ := p
    rcases Nat.lt_trichotomy a k with hlt | rfl | hgt
    · have hstep : chestSteps f ((a, b) :: ch) ((k, t) :: r) =
          ((a, b) :: (chestSteps f ch ((k, t) :: r)).1, (chestSteps f ch ((k, t) :: r)).2) := by simp [chestSteps, hlt]
      simp [hstep, ih hch, Sparse.get, hlt, hlt.ne, hlt.le]
    · simp [chestSteps, Sparse.get, filter_below_of_above hp, filter_above_of_above hp]
    · have hall : ∀ p ∈ ch, k < p.1 := fun p hm => hgt.trans (hp p hm)
      have hget : Sparse.get 0 ch k = 0 := Sparse.get_of_not_key fun p hm => (hall p hm).ne'
      rw [Sparse.get, if_neg hgt.ne', hget]
      simp [chestSteps, filter_below_of_above hall, filter_above_of_above hall, hgt, hgt.ne', hgt.le]

theorem chestSteps_keys_above {steps : List (Nat × Word)} {k : Nat} (hch : Rising ch) (hsteps : ∀ p ∈ steps, k < p.1)
    (hk : ∀ p ∈ ch, k < p.1) : ∀ p ∈ (chestSteps f ch steps).1, k < p.1 := by
  induction steps generalizing ch with
  | nil => exact hk
  | cons s steps ih =>
    obtain ⟨a, t⟩ := s
    obtain ⟨ha, hr⟩ := List.forall_mem_cons.mp hsteps
    have hq := ih (hch.filter (fun p => decide (a < p.1))) hr fun p hp => hk p (List.mem_of_mem_filter hp)
    rw [chestSteps_cons f hch]
    intro p hp
    rcases List.mem_append.mp hp with hp | hp
    · exact hk p (List.mem_of_mem_filter hp)
    · split at hp
      · exact hq p hp
      · rcases List.mem_cons.mp hp with rfl | hp
        · exact ha
        · exact hq p hp

/-- Reading a pair after window results: each pair gets the one with its number, and no other changes. -/
theorem get_chestSteps {steps : List (Nat × Word)} (hch : Rising ch) (hsteps : Rising steps) (x : Nat) :
    Sparse.get 0 (chestSteps f ch steps).1 x = accumulated f (Sparse.get 0 ch x) (steps.find? (fun p => p.1 == x)) := by
  induction steps generalizing ch with
  | nil => rfl
  | cons s steps ih =>
    obtain ⟨k, t⟩ := s
    obtain ⟨hk, hr⟩ := List.pairwise_cons.mp hsteps
    have hq := ih (hch.filter (fun p => decide (k < p.1))) hr
    have habove := chestSteps_keys_above f (k := k) (hch.filter (fun p => decide (k < p.1))) hk
      fun p hp => of_decide_eq_true (List.mem_filter.mp hp).2
    rw [chestSteps_cons f hch, Sparse.get_append_split (k := k), Sparse.get_filter ch (fun j => decide (j < k)),
      Sparse.get_cons_unless_default habove, hq, Sparse.get_filter ch (fun j => decide (k < j))]
    · rcases Nat.lt_trichotomy x k with hlt | rfl | hgt
      · have hnone : steps.find? (fun p => p.1 == x) = none :=
          List.find?_eq_none.mpr fun p hp => by have := hk p hp; simp only [beq_iff_eq]; omega
        simp [accumulated, hlt, hlt.ne', hnone]
      · simp [accumulated]
      · simp [hgt, hgt.ne, hgt.ne', hgt.le]
    · exact fun p hp => of_decide_eq_true (List.mem_filter.mp hp).2
    · intro p hp
      split at hp
      · exact (habove p hp).le
      · rcases List.mem_cons.mp hp with rfl | hp
        · exact le_rfl
        · exact (habove p hp).le

theorem chestSteps_flag_iff {steps : List (Nat × Word)} (hch : Rising ch) (hsteps : Rising steps) (i : Nat) :
    (chestSteps f ch steps).2.getLsbD i = true ↔ ∃ p ∈ steps, (f (Sparse.get 0 ch p.1) p.2).2.getLsbD i = true := by
  induction steps generalizing ch with
  | nil => simp [chestSteps]
  | cons s steps ih =>
    obtain ⟨k, t⟩ := s
    obtain ⟨hk, hr⟩ := List.pairwise_cons.mp hsteps
    have hget : ∀ p ∈ steps, Sparse.get 0 (ch.filter (fun p => decide (k < p.1))) p.1 = Sparse.get 0 ch p.1 := fun p hp => by
      rw [Sparse.get_filter ch (fun j => decide (k < j)), if_pos (decide_eq_true (hk p hp))]
    rw [chestSteps_cons f hch, BitVec.getLsbD_or, Bool.or_eq_true, ih (hch.filter _) hr, List.exists_mem_cons_iff]
    exact or_congr_right (exists_congr fun p => and_congr_right fun hp => by rw [hget p hp])

end Steps

/-! ### Parts of the state that a completion changes -/

@[simp] theorem State.modCluster_modCluster (s : State) (c : Fin 64) (f g : Cluster → Cluster) :
    (s.modCluster c f).modCluster c g = s.modCluster c (fun k => g (f k)) := by
  simp [State.modCluster]

theorem State.modCluster_id (s : State) (c : Fin 64) : s.modCluster c (fun k => k) = s := by
  simp [State.modCluster]

section OrFlags
variable (s : State) (n : Nat) (f : FlagSet)

@[simp] theorem State.orFlags_clusters : (s.orFlags n f).clusters = s.clusters := rfl

theorem State.context_uid {s : State} {n : Nat} {c : Context} (h : s.context n = some c) : c.uid = n :=
  beq_iff_eq.mp (List.find?_some (p := fun c : Context => c.uid == n) (l := s.contexts) h)

/-- Flags that go to a context are in its FFLAGS, and nothing else of it changes. -/
theorem State.context_orFlags {c : Context} (h : s.context n = some c) :
    (s.orFlags n f).context n = some { c with flags := { c.flags with ff := c.flags.ff ||| f } } := by
  have hctx : (s.orFlags n f).contexts =
    s.contexts.map (fun c => if c.uid = n then { c with flags := { c.flags with ff := c.flags.ff ||| f } } else c) := rfl
  have huid : ((fun c : Context => c.uid == n) ∘
      fun c => if c.uid = n then { c with flags := { c.flags with ff := c.flags.ff ||| f } } else c) = fun c => c.uid == n := by
    funext d
    dsimp only [Function.comp_apply]
    split <;> rfl
  rw [State.context, hctx, List.find?_map, huid, show s.contexts.find? _ = _ from h, Option.map_some, if_pos (State.context_uid h)]

end OrFlags

theorem State.bureauOf_context {s : State} {cl : Fin 64} {b : Context} (h : s.bureauOf cl = some b) : s.context b.uid = some b := by
  obtain ⟨n, -, hn⟩ := Option.bind_eq_some_iff.mp h
  rw [State.context_uid hn, hn]

/-- A cluster after the Z of a multiply that has added no window yet. -/
def Cluster.zeroed (k : Cluster) (c : MxCtl) (r : MatRun) : Cluster :=
  if c.z && !r.zeroed then
    { k with chest := chestZero c.q k.chest, chestPoison := k.chestPoison.filter (fun i => i / 32768 != c.q.val) }
  else k

section Zeroed
variable (k : Cluster) (c : MxCtl) (r : MatRun)

theorem State.zeroFirst_eq (s : State) (cl : Fin 64) : s.zeroFirst cl c r = s.modCluster cl (fun k => k.zeroed c r) := by
  unfold State.zeroFirst Cluster.zeroed
  split
  · rfl
  · exact (s.modCluster_id cl).symm

theorem zeroes_iff : (c.z && !r.zeroed) = true ↔ c.z = true ∧ r.zeroed = false := by rw [Bool.and_eq_true, Bool.not_eq_true']

/-- Taking entries from the queue does not touch the Chest. -/
theorem Cluster.zeroed_withMq (l : List MatEntry) : Cluster.zeroed { k with mq := l } c r = { k.zeroed c r with mq := l } := by
  unfold Cluster.zeroed
  split <;> rfl

theorem Cluster.chestGet_zeroed (j : Fin 8) {m i : Nat} (hm : m < 128) (hi : i < 256) : chestGet (k.zeroed c r).chest j m i =
    if (c.z = true ∧ r.zeroed = false) ∧ j = c.q then 0 else chestGet k.chest j m i := by
  unfold Cluster.zeroed
  by_cases h : c.z = true ∧ r.zeroed = false
  · rw [if_pos ((zeroes_iff c r).mpr h), chestGet_chestZero _ _ _ hm hi]
    simp [h]
  · rw [if_neg (mt (zeroes_iff c r).mp h), if_neg fun hj => h hj.1]

theorem Cluster.mem_chestPoison_zeroed (p : Nat) : p ∈ (k.zeroed c r).chestPoison ↔
    p ∈ k.chestPoison ∧ ¬((c.z = true ∧ r.zeroed = false) ∧ p / 32768 = c.q.val) := by
  unfold Cluster.zeroed
  by_cases h : c.z = true ∧ r.zeroed = false
  · simp [h]
  · rw [if_neg (mt (zeroes_iff c r).mp h)]
    exact (and_iff_left fun hp => h hp.1).symm

theorem Cluster.zeroed_rising {k : Cluster} (h : Rising k.chest) : Rising (k.zeroed c r).chest := by
  unfold Cluster.zeroed
  split
  · exact Rising.chestZero h _
  · exact h

/-- The Chest of a cluster after a multiply has added the windows it has left, and the flags. -/
def Cluster.multiplied : List (Nat × BitVec 64) × FlagSet :=
  chestSteps (MulMode.accumulate ⟨r.int, .rne, c.sat⟩) (k.zeroed c r).chest r.steps

section Multiplied
variable {k r} (hch : Rising k.chest) (hst : Rising r.steps)
include hch hst

theorem Cluster.chestGet_multiplied (j : Fin 8) {m i : Nat} (hm : m < 128) (hi : i < 256) :
    chestGet (k.multiplied c r).1 j m i = accumulated (MulMode.accumulate ⟨r.int, .rne, c.sat⟩)
      (if (c.z = true ∧ r.zeroed = false) ∧ j = c.q then 0 else chestGet k.chest j m i)
      (r.steps.find? (fun p => p.1 == pairIdx j m i)) := by
  rw [← Cluster.chestGet_zeroed k c r j hm hi, chestGet_eq_get, chestGet_eq_get, Cluster.multiplied,
    get_chestSteps _ (Cluster.zeroed_rising c r hch) hst]

/-- The flags of a multiply are those of the windows it adds, each to its own pair. -/
theorem Cluster.multiplied_flag_iff (hlt : ∀ p ∈ r.steps, p.1 < 262144) (i : Nat) :
    (k.multiplied c r).2.getLsbD i = true ↔ ∃ (j : Fin 8) (m n : Nat), m < 128 ∧ n < 256 ∧
      ∃ p, r.steps.find? (fun p => p.1 == pairIdx j m n) = some p ∧
        (MulMode.accumulate ⟨r.int, .rne, c.sat⟩
          (if (c.z = true ∧ r.zeroed = false) ∧ j = c.q then 0 else chestGet k.chest j m n) p.2).2.getLsbD i = true := by
  rw [Cluster.multiplied, chestSteps_flag_iff _ (Cluster.zeroed_rising c r hch) hst]
  constructor
  · rintro ⟨p, hp, hflag⟩
    obtain ⟨j, m, n, hm, hn, hidx⟩ := exists_pairIdx_eq (hlt p hp)
    refine ⟨j, m, n, hm, hn, p, ?_, ?_⟩
    · rw [hidx]
      exact hst.find?_key hp
    · rwa [← Cluster.chestGet_zeroed k c r j hm hn, chestGet_eq_get, hidx]
  · rintro ⟨j, m, n, hm, hn, p, hp, hflag⟩
    have hidx : p.1 = pairIdx j m n := beq_iff_eq.mp (List.find?_some (p := fun p : Nat × Word => p.1 == pairIdx j m n) hp)
    refine ⟨p, List.mem_of_find?_eq_some hp, ?_⟩
    rwa [hidx, ← chestGet_eq_get, Cluster.chestGet_zeroed k c r j hm hn]

end Multiplied

end Zeroed

theorem State.chestBad_iff (s : State) (cl : Fin 64) (l : List (Nat × Word)) :
    s.chestBad cl l = true ↔ ∃ p ∈ l, p.1 ∈ (s.clusters[cl]).chestPoison := by
  rw [State.chestBad, Bool.and_eq_true, List.any_eq_true]
  simp only [List.contains_iff_mem, Bool.not_eq_true', List.isEmpty_eq_false_iff]
  exact and_iff_right_of_imp fun ⟨p, _, hp⟩ => List.ne_nil_of_mem hp

/-! ### What the completion of an entry comes to (07 R102) -/

section Complete
variable {s : State} {b : Context} {e : MatEntry} {r : MatRun}

/-- An entry that has not started, or whose flag is still full, stays. -/
theorem completeEntry_stays (h : e.run = none ∨ ∃ r, e.run = some r ∧ r.freed = false) : s.completeEntry b 0 e = none := by
  rcases h with h | ⟨r, h, hr⟩
  · simp [State.completeEntry, h]
  · simp [State.completeEntry, h, hr]

variable (hrun : e.run = some r) (hfreed : r.freed = true)
include hrun hfreed

theorem completeEntry_gath {l : Fin 2} {x : Latch} (hop : e.op = .gath l) (hx : r.latch = some x) :
    s.completeEntry b 0 e = some (s.modCluster b.cl (fun k => { k with
      mq := k.mq.tail
      latches := k.latches.set l.val x l.isLt
      latchPoison := k.latchPoison.filter (fun p => !(p.1 == l.val && decide (latchPieceRow p.2 < x.m.toNat))) })) := by
  simp [State.completeEntry, hrun, hfreed, hop, hx]

theorem completeEntry_mzero {q : Fin 8} (hop : e.op = .mzero q) :
    s.completeEntry b 0 e = some (s.modCluster b.cl (fun k => { k with
      mq := k.mq.tail
      chest := chestZero q k.chest
      chestPoison := k.chestPoison.filter (fun i => i / 32768 != q.val) })) := by
  simp [State.completeEntry, hrun, hfreed, hop, State.zeroTile]

theorem completeEntry_mmag_stays {c : MxCtl} (hop : e.op = .mmag c) (h : r.done < r.groups.length) : s.completeEntry b 0 e = none := by
  simp [State.completeEntry, hrun, hfreed, hop, h]

theorem completeEntry_mmag {c : MxCtl} (hop : e.op = .mmag c) (h : r.groups.length ≤ r.done) : s.completeEntry b 0 e =
    some ((s.modCluster b.cl (fun k => { k.zeroed c r with mq := k.mq.tail })).orFlags b.uid r.ff) := by
  simp [State.completeEntry, hrun, hfreed, hop, Nat.not_lt.mpr h, State.zeroFirst_eq, Cluster.zeroed_withMq]

section Multiply
variable {l : Fin 2} {c : MxCtl} (hop : e.op = .gr l c ∨ e.op = .rg l c)
include hop

theorem completeEntry_mul_eq : s.completeEntry b 0 e =
    let s2 := s.modCluster b.cl (fun k => { k.zeroed c r with mq := k.mq.tail })
    let q := s2.chestApply b.cl ⟨r.int, .rne, c.sat⟩ r.steps
    if s2.chestBad b.cl r.steps then some (s.matrixFault b .poison e.addr none) else some (q.1.orFlags b.uid (r.ff ||| q.2)) := by
  rcases hop with hop | hop <;>
    simp [State.completeEntry, hrun, hfreed, hop, State.zeroFirst_eq, Cluster.zeroed_withMq]

/-- A multiply that would add to a poisoned pair faults instead (06 R96). -/
theorem completeEntry_mul_poisoned (h : ∃ p ∈ r.steps, p.1 ∈ (s.clusters[b.cl].zeroed c r).chestPoison) :
    s.completeEntry b 0 e = some (s.matrixFault b .poison e.addr none) := by
  rw [completeEntry_mul_eq hrun hfreed hop]
  exact if_pos ((State.chestBad_iff ..).mpr (by rwa [State.modCluster_same]))

theorem completeEntry_mul (h : ¬∃ p ∈ r.steps, p.1 ∈ (s.clusters[b.cl].zeroed c r).chestPoison) : s.completeEntry b 0 e =
    some ((s.modCluster b.cl (fun k => { k.zeroed c r with mq := k.mq.tail, chest := (k.multiplied c r).1 })).orFlags b.uid
      (r.ff ||| (s.clusters[b.cl].multiplied c r).2)) := by
  rw [completeEntry_mul_eq hrun hfreed hop]
  refine (if_neg (mt (State.chestBad_iff ..).mp (by rwa [State.modCluster_same]))).trans ?_
  simp [State.chestApply, State.modCluster, Cluster.multiplied]

end Multiply

end Complete

/-- Without a Bureau the matrix engine does nothing. -/
theorem exec_matrixComplete_idle {s : State} {cl : Fin 64} (hb : s.bureauOf cl = none) : exec (.matrixComplete cl) s = .next s := by
  have harm : exec (.matrixComplete cl) s = execMatrixComplete cl s := rfl
  rw [harm, execMatrixComplete, hb]

theorem exec_mmagGroupComplete_idle {s : State} {cl : Fin 64} (hb : s.bureauOf cl = none) : exec (.mmagGroupComplete cl) s = .next s := by
  have harm : exec (.mmagGroupComplete cl) s = execMmagGroupComplete cl s := rfl
  rw [harm, execMmagGroupComplete, hb]

/-- MATRIX_COMPLETE completes the oldest entry when no GATH behind it has started. -/
theorem exec_matrixComplete_oldest {s : State} {cl : Fin 64} {b : Context} {e : MatEntry} {post : List MatEntry}
    (hb : s.bureauOf cl = some b) (hq : (s.clusters[cl]).mq = e :: post)
    (hpost : ∀ d ∈ post, d.run.any (fun r => r.latch.isSome) = false) :
    exec (.matrixComplete cl) s = .next ((s.tick.completeEntry b 0 e).getD s.tick) := by
  have hnone : post.findIdx? (fun d => d.run.any (fun r => r.latch.isSome)) = none := List.findIdx?_eq_none_iff.mpr hpost
  have harm : exec (.matrixComplete cl) s = execMatrixComplete cl s := rfl
  rw [harm, execMatrixComplete, hb]
  dsimp only
  rw [hq, List.findIdx?_cons, hnone]
  cases e.run.any (fun r => r.latch.isSome) with
  | false => rfl
  | true =>
    rw [if_pos rfl]
    dsimp only
    rw [ite_self]
    rfl

/-- MATRIX_COMPLETE takes the oldest entry from the queue, leaves memory and the other clusters as they were, and `P` holds of
the state it leaves. -/
def OldestLeaves (s : State) (cl : Fin 64) (post : List MatEntry) (P : State → Prop) : Prop :=
  ∃ t, exec (.matrixComplete cl) s = .next t ∧ (t.clusters[cl]).mq = post ∧ t.mem = s.mem ∧ t.stores = s.stores ∧
    (∀ j : Fin 64, j ≠ cl → t.clusters[j] = s.clusters[j]) ∧ P t

theorem OldestLeaves.imp {s : State} {cl : Fin 64} {post : List MatEntry} {P Q : State → Prop} (h : OldestLeaves s cl post P)
    (himp : ∀ t, P t → Q t) : OldestLeaves s cl post Q := by
  obtain ⟨t, hexec, hmq, hmem, hstores, hother, hP⟩ := h
  exact ⟨t, hexec, hmq, hmem, hstores, hother, himp t hP⟩

section Oldest
variable {s : State} {cl : Fin 64} {b : Context} {e : MatEntry} {post : List MatEntry} (hb : s.bureauOf cl = some b)
  (hq : (s.clusters[cl]).mq = e :: post) (hpost : ∀ d ∈ post, d.run.any (fun r => r.latch.isSome) = false)
include hb hq hpost

theorem exec_matrixComplete_stays (h : s.tick.completeEntry b 0 e = none) :
    ∃ t, exec (.matrixComplete cl) s = .next t ∧ t = { s with freeCtr := t.freeCtr } :=
  ⟨s.tick, by rw [exec_matrixComplete_oldest hb hq hpost, h]; rfl, rfl⟩

/-- An entry that leaves the queue by one change of its cluster leaves memory and the other clusters as they were. -/
theorem OldestLeaves.of_completeEntry {t : State} (h : s.tick.completeEntry b 0 e = some t) {f : Cluster → Cluster}
    (hclusters : t.clusters = (s.tick.modCluster cl f).clusters) (hmem : t.mem = s.mem) (hstores : t.stores = s.stores)
    (hmq : (f s.clusters[cl]).mq = post) {P : State → Prop} (hP : P t) : OldestLeaves s cl post P := by
  refine ⟨t, by rw [exec_matrixComplete_oldest hb hq hpost, h]; rfl, ?_, hmem, hstores, fun j hj => ?_, hP⟩
  · rw [hclusters, State.modCluster_same]
    exact hmq
  · rw [hclusters, State.modCluster_other _ _ _ _ hj, State.tick_clusters]

end Oldest

/-! The oldest entry has started, and its flag, if it has one, is empty again. -/

section Leaving
variable {s : State} {b : Context} {e : MatEntry} {post : List MatEntry} {r : MatRun} (hb : s.bureauOf b.cl = some b)
  (hq : (s.clusters[b.cl]).mq = e :: post) (hpost : ∀ d ∈ post, d.run.any (fun r => r.latch.isSome) = false)
  (hrun : e.run = some r) (hfreed : r.freed = true)
include hb hq hpost hrun hfreed

/-- GATH writes its latch when it completes (R263). -/
theorem oldestLeaves_gath {l : Fin 2} {x : Latch} (hop : e.op = .gath l) (hx : r.latch = some x) :
    OldestLeaves s b.cl post (fun t => (t.clusters[b.cl]).latches[l] = x ∧
      (∀ j : Fin 2, j ≠ l → (t.clusters[b.cl]).latches[j] = (s.clusters[b.cl]).latches[j]) ∧
      (t.clusters[b.cl]).chest = (s.clusters[b.cl]).chest ∧ t.me = s.me) := by
  refine .of_completeEntry hb hq hpost (completeEntry_gath hrun hfreed hop hx) rfl rfl rfl (congrArg List.tail hq) ?_
  rw [State.modCluster_same]
  exact ⟨Vector.getElem_set_self .., fun j hj => Vector.getElem_set_ne l.isLt j.isLt (Fin.val_ne_of_ne hj.symm), rfl, rfl⟩

/-- MZERO clears its tile (R274). -/
theorem oldestLeaves_mzero {q : Fin 8} (hop : e.op = .mzero q) :
    OldestLeaves s b.cl post (fun t => t.me = s.me ∧ ∀ (j : Fin 8) (m i : Nat), m < 128 → i < 256 →
      chestGet (t.clusters[b.cl]).chest j m i = if j = q then 0 else chestGet (s.clusters[b.cl]).chest j m i) := by
  refine .of_completeEntry hb hq hpost (completeEntry_mzero hrun hfreed hop) rfl rfl rfl (congrArg List.tail hq)
    ⟨rfl, fun j m i hm hi => ?_⟩
  rw [State.modCluster_same]
  exact chestGet_chestZero _ _ _ hm hi

/-- An MMAG completes after its last group, with the flags of its groups (R271). -/
theorem oldestLeaves_mmag {c : MxCtl} (hop : e.op = .mmag c) (hdone : r.groups.length ≤ r.done) :
    OldestLeaves s b.cl post (fun t =>
      t.context b.uid = some { b with flags := { b.flags with ff := b.flags.ff ||| r.ff } } ∧
      ∀ (j : Fin 8) (m i : Nat), m < 128 → i < 256 → chestGet (t.clusters[b.cl]).chest j m i =
        if c.z = true ∧ r.zeroed = false ∧ j = c.q then 0 else chestGet (s.clusters[b.cl]).chest j m i) := by
  refine .of_completeEntry hb hq hpost (completeEntry_mmag hrun hfreed hop hdone)
    (f := fun k => { k.zeroed c r with mq := k.mq.tail }) rfl rfl rfl (congrArg List.tail hq)
    ⟨State.context_orFlags _ _ _ (State.bureauOf_context hb : s.context b.uid = some b), fun j m i hm hi => ?_⟩
  rw [State.orFlags_clusters, State.modCluster_same]
  refine (Cluster.chestGet_zeroed _ c r j hm hi).trans ?_
  simp only [and_assoc]
  rfl

section Multiply
variable {l : Fin 2} {c : MxCtl} (hop : e.op = .gr l c ∨ e.op = .rg l c)
include hop

/-- A poisoned pair among those of the windows not yet added faults the multiply (06 R96). -/
theorem exec_matrixComplete_poisoned (h : ∃ p ∈ r.steps, p.1 ∈ (s.clusters[b.cl].zeroed c r).chestPoison) :
    ∃ u : State, exec (.matrixComplete b.cl) s = .next (u.matrixFault b .poison e.addr none) ∧ u = { s with freeCtr := u.freeCtr } :=
  ⟨s.tick, by rw [exec_matrixComplete_oldest hb hq hpost, completeEntry_mul_poisoned (s := s.tick) hrun hfreed hop h]; rfl, rfl⟩

/-- A multiply adds the windows not yet added to the Chest, and its flags go to its Bureau's FFLAGS (R268, R271). -/
theorem oldestLeaves_mul (h : ¬∃ p ∈ r.steps, p.1 ∈ (s.clusters[b.cl].zeroed c r).chestPoison) :
    OldestLeaves s b.cl post (fun t => (t.clusters[b.cl]).chest = (s.clusters[b.cl].multiplied c r).1 ∧
      t.context b.uid = some { b with flags := { b.flags with ff := b.flags.ff ||| (r.ff ||| (s.clusters[b.cl].multiplied c r).2) } }) := by
  refine .of_completeEntry hb hq hpost (completeEntry_mul hrun hfreed hop h)
    (f := fun k => { k.zeroed c r with mq := k.mq.tail, chest := (k.multiplied c r).1 }) rfl rfl rfl (congrArg List.tail hq)
    ⟨?_, State.context_orFlags _ _ _ (State.bureauOf_context hb : s.context b.uid = some b)⟩
  rw [State.orFlags_clusters, State.modCluster_same]
  rfl

end Multiply

end Leaving

/-! ### A flag is emptied (16 R263) -/

/-- The place of the first element that a test picks. -/
theorem findIdx?_append_cons {α : Type} {p : α → Bool} {pre post : List α} {e : α}
    (hpre : ∀ d ∈ pre, p d = false) (he : p e = true) :
    (pre ++ e :: post).findIdx? p = some pre.length := by
  rw [List.findIdx?_append, List.findIdx?_eq_none_iff.mpr hpre, List.findIdx?_cons, if_pos he]
  simp

theorem modify_append_cons {α : Type} (pre post : List α) (e : α) (f : α → α) :
    (pre ++ e :: post).modify pre.length f = pre ++ f e :: post := by
  induction pre with
  | nil => rfl
  | cons d pre ih => rw [List.cons_append, List.length_cons, List.modify_succ_cons, ih, List.cons_append]

theorem exec_handoffFlagEmptied_none {s : State} {cl : Fin 64}
    (h : ∀ e ∈ (s.clusters[cl]).mq, e.run.any (fun r => !r.freed) = false) : exec (.handoffFlagEmptied cl) s = .next s := by
  have harm : exec (.handoffFlagEmptied cl) s = execHandoffFlagEmptied cl s := rfl
  have hnone : (s.clusters[cl]).mq.findIdx? (fun e => e.run.any (fun r => !r.freed)) = none := List.findIdx?_eq_none_iff.mpr h
  rw [harm, execHandoffFlagEmptied]
  dsimp only
  rw [hnone]

/-- The first entry that has started with its flag still full empties it, and nothing else changes. -/
theorem exec_handoffFlagEmptied_first {s : State} {cl : Fin 64} {pre post : List MatEntry} {e : MatEntry} {r : MatRun} {f : Fin 32}
    (hq : (s.clusters[cl]).mq = pre ++ e :: post) (hpre : ∀ d ∈ pre, d.run.any (fun r => !r.freed) = false) (hrun : e.run = some r)
    (hfreed : r.freed = false) (hf : e.flag = some f) : exec (.handoffFlagEmptied cl) s =
      .next (s.modCluster cl (fun k => { k with
        hf := k.hf.set f.val { k.hf[f] with full := false } f.isLt
        mq := pre ++ { e with run := some { r with freed := true } } :: post })) := by
  have hfirst : (s.clusters[cl]).mq.findIdx? (fun e => e.run.any (fun r => !r.freed)) = some pre.length := by
    rw [hq]
    exact findIdx?_append_cons hpre (by rw [hrun]; simp [hfreed])
  have hentry : ((s.clusters[cl]).mq[pre.length]?).bind MatEntry.flag = some f := by
    rw [hq, List.getElem?_append_right le_rfl, Nat.sub_self]
    exact hf
  have harm : exec (.handoffFlagEmptied cl) s = execHandoffFlagEmptied cl s := rfl
  rw [harm, execHandoffFlagEmptied]
  dsimp only
  rw [hfirst]
  dsimp only
  rw [hentry]
  dsimp only
  rw [hq, modify_append_cons, MatEntry.modRun, hrun, State.setFlag, State.setMq, State.modCluster_modCluster]
  simp [State.modCluster]

/-! ### The obligation -/

/-- Settles O60: a window sum looks at its terms in no order; TwoSum follows the class of its sum; and the completion of the oldest
entry is one change of its cluster, in which the Chest is read pair by pair. -/
theorem windowsAndPairs : Obligations.WindowsAndPairs := by
  unfold Obligations.WindowsAndPairs
  refine ⟨?_, ?_, ?_⟩
  · intro rm sat terms w clash
    refine ⟨fun l h => windowSum_perm rm sat h, windowSum_clash, fun h n => windowSum_inf h,
      fun hz => windowSum_zeros hz fun n e => rfl, fun top hle hex => ?_⟩
    have hfin : ∀ x ∈ terms, ∃ n m e, x = .fin n m e := fun x hx => by
      obtain ⟨n, m, e, h, -⟩ := hle x hx
      exact ⟨n, m, e, h⟩
    refine windowSum_of_top hfin (topExp_eq_some hle hex) (congrArg List.sum (List.map_congr_left fun v hv => ?_)) (any_truncAt_iff _ _)
    obtain ⟨n, m, e, rfl⟩ := hfin v hv
    rw [truncAt_fin]
  · intro k p t
    refine ⟨fun h => if_pos h, fun h ht => ?_⟩
    intro add sub finite inf s c x s1 z r
    have hr : r = (BitVec.ofNat 64 ((twoSum k.sat s c x).1.2 * 2 ^ 32 + (twoSum k.sat s c x).1.1), (twoSum k.sat s c x).2) :=
      accumulate_float h p t
    have hflags := twoSum_flags (sat := k.sat) c (Nat.mod_lt _ (by decide) : s < 2 ^ 32) ht
    rw [hr]
    refine ⟨fun h1 => ?_, fun h1 hsat hs hx => ?_, fun h1 hall => ?_, fun hs hx hne => ?_, fun hs hx h1 => ?_, fun hinf hover => ?_⟩
    · rw [twoSum_finite c h1]
      rfl
    · rw [twoSum_saturated c (not_not.mp h1) hsat hs hx, Nat.zero_mul, Nat.zero_add]
      rfl
    · rw [twoSum_nonFinite c (not_not.mp h1) hall, Nat.zero_mul, Nat.zero_add]
      rfl
    · exact hflags.trans (if_pos ⟨hs, hx, hne⟩)
    · refine hflags.trans ((if_neg fun hi => ?_).trans (if_pos ⟨hs, hx, h1⟩))
      have hsi : s % 2 ^ 31 = 0x7F800000 := hi.1
      have hsf : s / 2 ^ 23 % 256 ≠ 255 := hs
      omega
    · exact hflags.trans ((if_neg hinf).trans (if_neg hover))
  · intro s cl
    refine ⟨?_, ?_, ?_, ?_⟩
    · intro hb i hi
      simp only [List.mem_cons, List.not_mem_nil, or_false] at hi
      rcases hi with rfl | rfl
      · exact exec_mmagGroupComplete_idle hb
      · exact exec_matrixComplete_idle hb
    · intro pre e post r f hq hpre hrun hfreed hf
      refine ⟨_, exec_handoffFlagEmptied_first hq hpre hrun hfreed hf, rfl, by rw [State.modCluster_same], fun k => ?_⟩
      rw [State.modCluster_same]
      by_cases hk : k = f
      · rw [if_pos hk, hk]
        exact Vector.getElem_set_self ..
      · rw [if_neg hk]
        exact Vector.getElem_set_ne f.isLt k.isLt (Fin.val_ne_of_ne (Ne.symm hk))
    · exact exec_handoffFlagEmptied_none
    · intro b e post hb hcl hq hpost k leaves stays flags
      subst hcl
      refine ⟨fun h => exec_matrixComplete_stays hb hq hpost (completeEntry_stays h), fun r hrun hfreed => ⟨?_, ?_, ?_, ?_⟩⟩
      · exact fun l x hop hx => oldestLeaves_gath hb hq hpost hrun hfreed hop hx
      · exact fun _ q hop => oldestLeaves_mzero hb hq hpost hrun hfreed hop
      · refine fun _ c hop =>
          ⟨fun h => exec_matrixComplete_stays hb hq hpost (completeEntry_mmag_stays hrun hfreed hop h), fun h => ?_⟩
        exact (oldestLeaves_mmag hb hq hpost hrun hfreed hop h).imp fun t ht => ⟨⟨r.ff, rfl, ht.1⟩, ht.2⟩
      · intro _ hlt l c hop z bad
        have hbad : bad ↔ ∃ p ∈ r.steps, p.1 ∈ (k.zeroed c r).chestPoison := by
          simp only [Cluster.mem_chestPoison_zeroed]
          rfl
        refine ⟨fun h => exec_matrixComplete_poisoned hb hq hpost hrun hfreed hop (hbad.mp h), fun h hch hst => ?_⟩
        refine (oldestLeaves_mul hb hq hpost hrun hfreed hop (mt hbad.mpr h)).imp fun t ⟨hchest, hctx⟩ =>
          ⟨fun j m i hm hi => ?_, _, fun i => ?_, hctx⟩
        · rw [hchest]
          refine (Cluster.chestGet_multiplied c hch hst j hm hi).trans ?_
          dsimp only
          cases r.steps.find? (fun p => p.1 == pairIdx j m i) <;> rfl
        · rw [BitVec.getLsbD_or, Bool.or_eq_true]
          exact or_congr_right (Cluster.multiplied_flag_iff c hch hst hlt i)

end Sys2Proof.Machine
end

section
/-! PROOFS. 06 Memories: the state after reset (R87; 05 R78, R83, R84; 07 R104; 08 R122; 09 R136; 10 R139). -/

namespace Sys2Proof.Machine

/-! ### Words made of one block over and over -/

/-- A word of equal blocks is the block times the number with a one at the foot of each. -/
theorem toNat_replicate {w : Nat} (x : BitVec w) (n : Nat) :
    (x.replicate n).toNat = x.toNat * ∑ k ∈ Finset.range n, (2 ^ w) ^ k := by
  induction n with
  | zero => simp
  | succ n ih =>
    have hlt : (x.replicate n).toNat < 2 ^ (w * n) := (x.replicate n).isLt
    rw [BitVec.replicate_succ, BitVec.toNat_cast, BitVec.toNat_append, ← Nat.shiftLeft_add_eq_or_of_lt hlt, Nat.shiftLeft_eq, ih,
      Finset.sum_range_succ, Nat.mul_add, Nat.pow_mul, Nat.add_comm]

/-- The number with a one at the foot of each block, written as a quotient of two numbers of ones. -/
theorem ofNat_mul_div_eq_replicate {w n : Nat} (hw : 0 < w) (x : BitVec w) :
    BitVec.ofNat (w * n) (x.toNat * ((2 ^ (w * n) - 1) / (2 ^ w - 1))) = x.replicate n := by
  have hval : (x.replicate n).toNat = x.toNat * ((2 ^ (w * n) - 1) / (2 ^ w - 1)) := by
    rw [toNat_replicate, Nat.geomSum_eq (Nat.pow_le_pow_right Nat.two_pos hw), ← Nat.pow_mul]
  rw [← hval, BitVec.ofNat_toNat, BitVec.setWidth_eq]

/-- A field inside a block of such a word is that field of the block. -/
theorem bitsAt_replicate {w : Nat} (x : BitVec w) {n b lo len : Nat} (hb : b < n) (hf : lo + len ≤ w) :
    bitsAt (x.replicate n) (w * b + lo) len = bitsAt x lo len := by
  refine Nat.eq_of_testBit_eq fun i => ?_
  rw [bitsAt_testBit, bitsAt_testBit]
  by_cases hi : i < len
  · have hlt : lo + i < w := by omega
    have hin : w * b + (lo + i) < w * n := by
      calc w * b + (lo + i) < w * b + w := Nat.add_lt_add_left hlt _
        _ = w * (b + 1) := (Nat.mul_succ w b).symm
        _ ≤ w * n := Nat.mul_le_mul_left w hb
    rw [BitVec.getLsbD_replicate, Nat.add_assoc, decide_eq_true hin, Nat.mul_add_mod, Nat.mod_eq_of_lt hlt, Bool.true_and]
  · simp [hi]

theorem bitsAt_ofNat_mul_div {w n size d b lo len : Nat} (x : BitVec w) (hx : x.toNat = d) (hw : 0 < w) (hsize : size = w * n)
    (hb : b < n) (hf : lo + len ≤ w) :
    bitsAt (BitVec.ofNat size (d * ((2 ^ size - 1) / (2 ^ w - 1)))) (w * b + lo) len = bitsAt x lo len := by
  subst hsize hx
  rw [ofNat_mul_div_eq_replicate hw, bitsAt_replicate x hb hf]

theorem bitsAt_one {n : Nat} (x : BitVec n) (i : Nat) : bitsAt x i 1 = (x.getLsbD i).toNat := by
  rw [bitsAt, BitVec.toNat_ushiftRight, Nat.pow_one, BitVec.getLsbD, Nat.toNat_testBit, Nat.shiftRight_eq_div_pow]

/-! ### The latches (06 R87) -/

/-- A latch at reset holds one descriptor, SCALE 0x7F and X 0x80, for each of its 1024 blocks. -/
theorem Latch.bitsAt_reset_desc {b lo len : Nat} (hb : b < 1024) (hf : lo + len ≤ 32) :
    bitsAt Latch.reset.desc (32 * b + lo) len = bitsAt 0x807F#32 lo len :=
  bitsAt_ofNat_mul_div 0x807F#32 rfl (by decide) rfl hb hf

/-- The fields of a block's reset descriptor: SCALE, X and nf. -/
theorem Latch.reset_descriptor {b : Nat} (hb : b < 1024) :
    bitsAt Latch.reset.desc (32 * b) 8 = 0x7F ∧ bitsAt Latch.reset.desc (32 * b + 8) 8 = 0x80 ∧
    Latch.reset.desc.getLsbD (32 * b + 16) = false := by
  refine ⟨(Latch.bitsAt_reset_desc (lo := 0) hb (by decide)).trans (by decide),
    (Latch.bitsAt_reset_desc hb (by decide)).trans (by decide), ?_⟩
  have hnf : (Latch.reset.desc.getLsbD (32 * b + 16)).toNat = 0 := by
    rw [← bitsAt_one, Latch.bitsAt_reset_desc hb (by decide)]
    decide
  exact Bool.toNat_eq_zero.mp hnf

/-! ### Lane groups and handoff flags (05 R83, R84) -/

theorem lpartWord_free : lpartWord (Vector.replicate 8 LaneGroup.free) = 0 := by decide

theorem HFlag.word_empty : HFlag.empty.word = 0 := by decide

/-! ### The parts of the state after reset -/

@[simp] theorem State.reset_cluster (c : Fin 64) : State.reset.clusters[c] = Cluster.reset := Vector.getElem_replicate c.isLt

@[simp] theorem State.reset_queue (q : Nat) : State.reset.queue q = Queue.reset := rfl

@[simp] theorem State.reset_asRec (fn sp : Fin 256) : State.reset.asRec fn sp = AsRec.reset := rfl

theorem State.reset_canonical : State.reset.Canonical :=
  ⟨rfl, fun _ h => absurd h List.not_mem_nil, List.Pairwise.nil⟩

theorem State.reset_numbered : State.reset.Numbered :=
  ⟨fun _ h => absurd h List.not_mem_nil, List.nodup_nil⟩

@[simp] theorem Cluster.reset_laneGroup (g : Fin 8) : Cluster.reset.lpart[g] = LaneGroup.free := Vector.getElem_replicate g.isLt

@[simp] theorem Cluster.reset_flag (f : Fin 32) : Cluster.reset.hf[f] = HFlag.empty := Vector.getElem_replicate f.isLt

@[simp] theorem Cluster.reset_plate (p : Fin 4) : Cluster.reset.plates[p] = ⟨none, none⟩ := Vector.getElem_replicate p.isLt

@[simp] theorem Cluster.reset_latch (l : Fin 2) : Cluster.reset.latches[l] = Latch.reset := Vector.getElem_replicate l.isLt

@[simp] theorem Cluster.reset_monitor (m : Fin 4) : Cluster.reset.mons[m] = Monitor.reset := Vector.getElem_replicate m.isLt

/-! ### The obligation -/

/-- Settles O1: every array of the state after reset repeats one reset value, the lists are empty, and a latch's descriptors are one
descriptor 1024 times over. -/
theorem resetState : Obligations.ResetState := by
  unfold Obligations.ResetState
  refine ⟨State.reset_canonical, State.reset_numbered, rfl, rfl, rfl, fun c => ?cluster, fun q => ?queue, fun fn sp => ?space⟩
  case queue =>
    rw [State.reset_queue]
    exact ⟨rfl, rfl, rfl, rfl, rfl, rfl⟩
  case space =>
    rw [State.reset_asRec]
    exact ⟨rfl, rfl⟩
  case cluster =>
    rw [State.reset_cluster]
    refine ⟨fun g => ?_, lpartWord_free, fun f => ?_, fun p => ?_, fun _ => rfl, rfl, fun l => ?_, rfl, rfl, rfl, rfl, fun m => ?_⟩
    · rw [Cluster.reset_laneGroup]
      rfl
    · rw [Cluster.reset_flag, HFlag.word_empty]
    · rw [Cluster.reset_plate]
    · rw [Cluster.reset_latch]
      exact ⟨rfl, rfl, fun b hb => Latch.reset_descriptor hb⟩
    · rw [Cluster.reset_monitor]
      exact ⟨rfl, rfl, rfl⟩

end Sys2Proof.Machine
end

section
/-! PROOFS. What the queue statements share: records by number, and what a write of one queue, function or address space leaves
(07 R104; 08 R122; 19 R307). -/

namespace Sys2Proof.Machine

/-! ### Records by number -/

/-- A record after one was set: every other number keeps its own. -/
theorem Assoc.get_set {β : Type} (d : β) (l : List (Nat × β)) (k : Nat) (v : β) (j : Nat) :
    Assoc.get d (Assoc.set l k v) j = if j = k then v else Assoc.get d l j := by
  induction l with
  | nil => simp [Assoc.set, Assoc.get, Sparse.get, eq_comm]
  | cons p r ih =>
    obtain ⟨a, b⟩ := p
    unfold Assoc.get at ih ⊢
    by_cases ha : a = k
    · subst ha
      by_cases hj : a = j <;> simp [Assoc.set, Sparse.get, hj, eq_comm (a := j)]
    · by_cases hj : a = j
      · subst hj
        simp [Assoc.set, Sparse.get, ha]
      · simp [Assoc.set, Sparse.get, ha, hj, ih]

@[simp] theorem Assoc.get_set_same {β : Type} (d : β) (l : List (Nat × β)) (k : Nat) (v : β) : Assoc.get d (Assoc.set l k v) k = v := by
  rw [Assoc.get_set, if_pos rfl]

theorem Assoc.get_set_other {β : Type} (d : β) (l : List (Nat × β)) {k j : Nat} (v : β) (h : j ≠ k) :
    Assoc.get d (Assoc.set l k v) j = Assoc.get d l j := by
  rw [Assoc.get_set, if_neg h]

/-! ### Queues, functions and address spaces -/

section Records
variable (s : State)

@[simp] theorem State.queue_modQueue_same (q : Nat) (f : Queue → Queue) : (s.modQueue q f).queue q = f (s.queue q) :=
  Assoc.get_set_same ..

theorem State.queue_modQueue_other {q j : Nat} (f : Queue → Queue) (h : j ≠ q) : (s.modQueue q f).queue j = s.queue j :=
  Assoc.get_set_other _ _ _ h

@[simp] theorem State.fnRec_modFn_same (fn : Fin 256) (f : FnRec → FnRec) : (s.modFn fn f).fnRec fn = f (s.fnRec fn) :=
  Assoc.get_set_same ..

@[simp] theorem State.asRec_modSpace_same (fn sp : Fin 256) (f : AsRec → AsRec) : (s.modSpace fn sp f).asRec fn sp = f (s.asRec fn sp) := by
  rw [State.asRec, State.modSpace, State.fnRec_modFn_same]
  exact Assoc.get_set_same ..

/-- A write of an address space leaves the rest of its function. -/
theorem State.modSpace_flrDone (fn sp : Fin 256) (f : AsRec → AsRec) : ((s.modSpace fn sp f).fnRec fn).flrDone = (s.fnRec fn).flrDone := by
  rw [State.modSpace, State.fnRec_modFn_same]

end Records

end Sys2Proof.Machine
end

section
/-! PROOFS. The host's registers: what it writes and reads of BAR0, and what the PF assigns (07 R104, R105, R110; 08 R122; 09 R128;
19 R307, R308, R312, R313). -/

namespace Sys2Proof.Machine

theorem State.hostUp_iff (s : State) (fn : Fin 256) :
    s.hostUp fn = true ↔ (s.dies[(0 : Fin 8)]).status = .present ∧ (s.fnRec fn).flrDone = false := by
  simp [State.hostUp]

/-! ### Halves of a 64-bit register -/

theorem getLsbD_putHalf_low (w : Word) (v : BitVec 32) (i : Nat) :
    (putHalf w false v).getLsbD i = if i < 32 then v.getLsbD i else w.getLsbD i := by
  refine (BitVec.getLsbD_append (x := (w >>> 32).setWidth 32) (y := v)).trans ?_
  by_cases h : i < 32
  · simp [h]
  · by_cases hi : i < 64
    · simp [h, show i - 32 < 32 by omega, show 32 + (i - 32) = i by omega]
    · simp [h, show ¬i - 32 < 32 by omega, BitVec.getLsbD_of_ge w i (by omega)]

theorem getLsbD_putHalf_high (w : Word) (v : BitVec 32) (i : Nat) :
    (putHalf w true v).getLsbD i = if i < 32 then w.getLsbD i else v.getLsbD (i - 32) := by
  refine (BitVec.getLsbD_append (x := v) (y := w.setWidth 32)).trans ?_
  by_cases h : i < 32 <;> simp [h]

/-- A write of the low half leaves the high one. -/
theorem putHalf_low_halves (w : Word) (v : BitVec 32) :
    (putHalf w false v).setWidth 32 = v ∧ (putHalf w false v).extractLsb' 32 32 = w.extractLsb' 32 32 := by
  constructor <;> ext i hi <;> simp [getLsbD_putHalf_low, hi]

/-- A write of the high half leaves the low one. -/
theorem putHalf_high_halves (w : Word) (v : BitVec 32) :
    (putHalf w true v).extractLsb' 32 32 = v ∧ (putHalf w true v).setWidth 32 = w.setWidth 32 := by
  constructor <;> ext i hi <;> simp [getLsbD_putHalf_high, hi]

/-- The two halves of a word, written one after the other, are the word. -/
theorem putHalf_putHalf (r w : Word) : putHalf (putHalf r false (w.setWidth 32)) true ((w >>> 32).setWidth 32) = w := by
  refine BitVec.eq_of_getLsbD_eq fun i hi => ?_
  rw [getLsbD_putHalf_high, getLsbD_putHalf_low]
  by_cases h : i < 32
  · simp [h]
  · simp [h, show i - 32 < 32 by omega, show 32 + (i - 32) = i by omega]

theorem setWidth_setWidth_word (v : BitVec 32) : ((v.setWidth 64 : Word).setWidth 32 : BitVec 32) = v := by simp

/-- Which half of a mailbox word an offset names. -/
theorem mailboxHalf_eq (k : Fin 512) (high : Bool) : ((0xA0000 + 8 * k.val + 4 * high.toNat) % 8 == 4) = high := by
  rw [show (0xA0000 + 8 * k.val + 4 * high.toNat) % 8 = 4 * high.toNat by have := high.toNat_lt; omega]
  cases high <;> rfl

/-! ### One word of BAR0 is written (19 R308) -/

theorem State.mmioWord_down {s : State} {fn : Fin 256} (h : s.hostUp fn = false) (off : Nat) (v : BitVec 32) :
    s.mmioWord fn off v = s := by
  rw [State.mmioWord, if_pos (.inr (by simp [h]))]

section Word
variable {s : State} {fn : Fin 256} (hup : s.hostUp fn = true) (v : BitVec 32)
include hup

theorem State.mmioWord_accepts {off : Nat} (hal : off % 4 = 0) : ¬(off % 4 ≠ 0 ∨ (!s.hostUp fn) = true) := by simp [hup, hal]

/-- A queue's register block. -/
theorem State.mmioWord_queue (q : Fin 8192) {off : Nat} (hoff : off < 64) (hal : off % 4 = 0) :
    s.mmioWord fn (64 * q.val + off) v =
      if (s.queue q.val).owner = fn then s.modQueue q.val (fun k => k.writeReg off v) else s := by
  have hq : (64 * q.val + off) / 64 = q.val := by omega
  have hr : (64 * q.val + off) % 64 = off := by omega
  rw [State.mmioWord, if_neg (State.mmioWord_accepts hup (by omega)), if_pos (by omega), hq, hr]

/-- Half of ASROOT, while no thread of the space is resident. -/
theorem State.mmioWord_root {sp : Fin 256} (hfree : s.spaceBusy fn sp = false) (high : Bool) :
    s.mmioWord fn (0x80000 + 32 * sp.val + 4 * high.toNat) v =
      s.modSpace fn sp (fun a => { a with root := putHalf a.root high v }) := by
  have hb := high.toNat_lt
  have hsp : (⟨(0x80000 + 32 * sp.val + 4 * high.toNat - 0x80000) / 32 % 256, Nat.mod_lt _ (by decide)⟩ : Fin 256) = sp :=
    Fin.ext (by dsimp only; omega)
  have hhigh : ((0x80000 + 32 * sp.val + 4 * high.toNat) % 32 == 4) = high := by
    have : (0x80000 + 32 * sp.val + 4 * high.toNat) % 32 = 4 * high.toNat := by omega
    rw [this]
    cases high <;> rfl
  rw [State.mmioWord, if_neg (State.mmioWord_accepts hup (by omega)), if_neg (by omega), if_pos (by omega)]
  simp only [hsp, hfree, hhigh]
  rw [if_pos ⟨by omega, rfl⟩]

/-- A limit of the budget block. -/
theorem State.mmioWord_limit {i : Nat} (hi : i < 8) : s.mmioWord fn (0x82000 + 4 * i) v = s.writeLimit fn i v := by
  rw [State.mmioWord, if_neg (State.mmioWord_accepts hup (by omega)), if_neg (by omega), if_neg (by omega), if_pos (by omega),
    show (0x82000 + 4 * i - 0x82000) / 4 = i by omega]

/-- Half of a mailbox word. -/
theorem State.mmioWord_mailbox (k : Fin 512) (high : Bool) : s.mmioWord fn (0xA0000 + 8 * k.val + 4 * high.toNat) v =
    s.modFn fn (fun f => { f with mailbox := Assoc.set f.mailbox k.val (putHalf (Assoc.get 0 f.mailbox k.val) high v) }) := by
  have hb := high.toNat_lt
  have hk : (0xA0000 + 8 * k.val + 4 * high.toNat - 0xA0000) / 8 = k.val := by omega
  rw [State.mmioWord, if_neg (State.mmioWord_accepts hup (by omega)), if_neg (by omega), if_neg (by omega), if_neg (by omega), if_neg (by omega),
    if_pos (by omega), hk, mailboxHalf_eq]

end Word

/-! ### MMIO_REGISTER_WRITE, QTAIL_WRITE, QCTL_WRITE and QSTAT_CLEAR -/

/-- A narrow write is one word. -/
theorem exec_mmioRegisterWrite_narrow (s : State) (fn : Fin 256) {off : Nat} (hoff : off < 2 ^ 20) (v : BitVec 32) :
    exec (.mmioRegisterWrite fn (BitVec.ofNat 20 off) (v.setWidth 64) false) s = .next (s.mmioWord fn off v) := by
  show execMmioRegisterWrite fn (BitVec.ofNat 20 off) (v.setWidth 64) false s = _
  rw [execMmioRegisterWrite, if_neg Bool.false_ne_true, BitVec.toNat_ofNat, Nat.mod_eq_of_lt hoff, setWidth_setWidth_word]

/-- A wide write is two words, the low half first. -/
theorem exec_mmioRegisterWrite_wide (s : State) (fn : Fin 256) {off : Nat} (hoff : off < 2 ^ 20) (hal : off % 8 = 0) (w : Word) :
    exec (.mmioRegisterWrite fn (BitVec.ofNat 20 off) w true) s =
      .next ((s.mmioWord fn off (w.setWidth 32)).mmioWord fn (off + 4) ((w >>> 32).setWidth 32)) := by
  show execMmioRegisterWrite fn (BitVec.ofNat 20 off) w true s = _
  rw [execMmioRegisterWrite, if_pos rfl, BitVec.toNat_ofNat, Nat.mod_eq_of_lt hoff, if_neg (not_not_intro hal)]

/-- A register of a queue that another function owns. -/
theorem exec_mmioRegisterWrite_foreign {s : State} {fn : Fin 256} {q : Fin 8192} (h : (s.queue q.val).owner ≠ fn) {off : Nat}
    (hoff : off < 64) (hal : off % 4 = 0) (v : BitVec 32) :
    exec (.mmioRegisterWrite fn (BitVec.ofNat 20 (64 * q.val + off)) (v.setWidth 64) false) s = .next s := by
  rw [exec_mmioRegisterWrite_narrow s fn (by omega)]
  cases hup : s.hostUp fn
  · rw [State.mmioWord_down hup]
  · rw [State.mmioWord_queue hup v q hoff hal, if_neg h]

theorem exec_mmioRegisterWrite_queue {s : State} {fn : Fin 256} (hup : s.hostUp fn = true) {q : Fin 8192}
    (hown : (s.queue q.val).owner = fn) {off : Nat} (hoff : off < 64) (hal : off % 4 = 0) (v : BitVec 32) :
    exec (.mmioRegisterWrite fn (BitVec.ofNat 20 (64 * q.val + off)) (v.setWidth 64) false) s =
      .next (s.modQueue q.val (fun k => k.writeReg off v)) := by
  rw [exec_mmioRegisterWrite_narrow s fn (by omega), State.mmioWord_queue hup v q hoff hal, if_pos hown]

theorem exec_qtailWrite (s : State) (fn : Fin 256) (q : Fin 8192) (v : BitVec 32) : exec (.qtailWrite fn q v) s =
    .next (if s.hostUp fn ∧ (s.queue q.val).owner = fn then s.writeTail q.val v else s) := rfl

/-- A host register event of a queue that the function may not touch does nothing. -/
theorem exec_queueEvent_denied {s : State} {fn : Fin 256} {q : Fin 8192} (h : s.hostUp fn = false ∨ (s.queue q.val).owner ≠ fn) (v : BitVec 32) :
    exec (.qtailWrite fn q v) s = .next s ∧ exec (.qctlWrite fn q v) s = .next s ∧ exec (.qstatClear fn q) s = .next s := by
  have hor : (!s.hostUp fn) = true ∨ (s.queue q.val).owner ≠ fn := h.imp (by simp) id
  refine ⟨?_, if_pos hor, if_pos hor⟩
  rw [exec_qtailWrite, if_neg]
  rintro ⟨hup, hown⟩
  rcases h with h | h
  · simp [hup] at h
  · exact h hown

theorem State.dropHead_none {s : State} {q : Nat} (h : (s.queue q).head = none) : s.dropHead q = s := by
  rw [State.dropHead, h]

/-- QCTL as a write stores it: EN only on a die out of reset. -/
def State.controlWord (s : State) (q : Nat) (v : BitVec 32) : BitVec 32 :=
  if (s.dies[queueDie q]).status = .present then v else v &&& ~~~1

section Owned
variable {s : State} {fn : Fin 256} (hup : s.hostUp fn = true) {q : Fin 8192} (hown : (s.queue q.val).owner = fn) (v : BitVec 32)
include hup hown

theorem exec_qtailWrite_owned : exec (.qtailWrite fn q v) s = .next (s.writeTail q.val v) := by
  rw [exec_qtailWrite, if_pos ⟨hup, hown⟩]

theorem not_denied : ¬((!s.hostUp fn) = true ∨ (s.queue q.val).owner ≠ fn) := by simp [hup, hown]

theorem exec_qctlWrite_owned (hh : (s.queue q.val).head = none) :
    exec (.qctlWrite fn q v) s = .next (s.modQueue q.val (fun k => k.control (s.controlWord q.val v))) := by
  show execQctlWrite fn q v s = _
  rw [execQctlWrite, if_neg (not_denied hup hown)]
  simp only [State.dropHead_none hh, ite_self]
  rfl

theorem exec_qstatClear_owned (hh : (s.queue q.val).head = none) (hc : ∀ c ∈ s.copies, c.stoppedOf q.val = false) :
    exec (.qstatClear fn q) s = .next (s.modQueue q.val (fun k => { k with stop := false, reason := 0, sseq := 0 })) := by
  have hkeep : s.copies.filter (fun c => !c.stoppedOf q.val) = s.copies := List.filter_eq_self.mpr fun c hm => by simp [hc c hm]
  show execQstatClear fn q s = _
  rw [execQstatClear, if_neg (not_denied hup hown)]
  simp only [State.dropHead_none hh, ite_self, hkeep]

end Owned

/-! ### One word of BAR0 is read (19 R307, R308) -/

section Read
variable (s : State) (fn : Fin 256)

theorem State.mmioRead_misaligned {off : Nat} (h : off % 4 ≠ 0) : s.mmioRead fn off = 0 := by
  rw [State.mmioRead, if_pos h]

theorem State.mmioRead_queue (q : Fin 8192) {off : Nat} (hoff : off < 64) (hal : off % 4 = 0) :
    s.mmioRead fn (64 * q.val + off) = if (s.queue q.val).owner = fn then (s.queue q.val).readReg off else 0 := by
  have hq : (64 * q.val + off) / 64 = q.val := by omega
  have hr : (64 * q.val + off) % 64 = off := by omega
  rw [State.mmioRead, if_neg (by omega), if_pos (by omega), hq, hr]

theorem State.mmioRead_space (sp : Fin 256) {off : Nat} (hoff : off < 32) (hal : off % 4 = 0) :
    s.mmioRead fn (0x80000 + 32 * sp.val + off) = (s.asRec fn sp).readReg off := by
  have hq : (0x80000 + 32 * sp.val + off - 0x80000) / 32 = sp.val := by omega
  have hr : (0x80000 + 32 * sp.val + off) % 32 = off := by omega
  rw [State.mmioRead, if_neg (by omega), if_neg (by omega), if_pos (by omega), hq, hr, State.asRec]

theorem State.mmioRead_limit {i : Nat} (hi : i < 8) : s.mmioRead fn (0x82000 + 4 * i) =
    (((s.fnRec fn).llim.toList ++ (s.fnRec fn).tenant.lim.toList)[i]?).getD 0 := by
  rw [State.mmioRead, if_neg (by omega), if_neg (by omega), if_neg (by omega), if_pos (by omega),
    show (0x82000 + 4 * i - 0x82000) / 4 = i by omega]

theorem State.mmioRead_mailbox (k : Fin 512) (high : Bool) :
    s.mmioRead fn (0xA0000 + 8 * k.val + 4 * high.toNat) = halfOf (Assoc.get 0 (s.fnRec fn).mailbox k.val) high := by
  have hb := high.toNat_lt
  have hk : (0xA0000 + 8 * k.val + 4 * high.toNat - 0xA0000) / 8 = k.val := by omega
  rw [State.mmioRead, if_neg (by omega), if_neg (by omega), if_neg (by omega), if_neg (by omega), if_neg (by omega),
    if_pos (by omega), hk, mailboxHalf_eq]

/-- The offsets that BAR0 does not list. -/
theorem State.mmioRead_unlisted {off : Nat}
    (h : (0x82020 ≤ off ∧ off < 0x83000) ∨ (0x93000 ≤ off ∧ off < 0xA0000) ∨ 0xA1000 ≤ off) : s.mmioRead fn off = 0 := by
  by_cases hal : off % 4 = 0
  · rw [State.mmioRead, if_neg (not_not_intro hal), if_neg (by omega), if_neg (by omega), if_neg (by omega), if_neg (by omega),
      if_neg (by omega)]
  · exact s.mmioRead_misaligned fn hal

end Read

/-- The value of two fields side by side. -/
theorem toNat_append_eq_add {m n : Nat} (x : BitVec m) (y : BitVec n) : (x ++ y).toNat = 2 ^ n * x.toNat + y.toNat := by
  rw [BitVec.toNat_append, ← Nat.shiftLeft_add_eq_or_of_lt y.isLt, Nat.shiftLeft_eq, Nat.mul_comm]

theorem Queue.readReg_control (k : Queue) :
    k.readReg 0x18 = BitVec.ofNat 32 (k.en.toNat + 2 * k.prio.toNat + 256 * k.weight.toNat) := by
  refine BitVec.eq_of_toNat_eq ?_
  show ((k.weight ++ 0#5 ++ k.prio ++ BitVec.ofBool k.en).setWidth 32).toNat = _
  simp only [BitVec.toNat_setWidth, toNat_append_eq_add, BitVec.toNat_ofNat, BitVec.toNat_ofBool]
  congr 1
  omega

theorem Queue.readReg_status (k : Queue) : k.readReg 0x20 = BitVec.ofNat 32 (k.stop.toNat + 16 * k.reason.toNat) := by
  refine BitVec.eq_of_toNat_eq ?_
  show ((k.reason ++ 0#3 ++ BitVec.ofBool k.stop).setWidth 32).toNat = _
  simp only [BitVec.toNat_setWidth, toNat_append_eq_add, BitVec.toNat_ofNat, BitVec.toNat_ofBool]
  congr 1
  omega

/-- A queue's register block, word by word. -/
theorem Queue.readReg_words (k : Queue) : (List.range 16).map (fun j => k.readReg (4 * j)) =
    [k.qbase.setWidth 32, k.qbase.extractLsb' 32 32, k.qtail, k.qhead, k.qcompl.setWidth 32, k.qcompl.extractLsb' 32 32,
      BitVec.ofNat 32 (k.en.toNat + 2 * k.prio.toNat + 256 * k.weight.toNat), 0,
      BitVec.ofNat 32 (k.stop.toNat + 16 * k.reason.toNat), k.sseq, 0, 0, 0, 0, 0, 0] := by
  rw [← k.readReg_control, ← k.readReg_status]
  rfl

/-- An address-space record, word by word. -/
theorem AsRec.readReg_words (a : AsRec) : (List.range 8).map (fun j => a.readReg (4 * j)) =
    [a.root.setWidth 32, a.root.extractLsb' 32 32, a.gen, 0, 0, 0, BitVec.ofNat 32 a.done.toNat, 0] := by
  have hdone : a.readReg 24 = BitVec.ofNat 32 a.done.toNat := by
    unfold AsRec.readReg
    cases a.done <;> rfl
  rw [← hdone]
  rfl

/-! ### A register event of one queue -/

/-- A register event changes one queue to `k` and nothing else. -/
def State.QueueBecomes (s : State) (q : Nat) (i : Instr) (k : Queue) : Prop :=
  ∃ t, exec i s = .next t ∧ t.queue q = k ∧ (∀ j, j ≠ q → t.queue j = s.queue j) ∧ t = { s with queues := t.queues }

theorem State.queueBecomes_modQueue {s : State} {q : Nat} {i : Instr} {f : Queue → Queue} (h : exec i s = .next (s.modQueue q f)) :
    s.QueueBecomes q i (f (s.queue q)) :=
  ⟨_, h, s.queue_modQueue_same q f, fun _ hj => s.queue_modQueue_other f hj, rfl⟩

section Owned
variable {s : State} {fn : Fin 256} (hup : s.hostUp fn = true) {q : Fin 8192} (hown : (s.queue q.val).owner = fn) (v : BitVec 32)
include hup hown

theorem queueBecomes_qtail (h1 : 1 ≤ (v - (s.queue q.val).qtail).toNat) (h2 : (v - (s.queue q.val).qtail).toNat < 2 ^ 31) :
    s.QueueBecomes q.val (.qtailWrite fn q v) { s.queue q.val with qtail := v } :=
  State.queueBecomes_modQueue (f := fun k => { k with qtail := v }) (by
    rw [exec_qtailWrite_owned hup hown, State.writeTail, if_pos ⟨h1, h2⟩])

theorem exec_qtailWrite_outside (h : (v - (s.queue q.val).qtail).toNat = 0 ∨ 2 ^ 31 ≤ (v - (s.queue q.val).qtail).toNat) :
    exec (.qtailWrite fn q v) s = .next s := by
  rw [exec_qtailWrite_owned hup hown, State.writeTail, if_neg (by omega)]

theorem queueBecomes_qctl (hh : (s.queue q.val).head = none) :
    s.QueueBecomes q.val (.qctlWrite fn q v) ((s.queue q.val).control (s.controlWord q.val v)) :=
  State.queueBecomes_modQueue (exec_qctlWrite_owned hup hown v hh)

theorem queueBecomes_qstat (hh : (s.queue q.val).head = none) (hc : ∀ c ∈ s.copies, c.stoppedOf q.val = false) :
    s.QueueBecomes q.val (.qstatClear fn q) { s.queue q.val with stop := false, reason := 0, sseq := 0 } :=
  State.queueBecomes_modQueue (f := fun k => { k with stop := false, reason := 0, sseq := 0 }) (exec_qstatClear_owned hup hown hh hc)

theorem queueBecomes_register {off : Nat} (hoff : off < 64) (hal : off % 4 = 0) :
    s.QueueBecomes q.val (.mmioRegisterWrite fn (BitVec.ofNat 20 (64 * q.val + off)) (v.setWidth 64) false)
      ((s.queue q.val).writeReg off v) :=
  State.queueBecomes_modQueue (exec_mmioRegisterWrite_queue hup hown hoff hal v)

end Owned

theorem Queue.writeReg_enabled {k : Queue} (h : k.en = true) (off : Nat) (v : BitVec 32) : k.writeReg off v = k := if_pos h

/-- A disabled queue takes QHEAD and the halves of QBASE and QCOMPL. -/
theorem Queue.writeReg_disabled {k : Queue} (h : k.en = false) (v : BitVec 32) :
    k.writeReg 0 v = { k with qbase := putHalf k.qbase false v } ∧ k.writeReg 4 v = { k with qbase := putHalf k.qbase true v } ∧
    k.writeReg 12 v = { k with qhead := v } ∧ k.writeReg 16 v = { k with qcompl := putHalf k.qcompl false v } ∧
    k.writeReg 20 v = { k with qcompl := putHalf k.qcompl true v } := by
  have hen : ¬k.en = true := by simp [h]
  exact ⟨if_neg hen, if_neg hen, if_neg hen, if_neg hen, if_neg hen⟩

/-- Only EN of a written QCTL depends on the die. -/
theorem State.controlWord_extract (s : State) (q : Nat) (v : BitVec 32) {lo : Nat} (h : 0 < lo) (n : Nat) :
    (s.controlWord q v).extractLsb' lo n = v.extractLsb' lo n := by
  unfold State.controlWord
  split
  · rfl
  · ext i hi
    rw [BitVec.getElem_extractLsb', BitVec.getElem_extractLsb', BitVec.getLsbD_and, BitVec.getLsbD_not]
    by_cases hlt : lo + i < 32
    · simp [hlt, h.ne']
    · simp [BitVec.getLsbD_of_ge v (lo + i) (by omega)]

theorem State.controlWord_en (s : State) (q : Nat) (v : BitVec 32) :
    (s.controlWord q v).getLsbD 0 = (v.getLsbD 0 && decide ((s.dies[queueDie q]).status = .present)) := by
  by_cases h : (s.dies[queueDie q]).status = .present
  · rw [State.controlWord, if_pos h, decide_eq_true h, Bool.and_true]
  · rw [State.controlWord, if_neg h, decide_eq_false h, BitVec.getLsbD_and]
    rfl

/-- What a write of QCTL leaves: EN, PRIO, WEIGHT with 1 for 0, and QBASE as the next entry's place after enabling (07 R104). -/
theorem Queue.control_fields (s : State) (q : Nat) (v : BitVec 32) (k : Queue) :
    let k' := k.control (s.controlWord q v)
    k'.en = (v.getLsbD 0 && decide ((s.dies[queueDie q]).status = .present)) ∧ k'.prio.toNat = v.toNat / 2 % 4 ∧
      k'.weight.toNat = max 1 (v.toNat / 256 % 256) ∧ k'.fresh = (k.fresh || (k'.en && !k.en)) ∧
      k' = { k with en := k'.en, prio := k'.prio, weight := k'.weight, fresh := k'.fresh } := by
  refine ⟨s.controlWord_en q v, ?_, ?_, rfl, rfl⟩
  · show ((s.controlWord q v).extractLsb' 1 2).toNat = _
    rw [s.controlWord_extract q v (by decide), BitVec.extractLsb'_toNat, Nat.shiftRight_eq_div_pow]
  · show (if (s.controlWord q v).extractLsb' 8 8 = 0 then 1 else (s.controlWord q v).extractLsb' 8 8).toNat = _
    rw [s.controlWord_extract q v (by decide)]
    have hval : (v.extractLsb' 8 8).toNat = v.toNat / 256 % 256 := by
      rw [BitVec.extractLsb'_toNat, Nat.shiftRight_eq_div_pow]
    have hzero : v.extractLsb' 8 8 = 0 ↔ v.toNat / 256 % 256 = 0 := by rw [← hval, BitVec.toNat_eq]; rfl
    split
    · rename_i h
      rw [hzero.mp h]
      rfl
    · rename_i h
      rw [hzero] at h
      omega

/-! ### Address-space roots, limits and mailbox words -/

section Up
variable {s : State} {fn : Fin 256} (hup : s.hostUp fn = true)
include hup

theorem State.hostUp_modSpace (sp : Fin 256) (f : AsRec → AsRec) : (s.modSpace fn sp f).hostUp fn = true := by
  rw [State.hostUp_iff] at hup ⊢
  exact ⟨hup.1, (s.modSpace_flrDone fn sp f).trans hup.2⟩

/-- A wide write of ASROOT. -/
theorem mmioRegisterWrite_root {sp : Fin 256} (hfree : s.spaceBusy fn sp = false) (w : Word) :
    ∃ t, exec (.mmioRegisterWrite fn (BitVec.ofNat 20 (0x80000 + 32 * sp.val)) w true) s = .next t ∧
      t.asRec fn sp = { s.asRec fn sp with root := w } := by
  have hlow := State.mmioWord_root hup (w.setWidth 32) hfree false
  have hhigh := State.mmioWord_root (State.hostUp_modSpace hup sp (fun a => { a with root := putHalf a.root false (w.setWidth 32) }))
    ((w >>> 32).setWidth 32) (sp := sp) hfree true
  refine ⟨_, exec_mmioRegisterWrite_wide s fn (by omega) (by omega) w, ?_⟩
  rw [show s.mmioWord fn (0x80000 + 32 * sp.val) _ = _ from hlow,
    show State.mmioWord _ fn (0x80000 + 32 * sp.val + 4) _ = _ from hhigh]
  simp only [State.asRec_modSpace_same, putHalf_putHalf]

/-- A limit of the tenant. -/
theorem mmioRegisterWrite_tenantLimit (i : Fin 4) (v : BitVec 32) :
    ∃ t, exec (.mmioRegisterWrite fn (BitVec.ofNat 20 (0x82010 + 4 * i.val)) (v.setWidth 64) false) s = .next t ∧
      ((t.fnRec fn).tenant.lim)[i] = v ∧ ∀ j : Fin 4, j ≠ i → ((t.fnRec fn).tenant.lim)[j] = ((s.fnRec fn).tenant.lim)[j] := by
  refine ⟨_, exec_mmioRegisterWrite_narrow s fn (by omega) v, ?_⟩
  rw [show 0x82010 + 4 * i.val = 0x82000 + 4 * (4 + i.val) by omega, State.mmioWord_limit hup v (by omega), State.writeLimit,
    if_neg (by omega), State.fnRec_modFn_same, Nat.add_sub_cancel_left]
  refine ⟨by simp, fun j hj => ?_⟩
  simp [Fin.val_ne_of_ne hj.symm]

/-- A launch limit, which every launch context of the function takes. -/
theorem mmioRegisterWrite_launchLimit (i : Fin 4) (v : BitVec 32) :
    ∃ t, exec (.mmioRegisterWrite fn (BitVec.ofNat 20 (0x82000 + 4 * i.val)) (v.setWidth 64) false) s = .next t ∧
      ((t.fnRec fn).llim)[i] = v ∧ ∀ l ∈ t.launches, l.fn = fn → l.budget.lim[i] = v := by
  refine ⟨_, exec_mmioRegisterWrite_narrow s fn (by omega) v, ?_⟩
  rw [State.mmioWord_limit hup v (by omega), State.writeLimit, if_pos i.isLt]
  refine ⟨?_, fun l hl hfn => ?_⟩
  · show (((s.modFn fn (fun f => { f with llim := f.llim.setIfInBounds i.val v })).fnRec fn).llim)[i] = v
    rw [State.fnRec_modFn_same]
    simp
  · obtain ⟨l0, -, rfl⟩ := List.mem_map.mp hl
    by_cases h0 : l0.fn = fn
    · simp [h0]
    · simp [h0] at hfn

/-- A wide write of a mailbox word. -/
theorem mmioRegisterWrite_mailbox (k : Fin 512) (w : Word) :
    ∃ t, exec (.mmioRegisterWrite fn (BitVec.ofNat 20 (0xA0000 + 8 * k.val)) w true) s = .next t ∧
      Assoc.get 0 (t.fnRec fn).mailbox k.val = w := by
  have hlow := State.mmioWord_mailbox hup (w.setWidth 32) k false
  have hup' : (s.mmioWord fn (0xA0000 + 8 * k.val) (w.setWidth 32)).hostUp fn = true := by
    rw [show s.mmioWord fn (0xA0000 + 8 * k.val) _ = _ from hlow, State.hostUp_iff, State.fnRec_modFn_same]
    exact (s.hostUp_iff fn).mp hup
  refine ⟨_, exec_mmioRegisterWrite_wide s fn (by omega) (by omega) w, ?_⟩
  rw [show State.mmioWord _ fn (0xA0000 + 8 * k.val + 4) _ = _ from State.mmioWord_mailbox hup' ((w >>> 32).setWidth 32) k true,
    show s.mmioWord fn (0xA0000 + 8 * k.val) _ = _ from hlow]
  simp only [State.fnRec_modFn_same, Assoc.get_set_same, putHalf_putHalf]

end Up

/-! ### Reads, and what the PF does -/

/-- A narrow read tells one word. -/
theorem State.hostRead_narrow {s : State} {fn : Fin 256} (hup : s.hostUp fn = true) (off : Nat) :
    s.hostRead fn off false = { s with notes := s.notes ++ [.mmio fn off ((s.mmioRead fn off).setWidth 64)] } := by
  simp [State.hostRead, hup]

/-- A wide read tells two. -/
theorem State.hostRead_wide {s : State} {fn : Fin 256} (hup : s.hostUp fn = true) {off : Nat} (hal : off % 8 = 0) :
    s.hostRead fn off true = { s with notes := s.notes ++ [.mmio fn off (s.mmioRead fn (off + 4) ++ s.mmioRead fn off)] } := by
  simp [State.hostRead, hup, hal]

theorem State.hostRead_down {s : State} {fn : Fin 256} (h : s.hostUp fn = false) (off : Nat) (wide : Bool) :
    s.hostRead fn off wide = s := by
  simp [State.hostRead, h]

/-- A queue's register block, as its owner reads it. -/
theorem State.mmioRead_block {s : State} {fn : Fin 256} {q : Fin 8192} (hown : (s.queue q.val).owner = fn) :
    (List.range 16).map (fun j => s.mmioRead fn (64 * q.val + 4 * j)) = (List.range 16).map (fun j => (s.queue q.val).readReg (4 * j)) := by
  refine List.map_congr_left fun j hj => ?_
  have hlt := List.mem_range.mp hj
  rw [s.mmioRead_queue fn q (by omega) (by omega), if_pos hown]

theorem State.mmioRead_foreign {s : State} {fn : Fin 256} {q : Fin 8192} (hown : (s.queue q.val).owner ≠ fn) {j : Nat} (hj : j < 64) :
    s.mmioRead fn (64 * q.val + j) = 0 := by
  by_cases hal : j % 4 = 0
  · rw [s.mmioRead_queue fn q hj hal, if_neg hown]
  · exact s.mmioRead_misaligned fn (by omega)

theorem State.mmioRead_record (s : State) (fn sp : Fin 256) :
    (List.range 8).map (fun j => s.mmioRead fn (0x80000 + 32 * sp.val + 4 * j)) = (List.range 8).map (fun j => (s.asRec fn sp).readReg (4 * j)) := by
  refine List.map_congr_left fun j hj => ?_
  have hlt := List.mem_range.mp hj
  exact s.mmioRead_space fn sp (by omega) (by omega)

/-- The launch limits, then the tenant's. -/
theorem State.mmioRead_limits (s : State) (fn : Fin 256) (i : Fin 4) : s.mmioRead fn (0x82000 + 4 * i.val) = (s.fnRec fn).llim[i] ∧
    s.mmioRead fn (0x82010 + 4 * i.val) = (s.fnRec fn).tenant.lim[i] := by
  constructor
  · rw [s.mmioRead_limit fn (by omega), List.getElem?_append_left (by simp)]
    simp
  · rw [show 0x82010 + 4 * i.val = 0x82000 + 4 * (4 + i.val) by omega, s.mmioRead_limit fn (by omega), List.getElem?_append_right (by simp)]
    simp

/-- A budget with one of its limits set. -/
def Budget.withLimit (b : Budget) (i : Fin 4) (v : BitVec 32) : Budget := { b with lim := b.lim.set i.val v i.isLt }

section Assign
variable {s : State} (hup : s.hostUp 0 = true)
include hup

/-- The PF reads the FLR-done bit, which completes the reset (19 R313). -/
theorem State.readFlr_completes (fn : Fin 256) : (s.readFlr fn).notes = s.notes ++ [.flrDone fn (s.fnRec fn).flrDone] ∧
    ((s.readFlr fn).fnRec fn).flrDone = false := by
  rw [State.readFlr, if_neg (by simp [hup])]
  exact ⟨rfl, by rw [State.fnRec_modFn_same]⟩

theorem State.assign_queue {q : Fin 8192} (fn : Fin 256) (hen : (s.queue q.val).en = false) (hents : (s.queue q.val).ents = []) :
    s.assign (.queue q fn) = s.modQueue q.val (fun k => { k with owner := fn }) := by
  simp [State.assign, hup, hen, hents]

/-- A queue that is enabled or has entries started keeps its owner. -/
theorem State.assign_queue_busy {q : Fin 8192} (fn : Fin 256) (h : (s.queue q.val).en = true ∨ (s.queue q.val).ents ≠ []) :
    s.assign (.queue q fn) = s := by
  rcases h with h | h <;> simp [State.assign, hup, h]

theorem State.assign_clusters (fn : Fin 256) (set : BitVec 64) : ((s.assign (.clusters fn set)).fnRec fn).clusters = set := by
  rw [State.assign, if_neg (by simp [hup])]
  exact congrArg FnRec.clusters (s.fnRec_modFn_same fn _)

/-- The PF sets a limit of an engine class on a die: nothing else of the class changes, and no other die. -/
theorem State.assign_engine (die : Fin 8) (cls : EngineClass) (i : Fin 4) (v : BitVec 32) :
    let t := s.assign (.engine die cls i v)
    let b' := (t.dies[die]).engines[engineIdx cls]
    let b := (s.dies[die]).engines[engineIdx cls]
    b'.lim[i] = v ∧ b'.used = b.used ∧ b'.acc = b.acc ∧ (∀ j : Fin 4, j ≠ i → b'.lim[j] = b.lim[j]) ∧
      ∀ d : Fin 8, d ≠ die → t.dies[d] = s.dies[d] := by
  intro t b' b
  have ht : t = s.modDie die (fun d => { d with
      engines := d.engines.set (engineIdx cls).val (d.engines[engineIdx cls].withLimit i v) (engineIdx cls).isLt }) := by
    simp only [t, State.assign, hup]
    rfl
  have hb : b' = b.withLimit i v := by
    simp only [b', b, ht, State.modDie_same]
    simp
  rw [hb, ht]
  refine ⟨by simp [Budget.withLimit], rfl, rfl, fun j hj => ?_, fun d hd => s.modDie_other die d _ hd⟩
  simp [Budget.withLimit, Fin.val_ne_of_ne hj.symm]

end Assign

/-! ### The obligation -/

/-- Settles O52: a write of BAR0 is decoded into the one register it names, and a read into what that register holds. -/
theorem hostRegisterWrites : Obligations.HostRegisterWrites := by
  unfold Obligations.HostRegisterWrites
  refine ⟨?_, ?_⟩
  · intro s fn q v k sets at_ ahead up
    have hup_iff : s.hostUp fn = true ↔ up := s.hostUp_iff fn
    refine ⟨fun hdown i hi => ?down, fun hown i hi => ?foreign, fun h hown => ?owned, fun h sp hfree w => mmioRegisterWrite_root (hup_iff.mpr h) hfree w,
      fun h i => mmioRegisterWrite_tenantLimit (hup_iff.mpr h) i v, fun h i => mmioRegisterWrite_launchLimit (hup_iff.mpr h) i v,
      fun h k w => mmioRegisterWrite_mailbox (hup_iff.mpr h) k w⟩
    case down =>
      have hdown : s.hostUp fn = false := Bool.eq_false_iff.mpr fun e => hdown (hup_iff.mp e)
      have hword : exec (at_ 0) s = .next s := by
        rw [exec_mmioRegisterWrite_narrow s fn (by omega), State.mmioWord_down hdown]
      have hshoot : exec (.asshootWrite fn 0 v.toNat) s = .next s := if_pos (by simp [hdown])
      obtain ⟨h1, h2, h3⟩ := exec_queueEvent_denied (q := q) (.inl hdown) v
      simp only [List.mem_cons, List.not_mem_nil, or_false] at hi
      rcases hi with rfl | rfl | rfl | rfl | rfl <;> assumption
    case foreign =>
      obtain ⟨h1, h2, h3⟩ := exec_queueEvent_denied (.inr hown) v
      have hword : ∀ {off : Nat}, off < 64 → off % 4 = 0 → exec (at_ off) s = .next s := fun hoff hal =>
        exec_mmioRegisterWrite_foreign hown hoff hal v
      simp only [List.mem_cons, List.not_mem_nil, or_false] at hi
      rcases hi with rfl | rfl | rfl | rfl | rfl | rfl
      · exact h1
      · exact h2
      · exact h3
      all_goals exact hword (by decide) (by decide)
    case owned =>
      have hup := hup_iff.mpr h
      have hreg : ∀ {off : Nat}, off < 64 → off % 4 = 0 → sets (at_ off) (k.writeReg off v) := fun hoff hal =>
        queueBecomes_register hup hown v hoff hal
      refine ⟨queueBecomes_qtail hup hown v, exec_qtailWrite_outside hup hown v,
        fun hh => ⟨_, queueBecomes_qctl hup hown v hh, k.control_fields s q.val v⟩,
        queueBecomes_qstat hup hown, fun hen i hi => ?enabled, fun hen => ?disabled⟩
      case enabled =>
        have hsame : ∀ {off : Nat}, off < 64 → off % 4 = 0 → sets (at_ off) k := fun {off} hoff hal =>
          Queue.writeReg_enabled hen off v ▸ hreg hoff hal
        simp only [List.mem_cons, List.not_mem_nil, or_false] at hi
        rcases hi with rfl | rfl | rfl | rfl | rfl <;> exact hsame (by decide) (by decide)
      case disabled =>
        obtain ⟨h0, h4, h12, h16, h20⟩ := Queue.writeReg_disabled hen v
        exact ⟨h12 ▸ hreg (by decide) (by decide),
          ⟨_, h0 ▸ hreg (by decide) (by decide), putHalf_low_halves k.qbase v⟩,
          ⟨_, h4 ▸ hreg (by decide) (by decide), putHalf_high_halves k.qbase v⟩,
          ⟨_, h16 ▸ hreg (by decide) (by decide), putHalf_low_halves k.qcompl v⟩,
          _, h20 ▸ hreg (by decide) (by decide), putHalf_high_halves k.qcompl v⟩
  · intro s fn sp q off k r up low high
    have hup_iff : ∀ f, s.hostUp f = true ↔ up f := fun f => s.hostUp_iff f
    refine ⟨fun h wide => State.hostRead_down (Bool.eq_false_iff.mpr fun e => h ((hup_iff fn).mp e)) off wide,
      fun h => ⟨State.hostRead_narrow ((hup_iff fn).mpr h) off, State.hostRead_wide ((hup_iff fn).mpr h)⟩,
      fun hown => (State.mmioRead_block hown).trans k.readReg_words, fun hown j hj => State.mmioRead_foreign hown hj,
      (s.mmioRead_record fn sp).trans r.readReg_words, s.mmioRead_limits fn,
      fun j => ⟨s.mmioRead_mailbox fn j false, ?high⟩, s.mmioRead_unlisted fn, fun h => ?pf⟩
    case high =>
      rw [show 0xA0004 + 8 * j.val = 0xA0000 + 8 * j.val + 4 * true.toNat by simp; omega]
      exact s.mmioRead_mailbox fn j true
    case pf =>
      have h0 := (hup_iff 0).mpr h
      obtain ⟨hnotes, hflr⟩ := State.readFlr_completes h0 fn
      refine ⟨hnotes, hflr, fun hen hents => ?_, State.assign_queue_busy h0 fn, State.assign_clusters h0 fn, State.assign_engine h0⟩
      rw [State.assign_queue h0 fn hen hents]
      exact ⟨s.queue_modQueue_same _ _, fun j hj => s.queue_modQueue_other _ hj⟩

end Sys2Proof.Machine
end

section
/-! PROOFS. What the front end and the host leave of memory: bytes that are written and visible everywhere at once (06 R97; 07 R108,
R109). -/

namespace Sys2Proof.Machine

/-! ### Little-endian values -/

theorem ofBytes_lt (l : List Byte) : ofBytes l < 2 ^ (8 * l.length) := by
  induction l with
  | nil => simp [ofBytes]
  | cons b r ih =>
    have hb : b.toNat < 256 := b.isLt
    rw [ofBytes, List.length_cons, Nat.mul_succ, Nat.pow_add]
    omega

theorem fieldOf_lt (bs : List Byte) (off n : Nat) : fieldOf bs off n < 2 ^ (8 * n) :=
  (ofBytes_lt _).trans_le (Nat.pow_le_pow_right (by decide) (Nat.mul_le_mul_left 8 (by rw [List.length_take]; omega)))

/-- A field of 8 bytes fits a word. -/
theorem toNat_ofNat_fieldOf (bs : List Byte) (off : Nat) : (BitVec.ofNat 64 (fieldOf bs off 8)).toNat = fieldOf bs off 8 := by
  rw [BitVec.toNat_ofNat, Nat.mod_eq_of_lt (fieldOf_lt bs off 8)]

theorem length_toBytes (n v : Nat) : (toBytes n v).length = n := by simp [toBytes]

theorem getElem?_toBytes {n i : Nat} (h : i < n) (v : Nat) : (toBytes n v)[i]? = some (BitVec.ofNat 8 (v / 2 ^ (8 * i))) := by
  simp [toBytes, h]

theorem toBytes_succ (n v : Nat) : toBytes (n + 1) v = BitVec.ofNat 8 v :: toBytes n (v / 256) := by
  have hstep : ∀ i, v / 2 ^ (8 * (i + 1)) = v / 256 / 2 ^ (8 * i) := fun i => by
    rw [Nat.div_div_eq_div_mul, Nat.mul_succ, Nat.pow_add, Nat.mul_comm]
  simp [toBytes, List.range_succ_eq_map, Function.comp_def, hstep]

/-- The bytes of a value give it back, as far as they reach. -/
theorem ofBytes_toBytes (n v : Nat) : ofBytes (toBytes n v) = v % 2 ^ (8 * n) := by
  induction n generalizing v with
  | zero => simp [toBytes, ofBytes, Nat.mod_one]
  | succ n ih =>
    rw [toBytes_succ, ofBytes, ih, BitVec.toNat_ofNat, Nat.mul_succ, Nat.add_comm (8 * n) 8, Nat.pow_add, Nat.mod_mul]

/-! ### A write that is visible everywhere at once -/

/-- Where bytes of a key lie under no other keys than the first: inside a block of 16. -/
theorem isEncrypted_of_block {j k : Nat} (h : j / 16 = k / 16) : isEncrypted j = isEncrypted k := by
  have hpad : isPad j = isPad k := by
    rw [isPad, isPad, decide_eq_decide]
    omega
  have hreg : region j = region k := by
    unfold region
    omega
  rw [isEncrypted, isEncrypted, hpad, hreg]

/-- Two states that differ at most in memory: its bytes, the stores, poison and the keys of blocks. -/
def State.SameButMemory (s t : State) : Prop :=
  ∃ m r p a, t = { s with mem := m, stores := r, poison := p, lineKeys := a }

theorem State.SameButMemory.trans {s t u : State} (h : s.SameButMemory t) (h' : t.SameButMemory u) : s.SameButMemory u := by
  obtain ⟨m, r, p, a, rfl⟩ := h
  obtain ⟨m', r', p', a', rfl⟩ := h'
  exact ⟨m', r', p', a', rfl⟩

theorem State.rekey_sameButMemory (s : State) (ki k : Nat) : s.SameButMemory (s.rekey ki k) := by
  unfold State.rekey
  split
  · split
    · exact ⟨_, _, _, _, rfl⟩
    · split <;> exact ⟨_, _, _, _, rfl⟩
  · exact ⟨_, _, _, _, rfl⟩

theorem State.rekeyAll_sameButMemory (s : State) (ki k n : Nat) : s.SameButMemory (s.rekeyAll ki k n) := by
  have go : ∀ (l : List Nat) (t : State), s.SameButMemory t →
      s.SameButMemory (l.foldl (fun s i => s.rekey ki (16 * (k / 16 + 1 + i))) t) := by
    intro l
    induction l with
    | nil => exact fun t h => h
    | cons i l ih => exact fun t h => ih _ (h.trans (t.rekey_sameButMemory ki _))
  exact go _ _ (s.rekey_sameButMemory ki k)

/-- A write that is visible everywhere at once changes memory alone. -/
theorem State.pokeKey_sameButMemory (s : State) (ki k : Nat) (bs : List Byte) : s.SameButMemory (s.pokeKey ki k bs) :=
  (s.rekeyAll_sameButMemory ki k bs.length).trans ⟨_, _, _, _, rfl⟩

theorem State.SameButMemory.keys {s t : State} (h : s.SameButMemory t) : t.keys = s.keys := by
  obtain ⟨m, r, p, a, rfl⟩ := h
  rfl

theorem State.SameButMemory.queues {s t : State} (h : s.SameButMemory t) : t.queues = s.queues := by
  obtain ⟨m, r, p, a, rfl⟩ := h
  rfl

theorem State.SameButMemory.notes {s t : State} (h : s.SameButMemory t) : t.notes = s.notes := by
  obtain ⟨m, r, p, a, rfl⟩ := h
  rfl

theorem State.applyFor_canonical {s : State} (h : s.Canonical) (die : Fin 8) (k n : Nat) : (s.applyFor die k n).Canonical := by
  refine State.advance_canonical h _ _ fun r => ?_
  dsimp only
  split
  · simp
  · split <;> simp

/-- The cells of bytes at a key, as `State.pokeKey` writes them. -/
def keyCells (k : Nat) (bs : List Byte) : List Host.Cell := (List.range bs.length).zipWith (fun i b => (k + i, b)) bs

theorem mem_keyCells {k : Nat} {bs : List Byte} {c : Host.Cell} : c ∈ keyCells k bs ↔ ∃ i, bs[i]? = some c.2 ∧ c.1 = k + i := by
  obtain ⟨j, b⟩ := c
  rw [keyCells, List.mem_iff_getElem?]
  refine exists_congr fun i => ?_
  rw [List.getElem?_zipWith]
  by_cases hi : i < bs.length
  · simp [hi, and_comm, eq_comm]
  · simp [hi]

section Poke
variable {s : State} (h : s.Canonical) (ki k : Nat) {bs : List Byte}
include h

/-- The home sees the bytes written. -/
theorem State.pokeKey_homeByte {i : Nat} {b : Byte} (hb : bs[i]? = some b) : (s.pokeKey ki k bs).homeByte (k + i) = b := by
  have hin : (k + i, b) ∈ keyCells k bs := mem_keyCells.mpr ⟨i, hb, rfl⟩
  have hany : (keyCells k bs).any (fun d => d.1 == k + i) = true := List.any_eq_true.mpr ⟨_, hin, beq_self_eq_true _⟩
  have hmem : Memory.get (Memory.setAll (s.rekeyAll ki k bs.length).mem (keyCells k bs)) (k + i) = b := by
    refine Memory.get_setAll_same (State.rekeyAll_wf h.1 ki k bs.length) _ (k + i) b hin fun c hc e => ?_
    obtain ⟨j, hj, hcj⟩ := mem_keyCells.mp hc
    rw [show j = i by omega, hb] at hj
    exact (Option.some.inj hj).symm
  have hstores : ∀ r ∈ (s.rekeyAll ki k bs.length).stores.map (fun r => if r.applied then r.strip (keyCells k bs) else r),
      r.applied = false ∨ r.byteAt (k + i) = none := by
    intro r hr
    obtain ⟨r0, -, rfl⟩ := List.mem_map.mp hr
    split
    · exact .inr (by rw [StoreRec.byteAt_strip, if_pos hany])
    · exact .inl (Bool.eq_false_iff.mpr ‹_›)
  exact (overBytes_none (sh := fun r => r.applied) hstores _).trans hmem

omit h in
/-- A block that takes bytes lies under the keys they were written under. -/
theorem State.pokeKey_plain (hblock : bs.length - 1 + k % 16 < 16) (raw : Nat → Byte) {j : Nat} (hj : j / 16 = k / 16) :
    (s.pokeKey ki k bs).plain ki raw j = raw j := by
  rw [State.plain, isEncrypted_of_block hj]
  split
  · rename_i henc
    have hkey : (s.pokeKey ki k bs).blockKey j = some (s.slotKey ki) := by
      rw [State.blockKey, hj, ← s.rekey_blockKey ki k henc, ← s.rekeyAll_block ki hblock]
      rfl
    have hslot : (s.pokeKey ki k bs).slotKey ki = s.slotKey ki := by
      show State.slotKey (s.rekeyAll ki k bs.length) ki = _
      rw [s.rekeyAll_block ki hblock, State.slotKey, State.slotKey, (s.rekey_sameButMemory ki k).keys]
    rw [hkey, hslot]
    exact if_pos rfl
  · rfl

/-- What the home reads back of bytes written inside one block. -/
theorem State.pokeKey_readHome (hblock : bs.length - 1 + k % 16 < 16) : (s.pokeKey ki k bs).readHome ki k bs.length = bs := by
  refine List.ext_getElem? fun i => ?_
  rw [State.readHome, List.getElem?_map]
  by_cases hi : i < bs.length
  · rw [List.getElem?_range hi, Option.map_some, State.pokeKey_plain ki k hblock _ (by omega),
      State.pokeKey_homeByte h ki k (List.getElem?_eq_getElem hi), List.getElem?_eq_getElem hi]
  · rw [List.getElem?_eq_none (by simpa using hi), List.getElem?_eq_none (by simpa using hi), Option.map_none]

end Poke

/-- What the home reads of a word after the store or add of a signal. -/
theorem State.signal_readHome {s : State} (h : s.Canonical) {m : Mapped} (hm : m.key % 8 = 0) (die : Fin 8) (v : Word) (add : Bool) :
    ofBytes ((s.signal m die v add).readHome m.ki m.key 8) =
      if add then (ofBytes ((s.applyFor die m.key 8).readHome m.ki m.key 8) + v.toNat) % 2 ^ 64 else v.toNat := by
  have hread : ∀ w : Nat, ((s.applyFor die m.key 8).pokeKey m.ki m.key (toBytes 8 w)).readHome m.ki m.key 8 = toBytes 8 w := fun w => by
    have hpoke := State.pokeKey_readHome (State.applyFor_canonical h die m.key 8) m.ki m.key (bs := toBytes 8 w)
    rw [length_toBytes] at hpoke
    exact hpoke (by omega)
  rw [State.signal, hread, ofBytes_toBytes, Nat.mod_eq_of_lt (BitVec.isLt _)]
  cases add
  · rfl
  · rw [if_pos rfl, if_pos rfl, BitVec.toNat_add, BitVec.toNat_ofNat, Nat.mod_add_mod]

end Sys2Proof.Machine
end

section
/-! PROOFS. Host work queues: how their entries are read, start, wait, signal and complete (07 R105, R106, R108 to R111). -/

namespace Sys2Proof.Machine

/-! ### Reading and starting an entry (07 R105, R106, R108) -/

section Read
variable {s : State} {q : Fin 8192}

/-- A queue that does not run, has a launch at its head or belongs to a held tenant reads nothing. -/
theorem exec_queueEntryRead_idle
    (h : (s.queue q.val).available = false ∨ (s.queue q.val).head ≠ none ∨ s.fnHeld (s.queue q.val).owner = true) :
    exec (.queueEntryRead q) s = .next s := by
  refine if_pos ?_
  rcases h with h | h | h
  · simp [h]
  · simp [Option.isSome_iff_ne_none.mpr h]
  · simp [h]

variable (hav : (s.queue q.val).available = true) (hhead : (s.queue q.val).head = none)
  (hheld : s.fnHeld (s.queue q.val).owner = false)
include hav hhead hheld

theorem queueEntryRead_ready :
    ¬(!(s.queue q.val).available || (s.queue q.val).head.isSome || s.fnHeld (s.queue q.val).owner) = true := by
  simp [hav, hhead, hheld]

/-- A malformed or unreadable entry stops the queue. -/
theorem exec_queueEntryRead_error {r : BitVec 4} (hr : s.nextRead q.val = .error r) :
    exec (.queueEntryRead q) s = .next (s.stopQueue q.val r ((s.queue q.val).qhead + 1)) := by
  show execQueueEntryRead q s = _
  rw [execQueueEntryRead, if_neg (queueEntryRead_ready hav hhead hheld), hr]

variable {bs : List Byte} (hr : s.nextRead q.val = .ok bs)
include hr

theorem exec_queueEntryRead_launch (ht : entryType bs = 1) : exec (.queueEntryRead q) s = .next (s.headLaunch q.val bs) := by
  show execQueueEntryRead q s = _
  rw [execQueueEntryRead, if_neg (queueEntryRead_ready hav hhead hheld), hr]
  exact if_pos ht

theorem exec_queueEntryRead_chosen (ht : entryType bs ≠ 1) (hc : s.chosenQueue = some q.val) :
    exec (.queueEntryRead q) s = .next ((s.payQueue q.val).startEntryOf q.val bs) := by
  show execQueueEntryRead q s = _
  rw [execQueueEntryRead, if_neg (queueEntryRead_ready hav hhead hheld), hr]
  exact (if_neg ht).trans (if_pos hc)

theorem exec_queueEntryRead_passed (ht : entryType bs ≠ 1) (hc : s.chosenQueue ≠ some q.val) :
    exec (.queueEntryRead q) s = .next s := by
  show execQueueEntryRead q s = _
  rw [execQueueEntryRead, if_neg (queueEntryRead_ready hav hhead hheld), hr]
  exact (if_neg ht).trans (if_neg hc)

end Read

/-- A queue after it stopped (07 R110). -/
theorem State.queue_stopQueue (s : State) (q : Nat) (r : BitVec 4) (n : BitVec 32) :
    (s.stopQueue q r n).queue q = { s.queue q with stop := true, reason := r, sseq := n } := s.queue_modQueue_same q _

theorem State.stopQueue_stops (s : State) (q : Nat) (r : BitVec 4) (n : BitVec 32) : ((s.stopQueue q r n).queue q).stop = true ∧
    ((s.stopQueue q r n).queue q).reason = r ∧ ((s.stopQueue q r n).queue q).sseq = n := by
  rw [State.queue_stopQueue]
  exact ⟨rfl, rfl, rfl⟩

/-- Paying for a choice changes only credits. -/
theorem State.payQueue_credits (s : State) (w : Nat) :
    s.payQueue w = { s with queues := (s.payQueue w).queues } ∧ ∀ q, ∃ c, (s.payQueue w).queue q = { s.queue q with credit := c } := by
  unfold State.payQueue
  dsimp only
  generalize s.contenders.foldl (fun t p => t + p.2.weight.setWidth 16) (0 : BitVec 16) = total
  generalize s.contenders = l
  induction l generalizing s with
  | nil => exact ⟨rfl, fun q => ⟨_, rfl⟩⟩
  | cons p l ih =>
    obtain ⟨hsame, hcredit⟩ := ih (s.modQueue p.1 (fun k =>
      { k with credit := k.credit + k.weight.setWidth 16 - (if p.1 = w then total else 0) }))
    refine ⟨hsame, fun q => ?_⟩
    obtain ⟨c, hc⟩ := hcredit q
    rw [List.foldl_cons, hc]
    by_cases hq : q = p.1
    · subst hq
      exact ⟨c, by rw [State.queue_modQueue_same]⟩
    · exact ⟨c, by rw [State.queue_modQueue_other _ _ hq]⟩

/-- Any entry but a launch that starts moves QHEAD and NEXT on and joins the started ones. -/
theorem State.startEntryOf_starts (s : State) (q : Nat) (bs : List Byte) : (s.startEntryOf q bs).me = s.me ∧
    ∃ e, (s.startEntryOf q bs).queue q = (s.queue q).start (entrySeq bs) (BitVec.ofNat 64 (fieldOf bs 0 8)) e ∧ e.seq = entrySeq bs := by
  unfold State.startEntryOf
  split
  · split <;> exact ⟨rfl, _, State.queue_modQueue_same _ q _, rfl⟩
  · exact ⟨rfl, _, State.queue_modQueue_same _ q _, rfl⟩
  · exact ⟨rfl, _, State.queue_modQueue_same _ q _, rfl⟩

/-- A copy entry with bytes to copy starts one copy. -/
theorem State.startEntryOf_copies {s : State} (q : Nat) {bs : List Byte} (ht : entryType bs = 2) (hn : fieldOf bs 32 8 ≠ 0) :
    (s.startEntryOf q bs).copies = s.copies ++ [s.entryCopy q bs (s.nextId + 1)] := by
  unfold State.startEntryOf
  rw [ht]
  simp [hn]

/-- What the copy of an entry copies, and for whom. -/
theorem State.entryCopy_fields (s : State) (q : Nat) (bs : List Byte) (id : Nat) : (s.entryCopy q bs id).entry = some (q, entrySeq bs) ∧
    (s.entryCopy q bs id).owner = none ∧ (s.entryCopy q bs id).src.toNat = fieldOf bs 16 8 ∧
    (s.entryCopy q bs id).dst.toNat = fieldOf bs 24 8 ∧ (s.entryCopy q bs id).total = fieldOf bs 32 8 := by
  have hsrc : (s.entryCopy q bs id).src = BitVec.ofNat 64 (fieldOf bs 16 8) := rfl
  have hdst : (s.entryCopy q bs id).dst = BitVec.ofNat 64 (fieldOf bs 24 8) := rfl
  have htotal : (s.entryCopy q bs id).total = 1 * fieldOf bs 32 8 := rfl
  rw [hsrc, hdst, htotal, toNat_ofNat_fieldOf, toNat_ofNat_fieldOf, Nat.one_mul]
  exact ⟨rfl, rfl, rfl, rfl, rfl⟩

/-- A launch entry waits at the head of its queue. -/
theorem State.headLaunch_waits (s : State) (q : Nat) (bs : List Byte) : ∃ l : Launch, (s.headLaunch q bs).launches = s.launches ++ [l] ∧
    l.pk = packetOf bs ∧ l.stage = .waiting ∧ l.fn = (s.queue q).owner ∧ l.queue = q ∧ l.seq = entrySeq bs ∧
    ((s.headLaunch q bs).queue q).head.map (fun h => h.launch) = some l.id ∧ ((s.headLaunch q bs).queue q).qhead = (s.queue q).qhead := by
  refine ⟨_, rfl, rfl, rfl, rfl, rfl, rfl, ?_, ?_⟩
  · rw [State.headLaunch, State.queue_modQueue_same]
    rfl
  · rw [State.headLaunch, State.queue_modQueue_same]
    rfl

/-! ### Waits and signals (07 R108, R110) -/

/-- Every started entry of a queue with a SEQ has completed. -/
def State.Completed (s : State) (q : Nat) (seq : BitVec 32) : Prop := ∀ d ∈ (s.queue q).ents, d.seq = seq → d.done = true

theorem State.modQueue_homeByte (s : State) (q : Nat) (f : Queue → Queue) (k : Nat) : (s.modQueue q f).homeByte k = s.homeByte k := rfl

theorem State.markEntry_completed (s : State) (q : Nat) (seq : BitVec 32) : (s.markEntry q seq).Completed q seq := by
  intro d hd hseq
  rw [State.markEntry, State.queue_modQueue_same] at hd
  obtain ⟨e, -, rfl⟩ := List.mem_map.mp hd
  split at hseq
  · rw [if_pos ‹_›]
  · contradiction

theorem State.markEntry_readHome (s : State) (q : Nat) (seq : BitVec 32) (ki k n : Nat) :
    (s.markEntry q seq).readHome ki k n = s.readHome ki k n := rfl

theorem State.entryFails_completed (s : State) (q : Nat) (e : QEntry) : (s.entryFails q e).Completed q e.seq := by
  intro d hd
  rw [State.entryFails, State.queue_stopQueue] at hd
  exact s.markEntry_completed q e.seq d hd

/-- An entry that fails stops its queue with REASON 3. -/
theorem State.entryFails_stops (s : State) (q : Nat) (e : QEntry) : ((s.entryFails q e).queue q).stop = true ∧
    ((s.entryFails q e).queue q).reason = 3 ∧ ((s.entryFails q e).queue q).sseq = e.seq := (s.markEntry q e.seq).stopQueue_stops q 3 e.seq

/-- The conditions of R108. -/
theorem waitHolds_iff (cond : BitVec 2) (x v : Word) : waitHolds cond x v = true ↔
    if cond = 0 then x = v else if cond = 1 then x ≠ v else if cond = 2 then v.toNat ≤ x.toNat else x.toNat < v.toNat := by
  have hcond : cond = 0 ∨ cond = 1 ∨ cond = 2 ∨ cond = 3 := by
    revert cond
    decide
  rcases hcond with rfl | rfl | rfl | rfl
  · exact beq_iff_eq
  · exact bne_iff_ne
  · exact decide_eq_true_iff
  · exact decide_eq_true_iff

section Wait
variable {s : State} {n q : Nat} {e : QEntry} (he : s.entry n = some (q, e)) {a v mask : Word} {cond : BitVec 2}
  (hk : e.kind = .wait a v mask cond) (hd : e.done = false) (hheld : s.fnHeld (s.queue q).owner = false)
include he hk hd hheld

theorem exec_waitOnValueCheck_ok {bs : List Byte} (hl : s.frontLoad (s.queue q).owner (queueDie q) a 8 = .ok bs) :
    exec (.waitOnValueCheck n) s =
      .next (if waitHolds cond (BitVec.ofNat 64 (ofBytes bs) &&& mask) v then s.markEntry q e.seq else s) := by
  show execWaitOnValueCheck n s = _
  simp only [execWaitOnValueCheck, he, hk, hd, hheld, hl, Bool.or_self, Bool.false_eq_true, if_false]

theorem exec_waitOnValueCheck_error {c : Cause} (hl : s.frontLoad (s.queue q).owner (queueDie q) a 8 = .error c) :
    exec (.waitOnValueCheck n) s = .next (s.entryFails q e) := by
  show execWaitOnValueCheck n s = _
  simp only [execWaitOnValueCheck, he, hk, hd, hheld, hl, Bool.or_self, Bool.false_eq_true, if_false]

end Wait

section Signal
variable {s : State} {n q : Nat} {e : QEntry} (he : s.entry n = some (q, e)) {a v : Word} {add : Bool}
  (hk : e.kind = .signal a v add) (hd : e.done = false) (hheld : s.fnHeld (s.queue q).owner = false)
include he hk hd hheld

theorem exec_signalEntry_error {c : Cause} (hl : s.frontStore (s.queue q).owner (queueDie q) a 8 = .error c) :
    exec (.signalEntry n) s = .next (s.entryFails q e) := by
  show execSignalEntry n s = _
  simp only [execSignalEntry, he, hk, hd, hheld, hl, Bool.or_self, Bool.false_eq_true, if_false]

variable {m : Mapped} (hl : s.frontStore (s.queue q).owner (queueDie q) a 8 = .ok m)
include hl

theorem exec_signalEntry_poisoned (hadd : add = true) (hp : s.anyPoison m.key 8 = true) :
    exec (.signalEntry n) s = .next (s.entryFails q e) := by
  show execSignalEntry n s = _
  simp only [execSignalEntry, he, hk, hd, hheld, hl, hadd, hp, Bool.or_self, Bool.and_self, Bool.false_eq_true, if_false, if_true]

theorem exec_signalEntry_stores (hp : add = true → s.anyPoison m.key 8 = false) :
    exec (.signalEntry n) s = .next ((s.signal m (queueDie q) v add).markEntry q e.seq) := by
  have hgood : (add && s.anyPoison m.key 8) = false := by
    cases add
    · rfl
    · exact hp rfl
  show execSignalEntry n s = _
  simp only [execSignalEntry, he, hk, hd, hheld, hl, hgood, Bool.or_self, Bool.false_eq_true, if_false]

end Signal

/-! ### What the front end can store does not depend on the queues or on what the host is told -/

theorem State.routeUp_of_dies {s t : State} (h : t.dies = s.dies) (d : Nat) (r : List Port) : t.routeUp d r = s.routeUp d r := by
  induction r generalizing d with
  | nil => rfl
  | cons p r ih => rw [State.routeUp, State.routeUp, ih, State.linkUp, State.linkUp, h]

theorem State.reachable_of_dies {s t : State} (h : t.dies = s.dies) (src dst : Fin 8) : t.reachable src dst = s.reachable src dst := by
  simp only [State.reachable, State.route, State.routeUp_of_dies h, h]

theorem State.unreachByte_of_dies {s t : State} (h : t.dies = s.dies) (die : Fin 8) (ms : List (Mapped × Nat)) (d : Nat) :
    t.unreachByte die ms d = s.unreachByte die ms d := by
  induction ms generalizing d with
  | nil => rfl
  | cons m ms ih => simp only [State.unreachByte, State.reachable_of_dies h, ih]

/-- Two states that differ at most in their queues and in what the host is told. -/
def State.SameButQueues (s t : State) : Prop := ∃ l n, t = { s with queues := l, notes := n }

theorem State.SameButQueues.trans {s t u : State} (h : s.SameButQueues t) (h' : t.SameButQueues u) : s.SameButQueues u := by
  obtain ⟨l, n, rfl⟩ := h
  obtain ⟨l', n', rfl⟩ := h'
  exact ⟨l', n', rfl⟩

theorem State.SameButQueues.walk {s t : State} (h : s.SameButQueues t) (p : Party) (va : Nat) : t.walk p va = s.walk p va := by
  obtain ⟨l, ns, rfl⟩ := h
  have hread : ∀ d k i, ({ s with queues := l, notes := ns } : State).readEntry d k i = s.readEntry d k i := fun _ _ _ => rfl
  have hframe : ∀ e, ({ s with queues := l, notes := ns } : State).frameOk e = s.frameOk e := fun _ => rfl
  have hfault : ∀ k e, ({ s with queues := l, notes := ns } : State).entryFault k e = s.entryFault k e := fun _ _ => by
    simp only [State.entryFault, hframe]
  have hspace : ({ s with queues := l, notes := ns } : State).asRec p.fn p.sp = s.asRec p.fn p.sp := rfl
  simp only [State.walk, hread, hfault, hspace]

theorem State.SameButQueues.frontStore {s t : State} (h : s.SameButQueues t) (fn : Fin 256) (die : Fin 8) (va : Word) (n : Nat) :
    t.frontStore fn die va n = s.frontStore fn die va n := by
  have hwalk := h.walk
  obtain ⟨l, ns, rfl⟩ := h
  have hleaf : ∀ p a e, ({ s with queues := l, notes := ns } : State).leafFault p a e = s.leafFault p a e := fun _ _ _ => rfl
  have hreach : ∀ d ms, ({ s with queues := l, notes := ns } : State).unreachByte d ms = s.unreachByte d ms := fun d ms =>
    State.unreachByte_of_dies (by rfl) d ms 0
  simp only [State.frontStore, State.frontXlate, hwalk, hleaf, hreach]

theorem State.SameButQueues.anyPoison {s t : State} (h : s.SameButQueues t) (k n : Nat) : t.anyPoison k n = s.anyPoison k n := by
  obtain ⟨l, ns, rfl⟩ := h
  rfl

theorem State.SameButQueues.canonical {s t : State} (h : s.SameButQueues t) (hc : s.Canonical) : t.Canonical := by
  obtain ⟨l, ns, rfl⟩ := h
  exact hc

/-! ### Interrupts (07 R106) -/

/-- The entry asks for an interrupt that has not been raised. -/
def QEntry.due (e : QEntry) : Bool := e.intr && !e.told

/-- An entry of a queue once the interrupt of `e` is raised. -/
def QEntry.afterTelling (e d : QEntry) : QEntry := if e.due ∧ d.id = e.id then { d with told := true } else d

theorem QEntry.afterTelling_done (e d : QEntry) : (e.afterTelling d).done = d.done := by
  unfold QEntry.afterTelling
  split <;> rfl

theorem QEntry.afterTelling_seq (e d : QEntry) : (e.afterTelling d).seq = d.seq := by
  unfold QEntry.afterTelling
  split <;> rfl

/-- Raising the interrupt of an entry changes marks of entries and tells the host. -/
theorem State.tellDone_tells (s : State) (q : Nat) (e : QEntry) : s.SameButQueues (s.tellDone q e) ∧
    (s.tellDone q e).queue q = { s.queue q with ents := (s.queue q).ents.map e.afterTelling } ∧
    (s.tellDone q e).notes = s.notes ++ (if e.due then [.entryDone q e.seq] else []) := by
  by_cases h : e.due = true
  · have htell : e.afterTelling = fun d => if d.id = e.id then { d with told := true } else d := by
      funext d
      simp [QEntry.afterTelling, h]
    have hs : s.tellDone q e = ({ s with notes := s.notes ++ [.entryDone q e.seq] } : State).modQueue q (fun k =>
        { k with ents := k.ents.map e.afterTelling }) := by
      rw [htell]
      exact if_pos h
    rw [hs, if_pos h]
    exact ⟨⟨_, _, rfl⟩, State.queue_modQueue_same _ q _, rfl⟩
  · have htell : e.afterTelling = id := by
      funext d
      simp [QEntry.afterTelling, h]
    rw [show s.tellDone q e = s from if_neg h, if_neg h, htell, List.map_id, List.append_nil]
    exact ⟨⟨_, _, rfl⟩, rfl, rfl⟩

/-- Raising the interrupts of entries, one after another. -/
theorem State.foldl_tellDone (q : Nat) (l : List QEntry) (s : State) :
    let t := l.foldl (fun s e => s.tellDone q e) s
    s.SameButQueues t ∧ (∃ f : QEntry → QEntry, (∀ d, (f d).done = d.done) ∧ (t.queue q).ents = (s.queue q).ents.map f) ∧
      t.notes = s.notes ++ (l.filter QEntry.due).map (fun e => .entryDone q e.seq) := by
  induction l generalizing s with
  | nil => exact ⟨⟨_, _, rfl⟩, ⟨id, fun _ => rfl, by simp⟩, by simp⟩
  | cons e l ih =>
    obtain ⟨hsame, hqueue, hnotes⟩ := s.tellDone_tells q e
    obtain ⟨hsame', ⟨f, hf, hents⟩, hnotes'⟩ := ih (s.tellDone q e)
    refine ⟨hsame.trans hsame', ⟨f ∘ e.afterTelling, fun d => (hf _).trans (e.afterTelling_done d), ?_⟩, ?_⟩
    · rw [List.foldl_cons, hents, hqueue, List.map_map]
    · rw [List.foldl_cons, hnotes', hnotes, List.append_assoc]
      cases h : e.due <;> simp [h]

/-! ### The completion word (07 R109, R110) -/

/-- The started entries of a queue that have completed with every one before them. -/
def Queue.front (k : Queue) : List QEntry := k.ents.takeWhile (fun e => e.done)

/-- A change of marks keeps which entries are at the front. -/
theorem Queue.front_map {k : Queue} {f : QEntry → QEntry} (hf : ∀ d, (f d).done = d.done) :
    Queue.front { k with ents := k.ents.map f } = k.front.map f := by
  rw [Queue.front, Queue.front, List.takeWhile_map, show (fun e : QEntry => e.done) ∘ f = fun e => e.done from funext hf]

section Word
variable {s : State} {q : Nat} {last : QEntry} (hlast : (s.queue q).front.getLast? = some last)
include hlast

/-- A completion word that cannot be written stops the queue. -/
theorem State.advanceWord_unwritable (h : (s.queue q).qcompl.toNat % 8 ≠ 0 ∨
    (∃ c, s.frontStore (s.queue q).owner (queueDie q) (s.queue q).qcompl 8 = .error c) ∨
    ∃ m, s.frontStore (s.queue q).owner (queueDie q) (s.queue q).qcompl 8 = .ok m ∧ s.anyPoison m.key 8 = true) :
    s.advanceWord q = s.stopQueue q 3 last.seq := by
  unfold Queue.front at hlast
  by_cases hal : (s.queue q).qcompl.toNat % 8 = 0
  · rcases h with h | ⟨c, hc⟩ | ⟨m, hm, hp⟩
    · exact absurd hal h
    · simp [State.advanceWord, hlast, hal, hc]
    · simp [State.advanceWord, hlast, hal, hm, hp]
  · simp [State.advanceWord, hlast, hal]

theorem State.advanceWord_written (hal : (s.queue q).qcompl.toNat % 8 = 0) {m : Mapped}
    (hm : s.frontStore (s.queue q).owner (queueDie q) (s.queue q).qcompl 8 = .ok m) (hp : s.anyPoison m.key 8 = false) :
    s.advanceWord q = (((s.queue q).front.foldl (fun s e => s.tellDone q e) s).pokeKey m.ki m.key (toBytes 8 last.seq.toNat)).modQueue q
      (fun k => { k with compl := last.seq, ents := k.ents.dropWhile (fun e => e.done) }) := by
  unfold Queue.front at hlast
  simp [State.advanceWord, hlast, hal, hm, hp, Queue.front]

end Word

section Complete
variable {s : State} {n q : Nat} {e : QEntry} (he : s.entry n = some (q, e))
include he

theorem exec_queueEntryComplete_pending (hd : e.done = false) : exec (.queueEntryComplete n) s = .next s := by
  show execQueueEntryComplete n s = _
  simp only [execQueueEntryComplete, he, hd, Bool.false_eq_true, if_false]

theorem exec_queueEntryComplete_done (hd : e.done = true) :
    exec (.queueEntryComplete n) s = .next ((s.tellDone q e).advanceWord q) := by
  show execQueueEntryComplete n s = _
  simp only [execQueueEntryComplete, he, hd, if_true]

end Complete

/-- The front of a queue once the interrupt of `e` is raised. -/
theorem State.front_tellDone (s : State) (q : Nat) (e : QEntry) :
    ((s.tellDone q e).queue q).front = (s.queue q).front.map e.afterTelling := by
  rw [(s.tellDone_tells q e).2.1, Queue.front_map e.afterTelling_done]

section Completion
variable {s : State} {n q : Nat} {e : QEntry} (he : s.entry n = some (q, e)) (hd : e.done = true) {last : QEntry}
  (hlast : (s.queue q).front.getLast? = some last)
include he hd hlast

theorem exec_queueEntryComplete_unwritable (h : (s.queue q).qcompl.toNat % 8 ≠ 0 ∨
    (∃ c, s.frontStore (s.queue q).owner (queueDie q) (s.queue q).qcompl 8 = .error c) ∨
    ∃ m, s.frontStore (s.queue q).owner (queueDie q) (s.queue q).qcompl 8 = .ok m ∧ s.anyPoison m.key 8 = true) :
    ∃ t, exec (.queueEntryComplete n) s = .next t ∧
      t.queue q = { s.queue q with ents := (s.queue q).ents.map e.afterTelling, stop := true, reason := 3, sseq := last.seq } := by
  obtain ⟨hsame, hqueue, -⟩ := s.tellDone_tells q e
  have hlast' : ((s.tellDone q e).queue q).front.getLast? = some (e.afterTelling last) := by
    rw [s.front_tellDone, List.getLast?_map, hlast, Option.map_some]
  refine ⟨_, exec_queueEntryComplete_done he hd, ?_⟩
  rw [State.advanceWord_unwritable hlast' (by simpa only [hqueue, hsame.frontStore, hsame.anyPoison] using h), State.queue_stopQueue,
    hqueue, e.afterTelling_seq]

/-- The completion word moves over the front: the word is written, the entries leave, and each due interrupt is raised. -/
theorem exec_queueEntryComplete_written (hal : (s.queue q).qcompl.toNat % 8 = 0) {m : Mapped}
    (hm : s.frontStore (s.queue q).owner (queueDie q) (s.queue q).qcompl 8 = .ok m) (hp : s.anyPoison m.key 8 = false) :
    ∃ t, exec (.queueEntryComplete n) s = .next t ∧ (t.queue q).compl = last.seq ∧
      (t.queue q).ents.length = ((s.queue q).ents.dropWhile (fun d => d.done)).length ∧
      t.notes = s.notes ++ (if e.due then [.entryDone q e.seq] else []) ++
        (((s.queue q).front.map e.afterTelling).filter QEntry.due).map (fun d => .entryDone q d.seq) ∧
      (s.Canonical → ∀ i, i < 8 → t.homeByte (m.key + i) = BitVec.ofNat 8 (last.seq.toNat / 2 ^ (8 * i))) := by
  obtain ⟨hsame, hqueue, hnotes⟩ := s.tellDone_tells q e
  have hlast' : ((s.tellDone q e).queue q).front.getLast? = some (e.afterTelling last) := by
    rw [s.front_tellDone, List.getLast?_map, hlast, Option.map_some]
  obtain ⟨hfold, ⟨f, hf, hents⟩, hfoldNotes⟩ := State.foldl_tellDone q ((s.tellDone q e).queue q).front (s.tellDone q e)
  have hadv := State.advanceWord_written hlast' (by rw [hqueue]; exact hal) (by rw [hsame.frontStore, hqueue]; exact hm)
    (by rw [hsame.anyPoison]; exact hp)
  rw [e.afterTelling_seq] at hadv
  generalize ((s.tellDone q e).queue q).front.foldl (fun s e => s.tellDone q e) (s.tellDone q e) = u at hadv hfold hents hfoldNotes
  have hpoke := u.pokeKey_sameButMemory m.ki m.key (toBytes 8 last.seq.toNat)
  refine ⟨_, exec_queueEntryComplete_done he hd, ?_⟩
  rw [hadv, State.queue_modQueue_same]
  refine ⟨rfl, ?_, ?_, fun hc i hi => ?_⟩
  · have hu : ((u.pokeKey m.ki m.key (toBytes 8 last.seq.toNat)).queue q).ents = (s.queue q).ents.map (f ∘ e.afterTelling) := by
      rw [State.queue, hpoke.queues, ← State.queue, hents, hqueue, List.map_map]
    have hdone : (fun d : QEntry => d.done) ∘ (f ∘ e.afterTelling) = fun d => d.done := by
      funext d
      exact (hf _).trans (e.afterTelling_done d)
    rw [hu, List.dropWhile_map, hdone, List.length_map]
  · rw [State.modQueue_notes, hpoke.notes, hfoldNotes, hnotes, s.front_tellDone]
  · rw [State.modQueue_homeByte]
    exact State.pokeKey_homeByte ((hsame.trans hfold).canonical hc) m.ki m.key (getElem?_toBytes hi _)

end Completion

theorem QEntry.due_iff (e : QEntry) : e.due = true ↔ e.intr = true ∧ e.told = false := by simp [QEntry.due]

/-! ### The obligation -/

/-- Settles O54: each step of the front end answers one of a few ways, and completion tells the host before it moves the word. -/
theorem queueEntries : Obligations.QueueEntries := by
  unfold Obligations.QueueEntries
  intro s q n k die ready stops
  refine ⟨exec_queueEntryRead_idle, ?error, ?launch, ?chosen, ?passed, fun e he => ?entry⟩
  case error =>
    rintro r ⟨hav, hhead, hheld⟩ hr
    exact ⟨_, exec_queueEntryRead_error hav hhead hheld hr, s.stopQueue_stops q.val r _, rfl⟩
  case launch =>
    rintro bs ⟨hav, hhead, hheld⟩ hr ht
    obtain ⟨l, hls, hpk, hstage, hfn, hqueue, hseq, hhd, hqh⟩ := s.headLaunch_waits q.val bs
    exact ⟨_, l, exec_queueEntryRead_launch hav hhead hheld hr ht, hls, hpk, hstage, hfn, hqueue, hseq, hhd, hqh, rfl⟩
  case chosen =>
    rintro bs ⟨hav, hhead, hheld⟩ hr ht hc
    obtain ⟨hpaid, hcredit⟩ := s.payQueue_credits q.val
    obtain ⟨c, hk⟩ := hcredit q.val
    obtain ⟨hme, e, hqueue, hseq⟩ := (s.payQueue q.val).startEntryOf_starts q.val bs
    refine ⟨_, e, exec_queueEntryRead_chosen hav hhead hheld hr ht hc, ?_, ?_, ?_, ?_, hseq, fun hcopy hn => ?_⟩
    · rw [hqueue]
      rfl
    · rw [hme, hpaid]
    · rw [hqueue]
      exact toNat_ofNat_fieldOf bs 0
    · rw [hqueue, hk]
      rfl
    · refine ⟨_, (State.startEntryOf_copies q.val hcopy hn).trans (by rw [hpaid]), ?_⟩
      rw [hseq]
      exact State.entryCopy_fields _ q.val bs _
  case passed =>
    rintro bs ⟨hav, hhead, hheld⟩ hr ht hc
    exact exec_queueEntryRead_passed hav hhead hheld hr ht hc
  case entry =>
    refine ⟨?wait, ?signal, exec_queueEntryComplete_pending he, fun last hd hlast => ⟨?written, ?unwritable⟩⟩
    case wait =>
      intro a v mask cond hk hd hheld
      refine ⟨fun bs hl => ⟨fun hx => ?_, fun hx => ?_⟩, fun c hl =>
        ⟨_, exec_waitOnValueCheck_error he hk hd hheld hl, s.entryFails_completed q.val e, s.entryFails_stops q.val e⟩⟩
      · refine ⟨_, exec_waitOnValueCheck_ok he hk hd hheld hl, ?_⟩
        rw [if_pos ((waitHolds_iff cond _ v).mpr hx)]
        exact ⟨s.markEntry_completed q.val e.seq, rfl⟩
      · rw [exec_waitOnValueCheck_ok he hk hd hheld hl, if_neg (mt (waitHolds_iff cond _ v).mp hx)]
    case signal =>
      intro a v add hk hd hheld
      refine ⟨fun m hl hp hc hm => ?_, fun m hl hadd hp => ?_, fun c hl => ?_⟩
      · refine ⟨_, exec_signalEntry_stores he hk hd hheld hl hp, State.markEntry_completed _ q.val e.seq, ?_⟩
        rw [State.markEntry_readHome, State.signal_readHome hc hm]
      · exact ⟨_, exec_signalEntry_poisoned he hk hd hheld hl hadd hp, s.entryFails_completed q.val e, s.entryFails_stops q.val e, rfl⟩
      · exact ⟨_, exec_signalEntry_error he hk hd hheld hl, s.entryFails_completed q.val e, s.entryFails_stops q.val e⟩
    case written =>
      intro m hal hm hp
      obtain ⟨t, ht, hcompl, hlen, hnotes, hbytes⟩ := exec_queueEntryComplete_written he hd hlast hal hm hp
      refine ⟨t, ht, hcompl, hlen, fun hmine => ?_, fun x hx => ?_, fun d hmem hintr htold hother => ?_, fun i hi _ hc => hbytes hc i hi⟩
      · rw [hnotes, if_pos (e.due_iff.mpr hmine)]
        simp
      · rw [hnotes]
        simp [hx]
      · have hdue : d.due = true := d.due_iff.mpr ⟨hintr, htold⟩
        have hkept : e.afterTelling d = d := if_neg fun h => hother (e.due_iff.mp h.1) h.2
        have hfront : d ∈ ((s.queue q.val).front.map e.afterTelling).filter QEntry.due :=
          List.mem_filter.mpr ⟨List.mem_map.mpr ⟨d, hmem, hkept⟩, hdue⟩
        rw [hnotes]
        exact List.mem_append_right _ (List.mem_map.mpr ⟨d, hfront, rfl⟩)
    case unwritable =>
      intro h
      obtain ⟨t, ht, hqueue⟩ := exec_queueEntryComplete_unwritable he hd hlast h
      refine ⟨t, ht, ?_⟩
      rw [show (t.queue q.val).compl = k.compl by rw [hqueue]]
      show ((t.queue q.val).stop = true ∧ (t.queue q.val).reason = 3 ∧ (t.queue q.val).sseq = last.seq) ∧ _
      rw [hqueue]
      exact ⟨⟨rfl, rfl, rfl⟩, rfl⟩

end Sys2Proof.Machine
end

section
/-! PROOFS. The arbiter of shared resources, energy charges and the turn of a period (07 R99, R101, R111; 09 R127 to R130). -/

namespace Sys2Proof.Machine

/-! ### Contexts and launches by number -/

/-- A change that keeps every number changes the context that is looked up. -/
theorem State.context_mapContexts (s : State) {f : Context → Context} (hf : ∀ c, (f c).uid = c.uid) (u : Nat) :
    (s.mapContexts f).context u = (s.context u).map f := by
  show (s.contexts.map f).find? _ = _
  rw [List.find?_map, show (fun c : Context => c.uid == u) ∘ f = fun c => c.uid == u from funext fun c => by
    rw [Function.comp_apply, hf]]
  rfl

/-- The same for launches. -/
theorem State.launch_of_map {s t : State} {f : Launch → Launch} (h : t.launches = s.launches.map f) (hf : ∀ l, (f l).id = l.id) (n : Nat) :
    t.launch n = (s.launch n).map f := by
  rw [State.launch, h, List.find?_map, show (fun l : Launch => l.id == n) ∘ f = fun l => l.id == n from funext fun l => by
    rw [Function.comp_apply, hf]]
  rfl

theorem State.launch_id {s : State} {n : Nat} {l : Launch} (h : s.launch n = some l) : l.id = n :=
  beq_iff_eq.mp (List.find?_some (p := fun l : Launch => l.id == n) (l := s.launches) h)

theorem State.launch_modLaunch {s : State} {n : Nat} {l : Launch} (h : s.launch n = some l) {f : Launch → Launch} (hf : ∀ l, (f l).id = l.id) :
    (s.modLaunch n f).launch n = some (f l) := by
  rw [State.launch_of_map (s := s) (t := s.modLaunch n f) rfl (fun l => by split <;> simp [hf]), h, Option.map_some,
    if_pos (State.launch_id h)]

/-! ### Budgets (09 R128 to R130) -/

theorem Budget.charge_used_same (b : Budget) (i : Fin 4) (n : Nat) :
    ((b.charge i n).used[i]).toNat = min (2 ^ 32 - 1) ((b.used[i]).toNat + n) := by
  simp only [Budget.charge, Fin.getElem_fin, Vector.getElem_set_self, BitVec.toNat_ofNat]
  omega

theorem Budget.charge_used_other (b : Budget) {i j : Fin 4} (h : j ≠ i) (n : Nat) : (b.charge i n).used[j] = b.used[j] := by
  simp [Budget.charge, Fin.val_ne_of_ne h.symm]

/-- Weighted energy has joined a budget: its used energy counts every microjoule that the accumulator passed (09 R130). -/
def Budget.Joined (e : Word) (b b' : Budget) : Prop :=
  b'.acc = b.acc + e ∧ b'.lim = b.lim ∧
    (b'.used[3]).toNat = min (2 ^ 32 - 1) ((b.used[3]).toNat +
      ((b.acc.toNat + e.toNat) / (10 ^ 6 * 2 ^ 8) - b.acc.toNat / (10 ^ 6 * 2 ^ 8))) ∧
    ∀ i : Fin 4, i ≠ 3 → b'.used[i] = b.used[i]

theorem Budget.joined_addEnergy (b : Budget) (e : Word) : Budget.Joined e b (b.addEnergy e) :=
  ⟨rfl, rfl, b.charge_used_same 3 _, fun _ hi => b.charge_used_other hi _⟩

/-- A budget has turned: each used count keeps what is above its limit (09 R127). -/
def Budget.Turned (b b' : Budget) : Prop :=
  b'.lim = b.lim ∧ b'.acc = b.acc ∧ ∀ i : Fin 4, (b'.used[i]).toNat = (b.used[i]).toNat - (b.lim[i]).toNat

theorem Budget.turned_turn (b : Budget) : b.Turned b.turn := by
  refine ⟨rfl, rfl, fun i => ?_⟩
  have hget : b.turn.used[i] = if b.used[i].ult b.lim[i] then 0 else b.used[i] - b.lim[i] := by simp [Budget.turn]
  rw [hget]
  split
  · rename_i h
    rw [BitVec.ult, decide_eq_true_eq] at h
    exact (Nat.sub_eq_zero_of_le h.le).symm
  · rename_i h
    rw [BitVec.ult, decide_eq_true_eq] at h
    rw [BitVec.toNat_sub_of_le (BitVec.le_def.mpr (by omega))]

/-! ### The activities that an event is charged to (09 R128) -/

section Activities
variable (s : State) (launch : Option Nat) (fn : Fin 256) (die : Fin 8) (k : EngineClass) (f : Budget → Budget)

@[simp] theorem State.activities_me : (s.activities launch fn die k f).me = s.me := by cases launch <;> rfl
@[simp] theorem State.activities_others : (s.activities launch fn die k f).others = s.others := by cases launch <;> rfl

theorem State.activities_context (u : Nat) : (s.activities launch fn die k f).context u = s.context u := by
  rw [State.context, State.contexts, State.activities_me, State.activities_others]
  rfl

/-- The state whose tenant and engine class are still to be charged. -/
def State.launchCharged : State := launch.elim s (fun n => s.modLaunch n (fun l => { l with budget := f l.budget }))

theorem State.activities_eq : s.activities launch fn die k f =
    ((s.launchCharged launch f).modFn fn (fun r => { r with tenant := f r.tenant })).modDie die
      (fun d => { d with engines := d.engines.set (engineIdx k).val (f d.engines[engineIdx k]) (engineIdx k).isLt }) := by
  cases launch <;> rfl

theorem State.activities_tenant : ((s.activities launch fn die k f).fnRec fn).tenant = f (s.fnRec fn).tenant := by
  rw [State.activities_eq, show ∀ (t : State) d g, (t.modDie d g).fnRec fn = t.fnRec fn from fun _ _ _ => rfl, State.fnRec_modFn_same]
  cases launch <;> rfl

theorem State.activities_engine :
    ((s.activities launch fn die k f).dies[die]).engines[engineIdx k] = f ((s.dies[die]).engines[engineIdx k]) := by
  have hdies : (s.launchCharged launch f).dies = s.dies := by cases launch <;> rfl
  rw [State.activities_eq, State.modDie_same, State.modFn_dies, hdies]
  simp

theorem State.activities_launches_some (n : Nat) : (s.activities (some n) fn die k f).launches =
    (s.modLaunch n (fun l => { l with budget := f l.budget })).launches := rfl

theorem State.activities_launch {n : Nat} {l : Launch} (h : s.launch n = some l) :
    (s.activities (some n) fn die k f).launch n = some { l with budget := f l.budget } := by
  rw [State.launch, s.activities_launches_some fn die k f n]
  exact State.launch_modLaunch h (fun _ => rfl)

end Activities

/-! ### ENERGY_CHARGE (09 R128, R130) -/

/-- What an event of a kind weighs, as often as it happened. -/
def Firmware.amount (f : Firmware) (ev : EnergyEvent) (count : Nat) : Word := BitVec.ofNat 64 ((f.weight ev).toNat * count)

theorem Firmware.amount_eq (f : Firmware) (ev : EnergyEvent) (count : Nat) : f.amount ev count =
    BitVec.ofNat 64 ((((f.weights.find? (fun p => p.1 == ev)).map (fun p => p.2.toNat)).getD 0) * count) := by
  rw [Firmware.amount, Firmware.weight]
  cases f.weights.find? (fun p => p.1 == ev) <;> rfl

section Energy
variable {s : State} {n : Nat} (die : Fin 8) (cls : EngineClass) (ev : EnergyEvent) (count : Nat)

/-- The state after an event was charged to its activities, before the launch counts what it has used of its estimate. -/
def State.energyCharged (s : State) (launch : Option Nat) (fn : Fin 256) (die : Fin 8) (cls : EngineClass) (e : Word) : State :=
  s.activities launch fn die cls (fun b => b.addEnergy e)

theorem exec_energyCharge_nobody (hl : s.launch n = none) (hc : s.copy n = none) :
    exec (.energyCharge n die cls ⟨ev, count⟩) s = .next s := by
  show execEnergyCharge n die cls ⟨ev, count⟩ s = _
  simp only [execEnergyCharge, State.payer, hl, hc, Option.map_none]

/-- A copy without a launch charges its tenant and its engine class. -/
theorem exec_energyCharge_noLaunch {c : Copy} (hl : s.launch n = none) (hc : s.copy n = some c) (hn : c.launch = none) :
    exec (.energyCharge n die cls ⟨ev, count⟩) s = .next (s.energyCharged none c.fn die cls (s.fw.amount ev count)) := by
  show execEnergyCharge n die cls ⟨ev, count⟩ s = _
  simp only [execEnergyCharge, State.payer, hl, hc, hn, Option.map_some]
  rfl

/-- Any other payer charges the launch too, which counts what it has used of its estimate. -/
theorem exec_energyCharge_launch {m : Nat} {fn : Fin 256} (hp : s.payer n = some (some m, fn)) : ∃ u,
    exec (.energyCharge n die cls ⟨ev, count⟩) s =
      .next ((s.energyCharged (some m) fn die cls (s.fw.amount ev count)).modLaunch m (fun k => { k with charged := k.charged + u })) := by
  refine ⟨((s.launch m).map (fun l => l.budget.passed (s.fw.amount ev count))).getD 0, ?_⟩
  show execEnergyCharge n die cls ⟨ev, count⟩ s = _
  simp only [execEnergyCharge, hp]
  rfl

theorem State.payer_launch {l : Launch} (hl : s.launch n = some l) : s.payer n = some (some n, l.fn) := by
  rw [State.payer, hl]

theorem State.payer_copy {c : Copy} (hl : s.launch n = none) (hc : s.copy n = some c) : s.payer n = some (c.launch, c.fn) := by
  rw [State.payer, hl, hc]
  rfl

theorem State.energyCharged_joined (launch : Option Nat) (fn : Fin 256) (e : Word) :
    let t := s.energyCharged launch fn die cls e
    t.me = s.me ∧ Budget.Joined e (s.fnRec fn).tenant (t.fnRec fn).tenant ∧
      Budget.Joined e ((s.dies[die]).engines[engineIdx cls]) ((t.dies[die]).engines[engineIdx cls]) := by
  intro t
  refine ⟨s.activities_me .., ?_, ?_⟩
  · simp only [t, State.energyCharged, State.activities_tenant]
    exact Budget.joined_addEnergy _ e
  · simp only [t, State.energyCharged, State.activities_engine]
    exact Budget.joined_addEnergy _ e

/-- Events that have a launch to pay for them charge it, its tenant or its copy's, and the engine class. -/
theorem energyCharge_launch {m : Nat} {fn : Fin 256} (hp : s.payer n = some (some m, fn)) : ∃ t,
    exec (.energyCharge n die cls ⟨ev, count⟩) s = .next t ∧ t.me = s.me ∧
      (∀ l, s.launch m = some l → ∃ l', t.launch m = some l' ∧ Budget.Joined (s.fw.amount ev count) l.budget l'.budget) ∧
      Budget.Joined (s.fw.amount ev count) (s.fnRec fn).tenant (t.fnRec fn).tenant ∧
      Budget.Joined (s.fw.amount ev count) ((s.dies[die]).engines[engineIdx cls]) ((t.dies[die]).engines[engineIdx cls]) := by
  obtain ⟨u, hu⟩ := exec_energyCharge_launch die cls ev count hp
  obtain ⟨hme, htenant, hengine⟩ := State.energyCharged_joined (s := s) die cls (some m) fn (s.fw.amount ev count)
  refine ⟨_, hu, hme, fun l hl => ?_, htenant, hengine⟩
  exact ⟨_, State.launch_modLaunch (s.activities_launch fn die cls _ hl) (fun _ => rfl), l.budget.joined_addEnergy _⟩

end Energy

/-- What an event of energy is charged to (09 R128, R130). -/
theorem energyCharge_charges (s : State) (die : Fin 8) (n : Nat) (cls : EngineClass) (ev : EnergyEvent) (count : Nat) :
    let e := s.fw.amount ev count
    (∀ l, s.launch n = some l → ∃ t l', exec (.energyCharge n die cls ⟨ev, count⟩) s = .next t ∧ t.launch n = some l' ∧ t.me = s.me ∧
      Budget.Joined e l.budget l'.budget ∧ Budget.Joined e (s.fnRec l.fn).tenant (t.fnRec l.fn).tenant ∧
      Budget.Joined e ((s.dies[die]).engines[engineIdx cls]) ((t.dies[die]).engines[engineIdx cls])) ∧
    (∀ c, s.launch n = none → s.copy n = some c → ∃ t, exec (.energyCharge n die cls ⟨ev, count⟩) s = .next t ∧ t.me = s.me ∧
      (c.launch = none → t.launches = s.launches) ∧
      (∀ m l, c.launch = some m → s.launch m = some l → ∃ l', t.launch m = some l' ∧ Budget.Joined e l.budget l'.budget) ∧
      Budget.Joined e (s.fnRec c.fn).tenant (t.fnRec c.fn).tenant ∧
      Budget.Joined e ((s.dies[die]).engines[engineIdx cls]) ((t.dies[die]).engines[engineIdx cls])) ∧
    (s.launch n = none → s.copy n = none → exec (.energyCharge n die cls ⟨ev, count⟩) s = .next s) := by
  intro e
  refine ⟨fun l hl => ?_, fun c hl hc => ?_, exec_energyCharge_nobody die cls ev count⟩
  · obtain ⟨t, ht, hme, hlaunch, htenant, hengine⟩ := energyCharge_launch die cls ev count (State.payer_launch hl)
    obtain ⟨l', hl', hjoined⟩ := hlaunch l hl
    exact ⟨t, l', ht, hl', hme, hjoined, htenant, hengine⟩
  · cases hn : c.launch with
    | none =>
      obtain ⟨hme, htenant, hengine⟩ := State.energyCharged_joined (s := s) die cls none c.fn e
      exact ⟨_, exec_energyCharge_noLaunch die cls ev count hl hc hn, hme, fun _ => rfl, (fun m l hm => nomatch hm), htenant, hengine⟩
    | some m =>
      obtain ⟨t, ht, hme, hlaunch, htenant, hengine⟩ :=
        energyCharge_launch die cls ev count ((State.payer_copy hl hc).trans (by rw [hn]))
      exact ⟨t, ht, hme, (fun h => nomatch h), (fun k l hk hl => by
        obtain rfl := Option.some.inj hk
        exact hlaunch l hl), htenant, hengine⟩

/-! ### A clock of the arbiter (07 R99, R101) -/

/-- A round may first settle who is the better of its first two. -/
theorem roundWinner_pair (x p : Nat × Int) (l : List (Nat × Int)) :
    roundWinner (x :: p :: l) = roundWinner ((if x.2 < p.2 ∨ (x.2 = p.2 ∧ p.1 < x.1) then p else x) :: l) := by
  simp only [roundWinner, List.foldl_cons]
  split <;> rfl

/-- The highest credit wins a round, the lowest number on a tie. -/
theorem roundWinner_best (x : Nat × Int) (l : List (Nat × Int)) :
    ∃ y ∈ x :: l, roundWinner (x :: l) = some y.1 ∧ ∀ p ∈ x :: l, p.2 ≤ y.2 ∧ (p.2 = y.2 → y.1 ≤ p.1) := by
  induction l generalizing x with
  | nil => exact ⟨x, List.mem_cons_self, rfl, by simp⟩
  | cons p l ih =>
    rw [roundWinner_pair]
    split
    · rename_i h
      obtain ⟨y, hy, hwin, hbest⟩ := ih p
      have hp := hbest p List.mem_cons_self
      refine ⟨y, List.mem_cons_of_mem _ hy, hwin, List.forall_mem_cons.mpr ⟨?_, hbest⟩⟩
      omega
    · rename_i h
      obtain ⟨y, hy, hwin, hbest⟩ := ih x
      obtain ⟨hx, hl⟩ := List.forall_mem_cons.mp hbest
      refine ⟨y, List.cons_subset_cons x (List.subset_cons_self p l) hy, hwin,
        List.forall_mem_cons.mpr ⟨hx, List.forall_mem_cons.mpr ⟨?_, hl⟩⟩⟩
      omega

/-- A requester's credit for a resource after growth. -/
def Context.grown (c : Context) (res : SharedRes) : Int := (c.credits[resIdx res] + c.sys.share.setWidth 16).toInt

/-- What a requester enters a round with. -/
def Context.bid (res : SharedRes) (c : Context) : Nat × Int := (c.slot.val, c.grown res)

theorem grantWinner_eq (res : SharedRes) (ps : List Context) :
    grantWinner res ps = (roundWinner (ps.map (Context.bid res))).bind (fun n => ps.find? (fun c => c.slot.val == n)) := rfl

/-- In slots of their own a requester is found by its slot. -/
theorem find?_slot {ps : List Context} (hslots : (ps.map (fun c => c.slot)).Nodup) {w : Context} (hw : w ∈ ps) :
    ps.find? (fun c => c.slot.val == w.slot.val) = some w := by
  obtain ⟨c, hc⟩ := Option.isSome_iff_exists.mp
    (List.find?_isSome (p := fun c : Context => c.slot.val == w.slot.val) |>.mpr ⟨w, hw, beq_self_eq_true _⟩)
  have hslot : c.slot = w.slot := Fin.ext (beq_iff_eq.mp (List.find?_some (p := fun c : Context => c.slot.val == w.slot.val) hc))
  rw [hc, List.inj_on_of_nodup_map hslots (List.mem_of_find?_eq_some hc) hw hslot]

/-- Of requesters in slots of their own the one with the highest grown credit wins, the lowest slot on a tie. -/
theorem grantWinner_best (res : SharedRes) {ps : List Context} (hne : ps ≠ []) (hslots : (ps.map (fun c => c.slot)).Nodup) :
    ∃ w ∈ ps, grantWinner res ps = some w ∧
      ∀ c ∈ ps, c.grown res ≤ w.grown res ∧ (c.grown res = w.grown res → w.slot ≤ c.slot) := by
  obtain ⟨a, l, rfl⟩ := List.exists_cons_of_ne_nil hne
  obtain ⟨y, hy, hwin, hbest⟩ := roundWinner_best (a.bid res) (l.map (Context.bid res))
  rw [← List.map_cons] at hy hwin hbest
  obtain ⟨w, hw, rfl⟩ := List.mem_map.mp hy
  refine ⟨w, hw, ?_, fun c hc => hbest _ (List.mem_map_of_mem hc)⟩
  rw [grantWinner_eq, hwin]
  exact find?_slot hslots hw

/-- A requester is the context with its number, and requests. -/
theorem State.mem_requesters {s : State} {cl : Fin 64} {pick : Context → Bool} {c : Context} (h : c ∈ s.requesters cl pick) :
    s.context c.uid = some c ∧ pick c = true := by
  rw [State.requesters, List.mem_filterMap] at h
  obtain ⟨k, -, h⟩ := h
  obtain ⟨d, hd, h⟩ := Option.bind_eq_some_iff.mp h
  obtain ⟨u, -, hu⟩ := Option.bind_eq_some_iff.mp hd
  obtain ⟨hpick, h⟩ := (Option.ite_none_right_eq_some ..).mp h
  obtain rfl := Option.some.inj h
  rw [State.context_uid hu]
  exact ⟨hu, (Bool.and_eq_true_iff.mp hpick).2⟩

theorem Context.payCredit_credit (c : Context) (r : Fin 5) (total : BitVec 16) (w : Fin 4) :
    (c.payCredit r total w.val).credits[r] = c.credits[r] + c.sys.share.setWidth 16 - (if c.slot = w then total else 0) := by
  simp [Context.payCredit, Fin.ext_iff]

theorem Context.takeGrant_uid (c : Context) : c.takeGrant.uid = c.uid := by
  unfold Context.takeGrant
  split <;> rfl

theorem Context.takeGrant_credits (c : Context) : c.takeGrant.credits = c.credits := by
  unfold Context.takeGrant
  split <;> rfl

theorem Context.takeGrant_vq {c : Context} {e : VqEntry} {q : List VqEntry} (h : c.vq = e :: q) (he : e.left ≠ 0) :
    c.takeGrant.vq = if e.left = 1 then q else { e with left := e.left - 1 } :: q := by
  have : e.left ≤ 1 ↔ e.left = 1 := by omega
  simp only [Context.takeGrant, h, this]

/-- The sum of the requesters' shares. -/
def sumShares (ps : List Context) : BitVec 16 := ps.foldl (fun x p => x + p.sys.share.setWidth 16) 0

/-- The state after a clock of the arbiter that a requester won. -/
def State.granted (s : State) (res : SharedRes) (ps : List Context) (w : Context) : State :=
  ((s.mapContexts (fun c => if ps.any (fun p => p.uid == c.uid) then c.payCredit (resIdx res) (sumShares ps) w.slot.val else c)).activities
    (some w.launch) w.fn w.die .thread (fun b => b.charge 0 1)).modContext w.uid Context.takeGrant

theorem State.granted_eq (s : State) {res : SharedRes} {ps : List Context} {w : Context} (h : grantWinner res ps = some w) :
    (s.grantRound res ps).headGranted res ps = s.granted res ps w := by
  simp only [State.headGranted, State.grantRound, h]
  rfl

/-- What becomes of a requester: it pays, and the winner's head takes the grant. -/
theorem State.granted_context {s : State} {res : SharedRes} {ps : List Context} (w : Context) {c : Context} (hc : c ∈ ps)
    (h : s.context c.uid = some c) : (s.granted res ps w).context c.uid =
      some (if c.uid = w.uid then (c.payCredit (resIdx res) (sumShares ps) w.slot.val).takeGrant
        else c.payCredit (resIdx res) (sumShares ps) w.slot.val) := by
  have hpays : ps.any (fun p => p.uid == c.uid) = true := List.any_eq_true.mpr ⟨c, hc, beq_self_eq_true _⟩
  rw [State.granted, State.modContext, State.context_mapContexts _ (fun d => by split <;> simp [Context.takeGrant_uid]),
    State.activities_context, State.context_mapContexts _ (fun d => by split <;> rfl), h, Option.map_some, if_pos hpays, Option.map_some]
  rfl

/-- The winner's launch is charged a slot. -/
theorem State.granted_launch {s : State} (res : SharedRes) (ps : List Context) {w : Context} {l : Launch} (h : s.launch w.launch = some l) :
    (s.granted res ps w).launch w.launch = some { l with budget := l.budget.charge 0 1 } :=
  State.activities_launch (s.mapContexts _) w.fn w.die .thread (fun b => b.charge 0 1) h

/-- A thread that asks for a resource has a head that needs a grant. -/
theorem Context.asks_head {c : Context} {res : SharedRes} {e : VqEntry} {q : List VqEntry} (h : c.asks res = true) (hq : c.vq = e :: q) :
    e.left ≠ 0 := by
  rw [Context.asks, hq] at h
  exact bne_iff_ne.mp (Bool.and_eq_true_iff.mp h).2

/-- A clock of the arbiter in which nobody requests. -/
theorem State.noRound (s : State) (res : SharedRes) : (s.grantRound res []).headGranted res [] = s := rfl

section Round
variable {s : State} {res : SharedRes} {ps : List Context} {w : Context} (hctx : ∀ c ∈ ps, s.context c.uid = some c)
include hctx

theorem State.granted_credits {c d : Context} (hc : c ∈ ps) (hd : (s.granted res ps w).context c.uid = some d) :
    d.credits[resIdx res] = c.credits[resIdx res] + c.sys.share.setWidth 16 - (if c.slot = w.slot then sumShares ps else 0) := by
  rw [State.granted_context w hc (hctx c hc)] at hd
  obtain rfl := Option.some.inj hd
  split <;> simp only [Context.takeGrant_credits, Context.payCredit_credit]

theorem State.granted_vq_other {c d : Context} (hc : c ∈ ps) (hne : c.uid ≠ w.uid) (hd : (s.granted res ps w).context c.uid = some d) :
    d.vq = c.vq := by
  rw [State.granted_context w hc (hctx c hc), if_neg hne] at hd
  obtain rfl := Option.some.inj hd
  rfl

theorem State.granted_vq_winner {d : Context} {e : VqEntry} {q : List VqEntry} (hw : w ∈ ps) (hq : w.vq = e :: q) (he : e.left ≠ 0)
    (hd : (s.granted res ps w).context w.uid = some d) : d.vq = if e.left = 1 then q else { e with left := e.left - 1 } :: q := by
  rw [State.granted_context w hw (hctx w hw), if_pos rfl] at hd
  obtain rfl := Option.some.inj hd
  exact Context.takeGrant_vq (c := w.payCredit _ _ _) hq he

end Round

/-! ### The turn of a period (09 R127, R129) -/

/-- How many cycles may pass before a period turns: no more than any present die has still to go. -/
theorem State.le_cyclesToTurn (s : State) (k : Nat) :
    k ≤ s.cyclesToTurn ↔ k ≤ Config.periodCycles ∧ ∀ d : Fin 8, (s.dies[d]).status = .present → k ≤ (s.dies[d]).toGo := by
  have hfold : ∀ (l : List Die) (m : Nat), k ≤ l.foldl (fun m d => if d.status = .present then min m d.toGo else m) m ↔
      k ≤ m ∧ ∀ d ∈ l, d.status = .present → k ≤ d.toGo := by
    intro l
    induction l with
    | nil => simp
    | cons d l ih =>
      intro m
      rw [List.foldl_cons, ih, List.forall_mem_cons]
      split <;> simp_all [and_assoc]
  rw [State.cyclesToTurn, hfold]
  simp only [Vector.mem_toList_iff, Vector.mem_iff_getElem, Fin.forall_iff]
  grind

/-- No present die turns before the cycles to the turn have passed. -/
theorem State.cyclesToTurn_le {s : State} {d : Fin 8} (h : (s.dies[d]).status = .present) : s.cyclesToTurn ≤ (s.dies[d]).toGo :=
  ((s.le_cyclesToTurn _).mp (Nat.le_refl _)).2 d h

/-- A present die turns with the first ones when it has no more to go than any other. -/
theorem State.turns_iff (s : State) (die : Fin 8) : s.turns s.dies[die] = true ↔
    (s.dies[die]).status = .present ∧ ∀ d : Fin 8, (s.dies[d]).status = .present → (s.dies[die]).toGo ≤ (s.dies[d]).toGo := by
  rw [State.turns, Bool.and_eq_true, decide_eq_true_eq, beq_iff_eq]
  refine and_congr_right fun hp => ⟨fun h d hd => h ▸ State.cyclesToTurn_le hd, fun h => ?_⟩
  exact Nat.le_antisymm ((s.le_cyclesToTurn _).mpr ⟨Nat.sub_le _ _, h⟩) (State.cyclesToTurn_le hp)

/-- With the cycles to the turn known from one die, the dies that turn are those as near to their boundary. -/
theorem State.turns_of_first {s : State} {die : Fin 8} (h : s.turns s.dies[die] = true) :
    s.cyclesToTurn = (s.dies[die]).toGo ∧
      ∀ d : Fin 8, s.turns s.dies[d] = true ↔ (s.dies[d]).status = .present ∧ (s.dies[d]).toGo = (s.dies[die]).toGo := by
  have hturn : (s.dies[die]).toGo = s.cyclesToTurn := by
    rw [State.turns, Bool.and_eq_true, beq_iff_eq] at h
    exact h.2
  refine ⟨hturn.symm, fun d => ?_⟩
  rw [State.turns, Bool.and_eq_true, decide_eq_true_eq, beq_iff_eq, hturn]

/-! ### Pre-emptions leave budgets alone (07 R111) -/

/-- Two states with the same context in focus, dies, functions and, launch by launch, number and budget. -/
def State.BudgetsKept (s t : State) : Prop :=
  t.me = s.me ∧ t.dies = s.dies ∧ t.fns = s.fns ∧
    ∃ f : Launch → Launch, (∀ l, (f l).id = l.id ∧ (f l).budget = l.budget) ∧ t.launches = s.launches.map f

theorem State.BudgetsKept.mapLaunches (s : State) {f : Launch → Launch} (hf : ∀ l, (f l).id = l.id ∧ (f l).budget = l.budget) :
    s.BudgetsKept { s with launches := s.launches.map f } := ⟨rfl, rfl, rfl, f, hf, rfl⟩

theorem State.BudgetsKept.same {s t : State} (hme : t.me = s.me) (hdies : t.dies = s.dies) (hfns : t.fns = s.fns)
    (hlaunches : t.launches = s.launches) : s.BudgetsKept t :=
  ⟨hme, hdies, hfns, id, fun _ => ⟨rfl, rfl⟩, by rw [hlaunches, List.map_id]⟩

theorem State.BudgetsKept.refl (s : State) : s.BudgetsKept s := .same rfl rfl rfl rfl

theorem State.BudgetsKept.trans {s t u : State} (h : s.BudgetsKept t) (h' : t.BudgetsKept u) : s.BudgetsKept u := by
  obtain ⟨hme, hdies, hfns, f, hf, hl⟩ := h
  obtain ⟨hme', hdies', hfns', g, hg, hl'⟩ := h'
  refine ⟨hme'.trans hme, hdies'.trans hdies, hfns'.trans hfns, g ∘ f, fun l => ?_, by rw [hl', hl, List.map_map]⟩
  exact ⟨(hg _).1.trans (hf l).1, (hg _).2.trans (hf l).2⟩

theorem State.BudgetsKept.foldl {α : Type} {f : State → α → State} (hf : ∀ (s : State) (a : α), s.BudgetsKept (f s a))
    (l : List α) (s : State) : s.BudgetsKept (l.foldl f s) := by
  induction l generalizing s with
  | nil => exact .refl s
  | cons a l ih => exact (hf s a).trans (ih _)

theorem State.SameButMemory.budgetsKept {s t : State} (h : s.SameButMemory t) : s.BudgetsKept t := by
  obtain ⟨m, r, p, a, rfl⟩ := h
  exact .same rfl rfl rfl rfl

theorem State.advanceAfter_sameButMemory (s : State) (apply : Bool) (pick : StoreRec → Bool) (f : StoreRec → StoreRec) :
    s.SameButMemory (s.advanceAfter apply pick f) := ⟨_, _, _, _, rfl⟩

theorem State.afterRivals_sameButMemory (s : State) (pick : StoreRec → Bool) : s.SameButMemory (s.afterRivals pick) := by
  rw [State.afterRivals]
  split
  · exact ⟨_, _, _, _, rfl⟩
  · exact s.advanceAfter_sameButMemory ..

theorem State.drainAll_sameButMemory (s : State) (pick : StoreRec → Bool) : s.SameButMemory (s.drainAll pick) :=
  (s.afterRivals_sameButMemory _).trans (State.advanceAfter_sameButMemory ..)

theorem State.zeroSegs_sameButMemory (s : State) (cl : Fin 64) (ks : List Nat) : s.SameButMemory (s.zeroSegs cl ks) := ⟨_, _, _, _, rfl⟩

theorem State.modCluster_budgetsKept (s : State) (cl : Fin 64) (f : Cluster → Cluster) : s.BudgetsKept (s.modCluster cl f) :=
  .same rfl rfl rfl rfl

theorem State.modLaunch_budgetsKept (s : State) (n : Nat) {f : Launch → Launch} (hf : ∀ l, (f l).id = l.id ∧ (f l).budget = l.budget) :
    s.BudgetsKept (s.modLaunch n f) :=
  .mapLaunches s (fun l => by split <;> simp [hf])

theorem State.spill_budgetsKept (s : State) (l : Launch) (cl : Fin 64) : s.BudgetsKept (s.spill l cl) := by
  unfold State.spill
  extract_lets ks s1 v
  have hdrained : s.SameButMemory s1 := s.drainAll_sameButMemory _
  exact (hdrained.trans (s1.zeroSegs_sameButMemory cl ks)).budgetsKept.trans
    ((State.modCluster_budgetsKept ..).trans (State.modLaunch_budgetsKept _ _ fun _ => ⟨rfl, rfl⟩))

theorem State.spillAll_budgetsKept (s : State) (n : Nat) : s.BudgetsKept (s.spillAll n) := by
  rw [State.spillAll]
  split
  · exact .refl s
  · split
    · exact .refl s
    · exact .foldl (fun s c => s.spill_budgetsKept _ c) _ s

theorem State.preemptFor_budgetsKept (s : State) (l : Launch) : s.BudgetsKept (s.preemptFor l) :=
  .mapLaunches s (fun k => by split <;> exact ⟨rfl, rfl⟩)

theorem State.preemptions_budgetsKept (s : State) : s.BudgetsKept s.preemptions := by
  unfold State.preemptions
  extract_lets s1 w s2
  have hcleared : s.BudgetsKept s1 := .mapLaunches s (fun _ => ⟨rfl, rfl⟩)
  have hasked : s1.BudgetsKept s2 := .foldl State.preemptFor_budgetsKept _ s1
  exact hcleared.trans (hasked.trans (.foldl (fun s (l : Launch) => s.spillAll_budgetsKept l.id) _ s2))

/-! ### PERIOD_TURN (09 R127, R129) -/

/-- The state at the boundary of a period: the dies that reach it have turned their engine classes. -/
def State.periodPassed (s : State) : State :=
  ({ s with dies := s.dies.map (fun d => if s.turns d then { d with engines := d.engines.map Budget.turn } else d) } : State).advanceTime
    s.cyclesToTurn

/-- The budgets of launches and tenants have turned. -/
def State.packageTurned (s : State) : State :=
  { s with
    launches := s.launches.map (fun l => { l with budget := l.budget.turn })
    fns := s.fns.map (fun p => (p.1, { p.2 with tenant := p.2.tenant.turn })) }

section Turn
variable {s : State} {die : Fin 8}

theorem exec_periodTurn_stays (h : ¬s.turns s.dies[die] = true) : exec (.periodTurn die) s = .next s := by
  show execPeriodTurn die s = _
  rw [execPeriodTurn, if_pos (by simpa using h)]

theorem exec_periodTurn_die (h : s.turns s.dies[die] = true) (h0 : ¬s.turns s.dies[(0 : Fin 8)] = true) :
    exec (.periodTurn die) s = .next s.periodPassed := by
  show execPeriodTurn die s = _
  rw [execPeriodTurn, if_neg (by simpa using h)]
  exact if_neg h0

theorem exec_periodTurn_package (h : s.turns s.dies[die] = true) (h0 : s.turns s.dies[(0 : Fin 8)] = true) :
    exec (.periodTurn die) s = .next s.periodPassed.packageTurned.preemptions := by
  show execPeriodTurn die s = _
  rw [execPeriodTurn, if_neg (by simpa using h)]
  exact if_pos h0

end Turn

theorem State.periodPassed_absent {s : State} {d : Fin 8} (h : (s.dies[d]).status ≠ .present) :
    s.periodPassed.dies[d] = s.dies[d] := by
  simp_all [State.periodPassed, State.advanceTime, State.turns]

theorem State.periodPassed_present {s : State} {d : Fin 8} (h : (s.dies[d]).status = .present) :
    s.periodPassed.dies[d] = { s.dies[d] with
      time := (s.dies[d]).time + BitVec.ofNat 64 s.cyclesToTurn
      engines := if s.turns s.dies[d] then (s.dies[d]).engines.map Budget.turn else (s.dies[d]).engines } := by
  simp only [State.periodPassed, State.advanceTime, Fin.getElem_fin, Vector.getElem_map]
  split <;> simp_all

/-- On the dies time passes to the boundary, and the engine classes of those that reach it turn. -/
theorem State.periodPassed_dies {s : State} {die : Fin 8} (h : s.turns s.dies[die] = true) :
    (∀ d : Fin 8,
      ((s.dies[d]).status = .present → (s.periodPassed.dies[d]).time = (s.dies[d]).time + BitVec.ofNat 64 (s.dies[die]).toGo) ∧
      ((s.dies[d]).status ≠ .present → s.periodPassed.dies[d] = s.dies[d])) ∧
    ∀ d : Fin 8, (s.dies[d]).status = .present → if (s.dies[d]).toGo = (s.dies[die]).toGo
      then ∀ k : Fin 4, ((s.dies[d]).engines[k]).Turned ((s.periodPassed.dies[d]).engines[k])
      else (s.periodPassed.dies[d]).engines = (s.dies[d]).engines := by
  obtain ⟨hcycles, hturns⟩ := State.turns_of_first h
  refine ⟨fun d => ⟨fun hd => ?_, State.periodPassed_absent⟩, fun d hd => ?_⟩
  · rw [State.periodPassed_present hd, hcycles]
  · rw [State.periodPassed_present hd]
    split
    · rename_i hreach
      rw [if_pos ((hturns d).mpr ⟨hd, hreach⟩)]
      intro k
      show Budget.Turned _ ((s.dies[d].engines.map Budget.turn)[k.val])
      rw [Vector.getElem_map]
      exact Budget.turned_turn _
    · rename_i hreach
      exact if_neg fun hd' => hreach ((hturns d).mp hd').2

theorem Budget.turn_reset : Budget.reset.turn = Budget.reset := by decide

/-- What a turn of tenants leaves of a function's record. -/
theorem State.packageTurned_tenant (s : State) (fn : Fin 256) : (s.packageTurned.fnRec fn).tenant = (s.fnRec fn).tenant.turn := by
  have hget : ∀ l : List (Nat × FnRec), (Assoc.get FnRec.reset (l.map (fun p => (p.1, { p.2 with tenant := p.2.tenant.turn }))) fn.val).tenant =
      (Assoc.get FnRec.reset l fn.val).tenant.turn := by
    intro l
    unfold Assoc.get
    induction l with
    | nil => exact Budget.turn_reset.symm
    | cons p l ih =>
      rw [List.map_cons, Sparse.get, Sparse.get]
      split
      · rfl
      · exact ih
  exact hget s.fns

/-- Launches and tenants turn, and no pre-emption changes their budgets. -/
theorem State.packageTurned_budgets (s : State) :
    let t := s.packageTurned.preemptions
    t.me = s.me ∧ t.dies = s.dies ∧ (∀ n l, s.launch n = some l → ∃ l', t.launch n = some l' ∧ l.budget.Turned l'.budget) ∧
      ∀ fn, (s.fnRec fn).tenant.Turned (t.fnRec fn).tenant := by
  intro t
  obtain ⟨hme, hdies, hfns, f, hf, hlaunches⟩ := s.packageTurned.preemptions_budgetsKept
  refine ⟨hme, hdies, fun n l hl => ?_, fun fn => ?_⟩
  · have hturned : s.packageTurned.launch n = some { l with budget := l.budget.turn } := by
      rw [State.launch_of_map (s := s) (f := fun l => { l with budget := l.budget.turn }) rfl (fun _ => rfl), hl, Option.map_some]
    refine ⟨_, (State.launch_of_map hlaunches (fun k => (hf k).1) n).trans (by rw [hturned, Option.map_some]), ?_⟩
    rw [(hf _).2]
    exact l.budget.turned_turn
  · have htenant : (t.fnRec fn).tenant = (s.fnRec fn).tenant.turn := by
      rw [State.fnRec, hfns]
      exact s.packageTurned_tenant fn
    rw [htenant]
    exact Budget.turned_turn _

/-- Settles O56: the arbiter's winner has the best of the requesters' bids, an event's energy joins each budget of its activities,
and the dies that turn are those whose boundary comes first. -/
theorem chargesAndPeriods : Obligations.ChargesAndPeriods := by
  unfold Obligations.ChargesAndPeriods
  refine ⟨fun s cl res req => ?_, fun s die => ⟨fun n cls ev count => ?_, ?_⟩⟩
  · intro picked s1 ps r grown
    have hexec : exec (.vectorQueueIssue cl res req) s = .next ((s1.grantRound res ps).headGranted res ps) := rfl
    refine ⟨fun hps => ?_, fun hne hslots => ?_⟩
    · rw [hexec, hps, State.noRound]
    · obtain ⟨w, hw, hwin, hbest⟩ := grantWinner_best res hne hslots
      have hctx : ∀ c ∈ ps, s1.context c.uid = some c := fun c hc => (State.mem_requesters hc).1
      have hasks : w.asks res = true := (Bool.and_eq_true_iff.mp (State.mem_requesters hw).2).2
      rw [s1.granted_eq hwin] at hexec
      exact ⟨_, w, hexec, hw, hbest, fun c hc d => State.granted_credits hctx hc, fun c hc hcw d => State.granted_vq_other hctx hc hcw,
        fun e q d hq => State.granted_vq_winner hctx hw hq (Context.asks_head hasks hq),
        fun l hl => ⟨_, State.granted_launch res ps hl, l.budget.charge_used_same 0 1⟩⟩
  · intro e
    have he : s.fw.amount ev count = e := s.fw.amount_eq ev count
    exact he ▸ energyCharge_charges s die n cls ev count
  · intro toGo present first
    have hfirst : s.turns s.dies[die] = true ↔ first := s.turns_iff die
    refine ⟨fun h => exec_periodTurn_stays (hfirst.not.mpr h), fun h => ?_⟩
    replace h := hfirst.mpr h
    have hzero : s.turns s.dies[(0 : Fin 8)] = true ↔ present 0 ∧ toGo s.dies[(0 : Fin 8)] = toGo s.dies[die] :=
      (State.turns_of_first h).2 0
    obtain ⟨htime, hengines⟩ := State.periodPassed_dies h
    by_cases h0 : s.turns s.dies[(0 : Fin 8)] = true
    · obtain ⟨hme, hdies, hlaunches, htenants⟩ := s.periodPassed.packageTurned_budgets
      refine ⟨_, exec_periodTurn_package h h0, hme, ?_, ?_, fun _ => hlaunches, fun _ => htenants,
        fun hn => absurd (hzero.mp h0) hn⟩
      · rw [hdies]
        exact htime
      · rw [hdies]
        exact hengines
    · exact ⟨_, exec_periodTurn_die h h0, rfl, htime, hengines, fun hz => absurd (hzero.mpr hz) h0,
        fun hz => absurd (hzero.mpr hz) h0, fun _ => ⟨rfl, rfl⟩⟩

end Sys2Proof.Machine
end

section
/-! PROOFS. Shoot-down, page-walk fills and key slots (08 R113, R121, R123, R124). -/

namespace Sys2Proof.Machine

/-! ### Shoot-down (08 R121, R123) -/

/-- The pages of an entry meet a range as soon as one page of the range lies under the entry. -/
theorem TlbEntry.inRange_iff (t : TlbEntry) (v : Word) : t.inRange v = true ↔ v.toNat % 2 ^ 16 = 0 ∨
    ∃ p, v.toNat / 2 ^ 16 % 2 ^ 39 ≤ p ∧ p < v.toNat / 2 ^ 16 % 2 ^ 39 + v.toNat % 2 ^ 16 ∧ t.page = if t.big then p / 2 ^ 13 else p := by
  unfold TlbEntry.inRange
  generalize v.toNat / 2 ^ 16 % 2 ^ 39 = first
  generalize v.toNat % 2 ^ 16 = count
  simp only [Bool.or_eq_true, Bool.and_eq_true, beq_iff_eq, decide_eq_true_eq]
  refine or_congr_right' fun hcount => ?_
  cases t.big
  case false =>
    simp only [Bool.false_eq_true, if_false]
    exact ⟨fun _ => ⟨t.page, by omega, by omega, rfl⟩, fun ⟨p, _, _, _⟩ => by omega⟩
  case true =>
    simp only [if_true]
    refine ⟨fun _ => ?_, fun ⟨p, _, _, _⟩ => by omega⟩
    rcases le_total first (t.page * 2 ^ 13) with _ | _
    · exact ⟨t.page * 2 ^ 13, by omega, by omega, by omega⟩
    · exact ⟨first, by omega, by omega, by omega⟩

theorem TlbEntry.dropped_iff (t : TlbEntry) (fn sp : Fin 256) (v : Word) : t.dropped fn sp v = true ↔
    t.fn = fn ∧ (t.sp = sp ∨ field t.ent.toNat 6 1 = 1) ∧ t.inRange v = true := by
  simp [TlbEntry.dropped, and_assoc]

theorem State.mem_dropTlb (s : State) (pick : TlbEntry → Bool) (c : Fin 64) (e : TlbEntry) :
    e ∈ (s.dropTlb pick).clusters[c].tlb ↔ e ∈ s.clusters[c].tlb ∧ ¬pick e = true := by
  simp [State.dropTlb, List.mem_filter]

theorem StoreRec.waits_iff (r : StoreRec) : r.waits = true ↔ r.performed = false ∧ r.alive = true := by simp [StoreRec.waits]

/-- A store of the space to a page in the range counts as one that used a dropped entry. -/
theorem State.usedDropped_of_space {s : State} {fn sp : Fin 256} {v : Word} {u : StoreRec} (hfn : u.fn = fn) (hw : u.waits = true)
    (hsp : s.spaceOf u = some sp) (hv : v.toNat % 2 ^ 16 = 0 ∨ (v.toNat / 2 ^ 16 % 2 ^ 39 ≤ u.va.toNat / 2 ^ 16 % 2 ^ 39 ∧
      u.va.toNat / 2 ^ 16 % 2 ^ 39 < v.toNat / 2 ^ 16 % 2 ^ 39 + v.toNat % 2 ^ 16)) : s.usedDropped fn sp v u = true := by
  have hsmall : TlbEntry.inRange ⟨0, fn, sp, [], u.va.toNat / 2 ^ 16 % 2 ^ 39, false, 0⟩ v = true :=
    (TlbEntry.inRange_iff ..).mpr (hv.imp_right fun ⟨hlo, hhi⟩ => ⟨_, hlo, hhi, rfl⟩)
  simp only [State.usedDropped, hfn, hw, hsp, hsmall, beq_self_eq_true, Bool.and_self, Bool.true_or]

section ShootDown
variable {s : State} {fn : Fin 256} (sp : Fin 256)

/-- The record of a space after a write of ASSHOOT. -/
def State.shot (s : State) (fn sp : Fin 256) (v : Word) (a : AsRec) : AsRec :=
  { a with gen := a.gen + 1, shoot := v, done := false, pending := a.pending ++ (s.stores.filter (s.usedDropped fn sp v)).map (fun r => r.id) }

theorem exec_asshootWrite (hup : s.hostUp fn = true) (v : Word) : exec (.asshootWrite fn sp v) s =
    .next ((s.modSpace fn sp (s.shot fn sp v)).dropTlb (fun t => t.dropped fn sp v)) := by
  show execAsshootWrite fn sp v s = _
  simp only [execAsshootWrite, hup, Bool.not_true, Bool.false_eq_true, if_false]
  rfl

theorem State.asRec_shot (v : Word) :
    ((s.modSpace fn sp (s.shot fn sp v)).dropTlb (fun t => t.dropped fn sp v)).asRec fn sp = s.shot fn sp v (s.asRec fn sp) :=
  s.asRec_modSpace_same fn sp _

theorem State.pendingWaits_iff : s.stores.any (fun r => r.waits && (s.asRec fn sp).pending.contains r.id) = true ↔
    ∃ u ∈ s.stores, u.id ∈ (s.asRec fn sp).pending ∧ u.performed = false ∧ u.alive = true := by
  simp only [List.any_eq_true, Bool.and_eq_true, StoreRec.waits_iff, List.contains_iff_mem, and_comm]

theorem exec_shootDownDone : exec (.shootDownDone fn sp) s =
    .next (if ∃ u ∈ s.stores, u.id ∈ (s.asRec fn sp).pending ∧ u.performed = false ∧ u.alive = true then s
      else s.modSpace fn sp (fun a => { a with done := true, pending := [] })) := by
  show execShootDownDone fn sp s = _
  simp only [execShootDownDone, State.pendingWaits_iff]

end ShootDown

/-! ### Page-walk fills (08 R121, R123) -/

theorem Walk.isFor_iff (fn sp : Fin 256) (va : Word) (gen : BitVec 32) (w : Walk) : w.isFor fn sp va gen = true ↔
    w.fn = fn ∧ w.sp = sp ∧ w.va = va ∧ genIn w.gens sp.val = gen := by
  simp [Walk.isFor, and_assoc]

theorem Walk.global_iff (w : Walk) : w.global = true ↔ ∃ p, w.found = some p ∧ field p.2.toNat 6 1 = 1 := by
  simp [Walk.global, Option.any_eq_true]

/-- The recorded generations hold: that of the walk's space, or for a global leaf those of every space of the function. -/
theorem State.current_iff (s : State) (w : Walk) : s.current w = true ↔
    (¬w.global = true ∧ genIn w.gens w.sp.val = (s.asRec w.fn w.sp).gen) ∨
      (w.global = true ∧ ∀ p ∈ (s.fnRec w.fn).sps, genIn w.gens p.1 = p.2.gen) := by
  cases h : w.global <;> simp [State.current, State.generations, h]

theorem mem_tlbInsert_self (t : TlbEntry) (l : List TlbEntry) : t ∈ tlbInsert t l := by
  unfold tlbInsert
  extract_lets same l1
  split
  · exact List.mem_append_right _ (List.mem_singleton_self t)
  · exact List.mem_append_right _ (List.mem_singleton_self t)

/-- A slice that takes an entry holds nothing else that it did not hold. -/
theorem mem_of_mem_tlbInsert {t e : TlbEntry} {l : List TlbEntry} (h : e ∈ tlbInsert t l) : e ∈ l ∨ e = t := by
  unfold tlbInsert at h
  extract_lets same l1 at h
  have hkept : e ∈ l1 → e ∈ l := List.mem_of_mem_filter
  split at h
  · exact (List.mem_append.mp h).imp (fun he => hkept (List.mem_of_mem_eraseP he)) List.mem_singleton.mp
  · exact (List.mem_append.mp h).imp hkept List.mem_singleton.mp

/-- The entries of a cluster's slices after the fill of a walk. -/
def Walk.filled (w : Walk) (l : List TlbEntry) : List TlbEntry :=
  match w.found with
  | some (big, e) => tlbInsert (w.entry big e) l
  | none => l

theorem exec_pageWalkFill_idle {s : State} {cl : Fin 64} {fn sp : Fin 256} {va : Word} {gen : BitVec 32}
    (h : ∀ w ∈ (s.clusters[cl]).walks, ¬w.isFor fn sp va gen = true) : exec (.pageWalkFill cl fn sp va gen) s = .next s := by
  show execPageWalkFill cl fn sp va gen s = _
  rw [execPageWalkFill, List.find?_eq_none.mpr h]

section Fill
variable {s : State} {cl : Fin 64} {fn sp : Fin 256} {va : Word} {gen : BitVec 32} {w : Walk} {before after : List Walk}
  (hwalks : (s.clusters[cl]).walks = before ++ w :: after) (hw : w.isFor fn sp va gen = true)
  (hbefore : ∀ u ∈ before, ¬u.isFor fn sp va gen = true)
include hwalks hw hbefore

theorem State.find_walk : (s.clusters[cl]).walks.find? (Walk.isFor fn sp va gen) = some w := by
  rw [hwalks, List.find?_append, List.find?_eq_none.mpr hbefore, List.find?_cons_of_pos hw, Option.none_or]

theorem State.erase_walk : (s.clusters[cl]).walks.erase w = before ++ after := by
  rw [hwalks, List.erase_append_right _ (fun hmem => hbefore w hmem hw), List.erase_cons_head]

/-- The walk that a fill names leaves the walker, and fills the slice or starts again. -/
theorem exec_pageWalkFill_named : exec (.pageWalkFill cl fn sp va gen) s =
    if s.current w then .next (s.modCluster cl (fun c => { c with walks := before ++ after, tlb := w.filled c.tlb }))
    else .next (s.modCluster cl (fun c => { c with walks := before ++ after ++ [s.newWalk cl fn sp va] })) := by
  show execPageWalkFill cl fn sp va gen s = _
  rw [execPageWalkFill, State.find_walk hwalks hw hbefore]
  simp only [State.modCluster, State.erase_walk hwalks hw hbefore]
  rfl

end Fill

/-- A new walk records the generation of every space of its function, and the leaf that the tables hold now. -/
theorem State.newWalk_records (s : State) (cl : Fin 64) (fn sp : Fin 256) (va : Word) :
    (∀ p ∈ (s.fnRec fn).sps, (p.1, p.2.gen) ∈ (s.newWalk cl fn sp va).gens) ∧
      (s.newWalk cl fn sp va).found =
        ((s.walk ⟨fn, sp, none, cl, false⟩ va.toNat).toOption).map (fun p => (p.1, BitVec.ofNat 64 p.2)) :=
  ⟨fun _ hp => List.mem_map_of_mem hp, rfl⟩

/-- A fill places its leaf in the slice of its address, and no other entry. -/
theorem Walk.filled_found {w : Walk} {big : Bool} {e : Word} (h : w.found = some (big, e)) (l : List TlbEntry) :
    (∃ f ∈ w.filled l, f.slice.val = w.va.toNat / 2 ^ 16 % 8 ∧ f.fn = w.fn ∧ f.sp = w.sp ∧ f.big = big ∧
      f.page = (if big then w.va.toNat / 2 ^ 29 else w.va.toNat / 2 ^ 16) ∧ f.ent = e) ∧
    ∀ f ∈ w.filled l, f ∈ l ∨ (f.fn = w.fn ∧ f.sp = w.sp ∧ f.ent = e) := by
  have hfilled : w.filled l = tlbInsert (w.entry big e) l := by rw [Walk.filled, h]
  rw [hfilled]
  refine ⟨⟨_, mem_tlbInsert_self _ _, rfl, rfl, rfl, rfl, rfl, rfl⟩, fun f hf => (mem_of_mem_tlbInsert hf).imp_right ?_⟩
  rintro rfl
  exact ⟨rfl, rfl, rfl⟩

theorem Walk.filled_none {w : Walk} (h : w.found = none) (l : List TlbEntry) : w.filled l = l := by rw [Walk.filled, h]

/-! ### Key slots (08 R113, R124) -/

section Keys
variable (s : State) (fn : Fin 256) (k : BitVec 11) (data tweak : BitVec 256)

/-- Slot 0 and a loaded slot take no key. -/
theorem exec_keyLoad : exec (.keyLoad fn ⟨k, data, tweak⟩) s =
    .next (if k = 0 ∨ ∃ p ∈ s.keys, p.slot = k.toNat then s else { s with keys := s.keys ++ [⟨k.toNat, fn.val, data, tweak⟩] }) := by
  show execKeyLoad fn ⟨k, data, tweak⟩ s = _
  simp only [execKeyLoad, List.any_eq_true, beq_iff_eq]

/-- A line carries the index of a slot when one of its blocks lies under the slot's keys. -/
theorem State.lineHas_eq_false_iff (line n : Nat) :
    s.lineHas line n = false ↔ ∀ u ∈ s.lineKeys, u.1 / 8 = line → u.2 ≠ none → u.2 ≠ s.slotKey n := by
  simp [State.lineHas, Option.isSome_iff_ne_none]

theorem State.mem_clearKey_keys (n : Nat) (p : KeySlot) : p ∈ (s.clearKey n).keys ↔ p ∈ s.keys ∧ p.slot ≠ n := by
  simp [State.clearKey]

theorem State.mem_clearKey_modified (n : Nat) (p : Nat × Nat) : p ∈ (s.clearKey n).modified ↔
    p ∈ s.modified ∧ ∀ u ∈ s.lineKeys, u.1 / 8 = p.1 → u.2 ≠ none → u.2 ≠ s.slotKey n := by
  rw [← State.lineHas_eq_false_iff]
  simp [State.clearKey]

/-- Clearing slots one after another changes the key table and the cached lines alone. -/
theorem State.foldl_clearKey (l : List KeySlot) : ∃ ks ms,
    l.foldl (fun s p => s.clearKey p.slot) s = { s with keys := ks, modified := ms } ∧
      ∀ p, p ∈ ks ↔ p ∈ s.keys ∧ ∀ q ∈ l, p.slot ≠ q.slot := by
  induction l generalizing s with
  | nil => exact ⟨s.keys, s.modified, rfl, by simp⟩
  | cons q l ih =>
    obtain ⟨ks, ms, hfold, hmem⟩ := ih (s.clearKey q.slot)
    refine ⟨ks, ms, hfold, fun p => ?_⟩
    rw [hmem, State.mem_clearKey_keys, List.forall_mem_cons, and_assoc]

/-- A release clears the slots of the function and drops its translations. -/
theorem exec_keyRelease : ∃ ks ms,
    exec (.keyRelease fn) s = .next (({ s with keys := ks, modified := ms } : State).dropTlb (fun t => t.fn == fn)) ∧
      ∀ p ∈ ks, p ∈ s.keys ∧ p.owner ≠ fn.val := by
  obtain ⟨ks, ms, hfold, hmem⟩ := s.foldl_clearKey (s.keys.filter (fun p => p.owner == fn.val))
  refine ⟨ks, ms, ?_, fun p hp => ?_⟩
  · show execKeyRelease fn s = _
    rw [execKeyRelease, hfold]
  · obtain ⟨hkey, hslot⟩ := (hmem p).mp hp
    exact ⟨hkey, fun howner => hslot p (List.mem_filter.mpr ⟨hkey, beq_iff_eq.mpr howner⟩) rfl⟩

end Keys

/-! ### The statement -/

/-- Settles O53: a shoot-down drops by the pages an entry covers and waits for the stores that it named; a fill asks the recorded
generations; and a key slot is emptied after its lines. -/
theorem translationsAndKeys : Obligations.TranslationsAndKeys := by
  unfold Obligations.TranslationsAndKeys
  refine ⟨fun s fn sp v cl gen => ?_, fun s fn k data tweak => ?_⟩
  · intro r first hit waits
    have hdone : exec (.shootDownDone fn sp) s = _ := exec_shootDownDone sp
    refine ⟨fun hup => ⟨_, exec_asshootWrite sp hup v, ?_, ?_, ?_, ?_⟩, fun h => hdone.trans (by rw [if_pos h]),
      fun h => ⟨_, hdone.trans (by rw [if_neg h]), State.asRec_modSpace_same .., rfl⟩, fun h => ?_, ?_⟩
    · rw [State.asRec_shot]
      rfl
    · rw [State.asRec_shot]
      exact fun n hn => List.mem_append_left _ hn
    · intro u hu hfn hperf halive hsp hv
      have hused := State.usedDropped_of_space hfn (u.waits_iff.mpr ⟨hperf, halive⟩) hsp hv
      rw [State.asRec_shot]
      exact List.mem_append_right _ (List.mem_map_of_mem (List.mem_filter.mpr ⟨hu, hused⟩))
    · intro c e
      rw [State.mem_dropTlb, TlbEntry.dropped_iff, TlbEntry.inRange_iff]
      rfl
    · exact exec_pageWalkFill_idle fun w hmem => (Walk.isFor_iff ..).not.mpr (h w hmem)
    · intro w before after hwalks hfn hsp hva hgen hbefore global stands
      have hw : w.isFor fn sp v gen = true := (w.isFor_iff ..).mpr ⟨hfn, hsp, hva, hgen⟩
      have hpre : ∀ u ∈ before, ¬u.isFor fn sp v gen = true := fun u hu => (Walk.isFor_iff ..).not.mpr (hbefore u hu)
      have hstands : s.current w = true ↔ stands := by
        rw [State.current_iff, Walk.global_iff, hfn, hsp, hgen]
      by_cases h : s.current w = true
      · refine ⟨_, (exec_pageWalkFill_named hwalks hw hpre).trans (if_pos h), rfl, fun d hd => State.modCluster_other _ _ _ _ hd, ?_,
          fun hn => absurd (hstands.mp h) hn, fun _ => ?_⟩
        · rw [State.modCluster_same]
        · rw [State.modCluster_same, ← hfn, ← hsp, ← hva]
          exact ⟨rfl, fun hnone => w.filled_none hnone _, fun big e hfound => Walk.filled_found hfound _⟩
      · refine ⟨_, (exec_pageWalkFill_named hwalks hw hpre).trans (if_neg h), rfl, fun d hd => State.modCluster_other _ _ _ _ hd, ?_,
          fun _ => ?_, fun hs => absurd (hstands.mpr hs) h⟩
        · rw [State.modCluster_same]
        · obtain ⟨hgens, hfound⟩ := s.newWalk_records cl fn sp v
          rw [State.modCluster_same]
          exact ⟨rfl, _, List.mem_append_right _ (List.mem_singleton_self _), rfl, rfl, rfl, hgens, hfound⟩
  · intro used
    refine ⟨fun h => ?_, fun hk hu => ?_, ⟨_, rfl, rfl, s.mem_clearKey_keys k.toNat, s.mem_clearKey_modified k.toNat⟩, ?_⟩
    · rw [exec_keyLoad, if_pos h]
    · rw [exec_keyLoad, if_neg (not_or.mpr ⟨hk, hu⟩)]
    · obtain ⟨ks, ms, hexec, hkeys⟩ := exec_keyRelease s fn
      refine ⟨_, hexec, rfl, hkeys, fun c e => ?_⟩
      rw [State.mem_dropTlb, beq_iff_eq]

end Sys2Proof.Machine
end

section
/-! PROOFS. A drain makes the stores of a context visible everywhere and acknowledged (10 R147; 11 R162; 02 R25). -/

namespace Sys2Proof.Machine

/-! ### Properties of records that settling keeps -/

/-- A property that a record keeps when its bytes move into memory and its acknowledgement arrives. -/
def KeptBySettling (P : StoreRec → Prop) : Prop :=
  ∀ r bs a, (r.acked = true → a = true) → P r → P { r with bytes := bs, acked := a }

theorem settleFrom_forall {P : StoreRec → Prop} (hP : KeptBySettling P) (l : List StoreRec) : ∀ (kept : List StoreRec) (m : List Host.Cell),
    (∀ r ∈ kept ++ l, P r) → ∀ q ∈ (settleFrom kept m l).1, P q := by
  induction l with
  | nil => exact fun kept m h q hq => h q (List.mem_append_left _ hq)
  | cons r rest ih =>
    intro kept m h
    obtain ⟨hkept, hr, hrest⟩ : (∀ q ∈ kept, P q) ∧ P r ∧ ∀ q ∈ rest, P q := by
      simpa only [List.forall_mem_append, List.forall_mem_cons] using h
    have join : ∀ {kept' : List StoreRec} {r' : StoreRec}, (∀ q ∈ kept', P q) → P r' → ∀ q ∈ kept' ++ [r'] ++ rest, P q :=
      fun hk hr' => List.forall_mem_append.mpr ⟨List.forall_mem_append.mpr ⟨hk, List.forall_mem_singleton.mpr hr'⟩, hrest⟩
    rw [settleFrom]
    split
    · refine ih _ _ (join (List.forall_mem_map.mpr fun q hq => hP q _ q.acked id (hkept q hq)) (hP r [] _ (fun ha => ?_) hr))
      rw [ha, Bool.true_or]
    · exact ih _ _ (join hkept hr)

/-- Every record after a change has a property that the changed and the other records have. -/
theorem State.advance_forall {P : StoreRec → Prop} (hP : KeptBySettling P) {s : State} {pick : StoreRec → Bool} {f : StoreRec → StoreRec}
    (h : ∀ r ∈ s.stores, P (if pick r then f r else r)) : ∀ q ∈ (s.advance pick f).stores, P q := by
  refine fun q hq => settleFrom_forall hP _ [] s.mem (fun r hr => ?_) q (List.mem_filter.mp hq).1
  obtain ⟨r0, hr0, rfl⟩ := mem_updateStores hr
  exact h r0 hr0

/-- Two records of one store, up to what observers see of it. -/
def StoreRec.SameStore (r q : StoreRec) : Prop := q.id = r.id ∧ q.ctx = r.ctx ∧ q.work = r.work ∧ q.lost = r.lost

theorem StoreRec.settled_sameStore (r : StoreRec) (bs : List Host.Cell) (a : Bool) : r.SameStore { r with bytes := bs, acked := a } :=
  ⟨rfl, rfl, rfl, rfl⟩

theorem StoreRec.applyNow_sameStore (r : StoreRec) : r.SameStore r.applyNow := by
  unfold StoreRec.applyNow
  split <;> exact ⟨rfl, rfl, rfl, rfl⟩

theorem StoreRec.performNow_sameStore (r : StoreRec) : r.SameStore r.performNow := by
  unfold StoreRec.performNow
  split
  · exact r.applyNow_sameStore
  · exact r.applyNow_sameStore
  · split
    · exact r.applyNow_sameStore
    · exact ⟨rfl, rfl, rfl, rfl⟩

/-- The same after a change that first applies or performs the stores before it. -/
theorem State.advanceAfter_forall {P : StoreRec → Prop} (hP : KeptBySettling P) {s : State} {apply : Bool} {pick : StoreRec → Bool}
    {f : StoreRec → StoreRec} (hpick : ∀ r ∈ s.stores, pick r = true → P (f r))
    (hrest : ∀ r ∈ s.stores, pick r = false → ∀ q, r.SameStore q → P q) : ∀ q ∈ (s.advanceAfter apply pick f).stores, P q := by
  refine State.advance_forall hP fun r hr => ?_
  by_cases hp : pick r = true
  · rw [hp, Bool.true_or, Bool.true_or, if_pos rfl, if_pos rfl]
    exact hpick r hr hp
  · have hother := hrest r hr (Bool.eq_false_iff.mpr hp)
    rw [if_neg hp]
    split
    · split
      · exact hother _ r.applyNow_sameStore
      · exact hother _ r.performNow_sameStore
    · exact hother r ⟨rfl, rfl, rfl, rfl⟩

/-! ### Draining -/

section Drain
variable {s : State} {pick : StoreRec → Bool} (hsame : ∀ r q : StoreRec, r.SameStore q → pick q = pick r)
  (halive : ∀ r ∈ s.stores, pick r = true → r.lost = false)
include hsame halive

/-- Applying rivals loses no picked store. -/
theorem State.afterRivals_alive (rivalsOf : StoreRec → Bool) : ∀ r ∈ (s.afterRivals rivalsOf).stores, pick r = true → r.lost = false := by
  have hkeep : ∀ r ∈ s.stores, ∀ q, r.SameStore q → pick q = true → q.lost = false := by
    intro r hr q hq hp
    rw [hq.2.2.2, halive r hr ((hsame r q hq).symm.trans hp)]
  unfold State.afterRivals
  extract_lets ids
  split
  · exact halive
  · refine State.advanceAfter_forall (P := fun r => pick r = true → r.lost = false) ?_ (fun r hr _ => hkeep r hr _ ?_) (fun r hr _ => hkeep r hr)
    · exact fun r bs a _ hr hp => hr ((hsame _ _ (r.settled_sameStore bs a)).symm.trans hp)
    · exact r.applyNow_sameStore

/-- The picked stores, of which none is lost, are visible everywhere and acknowledged after a drain. -/
theorem State.drainAll_everywhere : ∀ r ∈ (s.drainAll pick).stores, pick r = true → r.everywhere = true ∧ r.acked = true := by
  have hleft := State.afterRivals_alive hsame halive (fun r => pick r && r.alive)
  refine State.advanceAfter_forall (P := fun r => pick r = true → r.everywhere = true ∧ r.acked = true) ?_ (fun r _ _ _ => ⟨?_, rfl⟩)
    fun r hr hother q hq hp => ?_
  · exact fun r bs a ha hr hp => (hr ((hsame _ _ (r.settled_sameStore bs a)).symm.trans hp)).imp_right ha
  · simp [StoreRec.everywhere, StoreRec.ackNow]
  · have hpr : pick r = true := (hsame r q hq).symm.trans hp
    simp [StoreRec.alive, hpr, hleft r hr hpr] at hother

end Drain

end Sys2Proof.Machine
end

section
/-! PROOFS. Launches: admission, acceptance, placement of their threads, completion, and the release of their segments (02 R10 to
R15, R22, R25; 07 R109; 09 R131; 18 R304). -/

namespace Sys2Proof.Machine

/-! ### Admission (09 R131) -/

/-- A launch without an estimate, or of a tenant without an energy limit, is admitted. -/
theorem State.admits_of_unlimited {s : State} {l : Launch} (h : l.pk.energy = 0 ∨ (s.fnRec l.fn).tenant.lim[3] = 0xFFFFFFFF) :
    s.admits l = true := by
  rcases h with h | h <;> simp [State.admits, h]

section Admission
variable {s : State} {n : Nat} {l : Launch} (hl : s.launch n = some l)
include hl

theorem exec_launchAdmission : exec (.launchAdmission n) s =
    .next (if l.stage = .waiting ∧ s.admits l then s.modLaunch n (fun k => { k with stage := .admitted }) else s) := by
  show execLaunchAdmission n s = _
  rw [execLaunchAdmission, hl]

theorem exec_launchAdmission_admits (hw : l.stage = .waiting) (ha : s.admits l = true) :
    exec (.launchAdmission n) s = .next (s.modLaunch n (fun k => { k with stage := .admitted })) := by
  rw [exec_launchAdmission hl, if_pos ⟨hw, ha⟩]

theorem exec_launchAdmission_idle (h : l.stage ≠ .waiting ∨ s.admits l = false) : exec (.launchAdmission n) s = .next s := by
  rw [exec_launchAdmission hl, if_neg]
  rintro ⟨hw, ha⟩
  exact h.elim (fun hne => hne hw) (fun hf => absurd (ha.symm.trans hf) (by decide))

end Admission

/-! ### Acceptance (02 R15; 07 R105, R106) -/

/-- The winner of a round took part in it. -/
theorem mem_of_roundWinner {l : List (Nat × Int)} {q : Nat} (h : roundWinner l = some q) : ∃ x ∈ l, x.1 = q := by
  cases l with
  | nil => exact nomatch h
  | cons x l =>
    obtain ⟨y, hy, hwin, -⟩ := roundWinner_best x l
    exact ⟨y, hy, Option.some.inj (hwin.symm.trans h)⟩

/-- The queue chosen has a head that could start. -/
theorem State.startable_of_chosenQueue {s : State} {q : Nat} (h : s.chosenQueue = some q) : s.startable q = true := by
  obtain ⟨x, hx, rfl⟩ := mem_of_roundWinner h
  obtain ⟨p, hp, rfl⟩ := List.mem_map.mp hx
  exact (List.mem_filter.mp (List.mem_filter.mp hp).1).2

/-- A launch with threads could start only with a free group id. -/
theorem State.freeGroup_of_startable {s : State} {q : Nat} {h : HeadEntry} {l : Launch} (hs : s.startable q = true)
    (hhead : (s.queue q).head = some h) (hl : s.launch h.launch = some l) (ht : l.pk.t ≠ 0) : s.freeGroup (queueDie q) ≠ none := by
  rw [State.startable, hhead] at hs
  dsimp only at hs
  rw [hl] at hs
  simp only [Bool.and_eq_true, Bool.or_eq_true, beq_iff_eq] at hs
  obtain ⟨-, -, -, h0 | hfree⟩ := hs
  · exact absurd h0 ht
  · exact Option.isSome_iff_ne_none.mp hfree

/-- The head of a queue has started as the entry of a launch: QHEAD and NEXT have moved on, and it has joined the started ones. -/
def State.LaunchStarted (s t : State) (l : Launch) (h : HeadEntry) (done : Bool) : Prop :=
  (t.queue l.queue).qhead = l.seq ∧ (t.queue l.queue).nextAt = h.next ∧ (t.queue l.queue).head = none ∧ t.me = s.me ∧
    ∃ e, (t.queue l.queue).ents = (s.queue l.queue).ents ++ [e] ∧ e.seq = l.seq ∧ e.kind = .launch l.id ∧ e.intr = h.intr ∧ e.done = done

/-- The started entry of a launch. -/
def State.launchEntry (s : State) (l : Launch) (h : HeadEntry) : QEntry := ⟨s.nextId, l.seq, .launch l.id, h.intr, l.pk.t == 0, false⟩

/-- The entry of a launch starts in its queue, which pays for the choice. -/
def State.startLaunch (s : State) (l : Launch) (h : HeadEntry) : State :=
  let s1 := (s.payQueue l.queue).modQueue l.queue (fun k => k.start l.seq h.next (s.launchEntry l h))
  { s1 with nextId := s1.nextId + 1 }

section Acceptance
variable {s : State} {l : Launch} (h : HeadEntry)

/-- Starting an entry changes the queues alone, and takes a number. -/
theorem State.startLaunch_same : s.startLaunch l h = { s with queues := (s.startLaunch l h).queues, nextId := s.nextId + 1 } := by
  unfold State.startLaunch
  rw [(s.payQueue_credits l.queue).1]
  rfl

theorem State.startLaunch_me : (s.startLaunch l h).me = s.me := by rw [State.startLaunch_same]
theorem State.startLaunch_launch (n : Nat) : (s.startLaunch l h).launch n = s.launch n := by rw [State.startLaunch_same]; rfl
theorem State.startLaunch_freeGroup (die : Fin 8) : (s.startLaunch l h).freeGroup die = s.freeGroup die := by
  rw [State.startLaunch_same]; rfl

theorem State.startLaunch_queue : ∃ c, (s.startLaunch l h).queue l.queue = ({ s.queue l.queue with credit := c } : Queue).start l.seq h.next
    (s.launchEntry l h) := by
  obtain ⟨c, hc⟩ := (s.payQueue_credits l.queue).2 l.queue
  exact ⟨c, hc ▸ (s.payQueue l.queue).queue_modQueue_same l.queue (fun k => k.start l.seq h.next (s.launchEntry l h))⟩

/-- A state with the queues and the context in focus of a launch's start has it started. -/
theorem State.launchStarted_of_startLaunch {t : State} (hqueues : t.queues = (s.startLaunch l h).queues)
    (hme : t.me = (s.startLaunch l h).me) : s.LaunchStarted t l h (l.pk.t == 0) := by
  obtain ⟨c, hc⟩ := State.startLaunch_queue (s := s) (l := l) h
  have hqueue : t.queue l.queue = (s.startLaunch l h).queue l.queue := by rw [State.queue, State.queue, hqueues]
  unfold State.LaunchStarted
  rw [hqueue, hc, hme, State.startLaunch_me]
  exact ⟨rfl, rfl, rfl, rfl, _, rfl, rfl, rfl, rfl, rfl⟩

/-- A launch without threads is over at once. -/
theorem State.accept_empty (ht : l.pk.t = 0) :
    s.accept l h = { s.startLaunch l h with launches := (s.startLaunch l h).launches.filter (fun k => k.id != l.id) } := by
  unfold State.accept
  dsimp only
  rw [if_pos ht]
  rfl

/-- Any other launch gets the lowest free group id, with its threads as members. -/
theorem State.accept_group {g : Nat} (ht : l.pk.t ≠ 0) (hg : s.freeGroup (queueDie l.queue) = some g) : s.accept l h =
    ({ s.startLaunch l h with groups := Assoc.set (s.startLaunch l h).groups g ⟨l.pk.t, 0, l.pk.t, 0⟩ } : State).modLaunch l.id (fun k =>
      { k with stage := .accepted, order := s.nextId, gid := g, budget := { k.budget with lim := (s.fnRec l.fn).llim } }) := by
  have hfree := (State.startLaunch_freeGroup (l := l) h (queueDie l.queue)).trans hg
  unfold State.startLaunch State.launchEntry at hfree ⊢
  unfold State.accept
  dsimp only at hfree ⊢
  rw [if_neg ht, hfree]

variable {n : Nat} (hl : s.launch n = some l)
include hl

theorem exec_launchAccept_chosen {h : HeadEntry} (hhead : (s.queue l.queue).head = some h) (hn : h.launch = n)
    (hc : s.chosenQueue = some l.queue) : exec (.launchAccept n) s = .next (s.accept l h) := by
  show execLaunchAccept n s = _
  rw [execLaunchAccept, hl]
  dsimp only
  rw [hhead]
  exact congrArg _ (if_pos ⟨hn, hc⟩)

omit h in
theorem exec_launchAccept_passed (hc : s.chosenQueue ≠ some l.queue) : exec (.launchAccept n) s = .next s := by
  show execLaunchAccept n s = _
  rw [execLaunchAccept, hl]
  dsimp only
  split
  · rw [if_neg (fun hboth => hc hboth.2)]
  · rfl

theorem exec_launchAccept_empty (hhead : (s.queue l.queue).head = some h) (hn : h.launch = n) (hc : s.chosenQueue = some l.queue)
    (ht : l.pk.t = 0) : ∃ t, exec (.launchAccept n) s = .next t ∧ s.LaunchStarted t l h true ∧ t.launch n = none := by
  have hexec := exec_launchAccept_chosen hl hhead hn hc
  rw [State.accept_empty h ht] at hexec
  refine ⟨_, hexec, ?_, List.find?_eq_none.mpr fun k hk => ?_⟩
  · rw [show true = (l.pk.t == 0) from (beq_iff_eq.mpr ht).symm]
    exact State.launchStarted_of_startLaunch h rfl rfl
  · rw [← State.launch_id hl]
    simpa using (List.mem_filter.mp hk).2

theorem exec_launchAccept_group (hhead : (s.queue l.queue).head = some h) (hn : h.launch = n) (hc : s.chosenQueue = some l.queue)
    {g : Nat} (ht : l.pk.t ≠ 0) (hg : s.freeGroup (queueDie l.queue) = some g) : ∃ t l', exec (.launchAccept n) s = .next t ∧
      s.LaunchStarted t l h false ∧ t.launch n = some l' ∧ l'.stage = .accepted ∧ l'.gid = g ∧
      Assoc.get ⟨0, 0, 0, 0⟩ t.groups g = ⟨l.pk.t, 0, l.pk.t, 0⟩ := by
  have hexec := exec_launchAccept_chosen hl hhead hn hc
  rw [State.accept_group h ht hg, State.launch_id hl] at hexec
  refine ⟨_, _, hexec, ?_, State.launch_modLaunch ((State.startLaunch_launch h n).trans hl) (fun _ => rfl), rfl, rfl, Assoc.get_set_same ..⟩
  rw [show false = (l.pk.t == 0) from (beq_eq_false_iff_ne.mpr ht).symm]
  exact State.launchStarted_of_startLaunch h rfl rfl

end Acceptance

end Sys2Proof.Machine
end

section
/-! PROOFS. Placement of the threads of a launch (02 R8, R12 to R14, R22; 26 R340). -/

namespace Sys2Proof.Machine

/-! ### Lowest members of a selection -/

section Lowest
variable {n : Nat} (p : Fin n → Bool)

theorem pairwise_filter_finRange : ((List.finRange n).filter p).Pairwise (· < ·) := (List.pairwise_lt_finRange n).filter p

theorem mem_filter_finRange {k : Fin n} : k ∈ (List.finRange n).filter p ↔ p k = true := by
  rw [List.mem_filter, and_iff_right (List.mem_finRange k)]

/-- The first one selected is the lowest. -/
theorem not_of_lt_head {a : Fin n} {r : List (Fin n)} (h : (List.finRange n).filter p = a :: r) {k : Fin n} (hk : k < a) : p k = false := by
  have hsorted : (a :: r).Pairwise (· < ·) := h ▸ pairwise_filter_finRange p
  refine Bool.eq_false_iff.mpr fun hp => ?_
  have hmem : k ∈ a :: r := h ▸ (mem_filter_finRange p).mpr hp
  rcases List.mem_cons.mp hmem with rfl | hr
  · exact lt_irrefl _ hk
  · exact lt_asymm hk (List.rel_of_pairwise_cons hsorted hr)

/-- With one that is taken, every lower one selected is taken. -/
theorem mem_take_of_lt {m : Nat} {j k : Fin n} (hk : k ∈ ((List.finRange n).filter p).take m) (hj : p j = true) (hjk : j < k) :
    j ∈ ((List.finRange n).filter p).take m := by
  have hsorted := pairwise_filter_finRange p
  have hmem := (mem_filter_finRange p).mpr hj
  rw [← List.take_append_drop m ((List.finRange n).filter p)] at hsorted hmem
  refine (List.mem_append.mp hmem).resolve_right fun hdrop => ?_
  exact lt_asymm hjk ((List.pairwise_append.mp hsorted).2.2 k hk j hdrop)

end Lowest

/-! ### Slots and lane groups of a cluster -/

theorem Cluster.freeSlots_congr {c d : Cluster} (h : d.slots = c.slots) : d.freeSlots = c.freeSlots := by
  rw [Cluster.freeSlots, Cluster.freeSlots, h]

/-- The first free slot is free, and no lower one is. -/
theorem Cluster.lowest_freeSlot {c : Cluster} {slot : Fin 4} {r : List (Fin 4)} (h : c.freeSlots = slot :: r) :
    c.slots[slot] = none ∧ ∀ k : Fin 4, k < slot → c.slots[k] ≠ none := by
  refine ⟨Option.isNone_iff_eq_none.mp ((mem_filter_finRange _).mp (h ▸ List.mem_cons_self)), fun k hk => ?_⟩
  have hfree := not_of_lt_head _ h hk
  exact fun hnone => by simp [hnone] at hfree

/-- A slot that a context takes is no longer free. -/
theorem Cluster.freeSlots_take {c d : Cluster} {slot : Fin 4} {r : List (Fin 4)} {u : Nat} (h : c.freeSlots = slot :: r)
    (hd : d.slots = c.slots.set slot.val (some u) slot.isLt) : d.freeSlots = r := by
  have hsplit : d.freeSlots = c.freeSlots.filter (fun k => k != slot) := by
    rw [Cluster.freeSlots, Cluster.freeSlots, List.filter_filter, hd]
    refine List.filter_congr fun k _ => ?_
    by_cases hk : k = slot
    · subst hk
      simp
    · simp [hk, Fin.val_ne_of_ne (Ne.symm hk)]
  have hsorted : (slot :: r).Pairwise (· < ·) := h ▸ pairwise_filter_finRange _
  rw [hsplit, h, List.filter_cons_of_neg (by simp), List.filter_eq_self]
  exact fun k hk => bne_iff_ne.mpr (List.rel_of_pairwise_cons hsorted hk).ne'

theorem Cluster.giveGroups_lpart (c : Cluster) (slot : Fin 4) (ks : List (Fin 8)) (k : Fin 8) :
    (c.giveGroups slot ks).lpart[k] = if k ∈ ks then ⟨true, slot, slot, 0, false⟩ else c.lpart[k] := by
  have hlisted : (∃ j ∈ ks, j.val = k.val) ↔ k ∈ ks := ⟨fun ⟨_, hj, e⟩ => Fin.ext e ▸ hj, fun hk => ⟨k, hk, rfl⟩⟩
  simp [Cluster.giveGroups, hlisted]

/-- A set of lane groups holds the listed ones. -/
theorem getLsbD_groupSet (ks : List (Fin 8)) (k : Fin 8) : (groupSet ks).getLsbD k.val = true ↔ k ∈ ks := by
  have hone : ∀ j : Fin 8, (1#8 <<< j.val).getLsbD k.val = decide (k = j) := by revert k; decide
  have go : ∀ m : BitVec 8, (ks.foldl (fun m k => m ||| (1#8 <<< k.val)) m).getLsbD k.val = true ↔ m.getLsbD k.val = true ∨ k ∈ ks := by
    induction ks with
    | nil => simp
    | cons j ks ih =>
      intro m
      rw [List.foldl_cons, ih, BitVec.getLsbD_or, hone, Bool.or_eq_true, decide_eq_true_iff, List.mem_cons, or_assoc]
  rw [groupSet, go, BitVec.ofNat_eq_ofNat, BitVec.getLsbD_zero, or_iff_right (by decide)]

/-! ### What placement leaves of other threads -/

/-- The context in focus, the other contexts, and every slot and lane group stay. -/
def State.ThreadsKept (s t : State) : Prop :=
  t.me = s.me ∧ (∀ c ∈ s.others, c ∈ t.others) ∧
    ∀ d : Fin 64, t.clusters[d].slots = s.clusters[d].slots ∧ t.clusters[d].lpart = s.clusters[d].lpart

theorem State.ThreadsKept.same {s t : State} (hme : t.me = s.me) (hothers : t.others = s.others) (hclusters : t.clusters = s.clusters) :
    s.ThreadsKept t := by
  unfold State.ThreadsKept
  rw [hme, hothers, hclusters]
  exact ⟨rfl, fun _ h => h, fun _ => ⟨rfl, rfl⟩⟩

theorem State.ThreadsKept.trans {s t u : State} (h : s.ThreadsKept t) (h' : t.ThreadsKept u) : s.ThreadsKept u := by
  obtain ⟨hme, hothers, hclusters⟩ := h
  obtain ⟨hme', hothers', hclusters'⟩ := h'
  exact ⟨hme'.trans hme, fun c hc => hothers' c (hothers c hc),
    fun d => ⟨(hclusters' d).1.trans (hclusters d).1, (hclusters' d).2.trans (hclusters d).2⟩⟩

theorem State.ThreadsKept.foldl {α : Type} {f : State → α → State} (hf : ∀ (s : State) (a : α), s.ThreadsKept (f s a))
    (l : List α) (s : State) : s.ThreadsKept (l.foldl f s) := by
  induction l generalizing s with
  | nil => exact .same rfl rfl rfl
  | cons a l ih => exact (hf s a).trans (ih _)

theorem State.modCluster_threadsKept (s : State) (cl : Fin 64) {f : Cluster → Cluster}
    (hf : ∀ c, (f c).slots = c.slots ∧ (f c).lpart = c.lpart) : s.ThreadsKept (s.modCluster cl f) := by
  refine ⟨rfl, fun _ h => h, fun d => ?_⟩
  by_cases hd : d = cl
  · subst hd
    rw [State.modCluster_same]
    exact hf _
  · rw [State.modCluster_other _ _ _ _ hd]
    exact ⟨rfl, rfl⟩

theorem State.modLaunch_threadsKept (s : State) (n : Nat) (f : Launch → Launch) : s.ThreadsKept (s.modLaunch n f) := .same rfl rfl rfl

theorem State.grantSegs_threadsKept (s : State) (l : Launch) (cl : Fin 64) : s.ThreadsKept (s.grantSegs l cl) := by
  unfold State.grantSegs
  extract_lets c ks
  split
  · exact .same rfl rfl rfl
  · exact .trans (.same rfl rfl rfl) (State.modCluster_threadsKept (s.zeroSegs cl ks) cl fun _ => ⟨rfl, rfl⟩)

theorem State.addContext_threadsKept (s : State) (c : Context) : s.ThreadsKept { s with others := s.others ++ [c], nextId := s.nextId + 1 } :=
  ⟨rfl, fun _ h => List.mem_append_left _ h, fun _ => ⟨rfl, rfl⟩⟩

theorem State.startBureau_threadsKept (s : State) (l : Launch) (cl : Fin 64) : s.ThreadsKept (s.startBureau l cl) := by
  unfold State.startBureau
  split
  · exact .same rfl rfl rfl
  · exact (State.addContext_threadsKept s _).trans (State.modCluster_threadsKept _ cl (f := fun k => k.startBureau s.nextId) fun _ => ⟨rfl, rfl⟩)

theorem State.claimLoops_threadsKept (s : State) (l : Launch) (d : Fin 8) : s.ThreadsKept (s.claimLoops l d) := by
  unfold State.claimLoops
  extract_lets ks
  split <;> exact .same rfl rfl rfl

/-! ### One thread is placed (02 R12 to R14) -/

/-- The lane groups that a thread of a launch gets on a cluster. -/
def State.groupsFor (s : State) (l : Launch) (cl : Fin 64) : List (Fin 8) := (s.clusters[cl]).unowned.take l.pk.g0

/-- A thread of a launch as it starts. -/
def State.threadOf (s : State) (l : Launch) (ordinal : Nat) (cl : Fin 64) (slot : Fin 4) : Context :=
  { Context.start s.nextId .thread cl slot with
    launch := l.id, fn := l.fn, sp := l.sp, ordinal := ordinal, pc := l.pk.entry, x := launchRegs l ordinal
    sys := ⟨0, false, (s.queue l.queue).weight, 0⟩
    groups := groupSet (s.groupsFor l cl)
    members := [⟨l.gid, 0, none⟩] }

theorem State.mem_threadOf_groups {s : State} {l : Launch} {ordinal : Nat} {cl : Fin 64} {slot : Fin 4} {k : Fin 8} :
    (s.threadOf l ordinal cl slot).groups.getLsbD k.val = true ↔ k ∈ s.groupsFor l cl := getLsbD_groupSet (s.groupsFor l cl) k

/-- The groups that a thread gets are unowned. -/
theorem State.unowned_of_mem_groupsFor {s : State} {l : Launch} {cl : Fin 64} {k : Fin 8} (hk : k ∈ s.groupsFor l cl) :
    ((s.clusters[cl]).lpart[k]).owned = false :=
  (Bool.not_eq_true' _).mp ((mem_filter_finRange _).mp (List.mem_of_mem_take hk))

/-- They are the lowest unowned ones. -/
theorem State.groupsFor_lowest {s : State} {l : Launch} {cl : Fin 64} {j k : Fin 8} (hk : k ∈ s.groupsFor l cl) (hjk : j < k) :
    j ∈ s.groupsFor l cl ∨ ((s.clusters[cl]).lpart[j]).owned = true := by
  by_cases hj : ((s.clusters[cl]).lpart[j]).owned = true
  · exact .inr hj
  · exact .inl (mem_take_of_lt _ hk (by rw [Bool.eq_false_iff.mpr hj]; rfl) hjk)

/-- A cluster with a context in a slot, which owns lane groups. -/
def Cluster.seat (c : Cluster) (slot : Fin 4) (u : Nat) (ks : List (Fin 8)) : Cluster :=
  { c.giveGroups slot ks with slots := c.slots.set slot.val (some u) slot.isLt }

/-- A thread of a launch has taken its slot and lane groups. -/
def State.seatThread (s : State) (l : Launch) (ordinal : Nat) (cl : Fin 64) (slot : Fin 4) : State :=
  ({ s with others := s.others ++ [s.threadOf l ordinal cl slot], nextId := s.nextId + 1 } : State).modCluster cl
    (fun k => k.seat slot s.nextId (s.groupsFor l cl))

section Place
variable {s : State} {l : Launch} {cl : Fin 64} {slot : Fin 4} {r : List (Fin 4)} (h : (s.clusters[cl]).freeSlots = slot :: r) (ordinal : Nat)
include h

theorem State.placeThread_eq : s.placeThread l ordinal cl = (((s.seatThread l ordinal cl slot).grantSegs l cl).startBureau l cl).modLaunch
    l.id (fun k => { k with next := ordinal + 1, lastCl := some cl.val }) := by
  unfold State.placeThread
  dsimp only
  rw [h]
  rfl

/-- Once a thread has its slot and groups, placement leaves threads alone. -/
theorem State.seatThread_threadsKept : (s.seatThread l ordinal cl slot).ThreadsKept (s.placeThread l ordinal cl) := by
  rw [State.placeThread_eq h]
  exact (State.grantSegs_threadsKept ..).trans ((State.startBureau_threadsKept ..).trans (State.modLaunch_threadsKept ..))

theorem State.placeThread_me : (s.placeThread l ordinal cl).me = s.me := (State.seatThread_threadsKept h ordinal).1

theorem State.mem_placeThread_others {c : Context} (hc : c = s.threadOf l ordinal cl slot ∨ c ∈ s.others) :
    c ∈ (s.placeThread l ordinal cl).others := by
  refine (State.seatThread_threadsKept h ordinal).2.1 c ?_
  rcases hc with rfl | hc
  · exact List.mem_append_right _ (List.mem_singleton_self _)
  · exact List.mem_append_left _ hc

theorem State.placeThread_slots : ((s.placeThread l ordinal cl).clusters[cl]).slots =
    (s.clusters[cl]).slots.set slot.val (some s.nextId) slot.isLt := by
  rw [((State.seatThread_threadsKept h ordinal).2.2 cl).1, State.seatThread, State.modCluster_same]
  rfl

theorem State.placeThread_slots_other {d : Fin 64} (hd : d ≠ cl) : ((s.placeThread l ordinal cl).clusters[d]).slots = (s.clusters[d]).slots := by
  rw [((State.seatThread_threadsKept h ordinal).2.2 d).1, State.seatThread, State.modCluster_other _ _ _ _ hd]

theorem State.placeThread_lpart {k : Fin 8} (hk : k ∈ s.groupsFor l cl) :
    ((s.placeThread l ordinal cl).clusters[cl]).lpart[k] = ⟨true, slot, slot, 0, false⟩ := by
  rw [((State.seatThread_threadsKept h ordinal).2.2 cl).2, State.seatThread, State.modCluster_same]
  exact ((s.clusters[cl]).giveGroups_lpart slot (s.groupsFor l cl) k).trans (if_pos hk)

end Place

/-- The registers that a thread starts with (02 R14). -/
theorem getElem_launchRegs (l : Launch) (ordinal : Nat) (j : XReg) : (launchRegs l ordinal)[j] =
    if j = 10 then l.pk.n else if j = 11 then BitVec.ofNat 64 ordinal else if j = 12 then BitVec.ofNat 64 l.pk.t
    else if j = 13 then BitVec.ofNat 64 l.gid else if 14 ≤ j.val ∧ j.val ≤ 21 then l.pk.args.toList.getD (j.val - 14) 0 else 0 := by
  simp only [launchRegs, Fin.getElem_fin, Vector.getElem_ofFn, Fin.ext_iff]
  rfl

/-- A cluster that takes threads has a slot for each. -/
theorem State.le_freeSlots_of_fits {s : State} {l : Launch} {cl : Fin 64} {k : Nat} (h : s.fits l cl k = true) :
    k ≤ (s.clusters[cl]).freeSlots.length := by
  simp only [State.fits, Bool.and_eq_true, decide_eq_true_iff] at h
  obtain ⟨⟨⟨⟨⟨-, hslots⟩, -⟩, -⟩, -⟩, -⟩ := h
  exact hslots

/-! ### THREAD_PLACEMENT (02 R12) -/

section Thread
variable {s : State} {n : Nat} {l : Launch} (hl : s.launch n = some l) (hco : l.pk.cosched = false)
include hl hco

theorem exec_threadPlacement_places (hmay : s.mayPlace l = true) {cl : Fin 64}
    (hcl : (s.tryOrder l).find? (fun c => s.fits l c 1) = some cl) : exec (.threadPlacement n) s = .next (s.placeThread l l.next cl) := by
  show execThreadPlacement n s = _
  rw [execThreadPlacement, hl]
  dsimp only
  rw [if_neg (by simp [hco, hmay]), hcl]

omit hco in
theorem exec_threadPlacement_idle (h : ∀ cl ∈ s.tryOrder l, s.fits l cl 1 = false) : exec (.threadPlacement n) s = .next s := by
  have hnone : (s.tryOrder l).find? (fun c => s.fits l c 1) = none := List.find?_eq_none.mpr fun cl hcl => by simp [h cl hcl]
  show execThreadPlacement n s = _
  rw [execThreadPlacement, hl]
  dsimp only
  rw [hnone, ite_self]

end Thread

/-! ### COSCHEDULED_PLACEMENT (02 R13) -/

/-- A context is the thread of a launch with an ordinal, on a cluster, at ENTRY. -/
def Context.StartsAs (c : Context) (l : Launch) (ordinal : Nat) (cl : Fin 64) : Prop :=
  c.launch = l.id ∧ c.kind = .thread ∧ c.ordinal = ordinal ∧ c.cl = cl ∧ c.pc = l.pk.entry

/-- Threads are placed one after another where each cluster has a free slot for each of its threads. -/
theorem State.placeThreads (l : Launch) (ps : List (Fin 64 × Nat)) (s : State)
    (h : ∀ d : Fin 64, (ps.map Prod.fst).count d ≤ (s.clusters[d]).freeSlots.length) :
    (ps.foldl (fun s p => s.placeThread l p.2 p.1) s).me = s.me ∧
      (∀ c ∈ s.others, c ∈ (ps.foldl (fun s p => s.placeThread l p.2 p.1) s).others) ∧
      ∀ p ∈ ps, ∃ c ∈ (ps.foldl (fun s p => s.placeThread l p.2 p.1) s).others, c.StartsAs l p.2 p.1 := by
  induction ps generalizing s with
  | nil => exact ⟨rfl, fun _ hc => hc, nofun⟩
  | cons p ps ih =>
    obtain ⟨slot, r, hfree⟩ : ∃ slot r, (s.clusters[p.1]).freeSlots = slot :: r := by
      refine List.exists_cons_of_length_pos (lt_of_lt_of_le ?_ (h p.1))
      rw [List.map_cons, List.count_cons_self]
      exact Nat.succ_pos _
    have hleft : ∀ d : Fin 64, (ps.map Prod.fst).count d ≤ ((s.placeThread l p.2 p.1).clusters[d]).freeSlots.length := by
      intro d
      have hd := h d
      rw [List.map_cons] at hd
      by_cases e : d = p.1
      · subst e
        rw [List.count_cons_self, hfree, List.length_cons] at hd
        rw [Cluster.freeSlots_take hfree (State.placeThread_slots hfree p.2)]
        exact Nat.le_of_succ_le_succ hd
      · rw [List.count_cons_of_ne (Ne.symm e)] at hd
        rwa [Cluster.freeSlots_congr (State.placeThread_slots_other hfree p.2 e)]
    obtain ⟨hme, hothers, hplaced⟩ := ih (s.placeThread l p.2 p.1) hleft
    refine ⟨hme.trans (State.placeThread_me hfree p.2), fun c hc => hothers c (State.mem_placeThread_others hfree p.2 (.inr hc)),
      List.forall_mem_cons.mpr ⟨⟨_, hothers _ (State.mem_placeThread_others hfree p.2 (.inl rfl)), rfl, rfl, rfl, rfl, rfl⟩, hplaced⟩⟩

/-- A launch that fits as a whole has a free slot for each of its threads. -/
theorem State.count_assigned_le {s : State} {l : Launch} (h : s.fitsAll l = true) (d : Fin 64) :
    (s.assigned l).count d ≤ (s.clusters[d]).freeSlots.length := by
  rw [State.fitsAll, Bool.and_eq_true, List.all_eq_true] at h
  have hd := h.1 d (List.mem_finRange d)
  rw [Bool.or_eq_true, beq_iff_eq] at hd
  rcases hd with h0 | hfits
  · rw [h0]
    exact Nat.zero_le _
  · exact State.le_freeSlots_of_fits hfits

section Cosched
variable {s : State} {n : Nat} {l : Launch} (hl : s.launch n = some l) (hco : l.pk.cosched = true)
include hl

theorem exec_coscheduledPlacement_idle (h : s.fitsAll l = false) : exec (.coscheduledPlacement n) s = .next s := by
  show execCoscheduledPlacement n s = _
  rw [execCoscheduledPlacement, hl]
  exact if_pos (by simp [h])

include hco in
theorem exec_coscheduledPlacement_places (hmay : s.mayPlace l = true) (hfits : s.fitsAll l = true) :
    ∃ t, exec (.coscheduledPlacement n) s = .next t ∧ t.me = s.me ∧
      ∀ (i : Nat) (cl : Fin 64), (s.assigned l)[i]? = some cl → ∃ c ∈ t.others, c.StartsAs l i cl := by
  have hclaimed := State.ThreadsKept.foldl (fun s d => State.claimLoops_threadsKept s l d) (diesOf (s.assigned l)) s
  obtain ⟨hme, -, hplaced⟩ := State.placeThreads l (s.assigned l).zipIdx ((diesOf (s.assigned l)).foldl (fun s d => s.claimLoops l d) s)
    (fun d => by
      rw [Cluster.freeSlots_congr (hclaimed.2.2 d).1, List.zipIdx_map_fst]
      exact State.count_assigned_le hfits d)
  refine ⟨_, ?_, hme.trans hclaimed.1, fun i cl hcl => hplaced (cl, i) (List.mem_zipIdx_iff_getElem?.mpr hcl)⟩
  show execCoscheduledPlacement n s = _
  rw [execCoscheduledPlacement, hl]
  exact if_neg (by simp [hco, hmay, hfits])

end Cosched

end Sys2Proof.Machine
end

section
/-! PROOFS. Completion of launches and the release of their segments (02 R25; 07 R109; 18 R304), and the statement about launches. -/

namespace Sys2Proof.Machine

/-! ### LAUNCH_COMPLETION (02 R25; 07 R109) -/

/-- A context of the launch made the store. -/
def State.storeOf (s : State) (n : Nat) (r : StoreRec) : Bool := r.ctx.any (s.ofLaunch n)

theorem State.storeOf_sameStore (s : State) (n : Nat) (r q : StoreRec) (h : r.SameStore q) : s.storeOf n q = s.storeOf n r := by
  rw [State.storeOf, State.storeOf, h.2.1]

/-- A launch that is released is no longer there. -/
theorem State.releaseLaunch_launch (s : State) (n : Nat) : (s.releaseLaunch n).launch n = none := by
  refine List.find?_eq_none.mpr fun l hl => ?_
  have hl : l ∈ s.launches.filter (fun l => l.id != n) := hl
  simpa using (List.mem_filter.mp hl).2

theorem State.releaseLaunch_stores (s : State) (n : Nat) : (s.releaseLaunch n).stores = s.stores := rfl
theorem State.releaseLaunch_queue (s : State) (n q : Nat) : (s.releaseLaunch n).queue q = s.queue q := rfl

/-- The entry of a launch that is marked is done. -/
theorem State.markLaunch_done (s : State) (l : Launch) : ∀ e ∈ ((s.markLaunch l).queue l.queue).ents, e.kind = .launch l.id → e.done = true := by
  rw [State.markLaunch, State.queue_modQueue_same]
  refine List.forall_mem_map.mpr fun e _ => ?_
  split
  · exact fun _ => rfl
  · exact fun hkind => absurd hkind ‹_›

section Completion
variable {s : State} {n : Nat} {l : Launch} (hl : s.launch n = some l)
include hl

theorem exec_launchCompletion_idle (h : s.launchOver l = false ∨ s.workInFlight n = true) : exec (.launchCompletion n) s = .next s := by
  show execLaunchCompletion n s = _
  rw [execLaunchCompletion, hl]
  exact if_neg (by rcases h with h | h <;> simp [h])

theorem exec_launchCompletion_over (hover : s.launchOver l = true) (hwork : s.workInFlight n = false) (hclear : s.Clear (s.storeOf n)) :
    exec (.launchCompletion n) s = .next (((s.drainAll (s.storeOf n)).markLaunch l).releaseLaunch n) := by
  show execLaunchCompletion n s = _
  rw [execLaunchCompletion, hl]
  dsimp only
  rw [if_pos (by simp [hover, hwork])]
  exact congrArg (fun t : State => Host.Outcome.next (((t.drainAll (s.storeOf n)).markLaunch l).releaseLaunch n))
    (State.loseUnreachable_clear hclear)

end Completion

/-! ### SEGMENT_RELEASE (18 R304) -/

/-- The segments of a launch are free. -/
def Cluster.releaseSegs (n : Nat) (c : Cluster) : Cluster := { c with segs := c.segs.map (fun g => if g = some n then none else g) }

theorem Cluster.releaseSegs_segs (n : Nat) (c : Cluster) (k : Fin 256) :
    (c.releaseSegs n).segs[k] = if c.segs[k] = some n then none else c.segs[k] := by
  simp [Cluster.releaseSegs]

theorem exec_segmentRelease (n : Nat) (cl : Fin 64) (s : State) :
    exec (.segmentRelease n cl) s = .next (if s.mayRelease n cl then s.modCluster cl (Cluster.releaseSegs n) else s) := rfl

/-! ### The statement -/

/-- Settles O55: a chosen queue has a head that could start; placement gives the first free slot and the first unowned groups of an
ascending list, and leaves other threads alone, so that each thread of a co-scheduled launch finds its slot; and completion drains
stores of which none is lost. Choices of the model stand in it: a launch starts and QHEAD moves at LAUNCH_ACCEPT (log entry 17), when a
launch is over (log entries 12 and 58), and when its segments may be released (log entry 19). -/
theorem launchSteps : Obligations.LaunchSteps := by
  unfold Obligations.LaunchSteps
  intro s n l hl
  have hid : l.id = n := State.launch_id hl
  refine ⟨fun hw hfree => ?_, exec_launchAdmission_idle hl, fun h hhead hn hc => ?_, exec_launchAccept_passed hl, fun h hhead hn ht hfull hc => ?_,
    fun cl hco hmay hcl => ?_, fun _ => exec_threadPlacement_idle hl, fun hco hmay hfits => ?_, fun _ => exec_coscheduledPlacement_idle hl,
    exec_launchCompletion_idle hl, fun hover hwork hclear => ?_, fun cl => ⟨fun hno => ?_, fun hmay => ?_⟩⟩
  · exact ⟨_, exec_launchAdmission_admits hl hw (State.admits_of_unlimited hfree), State.launch_modLaunch hl (fun _ => rfl), rfl⟩
  · subst hid
    exact ⟨exec_launchAccept_empty h hl hhead hn hc, fun g => exec_launchAccept_group h hl hhead hn hc⟩
  · subst hn
    exact State.freeGroup_of_startable (State.startable_of_chosenQueue hc) hhead hl ht hfull
  · have hslot := State.le_freeSlots_of_fits (List.find?_some (p := fun c => s.fits l c 1) hcl)
    obtain ⟨slot, r, hfree⟩ := List.exists_cons_of_length_pos hslot
    obtain ⟨hnone, hlowest⟩ := Cluster.lowest_freeSlot hfree
    refine ⟨_, s.threadOf l l.next cl slot, exec_threadPlacement_places hl hco hmay hcl, State.mem_placeThread_others hfree _ (.inl rfl),
      rfl, rfl, rfl, hid, rfl, rfl, rfl, rfl, State.placeThread_me hfree _, getElem_launchRegs l l.next, hnone, ?_, hlowest,
      fun k hk => ?_, fun j k hk hjk => ?_⟩
    · rw [State.placeThread_slots hfree]
      exact Vector.getElem_set_self ..
    · have hmem := State.mem_threadOf_groups.mp hk
      exact ⟨State.unowned_of_mem_groupsFor hmem, State.placeThread_lpart hfree _ hmem⟩
    · exact (State.groupsFor_lowest (State.mem_threadOf_groups.mp hk) hjk).imp_left State.mem_threadOf_groups.mpr
  · subst hid
    exact exec_coscheduledPlacement_places hl hco hmay hfits
  · refine ⟨_, exec_launchCompletion_over hl hover hwork hclear, State.releaseLaunch_launch _ n, fun r hr u hu hofL => ?_, ?_⟩
    · rw [State.releaseLaunch_stores] at hr
      exact State.drainAll_everywhere (s.storeOf_sameStore n) (fun r hr hp => (hclear r hr hp).1) r hr (by simp [State.storeOf, hu, hofL])
    · rw [State.releaseLaunch_queue, ← hid]
      exact State.markLaunch_done _ l
  · rw [exec_segmentRelease, hno]
    rfl
  · refine ⟨_, (exec_segmentRelease n cl s).trans (by rw [if_pos hmay]), rfl, fun k => ?_⟩
    rw [State.modCluster_same]
    exact Cluster.releaseSegs_segs n _ k

end Sys2Proof.Machine
end

section
/-! PROOFS. The canonical form and the numbering (10 R139; 11 R161) over what the operations on a context, its traps and its
accesses do. -/

namespace Sys2Proof.Machine

/-! ### The form of the lemmas -/

/-- A change that leaves memory and the pending stores as they are, whatever else it changes. -/
theorem State.Kept.calm {s t : State} (h : s.Kept) (he : (t.mem, t.stores, t.nextId) = (s.mem, s.stores, s.nextId)) : t.Kept := by
  obtain ⟨hm, hs, hn⟩ : t.mem = s.mem ∧ t.stores = s.stores ∧ t.nextId = s.nextId := by simpa only [Prod.mk.injEq] using he
  exact h.same hm hs hn.ge

/-- The state an instruction answers, if it answers one, is canonical and numbered. -/
def Keeps : Out → Prop
  | .next t => t.Kept
  | .fault _ => True
  | .refused _ => True

theorem Keeps.next {s t : State} (h : s.Kept) (he : (t.mem, t.stores, t.nextId) = (s.mem, s.stores, s.nextId)) : Keeps (.next t) :=
  State.Kept.calm h he

theorem State.Kept.ite {p : Prop} [Decidable p] {t u : State} (ht : t.Kept) (hu : u.Kept) : (if p then t else u).Kept := by
  split
  · exact ht
  · exact hu

theorem Keeps.ite {p : Prop} [Decidable p] {o o' : Out} (h : Keeps o) (h' : Keeps o') : Keeps (if p then o else o') := by
  split
  · exact h
  · exact h'

section
variable {s : State} (h : s.Kept)
include h

/-! ### Changes of one part -/

theorem State.Kept.modContext (uid : Nat) (f : Context → Context) : (s.modContext uid f).Kept := h.calm rfl
theorem State.Kept.modCluster (cl : Fin 64) (f : Cluster → Cluster) : (s.modCluster cl f).Kept := h.calm rfl
theorem State.Kept.modDie (d : Fin 8) (f : Die → Die) : (s.modDie d f).Kept := h.calm rfl
theorem State.Kept.modQueue (q : Nat) (f : Queue → Queue) : (s.modQueue q f).Kept := h.calm rfl
theorem State.Kept.modLaunch (n : Nat) (f : Launch → Launch) : (s.modLaunch n f).Kept := h.calm rfl
theorem State.Kept.modFn (fn : Fin 256) (f : FnRec → FnRec) : (s.modFn fn f).Kept := h.calm rfl
theorem State.Kept.tick : s.tick.Kept := h.calm rfl

/-! ### Focus, groups, slots and the end of a launch -/

theorem State.Kept.focus (uid : Nat) : (s.focus uid).Kept := by
  unfold State.focus
  split
  · exact h
  · exact h.calm rfl

theorem State.Kept.finish : Keeps s.finish := Keeps.next h rfl

theorem State.Kept.leaveGroup (m : Membership) : (s.leaveGroup m).Kept := by
  unfold State.leaveGroup
  refine .ite (.ite ?_ ?_) h <;> exact h.calm rfl

theorem State.Kept.freeSlot (c : Context) (swap : Bool) : (s.freeSlot c swap).Kept := by
  unfold State.freeSlot
  split
  · exact h.calm rfl
  · exact h

omit h in
theorem State.Kept.leaveGroups (l : List Membership) {s : State} (h : s.Kept) : (l.foldl State.leaveGroup s).Kept :=
  State.Kept.foldl (fun _ m hs => hs.leaveGroup m) l h

theorem State.Kept.retire (c : Context) : (s.retire c).Kept := by
  have h1 := h.leaveGroups c.members
  unfold State.retire
  exact .ite (h1.freeSlot c false) h1

theorem State.Kept.dropUnplaced (l : Launch) : (s.dropUnplaced l).Kept := by
  unfold State.dropUnplaced
  refine .ite (.ite ?_ ?_) h <;> exact h.calm rfl

theorem State.Kept.endLaunch (n : Nat) (reason : BitVec 4) : (s.endLaunch n reason).Kept := by
  unfold State.endLaunch
  split
  · exact h.modMe _
  · next l _ =>
    refine .ite h ?_
    have h1 := State.Kept.foldl (fun _ c hs => hs.retire c) (s.contexts.filter (fun c => c.launch == n && c.status != .exited)) h
    have h2 := State.Kept.mapContexts (h1.calm (t := State.emptyMq _ n) rfl) (fun c => if c.launch = n then c.endNow else c)
    exact (State.Kept.ite (p := l.stage = .accepted) (h2.dropUnplaced l) h2).calm rfl

/-! ### Traps and faults -/

theorem State.Kept.deliverAt (k : Cause) (epc tval : Word) : (s.deliverAt k epc tval).Kept :=
  .ite (h.endLaunch _ _) (h.modMe _)

theorem keeps_trap (k : Cause) (tval : Word) : Keeps (trap k tval s) := h.deliverAt _ _ _
theorem keeps_trapIll : Keeps (trapIll s) := keeps_trap h _ _
theorem keeps_trapVtype : Keeps (trapVtype s) := keeps_trap h _ _

theorem State.Kept.logPoison (va : Word) : (s.logPoison va).Kept := by
  unfold State.logPoison
  split <;> exact h.calm rfl

theorem State.Kept.logDatum : s.logDatum.Kept := h.calm rfl

theorem State.Kept.swapOut (c : Context) (st : CtxStatus) : (s.swapOut c st).Kept :=
  (((h.loseUnreachable _).drainAll _).freeSlot _ _).calm rfl

theorem State.Kept.pageFault (va : Word) (acc : Access) (tval : Word) : (s.pageFault va acc tval).Kept :=
  have h1 : State.Kept { s with
      pageReqs := s.pageReqs ++ [⟨s.nextId, s.me.fn, va, acc, tval, some s.me.uid, none⟩], nextId := s.nextId + 1 } :=
    h.same rfl rfl (Nat.le_succ _)
  .ite (h1.modMe _) (h1.swapOut _ _)

theorem keeps_faultOf (k : Cause) (va tval : Word) (acc : Access) : Keeps (faultOf k va tval acc s) := by
  unfold faultOf
  split
  · exact h.pageFault _ _ _
  · exact (h.logPoison _).deliverAt _ _ _
  · exact keeps_trap h _ _

theorem keeps_faultAt (k : Cause) (va : Word) (acc : Access) : Keeps (faultAt k va acc s) := keeps_faultOf h _ _ _ _

theorem keeps_poisonReg : Keeps (poisonReg s) := h.logDatum.deliverAt _ _ _

/-! ### The checks before an instruction's own conditions -/

theorem keeps_threadOnly {k : Out} (hk : Keeps k) : Keeps (threadOnly s k) := .ite (keeps_trapIll h) hk
theorem keeps_bureauOnly {k : Out} (hk : Keeps k) : Keeps (bureauOnly s k) := .ite (keeps_trapIll h) hk

theorem keeps_readsX (rs : List XReg) {k : Out} (hk : Keeps k) : Keeps (readsX rs s k) := by
  unfold readsX
  split
  · exact keeps_trap h _ _
  · exact .ite (keeps_poisonReg h) hk

theorem keeps_alu (rs : List XReg) (d : XReg) (v : Word) (lat st len : Nat) : Keeps (alu rs d v lat st len s) :=
  keeps_readsX h rs (h.modMe _)

/-! ### Fetching -/

theorem State.Kept.prefetch (va : Word) : (s.prefetch va).Kept := by
  unfold State.prefetch
  refine .ite h ?_
  split
  · exact h
  · refine .ite h ?_
    split
    · exact h
    · exact h.modMe _

/-! ### Fences and releases -/

theorem keeps_ackloss (all : Bool) {k : State → Out} (hk : ∀ t : State, t.Kept → Keeps (k t)) : Keeps (ackloss all s k) :=
  .ite (h.reportLost.deliverAt _ _ _) (hk s h)

theorem keeps_fenced (sc : Scope) {k : State → Out} (hk : ∀ t : State, t.Kept → Keeps (k t)) : Keeps (fenced sc s k) :=
  .ite h (keeps_ackloss (h.loseUnreachable _) _ fun _ ht => hk _ (ht.fenceAt sc))

theorem keeps_releasing (sc : Scope) (on : Path → Bool) {k : State → Out} (hk : ∀ t : State, t.Kept → Keeps (k t)) :
    Keeps (releasing sc on s k) :=
  .ite h (keeps_ackloss (h.loseUnreachable _) _ fun _ ht => hk _ (ht.release sc on))

/-! ### Loads, stores and atomics -/

theorem State.Kept.orderHome (p : Path) (cls : Cls) (ks : List (Nat × Nat)) : (s.orderHome p cls ks).Kept :=
  (h.loseUnreachable _).drainGlob _

theorem keeps_ordered (p : Path) (cls : Cls) (ks : List (Nat × Nat)) {k : State → Out} (hk : ∀ t : State, t.Kept → Keeps (k t)) :
    Keeps (ordered p cls ks s k) :=
  .ite ((h.loseUnreachable _).reportLost.deliverAt _ _ _) (hk _ ((h.loseUnreachable _).drainGlob _))

theorem keeps_loadFrom (p : Path) (cls : Cls) (ms : List (Mapped × Nat)) {k : List Byte → State → Out}
    (hk : ∀ (bs : List Byte) (t : State), t.Kept → Keeps (k bs t)) : Keeps (loadFrom p cls ms s k) :=
  keeps_ordered h _ _ _ fun _ ht => hk _ _ (((ht.orderLoad _ _ _).noteRead _ _).passed _ _ _ _)

theorem keeps_rangeOn (p : Path) (cls : Cls) (va : Word) (n : Nat) {k : List Byte → State → Out}
    (hk : ∀ (bs : List Byte) (t : State), t.Kept → Keeps (k bs t)) : Keeps (rangeOn p cls va n s k) := by
  unfold rangeOn
  split
  · exact keeps_faultAt h _ _ _
  · split
    · exact keeps_faultAt h _ _ _
    · exact keeps_loadFrom h _ _ _ hk

theorem keeps_loadOn (p : Path) (cls : Cls) (va : Word) (n : Nat) {k : List Byte → State → Out}
    (hk : ∀ (bs : List Byte) (t : State), t.Kept → Keeps (k bs t)) : Keeps (loadOn p cls va n s k) := by
  unfold loadOn
  split
  · exact keeps_trap h _ _
  · exact keeps_rangeOn h _ _ _ _ hk

theorem keeps_storeOn (p : Path) (cls : Cls) (mode : StoreMode) (va : Word) (bs : List Byte) {k : State → Out}
    (hk : ∀ t : State, t.Kept → Keeps (k t)) : Keeps (storeOn p cls mode va bs s k) := by
  unfold storeOn
  split
  · exact keeps_trap h _ _
  · split
    · exact keeps_faultAt h _ _ _
    · exact keeps_ordered h _ _ _ fun _ ht => hk _ ((State.Kept.storeParts _ _ _ _ _ _ _ _ _ _ _ ht _).passed _ _ _ _)

theorem State.Kept.atomicAt (p : Path) (cls : Cls) (far : Bool) (va : Word) (m : Mapped) (n : Nat) (f : Nat → Nat) :
    (s.atomicAt p cls far va m n f).2.Kept :=
  State.Kept.putAtomic _ _ _ _ _ _ _ _ _ _ (h.applyFor _ _ _)

theorem State.Kept.beforeAtomic (p : Path) (sc : Scope) (cls : Cls) (ks : List (Nat × Nat)) : (s.beforeAtomic p sc cls ks).Kept :=
  ((((h.release _ _).orderLoad _ _ _).noteRead _ _).passed _ _ _ _).acquire _

theorem keeps_atomicOn (sc : Scope) (cls : Cls) (far : Bool) (va : Word) (n : Nat) (f : Nat → Nat) {k : Nat → State → Out}
    (hk : ∀ (v : Nat) (t : State), t.Kept → Keeps (k v t)) : Keeps (atomicOn sc cls far va n f s k) := by
  unfold atomicOn
  split
  · exact keeps_faultAt h _ _ _
  · exact keeps_ordered h _ _ _ fun _ ht => hk _ _ ((ht.beforeAtomic _ _ _ _).atomicAt _ _ _ _ _ _ _)

/-! ### System registers -/

theorem keeps_writeMctl (k : Fin 4) (v : Word) {next : State → State} (hk : ∀ t : State, t.Kept → (next t).Kept) :
    Keeps (writeMctl k v s next) := by
  unfold writeMctl
  refine .ite ?_ (keeps_trap h _ _)
  exact hk _ (h.calm rfl)

theorem State.Kept.passTime : s.passTime.Kept := h.calm rfl

end

end Sys2Proof.Machine
end


section
/-! PROOFS. The canonical form and the numbering (10 R139; 11 R161) over scalar instructions, fences and the frames of vector
instructions. -/

namespace Sys2Proof.Machine

section
variable {s : State} (h : s.Kept)
include h

/-! ### Control flow, traps and system registers -/

theorem keeps_branch (rs : List XReg) (taken : Bool) (off : Word) (len : Nat) : Keeps (branch rs taken off len s) :=
  keeps_readsX h rs (h.modMe _)

theorem keeps_execJalr (d a : XReg) (imm : BitVec 11) : Keeps (execJalr d a imm s) :=
  keeps_readsX h _ (.ite (keeps_trap h _ _) (h.modMe _))

theorem keeps_execCalli (d a : XReg) (k : BitVec 11) : Keeps (execCalli d a k s) := by
  refine keeps_readsX h _ (.ite (keeps_trap h _ _) ?_)
  split
  · exact keeps_faultAt h _ _ _
  · exact .ite (h.modMe _) (keeps_trap h _ _)

theorem keeps_execUnimpl (w : BitVec 32) : Keeps (execUnimpl w s) := .ite trivial (keeps_trap h _ _)

theorem keeps_execSrd (d : XReg) (n : BitVec 11) : Keeps (execSrd d n s) := .ite (keeps_trapIll h) (.ite h (h.modMe _))

theorem keeps_execSwr (n : BitVec 11) (a : XReg) : Keeps (execSwr n a s) := by
  refine .ite (keeps_trapIll h) (keeps_readsX h _ (.ite (keeps_trap h _ _) (.ite h ?_)))
  split
  · exact keeps_writeMctl h _ _ fun _ ht => ht.modMe _
  · exact h.modMe _

theorem keeps_execErd (d : XReg) (sel : BitVec 11) : Keeps (execErd d sel s) := by
  have h1 : (if 2 ≤ sel.toNat ∧ sel.toNat ≤ 4 then s.passTime else s).Kept := .ite h.passTime h
  unfold execErd
  dsimp only
  split
  · exact h1.modMe _
  · exact keeps_trapIll h

theorem keeps_execTret : Keeps (execTret s) := .ite (h.modMe _) (keeps_trapIll h)

theorem keeps_execFencei : Keeps (execFencei s) := keeps_fenced h _ fun _ ht => ht.modMe _

/-! ### Leaving, groups, queue tails and lane requests -/

theorem keeps_reporting (pick : PendingFault → Bool) {k : State → Out} (hk : Keeps (k s)) : Keeps (reporting pick s k) := by
  unfold reporting
  split
  · exact hk
  · next f _ =>
    have h1 : State.Kept (({ s with copies := s.copies.filter (fun c : Copy => !(c.owner == some s.me.uid && c.tag.val == f.tag &&
        (match c.st with | .stopped _ _ => true | _ => false))) } : State).modMe (fun c => { c with tags := c.tags.release f })) :=
      (h.calm rfl)
    exact (State.Kept.ite (p := f.cause = .poison) (h1.logPoison f.va) h1).deliverAt _ _ _

theorem State.Kept.exitMe : s.exitMe.Kept := (h.retire s.me).calm rfl

theorem keeps_exiting {k : State → Out} (hk : ∀ t : State, t.Kept → Keeps (k t)) : Keeps (exiting s k) := by
  unfold exiting
  split
  · exact keeps_reporting h _ (keeps_ackloss (h.loseUnreachable _) _ hk)
  · exact keeps_ackloss (h.loseUnreachable _) _ hk

theorem keeps_execExit : Keeps (execExit s) := by
  refine keeps_exiting h fun t ht => ?_
  split
  · exact .ite ht (ht.fenceAt _).exitMe
  · exact .ite ht ((ht.fenceAt _).modMe _)

theorem State.Kept.joinGroup (g : Nat) : (s.joinGroup g).Kept := by
  unfold State.joinGroup
  exact .ite (h.calm rfl) (h.calm rfl)

theorem State.Kept.join (n : Nat) : (s.join n).2.Kept := by
  unfold State.join
  split_ifs
  · exact h
  · exact h
  · exact h
  · split
    · exact h
    · exact h.joinGroup _
  · exact h.joinGroup _

theorem keeps_execJoin (d a : XReg) : Keeps (execJoin d a s) := keeps_threadOnly h (keeps_readsX h _ ((h.join _).modMe _))

theorem State.Kept.leave (n : Nat) : (s.leave n).2.Kept := by
  unfold State.leave
  split
  · exact h
  · split
    · exact h
    · exact (h.leaveGroup _).modMe _

theorem keeps_execLeave (d a : XReg) : Keeps (execLeave d a s) := keeps_threadOnly h (keeps_readsX h _ ((h.leave _).modMe _))

theorem State.Kept.writeTail (q : Nat) (v : BitVec 32) : (s.writeTail q v).Kept := .ite (h.calm rfl) h

theorem keeps_execCtail (a b : XReg) : Keeps (execCtail a b s) :=
  keeps_readsX h _ (.ite (keeps_trap h _ _) (keeps_fenced h _ fun _ ht => (ht.writeTail _ _).modMe _))

theorem State.Kept.lreq (n : Nat) : (s.lreq n).2.Kept := by
  unfold State.lreq
  dsimp only
  split
  · exact h.modMe _
  · exact h.calm rfl

theorem keeps_execLreq (d a : XReg) : Keeps (execLreq d a s) := keeps_threadOnly h (keeps_readsX h _ ((h.lreq _).modMe _))

/-! ### Scalar arithmetic and scalar accesses -/

theorem keeps_fpOp (rs : List XReg) (d : XReg) (r : Nat × FlagSet) (lat st : Nat) : Keeps (fpOp rs d r lat st s) :=
  keeps_threadOnly h (keeps_readsX h _ (h.modMe _))

theorem keeps_execLd (w : LdWidth) (d a : XReg) (imm : BitVec 7) (cls : Cls) : Keeps (execLd w d a imm cls s) :=
  keeps_readsX h _ (keeps_loadOn h _ _ _ _ fun _ _ ht => ht.modMe _)

theorem keeps_scalarStore (mode : StoreMode) (w : StWidth) (b a : XReg) (imm : BitVec 7) (cls : Cls) :
    Keeps (scalarStore mode w b a imm cls s) :=
  keeps_readsX h _ (keeps_storeOn h _ _ _ _ _ fun _ ht => ht.finish)

theorem keeps_amo (rs : List XReg) (f : Word → Word) (d a : XReg) (cls : Cls) (sc : Scope) : Keeps (amo rs f d a cls sc s) :=
  keeps_readsX h _ (keeps_atomicOn h _ _ _ _ _ _ fun _ _ ht => ht.modMe _)

theorem keeps_amoq (steal : Bool) (d a : XReg) (cls : Cls) (sc : Scope) : Keeps (amoq steal d a cls sc s) :=
  keeps_readsX h _ (keeps_atomicOn h _ _ _ _ _ _ fun _ _ ht => ht.modMe _)

/-! ### Fences, the Hatch ring and handoff flags -/

theorem keeps_execFenceC (mask : BitVec 16) : Keeps (execFenceC mask s) := (((h.loseUnreachable _).perform _).modMe _).finish

theorem keeps_execFenceP (pf pt : BitVec 5) : Keeps (execFenceP pf pt s) :=
  .ite h.finish (.ite h (((h.loseUnreachable _).coverPaths _ _).acquire _).finish)

theorem keeps_execFenceS (sc : Scope) : Keeps (execFenceS sc s) := keeps_fenced h _ fun _ ht => ht.finish

theorem keeps_execFenceA (sc : Scope) (a : XReg) : Keeps (execFenceA sc a s) := by
  refine keeps_threadOnly h (keeps_readsX h _ ?_)
  split
  · exact keeps_trap h _ _
  · exact keeps_fenced h _ fun _ ht => .ite ht (ht.calm (t := State.arrive _ _) rfl).finish

theorem keeps_execBwait (sc : Scope) (a : XReg) : Keeps (execBwait sc a s) := by
  refine keeps_threadOnly h (keeps_readsX h _ ?_)
  split
  · exact keeps_trap h _ _
  · exact .ite h (h.acquireAll.modMe _).finish

theorem keeps_execHpost (l : Fin 16) (a : XReg) : Keeps (execHpost l a s) := by
  refine keeps_readsX h _ ?_
  split
  · exact keeps_trap h _ _
  · exact keeps_releasing h _ _ fun t ht => .ite ht (ht.calm (t := t.modDie _ _) rfl).finish

theorem keeps_execHwait (l : Fin 16) (a : XReg) : Keeps (execHwait l a s) := by
  refine keeps_readsX h _ ?_
  split
  · exact keeps_trap h _ _
  · exact .ite h.acquireAll.finish h

theorem State.Kept.setFlag (cl : Fin 64) (f : Fin 32) (v : HFlag) : (s.setFlag cl f v).Kept := h.calm rfl

theorem keeps_execHfset (f : Fin 32) (b : VReg) : Keeps (execHfset f b s) := by
  refine keeps_threadOnly h ?_
  split
  · exact keeps_trapVtype h
  · exact .ite (keeps_trapVtype h) (.ite (keeps_trap h _ _) (keeps_releasing h _ _ fun _ ht => (ht.setFlag _ _ _).finish))

theorem keeps_execHfsetBare (f : Fin 32) : Keeps (execHfsetBare f s) :=
  .ite (keeps_trap h _ _) (keeps_releasing h _ _ fun _ ht => (ht.setFlag _ _ _).finish)

theorem keeps_execHfsetClr (f : Fin 32) : Keeps (execHfsetClr f s) :=
  .ite (keeps_trap h _ _) (.ite h.finish (keeps_releasing h _ _ fun _ ht => (ht.setFlag _ _ _).finish))

theorem keeps_execHfwait (f : Fin 32) (full : Bool) : Keeps (execHfwait f full s) := .ite h.acquireAll.finish h

/-! ### The frame of a vector instruction -/

theorem keeps_stalls (v : VView) (xs : List XReg) (vs : List VSrc) (ms : List MReg) {k : Out} (hk : Keeps k) :
    Keeps (stalls v xs vs ms s k) := by
  unfold stalls
  split
  · exact keeps_trap h _ _
  · exact hk

theorem keeps_cleanV (v : VView) (xs : List XReg) (vs : List VSrc) (ms : List MReg) {k : Out} (hk : Keeps k) :
    Keeps (cleanV v xs vs ms s k) := .ite (keeps_poisonReg h) hk

theorem keeps_notHanded (d : VReg) (n : Nat) {k : Out} (hk : Keeps k) : Keeps (notHanded d n s k) := by
  unfold notHanded
  split
  · exact keeps_trap h _ _
  · exact hk

theorem keeps_handing (dst : Option (VReg × Nat)) {k : Out} (hk : Keeps k) : Keeps (handing dst s k) := by
  unfold handing
  split
  · exact keeps_notHanded h _ _ hk
  · exact hk

theorem keeps_vector {inBlock : Bool} {ok : VView → Bool} {xs : List XReg} {vs : VView → List VSrc} {ms : List MReg}
    {act : VView → VecRegs → Bool} {dst : VView → Option (VReg × Nat)} {k : VView → VecRegs → State → Out}
    (hk : ∀ v r, Keeps (k v r s)) : Keeps (vector inBlock ok xs vs ms act dst s k) := by
  refine keeps_threadOnly h (.ite (keeps_trapIll h) ?_)
  split
  · exact keeps_trapVtype h
  · next v _ =>
    refine .ite (keeps_trapVtype h) (.ite ?_ (hk _ _))
    exact keeps_stalls h _ _ _ _ (keeps_handing h _ (keeps_cleanV h _ _ _ _ (hk _ _)))

/-! ### Vector arithmetic, moves, reductions and masks: only the context changes -/

theorem keeps_eltwise (ok : VView → Bool) (o : VOpnd) (acc fl : Bool) (lat st len : Nat)
    (f : VView → Nat → Nat → Nat → Nat × FlagSet) (d a : VReg) (m : MReg) :
    Keeps (eltwise ok o acc fl lat st len f d a m s) := keeps_vector h fun _ _ => h.modMe _

theorem keeps_eltcmp (ok : VView → Bool) (o : VOpnd) (fl : Bool) (lat st : Nat) (f : VView → Nat → Nat → Bool × FlagSet)
    (d : MReg) (a : VReg) (m : MReg) : Keeps (eltcmp ok o fl lat st f d a m s) := keeps_vector h fun _ _ => h.modMe _

theorem keeps_vcmp (o : VOpnd) (cc : VCmpOp) (d : MReg) (a : VReg) (m : MReg) (st : Stall) : Keeps (vcmp o cc d a m st s) :=
  keeps_eltcmp h ..

theorem keeps_vfcvt (back cs : Bool) (code : BitVec 5) (d a : VReg) (m : MReg) (st : Stall) :
    Keeps (vfcvt back cs code d a m st s) := by
  unfold vfcvt
  split
  · exact keeps_trapIll h
  · exact keeps_vector h fun _ _ => h.modMe _

theorem keeps_moving (whole : Option VReg) (ok : VView → Bool) (inBlock : Bool) (xs : List XReg) (vs : VView → List VSrc)
    (ms : List MReg) (role : MReg) (from0 : Bool) (lat st len : Nat)
    (src : VView → VecRegs → State → Nat → Option (Option (VReg × Nat))) (d : VReg) :
    Keeps (moving whole ok inBlock xs vs ms role from0 lat st len src d s) := keeps_vector h fun _ _ => h.modMe _

theorem keeps_slide (up : Bool) (xs : List XReg) (off : State → Nat) (d a : VReg) (m : MReg) : Keeps (slide up xs off d a m s) :=
  keeps_moving h ..

theorem keeps_broadcast (xs : List XReg) (val : State → Word) (d : VReg) (m : MReg) (st : Nat) : Keeps (broadcast xs val d m st s) :=
  keeps_vector h fun _ _ => h.modMe _

theorem keeps_vmerge (o : VOpnd) (d a : VReg) (m : MReg) (st : Nat) : Keeps (vmerge o d a m st s) :=
  keeps_vector h fun _ _ => h.modMe _

theorem keeps_execViota (d : VReg) (ms m : MReg) : Keeps (execViota d ms m s) := keeps_vector h fun _ _ => h.modMe _

theorem keeps_execVextx (d : XReg) (a : VReg) (b : XReg) : Keeps (execVextx d a b s) := by
  unfold execVextx
  exact keeps_vector h fun _ _ => h.modMe _

theorem keeps_execVinsx (d : VReg) (a b : XReg) : Keeps (execVinsx d a b s) := by
  unfold execVinsx
  exact keeps_vector h fun _ _ => h.modMe _

theorem keeps_vcompress (mk : Option MReg) (setVl : Bool) (d a : VReg) (m : MReg) : Keeps (vcompress mk setVl d a m s) :=
  keeps_vector h fun _ _ => h.modMe _

theorem keeps_execVexpand (d a : VReg) (m : MReg) : Keeps (execVexpand d a m s) := keeps_vector h fun _ _ => h.modMe _

theorem keeps_reduction (ok : VView → Bool) (fl : Bool) (f : VView → Nat → List (Nat × Nat) → Nat × List (Nat × FlagSet))
    (d a b : VReg) (m : MReg) : Keeps (reduction ok fl f d a b m s) := keeps_vector h fun _ _ => h.modMe _

theorem keeps_maskOp (f : Bool → Bool → Bool) (d a b : MReg) (st : Nat) : Keeps (maskOp f d a b st s) :=
  keeps_vector h fun _ _ => h.modMe _

theorem keeps_maskCount (f : List Nat → Word) (d : XReg) (a m : MReg) (st : Nat) : Keeps (maskCount f d a m st s) :=
  keeps_vector h fun _ _ => h.modMe _

theorem keeps_execVnfblk (d : MReg) (a : VReg) (m : MReg) : Keeps (execVnfblk d a m s) := keeps_vector h fun _ _ => h.modMe _

theorem keeps_overActive (ok : VView → Bool) (xs : List XReg) (role : MReg)
    (f : VView → State → List (Nat × Nat) → List (Nat × Nat)) (d a : VReg) (m : MReg) :
    Keeps (overActive ok xs role f d a m s) :=
  keeps_vector h fun _ _ => h.modMe _

theorem keeps_vscan (ok : VView → Bool) (fl : Bool) (op : VView → Nat → Nat → Nat × FlagSet) (d a : VReg) (ms m : MReg) :
    Keeps (vscan ok fl op d a ms m s) := keeps_vector h fun _ _ => h.modMe _

theorem keeps_byIndex (f : VView → State → Nat → Nat → Nat) (after : Nat → Context → Context) (lat st : Nat)
    (d : VReg) (m : MReg) : Keeps (byIndex f after lat st d m s) := keeps_vector h fun _ _ => h.modMe _

theorem State.Kept.laneChange : s.laneChange.Kept := .ite h (h.calm rfl)

theorem keeps_vsetvl (xs : List XReg) (d a : XReg) (req : State → Word) : Keeps (vsetvl xs d a req s) :=
  keeps_threadOnly h (.ite (keeps_trapIll h) (keeps_readsX h _ (h.laneChange.modMe _)))

theorem keeps_notInBlock {k : Out} (hk : Keeps k) : Keeps (notInBlock s k) := keeps_threadOnly h (.ite (keeps_trapIll h) hk)

theorem keeps_execVfetch (off : BitVec 19) (m : MReg) : Keeps (execVfetch off m s) := keeps_vector h fun _ _ => h.modMe _

theorem keeps_execVpj (off : BitVec 19) (m : MReg) : Keeps (execVpj off m s) := by
  refine keeps_threadOnly h ?_
  split
  · dsimp only
    split
    · exact h.modMe _
    · exact keeps_stalls h _ _ _ _ (keeps_cleanV h _ _ _ _ (h.modMe _))
  · exact keeps_trapIll h

theorem keeps_execVstop : Keeps (execVstop s) := by
  refine keeps_threadOnly h ?_
  split
  · exact h.modMe _
  · exact keeps_trapIll h

end

end Sys2Proof.Machine
end


section
/-! PROOFS. The canonical form and the numbering (10 R139; 11 R161) over copies (15 R254 to R257) and collectives
(15 R258 to R260). -/

namespace Sys2Proof.Machine

/-! ### What an engine writes -/

theorem State.Kept.engineRuns {s : State} (h : s.Kept) (fn : Fin 256) (die : Fin 8) (p : Path) (va : Word) (ms : List (Mapped × Nat))
    (d : Nat) (bs : List (Byte × Bool)) : (s.engineRuns fn die p va ms d bs).Kept := by
  induction bs generalizing s d with
  | nil => exact h
  | cons b r ih =>
    obtain ⟨b, keep⟩ := b
    unfold State.engineRuns
    refine ih (.ite ?_ h) _
    split
    · exact State.Kept.putStore _ _ _ _ _ _ _ _ _ _ _ _ _ h
    · exact h

section
variable {s : State} (h : s.Kept)
include h

theorem State.Kept.engineStore (fn : Fin 256) (die : Fin 8) (p : Path) (work : Nat) (va : Word) (ms : List (Mapped × Nat))
    (bs : List Byte) (keep : List Bool) : (s.engineStore fn die p work va ms bs keep).Kept :=
  State.Kept.tagStores (.ite (State.Kept.storeParts _ _ _ _ _ _ _ _ _ _ _ h _) (h.engineRuns _ _ _ _ _ _ _)) _ _

/-! ### Pieces of a copy -/

theorem State.Kept.modCopy (n : Nat) (f : Copy → Copy) : (s.modCopy n f).Kept := h.calm rfl
theorem State.Kept.dropCopy (n : Nat) : (s.dropCopy n).Kept := h.calm rfl
theorem State.Kept.markEntry (q : Nat) (seq : BitVec 32) : (s.markEntry q seq).Kept := h.modQueue _ _
theorem State.Kept.modColl (n : Nat) (f : Coll → Coll) : (s.modColl n f).Kept := h.calm rfl
theorem State.Kept.dropColl (n : Nat) : (s.dropColl n).Kept := h.calm rfl
theorem State.Kept.setFreeCtr (n : Nat) : State.Kept { s with freeCtr := n } := h.calm rfl

theorem State.Kept.copyWrite {t : State} (c : Copy) (q : CopyRow) (want : Nat) (e : s.copyWrite c q want = .ok t) : t.Kept := by
  unfold State.copyWrite at e
  split at e
  · cases e
  · dsimp only at e
    split at e
    · cases e
    · cases e
      exact (h.engineStore ..).calm rfl

theorem State.Kept.stopCopy (c : Copy) (k : Cause) (va : Word) : (s.stopCopy c k va).Kept := by
  unfold State.stopCopy
  split
  · have h1 : (s.dropCopy c.id).Kept := h.calm rfl
    refine .ite (h.calm rfl) ?_
    dsimp only
    split
    · exact h1.endLaunch _ _
    · exact h1
  · dsimp only
    split <;> exact h.calm rfl

/-- A page request takes the next number. -/
theorem State.Kept.nextNumber {t : State} (he : (t.mem, t.stores, t.nextId) = (s.mem, s.stores, s.nextId + 1)) : t.Kept := by
  obtain ⟨hm, hs, hn⟩ : t.mem = s.mem ∧ t.stores = s.stores ∧ t.nextId = s.nextId + 1 := by simpa only [Prod.mk.injEq] using he
  exact h.same hm hs (hn ▸ Nat.le_succ _)

theorem State.Kept.copyFault (c : Copy) (acc : Access) (k : Cause) (va : Word) : (s.copyFault c acc k va).Kept :=
  .ite (h.nextNumber rfl) (h.stopCopy _ _ _)

theorem State.Kept.copySkip (c : Copy) (q : CopyRow) (want : Nat) : (s.copySkip c q want).Kept := h.calm rfl

theorem State.Kept.copyPut (c : Copy) (q : CopyRow) (want : Nat) (stopped : Bool) : (s.copyPut c q want stopped).Kept := by
  unfold State.copyPut
  split
  · next t e => exact h.copyWrite c q want e
  · exact .ite (h.copySkip _ _ _) (h.copyFault _ _ _ _)

theorem State.Kept.copyMove (c : Copy) (stopped : Bool) : (s.copyMove c stopped).Kept := by
  have h1 := h.tick
  refine .ite h (.ite ?_ (h1.copyPut _ _ _ _))
  split
  · exact h1.calm rfl
  · exact .ite (h1.copyPut _ _ _ _) (.ite (h1.copySkip _ _ _) (h1.copyFault _ _ _ _))

theorem keeps_execCopyPiece (n : Nat) : Keeps (execCopyPiece n s) := by
  unfold execCopyPiece
  split
  · exact h
  · split
    · exact h
    · exact h.copyMove _ _
    · exact .ite h (h.copyMove _ _)

theorem keeps_execCopyComplete (n : Nat) : Keeps (execCopyComplete n s) := by
  unfold execCopyComplete
  split
  · exact h
  · refine .ite ?_ h
    dsimp only
    split
    · exact (((h.loseUnreachable _).drainDie _).modContext _ _).dropCopy _
    · have h1 := ((h.loseUnreachable (fun r => r.work == some n)).drainAll (fun r => r.work == some n)).dropCopy n
      show State.Kept _
      split
      · exact h1.markEntry _ _
      · exact h1

/-! ### The copy instructions -/

theorem State.Kept.startCopy (c : Copy) : (s.startCopy c).Kept := .ite (h.modMe _) (h.nextNumber rfl)

theorem keeps_copyIssue (d a b : XReg) (tag : Fin 64) {k : Copy → Out} (hk : ∀ c, Keeps (k c)) : Keeps (copyIssue d a b tag s k) :=
  keeps_threadOnly h (keeps_readsX h _ (.ite h (hk _)))

theorem keeps_descOn (va : Word) (n : Nat) {k : List Byte → State → Out}
    (hk : ∀ (bs : List Byte) (t : State), t.Kept → Keeps (k bs t)) : Keeps (descOn va n s k) := by
  unfold descOn
  split
  · exact keeps_trap h _ _
  · split
    · exact keeps_faultOf h _ _ _ _
    · split
      · exact keeps_faultOf h _ _ _ _
      · exact keeps_loadFrom h _ _ _ hk

theorem keeps_execCpy (d a b : XReg) (tag : Fin 64) : Keeps (execCpy d a b tag s) :=
  keeps_copyIssue h _ _ _ _ fun _ => (h.startCopy _).finish

theorem keeps_execCpy2 (d a b : XReg) (tag : Fin 64) : Keeps (execCpy2 d a b tag s) :=
  keeps_copyIssue h _ _ _ _ fun _ => keeps_descOn h _ _ fun _ _ ht => .ite (keeps_trap h _ _) (ht.startCopy _).finish

theorem keeps_execCpyx (d a b : XReg) (tag : Fin 64) : Keeps (execCpyx d a b tag s) :=
  keeps_copyIssue h _ _ _ _ fun _ => keeps_descOn h _ _ fun _ _ ht => .ite (keeps_trap h _ _) (ht.startCopy _).finish

theorem keeps_tagWait (d a : XReg) (ready : Word → Word → Bool) (result : Word → Word) : Keeps (tagWait d a ready result s) :=
  keeps_threadOnly h (keeps_readsX h _ (keeps_reporting h _ (.ite (h.acquireAll.modMe _).finish h)))

/-! ### Collectives -/

omit h in
theorem State.Kept.sources {s : State} (h : s.Kept) (c : Coll) (n rank : Nat) (l : List (Option Coll)) :
    (s.sources c n rank l).2.Kept := by
  induction l generalizing s rank with
  | nil => exact h
  | cons p r ih => exact ih (h.calm (t := { s with freeCtr := s.freeCtr + (s.source c n rank p).1.length }) rfl) (rank + 1)

theorem State.Kept.collPage (c : Coll) (acc : Access) (va : Word) : (s.collPage c acc va).Kept := h.nextNumber rfl

theorem State.Kept.endAll (ids : List Nat) (e : CollEnd) : (s.endAll ids e).Kept := h.calm rfl

omit h in
theorem State.Kept.endEach {s : State} (h : s.Kept) (c : Coll) (data : List (List Byte)) (rank : Nat)
    (l : List (Option Coll × (List Byte × Option (Cause × Word)))) : (s.endEach c data rank l).Kept := by
  induction l generalizing s rank with
  | nil => exact h
  | cons p r ih =>
    obtain ⟨p, src⟩ := p
    unfold State.endEach
    refine ih ?_ _
    split
    · exact h
    · exact h.endAll _ _

theorem State.Kept.decideColl (c : Coll) : (s.decideColl c).Kept := by
  have h1 := h.tick
  unfold State.decideColl
  split
  · exact h.endAll _ _
  · split
    · exact .ite (h.collPage _ _ _) (h.endAll _ _)
    · refine .ite (h.endAll _ _) (.ite h1 (.ite (h1.endAll _ _) ?_))
      dsimp only
      split
      · exact .ite (h1.collPage _ _ _) h1
      · exact (h1.sources _ _ _ _).endEach _ _ _ _

theorem State.Kept.writeColl (c : Coll) (e : CollEnd) : (s.writeColl c e).Kept := by
  unfold State.writeColl
  split
  · exact h.collPage _ _ _
  · exact h.calm rfl
  · exact ((((h.engineStore ..).loseUnreachable _).drainAll _).setFreeCtr _).modColl _ _

theorem State.Kept.statusFault (c : Coll) (k : Cause) (va : Word) : (s.statusFault c k va).Kept := by
  exact .ite ((h.dropColl _).modContext _ _) ((h.dropColl _).endLaunch _ _)

theorem State.Kept.writeStatus (c : Coll) (e : CollEnd) : (s.writeStatus c e).Kept := by
  unfold State.writeStatus
  split
  · exact h.statusFault _ _ _
  · split
    · exact h.collPage _ _ _
    · exact h.statusFault _ _ _
    · exact (h.engineStore ..).dropColl _

theorem keeps_execCollComplete (n : Nat) : Keeps (execCollComplete n s) := by
  have h1 := h.tick
  unfold execCollComplete
  split
  · exact h
  · refine .ite h ?_
    split
    · exact Keeps.next h rfl
    · exact .ite (h.writeStatus _ _) (h.writeColl _ _)
    · split
      · exact Keeps.next h1 rfl
      · exact h1.decideColl _
      · exact .ite (h1.writeStatus _ _) (h1.writeColl _ _)

theorem State.Kept.issueColl (bs : List Byte) : (s.issueColl bs).2.Kept := by
  unfold State.issueColl
  split
  · exact h
  · split
    · exact h
    · exact h.nextNumber rfl

theorem keeps_execColl (d a : XReg) : Keeps (execColl d a s) :=
  keeps_threadOnly h (keeps_readsX h _ (keeps_descOn h _ _ fun _ _ ht => ((ht.issueColl _).modMe _).finish))

end

end Sys2Proof.Machine
end


section
/-! PROOFS. The canonical form and the numbering (10 R139; 11 R161) over the steps of the memory system, the links and the
front end (11 R158, R159, R164; 02 R10 to R14; 07 R104 to R111). -/

namespace Sys2Proof.Machine

theorem StoreRec.showDie_onward (die : Fin 8) : StoreRec.Onward (StoreRec.showDie die) := by
  refine ⟨fun r => ?_, fun r => ?_⟩ <;> unfold StoreRec.showDie
  · split <;> exact List.Sublist.refl _
  · split <;> rfl

section
variable {s : State} (h : s.Kept)
include h

/-! ### Stores, links and errors -/

theorem State.Kept.advanceOne (n : Nat) {f : StoreRec → StoreRec} (hf : StoreRec.Onward f) : (s.advanceOne n f).Kept := h.onward _ hf

theorem State.Kept.applyStore (r : StoreRec) : (s.applyStore r).Kept := .ite (h.advanceOne _ StoreRec.applyNow_onward) h

theorem keeps_execStoreApply (n : Nat) : Keeps (execStoreApply n s) := by
  unfold execStoreApply
  split
  · exact State.Kept.ite h (h.applyStore _)
  · exact h

theorem keeps_execGlobalStoreApply (n : Nat) : Keeps (execGlobalStoreApply n s) := by
  unfold execGlobalStoreApply
  split
  · exact State.Kept.ite (h.applyStore _) h
  · exact h

theorem keeps_execStoreVisibleOnDie (n : Nat) (die : Fin 8) : Keeps (execStoreVisibleOnDie n die s) := by
  unfold execStoreVisibleOnDie
  split
  · exact State.Kept.ite (h.advanceOne _ (StoreRec.showDie_onward die)) h
  · exact h

theorem keeps_execStoreAcknowledge (n : Nat) : Keeps (execStoreAcknowledge n s) := by
  unfold execStoreAcknowledge
  split
  · exact State.Kept.ite (h.advanceOne _ StoreRec.ackNow_onward) h
  · exact h

theorem keeps_execStoreVisibleToPath (n : Nat) (p : Path) : Keeps (execStoreVisibleToPath n p s) := by
  unfold execStoreVisibleToPath
  split
  · exact .ite h (.ite (h.advanceOne _ ⟨fun _ => List.Sublist.refl _, fun _ => rfl⟩)
      (.ite (h.advanceOne _ StoreRec.performNow_onward) h))
  · exact h

theorem keeps_execLinkFailure (die : Fin 8) (p : Port) : Keeps (execLinkFailure die p s) := by
  refine Keeps.next (h.mapStores (fun r => if s.carries die p r then { r with cut := true } else r) ?_ ?_ ?_) rfl <;> intro r <;> split
  · rfl
  · rfl
  · rfl
  · rfl
  · exact List.Sublist.refl _
  · exact List.Sublist.refl _

theorem keeps_execAckLossDetection (n : Nat) (applied : Bool) : Keeps (execAckLossDetection n applied s) := by
  unfold execAckLossDetection
  split
  · exact State.Kept.ite (h.lose _ _) h
  · exact h

theorem keeps_execUncorrectableError (site : ErrSite) : Keeps (execUncorrectableError site s) := by
  unfold execUncorrectableError
  show State.Kept _
  split
  · exact h.calm rfl
  · exact .ite h (h.calm rfl)
  · exact .ite (h.calm rfl) h
  · exact .ite (h.calm rfl) h
  · exact .ite (h.calm rfl) h
  · exact .ite (h.calm rfl) h
  · exact .ite (h.calm rfl) h

theorem keeps_execPatrolScrub (die : Fin 8) (line : BitVec 29) : Keeps (execPatrolScrub die line s) :=
  State.Kept.ite (h.calm rfl) (h.calm rfl)

theorem keeps_execLineWriteBack (line : BitVec 45) : Keeps (execLineWriteBack line s) := by
  unfold execLineWriteBack
  split
  · exact State.Kept.ite (h.calm rfl) h
  · exact h

theorem keeps_execMonitorSample (cl : Fin 64) (k slot : Fin 4) (v : Word) : Keeps (execMonitorSample cl k slot v s) :=
  State.Kept.ite (h.calm rfl) h

theorem keeps_execMctlWrite (k : Fin 4) (v : Word) : Keeps (execMctlWrite k v s) := by
  refine .ite h ?_
  split
  · exact h
  · split
    · exact .ite (keeps_execSwr h _ _) h
    · exact h

/-! ### Queues and their entries -/

theorem State.Kept.payQueue (w : Nat) : (s.payQueue w).Kept := State.Kept.foldl (fun _ _ hs => hs.modQueue _ _) _ h

theorem State.Kept.startEntryOf (q : Nat) (bs : List Byte) : (s.startEntryOf q bs).Kept := by
  have h2 : s.nextId ≤ s.nextId + 2 := Nat.le_add_right _ _
  unfold State.startEntryOf
  dsimp only
  split
  · exact .ite (h.same rfl rfl h2) (h.same rfl rfl h2)
  · exact h.same rfl rfl h2
  · exact h.same rfl rfl h2

theorem State.Kept.headLaunch (q : Nat) (bs : List Byte) : (s.headLaunch q bs).Kept := h.nextNumber rfl

theorem keeps_execQueueEntryRead (q : Fin 8192) : Keeps (execQueueEntryRead q s) := by
  refine .ite h ?_
  split
  · exact Keeps.next h rfl
  · exact .ite (h.headLaunch _ _) (.ite ((h.payQueue _).startEntryOf _ _) h)

theorem keeps_execWaitOnValueCheck (n : Nat) : Keeps (execWaitOnValueCheck n s) := by
  unfold execWaitOnValueCheck
  split
  · split
    · refine .ite h ?_
      split
      · exact Keeps.next h rfl
      · exact State.Kept.ite (h.markEntry _ _) h
    · exact h
    · exact h
    · exact h
  · exact h

theorem State.Kept.signal (m : Mapped) (die : Fin 8) (v : Word) (add : Bool) : (s.signal m die v add).Kept :=
  State.Kept.pokeKey _ _ _ (h.applyFor _ _ _)

theorem keeps_execSignalEntry (n : Nat) : Keeps (execSignalEntry n s) := by
  unfold execSignalEntry
  split
  · split
    · refine .ite h ?_
      split
      · exact Keeps.next h rfl
      · exact .ite (Keeps.next h rfl) ((h.signal _ _ _ _).markEntry _ _)
    · exact h
    · exact h
    · exact h
  · exact h

theorem State.Kept.tellDone (q : Nat) (e : QEntry) : (s.tellDone q e).Kept := .ite (h.calm rfl) h

theorem State.Kept.advanceWord (q : Nat) : (s.advanceWord q).Kept := by
  unfold State.advanceWord
  dsimp only
  split
  · exact h
  · refine .ite (h.calm rfl) ?_
    split
    · exact h.calm rfl
    · refine .ite (h.calm rfl) (State.Kept.modQueue ?_ _ _)
      exact State.Kept.pokeKey _ _ _ (State.Kept.foldl (fun _ _ hs => hs.tellDone _ _) _ h)

theorem keeps_execQueueEntryComplete (n : Nat) : Keeps (execQueueEntryComplete n s) := by
  unfold execQueueEntryComplete
  split
  · exact .ite ((h.tellDone _ _).advanceWord _) h
  · exact h

/-! ### Admission, acceptance and placement -/

theorem keeps_execLaunchAdmission (n : Nat) : Keeps (execLaunchAdmission n s) := by
  unfold execLaunchAdmission
  split
  · exact State.Kept.ite (h.calm rfl) h
  · exact h

theorem State.Kept.accept (l : Launch) (e : HeadEntry) : (s.accept l e).Kept := by
  have h2 : State.Kept { (s.payQueue l.queue).modQueue l.queue (fun k =>
      k.start l.seq e.next ⟨s.nextId, l.seq, .launch l.id, e.intr, l.pk.t == 0, false⟩) with
      nextId := (s.payQueue l.queue).nextId + 1 } := (h.payQueue l.queue).nextNumber rfl
  unfold State.accept
  split
  · exact h2.calm rfl
  · dsimp only
    split
    · exact h
    · exact h2.calm rfl

theorem keeps_execLaunchAccept (n : Nat) : Keeps (execLaunchAccept n s) := by
  unfold execLaunchAccept
  split
  · split
    · exact State.Kept.ite (h.accept _ _) h
    · exact h
  · exact h

theorem State.Kept.grantSegs (l : Launch) (cl : Fin 64) : (s.grantSegs l cl).Kept := .ite h ((h.zeroSegs _ _).modCluster _ _)

theorem State.Kept.startBureau (l : Launch) (cl : Fin 64) : (s.startBureau l cl).Kept := .ite h (h.nextNumber rfl)

theorem State.Kept.placeThread (l : Launch) (ordinal : Nat) (cl : Fin 64) : (s.placeThread l ordinal cl).Kept := by
  unfold State.placeThread
  dsimp only
  split
  · exact h
  · refine State.Kept.modLaunch (State.Kept.startBureau (State.Kept.grantSegs (State.Kept.modCluster ?_ _ _) _ _) _ _) _ _
    exact h.nextNumber rfl

theorem keeps_execThreadPlacement (n : Nat) : Keeps (execThreadPlacement n s) := by
  unfold execThreadPlacement
  split
  · refine .ite h ?_
    split
    · exact h.placeThread _ _ _
    · exact h
  · exact h

theorem State.Kept.claimLoops (l : Launch) (d : Fin 8) : (s.claimLoops l d).Kept := .ite h (h.calm rfl)

theorem keeps_execCoscheduledPlacement (n : Nat) : Keeps (execCoscheduledPlacement n s) := by
  unfold execCoscheduledPlacement
  split
  · refine .ite h ?_
    exact State.Kept.foldl (fun _ _ hs => hs.placeThread _ _ _) _ (State.Kept.foldl (fun _ _ hs => hs.claimLoops _ _) _ h)
  · exact h

/-! ### Completion -/

theorem State.Kept.markLaunch (l : Launch) : (s.markLaunch l).Kept := h.modQueue _ _

theorem State.Kept.releaseLaunch (n : Nat) : (s.releaseLaunch n).Kept := h.calm rfl

theorem keeps_execLaunchCompletion (n : Nat) : Keeps (execLaunchCompletion n s) := by
  unfold execLaunchCompletion
  split
  · exact .ite ((((h.loseUnreachable _).drainAll _).markLaunch _).releaseLaunch _) h
  · exact h

theorem keeps_execSegmentRelease (n : Nat) (cl : Fin 64) : Keeps (execSegmentRelease n cl s) := State.Kept.ite (h.calm rfl) h

end

end Sys2Proof.Machine
end


section
/-! PROOFS. The canonical form and the numbering (10 R139; 11 R161) over page answers, context switches, the turn of a period
and firmware (02 R30, R32; 18 R297, R302, R303; 09 R127 to R130; 07 R104 to R111; 19 R307 to R314). -/

namespace Sys2Proof.Machine

/-! ### Answers that may be missing -/

/-- The state answered, if there is one, is canonical and numbered. -/
def KeptIfAny (o : Option State) : Prop := ∀ t, o = some t → t.Kept

theorem KeptIfAny.none : KeptIfAny none := fun _ e => nomatch e
theorem KeptIfAny.some {t : State} (h : t.Kept) : KeptIfAny (some t) := fun _ e => by cases e; exact h
theorem KeptIfAny.ite {p : Prop} [Decidable p] {o o' : Option State} (h : KeptIfAny o) (h' : KeptIfAny o') :
    KeptIfAny (if p then o else o') := by
  split
  · exact h
  · exact h'
theorem KeptIfAny.bind {o : Option State} (h : KeptIfAny o) {f : State → Option State}
    (hf : ∀ t : State, t.Kept → KeptIfAny (f t)) : KeptIfAny (o.bind f) := by
  cases o with
  | none => exact .none
  | some t => exact hf t (h t rfl)
theorem KeptIfAny.map {o : Option State} (h : KeptIfAny o) {f : State → State} (hf : ∀ t : State, t.Kept → (f t).Kept) :
    KeptIfAny (o.map f) := by
  cases o with
  | none => exact .none
  | some t => exact .some (hf t (h t rfl))
theorem KeptIfAny.mapOf {α : Type} (o : Option α) {f : α → State} (hf : ∀ a, (f a).Kept) : KeptIfAny (o.map f) := by
  cases o with
  | none => exact .none
  | some a => exact .some (hf a)
theorem KeptIfAny.getD {o : Option State} (h : KeptIfAny o) {s : State} (hs : s.Kept) : (o.getD s).Kept := by
  cases o with
  | none => exact hs
  | some t => exact h t rfl

section
variable {s : State} (h : s.Kept)
include h

/-! ### Page answers -/

theorem keeps_execPagePresent (n : Nat) : Keeps (execPagePresent n s) := by
  unfold execPagePresent
  split
  · exact h
  · dsimp only
    split <;> exact Keeps.next h rfl

theorem State.Kept.pageTrap (u : Nat) (tval : Word) : (s.pageTrap u tval).Kept :=
  (((h.focus _).modMe _).deliverAt _ _ _).focus _

theorem keeps_execPageFail (n : Nat) : Keeps (execPageFail n s) := by
  unfold execPageFail
  split
  · exact h
  · have h1 : (s.answered n).Kept := h.calm rfl
    dsimp only
    split
    · split
      · exact State.Kept.ite (h1.pageTrap _ _) h1
      · exact h1
    · split
      · exact h1.stopCopy _ _ _
      · exact State.Kept.ite (h1.statusFault _ _ _) (h1.modColl _ _)
      · exact h1
    · exact h1

/-! ### Switching out -/

theorem State.Kept.writeArea (fn : Fin 256) (area : Nat) (l : List Part) : (s.writeArea fn area l).Kept :=
  State.Kept.foldl (fun _ _ hs => State.Kept.pokeKey _ _ _ hs) _ h

theorem State.Kept.saveBureau (c : Context) (area : Nat) : (s.saveBureau c area).Kept :=
  ((((h.loseUnreachable _).drainAll _).writeArea _ _ _).modCluster _ _).modContext _ _

theorem State.Kept.writeThread (c : Context) (area : Nat) : (s.writeThread c area).Kept := h.writeArea _ _ _

theorem State.Kept.saveThread (c : Context) (area : Nat) : (s.saveThread c area).Kept := (h.swapOut _ _).writeThread _ _

theorem State.Kept.saveContext (c : Context) (area : Nat) : KeptIfAny (s.saveContext c area) := by
  unfold State.saveContext
  split
  · exact .some (h.saveThread _ _)
  · exact .ite (.some (h.saveBureau _ _)) .none

omit h in
theorem State.Kept.saveContexts {s : State} (h : s.Kept) (l : List Context) (area : Nat) : KeptIfAny (s.saveContexts l area) := by
  induction l generalizing s area with
  | nil => exact .some h
  | cons c r ih => exact .bind (h.saveContext c area) fun _ ht => ih ht _

theorem State.Kept.spill (l : Launch) (cl : Fin 64) : (s.spill l cl).Kept :=
  (((h.drainAll _).zeroSegs _ _).modCluster _ _).modLaunch _ _

theorem State.Kept.spillAll (n : Nat) : (s.spillAll n).Kept := by
  unfold State.spillAll
  split
  · exact h
  · exact .ite h (State.Kept.foldl (fun _ _ hs => hs.spill _ _) _ h)

theorem State.Kept.saveLoops (n : Nat) : (s.saveLoops n).Kept := by
  unfold State.saveLoops
  split
  · exact h
  · exact h.calm rfl

theorem State.Kept.saveTogether (n area : Nat) : (s.saveTogether n area).Kept := by
  unfold State.saveTogether
  dsimp only
  refine .ite ?_ h
  split
  · next t e => exact ((h.saveContexts _ _ t e).saveLoops _).spillAll _
  · exact h

theorem keeps_execContextSwapOut (n : Nat) (area : BitVec 52) : Keeps (execContextSwapOut n area s) := by
  have out : ∀ c : Context, State.Kept ((if c.kind = .thread then s.writeThread c area.toNat else s).spillAll c.launch) :=
    fun c => (State.Kept.ite (h.writeThread _ _) h).spillAll _
  have leave : ∀ c : Context, Keeps (match s.launch c.launch with
      | none => .next s
      | some l =>
        if !l.preempted then .next s
        else if l.pk.cosched then .next (s.saveTogether l.id area.toNat)
        else if c.kind = .thread ∧ s.maySwap c then .next ((s.saveThread c area.toNat).spillAll l.id)
        else .next s) := by
    intro c
    split
    · exact h
    · exact .ite h (.ite (h.saveTogether _ _) (.ite ((h.saveThread _ _).spillAll _) h))
  unfold execContextSwapOut
  split
  · exact h
  · next c _ =>
    split
    · exact out c
    · exact out c
    · exact leave c
    · exact leave c
    · exact leave c
    · exact h

/-! ### Resuming -/

theorem State.Kept.resumeThread (c : Context) (slot : Fin 4) : KeptIfAny (s.resumeThread c slot) := by
  unfold State.resumeThread
  exact .ite (.some (h.calm rfl)) .none

theorem State.Kept.resumeBureau (c : Context) : KeptIfAny (s.resumeBureau c) := by
  unfold State.resumeBureau
  split
  · exact .none
  · exact .ite (.some (h.calm rfl)) .none

theorem State.Kept.resumeOne (l : Launch) (c : Context) (slot : Option (Fin 4)) : KeptIfAny (s.resumeOne l c slot) := by
  unfold State.resumeOne
  split
  · exact .none
  · next t e =>
    have h1 := h.refill _ _ e
    split
    · exact h1.resumeBureau _
    · split
      · exact h1.resumeThread _ _
      · exact .none

omit h in
theorem State.Kept.resumeAll {s : State} (h : s.Kept) (l : Launch) (n : Nat) (slot : Fin 4) (cs : List Context) :
    KeptIfAny (s.resumeAll l n slot cs) := by
  induction cs generalizing s with
  | nil => exact .some h
  | cons c r ih => exact .bind (h.resumeOne _ _ _) fun _ ht => ih ht

theorem State.Kept.takeLoops (n : Nat) (v : Nat × List (Word × Word)) : KeptIfAny (s.takeLoops n v) := by
  unfold State.takeLoops
  exact .ite (.some (h.calm rfl)) .none

omit h in
theorem State.Kept.takeAllLoops {s : State} (h : s.Kept) (n : Nat) (l : List (Nat × List (Word × Word))) :
    KeptIfAny (s.takeAllLoops n l) := by
  induction l generalizing s with
  | nil => exact .some h
  | cons v r ih => exact .bind (h.takeLoops _ _) fun _ ht => ih ht

theorem keeps_execContextResume (n : Nat) (slot : Fin 4) : Keeps (execContextResume n slot s) := by
  unfold execContextResume
  split
  · exact h
  · split
    · exact h
    · refine .ite h (.ite ?_ ?_)
      · exact KeptIfAny.getD (.bind (h.takeAllLoops _ _) fun _ ht => ht.resumeAll _ _ _ _) h
      · exact State.Kept.ite ((h.resumeOne _ _ _).getD h) h

theorem keeps_execBureauContextSwitch (n : Nat) (out : Bool) (area : BitVec 52) : Keeps (execBureauContextSwitch n out area s) := by
  unfold execBureauContextSwitch
  split
  · exact h
  · split
    · exact h
    · refine .ite h (.ite ?_ (.ite ((h.resumeOne _ _ _).getD h) h))
      exact State.Kept.ite (KeptIfAny.getD ((h.saveContext _ _).map fun _ ht => ht.spillAll _) h) h

/-! ### Pre-emption and the turn of a period -/

theorem State.Kept.preemptFor (l : Launch) : (s.preemptFor l).Kept := h.calm rfl

theorem State.Kept.preemptions : s.preemptions.Kept := by
  have h1 : State.Kept { s with launches := s.launches.map (fun k => { k with preempted := false }) } := h.calm rfl
  exact State.Kept.foldl (fun _ _ hs => hs.spillAll _) _ (State.Kept.foldl (fun _ _ hs => hs.preemptFor _) _ h1)

theorem keeps_execPeriodTurn (die : Fin 8) : Keeps (execPeriodTurn die s) := by
  refine .ite h (.ite ?_ (Keeps.next h rfl))
  exact State.Kept.preemptions (State.Kept.calm h rfl)

/-! ### Charges and the arbiter -/

theorem State.Kept.activities (launch : Option Nat) (fn : Fin 256) (die : Fin 8) (k : EngineClass) (f : Budget → Budget) :
    (s.activities launch fn die k f).Kept := by
  unfold State.activities
  refine State.Kept.modDie (State.Kept.modFn ?_ _ _) _ _
  split
  · exact h.modLaunch _ _
  · exact h

theorem State.Kept.grantRound (res : SharedRes) (ps : List Context) : (s.grantRound res ps).Kept := by
  unfold State.grantRound
  split
  · exact h
  · exact (h.mapContexts _).activities _ _ _ _ _

theorem State.Kept.headGranted (res : SharedRes) (ps : List Context) : (s.headGranted res ps).Kept := by
  unfold State.headGranted
  split
  · exact h
  · exact h.modContext _ _

theorem keeps_execVectorQueueIssue (cl : Fin 64) (res : SharedRes) (req : BitVec 4) : Keeps (execVectorQueueIssue cl res req s) :=
  ((h.mapContexts _).grantRound _ _).headGranted _ _

theorem keeps_execEnergyCharge (n : Nat) (die : Fin 8) (cls : EngineClass) (e : EnergyCount) :
    Keeps (execEnergyCharge n die cls e s) := by
  unfold execEnergyCharge
  split
  · exact h
  · dsimp only
    split
    · exact h.activities _ _ _ _ _
    · exact (h.activities _ _ _ _ _).modLaunch _ _

theorem State.Kept.chargeTraffic (n : Nat) (die : Fin 8) (cls : EngineClass) (flits : Bool) (units : Nat) :
    (s.chargeTraffic n die cls flits units).Kept := by
  unfold State.chargeTraffic
  split
  · exact h
  · exact h.activities _ _ _ _ _

/-! ### Host registers, translations and keys -/

theorem State.Kept.modSpace (fn sp : Fin 256) (f : AsRec → AsRec) : (s.modSpace fn sp f).Kept := h.modFn _ _

theorem State.Kept.writeLimit (fn : Fin 256) (i : Nat) (v : BitVec 32) : (s.writeLimit fn i v).Kept := .ite (h.calm rfl) (h.modFn _ _)

theorem State.Kept.mmioWord (fn : Fin 256) (off : Nat) (v : BitVec 32) : (s.mmioWord fn off v).Kept :=
  .ite h (.ite (.ite (h.modQueue _ _) h) (.ite (.ite (h.modSpace _ _ _) h) (.ite (h.writeLimit _ _ _)
    (.ite (h.modFn _ _) (.ite (h.modFn _ _) h)))))

theorem keeps_execMmioRegisterWrite (fn : Fin 256) (off : BitVec 20) (v : Word) (wide : Bool) :
    Keeps (execMmioRegisterWrite fn off v wide s) :=
  .ite (.ite h ((h.mmioWord _ _ _).mmioWord _ _ _)) (h.mmioWord _ _ _)

theorem keeps_execQtailWrite (fn : Fin 256) (q : Fin 8192) (v : BitVec 32) : Keeps (execQtailWrite fn q v s) :=
  State.Kept.ite (h.writeTail _ _) h

theorem State.Kept.dropHead (q : Nat) : (s.dropHead q).Kept := by
  unfold State.dropHead
  split
  · exact h
  · exact h.calm rfl

theorem keeps_execQctlWrite (fn : Fin 256) (q : Fin 8192) (v : BitVec 32) : Keeps (execQctlWrite fn q v s) :=
  .ite h ((State.Kept.ite h (h.dropHead _)).modQueue _ _)

theorem keeps_execQstatClear (fn : Fin 256) (q : Fin 8192) : Keeps (execQstatClear fn q s) :=
  .ite h (Keeps.next (State.Kept.ite (p := (s.queue q.val).stop = true) (h.dropHead q.val) h) rfl)

theorem State.Kept.dropTlb (pick : TlbEntry → Bool) : (s.dropTlb pick).Kept := h.calm rfl

theorem keeps_execAsshootWrite (fn sp : Fin 256) (v : Word) : Keeps (execAsshootWrite fn sp v s) :=
  .ite h ((h.modSpace _ _ _).dropTlb _)

theorem keeps_execShootDownDone (fn sp : Fin 256) : Keeps (execShootDownDone fn sp s) := State.Kept.ite h (h.modSpace _ _ _)

theorem State.Kept.startWalk (cl : Fin 64) (fn sp : Fin 256) (va : Word) : (s.startWalk cl fn sp va).Kept := .ite h (h.modCluster _ _)

theorem keeps_execPageWalkFill (cl : Fin 64) (fn sp : Fin 256) (va : Word) (gen : BitVec 32) :
    Keeps (execPageWalkFill cl fn sp va gen s) := by
  unfold execPageWalkFill
  split
  · exact h
  · exact .ite (h.modCluster _ _) (h.modCluster _ _)

theorem keeps_execKeyLoad (fn : Fin 256) (k : KeyImage) : Keeps (execKeyLoad fn k s) := State.Kept.ite h (h.calm rfl)

theorem State.Kept.clearKey (k : Nat) : (s.clearKey k).Kept := h.calm rfl

theorem keeps_execKeyRelease (fn : Fin 256) : Keeps (execKeyRelease fn s) :=
  State.Kept.dropTlb (State.Kept.foldl (fun _ _ hs => hs.clearKey _) _ h) _

/-! ### Boot, updates and resets -/

theorem keeps_execPackageBoot (sigOk : Bool) (good : BitVec 8) : Keeps (execPackageBoot sigOk good s) := .ite (h.boot good) trivial

theorem keeps_execDieRelease (die : Fin 8) (good : Bool) : Keeps (execDieRelease die good s) :=
  State.Kept.ite h (.ite (h.calm rfl) (h.modDie _ _))

theorem keeps_execFirmwareUpdate (sigOk : Bool) (sec : BitVec 32) (minor patch : BitVec 8) :
    Keeps (execFirmwareUpdate sigOk sec minor patch s) := State.Kept.ite (h.calm rfl) (h.calm rfl)

theorem State.Kept.stopCopies (d : Fin 8) : (s.stopCopies d).Kept := by
  refine State.Kept.foldl (fun t c ht => ?_) _ h
  have go : State.Kept (if dieOfCl c.cl = d then t else match t.copyTarget c d with
      | some va => t.stopCopy c .poison va
      | none => t) := by
    refine .ite ht ?_
    split
    · exact ht.stopCopy _ _ _
    · exact ht
  split
  · exact ht
  · exact go
  · exact go

theorem State.Kept.resetQueues (d : Fin 8) : (s.resetQueues d).Kept :=
  State.Kept.foldl (fun _ _ hs => ((hs.dropHead _).modQueue _ _).modQueue _ _) _ h

theorem State.Kept.dropDieWork (d : Fin 8) : (s.dropDieWork d).Kept := by
  have h1 : ((s.copies.filter (fun c => dieOfCl c.cl == d)).foldl
      (fun s c => match c.entry with | some (q, e) => s.markEntry q e | none => s) s).Kept := by
    refine State.Kept.foldl (fun t c ht => ?_) _ h
    split
    · exact ht.markEntry _ _
    · exact ht
  exact State.Kept.calm h1 rfl

theorem State.Kept.resetClusters (d : Fin 8) : (s.resetClusters d).Kept :=
  State.Kept.calm (h.withMem (Memory.wf_filter h.1.1 (fun c => !(isPad c.1 && padCluster c.1 / 8 == d.val)))) rfl

theorem State.Kept.resetEndpoint (d : Fin 8) : (s.resetEndpoint d).Kept := .ite (h.calm rfl) h

theorem State.Kept.endLaunches (ns : List Nat) (reason : BitVec 4) : (ns.foldl (fun s n => s.endLaunch n reason) s).Kept :=
  State.Kept.foldl (fun _ _ hs => hs.endLaunch _ _) _ h

theorem State.Kept.loseMembers (d : Fin 8) : (s.loseMembers d).Kept := h.calm rfl
theorem State.Kept.dropRequests : s.dropRequests.Kept := h.calm rfl

theorem State.Kept.resetDie (d : Fin 8) : (s.resetDie d).Kept := by
  have h2 := (((h.stopCopies d).loseMembers d).resetStores d).resetQueues d
  exact ((((h2.endLaunches _ _).dropDieWork _).resetClusters _).dropRequests.resetEndpoint _).modDie _ _

theorem State.Kept.flrQueues (fn : Fin 256) : (s.flrQueues fn).Kept := h.calm rfl
theorem State.Kept.flrClusters (ns : List Nat) : (s.flrClusters ns).Kept := h.calm rfl

theorem State.Kept.releaseLaunches (ns : List Nat) : (ns.foldl (fun s n => s.releaseLaunch n) s).Kept :=
  State.Kept.foldl (fun _ _ hs => hs.releaseLaunch _) _ h

theorem State.Kept.dropWork (fn : Fin 256) : State.Kept { s with
    copies := s.copies.filter (fun c => c.fn != fn)
    colls := s.colls.filter (fun c => c.fn != fn)
    pageReqs := s.pageReqs.filter (fun r => r.fn != fn) } := h.calm rfl

theorem State.Kept.resetFunction (fn : Fin 256) : (s.resetFunction fn).Kept := by
  unfold State.resetFunction
  generalize (s.launches.filter (fun l => l.fn == fn)).map (fun l => l.id) = ns
  have h2 := (((h.endLaunches ns 4).flrStores fn).flrQueues fn).flrClusters ns
  exact State.Kept.modFn (State.Kept.dropTlb (State.Kept.releaseLaunches (h2.dropWork fn) _) _) _ _

theorem keeps_execFunctionLevelReset (fn : Fin 256) : Keeps (execFunctionLevelReset fn s) := State.Kept.ite h (h.resetFunction _)

/-! ### What the host reads, assigns and writes -/

theorem State.Kept.hostRead (fn : Fin 256) (off : Nat) (wide : Bool) : (s.hostRead fn off wide).Kept := .ite h (h.calm rfl)
theorem State.Kept.readFlr (fn : Fin 256) : (s.readFlr fn).Kept := .ite h (h.calm rfl)

theorem State.Kept.assign (a : Assignment) : (s.assign a).Kept := by
  refine .ite h ?_
  split
  · exact .ite h (h.modQueue _ _)
  · exact h.modFn _ _
  · exact h.modDie _ _

theorem keeps_execThermalThrottle (hot : Bool) : Keeps (execThermalThrottle hot s) := State.Kept.ite (h.calm rfl) h

theorem keeps_execHostWrite (pa : BitVec 48) (data : List Byte) : Keeps (execHostWrite pa data s) := State.Kept.pokeKey _ _ _ h

end

end Sys2Proof.Machine
end


section
/-! PROOFS. The canonical form and the numbering (10 R139; 11 R161) over vector memory instructions (15 R236 to R247), Graver
instructions (17 R283 to R293) and the matrix queue (16 R261 to R281). -/

namespace Sys2Proof.Machine

/-! ### Units of vector loads and stores -/

theorem State.Kept.readUnits (v : VView) (cls : Cls) (e y : Bool) {s : State} (h : s.Kept) (l : List (Nat × List VAccess)) :
    (State.readUnits v cls e y s l).2.Kept := by
  induction l generalizing s with
  | nil => exact h
  | cons g l ih => exact ih (.ite (h.passed _ _ _ _) (.ite h h.tick))

theorem State.Kept.storeRest (v : VView) (r : VecRegs) (a : VReg) (mode : StoreMode) (cls : Cls) (y : Bool) (ins : Option Nat)
    (hu : ∀ (t : State) (g : Nat × List VAccess), t.Kept → (t.storeUnit v r a mode cls y ins g).Kept) {s : State} (h : s.Kept)
    (l : List VUnit) : (State.storeRest v r a mode cls y ins s l).Kept := by
  induction l generalizing s with
  | nil => exact h
  | cons q l ih =>
    unfold State.storeRest
    split
    · exact ih h
    · exact .ite (ih h) (ih (State.Kept.tick (.ite (hu _ _ h) h)))

theorem State.Kept.drainSeen (o : Observer) (ks : List (Nat × Nat)) (n : Nat) {s : State} (h : s.Kept) :
    (State.drainSeen o ks n s).Kept := by
  induction n generalizing s with
  | zero => exact h
  | succ n ih => exact ih (h.drainAll _)

theorem State.Kept.amoAll (cls : Cls) (far : Bool) (n : Nat) (f : Nat → Nat → Nat → Nat) {s : State} (h : s.Kept)
    (l : List VAmoElt) : (State.amoAll cls far n f s l).2.Kept := by
  induction l generalizing s with
  | nil => exact h
  | cons e l ih => exact ih (h.atomicAt _ _ _ _ _ _ _)

theorem State.Kept.amoSome (cls : Cls) (far : Bool) (n : Nat) (f : Nat → Nat → Nat → Nat) (skipped : List Nat) {s : State}
    (h : s.Kept) (l : List VAmoElt) : (State.amoSome cls far n f skipped s l).Kept := by
  induction l generalizing s skipped with
  | nil => exact h
  | cons e l ih => exact .ite (ih _ h) (.ite (ih _ (h.tick.atomicAt _ _ _ _ _ _ _)) (ih _ h.tick))

/-- A run of `.SC` elements keeps it when each of them does. -/
theorem State.Kept.scRun {one : State → VUnit → Except UnitFault (List (Nat × Nat) × State)}
    (ho : ∀ (t : State) (q : VUnit) (r : List (Nat × Nat) × State), t.Kept → one t q = .ok r → r.2.Kept)
    {s : State} (h : s.Kept) (l : List VUnit) : (scRun one s l).2.1.Kept := by
  induction l generalizing s with
  | nil => exact h
  | cons q l ih =>
    unfold Machine.scRun
    split
    · exact h
    · next e => exact ih (ho _ _ _ h e)

section
variable {s : State} (h : s.Kept)
include h

theorem State.Kept.loadUnits (v : VView) (cls : Cls) (e y : Bool) (q : Scan) : (s.loadUnits v cls e y q).2.Kept := by
  unfold State.loadUnits
  split
  · exact h
  · exact (State.Kept.readUnits _ _ _ _ ((h.orderLoad _ _ _).noteRead _ _) _).passed _ _ _ _

theorem State.Kept.storeAccess (v : VView) (r : VecRegs) (a : VReg) (mode : StoreMode) (cls : Cls) (y : Bool) (ins : Option Nat)
    (u : Nat) (p : VAccess) : (s.storeAccess v r a mode cls y ins u p).Kept :=
  State.Kept.storeParts _ _ _ _ _ _ _ _ _ _ _ h _

theorem State.Kept.storeUnit (v : VView) (r : VecRegs) (a : VReg) (mode : StoreMode) (cls : Cls) (y : Bool) (ins : Option Nat)
    (g : Nat × List VAccess) : (s.storeUnit v r a mode cls y ins g).Kept :=
  State.Kept.foldl (fun _ _ hs => hs.storeAccess _ _ _ _ _ _ _ _ _) _ h

theorem State.Kept.storeUnits (v : VView) (r : VecRegs) (a : VReg) (mode : StoreMode) (cls : Cls) (y : Bool) (ins : Option Nat)
    (l : List (Nat × List VAccess)) : (l.foldl (State.storeUnit v r a mode cls y ins) s).Kept :=
  State.Kept.foldl (fun _ _ hs => hs.storeUnit _ _ _ _ _ _ _ _) _ h

theorem State.Kept.scLoad (v : VView) (q : VUnit) (r : List (Nat × Nat) × State) (e : s.scLoad v q = .ok r) : r.2.Kept := by
  unfold State.scLoad at e
  dsimp only at e
  split at e
  · cases e
  · cases e
    exact State.Kept.drainSeen _ _ _ (h.calm (t := s.ticket) rfl)

theorem State.Kept.scStore (v : VView) (x : VecRegs) (d : VReg) (cls : Cls) (q : VUnit) (r : List (Nat × Nat) × State)
    (e : s.scStore v x d cls q = .ok r) : r.2.Kept := by
  cases e
  exact (((h.calm (t := s.ticket) rfl).storeUnit _ _ _ _ _ _ _ _).loseUnreachable _).drainAll _

/-! ### Vector memory instructions -/

theorem keeps_orderedAll (cls : Cls) (ks : List (Nat × Nat)) {k : State → Out} (hk : ∀ t : State, t.Kept → Keeps (k t)) :
    Keeps (orderedAll cls ks s k) := .ite (hk _ h) (keeps_ordered h _ _ _ hk)

theorem Scan.keeps_ordered (q : Scan) (cls : Cls) {k : State → Out} (hk : ∀ t : State, t.Kept → Keeps (k t)) :
    Keeps (q.ordered cls s k) := .ite (hk _ (h.orderHome _ _ _)) (keeps_orderedAll h _ _ hk)

theorem keeps_faultUnit (f : UnitFault) (acc : Access) : Keeps (faultUnit f acc s) := keeps_faultOf (h.modMe _) _ _ _ _

theorem keeps_vload (f : VForm) (ff : Bool) (d : VReg) (a : XReg) (cls : Cls) (e y : Bool) (m : MReg) :
    Keeps (vload f ff d a cls e y m s) := by
  refine keeps_vector h fun v r => Scan.keeps_ordered (h.modMe _) _ _ fun t ht => ?_
  have h1 := ht.loadUnits v cls e y
  split
  · exact keeps_faultUnit ((h1 _).modMe _) _ _
  · exact ((h1 _).modMe _).modMe _
  · exact (h1 _).modMe _

theorem keeps_vstore (f : VForm) (mode : StoreMode) (d : VReg) (a : XReg) (cls : Cls) (e y : Bool) (m : MReg) :
    Keeps (vstore f mode d a cls e y m s) := by
  refine keeps_vector h fun v r => Scan.keeps_ordered (h.modMe _) _ _ fun t ht => ?_
  have h1 := fun ins l p ks => (ht.storeUnits v r d mode cls y ins l).passed .p1 cls p ks
  dsimp only
  split
  · refine keeps_faultUnit (.ite (h1 _ _ _ _) ?_) _ _
    exact State.Kept.storeRest _ _ _ _ _ _ _ (fun _ _ ht => ht.storeUnit _ _ _ _ _ _ _ _) (h1 _ _ _ _) _
  · exact (h1 _ _ _ _).modMe _
  · exact (h1 _ _ _ _).modMe _

theorem keeps_probing (v : VView) (acc : Access) (plan : List VUnit) {k : State → Out} (hk : ∀ t : State, t.Kept → Keeps (k t)) :
    Keeps (probing v acc plan s k) := by
  refine .ite (hk _ h) ?_
  split
  · exact keeps_faultOf h _ _ _ _
  · exact hk _ (h.modMe _)

theorem keeps_vsc (store : Bool) (d : VReg) (a : XReg) (cls : Cls) (m : MReg) : Keeps (vsc store d a cls m s) := by
  refine keeps_vector h fun v r => .ite (h.modMe _) (keeps_probing h _ _ _ fun _ h1 => keeps_fenced h1 _ fun t ht => ?_)
  have hrun := ht.scRun (one := fun s q => if store then s.scStore v r d cls q else s.scLoad v q) (fun s q o hs e => by
    split at e
    · exact hs.scStore _ _ _ _ _ _ e
    · exact hs.scLoad _ _ _ e)
  dsimp only
  split
  · exact keeps_faultUnit (.ite (hrun _) ((hrun _).modMe _)) _ _
  · split
    · exact (hrun _).modMe _
    · exact State.Kept.modMe (.ite (hrun _) ((hrun _).modMe _)) _

theorem keeps_vamo (far cas : Bool) (ok : VView → Bool) (f : VView → Nat → Nat → Nat → Nat) (d : VReg) (a : XReg) (ix : VReg)
    (cls : Cls) (m : MReg) : Keeps (vamo far cas ok f d a ix cls m s) := by
  refine keeps_vector h fun v r => ?_
  dsimp only
  split
  · exact keeps_faultAt h _ _ _
  · next es _ =>
    refine keeps_orderedAll h _ _ fun t ht => ?_
    have h1 : ∀ sc ks, (if es.isEmpty then t else t.beforeAtomic .p1 sc cls ks).Kept :=
      fun sc ks => .ite ht (ht.beforeAtomic _ _ _ _)
    split
    · exact keeps_faultAt (State.Kept.amoSome _ _ _ _ _ (h1 _ _) _) _ _ _
    · exact (State.Kept.amoAll _ _ _ _ (h1 _ _) _).modMe _

/-! ### Graver instructions -/

theorem keeps_graveTrap (g : BitVec 20) (tval : Word) : Keeps (graveTrap g tval s) := (h.modMe _).deliverAt _ _ _

theorem keeps_graveSlot (slot : Fin 4) (tval : Word) : Keeps (graveSlot slot tval s) := keeps_graveTrap h _ _

theorem keeps_execGload (slot : Fin 4) (a : XReg) : Keeps (execGload slot a s) := by
  refine keeps_threadOnly h (keeps_readsX h _ ?_)
  dsimp only
  split
  · exact keeps_trap h _ _
  · exact keeps_rangeOn h _ _ _ _ fun _ _ h1 => .ite (keeps_graveSlot h1 _ _)
      (keeps_rangeOn h1 _ _ _ _ fun _ _ h2 => .ite (keeps_graveSlot h2 _ _) (h2.modMe _).finish)

theorem keeps_execGset (slot : Fin 4) (a b : XReg) : Keeps (execGset slot a b s) := by
  refine keeps_threadOnly h (keeps_readsX h _ ?_)
  split
  · exact keeps_graveSlot h _ _
  · split
    · exact keeps_graveSlot h _ _
    · exact (h.modMe _).finish

theorem keeps_grun (d a : VReg) (b : Option VReg) (slot : Fin 4) (m : MReg) : Keeps (grun d a b slot m s) := by
  refine keeps_vector h fun v r => .ite (h.modMe _) ?_
  split
  · exact keeps_graveSlot h _ _
  · dsimp only
    split
    · exact h.modMe _
    · exact (h.modMe _).modMe _
    · exact keeps_graveTrap ((h.modMe _).modMe _) _ _

theorem keeps_execGcmp (d : MReg) (slot : Fin 4) (k : BitVec 3) (m : MReg) : Keeps (execGcmp d slot k m s) := by
  refine keeps_vector h fun v r => .ite (h.modMe _) ?_
  split
  · exact keeps_graveSlot h _ _
  · exact h.modMe _

theorem keeps_execGfin (d : VReg) (slot : Fin 4) (m : MReg) : Keeps (execGfin d slot m s) := by
  refine keeps_vector h fun v r => .ite (h.modMe _) ?_
  split
  · exact keeps_graveSlot h _ _
  · exact h.modMe _

theorem keeps_execGstateR (d : VReg) : Keeps (execGstateR d s) := keeps_vector h fun _ _ => h.modMe _
theorem keeps_execGstateW (b : VReg) : Keeps (execGstateW b s) := keeps_vector h fun _ _ => h.modMe _

/-! ### The matrix queue -/

theorem keeps_enter (op : MatOp) (slot : Option (Fin 4)) (a b : Word) : Keeps (enter op slot a b s) :=
  .ite h (h.modCluster _ _).finish

theorem keeps_execMwait (n : Fin 8) : Keeps (execMwait n s) := keeps_bureauOnly h (.ite h.finish h)

theorem keeps_execPload (slot : Fin 4) (a : XReg) : Keeps (execPload slot a s) := by
  refine keeps_bureauOnly h (keeps_readsX h _ ?_)
  dsimp only
  split
  · exact keeps_trap h _ _
  · refine keeps_rangeOn h _ _ _ _ fun _ _ h1 => .ite (keeps_trap h1 _ _) (keeps_rangeOn h1 _ _ _ _ fun _ _ h2 => ?_)
    split
    · exact keeps_trap h2 _ _
    · exact (h2.modCluster _ _).finish

theorem State.Kept.matrixFault (b : Context) (k : Cause) (at_ : Word) (va : Option Word) : (s.matrixFault b k at_ va).Kept := by
  have h2 := ((h.modCluster b.cl (fun c => { c with mq := [] })).focus b.uid).modMe
    (fun c => if c.status = .waitingPage then { c with status := .running } else c)
  refine State.Kept.focus (State.Kept.deliverAt (.ite ?_ h2) _ _ _) _
  split
  · exact h2.logPoison _
  · exact h2.logDatum

theorem State.Kept.setMq (cl : Fin 64) (l : List MatEntry) : (s.setMq cl l).Kept := h.modCluster _ _

theorem keeps_execMatrixStart (cl : Fin 64) : Keeps (execMatrixStart cl s) := by
  unfold execMatrixStart
  split
  · exact h
  · dsimp only
    split
    · exact h
    · refine .ite h ?_
      split
      · exact h
      · exact .ite (h.matrixFault _ _ _ _) h
      · exact h.setMq _ _

theorem keeps_execHandoffFlagEmptied (cl : Fin 64) : Keeps (execHandoffFlagEmptied cl s) := by
  unfold execHandoffFlagEmptied
  dsimp only
  split
  · exact h
  · split
    · exact h
    · exact (h.setFlag _ _ _).setMq _ _

theorem State.Kept.orFlags (uid : Nat) (f : FlagSet) : (s.orFlags uid f).Kept := h.modContext _ _
theorem State.Kept.chestApply (cl : Fin 64) (k : MulMode) (l : List (Nat × Word)) : (s.chestApply cl k l).1.Kept := h.modCluster _ _
theorem State.Kept.zeroTile (cl : Fin 64) (q : Fin 8) : (s.zeroTile cl q).Kept := h.modCluster _ _
theorem State.Kept.groupDone (cl : Fin 64) (ff : FlagSet) : (s.groupDone cl ff).Kept := h.modCluster _ _
theorem State.Kept.mmagZero (cl : Fin 64) (c : MxCtl) (r : MatRun) : (s.mmagZero cl c r).Kept :=
  .ite h (State.Kept.modCluster (.ite (h.zeroTile _ _) h) _ _)
theorem State.Kept.zeroFirst (cl : Fin 64) (c : MxCtl) (r : MatRun) : (s.zeroFirst cl c r).Kept := .ite (h.zeroTile _ _) h

theorem keeps_execMmagGroupComplete (cl : Fin 64) : Keeps (execMmagGroupComplete cl s) := by
  unfold execMmagGroupComplete
  split
  · refine .ite h ?_
    split
    · exact h
    · have h1 := fun c r => h.mmagZero cl c r
      refine .ite ((h1 _ _).groupDone _ _) ?_
      split
      · exact (h1 _ _).matrixFault _ _ _ _
      · exact .ite ((h1 _ _).matrixFault _ _ _ _) (((h1 _ _).chestApply _ _ _).groupDone _ _)
  · exact h

theorem State.Kept.engineStep (cl : Fin 64) (i : Nat) : (s.engineStep cl i).Kept := by
  have one : ∀ (c : MxCtl) (r : MatRun), State.Kept (match r.steps[i]? with
      | none => s
      | some p =>
        let s1 := s.zeroFirst cl c r
        if s1.chestBad cl [p] then s
        else
          let q := s1.chestApply cl ⟨r.int, .rne, c.sat⟩ [p]
          q.1.setMq cl ((q.1.clusters[cl]).mq.modify 0 (fun e => e.modRun (fun r =>
            { r with steps := r.steps.eraseIdx i, ff := r.ff ||| q.2, zeroed := true })))) := by
    intro c r
    split
    · exact h
    · exact .ite h (((h.zeroFirst _ _ _).chestApply _ _ _).setMq _ _)
  unfold State.engineStep
  split
  · split
    · exact one _ _
    · exact one _ _
    · exact h
  · exact h

theorem State.Kept.completeEntry (b : Context) (i : Nat) (e : MatEntry) : KeptIfAny (s.completeEntry b i e) := by
  have h1 := h.modCluster b.cl (fun c => { c with mq := c.mq.eraseIdx i })
  unfold State.completeEntry
  split
  · exact .none
  · refine .ite .none ?_
    have mul : ∀ (c : MxCtl) (r : MatRun), KeptIfAny (
        let s2 := (s.modCluster b.cl (fun c => { c with mq := c.mq.eraseIdx i })).zeroFirst b.cl c r
        if s2.chestBad b.cl r.steps then some (s.matrixFault b .poison e.addr none)
        else
          let q := s2.chestApply b.cl ⟨r.int, .rne, c.sat⟩ r.steps
          some (q.1.orFlags b.uid (r.ff ||| q.2))) := fun c r =>
      .ite (.some (h.matrixFault _ _ _ _)) (.some (((h1.zeroFirst _ _ _).chestApply _ _ _).orFlags _ _))
    split
    · exact .mapOf _ fun _ => h1.modCluster _ _
    · exact mul _ _
    · exact mul _ _
    · exact .ite .none (.some ((h1.zeroFirst _ _ _).orFlags _ _))
    · exact .some (h1.zeroTile _ _)

theorem keeps_execMatrixComplete (cl : Fin 64) : Keeps (execMatrixComplete cl s) := by
  unfold execMatrixComplete
  split
  · exact h
  · dsimp only
    split
    · exact h
    · exact (h.tick.completeEntry _ _ _).getD h.tick

theorem keeps_execTdrain (d : VReg) (q : Fin 8) (code : BitVec 5) (a : XReg) (slot : Fin 4) (t c iv : Bool) :
    Keeps (execTdrain d q code a slot t c iv s) :=
  keeps_vector h fun _ _ => .ite (keeps_trap h _ _) (.ite (keeps_trap h _ _) (.ite (keeps_trap h _ _)
    (.ite (keeps_poisonReg h) (h.modMe _))))

theorem keeps_execTfill (q : Fin 8) (b : VReg) (a : XReg) : Keeps (execTfill q b a s) :=
  keeps_vector h fun _ _ => .ite (keeps_trap h _ _) (.ite (keeps_trap h _ _) ((h.modCluster _ _).modMe _))

end

end Sys2Proof.Machine
end


section
/-! PROOFS. The canonical form and the numbering (10 R139; 11 R161) over the loader (20 R318) and over every instruction, issue
group and step. -/

namespace Sys2Proof.Machine

/-! ### The loader -/

/-- The loader's answer, if there is one, leaves a canonical and numbered state. -/
def PlacedIfAny (o : Option (Nat × Placing)) : Prop := ∀ r, o = some r → r.2.s.Kept

theorem PlacedIfAny.mapOf {o : Option (Nat × Placing)} (h : PlacedIfAny o) {f : Nat × Placing → Nat × Placing}
    (hf : ∀ r : Nat × Placing, r.2.s.Kept → (f r).2.s.Kept) : PlacedIfAny (o.map f) := by
  intro r e
  obtain ⟨q, hq, rfl⟩ := Option.map_eq_some_iff.mp e
  exact hf q (h q hq)

section
variable {p : Placing} (h : p.s.Kept)
include h

theorem Placing.frame_kept : PlacedIfAny p.frame := by
  intro r e
  unfold Placing.frame at e
  split at e
  · cases e; exact h
  · cases e

theorem Placing.table_kept : PlacedIfAny p.table :=
  (Placing.frame_kept h).mapOf fun _ hr => State.Kept.pokeKey _ _ _ hr

theorem Placing.below_kept (at_ : Nat) : PlacedIfAny (p.below at_) := by
  unfold Placing.below
  dsimp only
  split
  · exact (Placing.table_kept h).mapOf fun _ hr => State.Kept.pokeKey _ _ _ hr
  · split
    · exact fun _ e => nomatch e
    · exact fun _ e => by cases e; exact h

theorem Placing.root_kept (fn sp : Fin 256) : PlacedIfAny (p.root fn sp) := by
  unfold Placing.root
  dsimp only
  split
  · exact fun _ e => by cases e; exact h
  · exact (Placing.table_kept h).mapOf fun _ hr => hr.modSpace _ _ _

theorem Placing.page_kept (fn sp : Fin 256) (ki va perm : Nat) (bs : List Byte) {q : Placing}
    (e : Placing.page fn sp ki p va perm bs = some q) : q.s.Kept := by
  unfold Placing.page at e
  split at e
  · cases e
  · obtain ⟨⟨t1, p1⟩, e1, e⟩ := Option.bind_eq_some_iff.mp e
    obtain ⟨⟨t2, p2⟩, e2, e⟩ := Option.bind_eq_some_iff.mp e
    obtain ⟨⟨t3, p3⟩, e3, e⟩ := Option.bind_eq_some_iff.mp e
    have h1 : p1.s.Kept := Placing.root_kept h fn sp _ e1
    have h2 : p2.s.Kept := Placing.below_kept h1 _ _ e2
    have h3 : p3.s.Kept := Placing.below_kept h2 _ _ e3
    dsimp only at e
    split at e
    · cases e
    · obtain ⟨⟨f, p4⟩, e4, e⟩ := Option.bind_eq_some_iff.mp e
      have h4 : p4.s.Kept := Placing.frame_kept h3 _ e4
      cases e
      exact State.Kept.pokeKey _ _ _ (State.Kept.pokeKey _ _ _ h4)

omit h in
theorem Placing.pages_kept (fn sp : Fin 256) (ki : Nat) (l : List (Nat × Nat × List Byte)) {p q : Placing} (h : p.s.Kept)
    (e : l.foldlM (fun p (va, perm, bs) => Placing.page fn sp ki p va perm bs) p = some q) : q.s.Kept := by
  induction l generalizing p with
  | nil => cases e; exact h
  | cons x l ih =>
    rw [List.foldlM_cons] at e
    obtain ⟨p1, e1, e⟩ := Option.bind_eq_some_iff.mp e
    exact ih (Placing.page_kept h _ _ _ _ _ _ e1) e

end

section
variable {s : State} (h : s.Kept)
include h

theorem State.Kept.placeObject (fn sp : Fin 256) (frame : Nat) (l : List LoadedSection) {t : State}
    (e : s.placeObject fn sp frame l = some t) : t.Kept := by
  obtain ⟨k, _, e⟩ := Option.bind_eq_some_iff.mp e
  obtain ⟨q, hq, rfl⟩ := Option.map_eq_some_iff.mp e
  exact Placing.pages_kept fn sp _ _ (p := ⟨s, frame⟩) h hq

theorem keeps_execObjectLoad (r : LoadOrder) : Keeps (execObjectLoad r s) := by
  unfold execObjectLoad
  split
  · exact h
  · split
    · exact Keeps.next h rfl
    · split
      · exact h
      · next t e => exact Keeps.next (h.placeObject _ _ _ _ e) rfl

theorem State.Kept.toolObject (r : Except ToolError (List Byte)) : (s.toolObject r).Kept := h.calm rfl

theorem keeps_execFjasAssembly (n : Nat) : Keeps (execFjasAssembly n s) := by
  unfold execFjasAssembly
  split
  · exact h
  · exact h.toolObject _

theorem keeps_execObjectLink (n : Nat) : Keeps (execObjectLink n s) := by
  unfold execObjectLink
  split
  · exact h
  · split
    · exact h.toolObject _
    · exact h.toolObject _

/-! ### Every instruction -/

/-- Every instruction but the issue group of a block, whose own instruction is one of these. -/
theorem keeps_exec_apart (i : Instr) (hi : i ≠ .vfetchIssueGroup) : Keeps (exec i s) := by
  cases i with dsimp only [exec]
  | vaddVv | vaddVx | vaddVi | vsubVv | vsubVx | vsubVi | vmulVv | vmulVx | vmulVi | vmulhVv | vmulhVx | vmulhVi | vmaccVv
  | vmaccVx | vmaccVi | vdivVv | vdivVx | vdivVi | vremVv | vremVx | vremVi | vminVv | vminVx | vminVi | vandVv | vandVx
  | vandVi | vorVv | vorVx | vorVi | vxorVv | vxorVx | vxorVi | vshlVv | vshlVx | vshlVi | vshrVv | vshrVx | vshrVi | vsraVv
  | vsraVx | vsraVi | vsaddVv | vsaddVx | vsaddVi | vssubVv | vssubVx | vssubVi | vmaxVv | vmaxVx | vmaxVi | vfaddVv | vfaddVx
  | vfsubVv | vfsubVx | vfmulVv | vfmulVx | vfmaccVv | vfmaccVx | vfnmsacVv | vfnmsacVx | vfdivVv | vfdivVx | vfminVv
  | vfminVx | vfmaxVv | vfmaxVx | vfsqrt | vfclass | vexp2 | vlog2 | vrcp | vrsq | vsin | vcos => exact keeps_eltwise h ..
  | vcmpVv | vcmpVx | vcmpVi => exact keeps_vcmp h ..
  | vfcmpVv | vfcmpVx => exact keeps_eltcmp h ..
  | vfcvtTo | vfcvtFrom => exact keeps_vfcvt h ..
  | vmvVv | vpermVv => exact keeps_moving h ..
  | vslideupVx | vslidednVx | vslideupVi | vslidednVi => exact keeps_slide h ..
  | vmergeVv | vmergeVx | vmergeVi => exact keeps_vmerge h ..
  | viota => exact keeps_execViota h ..
  | vextx => exact keeps_execVextx h ..
  | vinsx => exact keeps_execVinsx h ..
  | vbcastVx | vbcastVi => exact keeps_broadcast h ..
  | vred | vfredO | vfredT | vfredMin | vfredMax => exact keeps_reduction h ..
  | mand | mor | mxor | mnot | mmv => exact keeps_maskOp h ..
  | mpopc | mfirst => exact keeps_maskCount h ..
  | vcompress | vcompressVl | vcompressKeepnf | vcompressKeepnfVl => exact keeps_vcompress h ..
  | vexpand => exact keeps_execVexpand h ..
  | vppopc | vconfl | vrank | vkcount => exact keeps_overActive h ..
  | vnfblk => exact keeps_execVnfblk h ..
  | vscanAdd | vscanMin | vscanMax | vscanFadd => exact keeps_vscan h ..
  | vstop => exact keeps_execVstop h ..
  | vpid | vrand => exact keeps_byIndex h ..
  | vfetch => exact keeps_execVfetch h ..
  | vpj => exact keeps_execVpj h ..
  | vld | vlds | vldx | vldf => exact keeps_vload h ..
  | vst | vsts | vstx | vstG | vstxG => exact keeps_vstore h ..
  | vldSc | vstSc => exact keeps_vsc h ..
  | vamoAdd | vamoAnd | vamoOr | vamoXor | vamoMin | vamoMax | vamoMinn | vamoMaxn | vamoSwap | vamoCas | vamoFadd | vamoFAdd
  | vamoFAnd | vamoFOr | vamoFXor | vamoFMin | vamoFMax | vamoFMinn | vamoFMaxn | vamoFSwap | vamoFCas | vamoFFadd =>
    exact keeps_vamo h ..
  | add | sub | mul | mulh | mulhn | div | divn | rem | remn | and | or | xor | shl | shr | sra | min | max | minn | maxn
  | slt | sltn | sel | clz | ctz | popc | brev | addi | andi | ori | xori | shli | shri | srai | slti | lih | adpc | cAdd
  | cSub | cAnd | cOr | cXor | cAddi | cShli | cShri | cMov | cLi => exact keeps_alu h ..
  | fadd | fsub | fmul | ffma | fdiv | fmin | fmax | fsqrt | fcvt | fclass | fcmp => exact keeps_fpOp h ..
  | ld => exact keeps_execLd h ..
  | st | stG => exact keeps_scalarStore h ..
  | amoAdd | amoAnd | amoOr | amoXor | amoMin | amoMax | amoMinn | amoMaxn | amoSwap | amoCas => exact keeps_amo h ..
  | amoqpop | amoqsteal => exact keeps_amoq h ..
  | beq | bne | blt | bge | bltn | bgen | cBnez | cBeqz => exact keeps_branch h ..
  | jal | yield => exact h.modMe _
  | jalr => exact keeps_execJalr h ..
  | calli => exact keeps_execCalli h ..
  | cmark | cNop => exact h.finish
  | trap | illegalEncoding => exact keeps_trap h ..
  | srd => exact keeps_execSrd h ..
  | swr => exact keeps_execSwr h ..
  | erd => exact keeps_execErd h ..
  | tret => exact keeps_execTret h ..
  | fencei => exact keeps_execFencei h ..
  | exit => exact keeps_execExit h ..
  | join => exact keeps_execJoin h ..
  | leave => exact keeps_execLeave h ..
  | ctail => exact keeps_execCtail h ..
  | lreq => exact keeps_execLreq h ..
  | vsetvl | vsetvli => exact keeps_vsetvl h ..
  | fenceC => exact keeps_execFenceC h ..
  | fenceP => exact keeps_execFenceP h ..
  | fenceS => exact keeps_execFenceS h ..
  | fenceA => exact keeps_execFenceA h ..
  | bwait => exact keeps_execBwait h ..
  | hpost => exact keeps_execHpost h ..
  | hwait => exact keeps_execHwait h ..
  | hfset => exact keeps_execHfset h ..
  | hfsetBare => exact keeps_execHfsetBare h ..
  | hfsetClr => exact keeps_execHfsetClr h ..
  | hfwait => exact keeps_execHfwait h ..
  | cpy => exact keeps_execCpy h ..
  | cpy2 => exact keeps_execCpy2 h ..
  | cpyx => exact keeps_execCpyx h ..
  | twaitall | twaitany | tfirst => exact keeps_tagWait h ..
  | coll => exact keeps_execColl h ..
  | gath | mmag => exact keeps_bureauOnly h (keeps_readsX h _ (keeps_enter h ..))
  | mmaGr | mmaRg | mzero => exact keeps_bureauOnly h (keeps_enter h ..)
  | mwait => exact keeps_execMwait h ..
  | pload => exact keeps_execPload h ..
  | matrixStart => exact keeps_execMatrixStart h ..
  | handoffFlagEmptied => exact keeps_execHandoffFlagEmptied h ..
  | mmagGroupComplete => exact keeps_execMmagGroupComplete h ..
  | matrixComplete => exact keeps_execMatrixComplete h ..
  | tdrain => exact keeps_execTdrain h ..
  | tfill => exact keeps_execTfill h ..
  | gload => exact keeps_execGload h ..
  | gset => exact keeps_execGset h ..
  | gstateR => exact keeps_execGstateR h ..
  | gstateW => exact keeps_execGstateW h ..
  | grun | grun1 => exact keeps_grun h ..
  | gcmp => exact keeps_execGcmp h ..
  | gfin => exact keeps_execGfin h ..
  | unimpl => exact keeps_execUnimpl h ..
  | cvAdd | cvFadd | cvFmul | cvFmacc => exact keeps_notInBlock h (keeps_eltwise h ..)
  | cvMv => exact keeps_notInBlock h (keeps_moving h ..)
  | pagePresent => exact keeps_execPagePresent h ..
  | pageFail => exact keeps_execPageFail h ..
  | vectorQueueIssue => exact keeps_execVectorQueueIssue h ..
  | mmioRegisterWrite => exact keeps_execMmioRegisterWrite h ..
  | qtailWrite => exact keeps_execQtailWrite h ..
  | qctlWrite => exact keeps_execQctlWrite h ..
  | qstatClear => exact keeps_execQstatClear h ..
  | asshootWrite => exact keeps_execAsshootWrite h ..
  | shootDownDone => exact keeps_execShootDownDone h ..
  | pageWalkFill => exact keeps_execPageWalkFill h ..
  | queueEntryRead => exact keeps_execQueueEntryRead h ..
  | launchAdmission => exact keeps_execLaunchAdmission h ..
  | launchAccept => exact keeps_execLaunchAccept h ..
  | waitOnValueCheck => exact keeps_execWaitOnValueCheck h ..
  | signalEntry => exact keeps_execSignalEntry h ..
  | queueEntryComplete => exact keeps_execQueueEntryComplete h ..
  | threadPlacement => exact keeps_execThreadPlacement h ..
  | coscheduledPlacement => exact keeps_execCoscheduledPlacement h ..
  | launchCompletion => exact keeps_execLaunchCompletion h ..
  | segmentRelease => exact keeps_execSegmentRelease h ..
  | periodTurn => exact keeps_execPeriodTurn h ..
  | energyCharge => exact keeps_execEnergyCharge h ..
  | contextSwapOut => exact keeps_execContextSwapOut h ..
  | contextResume => exact keeps_execContextResume h ..
  | bureauContextSwitch => exact keeps_execBureauContextSwitch h ..
  | copyPiece => exact keeps_execCopyPiece h ..
  | copyComplete => exact keeps_execCopyComplete h ..
  | collComplete => exact keeps_execCollComplete h ..
  | storeApply => exact keeps_execStoreApply h ..
  | storeVisibleOnDie => exact keeps_execStoreVisibleOnDie h ..
  | storeAcknowledge => exact keeps_execStoreAcknowledge h ..
  | globalStoreApply => exact keeps_execGlobalStoreApply h ..
  | ackLossDetection => exact keeps_execAckLossDetection h ..
  | linkFailure => exact keeps_execLinkFailure h ..
  | uncorrectableError => exact keeps_execUncorrectableError h ..
  | patrolScrub => exact keeps_execPatrolScrub h ..
  | monitorSample => exact keeps_execMonitorSample h ..
  | mctlWrite => exact keeps_execMctlWrite h ..
  | packageReportRequest => exact h.calm (t := { s.tick with notes := _ }) rfl
  | keyLoad => exact keeps_execKeyLoad h ..
  | keyClear => exact h.clearKey _
  | keyRelease => exact keeps_execKeyRelease h ..
  | packageBoot => exact keeps_execPackageBoot h ..
  | dieRelease => exact keeps_execDieRelease h ..
  | firmwareUpdate => exact keeps_execFirmwareUpdate h ..
  | dieReset | overtempReset => exact h.resetDie _
  | functionLevelReset => exact keeps_execFunctionLevelReset h ..
  | thermalThrottle => exact keeps_execThermalThrottle h ..
  | objectLoad => exact keeps_execObjectLoad h ..
  | objectLink => exact keeps_execObjectLink h ..
  | storeVisibleToPath => exact keeps_execStoreVisibleToPath h ..
  | lineWriteBack => exact keeps_execLineWriteBack h ..
  | correctedError => exact h.modDie _ _
  | linkRecovery => exact (h.modDie _ _).modDie _ _
  | linkRetransmission => exact h
  | fabricBringUp => exact h.calm (t := { s with fw := _ }) rfl
  | hostWrite => exact keeps_execHostWrite h ..
  | fjasAssembly => exact keeps_execFjasAssembly h ..
  | vfetchIssueGroup => exact absurd rfl hi

/-! ### Issue groups, the vector issue queue and steps -/

omit h in
/-- A block runs an instruction as outside one, or traps ILL (02 R19). -/
theorem blockExec_eq_exec_or_trapIll (i : Instr) (s : State) : blockExec i s = exec i s ∨ blockExec i s = trapIll s := by
  cases i <;> dsimp only [blockExec, exec] <;> simp only [true_or, or_true]

theorem keeps_blockExec (i : Instr) : Keeps (blockExec i s) := by
  by_cases hi : i = .vfetchIssueGroup
  · subst hi
    exact keeps_trapIll h
  · rcases blockExec_eq_exec_or_trapIll i s with e | e <;> rw [e]
    · exact keeps_exec_apart h i hi
    · exact keeps_trapIll h

theorem keeps_runGroup (w : BitVec 32) : Keeps (runGroup w s) := by
  unfold runGroup
  split
  · exact keeps_blockExec h _
  · exact .ite (keeps_execUnimpl h _) (keeps_trapIll h)

theorem keeps_execVfetchIssueGroup : Keeps (execVfetchIssueGroup s) := by
  unfold execVfetchIssueGroup
  split
  · exact h
  · next b _ =>
    refine .ite h ?_
    split
    · exact h.modMe _
    · next p _ =>
      have h1 := h.modMe (fun c => c.selectGroup b p)
      dsimp only
      split
      · exact keeps_faultAt h1 _ _ _
      · exact keeps_trapIll h1
      · next w _ =>
        have hw := keeps_runGroup h1 w
        split
        · next t e =>
          rw [e] at hw
          exact State.Kept.modMe hw _
        · exact hw

theorem keeps_exec (i : Instr) : Keeps (exec i s) := by
  by_cases hi : i = .vfetchIssueGroup
  · subst hi
    exact keeps_execVfetchIssueGroup h
  · exact keeps_exec_apart h i hi

omit h in
theorem keeps_enterVq (s : State) (e : VqEntry) {o : Out} (ho : Keeps o) : Keeps (s.enterVq e o) := by
  unfold State.enterVq
  split
  · exact State.Kept.ite (State.Kept.modMe ho _) ho
  · exact ho

theorem State.Kept.idleSlots (n : Nat) : (s.idleSlots n).Kept := h.modMe _

theorem keeps_issue (c : Code) (i j : Instr) : Keeps (s.issue c i (exec j)) := by
  have hg := fun ps => h.grantRound .loadStore ps
  unfold State.issue
  refine .ite (.ite (h.idleSlots _) (keeps_enterVq _ _ (keeps_exec h _))) (.ite ?_ (keeps_exec h _))
  exact .ite (((hg _).headGranted _ _).idleSlots _) (keeps_exec (hg _) _)

theorem keeps_stepContext : Keeps (stepContext s) := by
  unfold stepContext
  refine .ite h (.ite ?_ ?_)
  · split
    · exact keeps_issue h _ _ _
    · exact keeps_exec h _
  · split
    · exact keeps_faultAt h _ _ _
    · exact keeps_issue h _ _ _

theorem keeps_step : Keeps (step s) := by
  have turn : ∀ r, State.Kept { s with sched := r } := fun r => h.calm rfl
  unfold step
  split
  · exact (turn _).focus _
  · exact .ite (keeps_exec (turn _) _) (turn _)
  · exact (turn _).prefetch _
  · exact (turn _).idleSlots _
  · exact (turn _).engineStep _ _
  · exact (turn _).chargeTraffic _ _ _ _ _
  · exact (turn _).loadAhead _ _ _ _
  · exact (turn _).modMe _
  · exact (turn _).startWalk _ _ _ _
  · exact (turn _).hostRead _ _ _
  · exact (turn _).readFlr _
  · exact (turn _).assign _
  · exact keeps_stepContext h

end

/-- Settles O6: canonical form and numbering are kept by every operation on memory and on the pending stores, hence by every
instruction and every turn of the schedule. -/
theorem stepKeepsCanonical : Obligations.StepKeepsCanonical := by
  unfold Obligations.StepKeepsCanonical
  intro s t hc hn e
  have h : Keeps (step s) := keeps_step ⟨hc, hn⟩
  rw [e] at h
  exact h

end Sys2Proof.Machine
end


section
/-! PROOFS. FENCE.C when a globally acknowledged store cannot reach its home (10 R142; 11 R164): the statement about fences has
no hypothesis that excludes the loss. -/

namespace Sys2Proof.Machine

/-- After reset a thread runs on die 0, all links of that die have failed, and a globally acknowledged store of the thread to a
byte whose home is die 1 is under way. -/
def strandedStore : State := { State.reset with
  me := Context.start 0 .thread 0 0
  dies := State.reset.dies.set 0 { Die.reset with up := Vector.replicate 4 false }
  stores := [⟨1, some 0, none, 0, 0, .p0, 0, false, 0x10000, [(2 ^ 36, 7)], none, none, .glob, 1, 0, false, 0,
    false, false, false, false⟩]
  nextId := 2 }

/-- The state is in canonical form and numbered, and its store goes to the home of its byte. -/
theorem strandedStore_kept : strandedStore.Kept ∧ homeOf (2 ^ 36) = 1 := by
  refine ⟨⟨?_, ?_⟩, by decide⟩
  · unfold State.Canonical; decide +kernel
  · unfold State.Numbered; decide +kernel

/-- FENCE.C finds the store's home out of reach: the storing context counts the loss in AKREC (11 R164). -/
theorem fenceC_strandedStore :
    ∃ t, exec (.fenceC 1) strandedStore = .next t ∧ t.me.sys.akrec = 1 ∧ strandedStore.me.sys.akrec = 0 := by
  refine ⟨_, rfl, by decide +kernel, by decide +kernel⟩

/-- Refutes O40: FENCE.C of a class in which a globally acknowledged store of the context can no longer reach its home counts that
loss in AKREC, where the statement leaves of the context all but the pc and the loads made ahead unchanged. Its part about FENCE.C,
and that about FENCE.P, want the hypothesis `NoneLost` that the others have. -/
theorem not_fencesAndReleases : ¬ Obligations.FencesAndReleases := by
  unfold Obligations.FencesAndReleases
  intro h
  obtain ⟨t, e, hme, _⟩ := (h.1 strandedStore 1 0 0 .c).1
  obtain ⟨u, e', hu, hs⟩ := fenceC_strandedStore
  obtain rfl : t = u := Host.Outcome.next.inj (e.symm.trans e')
  have hk : t.me.sys.akrec = strandedStore.me.sys.akrec := congrArg (fun c => c.sys.akrec) hme
  rw [hu, hs] at hk
  exact absurd hk (by decide)

end Sys2Proof.Machine
end

section
/-! PROOFS. A change of one pending store: where its record goes in the list, and what observers then read (10 R139; 11 R158,
R161). -/

namespace Sys2Proof.Machine

/-! ### The bytes of a record -/

theorem StoreRec.byteAt_eq_none {r : StoreRec} {k : Nat} : r.byteAt k = none ↔ ∀ c ∈ r.bytes, c.1 ≠ k := by
  simp [StoreRec.byteAt]

theorem StoreRec.Distinct.byteAt {r : StoreRec} (h : r.Distinct) {c : Host.Cell} (hc : c ∈ r.bytes) : r.byteAt c.1 = some c.2 := by
  cases hf : r.bytes.find? (fun d => d.1 == c.1) with
  | none => simpa using List.find?_eq_none.mp hf c hc
  | some d =>
    have hkey : d.1 = c.1 := by simpa using List.find?_some hf
    have hdc : d = c := List.inj_on_of_nodup_map h (List.mem_of_find?_eq_some hf) hc hkey
    rw [StoreRec.byteAt, hf, hdc, Option.map_some]

/-- Records that show nothing at a key may be left out. -/
theorem overBytes_filter {sh p : StoreRec → Bool} {k : Nat} {l : List StoreRec}
    (h : ∀ q ∈ l, p q = false → sh q = false ∨ q.byteAt k = none) (old : Byte) :
    overBytes sh k old (l.filter p) = overBytes sh k old l := by
  induction l using List.reverseRecOn with
  | nil => rfl
  | append_singleton l r ih =>
    rw [List.filter_append, overBytes_append, overBytes_append, ih (fun q hq => h q (List.mem_append_left _ hq))]
    by_cases hp : p r = true
    · rw [List.filter_cons_of_pos hp, List.filter_nil]
    · have hr := h r (List.mem_append_right _ (List.mem_singleton_self r)) (Bool.eq_false_iff.mpr hp)
      rw [List.filter_cons_of_neg hp, List.filter_nil, overBytes_nil, overBytes_none (List.forall_mem_singleton.mpr hr)]

/-- Two lists of records that show the same bytes one by one leave the same byte. -/
theorem overBytes_map {sh : StoreRec → Bool} {k : Nat} {g : StoreRec → StoreRec} {l : List StoreRec}
    (h : ∀ q ∈ l, sh (g q) = sh q ∧ (g q).bytes = q.bytes ∧ (g q).nib = q.nib) (old : Byte) :
    overBytes sh k old (l.map g) = overBytes sh k old l := by
  induction l using List.reverseRecOn with
  | nil => rfl
  | append_singleton l r ih =>
    obtain ⟨hsh, hbytes, hnib⟩ := h r (List.mem_append_right _ (List.mem_singleton_self r))
    rw [List.map_append, overBytes_append, overBytes_append, ih (fun q hq => h q (List.mem_append_left _ hq)), List.map_singleton,
      overBytes_singleton, overBytes_singleton]
    simp only [hsh, StoreRec.byteAt, hbytes, StoreRec.put, hnib]

/-! ### The order of the records after a change -/

/-- Leaving records out before or after they are put in order is the same. -/
theorem byRank_filter (p : StoreRec → Bool) (l : List (StoreRec × StoreRec)) :
    (byRank l).filter p = byRank (l.filter (fun q => p q.2)) := by
  simp only [byRank, List.filter_append, List.filter_map, List.filter_filter, Function.comp_def, Bool.and_comm]

/-- The records of one rank, when no record changes its rank. -/
theorem sel_of_rank_eq {l : List (StoreRec × StoreRec)} (h : ∀ p ∈ l, p.2.rank = p.1.rank) (a b : Nat) :
    (l.filter (fun p => p.2.rank == a && p.1.rank == b)).map (fun p => p.2) =
      if a = b then (l.map (fun p => p.2)).filter (fun q => q.rank == a) else [] := by
  rw [List.filter_map]
  split
  · next hab =>
    subst hab
    congr 1
    refine List.filter_congr fun p hp => ?_
    rw [Function.comp_apply, h p hp, Bool.and_self]
  · next hab =>
    rw [List.map_eq_nil_iff, List.filter_eq_nil_iff]
    intro p hp he
    rw [h p hp, Bool.and_eq_true, beq_iff_eq, beq_iff_eq] at he
    exact hab (he.1.symm.trans he.2)

/-- A sorted list is the records of rank 0, those of rank 1 and those of rank 2. -/
theorem rankSorted_eq {l : List StoreRec} (h : RankSorted l) :
    l.filter (fun q => q.rank == 0) ++ l.filter (fun q => q.rank == 1) ++ l.filter (fun q => q.rank == 2) = l := by
  have hle : ∀ m : List StoreRec, m.filter (fun q => decide (q.rank ≤ 0)) = m.filter (fun q => q.rank == 0) :=
    fun m => List.filter_congr fun q _ => decide_eq_decide.mpr Nat.le_zero
  have hmid : (l.filter (fun q => decide (0 < q.rank))).filter (fun q => decide (q.rank ≤ 1)) = l.filter (fun q => q.rank == 1) := by
    rw [List.filter_filter]
    refine List.filter_congr fun q _ => ?_
    rcases q.rank_cases with e | e | e <;> simp [e]
  have htop : (l.filter (fun q => decide (0 < q.rank))).filter (fun q => decide (1 < q.rank)) = l.filter (fun q => q.rank == 2) := by
    rw [List.filter_filter]
    refine List.filter_congr fun q _ => ?_
    rcases q.rank_cases with e | e | e <;> simp [e]
  have hsplit := rankSorted_split (h.filter (fun q => decide (0 < q.rank))) 1
  rw [hmid, htop] at hsplit
  rw [List.append_assoc, hsplit, ← hle, rankSorted_split h 0]

/-- Records that keep their ranks keep their places. -/
theorem byRank_of_rank_eq {l : List (StoreRec × StoreRec)} (h : ∀ p ∈ l, p.2.rank = p.1.rank)
    (hs : RankSorted (l.map (fun p => p.2))) : byRank l = l.map (fun p => p.2) := by
  have htop : (l.filter (fun p => p.2.rank == 2)).map (fun p => p.2) = (l.map (fun p => p.2)).filter (fun q => q.rank == 2) := by
    rw [List.filter_map]; rfl
  simp only [byRank, sel_of_rank_eq h, htop, if_true, OfNat.zero_ne_ofNat, zero_ne_one, OfNat.one_ne_ofNat, if_false,
    List.append_nil, rankSorted_eq hs]

/-- The applied records after a change: those that were applied, then those that had performed, then the others. -/
theorem byRank_applied (l : List (StoreRec × StoreRec)) : (byRank l).filter (fun q => q.applied) =
    (l.filter (fun p => p.2.applied && p.1.rank == 0)).map (fun p => p.2) ++
      (l.filter (fun p => p.2.applied && p.1.rank == 1)).map (fun p => p.2) ++
      (l.filter (fun p => p.2.applied && p.1.rank == 2)).map (fun p => p.2) := by
  have hrank : ∀ q : StoreRec, q.applied = (q.rank == 0) := fun q => by
    rw [Bool.eq_iff_iff, beq_iff_eq, q.rank_applied]
  have hzero : ∀ q : StoreRec, (q.rank == 0 && (q.rank == 1)) = false ∧ (q.rank == 0 && (q.rank == 2)) = false := fun q => by
    rcases q.rank_cases with e | e | e <;> rw [e] <;> exact ⟨rfl, rfl⟩
  simp only [byRank, List.filter_append, List.filter_map, List.filter_filter, Function.comp_def, hrank,
    ← Bool.and_assoc, Bool.and_self, (hzero _).1, (hzero _).2, Bool.false_and, List.filter_false, List.map_nil, List.append_nil]

section Change
variable {l : List StoreRec} {n : Nat} {f : StoreRec → StoreRec}

/-- A record that is applied by a change comes last of the applied ones. -/
theorem updateStores_applied {r : StoreRec} (hr : l.filter (fun q => q.id == n) = [r]) (hold : r.applied = false)
    (hnew : (f r).applied = true) :
    (updateStores (fun q => q.id == n) f l).filter (fun q => q.applied) = l.filter (fun q => q.applied) ++ [f r] := by
  have hmem : ∀ q, q ∈ l.filter (fun q => q.id == n) ↔ q = r := fun q => by rw [hr, List.mem_singleton]
  have hn : (r.id == n) = true := (List.mem_filter.mp ((hmem r).mpr rfl)).2
  have hat : ∀ q ∈ l, (q.id == n) = true → q = r := fun q hq hid => (hmem q).mp (List.mem_filter.mpr ⟨hq, hid⟩)
  have hstay : l.filter (fun q => (if q.id == n then f q else q).applied && q.rank == 0) = l.filter (fun q => q.applied) := by
    refine List.filter_congr fun q hq => ?_
    rw [show (q.rank == 0) = q.applied by rw [Bool.eq_iff_iff, beq_iff_eq, q.rank_applied]]
    by_cases hid : (q.id == n) = true
    · rw [hat q hq hid, hold, Bool.and_false]
    · rw [if_neg hid, Bool.and_self]
  have hcome : ∀ b, b ≠ 0 → l.filter (fun q => (if q.id == n then f q else q).applied && q.rank == b) =
      [r].filter (fun q => q.rank == b) := by
    intro b hb
    rw [← hr, List.filter_filter]
    refine List.filter_congr fun q hq => ?_
    by_cases hid : (q.id == n) = true
    · rw [hat q hq hid, hn, if_pos rfl, hnew, Bool.and_comm]
    · rw [if_neg hid, Bool.eq_false_iff.mpr hid, Bool.and_false]
      simp only [Bool.and_eq_false_iff, beq_eq_false_iff_ne]
      by_cases ha : q.applied = true
      · exact .inr fun e => hb (e.symm.trans (q.rank_applied.mpr ha))
      · exact .inl (Bool.eq_false_iff.mpr ha)
  have hself : (l.filter (fun q => q.applied)).map (fun q => if q.id == n then f q else q) = l.filter (fun q => q.applied) := by
    refine (List.map_congr_left fun q hq => ?_).trans (List.map_id _)
    obtain ⟨hq, ha⟩ := List.mem_filter.mp hq
    rw [if_neg (fun hid => by rw [hat q hq hid, hold] at ha; cases ha)]; rfl
  rw [updateStores, byRank_applied]
  simp only [List.filter_map, List.map_map, Function.comp_def, hstay, hself, hcome 1 one_ne_zero, hcome 2 two_ne_zero]
  rw [beq_iff_eq] at hn
  rcases r.rank_cases with e | e | e
  · rw [r.rank_applied.mp e] at hold; cases hold
  · simp [e, hn]
  · simp [e, hn]

variable (hid : ∀ q, (f q).id = q.id)
include hid

/-- The records of which a test of the number says yes, after a change and before it. -/
theorem updateStores_filter_id (p : Nat → Bool) :
    (updateStores (fun q => q.id == n) f l).filter (fun q => p q.id) =
      updateStores (fun q => q.id == n) f (l.filter (fun q => p q.id)) := by
  rw [updateStores, byRank_filter, List.filter_map, updateStores]
  congr 2
  refine List.filter_congr fun q _ => ?_
  have hnum : (if q.id == n then f q else q).id = q.id := by split <;> simp [hid]
  exact congrArg p hnum

/-- The records with other numbers keep their order. -/
theorem updateStores_others (hl : RankSorted l) :
    (updateStores (fun q => q.id == n) f l).filter (fun q => q.id != n) = l.filter (fun q => q.id != n) := by
  have hsame : (l.filter (fun q => q.id != n)).map (fun q => (q, if q.id == n then f q else q)) =
      (l.filter (fun q => q.id != n)).map (fun q => (q, q)) := by
    refine List.map_congr_left fun q hq => ?_
    have hne : (q.id == n) = false := by simpa using (List.mem_filter.mp hq).2
    rw [hne]; rfl
  have hsnd : ((l.filter (fun q => q.id != n)).map (fun q => (q, q))).map (fun p => p.2) = l.filter (fun q => q.id != n) := by
    rw [List.map_map]; exact List.map_id _
  rw [updateStores_filter_id hid (fun i => i != n), updateStores, hsame, byRank_of_rank_eq _ (by rw [hsnd]; exact hl.filter _), hsnd]
  exact List.forall_mem_map.mpr fun q _ => rfl

/-- The changed record is there once, unless its rank has risen. -/
theorem updateStores_changed {r : StoreRec} (hr : l.filter (fun q => q.id == n) = [r]) (hrank : (f r).rank ≤ r.rank) :
    (updateStores (fun q => q.id == n) f l).filter (fun q => q.id == n) = [f r] := by
  have hmem : r ∈ l.filter (fun q => q.id == n) := by rw [hr]; exact List.mem_singleton_self r
  have hn : (r.id == n) = true := (List.mem_filter.mp hmem).2
  rw [updateStores_filter_id hid (fun i => i == n), hr, updateStores, List.map_singleton, hn, if_pos rfl]
  rcases r.rank_cases with e | e | e <;> rcases (f r).rank_cases with e' | e' | e' <;>
    simp [byRank, e, e'] at hrank ⊢

end Change

end Sys2Proof.Machine
end

section
/-! PROOFS. What observers read after a change of one pending store (10 R139; 11 R158, R161). -/

namespace Sys2Proof.Machine

/-- A store is the only record with its number. -/
theorem State.Kept.store_alone {s : State} (h : s.Kept) {n : Nat} {r : StoreRec} (hr : s.store n = some r) :
    s.stores.filter (fun q => q.id == n) = [r] := by
  obtain ⟨hn, pre, post, hl, hpre⟩ := List.find?_eq_some_iff_append.mp hr
  rw [beq_iff_eq] at hn
  have hids := h.2.2
  rw [hl, List.map_append, List.map_cons, List.nodup_append, List.nodup_cons] at hids
  have hpost : ∀ q ∈ post, ¬(q.id == n) = true := fun q hq e =>
    hids.2.1.1 (List.mem_map.mpr ⟨q, hq, (beq_iff_eq.mp e).trans hn.symm⟩)
  rw [hl, List.filter_append, List.filter_cons_of_pos (by simpa using hn), List.filter_eq_nil_iff.mpr hpost,
    List.filter_eq_nil_iff.mpr (fun q hq => by simpa using hpre q hq), List.nil_append]

/-- Two records of the same bytes, written in the same way. -/
abbrev StoreRec.SameBytes (r q : StoreRec) : Prop := q.bytes = r.bytes ∧ q.nib = r.nib

section Change
variable {s : State} (h : s.Kept) {n : Nat} {r : StoreRec} (hr : s.store n = some r)
include h hr

theorem State.Kept.store_mem : r ∈ s.stores ∧ r.id = n := by
  have hmem : r ∈ s.stores.filter (fun q => q.id == n) := by rw [h.store_alone hr]; exact List.mem_singleton_self r
  simpa using List.mem_filter.mp hmem

theorem State.Kept.store_unique {q : StoreRec} (hq : q ∈ s.stores) (hid : q.id = n) : q = r := by
  have hmem : q ∈ s.stores.filter (fun q => q.id == n) := List.mem_filter.mpr ⟨hq, beq_iff_eq.mpr hid⟩
  rwa [h.store_alone hr, List.mem_singleton] at hmem

theorem State.Kept.store_distinct : r.Distinct := h.1.2.1 r (h.store_mem hr).1

/-- What one record shows of a byte that no other record writes. -/
theorem State.Kept.see_sole {sh : StoreRec → Bool} {k : Nat} (hsole : ∀ q ∈ s.stores, q.id ≠ n → q.byteAt k = none) :
    s.see sh k = overBytes sh k (Memory.get s.mem k) [r] := by
  rw [State.see, ← h.store_alone hr, overBytes_filter]
  exact fun q hq hne => .inr (hsole q hq (by simpa using hne))

variable {f : StoreRec → StoreRec} (hf : StoreRec.Onward f) {sh : StoreRec → Bool} (hs : Shows sh) {k : Nat}
include hf hs

omit hr in
/-- A change of one record shows what the changed list shows: settling is not seen. -/
theorem State.Kept.advanceOne_see : (s.advanceOne n f).see sh k =
    overBytes sh k (Memory.get s.mem k) (updateStores (fun q => q.id == n) f s.stores) := by
  refine State.settle_view (s := { s with stores := updateStores (fun q => q.id == n) f s.stores }) h.1.1 (fun q hq => ?_) hs k
  obtain ⟨p, hp, rfl⟩ := mem_updateStores hq
  split
  · exact (h.1.2.1 p hp).sublist ((hf.1 p).map _)
  · exact h.1.2.1 p hp

/-- A record that shows nothing at a key before and after leaves it as it was. -/
theorem State.Kept.see_hidden (hold : sh r = false ∨ r.byteAt k = none) (hnew : sh (f r) = false ∨ (f r).byteAt k = none) :
    (s.advanceOne n f).see sh k = s.see sh k := by
  rw [h.advanceOne_see hf hs, ← overBytes_filter (p := fun q => q.id != n), updateStores_others hf.2 h.1.2.2, overBytes_filter]
  · rfl
  · intro q hq hn
    rw [h.store_unique hr hq (by simpa using hn)]; exact hold
  · intro q hq hn
    obtain ⟨p, hp, rfl⟩ := mem_updateStores hq
    have hpn : p.id = n := by
      have hid : (if p.id == n then f p else p).id = n := by simpa using hn
      split at hid
      · rwa [hf.2] at hid
      · exact hid
    rw [if_pos (beq_iff_eq.mpr hpn), h.store_unique hr hp hpn]; exact hnew

/-- What a changed record shows of a byte that no other record writes. -/
theorem State.Kept.see_changed (hrank : (f r).rank ≤ r.rank) (hsole : ∀ q ∈ s.stores, q.id ≠ n → q.byteAt k = none) :
    (s.advanceOne n f).see sh k = overBytes sh k (Memory.get s.mem k) [f r] := by
  rw [h.advanceOne_see hf hs, ← updateStores_changed hf.2 (h.store_alone hr) hrank, overBytes_filter]
  intro q hq hn
  have hq' : q ∈ s.stores.filter (fun q => q.id != n) := by
    rw [← updateStores_others hf.2 h.1.2.2]
    exact List.mem_filter.mpr ⟨hq, by simpa using hn⟩
  exact .inr (hsole q (List.mem_filter.mp hq').1 (by simpa using hn))

/-- A record that keeps its rank and shows the same bytes changes nothing. -/
theorem State.Kept.see_inPlace (hrank : (f r).rank = r.rank) (hsh : sh (f r) = sh r) (hsame : r.SameBytes (f r)) :
    (s.advanceOne n f).see sh k = s.see sh k := by
  have hchange : ∀ {P : StoreRec → StoreRec → Prop}, (∀ q, P q q) → P (f r) r →
      ∀ q ∈ s.stores, P (if q.id == n then f q else q) q := by
    intro P hsame hP q hq
    split
    · next hn => rw [h.store_unique hr hq (beq_iff_eq.mp hn)]; exact hP
    · exact hsame q
  have hranks := hchange (P := fun p q => p.rank = q.rank) (fun _ => rfl) hrank
  rw [h.advanceOne_see hf hs, updateStores, byRank_of_rank_eq]
  · rw [List.map_map]
    exact overBytes_map (hchange (P := fun p q => sh p = sh q ∧ q.SameBytes p) (fun _ => ⟨rfl, rfl, rfl⟩) ⟨hsh, hsame⟩) _
  · exact List.forall_mem_map.mpr hranks
  · rw [List.map_map, RankSorted, List.pairwise_map]
    exact h.1.2.2.imp_of_mem fun hp hq hle => by
      have hp := hranks _ hp
      have hq := hranks _ hq
      dsimp only [Function.comp_apply]
      omega

omit hs in
/-- A store that a change applies puts its byte last at the home. -/
theorem State.Kept.homeByte_applied (hold : r.applied = false) (hnew : (f r).applied = true) (hsame : r.SameBytes (f r))
    {c : Host.Cell} (hc : c ∈ r.bytes) :
    (s.advanceOne n f).homeByte c.1 = r.put (s.homeByte c.1) c.2 := by
  have hshown : ∀ (l : List StoreRec) (old : Byte), overBytes (fun q => q.applied) c.1 old (l.filter (fun q => q.applied)) =
      overBytes (fun q => q.applied) c.1 old l := fun l old => overBytes_filter (fun q _ hq => .inl hq) old
  have hbyte : (f r).byteAt c.1 = some c.2 := by
    rw [StoreRec.byteAt, hsame.1]; exact (h.store_distinct hr).byteAt hc
  rw [State.homeByte_see, h.advanceOne_see hf shows_applied, ← hshown, updateStores_applied (h.store_alone hr) hold hnew,
    overBytes_append, hshown, overBytes_singleton, if_pos hnew, hbyte]
  simp only [StoreRec.put, hsame.2, State.homeByte]

end Change

/-- No other store than that with the number writes the byte at the key. -/
def State.Sole (s : State) (n k : Nat) : Prop := ∀ q ∈ s.stores, q.id ≠ n → ∀ c ∈ q.bytes, c.1 ≠ k

/-- The bytes of a store come last in coherence order at their home, and no other byte changes there. -/
def State.Lands (s : State) (r : StoreRec) (t : State) : Prop :=
  (∀ c ∈ r.bytes, t.homeByte c.1 = r.put (s.homeByte c.1) c.2) ∧
  ∀ k, (∀ c ∈ r.bytes, c.1 ≠ k) → t.homeByte k = s.homeByte k

/-- An observer reads the store's bytes, over memory, where no other store writes. -/
def State.ShownTo (s : State) (n : Nat) (r : StoreRec) (t : State) (o : Observer) : Prop :=
  ∀ c ∈ r.bytes, s.Sole n c.1 → t.viewByte o c.1 = r.put (Memory.get s.mem c.1) c.2

/-- An observer reads every byte as before, but for those that the store and another write. -/
def State.SameFor (s : State) (n : Nat) (r : StoreRec) (t : State) (o : Observer) : Prop :=
  ∀ k, (∀ c ∈ r.bytes, c.1 ≠ k) ∨ s.Sole n k → t.viewByte o k = s.viewByte o k

/-- Every byte is the same in its final place. -/
def State.SameHome (s t : State) : Prop := ∀ k, t.homeByte k = s.homeByte k

section Views
variable {s : State} (h : s.Kept) {n : Nat} {r : StoreRec} (hr : s.store n = some r) {f : StoreRec → StoreRec}
  (hf : StoreRec.Onward f) (hsame : r.SameBytes (f r))
include h hr hf hsame

/-- Where a record has no byte, its change shows nothing. -/
theorem State.Kept.see_untouched {sh : StoreRec → Bool} (hs : Shows sh) {k : Nat} (hk : ∀ c ∈ r.bytes, c.1 ≠ k) :
    (s.advanceOne n f).see sh k = s.see sh k := by
  refine h.see_hidden hr hf hs (.inr (StoreRec.byteAt_eq_none.mpr hk)) (.inr (StoreRec.byteAt_eq_none.mpr ?_))
  rw [hsame.1]; exact hk

/-- A change that applies a store lands it. -/
theorem State.Kept.lands (hold : r.applied = false) (hnew : (f r).applied = true) : s.Lands r (s.advanceOne n f) :=
  ⟨fun _ hc => h.homeByte_applied hr hf hold hnew hsame hc, fun _ hk => h.see_untouched hr hf hsame shows_applied hk⟩

/-- A change that leaves a store applied, or not, leaves every byte at its home. -/
theorem State.Kept.sameHome (happ : (f r).applied = r.applied) : s.SameHome (s.advanceOne n f) := by
  intro k
  cases ha : r.applied
  · exact h.see_hidden hr hf shows_applied (.inl ha) (.inl (happ.trans ha))
  · have hrank : (f r).rank = r.rank := by rw [(f r).rank_applied.mpr (happ.trans ha), r.rank_applied.mpr ha]
    exact h.see_inPlace hr hf shows_applied hrank happ hsame

variable (hrank : (f r).rank ≤ r.rank) {o : Observer}
include hrank

/-- A change shows the store to an observer to whom it is then visible. -/
theorem State.Kept.shownTo (hvis : (f r).visible o = true) : s.ShownTo n r (s.advanceOne n f) o := by
  intro c hc hsole
  have hbyte : (f r).byteAt c.1 = some c.2 := by
    rw [StoreRec.byteAt, hsame.1]; exact (h.store_distinct hr).byteAt hc
  rw [State.viewByte_see, h.see_changed hr hf (shows_visible o) hrank (fun q hq hid => StoreRec.byteAt_eq_none.mpr (hsole q hq hid)),
    overBytes_singleton, if_pos hvis, hbyte]
  simp only [StoreRec.put, hsame.2]

/-- A change is nothing to an observer to whom the store is as visible as before. -/
theorem State.Kept.sameFor (hvis : (f r).visible o = r.visible o) : s.SameFor n r (s.advanceOne n f) o := by
  rintro k (hk | hk)
  · exact h.see_untouched hr hf hsame (shows_visible o) hk
  · have hsole : ∀ q ∈ s.stores, q.id ≠ n → q.byteAt k = none := fun q hq hid => StoreRec.byteAt_eq_none.mpr (hk q hq hid)
    rw [State.viewByte_see, h.see_changed hr hf (shows_visible o) hrank hsole, State.viewByte_see, h.see_sole hr hsole,
      overBytes_singleton, overBytes_singleton, hvis]
    simp only [StoreRec.byteAt, StoreRec.put, hsame.1, hsame.2]

end Views

end Sys2Proof.Machine
end

section
/-! PROOFS. The steps of a pending store and what they change for observers (10 R139, R140; 11 R158, R159, R161, R164). -/

namespace Sys2Proof.Machine

/-! ### What each change of a record leaves and shows -/

theorem StoreRec.rank_le_of_applied {q : StoreRec} (h : q.applied = true) (r : StoreRec) : q.rank ≤ r.rank := by
  rw [q.rank_applied.mpr h]; exact Nat.zero_le _

/-- The rank does not rise when a record that is applied as before still has performed if it had. -/
theorem StoreRec.rank_le_of_performed {r q : StoreRec} (ha : q.applied = r.applied) (hp : r.performed = true → q.performed = true) :
    q.rank ≤ r.rank := by
  unfold StoreRec.rank
  rw [ha]
  cases hr : r.performed
  · cases r.applied <;> cases q.performed <;> decide
  · rw [hp hr]

/-- The bit of a path in a set to which a path is added. -/
theorem addPath_getLsbD (v : BitVec 5) (p q : Path) :
    (v ||| (1#5 <<< pathIdx p)).getLsbD (pathIdx q) = (v.getLsbD (pathIdx q) || decide (q = p)) := by
  rw [BitVec.getLsbD_or]
  congr 1
  cases p <;> cases q <;> rfl

/-- The bit of a die in a set to which a die is added. -/
theorem addDie_getLsbD (v : BitVec 8) (d e : Fin 8) : (v ||| (1#8 <<< d.val)).getLsbD e.val = (v.getLsbD e.val || decide (e = d)) := by
  rw [BitVec.getLsbD_or]
  congr 1
  revert d e; decide

/-- The record of a store after it is visible on a further path of its die. -/
def StoreRec.showPath (p : Path) (r : StoreRec) : StoreRec := { r with paths := r.paths ||| (1#5 <<< pathIdx p) }

theorem StoreRec.showPath_onward (p : Path) : StoreRec.Onward (StoreRec.showPath p) := ⟨fun _ => List.Sublist.refl _, fun _ => rfl⟩

theorem StoreRec.applyNow_sameBytes (r : StoreRec) : r.SameBytes r.applyNow := by
  unfold StoreRec.applyNow; split <;> exact ⟨rfl, rfl⟩

theorem StoreRec.showDie_sameBytes (d : Fin 8) (r : StoreRec) : r.SameBytes (r.showDie d) := by
  unfold StoreRec.showDie; split <;> exact ⟨rfl, rfl⟩

theorem StoreRec.showDie_applied (d : Fin 8) (r : StoreRec) : (r.showDie d).applied = r.applied := by
  unfold StoreRec.showDie; split <;> rfl

theorem StoreRec.performNow_sameBytes (r : StoreRec) : r.SameBytes r.performNow := by
  unfold StoreRec.performNow
  split
  · exact r.applyNow_sameBytes
  · exact r.applyNow_sameBytes
  · split
    · exact r.applyNow_sameBytes
    · exact ⟨rfl, rfl⟩

theorem StoreRec.showPath_rank (p : Path) (r : StoreRec) : (r.showPath p).rank ≤ r.rank := by
  refine StoreRec.rank_le_of_performed rfl fun hp => ?_
  simp only [StoreRec.performed, StoreRec.showPath, addPath_getLsbD, Bool.or_eq_true] at hp ⊢
  exact hp.imp_right .inl

theorem StoreRec.loseNow_applied (r : StoreRec) : (r.loseNow true).applied = true := r.applyNow_applied

theorem StoreRec.loseNow_sameBytes (r : StoreRec) : r.SameBytes (r.loseNow true) := r.applyNow_sameBytes

/-- The loss of the store is still to be reported to its context, copy or collective. -/
def StoreRec.lossPending (r : StoreRec) : Bool := r.lost && !r.acked && !r.reported && (r.ctx.isSome || r.work.isSome)

/-- A lost store is applied, or counts as performed on every path of its die. -/
theorem StoreRec.loseNow_rank (r : StoreRec) (b : Bool) : (r.loseNow b).rank ≤ r.rank := by
  cases b
  · refine StoreRec.rank_le_of_performed rfl fun _ => ?_
    have hpath : (BitVec.allOnes 5).getLsbD (pathIdx r.path) = true := by cases r.path <;> rfl
    simp only [StoreRec.performed, StoreRec.loseNow, Bool.false_eq_true, if_false, hpath, Bool.or_true]
  · exact StoreRec.rank_le_of_applied r.loseNow_applied r

theorem StoreRec.loseNow_lossPending (r : StoreRec) (b : Bool) (howner : r.ctx ≠ none ∨ r.work ≠ none)
    (hreport : r.reported = false) : (r.loseNow b).lossPending = true := by
  have howned : (r.ctx.isSome || r.work.isSome) = true := by
    rw [Bool.or_eq_true, Option.isSome_iff_ne_none, Option.isSome_iff_ne_none]; exact howner
  cases b
  · simp only [StoreRec.lossPending, StoreRec.loseNow, Bool.false_eq_true, if_false, hreport, howned, Bool.not_false, Bool.and_self]
  · cases hm : r.mode <;>
      simp only [StoreRec.lossPending, StoreRec.loseNow, StoreRec.applyNow, hm, if_true, hreport, howned, Bool.not_false, Bool.and_self]

section Early
variable {r : StoreRec} (hm : r.mode = .early) {o : Observer}
include hm

theorem StoreRec.showPath_visible_other {p : Path} (ho : o.die ≠ r.die ∨ o.path ≠ p) :
    (r.showPath p).visible o = r.visible o := by
  by_cases hdie : o.die = r.die
  · have hpath : o.path ≠ p := ho.resolve_left fun hne => hne hdie
    simp only [StoreRec.visible, StoreRec.showPath, hm, hdie, if_true, addPath_getLsbD, decide_eq_false hpath, Bool.or_false]
  · simp only [StoreRec.visible, StoreRec.showPath, hm, if_neg (Ne.symm hdie)]

theorem StoreRec.showPath_visible {p : Path} (hdie : o.die = r.die) (hpath : o.path = p) : (r.showPath p).visible o = true := by
  simp only [StoreRec.visible, StoreRec.showPath, hm, hdie, if_true, addPath_getLsbD, decide_eq_true hpath, Bool.or_true, Bool.true_or]

theorem StoreRec.performNow_of_away (hhome : r.home ≠ r.die) : r.performNow = r.showPath r.path := by
  simp only [StoreRec.performNow, hm, if_neg hhome, StoreRec.showPath]

theorem StoreRec.performNow_of_here (hhome : r.home = r.die) : r.performNow = r.applyNow := by
  simp only [StoreRec.performNow, hm, if_pos hhome]

/-- A store that performs becomes visible to its own path alone. -/
theorem StoreRec.performNow_visible : r.performNow.visible o = (r.showPath r.path).visible o := by
  by_cases hhome : r.home = r.die
  · rw [StoreRec.performNow_of_here hm hhome]
    by_cases hdie : o.die = r.die
    · simp [StoreRec.visible, StoreRec.applyNow, StoreRec.showPath, hm, hdie]
    · have hd : o.die ≠ r.home := fun e => hdie (e.trans hhome)
      simp only [StoreRec.visible, StoreRec.applyNow, StoreRec.showPath, hm, if_neg (Ne.symm hdie), addDie_getLsbD, decide_eq_false hd,
        Bool.or_false]
  · rw [StoreRec.performNow_of_away hm hhome]

theorem StoreRec.performNow_rank : r.performNow.rank ≤ r.rank := by
  by_cases hhome : r.home = r.die
  · rw [StoreRec.performNow_of_here hm hhome]; exact StoreRec.rank_le_of_applied r.applyNow_applied r
  · rw [StoreRec.performNow_of_away hm hhome]; exact r.showPath_rank r.path

theorem StoreRec.showDie_visible_other {d : Fin 8} (ho : o.die = r.die ∨ (o.die ≠ d ∧ r.home ≠ r.die)) :
    (r.showDie d).visible o = r.visible o := by
  unfold StoreRec.showDie
  rcases ho with hdie | ⟨hd, hhome⟩
  · split <;> simp only [StoreRec.visible, hm, hdie, if_true]
  · simp only [StoreRec.visible, hm, if_neg hhome, addDie_getLsbD, decide_eq_false hd, Bool.or_false]

theorem StoreRec.showDie_visible {d : Fin 8} (hd : d ≠ r.die) (ho : o.die = d) : (r.showDie d).visible o = true := by
  have hdie : o.die ≠ r.die := fun e => hd (ho.symm.trans e)
  unfold StoreRec.showDie
  split
  · simp only [StoreRec.visible, hm, if_neg hdie.symm]
    exact BitVec.getLsbD_allOnes.trans (decide_eq_true o.die.isLt)
  · simp only [StoreRec.visible, hm, if_neg hdie.symm, addDie_getLsbD, decide_eq_true ho, Bool.or_true]

end Early

end Sys2Proof.Machine
end

section
/-! PROOFS. The steps of a pending store: O48 (10 R139, R140; 11 R158, R159, R161, R164). -/

namespace Sys2Proof.Machine

/-- The store may be applied at its home now. -/
abbrev State.MayLand (s : State) (r : StoreRec) : Bool := r.alive && !r.applied && s.homeUp r && s.mayApply r

/-- A context counts the loss of a store that is its own (11 R164). -/
def State.countLoss (s : State) (r : StoreRec) (c : Context) : Context :=
  if s.counts c r then { c with sys := { c.sys with akrec := akrecNext c.sys.akrec } } else c

/-- The number of a store, and whether its loss is still to be reported. -/
def StoreRec.numberedLoss (r : StoreRec) : Nat × Bool := (r.id, r.lossPending)

theorem StoreRec.lost_of_lossPending {r : StoreRec} (h : r.lossPending = true) : r.lost = true := by
  simp only [StoreRec.lossPending, Bool.and_eq_true] at h
  exact h.1.1.1

theorem StoreRec.live_of_lossPending {r : StoreRec} (h : r.lossPending = true) : r.live = true := by
  simp only [StoreRec.lossPending, Bool.and_eq_true, Bool.not_eq_true'] at h
  obtain ⟨⟨⟨_, hack⟩, hreport⟩, howner⟩ := h
  rw [StoreRec.live, hack, hreport, howner, Bool.and_false, Bool.not_false, Bool.and_true, Bool.and_true, Bool.or_true]

/-- Settling acknowledges no lost store. -/
theorem settleFrom_losses (l : List StoreRec) : ∀ (kept : List StoreRec) (m : List Host.Cell),
    (settleFrom kept m l).1.map StoreRec.numberedLoss = (kept ++ l).map StoreRec.numberedLoss := by
  induction l with
  | nil => intro kept m; rw [settleFrom, List.append_nil]
  | cons r rest ih =>
    intro kept m
    rw [settleFrom]
    split
    · have hstrip : StoreRec.numberedLoss ∘ StoreRec.strip r.bytes = StoreRec.numberedLoss := rfl
      have hmoved : ∀ a, StoreRec.numberedLoss { r with bytes := [], acked := r.acked || (!r.lost && a) } = r.numberedLoss :=
        fun a => by
          unfold StoreRec.numberedLoss StoreRec.lossPending
          cases r.lost
          · rfl
          · simp only [Bool.not_true, Bool.false_and, Bool.or_false]
      rw [ih]
      simp only [List.map_append, List.map_cons, List.map_map, hstrip, hmoved, List.append_assoc, List.singleton_append]
    · rw [ih, List.append_assoc, List.singleton_append]

/-- Only what a test says of the records in the list matters for a change. -/
theorem updateStores_congr {pick pick' : StoreRec → Bool} {f : StoreRec → StoreRec} {l : List StoreRec}
    (h : ∀ q ∈ l, pick q = pick' q) : updateStores pick f l = updateStores pick' f l :=
  congrArg byRank (List.map_congr_left fun q hq => by rw [h q hq])

section Events
variable {s : State} (h : s.Kept) {n : Nat} {r : StoreRec} (hr : s.store n = some r)

/-! ### What the step of a store does -/

section Exec
include hr

theorem exec_storeApply : exec (.storeApply n) s = .next (if r.mode = .glob then s else s.applyStore r) := by
  show execStoreApply n s = _
  rw [execStoreApply, hr]

theorem exec_globalStoreApply : exec (.globalStoreApply n) s = .next (if r.mode = .glob then s.applyStore r else s) := by
  show execGlobalStoreApply n s = _
  rw [execGlobalStoreApply, hr]

theorem exec_storeVisibleOnDie (d : Fin 8) : exec (.storeVisibleOnDie n d) s = .next
    (if r.mode = .early ∧ r.applied = true ∧ d ≠ r.die ∧ s.mayShow r d = true then
      s.advanceOne n (StoreRec.showDie d) else s) := by
  show execStoreVisibleOnDie n d s = _
  rw [execStoreVisibleOnDie, hr]

theorem exec_storeAcknowledge : exec (.storeAcknowledge n) s = .next
    (if r.alive = true ∧ r.applied = true ∧ r.home ≠ r.die ∧ r.onEveryDie = true ∧ s.homeUp r = true then
      s.advanceOne n StoreRec.ackNow else s) := by
  show execStoreAcknowledge n s = _
  rw [execStoreAcknowledge, hr]

theorem exec_storeVisibleToPath (p : Path) : exec (.storeVisibleToPath n p) s =
    if r.mode ≠ .early ∨ (!r.alive) = true then .next s
    else if r.performed = true then .next (s.advanceOne n (StoreRec.showPath p))
    else if p = r.path ∧ s.mayPerform r = true then .next (s.advanceOne n StoreRec.performNow) else .next s := by
  show execStoreVisibleToPath n p s = _
  rw [execStoreVisibleToPath, hr]
  rfl

/-- The step shows a store to a path when it has performed, or to its own when it may perform. -/
abbrev State.ShowsPath (s : State) (r : StoreRec) (p : Path) : Prop :=
  r.mode = .early ∧ r.alive = true ∧ (r.performed = true ∨ (p = r.path ∧ s.mayPerform r = true))

theorem exec_storeVisibleToPath_waits {p : Path} (hacts : ¬s.ShowsPath r p) : exec (.storeVisibleToPath n p) s = .next s := by
  rw [exec_storeVisibleToPath hr]
  by_cases hstep : r.mode ≠ .early ∨ (!r.alive) = true
  · rw [if_pos hstep]
  · obtain ⟨hm, hlive⟩ : r.mode = .early ∧ r.alive = true := by simpa using hstep
    have hpath : ¬(r.performed = true ∨ (p = r.path ∧ s.mayPerform r = true)) := fun hpath => hacts ⟨hm, hlive, hpath⟩
    rw [if_neg hstep, if_neg (fun hperf => hpath (.inl hperf)), if_neg (fun hmay => hpath (.inr hmay))]

theorem exec_ackLossDetection (b : Bool) : exec (.ackLossDetection n b) s = .next
    (if s.lossy r && r.alive && !r.acked && r.home != r.die then
      s.lose (fun q => q.id == n) (fun q => q.applied || (b && s.mayApply q)) else s) := by
  show execAckLossDetection n b s = _
  rw [execAckLossDetection, hr]

end Exec

include h hr

/-! ### The apply -/

theorem State.Kept.applyStore_lands (hmay : s.MayLand r = true) :
    s.applyStore r = s.advanceOne n StoreRec.applyNow ∧ s.Lands r (s.applyStore r) ∧
      ∀ k, (∀ c ∈ r.bytes, c.1 ≠ k) → ∀ o, (s.applyStore r).viewByte o k = s.viewByte o k := by
  have happly : s.applyStore r = s.advanceOne n StoreRec.applyNow := by
    rw [State.applyStore, if_pos hmay, (h.store_mem hr).2]
  have hold : r.applied = false := by
    simp only [Bool.and_eq_true, Bool.not_eq_true'] at hmay; exact hmay.1.1.2
  rw [happly]
  exact ⟨rfl, h.lands hr StoreRec.applyNow_onward r.applyNow_sameBytes hold r.applyNow_applied,
    fun _ hk _ => h.see_untouched hr StoreRec.applyNow_onward r.applyNow_sameBytes (shows_visible _) hk⟩

omit h hr in
theorem State.applyStore_waits (hmay : s.MayLand r = false) : s.applyStore r = s := by
  rw [State.applyStore, if_neg (Bool.eq_false_iff.mp hmay)]

/-! ### Visibility on a path and on a die -/

section Early
variable (hm : r.mode = .early)
include hm

/-- A store becomes visible to the observers on one path of its die, and to no other. -/
theorem State.Kept.showPath_views (p : Path) :
    (∀ o, o.die ≠ r.die ∨ o.path ≠ p → s.SameFor n r (s.advanceOne n (StoreRec.showPath p)) o) ∧
    ∀ o, o.die = r.die → o.path = p → s.ShownTo n r (s.advanceOne n (StoreRec.showPath p)) o :=
  ⟨fun _ ho => h.sameFor hr (StoreRec.showPath_onward p) ⟨rfl, rfl⟩ (r.showPath_rank p) (StoreRec.showPath_visible_other hm ho),
    fun _ hdie hpath => h.shownTo hr (StoreRec.showPath_onward p) ⟨rfl, rfl⟩ (r.showPath_rank p)
      (StoreRec.showPath_visible hm hdie hpath)⟩

/-- A store that performs becomes visible to its own path. -/
theorem State.Kept.performNow_views :
    (∀ o, o.die ≠ r.die ∨ o.path ≠ r.path → s.SameFor n r (s.advanceOne n StoreRec.performNow) o) ∧
    ∀ o, o.die = r.die → o.path = r.path → s.ShownTo n r (s.advanceOne n StoreRec.performNow) o :=
  ⟨fun _ ho => h.sameFor hr StoreRec.performNow_onward r.performNow_sameBytes (StoreRec.performNow_rank hm)
      ((StoreRec.performNow_visible hm).trans (StoreRec.showPath_visible_other hm ho)),
    fun _ hdie hpath => h.shownTo hr StoreRec.performNow_onward r.performNow_sameBytes (StoreRec.performNow_rank hm)
      ((StoreRec.performNow_visible hm).trans (StoreRec.showPath_visible hm hdie hpath))⟩

/-- A store homed on another die performs without a change at its home. -/
theorem State.Kept.performNow_sameHome (hhome : r.home ≠ r.die) : s.SameHome (s.advanceOne n StoreRec.performNow) :=
  h.sameHome hr StoreRec.performNow_onward r.performNow_sameBytes (by rw [StoreRec.performNow_of_away hm hhome]; rfl)

/-- A store homed on its own die is applied when it performs. -/
theorem State.Kept.performNow_lands (hhome : r.home = r.die) (hold : r.performed = false) :
    s.Lands r (s.advanceOne n StoreRec.performNow) :=
  h.lands hr StoreRec.performNow_onward r.performNow_sameBytes (Bool.or_eq_false_iff.mp hold).1
    (by rw [StoreRec.performNow_of_here hm hhome]; exact r.applyNow_applied)

/-- An applied store becomes visible on a further die. -/
theorem State.Kept.showDie_views {d : Fin 8} (happ : r.applied = true) (hd : d ≠ r.die) :
    (∀ o, o.die = r.die ∨ (o.die ≠ d ∧ r.home ≠ r.die) → s.SameFor n r (s.advanceOne n (StoreRec.showDie d)) o) ∧
    ∀ o, o.die = d → s.ShownTo n r (s.advanceOne n (StoreRec.showDie d)) o := by
  have hrank : (r.showDie d).rank ≤ r.rank := StoreRec.rank_le_of_applied ((r.showDie_applied d).trans happ) r
  exact ⟨fun _ ho => h.sameFor hr (StoreRec.showDie_onward d) (r.showDie_sameBytes d) hrank (StoreRec.showDie_visible_other hm ho),
    fun _ ho => h.shownTo hr (StoreRec.showDie_onward d) (r.showDie_sameBytes d) hrank (StoreRec.showDie_visible hm hd ho)⟩

end Early

/-! ### The acknowledgement -/

omit h hr in
/-- An acknowledged store is visible everywhere. -/
theorem State.ackNow_everywhere :
    ∀ q ∈ (s.advanceOne n StoreRec.ackNow).stores, q.id = n → q.everywhere = true ∧ q.acked = true := by
  refine State.advance_forall (P := fun q => q.id = n → q.everywhere = true ∧ q.acked = true) ?_ fun q hq hid => ?_
  · exact fun q bs a ha hq hid => (hq hid).imp_right ha
  · split
    · exact ⟨by simp [StoreRec.everywhere, StoreRec.ackNow], rfl⟩
    · next hn => rw [if_neg hn] at hid; exact absurd (beq_iff_eq.mpr hid) hn

theorem State.Kept.ackNow_sameHome (happ : r.applied = true) : s.SameHome (s.advanceOne n StoreRec.ackNow) :=
  h.sameHome hr StoreRec.ackNow_onward r.applyNow_sameBytes (r.applyNow_applied.trans happ.symm)

/-! ### The loss of an acknowledgement -/

/-- The loss of a store under way counts for its contexts and changes its record alone. -/
theorem State.Kept.lose_one (hlive : r.alive = true) (hack : r.acked = false) (a : StoreRec → Bool) :
    s.lose (fun q => q.id == n) a = (s.mapContexts (s.countLoss r)).advanceOne n (fun q => q.loseNow (a q)) := by
  have hpick : ∀ q ∈ s.stores, (q.id == n && q.alive && !q.acked) = (q.id == n) := by
    intro q hq
    by_cases hid : q.id = n
    · rw [h.store_unique hr hq hid, hlive, hack, Bool.and_true, Bool.not_false, Bool.and_true]
    · rw [beq_eq_false_iff_ne.mpr hid, Bool.false_and, Bool.false_and]
  have hhit : s.stores.filter (fun q => q.id == n && q.alive && !q.acked) = [r] :=
    (List.filter_congr hpick).trans (h.store_alone hr)
  unfold State.lose
  rw [hhit]
  exact congrArg (fun l => State.settle { s.mapContexts (s.countLoss r) with stores := l }) (updateStores_congr hpick)

/-- The changed record of a store whose loss is still to be reported is in the list after the change. -/
theorem State.Kept.lossPending_mem {f : StoreRec → StoreRec} (hf : StoreRec.Onward f) (hrank : (f r).rank ≤ r.rank)
    (hloss : (f r).lossPending = true) : ∃ q ∈ (s.advanceOne n f).stores, q.id = n ∧ q.lost = true := by
  have hmem : f r ∈ updateStores (fun q => q.id == n) f s.stores := by
    have hfilter := updateStores_changed hf.2 (h.store_alone hr) hrank
    exact (List.mem_filter.mp (hfilter ▸ List.mem_singleton_self (f r) :)).1
  have hsettled : (n, true) ∈ (settleFrom [] s.mem (updateStores (fun q => q.id == n) f s.stores)).1.map StoreRec.numberedLoss := by
    rw [settleFrom_losses]
    exact List.mem_map.mpr ⟨f r, hmem, Prod.ext ((hf.2 r).trans (h.store_mem hr).2) hloss⟩
  obtain ⟨q, hq, he⟩ := List.mem_map.mp hsettled
  obtain ⟨hid, hpending⟩ := Prod.mk.inj he
  exact ⟨q, List.mem_filter.mpr ⟨hq, StoreRec.live_of_lossPending hpending⟩, hid, StoreRec.lost_of_lossPending hpending⟩

/-- What a lost store leaves: its record tells the loss, and its bytes land or change nothing at its home. -/
theorem State.Kept.lose_views (hlive : r.alive = true) (hack : r.acked = false) (b : Bool) :
    let t := s.lose (fun q => q.id == n) (fun q => q.applied || (b && s.mayApply q))
    t = { s with me := s.countLoss r s.me, others := s.others.map (s.countLoss r), mem := t.mem, stores := t.stores } ∧
      (r.ctx ≠ none ∨ r.work ≠ none → r.reported = false → ∃ q ∈ t.stores, q.id = n ∧ q.lost = true) ∧
      (r.applied = true ∨ b = false ∨ s.mayApply r = false → s.SameHome t) ∧
      (r.applied = false → b = true → s.mayApply r = true → s.Lands r t) := by
  intro t
  have ht : t = (s.mapContexts (s.countLoss r)).advanceOne n (fun q => q.loseNow (q.applied || (b && s.mayApply q))) :=
    h.lose_one hr hlive hack _
  have h1 : (s.mapContexts (s.countLoss r)).Kept := h.same rfl rfl (Nat.le_refl _)
  have hr1 : (s.mapContexts (s.countLoss r)).store n = some r := hr
  have hf : StoreRec.Onward (fun q => q.loseNow (q.applied || (b && s.mayApply q))) :=
    ⟨fun q => q.loseNow_bytes _, fun q => q.loseNow_id _⟩
  rw [ht]
  refine ⟨rfl, fun howner hreport => ?_, fun hhome => ?_, fun hold hb hmay => ?_⟩
  · exact h1.lossPending_mem hr1 hf (r.loseNow_rank _) (r.loseNow_lossPending _ howner hreport)
  · cases hold : r.applied
    · have hnot : (b && s.mayApply r) = false := by
        rw [hold] at hhome
        exact Bool.and_eq_false_iff.mpr (hhome.resolve_left Bool.false_ne_true)
      refine fun k => h1.see_hidden hr1 hf shows_applied (.inl hold) (.inl ?_)
      rw [hold, hnot]; exact hold
    · refine h1.sameHome hr1 hf ?_ ?_ <;> rw [hold, Bool.true_or]
      · exact r.loseNow_sameBytes
      · rw [r.loseNow_applied]
  · have hlands : (r.applied || (b && s.mayApply r)) = true := by rw [hb, hmay, Bool.and_true, Bool.or_true]
    refine h1.lands hr1 hf ?_ hold ?_ <;> rw [hlands]
    · exact r.loseNow_sameBytes
    · exact r.loseNow_applied

end Events

/-- Settles O48: a step changes one record, which goes to its place in coherence order, and settling is not seen. -/
theorem storeEvents : Obligations.StoreEvents := by
  unfold Obligations.StoreEvents
  intro s n r hcanonical hnumbered hr
  have h : s.Kept := ⟨hcanonical, hnumbered⟩
  refine ⟨fun hm => ⟨⟨fun hmay => ?_, fun hmay => ?_⟩, ?_⟩, fun hm => ⟨⟨fun hmay => ?_, fun hmay => ?_⟩, ?_⟩,
    fun p => ⟨fun hacts => ?_, fun hacts => ?_⟩, fun d => ⟨fun hacts => ?_, fun hacts => ?_⟩,
    ⟨fun hacts => ?_, fun hacts => ?_⟩, fun b => ⟨fun hacts => ?_, fun hacts => ?_⟩⟩
  · obtain ⟨happly, hviews⟩ := h.applyStore_lands hr hmay
    exact ⟨s.applyStore r, by rw [exec_storeApply hr, if_neg hm], by rw [happly]; rfl, hviews⟩
  · rw [exec_storeApply hr, if_neg hm, State.applyStore_waits hmay]
  · rw [exec_globalStoreApply hr, if_neg hm]
  · obtain ⟨happly, hviews⟩ := h.applyStore_lands hr hmay
    exact ⟨s.applyStore r, by rw [exec_globalStoreApply hr, if_pos hm], by rw [happly]; rfl, hviews⟩
  · rw [exec_globalStoreApply hr, if_pos hm, State.applyStore_waits hmay]
  · rw [exec_storeApply hr, if_pos hm]
  · obtain ⟨hm, hlive, hpath⟩ := hacts
    have hstep : ¬(r.mode ≠ .early ∨ (!r.alive) = true) := by simp [hm, hlive]
    cases hperf : r.performed
    · obtain ⟨rfl, hmay⟩ := hpath.resolve_left (by simp [hperf])
      refine ⟨s.advanceOne n StoreRec.performNow, ?_, rfl, fun hhome => ?_, fun _ hhome => h.performNow_lands hr hm hhome hperf,
        h.performNow_views hr hm⟩
      · rw [exec_storeVisibleToPath hr, if_neg hstep, if_neg (by simp [hperf]), if_pos ⟨rfl, hmay⟩]
      · exact h.performNow_sameHome hr hm (hhome.resolve_left Bool.false_ne_true)
    · refine ⟨s.advanceOne n (StoreRec.showPath p), ?_, rfl, fun _ => ?_, fun hnot => (Bool.false_ne_true hnot.symm).elim,
        h.showPath_views hr hm p⟩
      · rw [exec_storeVisibleToPath hr, if_neg hstep, if_pos hperf]
      · exact h.sameHome hr (StoreRec.showPath_onward p) ⟨rfl, rfl⟩ rfl
  · exact exec_storeVisibleToPath_waits hr hacts
  · obtain ⟨hm, happ, hd, _⟩ := id hacts
    refine ⟨s.advanceOne n (StoreRec.showDie d), by rw [exec_storeVisibleOnDie hr, if_pos hacts], rfl, ?_,
      h.showDie_views hr hm happ hd⟩
    exact h.sameHome hr (StoreRec.showDie_onward d) (r.showDie_sameBytes d) (r.showDie_applied d)
  · rw [exec_storeVisibleOnDie hr, if_neg hacts]
  · exact ⟨s.advanceOne n StoreRec.ackNow, by rw [exec_storeAcknowledge hr, if_pos hacts], rfl, h.ackNow_sameHome hr hacts.2.1,
      State.ackNow_everywhere⟩
  · rw [exec_storeAcknowledge hr, if_neg hacts]
  · obtain ⟨hlossy, hlive, hack, hhome⟩ := hacts
    refine ⟨_, ?_, h.lose_views hr hlive hack b⟩
    rw [exec_ackLossDetection hr, hlossy, hlive, hack, bne_iff_ne.mpr hhome]; rfl
  · rw [exec_ackLossDetection hr, if_neg (fun hdoes => hacts ?_)]
    simpa [and_assoc] using hdoes

end Sys2Proof.Machine
end

section
/-! PROOFS. 12 Encodings and opcode map: the decoder gives back what the encoder wrote (R168 to R172, R174), and words written out
from the encoding tables (R174 to R184). -/

namespace Sys2Proof.Laws.EncodeDecode

/-- A row without an encoding has no code to decode. -/
theorem statement_of_encode_eq_none {i : Instr} (h : encode i = none) : Statement i :=
  fun _ hc => absurd (h.symm.trans hc) nofun

/-- Every row, family by family of chapter 12, by the law of its own: the fields its encoding joins are the fields its major reads. -/
theorem decodeCode_of_encode (i : Instr) : Statement i := by
  cases i with
  -- Compact words (R174)
  | cAdd => apply cAdd | cSub => apply cSub | cAnd => apply cAnd | cOr => apply cOr | cXor => apply cXor | cAddi => apply cAddi
  | cShli => apply cShli | cShri => apply cShri | cMov => apply cMov | cLi => apply cLi | cBnez => apply cBnez
  | cBeqz => apply cBeqz | cNop => apply cNop | cvAdd => apply cvAdd | cvFadd => apply cvFadd | cvFmul => apply cvFmul
  | cvFmacc => apply cvFmacc | cvMv => apply cvMv
  -- Scalar integers, memory and control, VSETVL (R176)
  | add => apply add | sub => apply sub | mul => apply mul | mulh => apply mulh | mulhn => apply mulhn | div => apply div
  | divn => apply divn | rem => apply rem | remn => apply remn | and => apply and | or => apply or | xor => apply xor
  | shl => apply shl | shr => apply shr | sra => apply sra | min => apply min | max => apply max | minn => apply minn
  | maxn => apply maxn | slt => apply slt | sltn => apply sltn | sel => apply sel | clz => apply clz | ctz => apply ctz
  | popc => apply popc | brev => apply brev | addi => apply addi | andi => apply andi | ori => apply ori | xori => apply xori
  | shli => apply shli | shri => apply shri | srai => apply srai | slti => apply slti | lih => apply lih | adpc => apply adpc
  | ld => apply ld | st => apply st | stG => apply stG | amoAdd => apply amoAdd | amoAnd => apply amoAnd | amoOr => apply amoOr
  | amoXor => apply amoXor | amoMin => apply amoMin | amoMax => apply amoMax | amoMinn => apply amoMinn | amoMaxn => apply amoMaxn
  | amoSwap => apply amoSwap | amoCas => apply amoCas | amoqpop => apply amoqpop | amoqsteal => apply amoqsteal | beq => apply beq
  | bne => apply bne | blt => apply blt | bge => apply bge | bltn => apply bltn | bgen => apply bgen | jal => apply jal
  | jalr => apply jalr | calli => apply calli | cmark => apply cmark | trap => apply trap | srd => apply srd | swr => apply swr
  | erd => apply erd | tret => apply tret | fencei => apply fencei | yield => apply yield | exit => apply exit | join => apply join
  | leave => apply leave | ctail => apply ctail | lreq => apply lreq | vsetvl => apply vsetvl
  -- Scalar floating point (R177)
  | fadd => apply fadd | fsub => apply fsub | fmul => apply fmul | ffma => apply ffma | fdiv => apply fdiv | fmin => apply fmin
  | fmax => apply fmax | fcmp => apply fcmp | fsqrt => apply fsqrt | fcvt => apply fcvt | fclass => apply fclass
  -- VSETVLI (R178)
  | vsetvli => apply vsetvli
  -- Vector arithmetic (R179)
  | vaddVv => apply vaddVv | vaddVx => apply vaddVx | vaddVi => apply vaddVi | vsubVv => apply vsubVv | vsubVx => apply vsubVx
  | vsubVi => apply vsubVi | vmulVv => apply vmulVv | vmulVx => apply vmulVx | vmulVi => apply vmulVi | vmulhVv => apply vmulhVv
  | vmulhVx => apply vmulhVx | vmulhVi => apply vmulhVi | vmaccVv => apply vmaccVv | vmaccVx => apply vmaccVx
  | vmaccVi => apply vmaccVi | vdivVv => apply vdivVv | vdivVx => apply vdivVx | vdivVi => apply vdivVi | vremVv => apply vremVv
  | vremVx => apply vremVx | vremVi => apply vremVi | vminVv => apply vminVv | vminVx => apply vminVx | vminVi => apply vminVi
  | vandVv => apply vandVv | vandVx => apply vandVx | vandVi => apply vandVi | vorVv => apply vorVv | vorVx => apply vorVx
  | vorVi => apply vorVi | vxorVv => apply vxorVv | vxorVx => apply vxorVx | vxorVi => apply vxorVi | vshlVv => apply vshlVv
  | vshlVx => apply vshlVx | vshlVi => apply vshlVi | vshrVv => apply vshrVv | vshrVx => apply vshrVx | vshrVi => apply vshrVi
  | vsraVv => apply vsraVv | vsraVx => apply vsraVx | vsraVi => apply vsraVi | vsaddVv => apply vsaddVv | vsaddVx => apply vsaddVx
  | vsaddVi => apply vsaddVi | vssubVv => apply vssubVv | vssubVx => apply vssubVx | vssubVi => apply vssubVi
  | vmaxVv => apply vmaxVv | vmaxVx => apply vmaxVx | vmaxVi => apply vmaxVi | vcmpVv => apply vcmpVv | vcmpVx => apply vcmpVx
  | vcmpVi => apply vcmpVi | vfaddVv => apply vfaddVv | vfaddVx => apply vfaddVx | vfsubVv => apply vfsubVv
  | vfsubVx => apply vfsubVx | vfmulVv => apply vfmulVv | vfmulVx => apply vfmulVx | vfmaccVv => apply vfmaccVv
  | vfmaccVx => apply vfmaccVx | vfnmsacVv => apply vfnmsacVv | vfnmsacVx => apply vfnmsacVx | vfdivVv => apply vfdivVv
  | vfdivVx => apply vfdivVx | vfminVv => apply vfminVv | vfminVx => apply vfminVx | vfmaxVv => apply vfmaxVv
  | vfmaxVx => apply vfmaxVx | vfcmpVv => apply vfcmpVv | vfcmpVx => apply vfcmpVx | vfsqrt => apply vfsqrt
  | vfclass => apply vfclass | vexp2 => apply vexp2 | vlog2 => apply vlog2 | vrcp => apply vrcp | vrsq => apply vrsq
  | vsin => apply vsin | vcos => apply vcos | vfcvtTo => apply vfcvtTo | vfcvtFrom => apply vfcvtFrom
  -- Permutes, reductions, masks, sparse forms and VFETCH (R180)
  | vmvVv => apply vmvVv | vmergeVv => apply vmergeVv | vslideupVx => apply vslideupVx | vslidednVx => apply vslidednVx
  | vpermVv => apply vpermVv | viota => apply viota | vextx => apply vextx | vinsx => apply vinsx | vbcastVx => apply vbcastVx
  | vbcastVi => apply vbcastVi | vslideupVi => apply vslideupVi | vslidednVi => apply vslidednVi | vmergeVx => apply vmergeVx
  | vmergeVi => apply vmergeVi | vred => apply vred | vfredO => apply vfredO | vfredT => apply vfredT | vfredMin => apply vfredMin
  | vfredMax => apply vfredMax | mand => apply mand | mor => apply mor | mxor => apply mxor | mnot => apply mnot
  | mpopc => apply mpopc | mfirst => apply mfirst | mmv => apply mmv | vcompress => apply vcompress
  | vcompressVl => apply vcompressVl | vexpand => apply vexpand | vppopc => apply vppopc | vconfl => apply vconfl
  | vrank => apply vrank | vkcount => apply vkcount | vnfblk => apply vnfblk | vscanAdd => apply vscanAdd
  | vscanMin => apply vscanMin | vscanMax => apply vscanMax | vscanFadd => apply vscanFadd
  | vcompressKeepnf => apply vcompressKeepnf | vcompressKeepnfVl => apply vcompressKeepnfVl | vstop => apply vstop
  | vpid => apply vpid | vrand => apply vrand | vfetch => apply vfetch | vpj => apply vpj
  -- Vector memory (R181)
  | vld => apply vld | vlds => apply vlds | vldx => apply vldx | vldf => apply vldf | vst => apply vst | vsts => apply vsts
  | vstx => apply vstx | vstG => apply vstG | vstxG => apply vstxG | vldSc => apply vldSc | vstSc => apply vstSc
  | vamoAdd => apply vamoAdd | vamoAnd => apply vamoAnd | vamoOr => apply vamoOr | vamoXor => apply vamoXor
  | vamoMin => apply vamoMin | vamoMax => apply vamoMax | vamoMinn => apply vamoMinn | vamoMaxn => apply vamoMaxn
  | vamoSwap => apply vamoSwap | vamoCas => apply vamoCas | vamoFadd => apply vamoFadd | vamoFAdd => apply vamoFAdd
  | vamoFAnd => apply vamoFAnd | vamoFOr => apply vamoFOr | vamoFXor => apply vamoFXor | vamoFMin => apply vamoFMin
  | vamoFMax => apply vamoFMax | vamoFMinn => apply vamoFMinn | vamoFMaxn => apply vamoFMaxn | vamoFSwap => apply vamoFSwap
  | vamoFCas => apply vamoFCas | vamoFFadd => apply vamoFFadd
  -- Synchronisation and copies (R182)
  | fenceC => apply fenceC | fenceP => apply fenceP | fenceS => apply fenceS | fenceA => apply fenceA | bwait => apply bwait
  | hpost => apply hpost | hwait => apply hwait | hfset => apply hfset | hfsetBare => apply hfsetBare | hfsetClr => apply hfsetClr
  | hfwait => apply hfwait | cpy => apply cpy | cpy2 => apply cpy2 | cpyx => apply cpyx | twaitall => apply twaitall
  | twaitany => apply twaitany | tfirst => apply tfirst | coll => apply coll
  -- Matrices (R183)
  | gath => apply gath | mmaGr => apply mmaGr | mmaRg => apply mmaRg | mmag => apply mmag | mzero => apply mzero
  | mwait => apply mwait | pload => apply pload | tdrain => apply tdrain | tfill => apply tfill
  -- Graver (R184)
  | gload => apply gload | gset => apply gset | gstateR => apply gstateR | gstateW => apply gstateW | grun => apply grun
  | grun1 => apply grun1 | gcmp => apply gcmp | gfin => apply gfin
  -- UNIMPL (R187)
  | unimpl => apply unimpl
  -- Steps of other agents and the issue groups of a VFETCH block, which have no encoding
  | vfetchIssueGroup | matrixStart | handoffFlagEmptied | mmagGroupComplete | matrixComplete | pagePresent | pageFail
  | vectorQueueIssue | mmioRegisterWrite | qtailWrite | qctlWrite | qstatClear | asshootWrite | shootDownDone | pageWalkFill
  | queueEntryRead | launchAdmission | launchAccept | waitOnValueCheck | signalEntry | queueEntryComplete | threadPlacement
  | coscheduledPlacement | launchCompletion | segmentRelease | periodTurn | energyCharge | contextSwapOut | contextResume
  | bureauContextSwitch | copyPiece | copyComplete | collComplete | storeApply | storeVisibleOnDie | storeAcknowledge
  | globalStoreApply | ackLossDetection | linkFailure | uncorrectableError | patrolScrub | monitorSample | mctlWrite
  | packageReportRequest | keyLoad | keyClear | keyRelease | packageBoot | dieRelease | firmwareUpdate | dieReset
  | functionLevelReset | thermalThrottle | overtempReset | objectLoad | objectLink | storeVisibleToPath | lineWriteBack
  | correctedError | linkRecovery | linkRetransmission | fabricBringUp | hostWrite | fjasAssembly =>
    exact statement_of_encode_eq_none rfl
  -- ILLEGAL_ENCODING (R175), whose codes `Statement` leaves out
  | illegalEncoding => apply illegalEncoding

end Sys2Proof.Laws.EncodeDecode

namespace Sys2Proof.Machine

/-- Settles O2: the rows with an encoding have each a law of its format, and no other row has a code but ILLEGAL_ENCODING. -/
theorem decodeEncode : Obligations.DecodeEncode := by
  unfold Obligations.DecodeEncode
  intro i c hwf hcode hlegal
  exact Laws.EncodeDecode.decodeCode_of_encode i c hcode hwf hlegal

/-- Settles O3: a closed evaluation, in which bit 0 gives a word its size, its major or op5 a table, and the table the operands. -/
theorem decodeWords : Obligations.DecodeWords := by
  unfold Obligations.DecodeWords
  decide

end Sys2Proof.Machine
end

section
/-! PROOFS. 13 Scalar integer instructions and the compact scalar forms (R189, R190, R209), and YIELD (R204). -/

namespace Sys2Proof.Machine

/-- A scalar instruction with ready sources writes its result, in whatever form the result is given. -/
theorem alu_gives {s : State} {rs : List XReg} (h : s.ReadyX rs) {v w : Word} (hv : v = w) (d : XReg) (lat st len : Nat) :
    alu rs d v lat st len s = .next (s.scalarNext d w lat st len) := hv ▸ alu_ready h ..

/-! ### Values of the integer forms -/

section Values
variable (x y : Word)

/-- The high half of a product taken in 128 bits. -/
theorem extract_high_ofInt (i : Int) : (BitVec.ofInt 128 i).extractLsb' 64 64 = BitVec.ofInt 64 (i / 2 ^ 64) := by
  apply BitVec.eq_of_toNat_eq
  rw [BitVec.extractLsb'_toNat, BitVec.toNat_ofInt, BitVec.toNat_ofInt, Nat.shiftRight_eq_div_pow]
  omega

theorem wordOfInt_mulh : wordOfInt (x.toInt * y.toInt / 2 ^ 64) = (x.signExtend 128 * y.signExtend 128).extractLsb' 64 64 := by
  rw [BitVec.signExtend, BitVec.signExtend, ← BitVec.ofInt_mul, extract_high_ofInt, wordOfInt]

theorem ofNat_mulhn : BitVec.ofNat 64 (x.toNat * y.toNat / 2 ^ 64) = (x.setWidth 128 * y.setWidth 128).extractLsb' 64 64 := by
  have hlt : x.toNat * y.toNat < 2 ^ 128 := calc
    x.toNat * y.toNat ≤ (2 ^ 64 - 1) * (2 ^ 64 - 1) := Nat.mul_le_mul (by omega) (by omega)
    _ < 2 ^ 128 := by decide
  apply BitVec.eq_of_toNat_eq
  rw [BitVec.extractLsb'_toNat, BitVec.toNat_mul, BitVec.toNat_setWidth_of_le (by decide), BitVec.toNat_setWidth_of_le (by decide),
    Nat.mod_eq_of_lt hlt, Nat.shiftRight_eq_div_pow, BitVec.toNat_ofNat]

/-- A shift count in the low six bits. -/
theorem toNat_extract_six : (y.extractLsb' 0 6).toNat = y.toNat % 64 := by simp [BitVec.extractLsb'_toNat]

theorem slt_eq_true_iff : x.slt y = true ↔ x.toInt < y.toInt := BitVec.slt_iff_toInt_lt

theorem ult_eq_true_iff : x.ult y = true ↔ x < y := BitVec.ult_iff_lt

theorem wordOfBool_slt : wordOfBool (x.slt y) = if x.toInt < y.toInt then 1 else 0 := by
  simp only [wordOfBool, slt_eq_true_iff]

theorem wordOfBool_ult : wordOfBool (x.ult y) = if x < y then 1 else 0 := by
  simp only [wordOfBool, ult_eq_true_iff]

/-- LIH moves the old value up by 16 bits and puts the immediate below. -/
theorem shiftLeft_or_eq_append (w : BitVec 16) : x <<< 16 ||| w.setWidth 64 = x.extractLsb' 0 48 ++ w := by
  refine BitVec.eq_of_getLsbD_eq fun i hi => ?_
  rw [BitVec.getLsbD_or, BitVec.getLsbD_shiftLeft, BitVec.getLsbD_setWidth, BitVec.getLsbD_append, BitVec.getLsbD_extractLsb',
    Nat.zero_add]
  by_cases h : i < 16
  · simp [h, hi]
  · simp [h, hi, w.getLsbD_of_ge i (by omega), show i - 16 < 48 by omega]

end Values

/-! ### The integer forms (13 R189, R190, R209) -/

/-- Settles O8: each form is `alu` on its sources, so its result is the value that the form computes. -/
theorem integerForms : Obligations.IntegerForms := by
  unfold Obligations.IntegerForms
  refine ⟨fun s d a b st => ⟨fun h => ?_, fun h => ?_⟩, fun s d a imm sh w st => ⟨fun h => ?_, fun h => ?_, ?_⟩,
    fun s b imm sh => ⟨fun h => ?_, fun h => ?_, fun h => ?_, ?_, rfl⟩⟩
  · refine ⟨alu_ready h .., alu_ready h .., alu_ready h .., alu_gives h (wordOfInt_mulh _ _) .., alu_gives h (ofNat_mulhn _ _) ..,
      alu_ready h .., alu_ready h .., alu_ready h .., alu_gives h ?_ .., alu_gives h ?_ .., alu_gives h ?_ .., alu_gives h ?_ ..,
      alu_gives h ?_ .., alu_gives h ?_ .., alu_gives h ?_ .., alu_gives h (wordOfBool_slt _ _) .., alu_gives h (wordOfBool_ult _ _) ..⟩
    · rw [toNat_extract_six]
    · rw [toNat_extract_six]
    · rw [toNat_extract_six]
    · simp only [slt_eq_true_iff]
    · simp only [slt_eq_true_iff]
    · simp only [ult_eq_true_iff]
    · simp only [ult_eq_true_iff]
  · exact alu_gives h (ite_not ..).symm ..
  · refine ⟨alu_ready h .., alu_ready h .., alu_ready h .., alu_ready h .., alu_gives h ?_ .., alu_ready h .., alu_ready h ..,
      alu_ready h ..⟩
    rw [wordOfBool_slt, BitVec.toInt_signExtend_of_le (by decide)]
  · exact alu_gives h (shiftLeft_or_eq_append _ _) ..
  · exact alu_ready (readyX_nil s) ..
  · exact ⟨alu_ready h .., alu_ready h .., alu_ready h .., alu_ready h .., alu_ready h ..⟩
  · exact ⟨alu_ready h .., alu_ready h .., alu_ready h ..⟩
  · exact alu_ready h ..
  · exact alu_ready (readyX_nil s) ..

/-! ### Counting and moving bits (13 R189) -/

/-- The bits above the leading one are clear. -/
theorem getLsbD_above_leading {x : Word} {i : Nat} (h : i < leadingZeros x) : x.getLsbD (63 - i) = false := by
  by_cases hx : x = 0
  · simp [hx]
  · rw [leadingZeros, if_neg hx] at h
    refine Nat.testBit_lt_two_pow (Nat.lt_log2_self.trans_le (Nat.pow_le_pow_right (by decide) ?_))
    omega

/-- The bit below the leading zeros is set. -/
theorem getLsbD_leading {x : Word} (h : leadingZeros x < 64) : x.getLsbD (63 - leadingZeros x) = true := by
  have hx : x ≠ 0 := fun e => by simp [leadingZeros, e] at h
  have hn : x.toNat ≠ 0 := fun e => hx (BitVec.eq_of_toNat_eq e)
  have hlog : x.toNat.log2 < 64 := (Nat.log2_lt hn).mpr x.isLt
  rw [leadingZeros, if_neg hx, show 63 - (63 - x.toNat.log2) = x.toNat.log2 by omega]
  exact Nat.testBit_log2 hn

theorem leadingZeros_le (x : Word) : leadingZeros x ≤ 64 := by
  unfold leadingZeros
  split <;> omega

/-- The trailing zeros end at the lowest set bit, if there is one. -/
theorem trailingZeros_spec (x : Word) : trailingZeros x ≤ 64 ∧ (∀ i, i < trailingZeros x → x.getLsbD i = false) ∧
    (trailingZeros x < 64 → x.getLsbD (trailingZeros x) = true) := by
  unfold trailingZeros
  cases h : (List.range 64).find? (fun i => x.getLsbD i) with
  | none =>
    have hall := List.find?_eq_none.mp h
    refine ⟨Nat.le_refl _, fun i hi => ?_, fun hlt => absurd hlt (Nat.lt_irrefl _)⟩
    simpa using hall i (List.mem_range.mpr hi)
  | some n =>
    obtain ⟨hn, hlt, hbelow⟩ := List.find?_range_eq_some.mp h
    refine ⟨Nat.le_of_lt (List.mem_range.mp hlt), fun i hi => ?_, fun _ => hn⟩
    simpa using hbelow i hi

/-- The set bits, counted over their positions. -/
theorem popCount_eq_card (x : Word) : popCount x = (Finset.univ.filter (fun i : Fin 64 => x.getLsbD i.val = true)).card := by
  show _ = ((List.finRange 64).filter (fun i => decide (x.getLsbD i.val = true))).length
  rw [popCount, ← List.map_coe_finRange_eq_range, List.filter_map, List.length_map]
  simp only [Function.comp_def, Bool.decide_eq_true]

theorem getLsbD_reverse_word (x : Word) {i : Nat} (h : i < 64) : x.reverse.getLsbD (63 - i) = x.getLsbD i := by
  rw [BitVec.getLsbD_reverse, BitVec.getMsbD_eq_getLsbD]
  simp [show 63 - (63 - i) = i by omega, show 63 - i < 64 by omega]

/-- Settles O10: a count stops at the first bit that is set, and BREV is the reversal of the word. -/
theorem integerBitForms : Obligations.IntegerBitForms := by
  unfold Obligations.IntegerBitForms
  intro s d a st h x
  obtain ⟨hle, hlow, hset⟩ := trailingZeros_spec x
  refine ⟨⟨leadingZeros x, alu_ready h .., leadingZeros_le x, fun i => getLsbD_above_leading, getLsbD_leading⟩,
    ⟨trailingZeros x, alu_ready h .., hle, hlow, hset⟩, alu_gives h (congrArg _ (popCount_eq_card x)) ..,
    ⟨x.reverse, alu_ready h .., fun i => getLsbD_reverse_word x⟩⟩

/-! ### YIELD (13 R204) -/

/-- Settles O18: a negative credit stays, any other becomes 0. -/
theorem yieldCapsCredits : Obligations.YieldCapsCredits := by
  unfold Obligations.YieldCapsCredits
  intro s
  refine ⟨_, rfl, rfl, fun i => ?_⟩
  have hcap : ∀ c : BitVec 16, (if c.slt 0 then c else 0).toInt = min c.toInt 0 := fun c => by
    rw [apply_ite BitVec.toInt, min_def]
    have hzero : (0 : BitVec 16).toInt = 0 := rfl
    simp only [BitVec.slt_iff_toInt_lt, hzero]
    split <;> split <;> omega
  exact (congrArg BitVec.toInt (by simp)).trans (hcap (s.me.credits[i]))

end Sys2Proof.Machine
end

section
/-! PROOFS. 13 Scalar floating point (R191 to R193), and branches and jumps (R197 to R199, R209). -/

namespace Sys2Proof.Machine

/-! ### Scalar floating point -/

/-- A thread's scalar floating-point instruction with ready sources writes its result and joins its flags to FFLAGS. -/
theorem fpOp_ready {s : State} (hk : s.me.kind = .thread) {rs : List XReg} (h : s.ReadyX rs) (d : XReg) (r : Nat × FlagSet) (lat st : Nat) :
    fpOp rs d r lat st s = .next ((s.scalarNext d (BitVec.ofNat 64 r.1) lat st 4).modMe
      (fun c => { c with flags := ⟨s.me.flags.ff ||| r.2, s.me.flags.fx⟩ })) := by
  rw [fpOp, threadOnly_thread hk, readsX_ready h]
  simp only [State.scalarNext, State.modMe_modMe, Context.raise, Context.wx_flags]
  rfl

/-- On the Bureau it traps ILL, whatever its operands. -/
theorem fpOp_bureau {s : State} (hk : s.me.kind = .bureau) (rs : List XReg) (d : XReg) (r : Nat × FlagSet) (lat st : Nat) :
    fpOp rs d r lat st s = .next (s.deliverAt .ill s.me.pc s.insWord) := if_pos hk

/-- Settles O11: every form is `fpOp` of the value its operation computes from the low bits of its sources. -/
theorem scalarFloats : Obligations.ScalarFloats := by
  unfold Obligations.ScalarFloats
  refine ⟨fun s f rm d a b st hk => ⟨fun h => ?_, fun h => fpOp_ready hk h .., fun h => ?_⟩, fun s f rm d a b st k cc hk i hi => ?_⟩
  · exact ⟨fpOp_ready hk h .., fpOp_ready hk h .., fpOp_ready hk h .., fpOp_ready hk h .., fpOp_ready hk h .., fpOp_ready hk h ..,
      fun _ => fpOp_ready hk h ..⟩
  · exact ⟨fpOp_ready hk h .., fpOp_ready hk h .., fun _ => fpOp_ready hk h ..⟩
  · simp only [List.mem_cons, List.not_mem_nil, or_false] at hi
    rcases hi with rfl | rfl | rfl | rfl | rfl | rfl | rfl | rfl | rfl | rfl | rfl <;> exact fpOp_bureau hk ..

/-! ### Branches -/

/-- A branch with ready sources goes on at its target or behind itself. -/
theorem branch_ready {s : State} {rs : List XReg} (h : s.ReadyX rs) {taken taken' : Bool} (ht : taken = taken') (off : Word) (len : Nat) :
    branch rs taken off len s = .next (s.goTo (if taken' then s.me.pc + off * 2 else s.me.pc + BitVec.ofNat 64 len)) := by
  subst ht
  rw [branch, readsX_ready h]
  cases taken <;> rfl

theorem sge_eq_decide (x y : Word) : (!x.slt y) = decide (y.toInt ≤ x.toInt) := by
  rw [BitVec.slt_eq_decide, ← decide_not, decide_eq_decide, Int.not_lt]

theorem uge_eq_decide (x y : Word) : (!x.ult y) = decide (y ≤ x) := by
  rw [BitVec.ult_eq_decide_lt, ← decide_not, decide_eq_decide, BitVec.not_lt]

/-! ### Calls and marks (13 R198, R199) -/

/-- A call leaves the link and goes on at its target. -/
theorem modMe_call (s : State) (d : XReg) (target : Word) :
    s.modMe (fun c => c.call d target) = (s.modMe (fun c => c.wx d (s.me.pc + 4) 0)).goTo target := rfl

/-- The bits of a field of a word. -/
def fieldMask (n p k : Nat) : BitVec n := (BitVec.allOnes k).setWidth n <<< p

theorem getLsbD_fieldMask (n p k i : Nat) : (fieldMask n p k).getLsbD i = (decide (i < n) && decide (p ≤ i) && decide (i - p < k)) := by
  rw [fieldMask, BitVec.getLsbD_shiftLeft, BitVec.getLsbD_setWidth, BitVec.getLsbD_allOnes]
  grind

theorem and_fieldMask {n : Nat} (w : BitVec n) (p k : Nat) : w &&& fieldMask n p k = (w.extractLsb' p k).setWidth n <<< p := by
  refine BitVec.eq_of_getLsbD_eq fun i hi => ?_
  rw [BitVec.getLsbD_and, getLsbD_fieldMask, BitVec.getLsbD_shiftLeft, BitVec.getLsbD_setWidth, BitVec.getLsbD_extractLsb']
  grind

theorem placed_and_not_fieldMask {n k : Nat} (x : BitVec k) (p : Nat) : (x.setWidth n <<< p) &&& ~~~fieldMask n p k = 0#n := by
  refine BitVec.eq_of_getLsbD_eq fun i hi => ?_
  rw [BitVec.getLsbD_and, BitVec.getLsbD_not, getLsbD_fieldMask, BitVec.getLsbD_shiftLeft, BitVec.getLsbD_setWidth, BitVec.getLsbD_zero]
  have := fun h : k ≤ i - p => x.getLsbD_of_ge (i - p) h
  grind

theorem extractLsb'_placed {n k : Nat} (x : BitVec k) {p : Nat} (h : p + k ≤ n) : (x.setWidth n <<< p).extractLsb' p k = x := by
  refine BitVec.eq_of_getLsbD_eq fun i hi => ?_
  rw [BitVec.getLsbD_extractLsb', BitVec.getLsbD_shiftLeft, BitVec.getLsbD_setWidth]
  simp [hi, show p + i < n by omega, show i < n by omega]

/-- The word of a CMARK is fixed but for its class. -/
theorem isMark_iff (w : BitVec 32) (k : BitVec 11) : isMark (.w32 w) k = true ↔ w = 0x211#32 ||| (k.setWidth 32 <<< 16) := by
  have hmark : isMark (.w32 w) k = true ↔ w &&& 0xF800FFFF = 0x211 ∧ w.extractLsb' 16 11 = k := by
    rw [isMark, Bool.and_eq_true, beq_iff_eq, beq_iff_eq]
  have hmask : (0xF800FFFF : BitVec 32) = ~~~fieldMask 32 16 11 := rfl
  rw [hmark, hmask]
  constructor
  · rintro ⟨hfix, rfl⟩
    calc w = w &&& ~~~fieldMask 32 16 11 ||| w &&& fieldMask 32 16 11 := by
          rw [← BitVec.and_or_distrib_left, BitVec.not_or_self, BitVec.and_allOnes]
      _ = _ := by rw [hfix, and_fieldMask]; rfl
  · rintro rfl
    constructor
    · rw [BitVec.and_or_distrib_right, placed_and_not_fieldMask]
      rfl
    · rw [BitVec.extractLsb'_or, extractLsb'_placed k (by decide)]
      exact BitVec.zero_or

section Calls
variable {s : State} (d : XReg) {a : XReg} (h : s.ReadyX [a])
include h

theorem exec_jalr_ready (imm : BitVec 11) : exec (.jalr d a imm) s =
    if (s.rx a + imm.signExtend 64 * 2).getLsbD 0 then .next (s.deliverAt .align s.me.pc (s.rx a + imm.signExtend 64 * 2))
    else .next (s.modMe (fun c => c.call d (s.rx a + imm.signExtend 64 * 2))) := readsX_ready h _

theorem exec_calli_odd (k : BitVec 11) (ho : (s.rx a).getLsbD 0 = true) :
    exec (.calli d a k) s = .next (s.deliverAt .align s.me.pc (s.rx a)) := (readsX_ready h _).trans (if_pos ho)

theorem exec_calli_fetched (k : BitVec 11) (he : (s.rx a).getLsbD 0 = false) {c : Code} (hc : s.fetchCode s.me (s.rx a) = .ok c) :
    exec (.calli d a k) s = if isMark c k then .next (s.modMe (fun c => c.call d (s.rx a)))
      else .next (s.deliverAt .cfi s.me.pc (s.rx a)) := by
  refine (readsX_ready h _).trans ((if_neg (by rw [he]; exact Bool.false_ne_true)).trans ?_)
  rw [hc]
  rfl

end Calls

/-- Settles O13: a branch is `branch` of its comparison, a call is `Context.call` behind the checks of its target. -/
theorem branchesAndJumps : Obligations.BranchesAndJumps := by
  unfold Obligations.BranchesAndJumps
  refine ⟨fun s a b off imm => ⟨fun h => ?_, fun h => ?_⟩, fun s d a off imm k => ⟨rfl, fun h => ?_, rfl⟩⟩
  · exact ⟨branch_ready h (beq_eq_decide ..) .., branch_ready h (decide_not.symm) .., branch_ready h rfl ..,
      branch_ready h (sge_eq_decide ..) .., branch_ready h rfl .., branch_ready h (uge_eq_decide ..) ..⟩
  · exact ⟨branch_ready h (decide_not.symm) .., branch_ready h (beq_eq_decide ..) ..⟩
  · refine ⟨fun he => ?_, fun ho => ?_, fun he => ⟨fun w hw => ⟨fun hm => ?_, fun hm => ?_⟩, fun c hc => ?_⟩,
      exec_calli_odd d h k⟩
    · refine (exec_jalr_ready d h imm).trans ?_
      rw [he, if_neg Bool.false_ne_true, modMe_call]
    · rw [exec_jalr_ready d h, if_pos ho]
    · refine (exec_calli_fetched d h k he hw).trans ?_
      rw [if_pos ((isMark_iff w k).mpr hm), modMe_call]
    · rw [exec_calli_fetched d h k he hw, if_neg (fun e => hm ((isMark_iff w k).mp e))]
    · rw [exec_calli_fetched d h k he hc]
      rfl

end Sys2Proof.Machine
end

section
/-! PROOFS. 13 Traps and TRET (R200, R201; 12 R187; 02 R21), and the end of a launch for a trap that no handler takes (05 R79;
07 R110). -/

namespace Sys2Proof.Machine

/-! ### Words that firmware may define (12 R187) -/

section Unimpl
variable {s : State} (w : BitVec 32)

theorem exec_unimpl_minor_zero (h : s.fw.isaver.extractLsb' 8 8 = 0) :
    exec (.unimpl w) s = .next (s.deliverAt .unimpl s.me.pc (w.setWidth 64)) :=
  if_neg (by simp [State.wordDefined, h])

theorem exec_unimpl_updated (h : s.fw.isaver.extractLsb' 8 8 ≠ 0) :
    exec (.unimpl w) s = if Config.wordDefined s.fw.isaver.toNat w.toNat then .refused .firmwareDefined
      else .next (s.deliverAt .unimpl s.me.pc (w.setWidth 64)) := by
  have hword : s.wordDefined w = Config.wordDefined s.fw.isaver.toNat w.toNat := by
    rw [State.wordDefined, bne_iff_ne.mpr h, Bool.true_and]
  show (if s.wordDefined w then _ else _) = _
  rw [hword]
  rfl

end Unimpl

/-- Settles O14: a delivered trap is `Context.enterTrap`, and TRET is `Context.leaveTrap`. -/
theorem trapsAndReturn : Obligations.TrapsAndReturn := by
  unfold Obligations.TrapsAndReturn
  refine ⟨fun s imm w h => ?_, fun s w => exec_unimpl_updated w, fun s => ⟨fun h => ?_, fun h => if_neg (by simp [h])⟩⟩
  · have hentered := deliverAt_handler h.1 h.2
    exact ⟨congrArg _ (hentered ..), congrArg _ (hentered ..),
      fun hminor => (exec_unimpl_minor_zero w hminor).trans (congrArg _ (hentered ..))⟩
  · refine ⟨_, if_pos h, rfl, rfl, fun b hb hheld haddr => ?_, fun b hb hother => ?_⟩
    · simp [Context.leaveTrap, hb, hheld, haddr]
    · simp [Context.leaveTrap, hb, hother]

/-! ### Retiring leaves everything but clusters and groups (02 R31; 13 R201) -/

/-- Two states that differ at most in their clusters and group records. -/
def State.SameButSlots (s t : State) : Prop := ∃ c g, t = { s with clusters := c, groups := g }

theorem State.SameButSlots.refl (s : State) : s.SameButSlots s := ⟨s.clusters, s.groups, rfl⟩

theorem State.SameButSlots.trans {s t u : State} (h : s.SameButSlots t) (h' : t.SameButSlots u) : s.SameButSlots u := by
  obtain ⟨c, g, rfl⟩ := h
  obtain ⟨c', g', rfl⟩ := h'
  exact ⟨c', g', rfl⟩

theorem State.SameButSlots.me {s t : State} (h : s.SameButSlots t) : t.me = s.me := by
  obtain ⟨c, g, rfl⟩ := h
  rfl

theorem State.SameButSlots.others {s t : State} (h : s.SameButSlots t) : t.others = s.others := by
  obtain ⟨c, g, rfl⟩ := h
  rfl

theorem State.SameButSlots.memory {s t : State} (h : s.SameButSlots t) : t.mem = s.mem ∧ t.stores = s.stores := by
  obtain ⟨c, g, rfl⟩ := h
  exact ⟨rfl, rfl⟩

theorem State.SameButSlots.foldl {α : Type} {f : State → α → State} (hf : ∀ (s : State) (a : α), s.SameButSlots (f s a)) (l : List α) :
    ∀ s : State, s.SameButSlots (l.foldl f s) := by
  induction l with
  | nil => exact .refl
  | cons a l ih => exact fun s => (hf s a).trans (ih _)

theorem State.leaveGroup_sameButSlots (s : State) (m : Membership) : s.SameButSlots (s.leaveGroup m) := by
  unfold State.leaveGroup
  split
  · extract_lets g g1
    split <;> exact ⟨_, _, rfl⟩
  · exact .refl s

theorem State.freeSlot_sameButSlots (s : State) (c : Context) (swap : Bool) : s.SameButSlots (s.freeSlot c swap) := by
  unfold State.freeSlot
  split <;> exact ⟨_, _, rfl⟩

theorem State.leaveGroups_sameButSlots (s : State) (l : List Membership) : s.SameButSlots (l.foldl State.leaveGroup s) :=
  .foldl State.leaveGroup_sameButSlots l s

theorem State.retire_sameButSlots (s : State) (c : Context) : s.SameButSlots (s.retire c) := by
  unfold State.retire
  extract_lets s1
  split
  · exact (s.leaveGroups_sameButSlots c.members).trans (s1.freeSlot_sameButSlots c false)
  · exact s.leaveGroups_sameButSlots c.members

theorem State.dropUnplaced_sameButSlots (s : State) (l : Launch) : s.SameButSlots (s.dropUnplaced l) := by
  unfold State.dropUnplaced
  split
  · extract_lets g n g1
    split <;> exact ⟨_, _, rfl⟩
  · exact .refl s

theorem State.SameButSlots.mapContexts {s t : State} (h : s.SameButSlots t) (f : Context → Context) :
    (s.mapContexts f).SameButSlots (t.mapContexts f) := by
  obtain ⟨c, g, rfl⟩ := h
  exact ⟨c, g, rfl⟩

/-- A launch that has not ended ends: its contexts are over, and beside them only slots, groups, the launch's stage and its queue
change. -/
theorem State.endLaunch_running {s : State} {n : Nat} {l : Launch} (hl : s.launch n = some l) (hs : l.stage ≠ .ended) (reason : BitVec 4) :
    ∃ u, (s.mapContexts (fun c => if c.launch = n then c.endNow else c)).SameButSlots u ∧
      s.endLaunch n reason = (u.modLaunch n (fun k => { k with stage := .ended })).stopQueue l.queue reason l.seq := by
  have hretired : s.SameButSlots
      (((s.contexts.filter (fun c => c.launch == n && c.status != .exited)).foldl State.retire s).emptyMq n) :=
    (State.SameButSlots.foldl State.retire_sameButSlots _ s).trans ⟨_, _, rfl⟩
  have hended := hretired.mapContexts (fun c => if c.launch = n then c.endNow else c)
  rw [State.endLaunch, hl]
  dsimp only
  rw [if_neg hs]
  refine ⟨_, ?_, rfl⟩
  split
  · exact hended.trans (State.dropUnplaced_sameButSlots _ l)
  · exact hended

/-- Settles O15: the trap is not delivered but ends the launch, and ending it maps every context of the launch to `endNow`. -/
theorem trapWithoutHandlerEndsLaunch : Obligations.TrapWithoutHandlerEndsLaunch := by
  unfold Obligations.TrapWithoutHandlerEndsLaunch
  intro s imm l hnone hl hs
  obtain ⟨u, hu, hends⟩ := State.endLaunch_running hl hs 2
  have hexec : exec (.trap imm) s = .next ((u.modLaunch s.me.launch (fun k => { k with stage := .ended })).stopQueue l.queue 2 l.seq) :=
    congrArg Host.Outcome.next ((deliverAt_ends hnone ..).trans hends)
  have hme : u.me = s.me.endNow := hu.me.trans (if_pos rfl)
  obtain ⟨hstop, hreason, hseq⟩ :=
    (u.modLaunch s.me.launch (fun k => { k with stage := .ended })).stopQueue_stops l.queue 2 l.seq
  refine ⟨_, hexec, congrArg Context.status hme, congrArg Context.members hme, fun c hc hlaunch => ?_, hstop, hreason, hseq, hu.memory.1,
    hu.memory.2, (congrArg Context.x hme :), (congrArg Context.pc hme :)⟩
  obtain ⟨d, -, rfl⟩ := List.mem_map.mp (hu.others ▸ hc)
  by_cases hd : d.launch = s.me.launch
  · rw [if_pos hd]
    rfl
  · rw [if_neg hd, State.launch_id hl] at hlaunch
    exact absurd hlaunch hd

end Sys2Proof.Machine
end

section
/-! PROOFS. 13 System registers: SRD and SWR (R202; 05 R78, R79; 12 R186). -/

namespace Sys2Proof.Machine

/-! ### SRD -/

/-- No earlier instruction of a thread changes a system register late. -/
theorem State.sysBusy_thread {s : State} (hk : s.me.kind = .thread) (n : Nat) : s.sysBusy n = false := by simp [State.sysBusy, hk]

section Read
variable {s : State} (d : XReg) {n : BitVec 11}

/-- SRD of a register that exists and that nothing changes late writes its value to xd. -/
theorem exec_srd_reads (he : sysExists s.me.kind n.toNat = true) (hb : s.sysBusy n.toNat = false) :
    exec (.srd d n) s = .next (s.scalarNext d (s.sysRead n.toNat) 0 0 4) := by
  show execSrd d n s = _
  rw [execSrd, he, hb]
  rfl

theorem exec_srd_waits (he : sysExists s.me.kind n.toNat = true) (hb : s.sysBusy n.toNat = true) : exec (.srd d n) s = .next s := by
  show execSrd d n s = _
  rw [execSrd, he, hb]
  rfl

theorem exec_srd_absent (he : sysExists s.me.kind n.toNat = false) : exec (.srd d n) s = .next (s.deliverAt .ill s.me.pc s.insWord) := by
  show execSrd d n s = _
  rw [execSrd, he]
  rfl

theorem exec_srd_thread (hk : s.me.kind = .thread) (he : sysExists .thread n.toNat = true) {v : Word} (hv : s.sysRead n.toNat = v) :
    exec (.srd d n) s = .next (s.scalarNext d v 0 0 4) := by
  rw [exec_srd_reads d (hk ▸ he) (State.sysBusy_thread hk _), hv]

end Read

/-! ### SWR -/

section Write
variable {s : State} {a : XReg} {n : BitVec 11}

theorem exec_swr_absent (a : XReg) (he : sysExists s.me.kind n.toNat = false) :
    exec (.swr n a) s = .next (s.deliverAt .ill s.me.pc s.insWord) := by
  show execSwr n a s = _
  rw [execSwr, he]
  rfl

variable (h : s.ReadyX [a])
include h

theorem exec_swr_readOnly (he : sysExists s.me.kind n.toNat = true) (hw : sysWritable n.toNat = false) :
    exec (.swr n a) s = .next (s.deliverAt .prot s.me.pc (n.setWidth 64)) := by
  show execSwr n a s = _
  rw [execSwr, he, readsX_ready h, hw]
  rfl

theorem exec_swr_waits (he : sysExists s.me.kind n.toNat = true) (hw : sysWritable n.toNat = true) (hb : s.sysBusy n.toNat = true) :
    exec (.swr n a) s = .next s := by
  show execSwr n a s = _
  rw [execSwr, he, readsX_ready h, hw, hb]
  rfl

/-- SWR of a thread's own writable register. -/
theorem exec_swr_thread (hk : s.me.kind = .thread) (he : sysExists .thread n.toNat = true) (hw : sysWritable n.toNat = true)
    (hm : monitorReg n.toNat = none) {c : Context} (hc : (s.me.sysWrite n.toNat (s.rx a)).done 0 4 = c) :
    exec (.swr n a) s = .next { s with me := c } := by
  show execSwr n a s = _
  rw [execSwr, hk, he, readsX_ready h, hw, State.sysBusy_thread hk, hm, ← hc]
  rfl

end Write

/-! ### The words of composed registers and of written fields -/

theorem clidWord_thread {c : Context} (hk : c.kind = .thread) : clidWord c = BitVec.ofNat 64 (c.cl.val % 8 + 8 * c.slot.val) := by
  rw [clidWord, hk, Nat.mul_comm]

theorem ldregWord_thread {c : Context} (hk : c.kind = .thread) : ldregWord c = BitVec.ofNat 64 (c.ldx.val + 2 ^ 8 * c.vec.ldv.val) := by
  rw [ldregWord, hk]
  dsimp only
  rw [Nat.mul_comm]
  rfl

theorem Context.die_val (c : Context) : c.die.val = c.cl.val / 8 := Nat.mod_eq_of_lt (by omega)

theorem TrapRegs.causeWord_eq (t : TrapRegs) : t.causeWord = BitVec.ofNat 64 (t.code.toNat + if t.blk then 2 ^ 9 else 0) := by
  rw [TrapRegs.causeWord, Nat.add_comm]
  cases t.blk <;> rfl

theorem ofNat_toNat_bool (b : Bool) : BitVec.ofNat 64 b.toNat = if b then 1 else 0 := by cases b <;> rfl

/-- A value above MMREV is written as MMREV (05 R79). -/
theorem mmrs_written (v : Word) : (if (v.setWidth 4 : BitVec 4).ult 2 then v.setWidth 4 else 1 : BitVec 4) =
    if v.toNat % 16 ≤ 1 then v.setWidth 4 else 1 := by
  have hiff : (v.setWidth 4 : BitVec 4).ult 2 = true ↔ v.toNat % 16 ≤ 1 := by
    rw [BitVec.ult_iff_toNat_lt, BitVec.toNat_setWidth]
    exact Nat.lt_succ_iff
  simp only [hiff]

theorem setWidth_eq_extract_low (v : Word) {n : Nat} (h : n ≤ 64) : v.setWidth n = v.extractLsb' 0 n := BitVec.setWidth_eq_extractLsb' h

/-- A register number taken from the five bits of a word at a place. -/
theorem x5_field (v : Word) (n : Nat) : x5 ((v >>> n).setWidth 5) = ⟨v.toNat / 2 ^ n % 32, Nat.mod_lt _ (by decide)⟩ :=
  Fin.ext (by
    show ((v >>> n).setWidth 5).toNat = v.toNat / 2 ^ n % 32
    rw [BitVec.toNat_setWidth, BitVec.toNat_ushiftRight, Nat.shiftRight_eq_div_pow])

theorem Context.sysWrite_ldreg {c : Context} (hk : c.kind = .thread) (v : Word) : c.sysWrite 0x026 v =
    { c with ldx := ⟨v.toNat % 32, Nat.mod_lt _ (by decide)⟩
             vec := { c.vec with ldv := ⟨v.toNat / 256 % 32, Nat.mod_lt _ (by decide)⟩ } } := by
  have hldx : x5 (v.setWidth 5) = ⟨v.toNat % 32, Nat.mod_lt _ (by decide)⟩ := Fin.ext (BitVec.toNat_setWidth ..)
  have hldv : x5 ((v >>> 8).setWidth 5) = ⟨v.toNat / 256 % 32, Nat.mod_lt _ (by decide)⟩ := x5_field v 8
  rw [← hldx, ← hldv]
  cases c
  cases hk
  rfl

/-! ### What a Bureau waits for (05 R78) -/

section Bureau
variable {s : State} (hk : s.me.kind = .bureau)
include hk

theorem State.sysBusy_fflags : s.sysBusy 0x025 = !s.myCluster.mq.isEmpty := by
  have hflags : ∀ e : MatEntry, (e.flag.any fun h => 0x80 + h.val == 0x025) = false := fun e => by
    cases e.flag with
    | none => rfl
    | some h => exact beq_false_of_ne (by omega)
  simp [State.sysBusy, hk, hflags]

theorem State.sysBusy_flag (f : Fin 32) : s.sysBusy (0x80 + f.val) = true ↔ ∃ e ∈ s.myCluster.mq, e.flag = some f := by
  have hflag : ∀ e : MatEntry, (e.flag.any fun h => 0x80 + h.val == 0x80 + f.val) = true ↔ e.flag = some f := fun e => by
    cases e.flag with
    | none => simp
    | some h => simp [Fin.ext_iff]
  simp [State.sysBusy, hk, hflag, show 0x80 + f.val ≠ 0x025 by omega]

end Bureau

theorem flagReg_toNat (f : Fin 32) : (0x080 + BitVec.ofNat 11 f.val).toNat = 0x80 + f.val := by
  rw [BitVec.toNat_add, BitVec.toNat_ofNat]
  simp
  omega

theorem sysExists_flag (kind : CtxKind) (f : Fin 32) : sysExists kind (0x80 + f.val) = true := by
  cases kind <;> decide +revert

theorem State.sysRead_flag (s : State) (f : Fin 32) : s.sysRead (0x80 + f.val) = (s.myCluster.hf[f]).word := by
  fin_cases f <;> rfl

/-- The registers that a thread has and cannot write. -/
theorem readOnly_of_mem {n : BitVec 11} (h : n ∈ [0x000#11, 0x001, 0x004, 0x005, 0x006, 0x021, 0x022, 0x023, 0x040, 0x041]) :
    sysExists .thread n.toNat = true ∧ sysWritable n.toNat = false := by
  revert n
  decide

/-- Settles O16: a thread reads and writes its own registers at once; a Bureau waits for what its matrix queue still changes. -/
theorem systemRegisters : Obligations.SystemRegisters := by
  unfold Obligations.SystemRegisters
  refine ⟨fun s d hk => ?_, fun s a hk h => ?_, fun s d a n => ⟨fun hk => ⟨fun hq => ?_, fun hq => ?_, fun f => ?_⟩, fun hk => ⟨?_, ?_⟩⟩⟩
  · refine ⟨exec_srd_thread d hk rfl rfl, exec_srd_thread d hk rfl rfl, exec_srd_thread d hk rfl rfl,
      exec_srd_thread d hk rfl (ofNat_toNat_bool _), exec_srd_thread d hk rfl ?_, exec_srd_thread d hk rfl (clidWord_thread hk),
      exec_srd_thread d hk rfl ?_, exec_srd_thread d hk rfl rfl, exec_srd_thread d hk rfl rfl,
      exec_srd_thread d hk rfl (TrapRegs.causeWord_eq _), exec_srd_thread d hk rfl rfl, exec_srd_thread d hk rfl rfl,
      exec_srd_thread d hk rfl rfl, exec_srd_thread d hk rfl rfl, exec_srd_thread d hk rfl rfl, exec_srd_thread d hk rfl rfl,
      exec_srd_thread d hk rfl rfl, exec_srd_thread d hk rfl rfl, exec_srd_thread d hk rfl rfl, exec_srd_thread d hk rfl rfl,
      exec_srd_thread d hk rfl (ldregWord_thread hk), fun i => ?_, fun n he => exec_srd_thread d hk he rfl⟩
    · show (match s.me.kind with | .thread => s.me.sys.share.setWidth 64 | .bureau => 0) = _
      rw [hk]
    · show BitVec.ofNat 64 (s.fw.dev.toNat * 4096 + s.me.die.val) = _
      rw [Context.die_val]
      rfl
    · fin_cases i <;> exact exec_srd_thread d hk rfl rfl
  · refine ⟨exec_swr_thread h hk rfl rfl rfl ?_, exec_swr_thread h hk rfl rfl rfl rfl, exec_swr_thread h hk rfl rfl rfl rfl,
      exec_swr_thread h hk rfl rfl rfl rfl, exec_swr_thread h hk rfl rfl rfl ?_, exec_swr_thread h hk rfl rfl rfl rfl,
      exec_swr_thread h hk rfl rfl rfl ?_, exec_swr_thread h hk rfl rfl rfl rfl, exec_swr_thread h hk rfl rfl rfl ?_,
      exec_swr_thread h hk rfl rfl rfl rfl, exec_swr_thread h hk rfl rfl rfl ?_, exec_swr_thread h hk rfl rfl rfl ?_,
      exec_swr_thread h hk rfl rfl rfl ?_, fun i => ?_⟩
    · rw [← mmrs_written]
      rfl
    · rw [← setWidth_eq_extract_low _ (by decide)]
      rfl
    · rw [← setWidth_eq_extract_low _ (by decide)]
      rfl
    · rw [← setWidth_eq_extract_low _ (by decide)]
      rfl
    · rw [← setWidth_eq_extract_low _ (by decide)]
      rfl
    · rw [← setWidth_eq_extract_low _ (by decide)]
      rfl
    · exact congrArg (Context.done · 0 4) (Context.sysWrite_ldreg hk _)
    · rw [← setWidth_eq_extract_low _ (by decide)]
      fin_cases i <;> exact exec_swr_thread h hk rfl rfl rfl rfl
  · have hbusy : s.sysBusy 0x025 = true := by simpa [State.sysBusy_fflags hk] using hq
    have hexists : sysExists s.me.kind 0x025 = true := by rw [hk]; rfl
    exact ⟨exec_srd_waits d hexists hbusy, fun h => exec_swr_waits h hexists rfl hbusy⟩
  · exact exec_srd_reads d (by rw [hk]; rfl) ((State.sysBusy_fflags hk).trans (by rw [hq]; rfl))
  · intro r
    have hreg : r.toNat = 0x80 + f.val := flagReg_toNat f
    have hexists : sysExists s.me.kind r.toNat = true := hreg ▸ sysExists_flag _ f
    refine ⟨fun hq => exec_srd_waits d hexists (by rw [hreg, State.sysBusy_flag hk]; exact hq), fun hq => ?_⟩
    have hfree : s.sysBusy r.toNat = false := by
      rw [hreg, Bool.eq_false_iff, Ne, State.sysBusy_flag hk]
      exact fun ⟨e, he, hf⟩ => hq e he hf
    rw [exec_srd_reads d hexists hfree, hreg, State.sysRead_flag]
  · exact fun he => ⟨exec_srd_absent d (hk ▸ he), exec_swr_absent a (hk ▸ he)⟩
  · exact fun hn h => exec_swr_readOnly h (hk ▸ (readOnly_of_mem hn).1) (readOnly_of_mem hn).2

end Sys2Proof.Machine
end

section
/-! PROOFS. 13 Group membership: JOIN and LEAVE (R206; 02 R15; 08 R125). -/

namespace Sys2Proof.Machine

theorem Assoc.has_set_same {β : Type} (l : List (Nat × β)) (k : Nat) (v : β) : Assoc.has (Assoc.set l k v) k = true := by
  induction l with
  | nil => simp [Assoc.set, Assoc.has]
  | cons p r ih =>
    by_cases hp : p.1 = k
    · simp [Assoc.set, Assoc.has, hp]
    · simpa [Assoc.set, Assoc.has, hp] using ih

/-- What a scalar register write leaves of the memberships, and that they can change on either side of it. -/
theorem Context.wx_done_members (c : Context) (d : XReg) (v : Word) (m : List Membership) :
    ({ c with members := m }.wx d v 0).done 0 4 = { (c.wx d v 0).done 0 4 with members := m } := by
  by_cases hd : d = 0 <;> simp [Context.wx, Context.done, hd]

/-- Becoming a member changes the context's memberships and the group's record alone. -/
theorem State.joinGroup_adds (s : State) (g : Nat) : ∃ m r, m.gid = g ∧ m.last = none ∧ Assoc.has r g = true ∧
    s.joinGroup g = { s with me := { s.me with members := s.me.members ++ [m] }, groups := r } := by
  unfold State.joinGroup
  split
  · exact ⟨_, _, rfl, rfl, Assoc.has_set_same .., rfl⟩
  · exact ⟨_, _, rfl, rfl, Assoc.has_set_same .., rfl⟩

/-- Leaving a group changes group records alone. -/
theorem State.leaveGroup_groups (s : State) (m : Membership) : ∃ r, s.leaveGroup m = { s with groups := r } := by
  unfold State.leaveGroup
  split
  · extract_lets g g1
    split <;> exact ⟨_, rfl⟩
  · exact ⟨_, rfl⟩

/-! ### The statuses, in the order of R206 -/

section Status
variable {s : State} {n : Nat}

theorem State.join_beyond (h : n > 0xFFF) : s.join n = (statusWord (-4), s) := if_pos h

variable (hn : n ≤ 0xFFF)
include hn

theorem State.join_member (hm : s.me.members.any (fun m => m.gid == n) = true) : s.join n = (statusWord (-1), s) := by
  rw [State.join, if_neg (by omega), if_pos hm]

variable (hm : s.me.members.any (fun m => m.gid == n) = false)
include hm

theorem State.join_full (hf : 8 ≤ s.me.members.length) : s.join n = (statusWord (-3), s) := by
  rw [State.join, if_neg (by omega), if_neg (by simp [hm]), if_pos hf]

variable (hf : s.me.members.length < 8)
include hf

omit hn in
theorem State.join_any_none (ha : n = 0xFFF) (hfree : s.freeGroup s.me.die = none) : s.join n = (statusWord (-2), s) := by
  rw [State.join, if_neg (by omega), if_neg (by simp [hm]), if_neg (by omega), if_pos ha, hfree]

omit hn in
theorem State.join_any_some (ha : n = 0xFFF) {g : Nat} (hfree : s.freeGroup s.me.die = some g) :
    s.join n = (BitVec.ofNat 64 g, s.joinGroup g) := by
  rw [State.join, if_neg (by omega), if_neg (by simp [hm]), if_neg (by omega), if_pos ha, hfree]

theorem State.join_named (ha : n < 0xFFF) : s.join n = (BitVec.ofNat 64 n, s.joinGroup n) := by
  rw [State.join, if_neg (by omega), if_neg (by simp [hm]), if_neg (by omega), if_neg (by omega)]

end Status

section Leave
variable {s : State} {n : Nat}

theorem State.leave_beyond (h : 0xFFF ≤ n) : s.leave n = (statusWord (-4), s) := if_pos h

theorem State.leave_stranger (h : n < 0xFFF) (hm : s.me.members.any (fun m => m.gid == n) = false) :
    s.leave n = (statusWord (-5), s) := by
  have hnone : s.me.members.find? (fun m => m.gid == n) = none := List.find?_eq_none.mpr (List.any_eq_false.mp hm)
  rw [State.leave, if_neg (by omega), hnone]

theorem State.leave_member (h : n < 0xFFF) (hm : s.me.members.any (fun m => m.gid == n) = true) :
    ∃ r, s.leave n = (0, { s with me := { s.me with members := s.me.members.filter (fun m => m.gid != n) }, groups := r }) := by
  obtain ⟨m, hfound⟩ := Option.isSome_iff_exists.mp (List.find?_isSome.trans List.any_eq_true.symm |>.mpr hm)
  obtain ⟨r, hr⟩ := s.leaveGroup_groups m
  refine ⟨r, ?_⟩
  rw [State.leave, if_neg (by omega), hfound]
  dsimp only
  rw [hr]
  rfl

end Leave

/-! ### The two instructions -/

section Run
variable {s : State} {d a : XReg} (hk : s.me.kind = .thread) (h : s.ReadyX [a])
include hk h

theorem exec_join_ready {r : Word × State} (hr : s.join (s.rx a).toNat = r) :
    exec (.join d a) s = .next (r.2.modMe (fun c => (c.wx d r.1 0).done 0 4)) := by
  show execJoin d a s = _
  rw [execJoin, threadOnly_thread hk, readsX_ready h, ← hr]

theorem exec_leave_ready {r : Word × State} (hr : s.leave (s.rx a).toNat = r) :
    exec (.leave d a) s = .next (r.2.modMe (fun c => (c.wx d r.1 0).done 0 4)) := by
  show execLeave d a s = _
  rw [execLeave, threadOnly_thread hk, readsX_ready h, ← hr]

/-- A JOIN that succeeds adds one membership and answers the group's number. -/
theorem exec_join_adds {g : Nat} (hr : s.join (s.rx a).toNat = (BitVec.ofNat 64 g, s.joinGroup g)) :
    ∃ t m, exec (.join d a) s = .next t ∧
      t.me = { (s.me.wx d (BitVec.ofNat 64 g) 0).done 0 4 with members := s.me.members ++ [m] } ∧ m.gid = g ∧ m.last = none ∧
      Assoc.has t.groups g = true ∧ t = { s with me := t.me, groups := t.groups } := by
  obtain ⟨m, r, hgid, hlast, hhas, hjoined⟩ := s.joinGroup_adds g
  rw [hjoined] at hr
  exact ⟨_, m, exec_join_ready hk h hr, Context.wx_done_members .., hgid, hlast, hhas, rfl⟩

end Run

/-- Settles O19: each status of `State.join` and `State.leave` under its own condition, then what a success changes. -/
theorem groupMembership : Obligations.GroupMembership := by
  unfold Obligations.GroupMembership
  intro s d a hk h
  refine ⟨fun hn => exec_join_ready hk h (State.join_beyond hn), fun hn hm => exec_join_ready hk h (State.join_member hn hm),
    fun hn hm hf => exec_join_ready hk h (State.join_full hn hm hf), fun ha hm hf hfree => ?_, fun ha hm hf g hfree => ?_,
    fun hn hm hf => exec_join_adds hk h (State.join_named hn.le hm hf hn), fun hn => exec_leave_ready hk h (State.leave_beyond hn),
    fun hn hm => exec_leave_ready hk h (State.leave_stranger hn hm), fun hn hm => ?_⟩
  · exact exec_join_ready hk h (State.join_any_none hm hf ha hfree)
  · exact exec_join_adds hk h (State.join_any_some hm hf ha hfree)
  · obtain ⟨r, hr⟩ := State.leave_member hn hm
    exact ⟨_, exec_leave_ready hk h hr, Context.wx_done_members .., rfl⟩

end Sys2Proof.Machine
end

section
/-! PROOFS. 13 EXIT (R205): what it waits for, the stores it performs, and how a thread leaves its slot (02 R25, R31; 26 R342). -/

namespace Sys2Proof.Machine

/-! ### Stores that EXIT performs -/

/-- Stores of a kind, of which none is lost, are visible everywhere and acknowledged after a drain that covers them. -/
theorem State.drainAll_covers {s : State} {own pick : StoreRec → Bool} (hsub : ∀ r, own r = true → pick r = true)
    (hsame : ∀ r q : StoreRec, r.SameStore q → own q = own r) (halive : ∀ r ∈ s.stores, own r = true → r.lost = false) :
    ∀ r ∈ (s.drainAll pick).stores, own r = true → r.everywhere = true ∧ r.acked = true := by
  have hleft := State.afterRivals_alive hsame halive (fun r => pick r && r.alive)
  refine State.advanceAfter_forall (P := fun r => own r = true → r.everywhere = true ∧ r.acked = true) ?_ (fun r _ _ _ => ⟨?_, rfl⟩)
    fun r hr hother q hq hown => ?_
  · exact fun r bs a ha hr hown => (hr ((hsame _ _ (r.settled_sameStore bs a)).symm.trans hown)).imp_right ha
  · simp [StoreRec.everywhere, StoreRec.ackNow]
  · have hown : own r = true := (hsame r q hq).symm.trans hown
    simp [StoreRec.alive, hsub r hown, hleft r hr hown] at hother

theorem Context.owns_sameStore (c : Context) {r q : StoreRec} (h : r.SameStore q) : c.owns q = c.owns r := by
  obtain ⟨_, hctx, hwork, _⟩ := h
  rw [Context.owns, Context.owns, hctx, hwork]

/-- A fence at scope S performs every store of the context, none of which is lost. -/
theorem State.fenceAt_s_covers {s : State} (h : s.NoneLost) :
    ∀ r ∈ (s.fenceAt .s).stores, s.me.owns r = true → r.everywhere = true ∧ r.acked = true :=
  State.drainAll_covers (s := s) (own := s.me.owns) (fun _ hr => by simp [hr]) (fun _ _ => s.me.owns_sameStore) fun r hr hown => (h r hr hown).1

/-- It changes nothing of the context but what it has read and loaded ahead, and no cluster. -/
theorem State.fenceAt_s_frame (s : State) :
    (s.fenceAt .s).me = { s.me with seen := [], ahead := [] } ∧ (s.fenceAt .s).clusters = s.clusters := by
  obtain ⟨m, r, p, a, h⟩ := s.drainAll_sameButMemory (fun r => s.me.owns r || s.me.seen.any (fun e => e.1 == r.id))
  simp only [State.fenceAt, wideScope, if_true, h]
  exact ⟨rfl, rfl⟩

/-! ### A thread leaves its slot -/

/-- The lane groups of a thread that leaves, but for those on their way to another, are no longer its own (26 R342). -/
theorem laneLeave_disowns (c : Cluster) (slot : Fin 4) (g : LaneGroup) :
    ¬((laneLeave c slot false g).owned = true ∧ (laneLeave c slot false g).owner = slot ∧ g.move = false) := by
  rintro ⟨howned, howner, hmove⟩
  unfold laneLeave at howned howner
  by_cases hmine : (g.owned && g.owner == slot) = true
  · rw [if_pos hmine, hmove, if_neg Bool.false_ne_true] at howned howner
    by_cases hheir : (!false && g.heir != slot && c.resident g.heir) = true
    · have hother : g.heir ≠ slot := fun he => by simp [he] at hheir
      rw [if_pos hheir] at howner
      exact hother howner
    · rw [if_neg hheir] at howned
      exact absurd howned (by decide)
  · rw [if_neg hmine] at howned howner
    by_cases ho : g.owned = true
    · have hother : g.owner ≠ slot := by simpa [ho] using hmine
      rw [if_pos ho] at howner
      refine hother (Eq.trans ?_ howner)
      by_cases hh : g.heir = slot <;> simp only [hh, if_true, if_false] <;> split <;> rfl
    · rw [if_neg ho] at howned
      exact ho howned

theorem Cluster.lanesLeave_lpart (c : Cluster) (slot : Fin 4) (swap : Bool) (k : Fin 8) :
    (c.lanesLeave slot swap).lpart[k] = laneLeave c slot swap c.lpart[k] := by simp [Cluster.lanesLeave]

theorem State.leaveGroups_clusters (l : List Membership) : ∀ s : State, (l.foldl State.leaveGroup s).clusters = s.clusters := by
  induction l with
  | nil => exact fun _ => rfl
  | cons m l ih =>
    intro s
    rw [List.foldl_cons, ih, State.leaveGroup]
    split
    · extract_lets g g1
      split <;> rfl
    · rfl

/-- A resident thread that retires leaves its slot and its lane groups. -/
theorem State.retire_cluster {s : State} {c : Context} (hk : c.kind = .thread) (hr : c.resident = true) :
    (s.retire c).clusters[c.cl] = { s.clusters[c.cl].lanesLeave c.slot false with
      slots := s.clusters[c.cl].slots.set c.slot.val none c.slot.isLt } := by
  rw [State.retire, if_pos ⟨hk, hr⟩, State.freeSlot, hk]
  dsimp only
  rw [State.modCluster_same, State.leaveGroups_clusters]
  rfl

/-! ### EXIT -/

theorem reporting_none {s : State} (h : s.me.tags.faults = []) (pick : PendingFault → Bool) (k : State → Out) : reporting pick s k = k s := by
  rw [reporting, Tags.first, h]
  rfl

section Exit
variable {s : State} (h : s.NoneLost)
include h

theorem exec_exit_thread (hk : s.me.kind = .thread) (hf : s.me.tags.faults = []) :
    exec .exit s = if s.published s.me ≠ [] then .next s else .next (s.fenceAt .s).exitMe := by
  show execExit s = _
  rw [execExit, exiting, hk]
  dsimp only
  rw [reporting_none hf, State.loseUnreachable_clear h, ackloss_none h, hk]

theorem exec_exit_bureau_waits (hk : s.me.kind = .bureau) (hq : s.myCluster.mq ≠ []) : exec .exit s = .next s := by
  show execExit s = _
  rw [execExit, exiting, hk]
  dsimp only
  rw [State.loseUnreachable_clear h, ackloss_none h, hk]
  exact if_pos (by simpa using hq)

theorem exec_exit_bureau_ends (hk : s.me.kind = .bureau) (hq : s.myCluster.mq = []) :
    exec .exit s = .next ((s.fenceAt .s).modMe (fun c => { c with status := .ended })) := by
  show execExit s = _
  rw [execExit, exiting, hk]
  dsimp only
  rw [State.loseUnreachable_clear h, ackloss_none h, hk]
  exact if_neg (by simp [hq])

end Exit

/-- A resident thread that retires counts as exited, in no group and with no request; its slot is empty, and its lane groups are handed
over. -/
theorem State.exitMe_leaves {s : State} (hk : s.me.kind = .thread) (hr : s.me.resident = true) {cl : Fin 64} {slot : Fin 4}
    (hcl : s.me.cl = cl) (hslot : s.me.slot = slot) :
    s.exitMe.me = s.me.endNow ∧ s.exitMe.stores = s.stores ∧
      s.exitMe.clusters[cl] = { s.clusters[cl].lanesLeave slot false with
        slots := s.clusters[cl].slots.set slot.val none slot.isLt } := by
  subst hcl hslot
  have hretired := s.retire_sameButSlots s.me
  exact ⟨congrArg Context.endNow hretired.me, hretired.memory.2, State.retire_cluster hk hr⟩

/-- Settles O20: EXIT is a fence at scope S, then `State.exitMe` of a thread and the end of a Bureau. -/
theorem exitRetires : Obligations.ExitRetires := by
  unfold Obligations.ExitRetires
  intro s h
  obtain ⟨hme, hclusters⟩ := s.fenceAt_s_frame
  refine ⟨fun hk hf hp hr => ?_, fun hk hf hp => ?_, fun hk hq => ?_, fun hk hq => ?_⟩
  · obtain ⟨hended, hstores, hcluster⟩ := State.exitMe_leaves (s := s.fenceAt .s) (cl := s.me.cl) (slot := s.me.slot)
      (by rw [hme]; exact hk) (by rw [hme]; exact hr) (by rw [hme]) (by rw [hme])
    rw [hme] at hended
    rw [hclusters] at hcluster
    refine ⟨_, by rw [exec_exit_thread h hk hf, if_neg (not_not.mpr hp)], by rw [hended]; rfl, by rw [hended]; rfl, by rw [hended]; rfl,
      ?_, fun k => ?_, ?_⟩
    · rw [hcluster]
      exact Vector.getElem_set_self ..
    · rw [hcluster]
      show ¬((((s.clusters[s.me.cl]).lanesLeave s.me.slot false).lpart[k]).owned = true ∧
        (((s.clusters[s.me.cl]).lanesLeave s.me.slot false).lpart[k]).owner = s.me.slot ∧ _)
      rw [Cluster.lanesLeave_lpart]
      exact laneLeave_disowns _ _ _
    · rw [hstores]
      exact State.fenceAt_s_covers h
  · rw [exec_exit_thread h hk hf, if_pos hp]
  · exact ⟨_, exec_exit_bureau_ends h hk hq, congrArg (fun c : Context => { c with status := .ended }) hme, State.fenceAt_s_covers h⟩
  · exact exec_exit_bureau_waits h hk hq

end Sys2Proof.Machine
end

section
/-! PROOFS. 13 LREQ (R208): the unowned lane groups it takes, and the donors of the others (02 R26; 26 R341). -/

namespace Sys2Proof.Machine

/-! ### Unowned groups are taken lowest first (26 R341) -/

/-- A group as LREQ takes it: its thread is OWNER and HEIR. -/
def LaneGroup.taken (slot : Fin 4) : LaneGroup := ⟨true, slot, slot, 0, false⟩

section Take
variable (slot : Fin 4)

theorem takeUnowned_zero (l : List LaneGroup) : takeUnowned slot 0 l = (l, 0) := by cases l <;> rfl

theorem takeUnowned_owned {g : LaneGroup} (h : g.owned = true) (n : Nat) (l : List LaneGroup) :
    takeUnowned slot (n + 1) (g :: l) = (g :: (takeUnowned slot (n + 1) l).1, (takeUnowned slot (n + 1) l).2) := if_pos h

theorem takeUnowned_free {g : LaneGroup} (h : g.owned = false) (n : Nat) (l : List LaneGroup) :
    takeUnowned slot (n + 1) (g :: l) = (.taken slot :: (takeUnowned slot n l).1, (takeUnowned slot n l).2) := if_neg (by simp [h])

theorem takeUnowned_length (l : List LaneGroup) : ∀ n, (takeUnowned slot n l).1.length = l.length := by
  induction l with
  | nil => exact fun _ => rfl
  | cons g l ih =>
    intro n
    cases n with
    | zero => rw [takeUnowned_zero]
    | succ n =>
      cases h : g.owned with
      | true => rw [takeUnowned_owned slot h, List.length_cons, ih, List.length_cons]
      | false => rw [takeUnowned_free slot h, List.length_cons, ih, List.length_cons]

/-- The groups still missing are those asked for beyond the unowned ones. -/
theorem takeUnowned_missing (l : List LaneGroup) : ∀ n, (takeUnowned slot n l).2 = n - (l.filter (fun g => !g.owned)).length := by
  induction l with
  | nil => exact fun _ => rfl
  | cons g l ih =>
    intro n
    cases n with
    | zero => rw [takeUnowned_zero, Nat.zero_sub]
    | succ n =>
      cases h : g.owned with
      | true => simp [takeUnowned_owned slot h, ih, h]
      | false => simp [takeUnowned_free slot h, ih, h]

/-- As many are taken as are asked for and unowned. -/
theorem takeUnowned_owns (l : List LaneGroup) : ∀ n, ((takeUnowned slot n l).1.filter (fun g => g.owned)).length =
    (l.filter (fun g => g.owned)).length + min (l.filter (fun g => !g.owned)).length n := by
  induction l with
  | nil => exact fun n => (Nat.zero_min n).symm
  | cons g l ih =>
    intro n
    cases n with
    | zero => rw [takeUnowned_zero, Nat.min_zero, Nat.add_zero]
    | succ n =>
      cases h : g.owned with
      | true =>
        simp only [takeUnowned_owned slot h, List.filter_cons, h, ih, if_true, List.length_cons, Bool.not_true, Bool.false_eq_true, if_false]
        omega
      | false =>
        simp only [takeUnowned_free slot h, LaneGroup.taken, List.filter_cons, h, ih, if_true, List.length_cons, Bool.not_false,
          Bool.false_eq_true, if_false]
        omega

/-- A group stays as it is, or was unowned and is taken. -/
theorem takeUnowned_group (l : List LaneGroup) : ∀ n k, (takeUnowned slot n l).1.getD k .free = l.getD k .free ∨
    ((l.getD k .free).owned = false ∧ (takeUnowned slot n l).1.getD k .free = .taken slot) := by
  induction l with
  | nil => exact fun _ _ => .inl rfl
  | cons g l ih =>
    intro n k
    cases n with
    | zero => exact .inl (by rw [takeUnowned_zero])
    | succ n =>
      cases h : g.owned with
      | true =>
        rw [takeUnowned_owned slot h]
        cases k with
        | zero => exact .inl rfl
        | succ k => exact ih (n + 1) k
      | false =>
        rw [takeUnowned_free slot h]
        cases k with
        | zero => exact .inr ⟨h, rfl⟩
        | succ k => exact ih n k

/-- Below a group that was taken every group is owned. -/
theorem takeUnowned_below (l : List LaneGroup) : ∀ n j k, j < k → ((takeUnowned slot n l).1.getD k .free).owned = true →
    (l.getD k .free).owned = false → ((takeUnowned slot n l).1.getD j .free).owned = true := by
  induction l with
  | nil =>
    intro n j k _ howned
    exact absurd howned (by rw [takeUnowned]; simp [LaneGroup.free])
  | cons g l ih =>
    intro n j k hjk howned hfree
    cases n with
    | zero =>
      rw [takeUnowned_zero, hfree] at howned
      exact absurd howned Bool.false_ne_true
    | succ n =>
      obtain ⟨k, rfl⟩ : ∃ i, k = i + 1 := ⟨k - 1, by omega⟩
      cases h : g.owned with
      | true =>
        rw [takeUnowned_owned slot h] at howned ⊢
        cases j with
        | zero => exact h
        | succ j => exact ih (n + 1) j k (Nat.lt_of_succ_lt_succ hjk) howned hfree
      | false =>
        rw [takeUnowned_free slot h] at howned ⊢
        cases j with
        | zero => rfl
        | succ j => exact ih n j k (Nat.lt_of_succ_lt_succ hjk) howned hfree

end Take

theorem lpartOf_getElem (l : List LaneGroup) (k : Fin 8) : (lpartOf l)[k] = l.getD k.val .free := by simp [lpartOf]

theorem lpart_getElem (lp : Vector LaneGroup 8) (k : Fin 8) : lp[k] = lp.toList.getD k.val .free := by
  rw [List.getD_eq_getElem _ _ (by simp)]
  rfl

theorem lpartOf_toList {l : List LaneGroup} (h : l.length = 8) : (lpartOf l).toList = l := by
  refine List.ext_getElem (by simp [h]) fun i hi hl => ?_
  have hi : i < 8 := h ▸ hl
  have hget := lpartOf_getElem l ⟨i, hi⟩
  rw [List.getD_eq_getElem _ _ hl] at hget
  exact hget

/-! ### LREQ -/

theorem heldGroups_eq (lp : Vector LaneGroup 8) (slot : Fin 4) : heldGroups lp slot =
    (lp.toList.filter (fun g => g.owned && (g.owner == slot && !g.move || g.move && g.next == slot))).length := by
  refine congrArg (fun p => (lp.toList.filter p).length) (funext fun g => ?_)
  rw [LaneGroup.keptBy, LaneGroup.comingTo, Bool.and_or_distrib_left, Bool.and_assoc, Bool.and_assoc]

/-- A change of the request and a scalar register write commute. -/
theorem Context.wx_done_lreq (c : Context) (d : XReg) (v : Word) (q : Option Nat) :
    ({ c with lreq := q }.wx d v 0).done 0 4 = { (c.wx d v 0).done 0 4 with lreq := q } := by
  by_cases hd : d = 0 <;> simp [Context.wx, Context.done, hd]

section Run
variable {s : State} {d a : XReg} (hk : s.me.kind = .thread) (h : s.ReadyX [a]) {n : Nat}
  (hn : min (max (s.rx a).toNat s.laneBounds.1) s.laneBounds.2 = n)
include hk h hn

theorem exec_lreq_ready : exec (.lreq d a) s = .next ((s.lreq n).2.modMe (fun c => (c.wx d (BitVec.ofNat 64 (s.lreq n).1) 0).done 0 4)) := by
  show execLreq d a s = _
  rw [execLreq, threadOnly_thread hk, readsX_ready h, ← hn]

/-- A request for no more than the thread holds. -/
theorem exec_lreq_held {held coming total : Nat} (hheld : heldGroups s.myCluster.lpart s.me.slot = held)
    (hcoming : (s.myCluster.lpart.toList.filter (fun g => g.comingTo s.me.slot)).length = coming)
    (htotal : coming + min (held - coming) (max (n - coming) 1) = total) (hle : n ≤ held) :
    exec (.lreq d a) s = .next { s with me := { (s.me.wx d (BitVec.ofNat 64 total) 0).done 0 4 with
      lreq := if n < held then some total else none } } := by
  have hreq : s.lreq n = (total, s.modMe (fun c => { c with lreq := if n < held then some total else none })) := by
    subst hheld hcoming htotal
    exact if_pos hle
  rw [exec_lreq_ready hk h hn, hreq]
  exact congrArg (fun c => Host.Outcome.next { s with me := c }) (Context.wx_done_lreq ..)

/-- A request for more: unowned groups first, then donors. -/
theorem exec_lreq_more {held : Nat} (hheld : heldGroups s.myCluster.lpart s.me.slot = held) (hlt : held < n)
    {lp1 : Vector LaneGroup 8} {missing : Nat} (hlp : lpartOf (takeUnowned s.me.slot (n - held) s.myCluster.lpart.toList).1 = lp1)
    (hmissing : (takeUnowned s.me.slot (n - held) s.myCluster.lpart.toList).2 = missing) :
    exec (.lreq d a) s = .next { s with
      me := { (s.me.wx d (BitVec.ofNat 64 (n - (s.takeDonated missing lp1).2)) 0).done 0 4 with lreq := none }
      clusters := s.clusters.set s.me.cl.val { s.myCluster with lpart := (s.takeDonated missing lp1).1 } s.me.cl.isLt } := by
  have hreq : s.lreq n = (n - (s.takeDonated missing lp1).2,
      (s.modCluster s.me.cl (fun c => { c with lpart := (s.takeDonated missing lp1).1 })).modMe (fun c => { c with lreq := none })) := by
    subst hheld hlp hmissing
    exact if_neg (Nat.not_le.mpr hlt)
  rw [exec_lreq_ready hk h hn, hreq]
  exact congrArg (fun c => Host.Outcome.next { s with
    me := c
    clusters := s.clusters.set s.me.cl.val { s.myCluster with lpart := (s.takeDonated missing lp1).1 } s.me.cl.isLt })
    (Context.wx_done_lreq ..)

end Run

/-! ### Donors (02 R26) -/

/-- The first element of a falling list that meets a test is the highest. -/
theorem find?_falling {l : List (Fin 8)} (hl : l.Pairwise (fun j k => k < j)) (p : Fin 8 → Bool) (g : Fin 8) :
    l.find? p = some g ↔ g ∈ l ∧ p g = true ∧ ∀ h ∈ l, p h = true → h ≤ g := by
  induction l with
  | nil => simp
  | cons k l ih =>
    obtain ⟨hk, hl⟩ := List.pairwise_cons.mp hl
    cases hp : p k with
    | true =>
      rw [List.find?_cons_of_pos hp]
      constructor
      · rintro ⟨⟩
        exact ⟨List.mem_cons_self, hp, fun h hh _ => (List.mem_cons.mp hh).elim (fun e => e.le) fun hh => (hk h hh).le⟩
      · rintro ⟨hg, _, hmax⟩
        rcases List.mem_cons.mp hg with rfl | hg
        · rfl
        · exact absurd (hmax k List.mem_cons_self hp) (not_le.mpr (hk g hg))
    | false =>
      rw [List.find?_cons_of_neg (by simp [hp]), ih hl]
      constructor
      · rintro ⟨hg, hpg, hmax⟩
        refine ⟨List.mem_cons_of_mem _ hg, hpg, fun h hh hph => ?_⟩
        rcases List.mem_cons.mp hh with rfl | hh
        · simp [hp] at hph
        · exact hmax h hh hph
      · rintro ⟨hg, hpg, hmax⟩
        rcases List.mem_cons.mp hg with rfl | hg
        · simp [hp] at hpg
        · exact ⟨hg, hpg, fun h hh => hmax h (List.mem_cons_of_mem _ hh)⟩

theorem highestKept_eq_some {lp : Vector LaneGroup 8} {slot : Fin 4} {g : Fin 8} :
    highestKept lp slot = some g ↔ (lp[g]).keptBy slot = true ∧ ∀ h : Fin 8, (lp[h]).keptBy slot = true → h ≤ g := by
  rw [highestKept, find?_falling (List.pairwise_reverse.mpr (List.pairwise_lt_finRange 8))]
  simp

theorem LaneGroup.keptBy_iff {g : LaneGroup} {slot : Fin 4} : g.keptBy slot = true ↔ g.owned = true ∧ g.owner = slot ∧ g.move = false := by
  simp [LaneGroup.keptBy, and_assoc]

/-- The gmin of the launch of a resident context. -/
def State.gminOf (s : State) (u : Nat) : Nat :=
  match s.context u with
  | some c => (match s.launch c.launch with | some l => l.pk.gmin | none => 1)
  | none => 1

/-- What a slot has to give: by how much it holds more than its gmin, and the highest group it keeps. -/
def State.donation (s : State) (lp : Vector LaneGroup 8) (k : Fin 4) : Option (Nat × Fin 8) :=
  if k = s.me.slot then none
  else match s.myCluster.slots[k] with
    | none => none
    | some u => match highestKept lp k with
      | none => none
      | some g => if heldGroups lp k > s.gminOf u then some (heldGroups lp k - s.gminOf u, g) else none

/-- The greater of two donations, the first on a tie. -/
def greaterDonation (b : Option (Nat × Fin 8)) (c : Nat × Fin 8) : Option (Nat × Fin 8) :=
  match b with
  | some x => if c.1 > x.1 then some c else some x
  | none => some c

/-- The donor gives the greatest donation. -/
theorem State.donor_eq (s : State) (lp : Vector LaneGroup 8) :
    s.donor lp = (((List.finRange 4).filterMap (s.donation lp)).foldl greaterDonation none).map (fun p => p.2) := rfl

theorem State.donation_eq_some {s : State} {lp : Vector LaneGroup 8} {k : Fin 4} {x : Nat × Fin 8} :
    s.donation lp k = some x ↔ ∃ u, (k ≠ s.me.slot ∧ s.myCluster.slots[k] = some u ∧ highestKept lp k = some x.2 ∧
      s.gminOf u < heldGroups lp k) ∧ x.1 = heldGroups lp k - s.gminOf u := by
  unfold State.donation
  by_cases hk : k = s.me.slot
  · simp [hk]
  · rw [if_neg hk]
    cases hu : s.myCluster.slots[k] with
    | none => simp
    | some u =>
      cases hg : highestKept lp k with
      | none => simp
      | some g =>
        by_cases hh : s.gminOf u < heldGroups lp k
        · obtain ⟨a, b⟩ := x
          simp [hk, hh, eq_comm, and_comm]
        · simp [hh]

/-- The greatest donation of a rising list of slots is the first among equals. -/
theorem foldl_greaterDonation {f : Fin 4 → Option (Nat × Fin 8)} {l : List (Fin 4)} (hl : l.Pairwise (fun j k => j < k)) :
    ((l.filterMap f).foldl greaterDonation none = none ↔ ∀ k ∈ l, f k = none) ∧
    ∀ x, (l.filterMap f).foldl greaterDonation none = some x →
      ∃ k ∈ l, f k = some x ∧ ∀ k' ∈ l, ∀ y, f k' = some y → y.1 < x.1 ∨ (y.1 = x.1 ∧ k ≤ k') := by
  induction l using List.reverseRecOn with
  | nil => simp
  | append_singleton l j ih =>
    obtain ⟨hl, -, hlast⟩ := List.pairwise_append.mp hl
    obtain ⟨hnone, hsome⟩ := ih hl
    have hj : ∀ k ∈ l, k < j := fun k hk => hlast k hk j (List.mem_singleton_self j)
    cases hf : f j with
    | none =>
      rw [List.filterMap_append, List.filterMap_cons_none hf, List.filterMap_nil, List.append_nil]
      refine ⟨hnone.trans (by simp [or_imp, forall_and, hf]), fun x hx => ?_⟩
      obtain ⟨k, hk, hfk, hmax⟩ := hsome x hx
      refine ⟨k, List.mem_append_left _ hk, hfk, fun k' hk' y hy => ?_⟩
      rcases List.mem_append.mp hk' with hk' | hk'
      · exact hmax k' hk' y hy
      · rw [List.mem_singleton.mp hk', hf] at hy
        cases hy
    | some c =>
      rw [List.filterMap_append, List.filterMap_cons_some hf, List.filterMap_nil, List.foldl_append, List.foldl_cons, List.foldl_nil]
      cases hbest : (l.filterMap f).foldl greaterDonation none with
      | none =>
        have hempty := hnone.mp hbest
        refine ⟨by simp [greaterDonation, hf], fun x hx => ?_⟩
        obtain rfl : c = x := Option.some.inj hx
        refine ⟨j, by simp, hf, fun k' hk' y hy => ?_⟩
        rcases List.mem_append.mp hk' with hk' | hk'
        · rw [hempty k' hk'] at hy
          cases hy
        · rw [List.mem_singleton.mp hk', hf] at hy
          cases hy
          exact .inr ⟨rfl, (List.mem_singleton.mp hk').ge⟩
      | some b =>
        obtain ⟨k, hk, hfk, hmax⟩ := hsome b hbest
        have hne : greaterDonation (some b) c ≠ none := by
          unfold greaterDonation
          dsimp only
          split <;> simp
        refine ⟨iff_of_false hne fun h => by simpa [hf] using h j (by simp), fun x hx => ?_⟩
        by_cases hgt : c.1 > b.1
        · obtain rfl : c = x := Option.some.inj ((if_pos hgt).symm.trans hx)
          refine ⟨j, by simp, hf, fun k' hk' y hy => ?_⟩
          rcases List.mem_append.mp hk' with hk' | hk'
          · exact .inl ((hmax k' hk' y hy).elim (fun h => h.trans hgt) fun h => h.1 ▸ hgt)
          · rw [List.mem_singleton.mp hk', hf] at hy
            cases hy
            exact .inr ⟨rfl, (List.mem_singleton.mp hk').ge⟩
        · obtain rfl : b = x := Option.some.inj ((if_neg hgt).symm.trans hx)
          refine ⟨k, List.mem_append_left _ hk, hfk, fun k' hk' y hy => ?_⟩
          rcases List.mem_append.mp hk' with hk' | hk'
          · exact hmax k' hk' y hy
          · obtain rfl := List.mem_singleton.mp hk'
            rw [hf] at hy
            cases hy
            exact (Nat.lt_or_eq_of_le (Nat.le_of_not_gt hgt)).imp_right fun h => ⟨h, (hj k hk).le⟩

/-- No donor: no slot has anything to give. -/
theorem State.donor_eq_none {s : State} {lp : Vector LaneGroup 8} : s.donor lp = none ↔ ∀ k, s.donation lp k = none := by
  rw [State.donor_eq, Option.map_eq_none_iff, (foldl_greaterDonation (List.pairwise_lt_finRange 4)).1]
  simp

/-- The donor has the greatest donation, the lowest slot on a tie. -/
theorem State.donor_eq_some {s : State} {lp : Vector LaneGroup 8} {g : Fin 8} : s.donor lp = some g ↔
    ∃ k x, s.donation lp k = some x ∧ x.2 = g ∧ ∀ k' y, s.donation lp k' = some y → y.1 < x.1 ∨ (y.1 = x.1 ∧ k ≤ k') := by
  have hbest := (foldl_greaterDonation (f := s.donation lp) (List.pairwise_lt_finRange 4)).2
  constructor
  · intro h
    rw [State.donor_eq, Option.map_eq_some_iff] at h
    obtain ⟨x, hx, rfl⟩ := h
    obtain ⟨k, -, hk, hmax⟩ := hbest x hx
    exact ⟨k, x, hk, rfl, fun k' => hmax k' (List.mem_finRange k')⟩
  · rintro ⟨k, x, hk, rfl, hmax⟩
    cases hfold : ((List.finRange 4).filterMap (s.donation lp)).foldl greaterDonation none with
    | none =>
      have hnone : s.donation lp k = none := State.donor_eq_none.mp (by rw [State.donor_eq, hfold]; rfl) k
      rw [hnone] at hk
      cases hk
    | some y =>
      obtain ⟨j, -, hj, hmaxj⟩ := hbest y hfold
      have hkj : k = j := by
        have hx := hmaxj k (List.mem_finRange k) x hk
        have hy := hmax j y hj
        omega
      rw [← hkj, hk] at hj
      rw [State.donor_eq, hfold, ← Option.some.inj hj]
      rfl

/-- Settles O21: `takeUnowned` takes unowned groups lowest first, and `State.donor` has the greatest donation. -/
theorem laneRequest : Obligations.LaneRequest := by
  unfold Obligations.LaneRequest
  refine ⟨fun s d a hk h => ?_, fun s lp => ?_⟩
  · intro b n lp coming held free
    have hheld : heldGroups lp s.me.slot = held := heldGroups_eq ..
    have hn : min (max (s.rx a).toNat s.laneBounds.1) s.laneBounds.2 = n := rfl
    refine ⟨fun hle => exec_lreq_held hk h hn hheld rfl rfl hle, fun hlt => ?_⟩
    have hlen : (takeUnowned s.me.slot (n - held) lp.toList).1.length = 8 := by rw [takeUnowned_length, Vector.length_toList]
    refine ⟨lpartOf (takeUnowned s.me.slot (n - held) lp.toList).1, fun k hk => ?_, fun k hk => ?_, fun j k hjk => ?_, ?_,
      exec_lreq_more hk h hn hheld hlt rfl (takeUnowned_missing ..)⟩
    · rw [lpart_getElem lp] at hk ⊢
      rw [lpartOf_getElem]
      exact (takeUnowned_group _ _ _ _).resolve_right fun hfree => Bool.false_ne_true (hfree.1.symm.trans hk)
    · rw [lpart_getElem lp, lpartOf_getElem]
      exact (takeUnowned_group _ _ _ _).imp_right And.right
    · rw [lpart_getElem lp, lpartOf_getElem, lpartOf_getElem]
      exact takeUnowned_below _ _ _ _ _ hjk
    · rw [lpartOf_toList hlen]
      exact takeUnowned_owns ..
  · intro kept held gmin may
    have hmay : ∀ {k g} u, may k u g ↔
        (k ≠ s.me.slot ∧ s.myCluster.slots[k] = some u ∧ highestKept lp k = some g ∧ s.gminOf u < heldGroups lp k) := by
      intro k g u
      rw [highestKept_eq_some, heldGroups_eq]
      simp only [LaneGroup.keptBy_iff]
      exact ⟨fun ⟨hne, hu, hg, hmax, hmore⟩ => ⟨hne, hu, ⟨hg, hmax⟩, hmore⟩, fun ⟨hne, hu, ⟨hg, hmax⟩, hmore⟩ => ⟨hne, hu, hg, hmax, hmore⟩⟩
    have hdonates : ∀ {k x}, s.donation lp k = some x ↔ ∃ u, may k u x.2 ∧ x.1 = held k - gmin u := by
      intro k x
      rw [State.donation_eq_some, heldGroups_eq]
      simp only [hmay, heldGroups_eq]
      rfl
    refine ⟨?_, fun g => ?_, rfl, fun n => ⟨fun hd => ?_, fun g hd => ?_⟩⟩
    · rw [State.donor_eq_none]
      constructor
      · intro hnone k u g h
        have hgives : s.donation lp k = some (held k - gmin u, g) := hdonates.mpr ⟨u, h, rfl⟩
        rw [hnone k] at hgives
        cases hgives
      · intro hno k
        refine Option.eq_none_iff_forall_ne_some.mpr fun x hx => ?_
        obtain ⟨u, h, -⟩ := hdonates.mp hx
        exact hno k u x.2 h
    · rw [State.donor_eq_some]
      constructor
      · rintro ⟨k, x, hx, rfl, hmax⟩
        obtain ⟨u, h, hval⟩ := hdonates.mp hx
        exact ⟨k, u, h, fun k' u' g' h' => hval ▸ hmax k' (_, g') (hdonates.mpr ⟨u', h', rfl⟩)⟩
      · rintro ⟨k, u, h, hmax⟩
        refine ⟨k, (held k - gmin u, g), hdonates.mpr ⟨u, h, rfl⟩, rfl, fun k' y hy => ?_⟩
        obtain ⟨u', h', hval⟩ := hdonates.mp hy
        rw [hval]
        exact hmax k' u' y.2 h'
    · rw [State.takeDonated, hd]
    · rw [State.takeDonated, hd]

end Sys2Proof.Machine
end

section
/-! PROOFS. What ordering and performing stores leaves unchanged: everything but memory's bytes and the stores (10 R141 to R149). -/

namespace Sys2Proof.Machine

/-- Two states that differ at most in memory's bytes and the stores. -/
def State.SameButStores (s t : State) : Prop := ∃ m r, t = { s with mem := m, stores := r }

namespace State.SameButStores
variable {s t u : State}

theorem refl (s : State) : s.SameButStores s := ⟨s.mem, s.stores, rfl⟩

theorem trans (h : s.SameButStores t) (h' : t.SameButStores u) : s.SameButStores u := by
  obtain ⟨m, r, rfl⟩ := h
  obtain ⟨m', r', rfl⟩ := h'
  exact ⟨m', r', rfl⟩

theorem me (h : s.SameButStores t) : t.me = s.me := by
  obtain ⟨m, r, rfl⟩ := h
  rfl

theorem eq (h : s.SameButStores t) : t = { s with mem := t.mem, stores := t.stores } := by
  obtain ⟨m, r, rfl⟩ := h
  rfl

end State.SameButStores

section Frames
variable (s : State)

theorem State.advance_sameButStores (pick : StoreRec → Bool) (f : StoreRec → StoreRec) : s.SameButStores (s.advance pick f) := ⟨_, _, rfl⟩

theorem State.afterRivals_sameButStores (pick : StoreRec → Bool) : s.SameButStores (s.afterRivals pick) := by
  unfold State.afterRivals
  extract_lets ids
  split
  · exact .refl s
  · exact s.advance_sameButStores _ _

theorem State.perform_sameButStores (pick : StoreRec → Bool) : s.SameButStores (s.perform pick) :=
  (s.afterRivals_sameButStores _).trans (State.advance_sameButStores _ _ _)

theorem State.coverPaths_sameButStores (pt : BitVec 5) (pick : StoreRec → Bool) : s.SameButStores (s.coverPaths pt pick) :=
  (s.afterRivals_sameButStores _).trans (State.advance_sameButStores _ _ _)

theorem State.drainAll_sameButStores (pick : StoreRec → Bool) : s.SameButStores (s.drainAll pick) :=
  (s.afterRivals_sameButStores _).trans (State.advance_sameButStores _ _ _)

theorem State.drainPath_sameButStores (pick : StoreRec → Bool) : s.SameButStores (s.drainPath pick) :=
  (s.afterRivals_sameButStores _).trans (State.advance_sameButStores _ _ _)

theorem State.drainGlob_sameButStores (pick : StoreRec → Bool) : s.SameButStores (s.drainGlob pick) :=
  (s.afterRivals_sameButStores _).trans (State.advance_sameButStores _ _ _)

theorem State.orderLoad_sameButStores (p : Path) (cls : Cls) (ks : List (Nat × Nat)) : s.SameButStores (s.orderLoad p cls ks) :=
  (s.perform_sameButStores _).trans (State.coverPaths_sameButStores _ _ _)

/-- A context that notes stores it has read changes nothing else. -/
theorem State.noteRead_seen (o : Observer) (ks : List (Nat × Nat)) : ∃ l, s.noteRead o ks = { s with me := { s.me with seen := l } } := by
  unfold State.noteRead
  split <;> exact ⟨_, rfl⟩

end Frames

end Sys2Proof.Machine
end

section
/-! PROOFS. 13 One step: the instruction at the pc and its place in the vector issue queue (R188; 02 R5; 07 R98 to R101), and the turns of
the schedule (log entry 5). -/

namespace Sys2Proof.Machine

/-! ### The instruction at the pc -/

theorem decodeOrIllegal_ok {c : Code} {i : Instr} (h : decodeCode c = .ok i) : decodeOrIllegal c = i := by
  rw [decodeOrIllegal, h]

theorem decodeOrIllegal_error {c : Code} {e : DecodeError} (h : decodeCode c = .error e) : decodeOrIllegal c = .illegalEncoding c.bits := by
  rw [decodeOrIllegal, h]

section Context
variable {s : State}

theorem step_unscheduled (h : s.sched = []) : step s = stepContext s := by rw [step, h]

theorem stepContext_still (h : s.runnable = false) : stepContext s = .next s := by
  rw [stepContext, h]
  rfl

variable (hr : s.runnable = true)
include hr

theorem stepContext_group (hb : s.inBlock = true) : stepContext s =
    match s.groupInstr with
    | some (c, i) => s.issue c i (exec .vfetchIssueGroup)
    | none => exec .vfetchIssueGroup s := by
  rw [stepContext, hr, hb]
  rfl

theorem stepContext_code (hb : s.inBlock = false) : stepContext s =
    match s.code with
    | .error (k, va) => fetchFault k va s
    | .ok c => s.issue c (decodeOrIllegal c) (exec (decodeOrIllegal c)) := by
  rw [stepContext, hr, hb]
  rfl

end Context

/-! ### The vector issue queue (07 R98 to R101) -/

section Issue
variable {s : State} {c : Code} {i : Instr} (run : State → Out)

theorem State.issue_plain (h : s.me.kind = .bureau ∨ (queuedCode c = false ∧ asksAtIssue i = false)) : s.issue c i run = run s := by
  have hnot : ¬(s.me.kind = .thread ∧ queuedCode c = true) ∧ ¬(s.me.kind = .thread ∧ asksAtIssue i = true) := by
    rcases h with h | ⟨hq, ha⟩
    · simp [h]
    · simp [hq, ha]
  rw [State.issue, if_neg hnot.1, if_neg hnot.2]

variable (hk : s.me.kind = .thread)
include hk

theorem State.issue_queued (hq : queuedCode c = true) : s.issue c i run =
    if 16 ≤ s.me.vq.length then .next (s.idleSlots 1) else s.enterVq (vqEntryOf i s) (run s) := if_pos ⟨hk, hq⟩

theorem State.issue_asking (hq : queuedCode c = false) (ha : asksAtIssue i = true) {ps : List Context}
    (hps : s.requesters s.me.cl (fun c => c.uid == s.me.uid || c.asks .loadStore) = ps) : s.issue c i run =
      if (grantWinner .loadStore ps).any (fun w => w.uid != s.me.uid)
      then .next (((s.grantRound .loadStore ps).headGranted .loadStore ps).idleSlots 1) else run (s.grantRound .loadStore ps) := by
  subst hps
  rw [State.issue, if_neg (by simp [hq]), if_pos ⟨hk, ha⟩]

end Issue

theorem State.enterVq_other (s : State) (e : VqEntry) {o : Out} (h : ∀ t, o ≠ .next t) : s.enterVq e o = o := by
  cases o with
  | next t => exact absurd rfl (h t)
  | _ => rfl

/-- An instruction that passes on enters the queue where there is room: the clause on entering that O4's words make, and which its
formula has as a hypothesis. -/
theorem State.issue_enters {s t : State} {c : Code} {i : Instr} {run : State → Out} (hk : s.me.kind = .thread) (hq : queuedCode c = true)
    (hroom : s.me.vq.length < 16) (ht : run s = .next t) :
    ∃ u, s.issue c i run = .next u ∧ u = { t with me := { t.me with vq := u.me.vq } } ∧
      u.me.vq = if s.passedOn t then t.me.vq ++ [vqEntryOf i s] else t.me.vq := by
  rw [State.issue_queued run hk hq, if_neg (Nat.not_le.mpr hroom), ht]
  refine ⟨_, rfl, ?_, ?_⟩ <;> split <;> rfl

/-- Settles O4: the branches of `stepContext` and of `State.issue`. -/
theorem stepRunsDecoded : Obligations.StepRunsDecoded := by
  unfold Obligations.StepRunsDecoded
  intro s
  refine ⟨fun hs => ?_, fun c i run => ⟨State.issue_plain run, fun hk hq => ⟨fun hfull => ?_, fun hroom => ?_⟩, fun hk hq ha => ?_⟩⟩
  · rw [step_unscheduled hs]
    refine ⟨stepContext_still, fun hr => ⟨fun hb => ?_, fun hb => ?_⟩⟩
    · rw [stepContext_group hr hb]
      exact ⟨fun hg => by rw [hg], fun c i hg => by rw [hg]⟩
    · rw [stepContext_code hr hb]
      refine ⟨fun c i hc hd => ?_, fun c e hc hd => ?_, fun k va hc => ?_⟩
      · rw [hc, ← decodeOrIllegal_ok hd]
      · rw [hc, ← decodeOrIllegal_error hd]
      · rw [hc]
        rfl
  · rw [State.issue_queued run hk hq, if_pos hfull]
  · -- The statement's implication takes both of its clauses as hypotheses; the second decides it.
    rintro ⟨-, hno⟩
    rw [State.issue_queued run hk hq, if_neg (Nat.not_le.mpr hroom), State.enterVq_other s _ hno]
  · intro ps s1
    rw [State.issue_asking run hk hq ha rfl]
    refine ⟨fun hmine => if_neg ?_, fun w hw hne => if_pos ?_⟩
    · rw [Option.any_eq_true]
      rintro ⟨w, hw, hne⟩
      exact bne_iff_ne.mp hne (hmine w hw)
    · exact (Option.any_eq_true ..).mpr ⟨w, hw, bne_iff_ne.mpr hne⟩

/-! ### Turns of the schedule -/

section Turns
variable (s : State)

/-- A context that is there comes into focus, and the one that was goes among the others. -/
theorem State.focus_uid {n : Nat} (h : ∃ c ∈ s.contexts, c.uid = n) : (s.focus n).me.uid = n := by
  unfold State.focus
  split
  case h_1 hnone =>
    obtain ⟨c, hc, hu⟩ := h
    rcases List.mem_cons.mp hc with rfl | hc
    · exact hu
    · exact absurd (beq_iff_eq.mpr hu) (List.find?_eq_none.mp hnone c hc)
  case h_2 c hsome => exact beq_iff_eq.mp (List.find?_some (p := fun c : Context => c.uid == n) hsome)

theorem State.focus_others {n : Nat} (h : ∃ c ∈ s.others, c.uid = n) : s.me ∈ (s.focus n).others := by
  obtain ⟨c, hc, hu⟩ := h
  unfold State.focus
  split
  case h_1 hnone => exact absurd (beq_iff_eq.mpr hu) (List.find?_eq_none.mp hnone c hc)
  case h_2 => exact List.mem_cons_self

theorem State.focus_frame (n : Nat) : ∃ c o, s.focus n = { s with me := c, others := o } := by
  unfold State.focus
  split <;> exact ⟨_, _, rfl⟩

/-- A halfword fetched ahead is listed after those that are. -/
theorem State.prefetch_appends (va : Word) : ∃ l, s.prefetch va = { s with me := { s.me with fetched := s.me.fetched ++ l } } := by
  have hsame : s = { s with me := { s.me with fetched := s.me.fetched ++ [] } } := by rw [List.append_nil]
  unfold State.prefetch
  split
  · exact ⟨[], hsame⟩
  · split
    · exact ⟨[], hsame⟩
    · split
      · exact ⟨[], hsame⟩
      · split
        · exact ⟨[], hsame⟩
        · exact ⟨_, rfl⟩

/-- A load performed ahead changes memory's order, what the context has read, and what stands loaded ahead, after what stood there. -/
theorem State.loadAhead_appends (p : Path) (cls : Cls) (va : Word) (n : Nat) : ∃ m r l o, s.loadAhead p cls va n =
    { s with mem := m, stores := r, me := { s.me with ahead := s.me.ahead ++ l, seen := o } } := by
  have hsame : s = { s with mem := s.mem, stores := s.stores, me := { s.me with ahead := s.me.ahead ++ [], seen := s.me.seen } } := by
    rw [List.append_nil]
  unfold State.loadAhead
  split
  · exact ⟨_, _, _, _, hsame⟩
  · split
    · exact ⟨_, _, _, _, hsame⟩
    · split
      · exact ⟨_, _, _, _, hsame⟩
      · rename_i ms _ _
        obtain ⟨m, r, hordered⟩ := s.orderLoad_sameButStores p cls (keysOf ms)
        obtain ⟨o, hnoted⟩ := (s.orderLoad p cls (keysOf ms)).noteRead_seen ((s.orderLoad p cls (keysOf ms)).me.obs p) (keysOf ms)
        dsimp only
        rw [hnoted, hordered]
        exact ⟨_, _, _, _, rfl⟩

/-- A walk starts in its cluster while fewer than four are in flight there. -/
theorem State.startWalk_frame (cl : Fin 64) (fn sp : Fin 256) (va : Word) :
    (4 ≤ (s.clusters[cl]).walks.length → s.startWalk cl fn sp va = s) ∧
    ∃ w, s.startWalk cl fn sp va = s.modCluster cl (fun c => { c with walks := w }) := by
  unfold State.startWalk
  refine ⟨fun hfull => if_pos (.inl hfull), ?_⟩
  split
  · exact ⟨(s.clusters[cl]).walks, congrArg (fun k => { s with clusters := k }) (Vector.set_getElem_self cl.isLt).symm⟩
  · exact ⟨_, rfl⟩

end Turns

/-- What a context has bound ahead of a load stays bound when more is loaded ahead. -/
theorem Context.bound_append (c : Context) (l : List Ahead) {p : Path} {cls : Cls} {k : Nat} (h : c.bound p cls k ≠ none) :
    ({ c with ahead := c.ahead ++ l } : Context).bound p cls k = c.bound p cls k := by
  obtain ⟨a, ha⟩ := Option.ne_none_iff_exists'.mp (Option.map_eq_none_iff.not.mp h)
  simp only [Context.bound, List.find?_append, ha, Option.some_or]

/-! ### Traffic (09 R128) -/

section Activities
variable (s : State) (launch : Option Nat) (fn : Fin 256) (die : Fin 8) (k : EngineClass) (f : Budget → Budget)

theorem State.activities_memory : (s.activities launch fn die k f).sched = s.sched ∧ (s.activities launch fn die k f).mem = s.mem ∧
    (s.activities launch fn die k f).stores = s.stores := by
  cases launch <;> exact ⟨rfl, rfl, rfl⟩

/-- No launch but the payer is charged. -/
theorem State.activities_launch_other {m : Nat} (h : launch ≠ some m) : (s.activities launch fn die k f).launch m = s.launch m := by
  cases launch with
  | none => rfl
  | some n =>
    have hmap := State.launch_of_map (s := s) (t := s.activities (some n) fn die k f)
      (f := fun l => if l.id = n then { l with budget := f l.budget } else l) rfl (fun l => by split <;> rfl) m
    rw [hmap]
    cases hl : s.launch m with
    | none => rfl
    | some l => rw [Option.map_some, if_neg fun he => h (by rw [← he, State.launch_id hl])]

end Activities

/-- A charge leaves the limits and the other used counts. -/
theorem Budget.charge_charged (b : Budget) (i : Fin 4) (n : Nat) : (b.charge i n).lim = b.lim ∧
    (b.charge i n).used[i] = BitVec.ofNat 32 (min 0xFFFFFFFF (b.used[i].toNat + n)) ∧
    ∀ j : Fin 4, j ≠ i → (b.charge i n).used[j] = b.used[j] :=
  ⟨rfl, by simp [Budget.charge], fun _ hj => b.charge_used_other hj n⟩

/-- Settles O5: each turn is one function of the state, and each such function has its frame above. -/
theorem stepTakesTurns : Obligations.StepTakesTurns := by
  unfold Obligations.StepTakesTurns
  intro s l s0
  refine ⟨fun n h => ?_, fun i h he => ?_, fun i c h he => ?_, fun va h => ?_, fun n h => ?_, fun n h => ?_, fun p cls va n h => ?_,
    fun cl fn sp va h => ?_, fun fn off wide h => ?_, fun fn h => ?_, fun a h => ?_, fun cl i h => ?_, fun n die cls flits units h => ?_⟩
  case refine_1 =>
    obtain ⟨c, o, hframe⟩ := s0.focus_frame n
    refine ⟨s0.focus n, by rw [step, h], ?_, ?_, ?_, s0.focus_uid, fun _ => s0.focus_others⟩ <;> rw [hframe]
  case refine_2 => rw [step, h]; exact if_pos (by rw [he]; rfl)
  case refine_3 => rw [step, h]; exact if_neg (by simp [he])
  case refine_4 =>
    obtain ⟨more, hp⟩ := s0.prefetch_appends va
    refine ⟨s0.prefetch va, by rw [step, h], ?_, ?_⟩ <;> rw [hp]
    exact fun q hq => List.mem_append_left _ hq
  case refine_5 | refine_6 => rw [step, h]; rfl
  case refine_9 | refine_10 | refine_11 | refine_12 => rw [step, h]
  case refine_7 =>
    obtain ⟨m, r, more, o, hp⟩ := s0.loadAhead_appends p cls va n
    refine ⟨s0.loadAhead p cls va n, by rw [step, h], ?_, ?_, ?_⟩ <;> rw [hp]
    · exact fun a ha => List.mem_append_left _ ha
    · exact fun k hk => s.me.bound_append more hk
  case refine_8 =>
    obtain ⟨hfull, w, hw⟩ := s0.startWalk_frame cl fn sp va
    refine ⟨s0.startWalk cl fn sp va, by rw [step, h], by rw [hw]; rfl, fun k hk => ?_, fun hf => by rw [hfull hf], ?_⟩
    · rw [hw, State.modCluster_other _ _ _ _ hk]
    · rw [hw, State.modCluster_same]
  case refine_13 =>
    have hstep : step s = .next (s0.chargeTraffic n die cls flits units) := by rw [step, h]
    refine ⟨fun hnone => ?_, fun launch fn hpays => ?_⟩
    · rw [hstep, State.chargeTraffic, show s0.payer n = none from hnone]
    · rw [State.chargeTraffic, show s0.payer n = some (launch, fn) from hpays] at hstep
      obtain ⟨hsched, hmem, hstores⟩ := s0.activities_memory launch fn die cls (fun b => b.charge (if flits then 2 else 1) units)
      refine ⟨_, hstep, hsched, s0.activities_me .., hmem, hstores, fun m hm => s0.activities_launch_other _ _ _ _ _ hm, ?_⟩
      intro i charged
      refine ⟨fun k hk => ?_, ?_, ?_⟩
      · obtain ⟨rfl, rfl⟩ := Prod.mk.inj (Option.some.inj (hpays.symm.trans (State.payer_launch hk)))
        exact ⟨_, State.activities_launch s0 _ _ _ _ hk, Budget.charge_charged _ _ _⟩
      · rw [State.activities_tenant]
        exact Budget.charge_charged _ _ _
      · rw [State.activities_engine]
        exact Budget.charge_charged _ _ _

end Sys2Proof.Machine
end

section
/-! PROOFS. 13 LD (R194): the bytes it reads and their extension, and the bad addresses of LD, ST and ST.G (08 R119; 10 R139, R141, R145). -/

namespace Sys2Proof.Machine

/-! ### Aligned accesses of a size that divides a page -/

/-- An aligned access of a size that divides the page stays in one page. -/
theorem page_room {va n : Nat} (hn : n ∣ 0x10000) (ha : va % n = 0) : va % 0x10000 + n ≤ 0x10000 := by
  obtain ⟨q, hq⟩ := hn
  obtain ⟨k, rfl⟩ := Nat.dvd_of_mod_eq_zero ha
  have hq0 : 0 < q := Nat.pos_of_ne_zero fun h => by simp [h] at hq
  calc n * k % 0x10000 + n = n * (k % q + 1) := by rw [hq, Nat.mul_mod_mul_left, Nat.mul_succ]
    _ ≤ n * q := Nat.mul_le_mul_left _ (Nat.mod_lt _ hq0)
    _ = 0x10000 := hq.symm

theorem pageParts_one {va : Word} {n : Nat} (hpos : 0 < n) (h : va.toNat % 0x10000 + n ≤ 0x10000) : pageParts 3 va n = [(va, n)] := by
  rw [pageParts, if_neg hpos.ne']
  exact if_pos (by omega)

/-- A range that lies in one page is translated by its address. -/
theorem State.xlateRange_one {s : State} {p : Party} {acc : Access} {va : Word} {n : Nat} {m : Mapped} (hpos : 0 < n)
    (h : va.toNat % 0x10000 + n ≤ 0x10000) (hm : s.xlate p acc va = .ok m) : s.xlateRange p acc va n = .ok [(m, n)] := by
  rw [State.xlateRange, pageParts_one hpos h, State.xlateParts, hm]
  rfl

/-- A datum that is there has no bad byte. -/
theorem State.badByte_one {s : State} {m : Mapped} {n : Nat} (h : s.Present m.key n) : s.badByte s.me.die [(m, n)] = none := by
  have hfound : (List.range n).find? (fun i => s.poisoned (m.key + i) || !(isPad m.key || s.reachable s.me.die (homeOf (m.key + i)))) = none := by
    refine List.find?_eq_none.mpr fun i hi => ?_
    obtain ⟨hpoison, hhome⟩ := h i (List.mem_range.mp hi)
    rcases hhome with hhome | hhome <;> simp [hpoison, hhome]
  rw [State.badByte, hfound]
  rfl

/-! ### Bad addresses (08 R119) -/

/-- Bits [63:55] of an address are clear when it lies below 2^55. -/
theorem field_high_eq_zero {va : Word} : field va.toNat 55 9 = 0 ↔ va.toNat < 2 ^ 55 := by
  have := va.isLt
  unfold field
  omega

theorem badAddress_none {va : Word} {n : Nat} (hlow : va.toNat < 2 ^ 55) (ha : va.toNat % n = 0) : badAddress va n = none := by
  rw [badAddress, if_neg (not_not.mpr (field_high_eq_zero.mpr hlow)), if_neg (not_not.mpr ha)]

theorem badAddress_prot {va : Word} (n : Nat) (hhigh : 2 ^ 55 ≤ va.toNat) : badAddress va n = some .prot :=
  if_pos fun h => absurd (field_high_eq_zero.mp h) (Nat.not_lt.mpr hhigh)

theorem badAddress_align {va : Word} {n : Nat} (hlow : va.toNat < 2 ^ 55) (ha : va.toNat % n ≠ 0) : badAddress va n = some .align := by
  rw [badAddress, if_neg (not_not.mpr (field_high_eq_zero.mpr hlow)), if_pos ha]

section Bad
variable {s : State} {va : Word} {c : Cause} (p : Path) (cls : Cls)

theorem loadOn_bad {n : Nat} (h : badAddress va n = some c) (k : List Byte → State → Out) :
    loadOn p cls va n s k = .next (s.deliverAt c s.me.pc va) := by
  rw [loadOn, h]
  rfl

theorem storeOn_bad {bs : List Byte} (h : badAddress va bs.length = some c) (mode : StoreMode) (k : State → Out) :
    storeOn p cls mode va bs s k = .next (s.deliverAt c s.me.pc va) := by
  rw [storeOn, h]
  rfl

end Bad

/-! ### Loaded bytes and their value -/

/-- Bytes in memory order, taken from the last on. -/
theorem ofBytes_map_range (f : Nat → Byte) (n : Nat) : ofBytes ((List.range n).map f) = (List.range n).foldr (fun i acc => acc * 256 + (f i).toNat) 0 := by
  induction List.range n with
  | nil => rfl
  | cons i l ih => rw [List.map_cons, ofBytes, ih, List.foldr_cons, Nat.add_comm, Nat.mul_comm]

/-- The bytes a load reads of one mapping. -/
theorem State.loadParts_one (s : State) (p : Path) (cls : Cls) (m : Mapped) (n : Nat) :
    s.loadParts p cls [(m, n)] = (List.range n).map (fun i => s.plain m.ki (s.loadLook p cls m) (m.key + i)) := List.flatMap_singleton ..

/-- The signed value of a pattern is that of the bit vector. -/
theorem wordOfInt_signedOf {w : Nat} (hw : 0 < w) (n : Nat) : wordOfInt (signedOf w n) = (BitVec.ofNat w n).signExtend 64 := by
  have hhalf : 2 * (n % 2 ^ w) < 2 ^ w ↔ n % 2 ^ w < 2 ^ (w - 1) := by
    obtain ⟨m, rfl⟩ : ∃ m, w = m + 1 := ⟨w - 1, by omega⟩
    rw [Nat.add_sub_cancel, Nat.pow_succ]
    omega
  rw [wordOfInt, BitVec.signExtend, BitVec.toInt_eq_toNat_cond, BitVec.toNat_ofNat, signedOf]
  simp only [hhalf]

/-- Loaded bytes as the register receives them: sign-extended or zero-extended from their width (R194). -/
theorem ldExtend_eq {w : LdWidth} {bs : List Byte} {v : Nat} (h : ofBytes bs = v) : ldExtend w bs = match w with
    | .i8 => (BitVec.ofNat 8 v).signExtend 64
    | .i16 => (BitVec.ofNat 16 v).signExtend 64
    | .i32 => (BitVec.ofNat 32 v).signExtend 64
    | .n8 | .n16 | .n32 | .d => BitVec.ofNat 64 v := by
  subst h
  cases w
  case i8 => exact wordOfInt_signedOf (w := 8) (by decide) _
  case i16 => exact wordOfInt_signedOf (w := 16) (by decide) _
  case i32 => exact wordOfInt_signedOf (w := 32) (by decide) _
  case n8 | n16 | n32 | d => rfl

theorem ldSize_pos (w : LdWidth) : 0 < ldSize w := by cases w <;> decide
theorem ldSize_dvd (w : LdWidth) : ldSize w ∣ 0x10000 := by cases w <;> decide

/-- A change of what the context has read and loaded ahead, and a scalar register write, commute. -/
theorem Context.wx_done_seen_ahead (c : Context) (d : XReg) (v : Word) (e : List (Nat × Path)) (a : List Ahead) :
    ({ c with seen := e, ahead := a }.wx d v 0).done 0 4 = { (c.wx d v 0).done 0 4 with seen := e, ahead := a } := by
  by_cases hd : d = 0 <;> simp [Context.wx, Context.done, hd]

/-! ### LD -/

section Load
variable {s : State} {cls : Cls} {va : Word} {n : Nat} {m : Mapped} (hr : s.Reaches .load cls va n m) (hdvd : n ∣ 0x10000)
include hr hdvd

/-- A load that goes through: the stores it waits for are applied, those ordered before it perform, and it reads one mapping. -/
theorem loadOn_reaches (hpos : 0 < n) (hp : s.Present m.key n) {u : State}
    (hu : (s.drainGlob (s.heldBack .p0 cls m.key n)).orderLoad .p0 cls [(m.key, n)] = u) (k : List Byte → State → Out) :
    loadOn .p0 cls va n s k =
      k (u.loadParts .p0 cls [(m, n)]) ((u.noteRead (u.me.obs .p0) [(m.key, n)]).passed .p0 cls false [(m.key, n)]) := by
  obtain ⟨hlow, halign, hmap, hclear⟩ := hr
  rw [loadOn, badAddress_none hlow halign]
  dsimp only
  rw [rangeOn, State.xlateRange_one hpos (page_room hdvd halign) hmap]
  dsimp only
  rw [State.badByte_one hp]
  dsimp only
  have hordered := ordered_clear (p := .p0) (cls := cls) (ks := [(m.key, n)]) hclear
  rw [loadFrom, ← hu]
  exact hordered _

end Load

/-- What LD of a datum that is there changes: xd, the stores the context has read, and what still stands loaded ahead. -/
theorem exec_ld_reaches {s : State} {w : LdWidth} {a : XReg} {imm : BitVec 7} {cls : Cls} {m : Mapped} (d : XReg) (h : s.ReadyX [a])
    (hr : s.Reaches .load cls (s.memAddr a imm (ldSize w)) (ldSize w) m) (hp : s.Present m.key (ldSize w)) {u : State}
    (hu : (s.drainGlob (s.heldBack .p0 cls m.key (ldSize w))).orderLoad .p0 cls [(m.key, ldSize w)] = u) :
    ∃ e, exec (.ld w d a imm cls) s = .next { u with
      me := { (s.me.wx d (ldExtend w (u.loadParts .p0 cls [(m, ldSize w)])) 0).done 0 4 with
        seen := e, ahead := s.me.ahead.filter (Ahead.stays .p0 cls false [(m.key, ldSize w)]) } } := by
  have hsame : s.SameButStores u := hu ▸ (s.drainGlob_sameButStores _).trans (State.orderLoad_sameButStores _ _ _ _)
  obtain ⟨e, hnoted⟩ := u.noteRead_seen (u.me.obs .p0) [(m.key, ldSize w)]
  refine ⟨e, ?_⟩
  show execLd w d a imm cls s = _
  rw [execLd, readsX_ready h, loadOn_reaches hr (ldSize_dvd w) (ldSize_pos w) hp hu, hnoted, ← hsame.me, ← Context.wx_done_seen_ahead]
  rfl

/-- Settles O22: one mapping is read after `State.orderLoad`, and the frame of what orders it is everything but the stores. -/
theorem scalarLoads : Obligations.ScalarLoads := by
  unfold Obligations.ScalarLoads
  refine ⟨fun s w d a imm cls m => ?_, fun s w x d a b imm cls => ?_⟩
  · intro n va h hr hp u raw v
    obtain ⟨e, hld⟩ := exec_ld_reaches d h hr hp (u := u) rfl
    have hme : u.me = s.me := ((s.drainGlob_sameButStores _).trans (State.orderLoad_sameButStores _ _ _ _)).me
    clear_value u
    have hraw : u.loadLook .p0 cls m = raw := by
      funext k
      rw [State.loadLook, State.look, hme]
      by_cases hmt : m.mt = 0 <;> simp [raw, hmt]
    have hbytes : ofBytes (u.loadParts .p0 cls [(m, n)]) = v := by rw [State.loadParts_one, hraw, ofBytes_map_range]
    clear_value v
    rw [ldExtend_eq hbytes] at hld
    exact ⟨_, hld, rfl, rfl⟩
  · intro la sa
    have hld : ∀ c, badAddress la (ldSize w) = some c → s.ReadyX [a] → exec (.ld w d a imm cls) s = .next (s.deliverAt c s.me.pc la) := by
      intro c hc h
      show execLd w d a imm cls s = _
      rw [execLd, readsX_ready h]
      exact loadOn_bad _ _ hc _
    have hst : ∀ c, badAddress sa (stSize x) = some c → s.ReadyX [a, b] →
        exec (.st x b a imm cls) s = .next (s.deliverAt c s.me.pc sa) ∧ exec (.stG x b a imm cls) s = .next (s.deliverAt c s.me.pc sa) := by
      intro c hc h
      have hstore : ∀ mode, scalarStore mode x b a imm cls s = .next (s.deliverAt c s.me.pc sa) := by
        intro mode
        rw [scalarStore, readsX_ready h]
        exact storeOn_bad _ _ ((length_toBytes ..).symm ▸ hc) _ _
      exact ⟨hstore .early, hstore .glob⟩
    exact ⟨fun h => ⟨fun hhigh => hld _ (badAddress_prot _ hhigh) h, fun hlow ha => hld _ (badAddress_align hlow ha) h⟩,
      fun h => ⟨fun hhigh => hst _ (badAddress_prot _ hhigh) h, fun hlow ha => hst _ (badAddress_align hlow ha) h⟩⟩

end Sys2Proof.Machine
end

section
/-! PROOFS. 13 ST and ST.G (R194): the bytes stored, their record, and what other observers read (10 R139; 11 R158, R159; 08 R120). -/

namespace Sys2Proof.Machine

/-! ### One store of a context -/

section Put
variable {s : State} (ctx : Option Nat) (fn : Fin 256) (die : Fin 8) (path : Path) (cls : Cls) (y : Bool) (va : Word)
  (ki k : Nat) (bs : List Byte) (mode : StoreMode) (nib : Option Bool) (ins : Option Nat)

theorem State.putStore_me : (s.putStore ctx fn die path cls y va ki k bs mode nib ins).me = s.me := by
  obtain ⟨m, r, p, a, hrekeyed⟩ := s.rekeyAll_sameButMemory ki k bs.length
  unfold State.putStore
  extract_lets s1 s2 q
  show s2.me = s.me
  obtain ⟨-, -, -, hme, -⟩ := State.setModified_same (if nib.isNone then s1.unpoison k bs.length else s1) (homeOf k) k bs.length
  have hs1 : s1.me = s.me := by rw [show s1 = _ from hrekeyed]
  refine hme.trans (Eq.trans ?_ hs1)
  split <;> rfl

/-- The newest record, of a store that is not visible everywhere, is there after settling. -/
theorem mem_settleFrom_last {r : StoreRec} (hr : r.everywhere = false) (l : List StoreRec) :
    ∀ (kept : List StoreRec) (m : List Host.Cell), r ∈ (settleFrom kept m (l ++ [r])).1 := by
  induction l with
  | nil =>
    intro kept m
    have hstays : r.settles kept = false := by rw [StoreRec.settles, hr, Bool.false_and]
    rw [List.nil_append, settleFrom, if_neg (by simp [hstays]), settleFrom]
    exact List.mem_append_right _ (List.mem_singleton_self r)
  | cons q l ih =>
    intro kept m
    rw [List.cons_append, settleFrom]
    split <;> exact ih _ _

/-- A store of rank 2, only issued, comes last. -/
theorem insertStore_last {r : StoreRec} (hr : r.rank = 2) (l : List StoreRec) : insertStore r l = l ++ [r] := by
  have hle : ∀ q : StoreRec, q.rank ≤ r.rank := fun q => by
    rw [hr]
    rcases q.rank_cases with h | h | h <;> omega
  have hbefore : l.filter (fun q => decide (q.rank ≤ r.rank)) = l := List.filter_eq_self.mpr fun q _ => decide_eq_true (hle q)
  have hafter : l.filter (fun q => decide (r.rank < q.rank)) = [] :=
    List.filter_eq_nil_iff.mpr fun q _ => by simpa using hle q
  rw [insertStore, hbefore, hafter, List.append_nil]

/-- The record of a context's own store, as it is issued, stands among the stores. -/
theorem State.putStore_record (n : Nat) (h : s.Canonical) (hu : bs.length - 1 + k % 16 < 16) :
    StoreRec.fresh s.nextId (some n) fn die path cls y va k bs mode nib ins ∈
      (s.putStore (some n) fn die path cls y va ki k bs mode nib ins).stores := by
  obtain ⟨u, -, he, -⟩ := State.store_base (s := s) (some n) fn die path cls y va ki k bs mode nib ins h hu
  have hrank : (StoreRec.fresh s.nextId (some n) fn die path cls y va k bs mode nib ins).rank = 2 := by
    simp [StoreRec.fresh, StoreRec.rank, StoreRec.performed]
  have hhidden : (StoreRec.fresh s.nextId (some n) fn die path cls y va k bs mode nib ins).everywhere = false := by
    simp [StoreRec.fresh, StoreRec.everywhere]
  have hlive : (StoreRec.fresh s.nextId (some n) fn die path cls y va k bs mode nib ins).live = true := by
    simp [StoreRec.fresh, StoreRec.live]
  rw [he, insertStore_last hrank]
  exact List.mem_filter.mpr ⟨mem_settleFrom_last hhidden _ _ _, hlive⟩

end Put

/-- The bytes of a stored word, each with its key. -/
theorem cells_toBytes (k n v : Nat) : (List.range (toBytes n v).length).zipWith (fun i b => (k + i, b)) (toBytes n v) =
    (List.range n).map (fun i => (k + i, BitVec.ofNat 8 (v / 2 ^ (8 * i)))) := by
  rw [length_toBytes, toBytes, List.zipWith_map_right, List.zipWith_self]

/-- A store to one mapping makes one record. -/
theorem State.storeParts_one (s : State) (ctx : Option Nat) (fn : Fin 256) (die : Fin 8) (path : Path) (cls : Cls) (y : Bool) (va : Word)
    (mode : StoreMode) (nib : Option Bool) (ins : Option Nat) (m : Mapped) (bs : List Byte) :
    s.storeParts ctx fn die path cls y va mode nib ins [(m, bs.length)] bs =
      s.putStore ctx fn die path cls y va m.ki m.key bs (storeModeAt m mode) nib ins := by
  rw [State.storeParts, State.storeParts, List.take_length]

theorem stSize_pos (w : StWidth) : 0 < stSize w := by cases w <;> decide
theorem stSize_dvd (w : StWidth) : stSize w ∣ 0x10000 := by cases w <;> decide
theorem stSize_dvd_block (w : StWidth) : stSize w ∣ 16 := by cases w <;> decide

/-- An aligned datum of a size that divides a block lies in one block. -/
theorem block_room {k n : Nat} (hn : n ∣ 16) (hpos : 0 < n) (hk : k % n = 0) : n - 1 + k % 16 < 16 := by
  have hle := Nat.le_of_dvd (by decide) hn
  have hdvd : n ∣ k % 16 := (Nat.dvd_mod_iff hn).mpr (Nat.dvd_of_mod_eq_zero hk)
  have hlt : k % 16 < 16 := Nat.mod_lt _ (by decide)
  interval_cases n <;> omega

/-! ### ST and ST.G -/

/-- A scalar store that goes through: the stores it waits for are applied, then its record is made. -/
theorem scalarStore_reaches {s : State} {mode : StoreMode} {w : StWidth} {b a : XReg} {imm : BitVec 7} {cls : Cls} {m : Mapped}
    (h : s.ReadyX [a, b]) (hr : s.Reaches .store cls (s.memAddr a imm (stSize w)) (stSize w) m) {u : State}
    (hu : s.drainGlob (s.heldBack .p0 cls m.key (stSize w)) = u) {t : State}
    (ht : u.putStore (some s.me.uid) s.me.fn s.me.die .p0 cls false (s.memAddr a imm (stSize w)) m.ki m.key
      (toBytes (stSize w) (s.rx b).toNat) (storeModeAt m mode) = t) :
    scalarStore mode w b a imm cls s = .next { t with
      me := { s.me.done 0 4 with ahead := s.me.ahead.filter (Ahead.stays .p0 cls false [(m.key, stSize w)]) } } := by
  obtain ⟨hlow, halign, hmap, hclear⟩ := hr
  have hme : t.me = s.me := by
    rw [← ht, State.putStore_me, ← hu]
    exact (s.drainGlob_sameButStores _).me
  have hlen : (toBytes (stSize w) (s.rx b).toNat).length = stSize w := length_toBytes ..
  have hume : u.me = s.me := hu ▸ (s.drainGlob_sameButStores _).me
  have hordered := ordered_clear (p := .p0) (cls := cls) (ks := [(m.key, stSize w)]) hclear
  rw [scalarStore, readsX_ready h, storeOn, hlen, badAddress_none hlow halign]
  dsimp only
  rw [State.probeStore, State.xlateRange_one (stSize_pos w) (page_room (stSize_dvd w) halign) hmap]
  refine (hordered _).trans ?_
  rw [show s.drainGlob (s.homeBefore .p0 cls [(m.key, stSize w)]) = u from hu, hume]
  have hput := u.storeParts_one (some s.me.uid) s.me.fn s.me.die .p0 cls false (s.memAddr a imm (stSize w)) mode none none m
    (toBytes (stSize w) (s.rx b).toNat)
  rw [hlen, ht] at hput
  rw [hput, ← hme]
  rfl

section Record
variable (id u : Nat) (fn : Fin 256) (die : Fin 8) (cls : Cls) (va : Word) (k : Nat) (bs : List Byte)

/-- Its own path sees an early-forwarding store as it is issued. -/
theorem fresh_visible_own (o : Observer) (hctx : o.ctx = some u) (hdie : o.die = die) (hpath : o.path = .p0) :
    (StoreRec.fresh id (some u) fn die .p0 cls false va k bs .early).visible o = true := by
  simp [StoreRec.fresh, StoreRec.visible, hctx, hdie, hpath]

theorem fresh_performed (mode : StoreMode) : (StoreRec.fresh id (some u) fn die .p0 cls false va k bs mode).performed = false := by
  simp [StoreRec.fresh, StoreRec.performed]

/-- No observer sees a store that performs at its home before it is applied there. -/
theorem fresh_hidden {mode : StoreMode} (h : mode ≠ .early) (o : Observer) :
    (StoreRec.fresh id (some u) fn die .p0 cls false va k bs mode).visible o = false := by
  cases mode with
  | early => exact absurd rfl h
  | glob => rfl
  | home => rfl

end Record

theorem storeModeAt_early (m : Mapped) : storeModeAt m .early = if m.mt = 0 then .early else .home := by
  by_cases h : m.mt = 0 <;> simp [storeModeAt, h]

/-- Settles O23: a scalar store is one `State.putStore` after the stores it waits for. -/
theorem scalarStores : Obligations.ScalarStores := by
  unfold Obligations.ScalarStores
  refine ⟨fun s w b a imm cls m => ?_, fun s w b a imm cls m => ?_⟩ <;> intro n va h hr hk u
  · have hlen : (toBytes n (s.rx b).toNat).length = n := length_toBytes ..
    have hroom : (toBytes n (s.rx b).toNat).length - 1 + m.key % 16 < 16 := hlen.symm ▸ block_room (stSize_dvd_block w) (stSize_pos w) hk
    refine ⟨_, scalarStore_reaches h hr rfl rfl, rfl, fun hc => ⟨fun hmt i hi => ?_, ?_, fun hmt o j hj => ?_, fun o j hj hkey => ?_⟩⟩
    · refine State.putStore_same (s := u) s.me.fn s.me.die .p0 cls false va m.ki m.key _ _ none s.me.uid hc hroom i _
        (getElem?_toBytes hi _) (shows_visible _) ?_
      rw [storeModeAt_early, if_pos hmt]
      exact fresh_visible_own _ _ _ _ _ _ _ _ _ rfl rfl rfl
    · refine ⟨_, State.putStore_record (s := u) s.me.fn s.me.die .p0 cls false va m.ki m.key _ (storeModeAt m .early) none none s.me.uid hc hroom,
        rfl, storeModeAt_early m, rfl, rfl, rfl, fresh_performed .., rfl, cells_toBytes ..⟩
    · refine State.putStore_hidden (s := u) (some s.me.uid) s.me.fn s.me.die .p0 cls false va m.ki m.key _ _ none none hc hroom j hj
        (shows_visible o) (fresh_hidden _ _ _ _ _ _ _ _ ?_ o)
      simp [storeModeAt_early, hmt]
    · exact State.putStore_other (s := u) (some s.me.uid) s.me.fn s.me.die .p0 cls false va m.ki m.key _ _ none none hc hroom j
        (hlen.symm ▸ hj) hkey (shows_visible o)
  · have hlen : (toBytes n (s.rx b).toNat).length = n := length_toBytes ..
    have hroom : (toBytes n (s.rx b).toNat).length - 1 + m.key % 16 < 16 := hlen.symm ▸ block_room (stSize_dvd_block w) (stSize_pos w) hk
    refine ⟨_, scalarStore_reaches h hr rfl rfl, rfl, fun hc => ⟨?_, fun o j hj => ?_⟩⟩
    · exact ⟨_, State.putStore_record (s := u) s.me.fn s.me.die .p0 cls false va m.ki m.key _ .glob none none s.me.uid hc hroom,
        rfl, rfl, rfl, rfl, rfl, rfl, cells_toBytes ..⟩
    · exact State.putStore_hidden (s := u) (some s.me.uid) s.me.fn s.me.die .p0 cls false va m.ki m.key _ .glob none none hc hroom j hj
        (shows_visible o) (fresh_hidden _ _ _ _ _ _ _ _ (by decide) o)

end Sys2Proof.Machine
end

section
/-! PROOFS. The bytes of concatenated words, and the write of an atomic (10 R151, R152): the block it keys, the bytes the home reads back,
and what it leaves. -/

namespace Sys2Proof.Machine

/-! ### Bytes and words -/

theorem ofBytes_append (l r : List Byte) : ofBytes (l ++ r) = ofBytes l + 2 ^ (8 * l.length) * ofBytes r := by
  induction l with
  | nil => simp [ofBytes]
  | cons b l ih =>
    rw [List.cons_append, ofBytes, ofBytes, ih, List.length_cons, Nat.mul_succ, Nat.pow_add]
    ring

/-- Bytes are determined by their value. -/
theorem toBytes_ofBytes (l : List Byte) : toBytes l.length (ofBytes l) = l := by
  induction l with
  | nil => rfl
  | cons b l ih =>
    have hlow : BitVec.ofNat 8 (b.toNat + 256 * ofBytes l) = b := by
      apply BitVec.eq_of_toNat_eq
      rw [BitVec.toNat_ofNat]
      omega
    have hhigh : (b.toNat + 256 * ofBytes l) / 256 = ofBytes l := by omega
    rw [List.length_cons, toBytes_succ, ofBytes, hlow, hhigh, ih]

/-- Two words side by side in memory. -/
theorem toBytes_pair {low high : Nat} (hl : low < 2 ^ 64) (hh : high < 2 ^ 64) :
    toBytes 16 (high * 2 ^ 64 + low) = toBytes 8 low ++ toBytes 8 high := by
  have hvalue : ofBytes (toBytes 8 low ++ toBytes 8 high) = high * 2 ^ 64 + low := by
    rw [ofBytes_append, length_toBytes, ofBytes_toBytes, ofBytes_toBytes, Nat.mod_eq_of_lt hl, Nat.mod_eq_of_lt hh]
    ring
  have hlen : (toBytes 8 low ++ toBytes 8 high).length = 16 := by rw [List.length_append, length_toBytes, length_toBytes]
  rw [← hvalue, ← hlen]
  exact toBytes_ofBytes _

/-! ### The write of an atomic -/

/-- The record of an atomic's write: applied at once, and visible to every die. -/
def atomicRecord (id ctx : Nat) (fn : Fin 256) (die : Fin 8) (path : Path) (cls : Cls) (va : Word) (k : Nat) (bs : List Byte) : StoreRec :=
  { (StoreRec.fresh id (some ctx) fn die path cls false va k bs .early).applyNow with dies := BitVec.allOnes 8, acked := true }

section Record
variable (id ctx : Nat) (fn : Fin 256) (die : Fin 8) (path : Path) (cls : Cls) (va : Word) (k : Nat) (bs : List Byte)

theorem atomicRecord_applied : (atomicRecord id ctx fn die path cls va k bs).applied = true := rfl

theorem atomicRecord_bytes : (atomicRecord id ctx fn die path cls va k bs).bytes =
    (StoreRec.fresh id (some ctx) fn die path cls false va k bs .early).bytes := StoreRec.applyNow_bytes _

theorem atomicRecord_byteAt (j : Nat) : (atomicRecord id ctx fn die path cls va k bs).byteAt j = if k ≤ j then bs[j - k]? else none := by
  rw [StoreRec.byteAt, atomicRecord_bytes, ← StoreRec.fresh_byteAt id (some ctx) fn die path cls false va k bs .early none none, StoreRec.byteAt]

theorem atomicRecord_distinct : (atomicRecord id ctx fn die path cls va k bs).Distinct := by
  rw [StoreRec.Distinct, atomicRecord_bytes]
  exact StoreRec.fresh_distinct ..

end Record

section Write
variable {s : State} (ctx : Nat) (fn : Fin 256) (die : Fin 8) (path : Path) (cls : Cls) (va : Word) (ki k : Nat) (bs : List Byte) (far : Bool)

/-- The state into which the record of an atomic's write enters. -/
def State.keyed (s : State) (die : Fin 8) (ki k n : Nat) (far : Bool) : State :=
  (s.rekeyAll ki k n).setModified (if far then homeOf k else die) k n

theorem State.keyed_me (n : Nat) : (s.keyed die ki k n far).me = s.me := by
  obtain ⟨m, r, p, a, hrekeyed⟩ := s.rekeyAll_sameButMemory ki k n
  obtain ⟨-, -, -, hme, -⟩ := State.setModified_same (s.rekeyAll ki k n) (if far then homeOf k else die) k n
  exact hme.trans (by rw [hrekeyed])

theorem State.setModified_keys (die : Fin 8) (n : Nat) : (s.setModified die k n).keys = s.keys := by
  unfold State.setModified
  split <;> rfl

theorem State.putAtomic_eq : s.putAtomic (some ctx) fn die path cls va ki k bs far =
    State.settle { s.keyed die ki k bs.length far with
      nextId := s.nextId + 1
      stores := insertStore (atomicRecord s.nextId ctx fn die path cls va k bs) (s.keyed die ki k bs.length far).stores } := rfl

theorem State.putAtomic_me : (s.putAtomic (some ctx) fn die path cls va ki k bs far).me = s.me := by
  rw [State.putAtomic_eq]
  exact State.keyed_me ..

theorem State.keyed_canonical (h : s.Canonical) : (s.keyed die ki k bs.length far).Canonical := by
  obtain ⟨hwf, hnodup, hsorted⟩ := State.rekeyAll_canonical h ki k bs.length
  obtain ⟨hmem, hstores, -⟩ := State.setModified_same (s.rekeyAll ki k bs.length) (if far then homeOf k else die) k bs.length
  exact ⟨by rw [State.keyed, hmem]; exact hwf, by rw [State.keyed, hstores]; exact hnodup, by rw [State.keyed, hstores]; exact hsorted⟩

/-- What any observer reads after an atomic's write, byte by byte. -/
theorem State.putAtomic_see (h : s.Canonical) {sh : StoreRec → Bool} (hs : Shows sh) (j : Nat) :
    (s.putAtomic (some ctx) fn die path cls va ki k bs far).see sh j =
      overBytes sh j (Memory.get (s.keyed die ki k bs.length far).mem j)
        (insertStore (atomicRecord s.nextId ctx fn die path cls va k bs) (s.keyed die ki k bs.length far).stores) := by
  rw [State.putAtomic_eq]
  exact State.insert_see (State.keyed_canonical die ki k bs far h) _ (atomicRecord_distinct ..) _ hs j

variable (hroom : bs.length - 1 + k % 16 < 16)
include hroom

/-- A block that an atomic writes lies under the keys it was written under. -/
theorem State.putAtomic_plain (raw : Nat → Byte) {j : Nat} (hj : j / 16 = k / 16) :
    (s.putAtomic (some ctx) fn die path cls va ki k bs far).plain ki raw j = raw j := by
  rw [State.plain, isEncrypted_of_block hj]
  split
  case isFalse => rfl
  case isTrue henc =>
    obtain ⟨-, -, hlines, -, -⟩ := State.setModified_same (s.rekeyAll ki k bs.length) (if far then homeOf k else die) k bs.length
    have hkey : (s.putAtomic (some ctx) fn die path cls va ki k bs far).blockKey j = some (s.slotKey ki) := by
      rw [← s.rekey_blockKey ki k henc, ← s.rekeyAll_block ki hroom, State.blockKey, State.blockKey, hj]
      show ((s.keyed die ki k bs.length far).lineKeys.find? _).map _ = _
      rw [State.keyed, hlines]
    have hslot : (s.putAtomic (some ctx) fn die path cls va ki k bs far).slotKey ki = s.slotKey ki := by
      show State.slotKey (s.keyed die ki k bs.length far) ki = _
      rw [State.slotKey, State.slotKey, State.keyed, State.setModified_keys, s.rekeyAll_block ki hroom, (s.rekey_sameButMemory ki k).keys]
    rw [hkey, hslot]
    exact if_pos rfl

variable (h : s.Canonical)
include h

omit hroom in
/-- The home reads the bytes that an atomic wrote. -/
theorem State.putAtomic_homeByte_same {i : Nat} {b : Byte} (hb : bs[i]? = some b) :
    (s.putAtomic (some ctx) fn die path cls va ki k bs far).homeByte (k + i) = b := by
  rw [State.homeByte_see, State.putAtomic_see ctx fn die path cls va ki k bs far h shows_applied]
  refine overBytes_insert_shown _ _ _ _ _ (atomicRecord_applied ..) rfl b ?_ fun q _ hq => .inl ?_
  · rw [atomicRecord_byteAt, if_pos (Nat.le_add_right _ _), Nat.add_sub_cancel_left]
    exact hb
  · refine Bool.eq_false_iff.mpr fun happlied => ?_
    have hrank : q.rank = 0 := by rw [StoreRec.rank, happlied]; rfl
    omega

/-- An atomic leaves the home's bytes outside its datum, but for a block that changes its keys. -/
theorem State.putAtomic_homeByte_other {j : Nat} (hj : j < k ∨ k + bs.length ≤ j) (hkey : j / 16 ≠ k / 16 ∨ s.keyedAs ki k) :
    (s.putAtomic (some ctx) fn die path cls va ki k bs far).homeByte j = s.homeByte j := by
  have houtside : (atomicRecord s.nextId ctx fn die path cls va k bs).byteAt j = none := by
    rw [atomicRecord_byteAt]
    split
    · exact List.getElem?_eq_none (by omega)
    · rfl
  obtain ⟨hmem, hstores, -⟩ := State.setModified_same (s.rekeyAll ki k bs.length) (if far then homeOf k else die) k bs.length
  rw [State.homeByte_see, State.putAtomic_see ctx fn die path cls va ki k bs far h shows_applied,
    overBytes_insert_other _ _ _ _ (State.keyed_canonical die ki k bs far h).2.2 (.inl houtside), State.keyed, hmem, hstores,
    s.rekeyAll_block ki hroom]
  exact State.rekey_see h ki k j hkey shows_applied

/-- The home reads back the datum that an atomic wrote. -/
theorem State.putAtomic_readHome : (s.putAtomic (some ctx) fn die path cls va ki k bs far).readHome ki k bs.length = bs := by
  refine List.ext_getElem (by simp [State.readHome]) fun i hi hb => ?_
  simp only [State.readHome, List.getElem_map, List.getElem_range]
  rw [State.putAtomic_plain _ _ _ _ _ _ _ _ _ _ hroom _ (by omega)]
  exact State.putAtomic_homeByte_same ctx fn die path cls va ki k bs far h (List.getElem?_eq_getElem hb)

end Write

end Sys2Proof.Machine
end

section
/-! PROOFS. 13 The AMO operations and the deque operations (R195, R196; 10 R150 to R152; 07 R112). -/

namespace Sys2Proof.Machine

/-! ### No store of the context is lost while earlier ones are applied -/

/-- A property that records keep when they are settled, applied or performed is kept by every change that keeps it. -/
theorem State.advanceAfter_keeps {P : StoreRec → Prop} (hP : KeptBySettling P) (happly : ∀ r, P r → P r.applyNow)
    (hperform : ∀ r, P r → P r.performNow) {s : State} {apply : Bool} {pick : StoreRec → Bool} {f : StoreRec → StoreRec}
    (hf : ∀ r, P r → P (f r)) (h : ∀ r ∈ s.stores, P r) : ∀ q ∈ (s.advanceAfter apply pick f).stores, P q := by
  refine State.advance_forall hP fun r hr => ?_
  split
  · split
    · exact hf r (h r hr)
    · split
      · exact happly r (h r hr)
      · exact hperform r (h r hr)
  · exact h r hr

theorem State.drainGlob_keeps {P : StoreRec → Prop} (hP : KeptBySettling P) (happly : ∀ r, P r → P r.applyNow)
    (hperform : ∀ r, P r → P r.performNow) (hpaths : ∀ r p, P r → P { r with paths := p }) {s : State} (pick : StoreRec → Bool)
    (h : ∀ r ∈ s.stores, P r) : ∀ q ∈ (s.drainGlob pick).stores, P q := by
  refine State.advanceAfter_keeps hP happly hperform happly ?_
  unfold State.afterRivals
  extract_lets ids
  split
  · exact h
  · exact State.advanceAfter_keeps hP happly hperform (fun r hr => hpaths _ _ (happly r hr)) h

/-- What `State.NoneLost` says of one store. -/
def State.Safe (s : State) (r : StoreRec) : Prop :=
  s.me.owns r = true → r.lost = false ∧ (r.home = r.die ∨ s.reachable r.die r.home = true)

theorem State.safe_applyNow {s : State} (r : StoreRec) (h : s.Safe r) : s.Safe r.applyNow := by
  unfold StoreRec.applyNow
  split <;> exact h

theorem State.safe_performNow {s : State} (r : StoreRec) (h : s.Safe r) : s.Safe r.performNow := by
  unfold StoreRec.performNow
  split
  · exact State.safe_applyNow r h
  · exact State.safe_applyNow r h
  · split
    · exact State.safe_applyNow r h
    · exact h

theorem State.drainGlob_noneLost {s : State} (h : s.NoneLost) (pick : StoreRec → Bool) : (s.drainGlob pick).NoneLost := by
  have hsafe : ∀ q ∈ (s.drainGlob pick).stores, s.Safe q :=
    State.drainGlob_keeps (fun _ _ _ _ hr => hr) State.safe_applyNow State.safe_performNow (fun _ _ hr => hr) pick h
  have hsame := s.drainGlob_sameButStores pick
  have hdies : (s.drainGlob pick).dies = s.dies := by rw [hsame.eq]
  intro q hq hown
  rw [hsame.me] at hown
  rw [State.reachable_of_dies hdies]
  exact hsafe q hq hown

/-! ### What an atomic does before it reads and writes (10 R150, R152) -/

/-- A release of a context that has lost no store only orders and performs stores. -/
theorem State.release_sameButStores {s : State} (h : s.NoneLost) (sc : Scope) (on : Path → Bool) : s.SameButStores (s.release sc on) := by
  have hmine : s.loseUnreachable (s.me.releases on) = s :=
    State.loseUnreachable_clear (h.mono fun r hr => by
      rw [Context.releases, Bool.and_eq_true] at hr
      exact hr.1)
  unfold State.release
  extract_lets mine
  split
  · rw [hmine]
    exact (s.drainPath_sameButStores _).trans (State.drainAll_sameButStores _ _)
  · exact s.perform_sameButStores _

/-- Of the context an atomic changes what it has read, and what still stands loaded ahead: nothing on its own path. -/
theorem State.beforeAtomic_me {s : State} (h : s.NoneLost) (p : Path) (sc : Scope) (cls : Cls) (ks : List (Nat × Nat)) :
    ∃ e a, (s.beforeAtomic p sc cls ks).me = { s.me with seen := e, ahead := a } ∧ ∀ x ∈ a, x ∈ s.me.ahead ∧ x.path ≠ p := by
  have hordered : s.SameButStores ((s.release sc (fun q => q == p)).orderLoad p cls ks) :=
    (State.release_sameButStores h sc _).trans (State.orderLoad_sameButStores _ _ _ _)
  generalize hs1 : (s.release sc (fun q => q == p)).orderLoad p cls ks = s1 at hordered
  obtain ⟨e, hnoted⟩ := s1.noteRead_seen (s1.me.obs p) ks
  have hbefore : s.beforeAtomic p sc cls ks = ((s1.noteRead (s1.me.obs p) ks).passed p cls false ks).acquire (fun q => q == p) := by
    rw [← hs1]
    rfl
  rw [hbefore, hnoted, ← hordered.me]
  refine ⟨e, (s1.me.ahead.filter (Ahead.stays p cls false ks)).filter (fun a => !(a.path == p)), rfl, fun x hx => ?_⟩
  obtain ⟨hkept, hpath⟩ := List.mem_filter.mp hx
  exact ⟨(List.mem_filter.mp hkept).1, by simpa using hpath⟩

/-! ### Atomics of a context -/

section Atomic
variable {s : State} {sc : Scope} {cls : Cls} {va : Word} {n : Nat} {m : Mapped} (hnone : s.NoneLost) (hr : s.Reaches .store cls va n m)
  (hhost : isHostKey m.key = false) (hp : s.Present m.key n) (hpos : 0 < n)
include hr hhost hp hpos

theorem State.atomicFault_ok : s.atomicFault va n = .ok m := by
  obtain ⟨hlow, halign, hmap, -⟩ := hr
  have hpoison : s.anyPoison m.key n = false := List.any_eq_false.mpr fun i hi => by simp [(hp i (List.mem_range.mp hi)).1]
  have hhome : (isPad m.key || s.reachable s.me.die (homeOf m.key)) = true := by simpa using (hp 0 hpos).2
  rw [State.atomicFault, badAddress_none hlow halign]
  dsimp only
  rw [hmap]
  dsimp only
  rw [if_neg (by simp [hhost]), if_neg (by simp [hpoison, hhome])]

theorem atomicOn_reaches (far : Bool) (f : Nat → Nat) (k : Nat → State → Out) : atomicOn sc cls far va n f s k =
    k (((s.drainGlob (s.heldBack .p0 cls m.key n)).beforeAtomic .p0 sc cls [(m.key, n)]).atomicAt .p0 cls far va m n f).1
      (((s.drainGlob (s.heldBack .p0 cls m.key n)).beforeAtomic .p0 sc cls [(m.key, n)]).atomicAt .p0 cls far va m n f).2 := by
  rw [atomicOn, State.atomicFault_ok hr hhost hp hpos]
  exact ordered_clear hr.2.2.2 _

end Atomic

/-- What an atomic leaves: the answer in xd, the datum `bs` at the home, and the home's other bytes as `u` has them, but for a block
that changes its keys. -/
def State.AtomicLeaves (s u : State) (o : Out) (d : XReg) (answer : Word) (m : Mapped) (n : Nat) (bs : List Byte) : Prop :=
  ∃ t, o = .next t ∧
    t.me = { (s.me.wx d answer 0).done 0 4 with seen := t.me.seen, ahead := t.me.ahead } ∧
    (∀ e ∈ t.me.ahead, e ∈ s.me.ahead ∧ e.path ≠ .p0) ∧
    (u.Canonical → t.readHome m.ki m.key n = bs ∧
      ∀ k, k < m.key ∨ m.key + n ≤ k → (k / 16 ≠ m.key / 16 ∨ u.keyedAs m.ki m.key) → t.homeByte k = u.homeByte k)

/-- An atomic that goes through answers from the datum the home holds, and leaves what its operation makes of it. -/
theorem atomicOn_leaves {s : State} {sc : Scope} {cls : Cls} {va : Word} {n : Nat} {m : Mapped} (hnone : s.NoneLost)
    (hr : s.Reaches .store cls va n m) (hhost : isHostKey m.key = false) (hp : s.Present m.key n) (hpos : 0 < n)
    (hroom : n - 1 + m.key % 16 < 16) (far : Bool) (f : Nat → Nat) (answer : Nat → Word) (d : XReg) {u : State}
    (hu : ((s.drainGlob (s.heldBack .p0 cls m.key n)).beforeAtomic .p0 sc cls [(m.key, n)]).applyFor s.me.die m.key n = u) :
    s.AtomicLeaves u (atomicOn sc cls far va n f s fun old s => .next (s.modMe (fun c => (c.wx d (answer old) 0).done 0 4)))
      d (answer (ofBytes (u.readHome m.ki m.key n))) m n (toBytes n (f (ofBytes (u.readHome m.ki m.key n)))) := by
  obtain ⟨e, a, hbefore, hahead⟩ := State.beforeAtomic_me (State.drainGlob_noneLost hnone (s.heldBack .p0 cls m.key n)) .p0 sc cls [(m.key, n)]
  rw [(s.drainGlob_sameButStores _).me] at hbefore hahead
  rw [atomicOn_reaches hr hhost hp hpos]
  generalize (s.drainGlob (s.heldBack .p0 cls m.key n)).beforeAtomic .p0 sc cls [(m.key, n)] = b at hbefore hu ⊢
  have hdie : b.applyFor b.me.die m.key n = u := by rw [← hu, hbefore]; rfl
  have hume : u.me = b.me := by rw [← hdie]; rfl
  generalize hbytes : toBytes n (f (ofBytes (u.readHome m.ki m.key n))) = bs
  have hlen : bs.length = n := by rw [← hbytes, length_toBytes]
  have hat : b.atomicAt .p0 cls far va m n f =
      (ofBytes (u.readHome m.ki m.key n), u.putAtomic (some u.me.uid) u.me.fn u.me.die .p0 cls va m.ki m.key bs far) := by
    rw [State.atomicAt, hdie, hbytes]
  subst hlen
  rw [hat]
  generalize ofBytes (u.readHome m.ki m.key bs.length) = old
  have hfinal : ((u.putAtomic (some u.me.uid) u.me.fn u.me.die .p0 cls va m.ki m.key bs far).modMe
      (fun c => (c.wx d (answer old) 0).done 0 4)).me = { (s.me.wx d (answer old) 0).done 0 4 with seen := e, ahead := a } := by
    rw [State.modMe_me, State.putAtomic_me, hume, hbefore, Context.wx_done_seen_ahead]
  exact ⟨_, rfl, by rw [hfinal], by rw [hfinal]; exact hahead, fun hc => ⟨State.putAtomic_readHome _ _ _ _ _ _ _ _ _ _ hroom hc,
    fun k hk hkey => State.putAtomic_homeByte_other _ _ _ _ _ _ _ _ _ _ hroom hc hk hkey⟩⟩

theorem State.ReadyX.left {s : State} {l r : List XReg} (h : s.ReadyX (l ++ r)) : s.ReadyX l := by
  obtain ⟨hearly, hpoison⟩ := h
  refine ⟨?_, ?_⟩
  · unfold State.stalledX at hearly ⊢
    split
    · rw [if_pos ‹_›, List.find?_append, Option.or_eq_none_iff] at hearly
      exact hearly.1
    · rfl
  · rw [List.any_append, Bool.or_eq_false_iff] at hpoison
    exact hpoison.1

/-- A deque header as its two indices. -/
theorem dequeStep_pair (steal : Bool) {head tail : Nat} (hhead : head < 2 ^ 64) : dequeStep steal (tail * 2 ^ 64 + head) =
    if tail > head then (if steal then (tail * 2 ^ 64 + (head + 1), head) else ((tail - 1) * 2 ^ 64 + head, tail - 1))
    else (tail * 2 ^ 64 + head, 2 ^ 64 - 1) := by
  have hlow : (tail * 2 ^ 64 + head) % 2 ^ 64 = head := by omega
  have hhigh : (tail * 2 ^ 64 + head) / 2 ^ 64 = tail := by omega
  rw [dequeStep, hlow, hhigh]

/-- Settles O24: each operation is one atomic with its own function of the old value. -/
theorem scalarAtomics : Obligations.ScalarAtomics := by
  unfold Obligations.ScalarAtomics
  refine ⟨fun s d a b cls sc m => ?_, fun s d a cls sc m => ?_⟩
  · intro va y h hnone hr hhost hk hp u old does
    have hatomic : ∀ (f : Nat → Nat) (answer : Nat → Word), s.AtomicLeaves u _ d _ m 8 _ := fun f answer =>
      atomicOn_leaves (sc := sc) hnone hr hhost hp (by decide) (by omega) false f answer d rfl
    clear_value u
    have hdoes : ∀ (i : Instr) (rs : List XReg) (f g : Word → Word), s.ReadyX rs → f = g → exec i s = amo rs f d a cls sc s → does i g := by
      rintro i rs f g hrs rfl hi
      obtain ⟨t, ht, hleft⟩ := hatomic (fun o => (f (BitVec.ofNat 64 o)).toNat) (BitVec.ofNat 64)
      refine ⟨t, ?_, hleft⟩
      rw [hi, amo, readsX_ready hrs]
      exact ht
    have hab : s.ReadyX [a, b] := State.ReadyX.left (r := [d]) h
    clear_value does
    exact ⟨hdoes _ _ _ _ hab rfl rfl, hdoes _ _ _ _ hab rfl rfl, hdoes _ _ _ _ hab rfl rfl, hdoes _ _ _ _ hab rfl rfl,
      hdoes _ _ (fun o => if o.slt y then o else y) _ hab (by simp only [BitVec.slt, decide_eq_true_eq]) rfl,
      hdoes _ _ (fun o => if o.slt y then y else o) _ hab (by simp only [BitVec.slt, decide_eq_true_eq]) rfl,
      hdoes _ _ (fun o => if o.ult y then o else y) _ hab (by simp only [BitVec.ult, decide_eq_true_eq, BitVec.lt_def]) rfl,
      hdoes _ _ (fun o => if o.ult y then y else o) _ hab (by simp only [BitVec.ult, decide_eq_true_eq, BitVec.lt_def]) rfl,
      hdoes _ _ _ _ hab rfl rfl, hdoes _ _ _ _ h rfl rfl⟩
  · intro va h hnone hr hhost hk hp u head tail does
    have hatomic : ∀ (f : Nat → Nat) (answer : Nat → Word), s.AtomicLeaves u _ d _ m 16 _ := fun f answer =>
      atomicOn_leaves (sc := sc) hnone hr hhost hp (by decide) (by omega) true f answer d rfl
    clear_value u
    have hlen : (u.readHome m.ki m.key 16).length = 16 := by simp [State.readHome]
    have hhead : head < 2 ^ 64 := by simpa [hlen] using ofBytes_lt ((u.readHome m.ki m.key 16).take 8)
    have htail : tail < 2 ^ 64 := by simpa [hlen] using ofBytes_lt ((u.readHome m.ki m.key 16).drop 8)
    have hold : ofBytes (u.readHome m.ki m.key 16) = tail * 2 ^ 64 + head := by
      conv_lhs => rw [← List.take_append_drop 8 (u.readHome m.ki m.key 16), ofBytes_append, List.length_take, hlen]
      show head + 2 ^ 64 * tail = _
      omega
    have hamoq : ∀ (steal : Bool) (answer head' tail' : Nat), head' < 2 ^ 64 → tail' < 2 ^ 64 →
        dequeStep steal (tail * 2 ^ 64 + head) = (tail' * 2 ^ 64 + head', answer) →
        s.AtomicLeaves u (amoq steal d a cls sc s) d (BitVec.ofNat 64 answer) m 16 (toBytes 8 head' ++ toBytes 8 tail') := by
      intro steal answer head' tail' hh ht hstep
      have hleaves := hatomic (fun o => (dequeStep steal o).1) (fun o => BitVec.ofNat 64 (dequeStep steal o).2)
      rw [hold, hstep, toBytes_pair hh ht] at hleaves
      rw [amoq, readsX_ready h]
      exact hleaves
    have hdoes : ∀ (i : Instr) (steal : Bool) (answer head' tail' : Nat), exec i s = amoq steal d a cls sc s → head' < 2 ^ 64 → tail' < 2 ^ 64 →
        dequeStep steal (tail * 2 ^ 64 + head) = (tail' * 2 ^ 64 + head', answer) → does i answer head' tail' := by
      intro i steal answer head' tail' hi hh ht hstep
      obtain ⟨t, ht, hme, hahead, hbytes⟩ := hamoq steal answer head' tail' hh ht hstep
      exact ⟨t, hi.trans ht, hme, hahead, fun hc => ⟨(hbytes hc).1, fun k hout => (hbytes hc).2 k hout (.inl (by omega))⟩⟩
    refine ⟨fun hlt => ⟨hdoes (.amoqpop d a cls sc) false _ _ _ rfl hhead (by omega) ?_, hdoes (.amoqsteal d a cls sc) true _ _ _ rfl (by omega) htail ?_⟩,
      fun hle => ⟨hdoes (.amoqpop d a cls sc) false _ _ _ rfl hhead htail ?_, hdoes (.amoqsteal d a cls sc) true _ _ _ rfl hhead htail ?_⟩⟩ <;> rw [dequeStep_pair _ hhead]
    · exact if_pos hlt
    · exact if_pos hlt
    · exact if_neg (Nat.not_lt.mpr hle)
    · exact if_neg (Nat.not_lt.mpr hle)

end Sys2Proof.Machine
end

section
/-! PROOFS. 13 Scalar results (R188; 05 R72; 01 R6): what a register write changes, when its result is readable, and STALL on an early read
(12 R173, R186; 18 R294; 14 R213). -/

namespace Sys2Proof.Machine

/-! ### Results that are not readable yet -/

/-- A register none of whose results is late in a slot reads what it holds. -/
theorem xBack_ready {r : XReg} {t : Nat} {v : Word} {l : List XPend} (h : ∀ p ∈ l, p.reg = r → p.ready ≤ t) : xBack l r t v = v := by
  induction l with
  | nil => rfl
  | cons p l ih =>
    obtain ⟨hp, hl⟩ := List.forall_mem_cons.mp h
    rw [xBack]
    by_cases hr : p.reg = r
    · rw [if_pos hr, if_neg (Nat.not_lt.mpr (hp hr))]
    · rw [if_neg hr, ih hl]

theorem xBack_none {r : XReg} {t : Nat} {v : Word} {l : List XPend} (h : ∀ p ∈ l, p.reg ≠ r) : xBack l r t v = v :=
  xBack_ready fun p hp hr => absurd hr (h p hp)

section Pend
variable {l : List XPend} {d : XReg} {t lat : Nat} {old : Word}

theorem xPendWrite_early (h : lat ≤ 1) : xPendWrite l d t lat old = l.filter (fun p => p.reg != d) := if_pos h

theorem xPendWrite_late (h : ¬lat ≤ 1) : xPendWrite l d t lat old =
    ⟨d, old, t + lat⟩ :: (if xEarly l d t then l else l.filter (fun p => p.reg != d)) := if_neg h

/-- A write leaves the results of the other registers as they were. -/
theorem xPendWrite_other {r : XReg} (h : r ≠ d) :
    (xPendWrite l d t lat old).filter (fun p => p.reg == r) = l.filter (fun p => p.reg == r) := by
  have hkeep : ∀ q ∈ l, (q.reg == r && q.reg != d) = (q.reg == r) := fun q _ => by
    by_cases hq : q.reg = r <;> simp [hq, h]
  have hfilter : (l.filter (fun p => p.reg != d)).filter (fun p => p.reg == r) = l.filter (fun p => p.reg == r) := by
    rw [List.filter_filter]
    exact List.filter_congr hkeep
  by_cases hlat : lat ≤ 1
  · rw [xPendWrite_early hlat, hfilter]
  · rw [xPendWrite_late hlat, List.filter_cons_of_neg (by simpa using Ne.symm h)]
    split
    · rfl
    · exact hfilter

/-- A result is read once its latency has passed. -/
theorem xBack_written {u : Nat} (v : Word) (h : t + lat ≤ u) : xBack (xPendWrite l d t lat old) d u v = v := by
  by_cases hlat : lat ≤ 1
  · rw [xPendWrite_early hlat]
    exact xBack_none fun p hp => by simpa using (List.mem_filter.mp hp).2
  · rw [xPendWrite_late hlat, xBack, if_pos rfl, if_neg (Nat.not_lt.mpr h)]

/-- Before that, a read gives what the register held, when no earlier result is late. -/
theorem xBack_unwritten {u : Nat} (v : Word) (hlat : 1 < lat) (h : u < t + lat) (hl : ∀ p ∈ l, p.reg ≠ d) :
    xBack (xPendWrite l d t lat old) d u v = old := by
  rw [xPendWrite_late (Nat.not_le.mpr hlat), xBack, if_pos rfl, if_pos h]
  refine xBack_none fun p hp => ?_
  split at hp
  · exact hl p hp
  · exact hl p (List.mem_filter.mp hp).1

end Pend

/-! ### A scalar register write -/

section Write
variable (c : Context) {d r : XReg} (v : Word) (lat : Nat)

theorem Context.wx_xp (h : d ≠ 0) : (c.wx d v lat).clock.xp = xPendWrite c.clock.xp d c.clock.scalar lat c.x[d] := by
  rw [Context.wx, if_neg h]

theorem Context.wx_xp_other (h : r ≠ d) :
    (c.wx d v lat).clock.xp.filter (fun p => p.reg == r) = c.clock.xp.filter (fun p => p.reg == r) := by
  by_cases hd : d = 0
  · rw [Context.wx, if_pos hd]
  · rw [Context.wx_xp c v lat hd, xPendWrite_other h]

theorem Context.wx_xpoison (h : d ≠ 0) : (c.wx d v lat).xpoison = c.xpoison &&& ~~~(1#32 <<< d.val) := by rw [Context.wx, if_neg h]

/-- A write clears the poison of its register alone. -/
theorem Context.wx_xpoison_same (h : d ≠ 0) : (c.wx d v lat).xpoison.getLsbD d.val = false := by
  simp [Context.wx_xpoison c v lat h]

theorem Context.wx_xpoison_other (h : r ≠ d) : (c.wx d v lat).xpoison.getLsbD r.val = c.xpoison.getLsbD r.val := by
  by_cases hd : d = 0
  · rw [Context.wx, if_pos hd]
  · have hbit : (1#32 <<< d.val).getLsbD r.val = false := by
      have hne : r.val ≠ d.val := Fin.val_ne_of_ne h
      simp only [BitVec.getLsbD_shiftLeft, BitVec.getLsbD_one]
      by_cases hlt : r.val < d.val
      · simp [hlt]
      · simp [show r.val - d.val ≠ 0 by omega]
    rw [Context.wx_xpoison c v lat hd, BitVec.getLsbD_and, BitVec.getLsbD_not, hbit]
    simp

/-- What a scalar register write and the step past its instruction leave of the context. -/
theorem Context.wx_done_frame (st len : Nat) : (c.wx d v lat).done st len = { c with
    pc := c.pc + BitVec.ofNat 64 len, ldx := d, x := (c.wx d v lat).x, xpoison := (c.wx d v lat).xpoison
    clock := { c.clock with scalar := c.clock.scalar + 1 + st, xp := (c.wx d v lat).clock.xp } } := by
  by_cases hd : d = 0 <;> simp [Context.wx, Context.done, hd]

end Write

section Read
variable (s : State) {d r : XReg} (v : Word) (lat st len : Nat)

theorem State.scalarNext_rx (h : r ≠ 0) : (s.scalarNext d v lat st len).rx r =
    xBack (s.me.wx d v lat).clock.xp r (s.me.clock.scalar + 1 + st) (s.me.wx d v lat).x[r] := by
  show (if r = 0 then 0 else xBack _ r (((s.me.wx d v lat).done st len).clock.scalar) _) = _
  rw [if_neg h, Context.done_scalar, Context.wx_scalar]
  rfl

/-- A result is readable from the slot after its latency on. -/
theorem State.scalarNext_rx_ready (hlat : lat ≤ 1 + st) (hd : d ≠ 0) : (s.scalarNext d v lat st len).rx d = v := by
  rw [State.scalarNext_rx s v lat st len hd, Context.wx_xp _ _ _ hd, Context.wx_same _ _ _ _ hd, xBack_written _ (by omega)]

theorem State.scalarNext_rx_late (hlat : 1 + st < lat) (hd : d ≠ 0) (hp : ∀ p ∈ s.me.clock.xp, p.reg ≠ d) :
    (s.scalarNext d v lat st len).rx d = s.me.x[d] := by
  rw [State.scalarNext_rx s v lat st len hd, Context.wx_xp _ _ _ hd, xBack_unwritten _ (by omega) (by omega) hp]

/-- A write leaves what another register reads, when its results are readable. -/
theorem State.scalarNext_rx_other (hr : r ≠ d) (hp : ∀ p ∈ s.me.clock.xp, p.reg = r → p.ready ≤ s.me.clock.scalar) :
    (s.scalarNext d v lat st len).rx r = s.rx r := by
  by_cases hr0 : r = 0
  · rw [hr0]
    rfl
  · have hafter : ∀ p ∈ (s.me.wx d v lat).clock.xp, p.reg = r → p.ready ≤ s.me.clock.scalar + 1 + st := fun p hmem hreg => by
      have hother : p ∈ (s.me.wx d v lat).clock.xp.filter (fun q => q.reg == r) := List.mem_filter.mpr ⟨hmem, beq_iff_eq.mpr hreg⟩
      rw [Context.wx_xp_other _ _ _ hr] at hother
      have := hp p (List.mem_filter.mp hother).1 hreg
      omega
    rw [State.scalarNext_rx s v lat st len hr0, xBack_ready hafter, Context.wx_other _ _ _ _ _ hr]
    show _ = if r = 0 then 0 else xBack _ _ _ _
    rw [if_neg hr0, xBack_ready hp]

end Read

/-! ### STALL (12 R173) -/

/-- A result is late when the newest one of its register is. -/
theorem xEarly_eq_any (l : List XPend) (q : XReg) (t : Nat) :
    xEarly l q t = (l.find? (fun p => p.reg == q)).any (fun p => decide (t < p.ready)) := by
  unfold xEarly
  cases l.find? (fun p => p.reg == q) <;> rfl

theorem State.stalledX_eq_some {s : State} {rs : List XReg} {r : XReg} : s.stalledX rs = some r ↔ s.me.sys.sbchk = true ∧
    rs.find? (fun q => q != 0 && (s.me.clock.xp.find? (fun p => p.reg == q)).any (fun p => decide (s.me.clock.scalar < p.ready))) =
      some r := by
  simp only [← xEarly_eq_any]
  unfold State.stalledX
  cases s.me.sys.sbchk <;> simp

/-- An instruction that reads its sources first traps STALL where one is read early. -/
theorem readsX_stalled {s : State} {rs : List XReg} {r : XReg} (h : s.stalledX rs = some r) (k : Out) :
    readsX rs s k = .next (s.deliverAt .stall s.me.pc (BitVec.ofNat 64 r.val)) := by
  rw [readsX, h]
  rfl

section StalledV
variable {s : State} {v : VView} {xs : List XReg} {vs : List VSrc} {ms : List MReg}

theorem State.stalledV_scalar {r : XReg} (h : s.stalledX xs = some r) : s.stalledV v xs vs ms = some (BitVec.ofNat 64 r.val) := by
  rw [State.stalledV, h]

variable (hc : s.me.sys.sbchk = true) (hx : s.stalledX xs = none)
include hc hx

theorem State.stalledV_vector {r : VReg} (h : s.me.earlyV v vs = some r) : s.stalledV v xs vs ms = some (BitVec.ofNat 64 (32 + r.val)) := by
  rw [State.stalledV, hx]
  dsimp only
  rw [if_pos hc, h]

theorem State.stalledV_mask (h : s.me.earlyV v vs = none) :
    s.stalledV v xs vs ms = (s.me.earlyM ms).map (fun m => BitVec.ofNat 64 (64 + m.val)) := by
  rw [State.stalledV, hx]
  dsimp only
  rw [if_pos hc, h]

end StalledV

section Vector
variable {s : State} {v : VView} {inBlock : Bool} {ok : VView → Bool} {xs : List XReg} {vs : VView → List VSrc} {ms : List MReg}
  {act : VView → VecRegs → Bool} {dst : VView → Option (VReg × Nat)} {k : VView → VecRegs → State → Out}

/-- A vector instruction past its first checks: under an active unit STALL comes first, and with none nothing is checked. -/
theorem vector_checked (hk : s.me.kind = .thread) (hv : s.me.view = some v) (hb : s.me.group = none ∨ inBlock = true) (hok : ok v = true) :
    vector inBlock ok xs vs ms act dst s k =
      if act v s.me.vregs then stalls v xs (vs v) ms s (handing (dst v) s (cleanV v xs (vs v) ms s (k v s.me.vregs s)))
      else k v s.me.vregs s := by
  have hplace : (s.me.group.isSome && !inBlock) = false := by
    rcases hb with hb | hb
    · rw [hb]; rfl
    · rw [hb, Bool.not_true, Bool.and_false]
  rw [vector, threadOnly_thread hk, hplace, hv, if_neg Bool.false_ne_true]
  dsimp only
  rw [hok]
  exact if_neg (by decide)

theorem stalls_stalled {l : List VSrc} {w : Word} (h : s.stalledV v xs l ms = some w) (o : Out) :
    stalls v xs l ms s o = .next (s.deliverAt .stall s.me.pc w) := by
  rw [stalls, h]
  rfl

end Vector

/-- An element-wise instruction with an active unit and aligned groups traps STALL where a source is read early. -/
theorem eltwise_stalled {s : State} {v : VView} {ok : VView → Bool} {o : VOpnd} {acc fl : Bool} {lat st len : Nat}
    {f : VView → Nat → Nat → Nat → Nat × FlagSet} {d a : VReg} {m : MReg} {w : Word} (hv : s.Vec v)
    (hok : (ok v && v.bl == 0 && aligned d v.lmul && aligned a v.lmul && o.ok v) = true)
    (hact : v.active none s.me.vregs m false ≠ [])
    (hw : s.stalledV v o.xs (⟨a, v.lmul, v.sew⟩ :: (if acc then [⟨d, v.lmul, v.sew⟩] else []) ++ o.vs v) [m] = some w) :
    eltwise ok o acc fl lat st len f d a m s = .next (s.deliverAt .stall s.me.pc w) := by
  obtain ⟨hk, hgroup, hview, -⟩ := hv
  have hactive : (!(v.active s.me.group s.me.vregs m false).isEmpty) = true := by simpa [hgroup] using hact
  rw [eltwise, vector_checked hk hview (.inr rfl) hok, if_pos hactive]
  exact stalls_stalled hw _

/-- Settles O7: the rules of `Context.wx` and `xBack`, and the place of `readsX` and of `stalls` in each instruction. -/
theorem scalarResults : Obligations.ScalarResults := by
  unfold Obligations.ScalarResults
  refine ⟨fun s d v lat st len => ?_, fun s d r v lat st len => ?_, fun s d a b st r => ?_, fun s v xs vs ms hc => ?_,
    fun s v inBlock ok xs vs ms act dst k hk hv hb hok => ?_, fun s v d a b x m st w hv hbl hd ha hb hact => ?_⟩
  · refine ⟨rfl, s.me.wx_done_frame v lat st len, fun hd => ⟨Context.wx_same _ _ _ _ hd, s.me.wx_xpoison_same v lat hd⟩, fun hd => ?_,
      fun r hr => ⟨Context.wx_other _ _ _ _ _ hr, s.me.wx_xpoison_other v lat hr, s.me.wx_xp_other v lat hr⟩⟩
    subst hd
    exact ⟨rfl, rfl⟩
  · exact ⟨s.scalarNext_rx_ready v lat st len, s.scalarNext_rx_late v lat st len, s.scalarNext_rx_other v lat st len, rfl⟩
  · intro stops
    have hplain : ∀ rs i k, exec i s = readsX rs s k → stops rs i := fun rs i k hi h => hi.trans (readsX_stalled h k)
    have hthread : s.me.kind = .thread → ∀ rs i k, exec i s = threadOnly s (readsX rs s k) → stops rs i := fun hk rs i k hi =>
      hplain rs i k (hi.trans (threadOnly_thread hk _))
    have hbureau : s.me.kind = .bureau → ∀ rs i k, exec i s = bureauOnly s (readsX rs s k) → stops rs i := fun hk rs i k hi =>
      hplain rs i k (hi.trans (bureauOnly_bureau hk _))
    clear_value stops
    refine ⟨fun rs => State.stalledX_eq_some, ?_, fun imm sh w => ?_, fun imm sh => ?_, fun off => ?_, fun w x imm cls sc => ?_,
      fun n l => ⟨fun he => ?_, ?_⟩, fun hk f rm cc cv sc tag g => ?_, fun hk l q h g cb z sat cg cr iv => ?_⟩
    · and_intros <;> exact hplain _ _ _ rfl
    · and_intros <;> exact hplain _ _ _ rfl
    · intro x
      and_intros <;> exact hplain _ _ _ rfl
    · and_intros <;> exact hplain _ _ _ rfl
    · and_intros <;> exact hplain _ _ _ rfl
    · exact hplain _ _ _ (if_neg (by simp [he]))
    · and_intros <;> exact hplain _ _ _ rfl
    · have hvset : s.me.group = none → ∀ rs i k, exec i s = threadOnly s (if s.me.group.isSome then trapIll s else readsX rs s k) →
          stops rs i := fun hg rs i k hi => hthread hk rs i k (hi.trans (congrArg _ (if_neg (by simp [hg]))))
      and_intros
      on_goal -1 => exact fun hg => ⟨hvset hg _ _ _ rfl, fun q z => hvset hg _ _ _ rfl⟩
      all_goals exact hthread hk _ _ _ rfl
    · and_intros <;> exact hbureau hk _ _ _ rfl
  · refine ⟨fun r => State.stalledV_scalar, fun hx => ⟨fun r => State.stalledV_vector hc hx, fun hv => ?_⟩⟩
    rw [State.stalledV_mask hc hx hv]
    exact ⟨fun m hm => by rw [hm]; rfl, fun hm => by rw [hm]; rfl⟩
  · rw [vector_checked hk hv hb hok]
    refine ⟨fun ha w hw => ?_, fun ha => if_neg (by simp [ha])⟩
    rw [if_pos ha]
    exact stalls_stalled hw _
  · intro stops
    have hvv : ∀ ok : VView → Bool, ok v = true → (ok v && v.bl == 0 && aligned d v.lmul && aligned a v.lmul && (VOpnd.vv b).ok v) = true :=
      fun ok hok => by simp [hok, hbl, hd, ha, VOpnd.ok, hb]
    have hvx : ∀ ok : VView → Bool, ok v = true → (ok v && v.bl == 0 && aligned d v.lmul && aligned a v.lmul && (VOpnd.vx x).ok v) = true :=
      fun ok hok => by simp [hok, hbl, hd, ha, VOpnd.ok]
    exact ⟨fun hint => ⟨eltwise_stalled (acc := false) hv (hvv _ hint) hact, eltwise_stalled (acc := false) hv (hvx _ hint) hact,
        eltwise_stalled (acc := false) hv (hvv _ hint) hact⟩,
      fun hfloat => ⟨eltwise_stalled (acc := false) hv (hvv _ hfloat) hact, eltwise_stalled (acc := true) hv (hvv _ hfloat) hact⟩⟩

end Sys2Proof.Machine
end

section
/-! PROOFS. Element-wise vector instructions, compares and mask instructions (14 R210, R211, R216 to R220, R226, R228; 12 R174). -/

namespace Sys2Proof.Machine

/-! ### Element-wise instructions (14 R216, R218 to R220) -/

section Eltwise
variable {s : State} {d a : VReg} {m : MReg} {st : Stall} {acc : Bool} {lat : Nat}

/-- An integer element-wise instruction computes `f`, or anything that has its low bits. -/
theorem vint_spec {i : Instr} {o : VOpnd} {f g : VView → Nat → Nat → Nat → Nat} (hi : exec i s = vint o acc lat f d a m st s)
    (hfg : ∀ v p q z, f v p q (if acc then z else 0) % 2 ^ v.sew = g v p q z % 2 ^ v.sew) :
    s.EltSpec i VView.isInt o acc false (fun v p q z => (g v p q z, 0)) d a m 4 :=
  eltwise_spec (fun _ => hi) fun v p q z _ _ _ => ⟨hfg v p q z, fun h => absurd h Bool.false_ne_true⟩

/-- The three operand forms of an integer element-wise instruction. -/
theorem vint_forms {b : VReg} {x : XReg} {w : Word} {vv vx vi : Instr} {f g : VView → Nat → Nat → Nat → Nat}
    (hvv : exec vv s = vint (.vv b) acc lat f d a m st s) (hvx : exec vx s = vint (.vx x) acc lat f d a m st s)
    (hvi : exec vi s = vint (.vi w) acc lat f d a m st s)
    (hfg : ∀ v p q z, f v p q (if acc then z else 0) % 2 ^ v.sew = g v p q z % 2 ^ v.sew) :
    ∀ p ∈ [(vv, VOpnd.vv b), (vx, .vx x), (vi, .vi w)],
      s.EltSpec p.1 VView.isInt p.2 acc false (fun v p q z => (g v p q z, 0)) d a m 4 := by
  intro p hp
  rcases List.mem_cons.mp hp with rfl | hp
  · exact vint_spec hvv hfg
  rcases List.mem_cons.mp hp with rfl | hp
  · exact vint_spec hvx hfg
  · obtain rfl := List.mem_singleton.mp hp
    exact vint_spec hvi hfg

/-- A floating-point element-wise instruction. -/
theorem vfp_spec {i : Instr} {o : VOpnd} {f g : VView → Nat → Nat → Nat → Nat × FlagSet}
    (hi : exec i s = vfp o acc lat f d a m st s) (hfg : ∀ v p q z, f v p q (if acc then z else 0) = g v p q z) :
    s.EltSpec i VView.isFloat o acc true g d a m 4 :=
  eltwise_spec (fun _ => hi) fun v p q z _ _ _ => by rw [hfg]; exact ⟨rfl, fun _ => rfl⟩

/-- The two operand forms of a floating-point element-wise instruction. -/
theorem vfp_forms {b : VReg} {x : XReg} {vv vx : Instr} {f g : VView → Nat → Nat → Nat → Nat × FlagSet}
    (hvv : exec vv s = vfp (.vv b) acc lat f d a m st s) (hvx : exec vx s = vfp (.vx x) acc lat f d a m st s)
    (hfg : ∀ v p q z, f v p q (if acc then z else 0) = g v p q z) :
    ∀ p ∈ [(vv, VOpnd.vv b), (vx, .vx x)], s.EltSpec p.1 VView.isFloat p.2 acc true g d a m 4 := by
  intro p hp
  rcases List.mem_cons.mp hp with rfl | hp
  · exact vfp_spec hvv hfg
  · obtain rfl := List.mem_singleton.mp hp
    exact vfp_spec hvx hfg

/-- A special function. -/
theorem vfun_spec {i : Instr} {f : VView → Val → Val × FlagSet} (hi : exec i s = vfun f d a m s) :
    s.EltSpec i VView.isFloat32 (.vi 0) false true (fun v p _ _ => v.ff.finish v.rm v.sat (f v (v.ff.decode p))) d a m 4 :=
  eltwise_spec (fun _ => hi) fun _ _ _ _ _ _ _ => ⟨rfl, fun _ => rfl⟩

/-- A compact form is its element-wise instruction, outside a block. -/
theorem compact_spec {i : Instr} {fmt : VView → Bool} {o : VOpnd} {fl : Bool} {st len : Nat}
    {f g : VView → Nat → Nat → Nat → Nat × FlagSet} (hi : exec i s = notInBlock s (eltwise fmt o acc fl lat st len f d a m s))
    (hfg : ∀ v p q z, f v p q (if acc then z else 0) = g v p q z) : s.EltSpec i fmt o acc fl g d a m len :=
  eltwise_spec (fun h => hi.trans (notInBlock_none h _)) fun v p q z _ _ _ => by rw [hfg]; exact ⟨rfl, fun _ => rfl⟩

end Eltwise

/-- Settles O25: each form is `vint` of its operation, whose result is the exact integer wrapped or clamped. -/
theorem integerElementInstructions : Obligations.IntegerElementInstructions := by
  unfold Obligations.IntegerElementInstructions
  intro s d a b x imm m st
  refine ⟨?add, ?sub, ?mul, ?mulh, ?macc, ?div, ?rem, ?min, ?max, ?and, ?or, ?xor, ?shl, ?shr, ?sra, ?sadd, ?ssub, ?cv⟩
  case shl =>
    refine vint_forms rfl rfl rfl fun v p q z => ?_
    show (p <<< (q % v.sew) % 2 ^ v.sew) % 2 ^ v.sew = _
    rw [Nat.mod_mod, Nat.shiftLeft_eq]
  case shr =>
    refine vint_forms rfl rfl rfl fun v p q z => ?_
    show (p >>> (q % v.sew)) % 2 ^ v.sew = _
    rw [Nat.shiftRight_eq_div_pow]
  case cv => exact compact_spec rfl fun _ _ _ _ => rfl
  all_goals exact vint_forms rfl rfl rfl fun _ _ _ _ => rfl

/-- Settles O26: each form is `vfp` or `vfun` of its exact operation, rounded once. -/
theorem floatElementInstructions : Obligations.FloatElementInstructions := by
  unfold Obligations.FloatElementInstructions
  intro s d a b x m st
  refine ⟨?add, ?sub, ?mul, ?macc, ?nmsac, ?div, ?min, ?max, ?sqrt, ?cls, ?exp2, ?log2, ?rcp, ?rsq, ?sin, ?cos, ?cvAdd, ?cvMul, ?cvMacc⟩
  case sqrt => exact vfp_spec rfl fun _ _ _ _ => rfl
  case cls => exact eltwise_spec (fun _ => rfl) fun _ _ _ _ _ _ _ => ⟨rfl, fun h => absurd h Bool.false_ne_true⟩
  case exp2 | log2 | rcp | rsq | sin | cos => exact vfun_spec rfl
  case cvAdd | cvMul | cvMacc => exact compact_spec rfl fun _ _ _ _ => rfl
  all_goals exact vfp_forms rfl rfl fun _ _ _ _ => rfl

/-! ### Compares (14 R217, R219) -/

theorem State.MaskSpec.congr {s : State} {i : Instr} {ok : VView → Bool} {xs : List XReg} {vs : VView → List VSrc} {ms : List MReg}
    {from0 fl : Bool} {f g : VView → VecRegs → Nat → Bool × FlagSet} {d m : MReg} (h : s.MaskSpec i ok xs vs ms from0 fl f d m)
    (hfg : ∀ v r e, g v r e = f v r e) : s.MaskSpec i ok xs vs ms from0 fl g d m := by
  have hg : g = f := funext fun v => funext fun r => funext fun e => hfg v r e
  rw [hg]
  exact h

/-- A compare that `eltcmp` makes, with its check of the format apart. -/
theorem eltcmp_spec {s : State} {i : Instr} {ok : VView → Bool} {o : VOpnd} {fl : Bool} {lat st : Nat}
    {f : VView → Nat → Nat → Bool × FlagSet} {d : MReg} {a : VReg} {m : MReg} (hi : exec i s = eltcmp ok o fl lat st f d a m s) :
    s.MaskSpec i (fun v => ok v && (v.bl == 0 && !v.tile && aligned a v.lmul && o.ok v)) o.xs (fun v => ⟨a, v.lmul, v.sew⟩ :: o.vs v)
      [m] false fl (fun v r e => f v (r.elem v a v.sew e) (o.at s v r e)) d m := by
  have hok : (fun v => ok v && (v.bl == 0 && !v.tile && aligned a v.lmul && o.ok v)) =
      fun v : VView => ok v && v.bl == 0 && !v.tile && aligned a v.lmul && o.ok v := by
    funext v
    simp only [Bool.and_assoc]
  rw [hok]
  refine mask_spec (inBlock := true) (lat := lat) (st := st) (act := fun v r => !(v.active none r m false).isEmpty) (fun h => ?_)
    fun v _ ha => by simpa using ha
  rw [hi, eltcmp, h.2]
  refine vector_congr fun v r => ?_
  simp only [List.map_map, Function.comp_def, h.2]

/-! ### Non-finite positions (14 R228) -/

/-- The elements of a unit, by their place in it. -/
theorem VView.elems_singleton (v : VView) (u : Nat) : v.elems [u] = (List.range v.per).map (fun k => u * v.per + k) := by
  unfold VView.elems VView.per
  cases v.tile <;> simp

theorem unitNf_eq (v : VView) (r : VecRegs) (a : VReg) (u : Nat) : unitNf v r a u = (List.range v.per).any (fun k =>
    (r.val v a (u * v.per + k)).nonFinite || (v.bl != 0 && (r.desc v a ((u * v.per + k) / v.bl)).getLsbD 16)) := by
  rw [unitNf, VView.elems_singleton, List.any_map]
  rfl

/-- Settles O27: each compare is `eltcmp` of its relation, and VNFBLK writes `unitNf`. -/
theorem compareInstructions : Obligations.CompareInstructions := by
  unfold Obligations.CompareInstructions
  intro s cc fc d a b x imm m st
  refine ⟨fun p hp => ?int, fun p hp => ?float, ?nf⟩
  case int =>
    have hcmp : ∀ (i : Instr) (o : VOpnd), exec i s = vcmp o cc d a m st s → s.MaskSpec i
        (fun v => v.isInt && (v.bl == 0 && !v.tile && aligned a v.lmul && o.ok v)) o.xs (fun v => ⟨a, v.lmul, v.sew⟩ :: o.vs v) [m]
        false false (fun v r e => (vcmpHolds cc (v.intOf (r.elem v a v.sew e)) (v.intOf (o.at s v r e)), 0)) d m :=
      fun i o hi => eltcmp_spec hi
    simp only [List.mem_cons, List.not_mem_nil, or_false] at hp
    rcases hp with rfl | rfl | rfl
    all_goals
      refine (hcmp _ _ rfl).congr fun v r e => Prod.ext ?_ rfl
      cases cc <;> simp [vcmpHolds, bne, beq_eq_decide]
  case float =>
    rcases List.mem_cons.mp hp with rfl | hp
    · exact eltcmp_spec (f := fun v => v.ff.rel (vfcmpRel fc)) (o := .vv b) rfl
    · obtain rfl := List.mem_singleton.mp hp
      exact eltcmp_spec (f := fun v => v.ff.rel (vfcmpRel fc)) (o := .vx x) rfl
  case nf =>
    refine mask_spec (inBlock := false) (lat := 0) (st := 0) (act := fun v r => !(v.active none r m false).isEmpty) (fun _ => ?_)
      fun v _ ha => by simpa using ha
    show execVnfblk d a m s = _
    simp only [execVnfblk, unitNf_eq]
    rfl

/-! ### Mask instructions (14 R226) -/

/-- m0 reads all ones. -/
@[simp] theorem VecRegs.mbit_zero (r : VecRegs) (u : Nat) : r.mbit 0 u = true := rfl

/-- Under m0 every body unit is active. -/
theorem VView.active_zero (v : VView) (grp : Option (BitVec 32768)) (r : VecRegs) (from0 : Bool) :
    v.active grp r 0 from0 = v.body grp from0 := List.filter_eq_self.mpr fun _ _ => rfl

/-- Outside a block the first body unit of a live instruction is active under m0. -/
theorem VView.active_zero_ne_nil {v : VView} (h : v.live = true) (r : VecRegs) (from0 : Bool) : v.active none r 0 from0 ≠ [] := by
  have hlt : v.vbeg < v.vl := of_decide_eq_true h
  exact List.ne_nil_of_mem ((v.mem_active r 0 from0 v.vbeg).mpr ⟨⟨hlt, .inr le_rfl, hlt⟩, r.mbit_zero _⟩)

/-- A mask that is a source twice stops the instruction as it does once. -/
theorem State.ReadyV.twice {s : State} {v : VView} {vs : List VSrc} {a : MReg} (h : s.ReadyV v vs [a]) : s.ReadyV v vs [a, a] := by
  obtain ⟨hearly, hv, hsh, hm⟩ := h
  refine ⟨fun hc => ⟨(hearly hc).1, ?_⟩, hv, hsh, fun p hp => by simpa using hm p hp⟩
  have hnone := (hearly hc).2
  rw [Context.earlyM, List.find?_eq_none] at hnone ⊢
  simpa using hnone

/-- A mask operation writes its function of two masks. -/
theorem maskOp_spec {s : State} {i : Instr} {f : Bool → Bool → Bool} {d a b : MReg} {st : Nat} (hi : exec i s = maskOp f d a b st s) :
    s.MaskSpec i (fun v => v.fmt != .pair) [] (fun _ => []) [a, b] true false (fun _ r e => (f (r.mbit a e) (r.mbit b e), 0)) d 0 := by
  refine mask_spec (inBlock := true) (lat := 1) (st := st) (act := fun v _ => v.live) (fun h => ?_)
    fun v _ ha => VView.active_zero_ne_nil ha _ true
  rw [hi, maskOp]
  refine vector_congr fun v r => ?_
  rw [h.2, VView.active_zero _ _ _ true]
  rfl

/-- The same with one source mask. -/
theorem maskOp_spec_one {s : State} {i : Instr} {f : Bool → Bool → Bool} {d a : MReg} {st : Nat} (hi : exec i s = maskOp f d a a st s) :
    s.MaskSpec i (fun v => v.fmt != .pair) [] (fun _ => []) [a] true false (fun _ r e => (f (r.mbit a e) (r.mbit a e), 0)) d 0 :=
  fun v hv hok hr => maskOp_spec hi v hv hok fun hne => ⟨(hr hne).1, (hr hne).2.twice⟩

/-- A vector instruction that writes an x register and completes. -/
theorem Context.wx_vdone {c : Context} (h : c.group = none) (x : XReg) (w : Word) (v : VView) (st : Nat) :
    ((c.wx x w 0).vdone v st 4).x = (c.wx x w 0).x ∧ ((c.wx x w 0).vdone v st 4).ldx = x ∧ ((c.wx x w 0).vdone v st 4).pc = c.pc + 4 ∧
      ((c.wx x w 0).vdone v st 4).vec = { c.vec with vbeg := 0 } ∧ ((c.wx x w 0).vdone v st 4).flags = c.flags := by
  have hgroup : (c.wx x w 0).group = none := by
    rw [Context.group, Context.wx_vec]
    exact h
  rw [Context.vdone_none hgroup]
  exact ⟨rfl, Context.wx_ldx .., congrArg (· + 4) (Context.wx_pc ..), congrArg (fun r : VecRegs => { r with vbeg := 0 })
      (Context.wx_vec ..),
    Context.wx_flags ..⟩

/-- An instruction that writes an x register from the bits set in two masks below VL. -/
theorem maskCount_spec {s : State} {i : Instr} {f : List Nat → Word} {x : XReg} {a m : MReg} {st : Nat} {v : VView}
    (hi : exec i s = maskCount f x a m st s) (hv : s.Vec v) (hfmt : (v.fmt != .pair) = true)
    (hr : (∃ e, e < v.vl ∧ s.me.vregs.mbit m e = true) → s.ReadyV v [] [a, m]) :
    ∃ t, exec i s = .next t ∧ t = { s with me := t.me } ∧
      t.me.x = (s.me.wx x (f ((List.range v.vl).filter (fun e => s.me.vregs.mbit a e && s.me.vregs.mbit m e))) 0).x ∧
      t.me.ldx = x ∧ t.me.pc = s.me.pc + 4 ∧ t.me.vec = { s.me.vec with vbeg := 0 } ∧ t.me.flags = s.me.flags := by
  refine ⟨_, hi.trans ((vector_ready hv false hfmt _ _ _ _ _ (fun ha => ?_) _)), rfl, Context.wx_vdone hv.2.1 ..⟩
  rw [List.any_eq_true] at ha
  obtain ⟨e, he, hm⟩ := ha
  exact ⟨readyX_nil s, hr ⟨e, List.mem_range.mp he, hm⟩, fun _ h => by cases h⟩

/-- Settles O32: the mask operations are `maskOp`, MPOPC and MFIRST `maskCount`. -/
theorem maskInstructions : Obligations.MaskInstructions := by
  unfold Obligations.MaskInstructions
  intro s d a b m x st
  refine ⟨maskOp_spec rfl, maskOp_spec rfl, ?xor, maskOp_spec_one (f := fun x _ => !x) rfl, maskOp_spec_one (f := fun x _ => x) rfl,
    ?popc, ?first⟩
  case xor =>
    refine (maskOp_spec (f := fun x y => x != y) rfl).congr fun v r e => ?_
    rw [Bool.bne_eq_xor]
  case popc => exact fun v => maskCount_spec (f := fun l => BitVec.ofNat 64 l.length) rfl
  case first =>
    have hfirst : exec (.mfirst x a m st) s =
        maskCount (fun l => if l = [] then BitVec.allOnes 64 else BitVec.ofNat 64 (l.headD 0)) x a m st.val s := by
      show execMfirst x a m st s = _
      rw [execMfirst]
      congr 1
      funext l
      cases l <;> rfl
    exact fun v => maskCount_spec hfirst

end Sys2Proof.Machine
end

section
/-! PROOFS. Vector instructions with a destination group: which elements a list of cells writes, and what a write of the group and
completing leave (14 R210, R211, R213). -/

namespace Sys2Proof.Machine

/-! ### Elements by their role (14 R210) -/

/-- What is written to an element, by its place among the active and the zeroed ones. -/
theorem VView.outcome_eq {v : VView} (hvl : v.vl ≤ v.vlmax) (r : VecRegs) (m : MReg) (from0 : Bool) {e : Nat} (he : e < v.vlmax * v.per)
    (new : Option Nat) : v.outcome r m from0 e new =
      if e / v.per ∈ v.active none r m from0 then new else if e ∈ v.zeroed none r m from0 true true then some 0 else none := by
  have hu : e / v.per < v.vlmax := (Nat.div_lt_iff_lt_mul v.per_pos).mpr he
  have hlb := VView.vlb_le hvl
  simp only [VView.outcome, VView.mem_active, VView.mem_zeroed v r m from0 v.vlb_tile]
  generalize e / v.per = u at *
  by_cases hnone : v.vl ≤ v.vbeg ∨ (from0 = false ∧ u < v.vbeg)
  · have hbody : ¬(v.vbeg < v.vl ∧ (from0 = true ∨ v.vbeg ≤ u)) := by
      rintro ⟨hlive, hfrom⟩
      rcases hnone with h | ⟨h, h'⟩
      · omega
      · rcases hfrom with hfrom | hfrom
        · rw [h] at hfrom; cases hfrom
        · omega
    rw [if_pos hnone, if_neg (by tauto), if_neg]
    rintro ⟨hlive, h | h | h⟩
    · exact hbody ⟨hlive, h.2.1⟩
    · rcases hnone with h' | ⟨-, h'⟩ <;> omega
    · rcases hnone with h' | ⟨-, h'⟩ <;> omega
  · have hlive : v.vbeg < v.vl := not_le.mp fun h => hnone (.inl h)
    have hfrom : from0 = true ∨ v.vbeg ≤ u := by
      cases from0
      · exact .inr (not_lt.mp fun h => hnone (.inr ⟨rfl, h⟩))
      · exact .inl rfl
    rw [if_neg hnone]
    by_cases hbody : u < v.vl
    · have hpad : ¬v.vl ≤ u := by omega
      have htail : ¬v.vlb ≤ u := by omega
      cases r.mbit m u <;> cases v.mp <;> simp [hlive, hfrom, hbody, hpad, htail]
    · by_cases hpad : u < v.vlb
      · simp [hlive, hbody, hpad, Nat.le_of_not_lt hbody]
      · cases v.tp <;> simp [hlive, hbody, hpad, Nat.le_of_not_lt hpad, hu]

/-- Whether an element is written does not depend on the value. -/
theorem VView.outcome_ne_none {v : VView} (hvl : v.vl ≤ v.vlmax) (r : VecRegs) (m : MReg) (from0 : Bool) {e : Nat}
    (he : e < v.vlmax * v.per) {a : Nat} (h : v.outcome r m from0 e (some a) ≠ none) (b : Nat) : v.outcome r m from0 e
    (some b) ≠ none := by
  rw [VView.outcome_eq hvl r m from0 he] at h ⊢
  split at h
  · rw [if_pos ‹_›]
    exact Option.some_ne_none b
  · rwa [if_neg ‹_›]

/-- The elements of active units lie in the group. -/
theorem VView.active_lt {v : VView} (hvl : v.vl ≤ v.vlmax) {r : VecRegs} {m : MReg} {from0 : Bool} {e : Nat}
    (h : e / v.per ∈ v.active none r m from0) : e < v.vlmax * v.per :=
  (Nat.div_lt_iff_lt_mul v.per_pos).mp (((v.mem_active ..).mp h).1.2.2.trans_le hvl)

/-- VLB is not above VLMAX. -/
theorem VView.vlb_le_vlmax {v : VView} (hvl : v.vl ≤ v.vlmax) : v.vlb ≤ v.vlmax := by
  unfold VView.vlb
  split
  · exact hvl
  · exact Nat.min_le_right ..

/-- The zeroed elements lie in the group. -/
theorem VView.zeroed_lt {v : VView} (hvl : v.vl ≤ v.vlmax) {r : VecRegs} {m : MReg} {from0 : Bool} {e : Nat}
    (h : e ∈ v.zeroed none r m from0 true true) : e < v.vlmax * v.per := by
  have hlb := VView.vlb_le_vlmax hvl
  rw [VView.mem_zeroed v r m from0 v.vlb_tile] at h
  refine (Nat.div_lt_iff_lt_mul v.per_pos).mp ?_
  omega

/-- No zeroed element is active. -/
theorem VView.zeroed_inactive {v : VView} (hvl : v.vl ≤ v.vlmax) {r : VecRegs} {m : MReg} {from0 : Bool} {e : Nat}
    (h : e ∈ v.zeroed none r m from0 true true) : e / v.per ∉ v.active none r m from0 := by
  have hlb := VView.vlb_le hvl
  rw [VView.mem_zeroed v r m from0 v.vlb_tile] at h
  rw [VView.mem_active]
  rintro ⟨⟨-, -, hbody⟩, hbit⟩
  rcases h.2 with h | h | h
  · rw [hbit] at h; exact absurd h.2.2.2 Bool.true_eq_false.mp
  · omega
  · omega

/-! ### Lists of cells -/

/-- The cells list no element twice, list only elements of the group, and give `val`. -/
structure CellsGive (n : Nat) (cells : List (Nat × Nat)) (val : Nat → Option Nat) : Prop where
  nodup : (cells.map (fun p => p.1)).Nodup
  lt : ∀ p ∈ cells, p.1 < n
  find : ∀ e, e < n → cells.find? (fun p => p.1 == e) = (val e).map (fun x => (e, x))

/-- The cells give each element of an active unit what `new` says, and list no other element. -/
structure VView.Fills (v : VView) (r : VecRegs) (m : MReg) (from0 : Bool) (cells : List (Nat × Nat)) (new : Nat → Option Nat) : Prop where
  nodup : (cells.map (fun p => p.1)).Nodup
  find : ∀ e, cells.find? (fun p => p.1 == e) = if e / v.per ∈ v.active none r m from0 then (new e).map (fun x => (e, x)) else none

theorem find_isSome_of_mem {cells : List (Nat × Nat)} {p : Nat × Nat} (h : p ∈ cells) : cells.find? (fun q => q.1 == p.1) ≠ none :=
  fun hnone => by simpa using List.find?_eq_none.mp hnone p h

/-- Cells that fill the active elements, with the zeroed elements, give every element what its role says. -/
theorem VView.Fills.give {v : VView} {r : VecRegs} {m : MReg} {from0 : Bool} {cells : List (Nat × Nat)} {new : Nat → Option Nat}
    (h : v.Fills r m from0 cells new) (hvl : v.vl ≤ v.vlmax) :
    CellsGive (v.vlmax * v.per) (cells ++ (v.zeroed none r m from0 true true).map (fun e => (e, 0)))
      (fun e => v.outcome r m from0 e (new e)) := by
  have hactive : ∀ p ∈ cells, p.1 / v.per ∈ v.active none r m from0 := fun p hp => by
    have hne := find_isSome_of_mem hp
    rw [h.find] at hne
    by_contra hout
    exact hne (if_neg hout)
  refine ⟨?_, fun p hp => ?_, fun e he => ?_⟩
  · rw [List.map_append, List.map_map, List.nodup_append']
    refine ⟨h.nodup, ?_, fun e hcell hzero => ?_⟩
    · simpa [Function.comp_def] using v.nodup_zeroed r m from0 (VView.vlb_le hvl) v.vlb_tile
    · obtain ⟨p, hp, rfl⟩ := List.mem_map.mp hcell
      have hz : p.1 ∈ v.zeroed none r m from0 true true := by simpa using hzero
      exact VView.zeroed_inactive hvl hz (hactive p hp)
  · rcases List.mem_append.mp hp with hp | hp
    · exact VView.active_lt hvl (hactive p hp)
    · obtain ⟨e, he, rfl⟩ := List.mem_map.mp hp
      exact VView.zeroed_lt hvl he
  · rw [List.find?_append, h.find, find_map_key (g := fun _ => 0), VView.outcome_eq hvl r m from0 he]
    split
    · have hnot : e ∉ v.zeroed none r m from0 true true := fun hz => VView.zeroed_inactive hvl hz ‹_›
      rw [if_neg hnot, Option.or_none]
    · split <;> rfl

/-- One cell for each active element. -/
theorem VView.fills_map (v : VView) (r : VecRegs) (m : MReg) (from0 : Bool) (g : Nat → Nat) :
    v.Fills r m from0 ((v.elems (v.active none r m from0)).map (fun e => (e, g e))) (fun e => some (g e)) := by
  refine ⟨?_, fun e => ?_⟩
  · rw [List.map_map, show (fun p : Nat × Nat => p.1) ∘ (fun e => (e, g e)) = id from rfl, List.map_id]
    exact v.nodup_elems ((v.nodup_body none from0).filter _)
  · rw [find_map_key]
    simp only [VView.mem_elems, Option.map_some]

/-- In element mode the elements of units are the units. -/
theorem VView.elems_element {v : VView} (h : v.tile = false) (us : List Nat) : v.elems us = us := by
  rw [VView.elems, h]
  rfl

theorem VView.per_element {v : VView} (h : v.tile = false) : v.per = 1 := by
  rw [VView.per, h]
  rfl

/-- A list of cells by index, one for each active element, in element mode. -/
theorem VView.fills_element {v : VView} (ht : v.tile = false) (r : VecRegs) (m : MReg) (from0 : Bool) (g : Nat → Nat) :
    v.Fills r m from0 ((v.active none r m from0).map (fun e => (e, g e))) (fun e => some (g e)) := by
  have h := v.fills_map r m from0 g
  rwa [VView.elems_element ht] at h

/-! ### Writing a group and completing -/

/-- After a write of cells the group holds what they give, and of the rest only what a vector instruction may change has changed. -/
theorem State.write_group {s : State} {v : VView} (hv : s.Vec v) {c0 : Context} (hgroup : c0.group = none) (hregs : c0.vec.v = s.me.vec.v)
    {d : VReg} {cells : List (Nat × Nat)} {val : Nat → Option Nat} (hcells : CellsGive (v.vlmax * v.per) cells val)
    (dsc : Nat → Option (BitVec 32)) (ready st len : Nat) :
    let t : State := { s with me := ((c0.putGroup v d cells dsc ready).setLdv d).vdone v st len }
    State.VecFrame { s with me := c0 } t d v.lmul len ∧ t.me.flags = c0.flags ∧ s.Elements t v d v.sew val := by
  obtain ⟨hframe, hflags, helem⟩ := State.finish_spec hv.2.2.1 hgroup d cells dsc ready st len hcells.nodup hcells.lt
  refine ⟨hframe, hflags, fun e he => ?_⟩
  rw [helem e he, hcells.find e he, VecRegs.elem_congr hregs]
  cases val e <;> rfl

/-- A frame from a state whose flags differ. -/
theorem State.VecFrame.of_flags {s t : State} {d : VReg} {n len : Nat} {f : Flags}
    (h : State.VecFrame { s with me := { s.me with flags := f } } t d n len) : s.VecFrame t d n len := h

/-! ### The statement of an instruction from its effect -/

/-- What an instruction of the shared frame does once its checks have passed. -/
theorem cellSpec_of {s : State} {i : Instr} {ok ok' : VView → Bool} {act act' : VView → VecRegs → Bool} {xs : List XReg}
    {vs : VView → List VSrc} {ms : List MReg} {d : VReg} {len : Nat} {s' : VView → State} {val : VView → VecRegs → Nat → Option Nat}
    {hits : Option (VView → VecRegs → List (Nat × FlagSet))} {inBlock : Bool} {dst : VView → Option (VReg × Nat)}
    {k : VView → VecRegs → State → Out}
    (hi : s.me.kind = .thread ∧ s.me.group = none → exec i s = vector inBlock ok' xs vs ms act' dst s k)
    (hok : ∀ v, ok v = true → aligned d v.lmul = true → ok' v = true)
    (hact : ∀ v, s.Vec v → act' v s.me.vregs = true → act v s.me.vregs = true)
    (hdst : ∀ v p, dst v = some p → p = (d, v.lmul))
    (hk : ∀ v, s.Vec v → ok v = true → ∃ t, k v s.me.vregs s = .next t ∧ (s' v).VecFrame t d v.lmul len ∧
      s.Elements t v d v.sew (val v s.me.vregs) ∧
      match hits with
      | none => t.me.flags = s.me.flags
      | some h => s.FlagsJoin t True (h v s.me.vregs)) : s.CellSpec i ok act xs vs ms d len s' val hits := by
  intro v hv hokv hd hr
  obtain ⟨t, ht, hframe, helem, hflags⟩ := hk v hv hokv
  refine ⟨t, ?_, hframe, helem, ?_⟩
  · rw [hi ⟨hv.1, hv.2.1⟩, vector_ready hv inBlock (hok v hokv hd) xs vs ms act' dst fun ha => ?_, ht]
    obtain ⟨hx, hsrc, hguard⟩ := hr (hact v hv ha)
    exact ⟨hx, hsrc, fun p hp => by rw [hdst v p hp]; exact hguard⟩
  · cases hits <;> exact hflags

end Sys2Proof.Machine
end

section
/-! PROOFS. Block descriptors: where they lie, and what a write of a group leaves in those of its blocks (03 R50; 05 R76; 14 R210). -/

namespace Sys2Proof.Machine

/-! ### Places (05 R76) -/

/-- The entries of a shadow, and the blocks of a tile row, that the widths and block lengths allow. -/
theorem rowBlocks_le {w bl : Nat} (hw : GoodWidth w) (hb : bl = 16 ∨ bl = 32) : 512 / w / bl ≤ 8 := by
  rcases hw with rfl | rfl | rfl | rfl | rfl <;> rcases hb with rfl | rfl <;> decide

/-- Two blocks whose descriptors lie in one place are one. -/
theorem descPlace_inj (tile : Bool) {g w bl : Nat} (hg : 0 < g) (hw : GoodWidth w) (hb : bl = 16 ∨ bl = 32) {b b' : Nat}
    (h : descPlace tile g w bl b = descPlace tile g w bl b') : b = b' := by
  have hb0 : bl ≠ 0 := by omega
  have hdiv : ∀ n, b / n = b' / n → b % n = b' % n → b = b' := fun n hq hr => by
    rw [← Nat.div_add_mod b n, hq, hr, Nat.div_add_mod]
  unfold descPlace at h
  rw [if_neg hb0, if_neg hb0] at h
  cases tile
  · simp only [Bool.false_eq_true, if_false, Prod.mk.injEq] at h
    exact hdiv _ h.1 h.2
  · simp only [if_true, Prod.mk.injEq] at h
    obtain ⟨hreg, hentry⟩ := h
    have hrow := rowBlocks_le hw hb
    generalize 512 / w / bl = n at *
    rcases Nat.eq_zero_or_pos n with rfl | hn
    · simp only [Nat.mul_zero, Nat.div_zero, Nat.mod_zero, Nat.zero_add] at hreg hentry
      exact hdiv _ hreg hentry
    · have hpos : 0 < 8 * g * n := Nat.mul_pos (by omega) hn
      have hhalf : ∀ c : Nat, c % (8 * g * n) / (32 * g) < 2 := fun c => by
        rw [Nat.div_lt_iff_lt_mul (by omega)]
        have hlt := Nat.mod_lt c hpos
        have hle : 8 * g * n ≤ 2 * (32 * g) := by nlinarith
        omega
      have hparts : ∀ x y p q : Nat, p < 2 → q < 2 → 2 * x + p = 2 * y + q → x = y ∧ p = q := by omega
      obtain ⟨hq, hr⟩ := hparts _ _ _ _ (hhalf b) (hhalf b') hreg
      refine hdiv _ hq ?_
      rw [← Nat.div_add_mod (b % (8 * g * n)) (32 * g), hr, hentry, Nat.div_add_mod]

/-- A descriptor lies in one of the 256 entries of a shadow. -/
theorem descPlace_entry (tile : Bool) {g w bl : Nat} (hg : 0 < g) (hg8 : g ≤ 8) (hw : GoodWidth w) (hb : bl = 16 ∨ bl = 32) (b : Nat) :
    (descPlace tile g w bl b).2 < 256 := by
  unfold descPlace
  rw [if_neg (by omega)]
  cases tile
  · have hn : 8 * g * 256 / w / bl ≤ 256 ∧ 0 < 8 * g * 256 / w / bl := by
      rcases hw with rfl | rfl | rfl | rfl | rfl <;> rcases hb with rfl | rfl <;> omega
    exact (Nat.mod_lt b hn.2).trans_le hn.1
  · have hlt := Nat.mod_lt (b % (8 * g * (512 / w / bl))) (show 0 < 32 * g by omega)
    exact hlt.trans_le (by omega)

/-- Of a view outside a block under a nonzero BL. -/
theorem Context.view_blocks {c : Context} {v : VView} (h : c.view = some v) (hb : v.bl ≠ 0) : v.bl = 16 ∨ v.bl = 32 :=
  (Context.view_bl h).resolve_left hb

/-- A group that has an element has a lane group. -/
theorem VView.g_pos {v : VView} {e : Nat} (he : e < v.vlmax * v.per) : 0 < v.g := by
  refine Nat.pos_of_ne_zero fun h => ?_
  have hmax : v.vlmax = 0 := by
    unfold VView.vlmax
    rw [h]
    split <;> simp
  rw [hmax, Nat.zero_mul] at he
  exact absurd he (Nat.not_lt_zero e)

/-! ### One descriptor is written -/

/-- The bits of a descriptor. -/
theorem VecRegs.desc_getLsbD (r : VecRegs) (v : VView) (a : VReg) (b i : Nat) (hi : i < 32) : (r.desc v a b).getLsbD i =
    (r.sh[regAt a (descPlace v.tile v.g v.sew v.bl b).1]).getLsbD (32 * (descPlace v.tile v.g v.sew v.bl b).2 + i) := by
  rw [VecRegs.desc, BitVec.getLsbD_ofNat, bitsAt_testBit]
  simp [hi]

/-- The bits of a word put into one entry of a shadow. -/
theorem entry_getLsbD {x : Nat} (hx : x < 2 ^ 32) {k j i : Nat} (hj : j < 256) (hi : i < 32) :
    (BitVec.ofNat 8192 x <<< (32 * k)).getLsbD (32 * j + i) = (decide (j = k) && x.testBit i) := by
  have hin : 32 * j + i < 8192 := by omega
  rw [BitVec.getLsbD_shiftLeft, BitVec.getLsbD_ofNat, decide_eq_true hin, Bool.true_and]
  rcases Nat.lt_trichotomy j k with h | rfl | h
  · rw [decide_eq_true (show 32 * j + i < 32 * k by omega), decide_eq_false (show j ≠ k by omega)]
    rfl
  · rw [decide_eq_false (show ¬32 * j + i < 32 * j by omega), decide_eq_true rfl, Nat.add_sub_cancel_left,
      decide_eq_true (show i < 8192 by omega)]
    rfl
  · have hhigh : x.testBit (32 * j + i - 32 * k) = false := Nat.testBit_lt_two_pow
      (hx.trans_le (Nat.pow_le_pow_right (by decide) (by omega)))
    rw [hhigh, decide_eq_false (show j ≠ k by omega), Bool.and_false, Bool.and_false, Bool.false_and]

/-- The word that `putDesc` writes: SCALE and X as given, nf recomputed. -/
def Context.descWord (c : Context) (v : VView) (d : VReg) (b : Nat) (w : BitVec 32) : Nat :=
  w.toNat % 2 ^ 16 + (if c.vec.blockNf v d b w then 2 ^ 16 else 0)

theorem Context.descWord_lt (c : Context) (v : VView) (d : VReg) (b : Nat) (w : BitVec 32) : c.descWord v d b w < 2 ^ 32 := by
  unfold Context.descWord
  split <;> omega

theorem Context.descWord_low (c : Context) (v : VView) (d : VReg) (b : Nat) (w : BitVec 32) :
    c.descWord v d b w % 2 ^ 16 = w.toNat % 2 ^ 16 := by
  unfold Context.descWord
  split <;> omega

/-- What `putDesc` leaves in the shadows. -/
theorem Context.putDesc_sh (c : Context) (v : VView) (d : VReg) (b : Nat) (w : BitVec 32) (ready : Nat) (q : VReg) :
    (c.putDesc v d b w ready).vec.sh[q] = if q = regAt d (descPlace v.tile v.g v.sew v.bl b).1 then
        let mask := BitVec.ofNat 8192 (2 ^ 32 - 1) <<< (32 * (descPlace v.tile v.g v.sew v.bl b).2)
        (c.vec.sh[q] &&& ~~~mask) |||
          (BitVec.ofNat 8192 (c.descWord v d b w) <<< (32 * (descPlace v.tile v.g v.sew v.bl b).2) &&& mask)
      else c.vec.sh[q] := by
  split
  · rename_i hq
    subst hq
    exact Vector.getElem_set_self ..
  · rename_i hq
    exact Vector.getElem_set_ne (regAt d _).isLt q.isLt fun h => hq (Fin.ext h.symm)

section PutDesc
variable {v : VView} (hg : 0 < v.g) (hg8 : v.g ≤ 8) (hb : v.bl = 16 ∨ v.bl = 32)
include hg hg8 hb

/-- What `putDesc` leaves in a descriptor of the group. -/
theorem Context.putDesc_desc (c : Context) (d : VReg) {b b' : Nat} (w : BitVec 32) (ready : Nat)
    (hreg : (descPlace v.tile v.g v.sew v.bl b).1 < 32) (hreg' : (descPlace v.tile v.g v.sew v.bl b').1 < 32) :
    (c.putDesc v d b w ready).vec.desc v d b' =
      if b' = b then BitVec.ofNat 32 (c.descWord v d b w) else c.vec.desc v d b' := by
  have hw : GoodWidth v.sew := Fmt.sew_good v.fmt
  have hj := descPlace_entry v.tile hg hg8 hw hb b'
  have hinj := descPlace_inj v.tile hg hw hb (b := b') (b' := b)
  apply BitVec.eq_of_getLsbD_eq
  intro i hi
  rw [VecRegs.desc_getLsbD _ _ _ _ _ hi, Context.putDesc_sh]
  split
  · rename_i hq
    have hsame : ((descPlace v.tile v.g v.sew v.bl b').2 = (descPlace v.tile v.g v.sew v.bl b).2) ↔ b' = b :=
      ⟨fun h => hinj (Prod.ext (regAt_inj hreg' hreg hq) h), fun h => by rw [h]⟩
    have hone : (2 ^ 32 - 1).testBit i = true := by rw [Nat.testBit_two_pow_sub_one]; exact decide_eq_true hi
    simp only [BitVec.getLsbD_or, BitVec.getLsbD_and, BitVec.getLsbD_not, entry_getLsbD (show 2 ^ 32 - 1 < 2 ^ 32 by decide) hj hi,
      entry_getLsbD (c.descWord_lt v d b w) hj hi, hsame, hone, decide_eq_true
          (show 32 * (descPlace v.tile v.g v.sew v.bl b').2 + i < 8192 by omega)]
    by_cases hbb : b' = b
    · rw [if_pos hbb, BitVec.getLsbD_ofNat]
      simp [hbb, hi]
    · simp [hbb, VecRegs.desc_getLsbD _ _ _ _ _ hi]
  · rename_i hq
    rw [if_neg fun h => hq (by rw [h]), VecRegs.desc_getLsbD _ _ _ _ _ hi]

/-- What the descriptors of a list of blocks leave of SCALE and X in a block of the group. -/
theorem Context.putDescs_low (d : VReg) (dsc : Nat → Option (BitVec 32)) (ready : Nat) {l : List Nat}
    (hl : ∀ b ∈ l, (descPlace v.tile v.g v.sew v.bl b).1 < 32) {b' : Nat} (hb' : (descPlace v.tile v.g v.sew v.bl b').1 < 32) :
    ∀ c : Context, ((l.foldl (fun c b => c.putDesc v d b ((dsc b).getD (c.vec.desc v d b)) ready) c).vec.desc v d b').toNat % 2 ^ 16 =
      (if b' ∈ l then (dsc b').getD (c.vec.desc v d b') else c.vec.desc v d b').toNat % 2 ^ 16 := by
  induction l with
  | nil => exact fun c => by simp
  | cons b l ih =>
    intro c
    rw [List.foldl_cons, ih (fun b h => hl b (List.mem_cons_of_mem _ h)),
      Context.putDesc_desc hg hg8 hb c d _ ready (hl b (List.mem_cons_self ..)) hb']
    by_cases hbb : b' = b
    · subst hbb
      have hlow : ∀ w : BitVec 32, (BitVec.ofNat 32 (c.descWord v d b' w)).toNat % 2 ^ 16 = w.toNat % 2 ^ 16 := fun w => by
        rw [BitVec.toNat_ofNat, Nat.mod_eq_of_lt (c.descWord_lt v d b' w), c.descWord_low]
      rw [if_pos rfl, if_pos (List.mem_cons_self ..)]
      cases dsc b' with
      | none => rw [Option.getD_none, Option.getD_none, ite_self, hlow]
      | some w =>
        rw [Option.getD_some]
        split
        · rfl
        · exact hlow w
    · simp [hbb]

end PutDesc

/-! ### The descriptors of a written group -/

/-- A block joins the blocks already met. -/
def joinBlock (bl : Nat) (acc : List Nat) (c : Nat × Nat) : List Nat := if c.1 / bl ∈ acc then acc else c.1 / bl :: acc

theorem blocksOf_eq (bl : Nat) (cells : List (Nat × Nat)) : blocksOf bl cells = (cells.foldl (joinBlock bl) []).reverse := by
  unfold blocksOf
  congr 2
  funext acc c
  unfold joinBlock
  cases acc with
  | nil => rfl
  | cons b acc =>
    by_cases h : b = c.1 / bl
    · simp [h]
    · simp [h, Ne.symm h]

theorem joinBlock_mem (bl : Nat) (acc : List Nat) (c : Nat × Nat) (b : Nat) : b ∈ joinBlock bl acc c ↔ b = c.1 / bl ∨ b ∈ acc := by
  unfold joinBlock
  split
  · exact ⟨.inr, fun h => h.elim (fun e => e ▸ ‹_›) id⟩
  · exact List.mem_cons

/-- The blocks of cells are those of which a cell is an element. -/
theorem mem_blocksOf_iff {bl : Nat} {cells : List (Nat × Nat)} {b : Nat} : b ∈ blocksOf bl cells ↔ ∃ p ∈ cells, p.1 / bl = b := by
  refine ⟨mem_blocksOf bl cells b, fun ⟨p, hp, hb⟩ => ?_⟩
  have hfold : ∀ (l : List (Nat × Nat)) (acc : List Nat), (b ∈ acc ∨ p ∈ l) → b ∈ l.foldl (joinBlock bl) acc := by
    intro l
    induction l with
    | nil => exact fun acc h => h.resolve_right List.not_mem_nil
    | cons c l ih =>
      intro acc h
      refine ih _ ?_
      rw [joinBlock_mem]
      rcases h with h | h
      · exact .inl (.inr h)
      · rcases List.mem_cons.mp h with rfl | h
        · exact .inl (.inl hb.symm)
        · exact .inr h
  rw [blocksOf_eq, List.mem_reverse]
  exact hfold cells [] (.inr hp)

/-- No block is among the blocks of the cells twice. -/
theorem nodup_blocksOf (bl : Nat) (cells : List (Nat × Nat)) : (blocksOf bl cells).Nodup := by
  have hfold : ∀ (l : List (Nat × Nat)) (acc : List Nat), acc.Nodup → (l.foldl (joinBlock bl) acc).Nodup := by
    intro l
    induction l with
    | nil => exact fun acc h => h
    | cons c l ih =>
      refine fun acc h => ih _ ?_
      unfold joinBlock
      split
      · exact h
      · exact List.nodup_cons.mpr ⟨‹_›, h⟩
  rw [blocksOf_eq, List.nodup_reverse]
  exact hfold cells [] List.nodup_nil

theorem VecRegs.desc_congr {r q : VecRegs} (h : r.sh = q.sh) (v : VView) (d : VReg) (b : Nat) : r.desc v d b = q.desc v d b := by
  rw [VecRegs.desc, h]
  rfl

/-- Completing leaves the shadows. -/
theorem Context.complete_sh {c : Context} (h : c.group = none) (v : VView) (d : VReg) (st len : Nat) :
    ((c.setLdv d).vdone v st len).vec.sh = c.vec.sh := by
  have hgroup : (c.setLdv d).group = none := by
    rw [Context.setLdv_none h]
    exact h
  rw [Context.vdone_none hgroup, Context.setLdv_none h]

/-- A written block keeps SCALE and X, or takes those that the write names for it. -/
theorem Context.putGroup_desc {s : State} {v : VView} (hview : s.me.view = some v) (hbl : v.bl ≠ 0) {c : Context}
    (hregs : c.vec.sh = s.me.vec.sh) {d : VReg} {cells : List (Nat × Nat)} (hcells : ∀ p ∈ cells, p.1 < v.vlmax * v.per)
    (dsc : Nat → Option (BitVec 32)) (ready : Nat) {e : Nat} (he : ∃ p ∈ cells, p.1 = e) :
    ((c.putGroup v d cells dsc ready).vec.desc v d (e / v.bl)).toNat % 2 ^ 16 =
      ((dsc (e / v.bl)).getD (s.me.vec.desc v d (e / v.bl))).toNat % 2 ^ 16 := by
  have hb := Context.view_blocks hview hbl
  have hreg : ∀ e, e < v.vlmax * v.per → (descPlace v.tile v.g v.sew v.bl (e / v.bl)).1 < 32 := fun e he =>
    (VView.desc_group (VView.g_pos he) hb (Context.view_lmul hview).2 he).trans_le ((Context.view_lmul hview).1.trans (by decide))
  obtain ⟨p, hp, rfl⟩ := he
  have hsh : (c.putCells v.tile v.g d v.lmul v.sew cells ready).vec.sh = s.me.vec.sh := by
    rw [Context.putCells_frame]
    exact hregs
  rw [Context.putGroup, if_neg hbl, Context.putDescs_low (VView.g_pos (hcells p hp)) (Context.view_g hview) hb d dsc ready
    (fun b hb => ?_) (hreg _ (hcells p hp)), if_pos (mem_blocksOf_iff.mpr ⟨p, hp, rfl⟩), VecRegs.desc_congr hsh]
  obtain ⟨q, hq, rfl⟩ := mem_blocksOf_iff.mp hb
  exact hreg _ (hcells q hq)

theorem State.write_group_desc {s : State} {v : VView} (hv : s.Vec v) (hbl : v.bl ≠ 0) {c0 : Context} (hgroup : c0.group = none)
    (hregs : c0.vec.sh = s.me.vec.sh) {d : VReg} {cells : List (Nat × Nat)} (hcells : ∀ p ∈ cells, p.1 < v.vlmax * v.per)
    (dsc : Nat → Option (BitVec 32)) (ready st len : Nat) {e : Nat} (he : ∃ p ∈ cells, p.1 = e) :
    ((((c0.putGroup v d cells dsc ready).setLdv d).vdone v st len).vec.desc v d (e / v.bl)).toNat % 2 ^ 16 =
      ((dsc (e / v.bl)).getD (s.me.vec.desc v d (e / v.bl))).toNat % 2 ^ 16 := by
  have hwritten : (c0.putGroup v d cells dsc ready).group = none := by
    rw [(Context.putGroup_frame c0 v d cells dsc ready).1]
    exact hgroup
  rw [VecRegs.desc_congr (Context.complete_sh hwritten v d st len)]
  exact Context.putGroup_desc hv.2.2.1 hbl hregs hcells dsc ready he

end Sys2Proof.Machine
end

section
/-! PROOFS. Lists of units in rising order: what is below a member, and folds that answer for each member in turn (14 R223, R227, R229,
R230). -/

namespace Sys2Proof.Machine

theorem VView.active_rising (v : VView) (grp : Option (BitVec 32768)) (r : VecRegs) (m : MReg) (from0 : Bool) :
    (v.active grp r m from0).Pairwise (· < ·) := by
  unfold VView.active VView.body
  split
  · exact List.Pairwise.nil
  · refine (List.Pairwise.filter _ (List.pairwise_map.mpr ?_)).filter _
    exact List.pairwise_lt_range.imp fun h => Nat.add_lt_add_left h _

/-- The members of a list below a number. -/
def below (l : List Nat) (e : Nat) : List Nat := l.filter (fun i => decide (i < e))

section Append
variable {l : List Nat} {j : Nat} (hl : (l ++ [j]).Pairwise (· < ·))
include hl

theorem lt_of_rising_append {i : Nat} (hi : i ∈ l) : i < j := (List.pairwise_append.mp hl).2.2 i hi j (List.mem_singleton_self j)

theorem rising_of_append : l.Pairwise (· < ·) := (List.pairwise_append.mp hl).1

theorem below_append_of_mem {i : Nat} (hi : i ∈ l) : below (l ++ [j]) i = below l i := by
  have hij := lt_of_rising_append hl hi
  simp [below, Nat.le_of_lt hij]

theorem below_append_last : below (l ++ [j]) j = l := by
  have hall : l.filter (fun i => decide (i < j)) = l := List.filter_eq_self.mpr fun i hi => decide_eq_true (lt_of_rising_append hl hi)
  simp [below, hall]

end Append

/-- The members up to a member are those below it, and it. -/
theorem filter_le_eq_below {l : List Nat} (hl : l.Pairwise (· < ·)) {i : Nat} (hi : i ∈ l) :
    l.filter (fun j => decide (j ≤ i)) = below l i ++ [i] := by
  induction l using List.reverseRecOn with
  | nil => cases hi
  | append_singleton l j ih =>
    rcases List.mem_append.mp hi with hmem | hlast
    · have hij := lt_of_rising_append hl hmem
      rw [below_append_of_mem hl hmem, ← ih (rising_of_append hl) hmem]
      simp [hij]
    · obtain rfl := List.mem_singleton.mp hlast
      have hall : l.filter (fun j => decide (j ≤ i)) = l :=
        List.filter_eq_self.mpr fun j hj => decide_eq_true (lt_of_rising_append hl hj).le
      rw [below_append_last hl, List.filter_append, hall]
      simp

/-- A fold that answers for each member from a running value answers from the value of the members below. -/
theorem foldl_running {β γ : Type} (out : β → Nat → γ) (next : β → Nat → β) (x : β) {l : List Nat} (hl : l.Pairwise (· < ·)) :
    l.foldl (fun (p : List γ × β) i => (out p.2 i :: p.1, next p.2 i)) ([], x) =
      ((l.map (fun i => out ((below l i).foldl next x) i)).reverse, l.foldl next x) := by
  induction l using List.reverseRecOn with
  | nil => rfl
  | append_singleton l j ih =>
    have hmap : l.map (fun i => out ((below (l ++ [j]) i).foldl next x) i) = l.map (fun i => out ((below l i).foldl next x) i) :=
      List.map_congr_left fun i hi => by rw [below_append_of_mem hl hi]
    rw [List.foldl_append, ih (rising_of_append hl), List.foldl_append, List.map_append, hmap, List.map_singleton, below_append_last hl,
      List.reverse_append]
    rfl

/-- The place of a member of a rising list is the number of members below it. -/
theorem zipIdx_rising {l : List Nat} (hl : l.Pairwise (· < ·)) : l.zipIdx = l.map (fun i => (i, (below l i).length)) := by
  induction l using List.reverseRecOn with
  | nil => rfl
  | append_singleton l j ih =>
    have hmap : l.map (fun i => (i, (below (l ++ [j]) i).length)) = l.map (fun i => (i, (below l i).length)) :=
      List.map_congr_left fun i hi => by rw [below_append_of_mem hl hi]
    rw [List.zipIdx_append, ih (rising_of_append hl), List.map_append, hmap, List.map_singleton, below_append_last hl]
    simp

end Sys2Proof.Machine
end

section
/-! PROOFS. Moves of units (14 R222, R223): the cells that a list of moves writes, and the moves, slides, merge and permutations. -/

namespace Sys2Proof.Machine

/-! ### The cells of moves -/

/-- The elements of units, one unit after another. -/
theorem VView.elems_eq_flatMap (v : VView) (us : List Nat) :
    v.elems us = us.flatMap (fun u => (List.range v.per).map (fun k => u * v.per + k)) := by
  unfold VView.elems
  split
  · rfl
  · rename_i ht
    rw [VView.per_element (Bool.eq_false_iff.mpr ht)]
    simp

/-- What an element of a moved unit receives: the same element of the source's unit, or zero. -/
def VecRegs.moved (r : VecRegs) (v : VView) (src : Option (VReg × Nat)) (k : Nat) : Nat :=
  match src with
  | some q => r.elem v q.1 v.sew (q.2 * v.per + k)
  | none => 0

theorem moveCells_eq (v : VView) (r : VecRegs) (l : List UnitMove) :
    moveCells v r l = l.flatMap (fun p => (List.range v.per).map (fun k => (p.1 * v.per + k, r.moved v p.2 k))) := rfl

/-- The elements that moves write are those of their units. -/
theorem moveCells_keys (v : VView) (r : VecRegs) (l : List UnitMove) :
    (moveCells v r l).map (fun p => p.1) = v.elems (l.map (fun p => p.1)) := by
  rw [moveCells_eq, VView.elems_eq_flatMap, List.map_flatMap, List.flatMap_map]
  simp only [List.map_map, Function.comp_def]

theorem mul_add_div_of_lt {n u k : Nat} (hk : k < n) : (u * n + k) / n = u := by
  rw [Nat.mul_comm, Nat.mul_add_div (by omega), Nat.div_eq_of_lt hk, Nat.add_zero]

/-- The cell of an element among those of one unit. -/
theorem find_unit {n : Nat} (hn : 0 < n) (u e : Nat) (g : Nat → Nat) :
    ((List.range n).map (fun k => (u * n + k, g k))).find? (fun p => p.1 == e) = if u = e / n then some (e, g (e % n)) else none := by
  have hcells : (List.range n).map (fun k => (u * n + k, g k)) =
      ((List.range n).map (fun k => u * n + k)).map (fun e => (e, g (e % n))) := by
    rw [List.map_map]
    refine List.map_congr_left fun k hk => ?_
    show _ = (u * n + k, g ((u * n + k) % n))
    rw [Nat.mul_comm, Nat.mul_add_mod, Nat.mod_eq_of_lt (List.mem_range.mp hk)]
  have hmem : e ∈ (List.range n).map (fun k => u * n + k) ↔ u = e / n := by
    simp only [List.mem_map, List.mem_range]
    constructor
    · rintro ⟨k, hk, rfl⟩
      exact (mul_add_div_of_lt hk).symm
    · rintro rfl
      exact ⟨e % n, Nat.mod_lt _ hn, by rw [Nat.mul_comm]; exact Nat.div_add_mod e n⟩
  rw [hcells, find_map_key (g := fun e => g (e % n))]
  simp only [hmem]

/-- The cell of an element is that of the first move to its unit. -/
theorem find_moveCells (v : VView) (r : VecRegs) (l : List UnitMove) (e : Nat) :
    (moveCells v r l).find? (fun p => p.1 == e) =
      (l.find? (fun p => p.1 == e / v.per)).map (fun p => (e, r.moved v p.2 (e % v.per))) := by
  rw [moveCells_eq]
  induction l with
  | nil => rfl
  | cons p l ih =>
    rw [List.flatMap_cons, List.find?_append, find_unit v.per_pos, ih, List.find?_cons]
    by_cases h : p.1 = e / v.per
    · simp [h]
    · rw [if_neg h, Option.none_or, beq_eq_false_iff_ne.mpr h]

section Key
variable {α : Type} (l : List Nat) (f : Nat → Option α)

/-- The entry of a key in a list that is made key by key. -/
theorem find_filterMap_key (u : Nat) :
    (l.filterMap (fun k => (f k).map (fun x => (k, x)))).find? (fun p => p.1 == u) = if u ∈ l then (f u).map
    (fun x => (u, x)) else none := by
  induction l with
  | nil => rfl
  | cons k l ih =>
    rw [List.filterMap_cons]
    by_cases hk : k = u
    · subst hk
      cases hf : f k with
      | none => simpa [hf] using ih
      | some x => simp
    · cases hf : f k with
      | none => simpa [Ne.symm hk] using ih
      | some x => simpa [Ne.symm hk, hk] using ih

theorem filterMap_key_map : (l.filterMap (fun k => (f k).map (fun x => (k, x)))).map (fun p => p.1) = l.filter
    (fun k => (f k).isSome) := by
  induction l with
  | nil => rfl
  | cons k l ih =>
    rw [List.filterMap_cons, List.filter_cons]
    cases hf : f k with
    | none => simpa using ih
    | some x => simpa using ih

end Key

/-- The moves to the active units that `src` gives a source. -/
def VView.moves (v : VView) (r : VecRegs) (m : MReg) (from0 : Bool) (src : Nat → Option (Option (VReg × Nat))) : List UnitMove :=
  (v.active none r m from0).filterMap (fun u => (src u).map (fun q => (u, q)))

theorem VView.fills_moves (v : VView) (r : VecRegs) (m : MReg) (from0 : Bool) (src : Nat → Option (Option (VReg × Nat))) :
    v.Fills r m from0 (moveCells v r (v.moves r m from0 src)) (fun e => (src (e / v.per)).map (fun q => r.moved v q (e % v.per))) := by
  refine ⟨?_, fun e => ?_⟩
  · rw [moveCells_keys, VView.moves, filterMap_key_map]
    exact v.nodup_elems (((v.nodup_body none from0).filter _).filter _)
  · rw [find_moveCells, VView.moves, find_filterMap_key]
    split
    · rw [Option.map_map, Option.map_map]
      rfl
    · rfl

/-- An element is the element of its unit at its place. -/
theorem VecRegs.moved_self (r : VecRegs) (v : VView) (q : VReg) (e : Nat) :
    r.moved v (some (q, e / v.per)) (e % v.per) = r.elem v q v.sew e :=
  congrArg (r.elem v q v.sew) (by rw [Nat.mul_comm]; exact Nat.div_add_mod e v.per)

/-! ### Instructions that move units -/

theorem State.CellSpec.congr {s : State} {i : Instr} {ok ok' : VView → Bool} {act : VView → VecRegs → Bool} {xs : List XReg}
    {vs : VView → List VSrc} {ms : List MReg} {d : VReg} {len : Nat} {s' : VView → State} {val val' : VView → VecRegs → Nat → Option Nat}
    {hits : Option (VView → VecRegs → List (Nat × FlagSet))} (h : s.CellSpec i ok act xs vs ms d len s' val hits)
    (hok : ∀ v, ok' v = ok v) (hval : ∀ v e, ok v = true → val' v s.me.vregs e = val v s.me.vregs e) :
    s.CellSpec i ok' act xs vs ms d len s' val' hits := by
  intro v hv hokv hd hr
  rw [hok] at hokv
  obtain ⟨t, ht, hframe, helem, hflags⟩ := h v hv hokv hd hr
  exact ⟨t, ht, hframe, fun e he => by rw [helem e he, hval v e hokv], hflags⟩

section Moving
variable {s : State} {whole : Option VReg} {ok : VView → Bool} {inBlock : Bool} {xs : List XReg} {vs : VView → List VSrc} {ms : List MReg}
  {role : MReg} {from0 : Bool} {lat st len : Nat} {src : VView → VecRegs → State → Nat → Option (Option (VReg × Nat))} {d : VReg}

/-- A move whose checks pass. -/
theorem moving_run {v : VView} (hv : s.Vec v) (hok : ok v = true) (hd : aligned d v.lmul = true)
    (hr : v.active none s.me.vregs role from0 ≠ [] → s.ReadyX xs ∧ s.ReadyV v (vs v) ms ∧ s.guarding d v.lmul = none) :
    moving whole ok inBlock xs vs ms role from0 lat st len src d s = .next (s.modMe (fun c => c.finishMove v s.me.vregs d whole
      (v.moves s.me.vregs role from0 (src v s.me.vregs s)) (v.zeroed none s.me.vregs role from0 true true) lat st len)) := by
  rw [moving, vector_ready hv inBlock (by rw [hok, hd]; rfl) xs vs ms _ _ fun hact => ?_]
  · simp only [State.modMe, hv.2.1]
    rfl
  · rw [hv.2.1] at hact
    obtain ⟨hx, hsrc, hguard⟩ := hr (by simpa using hact)
    exact ⟨hx, hsrc, fun p hp => by rw [← Option.some.inj hp]; exact hguard⟩

/-- What `moving` does. -/
theorem moving_spec {i : Instr}
    (hi : s.me.kind = .thread ∧ s.me.group = none → exec i s = moving whole ok inBlock xs vs ms role from0 lat st len src d s) :
    s.CellSpec i ok (fun v r => !(v.active none r role from0).isEmpty) xs vs ms d len (fun _ => s)
      (fun v r e => v.outcome r role from0 e ((src v r s (e / v.per)).map (fun q => r.moved v q (e % v.per)))) none := by
  intro v hv hok hd hr
  obtain ⟨hframe, hflags, helem⟩ := State.write_group (d := d) hv hv.2.1 rfl
    ((v.fills_moves s.me.vregs role from0 (src v s.me.vregs s)).give hv.2.2.2)
    (moveDesc v s.me.vregs whole (v.moves s.me.vregs role from0 (src v s.me.vregs s))) (s.me.readyAt v lat) st len
  exact ⟨_, (hi ⟨hv.1, hv.2.1⟩).trans (moving_run hv hok hd fun hne => hr (by simpa using hne)), hframe, helem, hflags⟩

end Moving

/-- A move of the active units as they are. -/
theorem moving_same_spec {s : State} {i : Instr} {inBlock : Bool} {q d : VReg} {mk : MReg} {lat st len : Nat}
    (hi : s.me.kind = .thread ∧ s.me.group = none → exec i s = moving (some q) (fun v => aligned q v.lmul) inBlock []
      (fun v => [⟨q, v.lmul, v.sew⟩]) [mk] mk false lat st len (fun _ _ _ u => some (some (q, u))) d s) :
    s.CellSpec i (fun v => aligned q v.lmul) (fun v r => !(v.active none r mk false).isEmpty) [] (fun v => [⟨q, v.lmul, v.sew⟩]) [mk] d
      len (fun _ => s) (fun v r e => v.outcome r mk false e (some (r.elem v q v.sew e))) none :=
  (moving_spec hi).congr (fun _ => rfl) fun v e _ => by rw [Option.map_some, VecRegs.moved_self]

/-- A slide. -/
theorem slide_spec {s : State} {i : Instr} {up : Bool} {xs : List XReg} {off : State → Nat} {d a : VReg} {m : MReg}
    (hi : exec i s = slide up xs off d a m s) {f : VView → VecRegs → Nat → Option Nat}
    (hf : ∀ v r u, f v r u = if up then (if off s ≤ u then some (r.elem v a v.sew (u - off s)) else none)
      else some (if u + off s < v.vl then r.elem v a v.sew (u + off s) else 0)) :
    s.CellSpec i (fun v => !v.tile && v.bl == 0 && aligned a v.lmul && apart d v.lmul a v.lmul)
      (fun v r => !(v.active none r m true).isEmpty) xs (fun v => [⟨a, v.lmul, v.sew⟩]) [m] d 4 (fun _ => s)
      (fun v r e => v.outcome r m true e (f v r e)) none := by
  refine (moving_spec fun _ => hi).congr (fun _ => rfl) fun v e hok => ?_
  have ht : v.tile = false := by
    simp only [Bool.and_eq_true, Bool.not_eq_true'] at hok
    exact hok.1.1.1
  have hmoved : ∀ u, s.me.vregs.moved v (some (a, u)) 0 = s.me.vregs.elem v a v.sew u := fun u => by
    rw [VecRegs.moved, VView.per_element ht, Nat.mul_one, Nat.add_zero]
  rw [hf, VView.per_element ht, Nat.div_one, Nat.mod_one]
  cases up
  · by_cases h : e + off s < v.vl
    · simp [h, hmoved]
    · simp [h, VecRegs.moved]
  · by_cases h : off s ≤ e
    · simp [h, hmoved]
    · simp [h]

/-! ### Fills -/

/-- A broadcast. -/
theorem broadcast_spec {s : State} {i : Instr} {xs : List XReg} {val : State → Word} {w : Word} {d : VReg} {m : MReg} {st : Nat}
    (hi : exec i s = broadcast xs val d m st s) (hw : val s = w) :
    s.CellSpec i (fun _ => true) (fun v r => !(v.active none r m false).isEmpty) xs (fun _ => []) [m] d 4 (fun _ => s)
      (fun v r e => v.outcome r m false e (some (w.toNat % 2 ^ v.sew))) none := by
  subst hw
  refine cellSpec_of (fun _ => hi) (fun v _ hd => hd) (fun v hv ha => by rwa [hv.2.1] at ha)
    (fun v p hp => (Option.some.inj hp).symm) fun v hv _ => ?_
  obtain ⟨hframe, hflags, helem⟩ := State.write_group (d := d) hv hv.2.1 rfl
    ((v.fills_map s.me.vregs m false fun _ => (val s).toNat % 2 ^ v.sew).give hv.2.2.2) (fun _ => none) (s.me.readyAt v 4) st 4
  refine ⟨_, ?_, hframe, helem, hflags⟩
  rw [hv.2.1]
  rfl

/-! ### Merges -/

/-- Cells for the active units that meet a test, beside cells that leave those units out. -/
theorem VView.Fills.append_map {v : VView} {r : VecRegs} {m : MReg} {from0 : Bool} {cells : List (Nat × Nat)} {f : Nat → Option Nat}
    (h : v.Fills r m from0 cells f) (p : Nat → Bool) (g : Nat → Nat) (hf : ∀ e, p (e / v.per) = true → f e = none) :
    v.Fills r m from0 (cells ++ (v.elems ((v.active none r m from0).filter p)).map (fun e => (e, g e)))
      (fun e => if p (e / v.per) then some (g e) else f e) := by
  have hmem : ∀ e, e ∈ v.elems ((v.active none r m from0).filter p) ↔ e / v.per ∈ v.active none r m from0 ∧ p (e / v.per) = true :=
    fun e => by rw [VView.mem_elems, List.mem_filter]
  refine ⟨?_, fun e => ?_⟩
  · rw [List.map_append, List.map_map, show (fun p : Nat × Nat => p.1) ∘ (fun e => (e, g e)) = id from rfl, List.map_id,
      List.nodup_append']
    refine ⟨h.nodup, v.nodup_elems (((v.nodup_body none from0).filter _).filter _), fun e hcell he => ?_⟩
    obtain ⟨q, hq, rfl⟩ := List.mem_map.mp hcell
    obtain ⟨hact, hp⟩ := (hmem _).mp he
    refine find_isSome_of_mem hq ?_
    rw [h.find, if_pos hact, hf _ hp]
    rfl
  · rw [List.find?_append, h.find, find_map_key]
    simp only [hmem]
    by_cases hact : e / v.per ∈ v.active none r m from0
    · cases hp : p (e / v.per)
      · simp [hact]
      · simp [hact, hf e hp]
    · simp [hact]

theorem VView.Fills.congr {v : VView} {r : VecRegs} {m : MReg} {from0 : Bool} {cells : List (Nat × Nat)} {f g : Nat → Option Nat}
    (h : v.Fills r m from0 cells f) (hg : ∀ e, g e = f e) : v.Fills r m from0 cells g := by
  rw [show g = f from funext hg]
  exact h

theorem VView.Fills.congr_cells {v : VView} {r : VecRegs} {m : MReg} {from0 : Bool} {cells cells' : List (Nat × Nat)}
    {f : Nat → Option Nat} (h : v.Fills r m from0 cells f) (hc : cells' = cells) : v.Fills r m from0 cells' f := hc ▸ h

/-- The moves of a merge: body units that the mask leaves to the first source or gives to a vector operand. -/
def VOpnd.mergeMoves (o : VOpnd) (r : VecRegs) (a : VReg) (m : MReg) (us : List Nat) : List UnitMove :=
  us.filterMap (fun u => if r.mbit m u then (match o with
      | .vv b => some (u, some (b, u))
      | _ => none)
    else some (u, some (a, u)))

/-- The cells of a merge: its moves, and the scalar operand in the other body units. -/
def VOpnd.mergeCells (o : VOpnd) (s : State) (v : VView) (r : VecRegs) (a : VReg) (m : MReg) (us : List Nat) : List (Nat × Nat) :=
  moveCells v r (o.mergeMoves r a m us) ++ (match o with
    | .vv _ => []
    | _ => (v.elems (us.filter (fun u => r.mbit m u))).map (fun e => (e, o.at s v r e)))

/-- A merge gives each body element the operand that the mask selects. -/
theorem fills_merge (o : VOpnd) (s : State) (v : VView) (r : VecRegs) (a : VReg) (m : MReg) :
    v.Fills r 0 false (o.mergeCells s v r a m (v.body none false))
      (fun e => some (if r.mbit m (e / v.per) then o.at s v r e else r.elem v a v.sew e)) := by
  have hscalar : ∀ y : Nat → Nat, v.Fills r 0 false
      (moveCells v r ((v.body none false).filterMap (fun u => if r.mbit m u then none else some (u, some (a, u)))) ++
        (v.elems ((v.body none false).filter (fun u => r.mbit m u))).map (fun e => (e, y e)))
      (fun e => some (if r.mbit m (e / v.per) then y e else r.elem v a v.sew e)) := fun y => by
    have hmoves := v.fills_moves r 0 false (fun u => if r.mbit m u then none else some (some (a, u)))
    have h := hmoves.append_map (fun u => r.mbit m u) y fun e he => by rw [if_pos he]; rfl
    rw [VView.moves, VView.active_zero] at h
    refine (h.congr_cells ?_).congr fun e => ?_
    · congr 3
      funext u
      cases r.mbit m u <;> rfl
    · cases r.mbit m (e / v.per) <;> simp [VecRegs.moved_self]
  cases o with
  | vv b =>
    have h := v.fills_moves r 0 false (fun u => some (some (if r.mbit m u then b else a, u)))
    rw [VView.moves, VView.active_zero] at h
    refine (h.congr_cells ?_).congr fun e => ?_
    · rw [VOpnd.mergeCells, VOpnd.mergeMoves, List.append_nil]
      congr 2
      funext u
      cases r.mbit m u <;> rfl
    · cases r.mbit m (e / v.per) <;> simp [VecRegs.moved_self, VOpnd.at]
  | vx b => exact hscalar _
  | vi w => exact hscalar _

/-- A merge. -/
theorem vmerge_spec {s : State} {i : Instr} {o : VOpnd} {d a : VReg} {m : MReg} {st : Nat} (hi : exec i s = vmerge o d a m st s) :
    s.CellSpec i (fun v => (v.bl == 0 || v.tile) && aligned a v.lmul && o.ok v) (fun v _ => v.live) o.xs
      (fun v => ⟨a, v.lmul, v.sew⟩ :: o.vs v) [m] d 4 (fun _ => s)
      (fun v r e => v.outcome r 0 false e (some (if r.mbit m (e / v.per) then o.at s v r e else r.elem v a v.sew e))) none := by
  refine cellSpec_of (fun _ => hi) (fun v hok hd => ?_) (fun v hv ha => ?_) (fun v p hp => (Option.some.inj hp).symm) fun v hv _ => ?_
  · simp only [Bool.and_eq_true] at hok ⊢
    exact ⟨⟨⟨hok.1.1, hd⟩, hok.1.2⟩, hok.2⟩
  · by_contra hlive
    rw [VView.body, Bool.eq_false_iff.mpr hlive] at ha
    exact absurd ha Bool.false_ne_true
  · obtain ⟨hframe, hflags, helem⟩ := State.write_group (d := d) hv hv.2.1 rfl ((fills_merge o s v s.me.vregs a m).give hv.2.2.2)
      (moveDesc v s.me.vregs none (o.mergeMoves s.me.vregs a m (v.body none false))) (s.me.readyAt v 4) st 4
    refine ⟨_, ?_, hframe, helem, hflags⟩
    rw [hv.2.1]
    rfl

/-! ### Descriptors of moved blocks (14 R222) -/

/-- An element to which the cells give a value is listed. -/
theorem CellsGive.mem {n : Nat} {cells : List (Nat × Nat)} {val : Nat → Option Nat} (h : CellsGive n cells val) {e : Nat} (he : e < n)
    (hval : val e ≠ none) : ∃ p ∈ cells, p.1 = e := by
  have hfind := h.find e he
  cases hx : val e with
  | none => exact absurd hx hval
  | some x =>
    rw [hx] at hfind
    exact ⟨(e, x), List.mem_of_find?_eq_some hfind, rfl⟩

/-- Each block that moves in place write takes the descriptor of the source's block of its number. -/
theorem moveDesc_same (v : VView) (r : VecRegs) (m : MReg) (from0 : Bool) (a : VReg) (b : Nat) :
    moveDesc v r (some a) (v.moves r m from0 (fun u => some (some (a, u)))) b = some (r.desc v a b) := by
  have hmem : ∀ p ∈ v.moves r m from0 (fun u => some (some (a, u))), p.2 = some (a, p.1) := fun p hp => by
    simp only [VView.moves, Option.map_some, List.mem_filterMap, Option.some.injEq] at hp
    obtain ⟨u, -, rfl⟩ := hp
    rfl
  unfold moveDesc
  dsimp only
  generalize v.moves r m from0 (fun u => some (some (a, u))) = l at hmem
  cases hfind : l.find? (fun p => if v.tile = true then p.1 == b / (v.per / v.bl) else p.1 / v.bl == b) with
  | none => rfl
  | some p =>
    obtain ⟨u, src⟩ := p
    obtain rfl : src = some (a, u) := hmem _ (List.mem_of_find?_eq_some hfind)
    have hu := List.find?_some hfind
    cases ht : v.tile
    · rw [ht] at hu
      show some (r.desc v a (u / v.bl)) = _
      rw [show u / v.bl = b by simpa using hu]
    · rw [ht] at hu
      obtain rfl : u = b / (v.per / v.bl) := by simpa using hu
      show some (r.desc v a (b / (v.per / v.bl) * (v.per / v.bl) + b % (v.per / v.bl))) = _
      rw [Nat.mul_comm, Nat.div_add_mod]

/-- VMV.VV gives each written block SCALE and X of the source's block. -/
theorem vmv_desc {s : State} {v : VView} {d a : VReg} {m : MReg} {st : Stall} (hv : s.Vec v) (hbl : v.bl ≠ 0)
    (hd : aligned d v.lmul = true) (ha : aligned a v.lmul = true)
    (hr : s.VecReady v [] [⟨a, v.lmul, v.sew⟩] [m] d v.lmul m false) : ∃ t, exec (.vmvVv d a m st) s = .next t ∧
      ∀ e, e < v.vlmax * v.per → v.outcome s.me.vregs m false e (some 0) ≠ none →
        (t.me.vec.desc v d (e / v.bl)).toNat % 2 ^ 16 = (s.me.vregs.desc v a (e / v.bl)).toNat % 2 ^ 16 := by
  have hcells := (v.fills_moves s.me.vregs m false fun u => some (some (a, u))).give hv.2.2.2
  have hrun : exec (.vmvVv d a m st) s = moving (some a) (fun v => aligned a v.lmul) true [] (fun v => [⟨a, v.lmul, v.sew⟩]) [m] m
      false 4 st.val 4 (fun _ _ _ u => some (some (a, u))) d s := rfl
  refine ⟨_, hrun.trans (moving_run hv ha hd hr), fun e he hout => ?_⟩
  have hwritten := VView.outcome_ne_none hv.2.2.2 s.me.vregs m false he hout (s.me.vregs.moved v (some (a, e / v.per)) (e % v.per))
  have hdesc := State.write_group_desc (d := d) (c0 := s.me) hv hbl hv.2.1 rfl hcells.lt
    (moveDesc v s.me.vregs (some a) (v.moves s.me.vregs m false (fun u => some (some (a, u))))) (s.me.readyAt v 4) st.val 4
    (hcells.mem he hwritten)
  rw [moveDesc_same] at hdesc
  exact hdesc

/-! ### Permutations and counts by index (14 R223) -/

/-- VPERM.VV. -/
theorem vperm_spec (s : State) (d a b : VReg) (m : MReg) : s.CellSpec (.vpermVv d a b m)
    (fun v => (v.bl == 0 || v.tile) && aligned a v.lmul && aligned b v.indexRegs && apart d v.lmul a v.lmul &&
      apart d v.lmul b v.indexRegs) (fun v r => !(v.active none r m true).isEmpty) []
    (fun v => [⟨a, v.lmul, v.sew⟩, ⟨b, v.indexRegs, 32⟩]) [m] d 4 (fun _ => s)
    (fun v r e => v.outcome r m true e (some (if permIndex v r b (e / v.per) < v.vl then
      r.elem v a v.sew (permIndex v r b (e / v.per) * v.per + e % v.per) else 0))) none := by
  have hrun : exec (.vpermVv d a b m) s = moving none (fun v => (v.bl == 0 || v.tile) && aligned a v.lmul && aligned b v.indexRegs &&
      apart d v.lmul a v.lmul && apart d v.lmul b v.indexRegs) false [] (fun v => [⟨a, v.lmul, v.sew⟩, ⟨b, v.indexRegs, 32⟩])
          [m] m true 0 0
      4 (fun v r _ u => if permIndex v r b u < v.vl then some (some (a, permIndex v r b u)) else some none) d s := rfl
  refine (moving_spec fun _ => hrun).congr (fun _ => rfl) fun v e _ => ?_
  by_cases h : permIndex v s.me.vregs b (e / v.per) < v.vl
  · rw [if_pos h, if_pos h]
    rfl
  · rw [if_neg h, if_neg h]
    rfl

theorem foldl_count_if (p : Nat → Bool) (l : List Nat) :
    l.foldl (fun n i => if p i then n + 1 else n) 0 = (l.filter p).length := by
  induction l using List.reverseRecOn with
  | nil => rfl
  | append_singleton l j ih =>
    rw [List.foldl_append, ih, List.filter_append, List.length_append]
    cases hp : p j <;> simp [hp]

/-- VIOTA counts, for each active unit, the active ones below it whose bit is set. -/
theorem viota_cells {us : List Nat} (hus : us.Pairwise (· < ·)) (p : Nat → Bool) (w : Nat) :
    (us.foldl (fun (acc : List (Nat × Nat) × Nat) i => ((i, acc.2 % w) :: acc.1, if p i then acc.2 + 1 else acc.2)) ([], 0)).1.reverse =
      us.map (fun i => (i, (us.filter (fun j => decide (j < i) && p j)).length % w)) := by
  rw [foldl_running (fun n i => (i, n % w)) (fun n i => if p i then n + 1 else n) 0 hus, List.reverse_reverse]
  refine List.map_congr_left fun i _ => ?_
  rw [foldl_count_if, below, List.filter_filter]
  simp only [Bool.and_comm]

theorem viota_spec (s : State) (d : VReg) (ms m : MReg) : s.CellSpec (.viota d ms m) (fun v => v.isInt && !v.tile)
    (fun v r => !(v.active none r m true).isEmpty) [] (fun _ => []) [ms, m] d 4 (fun _ => s)
    (fun v r e => v.outcome r m true e
      (some (((v.active none r m true).filter (fun i => decide (i < e) && r.mbit ms i)).length % 2 ^ v.sew))) none := by
  have hrun : exec (.viota d ms m) s = execViota d ms m s := rfl
  refine cellSpec_of (fun _ => hrun) (fun v hok hd => by rw [hok, hd]; rfl) (fun _ _ h => h) (fun v p hp => (Option.some.inj hp).symm)
    fun v hv hok => ?_
  have ht : v.tile = false := by
    simp only [Bool.and_eq_true, Bool.not_eq_true'] at hok
    exact hok.2
  have hcells := (v.fills_element ht s.me.vregs m true _).congr_cells
    (viota_cells (v.active_rising none s.me.vregs m true) (fun i => s.me.vregs.mbit ms i) (2 ^ v.sew))
  obtain ⟨hframe, hflags, helem⟩ := State.write_group (d := d) hv hv.2.1 rfl (hcells.give hv.2.2.2) (fun _ => none) (s.me.readyAt v 0) 0 4
  exact ⟨_, rfl, hframe, helem, hflags⟩

/-! ### The obligation -/

/-- Settles O29: the moves, slides and permutations are `moving`, and the cells of their moves are found unit by unit. -/
theorem moveInstructions : Obligations.MoveInstructions := by
  unfold Obligations.MoveInstructions
  intro s d a b x imm ms m st act one same unit moves fills slides up down
  refine ⟨?mv, ?cvMv, ?desc, ?bcx, ?bci, ?merge, ?upx, ?upi, ?dnx, ?dni, ?perm, ?iota⟩
  case mv => exact moving_same_spec fun _ => rfl
  case cvMv =>
    have hrun : exec (.cvMv b) s = notInBlock s (moving (some b) (fun v => aligned b v.lmul) true [] (fun v => [⟨b, v.lmul, v.sew⟩]) [0] 0
        false 0 3 2 (fun _ _ _ u => some (some (b, u))) s.me.vec.ldv s) := rfl
    exact moving_same_spec fun h => hrun.trans (notInBlock_none h _)
  case desc => exact fun v hv hbl hd ha hr => vmv_desc hv hbl hd ha hr
  case bcx => exact broadcast_spec (val := fun s => s.rx x) rfl rfl
  case bci => exact broadcast_spec (val := fun _ => imm.signExtend 64) rfl rfl
  case merge =>
    intro p hp
    simp only [List.mem_cons, List.not_mem_nil, or_false] at hp
    rcases hp with rfl | rfl | rfl
    all_goals exact vmerge_spec rfl
  case upx => exact slide_spec (up := true) (off := fun s => (s.rx x).toNat) rfl fun _ _ _ => rfl
  case upi => exact slide_spec (up := true) (off := fun _ => imm.toNat) rfl fun _ _ _ => rfl
  case dnx => exact slide_spec (up := false) (off := fun s => (s.rx x).toNat) rfl fun _ _ _ => rfl
  case dni => exact slide_spec (up := false) (off := fun _ => imm.toNat) rfl fun _ _ _ => rfl
  case perm => exact vperm_spec s d a b m
  case iota => exact viota_spec s d ms m

end Sys2Proof.Machine
end

section
/-! PROOFS. Single elements, indices and random numbers, compression and expansion (14 R224, R227, R231, R234). -/

namespace Sys2Proof.Machine

/-! ### Single elements (14 R224) -/

/-- The signed integer of a code is that of the bits it has. -/
theorem signedOf_eq_toInt {w : Nat} (hw : 0 < w) (n : Nat) : signedOf w n = (BitVec.ofNat w n).toInt := by
  have hpow : 2 ^ w = 2 * 2 ^ (w - 1) := by rw [← Nat.pow_succ']; congr 1; omega
  rw [BitVec.toInt_eq_toNat_cond, BitVec.toNat_ofNat, signedOf]
  by_cases h : n % 2 ^ w < 2 ^ (w - 1)
  · rw [if_pos h, if_pos (by omega)]
  · rw [if_neg h, if_neg (by omega)]

theorem VView.extend_eq (v : VView) (n : Nat) :
    v.extend n = if v.signed then (BitVec.ofNat v.sew n).signExtend 64 else BitVec.ofNat 64 n := by
  have hw : 0 < v.sew := by
    unfold VView.sew
    rcases Fmt.sew_good v.fmt with h | h | h | h | h <;> omega
  rw [VView.extend, wordOfInt, signedOf_eq_toInt hw]
  rfl

/-- No source stops an instruction that reads no vector and no mask. -/
theorem readyV_nil (s : State) (v : VView) : s.ReadyV v [] [] := by
  refine ⟨fun _ => ⟨?_, rfl⟩, fun _ _ _ h => absurd h List.not_mem_nil, fun _ _ _ _ h => absurd h List.not_mem_nil,
    fun _ _ => List.not_mem_nil⟩
  unfold Context.earlyV
  split <;> rfl

/-- VEXTX. -/
theorem vextx_spec {s : State} {v : VView} {a : VReg} {x xb : XReg} {i : Nat} (hb : (s.rx xb).toNat = i) (hv : s.Vec v)
    (ht : v.tile = false) (ha : aligned a v.lmul = true) (hx : s.ReadyX [xb]) (hr : i < v.vl → s.ReadyV v [v.oneSrc a i] []) :
    ∃ t, exec (.vextx x a xb) s = .next t ∧ t = { s with me := t.me } ∧
      t.me.x = (s.me.wx x (if i < v.vl then (if v.signed then (BitVec.ofNat v.sew (s.me.vregs.elem v a v.sew i)).signExtend 64
        else BitVec.ofNat 64 (s.me.vregs.elem v a v.sew i)) else 0) 0).x ∧
      t.me.ldx = x ∧ t.me.pc = s.me.pc + 4 ∧ t.me.vec = { s.me.vec with vbeg := 0 } ∧ t.me.flags = s.me.flags := by
  subst hb
  have hrun : exec (.vextx x a xb) s = vector false (fun v => !v.tile && aligned a v.lmul) [xb]
      (fun v => if (s.rx xb).toNat < v.vl then [v.oneSrc a (s.rx xb).toNat] else []) [] (fun _ _ => true) (fun _ => none) s
      (fun v r u => .next (u.modMe (fun c =>
        (c.wx x (if (s.rx xb).toNat < v.vl then v.extend (r.elem v a v.sew (s.rx xb).toNat) else 0) 0).vdone v 0 4))) := rfl
  refine ⟨_, hrun.trans (vector_ready hv false (by rw [ht, ha]; rfl) _ _ _ _ _ (fun _ => ⟨hx, ?_, fun _ h => by cases h⟩) _), rfl, ?_⟩
  · split
    · exact hr ‹_›
    · exact readyV_nil s v
  · simp only [← VView.extend_eq]
    exact Context.wx_vdone hv.2.1 ..

/-- VINSX. -/
theorem vinsx_spec (s : State) (d : VReg) (xa xb : XReg) : s.CellSpec (.vinsx d xa xb) (fun v => !v.tile) (fun v _ => v.live) [xa, xb]
    (fun _ => []) [] d 4 (fun _ => s)
    (fun v _ e => if v.live ∧ e = (s.rx xa).toNat ∧ (s.rx xa).toNat < v.vl then some ((s.rx xb).toNat % 2 ^ v.sew) else none) none := by
  have hrun : exec (.vinsx d xa xb) s = vector false (fun v => !v.tile && aligned d v.lmul) [xa, xb] (fun _ => []) [] (fun v _ => v.live)
      (fun v => if (s.rx xa).toNat < v.vl then some (d, v.lmul) else none) s (fun v _ u => .next (u.modMe (fun c => c.finishCells v d
        (if v.live && decide ((s.rx xa).toNat < v.vl) then [((s.rx xa).toNat, (u.rx xb).toNat % 2 ^ v.sew)] else []) [] 0 0))) := rfl
  refine cellSpec_of (fun _ => hrun) (fun v hok hd => by rw [hok, hd]; rfl) (fun _ _ h => h) (fun v p hp => ?_) fun v hv hok => ?_
  · split at hp
    · exact (Option.some.inj hp).symm
    · cases hp
  · have ht : v.tile = false := by simpa using hok
    have hcells : CellsGive (v.vlmax * v.per)
        ((if v.live && decide ((s.rx xa).toNat < v.vl) then [((s.rx xa).toNat, (s.rx xb).toNat % 2 ^ v.sew)] else []) ++
          ([] : List Nat).map (fun e => (e, 0)))
        (fun e => if v.live ∧ e = (s.rx xa).toNat ∧ (s.rx xa).toNat < v.vl then some ((s.rx xb).toNat % 2 ^ v.sew) else none) := by
      rw [VView.per_element ht, Nat.mul_one]
      by_cases h : v.live = true ∧ (s.rx xa).toNat < v.vl
      · have hlt := h.2.trans_le hv.2.2.2
        refine ⟨by simp [h], by simp [h, hlt], fun e _ => ?_⟩
        by_cases he : e = (s.rx xa).toNat
        · simp [h, he]
        · simp [h, he, Ne.symm he]
      · have hcond : (v.live && decide ((s.rx xa).toNat < v.vl)) = false := by simpa using h
        refine ⟨by simp [hcond], by simp [hcond], fun e _ => ?_⟩
        have hnone : ¬(v.live = true ∧ e = (s.rx xa).toNat ∧ (s.rx xa).toNat < v.vl) := fun h' => h ⟨h'.1, h'.2.2⟩
        rw [if_neg hnone, hcond]
        rfl
    obtain ⟨hframe, hflags, helem⟩ := State.write_group (d := d) hv hv.2.1 rfl hcells (fun _ => none) (s.me.readyAt v 0) 0 4
    exact ⟨_, rfl, hframe, helem, hflags⟩

/-! ### Indices and random numbers (14 R231, R234) -/

/-- An instruction that fills the active elements by index and rank; `after` changes the context with their number. -/
theorem byIndex_spec {s : State} {i : Instr} {f : VView → State → Nat → Nat → Nat} {after : Nat → Context → Context} {lat st : Nat}
    {d : VReg} {m : MReg} (hi : exec i s = byIndex f after lat st d m s) (hblk : ∀ n c, (after n c).vec.blk = c.vec.blk)
    (hregs : ∀ n c, (after n c).vec.v = c.vec.v) (hflags : ∀ n c, (after n c).flags = c.flags) :
    s.CellSpec i (fun v => v.isInt && v.bl == 0 && !v.tile) (fun v r => !(v.active none r m false).isEmpty) [] (fun _ => []) [m] d 4
      (fun v => s.modMe (after (v.active none s.me.vregs m false).length))
      (fun v r e => v.outcome r m false e (some (f v s e (below (v.active none r m false) e).length % 2 ^ v.sew))) none := by
  refine cellSpec_of (fun _ => hi) (fun v hok hd => by rw [hok, hd]; rfl) (fun v hv ha => by rwa [hv.2.1] at ha)
    (fun v p hp => (Option.some.inj hp).symm) fun v hv hok => ?_
  have ht : v.tile = false := by
    simp only [Bool.and_eq_true, Bool.not_eq_true'] at hok
    exact hok.2
  have hgroup : ∀ n, (after n s.me).group = none := fun n => by
    rw [Context.group, hblk]
    exact hv.2.1
  have hcells : v.Fills s.me.vregs m false ((v.active none s.me.vregs m false).zipIdx.map (fun p => (p.1, f v s p.1 p.2 % 2 ^ v.sew)))
      (fun e => some (f v s e (below (v.active none s.me.vregs m false) e).length % 2 ^ v.sew)) := by
    rw [zipIdx_rising (v.active_rising none s.me.vregs m false), List.map_map]
    exact v.fills_element ht s.me.vregs m false _
  obtain ⟨hframe, hfl, helem⟩ := State.write_group (d := d) (c0 := after (v.active none s.me.vregs m false).length s.me) hv (hgroup _)
    (hregs _ _) (hcells.give hv.2.2.2) (fun _ => none) ((after (v.active none s.me.vregs m false).length s.me).readyAt v lat) st 4
  refine ⟨_, ?_, hframe, helem, hfl.trans (hflags _ _)⟩
  simp only [State.modMe, hv.2.1]
  rfl

/-- The element of VRAND at a rank. -/
def randomElement (_ : VView) (s : State) (_ rank : Nat) : Nat := (rngOut s.me.vec.rng (rank + 1)).toNat

theorem randomElement_eq (v : VView) (s : State) (e rank : Nat) :
    randomElement v s e rank = (rngOut s.me.vec.rng (rank + 1)).toNat := rfl

/-- What a change of RNG leaves as it was. -/
theorem Context.rng_only (c : Context) (x : Word) :
    ({ c with vec := { c.vec with rng := x } }).vec.blk = c.vec.blk ∧ ({ c with vec := { c.vec with rng := x } }).vec.v = c.vec.v ∧
      ({ c with vec := { c.vec with rng := x } }).flags = c.flags := ⟨rfl, rfl, rfl⟩

/-- VRAND, in terms of R231's output. -/
theorem vrand_spec (s : State) (d : VReg) (m : MReg) (st : Stall) : s.CellSpec (.vrand d m st) (fun v => v.isInt && v.bl == 0 && !v.tile)
    (fun v r => !(v.active none r m false).isEmpty) [] (fun _ => []) [m] d 4
    (fun v => s.modMe (fun c => { c with vec := { c.vec with
      rng := c.vec.rng + BitVec.ofNat 64 (v.active none s.me.vregs m false).length * rngStep } }))
    (fun v r e => v.outcome r m false e (some (randomElement v s e (below (v.active none r m false) e).length % 2 ^ v.sew))) none := by
  have hrun : exec (.vrand d m st) s = byIndex randomElement
    (fun n c => { c with vec := { c.vec with rng := c.vec.rng + BitVec.ofNat 64 n * rngStep } }) 6 st.val d m s := rfl
  exact byIndex_spec hrun (fun _ c => (c.rng_only _).1) (fun _ c => (c.rng_only _).2.1) fun _ c => (c.rng_only _).2.2

/-! ### Compression and expansion (14 R227) -/

/-- The units that the masks keep, in terms of VL. -/
theorem keptUnits_eq (v : VView) (r : VecRegs) (m : MReg) (mk : Option MReg) :
    keptUnits v r m mk = (List.range v.vl).filter (fun u => v.live && (m :: mk.toList).any (fun q => r.mbit q u)) := by
  have hbody : v.body none true = (List.range v.vl).filter (fun _ => v.live) := by
    unfold VView.body
    cases v.live <;> simp
  rw [keptUnits, hbody, List.filter_filter]
  refine List.filter_congr fun u _ => ?_
  cases mk with
  | none => simp [Bool.and_comm]
  | some k => simp [Bool.and_comm]

/-- An entry that lists the members of a list by their place. -/
theorem find_zipIdx {α : Type} (l : List Nat) (g : Nat → α) (u : Nat) :
    (l.zipIdx.map (fun p => (p.2, g p.1))).find? (fun p => p.1 == u) = l[u]?.map (fun x => (u, g x)) := by
  induction l using List.reverseRecOn with
  | nil => rfl
  | append_singleton l j ih =>
    rw [List.zipIdx_append, List.map_append, List.find?_append, ih, List.getElem?_append]
    by_cases hu : u < l.length
    · simp [hu]
    · by_cases hl : u = l.length
      · simp [hl]
      · have : u - l.length ≠ 0 := by omega
        simp [hu, Ne.symm hl, this]

/-- The cells of a compression. -/
theorem compress_cells {v : VView} (hvl : v.vl ≤ v.vlmax) (r : VecRegs) (a : VReg) {us : List Nat} (hus : us.length ≤ v.vl)
    (tail : Bool) :
    CellsGive (v.vlmax * v.per) (moveCells v r (us.zipIdx.map (fun p => (p.2, some (a, p.1)))) ++
        (if tail then v.elems ((List.range (v.vlmax - us.length)).map (fun i => us.length + i)) else []).map (fun e => (e, 0)))
      (fun e => match us[e / v.per]? with
        | some u => some (r.elem v a v.sew (u * v.per + e % v.per))
        | none => if tail then some 0 else none) := by
  have hp := v.per_pos
  have hkeys : (us.zipIdx.map (fun p => (p.2, some (a, p.1)))).map (fun p => p.1) = List.range us.length := by
    rw [List.map_map, show (fun p : UnitMove => p.1) ∘ (fun p : Nat × Nat => (p.2, some (a, p.1))) = Prod.snd from rfl,
      List.zipIdx_map_snd, List.range_eq_range']
  have hmoved : ∀ p ∈ moveCells v r (us.zipIdx.map (fun p => (p.2, some (a, p.1)))), p.1 / v.per < us.length := fun p hmem => by
    have h := List.mem_map_of_mem (f := fun p => p.1) hmem
    rwa [moveCells_keys, hkeys, VView.mem_elems, List.mem_range] at h
  have hzeros : ∀ e, e ∈ (if tail then v.elems ((List.range (v.vlmax - us.length)).map (fun i => us.length + i)) else []) ↔
      tail = true ∧ us.length ≤ e / v.per ∧ e / v.per < v.vlmax := fun e => by
    cases tail
    · simp
    · simp only [if_true, VView.mem_elems, List.mem_map, List.mem_range, true_and]
      exact ⟨fun ⟨k, hk, h⟩ => by omega, fun ⟨h, h'⟩ => ⟨e / v.per - us.length, by omega, by omega⟩⟩
  refine ⟨?_, fun p hmem => ?_, fun e he => ?_⟩
  · rw [List.map_append, List.map_map, show (fun p : Nat × Nat => p.1) ∘ (fun e => (e, 0)) = id from rfl, List.map_id,
      List.nodup_append', moveCells_keys, hkeys]
    refine ⟨v.nodup_elems List.nodup_range, ?_, fun e hm hz => ?_⟩
    · split
      · exact v.nodup_elems (List.nodup_range.map fun x y h => Nat.add_left_cancel h)
      · exact List.nodup_nil
    · rw [VView.mem_elems, List.mem_range] at hm
      have := ((hzeros e).mp hz).2.1
      omega
  · refine (Nat.div_lt_iff_lt_mul hp).mp ?_
    rcases List.mem_append.mp hmem with hm | hz
    · have := hmoved p hm
      omega
    · obtain ⟨e, he, rfl⟩ := List.mem_map.mp hz
      exact ((hzeros e).mp he).2.2
  · have hlt : e / v.per < v.vlmax := (Nat.div_lt_iff_lt_mul hp).mpr he
    have hfind : (us.zipIdx.map (fun p => (p.2, some (a, p.1)))).find? (fun p => p.1 == e / v.per) =
        us[e / v.per]?.map (fun x => (e / v.per, some (a, x))) := find_zipIdx us (fun x => some (a, x)) _
    rw [List.find?_append, find_moveCells, hfind, find_map_key (g := fun _ => 0)]
    simp only [hzeros]
    by_cases hu : e / v.per < us.length
    · simp [hu, VecRegs.moved]
    · cases tail <;> simp [hu, hlt, Nat.le_of_not_lt hu]

/-- The conditions of compression and expansion, with the alignment of the destination apart. -/
theorem packable_eq (v : VView) (d a : VReg) : packable v d a =
    ((v.fmt != .pair && !v.fmt.digits && (v.bl == 0 || v.tile) && aligned a v.lmul && apart d v.lmul a v.lmul) && aligned d v.lmul) := by
  unfold packable
  cases aligned d v.lmul <;> simp

/-- A frame of states whose VL is replaced. -/
theorem State.VecFrame.withVl {s t : State} {d : VReg} {n len : Nat} (h : s.VecFrame t d n len) (vl : BitVec 32) :
    (s.modMe (fun c => { c with vec := { c.vec with vl := vl } })).VecFrame
      { t with me := { t.me with vec := { t.me.vec with vl := vl } } } d n len := by
  obtain ⟨hs, hme, hother⟩ := h
  exact ⟨congrArg (fun u : State => { u with me := { t.me with vec := { t.me.vec with vl := vl } } }) hs,
    congrArg (fun c : Context => { c with vec := { c.vec with vl := vl } }) hme, hother⟩

/-- VCOMPRESS and its variants. -/
theorem vcompress_spec {s : State} {i : Instr} {mk : Option MReg} {setVl : Bool} {d a : VReg} {m : MReg}
    (hi : exec i s = vcompress mk setVl d a m s) :
    let kept := fun (v : VView) (r : VecRegs) => (List.range v.vl).filter (fun u => v.live && (m :: mk.toList).any (fun q => r.mbit q u))
    s.CellSpec i (fun v => v.fmt != .pair && !v.fmt.digits && (v.bl == 0 || v.tile) && aligned a v.lmul && apart d v.lmul a v.lmul)
      (fun v r => !(kept v r).isEmpty) [] (fun v => [⟨a, v.lmul, v.sew⟩]) (m :: mk.toList) d 4
      (fun v => if setVl = true ∧ v.live = true then
        s.modMe (fun c => { c with vec := { c.vec with vl := BitVec.ofNat 32 (kept v s.me.vregs).length } }) else s)
      (fun v r e => if v.live then (match (kept v r)[e / v.per]? with
        | some u => some (r.elem v a v.sew (u * v.per + e % v.per))
        | none => if v.tp then some 0 else none) else none) none := by
  intro kept
  refine cellSpec_of (fun _ => hi) (fun v hok hd => ?_) (fun v _ ha => ?_) (fun v p hp => (Option.some.inj hp).symm) fun v hv _ => ?_
  · show packable v d a = true
    rw [packable_eq, hok, hd]
    rfl
  · rwa [keptUnits_eq] at ha
  · have hus : (kept v s.me.vregs).length ≤ v.vl := (List.length_filter_le _ _).trans (List.length_range ..).le
    have hdead : v.live = false → kept v s.me.vregs = [] := fun h => by simp [kept, h]
    have hval : (fun e => if v.live then (match (kept v s.me.vregs)[e / v.per]? with
        | some u => some (s.me.vregs.elem v a v.sew (u * v.per + e % v.per))
        | none => if v.tp then some 0 else none) else none) = fun e => match (kept v s.me.vregs)[e / v.per]? with
        | some u => some (s.me.vregs.elem v a v.sew (u * v.per + e % v.per))
        | none => if v.tp && v.live then some 0 else none := funext fun e => by
      cases hl : v.live
      · simp [hdead hl]
      · simp
    obtain ⟨hframe, hflags, helem⟩ := State.write_group (d := d) hv hv.2.1 rfl
      (compress_cells hv.2.2.2 s.me.vregs a hus (v.tp && v.live)) (moveDesc v s.me.vregs none
      ((kept v s.me.vregs).zipIdx.map (fun p => (p.2, some (a, p.1))))) (s.me.readyAt v 0) 0 4
    rw [hval]
    by_cases hset : setVl = true ∧ v.live = true
    · rw [if_pos hset]
      refine ⟨_, ?_, hframe.withVl _, helem, hflags⟩
      have hcond : (setVl && v.live) = true := by simpa using hset
      simp only [keptUnits_eq, hcond, if_true]
      rfl
    · rw [if_neg hset]
      refine ⟨_, ?_, hframe, helem, hflags⟩
      have hcond : (setVl && v.live) = false := by simpa using hset
      simp only [keptUnits_eq, hcond]
      rfl

/-- VEXPAND. -/
theorem vexpand_spec (s : State) (d a : VReg) (m : MReg) : s.CellSpec (.vexpand d a m)
    (fun v => v.fmt != .pair && !v.fmt.digits && (v.bl == 0 || v.tile) && aligned a v.lmul && apart d v.lmul a v.lmul)
    (fun v r => !(v.active none r m false).isEmpty) [] (fun v => [⟨a, v.lmul, v.sew⟩]) [m] d 4 (fun _ => s)
    (fun v r e => v.outcome r m false e
      (some (r.elem v a v.sew ((below (v.active none r m false) (e / v.per)).length * v.per + e % v.per)))) none := by
  have hrun : exec (.vexpand d a m) s = execVexpand d a m s := rfl
  refine cellSpec_of (fun _ => hrun) (fun v hok hd => ?_) (fun _ _ h => h) (fun v p hp => (Option.some.inj hp).symm) fun v hv _ => ?_
  · show packable v d a = true
    rw [packable_eq, hok, hd]
    rfl
  · have hmoves : (v.active none s.me.vregs m false).zipIdx.map (fun p => (p.1, some (a, p.2))) =
        v.moves s.me.vregs m false (fun u => some (some (a, (below (v.active none s.me.vregs m false) u).length))) := by
      rw [zipIdx_rising (v.active_rising none s.me.vregs m false), List.map_map, VView.moves]
      exact (congrFun (List.filterMap_eq_map' ..) _).symm
    obtain ⟨hframe, hflags, helem⟩ := State.write_group (d := d) hv hv.2.1 rfl ((v.fills_moves s.me.vregs m false
      (fun u => some (some (a, (below (v.active none s.me.vregs m false) u).length)))).give hv.2.2.2)
      (moveDesc v s.me.vregs none (v.moves s.me.vregs m false
        (fun u => some (some (a, (below (v.active none s.me.vregs m false) u).length))))) (s.me.readyAt v 0) 0 4
    refine ⟨_, ?_, hframe, helem, hflags⟩
    dsimp only
    rw [hmoves]
    rfl

/-- Settles O30: single elements and indices write what they name, and compression and expansion move units by their place among
the kept or active ones. -/
theorem elementsAndCompression : Obligations.ElementsAndCompression := by
  unfold Obligations.ElementsAndCompression
  refine ⟨fun s d a x xa xb m st => ⟨?extx, ?insx, ?pid, ?rand⟩, fun s d a mk m => ⟨?one, ?oneVl, ?both, ?bothVl, ?expand⟩⟩
  case extx => exact fun v hv ht ha hx hr => vextx_spec rfl hv ht ha hx hr
  case insx => exact vinsx_spec s d xa xb
  case pid =>
    have hrun : exec (.vpid d m) s = byIndex (fun _ _ i _ => i) (fun _ c => c) 0 0 d m s := rfl
    exact byIndex_spec hrun (fun _ _ => rfl) (fun _ _ => rfl) fun _ _ => rfl
  case rand =>
    refine (vrand_spec s d m st).congr (fun _ => rfl) fun v e _ => ?_
    rw [randomElement_eq]
    rfl
  case one =>
    have hrun : exec (.vcompress d a m) s = vcompress none false d a m s := rfl
    exact vcompress_spec hrun
  case oneVl =>
    have hrun : exec (.vcompressVl d a m) s = vcompress none true d a m s := rfl
    exact vcompress_spec hrun
  case both =>
    have hrun : exec (.vcompressKeepnf d a mk m) s = vcompress (some mk) false d a m s := rfl
    exact vcompress_spec hrun
  case bothVl =>
    have hrun : exec (.vcompressKeepnfVl d a mk m) s = vcompress (some mk) true d a m s := rfl
    exact vcompress_spec hrun
  case expand => exact vexpand_spec s d a m

end Sys2Proof.Machine
end

section
/-! PROOFS. Running population counts, conflicts, ranks, key counts and scans (14 R229, R230). -/

namespace Sys2Proof.Machine

/-! ### Writing cells in element mode, with the flags of the elements -/

/-- What `finishCells` leaves, after the flags of an instruction that starts at element 0 where it raises any. -/
theorem State.finishCells_spec {s : State} {v : VView} (hv : s.Vec v) (d : VReg) {cells : List (Nat × Nat)} {zeros : List Nat}
    {val : Nat → Option Nat} (hcells : CellsGive (v.vlmax * v.per) (cells ++ zeros.map (fun e => (e, 0))) val) (fl : Bool)
    {hits : List (Nat × FlagSet)} (hlt : ∀ h ∈ hits, h.1 < v.vlmax * v.per) :
    let t := s.modMe (fun c => (if fl then c.raiseV true hits else c).finishCells v d cells zeros 0 0)
    s.VecFrame t d v.lmul 4 ∧ s.Elements t v d v.sew val ∧ if fl then s.FlagsJoin t True hits else t.me.flags = s.me.flags := by
  have hbound := Context.view_bound hv.2.2.1
  cases fl
  · obtain ⟨hframe, hflags, helem⟩ := State.write_group (d := d) hv hv.2.1 rfl hcells (fun _ => none) (s.me.readyAt v 0) 0 4
    exact ⟨hframe, helem, hflags⟩
  · have hraise := s.me.raiseV_rest true hits
    have hgroup : (s.me.raiseV true hits).group = none := by
      rw [hraise]
      exact hv.2.1
    have hregs : (s.me.raiseV true hits).vec.v = s.me.vec.v := by rw [hraise]
    obtain ⟨hframe, hflags, helem⟩ := State.write_group (d := d) hv hgroup hregs hcells (fun _ => none)
      ((s.me.raiseV true hits).readyAt v 0) 0 4
    refine ⟨State.VecFrame.of_flags (f := (s.me.raiseV true hits).flags) ?_, helem,
      State.raiseV_join hv.2.1 rfl true hits (fun h hmem => ?_) hflags (by simp)⟩
    · exact hraise ▸ hframe
    · have := hlt h hmem
      omega

/-! ### Counting (14 R229) -/

/-- An instruction over the active elements whose results are those of `g`. -/
theorem overActive_spec {s : State} {i : Instr} {ok : VView → Bool} {xs : List XReg} {role : MReg}
    {f : VView → State → List (Nat × Nat) → List (Nat × Nat)} {d a : VReg} {m : MReg} (hi : exec i s = overActive ok xs role f d a m s)
    {g : VView → VecRegs → Nat → Nat} (hf : ∀ v, v.live = true →
      f v s ((v.active none s.me.vregs m true).map (fun e => (e, s.me.vregs.elem v a v.sew e))) =
        (v.active none s.me.vregs role true).map (fun e => (e, g v s.me.vregs e))) :
    s.CellSpec i (fun v => ok v && v.bl == 0 && !v.tile && aligned a v.lmul) (fun v r => !(v.active none r m true).isEmpty) xs
      (fun v => [⟨a, v.lmul, v.sew⟩]) [m] d 4 (fun _ => s) (fun v r e => v.outcome r role true e (some (g v r e))) none := by
  refine cellSpec_of (fun _ => hi) (fun v hok hd => ?_) (fun _ _ h => h) (fun v p hp => (Option.some.inj hp).symm) fun v hv hok => ?_
  · simp only [Bool.and_eq_true] at hok ⊢
    exact ⟨⟨hok.1, hd⟩, hok.2⟩
  · have ht : v.tile = false := by
      simp only [Bool.and_eq_true, Bool.not_eq_true'] at hok
      exact hok.1.2
    have hcells : (if v.live then f v s ((v.active none s.me.vregs m true).map (fun e => (e, s.me.vregs.elem v a v.sew e))) else []) =
        (v.active none s.me.vregs role true).map (fun e => (e, g v s.me.vregs e)) := by
      cases hl : v.live
      · simp [VView.active, VView.body, hl]
      · exact hf v hl
    obtain ⟨hframe, helem, hflags⟩ := State.finishCells_spec hv d ((v.fills_element ht s.me.vregs role true
        (g v s.me.vregs)).give hv.2.2.2)
      false (hits := []) (fun _ h => absurd h List.not_mem_nil)
    refine ⟨_, ?_, hframe, helem, hflags⟩
    rw [← hcells]
    rfl

/-- The bits set in a code of at most 64 bits. -/
theorem popCount_ofNat {w n : Nat} (hw : w ≤ 64) (hn : n < 2 ^ w) :
    popCount (BitVec.ofNat 64 n) = ((List.range w).filter (fun k => n.testBit k)).length := by
  have hhigh : (List.map (fun k => w + k) (List.range (64 - w))).filter (fun k => n.testBit k) = [] :=
    List.filter_eq_nil_iff.mpr fun k hk => by
      obtain ⟨j, -, rfl⟩ := List.mem_map.mp hk
      simp [Nat.testBit_lt_two_pow (hn.trans_le (Nat.pow_le_pow_right two_pos (Nat.le_add_right w j)))]
  have hbits : (List.range 64).filter (fun k => (BitVec.ofNat 64 n).getLsbD k) = (List.range 64).filter (fun k => n.testBit k) :=
    List.filter_congr fun k hk => by
      rw [BitVec.getLsbD_ofNat, decide_eq_true (List.mem_range.mp hk), Bool.true_and]
  rw [popCount, hbits, ← Nat.add_sub_cancel' hw, List.range_add, List.filter_append, hhigh, List.append_nil]

/-- A code has at most 64 bits. -/
theorem VView.sew_le (v : VView) : v.sew ≤ 64 := by
  unfold VView.sew
  rcases Fmt.sew_good v.fmt with h | h | h | h | h <;> omega

/-- VPPOPC adds up the bits of the active elements so far. -/
theorem vppopc_spec (s : State) (d a : VReg) (m : MReg) : s.CellSpec (.vppopc d a m)
    (fun v => v.isInt && v.bl == 0 && !v.tile && aligned a v.lmul) (fun v r => !(v.active none r m true).isEmpty) []
    (fun v => [⟨a, v.lmul, v.sew⟩]) [m] d 4 (fun _ => s) (fun v r e => v.outcome r m true e (some
      ((((v.active none r m true).filter (fun j => decide (j ≤ e))).map (fun j =>
        ((List.range v.sew).filter (fun k => (r.elem v a v.sew j).testBit k)).length)).sum % 2 ^ v.sew))) none := by
  have hrun : exec (.vppopc d a m) s = overActive VView.isInt [] m (fun v _ l =>
    (l.foldl (fun (acc : List (Nat × Nat) × Nat) p =>
      let n := acc.2 + popCount (BitVec.ofNat 64 p.2)
      ((p.1, n % 2 ^ v.sew) :: acc.1, n)) ([], 0)).1.reverse) d a m s := rfl
  refine overActive_spec hrun fun v _ => ?_
  have hrise := v.active_rising none s.me.vregs m true
  rw [List.foldl_map, foldl_running (fun n e => (e, (n + popCount (BitVec.ofNat 64 (s.me.vregs.elem v a v.sew e))) % 2 ^ v.sew))
    (fun n e => n + popCount (BitVec.ofNat 64 (s.me.vregs.elem v a v.sew e))) 0 hrise, List.reverse_reverse]
  refine List.map_congr_left fun e he => ?_
  simp only [popCount_ofNat v.sew_le (s.me.vregs.elem_lt ..)]
  rw [filter_le_eq_below hrise he, List.map_append, List.sum_append, List.map_singleton, List.sum_singleton, List.sum_eq_foldl,
    List.foldl_map]

/-- Members of a mapped list that satisfy a test of index and value. -/
theorem filter_map_pair (l : List Nat) (g : Nat → Nat) (p : Nat → Nat → Bool) :
    (l.map (fun j => (j, g j))).filter (fun q => p q.1 q.2) = (l.filter (fun j => p j (g j))).map (fun j => (j, g j)) :=
  List.filter_map ..

/-- VCONFL names the last of the earlier active elements of the same key. -/
theorem vconfl_spec (s : State) (d a : VReg) (m : MReg) : s.CellSpec (.vconfl d a m)
    (fun v => v.isKey && v.bl == 0 && !v.tile && aligned a v.lmul) (fun v r => !(v.active none r m true).isEmpty) []
    (fun v => [⟨a, v.lmul, v.sew⟩]) [m] d 4 (fun _ => s) (fun v r e => v.outcome r m true e (some
      (match ((v.active none r m true).filter (fun j => decide (j < e) && r.elem v a v.sew j == r.elem v a v.sew e)).getLast? with
        | some j => j % 2 ^ v.sew
        | none => 2 ^ v.sew - 1))) none := by
  have hrun : exec (.vconfl d a m) s = overActive VView.isKey [] m (fun v _ l =>
    l.map (fun p => (p.1, match (l.filter (fun q => decide (q.1 < p.1) && q.2 == p.2)).getLast? with
      | some q => q.1 % 2 ^ v.sew
      | none => 2 ^ v.sew - 1))) d a m s := rfl
  refine overActive_spec hrun fun v _ => ?_
  rw [List.map_map]
  refine List.map_congr_left fun e _ => ?_
  simp only [Function.comp_apply, filter_map_pair _ _ (fun j x => decide (j < e) && x == s.me.vregs.elem v a v.sew e), List.getLast?_map]
  cases ((v.active none s.me.vregs m true).filter (fun j => decide (j < e) && s.me.vregs.elem v a v.sew j ==
    s.me.vregs.elem v a v.sew e)).getLast?
  · rfl
  · rfl

/-- VRANK counts the earlier active elements of the same key. -/
theorem vrank_spec (s : State) (d a : VReg) (m : MReg) : s.CellSpec (.vrank d a m)
    (fun v => v.isKey && v.bl == 0 && !v.tile && aligned a v.lmul) (fun v r => !(v.active none r m true).isEmpty) []
    (fun v => [⟨a, v.lmul, v.sew⟩]) [m] d 4 (fun _ => s) (fun v r e => v.outcome r m true e (some
      (((v.active none r m true).filter (fun j => decide (j < e) && r.elem v a v.sew j == r.elem v a v.sew e)).length % 2 ^ v.sew)))
    none := by
  have hrun : exec (.vrank d a m) s = overActive VView.isKey [] m (fun v _ l =>
    l.map (fun p => (p.1, (l.filter (fun q => decide (q.1 < p.1) && q.2 == p.2)).length % 2 ^ v.sew))) d a m s := rfl
  refine overActive_spec hrun fun v _ => ?_
  rw [List.map_map]
  refine List.map_congr_left fun e _ => ?_
  simp only [Function.comp_apply, filter_map_pair _ _ (fun j x => decide (j < e) && x == s.me.vregs.elem v a v.sew e), List.length_map]

/-- VKCOUNT counts, for each body element, the active keys of its bin. -/
theorem vkcount_spec (s : State) (d a : VReg) (x : XReg) (m : MReg) : s.CellSpec (.vkcount d a x m)
    (fun v => v.isKey && v.bl == 0 && !v.tile && aligned a v.lmul) (fun v r => !(v.active none r m true).isEmpty) [x]
    (fun v => [⟨a, v.lmul, v.sew⟩]) [m] d 4 (fun _ => s) (fun v r e => v.outcome r 0 true e (some
      (((v.active none r m true).filter (fun j =>
        (r.elem v a v.sew j + 2 ^ v.sew - (s.rx x).toNat % 2 ^ v.sew) % 2 ^ v.sew == e)).length % 2 ^ v.sew))) none := by
  have hrun : exec (.vkcount d a x m) s = overActive VView.isKey [x] 0 (fun v s l =>
    let base := (s.rx x).toNat % 2 ^ v.sew
    let keys := l.map (fun p => (p.2 + 2 ^ v.sew - base) % 2 ^ v.sew)
    (List.range v.vl).map (fun k => (k, (keys.filter (fun q => q == k)).length % 2 ^ v.sew))) d a m s := rfl
  refine overActive_spec hrun fun v hl => ?_
  have hbody : v.active none s.me.vregs 0 true = List.range v.vl := by
    rw [VView.active_zero]
    simp [VView.body, hl]
  rw [hbody]
  refine List.map_congr_left fun k _ => ?_
  simp only [List.map_map, List.filter_map, List.length_map]
  rfl

/-! ### Scans (14 R230) -/

section Scan
variable (op : Nat → Nat → Nat × FlagSet) (start : Nat → Bool) (x : Nat → Nat)

/-- The result of a scan at an element, from the result of the element before it, if any. -/
def scanStep (prev : Option Nat) (j : Nat) : Nat × FlagSet :=
  match prev with
  | some y => if start j then (x j, 0) else op y (x j)
  | none => (x j, 0)

/-- The members of a list from its last start on. -/
def segment (l : List Nat) : List Nat := l.filter (fun j => decide ((l.filter start).getLastD 0 ≤ j))

/-- The fold of a segment, with the flags of its last operation. -/
def segmentFold (l : List Nat) : Nat × FlagSet :=
  match l with
  | [] => (0, 0)
  | j :: l => l.foldl (fun p k => op p.1 (x k)) (x j, 0)

theorem scanList_eq {us : List Nat} (hus : us.Pairwise (· < ·)) : scanList op start (us.map (fun i => (i, x i))) =
    us.map (fun i => (i, scanStep op start x ((below us i).foldl (fun p j => some (scanStep op start x p j).1) none) i)) := by
  have hstep : (fun (acc : List (Nat × Nat × FlagSet) × Option Nat) (i : Nat) => match acc.2 with
      | some y => if start i then ((i, x i, (0 : FlagSet)) :: acc.1, some (x i)) else
        let q := op y (x i)
        ((i, q.1, q.2) :: acc.1, some q.1)
      | none => ((i, x i, 0) :: acc.1, some (x i))) =
      fun acc i => ((i, scanStep op start x acc.2 i) :: acc.1, some (scanStep op start x acc.2 i).1) := by
    funext ⟨l, prev⟩ i
    cases prev with
    | none => rfl
    | some y => cases hs : start i <;> simp [scanStep, hs]
  rw [scanList, List.foldl_map]
  refine (congrArg (fun f => (List.foldl f ([], none) us).1.reverse) hstep).trans ?_
  rw [foldl_running (fun p i => (i, scanStep op start x p i)) (fun p i => some (scanStep op start x p i).1) none hus,
      List.reverse_reverse]

variable {start} in
/-- A member that starts a segment is its first; any other joins the segment before it. -/
theorem segment_append {l : List Nat} {j : Nat} (hl : (l ++ [j]).Pairwise (· < ·)) :
    segment start (l ++ [j]) = if start j then [j] else segment start l ++ [j] := by
  have hlast : (l.filter start).getLastD 0 ≤ j := by
    rcases List.eq_nil_or_concat (l.filter start) with h | ⟨k, i, h⟩
    · simp [h]
    · have hi : i ∈ l := List.mem_of_mem_filter (p := start) (by rw [h]; simp)
      simpa [h] using (lt_of_rising_append hl hi).le
  cases hs : start j
  · have hsame : (l ++ [j]).filter start = l.filter start := by simp [hs]
    rw [segment, hsame, List.filter_append, List.filter_singleton, decide_eq_true hlast]
    rfl
  · have hnone : l.filter (fun i => decide (j ≤ i)) = [] :=
      List.filter_eq_nil_iff.mpr fun i hi => by simpa using lt_of_rising_append hl hi
    simp [segment, hs, hnone]

theorem segmentFold_append {l : List Nat} (h : l ≠ []) (j : Nat) :
    segmentFold op x (l ++ [j]) = op (segmentFold op x l).1 (x j) := by
  cases l with
  | nil => exact absurd rfl h
  | cons i l => simp [segmentFold]

/-- A scan's result at an element is the fold of the segment that it ends. -/
theorem scanStep_eq {l : List Nat} {j : Nat} (hl : (l ++ [j]).Pairwise (· < ·)) :
    scanStep op start x (l.foldl (fun p j => some (scanStep op start x p j).1) none) j =
      segmentFold op x (segment start (l ++ [j])) := by
  induction l using List.reverseRecOn generalizing j with
  | nil =>
    have hone : segment start [j] = [j] := by
      rw [← List.nil_append [j], segment_append hl]
      split <;> rfl
    rw [List.nil_append, hone]
    rfl
  | append_singleton l k ih =>
    have hne : segment start (l ++ [k]) ≠ [] := by
      rw [segment_append (rising_of_append hl)]
      split <;> simp
    rw [List.foldl_append, segment_append hl]
    cases hs : start j
    · simp [scanStep, hs, segmentFold_append op x hne, ← ih (rising_of_append hl)]
    · simp [scanStep, hs, segmentFold]

end Scan

/-- A scan, with the flags of its operations where `fl`. -/
theorem vscan_spec {s : State} {i : Instr} {fmt : VView → Bool} {fl : Bool} {op : VView → Nat → Nat → Nat × FlagSet} {d a : VReg}
    {ms m : MReg} (hi : exec i s = vscan fmt fl op d a ms m s) {res : VView → VecRegs → Nat → Nat × FlagSet}
    (hres : ∀ v r e, res v r e = segmentFold (op v) (r.elem v a v.sew)
      (segment (fun j => ms != 0 && r.mbit ms j) ((v.active none r m true).filter (fun j => decide (j ≤ e))))) :
    s.CellSpec i (fun v => fmt v && v.bl == 0 && !v.tile && aligned a v.lmul) (fun v r => !(v.active none r m true).isEmpty) []
      (fun v => [⟨a, v.lmul, v.sew⟩]) [ms, m] d 4 (fun _ => s) (fun v r e => v.outcome r m true e (some (res v r e).1))
      (if fl then some (fun v r => (v.active none r m true).map (fun e => (e, (res v r e).2))) else none) := by
  refine cellSpec_of (fun _ => hi) (fun v hok hd => ?_) (fun _ _ h => h) (fun v p hp => (Option.some.inj hp).symm) fun v hv hok => ?_
  · simp only [Bool.and_eq_true] at hok ⊢
    exact ⟨⟨hok.1, hd⟩, hok.2⟩
  · have ht : v.tile = false := by
      simp only [Bool.and_eq_true, Bool.not_eq_true'] at hok
      exact hok.1.2
    have hlist : scanList (op v) (fun j => ms != 0 && s.me.vregs.mbit ms j)
        ((v.active none s.me.vregs m true).map (fun e => (e, s.me.vregs.elem v a v.sew e))) =
        (v.active none s.me.vregs m true).map (fun e => (e, res v s.me.vregs e)) := by
      have hrise := v.active_rising none s.me.vregs m true
      rw [scanList_eq _ _ _ hrise]
      refine List.map_congr_left fun e he => ?_
      have hupto := filter_le_eq_below hrise he
      rw [scanStep_eq _ _ _ (hupto ▸ hrise.filter _), hres, hupto]
    have hlt : ∀ h ∈ (v.active none s.me.vregs m true).map (fun e => (e, (res v s.me.vregs e).2)), h.1 < v.vlmax * v.per := by
      intro h hmem
      obtain ⟨e, he, rfl⟩ := List.mem_map.mp hmem
      rw [VView.per_element ht, Nat.mul_one]
      exact ((v.mem_active ..).mp he).1.2.2.trans_le hv.2.2.2
    obtain ⟨hframe, helem, hflags⟩ := State.finishCells_spec hv d
      ((v.fills_element ht s.me.vregs m true (fun e => (res v s.me.vregs e).1)).give hv.2.2.2) fl hlt
    refine ⟨_, ?_, hframe, helem, ?_⟩
    · simp only [hlist, List.map_map]
      rfl
    · cases fl <;> exact hflags

/-- Settles O33: the counting instructions answer for each element from the active ones below it, and the scans fold the segment that
ends at it. -/
theorem countingAndScans : Obligations.CountingAndScans := by
  unfold Obligations.CountingAndScans
  intro s d a x ms m act plain key spec before run scans clampIf
  have scan : ∀ {i fmt fl op}, exec i s = vscan fmt fl op d a ms m s → scans i fmt fl op :=
    fun hi => vscan_spec hi fun _ _ _ => rfl
  refine ⟨vppopc_spec s d a m, vconfl_spec s d a m, vrank_spec s d a m, vkcount_spec s d a x m, ?add, ?min, ?max, ?fadd⟩
  case add => exact scan (i := .vscanAdd d a ms m) rfl
  case min => exact scan (i := .vscanMin d a ms m) rfl
  case max => exact scan (i := .vscanMax d a ms m) rfl
  case fadd => exact scan (i := .vscanFadd d a ms m) rfl

end Sys2Proof.Machine
end

section
/-! PROOFS. Reductions: folds in index order and their flags, and the tree (14 R225; 03 R57). -/

namespace Sys2Proof.Machine

/-! ### Flags of zero -/

/-- Elements without flags count for nothing. -/
theorem State.FlagsJoin.of_nonzero {s t : State} {at0 : Prop} {l : List (Nat × FlagSet)}
    (h : s.FlagsJoin t at0 (l.filter (fun p => p.2 != 0))) : s.FlagsJoin t at0 l := by
  have hbit : ∀ k : Fin 5, (fun p : Nat × FlagSet => p.2 != 0 && p.2.getLsbD k.val) = fun p => p.2.getLsbD k.val := fun k => by
    funext p
    by_cases hp : p.2 = 0
    · rw [hp]
      simp
    · rw [bne_iff_ne.mpr hp, Bool.true_and]
  obtain ⟨hff, hfx⟩ := h
  refine ⟨fun k => ?_, fun k old hat hnot => ?_⟩
  · rw [hff k, List.any_filter, hbit]
  · rw [hfx k old hat hnot, List.find?_filter]
    simp only [← Bool.and_eq_true, Bool.decide_eq_true, hbit]

theorem State.CellSpec.of_nonzero {s : State} {i : Instr} {ok : VView → Bool} {act : VView → VecRegs → Bool} {xs : List XReg}
    {vs : VView → List VSrc} {ms : List MReg} {d : VReg} {len : Nat} {s' : VView → State} {val : VView → VecRegs → Nat → Option Nat}
    {hits hits' : VView → VecRegs → List (Nat × FlagSet)} (h : s.CellSpec i ok act xs vs ms d len s' val (some hits'))
    (heq : ∀ v, hits' v s.me.vregs = (hits v s.me.vregs).filter (fun p => p.2 != 0)) :
    s.CellSpec i ok act xs vs ms d len s' val (some hits) := by
  intro v hv hok hd hr
  obtain ⟨t, ht, hframe, helem, hflags⟩ := h v hv hok hd hr
  refine ⟨t, ht, hframe, helem, State.FlagsJoin.of_nonzero ?_⟩
  rw [← heq]
  exact hflags

/-! ### Reductions -/

/-- The cells of a reduction: element 0, and the rest as tail. -/
theorem reduction_cells {v : VView} (hvl : v.vl ≤ v.vlmax) (ht : v.tile = false) (x : Nat) :
    CellsGive (v.vlmax * v.per) ((if v.live then [(0, x)] else []) ++ v.redTail.map (fun e => (e, 0)))
      (fun e => if v.live then (if e = 0 then some x else if v.tp then some 0 else none) else none) := by
  rw [VView.per_element ht, Nat.mul_one, VView.redTail]
  cases hl : v.live
  · exact ⟨List.nodup_nil, fun _ h => absurd h List.not_mem_nil, fun _ _ => rfl⟩
  · have hpos : 0 < v.vlmax := by
      have : v.vbeg < v.vl := of_decide_eq_true hl
      omega
    cases htp : v.tp
    · refine ⟨by simp, by simpa using hpos, fun e _ => ?_⟩
      by_cases he : e = 0
      · simp [he]
      · simp [he, show (0 : Nat) ≠ e from Ne.symm he]
    · have htail : ∀ e, e ∈ (List.range (v.vlmax - 1)).map (fun i => i + 1) ↔ 1 ≤ e ∧ e < v.vlmax := fun e => by
        simp only [List.mem_map, List.mem_range]
        exact ⟨fun ⟨k, hk, h⟩ => by omega, fun ⟨h, h'⟩ => ⟨e - 1, by omega, by omega⟩⟩
      refine ⟨?_, fun p hp => ?_, fun e he => ?_⟩
      · simp only [if_true, Bool.and_self, List.map_map, List.singleton_append, List.map_cons]
        exact List.nodup_cons.mpr ⟨by simp, List.nodup_range.map fun x y h => Nat.succ_inj.mp h⟩
      · simp only [if_true, Bool.and_self, List.singleton_append, List.mem_cons, List.mem_map (f := fun e => (e, 0))] at hp
        rcases hp with rfl | ⟨e, he, rfl⟩
        · exact hpos
        · exact ((htail e).mp he).2
      · simp only [if_true, Bool.and_self, List.singleton_append, List.find?_cons]
        by_cases h0 : e = 0
        · simp [h0]
        · have hz : ((0 : Nat) == e) = false := by simpa using Ne.symm h0
          rw [hz, find_map_key (g := fun _ => 0), if_pos ((htail e).mpr ⟨by omega, he⟩), if_neg h0]
          rfl

/-- What a reduction does, in terms of its operation. -/
theorem reduction_spec {s : State} {i : Instr} {fmt : VView → Bool} {fl : Bool}
    {f : VView → Nat → List (Nat × Nat) → Nat × List (Nat × FlagSet)} {d a b : VReg} {m : MReg}
    (hi : exec i s = reduction fmt fl f d a b m s) {q : VView → VecRegs → Nat × List (Nat × FlagSet)}
    (hq : ∀ v, q v s.me.vregs = f v (s.me.vregs.elem v b v.sew 0)
      ((v.active none s.me.vregs m true).map (fun e => (e, s.me.vregs.elem v a v.sew e))))
    (hlt : ∀ v, s.Vec v → v.tile = false → v.live = true → ∀ h ∈ (q v s.me.vregs).2, h.1 < v.vl) :
    s.CellSpec i (fun v => fmt v && v.bl == 0 && !v.tile && aligned a v.lmul && aligned b v.lmul)
      (fun v r => !(v.active none r m true).isEmpty) [] (fun v => [⟨a, v.lmul, v.sew⟩, v.oneSrc b 0]) [m] d 4 (fun _ => s)
      (fun v r e => if v.live then (if e = 0 then some (q v r).1 else if v.tp then some 0 else none) else none)
      (if fl then some (fun v r => if v.live then (q v r).2 else []) else none) := by
  refine cellSpec_of (fun _ => hi) (fun v hok hd => ?_) (fun _ _ h => h) (fun v p hp => (Option.some.inj hp).symm) fun v hv hok => ?_
  · simp only [Bool.and_eq_true] at hok ⊢
    exact ⟨⟨⟨hok.1.1, hd⟩, hok.1.2⟩, hok.2⟩
  · have ht : v.tile = false := by
      simp only [Bool.and_eq_true, Bool.not_eq_true'] at hok
      exact hok.1.1.2
    have hbound : ∀ h ∈ (if v.live then (q v s.me.vregs).2 else []), h.1 < v.vlmax * v.per := by
      intro h hmem
      rw [VView.per_element ht, Nat.mul_one]
      cases hl : v.live <;> rw [hl] at hmem
      · cases hmem
      · exact (hlt v hv ht hl h hmem).trans_le hv.2.2.2
    obtain ⟨hframe, helem, hflags⟩ := State.finishCells_spec hv d (reduction_cells hv.2.2.2 ht (q v s.me.vregs).1) fl hbound
    refine ⟨_, ?_, hframe, helem, ?_⟩
    · rw [hq]
    · cases fl <;> exact hflags

/-! ### Folds with flags -/

/-- The running value of a fold after `k` members. -/
def foldUpTo (op : Nat → Nat → Nat × FlagSet) (seed : Nat) (l : List (Nat × Nat)) (k : Nat) : Nat :=
  (l.take k).foldl (fun x p => (op x p.2).1) seed

/-- The flags of each step of a fold. -/
def foldHits (op : Nat → Nat → Nat × FlagSet) (seed : Nat) (l : List (Nat × Nat)) : List (Nat × FlagSet) :=
  l.zipIdx.map (fun p => (p.1.1, (op (foldUpTo op seed l p.2) p.1.2).2))

theorem foldHits_append (op : Nat → Nat → Nat × FlagSet) (seed : Nat) (l : List (Nat × Nat)) (p : Nat × Nat) :
    foldHits op seed (l ++ [p]) = foldHits op seed l ++ [(p.1, (op (foldUpTo op seed l l.length) p.2).2)] := by
  have hmap : l.zipIdx.map (fun q => (q.1.1, (op (foldUpTo op seed (l ++ [p]) q.2) q.1.2).2)) = foldHits op seed l :=
    List.map_congr_left fun q hq => by
      have hlt : q.2 < l.length := by
        have := List.mem_zipIdx hq
        omega
      rw [foldUpTo, foldUpTo, List.take_append_of_le_length hlt.le]
  rw [foldHits, List.zipIdx_append, List.map_append, hmap]
  simp [foldUpTo]

theorem foldUpTo_append (op : Nat → Nat → Nat × FlagSet) (seed : Nat) (l : List (Nat × Nat)) (p : Nat × Nat) :
    foldUpTo op seed (l ++ [p]) (l ++ [p]).length = (op (foldUpTo op seed l l.length) p.2).1 := by
  simp only [foldUpTo, List.take_length, List.foldl_append, List.foldl_cons, List.foldl_nil]

theorem foldFlags_eq (op : Nat → Nat → Nat × FlagSet) (seed : Nat) (l : List (Nat × Nat)) :
    foldFlags op seed l = (foldUpTo op seed l l.length, (foldHits op seed l).filter (fun p => p.2 != 0)) := by
  have hfold : l.foldl (fun (acc : Nat × List (Nat × FlagSet)) p =>
      ((op acc.1 p.2).1, if (op acc.1 p.2).2 = 0 then acc.2 else (p.1, (op acc.1 p.2).2) :: acc.2)) (seed, []) =
      (foldUpTo op seed l l.length, ((foldHits op seed l).filter (fun p => p.2 != 0)).reverse) := by
    induction l using List.reverseRecOn with
    | nil => rfl
    | append_singleton l p ih =>
      rw [List.foldl_append, ih, foldHits_append, foldUpTo_append, List.filter_append, List.reverse_append]
      generalize foldUpTo op seed l l.length = x
      by_cases hz : (op x p.2).2 = 0#5
      · simp [hz]
      · simp [hz]
  rw [foldFlags]
  simp only [hfold, List.reverse_reverse]

/-! ### The tree -/

section Tree
variable (op : Nat → Nat → Nat × FlagSet)

/-- One level of the tree: the sums of neighbours, and their flags by left index. -/
theorem treeLevel_eq (w K : Nat) (i : Nat) (g : Nat → Option Nat) : treeLevel op w i ((List.range (2 * K)).map g) =
    ((List.range K).map (fun e => (comb op (g (2 * e)) (g (2 * e + 1))).1),
      ((List.range K).map (fun e => (i + 2 * w * e, (comb op (g (2 * e)) (g (2 * e + 1))).2))).filter (fun p => p.2 != 0)) := by
  induction K generalizing i g with
  | zero => rfl
  | succ K ih =>
    have hlist : (List.range (2 * (K + 1))).map g = g 0 :: g 1 :: (List.range (2 * K)).map (fun e => g (e + 2)) := by
      rw [Nat.mul_succ, List.range_succ_eq_map, List.range_succ_eq_map]
      simp [Function.comp_def]
    have hindex : ∀ e, i + (2 * w * e + 2 * w) = i + 2 * w + 2 * w * e := fun e => by ring
    have hodd : ∀ e, 2 * e + 2 + 1 = 2 * e + 1 + 2 := fun _ => rfl
    rw [hlist, treeLevel, ih, List.range_succ_eq_map]
    by_cases hz : (comb op (g 0) (g 1)).2 = 0#5
    · simp [hz, Function.comp_def, Nat.mul_succ, hindex, hodd]
    · simp [hz, Function.comp_def, Nat.mul_succ, hindex, hodd]

/-- A tree of sums over leaves. -/
def IsTree (tree : Nat → Nat → Option Nat) : Prop :=
  ∀ n e, tree (n + 1) e = (comb op (tree n (2 * e)) (tree n (2 * e + 1))).1

/-- The flags of the sum at a place of the tree's next level. -/
def treeFlags (tree : Nat → Nat → Option Nat) (j e : Nat) : FlagSet := (comb op (tree j (2 * e)) (tree j (2 * e + 1))).2

variable {op} {tree : Nat → Nat → Option Nat} (htree : IsTree op tree)
include htree

/-- The fold of `n` levels from level `j` on: its root, and the flags of the sums that raise some. -/
theorem treeFold_eq (n j : Nat) :
    (treeFold op n (2 ^ j) ((List.range (2 ^ n)).map (tree j))).1 = tree (j + n) 0 ∧
    ∀ h, h ∈ (treeFold op n (2 ^ j) ((List.range (2 ^ n)).map (tree j))).2 ↔
      ∃ k e, k < n ∧ e < 2 ^ (n - 1 - k) ∧ h = (e * 2 ^ (j + k + 1), treeFlags op tree (j + k) e) ∧ h.2 ≠ 0 := by
  induction n generalizing j with
  | zero => exact ⟨rfl, fun h => ⟨fun hmem => absurd hmem List.not_mem_nil, fun ⟨k, e, hk, _⟩ => absurd hk (Nat.not_lt_zero k)⟩⟩
  | succ n ih =>
    obtain ⟨hroot, hhits⟩ := ih (j + 1)
    have hlevel := treeLevel_eq op (2 ^ j) (2 ^ n) 0 (tree j)
    rw [← Nat.pow_succ'] at hlevel
    have hnext : (List.range (2 ^ n)).map (fun e => (comb op (tree j (2 * e)) (tree j (2 * e + 1))).1) =
        (List.range (2 ^ n)).map (tree (j + 1)) :=
      List.map_congr_left fun e _ => (htree j e).symm
    rw [treeFold, hlevel, hnext, ← Nat.pow_succ']
    refine ⟨hroot.trans (by rw [Nat.add_right_comm, Nat.add_assoc]), fun h => ?_⟩
    rw [List.mem_append, hhits, List.mem_filter, List.mem_map]
    constructor
    · rintro (⟨⟨e, he, rfl⟩, hz⟩ | ⟨k, e, hk, he, rfl, hz⟩)
      · exact ⟨0, e, n.succ_pos, by simpa using he, Prod.ext (by simp [Nat.pow_succ']; ring) rfl, by simpa using hz⟩
      · refine ⟨k + 1, e, Nat.succ_lt_succ hk, ?_, ?_, hz⟩
        · rwa [show n + 1 - 1 - (k + 1) = n - 1 - k by omega]
        · rw [show j + (k + 1) = j + 1 + k by omega]
    · rintro ⟨k, e, hk, he, rfl, hz⟩
      cases k with
      | zero => exact .inl ⟨⟨e, by simpa using he, Prod.ext (by simp [Nat.pow_succ']; ring) rfl⟩, by simpa using hz⟩
      | succ k =>
        refine .inr ⟨k, e, Nat.lt_of_succ_lt_succ hk, ?_, ?_, hz⟩
        · rwa [show n + 1 - 1 - (k + 1) = n - 1 - k by omega] at he
        · rw [show j + (k + 1) = j + 1 + k by omega]

/-- A sum has a leaf among those of its place. -/
theorem IsTree.leaf {j e : Nat} (h : tree j e ≠ none) : ∃ i, e * 2 ^ j ≤ i ∧ tree 0 i ≠ none := by
  induction j generalizing e with
  | zero => exact ⟨e, by simp, h⟩
  | succ j ih =>
    rw [htree] at h
    have hside : tree j (2 * e) ≠ none ∨ tree j (2 * e + 1) ≠ none := by
      by_contra hno
      simp only [not_or, not_not] at hno
      exact h (by rw [hno.1, hno.2]; rfl)
    rcases hside with hleft | hright
    · obtain ⟨i, hle, hi⟩ := ih hleft
      exact ⟨i, by rw [Nat.pow_succ']; calc e * (2 * 2 ^ j) = 2 * e * 2 ^ j := by ring
        _ ≤ i := hle, hi⟩
    · obtain ⟨i, hle, hi⟩ := ih hright
      exact ⟨i, by rw [Nat.pow_succ']; calc e * (2 * 2 ^ j) ≤ (2 * e + 1) * 2 ^ j := by nlinarith [Nat.two_pow_pos j]
        _ ≤ i := hle, hi⟩

end Tree

/-- A sum raises flags only of two values. -/
theorem comb_flags {op : Nat → Nat → Nat × FlagSet} {x y : Option Nat} {k : Nat} :
    (comb op x y).2.getLsbD k = true ↔ ∃ a b, x = some a ∧ y = some b ∧ (op a b).2.getLsbD k = true := by
  cases x <;> cases y <;> simp [comb]

theorem clog2_eq {n vl : Nat} (hle : vl ≤ 2 ^ n) (hleast : ∀ k, vl ≤ 2 ^ k → n ≤ k) : clog2 vl = n := by
  unfold clog2
  split
  · have := hleast 0 (by omega)
    omega
  · have hcover : vl ≤ 2 ^ ((vl - 1).log2 + 1) := by
      have := Nat.lt_log2_self (n := vl - 1)
      omega
    have hlog : (vl - 1).log2 < n := (Nat.log2_lt (by omega)).mpr (by omega)
    have := hleast _ hcover
    omega

section TreeSum
variable {op : Nat → Nat → Nat × FlagSet} {tree : Nat → Nat → Option Nat} {n vl seed : Nat} {l : List (Nat × Nat)}

/-- The flags of the sum with the seed. -/
def seedFlags (op : Nat → Nat → Nat × FlagSet) (seed : Nat) (root : Option Nat) : FlagSet := (comb op (some seed) root).2

/-- The tree sum, its flags in index order: its value, its hits, and that they rise. -/
theorem treeSum_eq (htree : IsTree op tree) (hn : clog2 vl = n)
    (hleaf : ∀ i, (l.find? (fun p => p.1 == i)).map (fun p => p.2) = tree 0 i) :
    (treeSum op vl seed l).1 = ((comb op (some seed) (tree n 0)).1).getD seed ∧
    (treeSum op vl seed l).2.Pairwise (fun x y => x.1 ≤ y.1) ∧
    ∀ h, h ∈ (treeSum op vl seed l).2 ↔
      (h = ((l.head?.map (fun p => p.1)).getD 0, seedFlags op seed (tree n 0)) ∧ h.2 ≠ 0) ∨
      ∃ j e, j < n ∧ e < 2 ^ (n - 1 - j) ∧ h = (e * 2 ^ (j + 1), treeFlags op tree j e) ∧ h.2 ≠ 0 := by
  have hleaves : (List.range (2 ^ n)).map (fun i => (l.find? (fun p => p.1 == i)).map (fun p => p.2)) =
      (List.range (2 ^ n)).map (tree 0) :=
    List.map_congr_left fun i _ => hleaf i
  obtain ⟨hroot, hhits⟩ := treeFold_eq htree n 0
  simp only [Nat.zero_add, Nat.pow_zero] at hroot hhits
  rw [treeSum]
  simp only [hn, hleaves, hroot]
  refine ⟨trivial, ?_, fun h => ?_⟩
  · exact List.pairwise_insertionSort (fun x y : Nat × FlagSet => x.1 ≤ y.1) _
  · rw [(List.perm_insertionSort _ _).mem_iff, ← hhits]
    unfold seedFlags
    split
    · rename_i hz
      refine ⟨.inr, fun hor => hor.resolve_left fun ⟨heq, hne⟩ => hne ?_⟩
      rw [heq]
      exact hz
    · rename_i hz
      rw [List.mem_cons]
      exact or_congr_left ⟨fun heq => ⟨heq, heq ▸ hz⟩, And.left⟩

/-- The tree over given leaves. -/
def sumTree (op : Nat → Nat → Nat × FlagSet) (leaf : Nat → Option Nat) : Nat → Nat → Option Nat
  | 0, e => leaf e
  | n + 1, e => (comb op (sumTree op leaf n (2 * e)) (sumTree op leaf n (2 * e + 1))).1

/-- A sum that raises flags has a left neighbour. -/
theorem treeFlags_left {j e : Nat} (h : treeFlags op tree j e ≠ 0) : tree j (2 * e) ≠ none := by
  intro hnone
  rw [treeFlags, hnone] at h
  exact h rfl

theorem left_index (j e : Nat) : e * 2 ^ (j + 1) = 2 * e * 2 ^ j := by ring

/-- The hits of a tree sum lie below VL. -/
theorem treeSum_lt (hvl : 0 < vl) (hl : ∀ p ∈ l, p.1 < vl) : ∀ h ∈ (treeSum op vl seed l).2, h.1 < vl := by
  obtain ⟨-, -, hmem⟩ := treeSum_eq (op := op) (tree := sumTree op (fun i => (l.find? (fun p => p.1 == i)).map (fun p => p.2)))
    (seed := seed) (l := l) (fun _ _ => rfl) (rfl : clog2 vl = _) (fun _ => rfl)
  intro h hh
  rcases (hmem h).mp hh with ⟨rfl, -⟩ | ⟨j, e, -, -, rfl, hne⟩
  · cases l with
    | nil => exact hvl
    | cons p l => exact hl p (List.mem_cons_self ..)
  · obtain ⟨i, hle, hi⟩ := IsTree.leaf (fun _ _ => rfl) (treeFlags_left hne)
    have hlt : i < vl := by
      by_contra hge
      refine hi (Option.map_eq_none_iff.mpr (List.find?_eq_none.mpr fun p hp heq => hge ?_))
      exact beq_iff_eq.mp heq ▸ hl p hp
    rw [left_index]
    exact hle.trans_lt hlt

/-- Where a tree sum raises a flag: at the left index of a sum, and for the sum with the seed at the lowest active element. -/
def TreeRaises (op : Nat → Nat → Nat × FlagSet) (tree : Nat → Nat → Option Nat) (n seed : Nat) (first : Option Nat) (k i : Nat) : Prop :=
  (∃ j e x y, j < n ∧ i = e * 2 ^ (j + 1) ∧ tree j (2 * e) = some x ∧ tree j (2 * e + 1) = some y ∧ (op x y).2.getLsbD k = true) ∨
    ∃ x, tree n 0 = some x ∧ (op seed x).2.getLsbD k = true ∧ first = some i

theorem ne_zero_of_bit {f : FlagSet} {k : Nat} (h : f.getLsbD k = true) : f ≠ 0 := fun hz => by simp [hz] at h

theorem treeRaises_iff (htree : IsTree op tree) (hn : clog2 vl = n) (hcover : vl ≤ 2 ^ n) (hl : ∀ p ∈ l, p.1 < vl)
    (hleaf : ∀ i, (l.find? (fun p => p.1 == i)).map (fun p => p.2) = tree 0 i) (k i : Nat) :
    TreeRaises op tree n seed (l.head?.map (fun p => p.1)) k i ↔ ∃ p ∈ (treeSum op vl seed l).2, p.1 = i ∧ p.2.getLsbD k = true := by
  obtain ⟨-, -, hmem⟩ := treeSum_eq (seed := seed) htree hn hleaf
  have hlisted : ∀ i, tree 0 i ≠ none → ∃ p ∈ l, p.1 = i := fun i hi => by
    rw [← hleaf i] at hi
    obtain ⟨p, hp⟩ := Option.ne_none_iff_exists'.mp (Option.map_eq_none_iff.not.mp hi)
    exact ⟨p, List.mem_of_find?_eq_some hp, beq_iff_eq.mp (List.find?_some (p := fun p : Nat × Nat => p.1 == i) hp)⟩
  constructor
  · rintro (⟨j, e, x, y, hj, rfl, hx, hy, hbit⟩ | ⟨x, hx, hbit, hfirst⟩)
    · have hflags : treeFlags op tree j e = (op x y).2 := by rw [treeFlags, hx, hy]; rfl
      have hlt : e < 2 ^ (n - 1 - j) := by
        obtain ⟨i, hle, hi⟩ := htree.leaf (j := j) (e := 2 * e) (by rw [hx]; exact Option.some_ne_none x)
        obtain ⟨p, hp, rfl⟩ := hlisted i hi
        have hpow : 2 ^ n = 2 ^ (n - 1 - j) * 2 ^ (j + 1) := by rw [← Nat.pow_add]; congr 1; omega
        rw [← left_index] at hle
        exact Nat.lt_of_mul_lt_mul_right (hle.trans_lt ((hl p hp).trans_le (hcover.trans hpow.le)))
      exact ⟨_, (hmem _).mpr (.inr ⟨j, e, hj, hlt, rfl, by rw [hflags]; exact ne_zero_of_bit hbit⟩), rfl, by rw [hflags]; exact hbit⟩
    · have hflags : seedFlags op seed (tree n 0) = (op seed x).2 := by rw [seedFlags, hx]; rfl
      exact ⟨_, (hmem _).mpr (.inl ⟨rfl, by rw [hflags]; exact ne_zero_of_bit hbit⟩), by rw [hfirst]; rfl, by rw [hflags]; exact hbit⟩
  · rintro ⟨p, hp, rfl, hbit⟩
    rcases (hmem p).mp hp with ⟨rfl, -⟩ | ⟨j, e, hj, -, rfl, -⟩
    · obtain ⟨y, x, hy, hx, hxy⟩ := comb_flags.mp hbit
      obtain rfl := Option.some.inj hy
      obtain ⟨i, -, hi⟩ := htree.leaf (j := n) (e := 0) (by rw [hx]; exact Option.some_ne_none x)
      obtain ⟨q, hq, -⟩ := hlisted i hi
      obtain ⟨q, l', rfl⟩ := List.exists_cons_of_ne_nil (List.ne_nil_of_mem hq)
      exact .inr ⟨x, hx, hxy, rfl⟩
    · obtain ⟨x, y, hx, hy, hxy⟩ := comb_flags.mp hbit
      exact .inl ⟨j, e, x, y, hj, rfl, hx, hy, hxy⟩

end TreeSum

/-- Where hits come in index order, FXIDX takes the least index of each flag. -/
theorem State.FlagsJoin.of_sorted {s t : State} {hits : List (Nat × FlagSet)} (h : s.FlagsJoin t True hits)
    (hsorted : hits.Pairwise (fun x y => x.1 ≤ y.1)) (k : Fin 5) {raises : Nat → Prop}
    (hraises : ∀ i, raises i ↔ ∃ p ∈ hits, p.1 = i ∧ p.2.getLsbD k.val = true) :
    (t.me.flags.ff.getLsbD k.val = true ↔ s.me.flags.ff.getLsbD k.val = true ∨ ∃ i, raises i) ∧
      ((∀ i, ¬raises i) → t.me.flags.fx[k] = 0xFFFFFFFF) ∧
      ∀ i, raises i → (∀ j, raises j → i ≤ j) → t.me.flags.fx[k] = BitVec.ofNat 32 i := by
  obtain ⟨hff, hfx⟩ := h
  have hfirst := hfx k 0xFFFFFFFF (fun _ => rfl) (fun hno => absurd trivial hno)
  rw [if_neg (not_not.mpr rfl)] at hfirst
  refine ⟨?_, fun hnone => ?_, fun i hi hleast => ?_⟩
  · rw [hff k, Bool.or_eq_true, List.any_eq_true]
    exact or_congr_right ⟨fun ⟨p, hp, hbit⟩ => ⟨p.1, (hraises _).mpr ⟨p, hp, rfl, hbit⟩⟩,
      fun ⟨i, hi⟩ => let ⟨p, hp, _, hbit⟩ := (hraises i).mp hi; ⟨p, hp, hbit⟩⟩
  · have hno : hits.find? (fun p => p.2.getLsbD k.val) = none :=
      List.find?_eq_none.mpr fun p hp hbit => hnone p.1 ((hraises _).mpr ⟨p, hp, rfl, hbit⟩)
    rw [hfirst, hno]
  · obtain ⟨p, hp, rfl, hbit⟩ := (hraises i).mp hi
    cases hfind : hits.find? (fun p => p.2.getLsbD k.val) with
    | none => exact absurd hbit (List.find?_eq_none.mp hfind p hp)
    | some q =>
      obtain ⟨hqbit, l₁, l₂, hsplit, hbefore⟩ := List.find?_eq_some_iff_append.mp hfind
      have hqp : q.1 ≤ p.1 := by
        rw [hsplit] at hp hsorted
        rcases List.mem_append.mp hp with hp | hp
        · exact absurd hbit (by simpa using hbefore p hp)
        · rcases List.mem_cons.mp hp with rfl | hp
          · exact le_rfl
          · exact List.rel_of_pairwise_cons (List.pairwise_append.mp hsorted).2.1 hp
      have hpq := hleast q.1 ((hraises _).mpr ⟨q, List.mem_of_find?_eq_some hfind, rfl, hqbit⟩)
      rw [hfirst, hfind, Nat.le_antisymm hpq hqp]

/-! ### The obligation -/

/-- The active elements of a source with their indices. -/
def VView.items (v : VView) (r : VecRegs) (a : VReg) (m : MReg) : List (Nat × Nat) :=
  (v.active none r m true).map (fun e => (e, r.elem v a v.sew e))

theorem VView.items_lt {v : VView} {r : VecRegs} {a : VReg} {m : MReg} {p : Nat × Nat} (h : p ∈ v.items r a m) : p.1 < v.vl := by
  obtain ⟨e, he, rfl⟩ := List.mem_map.mp h
  exact ((v.mem_active ..).mp he).1.2.2

theorem VView.items_dead {v : VView} (h : v.live = false) (r : VecRegs) (a : VReg) (m : MReg) : v.items r a m = [] := by
  simp [VView.items, VView.active, VView.body, h]

/-- VRED. -/
theorem vred_spec (s : State) (o : RedOp) (d a b : VReg) (m : MReg) :
    s.CellSpec (.vred o d a b m) (fun v => v.isInt && v.bl == 0 && !v.tile && aligned a v.lmul && aligned b v.lmul)
      (fun v r => !(v.active none r m true).isEmpty) [] (fun v => [⟨a, v.lmul, v.sew⟩, v.oneSrc b 0]) [m] d 4 (fun _ => s)
      (fun v r e => if v.live then (if e = 0 then some (redInt o v (r.elem v b v.sew 0) (v.items r a m)) else
        if v.tp then some 0 else none) else none) none := by
  have hrun : exec (.vred o d a b m) s = reduction VView.isInt false (fun v seed l => (redInt o v seed l, [])) d a b m s := rfl
  exact reduction_spec (q := fun v r => (redInt o v (r.elem v b v.sew 0) (v.items r a m), [])) hrun (fun _ => rfl)
    fun _ _ _ _ _ h => absurd h List.not_mem_nil

/-- A reduction that folds in index order. -/
theorem fold_spec {s : State} {i : Instr} {op : VView → Nat → Nat → Nat × FlagSet} {d a b : VReg} {m : MReg}
    (hi : exec i s = reduction VView.isFloat true (fun v seed l => foldFlags (op v) seed l) d a b m s) :
    s.CellSpec i (fun v => v.isFloat && v.bl == 0 && !v.tile && aligned a v.lmul && aligned b v.lmul)
      (fun v r => !(v.active none r m true).isEmpty) [] (fun v => [⟨a, v.lmul, v.sew⟩, v.oneSrc b 0]) [m] d 4 (fun _ => s)
      (fun v r e => if v.live then (if e = 0 then
        some (foldUpTo (op v) (r.elem v b v.sew 0) (v.items r a m) (v.items r a m).length) else if v.tp then some 0 else none) else none)
      (some (fun v r => foldHits (op v) (r.elem v b v.sew 0) (v.items r a m))) := by
  refine State.CellSpec.of_nonzero (reduction_spec (q := fun v r => (foldUpTo (op v) (r.elem v b v.sew 0) (v.items r a m)
      (v.items r a m).length,
    (foldHits (op v) (r.elem v b v.sew 0) (v.items r a m)).filter (fun p => p.2 != 0))) hi (fun v => (foldFlags_eq ..).symm) ?_) ?_
  · intro v _ _ _ h hmem
    obtain ⟨p, hp, rfl⟩ := List.mem_map.mp (List.mem_of_mem_filter hmem)
    exact VView.items_lt (List.fst_mem_of_mem_zipIdx hp)
  · intro v
    cases hl : v.live
    · rw [VView.items_dead hl]
      rfl
    · rfl

/-- VFRED.T, for the tree over the active elements. -/
theorem vfredT_spec {s : State} {d a b : VReg} {m : MReg} {v : VView} (hv : s.Vec v) (hok : v.isFloat = true) (hbl : v.bl = 0)
    (ht : v.tile = false) (hl : v.live = true) (hd : aligned d v.lmul = true) (ha : aligned a v.lmul = true)
    (hb : aligned b v.lmul = true)
    (hr : s.ReadyV v [⟨a, v.lmul, v.sew⟩, v.oneSrc b 0] [m]) (hguard : s.guarding d v.lmul = none)
    {tree : Nat → Nat → Option Nat} (htree : IsTree (v.ff.add v.rm v.sat) tree)
    (hleaf : ∀ e, tree 0 e = if e < v.vl ∧ s.me.vregs.mbit m e = true then some (s.me.vregs.elem v a v.sew e) else none)
    {n : Nat} (hn : v.vl ≤ 2 ^ n) (hleast : ∀ k, v.vl ≤ 2 ^ k → n ≤ k) :
    ∃ t, exec (.vfredT d a b m) s = .next t ∧ s.VecFrame t d v.lmul 4 ∧
      s.Elements t v d v.sew (fun e => if e = 0 then
        some ((comb (v.ff.add v.rm v.sat) (some (s.me.vregs.elem v b v.sew 0)) (tree n 0)).1.getD (s.me.vregs.elem v b v.sew 0))
        else if v.tp then some 0 else none) ∧
      ∀ k : Fin 5,
        let raises := TreeRaises (v.ff.add v.rm v.sat) tree n (s.me.vregs.elem v b v.sew 0) (v.active none s.me.vregs m true).head? k.val
        (t.me.flags.ff.getLsbD k.val = true ↔ s.me.flags.ff.getLsbD k.val = true ∨ ∃ i, raises i) ∧
        ((∀ i, ¬raises i) → t.me.flags.fx[k] = 0xFFFFFFFF) ∧
        ∀ i, raises i → (∀ j, raises j → i ≤ j) → t.me.flags.fx[k] = BitVec.ofNat 32 i := by
  have hrun : exec (.vfredT d a b m) s = reduction VView.isFloat true
    (fun v seed l => treeSum (v.ff.add v.rm v.sat) v.vl seed l) d a b m s := rfl
  have hlog := clog2_eq hn hleast
  have hfind : ∀ i, ((v.items s.me.vregs a m).find? (fun p => p.1 == i)).map (fun p => p.2) = tree 0 i := fun i => by
    have hlive : v.vbeg < v.vl := of_decide_eq_true hl
    rw [VView.items, find_map_key, hleaf]
    simp only [VView.mem_active, hlive, true_and, true_or]
    split <;> rfl
  have hspec := reduction_spec (q := fun v r => treeSum (v.ff.add v.rm v.sat) v.vl (r.elem v b v.sew 0) (v.items r a m)) hrun
    (fun _ => rfl) fun v _ _ hlive => treeSum_lt (Nat.zero_lt_of_lt (of_decide_eq_true hlive)) fun _ => VView.items_lt
  obtain ⟨t, ht', hframe, helem, hflags⟩ := hspec v hv (by simp [hok, hbl, ht, ha, hb]) hd fun _ => ⟨readyX_nil s, hr, hguard⟩
  obtain ⟨hval, hsorted, -⟩ := treeSum_eq (seed := s.me.vregs.elem v b v.sew 0) htree hlog hfind
  refine ⟨t, ht', hframe, fun e he => ?_, fun k => ?_⟩
  · rw [helem e he]
    simp only [hl, if_true, hval]
  · simp only [hl, if_true] at hflags
    refine hflags.of_sorted hsorted k fun i => ?_
    rw [← treeRaises_iff htree hlog hn (fun _ => VView.items_lt) hfind, VView.items, List.head?_map, Option.map_map]
    rw [show (fun p : Nat × Nat => p.1) ∘ (fun e => (e, s.me.vregs.elem v a v.sew e)) = id from rfl, Option.map_id, id_eq]

/-- Settles O31: a reduction writes the fold of its items, and the tree sum is the root of the tree over the active elements. -/
theorem reductions : Obligations.Reductions := by
  unfold Obligations.Reductions
  intro s d a b m act seed items spec ints exact bits folds
  refine ⟨?sum, ?min, ?max, ?and, ?or, ?xor, ?ordered, ?fmin, ?fmax, ?tree⟩
  case sum => exact vred_spec s .sum d a b m
  case min => exact vred_spec s .min d a b m
  case max => exact vred_spec s .max d a b m
  case and => exact vred_spec s .and d a b m
  case or => exact vred_spec s .or d a b m
  case xor => exact vred_spec s .xor d a b m
  case ordered => exact fold_spec (i := .vfredO d a b m) (op := fun v => v.ff.add v.rm v.sat) rfl
  case fmin => exact fold_spec (i := .vfredMin d a b m) (op := fun v => v.ff.minMax false) rfl
  case fmax => exact fold_spec (i := .vfredMax d a b m) (op := fun v => v.ff.minMax true) rfl
  case tree =>
    intro v hv hok hbl ht hl hd ha hb hr hguard tree hleaf hnode n hn hleast
    have hcomb : ∀ x y : Option Nat, (comb (v.ff.add v.rm v.sat) x y).1 = match x, y with
        | some x, some y => some (v.ff.add v.rm v.sat x y).1
        | some x, none => some x
        | none, y => y := fun x y => by cases x <;> cases y <;> rfl
    have htree : IsTree (v.ff.add v.rm v.sat) tree := fun n e => (hnode n e).trans (hcomb _ _).symm
    obtain ⟨t, ht', hframe, helem, hflags⟩ := vfredT_spec hv hok hbl ht hl hd ha hb hr hguard htree hleaf hn hleast
    refine ⟨t, ht', hframe, fun e he => (helem e he).trans ?_, hflags⟩
    cases tree n 0 <;> rfl

end Sys2Proof.Machine
end

section
/-! PROOFS. Conversions between formats (14 R221; 03 R46, R52, R55). -/

namespace Sys2Proof.Machine

/-! ### Groups of another width (14 R212) -/

theorem Context.view_lmul_cases {c : Context} {v : VView} (h : c.view = some v) : v.lmul = 1 ∨ v.lmul = 2 ∨ v.lmul = 4 ∨ v.lmul = 8 := by
  unfold Context.view viewOf at h
  dsimp only at h
  split at h
  · split at h
    · cases h
    · cases h
      dsimp only
      split
      · exact .inr (.inr (.inr rfl))
      · have hlt : c.vec.vtype.toNat / 32 % 4 < 4 := Nat.mod_lt _ (by decide)
        interval_cases c.vec.vtype.toNat / 32 % 4 <;> decide
  · cases h

/-- A group of the width of FMT has LMUL registers. -/
theorem VView.emul_sew {c : Context} {v : VView} (h : c.view = some v) : v.emul v.sew = v.lmul := by
  have hw : 0 < v.sew := by
    unfold VView.sew
    rcases Fmt.sew_good v.fmt with h | h | h | h | h <;> omega
  rw [VView.emul]
  cases ht : v.tile
  · rw [if_neg Bool.false_ne_true, Nat.mul_div_cancel _ hw]
    rcases Context.view_lmul_cases h with h | h | h | h <;> rw [h] <;> rfl
  · rw [if_pos rfl, (Context.view_lmul h).2 ht]

/-- A group of LMUL registers holds no more elements of its width than the group of EMUL registers holds of the other. -/
theorem regs_le {l sew w : Nat} (hl : l = 1 ∨ l = 2 ∨ l = 4 ∨ l = 8) (hs : GoodWidth sew) (hw : GoodWidth w) :
    l * (256 / sew) ≤ max 1 (l * w / sew) * (256 / w) := by
  rcases hl with rfl | rfl | rfl | rfl <;> rcases hs with rfl | rfl | rfl | rfl | rfl <;> rcases hw with rfl | rfl | rfl | rfl | rfl <;>
    decide

/-- The elements of a group of any width lie in its EMUL registers. -/
theorem placeOf_emul {c : Context} {v : VView} (h : c.view = some v) {w : Nat} (hw : GoodWidth w)
    (ht : v.tile = true → w = v.sew) {e : Nat}
    (he : e < v.vlmax * v.per) : (placeOf v.tile v.g w e).1 < v.emul w := by
  cases htile : v.tile
  · have hs : GoodWidth v.sew := Fmt.sew_good v.fmt
    have hlanes : 0 < 8 * v.g := Nat.mul_pos (by decide) (VView.g_pos he)
    have hdiv : v.sew ∣ 256 := by rcases hs with h | h | h | h | h <;> rw [h] <;> decide
    have hslots : 0 < 256 / w := by rcases hw with h | h | h | h | h <;> rw [h] <;> decide
    rw [VView.per_element htile, Nat.mul_one, VView.vlmax, htile, if_neg Bool.false_ne_true, Nat.mul_div_assoc _ hdiv] at he
    rw [VView.emul, htile, placeOf, if_neg Bool.false_ne_true, if_neg Bool.false_ne_true]
    show e / (8 * v.g) / (256 / w) < _
    rw [Nat.div_div_eq_div_mul, Nat.div_lt_iff_lt_mul (Nat.mul_pos hlanes hslots)]
    calc e < v.lmul * 8 * v.g * (256 / v.sew) := he
      _ = v.lmul * (256 / v.sew) * (8 * v.g) := by ring
      _ ≤ max 1 (v.lmul * w / v.sew) * (256 / w) * (8 * v.g) := Nat.mul_le_mul_right _ (regs_le (Context.view_lmul_cases h) hs hw)
      _ = max 1 (v.lmul * w / v.sew) * (8 * v.g * (256 / w)) := by ring
  · rw [ht htile, ← htile, VView.emul_sew h]
    exact placeOf_group (VView.g_pos he) (Context.view_lmul h).2 he

/-! ### Raising flags after a write, and completing -/

/-- What the flags of a write and completing leave, of a context `c` whose registers of a group have been written. -/
theorem State.raise_done {s : State} {v : VView} (hv : s.Vec v) {c : Context}
    (hc : c = { s.me with
      vec := { s.me.vec with v := c.vec.v, sh := c.vec.sh }
      clock := { s.me.clock with vp := c.clock.vp }
      vpoison := c.vpoison
      shpoison := c.shpoison }) {d : VReg} {n : Nat}
    (hother : ∀ q : VReg, (∀ k, k < n → regAt d k ≠ q) → c.vec.v[q] = s.me.vec.v[q] ∧ c.vec.sh[q] = s.me.vec.sh[q])
    {hits : List (Nat × FlagSet)} (hlt : ∀ h ∈ hits, h.1 < v.vlmax * v.per) (st len : Nat) :
    let t : State := { s with me := ((c.raiseV false hits).setLdv d).vdone v st len }
    s.VecFrame t d n len ∧ t.me.vec.v = c.vec.v ∧ t.me.vec.sh = c.vec.sh ∧ s.FlagsJoin t (v.vbeg = 0) hits := by
  have hgroup : c.group = none := by
    rw [hc]
    exact hv.2.1
  have hraised : (c.raiseV false hits).group = none := hgroup
  have hloaded : ((c.raiseV false hits).setLdv d).group = none := by
    rw [Context.setLdv_none hraised]
    exact hraised
  have hclock : (((c.raiseV false hits).setLdv d).issueV v.slots st).clock.xp = s.me.clock.xp := by
    show ((c.raiseV false hits).setLdv d).clock.xp = _
    rw [Context.setLdv_none hraised]
    show c.clock.xp = _
    rw [hc]
  dsimp only
  rw [Context.vdone_none hloaded]
  generalize (((c.raiseV false hits).setLdv d).issueV v.slots st).clock = k at hclock ⊢
  rw [Context.setLdv_none hraised]
  refine ⟨⟨rfl, ?_, hother⟩, rfl, rfl, ?_⟩
  · show Context.mk .. = _
    rw [← hclock, Context.raiseV_rest]
    generalize (c.raiseV false hits).flags = f
    rw [hc]
  · have hflags : (c.raiseV false hits).flags = (s.me.raiseV false hits).flags := by rw [hc]; rfl
    have hbound := Context.view_bound hv.2.2.1
    refine State.raiseV_join hv.2.1 rfl false hits (fun h hmem => ?_) hflags ?_
    · have := hlt h hmem
      omega
    · rw [Context.view_vbeg hv.2.2.1, Bool.false_or, beq_iff_eq, ← BitVec.toNat_inj]
      rfl

/-! ### The write of a conversion -/

/-- The formats and registers of a conversion that VTYPE allows. -/
theorem Cvt.tof_sew {v : VView} {f : Fmt} {back cs : Bool} {d a : VReg} (hok : (cvtOf v f back cs).ok v d a = true)
    (ht : v.tile = true) : (cvtOf v f back cs).tof.sew = v.sew := by
  have hsew : (cvtOf v f back cs).frm.sew = (cvtOf v f back cs).tof.sew := by
    simp only [Cvt.ok, Bool.and_eq_true, Bool.not_eq_true', Bool.and_eq_false_iff, bne_eq_false_iff_eq, ht, Bool.true_eq_false, false_or]
      at hok
    exact hok.1.1.1.2
  cases back
  · exact hsew.symm
  · rfl

theorem Cvt.dst_le {k : Cvt} {v : VView} {d a : VReg} (hok : k.ok v d a = true) : k.dstRegs v ≤ 8 := by
  simp only [Cvt.ok, aligned, Bool.and_eq_true, decide_eq_true_eq] at hok
  exact hok.1.1.2.1

/-- A destination with blocks is the group of FMT. -/
theorem Cvt.desc_dst {c : Context} {v : VView} (h : c.view = some v) {f : Fmt} {back cs : Bool}
    (hdesc : ((cvtOf v f back cs).back || (cvtOf v f back cs).same) = true) :
    (cvtOf v f back cs).tof = v.fmt ∧ (cvtOf v f back cs).dstRegs v = v.lmul := by
  cases back
  · have hf : f = v.fmt := beq_iff_eq.mp hdesc
    subst hf
    exact ⟨rfl, VView.emul_sew h⟩
  · exact ⟨rfl, rfl⟩

theorem Cvt.place_lt {c : Context} {v : VView} (h : c.view = some v) {f : Fmt} {back cs : Bool} {d a : VReg}
    (hok : (cvtOf v f back cs).ok v d a = true) {e : Nat} (he : e < v.vlmax * v.per) :
    (placeOf v.tile v.g (cvtOf v f back cs).tof.sew e).1 < (cvtOf v f back cs).dstRegs v := by
  have hplace := placeOf_emul h (Fmt.sew_good (cvtOf v f back cs).tof) (Cvt.tof_sew hok) he
  cases back
  · exact hplace
  · rwa [show (cvtOf v f true cs).tof.sew = v.sew from rfl, VView.emul_sew h] at hplace

/-- The context with the cells and descriptors of a conversion written. -/
def Cvt.put (k : Cvt) (v : VView) (d : VReg) (cells : List (Nat × Nat)) (dsc : Nat → Option (BitVec 32)) (ready : Nat) (c : Context) :
    Context :=
  if k.back || k.same then c.putGroup v d cells dsc ready
  else c.putCells v.tile v.g d (k.dstRegs v) k.tof.sew cells ready

section Put
variable {c : Context} {v : VView} (hview : c.view = some v) {f : Fmt} {back cs : Bool} {d a : VReg}
  (hok : (cvtOf v f back cs).ok v d a = true) {cells : List (Nat × Nat)}
include hview

theorem Cvt.put_regs (dsc : Nat → Option (BitVec 32)) (ready : Nat) : ((cvtOf v f back cs).put v d cells dsc ready c).vec.v =
    (c.putCells v.tile v.g d ((cvtOf v f back cs).dstRegs v) (cvtOf v f back cs).tof.sew cells ready).vec.v := by
  unfold Cvt.put
  split
  · obtain ⟨htof, hdst⟩ := Cvt.desc_dst hview ‹_›
    rw [htof, hdst]
    exact (Context.putGroup_frame c v d cells dsc ready).2.1
  · rfl

include hok

/-- What the write of a conversion leaves. -/
theorem Cvt.put_frame (hcells : ∀ p ∈ cells, p.1 < v.vlmax * v.per) (dsc : Nat → Option (BitVec 32)) (ready : Nat) :
    let t := (cvtOf v f back cs).put v d cells dsc ready c
    t = { c with
      vec := { c.vec with v := t.vec.v, sh := t.vec.sh }
      clock := { c.clock with vp := t.clock.vp }
      vpoison := t.vpoison
      shpoison := t.shpoison } ∧
    ∀ q : VReg, (∀ k, k < (cvtOf v f back cs).dstRegs v → regAt d k ≠ q) → t.vec.v[q] = c.vec.v[q] ∧ t.vec.sh[q] = c.vec.sh[q] := by
  have hother : ∀ q : VReg, (∀ k, k < (cvtOf v f back cs).dstRegs v → regAt d k ≠ q) →
      ((cvtOf v f back cs).put v d cells dsc ready c).vec.v[q] = c.vec.v[q] := fun q hq => by
    rw [Cvt.put_regs hview]
    exact Context.putCells_other _ _ _ _ _ _ _ _ ((Cvt.dst_le hok).trans (by decide)) q hq
  by_cases hdesc : ((cvtOf v f back cs).back || (cvtOf v f back cs).same) = true
  · obtain ⟨-, hdst⟩ := Cvt.desc_dst hview hdesc
    have hput : (cvtOf v f back cs).put v d cells dsc ready c = c.putGroup v d cells dsc ready := if_pos hdesc
    obtain ⟨hframe, -, hsh⟩ := Context.putGroup_frame c v d cells dsc ready
    dsimp only at hother ⊢
    rw [hput] at hother ⊢
    refine ⟨hframe, fun q hq => ⟨hother q hq, hsh q fun b hb hbl heq => ?_⟩⟩
    obtain ⟨p, hp, rfl⟩ := mem_blocksOf _ _ _ hb
    have hplace := VView.desc_group (VView.g_pos (hcells p hp)) (Context.view_blocks hview hbl) (Context.view_lmul hview).2 (hcells p hp)
    exact hq _ (hdst ▸ hplace) heq.symm
  · have hput : (cvtOf v f back cs).put v d cells dsc ready c =
        c.putCells v.tile v.g d ((cvtOf v f back cs).dstRegs v) (cvtOf v f back cs).tof.sew cells ready := if_neg hdesc
    have hframe := Context.putCells_frame c v.tile v.g d ((cvtOf v f back cs).dstRegs v) (cvtOf v f back cs).tof.sew cells ready
    dsimp only at hother ⊢ hframe
    rw [hput] at hother ⊢
    refine ⟨?_, fun q hq => ⟨hother q hq, by rw [hframe]⟩⟩
    have hsh : (c.putCells v.tile v.g d ((cvtOf v f back cs).dstRegs v) (cvtOf v f back cs).tof.sew cells ready).vec.sh = c.vec.sh := by
      rw [hframe]
    rw [hsh]
    exact hframe

theorem Cvt.put_elem {val : Nat → Option Nat} (hcells : CellsGive (v.vlmax * v.per) cells val) (dsc : Nat → Option (BitVec 32))
    (ready : Nat)
    {e : Nat} (he : e < v.vlmax * v.per) :
    ((cvtOf v f back cs).put v d cells dsc ready c).vec.elem v d (cvtOf v f back cs).tof.sew e = match val e with
      | some x => x % 2 ^ (cvtOf v f back cs).tof.sew
      | none => c.vec.elem v d (cvtOf v f back cs).tof.sew e := by
  rw [VecRegs.elem_congr (Cvt.put_regs hview dsc ready), Context.putCells_elem c v d _ _ cells ready (VView.g_pos he)
      (Context.view_g hview)
    (Fmt.sew_good _) ((Cvt.dst_le hok).trans (by decide)) hcells.nodup e (Cvt.place_lt hview hok he), hcells.find e he]
  cases val e <;> rfl

end Put

/-! ### The results of a conversion -/

section Results
variable (k : Cvt) (v : VView) (r : VecRegs) (d a : VReg)

/-- What a source element denotes. -/
def Cvt.source (e : Nat) : Val := cvtSource k.frm v.rm (k.srcScale v r a e).1 (k.srcScale v r a e).2 (r.elem v a k.frm.sew e)

/-- A block with these active elements holds a value that is not finite. -/
def Cvt.nonFinite (es : List Nat) : Bool := (es.map (k.source v r a)).any Val.nonFinite

/-- The scale under which a block's elements are converted. -/
def Cvt.scaleOf (b : Nat) (es : List Nat) : Nat :=
  if k.cs then computedScale k.tof (es.map (k.source v r a)) else (r.desc v d b).toNat % 256

/-- The result of an element of a scaled block. -/
def Cvt.scaledElt (b : Nat) (es : List Nat) (e : Nat) : Nat × FlagSet :=
  if k.nonFinite v r a es then (0, flagNV)
  else cvtScaled k.frm k.tof v.rm v.sat (k.scaleOf v r d a b es) ((r.desc v d b).toNat / 256 % 256) (k.source v r a e)

/-- The result of an element by itself. -/
def Cvt.elt (e : Nat) : Nat × FlagSet :=
  if k.copy then sameElt k.tof (r.elem v a k.frm.sew e)
  else cvtElt k.frm k.tof v.rm v.sat (k.srcScale v r a e).1 (k.srcScale v r a e).2 (r.elem v a k.frm.sew e)

theorem Cvt.block_eq (b : Nat) (es : List Nat) : k.block v r d a b es = (es.map (fun e => (e, k.scaledElt v r d a b es e)),
    if k.nonFinite v r a es then some (r.desc v d b ||| 0xFF)
    else if k.cs then some ((r.desc v d b &&& 0xFFFFFF00) ||| BitVec.ofNat 32 (k.scaleOf v r d a b es)) else none) := by
  have hany : (es.map (fun e => (e, k.source v r a e))).any (fun p => p.2.nonFinite) = k.nonFinite v r a es := by
    rw [Cvt.nonFinite, List.any_map, List.any_map]
    rfl
  have hvals : (es.map (fun e => (e, k.source v r a e))).map (fun p => p.2) = es.map (k.source v r a) := by
    rw [List.map_map]
    rfl
  have hblock : k.block v r d a b es =
      if (es.map (fun e => (e, k.source v r a e))).any (fun p => p.2.nonFinite) then
        (es.map (fun e => (e, 0, flagNV)), some (r.desc v d b ||| 0xFF))
      else
        let sc := if k.cs then computedScale k.tof ((es.map (fun e => (e, k.source v r a e))).map (fun p => p.2)) else
          (r.desc v d b).toNat % 256
        ((es.map (fun e => (e, k.source v r a e))).map
          (fun p => (p.1, cvtScaled k.frm k.tof v.rm v.sat sc ((r.desc v d b).toNat / 256 % 256) p.2)),
        if k.cs then some ((r.desc v d b &&& 0xFFFFFF00) ||| BitVec.ofNat 32 sc) else none) := rfl
  rw [hblock, hany, hvals]
  unfold Cvt.scaledElt
  cases k.nonFinite v r a es
  · simp only [Bool.false_eq_true, if_false, List.map_map]
    rfl
  · rfl

/-- The active elements of a block. -/
def inBlock (bl : Nat) (es : List Nat) (b : Nat) : List Nat := es.filter (fun e => e / bl == b)

/-- The active elements, block by block. -/
def byBlock (bl : Nat) (es : List Nat) : List Nat := (blocksOf bl (es.map (fun e => (e, 0)))).flatMap (inBlock bl es)

theorem mem_inBlock {bl : Nat} {es : List Nat} {b e : Nat} : e ∈ inBlock bl es b ↔ e ∈ es ∧ e / bl = b := by
  simp [inBlock]

theorem mem_blocks {bl : Nat} {es : List Nat} {e : Nat} (he : e ∈ es) : e / bl ∈ blocksOf bl (es.map (fun e => (e, 0))) :=
  mem_blocksOf_iff.mpr ⟨(e, 0), List.mem_map_of_mem he, rfl⟩

theorem mem_byBlock {bl : Nat} {es : List Nat} {e : Nat} : e ∈ byBlock bl es ↔ e ∈ es := by
  simp only [byBlock, List.mem_flatMap, mem_inBlock]
  exact ⟨fun ⟨_, _, h, _⟩ => h, fun h => ⟨_, mem_blocks h, h, rfl⟩⟩

theorem nodup_byBlock {bl : Nat} {es : List Nat} (h : es.Nodup) : (byBlock bl es).Nodup := by
  refine List.nodup_flatMap.mpr ⟨fun b _ => h.filter _, (nodup_blocksOf bl _).imp fun hne => ?_⟩
  intro e he he'
  exact hne ((mem_inBlock.mp he).2.symm.trans (mem_inBlock.mp he').2)

/-- The results of a conversion whose blocks are not scaled. -/
theorem Cvt.run_plain (hscaled : k.scaled = false) (es : List Nat) : (k.run v r d a es).1 = es.map (fun e => (e, k.elt v r a e)) := by
  unfold Cvt.run Cvt.elt
  rw [hscaled]
  cases k.copy <;> rfl

/-- The descriptors that a copy gives. -/
theorem Cvt.run_copy (hcopy : k.copy = true) (hbl : v.bl ≠ 0) (es : List Nat) (b : Nat) : (k.run v r d a es).2 b = some
    (r.desc v a b) := by
  unfold Cvt.run
  rw [if_pos hcopy]
  exact if_neg hbl

/-- The results of a conversion that scales blocks, and the descriptors of the blocks. -/
theorem Cvt.run_scaled (hcopy : k.copy = false) (hscaled : k.scaled = true) (es : List Nat) :
    (k.run v r d a es).1 = (byBlock v.bl es).map (fun e => (e, k.scaledElt v r d a (e / v.bl) (inBlock v.bl es (e / v.bl)) e)) ∧
    ∀ e ∈ es, (k.run v r d a es).2 (e / v.bl) = (k.block v r d a (e / v.bl) (inBlock v.bl es (e / v.bl))).2 := by
  have hrun : k.run v r d a es = (((blocksOf v.bl (es.map (fun e => (e, 0)))).map
      (fun b => (b, k.block v r d a b (inBlock v.bl es b)))).flatMap
      (fun p => p.2.1), fun b => (((blocksOf v.bl (es.map (fun e => (e, 0)))).map
      (fun b => (b, k.block v r d a b (inBlock v.bl es b)))).find?
        (fun p => p.1 == b)).bind (fun p => p.2.2)) := by
    unfold Cvt.run
    rw [hcopy, hscaled]
    rfl
  rw [hrun]
  refine ⟨?_, fun e he => ?_⟩
  · rw [List.flatMap_map, byBlock, List.map_flatMap]
    refine List.flatMap_congr fun b _ => ?_
    rw [Cvt.block_eq]
    refine List.map_congr_left fun e he => ?_
    rw [(mem_inBlock.mp he).2]
  · dsimp only
    rw [find_map_key, if_pos (mem_blocks he)]
    rfl

end Results

/-! ### SCALE in a descriptor -/

/-- The low byte of a descriptor. -/
theorem low_byte {x y : Nat} (h : x % 2 ^ 16 = y % 2 ^ 16) : x % 256 = y % 256 := by omega

theorem toNat_low_byte (w : BitVec 32) : w.toNat % 256 = (w.setWidth 8).toNat := (BitVec.toNat_setWidth 8 w).symm

theorem or_ff_low (w : BitVec 32) : (w ||| 0xFF).toNat % 256 = 0xFF := by
  rw [toNat_low_byte, BitVec.setWidth_or, show (0xFF : BitVec 32).setWidth 8 = BitVec.allOnes 8 from rfl, BitVec.or_allOnes]
  rfl

theorem scale_low (w : BitVec 32) {sc : Nat} (h : sc < 256) : ((w &&& 0xFFFFFF00) ||| BitVec.ofNat 32 sc).toNat % 256 = sc := by
  rw [toNat_low_byte, BitVec.setWidth_or, BitVec.setWidth_and, show (0xFFFFFF00 : BitVec 32).setWidth 8 = 0#8 from rfl, BitVec.and_zero,
    BitVec.zero_or, BitVec.toNat_setWidth, BitVec.toNat_ofNat]
  omega

theorem computedScale_lt (f : Fmt) (l : List Val) : computedScale f l < 256 := by
  unfold computedScale
  split
  · decide
  · omega

/-! ### The obligation -/

/-- Cells for the active elements in any order. -/
theorem VView.fills_of_list {v : VView} {r : VecRegs} {m : MReg} {from0 : Bool} {l : List Nat} (hnodup : l.Nodup)
    (hmem : ∀ e, e ∈ l ↔ e ∈ v.elems (v.active none r m from0)) (g : Nat → Nat) :
    v.Fills r m from0 (l.map (fun e => (e, g e))) (fun e => some (g e)) := by
  refine ⟨?_, fun e => ?_⟩
  · rwa [List.map_map, show (fun p : Nat × Nat => p.1) ∘ (fun e => (e, g e)) = id from rfl, List.map_id]
  · rw [find_map_key]
    simp only [hmem, VView.mem_elems, Option.map_some]

/-- A conversion that is allowed runs. -/
theorem vfcvt_run {s : State} {back cs : Bool} {code : BitVec 5} {f : Fmt} {d a : VReg} {m : MReg} {st : Stall} {v : VView}
    (hcode : Fmt.ofCode code.toNat = some f) (hv : s.Vec v) (hok : (cvtOf v f back cs).ok v d a = true)
    (hr : v.elems (v.active none s.me.vregs m false) ≠ [] → s.ReadyV v (⟨a, (cvtOf v f back cs).srcRegs v, (cvtOf v f back cs).frm.sew⟩ ::
      (if (cvtOf v f back cs).scaled then [⟨d, (cvtOf v f back cs).dstRegs v, (cvtOf v f back cs).tof.sew⟩] else [])) [m] ∧
        s.guarding d ((cvtOf v f back cs).dstRegs v) = none) :
    exec (if back then .vfcvtFrom cs code d a m st else .vfcvtTo cs code d a m st) s =
      .next (s.modMe ((cvtOf v f back cs).finish v s.me.vregs d a m 6 st.val)) := by
  have hexec : exec (if back then .vfcvtFrom cs code d a m st else .vfcvtTo cs code d a m st) s = vfcvt back cs code d a m st s := by
    cases back <;> rfl
  rw [hexec, vfcvt, hcode]
  refine vector_ready hv true hok _ _ _ _ _ (fun hact => ?_) _
  rw [hv.2.1] at hact
  have hactive : v.active none s.me.vregs m false ≠ [] := fun h => by
    rw [h] at hact
    cases hact
  obtain ⟨u, hu⟩ := List.exists_mem_of_ne_nil _ hactive
  have hne : v.elems (v.active none s.me.vregs m false) ≠ [] := List.ne_nil_of_mem (a := u * v.per)
    ((v.mem_elems _ _).mpr (by rwa [Nat.mul_div_cancel _ v.per_pos]))
  obtain ⟨hsrc, hguard⟩ := hr hne
  exact ⟨readyX_nil s, hsrc, fun p hp => by rw [← Option.some.inj hp]; exact hguard⟩

/-- What a conversion leaves, from its results. -/
theorem Cvt.finish_spec {s : State} {back cs : Bool} {f : Fmt} {d a : VReg} {m : MReg} {v : VView} (hv : s.Vec v)
    (hok : (cvtOf v f back cs).ok v d a = true) {l : List Nat} (hnodup : l.Nodup)
    (hmem : ∀ e, e ∈ l ↔ e ∈ v.elems (v.active none s.me.vregs m false)) {g : Nat → Nat × FlagSet}
    (hrun : ((cvtOf v f back cs).run v s.me.vregs d a (v.elems (v.active none s.me.vregs m false))).1 = l.map (fun e => (e, g e)))
    (lat st : Nat) :
    let t := s.modMe ((cvtOf v f back cs).finish v s.me.vregs d a m lat st)
    s.VecFrame t d ((cvtOf v f back cs).dstRegs v) 4 ∧
      s.Elements t v d (cvtOf v f back cs).tof.sew (fun e => v.outcome s.me.vregs m false e (some (g e).1)) ∧
      s.FlagsJoin t (v.vbeg = 0) (l.map (fun e => (e, (g e).2))) ∧
      (((cvtOf v f back cs).back || (cvtOf v f back cs).same) = true → v.bl ≠ 0 →
        ∀ e, e < v.vlmax * v.per → v.outcome s.me.vregs m false e (some 0) ≠ none →
        (t.me.vec.desc v d (e / v.bl)).toNat % 2 ^ 16 =
          ((((cvtOf v f back cs).run v s.me.vregs d a (v.elems (v.active none s.me.vregs m false))).2 (e / v.bl)).getD
            (s.me.vec.desc v d (e / v.bl))).toNat % 2 ^ 16) := by
  generalize hq : (cvtOf v f back cs).run v s.me.vregs d a (v.elems (v.active none s.me.vregs m false)) = q at hrun ⊢
  have hgive := (VView.fills_of_list hnodup hmem (fun e => (g e).1)).give hv.2.2.2
  generalize hcells : l.map (fun e => (e, (g e).1)) ++ (v.zeroed none s.me.vregs m false true true).map (fun e => (e, 0)) = cells at hgive
  have hview := hv.2.2.1
  obtain ⟨hput, hother⟩ := Cvt.put_frame (d := d) hview hok hgive.lt q.2 (s.me.readyAt v lat)
  have hlt : ∀ h ∈ l.map (fun e => (e, (g e).2)), h.1 < v.vlmax * v.per := fun h hh => by
    obtain ⟨e, he, rfl⟩ := List.mem_map.mp hh
    exact VView.active_lt hv.2.2.2 ((v.mem_elems _ _).mp ((hmem e).mp he))
  have hfinish : (cvtOf v f back cs).finish v s.me.vregs d a m lat st s.me =
      (((((cvtOf v f back cs).put v d cells q.2 (s.me.readyAt v lat) s.me).raiseV false (l.map (fun e => (e, (g e).2)))).setLdv d).vdone
        v st 4) := by
    unfold Cvt.finish
    rw [hv.2.1, hq]
    dsimp only
    rw [hrun, List.map_map, List.map_map, ← hcells]
    rfl
  obtain ⟨hframe, hregs, hsh, hflags⟩ := State.raise_done hv hput hother hlt st 4
  dsimp only [State.modMe]
  rw [hfinish]
  refine ⟨hframe, fun e he => ?_, hflags, fun hdesc hbl e he hout => ?_⟩
  · rw [VecRegs.elem_congr hregs]
    exact Cvt.put_elem hview hok hgive q.2 _ he
  · rw [VecRegs.desc_congr hsh, Cvt.put, if_pos hdesc]
    refine Context.putGroup_desc hview hbl rfl hgive.lt q.2 _ (hgive.mem he (VView.outcome_ne_none hv.2.2.2 _ _ _ he hout _))

/-- A copy is of equal formats; a conversion that scales blocks writes FMT and copies nothing. -/
theorem Cvt.same_of_copy {v : VView} {f : Fmt} {back cs : Bool} (h : (cvtOf v f back cs).copy = true) :
    (cvtOf v f back cs).same = true := (Bool.and_eq_true_iff.mp h).1

theorem Cvt.of_scaled {v : VView} {f : Fmt} {back cs : Bool} (h : (cvtOf v f back cs).scaled = true) :
    (cvtOf v f back cs).copy = false ∧ v.bl ≠ 0 ∧ ((cvtOf v f back cs).back || (cvtOf v f back cs).same) = true := by
  simp only [cvtOf, Bool.and_eq_true, bne_iff_ne] at h ⊢
  obtain ⟨⟨hbl, hdesc⟩, hcopy⟩ := h
  have hbl' : (v.bl != 0) = true := bne_iff_ne.mpr hbl
  refine ⟨?_, hbl, hdesc⟩
  rw [hbl', Bool.true_and]
  exact Bool.not_eq_eq_eq_not.mp hcopy

/-- Settles O28: a conversion writes the results of its elements, or block by block those under the block's scale, and the
descriptors of the blocks. -/
theorem conversions : Obligations.Conversions := by
  unfold Obligations.Conversions
  intro s back cs code f d a m st v k r es hcode hv hok hr
  have hnodup : es.Nodup := v.nodup_elems ((v.nodup_body none false).filter _)
  refine ⟨_, vfcvt_run hcode hv hok hr, ?_⟩
  cases hscaled : k.scaled
  · obtain ⟨hframe, helem, hflags, hdesc⟩ := Cvt.finish_spec hv hok hnodup (fun _ => Iff.rfl)
      (Cvt.run_plain k v r d a hscaled es) 6 st.val
    refine ⟨hframe, fun _ => ⟨helem, hflags⟩, fun hbl hcopy e he hout => ?_, fun _ h => absurd h Bool.false_ne_true⟩
    rw [hdesc (by rw [Cvt.same_of_copy hcopy, Bool.or_true]) hbl e he hout, Cvt.run_copy _ v r d a hcopy hbl es]
    rfl
  · obtain ⟨hcopy, hbl, hfmt⟩ := Cvt.of_scaled hscaled
    obtain ⟨hrun, hblocks⟩ := Cvt.run_scaled k v r d a hcopy hscaled es
    obtain ⟨hframe, helem, hflags, hdesc⟩ := Cvt.finish_spec hv hok (nodup_byBlock hnodup) (fun _ => mem_byBlock) hrun 6 st.val
    refine ⟨hframe, fun h => absurd h (by simp [hbl]), fun _ h => absurd (hcopy.symm.trans h) Bool.false_ne_true, fun _ _ e he => ?_⟩
    have hact : e / v.per ∈ v.active none r m false := (v.mem_elems _ e).mp he
    have hlt := VView.active_lt hv.2.2.2 hact
    have hout : ∀ x, v.outcome r m false e (some x) = some x := fun x => by rw [VView.outcome_eq hv.2.2.2 r m false hlt, if_pos hact]
    have hval := helem e hlt
    have hscale := low_byte (hdesc hfmt hbl e hlt (by rw [hout]; exact Option.some_ne_none 0))
    have hblock := Cvt.block_eq k v r d a (e / v.bl) (inBlock v.bl es (e / v.bl))
    rw [show (cvtOf v f back cs).run v s.me.vregs d a (v.elems (v.active none s.me.vregs m false)) = k.run v r d a es from rfl,
        hblocks e he,
      hblock] at hscale
    dsimp only at hval hscale
    rw [hout] at hval
    show (k.nonFinite v r a (inBlock v.bl es (e / v.bl)) = true → _ ∧ _) ∧ (k.nonFinite v r a (inBlock v.bl es (e / v.bl)) = false → _)
    refine ⟨fun hnf => ⟨?_, ?_⟩, fun hfin => ⟨?_, fun hcs => ?_⟩⟩
    · rw [hval, Cvt.scaledElt, if_pos hnf]
      exact Nat.zero_mod _
    · rw [hscale, if_pos hnf]
      exact or_ff_low _
    · rw [hval, Cvt.scaledElt, if_neg (Bool.not_eq_true _ ▸ hfin)]
      rfl
    · have hkcs : k.cs = true := hcs
      rw [hscale, if_neg (Bool.not_eq_true _ ▸ hfin), if_pos hkcs]
      have hsc : k.scaleOf v r d a (e / v.bl) (inBlock v.bl es (e / v.bl)) < 256 := by
        rw [Cvt.scaleOf, if_pos hkcs]
        exact computedScale_lt _ _
      exact scale_low _ hsc

end Sys2Proof.Machine
end

section
/-! PROOFS. What a lane-group change leaves of a thread's vector state (02 R27; 05 R76). -/

namespace Sys2Proof.Machine

/-! ### Views of a VTYPE and a number of lane groups -/

/-- The fields of a view that the number of lane groups and BL give. -/
theorem viewOf_fields {w : BitVec 32} {g : Nat} {v : VView} (h : viewOf w g 0 0 = some v) :
    v.g = g ∧ Fmt.ofCode (w.toNat % 32) = some v.fmt ∧ v.bl = blOf (w.toNat / 256 % 4) := by
  unfold viewOf at h
  dsimp only at h
  split at h
  · split at h
    · cases h
    · cases h
      exact ⟨rfl, ‹_›, rfl⟩
  · cases h

/-- A context whose view is this one. -/
theorem exists_view {w : BitVec 32} {gs : BitVec 8} {v : VView} (h : viewOf w (groupCount gs) 0 0 = some v) (c : Context) :
    ∃ c' : Context, c'.view = some v :=
  ⟨{ c with groups := gs, vec := { c.vec with vtype := w, vl := 0, vbeg := 0 } }, h⟩

/-- VLMAX is whole blocks (05 R76). -/
theorem VView.blocks_dvd {v : VView} (hb : v.bl = 16 ∨ v.bl = 32) : v.bl ∣ v.vlmax * v.per := by
  have hs : GoodWidth v.sew := Fmt.sew_good v.fmt
  have hdvd : v.bl ∣ 32 := by
    rcases hb with h | h
    · rw [h]
      decide
    · rw [h]
  refine hdvd.trans ?_
  cases ht : v.tile
  · have hdiv : v.sew ∣ 256 := by rcases hs with h | h | h | h | h <;> rw [h] <;> decide
    have hrow : 32 ∣ 8 * (256 / v.sew) := by rcases hs with h | h | h | h | h <;> rw [h] <;> decide
    rw [VView.per_element ht, Nat.mul_one, VView.vlmax, ht, if_neg Bool.false_ne_true, Nat.mul_div_assoc _ hdiv]
    exact hrow.trans ⟨v.lmul * v.g, by ring⟩
  · rw [VView.vlmax, ht, if_pos rfl]
    exact ⟨v.g * v.per, by ring⟩

/-! ### Registers -/

/-- A register of an aligned group names the group and its place in it. -/
theorem regAt_aligned {r : VReg} {n k : Nat} (hn : n = 1 ∨ n = 2 ∨ n = 4 ∨ n = 8) (hr : aligned r n = true) (hk : k < n) :
    (⟨(regAt r k).val / n * n % 32, Nat.mod_lt _ (by decide)⟩ : VReg) = r ∧ (regAt r k).val % n = k := by
  have hmod : r.val % n = 0 := by
    simp only [aligned, Bool.and_eq_true, beq_iff_eq] at hr
    exact hr.2
  have hlt := r.isLt
  rcases hn with rfl | rfl | rfl | rfl
  all_goals
    simp only [regAt]
    exact ⟨Fin.ext (show (r.val + k) % 32 / _ * _ % 32 = r.val by omega), by omega⟩

/-- Every register lies in an aligned group. -/
theorem exists_regAt {n : Nat} (hn : n = 1 ∨ n = 2 ∨ n = 4 ∨ n = 8) (q : VReg) :
    ∃ (r : VReg) (k : Nat), aligned r n = true ∧ k < n ∧ q = regAt r k := by
  have hlt := q.isLt
  refine ⟨⟨q.val / n * n, ?_⟩, q.val % n, ?_, Nat.mod_lt _ (by omega), Fin.ext ?_⟩
  · have := Nat.div_mul_le_self q.val n
    omega
  · simp only [aligned, Nat.mul_mod_left, beq_self_eq_true, Bool.and_true, decide_eq_true_eq]
    omega
  · show q.val = (q.val / n * n + q.val % n) % 32
    rw [Nat.div_add_mod', Nat.mod_eq_of_lt hlt]

/-- The elements of a list of cells, one for each number below a limit, read back. -/
theorem cellsIn_elem (tile : Bool) {g w : Nat} (hg : 0 < g) (hg8 : g ≤ 8) (hw : GoodWidth w) (n : Nat) {x : Nat → Nat}
    (hx : ∀ e, x e < 2 ^ w)
    (e : Nat) : bitsAt (BitVec.ofNat 16384 (cellsIn tile g w (placeOf tile g w e).1 ((List.range n).map (fun e => (e, x e)))).2)
      (placeOf tile g w e).2 w = if e < n then x e else 0 := by
  obtain ⟨hlane, hreg⟩ := placeOf_lane tile hg hw e
  refine Nat.eq_of_testBit_eq fun i => ?_
  rw [bitsAt_testBit, BitVec.getLsbD_ofNat, (cellsIn_testBit ..).2]
  by_cases hi : i < w
  · rw [decide_eq_true hi, decide_eq_true (show (placeOf tile g w e).2 + i < 16384 by omega), Bool.true_and, Bool.true_and,
      Bool.eq_iff_iff,
      List.any_map, List.any_eq_true]
    simp only [Function.comp_apply, Bool.and_eq_true, beq_iff_eq, decide_eq_true_eq, List.mem_range]
    constructor
    · rintro ⟨f, hf, ⟨⟨hplace, hlo⟩, hhi⟩, hbit⟩
      obtain rfl := placeOf_inj tile hg hw hplace.symm ⟨Nat.le_add_right _ i, Nat.add_lt_add_left hi _⟩ ⟨hlo, hhi⟩
      rwa [Nat.add_sub_cancel_left, ← if_pos (c := e < n) (t := x e) (e := 0) hf] at hbit
    · intro hbit
      split at hbit
      · exact ⟨e, ‹_›, ⟨⟨rfl, Nat.le_add_right _ i⟩, Nat.add_lt_add_left hi _⟩, by rwa [Nat.add_sub_cancel_left]⟩
      · simp at hbit
  · rw [decide_eq_false hi, Bool.false_and]
    refine (Nat.testBit_lt_two_pow ?_).symm
    have hpow := Nat.pow_le_pow_right (show 0 < 2 by decide) (Nat.le_of_not_lt hi)
    split
    · exact (hx e).trans_le hpow
    · exact Nat.two_pow_pos i

/-! ### Shadows (05 R76) -/

/-- The bits of the reset value of a shadow: every entry holds SCALE 0x7F and X 0x80. -/
theorem shadowReset_getLsbD {j i : Nat} (hj : j < 256) (hi : i < 32) : shadowReset.getLsbD (32 * j + i) = (0x807F#32).getLsbD i := by
  have h : bitsAt shadowReset (32 * j) 32 = bitsAt 0x807F#32 0 32 :=
    bitsAt_ofNat_mul_div (w := 32) (n := 256) (lo := 0) 0x807F#32 rfl (by decide) rfl hj (Nat.le_refl 32)
  have hbit := congrArg (fun x => x.testBit i) h
  rw [bitsAt_testBit, bitsAt_testBit, decide_eq_true hi, Bool.true_and, Bool.true_and, Nat.zero_add] at hbit
  exact hbit

/-- Whether a bit of an entry lies below a number of entries. -/
theorem entries_getLsbD {n j i : Nat} (hj : j < 256) (hi : i < 32) :
    (BitVec.ofNat 8192 (2 ^ (32 * min n 256) - 1)).getLsbD (32 * j + i) = decide (j < n) := by
  rw [BitVec.getLsbD_ofNat, Nat.testBit_two_pow_sub_one, decide_eq_true (show 32 * j + i < 8192 by omega), Bool.true_and,
      decide_eq_decide]
  omega

theorem shadowKeep_getLsbD (w : BitVec 8192) (lo hi : Nat) {j i : Nat} (hj : j < 256) (hi' : i < 32) :
    (shadowKeep w lo hi).getLsbD (32 * j + i) = if lo ≤ j ∧ j < hi then w.getLsbD (32 * j + i) else (0x807F#32).getLsbD i := by
  have hin : 32 * j + i < 8192 := by omega
  rw [shadowKeep]
  simp only [BitVec.getLsbD_or, BitVec.getLsbD_and, BitVec.getLsbD_not, entries_getLsbD hj hi', shadowReset_getLsbD hj hi', hin]
  by_cases h : lo ≤ j ∧ j < hi
  · rw [if_pos h]
    simp [h.2, Nat.not_lt.mpr h.1]
  · rw [if_neg h]
    by_cases hlt : j < hi
    · simp [hlt, show j < lo by omega]
    · simp [hlt]

section Descriptors
variable {place : Nat → Nat × Nat} (hplace : ∀ b b', place b = place b' → b = b') (desc : Nat → BitVec 32) (k : Nat)

/-- One descriptor moves to its place, if it is in this register. -/
def moveDescTo (place : Nat → Nat × Nat) (desc : Nat → BitVec 32) (k : Nat) (acc : BitVec 8192) (b : Nat) : BitVec 8192 :=
  if (place b).1 = k then
    (acc &&& ~~~(BitVec.ofNat 8192 (2 ^ 32 - 1) <<< (32 * (place b).2))) ||| ((desc b).setWidth 8192 <<< (32 * (place b).2))
  else acc

include hplace

/-- The bits of an entry after the descriptors of a list of blocks have moved. -/
theorem moveDescs_getLsbD {b : Nat} (hk : (place b).1 = k) (hb : (place b).2 < 256) {i : Nat} (hi : i < 32) (l : List Nat) :
    ∀ acc : BitVec 8192, (l.foldl (moveDescTo place desc k) acc).getLsbD (32 * (place b).2 + i) =
      if b ∈ l then (desc b).getLsbD i else acc.getLsbD (32 * (place b).2 + i) := by
  have hstep : ∀ (acc : BitVec 8192) (b' : Nat), (moveDescTo place desc k acc b').getLsbD (32 * (place b).2 + i) =
      if b = b' then (desc b).getLsbD i else acc.getLsbD (32 * (place b).2 + i) := fun acc b' => by
    unfold moveDescTo
    by_cases hreg : (place b').1 = k
    · have hsame : (place b).2 = (place b').2 ↔ b = b' :=
        ⟨fun h => hplace b b' (Prod.ext (hk.trans hreg.symm) h), fun h => by rw [h]⟩
      have hone : (2 ^ 32 - 1).testBit i = true := by
        rw [Nat.testBit_two_pow_sub_one]
        exact decide_eq_true hi
      rw [if_pos hreg, ← BitVec.ofNat_toNat]
      simp only [BitVec.getLsbD_or, BitVec.getLsbD_and, BitVec.getLsbD_not, entry_getLsbD (show 2 ^ 32 - 1 < 2 ^ 32 by decide) hb hi,
        entry_getLsbD (desc b').isLt hb hi, hsame, hone, decide_eq_true (show 32 * (place b).2 + i < 8192 by omega)]
      by_cases hbb : b = b'
      · subst hbb
        simp [BitVec.getLsbD]
      · simp [hbb]
    · rw [if_neg hreg, if_neg fun h : b = b' => hreg (by rw [← h]; exact hk)]
  induction l with
  | nil => exact fun acc => by simp
  | cons b' l ih =>
    intro acc
    rw [List.foldl_cons, ih, hstep]
    by_cases hmem : b ∈ l
    · simp [hmem]
    · by_cases hbb : b = b' <;> simp [hmem, hbb]

end Descriptors

/-! ### Migration (02 R27) -/

section Migrate
variable {c : Context} {w : BitVec 32} {v : VView} {g : Nat}

/-- The view of a migrated group. -/
def VView.under (v : VView) (g : Nat) : VView := { v with g := g }

/-- The units that a migration keeps. -/
def VView.kept (v : VView) (g : Nat) : Nat := min v.vlmax (v.under g).vlmax

section Blocks
variable (hb : v.bl = 16 ∨ v.bl = 32)
include hb

/-- A block is kept when its first element is. -/
theorem kept_block (b : Nat) : b < v.kept g * v.per / v.bl ↔ b * v.bl < v.kept g * v.per := by
  have hdvd : v.bl ∣ v.kept g * v.per := by
    rcases min_choice v.vlmax (v.under g).vlmax with h | h
    · rw [VView.kept, h]
      exact VView.blocks_dvd hb
    · rw [VView.kept, h]
      exact VView.blocks_dvd (v := v.under g) hb
  exact Nat.lt_div_iff_mul_lt_of_dvd (by omega) hdvd

/-- The entry of a block counts among those that hold descriptors. -/
theorem descPlace_lt_count (hg : 0 < v.g) (hsew : v.sew ≤ 8) (b : Nat) :
    (descPlace v.tile v.g v.sew v.bl b).2 < v.descCount (descPlace v.tile v.g v.sew v.bl b).1 := by
  have hs : v.sew = 4 ∨ v.sew = 8 := by
    have hgood : GoodWidth v.sew := Fmt.sew_good v.fmt
    unfold GoodWidth at hgood
    omega
  have hbl : v.bl ≠ 0 := by omega
  rw [descPlace, VView.descCount, if_neg hbl, if_neg hbl]
  cases ht : v.tile
  · have hpos : 0 < 8 * v.g * 256 / v.sew / v.bl := by
      rcases hs with h | h <;> rcases hb with h' | h' <;> rw [h, h'] <;> omega
    exact Nat.mod_lt _ hpos
  · have hrow : 0 < 512 / v.sew / v.bl ∧ 512 / v.sew / v.bl ≤ 8 := by
      rcases hs with h | h <;> rcases hb with h' | h' <;> rw [h, h'] <;> decide
    simp only [if_true]
    generalize 512 / v.sew / v.bl = n at *
    generalize v.g = g at *
    have hlt := Nat.mod_lt b (Nat.mul_pos (show 0 < 8 * g by omega) hrow.1)
    generalize b % (8 * g * n) = x at *
    have hhalf : x / (32 * g) < 2 := by
      rw [Nat.div_lt_iff_lt_mul (by omega)]
      have : 8 * g * n ≤ 2 * (32 * g) := by nlinarith
      omega
    have hx := Nat.div_add_mod x (32 * g)
    have hentry := Nat.mod_lt x (show 0 < 32 * g by omega)
    generalize x / (32 * g) = q at *
    generalize b / (8 * g * n) = t at *
    generalize x % (32 * g) = j at *
    have hcase : q = 0 ∨ q = 1 := by omega
    rcases hcase with rfl | rfl
    · rw [if_pos (by omega)]
      omega
    · rw [if_neg (by omega)]
      omega

end Blocks

/-- What a migration changes at most of the vector registers. -/
theorem migrate_vec : (c.migrate g).vec = { c.vec with
    v := (c.migrate g).vec.v
    sh := (c.migrate g).vec.sh
    m := (c.migrate g).vec.m
    gsv := (c.migrate g).vec.gsv } := rfl

variable (hold : migrationView c.vec.vtype (groupCount c.groups) = v)
include hold

theorem migrate_reg (hl : v.lmul = 1 ∨ v.lmul = 2 ∨ v.lmul = 4 ∨ v.lmul = 8) {r : VReg} (hr : aligned r v.lmul = true) {k : Nat}
    (hk : k < v.lmul) : (c.migrate g).vec.v[regAt r k] = migrateReg v (v.under g) (v.kept g) c.vec r k := by
  obtain ⟨hbase, hplace⟩ := regAt_aligned hl hr hk
  subst hold
  have hreg : (c.migrate g).vec.v[regAt r k] = migrateReg (migrationView c.vec.vtype (groupCount c.groups)) _ _ c.vec
    ⟨(regAt r k).val / _ * _ % 32, Nat.mod_lt _ (by decide)⟩ ((regAt r k).val % _) := Vector.getElem_ofFn ..
  rw [hreg, hbase, hplace]
  rfl

theorem migrate_shadow (hl : v.lmul = 1 ∨ v.lmul = 2 ∨ v.lmul = 4 ∨ v.lmul = 8) {r : VReg} (hr : aligned r v.lmul = true) {k : Nat}
    (hk : k < v.lmul) : (c.migrate g).vec.sh[regAt r k] = migrateShadow v (v.under g) (v.kept g) c.vec r k := by
  obtain ⟨hbase, hplace⟩ := regAt_aligned hl hr hk
  subst hold
  have hreg : (c.migrate g).vec.sh[regAt r k] = migrateShadow (migrationView c.vec.vtype (groupCount c.groups)) _ _ c.vec
    ⟨(regAt r k).val / _ * _ % 32, Nat.mod_lt _ (by decide)⟩ ((regAt r k).val % _) := Vector.getElem_ofFn ..
  rw [hreg, hbase, hplace]
  rfl

/-- What a migration leaves in an element of a group. -/
theorem migrate_elem (hl : v.lmul = 1 ∨ v.lmul = 2 ∨ v.lmul = 4 ∨ v.lmul = 8) (htile : v.tile = true → v.lmul = 8) (hg8 : g ≤ 8)
    {r : VReg} (hr : aligned r v.lmul = true) {e : Nat} (he : e < (v.under g).vlmax * v.per) :
    (c.migrate g).vec.elem (v.under g) r v.sew e = if e / v.per < v.kept g then c.vec.elem v r v.sew e else 0 := by
  have hg : 0 < (v.under g).g := VView.g_pos (v := v.under g) he
  have hplace : (placeOf v.tile g v.sew e).1 < v.lmul := placeOf_group (v := v.under g) hg htile he
  have hcells := cellsIn_elem v.tile hg hg8 (Fmt.sew_good v.fmt) (v.kept g * v.per) (x := c.vec.elem v r v.sew)
    (fun e => c.vec.elem_lt v r v.sew e) e
  show bitsAt ((c.migrate g).vec.v[regAt r (placeOf v.tile g v.sew e).1]) (placeOf v.tile g v.sew e).2 v.sew = _
  rw [migrate_reg hold hl hr hplace]
  refine hcells.trans (if_congr (Nat.div_lt_iff_lt_mul v.per_pos).symm rfl rfl)

/-- What a migration leaves in the descriptor of a block. -/
theorem migrate_desc (hl : v.lmul = 1 ∨ v.lmul = 2 ∨ v.lmul = 4 ∨ v.lmul = 8) (htile : v.tile = true → v.lmul = 8) (hg8 : g ≤ 8)
    (hb : v.bl = 16 ∨ v.bl = 32) (hsew : v.sew ≤ 8) {r : VReg} (hr : aligned r v.lmul = true) {b : Nat}
    (hlt : b * v.bl < (v.under g).vlmax * v.per) :
    (c.migrate g).vec.desc (v.under g) r b = if b * v.bl < v.kept g * v.per then c.vec.desc v r b else 0x0000807F := by
  have hbl : v.bl ≠ 0 := by omega
  have hg : 0 < (v.under g).g := VView.g_pos (v := v.under g) hlt
  have hreg : (descPlace v.tile g v.sew v.bl b).1 < v.lmul := by
    have h := VView.desc_group (v := v.under g) hg hb htile hlt
    rwa [show b * v.bl / (v.under g).bl = b from Nat.mul_div_cancel b (Nat.pos_of_ne_zero hbl)] at h
  have hentry : (descPlace v.tile g v.sew v.bl b).2 < 256 := descPlace_entry v.tile hg hg8 (Fmt.sew_good v.fmt) hb b
  have hcount := descPlace_lt_count (v := v.under g) hb hg hsew b
  refine BitVec.eq_of_getLsbD_eq fun i hi => ?_
  have hmoved := moveDescs_getLsbD (place := descPlace v.tile g v.sew v.bl) (fun _ _ => descPlace_inj v.tile hg (Fmt.sew_good v.fmt) hb)
    (c.vec.desc v r) _ (b := b) rfl hentry hi (List.range (v.kept g * v.per / v.bl))
    (shadowKeep c.vec.sh[regAt r (descPlace v.tile g v.sew v.bl b).1]
      (max (v.descCount (descPlace v.tile g v.sew v.bl b).1) ((v.under g).descCount (descPlace v.tile g v.sew v.bl b).1))
      (32 * min v.g g))
  have hshadow : (c.migrate g).vec.sh[regAt r (descPlace v.tile g v.sew v.bl b).1] = (List.range (v.kept g * v.per / v.bl)).foldl
      (moveDescTo (descPlace v.tile g v.sew v.bl) (c.vec.desc v r) (descPlace v.tile g v.sew v.bl b).1)
      (shadowKeep c.vec.sh[regAt r (descPlace v.tile g v.sew v.bl b).1]
        (max (v.descCount (descPlace v.tile g v.sew v.bl b).1) ((v.under g).descCount (descPlace v.tile g v.sew v.bl b).1))
        (32 * min v.g g)) := by
    rw [migrate_shadow hold hl hr hreg, migrateShadow]
    exact if_neg hbl
  have hfresh : ¬(max (v.descCount (descPlace v.tile g v.sew v.bl b).1) ((v.under g).descCount (descPlace v.tile g v.sew v.bl b).1) ≤
      (descPlace v.tile g v.sew v.bl b).2 ∧ (descPlace v.tile g v.sew v.bl b).2 < 32 * min v.g g) := fun h =>
    absurd (hcount.trans_le (Nat.le_max_right ..)) (Nat.not_lt.mpr h.1)
  rw [VecRegs.desc_getLsbD _ _ _ _ _ hi]
  show ((c.migrate g).vec.sh[regAt r (descPlace v.tile g v.sew v.bl b).1]).getLsbD (32 * (descPlace v.tile g v.sew v.bl b).2 + i) = _
  rw [hshadow, hmoved, shadowKeep_getLsbD _ _ _ hentry hi, if_neg hfresh]
  simp only [List.mem_range, kept_block hb]
  split <;> rfl

/-- What a migration leaves of a shadow without blocks. -/
theorem migrate_entries (hl : v.lmul = 1 ∨ v.lmul = 2 ∨ v.lmul = 4 ∨ v.lmul = 8) (hbl : v.bl = 0) (q : VReg) {e : Nat} (he : e < 256) :
    ((c.migrate g).vec.sh[q]).extractLsb' (32 * e) 32 =
      if e < 32 * min v.g g then (c.vec.sh[q]).extractLsb' (32 * e) 32 else 0x0000807F := by
  obtain ⟨r, k, hr, hk, rfl⟩ := exists_regAt hl q
  have hshadow : (c.migrate g).vec.sh[regAt r k] = shadowKeep c.vec.sh[regAt r k] 0 (32 * min v.g g) := by
    have hcount : v.descCount k = 0 ∧ (v.under g).descCount k = 0 := ⟨if_pos hbl, if_pos hbl⟩
    rw [migrate_shadow hold hl hr hk, migrateShadow, hcount.1, hcount.2]
    exact if_pos hbl
  refine BitVec.eq_of_getLsbD_eq fun i hi => ?_
  rw [BitVec.getLsbD_extractLsb', decide_eq_true hi, Bool.true_and, hshadow, shadowKeep_getLsbD _ _ _ he hi]
  by_cases h : e < 32 * min v.g g
  · rw [if_pos h, if_pos ⟨Nat.zero_le e, h⟩, BitVec.getLsbD_extractLsb', decide_eq_true hi, Bool.true_and]
  · rw [if_neg h, if_neg fun hk => h hk.2]
    rfl

theorem migrate_mask (q : MReg) {e : Nat} (he : e < 32768) :
    ((c.migrate g).vec.m[q]).getLsbD e = (decide (e < v.kept g) && (c.vec.m[q]).getLsbD e) := by
  subst hold
  have hreg : (c.migrate g).vec.m[q] = c.vec.m[q] &&& BitVec.ofNat 32768
      (2 ^ (VView.kept (migrationView c.vec.vtype (groupCount c.groups)) g) - 1) :=
    Vector.getElem_map ..
  rw [hreg, BitVec.getLsbD_and, BitVec.getLsbD_ofNat, Nat.testBit_two_pow_sub_one, decide_eq_true he, Bool.true_and, Bool.and_comm]

theorem migrate_gsv {e : Nat} (he : e < 2048) : (c.migrate g).vec.gsvAt e = if e < v.kept g then c.vec.gsvAt e else 0 := by
  subst hold
  have hreg : (c.migrate g).vec.gsv = c.vec.gsv &&& BitVec.ofNat 16384
    (2 ^ min (8 * VView.kept (migrationView c.vec.vtype (groupCount c.groups)) g) 16384 - 1) := rfl
  refine Nat.eq_of_testBit_eq fun i => ?_
  rw [VecRegs.gsvAt, hreg, bitsAt_testBit, BitVec.getLsbD_and, BitVec.getLsbD_ofNat, Nat.testBit_two_pow_sub_one]
  by_cases hi : i < 8
  · rw [decide_eq_true hi, decide_eq_true (show 8 * e + i < 16384 by omega), Bool.true_and, Bool.true_and]
    split
    · rw [VecRegs.gsvAt, bitsAt_testBit, decide_eq_true hi, Bool.true_and, decide_eq_true (by omega), Bool.and_true]
    · rw [decide_eq_false (by omega), Bool.and_false, Nat.zero_testBit]
  · rw [decide_eq_false hi, Bool.false_and]
    split
    · rw [VecRegs.gsvAt, bitsAt_testBit, decide_eq_false hi, Bool.false_and]
    · rw [Nat.zero_testBit]

end Migrate

end Sys2Proof.Machine
end

section
/-! PROOFS. VSETVL and VSETVLI: the lane-group change that waits, and the VTYPE and VL they grant (14 R214, R215; 02 R27; 05 R83). -/

namespace Sys2Proof.Machine

/-! ### Lane groups that move (02 R27, 26 R341) -/

/-- The groups that a slot owns and that do not move. -/
def ownKept (lp : Vector LaneGroup 8) (slot : Fin 4) : List (Fin 8) :=
  (List.finRange 8).filter (fun k => (lp[k]).owned && (lp[k]).owner == slot && !(lp[k]).move)

/-- No group of the slot moves to the slot itself. -/
def NoSelfMove (lp : Vector LaneGroup 8) (slot : Fin 4) : Prop :=
  ∀ k : Fin 8, ¬((lp[k]).owned = true ∧ (lp[k]).owner = slot ∧ (lp[k]).move = true ∧ (lp[k]).next = slot)

section MoveFrom
variable {slot : Fin 4} {g : LaneGroup}

theorem LaneGroup.moveFrom_moves (howned : g.owned = true) (howner : g.owner = slot) (hmove : g.move = true) :
    g.moveFrom slot = ⟨true, g.next, g.heir, 0, false⟩ := by
  rw [LaneGroup.moveFrom, if_pos (by simp [howned, howner, hmove]), howned]

theorem LaneGroup.moveFrom_stays (h : ¬(g.owned = true ∧ g.owner = slot ∧ g.move = true)) : g.moveFrom slot = g := by
  rw [LaneGroup.moveFrom, if_neg]
  simpa [and_assoc] using h

variable (hself : ¬(g.owned = true ∧ g.owner = slot ∧ g.move = true ∧ g.next = slot))
include hself

/-- A group is the slot's after the moves when it was before and does not move. -/
theorem LaneGroup.moveFrom_own : ((g.moveFrom slot).owned && (g.moveFrom slot).owner == slot) =
    (g.owned && g.owner == slot && !g.move) := by
  by_cases h : g.owned = true ∧ g.owner = slot ∧ g.move = true
  · obtain ⟨howned, howner, hmove⟩ := h
    have hnext : g.next ≠ slot := fun hn => hself ⟨howned, howner, hmove, hn⟩
    simp [LaneGroup.moveFrom_moves howned howner hmove, hmove, hnext]
  · rw [LaneGroup.moveFrom_stays h]
    by_cases hg : g.owned = true ∧ g.owner = slot
    · have hmove : g.move = false := Bool.eq_false_iff.mpr fun hm => h ⟨hg.1, hg.2, hm⟩
      simp [hmove]
    · have hno : (g.owned && g.owner == slot) = false := by simpa using hg
      rw [hno, Bool.false_and]

/-- The moves of a slot change none of the groups that are coming to it. -/
theorem LaneGroup.moveFrom_coming : (g.moveFrom slot).comingTo slot = g.comingTo slot := by
  by_cases h : g.owned = true ∧ g.owner = slot ∧ g.move = true
  · obtain ⟨howned, howner, hmove⟩ := h
    have hnext : g.next ≠ slot := fun hn => hself ⟨howned, howner, hmove, hn⟩
    simp [LaneGroup.moveFrom_moves howned howner hmove, LaneGroup.comingTo, hnext]
  · rw [LaneGroup.moveFrom_stays h]

end MoveFrom

/-- Replacing the listed entries of a vector one after another. -/
theorem foldl_set_getElem {α : Type} (f : α → α) {l : List (Fin 8)} (hl : l.Nodup) (k : Fin 8) :
    ∀ lp : Vector α 8, (l.foldl (fun lp k => lp.set k.val (f lp[k]) k.isLt) lp)[k] = if k ∈ l then f lp[k] else lp[k] := by
  induction l with
  | nil => exact fun lp => by simp
  | cons j l ih =>
    intro lp
    obtain ⟨hj, hl⟩ := List.nodup_cons.mp hl
    rw [List.foldl_cons, ih hl]
    by_cases hk : k = j
    · subst hk
      simp [hj]
    · have hne : j.val ≠ k.val := fun h => hk (Fin.ext h.symm)
      simp [hk, hne]

/-- LPART after the waiting change of a slot. -/
theorem applyLanes_none (c : Cluster) (slot : Fin 4) (k : Fin 8) : ((c.applyLanes slot none).lpart)[k] = (c.lpart[k]).moveFrom slot :=
  Vector.getElem_map ..

theorem applyLanes_some {c : Cluster} {slot : Fin 4} (hself : NoSelfMove c.lpart slot) (n : Nat) (k : Fin 8) :
    let keep := max (n - (c.lpart.toList.filter (fun g => g.owned && g.move && g.next == slot)).length) 1
    ((c.applyLanes slot (some n)).lpart)[k] = if k ∈ (ownKept c.lpart slot).drop keep then
        c.released slot ((c.lpart[k]).moveFrom slot) else (c.lpart[k]).moveFrom slot := by
  have hmoved : ∀ j : Fin 8, (c.lpart.map (LaneGroup.moveFrom slot))[j] = (c.lpart[j]).moveFrom slot := fun j => Vector.getElem_map ..
  have hown : (List.finRange 8).filter (fun j => ((c.lpart.map (LaneGroup.moveFrom slot))[j]).owned &&
      ((c.lpart.map (LaneGroup.moveFrom slot))[j]).owner == slot) = ownKept c.lpart slot :=
    List.filter_congr fun j _ => by rw [hmoved, LaneGroup.moveFrom_own (hself j)]
  have hcoming : ((c.lpart.map (LaneGroup.moveFrom slot)).toList.filter (fun g => g.comingTo slot)).length =
      (c.lpart.toList.filter (fun g => g.owned && g.move && g.next == slot)).length := by
    rw [Vector.toList_map, List.filter_map, List.length_map]
    refine congrArg List.length (List.filter_congr fun g hg => ?_)
    obtain ⟨j, hj, rfl⟩ := List.mem_iff_getElem.mp hg
    rw [Vector.length_toList] at hj
    rw [Vector.getElem_toList]
    exact LaneGroup.moveFrom_coming (hself ⟨j, hj⟩)
  have hnodup : ((ownKept c.lpart slot).drop (max (n - (c.lpart.toList.filter
      (fun g => g.owned && g.move && g.next == slot)).length) 1)).Nodup :=
    (((List.nodup_finRange 8).filter _).sublist (List.drop_sublist _ _))
  have hfold := foldl_set_getElem (c.released slot) hnodup k (c.lpart.map (LaneGroup.moveFrom slot))
  have happly : (c.applyLanes slot (some n)).lpart = (((List.finRange 8).filter (fun j =>
      ((c.lpart.map (LaneGroup.moveFrom slot))[j]).owned && ((c.lpart.map (LaneGroup.moveFrom slot))[j]).owner == slot)).drop
        (max (n - ((c.lpart.map (LaneGroup.moveFrom slot)).toList.filter (fun g => g.comingTo slot)).length) 1)).foldl
      (fun lp j => lp.set j.val (c.released slot lp[j]) j.isLt) (c.lpart.map (LaneGroup.moveFrom slot)) := rfl
  rw [hown, hcoming] at happly
  dsimp only
  rw [happly, hfold, hmoved]

theorem mem_ownKept {lp : Vector LaneGroup 8} {slot : Fin 4} {k : Fin 8} :
    k ∈ ownKept lp slot ↔ (lp[k]).owned = true ∧ (lp[k]).owner = slot ∧ (lp[k]).move = false := by
  simp [ownKept, and_assoc]

section Lanes
variable {c : Cluster} {slot : Fin 4} (hself : NoSelfMove c.lpart slot) (req : Option Nat) {k : Fin 8}
include hself

/-- A group that the slot does not release is where its move leaves it. -/
theorem applyLanes_kept (h : ∀ n, req = some n → k ∉ (ownKept c.lpart slot).drop
    (max (n - (c.lpart.toList.filter (fun g => g.owned && g.move && g.next == slot)).length) 1)) :
    ((c.applyLanes slot req).lpart)[k] = (c.lpart[k]).moveFrom slot := by
  cases req with
  | none => exact applyLanes_none c slot k
  | some n => exact (applyLanes_some hself n k).trans (if_neg (h n rfl))

/-- A group that moves goes to the slot that NEXT names. -/
theorem applyLanes_moves (howned : (c.lpart[k]).owned = true) (howner : (c.lpart[k]).owner = slot) (hmove : (c.lpart[k]).move = true) :
    ((c.applyLanes slot req).lpart)[k] = ⟨true, (c.lpart[k]).next, (c.lpart[k]).heir, 0, false⟩ := by
  rw [applyLanes_kept hself req fun n _ hmem => ?_, LaneGroup.moveFrom_moves howned howner hmove]
  have hstays := (mem_ownKept.mp (List.mem_of_mem_drop hmem)).2.2
  rw [hmove] at hstays
  cases hstays

/-- A group that is not the slot's own stays as it is. -/
theorem applyLanes_foreign (h : ¬((c.lpart[k]).owned = true ∧ (c.lpart[k]).owner = slot)) :
    ((c.applyLanes slot req).lpart)[k] = c.lpart[k] := by
  rw [applyLanes_kept hself req fun n _ hmem => ?_, LaneGroup.moveFrom_stays fun hg => h ⟨hg.1, hg.2.1⟩]
  have hk := mem_ownKept.mp (List.mem_of_mem_drop hmem)
  exact h ⟨hk.1, hk.2.1⟩

omit hself in
theorem moveFrom_ownKept (h : k ∈ ownKept c.lpart slot) : (c.lpart[k]).moveFrom slot = c.lpart[k] :=
  LaneGroup.moveFrom_stays fun hg => by
    have hstays := (mem_ownKept.mp h).2.2
    rw [hg.2.2] at hstays
    cases hstays

/-- What a request that lowers the count leaves of the slot's own groups. -/
theorem applyLanes_lowers (n : Nat) :
    let keep := max (n - (c.lpart.toList.filter (fun g => g.owned && g.move && g.next == slot)).length) 1
    (k ∈ (ownKept c.lpart slot).take keep → ((c.applyLanes slot (some n)).lpart)[k] = c.lpart[k]) ∧
    (k ∈ (ownKept c.lpart slot).drop keep → ((c.applyLanes slot (some n)).lpart)[k] =
      if (c.lpart[k]).heir ≠ slot ∧ (c.slots[(c.lpart[k]).heir]).isSome then { c.lpart[k] with owner := (c.lpart[k]).heir }
      else ⟨false, 0, 0, 0, false⟩) := by
  intro keep
  have hlane := applyLanes_some hself n k
  refine ⟨fun htake => ?_, fun hdrop => ?_⟩
  · rw [moveFrom_ownKept (List.mem_of_mem_take htake)] at hlane
    exact hlane.trans (if_neg fun hdrop => List.disjoint_take_drop ((List.nodup_finRange 8).filter _) le_rfl htake hdrop)
  · rw [moveFrom_ownKept (List.mem_of_mem_drop hdrop)] at hlane
    refine (hlane.trans (if_pos hdrop)).trans ?_
    unfold Cluster.released Cluster.resident
    simp only [Bool.and_eq_true, bne_iff_ne]
    rfl

end Lanes

/-! ### The waiting change (02 R24, R27) -/

theorem State.laneChange_held {s : State} (h : s.published s.me ≠ []) : s.laneChange = s := if_pos h

/-- A context that holds the groups of a set, no request waiting. -/
def Context.holding (c : Context) (gs : BitVec 8) : Context := { c with groups := gs, lreq := none }

/-- A thread receives the groups of a set: where their number changes its vector state migrates. -/
def Context.regroup (c : Context) (gs : BitVec 8) : Context :=
  (if groupCount gs = groupCount c.groups then c else c.migrate (groupCount gs)).holding gs

theorem Context.holding_rest (c : Context) (gs : BitVec 8) : (c.holding gs).pc = c.pc ∧ (c.holding gs).flags = c.flags ∧
    (c.holding gs).cl = c.cl ∧ (c.holding gs).slot = c.slot ∧ (c.holding gs).vec = c.vec ∧ (c.holding gs).groups = gs ∧
    (c.holding gs).lreq = none := ⟨rfl, rfl, rfl, rfl, rfl, rfl, rfl⟩

theorem Context.migrate_rest (c : Context) (g : Nat) : (c.migrate g).pc = c.pc ∧ (c.migrate g).flags = c.flags ∧ (c.migrate g).cl = c.cl ∧
    (c.migrate g).slot = c.slot := by
  refine ⟨?_, ?_, ?_, ?_⟩
  all_goals simp only [Context.migrate]

theorem Context.regroup_rest (c : Context) (gs : BitVec 8) : (c.regroup gs).pc = c.pc ∧ (c.regroup gs).flags = c.flags ∧
    (c.regroup gs).cl = c.cl ∧ (c.regroup gs).slot = c.slot ∧ (c.regroup gs).groups = gs ∧ (c.regroup gs).lreq = none := by
  unfold Context.regroup
  obtain ⟨hpc, hflags, hcl, hslot, -, hgroups, hlreq⟩ :=
    (if groupCount gs = groupCount c.groups then c else c.migrate (groupCount gs)).holding_rest gs
  rw [hpc, hflags, hcl, hslot]
  split
  · exact ⟨rfl, rfl, rfl, rfl, hgroups, hlreq⟩
  · obtain ⟨hpc, hflags, hcl, hslot⟩ := c.migrate_rest (groupCount gs)
    exact ⟨hpc, hflags, hcl, hslot, hgroups, hlreq⟩

theorem Context.regroup_vec (c : Context) (gs : BitVec 8) : (c.regroup gs).vec =
    if groupCount gs = groupCount c.groups then c.vec else (c.migrate (groupCount gs)).vec := by
  rw [Context.regroup, (Context.holding_rest _ gs).2.2.2.2.1]
  split <;> rfl

theorem State.laneChange_made {s : State} (h : s.published s.me = []) :
    s.laneChange = (s.modCluster s.me.cl (fun c => c.applyLanes s.me.slot s.me.lreq)).modMe (fun c =>
      c.regroup (ownedGroups (s.myCluster.applyLanes s.me.slot s.me.lreq).lpart s.me.slot)) := by
  have hlanes : (s.modCluster s.me.cl (fun c => c.applyLanes s.me.slot s.me.lreq)).myCluster =
      s.myCluster.applyLanes s.me.slot s.me.lreq := State.modCluster_same ..
  rw [State.laneChange, if_neg (not_not.mpr h)]
  exact congrArg (fun cl : Cluster => (s.modCluster s.me.cl (fun c => c.applyLanes s.me.slot s.me.lreq)).modMe (fun c =>
    c.regroup (ownedGroups cl.lpart s.me.slot))) hlanes

/-- What no lane-group change touches. -/
theorem State.laneChange_rest (s : State) : s.laneChange.me.pc = s.me.pc ∧ s.laneChange.me.flags = s.me.flags ∧
    s.laneChange.me.cl = s.me.cl ∧
    s.laneChange.me.slot = s.me.slot := by
  by_cases h : s.published s.me = []
  · rw [State.laneChange_made h]
    obtain ⟨hpc, hflags, hcl, hslot, -, -⟩ := s.me.regroup_rest (ownedGroups (s.myCluster.applyLanes s.me.slot s.me.lreq).lpart s.me.slot)
    exact ⟨hpc, hflags, hcl, hslot⟩
  · rw [State.laneChange_held h]
    exact ⟨rfl, rfl, rfl, rfl⟩

/-- With no change waiting nothing changes. -/
theorem State.laneChange_idle {s : State} (hmove : ∀ k : Fin 8, (s.myCluster.lpart[k]).move = false) (hreq : s.me.lreq = none)
    (hgroups : s.me.groups = ownedGroups s.myCluster.lpart s.me.slot) : s.laneChange = s := by
  by_cases h : s.published s.me = []
  · have hlpart : s.myCluster.lpart.map (LaneGroup.moveFrom s.me.slot) = s.myCluster.lpart := by
      refine Vector.ext fun k hk => ?_
      rw [Vector.getElem_map]
      exact LaneGroup.moveFrom_stays fun hg => Bool.eq_false_iff.mp (hmove ⟨k, hk⟩) hg.2.2
    have hcluster : s.myCluster.applyLanes s.me.slot s.me.lreq = s.myCluster := by
      rw [hreq]
      exact congrArg (fun lp => { s.myCluster with lpart := lp }) hlpart
    have hclusters : s.modCluster s.me.cl (fun c => c.applyLanes s.me.slot s.me.lreq) = s := by
      have hset : s.clusters.set s.me.cl.val (s.myCluster.applyLanes s.me.slot s.me.lreq) s.me.cl.isLt = s.clusters := by
        rw [hcluster]
        exact Vector.set_getElem_self ..
      exact congrArg (fun cls => { s with clusters := cls }) hset
    have hme : s.me.regroup s.me.groups = s.me := by
      rw [Context.regroup, if_pos rfl]
      exact congrArg (fun r => { s.me with lreq := r }) hreq.symm
    rw [State.laneChange_made h, hclusters, hcluster, ← hgroups]
    exact congrArg (fun c => { s with me := c }) hme
  · exact State.laneChange_held h

/-! ### Granting VTYPE and VL (14 R214; 05 R77) -/

/-- The context that VSETVL leaves. -/
def Context.granted (c : Context) (d : XReg) (r : BitVec 32 × BitVec 32) : Context :=
  let c1 := { c with vec := { c.vec with vtype := r.1, vl := r.2, vbeg := 0 } }
  let c2 := (c1.wx d (r.2.setWidth 64) 0).issueV 1 0
  { c2 with pc := c2.pc + 4 }

theorem Context.granted_spec (c : Context) (d : XReg) (r : BitVec 32 × BitVec 32) :
    (c.granted d r).vec = { c.vec with vtype := r.1, vl := r.2, vbeg := 0 } ∧ (c.granted d r).x = (c.wx d (r.2.setWidth 64) 0).x ∧
    (c.granted d r).ldx = d ∧ (c.granted d r).pc = c.pc + 4 ∧ (c.granted d r).flags = c.flags ∧ (c.granted d r).groups = c.groups ∧
    (c.granted d r).lreq = c.lreq ∧ (c.granted d r).cl = c.cl ∧ (c.granted d r).slot = c.slot := by
  unfold Context.granted Context.wx
  split <;> exact ⟨rfl, rfl, rfl, rfl, rfl, rfl, rfl, rfl, rfl⟩

/-- VSETVL on a thread outside a block. -/
theorem vsetvl_run {s : State} (hk : s.me.kind = .thread) (hg : s.me.group = none) {xs : List XReg} (hx : s.ReadyX xs) (d a : XReg)
    (req : State → Word) : vsetvl xs d a req s = .next (s.laneChange.modMe (fun c =>
      c.granted d (grantVl (req s) (s.rx a) (groupCount s.laneChange.me.groups)))) := by
  rw [vsetvl, threadOnly_thread hk, hg]
  exact readsX_ready hx _

/-- A rejected request. -/
theorem grantVl_rejected {w : Word} (h : requestOk w = false) (n : Word) (g : Nat) : grantVl w n g = (0x80000000, 0) := by
  unfold grantVl
  rw [h]
  rfl

/-- The length of blocks by their code. -/
theorem blOf_eq {b : Nat} (h0 : b ≠ 0) (h3 : b ≠ 3) (hlt : b < 4) : blOf b = 8 * 2 ^ b := by
  interval_cases b
  · exact absurd rfl h0
  · rfl
  · rfl
  · exact absurd rfl h3

section Accepted
variable {w : Word} {f : Fmt} (hf : Fmt.ofCode (w.toNat % 32) = some f) (hw : w.toNat < 2 ^ 19) (hrm : w.toNat / 32768 % 8 ≤ 4)
include hf hw hrm

/-- A request that R33, R34, R49 and R77 accept. -/
theorem requestOk_of (htdim : w.toNat / 1024 % 8 ≤ 4) (hbl : w.toNat / 256 % 4 ≠ 3)
    (htile : w.getLsbD 7 = true → w.toNat / 32 % 4 = 0)
    (hblocks : w.toNat / 256 % 4 ≠ 0 → f.blocks = true ∧ (8 * 2 ^ (w.toNat / 256 % 4)) % 2 ^ (w.toNat / 1024 % 8) = 0) :
    requestOk w = true := by
  have htiles : (w.getLsbD 7 && w.toNat / 32 % 4 != 0) = false := by
    cases h : w.getLsbD 7
    · rfl
    · rw [htile h]
      rfl
  have hblock : (w.toNat / 256 % 4 == 0 || (f.blocks && blOf (w.toNat / 256 % 4) % 2 ^ (w.toNat / 1024 % 8) == 0)) = true := by
    by_cases h0 : w.toNat / 256 % 4 = 0
    · rw [h0]
      rfl
    · obtain ⟨hfmt, hdim⟩ := hblocks h0
      rw [blOf_eq h0 hbl (Nat.mod_lt _ (by decide)), hfmt, Bool.true_and, beq_iff_eq.mpr hdim, Bool.or_true]
  unfold requestOk
  simp only [hf, hblock, htiles, decide_eq_true hw, decide_eq_true hrm, decide_eq_true htdim, decide_eq_true hbl, Bool.not_false,
    Bool.and_self]

/-- The view of an accepted request. -/
theorem viewOf_accepted (g : Nat) : ∃ v, viewOf (w.setWidth 32) g 0 0 = some v ∧
    v.vlmax = if w.getLsbD 7 then 32 * g else 2 ^ (w.toNat / 32 % 4) * 8 * g * 256 / f.sew := by
  have hnat : (w.setWidth 32).toNat = w.toNat := by
    rw [BitVec.toNat_setWidth]
    omega
  have hlow : ∀ i, i < 32 → (w.setWidth 32).getLsbD i = w.getLsbD i := fun i hi => by
    rw [BitVec.getLsbD_setWidth, decide_eq_true hi, Bool.true_and]
  have hhigh : w.getLsbD 31 = false := Nat.testBit_lt_two_pow (hw.trans (by norm_num))
  obtain ⟨rm, hrmode⟩ : ∃ rm, RMode.ofCode ((w.setWidth 32).extractLsb' 15 3) = some rm := by
    have hcode : ((w.setWidth 32).extractLsb' 15 3).toNat = w.toNat / 32768 % 8 := by
      rw [BitVec.extractLsb'_toNat, hnat, Nat.shiftRight_eq_div_pow]
    rw [RMode.ofCode, hcode]
    generalize w.toNat / 32768 % 8 = n at hrm
    interval_cases n <;> exact ⟨_, rfl⟩
  unfold viewOf
  simp only [hnat, hf, hrmode, hlow 31 (by decide), hlow 7 (by decide), hhigh]
  refine ⟨_, rfl, ?_⟩
  unfold VView.vlmax VView.sew
  dsimp only
  cases w.getLsbD 7
  · simp only [Bool.false_eq_true, if_false]
  · simp only [if_true]

end Accepted

/-- What an accepted request is granted. -/
theorem grantVl_accepted {w : Word} {g : Nat} {v : VView} (hok : requestOk w = true)
    (hv : viewOf (w.setWidth 32) g 0 0 = some v) (n : Word) :
    grantVl w n g = (w.setWidth 32, BitVec.ofNat 32 (min n.toNat v.vlmax)) := by
  unfold grantVl
  rw [hok, hv]

/-! ### The obligation -/

/-- The migration's view in terms of the requests that VTYPE can hold. -/
theorem migrationView_eq {w : BitVec 32} {g : Nat} {v : VView}
    (hv : viewOf (if requestOk (w.setWidth 64) then w else 0) g 0 0 = some v)
    (hok : requestOk (w.setWidth 64) = true ∨ w.getLsbD 31 = true) :
    migrationView w g = v := by
  unfold migrationView
  cases hreq : requestOk (w.setWidth 64)
  · have hill : viewOf w g 0 0 = none := by
      have hbit : w.getLsbD 31 = true := hok.resolve_left (by rw [hreq]; exact Bool.false_ne_true)
      unfold viewOf
      dsimp only
      split
      · exact if_pos hbit
      · rfl
    rw [hreq, if_neg Bool.false_ne_true] at hv
    rw [hill, hv]
    rfl
  · rw [hreq, if_pos rfl] at hv
    rw [hv]
    rfl

/-- A format with blocks has codes of at most 8 bits. -/
theorem Fmt.blocks_sew {f : Fmt} (h : f.blocks = true) : f.sew ≤ 8 := by
  revert h
  cases f <;> decide

theorem requestOk_blocks {w : Word} {f : Fmt} (h : requestOk w = true) (hf : Fmt.ofCode (w.toNat % 32) = some f)
    (hbl : w.toNat / 256 % 4 ≠ 0) : f.blocks = true := by
  unfold requestOk at h
  simp only [hf, Bool.and_eq_true, Bool.or_eq_true, beq_iff_eq] at h
  exact (h.2.resolve_left hbl).1

/-- VTYPE holds blocks only of a format that has them. -/
theorem viewOf_blocks {w : BitVec 32} {g : Nat} {v : VView}
    (hv : viewOf (if requestOk (w.setWidth 64) then w else 0) g 0 0 = some v) (hbl : v.bl ≠ 0) : v.sew ≤ 8 := by
  obtain ⟨-, hfmt, hcode⟩ := viewOf_fields hv
  cases hreq : requestOk (w.setWidth 64)
  · rw [hreq, if_neg Bool.false_ne_true] at hcode
    exact absurd hcode hbl
  · rw [hreq, if_pos rfl] at hfmt hcode
    have hnat : (w.setWidth 64).toNat = w.toNat := BitVec.toNat_setWidth_of_le (by decide)
    refine Fmt.blocks_sew (requestOk_blocks hreq (by rw [hnat]; exact hfmt) ?_)
    rw [hnat]
    intro h0
    rw [h0] at hcode
    exact hbl hcode

theorem State.regroup_spec (t : State) (gs : BitVec 8) : (t.modMe (fun c => c.regroup gs)).myCluster = t.myCluster ∧
    (t.modMe (fun c => c.regroup gs)).me.groups = gs ∧ (t.modMe (fun c => c.regroup gs)).me.lreq = none ∧
    (t.modMe (fun c => c.regroup gs)).me.vec =
      if groupCount gs = groupCount t.me.groups then t.me.vec else (t.me.migrate (groupCount gs)).vec := by
  obtain ⟨-, -, hcl, -, hgroups, hlreq⟩ := t.me.regroup_rest gs
  exact ⟨State.modMe_myCluster_of _ _ hcl, hgroups, hlreq, t.me.regroup_vec gs⟩

/-- What the waiting change leaves, where it is made. -/
theorem State.laneChange_spec {s : State} (h : s.published s.me = []) :
    s.laneChange.myCluster = s.myCluster.applyLanes s.me.slot s.me.lreq ∧
    s.laneChange.me.groups = ownedGroups s.laneChange.myCluster.lpart s.me.slot ∧ s.laneChange.me.lreq = none ∧
    s.laneChange.me.vec = if groupCount s.laneChange.me.groups = groupCount s.me.groups then s.me.vec else
      (s.me.migrate (groupCount s.laneChange.me.groups)).vec := by
  have hlanes : (s.modCluster s.me.cl (fun c => c.applyLanes s.me.slot s.me.lreq)).myCluster =
      s.myCluster.applyLanes s.me.slot s.me.lreq := State.modCluster_same ..
  obtain ⟨hcluster, hgroups, hlreq, hvec⟩ := (s.modCluster s.me.cl (fun c => c.applyLanes s.me.slot s.me.lreq)).regroup_spec
    (ownedGroups (s.myCluster.applyLanes s.me.slot s.me.lreq).lpart s.me.slot)
  rw [State.laneChange_made h, hcluster, hgroups, hlreq, hvec, hlanes]
  exact ⟨rfl, rfl, rfl, rfl⟩

/-- The vector registers that VSETVL leaves, in terms of the VTYPE and VL it leaves. -/
theorem Context.granted_vec (c : Context) (d : XReg) (r : BitVec 32 × BitVec 32) :
    (c.granted d r).vec = { c.vec with vtype := (c.granted d r).vec.vtype, vl := (c.granted d r).vec.vl, vbeg := 0 } := by
  rw [(c.granted_spec d r).1]

/-- What the vector registers of a migrated thread hold, whatever VTYPE, VL and VBEG have become. -/
theorem migrate_spec {c : Context} {v : VView} {gs : BitVec 8}
    (hv : viewOf (if requestOk (c.vec.vtype.setWidth 64) then c.vec.vtype else 0) (groupCount c.groups) 0 0 = some v)
    (hvalid : requestOk (c.vec.vtype.setWidth 64) = true ∨ c.vec.vtype.getLsbD 31 = true) {p q : VecRegs}
    (hp : p = (c.migrate (groupCount gs)).vec) (hq : q = { p with vtype := q.vtype, vl := q.vl, vbeg := 0 }) :
    let w := { v with g := groupCount gs }
    let lim := min v.vlmax w.vlmax
    (∀ r : VReg, aligned r v.lmul = true → ∀ e, e < w.vlmax * v.per →
      q.elem w r v.sew e = if e / v.per < lim then c.vec.elem v r v.sew e else 0) ∧
    (∀ (k : MReg) (e : Nat), e < 32768 → (q.m[k]).getLsbD e = (decide (e < lim) && (c.vec.m[k]).getLsbD e)) ∧
    (∀ e, e < 2048 → q.gsvAt e = if e < lim then c.vec.gsvAt e else 0) ∧
    (v.bl = 0 → ∀ (k : VReg) (e : Nat), e < 256 → (q.sh[k]).extractLsb' (32 * e) 32 =
      if e < 32 * min v.g w.g then (c.vec.sh[k]).extractLsb' (32 * e) 32 else 0x0000807F) ∧
    (v.bl ≠ 0 → ∀ r : VReg, aligned r v.lmul = true → ∀ b, b * v.bl < w.vlmax * v.per →
      q.desc w r b = if b * v.bl < lim * v.per then c.vec.desc v r b else 0x0000807F) ∧
    q = { c.vec with vtype := q.vtype, vl := q.vl, vbeg := 0, v := q.v, sh := q.sh, m := q.m, gsv := q.gsv } := by
  intro w lim
  obtain ⟨c', hview⟩ := exists_view hv c
  have hold := migrationView_eq hv hvalid
  have hl := Context.view_lmul_cases hview
  have htile := (Context.view_lmul hview).2
  have hg8 : groupCount gs ≤ 8 := (List.length_filter_le _ _).trans (List.length_range ..).le
  have hregs : q.v = p.v := (congrArg VecRegs.v hq).trans rfl
  have hsh : q.sh = p.sh := (congrArg VecRegs.sh hq).trans rfl
  have hm : q.m = p.m := (congrArg VecRegs.m hq).trans rfl
  have hgsv : q.gsv = p.gsv := (congrArg VecRegs.gsv hq).trans rfl
  refine ⟨fun r hr e he => ?_, fun k e he => ?_, fun e he => ?_, fun hbl k e he => ?_, fun hbl r hr b hb => ?_, ?_⟩
  · rw [VecRegs.elem_congr hregs, hp]
    exact migrate_elem hold hl htile hg8 hr he
  · rw [hm, hp]
    exact migrate_mask hold k he
  · rw [VecRegs.gsvAt, hgsv, hp]
    exact migrate_gsv hold he
  · rw [hsh, hp]
    exact migrate_entries hold hl hbl k he
  · rw [VecRegs.desc_congr hsh, hp]
    exact migrate_desc hold hl htile hg8 (Context.view_blocks hview hbl) (viewOf_blocks hv hbl) hr hb
  · have hframe : p = { c.vec with v := p.v, sh := p.sh, m := p.m, gsv := p.gsv } := by
      rw [hp]
      exact migrate_vec
    rw [hregs, hsh, hm, hgsv]
    exact hq.trans (congrArg (fun r : VecRegs => { r with vtype := q.vtype, vl := q.vl, vbeg := 0 }) hframe)

/-- Settles O34: VSETVL makes the lane-group change that waits, group by group, and grants under the groups then held; where their
number changes every element, descriptor, mask and GSV entry is that of the migration. -/
theorem vectorLengthGrant : Obligations.VectorLengthGrant := by
  unfold Obligations.VectorLengthGrant
  refine ⟨?grants, ?changes⟩
  case grants =>
    intro s d a b req rm hk hg grants
    have grant : ∀ i w, exec i s = .next (s.laneChange.modMe (fun c =>
        c.granted d (grantVl w (s.rx a) (groupCount s.laneChange.me.groups)))) → grants i w := by
      intro i w hrun
      obtain ⟨hvec, hx, hldx, hpc, hflags, -⟩ :=
        s.laneChange.me.granted_spec d (grantVl w (s.rx a) (groupCount s.laneChange.me.groups))
      obtain ⟨hpc', hflags', -⟩ := s.laneChange_rest
      have hvtype := congrArg VecRegs.vtype hvec
      have hvl := congrArg VecRegs.vl hvec
      refine ⟨_, hrun, rfl, fun f hf hok => ?_, fun hrej => ?_, Context.granted_vec .., hx.trans ?_, hldx, hpc.trans (by rw [hpc']),
        hflags.trans hflags', State.laneChange_idle⟩
      · obtain ⟨hw, hrm, htdim, hbl, htile, hblocks⟩ := hok
        obtain ⟨v, hv, hmax⟩ := viewOf_accepted hf hw hrm (groupCount s.laneChange.me.groups)
        have hgrant := grantVl_accepted (requestOk_of hf hw hrm htdim hbl htile hblocks) hv (s.rx a)
        rw [hmax] at hgrant
        exact ⟨hvtype.trans (congrArg Prod.fst hgrant), hvl.trans (congrArg Prod.snd hgrant)⟩
      · have hgrant := grantVl_rejected hrej (s.rx a) (groupCount s.laneChange.me.groups)
        exact ⟨hvtype.trans (congrArg Prod.fst hgrant), hvl.trans (congrArg Prod.snd hgrant)⟩
      · exact congrArg (fun l : BitVec 32 => (s.laneChange.me.wx d (l.setWidth 64) 0).x) hvl.symm
    exact ⟨fun hx => grant _ _ (vsetvl_run hk hg hx d a (fun s => s.rx b)),
      fun hx => grant _ _ (vsetvl_run hk hg hx d a (fun _ => req.setWidth 64 ||| (rm.setWidth 64 <<< 15)))⟩
  case changes =>
    intro s d a req rm hk hg hx
    have hrun := vsetvl_run hk hg hx d a (fun _ => req.setWidth 64 ||| (rm.setWidth 64 <<< 15))
    generalize grantVl (req.setWidth 64 ||| (rm.setWidth 64 <<< 15)) (s.rx a) (groupCount s.laneChange.me.groups) = r at hrun
    refine ⟨_, hrun, ?_⟩
    intro vt lp slot own coming
    obtain ⟨-, -, -, -, -, hgroups, hlreq, hcl, hslot⟩ := s.laneChange.me.granted_spec d r
    have hvec := s.laneChange.me.granted_vec d r
    refine ⟨fun hheld => ?_, fun hfree => ?_⟩
    · have hsame := State.laneChange_held hheld
      exact ⟨congrArg (fun u : State => { u with me := s.laneChange.me.granted d r }) hsame,
        hgroups.trans (congrArg (fun u : State => u.me.groups) hsame), hlreq.trans (congrArg (fun u : State => u.me.lreq) hsame),
        hvec.trans (congrArg (fun u : State => vt u) hsame)⟩
    · have hcluster : (s.laneChange.modMe (fun c => c.granted d r)).myCluster = s.laneChange.myCluster := State.modMe_myCluster_of _ _ hcl
      obtain ⟨hlanes, howned, hnone, hchange⟩ := State.laneChange_spec hfree
      refine ⟨hlreq.trans hnone, ?_, fun hself k => ?_, fun hcount => ?_, fun hcount v hv hvalid => ?_⟩
      · rw [hcluster]
        exact hgroups.trans howned
      · rw [hcluster, hlanes]
        refine ⟨applyLanes_moves hself _, applyLanes_foreign hself _, fun hown hreq => ?_, fun n hreq => ?_⟩
        · rw [hreq, applyLanes_none]
          exact moveFrom_ownKept hown
        · rw [hreq]
          exact applyLanes_lowers hself n
      · have hsame := hchange.trans (if_pos (hgroups ▸ hcount))
        exact hvec.trans (congrArg (fun q : VecRegs => { q with
          vtype := (s.laneChange.me.granted d r).vec.vtype, vl := (s.laneChange.me.granted d r).vec.vl, vbeg := 0 }) hsame)
      · have hmoved := hchange.trans (if_neg (hgroups ▸ hcount))
        rw [show (s.laneChange.modMe (fun c => c.granted d r)).me.groups = s.laneChange.me.groups from hgroups] at hcount ⊢
        exact migrate_spec hv hvalid hmoved hvec

end Sys2Proof.Machine
end
